-- ==== Sys2Proof/Word.lean ====
section
/-! DEFINITION. Word types of the Onagarak architecture and their plainest arithmetic (R2, R111). -/

namespace Sys2Proof

/-- A 32-bit register pattern (R111). -/
abbrev Word := BitVec 32

/-- A 64-bit value: a register pair, an address, a device register (R111, R274). -/
abbrev DWord := BitVec 64

/-- A byte of memory. -/
abbrev Byte := BitVec 8

/-- An 8-bit operand code: a register, or an inline constant (R82). -/
abbrev Code := BitVec 8

/-- A scoreboard slot field (R60): 0 to 5, 7 for none; 6 is reserved. -/
abbrev Slot := BitVec 3

end Sys2Proof
end

