-- ==== Sys2Proof/Syntax.lean ====
section
/-! DEFINITION. The instruction syntax: one constructor of Instr for each row of spec/opcode_table.json. -/

namespace Sys2Proof

/-- The RM field of an X.M word (R77). -/
inductive Rm where
  | dflt | rne | rtz | rup | rdn | sr
deriving DecidableEq, Repr, Inhabited

/-- A comparison condition (R78). -/
inductive Cond where
  | eq | ne | lt | le | gt | ge | ltu | leu | gtu | geu | ord | uno
deriving DecidableEq, Repr, Inhabited

/-- The six modifier bits of an X.M word (R76). -/
structure Mods where
  absC : Bool
  absB : Bool
  absA : Bool
  negC : Bool
  negB : Bool
  negA : Bool
deriving DecidableEq, Repr, Inhabited

/-- The index signedness of LEA (R401). -/
inductive LeaIndex where
  | signed | unsigned
deriving DecidableEq, Repr, Inhabited

/-- The format code of a packed word (R426): codes 0 and 1 are FP16, 2 is BF16. -/
inductive PFmt where
  | f16zero | f16 | bf16
deriving DecidableEq, Repr, Inhabited

/-- A format code (R79). -/
inductive Fmt where
  | fp32 | fp16 | bf16 | e4m3 | e5m2 | int32 | uint32
  | reg (n : Fin 8)
deriving DecidableEq, Repr, Inhabited

/-- SHFL's modes (R128). -/
inductive ShflMode where
  | idx | up | down | xor
deriving DecidableEq, Repr, Inhabited

/-- VOTE's modes (R128). -/
inductive VoteMode where
  | any | all | uni | ballot
deriving DecidableEq, Repr, Inhabited

/-- REDUX's operations (R128). -/
inductive ReduxOp where
  | add | minS | maxS | minU | maxU | and | or | xor
deriving DecidableEq, Repr, Inhabited

/-- ATOM's access size (R344). -/
inductive AtomSize where
  | w | d
deriving DecidableEq, Repr, Inhabited

/-- ATOM's operations (R345). -/
inductive AtomOp where
  | swap | cas | add | and | or | xor | minS | maxS | minU | maxU
deriving DecidableEq, Repr, Inhabited

/-- FENCE's order (R190). -/
inductive FenceOrder where
  | acq | rel | ar | sc
deriving DecidableEq, Repr, Inhabited

/-- FENCE's scope (R181, R190). -/
inductive FenceScope where
  | team | wg | core | cl | die | dev | sys
deriving DecidableEq, Repr, Inhabited

/-- SEMSIG's operation (R213). -/
inductive SemOp where
  | set | add | or | maxU
deriving DecidableEq, Repr, Inhabited

/-- CANCEL's level (R103). -/
inductive CancelLevel where
  | launch | graph | phase | job
deriving DecidableEq, Repr, Inhabited

/-- The scope of ICINV and TLBINV (R163, R271). -/
inductive InvScope where
  | core | cl | die | part | dev
deriving DecidableEq, Repr, Inhabited

/-- The system registers of R119. -/
inductive SysReg where
  | teamid | laneid | lanes | wgid | launchid | core | cluster | priv
  | rlvl | noticeEn | tcause | tpc | taddr | tinfo | trapvec
  | fpstat | seed | timeNs | cycles | fb | fsp
deriving DecidableEq, Repr, Inhabited

/-- MLOAD's element size (R235). -/
inductive MSize where
  | h | b | n | s
deriving DecidableEq, Repr, Inhabited

/-- MSTORE's format (R235). -/
inductive MStFmt where
  | f32 | bf16 | f16
deriving DecidableEq, Repr, Inhabited

/-- MMA's format (R235). -/
inductive MmaFmt where
  | bf16 | f16 | e4m3 | e5m2
  | reg (n : Fin 8)
deriving DecidableEq, Repr, Inhabited

/-- A write to a device register (R273, R274): through a device register address at F level, or through
BAR0 of a function. -/
inductive RegWrite where
  | atF (addr : Nat) (v : DWord)
  | bar0 (fn : Nat) (off : Nat) (v : DWord)
deriving DecidableEq, Repr, Inhabited

/-- What a leader announces of its clock (R281; log entry 55), and its announce interval in ns. -/
structure Announce where
  prio1 : Nat
  cls : Nat
  accuracy : Nat
  variance : Nat
  prio2 : Nat
  grandmaster : Nat
  steps : Nat
  interval : Nat
deriving DecidableEq, Repr, Inhabited

/-- What a PTP message tells the port (R281, R282; log entry 55). -/
inductive PtpBody where
  | announce (a : Announce)
  /-- The messages from which the leader's time is measured: it, in ns. -/
  | time (leaderNs : Nat)
  | pdelayReq
deriving DecidableEq, Repr, Inhabited

/-- A received PTP message, as far as it matters to the clock (R281, R282): its domain and transport, the identity of the
port that sends it, and what it tells. -/
structure PtpMsg where
  domain : Byte
  transport : BitVec 2
  source : Nat
  body : PtpBody
deriving DecidableEq, Repr, Inhabited

/-- A received Ethernet frame (R284): the acceptance facts, and what a filter and a descriptor read. -/
structure Frame where
  goodFcs : Bool
  oneTagAtMost : Bool
  addressed : Bool
  plainIp : Bool
  goodUdp : Bool
  ptp : Bool
  dstPort : BitVec 16
  srcPort : BitVec 16
  tci : Option (BitVec 16)
  payload : List Byte
deriving DecidableEq, Repr, Inhabited

/-- The one instruction type: a constructor for each row of the opcode table. The first 154 are the words
of R84's map, in the table's order; the others are the device's steps, which have no encoding and carry what
comes from outside the device as arguments. -/
inductive Instr where
  /-- IADD: sum modulo 2^32 (R388). -/
  | iadd (d : Code) (a : Code) (b : Code)
  /-- IADD with an X.L literal for B (R388, R75). -/
  | iaddLit (d : Code) (a : Code) (lit : Word)
  /-- ISUB: difference modulo 2^32 (R388). -/
  | isub (d : Code) (a : Code) (b : Code)
  /-- ISUB with an X.L literal for B (R388, R75). -/
  | isubLit (d : Code) (a : Code) (lit : Word)
  /-- IMUL: low product modulo 2^32 (R388). -/
  | imul (d : Code) (a : Code) (b : Code)
  /-- IMUL with an X.L literal for B (R388, R75). -/
  | imulLit (d : Code) (a : Code) (lit : Word)
  /-- IMULH.S (R388). -/
  | imulhS (d : Code) (a : Code) (b : Code)
  /-- IMULH.U (R388). -/
  | imulhU (d : Code) (a : Code) (b : Code)
  /-- IMAD (R394). -/
  | imad (d : Code) (a : Code) (b : Code) (c : Code)
  /-- IMIN.S (R388). -/
  | iminS (d : Code) (a : Code) (b : Code)
  /-- IMIN.S with an X.L literal for B (R388, R75). -/
  | iminSLit (d : Code) (a : Code) (lit : Word)
  /-- IMIN.U (R388). -/
  | iminU (d : Code) (a : Code) (b : Code)
  /-- IMIN.U with an X.L literal for B (R388, R75). -/
  | iminULit (d : Code) (a : Code) (lit : Word)
  /-- IMAX.S (R388). -/
  | imaxS (d : Code) (a : Code) (b : Code)
  /-- IMAX.S with an X.L literal for B (R388, R75). -/
  | imaxSLit (d : Code) (a : Code) (lit : Word)
  /-- IMAX.U (R388). -/
  | imaxU (d : Code) (a : Code) (b : Code)
  /-- IMAX.U with an X.L literal for B (R388, R75). -/
  | imaxULit (d : Code) (a : Code) (lit : Word)
  /-- IABS (R388). -/
  | iabs (d : Code) (a : Code)
  /-- ICMP (R392). -/
  | icmp (d : Code) (a : Code) (b : Code) (cond : Cond)
  /-- LEA, signed index, no shift (R401). -/
  | lea (d : Code) (a : Code) (b : Code)
  /-- LEA with a shift and an index signedness (R401). -/
  | leaX (d : Code) (a : Code) (b : Code) (ix : LeaIndex) (sh : BitVec 3)
  /-- AND (R343). -/
  | and (d : Code) (a : Code) (b : Code)
  /-- AND with an X.L literal for B (R343, R75). -/
  | andLit (d : Code) (a : Code) (lit : Word)
  /-- OR (R423). -/
  | or (d : Code) (a : Code) (b : Code)
  /-- OR with an X.L literal for B (R423, R75). -/
  | orLit (d : Code) (a : Code) (lit : Word)
  /-- XOR (R423). -/
  | xor (d : Code) (a : Code) (b : Code)
  /-- XOR with an X.L literal for B (R423, R75). -/
  | xorLit (d : Code) (a : Code) (lit : Word)
  /-- SHL (R435). -/
  | shl (d : Code) (a : Code) (b : Code)
  /-- SHR, logical (R435). -/
  | shr (d : Code) (a : Code) (b : Code)
  /-- SHR with MODE: .U or .S (R435). -/
  | shrX (d : Code) (a : Code) (b : Code) (arith : Bool)
  /-- ROT (R435). -/
  | rot (d : Code) (a : Code) (b : Code)
  /-- BFX (R349). -/
  | bfx (d : Code) (a : Code) (b : Code) (signed : Bool) (c : Code)
  /-- BFI (R349). -/
  | bfi (d : Code) (a : Code) (b : Code) (c : Code)
  /-- POPC (R429). -/
  | popc (d : Code) (a : Code)
  /-- CLZ (R355). -/
  | clz (d : Code) (a : Code)
  /-- BREV (R355). -/
  | brev (d : Code) (a : Code)
  /-- SEL (R437). -/
  | sel (d : Code) (a : Code) (b : Code) (c : Code)
  /-- MOV (R413). -/
  | mov (d : Code) (a : Code)
  /-- MOV with an X.L literal (R413). -/
  | movLit (d : Code) (lit : Word)
  /-- MOVI (R413). -/
  | movi (d : Code) (imm : BitVec 16)
  /-- MOVX (R113). -/
  | movx (d : Code) (a : Code)
  /-- MOVXW (R113). -/
  | movxw (a : Code) (b : Code)
  /-- FADD, RNE (R373). -/
  | fadd (d : Code) (a : Code) (b : Code)
  /-- FADD with rounding and modifiers (R373). -/
  | faddX (d : Code) (a : Code) (b : Code) (m : Mods) (rm : Rm)
  /-- FSUB, RNE (R373). -/
  | fsub (d : Code) (a : Code) (b : Code)
  /-- FSUB with rounding and modifiers (R373). -/
  | fsubX (d : Code) (a : Code) (b : Code) (m : Mods) (rm : Rm)
  /-- FMUL, RNE (R373). -/
  | fmul (d : Code) (a : Code) (b : Code)
  /-- FMUL with rounding and modifiers (R373). -/
  | fmulX (d : Code) (a : Code) (b : Code) (m : Mods) (rm : Rm)
  /-- FFMA (R381). -/
  | ffma (d : Code) (a : Code) (b : Code) (m : Mods) (rm : Rm) (c : Code)
  /-- FMIN (R373). -/
  | fmin (d : Code) (a : Code) (b : Code)
  /-- FMIN with modifiers (R373). -/
  | fminX (d : Code) (a : Code) (b : Code) (m : Mods)
  /-- FMAX (R373). -/
  | fmax (d : Code) (a : Code) (b : Code)
  /-- FMAX with modifiers (R373). -/
  | fmaxX (d : Code) (a : Code) (b : Code) (m : Mods)
  /-- FCMP (R375). -/
  | fcmp (d : Code) (a : Code) (b : Code) (cond : Cond) (m : Mods)
  /-- FRCP (R377). -/
  | frcp (d : Code) (a : Code)
  /-- FRCP with rounding and modifiers (R377). -/
  | frcpX (d : Code) (a : Code) (m : Mods) (rm : Rm)
  /-- FRSQ (R377). -/
  | frsq (d : Code) (a : Code)
  /-- FRSQ with rounding and modifiers (R377). -/
  | frsqX (d : Code) (a : Code) (m : Mods) (rm : Rm)
  /-- FSQRT (R377). -/
  | fsqrt (d : Code) (a : Code)
  /-- FSQRT with rounding and modifiers (R377). -/
  | fsqrtX (d : Code) (a : Code) (m : Mods) (rm : Rm)
  /-- FEXP2 (R377). -/
  | fexp2 (d : Code) (a : Code)
  /-- FEXP2 with rounding and modifiers (R377). -/
  | fexp2X (d : Code) (a : Code) (m : Mods) (rm : Rm)
  /-- FLOG2 (R377). -/
  | flog2 (d : Code) (a : Code)
  /-- FLOG2 with rounding and modifiers (R377). -/
  | flog2X (d : Code) (a : Code) (m : Mods) (rm : Rm)
  /-- FSIN (R377). -/
  | fsin (d : Code) (a : Code)
  /-- FSIN with rounding and modifiers (R377). -/
  | fsinX (d : Code) (a : Code) (m : Mods) (rm : Rm)
  /-- FCOS (R377). -/
  | fcos (d : Code) (a : Code)
  /-- FCOS with rounding and modifiers (R377). -/
  | fcosX (d : Code) (a : Code) (m : Mods) (rm : Rm)
  /-- PADD, FP16 with RNE (R426). -/
  | padd (d : Code) (a : Code) (b : Code)
  /-- PADD with format, rounding and modifiers (R426). -/
  | paddX (d : Code) (a : Code) (b : Code) (pf : PFmt) (m : Mods) (rm : Rm)
  /-- PMUL, FP16 with RNE (R426). -/
  | pmul (d : Code) (a : Code) (b : Code)
  /-- PMUL with format, rounding and modifiers (R426). -/
  | pmulX (d : Code) (a : Code) (b : Code) (pf : PFmt) (m : Mods) (rm : Rm)
  /-- PFMA (R426). -/
  | pfma (d : Code) (a : Code) (b : Code) (pf : PFmt) (m : Mods) (rm : Rm) (c : Code)
  /-- PACK8 (R424). -/
  | pack8 (d : Code) (a : Code) (fd : Fmt) (rm : Rm)
  /-- UNPACK (R450). -/
  | unpack (d : Code) (a : Code) (b : Code) (fs : Fmt)
  /-- CVT (R229). -/
  | cvt (d : Code) (a : Code) (fs : Fmt) (fd : Fmt) (sat : Bool) (m : Mods) (rm : Rm)
  /-- FMTSET (R383). -/
  | fmtset (n : BitVec 3) (a : Code)
  /-- FMTGET (R383). -/
  | fmtget (d : Code) (n : BitVec 3)
  /-- SHFL (R430). -/
  | shfl (d : Code) (a : Code) (b : Code) (mode : ShflMode)
  /-- VOTE (R430). -/
  | vote (d : Code) (a : Code) (b : Code) (mode : VoteMode)
  /-- REDUX (R430). -/
  | redux (d : Code) (a : Code) (mode : ReduxOp)
  /-- BCAST (R348). -/
  | bcast (d : Code) (a : Code) (b : Code)
  /-- LD.B (R397). -/
  | ldB (d : Code) (b : Code) (slot : BitVec 3) (off : BitVec 5)
  /-- LD.B with an X.A word (R397). -/
  | ldBX (d : Code) (b : Code) (slot : BitVec 3) (off : BitVec 5) (signed : Bool) (acq : Bool)
  /-- LD.H (R397). -/
  | ldH (d : Code) (b : Code) (slot : BitVec 3) (off : BitVec 5)
  /-- LD.H with an X.A word (R397). -/
  | ldHX (d : Code) (b : Code) (slot : BitVec 3) (off : BitVec 5) (signed : Bool) (acq : Bool)
  /-- LD.W (R397). -/
  | ldW (d : Code) (b : Code) (slot : BitVec 3) (off : BitVec 5)
  /-- LD.W with an X.A word (R397). -/
  | ldWX (d : Code) (b : Code) (slot : BitVec 3) (off : BitVec 5) (acq : Bool)
  /-- LD.D (R397). -/
  | ldD (d : Code) (b : Code) (slot : BitVec 3) (off : BitVec 5)
  /-- LD.D with an X.A word (R397). -/
  | ldDX (d : Code) (b : Code) (slot : BitVec 3) (off : BitVec 5) (acq : Bool)
  /-- LD.Q (R397). -/
  | ldQ (d : Code) (b : Code) (slot : BitVec 3) (off : BitVec 5)
  /-- LD.Q with an X.A word (R397). -/
  | ldQX (d : Code) (b : Code) (slot : BitVec 3) (off : BitVec 5) (acq : Bool)
  /-- ST.B (R443). -/
  | stB (d : Code) (b : Code) (slot : BitVec 3) (off : BitVec 5)
  /-- ST.B with an X.A word (R443). -/
  | stBX (d : Code) (b : Code) (slot : BitVec 3) (off : BitVec 5) (rel : Bool)
  /-- ST.H (R443). -/
  | stH (d : Code) (b : Code) (slot : BitVec 3) (off : BitVec 5)
  /-- ST.H with an X.A word (R443). -/
  | stHX (d : Code) (b : Code) (slot : BitVec 3) (off : BitVec 5) (rel : Bool)
  /-- ST.W (R443). -/
  | stW (d : Code) (b : Code) (slot : BitVec 3) (off : BitVec 5)
  /-- ST.W with an X.A word (R443). -/
  | stWX (d : Code) (b : Code) (slot : BitVec 3) (off : BitVec 5) (rel : Bool)
  /-- ST.D (R443). -/
  | stD (d : Code) (b : Code) (slot : BitVec 3) (off : BitVec 5)
  /-- ST.D with an X.A word (R443). -/
  | stDX (d : Code) (b : Code) (slot : BitVec 3) (off : BitVec 5) (fr : Bool) (rel : Bool)
  /-- ST.Q (R443). -/
  | stQ (d : Code) (b : Code) (slot : BitVec 3) (off : BitVec 5)
  /-- ST.Q with an X.A word (R443). -/
  | stQX (d : Code) (b : Code) (slot : BitVec 3) (off : BitVec 5) (rel : Bool)
  /-- LDT (R400). -/
  | ldt (d : Code) (b : Code) (slot : BitVec 3) (off : BitVec 5)
  /-- ATOM (R344). -/
  | atom (d : Code) (b : Code) (slot : BitVec 3) (off : BitVec 5) (size : AtomSize) (c : Code) (op : AtomOp) (rel : Bool) (acq : Bool)
  /-- FENCE (R190). -/
  | fence (ord : FenceOrder) (scope : FenceScope)
  /-- ACCRD (R341). -/
  | accrd (d : Code) (a : Code)
  /-- ACCWR (R341). -/
  | accwr (a : Code) (b : Code)
  /-- COPY (R198). -/
  | copy (g : Code) (nb : BitVec 4) (slot : BitVec 3) (keyovr : Bool) (reseal : Bool) (arrive : Bool)
  /-- COPYC (R198). -/
  | copyc (g : Code) (nb : BitVec 4) (slot : BitVec 3) (keyovr : Bool) (reseal : Bool) (arrive : Bool)
  /-- NBINIT (R208). -/
  | nbinit (a : Code) (nb : BitVec 4) (slot : BitVec 3)
  /-- NBARR (R208). -/
  | nbarr (nb : BitVec 4) (slot : BitVec 3)
  /-- NBWAIT (R208). -/
  | nbwait (d : Code) (nb : BitVec 4) (slot : BitVec 3) (det : Bool)
  /-- NBSYNC (R208). -/
  | nbsync (d : Code) (nb : BitVec 4) (slot : BitVec 3) (det : Bool)
  /-- NBINV (R208). -/
  | nbinv (nb : BitVec 4) (slot : BitVec 3)
  /-- SEMSIG (R213). -/
  | semsig (g : Code) (slot : BitVec 3) (op : SemOp)
  /-- SPAWN (R96). -/
  | spawn (g : Code) (slot : BitVec 3)
  /-- CANCEL (R103). -/
  | cancel (level : CancelLevel)
  /-- MARK (R136). -/
  | mark (tag : BitVec 16)
  /-- CUT (R136). -/
  | cut (d : Code) (tag : BitVec 16)
  /-- GRAFT (R136). -/
  | graft (g : Code) (slot : BitVec 3)
  /-- SLFREE (R136). -/
  | slfree (g : Code) (slot : BitVec 3)
  /-- MSTART (R231). -/
  | mstart (g : Code) (slot : BitVec 3)
  /-- IF (R367). -/
  | ifL (a : Code)
  /-- ELSE (R367). -/
  | elseL
  /-- ENDIF (R367). -/
  | endifL
  /-- LOOP (R403). -/
  | loopL
  /-- BREAK (R354). -/
  | breakL (p : Code) (n : BitVec 7)
  /-- CONT (R354). -/
  | contL (p : Code) (n : BitVec 7)
  /-- ENDLOOP (R369). -/
  | endloop (off : BitVec 22)
  /-- BRA (R352). -/
  | bra (off : BitVec 22)
  /-- BRV (R356). -/
  | brv (off : BitVec 22) (p : Code) (off2 : BitVec 22)
  /-- CALL (R352). -/
  | call (off : BitVec 22)
  /-- RET (R432). -/
  | ret
  /-- JMPI (R395). -/
  | jmpi (a : Code)
  /-- EXIT (R371). -/
  | exit
  /-- NOP (R422). -/
  | nop
  /-- PAUSE (R428). -/
  | pause (imm : BitVec 16)
  /-- SYSR (R446). -/
  | sysr (d : Code) (n : SysReg)
  /-- SYSW (R446). -/
  | sysw (src : Code) (n : SysReg)
  /-- TRAP (R449). -/
  | trap (imm : BitVec 16)
  /-- RETT (R434). -/
  | rett
  /-- BKPT (R351). -/
  | bkpt (imm : BitVec 16)
  /-- WFI (R334). -/
  | wfi (d : Code) (a : Code)
  /-- ICINV (R271). -/
  | icinv (scope : InvScope)
  /-- TLBINV (R163). -/
  | tlbinv (a : Code) (b : Code) (scope : InvScope) (ng : Bool)
  /-- MCLAIM (R407). -/
  | mclaim (a : BitVec 6) (b : BitVec 6)
  /-- MREL (R407). -/
  | mrel (a : BitVec 6) (b : BitVec 6)
  /-- MLOAD (R409). -/
  | mload (a : BitVec 6) (sc : Bool) (tr : Bool) (size : MSize) (stride : BitVec 12) (off : BitVec 20)
  /-- MSTORE (R409). -/
  | mstore (t : Code) (sc : Bool) (f : MStFmt) (stride : BitVec 12) (off : BitVec 20)
  /-- MMA (R411). -/
  | mma (t : Code) (a : BitVec 6) (b : BitVec 6) (f : MmaFmt)
  /-- MZERO (R419). -/
  | mzero (t : Code)
  /-- MWAIT (R416). -/
  | mwait (k : BitVec 4)
  /-- MSIG (R416). -/
  | msig (k : BitVec 4)
  /-- MEND (R408). -/
  | mend
  /-- Team t fetches and checks a clause, or takes a notice (R64, R66). -/
  | clauseFetch (t : Nat)
  /-- The k-th outstanding result of team t lands (R63). -/
  | resultLanding (t k : Nat)
  /-- Register r of folded team t is refilled (R262). -/
  | registerRefill (t r : Nat)
  /-- The pause of team t runs out (R258). -/
  | pauseExpiry (t : Nat)
  /-- The kettle accepts a LAUNCH packet of queue q (R253). -/
  | launchPacket (q : Nat)
  /-- The kettle accepts a COPY packet of queue q (R253). -/
  | copyPacket (q : Nat)
  /-- The kettle accepts a GRAPH packet of queue q (R253). -/
  | graphPacket (q : Nat)
  /-- The kettle accepts a WAIT packet of queue q (R253). -/
  | waitPacket (q : Nat)
  /-- The kettle accepts a SIGNAL packet of queue q (R253). -/
  | signalPacket (q : Nat)
  /-- Packet n of queue q, a SIGNAL, updates its semaphore (R253). -/
  | signalPerform (q n : Nat)
  /-- The kettle accepts a PHASE packet of queue q (R253). -/
  | phasePacket (q : Nat)
  /-- The kettle accepts a CANCEL packet of queue q (R253). -/
  | cancelPacket (q : Nat)
  /-- The kettle accepts a TIMEFENCE packet of queue q (R253). -/
  | timefencePacket (q : Nat)
  /-- TIME_NS reaches the TIMEFENCE at the head of queue q (R253). -/
  | timefenceRelease (q : Nat)
  /-- The kettle accepts a NOP packet of queue q (R253). -/
  | nopPacket (q : Nat)
  /-- The kettle reads an unaccepted slot of queue q again (R252). -/
  | packetReread (q : Nat)
  /-- A packet of queue q is still unaccepted after 1 ms (R252). -/
  | queueStall (q : Nat)
  /-- The kettle re-reads the WAIT semaphore of queue q (R253). -/
  | waitReread (q : Nat)
  /-- The WAIT semaphore of queue q has been unreadable for 1 ms (R253). -/
  | waitSemStall (q : Nat)
  /-- The oldest held launch becomes live (R94). -/
  | heldLaunchStart
  /-- The dispatcher admits a pending workgroup of partition p (R256). -/
  | workgroupAdmission (p : Nat)
  /-- The pending workgroup of launch l has been passed over for 1 ms (R256). -/
  | passedOverBlock (l : Nat)
  /-- The OPHINT hold of launch l ends (R257). -/
  | ophintHoldEnd (l : Nat)
  /-- Workgroup g ends (R98). -/
  | workgroupEnd (g : Nat)
  /-- Team t has not exited 100 us after its cancel notice (R105). -/
  | cancelNoticeTimeout (t : Nat)
  /-- A write with GO to PREEMPT_n (R259). -/
  | preemptWrite (n : Nat) (v : DWord)
  /-- Room returns on a core and the last folded team expands (R263). -/
  | foldExpansion (core : Nat)
  /-- Workgroup g is saved (R264). -/
  | workgroupSave (g : Nat)
  /-- Workgroup g is restored on a core (R264). -/
  | workgroupRestore (g core : Nat)
  /-- The hold of time-sliced partition n ends (R305). -/
  | sliceEnd (n : Nat)
  /-- Cluster c is cleared and handed to partition n (R306). -/
  | tenantSwitch (c n : Nat)
  /-- An overrun of us microseconds saves partition n (R269). -/
  | overrunSave (n us : Nat)
  /-- An overrun of us microseconds resets partition n (R269, R307). -/
  | overrunReset (n us : Nat)
  /-- A page walk ends (R155, R151). -/
  | walkCompletion (core part : Nat) (va : DWord) (wr : Bool)
  /-- Copy k performs its next copy tile (R201). -/
  | copyTile (k : Nat)
  /-- Suspended operation k retries its translation (R161). -/
  | faultRetry (k : Nat)
  /-- Suspended operation k gives up after 100 ms (R161). -/
  | faultUnresolved (k : Nat)
  /-- The engine performs SEMSIG k (R213). -/
  | semsigPerform (k : Nat)
  /-- Every VF's bucket is refilled (R216, R217). -/
  | tokenRefill
  /-- An open tile is resealed after 1 ms (R173). -/
  | openTileTimeout (tile : Nat)
  /-- The breeze checks the next data tile, correcting some ECC errors (R177). -/
  | breezeTile (corrected : Nat)
  /-- A write of CLR to BREEZE_CTL (R177). -/
  | breezeClr
  /-- The TLBINV of team t completes (R164). -/
  | tlbinvCompletion (t : Nat)
  /-- The ICINV of team t completes (R271). -/
  | icinvCompletion (t : Nat)
  /-- The WFI of team t resumes (R334). -/
  | wfiResume (t : Nat)
  /-- The stalled MSTART of team t takes its entry (R232). -/
  | reservationEntryGrant (t : Nat)
  /-- The first waiting stream of cluster c is admitted (R233). -/
  | streamAdmission (c : Nat)
  /-- The sequencer fetches a clause of stream st (R234). -/
  | streamClauseFetch (st : Nat)
  /-- The k-th issued operation of stream st retires (R240). -/
  | streamOpRetire (st k : Nat)
  /-- The matrix engine of cluster c runs a ballast pass (R319). -/
  | ballastPass (c : Nat)
  /-- The controller of partition n compares its power with the cap (R316). -/
  | allowanceRegulation (n watts : Nat)
  /-- A store to offset o of the notify aperture of function fn (R251, R275). -/
  | notifyStore (fn o : Nat) (v : DWord)
  /-- The kettle of partition n is ungated (R326). -/
  | kettleUngate (n : Nat)
  /-- A write to QCTL_q (R250). -/
  | qctlWrite (q : Nat) (v : DWord)
  /-- An F-level write to ING_FILT_f (R285). -/
  | ingFiltWrite (f : Nat) (v : DWord)
  /-- A write to HEVT_n (R277). -/
  | hevtWrite (n : Nat) (v : DWord)
  /-- A write to NQLATCH_n (R315). -/
  | nqlatchWrite (n : Nat) (v : DWord)
  /-- Any write to a device register (R4, R273, R274). -/
  | registerWrite (r : RegWrite)
  /-- A host CXL.mem read of device physical address a (R278). -/
  | cxlMemRead (a len : Nat)
  /-- A host CXL.mem write (R278). -/
  | cxlMemWrite (a : Nat) (bytes : List Byte)
  /-- The PF's PTM dialogue latches PTP_NOW (R283). -/
  | ptmDialogue
  /-- The PF's DOE mailbox asks for attestation (R333). -/
  | doeRequest (nonce : List Byte)
  /-- A Function Level Reset of function n (R307). -/
  | flr (n : Nat)
  /-- A PTP message is received (R282). -/
  | ptpMessageRx (m : PtpMsg)
  /-- The port transmits a delay request (R281). -/
  | ptpRequestTx (pdelay : Bool)
  /-- No valid leader for 3 announce intervals (R282). -/
  | ptpHoldover
  /-- An Ethernet frame is received (R284). -/
  | ingressFrame (f : Frame)
  /-- PART_CONN starts CONNECT of partition n (R299). -/
  | connect (n : Nat)
  /-- PART_CONN starts DISCONNECT of partition n (R300). -/
  | disconnect (n : Nat)
  /-- PART_CONN starts REGRANT (R304). -/
  | regrant
  /-- The running partition operation ends (R298). -/
  | partConnDone
  /-- RETIRE_CL_0, RETIRE_CL_1 or RETIRE_CG (k = 0, 1, 2) is written (R303). -/
  | retireWrite (k : Nat) (v : DWord)
  /-- CLPWR_REQ_c is written with GO and OP QUIESCE (R322). -/
  | quiesce (c dest : Nat)
  /-- CLPWR_REQ_c is written with GO and OP CLKGATE (R322). -/
  | clkgate (c dest : Nat)
  /-- CLPWR_REQ_c is written with GO and OP PWROFF (R322). -/
  | pwroff (c dest : Nat)
  /-- CLPWR_REQ_c is written with GO and OP POWERUP (R322). -/
  | powerup (c dest : Nat)
  /-- CLPWR_REQ_c is written with GO and OP ON (R322). -/
  | clpwrOn (c dest : Nat)
  /-- The power transition of cluster c ends (R322). -/
  | clpwrDone (c : Nat)
  /-- WAKE is written to CL_WAKE_c (R325). -/
  | clWake (c : Nat)
  /-- RET_SAVE_c is written with GO (R324). -/
  | retSave (c addr : Nat)
  /-- RET_SAVE_c is written with GO and RESTORE (R324). -/
  | retRestore (c addr : Nat)
  /-- The retention operation of cluster c ends (R324). -/
  | retDone (c : Nat)
  /-- RING is written to AGENT_DB (R321). -/
  | agentDb
  /-- The new operating point of cluster c takes effect (R313). -/
  | operatingPointChange (c : Nat)
  /-- The junction temperature of a die crosses 100 or 95 degrees (R335). -/
  | thermalLimit (die temp : Nat)
  /-- The junction temperature of a die reaches 110 degrees (R335). -/
  | thermalStop (die temp : Nat)
  /-- The device is reset (R332). -/
  | deviceReset
  /-- BOOT_CTL.GO is written (R332). -/
  | bootGo
  /-- Function fn's mailbox request of KIND RUN is served (R331). -/
  | run (fn : Nat)
  /-- Function fn's mailbox request of KIND KEYLOAD is served (R331). -/
  | keyload (fn : Nat)
  /-- Function fn's mailbox request of KIND KEYCLEAR is served (R331). -/
  | keyclear (fn : Nat)
  /-- Function fn's mailbox request of KIND ATTEST is served (R331). -/
  | attest (fn : Nat)
  /-- The kettle accepts a packet of queue q with an undefined OPCODE (R253). -/
  | undefinedOpcodePacket (q : Nat)
  /-- Function fn's mailbox request names no defined KIND (R331). -/
  | badkindRequest (fn : Nat)
  /-- The leader's time reaches the held clock (R282). -/
  | firstLockComplete
  /-- A slicing period of partition n starts (R305). -/
  | periodStart (n : Nat)
  /-- The CXL link trains to a width and rate (R272). -/
  | linkTraining (width rate : Nat)
deriving DecidableEq, Repr, Inhabited

end Sys2Proof
end

