-- ==== Sys2Proof/Config.lean ====
section
/-! DEFINITION. What the machine leaves free: the turns of its agents, the free values, and the cryptographic
functions. Each is a constant without a body, so that no proof can see what it is. -/

namespace Sys2Proof

/-- Where bits change without a write (R175, R176). -/
inductive Upset where
  /-- A granule of a core's scratchpad slice. -/
  | scratch (core g : Nat)
  /-- A granule of a workgroup's shared memory. -/
  | shared (wg g : Nat)
  /-- A granule of a team's frame window. -/
  | frame (team g : Nat)
  /-- A granule of an operand slot of a stream. -/
  | slot (stream n g : Nat)
  /-- A granule of an accumulator tile of a workgroup's window. -/
  | tile (wg t g : Nat)
  /-- A granule of an open tile. -/
  | openTile (tile g : Nat)
  /-- A granule on its way to a seal. -/
  | flight (g : Nat)
  /-- A tile in HBM: its ciphertext no longer matches its tag. -/
  | hbm (tile : Nat)
deriving DecidableEq, Repr, Inhabited

/-- An HDM decoder (R272): committed or not, its range of host physical addresses, what it skips of the device's, the
number of its ways and their granularity. -/
structure Hdm where
  on : Bool
  base : Nat
  size : Nat
  skip : Nat
  ways : Nat
  gran : Nat
deriving DecidableEq, Repr, Inhabited

/-- What one turn of the machine does (log entry 3). -/
inductive Act where
  /-- Team `t` issues its next word. -/
  | issue (t : Nat)
  /-- Stream `s` issues its next word. -/
  | stream (s : Nat)
  /-- A device step takes place. -/
  | event (i : Instr)
  /-- The k-th store of team `t` that is not in memory comes to one level more of agents (R181, R182). -/
  | drain (t k : Nat)
  /-- The k-th unperformed load of team `t` reads memory again (R186, R187). -/
  | perform (t k : Nat)
  /-- Some parts of the k-th issued operation of stream `s` are performed (R183, R193). -/
  | streamPart (s k : Nat)
  /-- The open-tile cache evicts a tile (R173). -/
  | evict (tile : Nat)
  /-- Bits of a store change, so that a check word no longer matches (R175, R176). -/
  | upset (u : Upset)
  /-- SECDED corrects a bit on a read (R176, R177). -/
  | corrected
  /-- The verification of a boot image ends (R332). -/
  | bootDone
  /-- An agent forwards the oldest seal log record that is not yet forwarded (R331). -/
  | forward
  /-- The host reads n bytes at an offset of function fn's BAR0 (R273, R274). -/
  | hostRead (fn off n : Nat)
  /-- The host writes bytes of its own memory (R149). -/
  | hostWrite (a : Nat) (bytes : List Byte)
  /-- The host enables or disables MSI-X of function fn (R277). -/
  | msixEnable (fn : Nat) (on : Bool)
  /-- The host unmasks or masks vector v of function fn (R277). -/
  | msixMask (fn v : Nat) (on : Bool)
  /-- The host programs HDM decoder k (R272). -/
  | hdm (k : Nat) (d : Hdm)
deriving DecidableEq, Repr, Inhabited

/-- A turn: how much wall-clock time passes first, in ns, and then what happens. -/
structure Turn where
  dt : Nat
  act : Act
deriving DecidableEq, Repr, Inhabited

namespace Config

/-- The n-th turn when the agenda is empty: which agent moves next is free (log entry 3). -/
opaque turn : Nat → Turn

/-- A free choice: drawn by the n-th user of a free value, for its k-th part (log entry 12). -/
opaque pick : Nat → Nat → Nat

/-- A free byte: drawn by the n-th user of a free value, for its k-th part (log entries 12, 14). -/
opaque freeByte : Nat → Nat → Byte

/-- A candidate result of FSIN (false) or FCOS (true) on a pattern (R228; log entry 13). -/
opaque trig : Bool → Word → Word

/-- Whether a faithful result is the upper of its two neighbours: by function number and pattern (R228; log
entry 13). -/
opaque faithfulUp : Nat → Word → Bool

/-- The modulus and the public exponent of the Ulilen key, whose digest is fused (R332; log entry 9). -/
opaque ulilenKey : Nat × Nat

/-- The modulus and the private exponent of the device's key-encryption key (R333; log entry 9). -/
opaque kekKey : Nat × Nat

/-- The modulus and the private exponent of the device identity key (R333; log entry 9). -/
opaque identityKey : Nat × Nat

/-- The 64-byte salt of the signature over an attestation report (R332, R333; log entry 9). -/
opaque salt : List Byte → List Byte

/-- The digest of a caddy block or a tree node under a tree key: 8 bytes of a GMAC whose IV the spec does not give
(R170; log entry 9). -/
opaque gmac : BitVec 256 → List Byte → BitVec 64

/-- The fused minimum firmware VERSION (R332). -/
opaque minVersion : Nat

/-- The MAGIC of a firmware image, which the spec does not give (R332; log entry 24). -/
opaque bootMagic : Nat

/-- The identity certificate chain that the DOE mailbox returns (R333; log entry 9). -/
opaque certChain : List Byte

/-- The fixed bytes of an attestation report: its version, the device serial, the boot ROM version (R333). -/
opaque reportHead : List Byte

/-- The bytes of the key-encryption public key, whose encoding the spec does not give (R333; log entry 9). -/
opaque kekPublic : List Byte

/-- The n-th drawn key value, of the boot ROM's key 0 or a partition's tree key (R170, R332; log entry 9). -/
opaque drawnKey : Nat → BitVec 256

/-- The 64 KiB units of the firmware reserve that the agents spill into: unit i of core c's agent at 16 c + i (R309; log
entry 18). -/
opaque agentUnit : Nat → Nat

/-- The announce interval in ns where the port has heard no leader (R282; log entry 55). -/
opaque announceNs : Nat

/-- The n-th value of FWMB_NONCE (R333; log entry 9). -/
opaque nonce : Nat → List Byte

end Config

end Sys2Proof
end

