-- ==== Sys2Proof/Machine/State.lean ====
section
/-! DEFINITION. The state of the machine as plain data: memory, the device registers, the teams, workgroups,
launches, graphs, queues, copies, streams and partitions, and what the firmware domain holds. -/

namespace Sys2Proof.Machine

/-- A map from numbers to values, as a list in one canonical form: rising keys, and no entry equal to the
map's default. Memory is such a map (Host.Cell), and so are register files and tables. -/
abbrev FMap (α : Type) := List (Nat × α)

/-- Bytes by address. -/
abbrev Memory := FMap Byte

/-- A clause as fetched: its header's address, its header, its slots (R55). `started` says that its WAIT
conditions have held (R61). -/
structure Clause where
  addr : DWord
  hdr : Word
  words : List Word
  started : Bool
deriving DecidableEq, Repr

/-- One outstanding register result of one lane (R60, R63): the word that will deliver it, its scoreboard slot,
whether ACCRD delivers it (R61), the register and lane, the value (none while a barrier round is open, R209), and
the FPSTAT flags that its landing ORs in (R226). -/
structure Pending where
  id : Nat
  slot : Option Nat
  acc : Bool
  reg : Nat
  lane : Nat
  val : Option Word
  flags : BitVec 5
deriving DecidableEq, Repr

/-- The stores of a team reach these places (R149, R152). -/
inductive Place where
  | scratch (core : Nat)
  | shared (wg : Nat)
  | frame (team : Nat)
deriving DecidableEq, Repr

/-- What an ATOM does when it is performed (R186, R345, R346): its operation, its comparand and its operand, the register
from which it delivers the old value, and whether it is an acquire. -/
structure Rmw where
  op : AtomOp
  cmp : Nat
  operand : Nat
  reg : Nat
  acq : Bool
deriving DecidableEq, Repr

/-- A store or an ATOM that has issued and is not yet performed for every agent (R181 to R187): its word, its lane, its
place and offset, its bytes (of an ATOM only their number counts), what happens to the reference bits of the words it
touches (R133), and what an ATOM does.
`level` says who sees it: 0 its lane, 1 its team, 2 its workgroup, 3 its core, 4 its cluster, 5 its die; one level further
it is in memory. `stamp` orders those of one level as they came to it. `gates` holds, by level k, the number of the word
below which every store comes to level k before this one leaves its lane: a release stands between (R186, R191). -/
structure PendStore where
  word : Nat
  gates : FMap Nat
  lane : Nat
  place : Place
  off : Nat
  bytes : List Byte
  setRef : Bool
  level : Fin 6
  stamp : Nat
  rmw : Option Rmw
deriving DecidableEq, Repr

/-- What a load delivers of its bytes: an LD registers, sign-extended or not (R398), a row of an LDT one element to each
lane of its group (R248). -/
inductive LoadForm where
  | plain (signed : Bool)
  | row
deriving DecidableEq, Repr

/-- A 16-byte part of a load (R183): its place and offset, the bytes read so far, and whether they stand, because its page
orders strictly (R185). -/
structure LoadPart where
  place : Place
  off : Nat
  bytes : List Byte
  fixed : Bool
deriving DecidableEq, Repr

/-- A load that has issued and whose bytes may still be read again, later (R186, R187): its word, its lane, the register
from which it delivers, its parts, its form, and whether it is an acquire. What it has read so far stands in its
outstanding results too (log entry 8). -/
structure FloatLoad where
  word : Nat
  lane : Nat
  reg : Nat
  parts : List LoadPart
  form : LoadForm
  acq : Bool
deriving DecidableEq, Repr

/-- Why a team issues nothing (R62, R164, R232, R271, R334). -/
inductive Park where
  | none
  /-- SWITCH: until every result of a word numbered below `upTo` has landed (R62). -/
  | switch (upTo : Nat)
  /-- TLBINV: a start address, a length in bytes (0 for all), a scope, non-global only, and the partition (R164). -/
  | tlbinv (start len : Nat) (scope : InvScope) (ng : Bool)
  /-- ICINV: its scope, and the teams that have still to pass a clause boundary (R271). -/
  | icinv (scope : InvScope) (teams : List Nat)
  /-- WFI: its destination and when it times out (R334). -/
  | wfi (d : Code) (until_ : Option Nat)
  /-- MSTART: the descriptor read at issue (R232). -/
  | mstart (image : DWord) (w s : Nat)
deriving DecidableEq, Repr

/-- A team runs, has exited (R98), or has been stopped (R105, R107). -/
inductive TeamStatus where
  | running | exited | stopped
deriving DecidableEq, Repr

/-- A team (R90): its lanes' registers and counters, its system registers, its frame window, its program counter
and fetched clause, and what it has outstanding. -/
structure Team where
  /-- The workgroup and launch it belongs to, and its TEAMID (R92). -/
  wg : Nat
  launch : Nat
  teamId : Nat
  /-- L and G (R111). -/
  lanes : Nat
  nregs : Nat
  /-- Register r of lane l stands at key 1024 r + l (R111). -/
  regs : FMap Word
  /-- The nesting-depth counter and broken flag of each lane (R124), and its stochastic generator (R225). -/
  d : FMap (BitVec 7)
  b : FMap Bool
  sr : FMap Word
  fmt : FMap Word
  fpstat : Word
  seed : Word
  /-- FB, FSP, window number k, FRAMESZ, the window's bytes, failing granules and reference bits, and the
  mark-chain head (R130 to R134, R146). -/
  fb : DWord
  fsp : DWord
  window : Nat
  framesz : Nat
  frame : Memory
  frameBad : FMap Bool
  refs : FMap Bool
  head : DWord
  /-- The trap registers, the in-handler state and what it saves (R107). -/
  tcause : Word
  tpc : DWord
  taddr : DWord
  tinfo : Word
  trapvec : DWord
  inHandler : Bool
  savedD : FMap (BitVec 7)
  savedB : FMap Bool
  /-- Notices (R66, R105, R265). -/
  noticeEn : Bool
  noticeFold : Bool
  noticeCancel : Bool
  cancelAt : Option Nat
  priv : Nat
  /-- Folding (R260 to R265): RLVL, the level last delivered, register stamps, evicted registers, and the team's clause
  sequence number. -/
  rlvl : Nat
  lastRlvl : Nat
  stamps : FMap Nat
  evicted : List Nat
  /-- The passes whose lane contexts are evicted (R261), and where the state stands that has left local memory: the
  addresses of its 64 KiB units, in the save area or, for a firmware agent, in the reserve (R309). -/
  passOut : List Nat
  spill : List Nat
  clauseSeq : Nat
  /-- The header of the clause to fetch, the slot to resume at (R110), the fetched clause and the next slot. -/
  pc : DWord
  resume : Nat
  clause : Option Clause
  slot : Nat
  park : Park
  pend : List Pending
  nextWord : Nat
  stores : List PendStore
  storeGate : FMap Nat
  loads : List FloatLoad
  status : TeamStatus
  /-- The count of its cluster's clock, in tenths of a cycle, at which the team's pause ends, and at which it last issued
  (R258); of a saved team, the counts that are left (R428). Its TIME_NS reads (R289), and whether it is a firmware agent
  (R329). -/
  pauseEnd : Nat
  issueAt : Nat
  reads : Nat
  agent : Bool
  /-- The admission order (R258, R261), and the number of COPYCs that have issued (R205). -/
  order : Nat
  copycs : Nat
  /-- DONESEM of the ticket record that a firmware agent runs (R330), and whether it is running one. -/
  doneSem : Option DWord
deriving DecidableEq, Repr

/-- A team that waits at a barrier (R209): the word whose result it waits for, the round, and DETAIL. -/
structure Waiter where
  team : Nat
  word : Nat
  round : Nat
  detail : Bool
deriving DecidableEq, Repr

/-- A named barrier (R207): the error flag with its first failure, each team's round, the failures of completed
rounds, the waiters and the attached copies. -/
structure Bar where
  valid : Bool
  expect : Nat
  arrived : Nat
  round : Nat
  err : Option (Nat × Nat)
  teamRound : FMap (Option Nat)
  past : FMap (Option (Nat × Nat))
  waiters : List Waiter
  attached : List Nat
deriving DecidableEq, Repr

/-- A copy descriptor's rows (R199). -/
structure Desc where
  src : DWord
  dst : DWord
  rows : Nat
  rowBytes : Nat
  key : Nat
  slice : Nat
  nslice : Nat
  sstride : Int
  dstride : Int
deriving DecidableEq, Repr

/-- One slice of a collective that is being formed (R205): its number, its team, its descriptor, its flags and its
barrier. -/
structure Slice where
  uid : Nat
  team : Nat
  desc : Desc
  reseal : Bool
  keyovr : Bool
  arrive : Bool
  nb : Nat
deriving DecidableEq, Repr

/-- A collective copy that waits for slices (R205). -/
structure Coll where
  n : Nat
  uid : Nat
  slices : List Slice
deriving DecidableEq, Repr

/-- The accumulator window of a workgroup (R244): element e of tile t stands at key 1024 t + e. -/
structure AccWindow where
  w : Nat
  tiles : FMap Word
  inUse : FMap Bool
  dirty : FMap Bool
  bad : FMap Bool
deriving DecidableEq, Repr

/-- A workgroup (R90): its place and shape, its shared memory, its barriers, collectives, stream and accumulator
window; whether it is saved (R264). -/
structure Workgroup where
  launch : Nat
  part : Nat
  wgid : Word
  core : Nat
  lanes : Nat
  nregs : Nat
  teams : List Nat
  sharedSz : Nat
  shared : Memory
  sharedBad : FMap Bool
  bars : FMap Bar
  colls : List Coll
  stream : Option Nat
  window : Option AccWindow
  saved : Bool
  /-- The addresses of the 64 KiB units of the save area that hold it while it is saved (R308). -/
  saveUnits : List Nat
  order : Nat
  agent : Bool
deriving DecidableEq, Repr

/-- An operand slot of a stream (R236, R244): what has been written of its 4,096 bytes, and of its sidecar from 4,096
on; where nothing has been written since it was claimed, its bytes are free values, drawn as the seed-th (R237; log
entry 14). -/
structure OpSlot where
  bytes : FMap Byte
  seed : Nat
  inUse : Bool
  dirty : Bool
  /-- The granules whose check word no longer matches (R175). -/
  bad : FMap Bool
deriving DecidableEq, Repr

/-- What an MLOAD or an MSTORE moves (R238, R241): memory rows into a slot, or a tile's rows into memory. -/
inductive StreamMove where
  | load (slot : Nat) (size : MSize) (tr : Bool)
  | store (tile : Nat) (fmt : MStFmt)
deriving DecidableEq, Repr

/-- The memory side of an MLOAD or an MSTORE that has issued (R183, R193): what it moves, its place, the offsets of its rows
and the bytes of each, the 16-byte parts that are still to be performed (a row and a first byte of it), and the bytes
that an MLOAD has read: byte b of row q at key 4096 q + b. -/
structure StreamMem where
  move : StreamMove
  place : Place
  rows : List Nat
  rowBytes : Nat
  left : List (Nat × Nat)
  got : Memory
deriving DecidableEq, Repr

/-- An issued stream operation that has not retired (R240): the slots and tiles that it names, whether it runs in the
matrix engine (R233), and the memory side of an MLOAD or an MSTORE. -/
structure StreamOp where
  slots : List Nat
  tiles : List Nat
  engine : Bool
  mem : Option StreamMem
deriving DecidableEq, Repr

/-- A matrix stream and its reservation entry (R230, R232). -/
structure Stream where
  wg : Nat
  cluster : Nat
  image : DWord
  w : Nat
  s : Nat
  fmt : FMap Word
  rounds : FMap Nat
  pc : DWord
  clause : Option Clause
  slot : Nat
  rank : Nat
  /-- The cluster's cycle count since which an engine operation has been ready without a grant, and the cycles that it
  waited so on a cluster before its workgroup was saved (R233). -/
  readyAt : Option Nat
  waited : Nat
  age : Nat
  admitted : Bool
  slots : FMap OpSlot
  inflight : List StreamOp
  /-- The barrier at which its MWAIT waits, and whether the wait has ended with the barrier's invalidation (R242). -/
  mwait : Option (Nat × Bool)
deriving DecidableEq, Repr

/-- Workgroups that a SPAWN has created and the dispatcher has not yet admitted (R96, R99). -/
structure Spawned where
  entry : DWord
  args : DWord
  lanes : Nat
  nregs : Nat
  nteams : Nat
  sharedSz : Nat
  baseId : Word
  count : Nat
  next : Nat
  /-- Since when its next workgroup has been passed over (R256). -/
  since : Option Nat
  blocked : Bool
deriving DecidableEq, Repr

/-- A launch (R93 to R97, R106). -/
structure Launch where
  part : Nat
  queue : Nat
  graph : Nat
  node : Nat
  launchId : Nat
  entry : DWord
  trapvec : DWord
  args : DWord
  sliceStore : DWord
  sliceSz : Nat
  seed : Word
  framesz : Nat
  cls : Nat
  rank : Nat
  ophint : Nat
  deadline : Nat
  order : Nat
  priv : Nat
  pending : List Spawned
  /-- The spawn-tree counter (R97). -/
  counter : Nat
  cancelling : Bool
  /-- The first failure: STATUS, NESTED, CAUSE, FAILWG (R106). -/
  failure : Option (Nat × Bool × Nat × Word)
  /-- Held while 16,384 launches are live (R94). -/
  held : Bool
  /-- The OPHINT hold of its seed, and since when; and the core that the dispatcher has chosen for it (R257, R314). -/
  hintHold : Option Nat
  seedCore : Option Nat
  /-- How many of its workgroups have been admitted (R99). -/
  admitted : Nat
  /-- The packet number of its LAUNCH (R289). -/
  packet : Nat
deriving DecidableEq, Repr

/-- A graph node (R214): a launch record or a copy descriptor. -/
structure Node where
  copy : Bool
  reseal : Bool
  keyovr : Bool
  count : Nat
  ptr : DWord
  succ : List Nat
  /-- 0 not started, 1 running, 2 finished or discarded. -/
  state : Nat
  /-- The uid of its launch or copy. -/
  unit : Nat
  /-- The record or descriptor that the kettle read when it accepted the packet (R94, R253); empty where it reads it
  when the node starts. -/
  record : List Byte
deriving DecidableEq, Repr

/-- A graph (R215), of one node for a LAUNCH or COPY packet (R100). -/
structure Graph where
  part : Nat
  queue : Nat
  job : Nat
  phase : Nat
  packet : Nat
  deadline : Nat
  /-- The acceptance order of its packet (R94, R256). -/
  order : Nat
  nodes : List Node
  /-- Nodes not yet finished (R100). -/
  counter : Nat
  cancelling : Bool
  /-- The status word that a node or a cancel decided (R215). -/
  decided : Option DWord
  compl : DWord
  /-- 0 a LAUNCH packet, 1 a COPY packet, 2 a GRAPH packet. -/
  kind : Nat
  /-- A COPY packet's copy status and tile index (R254). -/
  copySt : Nat × Nat
  /-- How many of its launches have taken their SEED (R289, R290). -/
  seeds : Nat
deriving DecidableEq, Repr

/-- What a packet has come to (R252, R253). -/
inductive PktState where
  /-- Accepted and waiting its turn. -/
  | waiting
  /-- It has started graph `g`. -/
  | running (g : Nat)
  /-- A PHASE packet that has closed phase `p` (R100). -/
  | closing (p : Nat)
  /-- A SIGNAL whose translation is not present, since when, in its partition's resident time (R159, R161, R162). -/
  | suspended (since : Nat)
  | done
deriving DecidableEq, Repr

/-- An accepted packet of a queue (R252): its number, its 64 bytes, whether a CANCEL has marked it, and the graph that
it starts at its turn (R94, R215). -/
structure Pkt where
  num : Nat
  bytes : List Byte
  marked : Bool
  graph : Option Graph
  state : PktState
deriving DecidableEq, Repr

/-- A queue's side in the kettle (R251 to R253). QSTAT.HEAD and STATE stand in the device register. -/
structure Queue where
  tail : Nat
  latched : Option Nat
  accepted : Nat
  pkts : List Pkt
  /-- When the first slot that is not accepted was first read, and whether its stall has been raised (R252). -/
  firstRead : Option Nat
  stalled : Bool
  /-- Since when the WAIT semaphore at the head has been unreadable, and whether it has been raised (R253). -/
  semFail : Option Nat
  semStalled : Bool
  /-- The job's number; the current phase's number; each phase's counter of graphs, closed or open (R100). -/
  job : Nat
  phase : Nat
  phases : FMap Nat
  /-- Closed phases not yet finished: the job's counter (R100). -/
  closed : List Nat
  /-- A job-level cancel consumes packets below this number (R105). -/
  cancelTo : Nat
  /-- When the TIMEFENCE at the head reached it with every earlier packet complete (R320). -/
  fenceSince : Option Nat
  /-- How many packets had been accepted when the replay came to its buffer's end (R290). -/
  replayEnd : Option Nat
  /-- The job is being cancelled, and the phases of it that are (R104). -/
  jobCancel : Bool
  phaseCancel : List Nat
deriving DecidableEq, Repr

/-- Who issued a copy (R192, R198, R213). -/
inductive CopyKind where
  | copy | copyc
  /-- SEMSIG: the address, the operand and the operation. -/
  | semsig (addr operand : DWord) (op : SemOp)
  /-- A node of a graph (R214). -/
  | node (graph idx : Nat)
deriving DecidableEq, Repr

/-- A caddy (R166): VERSION, KEY, STATE, the reserved bytes, and the TAG, which stands apart only where it is not the tag
of the tile's last seal; with what that seal was made with: the key's value and the VERSION (log entry 6). -/
structure Caddy where
  version : Nat
  key : Nat
  state : Nat
  pad : Nat
  tag : Option (BitVec 128)
  sealedWith : BitVec 256
  sealedVersion : Nat
deriving DecidableEq, Repr

/-- A caddy block or a node of a counter tree that no longer holds the bytes that its digest was made of (R170): those
bytes, the bytes it holds, and whether its failure has been logged. -/
structure Altered where
  was : List Byte
  now : List Byte
  logged : Bool
deriving DecidableEq, Repr

/-- A tile in the open-tile cache (R173): its partition, its key index, its plaintext and when it opened. -/
structure OpenTile where
  tile : Nat
  part : Nat
  key : Nat
  bytes : Memory
  since : Nat
  /-- The granules whose check word no longer matches (R175). -/
  bad : FMap Bool
deriving DecidableEq, Repr

/-- A page table entry's content (R148). -/
structure Pte where
  rd : Bool
  wr : Bool
  ex : Bool
  global : Bool
  typ : Nat
  order : Nat
  key : Nat
  core : Nat
  addr : Nat
  dirty : Bool
deriving DecidableEq, Repr

/-- A cached translation (R154): the partition (none for the firmware table), the page's base and its size. -/
structure Tlb where
  part : Option Nat
  base : Nat
  size : Nat
  pte : Pte
deriving DecidableEq, Repr

/-- A copy tile that has been translated and is not yet performed (R193, R201): its index, its addresses and length, the
descriptor it belongs to, and for each side the page and the physical address or offset. Of a tile that is being performed
(R183), the parts that are still to be read and to be written (a first byte and a length), whether one has been, the bytes
read so far, the status so far, whether a write was performed, and the source granules whose failure has been logged. -/
structure LateTile where
  idx : Nat
  src : Nat
  dst : Nat
  n : Nat
  desc : Desc
  srcPage : Tlb
  srcAt : Nat
  dstPage : Tlb
  dstAt : Nat
  reads : List (Nat × Nat)
  writes : List (Nat × Nat)
  begun : Bool
  buf : Memory
  st : Nat
  wrote : Bool
  logged : List Nat
deriving DecidableEq, Repr

/-- A copy, a collective copy, a SEMSIG or a copy node in the copy engine (R198 to R206, R213). -/
structure Copy where
  kind : CopyKind
  part : Nat
  priv : Nat
  launch : Option Nat
  core : Option Nat
  wg : Option Nat
  team : Option Nat
  descs : List Desc
  reseal : Bool
  keyovr : Bool
  arrive : Bool
  nb : Nat
  attached : Bool
  /-- The next tile to translate, the tiles translated and not yet performed, whether a failed translation has ended the
  copy, whether it has written anything, and its first failure in processing order (R201, R202). -/
  next : Nat
  late : List LateTile
  ended : Bool
  wrote : Bool
  fail : Option (Nat × Nat)
  /-- Since when it is suspended, in its partition's resident time (R162). -/
  suspended : Option Nat
  saved : Bool
deriving DecidableEq, Repr

/-- Counts of lane contexts, lane-registers and bytes of local memory (R101, R259). -/
structure Room where
  ctx : Nat
  regs : Nat
  lmem : Nat
deriving DecidableEq, Repr

/-- An outstanding pre-emption request (R259): its core, its source (0 deadline, 1 slice, 2 manual), what it names,
what it has taken, its rank, the uid of the launch it serves and which of its workgroups, the workgroups that use its room,
when it arose, and whether it was met with saves. -/
structure Request where
  core : Nat
  source : Nat
  want : Room
  took : Room
  rank : Nat
  launch : Nat
  item : Nat
  users : List Nat
  order : Nat
  saves : Bool
deriving DecidableEq, Repr

/-- The kettle's part of a partition (R160, R170, R216, R305, R320). -/
structure Part where
  treeKey : Option (BitVec 256)
  faultSeq : Nat
  /-- Tokens (R216, R217), and the RATE that the last refill took (R295). -/
  bucket : Nat
  borrowed : Nat
  rate : Nat
  /-- When the period began, the VF_SLICE that acts in it, and whether the partition still has its slice of it (R295,
  R305). -/
  periodAt : Nat
  slice : DWord
  inSlice : Bool
  /-- When MEASURED was last compared with the cap (R316). -/
  regAt : Nat
  /-- Every earlier TIMEFENCE's TIME, the count of slack steps, steps since the last move (R320). -/
  paceLast : Option Nat
  paceRun : Nat
  paceSince : Nat
  /-- Whether the kettle is gated (R326). -/
  gated : Bool
  /-- The resident time counted up to `resAt`, in ns (R162). -/
  resNs : Nat
  resAt : Nat
deriving DecidableEq, Repr

/-- The power side of a cluster that is no device register (R313, R316, R319, R322, R324): the running operation and
retention, ALW, CLRATE and its initial value, whether issue was withheld, and what ballast looks at. -/
structure ClPower where
  /-- The running operation: OP, and the state it ends in. -/
  op : Option (Nat × Nat)
  /-- A retention operation in progress: RESTORE and ADDR. -/
  ret : Option (Bool × Nat)
  alw : Int
  clrate : Nat
  clrate0 : Nat
  withheld : Bool
  /-- The debits of this µs, the level that ballast keeps them up to, when this µs began, and whether ballast does so (R319;
  log entry 21). -/
  debit : Nat
  lastDebit : Nat
  winAt : Nat
  low : Bool
  /-- The ballast passes of this µs; when the engine was last granted, when its grants began after a µs without one, and
  the clock's count at its last MMA (R319). -/
  ballast : Nat
  grantAt : Option Nat
  riseAt : Nat
  mmaAt : Nat
  /-- The cluster's clock counted up to `cycAt`, in tenths of a cycle (R119, R313). -/
  cycBase : Nat
  cycAt : Nat
  /-- It was retired while not ON (R327). -/
  lost : Bool
deriving DecidableEq, Repr

/-- A retention image (R324): the agents' teams and workgroups, the firmware scratch area of cluster 0, and the
allowance and operating point. -/
structure RetImage where
  addr : Nat
  cluster : Nat
  teams : FMap (Option Team)
  wgs : FMap (Option Workgroup)
  scratch : Memory
  alw : Int
  clrate : Nat
  point : Nat
  sum : Word
deriving DecidableEq, Repr

/-- A leader that the port has heard of (R281): its identity, what it announced, and when it did so, last and the time
before (log entry 55). -/
structure PtpLeader where
  source : Nat
  data : Announce
  at_ : Nat
  before : Option Nat
deriving DecidableEq, Repr

/-- A message that the port transmits (R281). -/
inductive PtpTx where
  | delayReq | pdelayReq | pdelayResp | pdelayRespFollowUp
deriving DecidableEq, Repr

/-- The PTP clock (R282): its value at `at_`, its rate correction in units of 10^-9, whether it is held, and the leaders
that the best master clock algorithm compares. -/
structure Ptp where
  base : Nat
  at_ : Nat
  ppb : Int
  held : Bool
  leader : Nat
  leaderAt : Nat
  leaders : List PtpLeader
  /-- When PTP_CFG.EN last rose (R282). -/
  enAt : Nat
deriving DecidableEq, Repr

/-- The mailbox of a function (R331, R333). -/
structure Mailbox where
  addr : DWord
  busy : Bool
  result : Nat
  nonce : Nat
deriving DecidableEq, Repr

/-- The boot registers, and the image under verification: where its copy lies, or none where copying it failed (R332). -/
structure Boot where
  addr : DWord
  len : DWord
  state : Nat
  code : Nat
  size : Nat
  copyAt : Option Nat
deriving DecidableEq, Repr

/-- A running partition operation (R298). -/
structure PartOp where
  op : Nat
  part : Nat
  /-- Retirements that wait for its end (R301). -/
  retire : List (Nat × DWord)
deriving DecidableEq, Repr

/-- The machine. -/
structure State where
  /-- The turns that are already decided (log entry 3), the number of free turns drawn, and of free values. -/
  agenda : List Turn
  tick : Nat
  fresh : Nat
  /-- The team and the stream that act, and the next unused number. -/
  cur : Nat
  curStream : Nat
  nextUid : Nat
  /-- Wall-clock time since device reset, in ns (R3). -/
  ns : Nat
  teams : FMap (Option Team)
  wgs : FMap (Option Workgroup)
  launches : FMap (Option Launch)
  graphs : FMap (Option Graph)
  queues : FMap Queue
  copies : FMap (Option Copy)
  streams : FMap (Option Stream)
  /-- HBM (R165): the plaintext of its tiles, and their caddies. -/
  hbm : Memory
  caddies : FMap Caddy
  /-- The caddy blocks and tree nodes that fail their digests, by physical address (R170). -/
  treeAlt : FMap (Option Altered)
  openTiles : List OpenTile
  /-- A granule of the next data to be sealed whose check word no longer matches (R171, R175). -/
  flight : Option Nat
  keyValid : FMap Bool
  keyVal : FMap (BitVec 256)
  /-- Host memory (R149). -/
  host : Memory
  /-- The scratchpad slices: byte o of core c stands at key 262,144 c + o (R149); granules with a failing check
  word at the same key div 64. -/
  scratch : Memory
  scratchBad : FMap Bool
  /-- The device registers, by device register address (R274). -/
  dev : FMap DWord
  /-- First-level caches by core, second-level caches by cluster (R154). -/
  tlb1 : FMap (List Tlb)
  tlb2 : FMap (List Tlb)
  /-- The loop buffer of each core (R270); an entry of the core's firmware agent is marked. -/
  loopBuf : FMap (List (Bool × Clause))
  /-- Wake bits of each core (R334). -/
  wake : FMap Nat
  reqs : List Request
  /-- The folding order of each core's victims: the last folded first (R263). -/
  foldOrder : FMap (List Nat)
  /-- Room has returned to a core since its folded teams were last offered it (R263). -/
  roomBack : FMap Bool
  parts : FMap Part
  partOp : Option PartOp
  pool : Nat
  /-- When the buckets were last refilled (R216). -/
  tokenAt : Nat
  clusters : FMap ClPower
  retImages : List RetImage
  th : FMap Nat
  heatStop : Bool
  ptp : Ptp
  ptpTx : List PtpTx
  /-- Frames dropped at each filter since its last delivery, and frames delivered (R285, R286). -/
  ingDrops : FMap Nat
  ingSeq : FMap Nat
  link : Nat × Nat
  /-- MSI-X (R277): the messages sent, the functions that have it enabled, and at key 3 n + v whether vector v of function
  n is unmasked; the queues whose QSTALL (1) or QERROR (2) is set. -/
  msix : List (Nat × Nat)
  msixOn : FMap Bool
  msixOpen : FMap Bool
  qEvents : FMap Nat
  /-- The HDM decoders (R272); the memory data error status of the CXL RAS capability, and the non-fatal errors signalled
  through AER, each with its host physical address (R279); the bytes that the last CXL.mem read and the last BAR0 read
  answered with (R273, R278). -/
  hdm : FMap Hdm
  cxlRas : Bool
  aer : List Nat
  cxlRead : List Byte
  barRead : List Byte
  /-- The last response of the DOE mailbox (R333). -/
  doe : List Byte
  /-- The number of seal log records, and those that the agents have not yet forwarded (R178, R331). -/
  sealSeq : Nat
  sealFwd : List (Nat × List Byte)
  fwRoot : Nat
  agentEntry : DWord
  fwVersion : Nat
  fwDigest : List Byte
  mbox : FMap Mailbox
  boot : Boot
deriving DecidableEq, Repr

/-- Faults of the model: what no state that the machine's own steps reach should meet. -/
inductive Fault where
  /-- Raised by the meaning of a team's word where no team runs that has a fetched clause: nothing can issue the
  word. Safe: the machine has no such step. -/
  | noTeam
  /-- Raised by the meaning of a stream word where no admitted stream has a fetched clause. Safe: as noTeam. -/
  | noStream
deriving DecidableEq, Repr

/-- Refusals of the model. -/
inductive Refusal where
  /-- The instruction has no meaning yet. Raised by an arm of exec. Safe. -/
  | notModelled (mnemonic : String)
deriving DecidableEq, Repr

/-- A queue that nothing has used (R250, R251). -/
def Queue.init : Queue :=
  { tail := 0, latched := none, accepted := 0, pkts := [], firstRead := none, stalled := false, semFail := none
    semStalled := false, job := 0, phase := 0, phases := [], closed := [], cancelTo := 0, fenceSince := none
    replayEnd := none, jobCancel := false, phaseCancel := [] }

/-- A partition's kettle at reset (log entry 1). -/
def Part.init : Part :=
  { treeKey := none, faultSeq := 0, bucket := 0, borrowed := 0, rate := 0, periodAt := 0, slice := 0, inSlice := false
    regAt := 0, paceLast := none, paceRun := 0, paceSince := 8, gated := false, resNs := 0, resAt := 0 }

/-- A cluster's power side at reset (log entry 1). -/
def ClPower.init : ClPower :=
  { op := none, ret := none, alw := 0, clrate := 0, clrate0 := 0, withheld := false, debit := 0, lastDebit := 0
    winAt := 0, low := false, ballast := 0, grantAt := none, riseAt := 0, mmaAt := 0, cycBase := 0, cycAt := 0
    lost := false }

/-- An HDM decoder at reset (log entry 60). -/
def noHdm : Hdm := { on := false, base := 0, size := 0, skip := 0, ways := 1, gran := 256 }

/-- A mailbox at reset (log entry 1). -/
def Mailbox.init : Mailbox := { addr := 0, busy := false, result := 0, nonce := 0 }

/-- The caddy of a tile nothing has written: BLANK (R166; log entry 2). -/
def Caddy.blank : Caddy :=
  { version := 0, key := 0, state := 0, pad := 0, tag := some 0, sealedWith := 0, sealedVersion := 0 }

/-- The machine right after reset: no team, no launch, nothing in memory, the device registers at their reset
values (an empty map), and the boot registers waiting (R332). -/
def State.reset : State :=
  { agenda := [], tick := 0, fresh := 0, cur := 0, curStream := 0, nextUid := 0, ns := 0
    teams := [], wgs := [], launches := [], graphs := [], queues := [], copies := [], streams := []
    hbm := [], caddies := [], treeAlt := [], openTiles := [], flight := none, keyValid := [], keyVal := [], host := []
    scratch := [], scratchBad := [], dev := [], tlb1 := [], tlb2 := [], loopBuf := [], wake := []
    reqs := [], foldOrder := [], roomBack := [], parts := [], partOp := none, pool := 0, tokenAt := 0, clusters := [], retImages := []
    th := [], heatStop := false
    ptp := { base := 0, at_ := 0, ppb := 0, held := false, leader := 0, leaderAt := 0, leaders := [], enAt := 0 }
    ptpTx := [], ingDrops := [], ingSeq := [], link := (0, 0), msix := [], msixOn := [], msixOpen := [], qEvents := []
    hdm := [], cxlRas := false, aer := [], cxlRead := [], barRead := [], doe := [], sealSeq := 0, sealFwd := [], fwRoot := 0
    agentEntry := 0, fwVersion := 0, fwDigest := [], mbox := []
    boot := { addr := 0, len := 0, state := 0, code := 0, size := 0, copyAt := none } }

end Sys2Proof.Machine
end

