-- ==== Sys2Proof/Machine/FMap.lean ====
section
/-! DEFINITION. Reading and writing the canonical maps of State: memory, register files and tables. -/

namespace Sys2Proof.Machine

/-- What the map holds for k; the default where it lists nothing. -/
def fget {α : Type} (d : Nat → α) : FMap α → Nat → α
  | [], k => d k
  | (j, v) :: m, k => if j = k then v else fget d m k

/-- The map with k's entry gone. -/
def ferase {α : Type} : FMap α → Nat → FMap α
  | [], _ => []
  | (j, v) :: m, k => if j = k then ferase m k else (j, v) :: ferase m k

/-- The map with the entry (k, v) in its place. -/
def finsert {α : Type} : FMap α → Nat → α → FMap α
  | [], k, v => [(k, v)]
  | (j, w) :: m, k, v =>
    if k < j then (k, v) :: (j, w) :: m
    else if j = k then (k, v) :: m
    else (j, w) :: finsert m k v

/-- The map with v for k, in canonical form: the default removes the entry. -/
def fset {α : Type} [DecidableEq α] (d : Nat → α) (m : FMap α) (k : Nat) (v : α) : FMap α :=
  if v = d k then ferase m k else finsert m k v

/-- Canonical form: every key at or above lo, rising, and no entry equal to the default. -/
def fwfFrom {α : Type} [DecidableEq α] (d : Nat → α) : Nat → FMap α → Bool
  | _, [] => true
  | lo, (k, v) :: m => decide (lo ≤ k) && decide (v ≠ d k) && fwfFrom d (k + 1) m

/-- Canonical form. -/
def fwf {α : Type} [DecidableEq α] (d : Nat → α) (m : FMap α) : Bool := fwfFrom d 0 m

/-- Several writes in order. -/
def fsets {α : Type} [DecidableEq α] (d : Nat → α) (m : FMap α) : List (Nat × α) → FMap α
  | [] => m
  | (k, v) :: l => fsets d (fset d m k v) l

/-- The map without the entries at lo to lo + n - 1: they read as the default. -/
def fclear {α : Type} (m : FMap α) (lo n : Nat) : FMap α :=
  m.filter fun e => decide (e.1 < lo) || decide (lo + n ≤ e.1)

/-- What a byte of memory that nothing has written reads as: 0 (log entry 2). -/
def unwritten : Nat → Byte := fun _ => 0

/-- One byte of memory. -/
def Memory.get (m : Memory) (a : Nat) : Byte := fget unwritten m a

/-- Writing one byte of memory. -/
def Memory.put (m : Memory) (a : Nat) (v : Byte) : Memory := fset unwritten m a v

/-- n bytes of memory from a. -/
def Memory.read (m : Memory) (a : Nat) : Nat → List Byte
  | 0 => []
  | n + 1 => Memory.get m a :: Memory.read m (a + 1) n

/-- Writing bytes from a. -/
def Memory.write (m : Memory) (a : Nat) : List Byte → Memory
  | [] => m
  | b :: l => Memory.write (Memory.put m a b) (a + 1) l

/-- The canonical form of memory. -/
def Memory.wf (m : Memory) : Bool := fwf unwritten m

end Sys2Proof.Machine
end

