-- ==== Sys2Proof/Machine/Bits.lean ====
section
/-! DEFINITION. Fields, byte order, the check word of R175, and putting a list in order. -/

namespace Sys2Proof.Machine

/-- Bits [lo + n - 1 : lo] of a number. -/
def fld (v lo n : Nat) : Nat := v / 2 ^ lo % 2 ^ n

/-- A number as n bytes, lowest first (R2). -/
def toBytes : Nat → Nat → List Byte
  | 0, _ => []
  | n + 1, v => BitVec.ofNat 8 v :: toBytes n (v / 256)

/-- The number that bytes hold, lowest first (R2). -/
def ofBytes : List Byte → Nat
  | [] => 0
  | b :: l => b.toNat + 256 * ofBytes l

/-- n bytes of a list from offset o, as a number. -/
def num (l : List Byte) (o n : Nat) : Nat := ofBytes ((l.drop o).take n)

/-- The list with the bytes of l' in place of its own from offset o. -/
def patch (l : List Byte) (o : Nat) (l' : List Byte) : List Byte :=
  l.take o ++ l' ++ l.drop (o + l'.length)

/-- n zero bytes. -/
def zeros (n : Nat) : List Byte := List.replicate n 0

/-- The number rounded up to a multiple of k. -/
def roundUp (v k : Nat) : Nat := (v + k - 1) / k * k

/-- ⌈v / k⌉. -/
def ceilDiv (v k : Nat) : Nat := (v + k - 1) / k

/-- One bit of the reflected CRC-32C (R175). -/
def crcBit (c : Word) : Word := if c.getLsbD 0 then (c >>> 1) ^^^ 0x82F63B78#32 else c >>> 1

/-- One byte of the reflected CRC-32C (R175). -/
def crcByte (c : Word) (b : Byte) : Word :=
  crcBit (crcBit (crcBit (crcBit (crcBit (crcBit (crcBit (crcBit (c ^^^ b.zeroExtend 32))))))))

/-- CRC-32C with initial value and final XOR 0xFFFF_FFFF (R175). -/
def crc32c (l : List Byte) : Word := ~~~(l.foldl crcByte 0xFFFFFFFF#32)

/-- The first index from lo, below lo + n, at which p holds. -/
def findFrom (p : Nat → Bool) (lo : Nat) : Nat → Option Nat
  | 0 => none
  | n + 1 => if p lo then some lo else findFrom p (lo + 1) n

/-- One item put in its place. -/
def insertBy {α : Type} (before : α → α → Bool) (x : α) : List α → List α
  | [] => [x]
  | y :: l => if before y x then y :: insertBy before x l else x :: y :: l

/-- A list put in order; items that come before none of each other keep their places. -/
def sortBy {α : Type} (before : α → α → Bool) : List α → List α
  | [] => []
  | x :: l => insertBy before x (sortBy before l)

end Sys2Proof.Machine
end

