-- ==== Sys2Proof/Machine/Crypto.lean ====
section
/-! DEFINITION. The cryptographic functions that the spec names (R18, R166, R167, R332, R333): AES-256-GCM of NIST SP
800-38D, SHA-512, MGF1, RSASSA-PSS and RSA-OAEP. Their algorithms are taken from the standards that the spec names (log
entry 9). -/

namespace Sys2Proof.Machine

/-- A number as n bytes, highest first. -/
def beBytes (n v : Nat) : List Byte := (toBytes n v).reverse

/-- The number that bytes hold, highest first. -/
def beNum (l : List Byte) : Nat := ofBytes l.reverse

/-- The XOR of two byte strings. -/
def xorBytes (a b : List Byte) : List Byte := List.zipWith (· ^^^ ·) a b

/-- The first n of the parts that f gives, joined. -/
def joinParts (f : Nat → List Byte) (n : Nat) : List Byte := (List.range n).flatMap f

/-! ## AES-256 -/

/-- Multiplication by x in GF(2^8). -/
def xtime (b : Byte) : Byte := (b <<< 1) ^^^ (if b.getLsbD 7 then 0x1B#8 else 0)

/-- Multiplication in GF(2^8), over the lowest n bits of a. -/
def gmul (a b : Byte) : Nat → Byte
  | 0 => 0
  | n + 1 => (if a.getLsbD 0 then b else 0) ^^^ gmul (a >>> 1) (xtime b) n

/-- The inverse in GF(2^8), as the 254th power; 0 for 0. -/
def ginv (a : Byte) : Byte :=
  ((List.range 7).foldl (fun (x : Byte × Byte) _ =>
    let sq := gmul x.1 x.1 8
    (sq, gmul x.2 sq 8)) (a, 1)).2

/-- The S-box. -/
def sbox (b : Byte) : Byte :=
  let i := ginv b
  i ^^^ i.rotateLeft 1 ^^^ i.rotateLeft 2 ^^^ i.rotateLeft 3 ^^^ i.rotateLeft 4 ^^^ 0x63

/-- The key schedule: 4-byte words, the newest first, from word i on. -/
def keyWords : Nat → Nat → Byte → List (List Byte) → List (List Byte)
  | 0, _, _, ws => ws
  | fuel + 1, i, rcon, ws =>
    let prev := (ws[0]?).getD []
    let t := if i % 8 = 0 then xorBytes ((prev.drop 1 ++ prev.take 1).map sbox) [rcon, 0, 0, 0]
      else if i % 8 = 4 then prev.map sbox else prev
    keyWords fuel (i + 1) (if i % 8 = 0 then xtime rcon else rcon) (xorBytes ((ws[7]?).getD []) t :: ws)

/-- The 15 round keys of a key of 32 bytes. -/
def roundKeys (key : List Byte) : List (List Byte) :=
  let ws := (keyWords 52 8 1 ((List.range 8).map fun i => (key.drop (4 * i)).take 4).reverse).reverse
  (List.range 15).map fun r => ((ws.drop (4 * r)).take 4).flatten

/-- SubBytes and ShiftRows of a block of 16 bytes. -/
def subShift (b : List Byte) : List Byte :=
  (List.range 16).map fun i => sbox ((b[(i + 4 * (i % 4)) % 16]?).getD 0)

/-- MixColumns. -/
def mixColumns (b : List Byte) : List Byte :=
  (List.range 16).map fun i =>
    let at_ (k : Nat) : Byte := (b[4 * (i / 4) + (i + k) % 4]?).getD 0
    xtime (at_ 0) ^^^ (xtime (at_ 1) ^^^ at_ 1) ^^^ at_ 2 ^^^ at_ 3

/-- One block enciphered, by the round keys. -/
def aesBlock (rks : List (List Byte)) (b : List Byte) : List Byte :=
  let rk (r : Nat) : List Byte := (rks[r]?).getD []
  let b := (List.range 13).foldl (fun b r => xorBytes (mixColumns (subShift b)) (rk (r + 1))) (xorBytes b (rk 0))
  xorBytes (subShift b) (rk 14)

/-! ## GCM -/

/-- Multiplication in GF(2^128) as GCM numbers its bits: over the n bits of x from the highest. -/
def ghashMul (x v z : BitVec 128) : Nat → BitVec 128
  | 0 => z
  | n + 1 =>
    ghashMul (x <<< 1) (if v.getLsbD 0 then (v >>> 1) ^^^ (0xE1#128 <<< 120) else v >>> 1)
      (if x.getLsbD 127 then z ^^^ v else z) n

/-- GHASH of blocks. -/
def ghash (h : BitVec 128) (blocks : List (List Byte)) : BitVec 128 :=
  blocks.foldl (fun y b => ghashMul (y ^^^ BitVec.ofNat 128 (beNum b)) h 0 128) 0

/-- The bytes in blocks of 16, n of them. -/
def blocksOf (l : List Byte) (n : Nat) : List (List Byte) := (List.range n).map fun i => (l.drop (16 * i)).take 16

/-- Enciphering or deciphering n blocks in counter mode (R167). -/
def gcmCrypt (key iv : List Byte) (l : List Byte) (n : Nat) : List Byte :=
  let rks := roundKeys key
  xorBytes l (joinParts (fun i => aesBlock rks (iv ++ beBytes 4 (i + 2))) n)

/-- The tag of n blocks of ciphertext, with no additional data (R167). -/
def gcmTag (key iv : List Byte) (c : List Byte) (n : Nat) : BitVec 128 :=
  let rks := roundKeys key
  let h := BitVec.ofNat 128 (beNum (aesBlock rks (zeros 16)))
  let s := ghash h (blocksOf c n ++ [zeros 8 ++ beBytes 8 (128 * n)])
  BitVec.ofNat 128 (ofBytes (xorBytes (beBytes 16 s.toNat) (aesBlock rks (iv ++ beBytes 4 1))))

/-! ## SHA-512 -/

/-- The round constants of SHA-512. -/
def shaK : List DWord :=
  [0x428A2F98D728AE22, 0x7137449123EF65CD, 0xB5C0FBCFEC4D3B2F, 0xE9B5DBA58189DBBC,
   0x3956C25BF348B538, 0x59F111F1B605D019, 0x923F82A4AF194F9B, 0xAB1C5ED5DA6D8118,
   0xD807AA98A3030242, 0x12835B0145706FBE, 0x243185BE4EE4B28C, 0x550C7DC3D5FFB4E2,
   0x72BE5D74F27B896F, 0x80DEB1FE3B1696B1, 0x9BDC06A725C71235, 0xC19BF174CF692694]
  ++ [0xE49B69C19EF14AD2, 0xEFBE4786384F25E3, 0x0FC19DC68B8CD5B5, 0x240CA1CC77AC9C65,
   0x2DE92C6F592B0275, 0x4A7484AA6EA6E483, 0x5CB0A9DCBD41FBD4, 0x76F988DA831153B5,
   0x983E5152EE66DFAB, 0xA831C66D2DB43210, 0xB00327C898FB213F, 0xBF597FC7BEEF0EE4,
   0xC6E00BF33DA88FC2, 0xD5A79147930AA725, 0x06CA6351E003826F, 0x142929670A0E6E70]
  ++ [0x27B70A8546D22FFC, 0x2E1B21385C26C926, 0x4D2C6DFC5AC42AED, 0x53380D139D95B3DF,
   0x650A73548BAF63DE, 0x766A0ABB3C77B2A8, 0x81C2C92E47EDAEE6, 0x92722C851482353B,
   0xA2BFE8A14CF10364, 0xA81A664BBC423001, 0xC24B8B70D0F89791, 0xC76C51A30654BE30,
   0xD192E819D6EF5218, 0xD69906245565A910, 0xF40E35855771202A, 0x106AA07032BBD1B8]
  ++ [0x19A4C116B8D2D0C8, 0x1E376C085141AB53, 0x2748774CDF8EEB99, 0x34B0BCB5E19B48A8,
   0x391C0CB3C5C95A63, 0x4ED8AA4AE3418ACB, 0x5B9CCA4F7763E373, 0x682E6FF3D6B2B8A3,
   0x748F82EE5DEFB2FC, 0x78A5636F43172F60, 0x84C87814A1F0AB72, 0x8CC702081A6439EC,
   0x90BEFFFA23631E28, 0xA4506CEBDE82BDE9, 0xBEF9A3F7B2C67915, 0xC67178F2E372532B]
  ++ [0xCA273ECEEA26619C, 0xD186B8C721C0C207, 0xEADA7DD6CDE0EB1E, 0xF57D4F7FEE6ED178,
   0x06F067AA72176FBA, 0x0A637DC5A2C898A6, 0x113F9804BEF90DAE, 0x1B710B35131C471B,
   0x28DB77F523047D84, 0x32CAAB7B40C72493, 0x3C9EBE0A15C9BEBC, 0x431D67C49C100D4C,
   0x4CC5D4BECB3E42B6, 0x597F299CFC657E2A, 0x5FCB6FAB3AD6FAEC, 0x6C44198C4A475817]

/-- The initial hash value of SHA-512. -/
def shaH : List DWord :=
  [0x6A09E667F3BCC908, 0xBB67AE8584CAA73B, 0x3C6EF372FE94F82B, 0xA54FF53A5F1D36F1,
   0x510E527FADE682D1, 0x9B05688C2B3E6C1F, 0x1F83D9ABFB41BD6B, 0x5BE0CD19137E2179]

/-- One round of SHA-512: the eight working variables and the next 16 words of the schedule. -/
def shaRound (st : List DWord × List DWord) (k : DWord) : List DWord × List DWord :=
  match st with
  | ([a, b, c, d, e, f, g, h], w) =>
    let at_ (i : Nat) : DWord := (w[i]?).getD 0
    let t1 := h + (e.rotateRight 14 ^^^ e.rotateRight 18 ^^^ e.rotateRight 41) + ((e &&& f) ^^^ (~~~e &&& g)) + k + at_ 0
    let t2 := (a.rotateRight 28 ^^^ a.rotateRight 34 ^^^ a.rotateRight 39) + ((a &&& b) ^^^ (a &&& c) ^^^ (b &&& c))
    let s0 := (at_ 1).rotateRight 1 ^^^ (at_ 1).rotateRight 8 ^^^ (at_ 1) >>> 7
    let s1 := (at_ 14).rotateRight 19 ^^^ (at_ 14).rotateRight 61 ^^^ (at_ 14) >>> 6
    ([t1 + t2, a, b, c, d + t1, e, f, g], w.drop 1 ++ [at_ 0 + s0 + at_ 9 + s1])
  | x => x

/-- One block of 128 bytes. -/
def shaBlock (h : List DWord) (b : List Byte) : List DWord :=
  let w := (List.range 16).map fun i => BitVec.ofNat 64 (beNum ((b.drop (8 * i)).take 8))
  List.zipWith (· + ·) h (shaK.foldl shaRound (h, w)).1

/-- SHA-512 (R18). -/
def sha512 (l : List Byte) : List Byte :=
  let n := l.length
  let pad := l ++ [0x80] ++ zeros ((239 - n % 128) % 128) ++ beBytes 16 (8 * n)
  ((List.range (pad.length / 128)).foldl (fun h i => shaBlock h ((pad.drop (128 * i)).take 128)) shaH).flatMap
    fun w => beBytes 8 w.toNat

/-- MGF1 with SHA-512: n bytes (R332). -/
def mgf1 (seed : List Byte) (n : Nat) : List Byte :=
  (joinParts (fun i => sha512 (seed ++ beBytes 4 i)) (ceilDiv n 64)).take n

/-! ## RSA-4096 -/

/-- b to the power e modulo m, over the lowest n bits of e. -/
def powMod (b e m : Nat) : Nat → Nat
  | 0 => 1 % m
  | n + 1 => let r := powMod (b * b % m) (e / 2) m n
             if e % 2 = 1 then r * b % m else r

/-- The RSA function on 512 bytes. -/
def rsa (modulus exponent : Nat) (l : List Byte) : List Byte := beBytes 512 (powMod (beNum l) exponent modulus 4096)

/-- A data block whose highest bit is cleared (emBits is 4,095). -/
def clearTop (l : List Byte) : List Byte :=
  match l with
  | [] => []
  | b :: l => (b &&& 0x7F) :: l

/-- The salted hash of RSASSA-PSS (R332). -/
def pssHash (digest salt : List Byte) : List Byte := sha512 (zeros 8 ++ digest ++ salt)

/-- Whether an RSASSA-PSS signature of a message verifies under a key (R332). -/
def pssVerify (modulus exponent : Nat) (msg sig : List Byte) : Bool :=
  let em := rsa modulus exponent sig
  let mdb := em.take 447
  let h := (em.drop 447).take 64
  let db := clearTop (xorBytes mdb (mgf1 h 447))
  sig.length == 512 && decide (beNum sig < modulus) && em.drop 511 == [0xBC] &&
  mdb.take 1 == clearTop (mdb.take 1) && db.take 383 == zeros 382 ++ [1] &&
  h == pssHash (sha512 msg) (db.drop 383)

/-- The RSASSA-PSS signature of a message, with a salt (R333). -/
def pssSign (modulus private_ : Nat) (msg salt : List Byte) : List Byte :=
  let h := pssHash (sha512 msg) salt
  rsa modulus private_ (clearTop (xorBytes (zeros 382 ++ [1] ++ salt) (mgf1 h 447)) ++ h ++ [0xBC])

/-- What follows the zero bytes and the 1 of an RSA-OAEP data block; none where there is no 1. -/
def oaepMessage : List Byte → Option (List Byte)
  | [] => none
  | b :: l => if b = 0 then oaepMessage l else if b = 1 then some l else none

/-- RSA-OAEP decryption with an empty label, or none where it fails (R333). -/
def oaepDecrypt (modulus private_ : Nat) (c : List Byte) : Option (List Byte) :=
  let em := rsa modulus private_ c
  let mdb := em.drop 65
  let seed := xorBytes ((em.drop 1).take 64) (mgf1 mdb 64)
  let db := xorBytes mdb (mgf1 seed 447)
  if c.length = 512 ∧ beNum c < modulus ∧ em.take 1 = [0] ∧ db.take 64 = sha512 [] then oaepMessage (db.drop 64)
  else none

end Sys2Proof.Machine
end

