-- ==== Sys2Proof/WellFormed.lean ====
section
/-! DEFINITION. Which instruction terms an encoding can stand for: the register operands of each word with
their limits (R68 to R72, R82) and the checks that join several fields. -/

namespace Sys2Proof

/-- One register operand of a word: how the word uses the code, and the code (R82). -/
inductive Operand where
  /-- A source: a register or an inline constant. -/
  | src (c : Code)
  /-- A field that must name a register. -/
  | reg (c : Code)
  /-- A register pair: even. -/
  | pair (c : Code)
  /-- A group of four registers: a multiple of 4. -/
  | quad (c : Code)
  /-- A group of eight registers: a multiple of 8. -/
  | group (c : Code)
deriving DecidableEq, Repr

/-- Codes 0x00 to 0xBF name registers; the others are inline constants (R82). -/
def isReg (c : Code) : Bool := c.toNat < 192

/-- The fetch check of one operand, apart from REG_RANGE (R82). -/
def Operand.ok : Operand → Bool
  | .src _ => true
  | .reg c => isReg c
  | .pair c => isReg c && c.toNat % 2 == 0
  | .quad c => isReg c && c.toNat % 4 == 0
  | .group c => isReg c && c.toNat % 8 == 0

/-- One more than the highest register the operand names; 0 for a constant (R64 step 4). -/
def Operand.top : Operand → Nat
  | .src c => if isReg c then c.toNat + 1 else 0
  | .reg c => c.toNat + 1
  | .pair c => c.toNat + 2
  | .quad c => c.toNat + 4
  | .group c => c.toNat + 8

/-- The 64-bit system registers, whose operand is a pair (R118, R119). -/
def SysReg.wide : SysReg → Bool
  | .tpc | .taddr | .trapvec | .timeNs | .cycles | .fb | .fsp => true
  | .teamid | .laneid | .lanes | .wgid | .launchid | .core | .cluster | .priv | .rlvl | .noticeEn | .tcause
  | .tinfo | .fpstat | .seed => false

/-- The operand of SYSR and SYSW (R118). -/
def sysOperand (n : SysReg) (c : Code) : Operand := if n.wide then .pair c else .reg c

/-- ATOM's data register (R344). -/
def atomData (s : AtomSize) (c : Code) : Operand := if s = .d then .pair c else .reg c

/-- ATOM's second operand (R344). -/
def atomSource (s : AtomSize) (c : Code) : Operand := if s = .d then .pair c else .src c

/-- Only the modifiers of source A are set. -/
def Mods.onlyA (m : Mods) : Bool := !m.absB && !m.absC && !m.negB && !m.negC

/-- Only the modifiers of sources A and B are set. -/
def Mods.onlyAB (m : Mods) : Bool := !m.absC && !m.negC

/-- PACK8's destination formats (R424). -/
def packFmtOk : Fmt → Bool
  | .e4m3 | .e5m2 | .reg _ => true
  | .fp32 | .fp16 | .bf16 | .int32 | .uint32 => false

/-- UNPACK's source formats (R450). -/
def unpackFmtOk : Fmt → Bool
  | .fp16 | .bf16 | .e4m3 | .e5m2 | .reg _ => true
  | .fp32 | .int32 | .uint32 => false

/-- CVT's destinations under .SAT, as far as fetch can judge them (R229, R365). -/
def satFmtOk : Fmt → Bool
  | .int32 | .uint32 | .reg _ => true
  | .fp32 | .fp16 | .bf16 | .e4m3 | .e5m2 => false

/-- CVT's sources under NEG or ABS, as far as fetch can judge them (R229, R365). -/
def negFmtOk : Fmt → Bool
  | .fp32 | .fp16 | .bf16 | .e4m3 | .e5m2 | .reg _ => true
  | .int32 | .uint32 => false

/-- The register operands of each word, in the order of its fields. A device step has none. -/
def Instr.operands : Instr → List Operand
  | .iadd d a b => [.reg d, .src a, .src b]
  | .iaddLit d a _ => [.reg d, .src a]
  | .isub d a b => [.reg d, .src a, .src b]
  | .isubLit d a _ => [.reg d, .src a]
  | .imul d a b => [.reg d, .src a, .src b]
  | .imulLit d a _ => [.reg d, .src a]
  | .imulhS d a b => [.reg d, .src a, .src b]
  | .imulhU d a b => [.reg d, .src a, .src b]
  | .imad d a b c => [.reg d, .src a, .src b, .src c]
  | .iminS d a b => [.reg d, .src a, .src b]
  | .iminSLit d a _ => [.reg d, .src a]
  | .iminU d a b => [.reg d, .src a, .src b]
  | .iminULit d a _ => [.reg d, .src a]
  | .imaxS d a b => [.reg d, .src a, .src b]
  | .imaxSLit d a _ => [.reg d, .src a]
  | .imaxU d a b => [.reg d, .src a, .src b]
  | .imaxULit d a _ => [.reg d, .src a]
  | .iabs d a => [.reg d, .src a]
  | .icmp d a b _ => [.reg d, .src a, .src b]
  | .lea d a b => [.pair d, .pair a, .src b]
  | .leaX d a b _ _ => [.pair d, .pair a, .src b]
  | .and d a b => [.reg d, .src a, .src b]
  | .andLit d a _ => [.reg d, .src a]
  | .or d a b => [.reg d, .src a, .src b]
  | .orLit d a _ => [.reg d, .src a]
  | .xor d a b => [.reg d, .src a, .src b]
  | .xorLit d a _ => [.reg d, .src a]
  | .shl d a b => [.reg d, .src a, .src b]
  | .shr d a b => [.reg d, .src a, .src b]
  | .shrX d a b _ => [.reg d, .src a, .src b]
  | .rot d a b => [.reg d, .src a, .src b]
  | .bfx d a b _ c => [.reg d, .src a, .src b, .src c]
  | .bfi d a b c => [.reg d, .src a, .src b, .src c]
  | .popc d a => [.reg d, .src a]
  | .clz d a => [.reg d, .src a]
  | .brev d a => [.reg d, .src a]
  | .sel d a b c => [.reg d, .src a, .src b, .src c]
  | .mov d a => [.reg d, .src a]
  | .movLit d _ => [.reg d]
  | .movi d _ => [.reg d]
  | .movx d a => [.reg d, .src a]
  | .movxw a b => [.src a, .src b]
  | .fadd d a b => [.reg d, .src a, .src b]
  | .faddX d a b _ _ => [.reg d, .src a, .src b]
  | .fsub d a b => [.reg d, .src a, .src b]
  | .fsubX d a b _ _ => [.reg d, .src a, .src b]
  | .fmul d a b => [.reg d, .src a, .src b]
  | .fmulX d a b _ _ => [.reg d, .src a, .src b]
  | .ffma d a b _ _ c => [.reg d, .src a, .src b, .src c]
  | .fmin d a b => [.reg d, .src a, .src b]
  | .fminX d a b _ => [.reg d, .src a, .src b]
  | .fmax d a b => [.reg d, .src a, .src b]
  | .fmaxX d a b _ => [.reg d, .src a, .src b]
  | .fcmp d a b _ _ => [.reg d, .src a, .src b]
  | .frcp d a => [.reg d, .src a]
  | .frcpX d a _ _ => [.reg d, .src a]
  | .frsq d a => [.reg d, .src a]
  | .frsqX d a _ _ => [.reg d, .src a]
  | .fsqrt d a => [.reg d, .src a]
  | .fsqrtX d a _ _ => [.reg d, .src a]
  | .fexp2 d a => [.reg d, .src a]
  | .fexp2X d a _ _ => [.reg d, .src a]
  | .flog2 d a => [.reg d, .src a]
  | .flog2X d a _ _ => [.reg d, .src a]
  | .fsin d a => [.reg d, .src a]
  | .fsinX d a _ _ => [.reg d, .src a]
  | .fcos d a => [.reg d, .src a]
  | .fcosX d a _ _ => [.reg d, .src a]
  | .padd d a b => [.reg d, .src a, .src b]
  | .paddX d a b _ _ _ => [.reg d, .src a, .src b]
  | .pmul d a b => [.reg d, .src a, .src b]
  | .pmulX d a b _ _ _ => [.reg d, .src a, .src b]
  | .pfma d a b _ _ _ c => [.reg d, .src a, .src b, .src c]
  | .pack8 d a _ _ => [.reg d, .quad a]
  | .unpack d a b _ => [.reg d, .src a, .src b]
  | .cvt d a _ _ _ _ _ => [.reg d, .src a]
  | .fmtset _ a => [.src a]
  | .fmtget d _ => [.reg d]
  | .shfl d a b _ => [.reg d, .src a, .src b]
  | .vote d a b _ => [.reg d, .src a, .src b]
  | .redux d a _ => [.reg d, .src a]
  | .bcast d a b => [.reg d, .src a, .src b]
  | .ldB d b _ _ => [.reg d, .pair b]
  | .ldBX d b _ _ _ _ => [.reg d, .pair b]
  | .ldH d b _ _ => [.reg d, .pair b]
  | .ldHX d b _ _ _ _ => [.reg d, .pair b]
  | .ldW d b _ _ => [.reg d, .pair b]
  | .ldWX d b _ _ _ => [.reg d, .pair b]
  | .ldD d b _ _ => [.pair d, .pair b]
  | .ldDX d b _ _ _ => [.pair d, .pair b]
  | .ldQ d b _ _ => [.quad d, .pair b]
  | .ldQX d b _ _ _ => [.quad d, .pair b]
  | .stB d b _ _ => [.reg d, .pair b]
  | .stBX d b _ _ _ => [.reg d, .pair b]
  | .stH d b _ _ => [.reg d, .pair b]
  | .stHX d b _ _ _ => [.reg d, .pair b]
  | .stW d b _ _ => [.reg d, .pair b]
  | .stWX d b _ _ _ => [.reg d, .pair b]
  | .stD d b _ _ => [.pair d, .pair b]
  | .stDX d b _ _ _ _ => [.pair d, .pair b]
  | .stQ d b _ _ => [.quad d, .pair b]
  | .stQX d b _ _ _ => [.quad d, .pair b]
  | .ldt d b _ _ => [.quad d, .pair b]
  | .atom d b _ _ size c _ _ _ => [atomData size d, .pair b, atomSource size c]
  | .fence _ _ => []
  | .accrd d a => [.reg d, .src a]
  | .accwr a b => [.src a, .src b]
  | .copy g _ _ _ _ _ => [.group g]
  | .copyc g _ _ _ _ _ => [.group g]
  | .nbinit a _ _ => [.reg a]
  | .nbarr _ _ => []
  | .nbwait d _ _ _ => [.reg d]
  | .nbsync d _ _ _ => [.reg d]
  | .nbinv _ _ => []
  | .semsig g _ _ => [.quad g]
  | .spawn g _ => [.group g]
  | .cancel _ => []
  | .mark _ => []
  | .cut d _ => [.pair d]
  | .graft g _ => [.quad g]
  | .slfree g _ => [.pair g]
  | .mstart g _ => [.quad g]
  | .ifL a => [.src a]
  | .elseL => []
  | .endifL => []
  | .loopL => []
  | .breakL p _ => [.reg p]
  | .contL p _ => [.reg p]
  | .endloop _ => []
  | .bra _ => []
  | .brv _ p _ => [.src p]
  | .call _ => []
  | .ret => []
  | .jmpi a => [.pair a]
  | .exit => []
  | .nop => []
  | .pause _ => []
  | .sysr d n => [sysOperand n d]
  | .sysw src n => [sysOperand n src]
  | .trap _ => []
  | .rett => []
  | .bkpt _ => []
  | .wfi d a => [.reg d, .src a]
  | .icinv _ => []
  | .tlbinv a b _ _ => [.pair a, .src b]
  | .mclaim _ _ => []
  | .mrel _ _ => []
  | .mload _ _ _ _ _ _ => []
  | .mstore _ _ _ _ _ => []
  | .mma _ _ _ _ => []
  | .mzero _ => []
  | .mwait _ => []
  | .msig _ => []
  | .mend => []
  | .clauseFetch _ => []
  | .resultLanding _ _ => []
  | .registerRefill _ _ => []
  | .pauseExpiry _ => []
  | .launchPacket _ => []
  | .copyPacket _ => []
  | .graphPacket _ => []
  | .waitPacket _ => []
  | .signalPacket _ => []
  | .signalPerform _ _ => []
  | .phasePacket _ => []
  | .cancelPacket _ => []
  | .timefencePacket _ => []
  | .timefenceRelease _ => []
  | .nopPacket _ => []
  | .packetReread _ => []
  | .queueStall _ => []
  | .waitReread _ => []
  | .waitSemStall _ => []
  | .heldLaunchStart => []
  | .workgroupAdmission _ => []
  | .passedOverBlock _ => []
  | .ophintHoldEnd _ => []
  | .workgroupEnd _ => []
  | .cancelNoticeTimeout _ => []
  | .preemptWrite _ _ => []
  | .foldExpansion _ => []
  | .workgroupSave _ => []
  | .workgroupRestore _ _ => []
  | .sliceEnd _ => []
  | .tenantSwitch _ _ => []
  | .overrunSave _ _ => []
  | .overrunReset _ _ => []
  | .walkCompletion _ _ _ _ => []
  | .copyTile _ => []
  | .faultRetry _ => []
  | .faultUnresolved _ => []
  | .semsigPerform _ => []
  | .tokenRefill => []
  | .openTileTimeout _ => []
  | .breezeTile _ => []
  | .breezeClr => []
  | .tlbinvCompletion _ => []
  | .icinvCompletion _ => []
  | .wfiResume _ => []
  | .reservationEntryGrant _ => []
  | .streamAdmission _ => []
  | .streamClauseFetch _ => []
  | .streamOpRetire _ _ => []
  | .ballastPass _ => []
  | .allowanceRegulation _ _ => []
  | .notifyStore _ _ _ => []
  | .kettleUngate _ => []
  | .qctlWrite _ _ => []
  | .ingFiltWrite _ _ => []
  | .hevtWrite _ _ => []
  | .nqlatchWrite _ _ => []
  | .registerWrite _ => []
  | .cxlMemRead _ _ => []
  | .cxlMemWrite _ _ => []
  | .ptmDialogue => []
  | .doeRequest _ => []
  | .flr _ => []
  | .ptpMessageRx _ => []
  | .ptpRequestTx _ => []
  | .ptpHoldover => []
  | .ingressFrame _ => []
  | .connect _ => []
  | .disconnect _ => []
  | .regrant => []
  | .partConnDone => []
  | .retireWrite _ _ => []
  | .quiesce _ _ => []
  | .clkgate _ _ => []
  | .pwroff _ _ => []
  | .powerup _ _ => []
  | .clpwrOn _ _ => []
  | .clpwrDone _ => []
  | .clWake _ => []
  | .retSave _ _ => []
  | .retRestore _ _ => []
  | .retDone _ => []
  | .agentDb => []
  | .operatingPointChange _ => []
  | .thermalLimit _ _ => []
  | .thermalStop _ _ => []
  | .deviceReset => []
  | .bootGo => []
  | .run _ => []
  | .keyload _ => []
  | .keyclear _ => []
  | .attest _ => []
  | .undefinedOpcodePacket _ => []
  | .badkindRequest _ => []
  | .firstLockComplete => []
  | .periodStart _ => []
  | .linkTraining _ _ => []

/-- The checks of a word that join several fields, or that a field's own code does not show. -/
def Instr.fieldsOk : Instr → Bool
  | .iadd _ _ _ => true
  | .iaddLit _ _ _ => true
  | .isub _ _ _ => true
  | .isubLit _ _ _ => true
  | .imul _ _ _ => true
  | .imulLit _ _ _ => true
  | .imulhS _ _ _ => true
  | .imulhU _ _ _ => true
  | .imad _ _ _ _ => true
  | .iminS _ _ _ => true
  | .iminSLit _ _ _ => true
  | .iminU _ _ _ => true
  | .iminULit _ _ _ => true
  | .imaxS _ _ _ => true
  | .imaxSLit _ _ _ => true
  | .imaxU _ _ _ => true
  | .imaxULit _ _ _ => true
  | .iabs _ _ => true
  | .icmp _ _ _ cond => cond != .ord && cond != .uno
  | .lea _ _ _ => true
  | .leaX _ _ _ _ _ => true
  | .and _ _ _ => true
  | .andLit _ _ _ => true
  | .or _ _ _ => true
  | .orLit _ _ _ => true
  | .xor _ _ _ => true
  | .xorLit _ _ _ => true
  | .shl _ _ _ => true
  | .shr _ _ _ => true
  | .shrX _ _ _ _ => true
  | .rot _ _ _ => true
  | .bfx _ _ _ _ _ => true
  | .bfi _ _ _ _ => true
  | .popc _ _ => true
  | .clz _ _ => true
  | .brev _ _ => true
  | .sel _ _ _ _ => true
  | .mov _ _ => true
  | .movLit _ _ => true
  | .movi _ _ => true
  | .movx _ _ => true
  | .movxw _ _ => true
  | .fadd _ _ _ => true
  | .faddX _ _ _ m _ => m.onlyAB
  | .fsub _ _ _ => true
  | .fsubX _ _ _ m _ => m.onlyAB
  | .fmul _ _ _ => true
  | .fmulX _ _ _ m _ => m.onlyAB
  | .ffma _ _ _ _ _ _ => true
  | .fmin _ _ _ => true
  | .fminX _ _ _ m => m.onlyAB
  | .fmax _ _ _ => true
  | .fmaxX _ _ _ m => m.onlyAB
  | .fcmp _ _ _ _ m => m.onlyAB
  | .frcp _ _ => true
  | .frcpX _ _ m _ => m.onlyA
  | .frsq _ _ => true
  | .frsqX _ _ m rm => m.onlyA && rm != .sr
  | .fsqrt _ _ => true
  | .fsqrtX _ _ m _ => m.onlyA
  | .fexp2 _ _ => true
  | .fexp2X _ _ m rm => m.onlyA && rm != .sr
  | .flog2 _ _ => true
  | .flog2X _ _ m rm => m.onlyA && rm != .sr
  | .fsin _ _ => true
  | .fsinX _ _ m rm => m.onlyA && rm != .sr
  | .fcos _ _ => true
  | .fcosX _ _ m rm => m.onlyA && rm != .sr
  | .padd _ _ _ => true
  | .paddX _ _ _ _ m _ => m.onlyAB
  | .pmul _ _ _ => true
  | .pmulX _ _ _ _ m _ => m.onlyAB
  | .pfma _ _ _ _ _ _ _ => true
  | .pack8 _ _ fd _ => packFmtOk fd
  | .unpack _ _ _ fs => unpackFmtOk fs
  | .cvt _ _ fs fd sat m _ => (!sat || satFmtOk fd) && m.onlyA && ((!m.negA && !m.absA) || negFmtOk fs)
  | .fmtset _ _ => true
  | .fmtget _ _ => true
  | .shfl _ _ _ _ => true
  | .vote _ _ b mode => mode == .ballot || b == 0
  | .redux _ _ _ => true
  | .bcast _ _ _ => true
  | .ldB _ _ slot _ => slot != 6
  | .ldBX _ _ slot _ _ _ => slot != 6
  | .ldH _ _ slot _ => slot != 6
  | .ldHX _ _ slot _ _ _ => slot != 6
  | .ldW _ _ slot _ => slot != 6
  | .ldWX _ _ slot _ _ => slot != 6
  | .ldD _ _ slot _ => slot != 6
  | .ldDX _ _ slot _ _ => slot != 6
  | .ldQ _ _ slot _ => slot != 6
  | .ldQX _ _ slot _ _ => slot != 6
  | .stB _ _ slot _ => slot != 6
  | .stBX _ _ slot _ _ => slot != 6
  | .stH _ _ slot _ => slot != 6
  | .stHX _ _ slot _ _ => slot != 6
  | .stW _ _ slot _ => slot != 6
  | .stWX _ _ slot _ _ => slot != 6
  | .stD _ _ slot _ => slot != 6
  | .stDX _ _ slot _ _ _ => slot != 6
  | .stQ _ _ slot _ => slot != 6
  | .stQX _ _ slot _ _ => slot != 6
  | .ldt _ _ slot _ => slot != 6
  | .atom _ _ slot _ _ _ _ _ _ => slot != 6
  | .fence _ _ => true
  | .accrd _ _ => true
  | .accwr _ _ => true
  | .copy _ nb slot _ _ arrive => slot != 6 && (arrive || nb == 0)
  | .copyc _ nb slot _ _ arrive => slot != 6 && (arrive || nb == 0)
  | .nbinit _ _ slot => slot != 6
  | .nbarr _ slot => slot != 6
  | .nbwait _ _ slot _ => slot != 6
  | .nbsync _ _ slot _ => slot != 6
  | .nbinv _ slot => slot != 6
  | .semsig _ slot _ => slot != 6
  | .spawn _ slot => slot != 6
  | .cancel _ => true
  | .mark _ => true
  | .cut _ _ => true
  | .graft _ slot => slot != 6
  | .slfree _ slot => slot != 6
  | .mstart _ slot => slot != 6
  | .ifL _ => true
  | .elseL => true
  | .endifL => true
  | .loopL => true
  | .breakL _ n => n != 127
  | .contL _ n => n != 127
  | .endloop _ => true
  | .bra _ => true
  | .brv _ _ _ => true
  | .call _ => true
  | .ret => true
  | .jmpi _ => true
  | .exit => true
  | .nop => true
  | .pause _ => true
  | .sysr _ _ => true
  | .sysw _ _ => true
  | .trap _ => true
  | .rett => true
  | .bkpt _ => true
  | .wfi _ _ => true
  | .icinv _ => true
  | .tlbinv _ _ _ _ => true
  | .mclaim a b => a.ule b
  | .mrel a b => a.ule b
  | .mload _ _ tr size _ _ => !tr || size != .s
  | .mstore _ _ _ _ _ => true
  | .mma _ _ _ _ => true
  | .mzero _ => true
  | .mwait _ => true
  | .msig _ => true
  | .mend => true
  | .clauseFetch _ => true
  | .resultLanding _ _ => true
  | .registerRefill _ _ => true
  | .pauseExpiry _ => true
  | .launchPacket _ => true
  | .copyPacket _ => true
  | .graphPacket _ => true
  | .waitPacket _ => true
  | .signalPacket _ => true
  | .signalPerform _ _ => true
  | .phasePacket _ => true
  | .cancelPacket _ => true
  | .timefencePacket _ => true
  | .timefenceRelease _ => true
  | .nopPacket _ => true
  | .packetReread _ => true
  | .queueStall _ => true
  | .waitReread _ => true
  | .waitSemStall _ => true
  | .heldLaunchStart => true
  | .workgroupAdmission _ => true
  | .passedOverBlock _ => true
  | .ophintHoldEnd _ => true
  | .workgroupEnd _ => true
  | .cancelNoticeTimeout _ => true
  | .preemptWrite _ _ => true
  | .foldExpansion _ => true
  | .workgroupSave _ => true
  | .workgroupRestore _ _ => true
  | .sliceEnd _ => true
  | .tenantSwitch _ _ => true
  | .overrunSave _ _ => true
  | .overrunReset _ _ => true
  | .walkCompletion _ _ _ _ => true
  | .copyTile _ => true
  | .faultRetry _ => true
  | .faultUnresolved _ => true
  | .semsigPerform _ => true
  | .tokenRefill => true
  | .openTileTimeout _ => true
  | .breezeTile _ => true
  | .breezeClr => true
  | .tlbinvCompletion _ => true
  | .icinvCompletion _ => true
  | .wfiResume _ => true
  | .reservationEntryGrant _ => true
  | .streamAdmission _ => true
  | .streamClauseFetch _ => true
  | .streamOpRetire _ _ => true
  | .ballastPass _ => true
  | .allowanceRegulation _ _ => true
  | .notifyStore _ _ _ => true
  | .kettleUngate _ => true
  | .qctlWrite _ _ => true
  | .ingFiltWrite _ _ => true
  | .hevtWrite _ _ => true
  | .nqlatchWrite _ _ => true
  | .registerWrite _ => true
  | .cxlMemRead _ _ => true
  | .cxlMemWrite _ _ => true
  | .ptmDialogue => true
  | .doeRequest _ => true
  | .flr _ => true
  | .ptpMessageRx _ => true
  | .ptpRequestTx _ => true
  | .ptpHoldover => true
  | .ingressFrame _ => true
  | .connect _ => true
  | .disconnect _ => true
  | .regrant => true
  | .partConnDone => true
  | .retireWrite _ _ => true
  | .quiesce _ _ => true
  | .clkgate _ _ => true
  | .pwroff _ _ => true
  | .powerup _ _ => true
  | .clpwrOn _ _ => true
  | .clpwrDone _ => true
  | .clWake _ => true
  | .retSave _ _ => true
  | .retRestore _ _ => true
  | .retDone _ => true
  | .agentDb => true
  | .operatingPointChange _ => true
  | .thermalLimit _ _ => true
  | .thermalStop _ _ => true
  | .deviceReset => true
  | .bootGo => true
  | .run _ => true
  | .keyload _ => true
  | .keyclear _ => true
  | .attest _ => true
  | .undefinedOpcodePacket _ => true
  | .badkindRequest _ => true
  | .firstLockComplete => true
  | .periodStart _ => true
  | .linkTraining _ _ => true

/-- A word that passes every fetch check of R68 to R82 that does not depend on the team (R64 step 3). -/
def Instr.wellFormed (i : Instr) : Bool := i.operands.all Operand.ok && i.fieldsOk

/-- One more than the highest register a word names directly (R64 step 4). -/
def Instr.regTop (i : Instr) : Nat := (i.operands.map Operand.top).foldl max 0

end Sys2Proof
end

