-- ==== Sys2Proof/Machine/Base.lean ====
section
/-! DEFINITION. Reading and writing the tables of State, the lanes and registers of a team, and its outstanding
results (R59 to R63, R82, R83, R111, R127). -/

namespace Sys2Proof.Machine

/-- What a meaning answers. -/
abbrev Out := Host.Outcome State Fault Refusal

/-- The default of a table of optional entries. -/
def noEntry {α : Type} : Nat → Option α := fun _ => none

/-- The default of a register file. -/
def zeroWord : Nat → Word := fun _ => 0

def zeroNat : Nat → Nat := fun _ => 0

def falseAt : Nat → Bool := fun _ => false

/-- The team with number u. -/
def State.team (s : State) (u : Nat) : Option Team := fget noEntry s.teams u

/-- Team u is t. -/
def State.putTeam (s : State) (u : Nat) (t : Team) : State := { s with teams := fset noEntry s.teams u (some t) }

/-- The workgroup with number g. -/
def State.wg (s : State) (g : Nat) : Option Workgroup := fget noEntry s.wgs g

def State.putWg (s : State) (g : Nat) (w : Workgroup) : State := { s with wgs := fset noEntry s.wgs g (some w) }

def State.dropWg (s : State) (g : Nat) : State := { s with wgs := fset noEntry s.wgs g none }

def State.launch (s : State) (l : Nat) : Option Launch := fget noEntry s.launches l

def State.putLaunch (s : State) (l : Nat) (x : Launch) : State :=
  { s with launches := fset noEntry s.launches l (some x) }

def State.dropLaunch (s : State) (l : Nat) : State := { s with launches := fset noEntry s.launches l none }

def State.graph (s : State) (g : Nat) : Option Graph := fget noEntry s.graphs g

def State.putGraph (s : State) (g : Nat) (x : Graph) : State := { s with graphs := fset noEntry s.graphs g (some x) }

def State.dropGraph (s : State) (g : Nat) : State := { s with graphs := fset noEntry s.graphs g none }

/-- The kettle's side of queue q. -/
def State.queue (s : State) (q : Nat) : Queue := fget (fun _ => Queue.init) s.queues q

def State.putQueue (s : State) (q : Nat) (x : Queue) : State :=
  { s with queues := fset (fun _ => Queue.init) s.queues q x }

def State.copy (s : State) (k : Nat) : Option Copy := fget noEntry s.copies k

def State.putCopy (s : State) (k : Nat) (x : Copy) : State := { s with copies := fset noEntry s.copies k (some x) }

def State.dropCopy (s : State) (k : Nat) : State := { s with copies := fset noEntry s.copies k none }

def State.stream (s : State) (k : Nat) : Option Stream := fget noEntry s.streams k

def State.putStream (s : State) (k : Nat) (x : Stream) : State :=
  { s with streams := fset noEntry s.streams k (some x) }

def State.dropStream (s : State) (k : Nat) : State := { s with streams := fset noEntry s.streams k none }

def State.part (s : State) (n : Nat) : Part := fget (fun _ => Part.init) s.parts n

def State.putPart (s : State) (n : Nat) (x : Part) : State := { s with parts := fset (fun _ => Part.init) s.parts n x }

def State.cluster (s : State) (c : Nat) : ClPower := fget (fun _ => ClPower.init) s.clusters c

def State.putCluster (s : State) (c : Nat) (x : ClPower) : State :=
  { s with clusters := fset (fun _ => ClPower.init) s.clusters c x }

/-- The next unused number is drawn. -/
def State.nextId (s : State) : State := { s with nextUid := s.nextUid + 1 }

/-- A free value has been drawn (log entry 12). -/
def State.bump (s : State) : State := { s with fresh := s.fresh + 1 }

/-- The numbers of a table that hold an entry. -/
def keys {α : Type} (m : FMap (Option α)) : List Nat := m.map Prod.fst

/-- The entries of a table. -/
def entries {α : Type} (m : FMap (Option α)) : List (Nat × α) :=
  m.filterMap fun e => e.2.map fun v => (e.1, v)

/-- Register r of lane l stands at this key (R111). -/
def regKey (r l : Nat) : Nat := 1024 * r + l

/-- The nesting-depth counter of a lane (R124). -/
def Team.depth (t : Team) (l : Nat) : Nat := (fget (fun _ => (0 : BitVec 7)) t.d l).toNat

/-- The broken flag of a lane (R124). -/
def Team.broken (t : Team) (l : Nat) : Bool := fget falseAt t.b l

/-- A lane is active exactly when its counter is 0 (R124). -/
def Team.active (t : Team) (l : Nat) : Bool := t.depth l == 0

/-- The active lanes in ascending order. -/
def Team.activeLanes (t : Team) : List Nat := (List.range t.lanes).filter t.active

/-- The lowest-numbered active lane (R127). -/
def Team.lowest (t : Team) : Option Nat := t.activeLanes.head?

/-- A load of result p's word from which p comes (R248, R398). -/
def FloatLoad.gives (x : FloatLoad) (p : Pending) : Bool :=
  x.word == p.id && match x.form with
    | .plain _ => x.lane == p.lane
    | .row => x.lane / 8 == p.lane / 8

/-- The delivered values of the results that are outstanding for a register of a lane (R63): of a load that may still be
read again nothing is delivered yet. -/
def Team.pendVals (t : Team) (r l : Nat) : List Word :=
  t.pend.filterMap fun p =>
    if p.reg = r ∧ p.lane = l ∧ !(t.loads.any fun x => x.gives p) then p.val else none

/-- What the register file holds. -/
def Team.reg (t : Team) (r l : Nat) : Word := fget zeroWord t.regs (regKey r l)

/-- What a word reads from a register: where a result is outstanding, the value before it or the value it
delivers, by a free choice (R63; log entry 12). -/
def readReg (f : Nat) (t : Team) (r l : Nat) : Word :=
  match t.pendVals r l with
  | [] => t.reg r l
  | vs => (vs[Config.pick f (regKey r l) % (vs.length + 1)]?).getD (t.reg r l)

/-- The inline constants (R83), for codes 0xC0 to 0xFF. -/
def constant (c : Nat) : Word :=
  if c < 0xE0 then BitVec.ofNat 32 (c - 0xC0)
  else match c with
  | 0xE0 => 0xFFFFFFFF | 0xE1 => 0x3C000000 | 0xE2 => 0x3C800000 | 0xE3 => 0x3D000000
  | 0xE4 => 0x3D800000 | 0xE5 => 0x3E000000 | 0xE6 => 0x3E800000 | 0xE7 => 0x3F000000
  | 0xE8 => 0x3F800000 | 0xE9 => 0x40000000 | 0xEA => 0x40800000 | 0xEB => 0x41000000
  | 0xEC => 0x41800000 | 0xED => 0x42000000 | 0xEE => 0x42800000 | 0xEF => 0x43000000
  | 0xF0 => 0xBF800000 | 0xF1 => 0xBF000000 | 0xF2 => 0x3EAAAAAB | 0xF3 => 0x3E4CCCCD
  | 0xF4 => 0x3E124925 | 0xF5 => 0x3DE38E39 | 0xF6 => 0x40490FDB | 0xF7 => 0x40C90FDB
  | 0xF8 => 0x3EA2F983 | 0xF9 => 0x3E22F983 | 0xFA => 0x3F317218 | 0xFB => 0x3FB8AA3B
  | 0xFC => 0x3FB504F3 | 0xFD => 0x3F3504F3 | 0xFE => 0x7F800000 | _ => 0x7FC00000

/-- src(code, l) of R88: a register of the lane, or an inline constant. -/
def src (f : Nat) (t : Team) (c : Code) (l : Nat) : Word :=
  if isReg c then readReg f t c.toNat l else constant c.toNat

/-- pair[c][l] of R87. -/
def pair (f : Nat) (t : Team) (c : Code) (l : Nat) : DWord :=
  readReg f t (c.toNat + 1) l ++ readReg f t c.toNat l

/-- Writing a register of one lane. -/
def Team.putReg (t : Team) (r l : Nat) (v : Word) : Team := { t with regs := fset zeroWord t.regs (regKey r l) v }

/-- Writing a register in some lanes. -/
def Team.putLanes (t : Team) (r : Nat) (ls : List Nat) (f : Nat → Word) : Team :=
  { t with regs := fsets zeroWord t.regs (ls.map fun l => (regKey r l, f l)) }

/-- Writing a register in every active lane. -/
def Team.putActive (t : Team) (r : Nat) (f : Nat → Word) : Team := t.putLanes r t.activeLanes f

/-- Writing a register pair in every active lane. -/
def Team.putPair (t : Team) (r : Nat) (f : Nat → DWord) : Team :=
  { t with regs := fsets zeroWord t.regs (t.activeLanes.flatMap fun l =>
      [(regKey r l, (f l).extractLsb' 0 32), (regKey (r + 1) l, (f l).extractLsb' 32 32)]) }

/-- Format register n (R122). -/
def Team.fmtReg (t : Team) (n : Nat) : Word := fget zeroWord t.fmt n

/-- COUNT of a clause header (R55). -/
def Clause.count (c : Clause) : Nat := (c.hdr.extractLsb' 0 4).toNat

/-- The SWITCH bit of a slot (R55). -/
def Clause.switchAt (c : Clause) (j : Nat) : Bool := c.hdr.getLsbD (15 + j)

/-- The header of the clause that follows (R109). -/
def Clause.follow (c : Clause) : DWord := c.addr + BitVec.ofNat 64 (4 * (c.count + 1))

/-- The header that is 4 × off from the clause's own (R70). -/
def Clause.target (c : Clause) (off : BitVec 22) : DWord := c.addr + 4 * off.signExtend 64

/-- The parking of a word whose SWITCH bit is set (R62). -/
def Team.switchPark (t : Team) (c : Clause) : Team :=
  if c.switchAt t.slot then { t with park := .switch t.nextWord } else t

/-- The team goes to another clause. -/
def Team.goto (t : Team) (a : DWord) : Team := { t with clause := none, pc := a, resume := 0, slot := 0 }

/-- The team goes past a word of len slots: to the next slot, or to the clause that follows. -/
def Team.advance (t : Team) (c : Clause) (len : Nat) : Team :=
  if t.slot + len < c.count then { t.switchPark c with slot := t.slot + len }
  else (t.switchPark c).goto c.follow

/-- A word that ends its clause by a branch. -/
def Team.branch (t : Team) (c : Clause) (a : DWord) : Team := (t.switchPark c).goto a

/-- A number of outstanding results of one word, for the lanes and values given (R60). -/
def Team.addPend (t : Team) (slot : Option Nat) (acc : Bool) (rs : List (Nat × Nat × Option Word × BitVec 5)) : Team :=
  { t with
    pend := t.pend ++ rs.map fun x =>
      { id := t.nextWord, slot := slot, acc := acc, reg := x.1, lane := x.2.1, val := x.2.2.1, flags := x.2.2.2 }
    nextWord := t.nextWord + 1 }

/-- The scoreboard slot that a slot field names (R60). -/
def slotOf (b : BitVec 3) : Option Nat := if b.toNat < 6 then some b.toNat else none

/-- How many words are counted on slot n (R60). -/
def Team.counted (t : Team) (n : Nat) : Nat :=
  ((t.pend.filter fun p => p.slot = some n).map fun p => p.id).dedup.length

/-- Whether the conditions of a WAIT field hold (R61). -/
def Team.waitHolds (t : Team) (w : Nat) : Bool :=
  (List.range 6).all (fun n => !(w.testBit n) || t.pend.all fun p => p.slot != some n) &&
  (!(w.testBit 6) || t.pend.all fun p => !p.acc) &&
  (!(w.testBit 7) || t.pend.isEmpty)

/-- The loop buffers that hold nothing. -/
def noClauses : Nat → List (Bool × Clause) := fun _ => []

/-- Dropping every entry of the loop buffer of a core. -/
def dropLoop (s : State) (core : Nat) : State := { s with loopBuf := fset noClauses s.loopBuf core [] }

/-- Room has returned to a core (R259, R263). -/
def roomReturns (s : State) (core : Nat) : State := { s with roomBack := fset falseAt s.roomBack core true }

/-- The team that issues a word: it runs, and it has a fetched clause. Otherwise nothing can issue the word. -/
def withTeam (s : State) (k : Team → Clause → Out) : Out :=
  match s.team s.cur with
  | some t =>
    match t.status, t.clause with
    | .running, some c => k t c
    | _, _ => .fault .noTeam
  | none => .fault .noTeam

end Sys2Proof.Machine
end

