-- ==== Sys2Proof/Machine/Dev.lean ====
section
/-! DEFINITION. The device registers: their addresses and reset values (R177, R250, R259, R274, R277, R278, R282,
R285, R288, R294 to R298, R303, R315, R321), the PTP clock (R282, R283), host events (R277) and what a partition
owns (R291 to R297). -/

namespace Sys2Proof.Machine

/-- Bits [lo + n - 1 : lo] of a register. -/
def dfld (v : DWord) (lo n : Nat) : Nat := fld v.toNat lo n

/-- The register with bits [lo + n - 1 : lo] replaced by x. -/
def dput (v : DWord) (lo n x : Nat) : DWord :=
  BitVec.ofNat 64 (v.toNat - dfld v lo n * 2 ^ lo + x % 2 ^ n * 2 ^ lo)

/-- Every bit that the mask names comes from new, the others from old. -/
def merge (mask old new : DWord) : DWord := (old &&& ~~~mask) ||| (new &&& mask)

/-! Addresses (R274, R294, R321). -/

def aBreezeCtl : Nat := 0x00
def aBreezeRate : Nat := 0x08
def aBreezePos : Nat := 0x10
def aBreezeStat : Nat := 0x18
def aSealBase : Nat := 0x20
def aSealSize : Nat := 0x28
def aPtpCfg : Nat := 0x10000
def aPtpState : Nat := 0x10008
def aPtpOffset : Nat := 0x10010
def aPtpNow : Nat := 0x10018
def aPtmPtp : Nat := 0x10020
def aHwin (k : Nat) : Nat := 0x20000 + 8 * k
def aIngFilt (f : Nat) : Nat := 0x30000 + 32 * f
def aIngRing (f : Nat) : Nat := 0x30008 + 32 * f
def aIngRctl (f : Nat) : Nat := 0x30010 + 32 * f
def aIngStat (f : Nat) : Nat := 0x30018 + 32 * f
def aPartConn : Nat := 0x40000
def aDevEnergy : Nat := 0x40008
def aRetire (k : Nat) : Nat := 0x40010 + 8 * k
def aBlock (n o : Nat) : Nat := 0x40400 + 0x100 * n + o
def aVfCores (n : Nat) : Nat := aBlock n 0x00
def aVfChan (n : Nat) : Nat := aBlock n 0x08
def aVfQueues (n : Nat) : Nat := aBlock n 0x10
def aVfKeys (n : Nat) : Nat := aBlock n 0x18
def aVfTok (n : Nat) : Nat := aBlock n 0x20
def aVfSlice (n : Nat) : Nat := aBlock n 0x28
def aPtRoot (n : Nat) : Nat := aBlock n 0x30
def aFaultq (n : Nat) : Nat := aBlock n 0x38
def aSave (n : Nat) : Nat := aBlock n 0x40
def aSavesz (n : Nat) : Nat := aBlock n 0x48
def aPartState (n : Nat) : Nat := aBlock n 0x50
def aClLo (n : Nat) : Nat := aBlock n 0x58
def aClHi (n : Nat) : Nat := aBlock n 0x60
def aCgMask (n : Nat) : Nat := aBlock n 0x68
def aEnergy (n : Nat) : Nat := aBlock n 0x70
def aDeny (n : Nat) : Nat := aBlock n 0x78
def aPcap (n : Nat) : Nat := aBlock n 0x80
def aPace (n : Nat) : Nat := aBlock n 0x88
def aSealq (n : Nat) : Nat := aBlock n 0x90
def aNqlatch (n : Nat) : Nat := aBlock n 0x98
def aHevt (n : Nat) : Nat := aBlock n 0xA0
def aNqdrop (n : Nat) : Nat := aBlock n 0xA8
def aNqmap (p n : Nat) : Nat := aBlock n 0xC0 + 4 * p
def aClReq (c : Nat) : Nat := 0x50000 + 0x100 * c
def aClAck (c : Nat) : Nat := 0x50008 + 0x100 * c
def aClState (c : Nat) : Nat := 0x50010 + 0x100 * c
def aClWake (c : Nat) : Nat := 0x50018 + 0x100 * c
def aRetSave (c : Nat) : Nat := 0x50020 + 0x100 * c
def aRetDone (c : Nat) : Nat := 0x50028 + 0x100 * c
def aRetSum (c : Nat) : Nat := 0x50030 + 0x100 * c
def aBallast : Nat := 0x58000
def aAgentDb : Nat := 0x58008
def aPreempt (n : Nat) : Nat := 0x60000 + 8 * n
def aQbase (q : Nat) : Nat := 0x100000 + 64 * q
def aQctl (q : Nat) : Nat := 0x100008 + 64 * q
def aQstat (q : Nat) : Nat := 0x100010 + 64 * q
def aRplyCtl (q : Nat) : Nat := 0x100020 + 64 * q
def aRplyBase (q : Nat) : Nat := 0x100028 + 64 * q
def aRplySize (q : Nat) : Nat := 0x100030 + 64 * q
def aRplyStat (q : Nat) : Nat := 0x100038 + 64 * q

/-- The reset values of the device registers; 0 for every register that is not named. -/
def devReset (a : Nat) : DWord :=
  if a < 0x10000 then
    if a = aBreezeCtl then 2 else if a = aBreezeRate then 4096 else 0
  else if a < 0x20000 then
    if a = aPtpCfg then 0x100 else 0
  else if a < 0x30000 then 0
  else if a < 0x32000 then
    if a % 32 = 0x10 then 0x10010 else 0
  else if 0x40400 ≤ a ∧ a < 0x44400 then
    let o := (a - 0x40400) % 0x100
    if o = 0x80 then 0x80000
    else if o = 0x88 then 0x480000
    else if 0xC0 ≤ o ∧ o < 0xE0 then BitVec.ofNat 64 (512 * ((o - 0xC0) / 4) + 512 * 4096 + 2 ^ 31)
    else 0
  else if 0x50000 ≤ a ∧ a < 0x58000 then
    let o := a % 0x100
    if o = 0x08 then 1 else if o = 0x10 then 0x800 else if o = 0x28 then 1 else 0
  else if a = aBallast then 0x41
  else if 0x100000 ≤ a ∧ a < 0x140000 then
    if a % 64 = 8 then 0x60 else 0
  else 0

/-- The content of a device register. -/
def State.dreg (s : State) (a : Nat) : DWord := fget devReset s.dev a

/-- Setting a device register. -/
def State.putDreg (s : State) (a : Nat) (v : DWord) : State := { s with dev := fset devReset s.dev a v }

/-- A field of a device register. -/
def State.dfield (s : State) (a lo n : Nat) : Nat := dfld (s.dreg a) lo n

/-- Setting a field of a device register. -/
def State.putDfield (s : State) (a lo n x : Nat) : State := s.putDreg a (dput (s.dreg a) lo n x)

/-- Adding to a counter that saturates at the top of its field. -/
def State.addDfield (s : State) (a lo n x : Nat) : State :=
  s.putDfield a lo n (min (s.dfield a lo n + x) (2 ^ n - 1))

/-! ## Clocks -/

/-- CLPWR_STATE_c.POINT (R321). -/
def pointAt (s : State) (c : Nat) : Nat := s.dfield (aClState c) 8 4

/-- The clock of cluster c counted up to now, in tenths of a cycle: 300 MHz times its point (R313). -/
def clockTenths (s : State) (c : Nat) : Nat :=
  let x := s.cluster c
  x.cycBase + (s.ns - x.cycAt) * (3 * pointAt s c)

/-- The cycles that cluster c's clock has counted since device reset (R119). -/
def cyclesOf (s : State) (c : Nat) : Nat := clockTenths s c / 10

/-- The PTP clock's value in ns (R282, R283): free running, or held until the leader reaches it. -/
def ptpNow (s : State) : Nat :=
  if s.ptp.held then s.ptp.base
  else
    let e := s.ns - s.ptp.at_
    (s.ptp.base + e + (e * s.ptp.ppb / 1000000000 : Int)).toNat

/-- TIME_NS (R283). -/
def timeNs (s : State) : DWord := BitVec.ofNat 64 (ptpNow s)

/-- The vector of an event bit (R277). -/
def eventVector (bit : Nat) : Nat := if bit < 2 then 0 else if bit = 2 then 1 else 2

/-- MSI-X of function n is enabled and its vector v unmasked (R277). -/
def vectorSent (s : State) (n v : Nat) : Bool := fget falseAt s.msixOn n && fget falseAt s.msixOpen (3 * n + v)

/-- An event of function n: its bit rises, and its vector is sent once, where MSI-X sends it (R277). -/
def raiseEvent (s : State) (n bit : Nat) : State :=
  if (s.dreg (aHevt n)).getLsbD bit then s
  else
    let v := eventVector bit
    { s.putDfield (aHevt n) bit 1 1 with msix := if vectorSent s n v then s.msix ++ [(n, v)] else s.msix }

/-- PART_STATE_n.STATE (R297). -/
def partState (s : State) (n : Nat) : Nat := s.dfield (aPartState n) 0 3

/-- PART_STATE_n.RESIDENT (R297). -/
def resident (s : State) (n : Nat) : Bool := (s.dreg (aPartState n)).getLsbD 3

/-- How long partition n has been resident, in ns (R162). -/
def residentNs (s : State) (n : Nat) : Nat :=
  (s.part n).resNs + if resident s n then s.ns - (s.part n).resAt else 0

/-- PART_STATE_n.RESIDENT rises or falls: its resident time is counted up to now (R162, R297). -/
def setResident (s : State) (n : Nat) (b : Bool) : State :=
  let t := residentNs s n
  (s.putPart n { s.part n with resNs := t, resAt := s.ns }).putDfield (aPartState n) 3 1 b.toNat

/-- A change of STATE sets HEVT_n.PARTSTATE (R297). -/
def setPartState (s : State) (n st : Nat) : State :=
  if partState s n = st then s else raiseEvent (s.putDfield (aPartState n) 0 3 st) n 3

/-- Partition n owns cluster c (R297). -/
def ownsCluster (s : State) (n c : Nat) : Bool :=
  if c < 64 then (s.dreg (aClLo n)).getLsbD c else decide (c < 128) && (s.dreg (aClHi n)).getLsbD (c - 64)

/-- Setting or clearing the ownership bit of a cluster. -/
def setOwnsCluster (s : State) (n c : Nat) (b : Bool) : State :=
  if c < 64 then s.putDfield (aClLo n) c 1 b.toNat else s.putDfield (aClHi n) (c - 64) 1 b.toNat

/-- Partition n owns channel group g (R297). -/
def ownsGroup (s : State) (n g : Nat) : Bool := decide (g < 64) && (s.dreg (aCgMask n)).getLsbD g

def setOwnsGroup (s : State) (n g : Nat) (b : Bool) : State := s.putDfield (aCgMask n) g 1 b.toNat

/-- The clusters that partition n owns. -/
def clustersOf (s : State) (n : Nat) : List Nat := (List.range 128).filter (ownsCluster s n)

/-- Partition n owns as many units as its minima ask (R304). -/
def meetsMinima (s : State) (n : Nat) : Bool :=
  (s.dfield (aVfCores n) 16 10 == 0 || decide (s.dfield (aVfCores n) 16 10 ≤ 4 * (clustersOf s n).length)) &&
  (s.dfield (aVfChan n) 16 7 == 0 || decide (s.dfield (aVfChan n) 16 7 ≤ ((List.range 64).filter (ownsGroup s n)).length))

/-- The partition runs and holds its clusters (R297, R304, R305). -/
def partActive (s : State) (n : Nat) : Bool := partState s n == 1 && resident s n && meetsMinima s n

/-- The cores that partition n owns. -/
def coresOf (s : State) (n : Nat) : List Nat := (clustersOf s n).flatMap fun c => [4 * c, 4 * c + 1, 4 * c + 2, 4 * c + 3]

/-- The partition that owns cluster c and holds it now (R305). -/
def holderOf (s : State) (c : Nat) : Option Nat :=
  (List.range 64).find? fun n => ownsCluster s n c && resident s n

/-- Queue q belongs to partition n (R295). -/
def ownsQueue (s : State) (n q : Nat) : Bool :=
  decide (s.dfield (aVfQueues n) 0 12 ≤ q) && decide (q < s.dfield (aVfQueues n) 0 12 + s.dfield (aVfQueues n) 16 13)

/-- The partition of queue q. -/
def partOfQueue (s : State) (q : Nat) : Option Nat := (List.range 64).find? fun n => ownsQueue s n q

/-- QUEUE of function n: the lowest of its queues with QSTALL or QERROR set (R277); 0 where none has. -/
def showEventQueue (s : State) (n : Nat) : State :=
  s.putDfield (aHevt n) 16 12 (((s.qEvents.find? fun e => ownsQueue s n e.1).map Prod.fst).getD 0)

/-- An event of queue q of function n, QSTALL (bit 0) or QERROR (bit 1) (R277). -/
def raiseQueueEvent (s : State) (n bit q : Nat) : State :=
  raiseEvent (showEventQueue { s with qEvents := fset zeroNat s.qEvents q (fget zeroNat s.qEvents q ||| 2 ^ bit) } n) n bit

/-- A clear of QSTALL or QERROR of function n clears it of the function's queues (R277). -/
def clearQueueEvents (s : State) (n bits : Nat) : State :=
  showEventQueue { s with qEvents := s.qEvents.filterMap fun e =>
    let k := if ownsQueue s n e.1 then e.2 - (e.2 &&& bits) else e.2
    if k = 0 then none else some (e.1, k) } n

/-- Key index k lies in partition n's range (R150, R295). -/
def keyInRange (s : State) (n k : Nat) : Bool :=
  decide (s.dfield (aVfKeys n) 0 11 ≤ k) && decide (k < s.dfield (aVfKeys n) 0 11 + s.dfield (aVfKeys n) 16 12)

/-- Cluster c's power state (R321): 0 ON. -/
def clState (s : State) (c : Nat) : Nat := s.dfield (aClState c) 0 3

/-- A refused request adds 1 to XBAR_DENY_n (R293). -/
def addDeny (s : State) (n : Nat) : State := s.addDfield (aDeny n) 0 32 1

/-- Energy is charged to partition n's account, or to the overhead account (R310): the amount is not stated, so it is free,
in µJ (log entry 17). -/
def charge (s : State) (n : Option Nat) : State :=
  let a := match n with
    | some n => aEnergy n
    | none => aDevEnergy
  s.bump.putDreg a (s.dreg a + BitVec.ofNat 64 (Config.pick s.fresh (n.getD 64)))

/-- Setting wake bits of a core (R334). -/
def setWake (s : State) (core bits : Nat) : State :=
  { s with wake := fset zeroNat s.wake core (fget zeroNat s.wake core ||| bits) }

/-- The queue's STATE (R250): 0 IDLE, 1 ACTIVE, 2 BLOCKED, 3 STALLED, 4 ERROR. -/
def queueState (s : State) (q : Nat) : Nat := s.dfield (aQstat q) 32 3

def setQueueState (s : State) (q st : Nat) : State := s.putDfield (aQstat q) 32 3 st

/-- HEAD of a queue (R250). -/
def queueHead (s : State) (q : Nat) : Nat := s.dfield (aQstat q) 0 32

/-- QCTL_q.EN (R250). -/
def queueEn (s : State) (q : Nat) : Bool := (s.dreg (aQctl q)).getLsbD 0

/-! ## Which registers there are, and who reaches them (R274, R285, R294 to R297, R315, R321) -/

/-- An NQMAP register stands at a device register address. -/
def isNqmap (a : Nat) : Bool :=
  decide (0x40400 ≤ a) && decide (a < 0x44400) && decide (0xC0 ≤ (a - 0x40400) % 0x100) && decide (a % 4 = 0)

/-- The register whose bytes hold a device register address: its own address, where there is one (R274). -/
def regAt (a : Nat) : Option Nat :=
  let r := a / 8 * 8
  if a < 0x10000 then if r ≤ 0x28 then some r else none
  else if a < 0x20000 then if r ≤ 0x10020 then some r else none
  else if a < 0x30000 then if r < 0x20200 then some r else none
  else if a < 0x40000 then if r < 0x32000 then some r else none
  else if a < 0x50000 then
    if r < 0x40028 then some r
    else if 0x40400 ≤ a ∧ a < 0x44400 then
      let o := (a - 0x40400) % 0x100
      if o < 0xB0 then some r else if 0xC0 ≤ o then some (a / 4 * 4) else none
    else none
  else if a < 0x60000 then
    if a < 0x58000 then if r % 0x100 < 0x38 then some r else none
    else if r ≤ 0x58008 then some r else none
  else if a < 0x70000 then if r < 0x61000 then some r else none
  else if 0x100000 ≤ a ∧ a < 0x140000 then if r % 64 = 0x18 then none else some r
  else none

/-- A register is reached at P level by partition n (R274): it is a P-level register, of a unit that n owns. -/
def reachAtP (s : State) (n r : Nat) : Bool :=
  if r < 0x10000 then false
  else if r < 0x20000 then r != aPtpCfg
  else if r < 0x30000 then false
  else if r < 0x40000 then s.dfield (aIngFilt ((r - 0x30000) / 32)) 32 6 == n
  else if r < 0x50000 then decide (0x40400 ≤ r) && (r - 0x40400) / 0x100 == n && decide (0x30 ≤ (r - 0x40400) % 0x100)
  else if r < 0x60000 then decide (r < 0x58000) && r % 0x100 == 0x18 && ownsCluster s n ((r - 0x50000) / 0x100)
  else if r < 0x70000 then ownsCluster s n ((r - 0x60000) / 8 / 4)
  else ownsQueue s n ((r - 0x100000) / 64)

/-- A level of a partition reaches the register at a device address (R274, R328); where there is none, any does. -/
def regReached (s : State) (priv : Nat) (part : Option Nat) (a : Nat) : Bool :=
  match regAt a with
  | none => true
  | some r => priv == 2 || (priv == 1 && (part.map fun n => reachAtP s n r).getD false)

/-- A write of n bytes has its register's own width (R274). -/
def writeWidthOk (a n : Nat) : Bool :=
  match regAt a with
  | none => true
  | some r => if isNqmap r then n == 4 else n == 8

end Sys2Proof.Machine
end

