-- ==== Sys2Proof/Machine/Seal.lean ====
section
/-! DEFINITION. Sealed tiles (R165 to R178): reading and writing HBM through a seal unit, the open-tile cache, and
the seal log. A status is a copy status of R203: 0 OK, 1 TAG_FAIL, 2 COUNTER_EXHAUSTED, 6 CHECK_FAIL. -/

namespace Sys2Proof.Machine

/-- The tile of an HBM address (R165). -/
def tileOf (a : Nat) : Nat := a / 2048

/-- The channel group of an HBM address: of its data, its caddies or its tree area (R292). -/
def groupOf (a : Nat) : Nat :=
  let st := a / 2 ^ 36
  let o := a % 2 ^ 36
  if o < 63 * 2 ^ 30 then 8 * st + o / (8064 * 2 ^ 20)
  else if o < 65520 * 2 ^ 20 then 8 * st + (o - 63 * 2 ^ 30) / (126 * 2 ^ 20)
  else 8 * st + (o - 65520 * 2 ^ 20) / (2 * 2 ^ 20)

/-- The metadata regions (R165). -/
def inMetadata (a : Nat) : Bool := decide (63 * 2 ^ 30 ≤ a % 2 ^ 36)

/-- The firmware reserve (R292). -/
def inReserve (a : Nat) : Bool := decide (a < 0x20000000)

/-- The partition that owns an HBM address's group; 0 where none does (R178). -/
def ownerOf (s : State) (a : Nat) : Nat := ((List.range 64).find? fun n => ownsGroup s n (groupOf a)).getD 0

/-- A request of a partition (none for F level) to an HBM address passes the crossbar (R293): the address exists (R165),
and no partition reaches a caddy or a tree node (R166). -/
def xbarAllows (s : State) (part : Option Nat) (a : Nat) : Bool :=
  decide (a < 2 ^ 39) &&
  match part with
  | none => true
  | some n => !inMetadata a && ownsGroup s n (groupOf a)

/-- The caddy of a tile (R166). -/
def State.caddy (s : State) (t : Nat) : Caddy := fget (fun _ => Caddy.blank) s.caddies t

def State.putCaddy (s : State) (t : Nat) (c : Caddy) : State :=
  { s with caddies := fset (fun _ => Caddy.blank) s.caddies t c }

/-- The value of a key slot, and whether it is VALID (R167). -/
def keyValue (s : State) (k : Nat) : BitVec 256 := fget (fun _ => 0) s.keyVal k

def keyOk (s : State) (k : Nat) : Bool := fget falseAt s.keyValid k

/-- A STATE that reads and writes take as FAILED (R166). -/
def Caddy.failed (c : Caddy) : Bool := decide (c.state = 2) || decide (4 ≤ c.state)

/-- The open-tile cache's entry for a tile (R173). -/
def openOf (s : State) (t : Nat) : Option OpenTile := s.openTiles.find? fun o => o.tile == t

/-! ## Encryption (R167) -/

/-- The IV of a tile at a VERSION (R167). -/
def tileIv (t version : Nat) : List Byte := beBytes 12 (version % 2 ^ 48 + t % 2 ^ 41 * 2 ^ 48)

/-- The plaintext of a tile as its last seal left it. -/
def lastText (s : State) (t : Nat) : List Byte := Memory.read s.hbm (t * 2048) 2048

/-- The ciphertext of a tile: its plaintext under the key value and VERSION of its last seal (R167). -/
def cipherText (s : State) (t : Nat) : List Byte :=
  gcmCrypt (toBytes 32 (s.caddy t).sealedWith.toNat) (tileIv t (s.caddy t).sealedVersion) (lastText s t) 128

/-- The TAG that a caddy holds (R166). -/
def storedTag (s : State) (t : Nat) : BitVec 128 :=
  let c := s.caddy t
  c.tag.getD (gcmTag (toBytes 32 c.sealedWith.toNat) (tileIv t c.sealedVersion) (cipherText s t) 128)

/-- The key store holds for a caddy's KEY what its tile was sealed with, at its VERSION. -/
def sameSeal (s : State) (c : Caddy) : Bool := c.sealedWith == keyValue s c.key && c.sealedVersion == c.version

/-- The tag of a tile matches under its caddy's KEY and VERSION (R168). -/
def tagMatches (s : State) (t : Nat) : Bool :=
  let c := s.caddy t
  (c.tag.isNone && sameSeal s c) ||
  storedTag s t == gcmTag (toBytes 32 (keyValue s c.key).toNat) (tileIv t c.version) (cipherText s t) 128

/-- n bytes from offset o of the plaintext that a tile's decryption gives (R168); zeros of a BLANK tile (R166). -/
def plainBytes (s : State) (t o n : Nat) : List Byte :=
  let c := s.caddy t
  if c.state = 0 then zeros n
  else if sameSeal s c then Memory.read s.hbm (t * 2048 + o) n
  else ((gcmCrypt (toBytes 32 (keyValue s c.key).toNat) (tileIv t c.version) (cipherText s t) 128).drop o).take n

/-- The caddy after one seal under a key (R166, R171): VERSION is 1 from BLANK, and 48 bits wide (log entry 6). -/
def resealed (s : State) (c : Caddy) (key : Nat) : Caddy :=
  let v := if c.state = 0 then 1 else (c.version + 1) % 2 ^ 48
  { version := v, key := key, state := if v = 2 ^ 48 - 1 then 3 else 1, pad := 0, tag := none
    sealedWith := keyValue s key, sealedVersion := v }

/-! ## The counter tree (R165, R170, R302) -/

/-- The first tile of channel group g, the address of its caddies, and of its tree area (R292). -/
def groupTile (g : Nat) : Nat := (2 ^ 36 * (g / 8) + 8064 * 2 ^ 20 * (g % 8)) / 2048
def groupCaddies (g : Nat) : Nat := 63 * 2 ^ 30 + 2 ^ 36 * (g / 8) + 126 * 2 ^ 20 * (g % 8)
def groupTree (g : Nat) : Nat := 65520 * 2 ^ 20 + 2 ^ 36 * (g / 8) + 2 * 2 ^ 20 * (g % 8)

/-- How many caddy blocks (level 0) and nodes of levels 1 to 3 a group has (R302). -/
def treeCount : Nat → Nat
  | 0 => 64512
  | 1 => 1008
  | 2 => 16
  | _ => 1

/-- The address of caddy block i, or of node i of a level: the nodes of a tree area stand level by level (log
entry 6). -/
def treeAddr (g level i : Nat) : Nat :=
  match level with
  | 0 => groupCaddies g + 2048 * i
  | 1 => groupTree g + 512 * i
  | 2 => groupTree g + 512 * (1008 + i)
  | _ => groupTree g + 512 * 1024

/-- What has been altered at an address of a tree. -/
def alteredAt (s : State) (a : Nat) : Option Altered := fget noEntry s.treeAlt a

/-- The 32 bytes of a caddy (R166). -/
def caddyBytes (s : State) (t : Nat) : List Byte :=
  let c := s.caddy t
  toBytes 16 (storedTag s t).toNat ++ toBytes 6 c.version ++ toBytes 2 (c.key + 2048 * c.state) ++ toBytes 8 c.pad

/-- The tree key of a group: its owner's (R170). -/
def treeKeyOf (s : State) (g : Nat) : BitVec 256 :=
  (((List.range 64).find? fun n => ownsGroup s n g).bind fun n => (s.part n).treeKey).getD 0

/-- The bytes that the digest of caddy block i, or of node i of a level, was made of (R170). -/
def treeBytes (s : State) (g : Nat) : Nat → Nat → List Byte
  | 0, i => match alteredAt s (treeAddr g 0 i) with
    | some x => x.was
    | none => joinParts (fun k => caddyBytes s (groupTile g + 64 * i + k)) 64
  | l + 1, i => match alteredAt s (treeAddr g (l + 1) i) with
    | some x => x.was
    | none => joinParts (fun k => if 64 * i + k < treeCount l
        then toBytes 8 (Config.gmac (treeKeyOf s g) (treeBytes s g l (64 * i + k))).toNat else zeros 8) 64

/-- The caddy block or node at an address fails its digest (R170). -/
def digestFails (s : State) (g a : Nat) : Bool :=
  match alteredAt s a with
  | some x => Config.gmac (treeKeyOf s g) x.was != Config.gmac (treeKeyOf s g) x.now
  | none => false

/-- The path of a tile: its nodes from level 3 down, and its caddy block (R170). -/
def treePath (t : Nat) : List Nat :=
  let g := groupOf (t * 2048)
  let b := (t - groupTile g) / 64
  [treeAddr g 3 0, treeAddr g 2 (b / 4096), treeAddr g 1 (b / 64), treeAddr g 0 b]

/-- The failing node of a tile's path that is nearest the root, if there is one. A node that the node cache holds counts
as verified, by a free choice (R170; log entry 6). -/
def pathFail (s : State) (t : Nat) : Option Nat :=
  let g := groupOf (t * 2048)
  (treePath t).find? fun a => digestFails s g a && (a == treeAddr g 0 ((t - groupTile g) / 64) || Config.pick s.fresh a % 2 == 0)

/-- Every digest on a tile's path has been made again (R170): the nodes hold what the base die's node cache held. -/
def pathWritten (s : State) (t : Nat) : State :=
  if s.treeAlt.isEmpty then s
  else { s with treeAlt := s.treeAlt.filter fun e => !(treePath t).contains e.1 }

/-- Every tile from lo, n of them, is BLANK. -/
def allBlank (s : State) (lo n : Nat) : Bool :=
  s.caddies.all fun e => decide (e.1 < lo) || decide (lo + n ≤ e.1) || decide (e.2.state = 0)

/-- The tiles beneath the caddy block or node at an address of group g: the first, and how many. -/
def tilesBeneath (g a : Nat) : Nat × Nat :=
  if a < groupTree g then (groupTile g + (a - groupCaddies g) / 2048 * 64, 64)
  else
    let n := (a - groupTree g) / 512
    if n < 1008 then (groupTile g + n * 4096, 4096)
    else if n < 1024 then (groupTile g + (n - 1008) * 262144, min 262144 (64512 * 64 - (n - 1008) * 262144))
    else (groupTile g, 64512 * 64)

/-- The paths are computed again of the failing nodes beneath which every tile is BLANK (R170; log entry 6). -/
def recomputePaths (s : State) : State :=
  { s with treeAlt := s.treeAlt.filter fun e =>
      let (lo, n) := tilesBeneath (groupOf e.1) e.1
      !allBlank s lo n }

/-- A caddy block or node holds other bytes now, or those of its digest again (R170). -/
def alter (s : State) (a : Nat) (was now : List Byte) : State :=
  let old := alteredAt s a
  let was := (old.map fun x => x.was).getD was
  let x : Altered := { was := was, now := now, logged := (old.map fun x => x.logged).getD false }
  { s with treeAlt := fset noEntry s.treeAlt a (if was = now then none else some x) }

/-! ## The metadata regions (R165, R166), which F-level firmware reads and writes -/

/-- The node of a tree area at an address: its level and index; none beyond the nodes. -/
def nodeAt (g a : Nat) : Option (Nat × Nat) :=
  let n := (a - groupTree g) / 512
  if n < 1008 then some (1, n) else if n < 1024 then some (2, n - 1008) else if n = 1024 then some (3, 0) else none

/-- One byte of a metadata region. -/
def metaByte (s : State) (a : Nat) : Byte :=
  let g := groupOf a
  if a < groupTree g then ((caddyBytes s (groupTile g + (a - groupCaddies g) / 32))[a % 32]?).getD 0
  else match nodeAt g a with
    | some (l, i) =>
      match alteredAt s (treeAddr g l i) with
      | some x => (x.now[a % 512]?).getD 0
      | none => ((treeBytes s g l i)[a % 512]?).getD 0
    | none => Memory.get s.hbm a

/-- A caddy with other bytes in place of its own. -/
def Caddy.ofBytes (s : State) (t : Nat) (l : List Byte) : Caddy :=
  let c := s.caddy t
  let tag := BitVec.ofNat 128 (num l 0 16)
  { c with version := num l 16 6, key := num l 22 2 % 2048, state := num l 22 2 / 2048, pad := num l 24 8
           tag := if tag = storedTag s t then c.tag else some tag }

/-- One byte of a metadata region written. -/
def putMetaByte (s : State) (a : Nat) (b : Byte) : State :=
  let g := groupOf a
  if a < groupTree g then
    let i := (a - groupCaddies g) / 32
    let t := groupTile g + i
    let was := treeBytes s g 0 (i / 64)
    let s := s.putCaddy t (Caddy.ofBytes s t (patch (caddyBytes s t) (a % 32) [b]))
    alter s (treeAddr g 0 (i / 64)) was (joinParts (fun k => caddyBytes s (groupTile g + i / 64 * 64 + k)) 64)
  else match nodeAt g a with
    | some (l, i) =>
      let at_ := treeAddr g l i
      let was := treeBytes s g l i
      alter s at_ was (patch (((alteredAt s at_).map fun x => x.now).getD was) (a % 512) [b])
    | none => { s with hbm := Memory.put s.hbm a b }

/-- Bytes of a metadata region written. -/
def putMeta (s : State) (a : Nat) (l : List Byte) : State :=
  recomputePaths (l.foldl (fun (x : State × Nat) b => (putMetaByte x.1 x.2 b, x.2 + 1)) (s, a)).1

/-! ## Reading and writing a tile -/

/-- Why a tile is not read or written: the copy status of R203, the failing node of the counter tree, whether it is the
tile's own read that failed, and the failing granule (R168, R170, R171, R178). -/
structure SealFail where
  st : Nat
  node : Option Nat
  read : Bool
  granule : Nat
deriving DecidableEq, Repr

/-- A tile's tag or key fails. -/
def SealFail.tag : SealFail := { st := 1, node := none, read := false, granule := 0 }

/-- A tile's path fails. -/
def SealFail.path (a : Nat) : SealFail := { SealFail.tag with node := some a }

/-- A granule's check word fails. -/
def SealFail.check (g : Nat) : SealFail := { st := 6, node := none, read := false, granule := g }

/-- Whether a tile's read passes the seal unit under a key (R168): its failure; and the state, in which a tag that does
not match has made the tile FAILED. Beneath a failing node of the counter tree a BLANK tile still delivers zeros, and a tile
that is open is read from the cache, and takes partial writes: R168 asks first whether the tile is BLANK, R170 says TAG_FAIL
for every tile beneath, so that is the model's choice (log entry 57). -/
def sealCheck (s : State) (key t : Nat) : Option SealFail × State :=
  match openOf s t with
  | some o => (if o.key = key then none else some .tag, s)
  | none =>
    let c := s.caddy t
    if c.state = 0 then (none, s)
    else if c.failed then (some .tag, s)
    else
      match pathFail s t with
      | some a => (some (.path a), s)
      | none =>
        if c.key ≠ key then (some .tag, s)
        else if !tagMatches s t then (some .tag, s.putCaddy t { c with state := 2 })
        else (none, s)

/-- The plaintext bytes of one tile, from the open-tile cache where it is open (R168, R173). -/
def tileBytes (s : State) (a n : Nat) : List Byte :=
  match openOf s (tileOf a) with
  | some o => Memory.read o.bytes (a % 2048) n
  | none => plainBytes s (tileOf a) (a % 2048) n

/-- The first failing granule of an open tile that n bytes at offset o reach: one that is read, or that a write does not
cover whole (R175). -/
def OpenTile.badGranule (x : OpenTile) (rd : Bool) (o n : Nat) : Option Nat :=
  (List.range 32).find? fun g => fget falseAt x.bad g && decide (o < 64 * g + 64) && decide (64 * g < o + n) &&
    (rd || decide (64 * g < o) || decide (o + n < 64 * g + 64))

/-- The check words after a write of n bytes at offset o: of granules that it covers whole they are fresh (R175). -/
def OpenTile.fresh (x : OpenTile) (o n : Nat) : FMap Bool :=
  fclear x.bad (ceilDiv o 64) ((o + n) / 64 - ceilDiv o 64)

/-- HBM with bytes merged into the plaintext of tile t (R171). -/
def mergeText (s : State) (t a : Nat) (l : List Byte) : Memory :=
  let c := s.caddy t
  if c.state = 0 then Memory.write (fclear s.hbm (t * 2048) 2048) a l
  else if sameSeal s c ∨ l.length = 2048 then Memory.write s.hbm a l
  else Memory.write (Memory.write s.hbm (t * 2048) (plainBytes s t 0 2048)) a l

/-- Writing bytes of one tile, without a log record (R171, R173): its failure, and the state. -/
def sealStore (s : State) (key a : Nat) (l : List Byte) : Option SealFail × State :=
  let t := tileOf a
  let full := l.length == 2048
  if inMetadata a then (none, putMeta s a l)
  else
    match openOf s t with
    | some o =>
      if o.key ≠ key ∧ !full then (some { SealFail.tag with read := true }, s)
      else
        match o.badGranule false (a % 2048) l.length with
        | some g => (some (.check g), s)
        | none =>
          (none, { s with openTiles := s.openTiles.map fun x =>
            if x.tile = t then { x with bytes := Memory.write x.bytes (a % 2048) l, key := key
                                        bad := x.fresh (a % 2048) l.length } else x })
    | none =>
      let c := s.caddy t
      if c.failed ∧ !full then (some .tag, s)
      else if c.state = 3 then (some { SealFail.tag with st := 2 }, s)
      else
        match (if full ∨ c.state = 0 then ((pathFail s t).map SealFail.path, s) else sealCheck s key t) with
        | (some f, s) => (some { f with read := !full && c.state != 0 }, s)
        | (none, s) =>
          match s.flight with
          | some g => (some (.check g), { s with flight := none })
          | none =>
            (none, { pathWritten s t with hbm := mergeText s t a l }.putCaddy t (resealed s c key))

/-- One ring of records (R160, R178): a 64-byte header (TAIL, HEAD, count, OVERFLOW) and cap records of 32 bytes.
The write of a record that finds room, through w, with TAIL advanced last; a full ring counts it in OVERFLOW. -/
def ringAppend (hdr : List Byte) (cap : Nat) (w : State → Nat → List Byte → State) (s : State) (rec : List Byte) :
    State :=
  let tail := num hdr 0 8
  let head := num hdr 8 8
  if cap = 0 ∨ cap ≤ tail - head then w s 24 (toBytes 8 (num hdr 24 8 + 1))
  else
    let s := w s (64 + 32 * (tail % cap)) rec
    let s := w s 16 (toBytes 8 (num hdr 16 8 + 1))
    w s 0 (toBytes 8 (tail + 1))

/-- A seal log record (R178), of partition part. The log's header is read under key 0; where that read fails, the record
is dropped. SEQ counts every record, also those that a disabled log, a full ring or an unreadable header drops (log
entry 57). A record that the ring takes waits for the agents to forward it (R331). -/
def sealRecord (s : State) (part paddr source status granule : Nat) : State :=
  let base := s.dfield aSealBase 0 52
  let size := s.dfield aSealSize 0 32
  let s := { s with sealSeq := s.sealSeq + 1 }
  if size = 0 then s
  else
    match sealCheck s 0 (tileOf base) with
    | (some _, s) => s
    | (none, s) =>
      let rec_ := toBytes 8 paddr ++ toBytes 1 part ++ toBytes 1 source ++ toBytes 1 status ++
        toBytes 1 granule ++ zeros 4 ++ toBytes 8 (ptpNow s) ++ toBytes 8 (s.sealSeq - 1)
      let hdr := tileBytes s base 64
      let cap := (size - 64) / 32
      let s := if num hdr 0 8 - num hdr 8 8 < cap then { s with sealFwd := s.sealFwd ++ [(part, rec_)] } else s
      ringAppend hdr cap (fun s o l => (sealStore s 0 (base + o) l).2) s rec_

/-- The record of a tile's failure. -/
def sealLog (s : State) (paddr source status granule : Nat) : State :=
  sealRecord s (ownerOf s paddr) paddr source status granule

/-- The record of a check word that fails in an on-chip store (R176): which has no physical address, so PADDR is a free
value (log entry 26). GRANULE is the granule's number in its store modulo 32, and PART is 0 for an agent of F level, which
has no partition: the model's choices (log entry 57). -/
def checkLog (s : State) (part : Option Nat) (granule : Nat) : State :=
  sealRecord s.bump (part.getD 0) (Config.pick s.fresh 0 % 2 ^ 52) 6 6 (granule % 32)

/-- A failing node of a counter tree is logged once (R170), with SOURCE 5 and its own address (R178). -/
def nodeLog (s : State) (a : Nat) : State :=
  match alteredAt s a with
  | some x => if x.logged then s else sealLog { s with treeAlt := fset noEntry s.treeAlt a (some { x with logged := true }) } a 5 1 0
  | none => s

/-- The record of a failure at a tile: of its node, or of the tile (R168, R170, R178). -/
def failLog (s : State) (t source : Nat) (f : SealFail) : State :=
  match f.node with
  | some a => nodeLog s a
  | none => sealLog s (t * 2048) source f.st f.granule

/-- The records of a refused write (R168, R171): where the tile's own read failed, that failure's and the refusal's. Each
carries the SOURCE of the write, also a CHECK_FAIL before a seal: the model's choice (R178; log entry 57). -/
def refuseLog (s : State) (t source : Nat) (f : SealFail) : State :=
  let s := failLog s t source f
  if f.read ∧ f.node.isNone then failLog s t source f else s

/-- Bytes from offset o of an open tile, with zeros for the granules whose check word fails (R176). -/
def OpenTile.checked (x : OpenTile) (o : Nat) (l : List Byte) : List Byte :=
  l.mapIdx fun i b => if fget falseAt x.bad ((o + i) / 64) then 0 else b

/-- Reading n bytes of one tile from address a (R168, R176): the status, the bytes, zero where they fail, and the
state. -/
def sealRead (s : State) (key source a n : Nat) : Nat × List Byte × State :=
  if inMetadata a then (0, (List.range n).map fun i => metaByte s (a + i), s)
  else
    let t := tileOf a
    match sealCheck s key t with
    | (some f, s) => (f.st, zeros n, failLog s t source f)
    | (none, s) =>
      match (openOf s t).bind fun x => (x.badGranule true (a % 2048) n).map fun g => (x, g) with
      | some (x, g) => (6, x.checked (a % 2048) (tileBytes s a n), failLog s t 6 (.check g))
      | none => (0, tileBytes s a n, s)

/-- Resealing an open tile and closing its entry (R173): where a check word fails, the tile stays as it was before it
opened and becomes FAILED; where the tree fails, the write is lost (R170). -/
def closeTile (s : State) (t : Nat) : State :=
  match openOf s t with
  | none => s
  | some o =>
    let s := { s with openTiles := s.openTiles.filter fun x => x.tile != t }
    let c := s.caddy t
    match o.badGranule true 0 2048, pathFail s t with
    | some g, _ => sealLog (s.putCaddy t { c with state := 2 }) (t * 2048) 1 6 g
    | none, some a => nodeLog s a
    | none, none =>
      { pathWritten s t with
        hbm := Memory.write (fclear s.hbm (t * 2048) 2048) (t * 2048) (Memory.read o.bytes 0 2048) }.putCaddy t
          (resealed s c o.key)

/-- Closing every open tile that p names. -/
def closeTiles (s : State) (p : OpenTile → Bool) : State :=
  (s.openTiles.filter p).foldl (fun s o => closeTile s o.tile) s

/-- How many partitions own memory-side ports (R173). -/
def portOwners (s : State) : Nat := ((List.range 64).filter fun n => s.dfield (aCgMask n) 0 64 != 0).length

/-- Whether a partial write opens its tile: the device may do so (R173); a free choice, within the limit. -/
def mayOpen (s : State) (a : Nat) : Bool :=
  let t := tileOf a
  let c := s.caddy t
  let part := ownerOf s a
  !inMetadata a && (openOf s t).isNone && (c.state == 0 || (c.state == 1 && c.version != 2 ^ 48 - 2)) &&
  decide ((s.openTiles.filter fun o => o.part == part).length < max 4 (256 / max 1 (portOwners s))) &&
  decide (s.openTiles.length < 256) && decide (Config.pick s.fresh t % 2 = 1)

/-- A partial write opens its tile, which is read first (R168, R173); not beneath a failing node (R170). -/
def openTile (s : State) (key source a : Nat) (l : List Byte) : Nat × State :=
  let t := tileOf a
  match sealCheck s.bump key t with
  | (some f, s) => (f.st, refuseLog s t source { f with read := true })
  | (none, s) =>
    match pathFail s t with
    | some nd => (1, nodeLog s nd)
    | none =>
      (0, { s with openTiles := s.openTiles ++
        [{ tile := t, part := ownerOf s a, key := key, since := s.ns, bad := []
           bytes := Memory.write (Memory.write [] 0 (plainBytes s t 0 2048)) (a % 2048) l }] })

/-- Writing bytes of one tile (R171, R173): the status, and the state; a refusal is logged. -/
def sealWrite (s : State) (key source a : Nat) (l : List Byte) : Nat × State :=
  if l.length ≠ 2048 ∧ mayOpen s a then openTile s key source a l
  else
    match sealStore s key a l with
    | (none, s) => (0, s)
    | (some f, s) => (f.st, refuseLog s (tileOf a) source f)

/-- A granule's check word no longer matches in an open tile (R175). -/
def spoilOpen (s : State) (t g : Nat) : State :=
  { s with openTiles := s.openTiles.map fun x => if x.tile = t then { x with bad := fset falseAt x.bad g true } else x }

/-- Reading bytes that may lie in several tiles: the first failing status, and zeros for the bytes of failing tiles. -/
def sealReads (key source : Nat) : Nat → State → Nat → Nat → Nat × List Byte × State
  | 0, s, _, _ => (0, [], s)
  | fuel + 1, s, a, n =>
    if n = 0 then (0, [], s)
    else
      let k := min n (2048 - a % 2048)
      let (st, l, s) := sealRead s key source a k
      let (st', l', s) := sealReads key source fuel s (a + k) (n - k)
      (if st = 0 then st' else st, l ++ l', s)

/-- Writing bytes that may lie in several tiles: the first failing status, and the state. -/
def sealWrites (key source : Nat) : Nat → State → Nat → List Byte → Nat × State
  | 0, s, _, _ => (0, s)
  | fuel + 1, s, a, l =>
    if l.isEmpty then (0, s)
    else
      let k := min l.length (2048 - a % 2048)
      let (st, s) := sealWrite s key source a (l.take k)
      let (st', s) := sealWrites key source fuel s (a + k) (l.drop k)
      (if st = 0 then st' else st, s)

/-- Blanking a range of tiles: BLANK caddies, and nothing in them (R302). The firmware reserve stays (R292). -/
def blankRange (s : State) (lo n : Nat) : State :=
  let lo' := max lo 0x20000000
  let n' := lo + n - lo'
  { s with hbm := fclear s.hbm lo' n', caddies := fclear s.caddies (lo' / 2048) (n' / 2048)
           openTiles := s.openTiles.filter fun o => !(decide (lo' ≤ o.tile * 2048) && decide (o.tile * 2048 < lo' + n')) }

/-- Blanking a channel group (R302): every tile is BLANK, and its levels 1 to 3 are computed again. -/
def blankGroup (s : State) (g : Nat) : State :=
  let s := blankRange s (2 ^ 36 * (g / 8) + 8064 * 2 ^ 20 * (g % 8)) (8064 * 2 ^ 20)
  { s with treeAlt := s.treeAlt.filter fun e => groupOf e.1 != g }

end Sys2Proof.Machine
end

