-- ==== Sys2Proof/Machine/Xlate.lean ====
section
/-! DEFINITION. Translation (R145 to R158): the page walk, the translation caches, and the checks that every access
makes of a page. A failure is a number: the trap causes 6 PAGE_NOT_PRESENT, 7 PERMISSION, 8 TARGET_TYPE and
9 CHECK_FAIL (R108), and 10 for CHECK_FAIL whose copy status is TAG_FAIL (R147). -/

namespace Sys2Proof.Machine

/-- The base of the frame region (R146). -/
def frameRegion : Nat := 0x01FF800000000000

/-- The bytes that a leaf of a level maps (R147). -/
def pageSize : Nat → Nat
  | 0 => 0x10000
  | 1 => 0x200000
  | _ => 0x40000000

/-- The entry of an address in a node of a level (R147). -/
def walkIndex (level va : Nat) : Nat :=
  match level with
  | 0 => fld va 16 5
  | 1 => fld va 21 9
  | 2 => fld va 30 9
  | 3 => fld va 39 9
  | _ => fld va 48 9

/-- The entry's fields (R148). -/
def pteOf (e : Nat) : Pte :=
  { rd := e.testBit 1, wr := e.testBit 2, ex := e.testBit 3, global := e.testBit 4, typ := fld e 8 3
    order := fld e 11 2, key := fld e 16 11, core := fld e 27 9, addr := fld e 64 52, dirty := e.testBit 6 }

/-- An entry is malformed (R150), for the level it stands at, the partition (none at F level) and the address. -/
def malformed (part : Option Nat) (level va e : Nat) : Bool :=
  let p := pteOf e
  if e.testBit 7 then
    let size := pageSize level
    decide (2 < level) || decide (fld e 13 3 ≠ 0) || decide (fld e 36 28 ≠ 0) || decide (fld e 116 12 ≠ 0) ||
    decide (p.typ = 7) || decide (p.order = 3) || decide (p.addr % size ≠ 0) ||
    (decide (p.core ≠ 0) && decide (p.typ ≠ 2) && decide (p.typ ≠ 3)) ||
    ((p.typ == 4 || p.typ == 6) && p.addr != 0) ||
    ((p.typ == 5 || p.typ == 6) && p.order != 0) ||
    (p.typ == 6 && level != 0) ||
    (p.typ == 4 && decide (va < frameRegion)) ||
    ((p.typ == 0 || p.typ == 1 || p.typ == 4) && p.key == 0 && part.isSome) ||
    (!(p.typ == 0 || p.typ == 1 || p.typ == 4) && p.key != 0)
  else
    decide (level = 0) || decide (fld e 1 6 ≠ 0) || decide (fld e 8 8 ≠ 0) || decide (fld e 27 37 ≠ 0) ||
    decide (fld e 116 12 ≠ 0) || decide (p.addr % (if level = 1 then 512 else 8192) ≠ 0) ||
    (p.key == 0 && part.isSome)

/-- A present entry's key lies outside the partition's range, where the range is checked (R150). -/
def keyRefused (s : State) (part : Option Nat) (e : Nat) : Bool :=
  match part with
  | none => false
  | some n =>
    let p := pteOf e
    (!(e.testBit 7) || p.typ == 0 || p.typ == 1 || p.typ == 4) && !keyInRange s n p.key

/-- The walk from a node (R147, R150, R151): the leaf's entry and its level, or a failure. It writes ACC, and DIRTY for a
write, into the leaf's entry; where that write is refused, the walk fails, also for COUNTER_EXHAUSTED (an EXHAUSTED tile of
the table), of which the spec says nothing: a CHECK_FAIL, by the model's choice (log entry 57). -/
def walkFrom (part : Option Nat) (va : Nat) (wr : Bool) :
    Nat → State → Nat → Nat → Except Nat (Nat × Nat) × State
  | level, s, node, key =>
    let a := node + 16 * walkIndex level va
    if !xbarAllows s part a then (.error 9, match part with | some n => addDeny s n | none => s)
    else
      match sealRead s key 4 a 16 with
      | (0, l, s) =>
        let e := ofBytes l
        if !(e.testBit 0) || malformed part level va e then (.error 6, s)
        else if keyRefused s part e then (.error 7, s)
        else if e.testBit 7 then
          let e' := e ||| (if wr && e.testBit 2 then 0x60 else 0x20)
          if e' = e then (.ok (e, level), s)
          else
            match sealWrite s key 1 a (toBytes 16 e') with
            | (0, s) => (.ok (e', level), s)
            | (st, s) => (.error (if st = 1 then 10 else 9), s)
        else
          match level with
          | 0 => (.error 6, s)
          | k + 1 => walkFrom part va wr k s (pteOf e).addr (pteOf e).key
      | (st, _, s) => (.error (if st = 1 then 10 else 9), s)

/-- A walk of the table of a partition, or of the firmware table (R147), and the cached form of its result. A root is
aligned to its node's size (R4; log entry 58 for the firmware table's). -/
def walk (s : State) (part : Option Nat) (va : Nat) (wr : Bool) : Except Nat Tlb × State :=
  let (root, key) := match part with
    | some n => (s.dfield (aPtRoot n) 0 52, s.dfield (aPtRoot n) 52 11)
    | none => (s.fwRoot / 8192 * 8192, 0)
  match walkFrom part va wr 4 s root key with
  | (.ok (e, level), s) =>
    (.ok { part := part, base := va / pageSize level * pageSize level, size := pageSize level, pte := pteOf e }, s)
  | (.error c, s) => (.error c, s)

/-- A cached translation maps an address of a partition (R154). -/
def Tlb.maps (x : Tlb) (part : Option Nat) (va : Nat) : Bool :=
  decide (x.part = part) && decide (x.base ≤ va) && decide (va < x.base + x.size)

/-- A cache of n entries with one more translation; the oldest leaves a full cache. -/
def cacheAdd (n : Nat) (l : List Tlb) (x : Tlb) : List Tlb :=
  (x :: l.filter fun y => y != x).take n

def noTlbs : Nat → List Tlb := fun _ => []

/-- Filling the second-level cache of a core's cluster, and the core's first-level cache where l1 is set (R154). -/
def cacheFill (l1 : Bool) (s : State) (core : Option Nat) (x : Tlb) : State :=
  match core with
  | none => s
  | some c =>
    { s with tlb1 := if l1 then fset noTlbs s.tlb1 c (cacheAdd 64 (fget noTlbs s.tlb1 c) x) else s.tlb1
             tlb2 := fset noTlbs s.tlb2 (c / 4) (cacheAdd 2048 (fget noTlbs s.tlb2 (c / 4)) x) }

/-- A cached translation that a lookup may use: in the core's first-level cache where l1 is set, then in its cluster's
second-level cache; the caches may have dropped it meanwhile, by a free choice (R154; log entry 15). A write through a
clean translation walks again (R151). -/
def cached (l1 : Bool) (s : State) (core : Option Nat) (part : Option Nat) (va : Nat) (wr : Bool) : Option Tlb :=
  match core with
  | none => none
  | some c =>
    match ((if l1 then fget noTlbs s.tlb1 c else []) ++ fget noTlbs s.tlb2 (c / 4)).find? fun x => x.maps part va with
    | some x => if (wr && x.pte.wr && !x.pte.dirty) || Config.pick s.fresh va % 2 = 0 then none else some x
    | none => none

/-- The translation of an address (R145, R154): of a partition (none at F level), through the caches of a core
(none for the kettle, ingress and the host), for a write or a read. A copy engine's front end uses its cluster's
second-level cache only: l1 is clear. -/
def xlateBy (l1 : Bool) (s : State) (part core : Option Nat) (va : Nat) (wr : Bool) : Except Nat Tlb × State :=
  if 2 ^ 57 ≤ va then (.error 6, s)
  else
    match cached l1 s core part va wr with
    | some x => (.ok x, s)
    | none =>
      match walk s part va wr with
      | (.ok x, s) => (.ok x, cacheFill l1 s core x)
      | (.error c, s) => (.error c, s)

/-- The translation of an address for a core. -/
def xlate (s : State) (part core : Option Nat) (va : Nat) (wr : Bool) : Except Nat Tlb × State :=
  xlateBy true s part core va wr

/-- The rights and the key of a page for a data access (R157 step 3; R165, R167, R292): a failure, or none. Below F
level no HBM entry may name a metadata region or the firmware reserve. The key of a FRAME page seals its spill only. -/
def rightsFail (s : State) (part : Option Nat) (p : Pte) (wr : Bool) : Option Nat :=
  if (wr && !p.wr) || (!wr && !p.rd) then some 7
  else if p.typ = 0 ∧ (!keyOk s p.key || (part.isSome && (inMetadata p.addr || inReserve p.addr))) then some 7
  else none

/-- Reading HBM bytes at a virtual address for an agent that is no team (R158, R195): the failure, the bytes and the
state. Every page must be an HBM page with RD; `host` admits HOST pages too (R250). Which page types the kettle reads a
launch record from the spec does not say: HBM pages only is the model's choice (log entry 57). -/
def vread (host : Bool) (part core : Option Nat) : Nat → State → Nat → Nat → Except Nat (List Byte) × State
  | 0, s, _, _ => (.ok [], s)
  | fuel + 1, s, va, n =>
    if n = 0 then (.ok [], s)
    else
      match xlate s part core va false with
      | (.error c, s) => (.error c, s)
      | (.ok x, s) =>
        let k := min n (min (2048 - va % 2048) (x.base + x.size - va))
        let pa := x.pte.addr + (va - x.base)
        match rightsFail s part x.pte false with
        | some c => (.error c, s)
        | none =>
          if x.pte.typ = 1 ∧ host then
            match vread host part core fuel s (va + k) (n - k) with
            | (.ok l, s) => (.ok (Memory.read s.host pa k ++ l), s)
            | (.error c, s) => (.error c, s)
          else if x.pte.typ ≠ 0 then (.error 8, s)
          else if !xbarAllows s part pa then (.error 7, match part with | some q => addDeny s q | none => s)
          else
            match sealRead s x.pte.key 0 pa k with
            | (0, l, s) =>
              match vread host part core fuel s (va + k) (n - k) with
              | (.ok l', s) => (.ok (l ++ l'), s)
              | (.error c, s) => (.error c, s)
            | (st, _, s) => (.error (if st = 1 then 10 else 9), s)

/-- Writing HBM bytes at a virtual address for an agent that is no team; a failure leaves the rest unwritten. Device writes
to HOST pages are made by engine operations only (R197). -/
def vwrite (part core : Option Nat) : Nat → State → Nat → List Byte → Except Nat Unit × State
  | 0, s, _, _ => (.ok (), s)
  | fuel + 1, s, va, l =>
    if l.isEmpty then (.ok (), s)
    else
      match xlate s part core va true with
      | (.error c, s) => (.error c, s)
      | (.ok x, s) =>
        let k := min l.length (min (2048 - va % 2048) (x.base + x.size - va))
        let pa := x.pte.addr + (va - x.base)
        match rightsFail s part x.pte true with
        | some c => (.error c, s)
        | none =>
          if x.pte.typ ≠ 0 then (.error 8, s)
          else if !xbarAllows s part pa then (.error 7, match part with | some q => addDeny s q | none => s)
          else
            match sealWrite s x.pte.key 1 pa (l.take k) with
            | (0, s) => vwrite part core fuel s (va + k) (l.drop k)
            | (st, s) => (.error (if st = 1 then 10 else 9), s)

/-- Writing a record that may lie in two tiles: wholly, or not at all (R254). -/
def vwriteWhole (part : Option Nat) (s : State) (va : Nat) (l : List Byte) : State :=
  match vwrite part none 3 s va l with
  | (.ok _, s') => s'
  | (.error _, s') =>
    let k := 2048 - va % 2048
    match vwrite part none 2 s va (l.take k) with
    | (.ok _, _) => (vwrite part none 2 s (va + k) (l.drop k)).2
    | (.error _, _) => s'

end Sys2Proof.Machine
end

