-- ==== Sys2Proof/Machine/Spill.lean ====
section
/-! DEFINITION. The state of a team that leaves local memory (R129, R169, R260, R261, R308, R309): the units of 64 KiB that
hold it in the partition's save area, or in the firmware reserve, and their tiles in HBM. What bytes stand in those tiles
the spec does not say: they are free, and the model keeps the values in the team itself (log entry 18). -/

namespace Sys2Proof.Machine

/-- The partition a team acts for: none at F level (R291, R328). -/
def teamPart (s : State) (t : Team) : Option Nat :=
  if t.priv = 2 then none else (s.wg t.wg).map fun w => w.part

/-- The partition of a team's workgroup. -/
def ownPart (s : State) (t : Team) : Nat := ((s.wg t.wg).map fun w => w.part).getD 0

/-- The core of a team. -/
def teamCore (s : State) (t : Team) : Nat := ((s.wg t.wg).map fun w => w.core).getD 0

/-- The base of a team's frame window (R146). -/
def Team.base (t : Team) : Nat := frameRegion + 2 ^ 32 * t.window

/-- A free number below bound that `used` does not hold (log entry 16). -/
def pickUnused (s : State) (k bound : Nat) (used : Nat → Bool) : Nat :=
  let c := Config.pick s.fresh k % bound
  (findFrom (fun i => !used (i % bound)) c bound).getD c % bound

/-! ## Residency (R101, R260) -/

/-- Lane contexts of a team of L lanes at residency level k (R101, R260). -/
def ctxOf (lanes k : Nat) : Nat := 32 * max 1 (ceilDiv (ceilDiv lanes 32) (2 ^ k))

/-- Registers a lane at residency level k (R260). -/
def regsOf (nregs k : Nat) : Nat := max 8 (8 * ceilDiv nregs (8 * 2 ^ k))

/-- The spill stack of a team at residency level k (R260). -/
def spillOf (k : Nat) : Nat := 16384 / 2 ^ k

/-- The bytes of a team's live frames. -/
def Team.frameBytes (t : Team) : Nat := t.fsp.toNat - t.base

/-- The bytes of the registers of every lane that are evicted, and then of the other registers of the passes that are: as
they stand (R260, R261). -/
def Team.listBytes (t : Team) : Nat :=
  4 * t.lanes * t.evicted.length + 128 * (t.nregs - t.evicted.length) * t.passOut.length

/-- The bytes that level k evicts when nothing is outstanding. -/
def Team.levelBytes (t : Team) (k : Nat) : Nat :=
  4 * t.lanes * (t.nregs - regsOf t.nregs k) + 128 * regsOf t.nregs k * ((ctxOf t.lanes 0 - ctxOf t.lanes k) / 32)

/-- The bytes of the registers and counters that are evicted at level k: while the team still has to refill what it left
at a higher level (R263), that. -/
def Team.outBytes (t : Team) (k : Nat) : Nat := max (t.levelBytes k) t.listBytes

/-- The bytes that a team at level k keeps beyond its spill stack (R261, R309): of its frames, from the lowest, and then
of the registers and counters evicted (log entry 18). -/
def Team.spillBytes (t : Team) (k : Nat) : Nat := t.outBytes k + t.frameBytes - spillOf k

/-- The same in 64 KiB units, as bytes (R309). -/
def Team.spillAt (t : Team) (k : Nat) : Nat := roundUp (t.spillBytes k) 65536

/-! ## The save area (R296, R308, R309) -/

/-- The units that the saves and the spills of partition n hold. -/
def heldUnits (s : State) (n : Nat) : List Nat :=
  (entries s.wgs).flatMap fun e =>
    if e.2.part = n ∧ !e.2.agent then
      e.2.saveUnits ++ e.2.teams.flatMap fun u => ((s.team u).map fun t => t.spill).getD []
    else []

/-- The room of partition n's save area that saves and spills hold. -/
def saveUse (s : State) (n : Nat) : Nat := 65536 * (heldUnits s n).length

/-- The size of partition n's save area. -/
def saveArea (s : State) (n : Nat) : Nat := s.dfield (aSavesz n) 0 32 * 2 ^ 20

/-- SAVEFULL is set (R297, R308). -/
def setSaveFull (s : State) (n : Nat) : State := s.putDfield (aPartState n) 4 1 1

/-- A unit of partition n's save area that nothing holds: the hardware allocates it, by a free choice (log entry 16). -/
def freeUnit (s : State) (n : Nat) : Nat :=
  let base := s.dfield (aSave n) 0 57
  let held := heldUnits s n
  base + 65536 * pickUnused s 0 (max 1 (saveArea s n / 65536)) fun j => held.contains (base + 65536 * j)

/-- The HBM address of an address of the save area of a partition and its page's KEY, for a read or a write: none where its
page is no HBM page with the right, or the crossbar refuses it. A firmware agent's units stand in the reserve (R309). -/
def areaAddr (s : State) (part : Option Nat) (core va : Nat) (wr : Bool) : Option (Nat × Nat) × State :=
  match part with
  | none => (some (va, 0), s)
  | some n =>
    match xlateBy false s part (some core) va wr with
    | (.error _, s) => (none, s)
    | (.ok x, s) =>
      let pa := x.pte.addr + (va - x.base)
      if x.pte.typ ≠ 0 ∨ (rightsFail s part x.pte wr).isSome then (none, s)
      else if xbarAllows s part pa then (some (pa, x.pte.key), s) else (none, addDeny s n)

/-- Writing one tile of the save area, through the copy path (R171, R309): whether it is written. With key some k, it is
sealed under k, otherwise under its page's KEY. A granule that it takes from an on-chip store and whose check word fails has
the tile refused (R175, R176). -/
def areaWrite (s : State) (part : Option Nat) (core : Nat) (key bad : Option Nat) (va : Nat) : Bool × State :=
  match areaAddr s part core va true with
  | (none, s) => (false, s)
  | (some (pa, k), s) =>
    match sealWrite { s.bump with flight := bad.or s.flight } (key.getD k) 1 pa
        ((List.range 2048).map (Config.freeByte s.fresh)) with
    | (st, t) => (st == 0, { t with flight := if bad.isSome then s.flight else t.flight })

/-- Reading one tile of the save area back (R168): whether it passes. -/
def areaRead (s : State) (part : Option Nat) (core : Nat) (key : Option Nat) (va : Nat) : Bool × State :=
  match areaAddr s part core va false with
  | (none, s) => (false, s)
  | (some (pa, k), s) =>
    match sealRead s (key.getD k) 0 pa 2048 with
    | (st, _, s) => (st == 0, s)

/-- Doing f to each tile of a unit: whether all of them pass. -/
def eachTile (f : State → Nat → Bool × State) (s : State) (unit : Nat) : Bool × State :=
  (List.range 32).foldl (fun (x : Bool × State) i =>
    match f x.2 (unit + 2048 * i) with
    | (ok, s) => (x.1 && ok, s)) (true, s)

/-- The key that seals a team's spill: the KEY of its frame pages, where it is VALID (R148, R167, R309). -/
def spillKey (s : State) (t : Team) : Option Nat × State :=
  match xlateBy false s (teamPart s t) (some (teamCore s t)) t.base false with
  | (.ok x, s) => (if x.pte.typ = 4 ∧ keyOk s x.pte.key then some x.pte.key else none, s)
  | (.error _, s) => (none, s)

/-- The units that a team's state needs beyond those it holds. -/
def Team.spillMore (t : Team) (k : Nat) : Nat := t.spillAt k / 65536 - t.spill.length

/-- A word after which a team stands as t' makes it spill more than before, with no valid key: it is handled as a PERMISSION
failure (R167). -/
def spillRefused (s : State) (t t' : Team) : Bool × State :=
  if t'.spillBytes t'.rlvl ≤ t.spillBytes t.rlvl then (false, s)
  else match spillKey s t' with
    | (k, s) => (k.isNone, s)

/-- The energy of a spill's or a refill's traffic is charged (R309, R310): to the partition, or to the overhead account for a
firmware agent. -/
def chargeSpill (s : State) (t : Team) : State := charge s (if t.agent then none else some (ownPart s t))

/-- The granule whose check word fails, of the frame bytes that tile j of a team's i-th unit takes (R175). -/
def Team.spillBad (t : Team) (i j : Nat) : Option Nat :=
  findFrom (fun g => decide (64 * g < t.frameBytes) && fget falseAt t.frameBad g) (1024 * i + 32 * j) 32

/-- One more unit of team u's state goes to the save area, or to the reserve (R309): a cause where it does not.
FRAME_OVERFLOW where there is no room for it, or where a tile of it is not written; CHECK_FAIL where a granule's check word
has it refused (R176). -/
def spillUnit (s : State) (u : Nat) (t : Team) (key : Nat) : Option Nat × State :=
  let part := teamPart s t
  let n := ownPart s t
  let i := t.spill.length
  if !t.agent ∧ saveArea s n < saveUse s n + 65536 then (some 0x14, s)
  else
    let unit := if t.agent then 65536 * (Config.agentUnit (16 * teamCore s t + i) % 8192) else freeUnit s n
    let s := s.bump.putTeam u { t with spill := t.spill ++ [unit] }
    match eachTile (fun s va =>
        areaWrite s (if t.agent then none else part) (teamCore s t) (some key) (t.spillBad i ((va - unit) / 2048)) va) s unit with
    | (true, s) => (none, chargeSpill s t)
    | (false, s) => (some (if (List.range 32).any fun j => (t.spillBad i j).isSome then 9 else 0x14), chargeSpill s t)

/-- Team u's state takes the units that it needs (R309): the cause where one is not to be had. -/
def growSpill (u key : Nat) : Nat → State → Option Nat × State
  | 0, s => (none, s)
  | k + 1, s =>
    match s.team u with
    | none => (none, s)
    | some t =>
      match spillUnit s u t key with
      | (none, s) => growSpill u key k s
      | (some c, s) => (some c, s)

/-- Units that are no longer needed are free (R309). -/
def Team.trimSpill (t : Team) : Team := { t with spill := t.spill.take (t.spillAt t.rlvl / 65536) }

/-- Bytes from offset o of what a team keeps beyond its spill stack are refilled (R169, R262): each tile of them is read,
and is written again with what leaves local memory in their place. The cause and the offset of the first tile that fails are
answered: PERMISSION where the key of the team's frame pages is not VALID (R167), otherwise CHECK_FAIL. -/
def refillBytes (s : State) (t : Team) (o n : Nat) : Option (Nat × Nat) × State :=
  let hi := min (o + n) (t.spillBytes t.rlvl)
  if hi ≤ o ∨ t.spill.isEmpty then (none, s)
  else
    match spillKey s t with
    | (none, s) => (some (7, o / 2048 * 2048), s)
    | (some key, s) =>
      let part := if t.agent then none else teamPart s t
      let core := teamCore s t
      (List.range ((hi - 1) / 2048 + 1 - o / 2048)).foldl (fun (x : Option (Nat × Nat) × State) i =>
        let at_ := (o / 2048 + i) * 2048
        match x, t.spill[at_ / 65536]? with
        | (none, s), some unit =>
          match areaRead s part core (some key) (unit + at_ % 65536) with
          | (true, s) =>
            match areaWrite s part core (some key) none (unit + at_ % 65536) with
            | (ok, s) => (if ok then none else some (9, at_), s)
          | (false, s) => (some (9, at_), s)
        | x, _ => x) (none, chargeSpill s t)

/-- A frame access refills the pages of its bytes that have left local memory: whether one still stands there since its
last refill is a free choice (log entry 18). The first failing tile is answered as of any refill (R169). -/
def refillFrame (s : State) (t : Team) (o n : Nat) : Option (Nat × Nat) × State :=
  if t.spill.isEmpty then (none, s)
  else if Config.pick s.fresh o % 2 = 0 then (none, s.bump)
  else refillBytes s.bump t o (min (o + n) t.frameBytes - o)

/-- Where register r of a team stands among the bytes that are evicted; and where pass p does (R261; log entry 18). -/
def Team.evictedAt (t : Team) (i : Nat) : Nat := t.frameBytes + 4 * t.lanes * i
def Team.passAt (t : Team) (j : Nat) : Nat :=
  t.frameBytes + 4 * t.lanes * t.evicted.length + 128 * (t.nregs - t.evicted.length) * j

end Sys2Proof.Machine
end

