-- ==== Sys2Proof/Machine/Access.lean ====
section
/-! DEFINITION. A team's accesses to memory: the checks of R157 and R176 in their order, and reading and performing
stores in the on-chip stores (R131, R133, R149, R182 to R187). -/

namespace Sys2Proof.Machine

/-- A piece of one lane's access, within one page: its address, its bytes, the page, and for the on-chip stores its
place and offset. -/
structure Seg where
  va : Nat
  n : Nat
  typ : Nat
  order : Nat
  place : Place
  off : Nat
deriving DecidableEq, Repr

/-- How a word accesses memory: its width, whether it writes, whether MMIO and QUEUE pages allow it (LD and ST, not
LDT and ATOM), and whether the word itself requires natural alignment (ATOM, ST.D.FR, the rows of LDT). -/
structure AccKind where
  n : Nat
  wr : Bool
  rd : Bool
  device : Bool
  aligned : Bool
deriving DecidableEq, Repr

/-- The mark of a failure of a check word (R176): CHECK_FAIL, with a seal log record. It is no trap cause. -/
def checkWordCause : Nat := 0x109

/-- What one piece of an access meets: a failing step of R157 with its cause and its failing byte (checkWordCause stands
for CHECK_FAIL by a check word, R176), or a piece. -/
inductive Met where
  | fail (step cause va : Nat)
  | seg (x : Seg)
deriving DecidableEq, Repr

/-- Byte o of a place. -/
def placeByte (s : State) : Place → Nat → Byte
  | .scratch c, o => Memory.get s.scratch (262144 * c + o)
  | .shared g, o => match s.wg g with | some w => Memory.get w.shared o | none => 0
  | .frame u, o => match s.team u with | some t => Memory.get t.frame o | none => 0

/-- The check word of a granule of a place fails (R175). -/
def placeBad (s : State) : Place → Nat → Bool
  | .scratch c, g => fget falseAt s.scratchBad (4096 * c + g)
  | .shared w, g => match s.wg w with | some w => fget falseAt w.sharedBad g | none => false
  | .frame u, g => match s.team u with | some t => fget falseAt t.frameBad g | none => false

/-- The granules that a write of n bytes at o covers whole get fresh check words (R175). -/
def freshGranules (base o n : Nat) (m : FMap Bool) : FMap Bool :=
  fclear m (base + ceilDiv o 64) ((o + n) / 64 - ceilDiv o 64)

/-- The reference bits of the 8-byte words that a store touches (R133). -/
def storeRefs (m : FMap Bool) (o n : Nat) (b : Bool) : FMap Bool :=
  fsets falseAt m ((List.range ((o + n - 1) / 8 + 1 - o / 8)).map fun i => (o / 8 + i, b))

/-- Performing a store of bytes at offset o of a place, with what happens to the reference bits (R133). -/
def placeWrite (s : State) (p : Place) (o : Nat) (l : List Byte) (ref : Bool) : State :=
  match p with
  | .scratch c =>
    { s with scratch := Memory.write s.scratch (262144 * c + o) l
             scratchBad := freshGranules (4096 * c) o l.length s.scratchBad }
  | .shared g =>
    match s.wg g with
    | some w => s.putWg g { w with shared := Memory.write w.shared o l
                                   sharedBad := freshGranules 0 o l.length w.sharedBad }
    | none => s
  | .frame u =>
    match s.team u with
    | some t => s.putTeam u { t with frame := Memory.write t.frame o l
                                     frameBad := freshGranules 0 o l.length t.frameBad
                                     refs := storeRefs t.refs o l.length ref }
    | none => s

/-- ATOM's new value (R345), of n bytes. -/
def atomValue (op : AtomOp) (n : Nat) (old x : Nat) : Nat :=
  let m := 2 ^ (8 * n)
  let lt (a b : Nat) : Bool := decide ((a + m / 2) % m < (b + m / 2) % m)
  match op with
  | .swap => x
  | .cas => x
  | .add => (old + x) % m
  | .and => old &&& x
  | .or => old ||| x
  | .xor => old ^^^ x
  | .minS => if lt x old then x else old
  | .maxS => if lt old x then x else old
  | .minU => min old x
  | .maxU => max old x

/-- One lane's read-modify-write of n bytes in memory (R346): the old value, and the state. -/
def atomWrite (s : State) (p : Place) (o n : Nat) (x : Rmw) : Nat × State :=
  let old := ofBytes ((List.range n).map fun i => placeByte s p (o + i))
  if x.op = .cas ∧ old ≠ x.cmp then (old, s)
  else (old, placeWrite s p o (toBytes n (atomValue x.op n old x.operand)) false)

/-- The old value that an ATOM of n bytes has read becomes its lane's result (R63, R346). -/
def Team.atomResult (t : Team) (x : PendStore) (r : Rmw) (old : Nat) : Team :=
  { t with pend := t.pend.map fun p =>
      if p.id = x.word ∧ p.lane = x.lane then { p with val := some (BitVec.ofNat 32 (old / 2 ^ (32 * (p.reg - r.reg)))) }
      else p }

/-- Performing a store or an ATOM of team u in memory (R182 to R187, R346). -/
def performStore (s : State) (u : Nat) (x : PendStore) : State :=
  match x.rmw with
  | none => placeWrite s x.place x.off x.bytes x.setRef
  | some r =>
    let (old, s) := atomWrite s x.place x.off x.bytes.length r
    match s.team u with
    | some t => s.putTeam u (t.atomResult x r old)
    | none => s

/-- A load reads some of n bytes at offset o of a place. -/
def FloatLoad.meets (x : FloatLoad) (p : Place) (o n : Nat) : Bool :=
  x.parts.any fun y => decide (y.place = p) && decide (y.off < o + n) && decide (o < y.off + y.bytes.length)

/-- Load y, issued earlier, must be performed before load x: it is an acquire (R186), or one lane's, to a common byte
(R182). -/
def FloatLoad.precedes (y x : FloatLoad) : Bool :=
  y.acq || (y.lane == x.lane && x.parts.any fun p => y.meets p.place p.off p.bytes.length)

/-- The loads that are left when those that p names, and those that must precede them, are read no more. -/
def leaveLoads (p : FloatLoad → Bool) : List FloatLoad → List FloatLoad × List FloatLoad
  | [] => ([], [])
  | x :: xs =>
    let (n, r) := leaveLoads p xs
    if p x || n.any x.precedes then (x :: n, r) else (n, x :: r)

/-- The loads that p names are performed for good: what they have read stands. -/
def Team.fixLoads (t : Team) (p : FloatLoad → Bool) : Team := { t with loads := (leaveLoads p t.loads).2 }

/-! ## Stores on their way to memory (R181 to R191) -/

/-- Two entries are the same store. -/
def PendStore.same (x y : PendStore) : Bool :=
  x.word == y.word && x.lane == y.lane && decide (x.place = y.place) && x.off == y.off

/-- A store touches some of n bytes at offset o of a place. -/
def PendStore.meets (x : PendStore) (p : Place) (o n : Nat) : Bool :=
  decide (x.place = p) && decide (x.off < o + n) && decide (o < x.off + x.bytes.length)

/-- An ATOM that is an acquire (R186). -/
def PendStore.acquires (x : PendStore) : Bool := x.rmw.any fun r => r.acq

/-- The level to which gates hold a store of word w: the highest of those above it; 0 where none is (R186, R191). -/
def gateLevel (gates : FMap Nat) (w : Nat) : Nat := gates.foldl (fun (m : Nat) (g : Nat × Nat) => if w < g.2 then max m g.1 else m) 0

/-- Store y, issued earlier, must be performed before store x: by one lane or one word to a common byte (R182, R184), or
because it is an acquire (R186). -/
def PendStore.precedes (y x : PendStore) : Bool :=
  (y.meets x.place x.off x.bytes.length && (y.lane == x.lane || y.word == x.word)) || y.acquires

/-- The level that store y, issued earlier, must have come to where store x comes to level n: that level, where it must be
performed first, and, before x leaves its lane, the level of a gate between them. -/
def PendStore.heldTo (y x : PendStore) (n : Nat) : Nat :=
  max (if y.precedes x then n else 0) (if x.level = 0 then gateLevel x.gates y.word else 0)

/-- The level that each of a team's stores must come to where p asks for some; 0 for none. An ATOM is performed in memory
at once (R183). -/
def storeNeeds (p : PendStore → Nat) : List PendStore → List (PendStore × Nat)
  | [] => []
  | x :: xs =>
    let r := storeNeeds p xs
    let n := r.foldl (fun m z => if z.1.level.val < z.2 then max m (x.heldTo z.1 z.2) else m) (p x)
    (x, if n ≠ 0 ∧ x.rmw.isSome then 6 else n) :: r

/-- A load must be performed before store x is: a release stands between (R186, R191), it is an acquire, or it is the
lane's own, to a common byte (R182). -/
def PendStore.follows (x : PendStore) (y : FloatLoad) : Bool :=
  decide (gateLevel x.gates y.word ≠ 0) ||
  (decide (y.word < x.word) && (y.acq || (y.lane == x.lane && y.meets x.place x.off x.bytes.length)))

/-- Teams u and v are within one scope (R181): of level 1 one team, of 2 one workgroup, of 3 one core, of 4 one cluster, of
5 one die, from 6 on the device. -/
def together (s : State) (k u v : Nat) : Bool :=
  match s.team u, s.team v with
  | some a, some b => match k with
    | 0 => false
    | 1 => u == v
    | 2 => a.wg == b.wg
    | 3 => teamCore s a == teamCore s b
    | 4 => teamCore s a / 4 == teamCore s b / 4
    | 5 => teamCore s a / 64 == teamCore s b / 64
    | _ => true
  | _, _ => false

/-- The stores of level k, each with its team, in the order in which they came to it. -/
def storesAt (s : State) (k : Nat) : List (Nat × PendStore) :=
  sortBy (fun a b => decide (a.2.stamp < b.2.stamp))
    ((entries s.teams).flatMap fun e => (e.2.stores.filter fun x => x.level.val == k).map fun x => (e.1, x))

/-- Of the stores of level k, in their order, those that p names and those that must leave it before them: every agent sees
the writes to a byte in one order (R182). -/
def movers (s : State) (k : Nat) (p : Nat × PendStore → Bool) : List (Nat × PendStore) → List (Nat × PendStore)
  | [] => []
  | x :: xs =>
    let l := movers s k p xs
    if p x || (l.any fun z => x.2.meets z.2.place z.2.off z.2.bytes.length && together s k x.1 z.1) then x :: l else l

/-- Store x of team u comes one level further: to more agents, or to memory. -/
def promote (s : State) (u : Nat) (x : PendStore) : State :=
  match s.team u with
  | none => s
  | some t =>
    if h : x.level.val < 5 then
      let stores := t.stores.map fun (y : PendStore) =>
        if y = x then { y with level := ⟨x.level.val + 1, Nat.add_lt_add_right h 1⟩, stamp := s.nextUid } else y
      s.nextId.putTeam u { t with stores := stores }
    else performStore (s.putTeam u { t with stores := t.stores.filter fun y => decide (y ≠ x) }) u x

/-- Store x of team u comes to level n, behind those that must come there before it. -/
def raiseOne (s : State) (u : Nat) (x : PendStore) (n : Nat) : State :=
  (List.range n).foldl (fun s k =>
    (movers s k (fun y => y.1 == u && y.2.same x) (storesAt s k)).foldl (fun s y => promote s y.1 y.2) s) s

/-- The stores that have left their lanes and that team u sees, of the teams that p names. -/
def seenStores (s : State) (u : Nat) (p : Nat → Bool) : List (Nat × PendStore) :=
  (entries s.teams).flatMap fun e =>
    if p e.1 then (e.2.stores.filter fun x => together s x.level.val e.1 u).map fun x => (e.1, x) else []

/-- Store x of team u comes to level n. An ATOM is performed in memory, behind every store to its bytes that its team sees
(R182, R183). -/
def raiseStore (s : State) (u : Nat) (x : PendStore) (n : Nat) : State :=
  if x.rmw.isNone then raiseOne s u x n
  else
    let s := ((seenStores s u fun _ => true).filter fun y => y.2.meets x.place x.off x.bytes.length).foldl
      (fun s y => raiseOne s y.1 y.2 6) s
    match s.team u with
    | none => s
    | some t => performStore (s.putTeam u { t with stores := t.stores.filter fun y => !y.same x }) u x

/-- The stores of team u come to the levels that p asks, behind what must come before them; the loads that must precede
them are performed for good. -/
def raiseStores (s : State) (u : Nat) (p : PendStore → Nat) : State :=
  match s.team u with
  | none => s
  | some t =>
    let l := (storeNeeds p t.stores).filter fun x => decide (x.1.level.val < x.2)
    l.foldl (fun s x => raiseStore s u x.1 x.2)
      (s.putTeam u (t.fixLoads fun y => l.any fun x => x.1.level == 0 && x.1.follows y))

/-- The stores of other teams that team u sees come to level n: a release is cumulative (R189). They do so at once, the
model's choice (log entry 62). -/
def raiseSeen (s : State) (u n : Nat) : State :=
  (seenStores s u fun v => v != u).foldl (fun s x => raiseOne s x.1 x.2 n) s

/-- The stores of other teams that team u sees, to n bytes at offset o of a place, come to memory. -/
def raiseMet (s : State) (u : Nat) (p : Place) (o n : Nat) : State :=
  ((seenStores s u fun v => v != u).filter fun x => x.2.meets p o n).foldl (fun s x => raiseOne s x.1 x.2 6) s

/-- A release of team u at the scope of level n that its later accesses wait for: every access that it has issued, and
every write that it has observed, is performed there (R189, R191, R192). -/
def drainTo (s : State) (u n : Nat) : State :=
  match s.team u with
  | none => s
  | some t => raiseSeen (raiseStores (s.putTeam u { t with loads := [] }) u fun _ => n) u n

/-- Performing every store and every load that team u has issued, for every agent (R185, R186, R191, R192). -/
def drainAll (s : State) (u : Nat) : State := drainTo s u 6

/-- The k-th store of team u comes one level further (R181, R182, R184, R186). -/
def drainOne (s : State) (u k : Nat) : State :=
  match s.team u with
  | none => s
  | some t =>
    match t.stores[k]? with
    | none => s
    | some x => raiseStores s u fun y => if y.same x then x.level.val + 1 else 0

/-- The ATOMs that an access to memory of some lanes must follow are performed: acquires (R186), and a lane's own to the
same bytes (R182). -/
def atomsFirst (s : State) (u : Nat) (p : PendStore → Bool) : State :=
  match s.team u with
  | none => s
  | some t =>
    if t.stores.any fun x => x.rmw.isSome then raiseStores s u fun x => if x.rmw.isSome && (x.acquires || p x) then 6 else 0
    else s

/-- Of two stores that an agent sees, the one that counts: that of the inner scope, and in one scope the later. -/
def innerStore (a : Option PendStore) (x : PendStore) : Option PendStore :=
  match a with
  | none => some x
  | some y => if x.level < y.level ∨ (x.level = y.level ∧ y.stamp < x.stamp) then some x else some y

/-- What lane l of team u, t, reads at byte o of a place: its own latest store that no other lane sees; or, of the stores
that it sees, the one of the innermost scope that came there last; or what memory holds (R181, R182). -/
def laneByte (s : State) (u : Nat) (t : Team) (l : Nat) (p : Place) (o : Nat) : Byte :=
  let own := t.stores.filter fun x => x.rmw.isNone && x.meets p o 1
  let seen := (own.filter fun x => x.level != 0) ++
    ((seenStores s u fun v => v != u).map Prod.snd).filter fun x => x.meets p o 1
  match ((own.filter fun x => x.level == 0 && x.lane == l).getLast?).or (seen.foldl innerStore none) with
  | some x => (x.bytes[o - x.off]?).getD 0
  | none => placeByte s p o

/-- n bytes as lane l reads them. -/
def laneBytes (s : State) (u : Nat) (t : Team) (l : Nat) (p : Place) (o n : Nat) : List Byte :=
  (List.range n).map fun i => laneByte s u t l p (o + i)

/-- The stores to n bytes at offset o of a place that the teams of workgroup g have brought to its scope, which its matrix
stream sees too (R181). -/
def groupStores (s : State) (g : Nat) (p : Place) (o n : Nat) : List (Nat × PendStore) :=
  (entries s.teams).flatMap fun e =>
    if e.2.wg = g then (e.2.stores.filter fun x => decide (2 ≤ x.level) && x.meets p o n).map fun x => (e.1, x) else []

/-- Byte o of a place as the matrix stream of workgroup g reads it. -/
def streamByte (s : State) (g : Nat) (p : Place) (o : Nat) : Byte :=
  match ((groupStores s g p o 1).map Prod.snd).foldl innerStore none with
  | some x => (x.bytes[o - x.off]?).getD 0
  | none => placeByte s p o

/-- A SCRATCH or SHARED page's core may be reached (R293): its cluster belongs to the requester. -/
def coreReachable (s : State) (part : Option Nat) (core : Nat) : Bool :=
  match part with
  | none => true
  | some n => ownsCluster s n (core / 4)

/-- The bytes from a that lie at or beyond a limit: the first of them. -/
def firstBeyond (va off n limit : Nat) : Option Nat :=
  if limit < off + n then some (va + (limit - off)) else none

/-- The first byte of the first failing granule that n bytes at offset o of a place reach (R176): one that is read, or
that a write does not cover whole; the bytes stand at address va. -/
def badGranule (s : State) (rd : Bool) (pl : Place) (va o n : Nat) : Option Nat :=
  (findFrom (fun g => placeBad s pl g && (rd || decide (g * 64 < o) || decide (o + n < g * 64 + 64))) (o / 64)
    ((o + n - 1) / 64 + 1 - o / 64)).map fun g => va + g * 64 - o

/-- The last check of a piece in an on-chip store, its check words (R176). -/
def meetGranules (s : State) (k : AccKind) (x : Seg) : Met :=
  match badGranule s k.rd x.place x.va x.off x.n with
  | some a => .fail 7 checkWordCause a
  | none => .seg x

/-- A piece in a SCRATCH page (R149, R157, R293, R328). -/
def meetScratch (s : State) (t : Team) (k : AccKind) (p : Pte) (va off n : Nat) : Met :=
  if !coreReachable s (teamPart s t) p.core then .fail 5 7 va
  else
    match firstBeyond va off n 262144 with
    | some a => .fail 5 7 a
    | none =>
      if p.core = 0 ∧ off < 65536 ∧ t.priv ≠ 2 then .fail 5 7 va
      else meetGranules s k { va := va, n := n, typ := 2, order := p.order, place := .scratch p.core, off := off }

/-- A piece in a SHARED page (R149, R157): a core that the crossbar refuses (R293) is no matter of the page's type. -/
def meetShared (s : State) (t : Team) (k : AccKind) (p : Pte) (va off n : Nat) : Met :=
  if !coreReachable s (teamPart s t) p.core then .fail 5 7 va
  else if p.core ≠ teamCore s t then .fail 4 8 va
  else
    match firstBeyond va off n (((s.wg t.wg).map fun w => w.sharedSz).getD 0) with
    | some a => .fail 5 7 a
    | none => meetGranules s k { va := va, n := n, typ := 3, order := p.order, place := .shared t.wg, off := off }

/-- The first of n bytes from va that lies outside the live part of a team's window (R131). -/
def Team.outsideFrame (t : Team) (va n : Nat) : Option Nat :=
  if va < t.base then some va else (firstBeyond va va n t.fsp.toNat).map fun a => max va a

/-- A piece in a FRAME page (R131, R157): every byte of the whole access, n bytes at lo, lies in the window's live part. -/
def meetFrame (s : State) (u : Nat) (t : Team) (k : AccKind) (p : Pte) (va n lo len : Nat) : Met :=
  match t.outsideFrame lo len with
  | some a => .fail 6 0x0A a
  | none => meetGranules s k { va := va, n := n, typ := 4, order := p.order, place := .frame u, off := va - t.base }

/-- A piece in an MMIO page (R157, R274): the alignment is that of the whole access, at lo (R153). R157 gives the PRIVILEGE
of a register above the team's level (R152) no place in its order: it comes within step 4, after the width and the alignment,
by the model's choice (log entry 57). -/
def meetMmio (s : State) (u : Nat) (t : Team) (k : AccKind) (va off n lo : Nat) : Met :=
  if !k.device || (k.n != 4 && k.n != 8) || (k.wr && !writeWidthOk off k.n) then .fail 4 8 va
  else if lo % k.n ≠ 0 then .fail 4 5 va
  else if !regReached s t.priv ((s.wg t.wg).map fun w => w.part) off then .fail 4 0x13 va
  else .seg { va := va, n := n, typ := 5, order := 0, place := .frame u, off := off }

/-- A piece in a QUEUE page (R157, R251). -/
def meetQueue (u : Nat) (k : AccKind) (base va n lo : Nat) : Met :=
  if !k.device || k.n != 8 then .fail 4 8 va
  else if lo % 8 ≠ 0 then .fail 4 5 va
  else .seg { va := va, n := n, typ := 6, order := 0, place := .frame u, off := va - base }

/-- The rights of a page for a piece (R157 step 3). -/
def pieceRights (s : State) (part : Option Nat) (k : AccKind) (p : Pte) : Option Nat :=
  (if k.rd then rightsFail s part p false else none).or (if k.wr then rightsFail s part p true else none)

/-- One piece, n bytes at va, of an access of team u to len bytes at lo, after its translation: steps 3 to 6 of R157 and
the check words of R176. -/
def meetPage (s : State) (u : Nat) (t : Team) (k : AccKind) (x : Tlb) (va n lo len : Nat) : Met :=
  let off := x.pte.addr + (va - x.base)
  match pieceRights s (teamPart s t) k x.pte with
  | some c => .fail 3 c va
  | none =>
    match x.pte.typ with
    | 2 => meetScratch s t k x.pte va off n
    | 3 => meetShared s t k x.pte va off n
    | 4 => meetFrame s u t k x.pte va n lo len
    | 5 => meetMmio s u t k va off n lo
    | 6 => meetQueue u k x.base va n lo
    | _ => .fail 4 8 va

/-- A piece of the window is refilled where it has left local memory: a failing tile of it comes last (R169), a key that is not
VALID with the key range (R157, R167). -/
def meetRefill (s : State) (t : Team) (y : Seg) : Met × State :=
  match refillFrame s t y.off y.n with
  | (some (c, o), s) => (.fail (if c = 7 then 3 else 7) c (max y.va (t.base + o)), s)
  | (none, s) => (.seg y, s)

/-- One piece of an access: its translation, then its page. A failing tile of the walk itself, which R157's list does not
place, ranks with the translation: the model's choice (log entry 57). A core that the crossbar refuses counts in XBAR_DENY
(R293). -/
def meetPiece (s : State) (u : Nat) (t : Team) (k : AccKind) (va n lo len : Nat) : Met × State :=
  match xlate s (teamPart s t) (some (teamCore s t)) va k.wr with
  | (.error c, s) => (.fail (if c = 7 then 3 else 2) (if c = 10 then 9 else c) va, s)
  | (.ok x, s) =>
    match meetPage s u t k x va n lo len, teamPart s t with
    | .fail 5 c a, some p =>
      (.fail 5 c a, if (x.pte.typ = 2 ∨ x.pte.typ = 3) ∧ !coreReachable s (some p) x.pte.core then addDeny s p else s)
    | .seg y, _ => if y.typ = 4 then meetRefill s t y else (.seg y, s)
    | m, _ => (m, s)

/-- The pieces of n bytes from va that stand in different 64 KiB pages (R153). -/
def pieces (va n : Nat) : List (Nat × Nat) :=
  let k := 65536 - va % 65536
  if n ≤ k then [(va, n)] else [(va, k), (va + k, n - k)]

/-- What the pieces of one access have met: the failing step, cause and byte, or the pieces in order. -/
inductive MetAll where
  | fail (step cause va : Nat)
  | segs (xs : List Seg)
deriving DecidableEq, Repr

/-- A piece before the others: the failure of the lowest-numbered step, and at one step of the lowest address (R157). -/
def Met.before : Met → MetAll → MetAll
  | .fail st c a, .fail st' c' a' => if st' < st then .fail st' c' a' else .fail st c a
  | .fail st c a, .segs _ => .fail st c a
  | .seg _, .fail st c a => .fail st c a
  | .seg x, .segs xs => .segs (x :: xs)

/-- The pieces of an access to len bytes at lo, each translated and judged (R157). -/
def meetPieces (u : Nat) (t : Team) (k : AccKind) (lo len : Nat) : State → List (Nat × Nat) → MetAll × State
  | s, [] => (.segs [], s)
  | s, (va, n) :: rest =>
    let (m, s) := meetPiece s u t k va n lo len
    let (ms, s) := meetPieces u t k lo len s rest
    (m.before ms, s)

/-- One access as a whole (R157): the cause and TADDR of its failure, or its pieces. -/
def meetAll (s : State) (u : Nat) (t : Team) (k : AccKind) (lo len : Nat) (ps : List (Nat × Nat)) :
    Except (Nat × Nat) (List Seg) × State :=
  match meetPieces u t k lo len s ps with
  | (.fail _ c b, s) => (.error (c, b), s)
  | (.segs xs, s) => (.ok xs, s)

/-- One lane's access to k.n bytes at va (R157): the cause and TADDR of its failure, or its pieces. -/
def laneAccess (s : State) (u : Nat) (t : Team) (k : AccKind) (va : DWord) : Except (Nat × Nat) (List Seg) × State :=
  let a := va.toNat
  if k.aligned ∧ a % k.n ≠ 0 then (.error (5, a), s)
  else meetAll s u t k a k.n (pieces a k.n)

/-- The accesses of several lanes, each at its own address: the failure of the lowest failing lane, or every lane's
pieces; every active lane is translated before any access is performed (R157). -/
def lanesAccess (u : Nat) (t : Team) (k : AccKind) :
    State → List (Nat × DWord) → Except (Nat × Nat) (List (Nat × List Seg)) × State
  | s, [] => (.ok [], s)
  | s, (l, va) :: rest =>
    match laneAccess s u t k va with
    | (.error e, s) => (.error e, s)
    | (.ok xs, s) =>
      match lanesAccess u t k s rest with
      | (.ok ys, s) => (.ok ((l, xs) :: ys), s)
      | (.error e, s) => (.error e, s)

/-- The 16-byte parts that a store of bytes at an offset is performed in (R183): one, where it is naturally aligned. -/
def storeParts (o : Nat) (l : List Byte) : List (Nat × List Byte) :=
  if l.length ≠ 0 ∧ o % l.length = 0 then [(o, l)]
  else
    let k := 16 - o % 16
    if l.length ≤ k then [(o, l)] else [(o, l.take k), (o + k, l.drop k)]

end Sys2Proof.Machine
end

