-- ==== Sys2Proof/Machine/Page.lean ====
section
/-! DEFINITION. The pages that an engine meets (R145, R149, R152, R154, R168 to R176, R293): reading and writing through
them. A status is a copy status of R203; 3 also stands for a translation that is not present. -/

namespace Sys2Proof.Machine

/-- The copy status of a translation failure (R147, R159). -/
def copyCode (c : Nat) : Nat :=
  if c = 6 then 3 else if c = 7 then 8 else if c = 8 then 7 else if c = 9 then 6 else 1

/-- Who makes an engine access: the partition (none at F level), the core whose caches translate it, and the
issuer's workgroup (R149). -/
structure Requester where
  part : Option Nat
  core : Option Nat
  wg : Option Nat
deriving DecidableEq, Repr

/-- The requester of a copy. -/
def Copy.requester (c : Copy) : Requester :=
  { part := if c.priv = 2 ∧ c.launch.isNone ∧ c.core.isSome then none else some c.part
    core := c.core, wg := c.wg }

/-- A request that the crossbar refuses (R293): PERMISSION, and a count. -/
def engineDeny (s : State) (r : Requester) : State := match r.part with | some n => addDeny s n | none => s

/-- The page that an engine meets for n bytes at an address (R145, R149, R152, R293), translated through the second-level
cache of the issuer's cluster (R154): a status, or the page and the physical address or offset. -/
def enginePage (s : State) (r : Requester) (va n : Nat) (wr : Bool) : Except Nat (Tlb × Nat) × State :=
  if 2 ^ 57 ≤ va then (.error 8, s)
  else
    match xlateBy false s r.part r.core va wr with
    | (.error c, s) => (.error (copyCode c), s)
    | (.ok x, s) =>
      let p := x.pte
      let pa := p.addr + (va - x.base)
      match rightsFail s r.part p wr with
      | some _ => (.error 8, s)
      | none =>
        match p.typ with
        | 0 => if xbarAllows s r.part pa then (.ok (x, pa), s) else (.error 8, engineDeny s r)
        | 1 => (.ok (x, pa), s)
        | 2 =>
          if !coreReachable s r.part p.core then (.error 8, engineDeny s r)
          else if 262144 < pa + n ∨ (p.core = 0 ∧ pa < 65536 ∧ r.part.isSome) then (.error 8, s)
          else (.ok (x, pa), s)
        | 3 =>
          match r.wg.bind s.wg with
          | some w => if !coreReachable s r.part p.core then (.error 8, engineDeny s r)
                      else if p.core ≠ w.core then (.error 7, s)
                      else if w.sharedSz < pa + n then (.error 8, s) else (.ok (x, pa), s)
          | none => (.error 7, s)
        | _ => (.error 7, s)

/-- The place of an on-chip page (R149). -/
def pagePlace (r : Requester) (p : Pte) : Place :=
  if p.typ = 2 then .scratch p.core else .shared (r.wg.getD 0)

/-- The check word of a granule of an on-chip store is made anew (R175). -/
def freshenGranule (s : State) (p : Place) (g : Nat) : State :=
  match p with
  | .scratch c => { s with scratchBad := fset falseAt s.scratchBad (4096 * c + g) false }
  | .shared w =>
    match s.wg w with
    | some x => s.putWg w { x with sharedBad := fset falseAt x.sharedBad g false }
    | none => s
  | .frame _ => s

/-- The bytes of an on-chip place from offset o, with zeros for the granules whose check word fails, and whether one
does (R176). -/
def checkedBytes (s : State) (p : Place) (o n : Nat) : Bool × List Byte :=
  ((List.range n).any fun i => placeBad s p ((o + i) / 64),
   (List.range n).map fun i => if placeBad s p ((o + i) / 64) then 0 else placeByte s p (o + i))

/-- The granules whose check word fails, of n bytes at an address of a page (R175): of an on-chip store's. -/
def failingGranules (s : State) (r : Requester) (p : Pte) (pa n : Nat) : List Nat :=
  if p.typ ≤ 1 then []
  else ((List.range ((pa + n - 1) / 64 + 1 - pa / 64)).map fun i => pa / 64 + i).filter (placeBad s (pagePlace r p))

/-- Each granule has its record (R176). -/
def logGranules (s : State) (r : Requester) (l : List Nat) : State := l.foldl (fun s g => checkLog s r.part g) s

/-- Reading n bytes at an address of a page that an engine has met (R168, R169, R176): a status, and the bytes, zero
where they fail. The failing granules are logged, but those that have been. -/
def pageReadBut (logged : List Nat) (s : State) (r : Requester) (p : Pte) (pa n : Nat) : Nat × List Byte × State :=
  match p.typ with
  | 0 => sealRead s p.key 0 pa n
  | 1 => (0, Memory.read s.host pa n, s)
  | _ =>
    match checkedBytes s (pagePlace r p) pa n with
    | (true, l) => (6, l, logGranules s r ((failingGranules s r p pa n).filter fun g => !logged.contains g))
    | (false, l) => (0, l, s)

/-- The same, where none has been logged. -/
def pageRead (s : State) (r : Requester) (p : Pte) (pa n : Nat) : Nat × List Byte × State := pageReadBut [] s r p pa n

/-- The failing granules that a write of n bytes at an address of a page covers in part (R175). -/
def partGranules (s : State) (r : Requester) (p : Pte) (pa n : Nat) : List Nat :=
  (failingGranules s r p pa n).filter fun g => decide (g * 64 < pa) || decide (pa + n < g * 64 + 64)

/-- Writing bytes at an address of a page that an engine has met (R171, R175): a status. HBM is sealed under key k. A write
of part of an on-chip granule whose check word fails writes nothing and gives CHECK_FAIL, each such granule logged: R176
has no row for it, so that is the model's choice (log entry 57). -/
def pageWrite (s : State) (r : Requester) (p : Pte) (k pa : Nat) (l : List Byte) : Nat × State :=
  match p.typ with
  | 0 => sealWrite s k 1 pa l
  | 1 => (0, { s with host := Memory.write s.host pa l })
  | _ =>
    match partGranules s r p pa l.length with
    | [] => (0, placeWrite s (pagePlace r p) pa l false)
    | gs => (6, logGranules s r gs)

/-- Reading n bytes of one page and tile: a status, and the bytes, zero where they fail. A status of 3, 7 or 8 comes
before any byte is read. -/
def engineRead (s : State) (r : Requester) (va n : Nat) : Nat × List Byte × State :=
  match enginePage s r va n false with
  | (.error c, s) => (c, zeros n, s)
  | (.ok (x, pa), s) => pageRead s r x.pte pa n

/-- Writing bytes of one page and tile: a status. With key some k, the tile is sealed under k. -/
def engineWrite (s : State) (r : Requester) (key : Option Nat) (va : Nat) (l : List Byte) : Nat × State :=
  match enginePage s r va l.length true with
  | (.error c, s) => (c, s)
  | (.ok (x, pa), s) =>
    if x.pte.typ = 0 ∧ !keyOk s (key.getD x.pte.key) then (8, s)
    else pageWrite s r x.pte (key.getD x.pte.key) pa l

/-- Reading n bytes that may lie in two tiles or pages: the first failing status, or the bytes. -/
def engineReads (s : State) (r : Requester) (va n : Nat) : Nat × List Byte × State :=
  let k := min n (2048 - va % 2048)
  match engineRead s r va k with
  | (0, l, s) =>
    if k = n then (0, l, s)
    else
      match engineRead s r (va + k) (n - k) with
      | (st, l', s) => (st, l ++ l', s)
  | x => x

/-- The requester that the kettle is for a partition (R149, R195). -/
def kettleOf (part : Nat) : Requester := { part := some part, core := none, wg := none }

end Sys2Proof.Machine
end

