-- ==== Sys2Proof/Machine/Barrier.lean ====
section
/-! DEFINITION. Named barriers (R207 to R211): arriving, waiting, invalidating. -/

namespace Sys2Proof.Machine

/-- A barrier as a workgroup of n teams finds it at its start (R207). -/
def Bar.init (n : Nat) : Bar :=
  { valid := true, expect := n, arrived := 0, round := 0, err := none, teamRound := [], past := [], waiters := []
    attached := [] }

/-- Barrier k of a workgroup. -/
def Workgroup.bar (w : Workgroup) (k : Nat) : Bar := fget (fun _ => Bar.init w.teams.length) w.bars k

def Workgroup.putBar (w : Workgroup) (k : Nat) (b : Bar) : Workgroup :=
  { w with bars := fset (fun _ => Bar.init w.teams.length) w.bars k b }

/-- A result that a word waits for is delivered (R209); it lands later (R63). -/
def fillResult (s : State) (u word : Nat) (v : Word) : State :=
  match s.team u with
  | none => s
  | some t => s.putTeam u { t with pend := t.pend.map fun p => if p.id = word then { p with val := some v } else p }

/-- The result of a wait on a completed round (R209): 0, or 2 with the DETAIL fields. -/
def roundResult (err : Option (Nat × Nat)) (detail : Bool) : Word :=
  match err with
  | none => 0
  | some (st, tile) => if detail then BitVec.ofNat 32 (2 + st * 16 + min tile 0xFFFFFF * 256) else 2

/-- Delivering a result to each of some waiters. -/
def wake (s : State) (ws : List Waiter) (v : Waiter → Word) : State :=
  ws.foldl (fun s w => fillResult s w.team w.word (v w)) s

/-- An arrival at barrier k of workgroup g, by a team or by a copy with its status and tile index where it failed
(R209). -/
def arrive (s : State) (g k : Nat) (team : Option Nat) (err : Option (Nat × Nat)) : State :=
  match s.wg g with
  | none => s
  | some w =>
    let b := w.bar k
    if !b.valid then s
    else
      let b := { b with
        arrived := b.arrived + 1
        teamRound := match team with
          | some u => fset noEntry b.teamRound u (some b.round)
          | none => b.teamRound
        err := b.err.or err }
      if b.arrived = b.expect then
        let ws := b.waiters.filter fun x => x.round == b.round
        let b' := { b with
          arrived := 0, err := none, round := b.round + 1
          past := fset noEntry b.past b.round b.err
          waiters := b.waiters.filter fun x => x.round != b.round }
        wake (s.putWg g (w.putBar k b')) ws fun x => roundResult b.err x.detail
      else s.putWg g (w.putBar k b)

/-- An MWAIT of the workgroup's stream that waits at barrier k returns (R242, R416). -/
def releaseMwait (s : State) (w : Workgroup) (k : Nat) : State :=
  match w.stream with
  | none => s
  | some st =>
    match s.stream st with
    | some x => if x.mwait = some (k, false) then s.putStream st { x with mwait := some (k, true) } else s
    | none => s

/-- Invalidating barrier k of workgroup g (R211): the waiters resume with 1, the attached copies are detached, and a waiting
MWAIT returns. -/
def invalidate (s : State) (g k : Nat) : State :=
  match s.wg g with
  | none => s
  | some w =>
    let b := w.bar k
    let s := s.putWg g (w.putBar k { b with valid := false, waiters := [], attached := [] })
    let s := b.attached.foldl (fun s c =>
      match s.copy c with
      | some x => s.putCopy c { x with attached := false }
      | none => s) s
    wake (releaseMwait s w k) b.waiters fun _ => 1

/-- Every barrier of a workgroup is invalidated (R105). -/
def invalidateAll (s : State) (g : Nat) : State := (List.range 16).foldl (fun s k => invalidate s g k) s

/-- A barrier initialised for c arrivals (R209). -/
def Bar.fresh (b : Bar) (c : Nat) : Bar :=
  { b with valid := true, expect := c, arrived := 0, err := none, teamRound := [] }

/-- Attaching copy c to barrier k, where it is VALID (R209); and whether it was. -/
def attach (s : State) (g k c : Nat) : Bool × State :=
  match s.wg g with
  | none => (false, s)
  | some w =>
    let b := w.bar k
    if b.valid then (true, s.putWg g (w.putBar k { b with attached := b.attached ++ [c] })) else (false, s)

/-- Copy c is no longer attached to barrier k. -/
def detach (s : State) (g k c : Nat) : State :=
  match s.wg g with
  | none => s
  | some w => s.putWg g (w.putBar k { w.bar k with attached := (w.bar k).attached.filter fun x => x != c })

end Sys2Proof.Machine
end

