-- ==== Sys2Proof/Machine/Room.lean ====
section
/-! DEFINITION. Room on a core (R101, R260), and what pre-emption requests have taken of it (R259, R263, R264). -/

namespace Sys2Proof.Machine

def Room.add (a b : Room) : Room := { ctx := a.ctx + b.ctx, regs := a.regs + b.regs, lmem := a.lmem + b.lmem }

/-- What is left of a when b is taken, at least 0 of each. -/
def Room.sub (a b : Room) : Room := { ctx := a.ctx - b.ctx, regs := a.regs - b.regs, lmem := a.lmem - b.lmem }

def Room.le (a b : Room) : Bool := decide (a.ctx ≤ b.ctx) && decide (a.regs ≤ b.regs) && decide (a.lmem ≤ b.lmem)

def Room.zero : Room := { ctx := 0, regs := 0, lmem := 0 }

/-- What a team of L lanes and G registers occupies at residency level k (R101, R260). -/
def roomAt (lanes nregs k : Nat) : Room :=
  { ctx := ctxOf lanes k, regs := ctxOf lanes k * regsOf nregs k, lmem := spillOf k }

def Team.room (t : Team) : Room := roomAt t.lanes t.nregs t.rlvl

/-- What a workgroup of n teams and shared memory occupies at level 0. -/
def shapeRoom (lanes nregs n sharedSz : Nat) : Room :=
  { ctx := n * ctxOf lanes 0, regs := n * (ctxOf lanes 0 * regsOf nregs 0), lmem := sharedSz + n * 16384 }

/-- What a workgroup occupies. -/
def wgRoom (s : State) (w : Workgroup) : Room :=
  w.teams.foldl (fun r u => match s.team u with | some t => r.add t.room | none => r)
    { ctx := 0, regs := 0, lmem := w.sharedSz }

/-- What a request has taken and no workgroup of its launch uses (R259). -/
def Request.idle (s : State) (r : Request) : Room :=
  r.users.foldl (fun a g => match s.wg g with | some w => a.sub (wgRoom s w) | none => a) r.took

/-- PREEMPT_n.STATE of the manual request (R259). -/
def showRequest (s : State) (core : Nat) : State :=
  match s.reqs.find? fun r => r.core == core && r.source == 2 with
  | none => s.putDfield (aPreempt core) 60 2 0
  | some r => s.putDfield (aPreempt core) 60 2 (if !r.want.le r.took then 1 else if r.saves then 3 else 2)

/-- Requests of one core come by descending rank, then as they arose (R259). -/
def requestOrder (a b : Request) : Bool :=
  decide (b.rank < a.rank) || (a.rank == b.rank && decide (a.order < b.order))

/-- The lesser of two rooms, of each kind. -/
def Room.meet (a b : Room) : Room := { ctx := min a.ctx b.ctx, regs := min a.regs b.regs, lmem := min a.lmem b.lmem }

/-- What each of some requests takes of the room that frees, one after another: up to what it still wants. -/
def shares : Room → List Request → List (Request × Room)
  | _, [] => []
  | free, r :: l =>
    let more := free.meet (r.want.sub r.took)
    (r, more) :: shares (free.sub more) l

/-- Room that frees on a core goes to the requests that are not met, in their order (R259, R264). -/
def giveRoom (s : State) (core : Nat) (free : Room) : State :=
  let given := shares free (sortBy requestOrder (s.reqs.filter fun r => r.core == core && r.source != 1))
  let reqs := s.reqs.map fun (q : Request) => match given.find? fun x => decide (x.1 = q) with
    | some x => { q with took := q.took.add x.2 }
    | none => q
  showRequest { s with reqs := reqs } core

/-- The requests that p names end, or are withdrawn (R259): the room that they took goes to the requests of their cores that are
not met, and returns (R263, R264). -/
def endRequests (s : State) (p : Request → Bool) : State :=
  (s.reqs.filter p).foldl (fun s r => roomReturns (giveRoom s r.core (r.idle s)) r.core)
    { s with reqs := s.reqs.filter fun r => !p r }

end Sys2Proof.Machine
end

