-- ==== Sys2Proof/Machine/Flags.lean ====
section
/-! DEFINITION. FPSTAT's flags (R226), and the comparison conditions (R78). -/

namespace Sys2Proof.Machine

/-! The flags, in the bits of FPSTAT (R226). -/

def flNone : BitVec 5 := 0
def flNV : BitVec 5 := 1
def flDZ : BitVec 5 := 2
def flOF : BitVec 5 := 4
def flUF : BitVec 5 := 8
def flNX : BitVec 5 := 16

/-- A flag that is set where a condition holds. -/
def flagIf (b : Bool) (f : BitVec 5) : BitVec 5 := if b then f else 0

/-- The flags of a word OR into FPSTAT (R226). -/
def Team.orFlags (t : Team) (f : BitVec 5) : Team := { t with fpstat := t.fpstat ||| f.zeroExtend 32 }

/-- The OR of several elements' flags. -/
def orAll (l : List (BitVec 5)) : BitVec 5 := l.foldl (fun a b => a ||| b) 0

/-- SYSW of FPSTAT (R226, R4): the reserved bits are ignored. -/
def fpstatWrite (v : Word) : Word := v &&& 0x1F#32

/-- 1 or 0 (R376, R393). -/
def boolWord (b : Bool) : Word := if b then 1 else 0

/-- An integer comparison (R78); the two floating conditions do not occur in ICMP. -/
def intCond (c : Cond) (a b : Word) : Bool :=
  match c with
  | .eq => a == b
  | .ne => a != b
  | .lt => a.slt b
  | .le => a.sle b
  | .gt => b.slt a
  | .ge => b.sle a
  | .ltu => a.ult b
  | .leu => a.ule b
  | .gtu => b.ult a
  | .geu => b.ule a
  | .ord => false
  | .uno => false

/-- A floating-point comparison (R78), from the order of two values; none where either is NaN. -/
def fpCond (c : Cond) (o : Option Ordering) : Bool :=
  match c, o with
  | .eq, some .eq => true
  | .ne, some .eq => false
  | .ne, _ => true
  | .lt, some .lt => true
  | .le, some .lt => true
  | .le, some .eq => true
  | .gt, some .gt => true
  | .ge, some .gt => true
  | .ge, some .eq => true
  | .ltu, none => true
  | .ltu, some .lt => true
  | .leu, none => true
  | .leu, some .lt => true
  | .leu, some .eq => true
  | .gtu, none => true
  | .gtu, some .gt => true
  | .geu, none => true
  | .geu, some .gt => true
  | .geu, some .eq => true
  | .ord, some _ => true
  | .uno, none => true
  | _, _ => false

end Sys2Proof.Machine
end

