-- ==== Sys2Proof/Machine/Float.lean ====
section
/-! DEFINITION. Number formats (R218 to R223), the one rounding (R224, R225), and the exact operations of R227. -/

namespace Sys2Proof.Machine

/-- The exact value of a pattern: NaN, an infinity, or (-1)^neg × m × 2^e, where a zero keeps its sign (R87). -/
inductive FV where
  | nan
  | inf (neg : Bool)
  | fin (neg : Bool) (m : Nat) (e : Int)
deriving DecidableEq, Repr

/-- A format (R218, R220): its width, whether it has a sign, its exponent bits (0 for an integer), its bias, and
its SPECIALS. -/
structure FFmt where
  w : Nat
  signed : Bool
  e : Nat
  bias : Int
  spec : Nat
deriving DecidableEq, Repr

def fp32 : FFmt := { w := 32, signed := true, e := 8, bias := 127, spec := 1 }
def fp16 : FFmt := { w := 16, signed := true, e := 5, bias := 15, spec := 1 }
def bf16 : FFmt := { w := 16, signed := true, e := 8, bias := 127, spec := 1 }
def e4m3 : FFmt := { w := 8, signed := true, e := 4, bias := 7, spec := 2 }
def e5m2 : FFmt := { w := 8, signed := true, e := 5, bias := 15, spec := 1 }
def int32 : FFmt := { w := 32, signed := true, e := 0, bias := 0, spec := 0 }
def uint32 : FFmt := { w := 32, signed := false, e := 0, bias := 0, spec := 0 }

/-- The mantissa bits (R220). -/
def FFmt.m (f : FFmt) : Nat := f.w - f.signed.toNat - f.e

/-- The format that a format word describes; none where it is invalid (R221). -/
def formatOf (v : Word) : Option FFmt :=
  let n := v.toNat
  let w := fld n 0 4
  let e := fld n 4 3
  let sg := v.getLsbD 7
  let b := (v.extractLsb' 8 8).toInt
  let sp := fld n 16 2
  let m : Int := (w : Int) - sg.toNat - e
  if w < 2 ∨ 8 < w ∨ m < 0 ∨ e + m = 0 then none
  else if sp = 3 ∨ 4 ≤ fld n 18 3 ∨ fld n 21 11 ≠ 0 then none
  else if (e = 0 ∧ sp ≠ 0) ∨ (sp = 1 ∧ e < 2) ∨ (sp = 2 ∧ e + m < 2) then none
  else if 1 ≤ e ∧ ((127 : Int) < (2 ^ e - 1 : Nat) - b ∨ 1 - b - m < -149) then none
  else if e = 0 ∧ (128 : Int) < (w : Int) - sg.toNat - b then none
  else some { w := w, signed := sg, e := e, bias := b, spec := sp }

/-- The block scale that a format word names (R220). -/
def scaleOf (v : Word) : Nat := fld v.toNat 18 3

/-- The format that a format code names for a team (R79); none where the register holds an invalid word. -/
def Team.format (t : Team) : Fmt → Option FFmt
  | .fp32 => some fp32
  | .fp16 => some fp16
  | .bf16 => some bf16
  | .e4m3 => some e4m3
  | .e5m2 => some e5m2
  | .int32 => some int32
  | .uint32 => some uint32
  | .reg n => formatOf (t.fmtReg n.val)

/-- f has a NaN (R224 step 1). -/
def FFmt.hasNan (f : FFmt) : Bool := f.spec == 2 || (f.spec == 1 && f.m != 0)

/-- f's canonical NaN (R218, R222). -/
def FFmt.nanPattern (f : FFmt) : Nat :=
  if f.spec = 2 then 2 ^ (f.e + f.m) - 1 else (2 ^ f.e - 1) * 2 ^ f.m + 2 ^ (f.m - 1)

/-- The greatest finite magnitude pattern of a format with an exponent. -/
def FFmt.topPattern (f : FFmt) : Nat :=
  if f.spec = 1 then (2 ^ f.e - 1) * 2 ^ f.m - 1
  else if f.spec = 2 then 2 ^ (f.e + f.m) - 2
  else 2 ^ (f.e + f.m) - 1

/-- The greatest finite magnitude below or above zero: of a two's-complement integer, 2^(w-1) below zero (R224). -/
def FFmt.top (f : FFmt) (neg : Bool) : Nat :=
  if f.e ≠ 0 then f.topPattern
  else if f.signed then (if neg then 2 ^ (f.w - 1) else 2 ^ (f.w - 1) - 1)
  else 2 ^ f.w - 1

/-- The pattern of a magnitude with a sign: a sign bit, or two's complement. -/
def FFmt.withSign (f : FFmt) (neg : Bool) (p : Nat) : Nat :=
  if !neg || !f.signed then p
  else if f.e ≠ 0 then p + 2 ^ (f.w - 1)
  else (2 ^ f.w - p) % 2 ^ f.w

/-- val(p, f) of R87 (R218, R219, R222). -/
def FFmt.val (f : FFmt) (p : Nat) : FV :=
  let p := p % 2 ^ f.w
  if f.e = 0 then
    let neg := f.signed && p.testBit (f.w - 1)
    .fin neg (if neg then 2 ^ f.w - p else p) (-f.bias)
  else
    let neg := f.signed && p.testBit (f.w - 1)
    let q := p % 2 ^ (f.e + f.m)
    let ex := q / 2 ^ f.m
    let mm := q % 2 ^ f.m
    if f.spec = 1 ∧ ex = 2 ^ f.e - 1 then (if mm = 0 then .inf neg else .nan)
    else if f.spec = 2 ∧ q = 2 ^ (f.e + f.m) - 1 then .nan
    else if ex = 0 then .fin neg mm (1 - f.bias - f.m)
    else .fin neg (2 ^ f.m + mm) (ex - f.bias - f.m)

/-- One step of the stochastic generator (R225). -/
def srStep (s : Word) : Word :=
  let s := s ^^^ (s <<< 13)
  let s := s ^^^ (s >>> 17)
  s ^^^ (s <<< 5)

/-- What a rounding gives: a pattern, its flags, and the generator's state. -/
structure Rounded where
  val : Nat
  flags : BitVec 5
  sr : Word
deriving DecidableEq, Repr

/-- Whether a magnitude that lies rem / den above n steps is rounded to n + 1 (R224 step 4, R225). -/
def roundsUp (mode : Rm) (neg : Bool) (n rem den : Nat) (sr : Word) : Bool :=
  rem != 0 &&
  match mode with
  | .dflt | .rne => decide (den < 2 * rem) || (decide (2 * rem = den) && n % 2 == 1)
  | .rtz => false
  | .rup => !neg
  | .rdn => neg
  | .sr => decide (sr.toNat % 2 ^ 24 < rem * 2 ^ 24 / den)

/-- The exponent of the step between neighbours of f at a magnitude m × 2^e, with unbounded exponent range. -/
def FFmt.step (f : FFmt) (m : Nat) (e : Int) : Int :=
  if f.e = 0 then -f.bias else max (Nat.log2 m + e) (1 - f.bias) - f.m

/-- The magnitude pattern of n steps of 2^q. -/
def FFmt.magnitude (f : FFmt) (n : Nat) (q : Int) : Nat :=
  if f.e = 0 then n else (q + f.bias + f.m - 1).toNat * 2 ^ f.m + n

/-- What overflow delivers (R224 step 5). -/
def FFmt.overflow (f : FFmt) (mode : Rm) (neg : Bool) : Nat :=
  let toInf := f.spec == 1 && match mode with
    | .dflt | .rne | .sr => true
    | .rtz => false
    | .rup => !neg
    | .rdn => neg
  if toInf then f.top neg + 1 else f.top neg

/-- round(x, f, mode) of R88 (R224), for a generator in state sr; sat is MODE 1 of R229. -/
def FFmt.round (f : FFmt) (mode : Rm) (sat : Bool) (x : FV) (sr : Word) : Rounded :=
  let sr := if mode = .sr then srStep sr else sr
  let nv := if sat then flNone else flNV
  match x with
  | .nan => if f.hasNan then { val := f.nanPattern, flags := 0, sr := sr } else { val := 0, flags := nv, sr := sr }
  | .inf neg =>
    if neg && !f.signed then { val := 0, flags := nv, sr := sr }
    else if f.spec = 1 then { val := f.withSign neg (f.top neg + 1), flags := 0, sr := sr }
    else { val := f.withSign neg (f.top neg), flags := nv, sr := sr }
  | .fin neg 0 _ => { val := if f.e = 0 then 0 else f.withSign neg 0, flags := 0, sr := sr }
  | .fin neg m e =>
    let q := f.step m e
    let num := m * 2 ^ (e - q).toNat
    let den := 2 ^ (q - e).toNat
    let n := num / den
    let rem := num % den
    let n' := if roundsUp mode neg n rem den sr then n + 1 else n
    let p := f.magnitude n' q
    let ovf := decide (f.top neg < p)
    let outside := neg && !f.signed
    let step4 := rem != 0 || ovf || outside
    let tiny := decide (f.e ≠ 0) && decide (Nat.log2 m + e < 1 - f.bias)
    let r := if ovf then f.overflow mode neg else p
    let flags := flagIf step4 flNX ||| flagIf ovf flOF ||| flagIf (tiny && step4) flUF |||
      flagIf (outside && r != 0) nv
    { val := if outside then 0 else f.withSign neg r, flags := flags, sr := sr }

/-- The sign of a value flipped. -/
def FV.neg : FV → FV
  | .nan => .nan
  | .inf s => .inf (!s)
  | .fin s m e => .fin (!s) m e

/-- The magnitude of a value. -/
def FV.abs : FV → FV
  | .nan => .nan
  | .inf _ => .inf false
  | .fin _ m e => .fin false m e

/-- The signed numerator of a finite value over 2^-e, for an e at most its own. -/
def scaled (neg : Bool) (m : Nat) (e lo : Int) : Int :=
  let v : Int := m * 2 ^ (e - lo).toNat
  if neg then -v else v

/-- The exact sum, and NV (R227). -/
def FV.add (mode : Rm) : FV → FV → FV × BitVec 5
  | .nan, _ => (.nan, 0)
  | _, .nan => (.nan, 0)
  | .inf s, .inf s' => if s = s' then (.inf s, 0) else (.nan, flNV)
  | .inf s, .fin _ _ _ => (.inf s, 0)
  | .fin _ _ _, .inf s => (.inf s, 0)
  | .fin s m e, .fin s' m' e' =>
    let lo := min e e'
    let v := scaled s m e lo + scaled s' m' e' lo
    if v = 0 then (.fin (if m = 0 ∧ m' = 0 ∧ s = s' then s else decide (mode = .rdn)) 0 0, 0)
    else (.fin (decide (v < 0)) v.natAbs lo, 0)

/-- The exact product, and NV (R227, R374). -/
def FV.mul : FV → FV → FV × BitVec 5
  | .nan, _ => (.nan, 0)
  | _, .nan => (.nan, 0)
  | .inf s, .inf s' => (.inf (s != s'), 0)
  | .inf s, .fin s' m _ => if m = 0 then (.nan, flNV) else (.inf (s != s'), 0)
  | .fin s m _, .inf s' => if m = 0 then (.nan, flNV) else (.inf (s != s'), 0)
  | .fin s m e, .fin s' m' e' => (.fin (s != s') (m * m') (e + e'), 0)

/-- The exact a × b + c, and NV (R227, R382): an invalid product gives NV whatever c is. -/
def FV.fma (mode : Rm) (a b c : FV) : FV × BitVec 5 :=
  let (p, fl) := a.mul b
  if fl ≠ 0 then (.nan, fl) else p.add mode c

/-- FFMA's exact a × b + c, and NV, as R382 says of it: a finite product plus an infinity of the other sign is NaN with NV,
where IEEE 754, which R227 names for all of these words, has the infinity. The model follows the word's own entry (log entry
67). -/
def FV.ffma (mode : Rm) (a b c : FV) : FV × BitVec 5 :=
  match (a.mul b).1, c with
  | .fin s _ _, .inf s' => if s = s' then FV.fma mode a b c else (.nan, flNV)
  | _, _ => FV.fma mode a b c

/-- The order of two values; none where either is NaN. Zeros are equal (R376). -/
def FV.cmp : FV → FV → Option Ordering
  | .nan, _ => none
  | _, .nan => none
  | .inf s, .inf s' => some (if s = s' then .eq else if s then .lt else .gt)
  | .inf s, .fin _ _ _ => some (if s then .lt else .gt)
  | .fin _ _ _, .inf s => some (if s then .gt else .lt)
  | .fin s m e, .fin s' m' e' =>
    let lo := min e e'
    some (compare (scaled s m e lo) (scaled s' m' e' lo))

/-- The sign of a value. -/
def FV.sign : FV → Bool
  | .nan => false
  | .inf s => s
  | .fin s _ _ => s

/-- a comes before b where -0 counts as less than +0 (R227). -/
def FV.before (a b : FV) : Bool :=
  match a.cmp b with
  | some .lt => true
  | some .eq => a.sign && !b.sign
  | _ => false

/-- minimumNumber (FMIN) and maximumNumber (FMAX) of two FP32 patterns (R227, R374). -/
def minMax (wantMax : Bool) (p q : Word) : Word :=
  let a := fp32.val p.toNat
  let b := fp32.val q.toNat
  match a, b with
  | .nan, .nan => 0x7FC00000
  | .nan, _ => q
  | _, .nan => p
  | _, _ => if a.before b = wantMax then (if a.cmp b = some .eq ∧ a.sign = b.sign then p else q) else p

end Sys2Proof.Machine
end

