-- ==== Sys2Proof/Machine/Slots.lean ====
section
/-! DEFINITION. Operand slots and accumulator tiles (R236, R237, R244), and the memory side of MLOAD and MSTORE (R183, R193,
R238, R240, R241): an operation that has issued is performed in parts of 16 bytes, in any order that keeps stream order for
each location (R194), and retires when it has been performed whole. -/

namespace Sys2Proof.Machine

/-! ## Slots and tiles -/

/-- An operand slot that is not claimed (R237). -/
def OpSlot.free : OpSlot := { bytes := [], seed := 0, inUse := false, dirty := false, bad := [] }

/-- Operand slot n of a stream. -/
def Stream.slotAt (x : Stream) (n : Nat) : OpSlot := fget (fun _ => OpSlot.free) x.slots n

def Stream.putSlot (x : Stream) (n : Nat) (v : OpSlot) : Stream := { x with slots := fset (fun _ => OpSlot.free) x.slots n v }

/-- Byte i of slot n; a byte that nothing has written since the claim is a free value (R237; log entry 14). -/
def OpSlot.byte (v : OpSlot) (n i : Nat) : Byte := fget (fun i => Config.freeByte v.seed (8192 * n + i)) v.bytes i

/-- Element e of tile t: +0 in a tile that is not in use (R244). -/
def AccWindow.element (x : AccWindow) (t e : Nat) : Word :=
  if fget falseAt x.inUse t then fget zeroWord x.tiles (1024 * t + e) else 0

/-- Tile t written whole (R175, R244). -/
def AccWindow.putTile (x : AccWindow) (t : Nat) (vs : List (Nat × Word)) : AccWindow :=
  { x with
    tiles := fsets zeroWord (fclear x.tiles (1024 * t) 1024) (vs.map fun e => (1024 * t + e.1, e.2))
    inUse := fset falseAt x.inUse t true, dirty := fset falseAt x.dirty t true, bad := fclear x.bad (64 * t) 64 }

/-- The check word of granule g of tile t fails (R175): a tile that is not in use is not read (R244). -/
def AccWindow.fails (x : AccWindow) (t g : Nat) : Bool := fget falseAt x.inUse t && fget falseAt x.bad (64 * t + g)

/-- The first granule of tile t whose check word fails (R175). -/
def AccWindow.badGranule (x : AccWindow) (t : Nat) : Option Nat := findFrom (x.fails t) 0 64

/-- Elements of some tiles are written, and their other elements stay, which is +0 for a tile that was not in use (R342). -/
def AccWindow.putElements (x : AccWindow) (l : List (Nat × Nat × Word)) : AccWindow :=
  let new := (l.map fun e => e.1).filter fun t => !fget falseAt x.inUse t
  { x with
    tiles := fsets zeroWord (new.foldl (fun m t => fclear m (1024 * t) 1024) x.tiles) (l.map fun e => (1024 * e.1 + e.2.1, e.2.2))
    bad := new.foldl (fun m t => fclear m (64 * t) 64) x.bad
    inUse := fsets falseAt x.inUse (l.map fun e => (e.1, true)), dirty := fsets falseAt x.dirty (l.map fun e => (e.1, true)) }

/-- The first granule that an MMA reads of a slot whose check word fails (R175): of its elements, and with scales of its
sidecar. -/
def OpSlot.badGranule (v : OpSlot) (scale : Nat) : Option Nat :=
  findFrom (fget falseAt v.bad) 0 (if scale = 0 then 64 else 72)

/-! ## Rows in memory -/

/-- Row q of an access at an offset: rows lie STRIDE × 16 apart, or one row's bytes where STRIDE is 0. -/
def rowAt (off : BitVec 20) (stride : BitVec 12) (n q : Nat) : Nat :=
  off.toNat + q * (if stride = 0 then n else 16 * stride.toNat)

/-- The memory rows of MLOAD (R238): how many, and the bytes of each. -/
def loadShape (size : MSize) (tr : Bool) : Nat × Nat :=
  match size, tr with
  | .h, true => (64, 64)
  | .b, true => (128, 32)
  | .n, true => (256, 16)
  | .s, _ => (32, 16)
  | _, false => (32, 128)

/-- Byte b of row j of the slot, from the memory rows (R238). -/
def loadByte (size : MSize) (tr : Bool) (mem : Nat → Nat → Byte) (j b : Nat) : Byte :=
  match size, tr with
  | .h, true => mem (b / 2) (2 * j + b % 2)
  | .b, true => mem b j
  | .n, true =>
    let nib (k : Nat) : Nat := fld (mem k (j / 2)).toNat (4 * (j % 2)) 4
    BitVec.ofNat 8 (nib (2 * b) + 16 * nib (2 * b + 1))
  | _, _ => mem j b

/-- The slot after MLOAD: its 32 rows of 128 bytes, or its sidecar's 32 rows of 16. -/
def OpSlot.loaded (v : OpSlot) (size : MSize) (tr : Bool) (mem : Nat → Nat → Byte) : OpSlot :=
  let side := decide (size = .s)
  let n := if side then 16 else 128
  let lo := if side then 4096 else 0
  let new := (List.range (32 * n)).map fun i => (lo + i, loadByte size tr mem (i / n) (i % n))
  let keep := v.bytes.filter fun (e : Nat × Byte) => decide (e.1 < 4096) == side
  { v with bytes := if side then keep ++ new else new ++ keep, dirty := true, bad := fclear v.bad (lo / 64) (32 * n / 64) }

/-- The rows of n bytes at some offsets cover granule g whole. -/
def rowsCover (ats : List Nat) (n g : Nat) : Bool :=
  (List.range 64).all fun i => ats.any fun o => decide (o ≤ 64 * g + i) && decide (64 * g + i < o + n)

/-- The granules that rows of n bytes at some offsets reach. -/
def rowsReach (ats : List Nat) (n : Nat) : List Nat :=
  (ats.flatMap fun o => (List.range ((o + n - 1) / 64 + 1 - o / 64)).map fun i => o / 64 + i).dedup

/-- The bytes of row i of a tile in MSTORE's format (R241). -/
def storeRow (f : MStFmt) (x : AccWindow) (t i : Nat) : List Byte :=
  (List.range 32).flatMap fun j =>
    let v := x.element t (32 * i + j)
    match f with
    | .f32 => toBytes 4 v.toNat
    | .bf16 => toBytes 2 (bf16.round .rne false (fp32.val v.toNat) 0).val
    | .f16 => toBytes 2 (fp16.round .rne false (fp32.val v.toNat) 0).val

/-! ## Performing an operation -/

/-- The memory side of an operation as it issues: of n bytes a row. -/
def StreamMem.start (move : StreamMove) (p : Place) (rows : List Nat) (n : Nat) : StreamMem :=
  { move := move, place := p, rows := rows, rowBytes := n, got := []
    left := (List.range rows.length).flatMap fun q => (List.range (n / 16)).map fun i => (q, 16 * i) }

/-- The offset of a part. -/
def StreamMem.partAt (m : StreamMem) (p : Nat × Nat) : Nat := (m.rows[p.1]?).getD 0 + p.2

/-- A part of the operation that is still to be performed has a byte in common with 16 bytes at offset o of a place. -/
def StreamMem.meets (m : StreamMem) (place : Place) (o : Nat) : Bool :=
  decide (m.place = place) && m.left.any fun p => decide (m.partAt p < o + 16) && decide (o < m.partAt p + 16)

/-- Two operations share a tile or a slot (R240). -/
def StreamOp.shares (o p : StreamOp) : Bool := (p.tiles.any fun t => o.tiles.contains t) || p.slots.any fun n => o.slots.contains n

/-- The memory side of operation k of a stream is now m. -/
def Stream.putMem (x : Stream) (k : Nat) (m : StreamMem) : Stream :=
  { x with inflight := x.inflight.mapIdx fun j o => if j = k then { o with mem := some m } else o }

/-- A part of operation k may be performed: no earlier operation shares a tile or a slot with it (R240), and no part of an
earlier one, nor an earlier part of its own, is still to be performed at the same bytes (R194). -/
def Stream.mayPart (x : Stream) (k : Nat) (o : StreamOp) (m : StreamMem) (p : Nat × Nat) : Bool :=
  (x.inflight.take k).all (fun e => !o.shares e && (e.mem.all fun y => !y.meets m.place (m.partAt p))) &&
  !({ m with left := m.left.takeWhile fun q => q != p }).meets m.place (m.partAt p)

/-- A part of operation k of stream st is performed: the granule whose check word fails (R175, R238, R241), and the state. A
store comes behind the stores of the workgroup's teams that the stream sees. -/
def performPart (s : State) (st k : Nat) (p : Nat × Nat) : Option Nat × State :=
  match s.stream st with
  | none => (none, s)
  | some x =>
    match (x.inflight[k]?).bind fun o => o.mem with
    | none => (none, s)
    | some m =>
      let o := m.partAt p
      let left := m.left.filter fun q => q != p
      match m.move with
      | .load _ _ _ =>
        if placeBad s m.place (o / 64) then (some (o / 64), s)
        else
          let l := (List.range 16).map fun i => streamByte s x.wg m.place (o + i)
          (none, s.putStream st (x.putMem k { m with left := left, got := Memory.write m.got (4096 * p.1 + p.2) l }))
      | .store t f =>
        match (s.wg x.wg).bind fun w => w.window with
        | none => (none, s)
        | some y =>
          match (y.badGranule t).or
              (if placeBad s m.place (o / 64) && !rowsCover m.rows m.rowBytes (o / 64) then some (o / 64) else none) with
          | some g => (some g, s)
          | none =>
            let s := (groupStores s x.wg m.place o 16).foldl (fun s e => raiseOne s e.1 e.2 6) s
            let s := placeWrite s m.place o (((storeRow f y t p.1).drop p.2).take 16) false
            (none, s.putStream st (x.putMem k { m with left := left }))

/-- The parts of operation k of a stream that are named and may be performed are, up to one whose check word fails. -/
def performParts (st k : Nat) : List (Nat × Nat) → State → Option Nat × State
  | [], s => (none, s)
  | p :: rest, s =>
    match s.stream st with
    | none => (none, s)
    | some x =>
      match x.inflight[k]? with
      | none => (none, s)
      | some o =>
        if o.mem.any fun m => x.mayPart k o m p then
          match performPart s st k p with
          | (some g, s) => (some g, s)
          | (none, s) => performParts st k rest s
        else performParts st k rest s

/-- What an operation does when its last part has been performed: an MLOAD fills its slot (R238), and the granules that an
MSTORE has written have fresh check words (R175). -/
def finishMem (s : State) (st : Nat) (x : Stream) (m : StreamMem) : State :=
  match m.move with
  | .load a size tr => s.putStream st (x.putSlot a ((x.slotAt a).loaded size tr fun q b => Memory.get m.got (4096 * q + b)))
  | .store _ _ => ((rowsReach m.rows m.rowBytes).filter (placeBad s m.place)).foldl (fun s g => freshenGranule s m.place g) s

/-- Operation k of a stream is performed whole, and retires (R240): the granule whose check word fails, and the state. -/
def retireOp (s : State) (st k : Nat) : Option Nat × State :=
  let left := (((s.stream st).bind fun x => x.inflight[k]?).bind fun o => o.mem).elim [] fun m => m.left
  match performParts st k left s with
  | (some g, s) => (some g, s)
  | (none, s) =>
    match s.stream st with
    | none => (none, s)
    | some x =>
      let y := { x with inflight := x.inflight.eraseIdx k }
      match (x.inflight[k]?).bind fun o => o.mem with
      | some m => (none, finishMem (s.putStream st y) st y m)
      | none => (none, s.putStream st y)

/-- Every operation of a stream is performed, in order, and retires, up to one whose check word fails. -/
def retireAll (st : Nat) : Nat → State → Option Nat × State
  | 0, s => (none, s)
  | fuel + 1, s =>
    if ((s.stream st).map fun x => x.inflight.isEmpty).getD true then (none, s)
    else
      match retireOp s st 0 with
      | (some g, s) => (some g, s)
      | (none, s) => retireAll st fuel s

/-- A free choice of the parts of operation k of a stream that may be performed are (R183, R193). -/
def somePart (s : State) (st k : Nat) : Option Nat × State :=
  let left := (((s.stream st).bind fun x => x.inflight[k]?).bind fun o => o.mem).elim [] fun m => m.left
  performParts st k (left.filter fun p => Config.pick s.fresh (256 * p.1 + p.2) % 2 == 0) s.bump

/-- The partition for which a stream's workgroup acts: none for a firmware agent. -/
def streamPart (s : State) (x : Stream) : Option Nat := (s.wg x.wg).bind fun w => if w.agent then none else some w.part

/-- The operations that a stream has issued are performed as it ends (R234, R247): one whose check word fails is logged
(R176), and stops there. -/
def finishOps (s : State) (st : Nat) : State :=
  match s.stream st with
  | none => s
  | some x => (List.range x.inflight.length).foldl (fun s _ =>
      match retireOp s st 0 with
      | (none, s) => s
      | (some g, s) =>
        let s := checkLog s (streamPart s x) g
        match s.stream st with
        | some y => s.putStream st { y with inflight := y.inflight.drop 1 }
        | none => s) s

end Sys2Proof.Machine
end

