-- ==== Sys2Proof/Machine/Tiles.lean ====
section
/-! DEFINITION. Performing the tiles of a copy (R159, R168 to R176, R183, R193, R201, R202): a translated tile is read and
written in parts, in any order in which each byte is read before it is written. -/

namespace Sys2Proof.Machine

/-- The key that a copy tile is sealed under, where it is overridden (R199). -/
def overrideKey (c : Copy) (d : Desc) : Option Nat := if c.keyovr then some d.key else none

/-- The parts in which a copy tile's n bytes at an address of a page are accessed: those of an HBM tile at once (R172), the
others in parts of 16 bytes, aligned to 16 (R183). Each is its first byte in the copy tile, and its length. -/
def sideParts (p : Pte) (a n : Nat) : List (Nat × Nat) :=
  if p.typ = 0 then [(0, n)]
  else (List.range ((a + n - 1) / 16 + 1 - a / 16)).map fun i =>
    let lo := max a (16 * (a / 16 + i))
    (lo - a, min (a + n) (16 * (a / 16 + i) + 16) - lo)

/-- Two runs of bytes have one in common. -/
def overlaps (a b : Nat × Nat) : Bool := decide (a.1 < b.1 + b.2) && decide (b.1 < a.1 + a.2)

/-- The status of a tile after another of its accesses: the first that is not OK. -/
def LateTile.meet (x : LateTile) (st : Nat) : LateTile := { x with st := if x.st = 0 then st else x.st }

/-- A part of a tile is read (R168, R169, R176). -/
def LateTile.readPart (x : LateTile) (s : State) (c : Copy) (p : Nat × Nat) : LateTile × State :=
  let r := c.requester
  let a := x.srcAt + p.1
  match pageReadBut x.logged s r x.srcPage.pte a p.2 with
  | (st, l, t) =>
    ({ x.meet st with reads := x.reads.filter fun q => q != p, begun := true, buf := Memory.write x.buf p.1 l
                      logged := x.logged ++ failingGranules s r x.srcPage.pte a p.2 }, t)

/-- No part of a tile has been written. -/
def LateTile.unwritten (x : LateTile) : Bool := x.writes == sideParts x.dstPage.pte x.dstAt x.n

/-- A part of a tile is written, and where it is refused nothing of the tile is: a tile's first part meets the failing
granules that the tile covers in part (R171, R175, and pageWrite's choice). -/
def LateTile.writePart (x : LateTile) (s : State) (c : Copy) (p : Nat × Nat) : LateTile × State :=
  let r := c.requester
  let q := x.dstPage.pte
  let l := Memory.read x.buf p.1 p.2
  match (if x.unwritten then partGranules s r q x.dstAt x.n else []) with
  | [] =>
    match (if q.typ ≤ 1 then pageWrite s r q ((overrideKey c x.desc).getD q.key) (x.dstAt + p.1) l
           else (0, placeWrite s (pagePlace r q) (x.dstAt + p.1) l false)) with
    | (st, t) => ({ x.meet st with writes := x.writes.filter fun y => y != p, begun := true, wrote := x.wrote || st == 0 }, t)
  | gs => ({ x.meet 6 with reads := [], writes := [], begun := true }, logGranules s r gs)

/-- A part of a tile that may come is performed: a read (false), or a write of bytes that have all been read (true). -/
def LateTile.part (x : LateTile) (s : State) (c : Copy) (p : Bool × Nat × Nat) : LateTile × State :=
  if p.1 then if x.writes.contains p.2 && !x.reads.any (overlaps p.2) then x.writePart s c p.2 else (x, s)
  else if x.reads.contains p.2 then x.readPart s c p.2 else (x, s)

/-- Parts of a tile are performed, one after another. -/
def LateTile.performs (c : Copy) : List (Bool × Nat × Nat) → LateTile → State → LateTile × State
  | [], x, s => (x, s)
  | p :: rest, x, s =>
    match x.part s c p with
    | (x, s) => LateTile.performs c rest x s

/-- The parts of a tile that are still to come, its reads first. -/
def LateTile.parts (x : LateTile) : List (Bool × Nat × Nat) :=
  x.reads.map (fun p => (false, p)) ++ x.writes.map fun p => (true, p)

/-- Every part of a tile has been performed, or it has been refused. -/
def LateTile.over (x : LateTile) : Bool := x.reads.isEmpty && x.writes.isEmpty

/-- The on-chip granules that a tile has written whole have fresh check words (R175). -/
def LateTile.freshen (x : LateTile) (s : State) (c : Copy) : State :=
  if x.wrote then
    let whole (g : Nat) : Bool := decide (x.dstAt ≤ g * 64) && decide (g * 64 + 64 ≤ x.dstAt + x.n)
    ((failingGranules s c.requester x.dstPage.pte x.dstAt x.n).filter whole).foldl
      (fun s g => freshenGranule s (pagePlace c.requester x.dstPage.pte) g) s
  else s

/-! ## RESEAL -/

/-- The two sides of a RESEAL copy's tile are one tile of HBM (R174). -/
def LateTile.oneTile (x : LateTile) : Bool := x.srcPage.pte.typ == 0 && x.dstPage.pte.typ == 0 && x.srcAt == x.dstAt

/-- One tile of a RESEAL copy (R174): read under the source key, and after its check words have been verified (R171) written
whole under another key, VERSION 1. Equal keys fail at the tile, which is unchanged. -/
def resealTile (s : State) (c : Copy) (x : LateTile) : Nat × State :=
  let key := (overrideKey c x.desc).getD x.dstPage.pte.key
  if x.srcPage.pte.key = key then (8, s)
  else
    let t := tileOf x.srcAt
    match sealRead (closeTile s t) x.srcPage.pte.key 0 (t * 2048) 2048 with
    | (0, l, s) =>
      match pathFail s t, s.flight with
      | some a, _ => (1, nodeLog s a)
      | none, some g => (6, refuseLog { s with flight := none } t 1 (.check g))
      | none, none =>
        (0, { pathWritten s t with hbm := Memory.write (fclear s.hbm (t * 2048) 2048) (t * 2048) l }.putCaddy t
          { version := 1, key := key, state := 1, pad := 0, tag := none, sealedWith := keyValue s key, sealedVersion := 1 })
    | (st, _, s) => (st, s)

/-! ## A copy's tiles -/

/-- A tile of a copy is performed, as far as parts go that p names (R183, R193): a RESEAL copy's is at once (R172). -/
def performTile (p : Bool × Nat × Nat → Bool) (s : State) (c : Copy) (x : LateTile) : LateTile × State :=
  if c.reseal then
    match resealTile s c x with
    | (st, s) => ({ x.meet st with reads := [], writes := [], begun := true, wrote := st == 0 }, s)
  else
    match LateTile.performs c (x.parts.filter p) x s with
    | (x, s) => (x, if x.over then x.freshen s c else s)

/-- The first failure in processing order (R202). -/
def firstFail (old : Option (Nat × Nat)) (st i : Nat) : Option (Nat × Nat) :=
  if st = 0 then old
  else match old with
    | some (st', j) => if i < j then some (st, i) else some (st', j)
    | none => some (st, i)

/-- A copy of which tile x has come as far as it now stands (R202): a tile that is over is none of its late tiles. -/
def Copy.tileIs (c : Copy) (x : LateTile) : Copy :=
  if x.over then
    { c with late := c.late.filter fun y => y.idx != x.idx, fail := firstFail c.fail x.st x.idx, wrote := c.wrote || x.wrote }
  else { c with late := c.late.map fun y => if y.idx = x.idx then x else y }

/-- The translated tiles of copy k that p names are performed whole. -/
def finishTiles (p : LateTile → Bool) (s : State) (k : Nat) : State :=
  match s.copy k with
  | none => s
  | some c => (c.late.filter p).foldl (fun s x =>
      match s.copy k with
      | none => s
      | some c =>
        match performTile (fun _ => true) s c x with
        | (x, s) => s.putCopy k (c.tileIs x)) s

end Sys2Proof.Machine
end

