-- ==== Sys2Proof/Machine/Unit.lean ====
section
/-! DEFINITION. Launches, graphs and copies as units: their records (R93, R94, R199, R214), their completion
(R97, R100, R202, R215, R254), and their cancellation and failure (R104 to R106). -/

namespace Sys2Proof.Machine

/-- A status word (R106, R215). -/
def statusWord (status : Nat) (nested : Bool) (cause copyst node : Nat) (failwg : Word) : DWord :=
  BitVec.ofNat 64 (status % 16 + nested.toNat * 16 + cause % 256 * 256 + copyst % 16 * 2 ^ 16 +
    node % 4096 * 2 ^ 20 + failwg.toNat * 2 ^ 32)

/-! ## Residency (R101) -/

/-- A workgroup fits an empty core (R101). -/
def fitsEmpty (lanes nregs nteams sharedSz : Nat) : Bool :=
  decide (nteams ≤ 63) && decide (nteams * ctxOf lanes 0 ≤ 4064) &&
  decide (nteams * ctxOf lanes 0 * nregs ≤ 130048) && decide (sharedSz + nteams * 16384 ≤ 752 * 1024)

/-! ## Copies -/

/-- A copy descriptor in eight registers, given as 32 bytes (R199). -/
def descOf (l : List Byte) : Desc :=
  { src := BitVec.ofNat 64 (num l 0 8), dst := BitVec.ofNat 64 (num l 8 8)
    rows := fld (num l 16 4) 0 21, key := fld (num l 16 4) 21 11
    rowBytes := fld (num l 20 4) 0 24, slice := fld (num l 20 4) 24 4, nslice := fld (num l 20 4) 28 4
    sstride := (BitVec.ofNat 32 (num l 24 4)).toInt, dstride := (BitVec.ofNat 32 (num l 28 4)).toInt }

/-- A descriptor is malformed (R200), under a KEYOVR flag, for a COPYC or not, and the issuer's level. -/
def malformedDesc (s : State) (part : Nat) (priv : Nat) (keyovr coll : Bool) (d : Desc) : Bool :=
  decide (d.rows = 0) || decide (d.rowBytes = 0) || (!keyovr && d.key != 0) ||
  (!coll && (d.slice != 0 || d.nslice != 0)) || (keyovr && priv == 1 && !keyInRange s part d.key)

/-- The tile index of a cancelled copy (R202): its first tile in processing order that has not been performed, or 0 where
it has written nothing. -/
def Copy.stopIndex (c : Copy) : Nat := if c.wrote then c.late.foldl (fun i x => min i x.idx) c.next else 0

/-- The status a copy completes with, and its tile index (R202), unless it is cancelled. -/
def copyOutcome (c : Copy) : Nat × Nat :=
  if c.arrive && !c.attached then (4, (c.fail.map Prod.snd).getD 0)
  else c.fail.getD (0, 0)

/-- The status word that a node with a copy status gives its graph (R215). -/
def copyWord (i st : Nat) : DWord :=
  if st = 0 then 0
  else if st = 5 then statusWord 2 false 0 0 i 0
  else statusWord 1 false 0 st i 0

/-! ## Graphs and launches -/

/-- A node of a graph has finished: its word is 0 for OK (R215). The graph's counter falls, its successors' counts
fall, or the graph's status word is decided: that of a LAUNCH packet is its launch's own (R254). -/
def nodeDone (s : State) (g i : Nat) (word : DWord) : State :=
  match s.graph g with
  | none => s
  | some x =>
    let succ := ((x.nodes[i]?).map fun n => n.succ).getD []
    let nodes := x.nodes.mapIdx fun j n =>
      if j = i then { n with state := 2 }
      else if word = 0 then { n with count := n.count - (succ.filter fun k => k == j).length }
      else n
    s.putGraph g { x with
      nodes := nodes, counter := x.counter - 1
      decided := if word = 0 then x.decided else if x.kind = 0 then some word else x.decided.or (some word) }

/-- A copy completes with a status and a tile index (R202): it leaves the engine, arrives at its barrier, or its
node finishes. -/
def completeCopy (s : State) (k st tile : Nat) : State :=
  match s.copy k with
  | none => s
  | some c =>
    let s := s.dropCopy k
    match c.kind with
    | .node g i =>
      let s := match s.graph g with
        | some x => if x.kind = 1 then s.putGraph g { x with copySt := (st, tile) } else s
        | none => s
      nodeDone s g i (copyWord i st)
    | _ =>
      if c.arrive && c.attached then
        match c.wg with
        | some w => arrive (detach s w c.nb k) w c.nb none (if st = 0 then none else some (st, tile))
        | none => s
      else s

/-- Copy k stops at a tile boundary, with CANCELLED (R105): the tiles that it is performing are performed whole. -/
def stopCopy (s : State) (k : Nat) : State :=
  let s := finishTiles (fun x => x.begun) s k
  completeCopy s k 5 (((s.copy k).map Copy.stopIndex).getD 0)

/-- The status word of a launch (R106). -/
def launchWord (x : Launch) : DWord :=
  match x.failure with
  | some (st, nested, cause, wg) => statusWord st nested cause 0 x.node wg
  | none => if x.cancelling then statusWord 2 false 0 0 x.node 0 else 0

/-- The entry that stands for a firmware agent's record, which is no launch of R93 (R92, R330). -/
def Launch.isAgent (x : Launch) : Bool := x.launchId == 0xFFFFFFFF

/-- The launches that are live: accepted, not held, not complete (R94). -/
def liveLaunches (s : State) : List Launch :=
  (entries s.launches).filterMap fun e => if e.2.held || e.2.isAgent then none else some e.2

/-- LAUNCHIDs in use. -/
def launchIdUsed (s : State) (i : Nat) : Bool := (liveLaunches s).any fun x => x.launchId == i

/-- The held launch whose packet was accepted first, where there is one (R94). -/
def firstHeld (s : State) : Option (Nat × Launch) :=
  ((entries s.launches).filter fun e => e.2.held).foldl (fun b e => match b with
    | some x => if e.2.order < x.2.order then some e else some x
    | none => some e) none

/-- The first held launch becomes live where fewer than 16,384 are, and takes a LAUNCHID (R94). -/
def startHeld (s : State) : State :=
  match firstHeld s with
  | some (l, x) =>
    if (liveLaunches s).length < 16384 then
      s.bump.putLaunch l { x with held := false, launchId := pickUnused s 0 16384 (launchIdUsed s) }
    else s
  | none => s

/-- The launch is complete when its spawn-tree counter is 0 (R97): its node finishes, its requests end (R259), and a held
launch becomes live (R94). -/
def launchCheck (s : State) (l : Nat) : State :=
  match s.launch l with
  | none => s
  | some x =>
    if x.counter = 0 then
      startHeld (nodeDone (endRequests (s.dropLaunch l) fun r => r.source == 0 && r.launch == l) x.graph x.node (launchWord x))
    else s

/-- A stream ends (R234, R243, R247): what it has issued is performed; its entry and its slots are released; the window
stays. -/
def endStream (s : State) (k : Nat) : State :=
  let s := finishOps s k
  match s.stream k with
  | none => s
  | some x =>
    match s.wg x.wg with
    | some w => (s.dropStream k).putWg x.wg { w with stream := none }
    | none => s.dropStream k

/-- A team leaves a collective that it has not joined (R206): the collective is cancelled. -/
def leaveColls (s : State) (g joined : Nat) : State :=
  match s.wg g with
  | none => s
  | some w =>
    let gone := w.colls.filter fun c => joined ≤ c.n
    let s := s.putWg g { w with colls := w.colls.filter fun c => !decide (joined ≤ c.n) }
    gone.foldl (fun s c =>
      match c.slices.find? fun x => x.arrive with
      | some x =>
        let intact := (((s.wg g).map fun w => (w.bar x.nb).attached.contains x.uid).getD false)
        let s := c.slices.foldl (fun s y => detach s g y.nb y.uid) s
        if intact then arrive s g x.nb none (some (5, 0)) else s
      | none => s) s

/-- A team ends (R98) or is stopped (R105, R107): its stores are performed, its results are dropped, and what it holds of
the save area is free (R309). -/
def teamLeaves (s : State) (u : Nat) (st : TeamStatus) : State :=
  let s := drainAll s u
  match s.team u with
  | none => s
  | some t =>
    leaveColls (s.putTeam u { t with status := st, pend := [], clause := none, park := .none, passOut := [], spill := [] })
      t.wg t.copycs

/-- The teams of a launch that are running. -/
def teamsOf (s : State) (l : Nat) : List Nat :=
  (entries s.teams).filterMap fun e => if e.2.launch = l ∧ e.2.status = .running ∧ !e.2.agent then some e.1 else none

/-- The workgroups of a launch. -/
def wgsOf (s : State) (l : Nat) : List Nat :=
  (entries s.wgs).filterMap fun e => if e.2.launch = l ∧ !e.2.agent then some e.1 else none

/-- How many workgroups a launch has pending (R97). -/
def pendingCount (x : Launch) : Nat := (x.pending.map fun p => p.count - p.next).sum

/-- Cancelling a launch (R104, R105): pending workgroups are discarded, barriers invalidated, copies stopped and
streams ended, and the teams get NOTICE_CANCEL. A SEMSIG that is not yet performed counts as a copy in flight: it is
dropped with CANCELLED, the model's choice (log entry 57). -/
def cancelLaunch (s : State) (l : Nat) : State :=
  match s.launch l with
  | none => s
  | some x =>
    if x.cancelling then s
    else
      let s := s.putLaunch l { x with cancelling := true, pending := [], counter := x.counter - pendingCount x }
      let s := (wgsOf s l).foldl invalidateAll s
      let s := (wgsOf s l).foldl (fun s g => match s.wg g with | some w => s.putWg g { w with colls := [] } | none => s) s
      let s := ((entries s.copies).filter fun e => e.2.launch == some l).foldl
        (fun s e => stopCopy s e.1) s
      let s := (wgsOf s l).foldl (fun s g =>
        match s.wg g with
        | some w => match w.stream with | some k => endStream s k | none => s
        | none => s) s
      let s := (teamsOf s l).foldl (fun s u =>
        match s.team u with
        | some t => s.putTeam u { t with noticeCancel := true }
        | none => s) s
      launchCheck s l

/-- A launch fails (R106): its first cause is recorded, and it is cancelled. -/
def failLaunch (s : State) (l status : Nat) (nested : Bool) (cause : Nat) (wgid : Word) : State :=
  match s.launch l with
  | none => s
  | some x =>
    if x.cancelling then s
    else cancelLaunch (s.putLaunch l { x with failure := some (status, nested, cause, wgid) }) l

/-- The stream fails (R234): it ends, and its launch fails with the cause. -/
def failStream (s : State) (k cause : Nat) : State :=
  match s.stream k with
  | none => s
  | some x =>
    let s := endStream s k
    match s.wg x.wg with
    | some w => if w.agent then s else failLaunch s w.launch 1 false cause w.wgid
    | none => s

/-- A stream whose operation has met a failing check word in granule g fails with CHECK_FAIL, and the failure is logged (R176,
R234, R238, R241). -/
def failCheck (s : State) (st g : Nat) : State :=
  match s.stream st with
  | none => s
  | some x => failStream (checkLog s (streamPart s x) g) st 9

/-- Cancelling a graph (R105): its running nodes are cancelled, its other nodes are discarded. -/
def cancelGraph (s : State) (g : Nat) : State :=
  match s.graph g with
  | none => s
  | some x =>
    if x.cancelling then s
    else
      let idle := (x.nodes.filter fun n => n.state == 0).length
      let s := s.putGraph g { x with
        cancelling := true, counter := x.counter - idle
        nodes := x.nodes.map fun n => if n.state = 0 then { n with state := 2 } else n
        decided := x.decided.or (some (statusWord 2 false 0 0 0 0)) }
      (x.nodes.filter fun n => n.state == 1).foldl (fun s n =>
        if n.copy then stopCopy s n.unit
        else cancelLaunch s n.unit) s

/-- The level of the launches of queue q (R328): P on the manager queue. -/
def queuePriv (s : State) (q : Nat) : Nat :=
  match partOfQueue s q with
  | some n => if s.dfield (aVfQueues n) 0 12 = q then 1 else 0
  | none => 0

/-- The partition that queue q acts for. -/
def queuePart (s : State) (q : Nat) : Nat := (partOfQueue s q).getD 0

/-- A launch record's checks (R93, R94, R314), for 64 bytes read from addr. -/
def recordOk (addr : Nat) (l : List Byte) : Bool :=
  decide (addr % 64 = 0) && decide (num l 0 8 % 4 = 0) &&
  decide (4 ≤ num l 36 2) && decide (num l 36 2 ≤ 1024) && decide (num l 36 2 % 4 = 0) &&
  decide (8 ≤ num l 38 1) && decide (num l 38 1 ≤ 192) && decide (num l 38 1 % 8 = 0) &&
  decide (num l 39 1 = 1) && decide (num l 40 4 % 256 = 0) && decide (num l 40 4 ≤ 1048576) &&
  decide (num l 44 4 % 65536 = 0) && decide (num l 48 1 ≤ 3) && decide (num l 49 1 ≤ 15) &&
  decide (num l 50 1 ≤ 8) && decide (num l 51 1 = 0) && decide (num l 56 8 = 0) &&
  fitsEmpty (num l 36 2) (num l 38 1) 1 (num l 40 4)

/-- The class of a launch: the greater code of the record's and the queue's (R255). -/
def launchClass (s : State) (q : Nat) (l : List Byte) : Nat := max (num l 48 1) (s.dfield (aQctl q) 5 2)

/-- The rank of a launch (R255). -/
def launchRank (s : State) (q : Nat) (l : List Byte) : Nat :=
  16 * (3 - launchClass s q l) +
    (if num l 48 1 = launchClass s q l then num l 49 1 else s.dfield (aQctl q) 7 4)

/-- The failure of reading a record or a table, as a trap cause (R94). -/
def readCause (c : Nat) : Nat := if c = 10 then 9 else c

/-- The status of a copy node whose descriptor could not be read (R214): a page that is not present is PERMISSION. -/
def readStatus (st : Nat) : Nat := if st = 3 then 8 else st

/-! ## Recording and replay (R288 to R290) -/

/-- RPLY_CTL_q.MODE: 0 off, 1 record, 2 replay (R288). -/
def replayMode (s : State) (q : Nat) : Nat := s.dfield (aRplyCtl q) 0 2

/-- Packet n of queue q is replayed (R290): the queue is in replay mode, and n came before its buffer's end. -/
def replays (s : State) (q n : Nat) : Bool :=
  replayMode s q == 2 && match (s.queue q).replayEnd with
    | none => true
    | some e => decide (n < e)

/-- One record appended to a queue's capture buffer (R289); one that does not fit sets FULL, and recording stops. -/
def recordInput (s : State) (q : Nat) (header payload : List Byte) : State :=
  let st := s.dreg (aRplyStat q)
  if replayMode s q ≠ 1 ∨ st.getLsbD 32 then s
  else
    let l := header ++ payload ++ zeros (roundUp payload.length 16 - payload.length)
    let used := dfld st 0 32
    if s.dfield (aRplySize q) 0 32 < used + l.length then s.putDfield (aRplyStat q) 32 1 1
    else
      (vwrite (some (queuePart s q)) none (l.length / 2048 + 2) s (s.dfield (aRplyBase q) 0 57 + used) l).2.putDfield
        (aRplyStat q) 0 32 (used + l.length)

/-- The header of a record (R289): KIND, byte 1, P, and bytes 8 to 15. -/
def recordHeader (kind filter p : Nat) (key : List Byte) : List Byte :=
  toBytes 1 kind ++ toBytes 1 filter ++ zeros 2 ++ toBytes 4 p ++ key

/-- The bytes of a slot of an ingress filter (R285). -/
def slotBytes (s : State) (f : Nat) : Nat := 2048 * min 8 (max 1 (s.dfield (aIngRctl f) 4 4))

/-- The payload of a record, from its header (R289). -/
def recordLength (s : State) (h : List Byte) : Option Nat :=
  match num h 0 1 with
  | 1 => some 64
  | 2 => some (32 + slotBytes s (num h 1 1))
  | 3 => some 8
  | 4 => some 4
  | _ => none

/-- The payload of the record that p names, from offset o of queue q's buffer, after k others that it names (R290). -/
def findRecord (q : Nat) (p : List Byte → Bool) : Nat → Nat → State → Nat → Option (List Byte) × State
  | 0, _, s, _ => (none, s)
  | fuel + 1, k, s, o =>
    let base := s.dfield (aRplyBase q) 0 57
    let part := some (queuePart s q)
    if s.dfield (aRplySize q) 0 32 < o + 16 then (none, s)
    else
      match vread false part none 3 s (base + o) 16 with
      | (.error _, s) => (none, s)
      | (.ok h, s) =>
        match recordLength s h with
        | none => (none, s)
        | some n =>
          if p h && k == 0 then
            match vread false part none 12 s (base + o + 16) n with
            | (.ok l, s) => (some l, s)
            | (.error _, s) => (none, s)
          else findRecord q p fuel (if p h then k - 1 else k) s (o + 16 + roundUp n 16)

/-- The SEED of a launch (R93, R289, R290): recorded, or replaced by a KIND 4 record of its packet: the k-th launch of one
packet takes the k-th of them. -/
def launchSeed (s : State) (q packet k : Nat) (l : List Byte) : Word × State :=
  let seed := (l.drop 32).take 4
  if replays s q packet then
    let hit (h : List Byte) : Bool := num h 0 1 == 4 && num h 4 4 == packet % 2 ^ 32
    match findRecord q hit (s.dfield (aRplySize q) 0 32) k s 0 with
    | (some v, s) => (BitVec.ofNat 32 (ofBytes v), s)
    | (none, s) => (BitVec.ofNat 32 (ofBytes seed), s)
  else (BitVec.ofNat 32 (ofBytes seed), recordInput s q (recordHeader 4 0 packet (zeros 8)) seed)

/-- A launch of graph g has taken its SEED. -/
def seedTaken (s : State) (g : Nat) : State :=
  match s.graph g with
  | some x => s.putGraph g { x with seeds := x.seeds + 1 }
  | none => s

/-! ## Starting nodes -/

/-- Node i of graph g runs as unit u. -/
def nodeRuns (s : State) (g i u : Nat) : State :=
  match s.graph g with
  | some y => s.putGraph g { y with nodes := y.nodes.mapIdx fun j (n : Node) =>
      if j = i then { n with state := 1, unit := u } else n }
  | none => s

/-- A launch comes into being from its record (R93 to R97), live or held: behind those that are held already (R94). -/
def createLaunch (s : State) (g i q : Nat) (deadline packet order : Nat) (l : List Byte) : State :=
  let held := decide (16384 ≤ (liveLaunches s).length) || (firstHeld s).isSome
  let (seedWord, s) := launchSeed s q packet (((s.graph g).map fun x => x.seeds).getD 0) l
  let s := seedTaken s g
  let seed : Spawned :=
    { entry := BitVec.ofNat 64 (num l 0 8), args := BitVec.ofNat 64 (num l 16 8), lanes := num l 36 2
      nregs := num l 38 1, nteams := 1, sharedSz := num l 40 4, baseId := 0, count := 1, next := 0
      since := none, blocked := false }
  let x : Launch :=
    { part := queuePart s q, queue := q, graph := g, node := i
      launchId := if held then 0 else pickUnused s 0 16384 (launchIdUsed s)
      entry := BitVec.ofNat 64 (num l 0 8), trapvec := BitVec.ofNat 64 (num l 8 8)
      args := BitVec.ofNat 64 (num l 16 8), sliceStore := BitVec.ofNat 64 (num l 24 8), sliceSz := num l 52 4
      seed := seedWord
      framesz := if num l 44 4 = 0 then 65536 else num l 44 4
      cls := launchClass s q l, rank := launchRank s q l, ophint := num l 50 1, deadline := deadline
      order := order, priv := queuePriv s q, pending := [seed], counter := 1, cancelling := false
      failure := none, held := held, hintHold := if num l 50 1 = 0 then none else some s.ns, seedCore := none
      admitted := 0, packet := packet }
  nodeRuns (s.bump.nextId.putLaunch s.nextUid x) g i s.nextUid

/-- Starting node i of graph g (R94, R214, R215): its record or descriptor is read and checked, but for one that was
read when the packet was accepted; its launch or copy comes into being, or the node finishes at once. -/
def startNode (s : State) (g i : Nat) : State :=
  match s.graph g with
  | none => s
  | some x =>
    match x.nodes[i]? with
    | none => s
    | some n =>
      if n.copy then
        match (if n.record.isEmpty then engineReads s (kettleOf x.part) n.ptr.toNat 32 else (0, n.record, s)) with
        | (st + 1, _, s) => nodeDone s g i (copyWord i (readStatus (st + 1)))
        | (0, l, s) =>
          let d := descOf l
          let bad := malformedDesc s x.part 2 n.keyovr false d || (n.keyovr && x.part != 0)
          let c : Copy :=
            { kind := .node g i, part := x.part, priv := if x.part = 0 then 2 else 0, launch := none, core := none
              wg := none, team := none, descs := [d], reseal := n.reseal, keyovr := n.keyovr, arrive := false, nb := 0
              attached := false, next := 0, late := [], ended := false, wrote := false, fail := none, suspended := none
              saved := false }
          let s' := nodeRuns (s.nextId.putCopy s.nextUid c) g i s.nextUid
          if bad then completeCopy s' s.nextUid 8 0 else s'
      else if !n.record.isEmpty then createLaunch s g i x.queue x.deadline x.packet x.order n.record
      else if n.ptr.toNat % 64 ≠ 0 then nodeDone s g i (statusWord 3 false 0 0 i 0)
      else
        match vread false (some x.part) none 3 s n.ptr.toNat 64 with
        | (.error c, s) => nodeDone s g i (statusWord 1 false (readCause c) 0 i 0)
        | (.ok l, s) =>
          if recordOk n.ptr.toNat l then createLaunch s g i x.queue x.deadline x.packet x.order l
          else nodeDone s g i (statusWord 3 false 0 0 i 0)

/-- A completion record (R254): 16 bytes at COMPL; a write that fails is dropped whole. -/
def writeRecord (s : State) (part : Nat) (compl : Nat) (word : DWord) : State :=
  if compl = 0 then s
  else vwriteWhole (some part) s compl (toBytes 8 word.toNat ++ toBytes 8 (ptpNow s))

/-- The word that a COPY or SIGNAL packet's record holds (R254). -/
def copyRecordWord (st tile : Nat) : DWord :=
  BitVec.ofNat 64 ((if st = 0 then 0 else if st = 5 then 2 else 1) + st * 256 + tile % 2 ^ 32 * 2 ^ 32)

/-- A packet of queue q is done. -/
def packetDone (s : State) (q n : Nat) : State :=
  let x := s.queue q
  s.putQueue q { x with pkts := x.pkts.map fun p => if p.num = n then { p with state := .done } else p }

/-- A graph of a phase has completed (R100): the phase's counter falls, and a closed phase whose counter is 0 has
finished. -/
def phaseFalls (s : State) (q job ph : Nat) : State :=
  let x := s.queue q
  if x.job ≠ job then s
  else
    let k := fget zeroNat x.phases ph - 1
    s.putQueue q { x with phases := fset zeroNat x.phases ph k
                          closed := if k = 0 then x.closed.filter fun p => p != ph else x.closed }

/-- A graph completes (R100, R215, R254). -/
def completeGraph (s : State) (g : Nat) : State :=
  match s.graph g with
  | none => s
  | some x =>
    let word := if x.kind = 1 then copyRecordWord x.copySt.1 x.copySt.2 else x.decided.getD 0
    let s := writeRecord (s.dropGraph g) x.part x.compl.toNat word
    let s := if (s.queue x.queue).job = x.job then packetDone s x.queue x.packet else s
    phaseFalls s x.queue x.job x.phase

/-- Carrying a graph as far as it goes without waiting (R215): a decided graph is cancelled, ready nodes start, and a
graph whose counter is 0 completes. -/
def settleGraph : Nat → State → Nat → State
  | 0, s, _ => s
  | fuel + 1, s, g =>
    match s.graph g with
    | none => s
    | some x =>
      if x.decided.isSome && !x.cancelling then settleGraph fuel (cancelGraph s g) g
      else if x.counter = 0 then completeGraph s g
      else if x.cancelling then s
      else
        match x.nodes.findIdx? fun n => n.state == 0 && n.count == 0 with
        | some i => settleGraph fuel (startNode s g i) g
        | none => s

/-- Carrying every graph as far as it goes. -/
def settleGraphs (s : State) : State :=
  (entries s.graphs).foldl (fun s e => settleGraph (2 * e.2.nodes.length + 3) s e.1) s

end Sys2Proof.Machine
end

