-- ==== Sys2Proof/Machine/Engine.lean ====
section
/-! DEFINITION. What engine operations do to memory (R152, R159 to R162, R168 to R176, R199 to R206, R213, R216,
R217): a copy tile, a semaphore update, the fault queue, and the tokens. A status is a copy status of R203; 3 also
stands for a translation that is not present, which suspends the operation. -/

namespace Sys2Proof.Machine

/-- Position i of a copy's tile order (R201): the slice, the source and destination address, and the length. -/
structure CopyPos where
  src : Nat
  dst : Nat
  n : Nat
  desc : Desc
deriving DecidableEq, Repr

/-- A 64-bit address moved by a signed distance. -/
def addrAt (a : DWord) (d : Int) : Nat := (a + BitVec.ofInt 64 d).toNat

/-- The copy tiles of one row from byte o on (R201): maximal runs that cross no 2 KiB boundary of either address. -/
def rowTiles (d : Desc) (row : Nat) : Nat → Nat → List CopyPos
  | 0, _ => []
  | fuel + 1, o =>
    if d.rowBytes ≤ o then []
    else
      let a := addrAt d.src (row * d.sstride + o)
      let b := addrAt d.dst (row * d.dstride + o)
      let n := min (d.rowBytes - o) (min (2048 - a % 2048) (2048 - b % 2048))
      { src := a, dst := b, n := n, desc := d } :: rowTiles d row fuel (o + n)

/-- How many copy tiles a row has. -/
def rowCount (d : Desc) (row : Nat) : Nat := (rowTiles d row (d.rowBytes + 1) 0).length

/-- The k-th tile of a descriptor's rows from a row on (R201). -/
def descTile (d : Desc) : Nat → Nat → Nat → Option CopyPos
  | 0, _, _ => none
  | fuel + 1, row, k =>
    let l := rowTiles d row (d.rowBytes + 1) 0
    match l[k]? with
    | some p => some p
    | none => descTile d fuel (row + 1) (k - l.length)

/-- How many copy tiles a descriptor has. -/
def descCount (d : Desc) : Nat := ((List.range d.rows).map (rowCount d)).sum

/-- The k-th tile of a copy: the slices in ascending order (R201). -/
def copyTileAt : List Desc → Nat → Option CopyPos
  | [], _ => none
  | d :: rest, k =>
    match descTile d d.rows 0 k with
    | some p => some p
    | none => copyTileAt rest (k - descCount d)

/-- The tokens of a VF (R216, R217): none where the bucket and the pool have too few, else the state with them drawn. A
tile's tokens are drawn at once, and they are borrowed only where the bucket holds none at all and the pool and what is left
of RATE/4 in this period give the whole cost: the model's choice (log entry 57). -/
def drawTokens (s : State) (n cost : Nat) : Option State :=
  let p := s.part n
  if n = 0 ∨ p.rate = 0 then some s
  else
    if cost ≤ p.bucket then some (s.putPart n { p with bucket := p.bucket - cost })
    else
      let need := cost - p.bucket
      if p.bucket = 0 ∧ need ≤ s.pool ∧ p.borrowed + need ≤ p.rate / 4 then
        some ({ s with pool := s.pool - need }.putPart n { p with borrowed := p.borrowed + need }
          |>.putDfield (aVfTok n) 32 24 (min (s.dfield (aVfTok n) 32 24 + need) (2 ^ 24 - 1)))
      else none

/-- The refill of every VF's bucket (R216, R217): at a refill a new RATE takes effect (R295). -/
def refillTokens (s : State) : State :=
  (List.range 64).foldl (fun s n =>
    let rate := s.dfield (aVfTok n) 0 24
    let s := s.putPart n { s.part n with rate := rate }
    if n = 0 ∨ rate = 0 then s
    else
      let p := s.part n
      let debt := s.dfield (aVfTok n) 32 24
      let back := min debt (rate / 2)
      let full := p.bucket + (rate - back)
      let keep := min full (8 * rate)
      { s with pool := min 1048576 (s.pool + back + (full - keep)) }.putPart n { p with bucket := keep, borrowed := 0 }
        |>.putDfield (aVfTok n) 32 24 (debt - back)) s

/-- A 32-byte record of partition n for the ring that register a names (R160, R296, R315), and whether it found room. -/
def ringRecord (s : State) (n a : Nat) (rec_ : List Byte) : Bool × State :=
  let q := s.dreg a
  let log := dfld q 57 6
  match vread false (some n) none 3 s (dfld q 0 57) 64 with
  | (.error _, s) => (false, s)
  | (.ok hdr, s) =>
    let cap := if log = 0 ∨ 20 < log then 0 else 2 ^ log
    (decide (num hdr 0 8 - num hdr 8 8 < cap),
     ringAppend hdr cap (fun s o l => (vwrite (some n) none 3 s (dfld q 0 57 + o) l).2) s rec_)

/-- The fault queue record of a suspension (R160). SEQ counts every record of the partition, also one that a full ring
drops; and the record of an operation of F level goes to partition 0's queue: the model's choices (log entry 57). -/
def faultRecord (s : State) (c : Copy) (va : Nat) (wr : Bool) : State :=
  let n := c.part
  let p := s.part n
  let s := s.putPart n { p with faultSeq := p.faultSeq + 1 }
  let launchId := (c.launch.bind fun l => (s.launch l).map fun x => x.launchId).getD 0xFFFFFFFF
  let source := match c.kind with
    | .copy => 0
    | .copyc => 1
    | .semsig _ _ _ => 2
    | .node _ _ => 3
  let rec_ := toBytes 8 (va / 65536 * 65536) ++ toBytes 4 launchId ++ toBytes 2 (c.core.getD 0xFFFF) ++
    toBytes 1 wr.toNat ++ toBytes 1 source ++ toBytes 8 (ptpNow s) ++ toBytes 4 p.faultSeq ++ zeros 4
  match ringRecord s n (aFaultq n) rec_ with
  | (true, s) => raiseEvent s n 2
  | (false, s) => s

/-- The clock of an operation's suspension (R161, R162): its partition's resident time; of one of F level, which acts for no
partition, the time. -/
def opNs (s : State) (c : Copy) : Nat := if c.requester.part.isNone then s.ns else residentNs s c.part

/-- A copy is suspended at a tile (R159, R160). -/
def suspend (s : State) (k : Nat) (c : Copy) (va : Nat) (wr : Bool) : State :=
  faultRecord (s.putCopy k { c with suspended := some (opNs s c) }) c va wr

/-- The translation of one copy tile (R159, R201): a status, with the address and direction of a page that is not present
(status 3); or the tile ready to be performed. -/
def aimTile (s : State) (c : Copy) (i : Nat) (p : CopyPos) : Except (Nat × Nat × Bool) LateTile × State :=
  match enginePage s c.requester p.src p.n false with
  | (.error e, s) => (.error (e, p.src, false), s)
  | (.ok (x, pa), s) =>
    match enginePage s c.requester p.dst p.n true with
    | (.error e, s) => (.error (e, p.dst, true), s)
    | (.ok (y, pb), s) =>
      if y.pte.typ = 0 ∧ !keyOk s ((overrideKey c p.desc).getD y.pte.key) then (.error (8, p.dst, true), s)
      else (.ok { idx := i, src := p.src, dst := p.dst, n := p.n, desc := p.desc, srcPage := x, srcAt := pa, dstPage := y
                  dstAt := pb, reads := sideParts x.pte pa p.n, writes := sideParts y.pte pb p.n, begun := false, buf := []
                  st := 0, wrote := false, logged := [] }, s)

/-- A failure of a tile's translation that fails this tile only (R147, R169, R202): a walk's TAG_FAIL or CHECK_FAIL. -/
def tileOnly (st : Nat) : Bool := st == 1 || st == 6

/-- The shape that R174 asks of a RESEAL copy's rows: both sides contiguous, aligned and whole tiles. -/
def resealShape (d : Desc) : Bool :=
  d.src.toNat % 2048 == 0 && d.dst.toNat % 2048 == 0 && d.rows * d.rowBytes % 2048 == 0 &&
  (d.rows == 1 || (d.sstride == d.rowBytes && d.dstride == d.rowBytes))

/-- Whether the tiles of a RESEAL copy from index i on are each one tile of HBM under valid keys (R174), as far as their
pages are present and their walks do not fail (R147). -/
def resealTiles (c : Copy) : Nat → State → Nat → Bool × State
  | 0, s, _ => (true, s)
  | fuel + 1, s, i =>
    match copyTileAt c.descs i with
    | none => (true, s)
    | some p =>
      match aimTile s c i p with
      | (.error (st, _), s) => if tileOnly st || st == 3 then resealTiles c fuel s (i + 1) else (false, s)
      | (.ok x, s) => if x.oneTile then resealTiles c fuel s (i + 1) else (false, s)

/-- The conditions of a RESEAL copy, judged at its first tile (R174). -/
def resealOk (s : State) (c : Copy) : Bool × State :=
  if c.descs.all resealShape then resealTiles c ((c.descs.map descCount).sum + 1) s 0 else (false, s)

/-- The end of a copy at the state of its tiles. -/
def finishCopy (s : State) (k : Nat) : State :=
  match s.copy k with
  | none => s
  | some c => completeCopy s k (copyOutcome c).1 (copyOutcome c).2

/-- A copy that has no further tile to translate and none to perform is complete. -/
def settleCopy (s : State) (k : Nat) (c : Copy) : State :=
  if c.late.isEmpty && (c.ended || (copyTileAt c.descs c.next).isNone) then finishCopy (s.putCopy k c) k
  else s.putCopy k c

/-- Copy k performs parts of tile x, which it has translated, by a free choice (R172, R183, R193). -/
def runTile (s : State) (k : Nat) (c : Copy) (x : LateTile) : State :=
  match performTile (fun p => Config.pick s.fresh (2 * p.2.1 + p.1.toNat) % 2 == 0) s.bump c x with
  | (x, s) => settleCopy s k (c.tileIs x)

/-- Run p is the first of a RESEAL copy in its tile, with which the whole tile is resealed (R174). -/
def resealsAt (p : CopyPos) : Bool := p.src % 2048 == 0

/-- Copy k translates its next tile (R159, R201): it is suspended where a page is not present and every earlier tile has
been performed. A walk's TAG_FAIL or CHECK_FAIL fails this tile only, of which nothing is then written (R147, R202; log entry
57); another failure ends the copy there. A translated tile is performed now or later, by a free choice (R193). -/
def nextTile (s : State) (k : Nat) (c : Copy) (p : CopyPos) : State :=
  if c.reseal && !resealsAt p then settleCopy s k { c with next := c.next + 1 }
  else
    match aimTile s c c.next p with
    | (.error (3, va, wr), s) =>
      match c.late with
      | [] => suspend s k c va wr
      | x :: _ => runTile s k c x
    | (.error (st, _), s) =>
      settleCopy s k { c with next := c.next + 1, ended := !tileOnly st, suspended := none, fail := firstFail c.fail st c.next }
    | (.ok x, s) =>
      let c' := { c with next := c.next + 1, late := c.late ++ [x], suspended := none }
      if c.reseal ∧ !x.oneTile then
        settleCopy s k { c with next := c.next + 1, ended := true, fail := firstFail c.fail 8 c.next }
      else if Config.pick s.fresh k % 2 = 0 then runTile s.bump k c' x else s.bump.putCopy k c'

/-- The tile of a copy that the engine comes to next, if any: not yet translated (R201). -/
def Copy.position (c : Copy) : Option CopyPos := if c.ended then none else copyTileAt c.descs c.next

/-- The translated tile that copy k performs next, where it performs one: a free choice, while it has others to translate
(R193). -/
def lateTurn (s : State) (k : Nat) (c : Copy) : Option LateTile :=
  if c.position.isNone ∨ Config.pick s.fresh k % 2 = 1 then c.late[Config.pick s.fresh k / 2 % c.late.length]? else none

/-- Copy k comes to its next tile, for which its tokens are drawn (R216). -/
def translateNext (s : State) (k : Nat) (c : Copy) : State :=
  match c.position with
  | none => finishCopy s k
  | some p =>
    match (if c.reseal ∧ c.next = 0 then resealOk s c else (true, s)) with
    | (false, s) => finishCopy (s.putCopy k { c with fail := some (8, 0) }) k
    | (true, s) =>
      match drawTokens s c.part (ceilDiv p.n 64) with
      | none => s
      | some s1 =>
        match aimTile s c c.next p with
        | (.error (3, _), _) => nextTile s k c p
        | _ => nextTile s1 k c p

/-- The engine takes copy k one tile further (R193, R201, R216): a translated tile that waits is performed, or the next is
translated. -/
def stepCopy (s : State) (k : Nat) (c : Copy) : State :=
  match lateTurn s k c with
  | some x => runTile s.bump k c x
  | none => translateNext s k c

/-- A 64-bit semaphore operation (R213). -/
def semValue (op : SemOp) (old operand : DWord) : DWord :=
  match op with
  | .set => operand
  | .add => old + operand
  | .or => old ||| operand
  | .maxU => if old.ult operand then operand else old

/-- A semaphore update (R172, R213): a status, and the state. A host completer may refuse the AtomicOps of ADD, OR and
MAX.U, by a free choice. ADD, OR and MAX.U read their page, so they need RD as well as WR, as R346 says of ATOM: the
model's choice (log entry 57). -/
def semUpdate (s : State) (r : Requester) (addr operand : DWord) (op : SemOp) : Nat × State :=
  if addr.toNat % 8 ≠ 0 then (8, s)
  else
    match enginePage s r addr.toNat 8 true with
    | (.error e, s) => (e, s)
    | (.ok (x, _), s) =>
      let refused := decide (x.pte.typ = 1 ∧ op ≠ .set) && Config.pick s.fresh addr.toNat % 2 == 1
      let s := s.bump
      if refused then (8, s)
      else if op = .set then engineWrite s r none addr.toNat (toBytes 8 operand.toNat)
      else
        match engineRead s r addr.toNat 8 with
        | (0, l, s) => engineWrite s r none addr.toNat (toBytes 8 (semValue op (BitVec.ofNat 64 (ofBytes l)) operand).toNat)
        | (st, _, s) => (st, s)

/-- The engine performs SEMSIG k (R213): it is suspended, or it completes. -/
def stepSemsig (s : State) (k : Nat) : State :=
  match s.copy k with
  | none => s
  | some c =>
    match c.kind with
    | .semsig addr operand op =>
      match drawTokens s c.part 1 with
      | none => s
      | some s1 =>
        match semUpdate s1 c.requester addr operand op with
        | (3, _) => suspend (semUpdate s c.requester addr operand op).2 k c addr.toNat true
        | (st, s2) => completeCopy s2 k st 0
    | _ => s

/-- A translation retry of suspended operation k (R161): where it succeeds, the operation goes on. -/
def retryCopy (s : State) (k : Nat) : State :=
  match s.copy k with
  | none => s
  | some c =>
    match c.kind with
    | .semsig addr _ _ =>
      match enginePage s c.requester addr.toNat 8 true with
      | (.error 3, s) => s
      | (_, s) => s.putCopy k { c with suspended := none }
    | _ =>
      match copyTileAt c.descs c.next with
      | none => s
      | some p =>
        match enginePage s c.requester p.src p.n false with
        | (.error 3, s) => s
        | (_, s) =>
          match enginePage s c.requester p.dst p.n true with
          | (.error 3, s) => s
          | (_, s) => s.putCopy k { c with suspended := none }

end Sys2Proof.Machine
end

