-- ==== Sys2Proof/Machine/Ingress.lean ====
section
/-! DEFINITION. The ingress port (R284 to R287): filters, the delivery of frames, and their recording (R289). -/

namespace Sys2Proof.Machine

/-- The VLAN test of a filter (R285). -/
def vlanMatches (cfg : DWord) (tci : Option (BitVec 16)) : Bool :=
  match dfld cfg 28 2 with
  | 0 => tci.isNone
  | 1 => match tci with | some x => x.toNat % 4096 == dfld cfg 16 12 | none => false
  | 2 => true
  | _ => false

/-- Filter n matches a frame (R284). -/
def filterMatches (s : State) (f : Frame) (n : Nat) : Bool :=
  let cfg := s.dreg (aIngFilt n)
  cfg.getLsbD 31 && dfld cfg 0 16 == f.dstPort.toNat && vlanMatches cfg f.tci

/-- The port accepts a frame (R284). -/
def frameAccepted (f : Frame) : Bool := f.goodFcs && f.oneTagAtMost && f.addressed && f.plainIp && f.goodUdp

/-- Frames dropped at a filter since its last delivery (R286). -/
def dropsOf (s : State) (n : Nat) : Nat := fget zeroNat s.ingDrops n

/-- Filter n drops a frame (R285, R286). -/
def dropFrame (s : State) (n : Nat) : State :=
  { s with ingDrops := fset zeroNat s.ingDrops n (dropsOf s n + 1) }.addDfield (aIngStat n) 32 16 1

/-- A delivery that cannot translate, seal or write its ring (R287). -/
def failFrame (s : State) (n : Nat) : State := (dropFrame s n).putDfield (aIngStat n) 48 1 1

/-- Frames delivered to a filter's ring: 64 bits, of which ING_STAT holds the lowest 32 (R285, R286). -/
def framesOf (s : State) (n : Nat) : Nat := fget zeroNat s.ingSeq n

/-- The pages of some addresses have RD for a partition (R286). -/
def pagesReadable (part : Nat) : List Nat → State → Bool × State
  | [], s => (true, s)
  | a :: l, s =>
    match xlate s (some part) none a false with
    | (.ok x, s) => if (rightsFail s (some part) x.pte false).isNone then pagesReadable part l s else (false, s)
    | (.error _, s) => (false, s)

/-- A descriptor (R286). -/
def frameDescriptor (time length filter seq src tci : Nat) (trunc : Bool) (drops : Nat) : List Byte :=
  toBytes 4 (time % 1000000000) ++ toBytes 6 (time / 1000000000) ++ toBytes 2 length ++ toBytes 2 filter ++ zeros 2 ++
  toBytes 8 seq ++ toBytes 2 src ++ toBytes 2 tci ++ toBytes 4 (1 + trunc.toNat * 2 + min drops 255 * 256)

/-- Where frame s of filter n goes (R286): its descriptor and its data. -/
def frameDesc (s : State) (n seq : Nat) : Nat :=
  s.dfield (aIngRing n) 0 57 + 32 * (seq % 2 ^ min 12 (s.dfield (aIngRctl n) 0 4))

def frameData (s : State) (n seq : Nat) : Nat :=
  s.dfield (aIngRing n) 0 57 + 4096 * s.dfield (aIngRctl n) 16 8 +
    slotBytes s n * (seq % 2 ^ min 12 (s.dfield (aIngRctl n) 0 4))

/-- A frame's slot: its payload cut to the slot, then zeros (R287). -/
def slotImage (s : State) (n : Nat) (payload : List Byte) : List Byte :=
  payload.take (slotBytes s n) ++ zeros (slotBytes s n - payload.length)

/-- A delivered frame is recorded for every job of the partition in record mode (R289). -/
def recordFrame (s : State) (n part : Nat) (desc slot : List Byte) : State :=
  (s.queues.map Prod.fst).foldl (fun s q =>
    if ownsQueue s part q then
      recordInput s q (recordHeader 2 n (s.queue q).accepted (zeros 8)) (desc ++ slot) else s) s

/-- The delivery of a frame to filter n's ring (R287), with the descriptor that it gets and its slot's bytes; its energy is
charged to the filter's partition (R310). -/
def deliverFrame (s : State) (n : Nat) (desc slot : List Byte) : State :=
  let part := s.dfield (aIngFilt n) 32 6
  let seq := framesOf s n
  let d := frameDesc s n seq
  let hold := !(s.dreg (aIngRctl n)).getLsbD 8
  let (full, s) := if hold then
      match vread false (some part) none 2 s (d + 28) 4 with
      | (.ok l, s) => (some (ofBytes l % 2 == 1), s)
      | (.error _, s) => (none, s)
    else (some false, s)
  let (readable, s) := pagesReadable part [d, frameData s n seq, frameData s n seq + slotBytes s n - 1] s
  let full := if readable then full else none
  match full with
  | none => failFrame s n
  | some true => dropFrame s n
  | some false =>
    match vwrite (some part) none 2 s (d + 28) (zeros 4) with
    | (.error _, s) => failFrame s n
    | (.ok _, s) =>
      match vwrite (some part) none 12 s (frameData s n seq) slot with
      | (.error _, s) => failFrame s n
      | (.ok _, s) =>
        match vwrite (some part) none 2 s d desc with
        | (.error _, s) => failFrame s n
        | (.ok _, s) =>
          let s := { s with ingDrops := fset zeroNat s.ingDrops n 0, ingSeq := fset zeroNat s.ingSeq n ((seq + 1) % 2 ^ 64) }.putDfield
            (aIngStat n) 0 32 (seq + 1)
          charge (recordFrame s n part desc slot) (some part)

/-- A recorded frame of a filter is being replayed, so wire frames for it are dropped (R290). -/
def filterReplayed (s : State) (n : Nat) : Bool :=
  (s.queues.map Prod.fst).any fun q =>
    replays s q (s.queue q).accepted && ownsQueue s (s.dfield (aIngFilt n) 32 6) q &&
    (findRecord q (fun h => num h 0 1 == 2 && num h 1 1 == n) (s.dfield (aRplySize q) 0 32) 0 s 0).1.isSome

/-- An accepted frame goes to the first filter that matches (R284, R287). -/
def receiveFrame (s : State) (f : Frame) : State :=
  if !frameAccepted f || f.ptp then s
  else
    match (List.range 256).find? (filterMatches s f) with
    | none => s
    | some n =>
      if filterReplayed s n then dropFrame s n
      else
        let seq := framesOf s n
        let desc := frameDescriptor (ptpNow s) f.payload.length n seq f.srcPort.toNat ((f.tci.map BitVec.toNat).getD 0)
          (decide (slotBytes s n < f.payload.length)) (dropsOf s n)
        deliverFrame s n desc (slotImage s n f.payload)

/-- INGRESS_FRAME (R284). -/
def execIngressFrame (f : Frame) (s : State) : Out := .next (receiveFrame s f)

end Sys2Proof.Machine
end

