-- ==== Sys2Proof/Machine/Kettle.lean ====
section
/-! DEFINITION. The kettle (R195, R250 to R254, R290, R320, R326): the acceptance of packets, their turns, cancels,
and the notify registers (R275, R276). -/

namespace Sys2Proof.Machine

/-! ## Slots and packets -/

/-- The slots of a queue's ring (R250). -/
def slotCount (s : State) (q : Nat) : Nat := 2 ^ (min 12 (s.dfield (aQctl q) 1 4) + 4)

/-- The kettle of queue q accepts packets: its queue is enabled and not in ERROR, its partition is connected, and it
is not gated (R250, R251, R304, R305, R326). -/
def kettleAccepts (s : State) (q : Nat) : Bool :=
  match partOfQueue s q with
  | some n => queueEn s q && queueState s q != 4 && decide (1 ≤ partState s n) && decide (partState s n ≤ 3) &&
      !(s.part n).gated
  | none => false

/-- The kettle of queue q starts packets and completes them: its queue is enabled and not in ERROR, its partition holds its
clusters, and it is not gated (R250, R251, R304, R305, R326). -/
def kettleRuns (s : State) (q : Nat) : Bool :=
  queueEn s q && queueState s q != 4 && partActive s (queuePart s q) && !(s.part (queuePart s q)).gated

/-- A packet's OPCODE, and whether BARRIER is set. -/
def Pkt.op (p : Pkt) : Nat := Sys2Proof.Machine.num p.bytes 0 1
def Pkt.barrier (p : Pkt) : Bool := Sys2Proof.Machine.num p.bytes 1 1 % 2 == 1

/-- Every byte of a range is zero. -/
def zeroRange (l : List Byte) (lo hi : Nat) : Bool := ((l.take hi).drop lo).all fun b => b == 0

/-- Reserved bytes and fields out of range (R253, R254), for packet n. -/
def packetOk (n : Nat) (l : List Byte) : Bool :=
  decide (num l 1 1 ≤ 1) && zeroRange l 4 8 && decide (num l 8 8 % 8 = 0) &&
  match num l 0 1 with
  | 0 => zeroRange l 16 60
  | 1 => zeroRange l 32 60
  | 2 => decide (num l 48 1 ≤ 3) && zeroRange l 49 60 && decide (fld (num l 36 4) 24 8 = 0)
  | 3 => decide (1 ≤ num l 24 2) && decide (num l 24 2 ≤ 4096) && zeroRange l 26 60 && decide (num l 16 8 % 64 = 0)
  | 4 => decide (num l 16 8 % 8 = 0) && decide (num l 40 1 ≤ 4) && zeroRange l 41 60
  | 5 => decide (num l 16 8 % 8 = 0) && decide (num l 32 1 ≤ 3) && zeroRange l 33 60
  | 6 => zeroRange l 16 60
  | 7 => decide (num l 16 1 ≤ 3) && zeroRange l 17 24 && zeroRange l 28 60 &&
      (decide (2 ≤ num l 16 1) || decide (num l 24 4 < n))
  | 8 => zeroRange l 24 60
  | _ => false

/-- Whether every packet before n has completed (R252, R253). -/
def allBefore (s : State) (q n : Nat) : Bool :=
  (s.queue q).pkts.all fun p => decide (n ≤ p.num) || p.state == .done

/-- The packet that blocks a queue (R253): a WAIT, a TIMEFENCE, a PHASE or a BARRIER that waits. -/
def blocker (s : State) (q : Nat) : List Pkt → Option Pkt
  | [] => none
  | p :: rest =>
    match p.state with
    | .waiting =>
      if (p.barrier && !allBefore s q p.num) || p.op == 4 || p.op == 8 then some p else blocker s q rest
    | .closing _ => some p
    | _ => blocker s q rest

/-- The blocking packet of queue q. -/
def blocking (s : State) (q : Nat) : Option Pkt := blocker s q (s.queue q).pkts

/-- A WAIT or a TIMEFENCE that blocks its queue and ends takes with it its semaphore's failed reads, or the time of its
arrival at the head (R253, R320). -/
def endWait (s : State) (q n : Nat) : State :=
  let x := s.queue q
  match blocking s q with
  | some p =>
    if p.num ≠ n then s
    else if p.op = 4 then s.putQueue q { x with semFail := none, semStalled := false }
    else if p.op = 8 then s.putQueue q { x with fenceSince := none }
    else s
  | none => s

/-- A packet completes with a word (R254). -/
def finishPacket (s : State) (q n : Nat) (compl : Nat) (word : DWord) : State :=
  packetDone (endWait (if compl % 8 = 0 then writeRecord s (queuePart s q) compl word else s) q n) q n

/-- The word of a packet that completes CANCELLED (R105, R253, R254). -/
def cancelledWord (op : Nat) : DWord := if op = 2 ∨ op = 5 then copyRecordWord 5 0 else 2

/-- Packet n of a queue is dealt with. -/
def mapPacket (s : State) (q n : Nat) (f : Pkt → Pkt) : State :=
  let x := s.queue q
  s.putQueue q { x with pkts := x.pkts.map fun (p : Pkt) => if p.num = n then f p else p }

/-! ## Graph tables (R214, R215) -/

/-- A node record, where its fields are in range for a table of n nodes. -/
def nodeOf (n : Nat) (l : List Byte) : Option Node :=
  let succ := (List.range 16).map fun j => num l (32 + 2 * j) 2
  let k := num l 4 2
  if num l 0 1 ≤ 1 ∧ num l 1 1 ≤ (if num l 0 1 = 1 then 3 else 0) ∧ num l 2 2 ≤ 4095 ∧ k ≤ 16 ∧ zeroRange l 6 8 ∧
      zeroRange l 16 32 ∧ (succ.drop k).all (fun x => x == 0) ∧ (succ.take k).all (fun x => decide (x < n)) then
    some { copy := num l 0 1 = 1, reseal := (num l 1 1).testBit 0, keyovr := (num l 1 1).testBit 1, count := num l 2 2
           ptr := BitVec.ofNat 64 (num l 8 8), succ := succ.take k, state := 0, unit := 0, record := [] }
  else none

/-- Reading a node table: the index and cause of the first node that cannot be read, or the nodes, none where one is
out of range. The kettle reads it from HBM pages only, and meets another page type as TARGET_TYPE: R215 names none, so that
is the model's choice (log entry 57). -/
def readNodes (part at_ n : Nat) : Nat → State → Except (Nat × Nat) (Option (List Node)) × State
  | 0, s => (.ok (some []), s)
  | k + 1, s =>
    let i := n - (k + 1)
    match vread false (some part) none 3 s (at_ + 64 * i) 64 with
    | (.error c, s) => (.error (i, readCause c), s)
    | (.ok l, s) =>
      match readNodes part at_ n k s with
      | (.error e, s) => (.error e, s)
      | (.ok rest, s) => (.ok ((nodeOf n l).bind fun x => rest.map fun y => x :: y), s)

/-- How many SUCC entries name each node. -/
def inDegree (nodes : List Node) (i : Nat) : Nat := (nodes.map fun x => (x.succ.filter fun k => k == i).length).sum

/-- Taking nodes without remaining predecessors away, until none is left: whether the order is acyclic (R215). -/
def acyclic : Nat → List Node → Bool
  | 0, nodes => nodes.all fun x => x.state == 2
  | fuel + 1, nodes =>
    match nodes.findIdx? fun x => x.state == 0 && x.count == 0 with
    | none => nodes.all fun x => x.state == 2
    | some i =>
      let succ := ((nodes[i]?).map fun x => x.succ).getD []
      acyclic fuel (nodes.mapIdx fun j (x : Node) =>
        if j = i then { x with state := 2 } else { x with count := x.count - (succ.filter fun k => k == j).length })

/-- A table keeps the rules of R215. -/
def tableOk (nodes : List Node) : Bool :=
  ((List.range nodes.length).all fun i => ((nodes[i]?).map fun x => x.count == inDegree nodes i).getD false) &&
  acyclic nodes.length nodes

/-! ## Acceptance -/

/-- A graph that a packet is to start (R100). -/
def packetGraph (s : State) (q n kind deadline : Nat) (compl : DWord) (nodes : List Node) : Graph :=
  let x := s.queue q
  { part := queuePart s q, queue := q, job := x.job, phase := 0, packet := n, deadline := deadline, order := s.nextUid
    nodes := nodes, counter := nodes.length, cancelling := false, decided := none, compl := compl, kind := kind
    copySt := (0, 0), seeds := 0 }

/-- The check of a packet that starts a unit (R94, R215, R253): the word it completes with, or its graph. -/
def prepare (s : State) (q n : Nat) (l : List Byte) : Except DWord Graph × State :=
  let part := queuePart s q
  let compl := BitVec.ofNat 64 (num l 8 8)
  let one (copy reseal keyovr : Bool) (rec_ : List Byte) : Node :=
    { copy := copy, reseal := reseal, keyovr := keyovr, count := 0, ptr := BitVec.ofNat 64 (num l 16 8), succ := []
      state := 0, unit := 0, record := rec_ }
  match num l 0 1 with
  | 1 =>
    if num l 16 8 % 64 ≠ 0 then (.error (statusWord 3 false 0 0 0 0), s)
    else
      match vread false (some part) none 3 s (num l 16 8) 64 with
      | (.error c, s) => (.error (statusWord 1 false (readCause c) 0 0 0), s)
      | (.ok r, s) =>
        if recordOk (num l 16 8) r && ((num l 24 8 != 0) == (launchClass s q r == 0)) then
          (.ok (packetGraph s q n 0 (num l 24 8) compl [one false false false r]), s)
        else (.error (statusWord 3 false 0 0 0 0), s)
  | 2 =>
    (.ok (packetGraph s q n 1 0 compl
      [one true ((num l 48 1).testBit 0) ((num l 48 1).testBit 1) ((l.drop 16).take 32)]), s)
  | _ =>
    match readNodes part (num l 16 8) (num l 24 2) (num l 24 2) s with
    | (.error (i, c), s) => (.error (statusWord 1 false c 0 i 0), s)
    | (.ok (some nodes), s) =>
      if tableOk nodes then (.ok (packetGraph s q n 2 0 compl nodes), s) else (.error (statusWord 3 false 0 0 0 0), s)
    | (.ok none, s) => (.error (statusWord 3 false 0 0 0 0), s)

/-- The number of packets below the tail that the kettle observes (R105, R251). -/
def tailCount (s : State) (q : Nat) : Nat :=
  let x := s.queue q
  x.accepted + (x.tail + 2 ^ 32 - x.accepted % 2 ^ 32) % 2 ^ 32

/-- A packet starts a unit: LAUNCH, COPY or GRAPH. -/
def Pkt.isUnit (p : Pkt) : Bool := p.op == 1 || p.op == 2 || p.op == 3

/-- The number below which the packets that wait belong to the current phase: the next PHASE packet's. -/
def phaseStop (x : Queue) : Nat :=
  ((x.pkts.find? fun p => p.op == 6 && p.state == .waiting).map fun p => p.num).getD x.accepted

/-- A cancelled phase or job of queue q that is done with what it had is no longer being cancelled (R104; log entry 37). -/
def endCancels (s : State) (q : Nat) : State :=
  let x := s.queue q
  let inPhase (ph : Nat) : Bool := ph == x.phase &&
    (fget zeroNat x.phases ph != 0 || x.pkts.any fun p => p.marked && p.state == .waiting && decide (p.num < phaseStop x))
  let inJob : Bool := !x.closed.isEmpty || fget zeroNat x.phases x.phase != 0 || decide (x.accepted < x.cancelTo) ||
    x.pkts.any fun p => decide (p.num < x.cancelTo) && p.state != .done
  s.putQueue q { x with phaseCancel := x.phaseCancel.filter inPhase, jobCancel := x.jobCancel && inJob }

/-- Cancelling a phase of a job (R100, R105): its graphs, and those of its packets that wait their turn. One that is already
being cancelled is not affected (R104). -/
def cancelPhase (s : State) (q job ph : Nat) : State :=
  let x := s.queue q
  let now := x.job == job && x.phase == ph
  if now && x.phaseCancel.contains ph then s
  else
    let s := if now then
        s.putQueue q { x with
          phaseCancel := x.phaseCancel ++ [ph]
          pkts := x.pkts.map fun (p : Pkt) =>
            if p.isUnit ∧ p.state = .waiting ∧ p.num < phaseStop x then { p with marked := true } else p }
      else s
    ((entries s.graphs).filter fun e => e.2.queue == q && e.2.job == job && e.2.phase == ph).foldl
      (fun s e => cancelGraph s e.1) s

/-- Cancelling a job (R105): its graphs, and every packet up to the tail that is observed. One that is already being cancelled
is not affected (R104). -/
def cancelJob (s : State) (q job : Nat) : State :=
  let x := s.queue q
  if x.job = job ∧ x.jobCancel then s
  else
    let s := if x.job = job then s.putQueue q { x with cancelTo := tailCount s q, jobCancel := true } else s
    ((entries s.graphs).filter fun e => e.2.queue == q && e.2.job == job).foldl (fun s e => cancelGraph s e.1) s

/-- A CANCEL packet acts at once (R253), and completes OK. -/
def cancelPacket (s : State) (q n : Nat) (l : List Byte) : State :=
  let x := s.queue q
  let s := match num l 16 1 with
    | 2 => cancelPhase s q x.job x.phase
    | 3 => cancelJob s q x.job
    | _ =>
      match x.pkts.find? fun p => p.num == num l 24 4 with
      | some p =>
        match p.state with
        | .running g => cancelGraph s g
        | .done => s
        | _ => if p.op = 6 ∨ p.op = 7 then s else mapPacket s q p.num fun p => { p with marked := true }
      | none => s
  finishPacket s q n (num l 8 8) 0

/-- The kettle accepts a packet of queue q (R252, R253): its number is drawn, HEAD rises (log entry 20), it is recorded
(R289), and it is checked; one that is refused completes, a CANCEL acts, and the others wait their turn. -/
def acceptPacket (s : State) (q : Nat) (l : List Byte) : State :=
  let n := (s.queue q).accepted
  let s := recordInput s q (recordHeader 1 0 n (zeros 8)) l
  let x := s.queue q
  let p : Pkt := { num := n, bytes := l, marked := false, graph := none, state := .waiting }
  let s := s.putQueue q { x with accepted := n + 1, firstRead := none, stalled := false, pkts := x.pkts ++ [p] }
  let s := s.putDfield (aQstat q) 0 32 (n + 1)
  if n < x.cancelTo then finishPacket s q n (num l 8 8) (cancelledWord p.op)
  else if !packetOk n l then finishPacket s q n (num l 8 8) 3
  else if p.op = 7 then cancelPacket s q n l
  else if p.isUnit then
    match prepare s q n l with
    | (.error w, s) => finishPacket s q n (num l 8 8) w
    | (.ok g, s) => mapPacket s.nextId q n fun p => { p with graph := some g }
  else s

/-! ## Turns -/

/-- A semaphore's condition (R253). -/
def waitHoldsFor (l : List Byte) (v : DWord) : Bool :=
  let x := v &&& BitVec.ofNat 64 (num l 32 8)
  let y := BitVec.ofNat 64 (num l 24 8)
  match num l 40 1 with
  | 0 => x == y
  | 1 => x != y
  | 2 => decide (y.toNat ≤ x.toNat)
  | 3 => decide (x.toNat < y.toNat)
  | _ => x != 0

/-- Reading the semaphore of the WAIT that blocks queue q (R253): it completes, or it goes on waiting. -/
def checkWait (s : State) (q : Nat) (p : Pkt) : State :=
  match engineRead s (kettleOf (queuePart s q)) (num p.bytes 16 8) 8 with
  | (0, l, s) =>
    let x := s.queue q
    let s := s.putQueue q { x with semFail := none, semStalled := false }
    if waitHoldsFor p.bytes (BitVec.ofNat 64 (ofBytes l)) then finishPacket s q p.num (num p.bytes 8 8) 0 else s
  | (_, _, s) =>
    let x := s.queue q
    s.putQueue q { x with semFail := x.semFail.or (some s.ns) }

/-- The pacing limit's move at a completed TIMEFENCE (R320). -/
def paceStep (s : State) (q time since : Nat) : State :=
  let n := queuePart s q
  let r := s.dreg (aPace n)
  if !r.getLsbD 0 ∨ dfld r 1 12 ≠ q then s
  else
    let p := s.part n
    match p.paceLast with
    | none => s.putPart n { p with paceLast := some time }
    | some last =>
      let len := time - last
      let slack := time - since
      let run := if len < 20 * slack then p.paceRun + 1 else 0
      let floor := min 8 (max 1 (dfld r 20 4))
      let pl := dfld r 16 4
      let may := decide (8 < p.paceSince + 1)
      let pl' := if may && decide (100 * slack < len) && decide (pl < 8) then pl + 1
        else if may && decide (3 ≤ run) && decide (floor < pl) then pl - 1 else pl
      let moved := pl' != pl
      (s.putPart n { p with paceLast := some time, paceRun := if moved then 0 else run
                            paceSince := if moved then 0 else min 8 (p.paceSince + 1) }).putDfield (aPace n) 16 4 pl'

/-- A TIMEFENCE completes (R253, R320). -/
def finishFence (s : State) (q : Nat) (p : Pkt) : State :=
  let time := num p.bytes 16 8
  let s := paceStep s q time (((s.queue q).fenceSince).getD (ptpNow s))
  let x := s.queue q
  finishPacket (s.putQueue q { x with fenceSince := none }) q p.num (num p.bytes 8 8) 0

/-- Packet p starts its graph in the current phase (R100). -/
def startPacket (s : State) (q : Nat) (p : Pkt) (g : Graph) : State :=
  let x := s.queue q
  let u := s.nextUid
  let s := s.nextId.putGraph u { g with phase := x.phase }
  let s := s.putQueue q { x with phases := fset zeroNat x.phases x.phase (fget zeroNat x.phases x.phase + 1) }
  settleGraphs (mapPacket s q p.num fun p => { p with state := .running u, graph := none })

/-- A PHASE packet at its turn closes the current phase (R100, R253). -/
def closePhase (s : State) (q : Nat) (p : Pkt) : State :=
  let x := s.queue q
  let s := s.putQueue q { x with phase := x.phase + 1
                                 closed := if fget zeroNat x.phases x.phase = 0 then x.closed else x.closed ++ [x.phase] }
  mapPacket s q p.num fun (p : Pkt) => { p with state := .closing x.phase }

/-- The turn of a packet that may start: what it does, or none where it waits and blocks the queue (R253). A SIGNAL
waits on its own. -/
def packetTurn (s : State) (q : Nat) (p : Pkt) : Option State :=
  match p.op with
  | 0 => some (finishPacket s q p.num (num p.bytes 8 8) 0)
  | 6 => some (closePhase s q p)
  | 8 => if replays s q p.num then some (finishFence s q p) else none
  | 4 => none
  | _ => p.graph.map fun g => startPacket s q p g

/-- The kettle goes through a queue's packets in order to the first that can do something (R105, R252, R253): it is
done, or it is cancelled, or it starts. -/
def turnOf (s : State) (q : Nat) : List Pkt → Option State
  | [] => none
  | p :: rest =>
    match p.state with
    | .waiting =>
      if p.num < (s.queue q).cancelTo ∨ p.marked then
        some (finishPacket s q p.num (num p.bytes 8 8) (cancelledWord p.op))
      else if p.barrier && !allBefore s q p.num then none
      else if p.op = 5 then turnOf s q rest
      else packetTurn s q p
    | .closing ph =>
      if (s.queue q).closed.contains ph then none else some (finishPacket s q p.num (num p.bytes 8 8) 0)
    | .suspended _ =>
      if p.num < (s.queue q).cancelTo ∨ p.marked then
        some (finishPacket s q p.num (num p.bytes 8 8) (cancelledWord p.op))
      else turnOf s q rest
    | .running _ => turnOf s q rest
    | .done => turnOf s q rest

/-- QSTAT_q.STATE as it stands (R250, R252, R253). -/
def showState (s : State) (q : Nat) : State :=
  let x := s.queue q
  if !queueEn s q then setQueueState s q 0
  else if queueState s q = 4 then s
  else if x.stalled ∨ x.semStalled then setQueueState s q 3
  else if (blocker s q x.pkts).isSome then setQueueState s q 2
  else if x.pkts.isEmpty ∧ x.tail = queueHead s q then setQueueState s q 0
  else setQueueState s q 1

/-- The kettle carries queue q as far as it goes, while its partition holds its clusters (R253, R304, R305). -/
def progress : Nat → State → Nat → State
  | 0, s, q => showState s q
  | fuel + 1, s, q =>
    let x := s.queue q
    let s := endCancels (s.putQueue q { x with pkts := x.pkts.filter fun (p : Pkt) => p.state != .done }) q
    if !kettleRuns s q then showState s q
    else
      match turnOf s q (s.queue q).pkts with
      | some s' => progress fuel s' q
      | none =>
        let fence := (blocker s q (s.queue q).pkts).any fun p => p.op == 8 && allBefore s q p.num
        let x := s.queue q
        let s := if fence && x.fenceSince.isNone then s.putQueue q { x with fenceSince := some (ptpNow s) } else s
        showState s q

/-- Every graph and every queue goes as far as it goes without waiting. -/
def settle (s : State) : State :=
  let s := settleGraphs s
  (s.queues.map Prod.fst).foldl (fun s q => progress (2 * (s.queue q).pkts.length + 2) s q) s

/-! ## Reading packets -/

/-- The accepted slot of packet n (R251, R252): its 64 bytes, where they can be read and match. -/
def readSlot (s : State) (q : Nat) : Option (List Byte) × State :=
  let n := (s.queue q).accepted
  match vread true (some (queuePart s q)) none 2 s (s.dfield (aQbase q) 0 57 + 64 * (n % slotCount s q)) 64 with
  | (.error _, s) => (none, s)
  | (.ok l, s) =>
    (if num l 2 2 = n % 65536 ∧ (crc32c (l.take 60)).toNat = num l 60 4 then some l else none, s)

/-- The replay of queue q has come to its buffer's end (R290): the kettle takes its next packets from the ring (log entry
59). -/
def endReplay (s : State) (q : Nat) : State :=
  let x := s.queue q
  s.putQueue q { x with replayEnd := some x.accepted }

/-- The next packet of a replayed job (R290): frames before it are delivered, and other records are passed over. The replay
ends where no record follows. -/
def replayNext (q : Nat) : Nat → State → Option (List Byte) × State
  | 0, s => (none, endReplay s q)
  | fuel + 1, s =>
    let used := s.dfield (aRplyStat q) 0 32
    let base := s.dfield (aRplyBase q) 0 57 + used
    let part := some (queuePart s q)
    if s.dfield (aRplySize q) 0 32 < used + 16 then (none, endReplay s q)
    else
      match vread false part none 3 s base 16 with
      | (.error _, s) => (none, s)
      | (.ok h, s) =>
        match recordLength s h with
        | none => (none, endReplay s q)
        | some n =>
          match vread false part none 12 s (base + 16) n with
          | (.error _, s) => (none, s)
          | (.ok l, s) =>
            let s := s.putDfield (aRplyStat q) 0 32 (used + 16 + roundUp n 16)
            if num h 0 1 = 1 then (some l, s)
            else if num h 0 1 = 2 then replayNext q fuel (deliverFrame s (num h 1 1) (l.take 32) (l.drop 32))
            else replayNext q fuel s

/-- The energy of the kettle's memory traffic for queue q is charged to its partition (R310). -/
def chargeKettle (s : State) (q : Nat) : State := charge s (some (queuePart s q))

/-- The kettle accepts the next packet of queue q where its OPCODE is among those named (R252, R253). A slot that is
not accepted is read again later. -/
def acceptNext (s : State) (q : Nat) (ops : Nat → Bool) : State :=
  if !kettleAccepts s q then s
  else if replays s q (s.queue q).accepted then
    match replayNext q (s.dfield (aRplySize q) 0 32 / 16) s with
    | (some l, s') => if ops (num l 0 1) then settle (acceptPacket s' q l) else s
    | (none, s') => s'
  else if (s.queue q).tail = queueHead s q then s
  else
    match readSlot s q with
    | (some l, s') => if ops (num l 0 1) then chargeKettle (settle (acceptPacket s' q l)) q else s
    | (none, s') =>
      let x := s'.queue q
      chargeKettle (showState (s'.putQueue q { x with firstRead := x.firstRead.or (some s'.ns) }) q) q

/-- The kettle re-reads the WAIT semaphore of queue q (R253), at a charge (R310). -/
def rereadWait (s : State) (q : Nat) : State :=
  match blocking s q with
  | some p =>
    if p.op = 4 ∧ kettleRuns s q ∧ !(p.barrier && !allBefore s q p.num) then
      settle (chargeKettle (checkWait s q p) q)
    else s
  | none => s

/-! ## Notify registers (R251, R275, R276, R326) -/

/-- The TAIL of a queue is set (R251): one beyond the slots stops the queue with ERROR. -/
def setTail (s : State) (q tail : Nat) : State :=
  let tail := tail % 2 ^ 32
  let x := s.queue q
  let s := s.putQueue q { x with tail := tail }
  if slotCount s q < (tail + 2 ^ 32 - queueHead s q) % 2 ^ 32 then
    raiseQueueEvent (setQueueState s q 4) (queuePart s q) 1 q
  else showState s q

/-- The device queue that offset o of function n's aperture names (R275). -/
def notifyQueue (s : State) (n o : Nat) : Option Nat :=
  let p := o / 4096
  let i := o % 4096 / 8
  let m := (s.dreg (aNqmap p n)).toNat
  let j := fld m 0 12 + i
  if m.testBit 31 ∧ i < min 512 (fld m 12 10) ∧ j < s.dfield (aVfQueues n) 16 13 then
    some (s.dfield (aVfQueues n) 0 12 + j) else none

/-- A failed notify access (R276). -/
def notifyFail (s : State) (n : Nat) : State := s.addDfield (aNqdrop n) 0 32 1

/-- The wake bits of an agent's core are set for a CLWAKE event (R325, R326, R334). -/
def sendClwake (s : State) (core : Nat) : State := setWake s core 2

/-- A notify store at offset o of function n's aperture (R251, R275, R276, R326). -/
def notifyStore (s : State) (n o : Nat) (v : DWord) : State :=
  match notifyQueue s n o with
  | none => notifyFail s n
  | some q =>
    if (s.part n).gated then
      let x := s.queue q
      let s := s.putQueue q { x with latched := some (dfld v 0 32) }
      if (s.dreg (aNqlatch n)).getLsbD 0 then
        (s.addDfield (aNqlatch n) 16 16 1).putDfield (aNqlatch n) 1 1 1
      else sendClwake (s.putDfield (aNqlatch n) 0 1 1) (s.dfield (aNqlatch n) 32 9)
    else setTail s q (dfld v 0 32)

/-- A notify load (R251, R276). -/
def notifyLoad (s : State) (n o : Nat) : DWord × State :=
  match notifyQueue s n o with
  | none => (0, notifyFail s n)
  | some q => (BitVec.ofNat 64 ((s.queue q).tail + queueHead s q * 2 ^ 32), s)

/-- The kettle of partition n is ungated, and applies every latched TAIL (R326). -/
def ungate (s : State) (n : Nat) : State :=
  let qs := (s.queues.map Prod.fst).filter fun q => ownsQueue s n q
  let s := s.putPart n { s.part n with gated := false }
  let s := qs.foldl (fun s q =>
    match (s.queue q).latched with
    | some t =>
      let x := s.queue q
      setTail (s.putQueue q { x with latched := none }) q t
    | none => s) s
  s.putDfield (aNqlatch n) 0 1 0

/-! ## Queue control (R250) -/

/-- A queue starts a new job (R250). -/
def newJob (s : State) (q : Nat) : State :=
  (s.putQueue q { Queue.init with job := (s.queue q).job + 1 }).putDfield (aQstat q) 0 35 0

/-- A write to QCTL_q (R250): SIZE stands while EN is 1; a rising EN starts a new job. -/
def writeQctl (s : State) (q : Nat) (v : DWord) : State :=
  let old := s.dreg (aQctl q)
  let mask : DWord := if old.getLsbD 0 then 0x7E1 else 0x7FF
  let s := s.putDreg (aQctl q) (merge mask old v)
  if v.getLsbD 0 && !old.getLsbD 0 then newJob s q
  else if !v.getLsbD 0 then setQueueState s q 0
  else s

/-- The kettle consumes without effect the packets of a queue below a cancelled job's tail (R105). -/
def consumeTail : Nat → State → Nat → State
  | 0, s, _ => s
  | fuel + 1, s, q =>
    let x := s.queue q
    if x.cancelTo ≤ x.accepted then s
    else
      match readSlot s q with
      | (some l, s) => consumeTail fuel (acceptPacket s q l) q
      | (none, s) => s

/-- The job of a queue is cancelled as a whole, whatever its partition's state (R105, R300, R307): its graphs, its waiting
packets, and those up to the tail that is observed, which complete CANCELLED. -/
def cancelWhole (s : State) (q : Nat) : State :=
  let s := settleGraphs (cancelJob s q (s.queue q).job)
  let s := (s.queue q).pkts.foldl (fun s p =>
    match p.state with
    | .closing _ => finishPacket s q p.num (num p.bytes 8 8) 0
    | .waiting | .suspended _ => finishPacket s q p.num (num p.bytes 8 8) (cancelledWord p.op)
    | _ => s) s
  consumeTail (slotCount s q + 1) s q

/-! ## The meanings -/

/-- LAUNCH_PACKET (R253). -/
def execLaunchPacket (q : Nat) (s : State) : Out := .next (acceptNext s q fun o => o == 1)

/-- COPY_PACKET (R253). -/
def execCopyPacket (q : Nat) (s : State) : Out := .next (acceptNext s q fun o => o == 2)

/-- GRAPH_PACKET (R215). -/
def execGraphPacket (q : Nat) (s : State) : Out := .next (acceptNext s q fun o => o == 3)

/-- WAIT_PACKET (R253): where it is the queue's turn, the semaphore is read at once. -/
def execWaitPacket (q : Nat) (s : State) : Out := .next (rereadWait (acceptNext s q fun o => o == 4) q)

/-- SIGNAL_PACKET (R253). -/
def execSignalPacket (q : Nat) (s : State) : Out := .next (acceptNext s q fun o => o == 5)

/-- The operation of a SIGNAL packet (R253). -/
def signalOp (l : List Byte) : SemOp :=
  match num l 32 1 with
  | 0 => .set
  | 1 => .add
  | 2 => .or
  | _ => .maxU

/-- SIGNAL n of queue q as an operation of the copy engine, for its fault record (R160). -/
def signalCopy (s : State) (q : Nat) (l : List Byte) : Copy :=
  { kind := .semsig (BitVec.ofNat 64 (num l 16 8)) (BitVec.ofNat 64 (num l 24 8)) (signalOp l), part := queuePart s q
    priv := 0, launch := none, core := none, wg := none, team := none, descs := [], reseal := false, keyovr := false
    arrive := false, nb := 0, attached := false, next := 0, late := [], ended := false, wrote := false, fail := none
    suspended := none, saved := false }

/-- The kettle of partition n reads its WAIT semaphores again, as at every SIGNAL and SEMSIG (R253). -/
def rereadAll (s : State) (n : Nat) : State :=
  ((s.queues.map Prod.fst).filter (ownsQueue s n)).foldl rereadWait s

/-- SIGNAL n of queue q, where it may update its semaphore: the kettle runs, and its earlier packets have all completed
(R253). -/
def signalReady (s : State) (q n : Nat) : Option Pkt :=
  ((s.queue q).pkts.find? fun p => p.num == n).filter fun p =>
    p.op == 5 && p.state != .done && !p.marked && allBefore s q n && kettleRuns s q

/-- A SIGNAL p updates its semaphore (R213, R253, R254): where the translation is not present, it is suspended and tried
again, for 100 ms (R159, R161). -/
def performSignal (s : State) (q n : Nat) (p : Pkt) : State :=
  let l := p.bytes
  match semUpdate s (kettleOf (queuePart s q)) (BitVec.ofNat 64 (num l 16 8)) (BitVec.ofNat 64 (num l 24 8)) (signalOp l) with
  | (3, s') =>
    match p.state with
    | .suspended t0 =>
      if t0 + 100000000 ≤ residentNs s' (queuePart s' q) then settle (finishPacket s' q n (num l 8 8) (copyRecordWord 3 0)) else s'
    | _ =>
      faultRecord (mapPacket s' q n fun p => { p with state := .suspended (residentNs s' (queuePart s' q)) }) (signalCopy s q l) (num l 16 8) true
  | (st, s') => rereadAll (settle (finishPacket s' q n (num l 8 8) (copyRecordWord st 0))) (queuePart s q)

/-- SIGNAL_PERFORM (R253), whose energy is charged (R310). -/
def execSignalPerform (q n : Nat) (s : State) : Out :=
  match signalReady s q n with
  | some p => .next (chargeKettle (performSignal s q n p) q)
  | none => .next s

/-- PHASE_PACKET (R253). -/
def execPhasePacket (q : Nat) (s : State) : Out := .next (acceptNext s q fun o => o == 6)

/-- CANCEL_PACKET (R253). -/
def execCancelPacket (q : Nat) (s : State) : Out := .next (acceptNext s q fun o => o == 7)

/-- TIMEFENCE_PACKET (R253). -/
def execTimefencePacket (q : Nat) (s : State) : Out := .next (acceptNext s q fun o => o == 8)

/-- TIMEFENCE_RELEASE (R253). -/
def execTimefenceRelease (q : Nat) (s : State) : Out :=
  match blocking s q with
  | some p =>
    if p.op = 8 ∧ kettleRuns s q ∧ !(p.barrier && !allBefore s q p.num) ∧ num p.bytes 16 8 ≤ ptpNow s then .next (settle (finishFence s q p))
    else .next s
  | none => .next s

/-- NOP_PACKET (R253). -/
def execNopPacket (q : Nat) (s : State) : Out := .next (acceptNext s q fun o => o == 0)

/-- UNDEFINED_OPCODE_PACKET (R253). -/
def execUndefinedOpcodePacket (q : Nat) (s : State) : Out := .next (acceptNext s q fun o => decide (8 < o))

/-- PACKET_REREAD (R252). -/
def execPacketReread (q : Nat) (s : State) : Out :=
  if (s.queue q).firstRead.isSome then .next (acceptNext s q fun _ => true) else .next s

/-- QUEUE_STALL (R252). -/
def execQueueStall (q : Nat) (s : State) : Out :=
  let x := s.queue q
  match x.firstRead with
  | some t0 =>
    if t0 + 1000000 ≤ s.ns ∧ !x.stalled ∧ kettleAccepts s q then
      .next (showState (raiseQueueEvent (s.putQueue q { x with stalled := true }) (queuePart s q) 0 q) q)
    else .next s
  | none => .next s

/-- WAIT_REREAD (R253). -/
def execWaitReread (q : Nat) (s : State) : Out := .next (rereadWait s q)

/-- WAIT_SEM_STALL (R253). -/
def execWaitSemStall (q : Nat) (s : State) : Out :=
  let x := s.queue q
  match x.semFail with
  | some t0 =>
    if t0 + 1000000 ≤ s.ns ∧ !x.semStalled ∧ kettleRuns s q ∧ (blocking s q).any (fun p => p.op == 4) then
      .next (showState (raiseQueueEvent (s.putQueue q { x with semStalled := true }) (queuePart s q) 0 q) q)
    else .next s
  | none => .next s

/-- NOTIFY_STORE (R251, R275). -/
def execNotifyStore (fn o : Nat) (v : DWord) (s : State) : Out := .next (notifyStore s fn o v)

/-- KETTLE_UNGATE (R326). -/
def execKettleUngate (n : Nat) (s : State) : Out :=
  if (s.part n).gated && (s.dreg (aNqlatch n)).getLsbD 0 then .next (settle (ungate s n)) else .next s

/-- QCTL_WRITE (R250). -/
def execQctlWrite (q : Nat) (v : DWord) (s : State) : Out := .next (settle (writeQctl s q v))

end Sys2Proof.Machine
end

