-- ==== Sys2Proof/Machine/Ops.lean ====
section
/-! DEFINITION. The shared operations of a team's words: starting a team (R95), taking a trap and returning from
one (R106 to R110), the firmware agents' restart and tickets (R329, R330), and the wrappers that the meanings of
the words share. -/

namespace Sys2Proof.Machine

/-! ## Starting a team -/

/-- The stochastic generator of a lane at team start (R225). -/
def startSr (seed wgid : Word) (teamId lane : Nat) : Word :=
  let s := seed ^^^ (0x9E3779B9#32 * BitVec.ofNat 32 (wgid.toNat * 65536 + teamId * 1024 + lane + 1))
  if s = 0 then 0x6C078965#32 else s

/-- A team in the start state of R95: of launch l (number lid), in workgroup g. -/
def startTeam (l : Launch) (lid g teamId lanes nregs window : Nat) (entry args : DWord) (wgid : Word) (order : Nat)
    (agent : Bool) : Team :=
  let base := frameRegion + 2 ^ 32 * window
  { wg := g, launch := lid, teamId := teamId, lanes := lanes, nregs := nregs
    regs := fsets zeroWord [] ((List.range lanes).flatMap fun i =>
      [(regKey 0 i, args.extractLsb' 0 32), (regKey 1 i, args.extractLsb' 32 32)])
    d := [], b := []
    sr := fsets zeroWord [] ((List.range lanes).map fun i => (i, startSr l.seed wgid teamId i))
    fmt := [], fpstat := 0, seed := l.seed
    fb := BitVec.ofNat 64 base, fsp := BitVec.ofNat 64 base, window := window, framesz := l.framesz
    frame := [], frameBad := [], refs := [], head := 0
    tcause := 0, tpc := 0, taddr := 0, tinfo := 0, trapvec := l.trapvec, inHandler := false, savedD := [], savedB := []
    noticeEn := false, noticeFold := false, noticeCancel := false, cancelAt := none
    priv := l.priv, rlvl := 0, lastRlvl := 0, stamps := [], evicted := [], passOut := [], spill := []
    clauseSeq := 0
    pc := entry, resume := 0, clause := none, slot := 0, park := .none, pend := [], nextWord := 0, stores := []
    storeGate := [], loads := [], status := .running, pauseEnd := 0
    issueAt := 0, reads := 0, agent := agent, order := order, copycs := 0, doneSem := none }

/-! ## Firmware agents -/

/-- The record that a firmware agent runs, in the form of a launch: F level, no LAUNCHID (R92, R330). -/
def agentLaunch (entry trapvec args sliceStore : DWord) (sliceSz : Nat) (seed : Word) : Launch :=
  { part := 0, queue := 0, graph := 0, node := 0, launchId := 0xFFFFFFFF, entry := entry, trapvec := trapvec
    args := args, sliceStore := sliceStore, sliceSz := sliceSz, seed := seed, framesz := 65536, cls := 0, rank := 64
    ophint := 0, deadline := 0, order := 0, priv := 2, pending := [], counter := 1, cancelling := false
    failure := none, held := false, hintHold := none, seedCore := none, admitted := 0, packet := 0 }

/-- The launch of an idle agent: the image's AGENT_ENTRY, with v0.p = 0 (R329). -/
def idleLaunch (s : State) : Launch := agentLaunch s.agentEntry 0 0 0 0 0

/-- Agent u starts a record, in the start state of R95, with sharedSz bytes of shared memory; it keeps its core's wake bits
(R329, R330). -/
def startAgent (s : State) (u : Nat) (l : Launch) (sharedSz : Nat) (sem : Option DWord) : State :=
  match s.team u with
  | none => s
  | some t =>
    let s := (invalidateAll (drainAll s u) t.wg).putLaunch t.launch l
    let s := s.putTeam u { startTeam l t.launch t.wg 0 4 32 t.window l.entry l.args 0 t.order true with doneSem := sem }
    match s.wg t.wg with
    | some w => s.putWg t.wg { w with bars := [], sharedSz := sharedSz, shared := [], sharedBad := [] }
    | none => s

/-- A semaphore update that firmware hands to the copy engine of an agent's core (R213, R330). -/
def postSemsig (s : State) (core g : Nat) (addr operand : DWord) (op : SemOp) : State :=
  s.nextId.putCopy s.nextUid
    { kind := .semsig addr operand op, part := 0, priv := 2, launch := none, core := some core, wg := some g
      team := none, descs := [], reseal := false, keyovr := false, arrive := false, nb := 0, attached := false
      next := 0, late := [], ended := false, wrote := false, fail := none, suspended := none, saved := false }

/-- The signals on DONESEM (R330): ADD of 1, and OR of bit 63 where the record failed. -/
def signalDone (s : State) (core g : Nat) (sem : DWord) (failed : Bool) : State :=
  if sem = 0 then s
  else
    let s := postSemsig s core g sem 1 .add
    if failed then postSemsig s core g sem 0x8000000000000000#64 .or else s

/-- The ticket block, in core 0's scratchpad slice (R330). -/
def ticketAt (o : Nat) : Nat := 0xF000 + o

/-- The idle agents of ON clusters: agents that run no record (R330). -/
def idleAgents (s : State) : List (Nat × Team) :=
  (entries s.teams).filter fun e => e.2.agent && e.2.doneSem.isNone && clState s (teamCore s e.2 / 4) == 0

/-- The launch of a record that an agent runs (R330), from its 64 bytes at addr: as a seed would run it, so the checks of
R94 hold of it. None where its shape is another. -/
def recordLaunch (addr : Nat) (l : List Byte) : Option Launch :=
  if recordOk addr l ∧ num l 36 2 = 4 ∧ num l 38 1 = 32 ∧ num l 39 1 = 1 then
    some { agentLaunch (BitVec.ofNat 64 (num l 0 8)) (BitVec.ofNat 64 (num l 8 8)) (BitVec.ofNat 64 (num l 16 8))
      (BitVec.ofNat 64 (num l 24 8)) (num l 52 4) (BitVec.ofNat 32 (num l 32 4)) with
        framesz := if num l 44 4 = 0 then 65536 else num l 44 4 }
  else none

/-- Idle agents claim tickets while HEAD is below TAIL (R330). A record that cannot be read, or whose shape is
another, is not run; its semaphore is signalled as failed. Which idle agent claims is a free choice. -/
def claimTickets : Nat → State → State
  | 0, s => s
  | fuel + 1, s =>
    let tail := ofBytes (Memory.read s.scratch (ticketAt 0) 8)
    let head := ofBytes (Memory.read s.scratch (ticketAt 8) 8)
    let idle := idleAgents s
    if tail ≤ head then s
    else
      match idle[Config.pick s.fresh 0 % idle.length]? with
      | none => s
      | some (u, t) =>
        let core := teamCore s t
        let tk := ticketAt (64 * (1 + head % 63))
        let rec_ := ofBytes (Memory.read s.scratch tk 8)
        let sem := BitVec.ofNat 64 (ofBytes (Memory.read s.scratch (tk + 8) 8))
        let s := { s.bump with scratch := Memory.write s.scratch (ticketAt 8) (toBytes 8 (head + 1)) }
        let (st, l, s) := if rec_ % 64 = 0 then engineRead s { part := none, core := some core, wg := some t.wg } rec_ 64
          else (8, [], s)
        match (if st = 0 then recordLaunch rec_ l else none) with
        | some x => claimTickets fuel (startAgent s u x (num l 40 4) (some sem))
        | none => claimTickets fuel (signalDone s core t.wg sem true)

/-- An agent restarts, after EXIT or after a trap with no handler (R329, R330): it signals, is idle again, and may
claim the next ticket. -/
def restartAgent (s : State) (u : Nat) (failed : Bool) : State :=
  match s.team u with
  | none => s
  | some t =>
    let core := teamCore s t
    let s := startAgent s u (idleLaunch s) 0 none
    let s := match t.doneSem with
      | some sem => signalDone s core t.wg sem failed
      | none => s
    claimTickets 64 s

/-! ## Traps -/

/-- TINFO as R107 lays it out. -/
def tinfoWord (slot : Nat) (async_ : Bool) (detail : Nat) : Word :=
  BitVec.ofNat 32 (slot % 16 + async_.toNat * 256 + detail % 65536 * 65536)

/-- The trap registers written (R107 step 1). -/
def Team.trapRegs (t : Team) (cause : Nat) (tpc : DWord) (slot : Nat) (addr : DWord) (async_ : Bool) (detail : Nat) :
    Team :=
  { t with tcause := BitVec.ofNat 32 cause, tpc := tpc, taddr := addr, tinfo := tinfoWord slot async_ detail }

/-- The counters saved and zeroed, the in-handler state set, and the clause at TRAPVEC next (R107 steps 2 to 4); the
pause ends (R428). -/
def Team.enterHandler (t : Team) : Team :=
  { t with savedD := t.d, savedB := t.b, d := [], b := [], inHandler := true, pauseEnd := 0 }.goto t.trapvec

/-- Team u traps (R107): it enters its handler; with TRAPVEC 0, or inside its handler, it is stopped and its launch
fails (R106, R109), or a firmware agent restarts (R330). -/
def takeTrap (s : State) (u : Nat) (cause : Nat) (tpc : DWord) (slot : Nat) (addr : DWord) (async_ : Bool)
    (detail : Nat) : State :=
  match s.team u with
  | none => s
  | some t =>
    let t' := t.trapRegs cause tpc slot addr async_ detail
    if t.inHandler ∨ t.trapvec = 0 then
      if t.agent then restartAgent (s.putTeam u t') u true
      else
        failLaunch (teamLeaves (s.putTeam u t') u .stopped) t.launch 1 t.inHandler cause
          (((s.wg t.wg).map fun w => w.wgid).getD 0)
    else s.putTeam u t'.enterHandler

/-- A cause that the word at the team's slot raises (R66, R109). -/
def wordTrap (s : State) (t : Team) (c : Clause) (cause : Nat) (addr : DWord) : Out :=
  .next (takeTrap s s.cur cause c.addr (t.slot + 1) addr false 0)

/-- The trap of a failed access (R157, R176): a check word that fails writes a seal log record. -/
def accessTrap (s : State) (t : Team) (c : Clause) (cause va : Nat) : Out :=
  if cause = checkWordCause then wordTrap (checkLog s (teamPart s t) (va / 64)) t c 9 (BitVec.ofNat 64 va)
  else wordTrap s t c cause (BitVec.ofNat 64 va)

/-- The trap of TRAP and BKPT (R109): it resumes at the word that follows. The word has issued, so its SWITCH bit
parks the team (R62). -/
def trapAfter (s : State) (t : Team) (c : Clause) (cause detail : Nat) : Out :=
  let s := s.putTeam s.cur (t.switchPark c)
  if t.slot + 1 < c.count then .next (takeTrap s s.cur cause c.addr (t.slot + 2) 0 false detail)
  else .next (takeTrap s s.cur cause c.follow 0 0 false detail)

/-- The return from a handler (R110): the saved counters and flags come back, and the clause at TPC follows, from
the slot that TINFO.SLOT names. -/
def Team.returnFromTrap (t : Team) (c : Clause) : Team :=
  let t' := { t.switchPark c with d := t.savedD, b := t.savedB, inHandler := false }.goto t.tpc
  { t' with resume := (t.tinfo.extractLsb' 0 4).toNat }

/-! ## Words -/

/-- A word of len slots that computes nothing: the team goes on. -/
def skipWord (s : State) (len : Nat) : Out :=
  withTeam s fun t c => .next (s.putTeam s.cur (t.advance c len))

/-- A per-lane ALU word of len slots that writes d in every active lane (R59, R89): f reads with the key of the
free choices of R63. -/
def laneWord (s : State) (len : Nat) (d : Code) (f : Nat → Team → Nat → Word) : Out :=
  withTeam s fun t c => .next (s.bump.putTeam s.cur ((t.putActive d.toNat (f s.fresh t)).advance c len))

/-- A per-lane ALU word that writes a pair. -/
def pairWord (s : State) (len : Nat) (d : Code) (f : Nat → Team → Nat → DWord) : Out :=
  withTeam s fun t c => .next (s.bump.putTeam s.cur ((t.putPair d.toNat (f s.fresh t)).advance c len))

/-- A per-lane word of one source. -/
def unaryWord (s : State) (d a : Code) (f : Word → Word) : Out :=
  laneWord s 1 d fun k t l => f (src k t a l)

/-- A per-lane word of two sources. -/
def binaryWord (s : State) (d a b : Code) (f : Word → Word → Word) : Out :=
  laneWord s 1 d fun k t l => f (src k t a l) (src k t b l)

/-- A per-lane word of two sources with an extension word. -/
def binaryExtWord (s : State) (d a b : Code) (f : Word → Word → Word) : Out :=
  laneWord s 2 d fun k t l => f (src k t a l) (src k t b l)

/-- A per-lane word whose second source is an X.L literal (R75). -/
def literalWord (s : State) (d a : Code) (lit : Word) (f : Word → Word → Word) : Out :=
  laneWord s 2 d fun k t l => f (src k t a l) lit

/-- A per-lane word of three sources, with an extension word (R76). -/
def ternaryWord (s : State) (d a b c : Code) (f : Word → Word → Word → Word) : Out :=
  laneWord s 2 d fun k t l => f (src k t a l) (src k t b l) (src k t c l)

/-- A team-level word of len slots: skipped whole with no active lane (R127), else k with the lowest active lane. -/
def teamWord (s : State) (len : Nat) (k : Team → Clause → Nat → Out) : Out :=
  withTeam s fun t c =>
    match t.lowest with
    | none => .next (s.putTeam s.cur (t.advance c len))
    | some l => k t c l

end Sys2Proof.Machine
end

