-- ==== Sys2Proof/Machine/Sched.lean ====
section
/-! DEFINITION. Room on a core (R101, R129, R309), the dispatcher (R94, R98, R99, R255 to R257), pre-emption requests
(R259), folding (R260 to R265), and the save and restore of a workgroup (R264, R308). -/

namespace Sys2Proof.Machine

/-! ## Room -/

/-- The workgroups of users that are resident on a core. -/
def residentsOf (s : State) (core : Nat) : List (Nat × Workgroup) :=
  (entries s.wgs).filter fun e => !e.2.agent && !e.2.saved && e.2.core == core

/-- The room that outstanding requests have taken on a core, but for launch l's own (R259). -/
def heldRoom (s : State) (core l : Nat) : Room :=
  (s.reqs.filter fun r => r.core == core && !(r.source == 0 && r.launch == l)).foldl (fun a r => a.add (r.idle s)) Room.zero

/-- The room of a core that is free for a workgroup of launch l (R101). -/
def freeRoom (s : State) (core l : Nat) : Room :=
  let used := (residentsOf s core).foldl (fun r e => r.add (wgRoom s e.2)) (heldRoom s core l)
  Room.sub { ctx := 4064, regs := 130048, lmem := 752 * 1024 } used

/-- The user team slots of a core that are free (R101). -/
def freeSlots (s : State) (core : Nat) : Nat := 63 - ((residentsOf s core).map fun e => e.2.teams.length).sum

/-- The rank of a team: its launch's (R255). -/
def launchRankOf (s : State) (l : Nat) : Nat := ((s.launch l).map fun x => x.rank).getD 0

/-- The running user teams on a core. -/
def coreTeams (s : State) (core : Nat) : List (Nat × Team) :=
  (residentsOf s core).flatMap fun e => e.2.teams.filterMap fun u =>
    (s.team u).bind fun t => if t.status = .running then some (u, t) else none

/-- The tenant switch of partition n is under way: a slice-end request is outstanding on a cluster of its (R259, R305). -/
def switching (s : State) (n : Nat) : Bool := s.reqs.any fun r => r.source == 1 && ownsCluster s n (r.core / 4)

/-- A core of partition n takes a workgroup of a rank: its cluster is ON, the partition's slice has not ended, and no folded
team of that rank or above waits to expand there (R263, R305, R326). -/
def coreOpen (s : State) (n rank core : Nat) : Bool :=
  partActive s n && !switching s n && ownsCluster s n (core / 4) && clState s (core / 4) == 0 &&
  (coreTeams s core).all fun e => e.2.rlvl == 0 || decide (launchRankOf s e.2.launch < rank)

/-! ## Matrix reservations (R232, R233) -/

/-- The streams of a cluster that hold a table entry. -/
def entriesOf (s : State) (cluster : Nat) : List (Nat × Stream) :=
  (entries s.streams).filter fun e => e.2.cluster == cluster &&
    !(((s.wg e.2.wg).map fun w => w.saved).getD false)

/-- The operand slots of a cluster that no admitted stream has reserved. -/
def freeOpSlots (s : State) (cluster : Nat) : Nat :=
  512 - (((entriesOf s cluster).filter fun e => e.2.admitted).map fun e => e.2.s).sum

/-- The accumulator tiles of a core that no window holds, but for workgroup g's. -/
def freeTiles (s : State) (core g : Nat) : Nat :=
  768 - (((entries s.wgs).filter fun e => e.1 != g && !e.2.saved && e.2.core == core).map fun e =>
    (e.2.window.map fun x => x.w).getD 0).sum

/-! ## Folding -/

/-- Some result is outstanding for a register. -/
def Team.outstanding (t : Team) (r : Nat) : Bool := t.pend.any fun p => p.reg == r

/-- The stamp of a register: the sequence number of the last clause that touched it (R261). -/
def Team.stamp (t : Team) (r : Nat) : Nat := fget zeroNat t.stamps r

/-- The coldest resident registers that may be evicted (R261). -/
def Team.coldest (t : Team) : List Nat :=
  sortBy (fun a b => decide (t.stamp a < t.stamp b) || (t.stamp a == t.stamp b && decide (b < a)))
    ((List.range t.nregs).filter fun r => !t.outstanding r && !t.evicted.contains r)

/-- Evicting registers until as many are evicted as the level asks (R260, R261), apart from one that is being
refilled. -/
def Team.evict (t : Team) (spare : List Nat) : Team :=
  let n := t.nregs - regsOf t.nregs t.rlvl - t.evicted.length
  { t with evicted := t.evicted ++ ((t.coldest.filter fun r => !spare.contains r).take n) }

/-- The passes whose lane contexts a level evicts, from the highest-numbered down, as far as too many are resident (R260,
R261); keep is spared. -/
def Team.evictPasses (t : Team) (keep : List Nat) : Team :=
  let all_ := ctxOf t.lanes 0 / 32
  let n := all_ - ctxOf t.lanes t.rlvl / 32 - t.passOut.length
  { t with passOut := t.passOut ++
      (((List.range all_).reverse.filter fun p => !t.passOut.contains p && !keep.contains p).take n) }

/-- A change of RLVL (R265). Until a NOTICE_FOLD has been delivered, the level last delivered counts as the 0 of the team's
start: the model's choice (log entry 57). -/
def Team.setLevel (t : Team) (k : Nat) : Team :=
  ({ t with rlvl := k, noticeFold := t.noticeEn && k != t.lastRlvl }.evict []).evictPasses []

/-- Team u is stopped, and its launch fails with a cause (R169, R309); a firmware agent restarts (R330). -/
def stopFor (s : State) (u cause : Nat) : State :=
  match s.team u with
  | none => s
  | some t =>
    if t.agent then restartAgent s u true
    else failLaunch (teamLeaves s u .stopped) t.launch 1 false cause (((s.wg t.wg).map fun w => w.wgid).getD 0)

/-- The state of team u that its spill stack does not hold takes the room that it needs, and gives back what it does not
(R129, R309). Where no room is left, the team is stopped, and its launch fails with FRAME_OVERFLOW and SAVEFULL; where its key
is not VALID, with PERMISSION (R167); where a tile is refused for a check word (R176), with CHECK_FAIL, which the spec does not
say (log entry 18). -/
def spillCheck (s : State) (u : Nat) : State :=
  match s.team u with
  | none => s
  | some t =>
    if t.spillMore t.rlvl = 0 then s.putTeam u t.trimSpill
    else
      match spillKey s t with
      | (none, s) => stopFor s u 7
      | (some key, s) =>
        match growSpill u key (t.spillMore t.rlvl) s with
        | (none, s) => s
        | (some c, s) => stopFor (if t.agent ∨ c ≠ 0x14 then s else setSaveFull s (ownPart s t)) u c

/-- Room freed of a kind that is still short: a level that frees nothing of it is not taken (R260, log entry 52). -/
def Room.serves (freed short : Room) : Bool :=
  decide (freed.ctx ≠ 0 ∧ short.ctx ≠ 0) || decide (freed.regs ≠ 0 ∧ short.regs ≠ 0) ||
  decide (freed.lmem ≠ 0 ∧ short.lmem ≠ 0)

/-- Whether a fold may raise a team one level for a request that is short of room: what it then keeps beyond its spill
stack has room in the save area, and a key (R167, R260, R309). -/
def canFold (s : State) (t : Team) (short : Room) : Bool :=
  let more := t.spillMore (t.rlvl + 1)
  decide (t.rlvl < 3) && (t.room.sub (roomAt t.lanes t.nregs (t.rlvl + 1))).serves short &&
  (more == 0 ||
    (decide (saveUse s (ownPart s t) + 65536 * more ≤ saveArea s (ownPart s t)) && (spillKey s t).1.isSome))

/-- The victims of a rank on a core: lowest rank first, then youngest first (R259, R261). -/
def victims (s : State) (core rank : Nat) : List (Nat × Team) :=
  sortBy (fun a b =>
      let ra := launchRankOf s a.2.launch
      let rb := launchRankOf s b.2.launch
      decide (ra < rb) || (ra == rb && decide (b.2.order < a.2.order)))
    ((coreTeams s core).filter fun e => decide (launchRankOf s e.2.launch < rank))

/-- A team goes up one residency level, and what it evicts takes its room (R260, R261, R309): what it frees, and the core's
folding order (R263). The energy is charged to the partition (R310). -/
def foldTeam (s : State) (core u : Nat) : Room × State :=
  match s.team u with
  | none => (Room.zero, s)
  | some t =>
    let t' := t.setLevel (t.rlvl + 1)
    let order := fget (fun _ => ([] : List Nat)) s.foldOrder core
    let s := { s.putTeam u t' with foldOrder := fset (fun _ => []) s.foldOrder core (u :: order.filter fun x => x != u) }
    (t.room.sub t'.room, spillCheck (charge s (some (ownPart s t))) u)

/-- Meeting a request by folding, as far as that goes (R261): what it has taken, and the state. -/
def foldFor (core rank : Nat) (want : Room) : Nat → Room → State → Room × State
  | 0, took, s => (took, s)
  | fuel + 1, took, s =>
    if want.le took then (took, s)
    else
      match (victims s core rank).find? fun e => canFold s e.2 (want.sub took) with
      | none => (took, s)
      | some (u, _) =>
        let (freed, s) := foldTeam s core u
        foldFor core rank want fuel (took.add freed) s

/-- Meeting a core's outstanding requests by folding, one after another (R259, R261). A slice end's request is met
by saves (R305). -/
def meetRequests (s : State) (core : Nat) : State :=
  let s := (sortBy requestOrder (s.reqs.filter fun r => r.core == core && r.source != 1)).foldl (fun s r =>
    let (took, s) := foldFor core r.rank r.want 256 r.took s
    { s with reqs := s.reqs.map fun (q : Request) => if q = r then { r with took := took } else q }) s
  showRequest s core

/-- A request arises on a core (R259). One of the same source is replaced: the room that it took goes to those that are not
met, the new one among them, before folding meets them. -/
def addRequest (s : State) (r : Request) : State :=
  let new := { r with order := s.nextUid }
  let s := { s.nextId with reqs := s.reqs ++ [new] }
  meetRequests (endRequests s fun q => q.core == r.core && q.source == r.source && q != new) r.core

/-- A write to PREEMPT_n (R259): GO replaces the manual request; all counts 0 withdraws it. On a core whose cluster is not ON
none arises (R323), and the one before it is withdrawn: the model's choice (log entry 57). -/
def writePreempt (s : State) (n : Nat) (v : DWord) : State :=
  let s := s.putDreg (aPreempt n) (merge 0x0FDFFFFFFFFFDFFF#64 (s.dreg (aPreempt n)) v)
  if !v.getLsbD 63 then s
  else
    let want : Room := { ctx := dfld v 0 13, regs := dfld v 14 18, lmem := dfld v 32 21 }
    if want = Room.zero ∨ clState s (n / 4) ≠ 0 then
      showRequest (endRequests s fun q => q.core == n && q.source == 2) n
    else
      addRequest s { core := n, source := 2, want := want, took := Room.zero, rank := dfld v 54 6, launch := 0
                     item := 0, users := [], order := 0, saves := false }

/-- The lowest level below its own that the core's free room allows a folded team (R263). -/
def expandLevel (s : State) (core : Nat) (t : Team) : Option Nat :=
  let free := freeRoom s core t.launch
  findFrom (fun k => ((roomAt t.lanes t.nregs k).sub t.room).le free) 0 t.rlvl

/-- A team expands to level k; at level 0 it leaves the folding order (R263). -/
def expandTeam (s : State) (core u k : Nat) : State :=
  match s.team u with
  | none => s
  | some t =>
    let order := fget (fun _ => ([] : List Nat)) s.foldOrder core
    let order := if k = 0 then order.filter fun x => x != u else order
    let t' := t.setLevel k
    { (charge s (some (ownPart s t))).putTeam u t'.trimSpill with foldOrder := fset (fun _ => []) s.foldOrder core order }

/-- Where room has returned to a core without an unmet request, the folded team that was folded last, of those that the
room lets expand, expands; where there is none, the offer is over (R259, R263). -/
def expandCore (s : State) (core : Nat) : State :=
  if !fget falseAt s.roomBack core || (s.reqs.any fun r => r.core == core && !r.want.le r.took) then s
  else
    let next := (fget (fun _ => ([] : List Nat)) s.foldOrder core).findSome? fun u =>
      (s.team u).bind fun t => (expandLevel s core t).map fun k => (u, k)
    match next with
    | some (u, k) => expandTeam s core u k
    | none => { s with roomBack := fset falseAt s.roomBack core false }

/-! ## Saving and restoring -/

/-- The bytes of a workgroup's save (R264), in 64 KiB units: the size is not stated (log entry 18). -/
def saveSize (s : State) (w : Workgroup) : Nat :=
  let teams := (w.teams.map fun u => ((s.team u).map fun t => 4 * t.lanes * t.nregs + 4096 + t.frameBytes).getD 0).sum
  let tiles := (w.window.map fun x => 4096 * (x.inUse.filter fun e => e.2 && fget falseAt x.dirty e.1).length).getD 0
  let slots := ((w.stream.bind s.stream).map fun x => 5120 * (x.slots.filter fun e => e.2.inUse && e.2.dirty).length).getD 0
  roundUp (teams + w.sharedSz + tiles + slots) 65536

/-- A stream that is saved with its workgroup: the flags of its slots (R244), and the cycles that it has waited (R233). -/
def savedStream (s : State) (x : Stream) : Stream :=
  { x with
    slots := x.slots.map fun (e : Nat × OpSlot) => (e.1, { e.2 with dirty := false, bad := [] })
    waited := x.waited + (x.readyAt.map fun c => cyclesOf s x.cluster - c).getD 0, readyAt := x.readyAt.map fun _ => 0 }

/-- The teams of workgroup g are stopped, its room in the save area is free, and its launch fails (R169, R303, R308). -/
def stopWorkgroup (s : State) (g cause : Nat) : State :=
  match s.wg g with
  | none => s
  | some w =>
    let s := w.teams.foldl (fun s u => match s.team u with
      | some t => if t.status = .running then teamLeaves s u .stopped else s
      | none => s) (s.putWg g { w with saved := false, saveUnits := [] })
    failLaunch s w.launch 1 false cause w.wgid

/-- The granules of an array of check words below bound, the first that fails. -/
def firstBad (m : FMap Bool) (bound : Nat) : Option Nat :=
  (m.find? fun e => e.2 && decide (e.1 < bound)).map Prod.fst

/-- A granule that the save of a workgroup reads and whose check word fails (R175, R264): of its shared memory, its teams'
live frames, and its tiles and slots that are in use and dirty. -/
def saveBad (s : State) (w : Workgroup) : Option Nat :=
  let frame (u : Nat) : Option Nat := (s.team u).bind fun t => firstBad t.frameBad (ceilDiv t.frameBytes 64)
  let tile (x : AccWindow) : Option Nat := (x.bad.find? fun e =>
    e.2 && fget falseAt x.inUse (e.1 / 64) && fget falseAt x.dirty (e.1 / 64)).map Prod.fst
  let slot (x : Stream) : Option Nat :=
    x.slots.findSome? fun e => if e.2.inUse && e.2.dirty then firstBad e.2.bad 80 else none
  (firstBad w.sharedBad (w.sharedSz / 64)).or ((w.teams.findSome? frame).or
    ((w.window.bind tile).or ((w.stream.bind s.stream).bind slot)))

/-- Units of the save area are written with the state of workgroup g (R264, R308), in a first tile of which stands the granule
named, whose check word fails: whether all of them are. -/
def writeSave (g : Nat) (bad : Option Nat) : Nat → State → Bool × State
  | 0, s => (true, s)
  | k + 1, s =>
    match s.wg g with
    | none => (false, s)
    | some w =>
      let unit := freeUnit s w.part
      let s := s.bump.putWg g { w with saveUnits := w.saveUnits ++ [unit] }
      match eachTile (fun s va => areaWrite s (some w.part) w.core none (if va = unit then bad else none) va) s unit with
      | (true, s) => writeSave g none k s
      | (false, s) => (false, s)

/-- A team of a workgroup that is saved: its spill is free (R309), and what is left of its pause is kept (R428). -/
def saveTeam (s : State) (u : Nat) : State :=
  match s.team u with
  | none => s
  | some t => s.putTeam u { t with spill := [], pauseEnd := t.pauseEnd - clockTenths s (teamCore s t / 4) }

/-- The copies of workgroup g come to a tile boundary (R264, R267): the tiles that they have translated are performed. -/
def haltCopies (s : State) (g : Nat) : State :=
  (((entries s.copies).filter fun e => e.2.wg == some g).map Prod.fst).foldl (fun s k =>
    let s := finishTiles (fun _ => true) s k
    match s.copy k with
    | some c => settleCopy s k c
    | none => s) s

/-- Workgroup g is saved (R264, R308): its teams' stores are performed, its state goes into units of the save area, its
copies keep their tile positions, and its room is free. Where the area has no room, or a tile of it cannot be written, it is
stopped and its launch fails with CAUSE 0 and SAVEFULL; where a tile is refused for a check word (R171, R176), with
CHECK_FAIL, which the spec does not say (log entry 18). HBM keeps no check words: the stores have fresh ones when it is
restored (R175). -/
def saveWorkgroup (s : State) (g : Nat) : State :=
  match s.wg g with
  | none => s
  | some w =>
    let size := saveSize s w
    let s := w.teams.foldl saveTeam (w.teams.foldl drainAll (haltCopies s g))
    let bad := saveBad s ((s.wg g).getD w)
    match (if saveArea s w.part < saveUse s w.part + size then (none, s)
           else match writeSave g bad (size / 65536) s with | (ok, s) => (some ok, s)) with
    | (none, s) => stopWorkgroup (setSaveFull s w.part) g 0
    | (some false, s) => if bad.isSome then stopWorkgroup s g 9 else stopWorkgroup (setSaveFull s w.part) g 0
    | (some true, s) =>
      let s := { s with
        foldOrder := s.foldOrder.filterMap fun (e : Nat × List Nat) =>
          let l := e.2.filter fun u => !w.teams.contains u
          if l.isEmpty then none else some (e.1, l)
        copies := s.copies.map fun (e : Nat × Option Copy) => (e.1, e.2.map fun (c : Copy) => if c.wg = some g then { c with saved := true } else c) }
      let s := match w.stream with
        | some k => match s.stream k with | some x => s.putStream k (savedStream s x) | none => s
        | none => s
      let s := w.teams.foldl (fun s u => match s.team u with | some t => s.putTeam u { t with frameBad := [] } | none => s) s
      match s.wg g with
      | none => s
      | some w => s.putWg g { w with saved := true, sharedBad := []
                                     window := w.window.map fun (x : AccWindow) => { x with dirty := [], bad := [] } }

/-- The stream of a workgroup stands at an operation boundary with nothing in the engine (R264). -/
def streamDrained (s : State) (w : Workgroup) : Bool :=
  match w.stream.bind s.stream with
  | some x => x.inflight.isEmpty
  | none => true

/-- A save that a request of the core asks for (R264): every victim is at its floor, and g is the workgroup without a
team of the request's rank or above that comes first, lowest rank and then youngest. -/
def saveWanted (s : State) (g : Nat) (w : Workgroup) (r : Request) : Bool :=
  r.core == w.core && !r.want.le r.took && decide (launchRankOf s w.launch < r.rank) &&
  (r.source == 1 ||
    ((victims s w.core r.rank).all fun e => !canFold s e.2 (r.want.sub r.took)) &&
    ((residentsOf s w.core).all fun e =>
      e.1 == g || decide (launchRankOf s w.launch < launchRankOf s e.2.launch) ||
      (launchRankOf s w.launch == launchRankOf s e.2.launch && decide (e.2.order < w.order))))

/-- A workgroup is saved for an outstanding request, which takes its room (R264); where the save fails, its room is free when
the workgroup ends. -/
def saveForRequest (s : State) (g : Nat) : State :=
  match s.wg g with
  | none => s
  | some w =>
    if w.saved ∨ w.agent ∨ !streamDrained s w then s
    else
      match (sortBy requestOrder s.reqs).find? (saveWanted s g w) with
      | none => s
      | some r =>
        let room := wgRoom s w
        let s := saveWorkgroup (charge s (some w.part)) g
        if ((s.wg g).map fun w => w.saved).getD false then
          showRequest { s with reqs := s.reqs.map fun (q : Request) =>
            if q = r then { r with took := r.took.add room, saves := true } else q } w.core
        else s

/-- A saved workgroup fits a core (R264, R101, R233). -/
def restoreFits (s : State) (g : Nat) (w : Workgroup) (core : Nat) : Bool :=
  (wgRoom s w).le (freeRoom s core w.launch) && decide (w.teams.length ≤ freeSlots s core) &&
  decide ((w.window.map fun x => x.w).getD 0 ≤ freeTiles s core g) &&
  match w.stream.bind s.stream with
  | some x => decide ((entriesOf s (core / 4)).length < 16) && (!x.admitted || decide (x.s ≤ freeOpSlots s (core / 4)))
  | none => true

/-- A team whose workgroup is restored: its pause goes on by the clock of its new cluster (R428). -/
def restoreTeam (s : State) (core u : Nat) : State :=
  match s.team u with
  | none => s
  | some t =>
    let now := clockTenths s (core / 4)
    s.putTeam u { t with pauseEnd := if t.pauseEnd = 0 then 0 else now + t.pauseEnd, issueAt := now }

/-- The tiles of workgroup g's save are read back (R168, R264): whether all of them pass. -/
def readSave (s : State) (w : Workgroup) (core : Nat) : Bool × State :=
  w.saveUnits.foldl (fun (x : Bool × State) unit =>
    match eachTile (fun s va => areaRead s (some w.part) core none va) x.2 unit with
    | (ok, s) => (x.1 && ok, s)) (true, s)

/-- The restore of a workgroup on a core (R264): a tile of its save that fails stops its teams, and its launch fails with
CHECK_FAIL (R169). A suspended copy has been suspended as long as before (R162). Its copies are now of the new core, which
CORE of a later record names where R160 says the issuing core: the model's choice (log entry 57). -/
def restoreOn (s : State) (g core : Nat) : State :=
  match s.wg g with
  | none => s
  | some w =>
    match readSave (charge s (some w.part)) w core with
    | (ok, s) =>
      let s := { s with copies := s.copies.map fun (e : Nat × Option Copy) => (e.1, e.2.map fun (c : Copy) =>
        if c.wg = some g then { c with saved := false, core := some core } else c) }
      let s := match w.stream with
        | some k => match s.stream k with
          | some x => s.putStream k { x with cluster := core / 4, readyAt := x.readyAt.map fun _ => cyclesOf s (core / 4) }
          | none => s
        | none => s
      let folded := w.teams.filter fun u => ((s.team u).map fun t => decide (0 < t.rlvl)).getD false
      let order := folded ++ fget (fun _ => ([] : List Nat)) s.foldOrder core
      let s := roomReturns { s with foldOrder := fset (fun _ => []) s.foldOrder core order } core
      let s := w.teams.foldl (fun s u => restoreTeam s core u) (s.putWg g { w with saved := false, saveUnits := [], core := core })
      if ok then w.teams.foldl spillCheck s else stopWorkgroup s g 9

/-- Restoring workgroup g on a core of its partition where it fits (R264). -/
def restoreWorkgroup (s : State) (g core : Nat) : State :=
  match s.wg g with
  | none => s
  | some w =>
    if w.saved && coreOpen s w.part (launchRankOf s w.launch) core && restoreFits s g w core then restoreOn s g core
    else s

/-! ## Admission -/

/-- A pending workgroup that may be admitted: the launch's next (R99, R256). -/
structure Candidate where
  uid : Nat
  l : Launch
  sp : Spawned
deriving DecidableEq, Repr

/-- The next pending workgroup of each launch of partition p (R94, R256). -/
def candidates (s : State) (p : Nat) : List Candidate :=
  (entries s.launches).filterMap fun e =>
    match e.2.pending with
    | sp :: _ => if e.2.part = p ∧ !e.2.held ∧ !e.2.cancelling ∧ !e.2.isAgent
        then some { uid := e.1, l := e.2, sp := sp } else none
    | [] => none

/-- The order of pending workgroups (R256). -/
def candidateOrder (a b : Candidate) : Bool :=
  let due (x : Launch) : Nat := if x.cls = 0 ∧ x.deadline ≠ 0 then x.deadline else 2 ^ 64
  if a.l.cls ≠ b.l.cls then decide (a.l.cls < b.l.cls)
  else if due a.l ≠ due b.l then decide (due a.l < due b.l)
  else if a.l.rank ≠ b.l.rank then decide (b.l.rank < a.l.rank)
  else decide (a.l.order < b.l.order)

/-- A workgroup fits a core of its partition (R101, R256). -/
def placeOn (s : State) (c : Candidate) (core : Nat) : Bool :=
  coreOpen s c.l.part c.l.rank core &&
  (shapeRoom c.sp.lanes c.sp.nregs c.sp.nteams c.sp.sharedSz).le (freeRoom s core c.uid) &&
  decide (c.sp.nteams ≤ freeSlots s core)

/-- The fitting core of the partition with the most free lane contexts, and among equals the lowest (R256); a seed that has
been held goes to the core chosen for it, where it fits (R257, R314). -/
def placeFor (s : State) (c : Candidate) : Option Nat :=
  match c.l.seedCore.filter (placeOn s c) with
  | some core => some core
  | none =>
    (coresOf s c.l.part).foldl (fun best core =>
      if placeOn s c core then
        match best with
        | some b => if (freeRoom s b c.uid).ctx < (freeRoom s core c.uid).ctx then some core else best
        | none => some core
      else best) none

/-- The window numbers of a partition that are in use (R146). -/
def windowUsed (s : State) (p k : Nat) : Bool :=
  (entries s.wgs).any fun e => e.2.part == p && e.2.teams.any fun u => ((s.team u).map fun t => t.window == k).getD false

/-- The teams of a workgroup start (R95, R146), each with a free window number. -/
def startTeams (l : Launch) (lid g : Nat) (sp : Spawned) (wgid : Word) (core : Nat) : Nat → Nat → State → List Nat → List Nat × State
  | 0, _, s, us => (us, s)
  | n + 1, i, s, us =>
    let k := pickUnused s i 32768 fun k => windowUsed s l.part k ||
      us.any fun u => ((s.team u).map fun t => t.window == k).getD false
    let t := startTeam l lid g i sp.lanes sp.nregs k sp.entry sp.args wgid s.nextUid false
    let u := s.nextUid
    startTeams l lid g sp wgid core n (i + 1)
      (s.bump.nextId.putTeam u { t with issueAt := clockTenths s (core / 4) }) (us ++ [u])

/-- Workgroup g of launch l uses room that a request of the launch has taken on its core (R259). -/
def useRequest (s : State) (l core g : Nat) : State :=
  { s with reqs := s.reqs.map fun (q : Request) =>
      if q.core = core ∧ q.source = 0 ∧ q.launch = l then { q with users := q.users ++ [g] } else q }

/-- A launch with its next pending workgroup taken off (R99). -/
def Launch.takePending (x : Launch) : Launch :=
  match x.pending with
  | [] => x
  | sp :: rest =>
    if sp.next + 1 < sp.count then
      { x with pending := { sp with next := sp.next + 1, since := none, blocked := false } :: rest, admitted := x.admitted + 1 }
    else { x with pending := rest, admitted := x.admitted + 1 }

/-- Admitting a pending workgroup to a core (R95, R99, R256). -/
def admitWg (s : State) (c : Candidate) (core : Nat) : State :=
  let g := s.nextUid
  let wgid := c.sp.baseId + BitVec.ofNat 32 c.sp.next
  let (us, s) := startTeams c.l c.uid g c.sp wgid core c.sp.nteams 0 s.nextId []
  let w : Workgroup :=
    { launch := c.uid, part := c.l.part, wgid := wgid, core := core, lanes := c.sp.lanes, nregs := c.sp.nregs
      teams := us, sharedSz := c.sp.sharedSz, shared := [], sharedBad := [], bars := [], colls := [], stream := none
      window := none, saved := false, saveUnits := [], order := g, agent := false }
  let s := useRequest (s.putWg g w) c.uid core g
  match s.launch c.uid with
  | some x => s.putLaunch c.uid x.takePending
  | none => s

/-- What folding and saving the victims of a rank could free on a core (R259). -/
def couldFree (s : State) (core rank : Nat) : Room :=
  ((residentsOf s core).filter fun e => decide (launchRankOf s e.2.launch < rank)).foldl
    (fun r e => r.add (wgRoom s e.2)) Room.zero

/-- The kettle's request for a DEADLINE workgroup that fits nowhere (R259): on the core where the most could be freed,
counted in lane contexts, then lane-registers, then bytes (log entry 19). -/
def raiseDeadline (s : State) (c : Candidate) : State :=
  if s.reqs.any fun r => r.source == 0 && r.launch == c.uid && r.item == c.l.admitted then s
  else
    let better (a b : Room) : Bool :=
      if a.ctx ≠ b.ctx then decide (b.ctx < a.ctx)
      else if a.regs ≠ b.regs then decide (b.regs < a.regs)
      else decide (b.lmem < a.lmem)
    let cores := (coresOf s c.l.part).filter fun k => clState s (k / 4) == 0 &&
      !(s.reqs.any fun r => r.source == 0 && r.core == k)
    let best := cores.foldl (fun (b : Option Nat) k => match b with
      | some j => if better (couldFree s k c.l.rank) (couldFree s j c.l.rank) then some k else b
      | none => some k) none
    match best with
    | none => s
    | some core =>
      let short := (shapeRoom c.sp.lanes c.sp.nregs c.sp.nteams c.sp.sharedSz).sub (freeRoom s core c.uid)
      addRequest s { core := core, source := 0, want := short, took := Room.zero, rank := c.l.rank, launch := c.uid
                     item := c.l.admitted, users := [], order := 0, saves := false }

/-- A pending workgroup has been passed over (R256). -/
def markPassed (s : State) (l : Nat) : State :=
  match s.launch l with
  | none => s
  | some x =>
    match x.pending with
    | [] => s
    | sp :: rest => s.putLaunch l { x with pending := { sp with since := sp.since.or (some s.ns) } :: rest }

/-- A saved workgroup of the partition keeps pending ones of a rank back (R264). -/
def savedBefore (s : State) (p rank : Nat) : Bool :=
  (entries s.wgs).any fun e => e.2.saved && e.2.part == p && decide (rank ≤ launchRankOf s e.2.launch)

/-- The dispatcher goes through the pending workgroups in order and admits the first that fits (R256). `passed` are
the launches passed over so far, `limit` the rank at or below which one blocks the rest. A seed that OPHINT holds back has
a core chosen for it, and holds no other back (R257). -/
def dispatch : List Candidate → List Nat → Option Nat → State → State
  | [], _, _, s => s
  | c :: rest, passed, limit, s =>
    if limit.any (fun r => decide (c.l.rank ≤ r)) || savedBefore s c.l.part c.l.rank then dispatch rest passed limit s
    else
      match placeFor s c with
      | some core =>
        if c.l.hintHold.isSome then
          dispatch rest passed limit (match s.launch c.uid with
            | some x => s.putLaunch c.uid { x with seedCore := x.seedCore.or (some core) }
            | none => s)
        else passed.foldl markPassed (admitWg s c core)
      | none =>
        let s := if c.l.cls = 0 then raiseDeadline s c else s
        let limit := if c.sp.blocked then some (max c.l.rank (limit.getD 0)) else limit
        dispatch rest (passed ++ [c.uid]) limit s

/-- The dispatcher of partition p admits a workgroup (R256). -/
def admitWorkgroup (s : State) (p : Nat) : State :=
  if partActive s p then dispatch (sortBy candidateOrder (candidates s p)) [] none s else s

/-- The stream of a workgroup whose last team has ended is ended at its operation boundary (R243). -/
def lastTeamGone (s : State) (g : Nat) : State :=
  match s.wg g with
  | none => s
  | some w =>
    if w.agent ∨ w.saved ∨ !streamDrained s w ∨
        (w.teams.any fun u => ((s.team u).map fun t => t.status == .running).getD false) then s
    else
      match w.stream with
      | some k => endStream s k
      | none => s

/-- A workgroup ends when all its teams have ended, every copy and engine operation of its teams has completed, and
its stream has ended (R98, R243). Its room goes back to its launch's request as far as it is that request's, and the rest to
the requests of its core that are not met (R259, R264). -/
def endWorkgroup (s : State) (g : Nat) : State :=
  let s := lastTeamGone s g
  match s.wg g with
  | none => s
  | some w =>
    if w.agent ∨ w.saved ∨ w.stream.isSome ∨
        (w.teams.any fun u => ((s.team u).map fun t => t.status == .running).getD false) ∨
        ((entries s.copies).any fun e => e.2.wg == some g) then s
    else
      let kept := s.reqs.map fun (r : Request) => { r with users := r.users.filter fun x => x != g }
      let back := (List.zipWith (fun (a b : Request) => (b.idle s).sub (a.idle s)) s.reqs kept).foldl Room.add Room.zero
      let free := (wgRoom s w).sub back
      let s := { s with teams := s.teams.filter fun (e : Nat × Option Team) => !w.teams.contains e.1
                        foldOrder := s.foldOrder.filterMap fun (e : Nat × List Nat) =>
                          let l := e.2.filter fun u => !w.teams.contains u
                          if l.isEmpty then none else some (e.1, l) }
      let s := roomReturns (giveRoom ({ s with reqs := kept }.dropWg g) w.core free) w.core
      match s.launch w.launch with
      | some x => settle (launchCheck (s.putLaunch w.launch { x with counter := x.counter - 1 }) w.launch)
      | none => s

/-! ## The meanings -/

/-- HELD_LAUNCH_START (R94). -/
def execHeldLaunchStart (s : State) : Out := .next (startHeld s)

/-- WORKGROUP_ADMISSION (R256). -/
def execWorkgroupAdmission (p : Nat) (s : State) : Out := .next (admitWorkgroup s p)

/-- PASSED_OVER_BLOCK (R256). -/
def execPassedOverBlock (l : Nat) (s : State) : Out :=
  match s.launch l with
  | some x =>
    match x.pending with
    | sp :: rest =>
      match sp.since with
      | some at_ => if at_ + 1000000 ≤ s.ns then .next (s.putLaunch l { x with pending := { sp with blocked := true } :: rest })
                    else .next s
      | none => .next s
    | [] => .next s
  | none => .next s

/-- WORKGROUP_END (R98). -/
def execWorkgroupEnd (g : Nat) (s : State) : Out := .next (endWorkgroup s g)

/-- CANCEL_NOTICE_TIMEOUT (R105). -/
def execCancelNoticeTimeout (t : Nat) (s : State) : Out :=
  match s.team t with
  | some x =>
    match x.cancelAt with
    | some at_ => if x.status = .running ∧ at_ + 100000 ≤ s.ns then .next (teamLeaves s t .stopped) else .next s
    | none => .next s
  | none => .next s

/-- PREEMPT_WRITE (R259). -/
def execPreemptWrite (n : Nat) (v : DWord) (s : State) : Out := .next (writePreempt s n v)

/-- FOLD_EXPANSION (R263). -/
def execFoldExpansion (core : Nat) (s : State) : Out := .next (expandCore s core)

/-- WORKGROUP_SAVE (R264). -/
def execWorkgroupSave (g : Nat) (s : State) : Out := .next (saveForRequest s g)

/-- WORKGROUP_RESTORE (R264). -/
def execWorkgroupRestore (g core : Nat) (s : State) : Out := .next (restoreWorkgroup s g core)

/-- n bytes from offset o of team u's evicted state are refilled, and f says what then stands evicted; a tile that fails
stops the team, and its launch fails with CHECK_FAIL, or with PERMISSION where the key is not VALID (R167, R169, R262). -/
def refillWith (s : State) (u o n : Nat) (f : Team → Team) : State :=
  match s.team u with
  | none => s
  | some t =>
    match refillBytes s t o n with
    | (none, s) => s.putTeam u (f t).trimSpill
    | (some (c, _), s) => stopFor s u c

/-- A register that a folded team touches is refilled, and the coldest resident one is evicted in its place
(R262). -/
def refillRegister (s : State) (u r : Nat) : State :=
  match s.team u with
  | none => s
  | some t =>
    if t.evicted.contains r then
      refillWith s u (t.evictedAt (t.evicted.idxOf r)) (4 * t.lanes) fun t =>
        { t with evicted := t.evicted.filter fun x => x != r }.evict [r]
    else s

/-- A pass whose turn comes swaps in its lane contexts, and another's leave in their place (R262). -/
def refillPass (s : State) (u p : Nat) : State :=
  match s.team u with
  | none => s
  | some t =>
    if t.passOut.contains p then
      refillWith s u (t.passAt (t.passOut.idxOf p)) (128 * (t.nregs - t.evicted.length)) fun t =>
        { t with passOut := t.passOut.filter fun x => x != p }.evictPasses [p]
    else s

/-- REGISTER_REFILL (R262). -/
def execRegisterRefill (t r : Nat) (s : State) : Out := .next (settle (refillRegister s t r))

end Sys2Proof.Machine
end

