-- ==== Sys2Proof/Machine/Rate.lean ====
section
/-! DEFINITION. Operating points (R313, R314), pacing and thermal limits (R320, R335), the power cap and the
allowance (R315 to R319), and the clocks of clusters (R119, R313). -/

namespace Sys2Proof.Machine

/-! ## Operating points -/

/-- The clock is counted, and ALW refilled, up to now (R316). -/
def touchCluster (s : State) (c : Nat) : State :=
  let x := s.cluster c
  let now := clockTenths s c
  let gain := (now / 10 - x.cycBase / 10) * x.clrate
  s.putCluster c { x with cycBase := now, cycAt := s.ns, alw := min (x.alw + gain) (256 * x.clrate : Nat) }

/-- A launch's hint (R314): OPHINT[3:0], or its partition's DEFM; 0 and 9 to 15 act as 8. -/
def hintOf (s : State) (x : Launch) : Nat :=
  if x.ophint ≠ 0 then x.ophint % 16
  else
    let d := s.dfield (aPcap x.part) 16 4
    if d = 0 ∨ 8 < d then 8 else d

/-- H: the highest hint among the launches that are resident on cluster c, and those whose held seed it is to take (R257,
R314). -/
def hintAt (s : State) (c : Nat) : Nat :=
  let here := (entries s.wgs).filterMap fun e =>
    if !e.2.agent ∧ !e.2.saved ∧ e.2.core / 4 = c then s.launch e.2.launch else none
  let ls := here ++ (entries s.launches).filterMap fun e =>
    if e.2.hintHold.isSome ∧ e.2.seedCore.map (fun k => k / 4) = some c then some e.2 else none
  ls.foldl (fun h x => max h (hintOf s x)) (if ls.isEmpty then 2 else 0)

/-- TH of a die (R335): 8 until a limit. -/
def thermalOf (s : State) (die : Nat) : Nat := fget (fun _ => 8) s.th die

/-- PL of the partition that holds cluster c (R314, R320). -/
def paceAt (s : State) (c : Nat) : Nat := ((holderOf s c).map fun n => s.dfield (aPace n) 16 4).getD 8

/-- T = min(H, PL, TH) (R314). -/
def wantedPoint (s : State) (c : Nat) : Nat := min (hintAt s c) (min (paceAt s c) (thermalOf s (c / 16)))

/-! ## Caps and rates -/

/-- The cap of partition n in quarters of a W, before scaling (R315). -/
def capOf (s : State) (n : Nat) : Nat :=
  let w := s.dfield (aPcap n) 0 16
  if w = 0 then 75 * (clustersOf s n).length else 4 * w

/-- The caps of the connected partitions together (R315). -/
def capSum (s : State) : Nat := (((List.range 64).filter fun n => partState s n != 0).map (capOf s)).sum

/-- The effective cap of partition n as a fraction of W (R315). -/
def effectiveCap (s : State) (n : Nat) : Nat × Nat :=
  if 9600 < capSum s then (capOf s n * 2400, capSum s) else (capOf s n, 4)

/-- The initial CLRATE of a cluster of partition n in pJ for each cycle (R316), rounded down (log entry 21). -/
def initialRate (s : State) (n c : Nat) : Nat :=
  let on := ((clustersOf s n).filter fun k => clState s k == 0).length
  let cap := effectiveCap s n
  cap.1 * 10000 / (cap.2 * (3 * max 1 on * max 1 (pointAt s c)))

/-- CLRATE set to its initial value (R316). -/
def setRate (s : State) (n c : Nat) : State :=
  let r := initialRate s n c
  let s := touchCluster s c
  s.putCluster c { s.cluster c with clrate := r, clrate0 := r }

/-- CLRATE of every cluster of a partition set when it becomes ACTIVE (R316). -/
def setRates (s : State) (n : Nat) : State := (clustersOf s n).foldl (fun s c => setRate s n c) s

/-- A change of a cluster's clock (R313, R316). -/
def setPoint (s : State) (c m : Nat) : State :=
  if pointAt s c = m then s
  else
    let s := (touchCluster s c).putDfield (aClState c) 8 4 m
    match holderOf s c with
    | some n => if m = 0 then s else setRate s n c
    | none => s

/-- The threshold of R318 for weight w and rank r. -/
def threshold (x : ClPower) (w rank : Nat) : Nat := w + (63 - rank) * (256 * x.clrate / 128)

/-- Whether an issue of weight w and rank r passes the test of R318 on cluster c; a cluster without a rate is not
metered (log entry 21). -/
def allowed (s : State) (c w rank : Nat) : Bool :=
  let x := (touchCluster s c).cluster c
  x.clrate == 0 || decide ((threshold x w rank : Int) ≤ x.alw)

/-- The level that ballast keeps a cluster's debit up to, after one more µs (R319): RAMP sixteenths below the last. -/
def rampLevel (s : State) (last : Nat) : Nat := last * (16 - s.dfield aBallast 4 4) / 16

/-- A µs of a cluster's debits has ended (R319): the level that ballast keeps the debit up to, and whether it does so, from
those of the µs before and this one's debit. A fall to below a half starts the ballast, which goes on until the debit has come
down to the level, or has risen to it. -/
def nextLevel (s : State) (was : Nat × Bool) (now : Nat) : Nat × Bool :=
  let level := rampLevel s was.1
  let low := decide (2 * now < was.1) || (was.2 && decide (now < level))
  (if low then max now level else now, low)

/-- The µs of cluster c's debits that have ended are taken (R319), one after another: nothing was debited in those that came
after the first. -/
def rollWindow (s : State) (c : Nat) : State :=
  let x := s.cluster c
  if s.ns < x.winAt + 1000 then s
  else
    let gone := (s.ns - x.winAt) / 1000
    let r := (List.replicate (min (gone - 1) 512) 0).foldl (nextLevel s) (nextLevel s (x.lastDebit, x.low) x.debit)
    s.putCluster c { x with lastDebit := r.1, low := r.2, debit := 0, ballast := 0, winAt := x.winAt + 1000 * gone }

/-- A debit (R316, R319); its energy is charged to the partition that holds the cluster, a firmware agent's to the overhead
account (R310). -/
def debit (s : State) (c w : Nat) (agent : Bool) : State :=
  let s := rollWindow (touchCluster (charge s (if agent then none else holderOf s c)) c) c
  let x := s.cluster c
  s.putCluster c { x with alw := max (x.alw - w) (-(256 * x.clrate : Nat)), debit := x.debit + w }

/-- The rise limit of R319 holds an MMA of cluster c back: for 1 µs after 1 µs without a grant, one starts every 16
cycles. -/
def riseHolds (s : State) (c : Nat) : Bool :=
  let x := s.cluster c
  (s.dreg aBallast).getLsbD 0 &&
  match x.grantAt with
  | none => false
  | some g => decide (s.ns < g + 1000) && decide (s.ns < x.riseAt + 1000) && decide (clockTenths s c < x.mmaAt + 160)

/-- The engine of cluster c is granted (R319). -/
def noteGrant (s : State) (c : Nat) (mma : Bool) : State :=
  let x := s.cluster c
  let fresh := match x.grantAt with
    | none => true
    | some g => decide (g + 1000 ≤ s.ns)
  s.putCluster c { x with grantAt := some s.ns, riseAt := if fresh then s.ns else x.riseAt
                          mmaAt := if mma then clockTenths s c else x.mmaAt }

/-- An operation has been withheld for want of allowance (R316, R318). -/
def markWithheld (s : State) (c : Nat) : State := s.putCluster c { s.cluster c with withheld := true }

/-! ## The meanings -/

/-- OPERATING_POINT_CHANGE (R313, R314). -/
def execOperatingPointChange (c : Nat) (s : State) : Out :=
  if clState s c = 0 then .next (setPoint s c (wantedPoint s c)) else .next s

/-- OPHINT_HOLD_END (R257, R314): 50 µs have passed, or the seed's cluster runs at the point. -/
def execOphintHoldEnd (l : Nat) (s : State) : Out :=
  match s.launch l with
  | some x =>
    match x.hintHold with
    | some t0 =>
      let stable := x.seedCore.any fun k => clState s (k / 4) == 0 &&
        pointAt s (k / 4) == min (x.ophint % 16) (min (paceAt s (k / 4)) (thermalOf s (k / 4 / 16)))
      if t0 + 50000 ≤ s.ns ∨ stable then .next (s.putLaunch l { x with hintHold := none }) else .next s
    | none => .next s
  | none => .next s

/-- One CLRATE of the regulation of R316. -/
def regulate (s : State) (c : Nat) (above low : Bool) : State :=
  let s := touchCluster s c
  let x := s.cluster c
  let r := if above then x.clrate - x.clrate / 16
    else if low && x.withheld then min (x.clrate + x.clrate / 16) (2 * x.clrate0) else x.clrate
  s.putCluster c { x with clrate := r, withheld := false }

/-- ALLOWANCE_REGULATION (R316): every 10 µs, MEASURED is compared with the effective cap. -/
def execAllowanceRegulation (n watts : Nat) (s : State) : Out :=
  if s.ns < (s.part n).regAt + 10000 then .next s
  else
    let s := (s.putPart n { s.part n with regAt := s.ns }).putDfield (aPcap n) 32 16 watts
    let cap := effectiveCap s n
    .next ((clustersOf s n).foldl (fun s c =>
      regulate s c (decide (cap.1 < watts * cap.2)) (decide (100 * watts * cap.2 < 95 * cap.1))) s)

/-- BALLAST_PASS (R319): with EN, a debit that has fallen below half of the last µs's and is below the level that RAMP gives,
and the engine idle, the engine runs a pass, with an MMA's weight, that changes no tile and no slot. Its energy goes to
the overhead account (R310). -/
def execBallastPass (c : Nat) (s : State) : Out :=
  let s := rollWindow s c
  let x := s.cluster c
  let idle := ((entries s.streams).filter fun e => e.2.cluster == c).all fun e => e.2.inflight.all fun o => !o.engine
  if (s.dreg aBallast).getLsbD 0 ∧ x.low ∧ idle ∧ x.debit + 5000 * x.ballast < x.lastDebit then
    .next (charge (s.putCluster c { x with ballast := x.ballast + 1 }) none)
  else .next s

end Sys2Proof.Machine
end

