-- ==== Sys2Proof/Machine/Partition.lean ====
section
/-! DEFINITION. Partitions (R291 to R307): connecting, disconnecting and granting, retirement, the tenant switch,
time slices and overruns (R269), and partition resets. -/

namespace Sys2Proof.Machine

/-! ## Clearing and saving -/

/-- Cluster c is retired (R303). -/
def clusterRetired (s : State) (c : Nat) : Bool :=
  if c < 64 then (s.dreg (aRetire 0)).getLsbD c else (s.dreg (aRetire 1)).getLsbD (c - 64)

/-- Channel group g is retired (R303). -/
def groupRetired (s : State) (g : Nat) : Bool := (s.dreg (aRetire 2)).getLsbD g

/-- The scratchpad slice of a core is zero, but for the firmware scratch area (R306, R330). -/
def clearScratch (s : State) (core : Nat) : State :=
  let lo := if core = 0 then 65536 else 0
  { s with scratch := fclear s.scratch (262144 * core + lo) (262144 - lo)
           scratchBad := fclear s.scratchBad (4096 * core + lo / 64) (4096 - lo / 64) }

/-- An accumulator window with every tile zero. -/
def AccWindow.zeroed (x : AccWindow) : AccWindow := { x with tiles := [], inUse := [], dirty := [], bad := [] }

/-- Every named barrier of a workgroup stands as at its start (R207, R306): its waiting teams resume as by NBINV. -/
def resetBars (s : State) (g : Nat) : State :=
  let s := invalidateAll s g
  match s.wg g with
  | some w => s.putWg g { w with bars := [] }
  | none => s

/-- The clear of a cluster (R306): the streams' entries are gone; open tiles of the outgoing tenant are closed; scratchpads,
accumulators, the loop buffers and the translation caches are empty; every named barrier is reset, the firmware agents' among
them. Its energy is charged to the outgoing tenant, or to the overhead account (R310). -/
def clearCluster (s : State) (c : Nat) : State :=
  let tenant := holderOf s c
  let s := (entriesOf s c).foldl (fun s e => endStream s e.1) (charge s tenant)
  let s := match tenant with
    | some n => closeTiles s fun o => o.part == n
    | none => s
  let cores := [4 * c, 4 * c + 1, 4 * c + 2, 4 * c + 3]
  let s := cores.foldl clearScratch s
  let s := cores.foldl (fun s k =>
    { dropLoop s k with tlb1 := fset noTlbs s.tlb1 k [], foldOrder := fset (fun _ => []) s.foldOrder k [] }) s
  let s := { s with tlb2 := fset noTlbs s.tlb2 c [] }
  (entries s.wgs).foldl (fun s e =>
    if !e.2.saved ∧ e.2.core / 4 = c then
      let s := resetBars s e.1
      match s.wg e.1 with
      | some w => s.putWg e.1 { w with window := w.window.map AccWindow.zeroed }
      | none => s
    else s) s

/-- The workgroups of partition n. -/
def wgsOfPart (s : State) (n : Nat) : List Nat :=
  (entries s.wgs).filterMap fun e => if e.2.part = n ∧ !e.2.agent then some e.1 else none

/-- A workgroup's stream stops at an operation boundary, drained (R264). -/
def drainStream (s : State) (g : Nat) : State :=
  match (s.wg g).bind fun w => w.stream with
  | some k =>
    match retireAll k (((s.stream k).map fun x => x.inflight.length).getD 0) s with
    | (some i, s) => failCheck s k i
    | (none, s) => s
  | none => s

/-- The whole of partition n is saved (R173, R264, R269, R304). -/
def savePartition (s : State) (n : Nat) : State :=
  (wgsOfPart s n).foldl (fun s g =>
    match s.wg g with
    | some w => if w.saved then s else saveWorkgroup (drainStream (charge s (some n)) g) g
    | none => s) (closeTiles s fun o => o.part == n)

/-- Every job of partition n is cancelled, with the packets that wait or that the kettle has still to consume (R105), its
teams are stopped at once, and its saved work is discarded (R300, R307). -/
def stopPartition (s : State) (n : Nat) : State :=
  let qs := (s.queues.map Prod.fst).filter fun q => ownsQueue s n q
  let s := qs.foldl cancelWhole s
  let s := ((entries s.graphs).filter fun e => e.2.part == n).foldl (fun s e => cancelGraph s e.1) s
  let s := (wgsOfPart s n).foldl (fun s g =>
    match s.wg g with
    | some w =>
      let s := s.putWg g { w with saved := false, saveUnits := [] }
      w.teams.foldl (fun s u => match s.team u with
        | some t => if t.status = .running then teamLeaves s u .stopped else s
        | none => s) s
    | none => s) s
  settle ((wgsOfPart s n).foldl endWorkgroup s)

/-- The kettle of partition n is reset (R299, R307). -/
def resetKettle (s : State) (n : Nat) : State :=
  ((s.queues.map Prod.fst).filter fun q => ownsQueue s n q).foldl newJob s

/-- EN of every queue of partition n is cleared (R307). -/
def disableQueues (s : State) (n : Nat) : State :=
  let first := s.dfield (aVfQueues n) 0 12
  (List.range (s.dfield (aVfQueues n) 16 13)).foldl (fun s i => s.putDfield (aQctl (first + i)) 0 1 0) s

/-- The clear of every cluster that partition n holds (R306, R311). -/
def clearHeld (s : State) (n : Nat) : State :=
  if resident s n then (clustersOf s n).foldl clearCluster s else s

/-- PART_STATE_n.LASTCAUSE (R297). -/
def setCause (s : State) (n k : Nat) : State := s.putDfield (aPartState n) 8 4 k

/-! ## Connecting (R298, R299) -/

/-- A status of PART_CONN.RESULT (R298). -/
def connOverlap : Nat := 1
def connRange : Nat := 2
def connMinimum : Nat := 3
def connState : Nat := 4

/-- VF_SLICE_n.EN, and the peer (R295). -/
def sliced (s : State) (n : Nat) : Bool := (s.dreg (aVfSlice n)).getLsbD 46
def peerOf (s : State) (n : Nat) : Nat := s.dfield (aVfSlice n) 40 6

/-- EN and the peer of the slice that acts in partition n's period (R295). -/
def slicedNow (s : State) (n : Nat) : Bool := (s.part n).slice.getLsbD 46
def peerNow (s : State) (n : Nat) : Nat := dfld (s.part n).slice 40 6

/-- A period of partition n starts: its slice acts from now on (R295, R305); whether n has its slice of this period. -/
def startPeriod (s : State) (n : Nat) (mine : Bool) : State :=
  s.putPart n { s.part n with periodAt := s.ns, slice := s.dreg (aVfSlice n), inSlice := mine }

/-- Every cluster of the partition is CLKGATED or OFF (R326). -/
def allGated (s : State) (n : Nat) : Bool :=
  let cs := clustersOf s n
  !cs.isEmpty && cs.all fun c => clState s c == 2 || clState s c == 3

/-- The gating of every partition's kettle after a change of power or of ownership (R326). -/
def updateGates (s : State) : State :=
  (List.range 64).foldl (fun s n =>
    if partState s n = 0 then s
    else if allGated s n then s.putPart n { s.part n with gated := true }
    else if (s.part n).gated then ungate s n
    else s) s

/-- Partition n becomes ACTIVE (R305, R316). -/
def becomeActive (s : State) (n : Nat) : State := setRates (startPeriod (setPartState s n 1) n (resident s n)) n

/-- Two partitions slice the same clusters between them (R299). -/
def slicePair (s : State) (n m : Nat) : Bool := sliced s n && sliced s m && peerOf s n == m && peerOf s m == n

/-- The clusters and groups that a connect of partition n asks for (R295). -/
def wantClusters (s : State) (n : Nat) : List Nat :=
  (List.range (s.dfield (aVfCores n) 8 8)).map fun i => s.dfield (aVfCores n) 0 7 + i

def wantGroups (s : State) (n : Nat) : List Nat :=
  (List.range (s.dfield (aVfChan n) 8 7)).map fun i => s.dfield (aVfChan n) 0 6 + i

/-- Two ranges of a register's FIRST and COUNT have a number in common. -/
def rangesMeet (a na b nb : Nat) : Bool := decide (max a b < min (a + na) (b + nb))

/-- The range check (R299 check 2). -/
def connectInRange (s : State) (n : Nat) : Bool :=
  decide (s.dfield (aVfCores n) 0 7 + s.dfield (aVfCores n) 8 8 ≤ 128) &&
  decide (s.dfield (aVfChan n) 0 6 + s.dfield (aVfChan n) 8 7 ≤ 64) &&
  decide (s.dfield (aVfQueues n) 0 12 + s.dfield (aVfQueues n) 16 13 ≤ 4096) &&
  (s.dfield (aVfKeys n) 16 12 == 0 ||
    (decide (1 ≤ s.dfield (aVfKeys n) 0 11) && decide (s.dfield (aVfKeys n) 0 11 + s.dfield (aVfKeys n) 16 12 ≤ 2048)))

/-- The overlap check (R299 check 3). -/
def connectFree (s : State) (n : Nat) : Bool :=
  (List.range 64).all fun m =>
    m == n || partState s m == 0 || partState s m == 5 ||
    ((slicePair s n m || (wantClusters s n).all fun c => !ownsCluster s m c) &&
     ((wantGroups s n).all fun g => !ownsGroup s m g) &&
     !rangesMeet (s.dfield (aVfQueues n) 0 12) (s.dfield (aVfQueues n) 16 13) (s.dfield (aVfQueues m) 0 12)
        (s.dfield (aVfQueues m) 16 13) &&
     !rangesMeet (s.dfield (aVfKeys n) 0 11) (s.dfield (aVfKeys n) 16 12) (s.dfield (aVfKeys m) 0 11)
        (s.dfield (aVfKeys m) 16 12))

/-- The minimum check (R299 check 4). -/
def connectWhole (s : State) (n : Nat) : Bool :=
  decide (s.dfield (aVfCores n) 16 10 ≤ 4 * ((wantClusters s n).filter fun c => !clusterRetired s c).length) &&
  decide (s.dfield (aVfChan n) 16 7 ≤ ((wantGroups s n).filter fun g => !groupRetired s g).length) &&
  decide (s.dfield (aVfQueues n) 32 13 ≤ s.dfield (aVfQueues n) 16 13)

/-- The outcome of the checks of CONNECT, in their order. -/
def connectCheck (s : State) (n : Nat) : Nat :=
  if partState s n ≠ 0 then connState
  else if !connectInRange s n then connRange
  else if !connectFree s n then connOverlap
  else if !connectWhole s n then connMinimum
  else 0

/-- PART_CONN reports an operation (R298). -/
def setConn (s : State) (busy : Bool) (result : Nat) : State :=
  (s.putDfield aPartConn 11 1 busy.toNat).putDfield aPartConn 12 4 result

/-- A running partition operation; RESULT stands until it ends (R298). -/
def beginOp (s : State) (op n : Nat) : State :=
  { s.putDfield aPartConn 11 1 1 with partOp := some { op := op, part := n, retire := [] } }

/-- The peer of a time-sliced partition holds the clusters (R299). -/
def peerHolds (s : State) (n : Nat) : Bool := slicePair s n (peerOf s n) && resident s (peerOf s n)

/-- CONNECT of partition n, up to the setting of its masks (R299): clusters that a resident peer holds are cleared at the
tenant switch. -/
def connectPart (s : State) (n : Nat) : State :=
  if s.partOp.isSome then s
  else
    match connectCheck s n with
    | 0 =>
      let s := setPartState (beginOp s 1 n) n 5
      let key := Config.drawnKey s.fresh
      let s := s.bump.putPart n { Part.init with treeKey := some key, faultSeq := (s.part n).faultSeq, rate := (s.part n).rate }
      let s := ((wantGroups s n).filter fun g => !groupRetired s g).foldl blankGroup (charge s none)
      let s := ((wantClusters s n).filter fun c =>
        !clusterRetired s c && !(peerHolds s n && ownsCluster s (peerOf s n) c)).foldl clearCluster s
      (resetKettle s n).putDreg (aEnergy n) 0
    | r => setConn s false r

/-- The end of CONNECT: the masks, ACTIVE and RESIDENT (R299, R305, R316). -/
def connectEnd (s : State) (n : Nat) : State :=
  let here := !peerHolds s n
  let s := ((wantClusters s n).filter fun c => !clusterRetired s c).foldl (fun s c => setOwnsCluster s n c true) s
  let s := ((wantGroups s n).filter fun g => !groupRetired s g).foldl (fun s g => setOwnsGroup s n g true) s
  updateGates (becomeActive (setResident s n here) n)

/-- The masks of partition n are empty. -/
def clearMasks (s : State) (n : Nat) : State :=
  ((s.putDreg (aClLo n) 0).putDreg (aClHi n) 0).putDreg (aCgMask n) 0

/-- Partition n takes its clusters (R305): a SAVED partition runs again (log entry 22), and becomes ACTIVE (R316). -/
def takeHold (s : State) (n : Nat) : State :=
  if partState s n = 1 then setResident s n true
  else if partState s n = 2 then setRates (setPartState (setResident s n true) n 1) n
  else s

/-- DISCONNECT of partition n (R300, R311). -/
def disconnectPart (s : State) (n : Nat) : State :=
  if s.partOp.isSome then s
  else if partState s n = 0 ∨ 3 < partState s n then setConn s false connState
  else
    let s := beginOp (stopPartition s n) 2 n
    let s := closeTiles s fun o => o.part == n
    let s := clearHeld s n
    let keys := (List.range (s.dfield (aVfKeys n) 16 12)).map fun i => s.dfield (aVfKeys n) 0 11 + i
    let s := { s with keyValid := fsets falseAt s.keyValid (keys.map fun k => (k, false)) }
    let s := ((List.range 64).filter (ownsGroup s n)).foldl blankGroup s
    let was := resident s n
    let s := clearMasks (setResident s n false) n
    let s := setPartState (resetKettle (s.putPart n { Part.init with faultSeq := (s.part n).faultSeq, rate := (s.part n).rate }) n) n 0
    let s := { s with reqs := s.reqs.filter fun (r : Request) => (holderOf s (r.core / 4)).isSome }
    if was && sliced s n && peerOf s (peerOf s n) == n then takeHold s (peerOf s n) else s

/-! ## The grant (R304) -/

/-- No connected partition owns the cluster or group, and it is not retired. -/
def spareCluster (s : State) (c : Nat) : Bool :=
  !clusterRetired s c && (List.range 64).all fun m => partState s m == 0 || !ownsCluster s m c

def spareGroup (s : State) (g : Nat) : Bool :=
  !groupRetired s g && (List.range 64).all fun m => partState s m == 0 || !ownsGroup s m g

/-- The grant of one partition. -/
def grantPart (s : State) (n : Nat) : State :=
  let cores := s.dfield (aVfCores n) 16 10
  let groups := s.dfield (aVfChan n) 16 7
  let needC := ceilDiv cores 4 - (clustersOf s n).length
  let needG := groups - ((List.range 64).filter (ownsGroup s n)).length
  let cs := ((List.range 128).filter (spareCluster s)).take needC
  let gs := ((List.range 64).filter (spareGroup s)).take needG
  if cs.length = needC ∧ gs.length = needG then
    let s := cs.foldl (fun s c => setOwnsCluster (clearCluster s c) n c true) s
    let s := gs.foldl (fun s g => setOwnsGroup (blankGroup (charge s none) g) n g true) s
    if partState s n = 3 then becomeActive s n else s
  else if partState s n = 1 then setCause (setPartState (savePartition s n) n 3) n 3
  else setCause (setPartState s n 3) n 3

/-- The grant over every partition (R304). -/
def grantAll (s : State) : State :=
  let parts := (List.range 64).filter fun n => decide (1 ≤ partState s n) && decide (partState s n ≤ 3)
  let prio (n : Nat) : Nat := s.dfield (aVfCores n) 32 8
  updateGates ((sortBy (fun a b => decide (prio b < prio a) || (prio a == prio b && decide (a < b))) parts).foldl grantPart s)

/-- Workgroup g stands on a cluster that is retired (R303): where the cluster can still write, which is a free choice, it is
saved; otherwise it is stopped, and its launch fails with CAUSE 0. -/
def leaveCluster (s : State) (g : Nat) : State :=
  let s' := drainStream s.bump g
  if Config.pick s.fresh g % 2 = 0 then saveWorkgroup (charge s' ((s.wg g).map fun w => w.part)) g else stopWorkgroup s' g 0

/-- The units of newly set RETIRE bits leave every mask (R303); workgroups on a retired cluster leave it; one that is retired
while it is not ON never is again (R327). -/
def retireUnits (s : State) (k : Nat) (v : DWord) : State :=
  let new := (List.range 64).filter fun i => v.getLsbD i && !(s.dreg (aRetire k)).getLsbD i
  let s := s.putDreg (aRetire k) (s.dreg (aRetire k) ||| v)
  new.foldl (fun s i =>
    if k = 2 then (List.range 64).foldl (fun s n => setOwnsGroup s n i false) s
    else
      let c := if k = 0 then i else 64 + i
      let s := s.putCluster c { s.cluster c with lost := clState s c != 0 }
      let s := [4 * c, 4 * c + 1, 4 * c + 2, 4 * c + 3].foldl (fun s core =>
        (residentsOf s core).foldl (fun s e => leaveCluster s e.1) s) s
      (List.range 64).foldl (fun s n => setOwnsCluster s n c false) s) s

/-- A write to a RETIRE register (R301, R303): while an operation runs, it takes effect when that ends. -/
def writeRetire (s : State) (k : Nat) (v : DWord) : State :=
  match s.partOp with
  | some x => { s with partOp := some { x with retire := x.retire ++ [(k, v)] } }
  | none => grantAll (retireUnits s k v)

/-- REGRANT (R300, R304). -/
def regrantAll (s : State) : State := if s.partOp.isSome then s else grantAll (beginOp s 3 0)

/-- The running operation ends (R298, R299, R301). -/
def endPartOp (s : State) : State :=
  match s.partOp with
  | none => s
  | some x =>
    let s := { setConn s false 0 with partOp := none }
    let s := if x.op = 1 then connectEnd s x.part else s
    if x.retire.isEmpty then s
    else grantAll (x.retire.foldl (fun s e => retireUnits s e.1 e.2) s)

/-- A write to PART_CONN (R298). -/
def writeConn (s : State) (v : DWord) : State :=
  let go := v.getLsbD 10
  if go && (s.partOp.isSome || dfld v 8 2 == 0) then s
  else
    let s := s.putDreg aPartConn (merge 0x33F (s.dreg aPartConn) v)
    if !go then s
    else
      match dfld v 8 2 with
      | 1 => connectPart s (dfld v 0 6)
      | 2 => disconnectPart s (dfld v 0 6)
      | _ => regrantAll s

/-! ## Resets, slices and overruns -/

/-- The reset of partition n (R307, R311). -/
def resetPartition (s : State) (n cause : Nat) : State :=
  if partState s n = 0 ∨ 3 < partState s n then s
  else
    let s := setCause (setPartState s n 4) n cause
    let s := resetKettle (disableQueues (stopPartition s n) n) n
    becomeActive (clearHeld s n) n

/-- The time that partition n holds its clusters in a period, in ns (R305). -/
def holdNs (s : State) (n : Nat) : Nat := 1000 * (dfld (s.part n).slice 0 20 - s.dfield (aVfSlice n) 48 16)

/-- The slice-end request on every core that partition n holds, but for those of a cluster that is not ON (R259, R305,
R323). -/
def requestAll (s : State) (n : Nat) : State :=
  (coresOf s n).foldl (fun s core =>
    if clState s (core / 4) ≠ 0 ∨ s.reqs.any fun r => r.core == core && r.source == 1 then s
    else addRequest s { core := core, source := 1, want := { ctx := 4064, regs := 130048, lmem := 752 * 1024 }
                        took := Room.zero, rank := 64, launch := 0, item := 0, users := [], order := 0, saves := false }) s

/-- A slice-end request is outstanding on cluster c. -/
def switchDue (s : State) (c : Nat) : Bool := s.reqs.any fun r => r.source == 1 && r.core / 4 == c

/-- No user workgroup is resident on cluster c. -/
def clusterEmpty (s : State) (c : Nat) : Bool :=
  (entries s.wgs).all fun e => e.2.agent || e.2.saved || e.2.core / 4 != c

/-- The hold passes from partition m to partition n (R305, R306): every cluster of m is cleared, for m has run on until its
last was empty. -/
def handOver (s : State) (m n : Nat) : State := takeHold (setResident ((clustersOf s m).foldl clearCluster s) m false) n

/-- Partition m's hold ends towards partition n (R305): its cores are asked to be empty; where none of its clusters is ON,
the hold passes at once (R323). -/
def endHold (s : State) (m n : Nat) : State :=
  let s := requestAll s m
  if (clustersOf s m).any (switchDue s) then s else handOver s m n

/-- The tenant switch of cluster c towards partition n (R306): the cluster is cleared; when no cluster of the outgoing
tenant still waits, the hold passes. -/
def switchTenant (s : State) (c n : Nat) : State :=
  match holderOf s c with
  | none => s
  | some m =>
    if m = n ∨ !switchDue s c ∨ !clusterEmpty s c ∨ !(peerNow s m == n || peerNow s n == m) then s
    else
      let s := endRequests s fun r => r.source == 1 && r.core / 4 == c
      if (clustersOf s m).any (switchDue s) then clearCluster s c else handOver s m n

/-- The deduction of OWED after a hold (R305). -/
def payOwed (s : State) (n : Nat) : State :=
  let owed := s.dfield (aVfSlice n) 48 16
  s.putDfield (aVfSlice n) 48 16 (owed - min owed (dfld (s.part n).slice 0 20))

/-- An overrun is charged to partition n (R269, R295). -/
def chargeOverrun (s : State) (n us : Nat) : State := s.addDfield (aVfSlice n) 48 16 us

/-! ## The meanings -/

/-- CONNECT (R299): PART_CONN is written with GO, OP CONNECT and PART n. -/
def execConnect (n : Nat) (s : State) : Out := .next (writeConn s (BitVec.ofNat 64 (n % 64 + 0x100 + 0x400)))

/-- DISCONNECT (R300). -/
def execDisconnect (n : Nat) (s : State) : Out := .next (writeConn s (BitVec.ofNat 64 (n % 64 + 0x200 + 0x400)))

/-- REGRANT (R304). -/
def execRegrant (s : State) : Out := .next (writeConn s 0x700)

/-- PART_CONN_DONE (R298). -/
def execPartConnDone (s : State) : Out := .next (settle (endPartOp s))

/-- RETIRE_WRITE (R303). -/
def execRetireWrite (k : Nat) (v : DWord) (s : State) : Out := .next (if k < 3 then settle (writeRetire s k v) else s)

/-- FLR (R272, R307). -/
def execFlr (n : Nat) (s : State) : Out := .next (settle (resetPartition s n 1))

/-- The rest of partition n's period goes to its peer, or to F-level maintenance (R305): with the peer disconnected, n
holds its clusters for the whole period (R311). -/
def hasPeer (s : State) (n : Nat) : Bool := peerNow s n == 0 || partState s (peerNow s n) != 0

/-- SLICE_END (R305): partition n's slice of its period has lasted. -/
def execSliceEnd (n : Nat) (s : State) : Out :=
  if slicedNow s n ∧ (s.part n).inSlice ∧ (partState s n = 1 ∨ partState s n = 2) ∧ resident s n ∧ hasPeer s n ∧
      (s.part n).periodAt + holdNs s n ≤ s.ns ∧ !((clustersOf s n).any (switchDue s)) then
    .next (endHold (payOwed (s.putPart n { s.part n with inSlice := false }) n) n (peerNow s n))
  else .next s

/-- PERIOD_START (R305): a period of partition n starts, and ends the hold of its peer; after F-level maintenance its
clusters are cleared (R306). -/
def execPeriodStart (n : Nat) (s : State) : Out :=
  let p := s.part n
  if (sliced s n ∨ slicedNow s n) ∧ (partState s n = 1 ∨ partState s n = 2) ∧
      p.periodAt + 1000 * dfld p.slice 20 20 ≤ s.ns then
    let s := startPeriod s n true
    if resident s n then .next s
    else
      match (clustersOf s n).findSome? (holderOf s) with
      | some m => .next (endHold (s.putPart m { s.part m with inSlice := false }) m n)
      | none => .next (takeHold ((clustersOf s n).foldl clearCluster s) n)
  else .next s

/-- TENANT_SWITCH (R306). -/
def execTenantSwitch (c n : Nat) (s : State) : Out := .next (switchTenant s c n)

/-- OVERRUN_SAVE (R269, R305). -/
def execOverrunSave (n us : Nat) (s : State) : Out :=
  let s' := chargeOverrun s n us
  if 1000 < us ∧ partActive s n then .next (setCause (setPartState (savePartition s' n) n 2) n 4) else .next s'

/-- OVERRUN_RESET (R269, R307). -/
def execOverrunReset (n us : Nat) (s : State) : Out :=
  let s' := chargeOverrun s n us
  if 10000 < us then .next (settle (resetPartition s' n 2)) else .next s'

end Sys2Proof.Machine
end

