-- ==== Sys2Proof/Machine/Power.lean ====
section
/-! DEFINITION. The power handshake of clusters (R321 to R323, R325 to R327), retention (R324), the agents' doorbell
(R321, R330, R334), and temperatures (R335). -/

namespace Sys2Proof.Machine

/-- The four cores of a cluster. -/
def clusterCores (c : Nat) : List Nat := [4 * c, 4 * c + 1, 4 * c + 2, 4 * c + 3]

/-- CLPWR_STATE_c.STATE. -/
def setClState (s : State) (c st : Nat) : State := s.putDfield (aClState c) 0 3 st

/-- The transition of a state under an OP (R322): the state it ends in. -/
def powerTarget (st op : Nat) : Option Nat :=
  match st, op with
  | 0, 1 => some 1
  | 1, 2 => some 2
  | 2, 3 => some 3
  | 3, 4 => some 1
  | 1, 0 => some 0
  | 2, 0 => some 0
  | _, _ => none

/-- Every user workgroup on cluster c is saved, at the overhead account's charge (R310, R323). -/
def quiesceSaves (s : State) (c : Nat) : State :=
  (clusterCores c).foldl (fun s core =>
    (residentsOf s core).foldl (fun s e => saveWorkgroup (drainStream (charge s none) e.1) e.1) s) s

/-- A write to CLPWR_REQ_c (R321 to R323, R327). -/
def writeClpwr (s : State) (c : Nat) (v : DWord) : State :=
  let go := v.getLsbD 0
  if go && !(s.dreg (aClAck c)).getLsbD 0 then s
  else
    let s := s.putDreg (aClReq c) (merge 0x1FFE (s.dreg (aClReq c)) v)
    if !go then s
    else
      let op := dfld v 1 3
      let st := clState s c
      let s := (s.putDfield (aClAck c) 1 3 op).putDfield (aClAck c) 4 1 0
      match (if (s.cluster c).lost then none else powerTarget st op) with
      | none => s.putDfield (aClAck c) 4 1 1
      | some to_ =>
        let s := setClState (s.putDfield (aClAck c) 0 1 0) c 4
        let s := s.putCluster c { s.cluster c with op := some (op, to_) }
        if op = 1 then quiesceSaves s c else s

/-- The firmware agents of a cluster. -/
def agentsOf (s : State) (c : Nat) : List (Nat × Team) :=
  (entries s.teams).filter fun e => e.2.agent && teamCore s e.2 / 4 == c

/-- A team is parked in WFI. -/
def Team.inWfi (t : Team) : Bool :=
  match t.park with
  | .wfi _ _ => true
  | _ => false

/-- The running OP of cluster c may end (R323). -/
def opMayEnd (s : State) (c op : Nat) : Bool :=
  match op with
  | 1 => clusterEmpty s c && (entries s.copies).all fun e =>
      match e.2.core with
      | some k => k / 4 != c || e.2.saved
      | none => true
  | 2 => (agentsOf s c).all fun e => e.2.inWfi
  | _ => true

/-- A team's context as zeroed stores give it (R322). -/
def Team.zeroed (t : Team) : Team :=
  { t with
    regs := [], d := [], b := [], sr := [], fmt := [], fpstat := 0, seed := 0, frame := [], frameBad := [], refs := []
    head := 0, tcause := 0, tpc := 0, taddr := 0, tinfo := 0, trapvec := 0, inHandler := false, savedD := []
    savedB := [], park := .none, pend := [], stores := [], loads := [], spill := [] }.goto 0

/-- Every store of a cluster is zero (R322): its scratchpad slices, its agents' contexts and their windows, shared memory,
barriers and accumulators; its streams' entries and slots are gone. -/
def zeroCluster (s : State) (c : Nat) : State :=
  let s := (clusterCores c).foldl (fun s k =>
    { dropLoop s k with
      scratch := fclear s.scratch (262144 * k) 262144, scratchBad := fclear s.scratchBad (4096 * k) 4096
      tlb1 := fset noTlbs s.tlb1 k [] }) s
  let s := { s with tlb2 := fset noTlbs s.tlb2 c [] }
  let s := (entriesOf s c).foldl (fun s e => endStream s e.1) s
  let s := (entries s.wgs).foldl (fun s e =>
    if e.2.agent ∧ e.2.core / 4 = c then
      s.putWg e.1 { e.2 with shared := [], sharedBad := [], bars := [], colls := [], window := none, stream := none }
    else s) s
  (agentsOf s c).foldl (fun s e => s.putTeam e.1 e.2.zeroed) s

/-- The cluster becomes ON (R313, R325): CLRATE is set anew only where its clock changes (R316). -/
def clusterOn (s : State) (c : Nat) : State :=
  let s := ((setClState s c 0).putDfield (aClState c) 3 1 0).putDfield (aClState c) 16 16 0
  setPoint s c (wantedPoint s c)

/-- The OP of cluster c ends (R322): a cluster that has been retired meanwhile never becomes ON (R327). -/
def endPower (s : State) (c : Nat) : State :=
  match (s.cluster c).op with
  | none => s
  | some (op, to_) =>
    if !opMayEnd s c op ∨ (to_ = 0 ∧ (s.cluster c).lost) then s
    else
      let s := (s.putCluster c { s.cluster c with op := none }).putDfield (aClAck c) 0 1 1
      let s := match op with
        | 0 => clusterOn s c
        | 4 => setPoint (zeroCluster (setClState s c to_) c) c (min 8 (thermalOf s (c / 16)))
        | 1 => setClState s c to_
        | _ => setPoint (setClState s c to_) c 0
      updateGates s

/-- A write of WAKE to CL_WAKE_c (R325). -/
def wakeCluster (s : State) (c : Nat) : State :=
  if clState s c = 0 then s
  else
    let s := s.addDfield (aClState c) 16 16 1
    if (s.dreg (aClState c)).getLsbD 3 then s.putDfield (aClState c) 4 1 1
    else sendClwake (s.putDfield (aClState c) 3 1 1) (s.dfield (aClReq c) 4 9)

/-! ## Retention (R324) -/

/-- A write to RET_SAVE_c (R321, R324). -/
def writeRet (s : State) (c : Nat) (v : DWord) : State :=
  if v.getLsbD 0 && !(s.dreg (aRetDone c)).getLsbD 0 then s
  else
    let s := s.putDreg (aRetSave c) (merge 0x000FFFFFFFFFF802#64 (s.dreg (aRetSave c)) v)
    if !v.getLsbD 0 then s
    else
      let restore := v.getLsbD 1
      let s := s.putDreg (aRetDone c) (BitVec.ofNat 64 (restore.toNat * 2))
      s.putCluster c { s.cluster c with ret := some (restore, dfld v 11 41 * 2048) }

/-- The end of a retention operation: DONE, with ERR where it failed. -/
def endRet (s : State) (c : Nat) (err : Bool) : State :=
  (s.putCluster c { s.cluster c with ret := none }).putDreg (aRetDone c)
    (dput (dput (s.dreg (aRetDone c)) 0 1 1) 2 1 err.toNat)

/-- A save (R324): the image's layout is internal, so its bytes are free values (log entry 23). -/
def retSaveImage (s : State) (c addr : Nat) : State :=
  let s := touchCluster s c
  let image := (List.range 131072).map (Config.freeByte s.fresh)
  let sum := crc32c image
  let agents := agentsOf s c
  let x : RetImage :=
    { addr := addr, cluster := c
      teams := agents.map fun e => (e.1, some e.2)
      wgs := (entries s.wgs).filterMap fun e => if e.2.agent ∧ e.2.core / 4 = c then some (e.1, some e.2) else none
      scratch := if c = 0 then s.scratch.filter fun e => decide (e.1 < 65536) else []
      alw := (s.cluster c).alw, clrate := (s.cluster c).clrate, point := pointAt s c
      sum := sum }
  let s := (sealWrites 0 1 66 s.bump addr image).2
  endRet ({ s with retImages := (s.retImages.filter fun (y : RetImage) => y.cluster != c) ++ [x] }.putDreg (aRetSum c)
    (sum.setWidth 64)) c false

/-- A restore (R324): where the image's CRC is SUM, what was saved is loaded, the cluster's allowance and operating point among
it. The cycles that its clock has counted since device reset go on (R119). -/
def retLoadImage (s : State) (c addr : Nat) : State :=
  match sealReads 0 0 66 s addr 131072 with
  | (0, l, s) =>
    match s.retImages.find? fun y => y.cluster == c with
    | some x =>
      if crc32c l = x.sum ∧ (x.sum.setWidth 64 : DWord) = s.dreg (aRetSum c) then
        let s := (entries x.teams).foldl (fun s e => s.putTeam e.1 e.2) s
        let s := (entries x.wgs).foldl (fun s e => s.putWg e.1 e.2) s
        let s := if c = 0 then
            { s with scratch := fsets unwritten (fclear s.scratch 0 65536) x.scratch }
          else s
        let s := touchCluster s c
        endRet ((s.putCluster c { s.cluster c with alw := x.alw, clrate := x.clrate }).putDfield (aClState c) 8 4 x.point)
          c false
      else endRet (zeroCluster s c) c true
    | none => endRet (zeroCluster s c) c true
  | (_, _, s) => endRet (zeroCluster s c) c true

/-- The retention operation of cluster c ends (R324). -/
def endRetention (s : State) (c : Nat) : State :=
  match (s.cluster c).ret with
  | none => s
  | some (restore, addr) =>
    if 0x20000000 < addr + 131072 ∨ clState s c ≠ 1 then endRet s c true
    else if restore then retLoadImage s c addr
    else retSaveImage s c addr

/-! ## The doorbell -/

/-- DOORBELL of every agent is set, and idle agents claim tickets (R321, R330, R334). -/
def ringAgents (s : State) : State := claimTickets 64 ((List.range 512).foldl (fun s k => setWake s k 1) s)

/-! ## The meanings -/

/-- The word that GO with an OP and a DEST writes to CLPWR_REQ_c (R321). -/
def powerRequest (op dest : Nat) : DWord := BitVec.ofNat 64 (1 + 2 * op + 16 * (dest % 512))

/-- QUIESCE (R323). -/
def execQuiesce (c dest : Nat) (s : State) : Out := .next (settle (writeClpwr s c (powerRequest 1 dest)))

/-- CLKGATE (R322). -/
def execClkgate (c dest : Nat) (s : State) : Out := .next (writeClpwr s c (powerRequest 2 dest))

/-- PWROFF (R322). -/
def execPwroff (c dest : Nat) (s : State) : Out := .next (writeClpwr s c (powerRequest 3 dest))

/-- POWERUP (R322). -/
def execPowerup (c dest : Nat) (s : State) : Out := .next (writeClpwr s c (powerRequest 4 dest))

/-- CLPWR_ON (R322). -/
def execClpwrOn (c dest : Nat) (s : State) : Out := .next (writeClpwr s c (powerRequest 0 dest))

/-- CLPWR_DONE (R322). -/
def execClpwrDone (c : Nat) (s : State) : Out := .next (endPower s c)

/-- CL_WAKE (R325). -/
def execClWake (c : Nat) (s : State) : Out := .next (wakeCluster s c)

/-- RET_SAVE (R324). -/
def execRetSave (c addr : Nat) (s : State) : Out :=
  .next (writeRet s c (BitVec.ofNat 64 (1 + addr / 2048 % 2 ^ 41 * 2048)))

/-- RET_RESTORE (R324). -/
def execRetRestore (c addr : Nat) (s : State) : Out :=
  .next (writeRet s c (BitVec.ofNat 64 (3 + addr / 2048 % 2 ^ 41 * 2048)))

/-- RET_DONE (R324). -/
def execRetDone (c : Nat) (s : State) : Out := .next (endRetention s c)

/-- AGENT_DB (R321). -/
def execAgentDb (s : State) : Out := .next (ringAgents s)

/-- THERMAL_LIMIT (R335). -/
def execThermalLimit (die temp : Nat) (s : State) : Out :=
  if 100 ≤ temp then .next { s with th := fset (fun _ => 8) s.th die 4 }
  else if temp < 95 then .next { s with th := fset (fun _ => 8) s.th die 8 }
  else .next s

/-- THERMAL_STOP (R335): from 110 degrees on, only a device reset recovers the device. -/
def execThermalStop (_die temp : Nat) (s : State) : Out :=
  if 110 ≤ temp then .next { s with heatStop := true } else .next s

end Sys2Proof.Machine
end

