-- ==== Sys2Proof/Machine/Boot.lean ====
section
/-! DEFINITION. Device reset and boot (R327, R332), the firmware mailbox (R330, R331, R333), attestation, and the host
link (R272, R278, R279). -/

namespace Sys2Proof.Machine

/-! ## Reset and boot -/

/-- Device reset (R332): the machine is as after reset; what lies in HBM and host memory stays, and the keys of its
tiles are gone (log entry 25). -/
def resetDevice (s : State) : State :=
  { State.reset with
    agenda := s.agenda, tick := s.tick, fresh := s.fresh, host := s.host, hbm := s.hbm, caddies := s.caddies }

/-- DEVICE_RESET (R332). -/
def execDeviceReset (s : State) : Out := .next (resetDevice s)

/-- The image as the boot ROM finds it in host memory (R332). -/
def bootImage (s : State) : List Byte := Memory.read s.host s.boot.addr.toNat s.boot.len.toNat

/-- The CODE of a boot image (R332): 0 where it passes. -/
def bootCheck (l : List Byte) : Nat :=
  let n := num l 8 8
  if num l 0 4 ≠ Config.bootMagic ∨ !zeroRange l 32 512 then 1
  else if n < 1024 ∨ 2 ^ 28 < n ∨ l.length < n then 2
  else if !pssVerify Config.ulilenKey.1 Config.ulilenKey.2 (patch (l.take n) 512 (zeros 512)) ((l.drop 512).take 512) then 3
  else if num l 4 4 < Config.minVersion then 4
  else 0

/-- Boot fails (R332). -/
def bootFail (s : State) (code : Nat) : State := { s with boot := { s.boot with state := 3, code := code } }

/-- Every core's agent starts at AGENT_ENTRY (R329, R332): each with a free window number (R146). -/
def startAgents (s : State) : Nat → State
  | 0 => s
  | n + 1 =>
    let s := startAgents s n
    let l := idleLaunch s
    let u := s.nextUid
    let k := pickUnused s n 32768 fun k => windowUsed s 0 k
    let t := startTeam l (u + 2) (u + 1) 0 4 32 k l.entry l.args 0 u true
    let w : Workgroup :=
      { launch := u + 2, part := 0, wgid := 0, core := n, lanes := 4, nregs := 32, teams := [u], sharedSz := 0
        shared := [], sharedBad := [], bars := [], colls := [], stream := none, window := none, saved := false
        saveUnits := [], order := u, agent := true }
    { (((s.bump.putTeam u t).putWg (u + 1) w).putLaunch (u + 2) l) with nextUid := u + 3 }

/-- BOOT_CTL.GO (R332): key 0 is drawn, and the image is copied into the firmware reserve under key 0, at a free place (log
entry 24). BOOT_STAT.STATE is VERIFYING until the checks have ended. -/
def bootDevice (s : State) : State :=
  if s.boot.state ≠ 0 ∧ s.boot.state ≠ 3 then s
  else
    let l := bootImage s
    let key := Config.drawnKey s.fresh
    let s := { s with
      keyVal := fset (fun _ => 0) s.keyVal 0 key, keyValid := fset falseAt s.keyValid 0 true
      boot := { s.boot with state := 1, code := 0, size := l.length, copyAt := none } }.bump
    if l.isEmpty ∨ 0x20000000 < l.length then s
    else
      let at_ := Config.pick s.fresh 0 % ((0x20000000 - l.length) / 2048 + 1) * 2048
      match sealWrites 0 1 (l.length / 2048 + 2) s.bump at_ l with
      | (0, s) => { s with boot := { s.boot with copyAt := some at_ } }
      | (_, s) => s

/-- The firmware of an image that has passed the checks runs (R332): the agents start. -/
def bootRuns (s : State) (l : List Byte) : State :=
  startAgents { s with
    fwRoot := num l 24 8, agentEntry := BitVec.ofNat 64 (num l 16 8), fwVersion := num l 4 4
    fwDigest := sha512 (l.take (num l 8 8)), boot := { s.boot with state := 2, code := 0 } } 512

/-- The verification of the copied image ends (R332). -/
def bootVerify (s : State) : State :=
  if s.boot.state ≠ 1 then s
  else
    match s.boot.copyAt with
    | none => bootFail s 5
    | some a =>
      match sealReads 0 0 (s.boot.size / 2048 + 2) s a s.boot.size with
      | (0, l, s) =>
        match bootCheck l with
        | 0 => bootRuns s l
        | code => bootFail s code
      | (_, _, s) => bootFail s 5

/-- BOOT_GO (R332). -/
def execBootGo (s : State) : Out := .next (bootDevice s)

/-! ## The mailbox -/

/-- The mailbox of function fn. -/
def State.mailbox (s : State) (fn : Nat) : Mailbox := fget (fun _ => Mailbox.init) s.mbox fn

def State.putMailbox (s : State) (fn : Nat) (x : Mailbox) : State :=
  { s with mbox := fset (fun _ => Mailbox.init) s.mbox fn x }

/-- The request block of function fn (R331). -/
def requestBlock (s : State) (fn : Nat) : List Byte := Memory.read s.host (s.mailbox fn).addr.toNat 4096

/-- A request is being served: firmware runs, GO has been written, and its KIND is one of these (R331). -/
def requestIs (s : State) (fn : Nat) (kind : Nat → Bool) : Bool :=
  decide (fn < 64) && s.boot.state == 2 && (s.mailbox fn).busy && kind (num (requestBlock s fn) 0 1)

/-- A request ends with a RESULT (R331): 0 OK, 1 REFUSED, 2 BADKIND. -/
def endRequest (s : State) (fn result : Nat) : State :=
  s.putMailbox fn { s.mailbox fn with busy := false, result := result }

/-- Posting a ticket (R330): none where the lock is taken or 63 tickets wait. -/
def postTicket (s : State) (record sem : Nat) : Option State :=
  let tail := ofBytes (Memory.read s.scratch (ticketAt 0) 8)
  let head := ofBytes (Memory.read s.scratch (ticketAt 8) 8)
  if Memory.read s.scratch (ticketAt 16) 8 ≠ zeros 8 ∨ 63 ≤ tail - head then none
  else
    let m := Memory.write s.scratch (ticketAt (64 * (1 + tail % 63))) (toBytes 8 record ++ toBytes 8 sem)
    some (ringAgents { s with scratch := Memory.write m (ticketAt 0) (toBytes 8 (tail + 1)) })

/-- RUN (R331): the PF's launch record becomes a ticket. -/
def execRun (fn : Nat) (s : State) : Out :=
  if requestIs s fn fun k => k == 1 then
    if fn ≠ 0 then .next (endRequest s fn 1)
    else
      match postTicket s (num (requestBlock s fn) 8 8) 0 with
      | some s' => .next (endRequest s' fn 0)
      | none => .next s
  else .next s

/-- A slot lies in function fn's key range (R333). -/
def slotOk (s : State) (fn slot : Nat) : Bool := slot != 0 && keyInRange s fn slot

/-- KEYLOAD (R333): the slot takes the key, or the request is refused; FWMB_NONCE changes. -/
def execKeyload (fn : Nat) (s : State) : Out :=
  if requestIs s fn fun k => k == 2 then
    let x := s.mailbox fn
    let nonce := Config.nonce x.nonce
    let s' := s.bump.putMailbox fn { x with nonce := s.fresh + 1 }
    match oaepDecrypt Config.kekKey.1 Config.kekKey.2 ((requestBlock s fn).drop 64 |>.take 512) with
    | some p =>
      let slot := num p 32 2
      if p.length = 64 ∧ zeroRange p 35 48 ∧ slotOk s fn slot ∧ num p 34 1 = fn ∧ num p 48 16 = ofBytes (nonce.take 16) then
        .next (endRequest { s' with
          keyVal := fset (fun _ => 0) s'.keyVal slot (BitVec.ofNat 256 (num p 0 32))
          keyValid := fset falseAt s'.keyValid slot true } fn 0)
      else .next (endRequest s' fn 1)
    | none => .next (endRequest s' fn 1)
  else .next s

/-- KEYCLEAR (R331): the slot's VALID becomes 0. -/
def execKeyclear (fn : Nat) (s : State) : Out :=
  if requestIs s fn fun k => k == 3 then
    let slot := num (requestBlock s fn) 8 2
    if slotOk s fn slot then .next (endRequest { s with keyValid := fset falseAt s.keyValid slot false } fn 0)
    else .next (endRequest s fn 1)
  else .next s

/-- An attestation report (R333). -/
def attestReport (s : State) (fn : Nat) (nonce : List Byte) : List Byte :=
  let body := Config.reportHead ++ s.fwDigest ++ toBytes 4 s.fwVersion ++ toBytes 1 fn ++
    toBytes 8 (s.dreg (aVfCores fn)).toNat ++ toBytes 8 (s.dreg (aVfChan fn)).toNat ++
    toBytes 8 (s.dreg (aVfQueues fn)).toNat ++ toBytes 8 (s.dreg (aVfKeys fn)).toNat ++
    sha512 Config.kekPublic ++ nonce ++ toBytes 8 (ptpNow s)
  body ++ pssSign Config.identityKey.1 Config.identityKey.2 body (Config.salt body)

/-- ATTEST (R333): the report is written at byte 64 of the request block. -/
def execAttest (fn : Nat) (s : State) : Out :=
  if requestIs s fn fun k => k == 4 then
    let report := attestReport s fn ((requestBlock s fn).drop 16 |>.take 32)
    .next (endRequest { s with host := Memory.write s.host ((s.mailbox fn).addr.toNat + 64) report } fn 0)
  else .next s

/-- BADKIND_REQUEST (R331). -/
def execBadkindRequest (fn : Nat) (s : State) : Out :=
  if requestIs s fn fun k => k == 0 || decide (4 < k) then .next (endRequest s fn 2) else .next s

/-- DOE_REQUEST (R272, R333): the PF's report, then the identity certificate chain. -/
def execDoeRequest (nonce : List Byte) (s : State) : Out :=
  .next { s with doe := attestReport s 0 nonce ++ Config.certChain }

/-- The agents forward the oldest record of the seal log that they have not yet forwarded, to its partition's ring (R331). -/
def forwardRecord (s : State) : State :=
  if s.boot.state ≠ 2 then s
  else
    match s.sealFwd with
    | [] => s
    | (n, rec_) :: rest => (ringRecord { s with sealFwd := rest } n (aSealq n) rec_).2

/-! ## The host link -/

/-- HDM decoder k (R272). -/
def State.decoder (s : State) (k : Nat) : Hdm := fget (fun _ => noHdm) s.hdm k

/-- The host programs HDM decoder k (R272). -/
def programHdm (s : State) (k : Nat) (d : Hdm) : State :=
  if k < 4 then { s with hdm := fset (fun _ => noHdm) s.hdm k d } else s

/-- A decoder's own device address of an offset of its range: every way'th granule is this device's (log entry 60). -/
def hdmOffset (d : Hdm) (o : Nat) : Nat := o / (d.gran * max 1 d.ways) * d.gran + o % d.gran

/-- The device physical address that a decoder maps a host physical address to (R272, R278; log entry 60): the ranges of
the decoders lie behind one another. -/
def deviceAddress (s : State) (h : Nat) : Option Nat :=
  ((List.range 4).foldl (fun (x : Nat × Option Nat) k =>
    let d := s.decoder k
    if !d.on then x
    else
      let base := x.1 + d.skip
      (base + d.size / max 1 d.ways,
        x.2.or (if d.base ≤ h ∧ h < d.base + d.size then some (base + hdmOffset d (h - d.base)) else none))) (0, none)).2

/-- The first enabled window that contains an address (R278). -/
def hostWindow (s : State) (a : Nat) : Option DWord :=
  ((List.range 64).map fun k => s.dreg (aHwin k)).find? fun w =>
    w.getLsbD 0 && decide (dfld w 18 18 ≤ a / 2 ^ 21) && decide (a / 2 ^ 21 ≤ dfld w 36 18)

/-- Whether a CXL.mem access passes (R278, R279, R293): the key that serves it, or none and the crossbar's refusal. -/
def cxlKey (s : State) (a n : Nat) : Option Nat × State :=
  match hostWindow s a with
  | none => (none, s)
  | some w =>
    let part := dfld w 12 6
    let key := dfld w 1 11
    if n = 0 ∨ dfld w 36 18 < (a + n - 1) / 2 ^ 21 ∨ inMetadata a ∨ inMetadata (a + n - 1) ∨ !keyOk s key ∨
        !keyInRange s part key then (none, s)
    else if !xbarAllows s (some part) a ∨ !xbarAllows s (some part) (a + n - 1) then (none, addDeny s part)
    else (some key, s)

/-- A failed CXL.mem access (R279): the memory data error status, and a non-fatal error with the host physical address. -/
def cxlFail (s : State) (h : Nat) : State := { s with cxlRas := true, aer := s.aer ++ [h] }

/-- The accesses that bytes from h on are: each lies in one 64-byte line (log entry 60). -/
def cxlLines (h n : Nat) : List (Nat × Nat) :=
  (List.range ((h + n + 63) / 64 - h / 64)).map fun i =>
    let lo := max h ((h / 64 + i) * 64)
    (lo, min (h + n) ((h / 64 + i + 1) * 64) - lo)

/-- A CXL.mem read in one line (R278, R279): what fails is answered with zeros. -/
def cxlReadLine (s : State) (h n : Nat) : List Byte × State :=
  match deviceAddress s h with
  | none => (zeros n, cxlFail s h)
  | some a =>
    match cxlKey s a n with
    | (none, s) => (zeros n, cxlFail s h)
    | (some key, s) =>
      match sealRead s key 2 a n with
      | (0, l, s) => (l, s)
      | (_, l, s) => (l, cxlFail s h)

/-- A CXL.mem write in one line (R278, R279): one that fails is dropped. -/
def cxlWriteLine (s : State) (h : Nat) (l : List Byte) : State :=
  match deviceAddress s h with
  | none => cxlFail s h
  | some a =>
    match cxlKey s a l.length with
    | (none, s) => cxlFail s h
    | (some key, s) =>
      match sealWrite s key 2 a l with
      | (0, s) => s
      | (_, s) => cxlFail s h

/-- The energy of host traffic to a line at a host physical address is charged to its window's partition (R310). -/
def chargeHost (s : State) (h : Nat) : State :=
  match (deviceAddress s h).bind (hostWindow s) with
  | some w => charge s (some (dfld w 12 6))
  | none => s

/-- CXL_MEM_READ (R278, R279) at a host physical address. -/
def execCxlMemRead (a len : Nat) (s : State) : Out :=
  let x := (cxlLines a len).foldl (fun (x : List Byte × State) y =>
    match cxlReadLine x.2 y.1 y.2 with
    | (l, s) => (x.1 ++ l, chargeHost s y.1)) ([], s)
  .next { x.2 with cxlRead := x.1 }

/-- CXL_MEM_WRITE (R278, R279) at a host physical address. -/
def execCxlMemWrite (a : Nat) (bytes : List Byte) (s : State) : Out :=
  .next ((cxlLines a bytes.length).foldl
    (fun s y => chargeHost (cxlWriteLine s y.1 ((bytes.drop (y.1 - a)).take y.2)) y.1) s)

/-- LINK_TRAINING (R272): a width and a rate in GT/s that the link supports (log entry 60). -/
def execLinkTraining (width rate : Nat) (s : State) : Out :=
  if [16, 8, 4, 2, 1].contains width ∧ [128, 64, 32, 16, 8].contains rate then .next { s with link := (width, rate) }
  else .next s

end Sys2Proof.Machine
end

