-- ==== Sys2Proof/Machine/Xfn.lean ====
section
/-! DEFINITION. The transcendental unit's results (R228, R377, R378): exact rationals and roots rounded once, and
faithful results between the two neighbours of the exact value. -/

namespace Sys2Proof.Machine

/-- The integer square root, bit by bit from bit k - 1. -/
def isqrtFrom (n : Nat) : Nat → Nat → Nat
  | 0, r => r
  | k + 1, r => if (r + 2 ^ k) * (r + 2 ^ k) ≤ n then isqrtFrom n k (r + 2 ^ k) else isqrtFrom n k r

/-- ⌊√n⌋. -/
def isqrt (n : Nat) : Nat := isqrtFrom n (Nat.log2 n / 2 + 1) 0

/-- A value that is n × 2^e, or lies between it and (n + 1) × 2^e. -/
def between (neg exact : Bool) (n : Nat) (e : Int) : FV :=
  if exact then .fin neg n e else .fin neg (2 * n + 1) (e - 1)

/-- 1 / (m × 2^e) (R228). -/
def recip (neg : Bool) (m : Nat) (e : Int) : FV :=
  between neg (2 ^ 96 % m == 0) (2 ^ 96 / m) (-e - 96)

/-- √(m × 2^e) (R228). -/
def root (m : Nat) (e : Int) : FV :=
  let m := if e % 2 = 0 then m else 2 * m
  let e := if e % 2 = 0 then e else e - 1
  let r := isqrt (m * 2 ^ 100)
  between false (r * r == m * 2 ^ 100) r (e / 2 - 50)

/-- 1 / √(m × 2^e) (R228). -/
def rootRecip (m : Nat) (e : Int) : FV :=
  let m := if e % 2 = 0 then m else 2 * m
  let e := if e % 2 = 0 then e else e - 1
  let r := isqrt (2 ^ 200 / m)
  between false (r * r * m == 2 ^ 200) r (-(e / 2) - 100)

/-- 2^f in units of 2^-128, for f the number whose bits are those of `bits`, the highest of n worth 1/2 of c's
exponent; c is the last root of 2 taken, in the same units. -/
def exp2Bits (bits : Nat) : Nat → Nat → Nat → Nat
  | 0, _, acc => acc
  | n + 1, c, acc =>
    let c := isqrt (c * 2 ^ 128)
    exp2Bits bits n c (if bits.testBit n then acc * c / 2 ^ 128 else acc)

/-- 2^x for a finite x that is no integer (R228): a value within the interval of FP32 neighbours that holds it. -/
def exp2Of (neg : Bool) (m : Nat) (e : Int) : FV :=
  if Nat.log2 m + e < -40 then
    -- between 1 and its neighbour
    if neg then .fin false (2 ^ 41 - 1) (-41) else .fin false (2 ^ 41 + 1) (-41)
  else
    let v : Int := m * 2 ^ (e + 64).toNat
    let x : Int := if neg then -v else v
    let k := x / 2 ^ 64
    .fin false (2 * exp2Bits (x % 2 ^ 64).toNat 64 (2 * 2 ^ 128) (2 ^ 128) + 1) (k - 129)

/-- The first n fraction bits of log2 y, for y in units of 2^-300 and in [1, 2). -/
def log2Bits : Nat → Nat → Nat → Nat
  | 0, _, acc => acc
  | n + 1, y, acc =>
    let y := y * y / 2 ^ 300
    if 2 ^ 301 ≤ y then log2Bits n (y / 2) (2 * acc + 1) else log2Bits n y (2 * acc)

/-- log2 (m × 2^e), for m no power of two (R228). -/
def log2Of (m : Nat) (e : Int) : FV :=
  let k : Int := Nat.log2 m + e
  let f := log2Bits 128 (m * 2 ^ (300 - Nat.log2 m)) 0
  let v : Int := k * 2 ^ 128 + f
  if 0 ≤ v then .fin false (2 * v.toNat + 1) (-129) else .fin true (2 * (-v - 1).toNat + 1) (-129)

/-- One of the two FP32 neighbours of a value, or the value itself where it is representable (R228); which, is free
(log entry 13). NX and UF follow R378. -/
def faithful (k : Nat) (p : Word) (x : FV) : Word × BitVec 5 :=
  let r := fp32.round (if Config.faithfulUp k p then .rup else .rdn) false x 0
  (BitVec.ofNat 32 r.val, r.flags)

/-- An integer value of m × 2^e, where it is one. -/
def wholeOf (neg : Bool) (m : Nat) (e : Int) : Option Int :=
  let sgn := fun (v : Nat) => if neg then -(v : Int) else (v : Int)
  if 0 ≤ e then some (sgn (m * 2 ^ e.toNat))
  else if m % 2 ^ (-e).toNat = 0 then some (sgn (m / 2 ^ (-e).toNat))
  else none

/-- The Taylor series of cos (k = 0) or sin (k = 1) at a, in units of 2^-320: the sum of its remaining terms. -/
def trigSeries (a2 : Int) : Nat → Nat → Int → Int
  | 0, _, _ => 0
  | n + 1, k, term =>
    term + trigSeries a2 n (k + 2) (-(term * a2) / (2 ^ 320 * ((k + 1) * (k + 2))))

/-- π / 2 in units of 2^-320. -/
def halfPi : Int :=
  3355200590106084457577920487110001620402097044713574475363553212175856609335902690049750194457019

/-- sin (2πx) (cosine false) or cos (2πx) for x = ± m × 2^e, in units of 2^-320, to within 2^-310. -/
def trigApprox (cosine neg : Bool) (m : Nat) (e : Int) : Int :=
  let f := m * 2 ^ (e + 322).toNat / 2 ^ (-e - 322).toNat % 2 ^ 322
  let q := f / 2 ^ 320 + if cosine then 1 else 0
  let a : Int := ((f % 2 ^ 320 : Nat) : Int) * halfPi / 2 ^ 320
  let a2 := a * a / 2 ^ 320
  let v := if q % 2 = 0 then trigSeries a2 45 1 a else trigSeries a2 45 0 (2 ^ 320)
  let v := if q % 4 < 2 then v else -v
  if neg && !cosine then -v else v

/-- The value of a finite FP32 pattern in units of 2^-149; none for an infinity or a NaN. -/
def fp32Units (p : Word) : Option Int :=
  match fp32.val p.toNat with
  | .fin s m e => some (scaled s m e (-149))
  | _ => none

/-- A pattern lies within 2^-b of a value in units of 2^-320. The value that is meant is irrational, and no pattern comes so
near to the bound that an error of 2^-310 matters (log entry 13). -/
def nearValue (p : Word) (v : Int) (b : Nat) : Bool :=
  match fp32Units p with
  | none => false
  | some u => decide ((u * 2 ^ 171 - v).natAbs ≤ 2 ^ (320 - b))

/-- FSIN and FCOS at x = ± m × 2^e that is no multiple of 0.25 (R228): any value within the bound, by a free choice
(log entry 13). NX is set; UF where the exact result is below 2^-126. -/
def trigResult (cosine : Bool) (p : Word) (neg : Bool) (m : Nat) (e : Int) : Word × BitVec 5 :=
  let v := trigApprox cosine neg m e
  let bound := if Nat.log2 m + e < 15 ∨ (m = 2 ^ Nat.log2 m ∧ Nat.log2 m + e = 15) then 22 else 19
  let c := Config.trig cosine p
  let r := if nearValue c v bound then c
    else BitVec.ofNat 32 (fp32.round .rne false (.fin (decide (v < 0)) v.natAbs (-320)) 0).val
  (r, flNX ||| flagIf (!cosine && decide (scaled false m e (-149) ≤ 1335088)) flUF)

/-- FRCP (R228). -/
def frcpOf (x : FV) : FV × BitVec 5 :=
  match x with
  | .nan => (.nan, 0)
  | .inf s => (.fin s 0 0, 0)
  | .fin s 0 _ => (.inf s, flDZ)
  | .fin s m e => (recip s m e, 0)

/-- FSQRT (R228). -/
def fsqrtOf (x : FV) : FV × BitVec 5 :=
  match x with
  | .nan => (.nan, 0)
  | .inf false => (.inf false, 0)
  | .inf true => (.nan, flNV)
  | .fin s 0 e => (.fin s 0 e, 0)
  | .fin true _ _ => (.nan, flNV)
  | .fin false m e => (root m e, 0)

/-- The canonical NaN of FP32 (R218). -/
def nan32 : Word := 0x7FC00000

/-- FRSQ (R228), of a pattern with value x. -/
def frsqOf (p : Word) (x : FV) : Word × BitVec 5 :=
  match x with
  | .nan => (nan32, 0)
  | .inf false => (0, 0)
  | .inf true => (nan32, flNV)
  | .fin s 0 _ => (if s then 0xFF800000 else 0x7F800000, flDZ)
  | .fin true _ _ => (nan32, flNV)
  | .fin false m e => faithful 0 p (rootRecip m e)

/-- FEXP2 (R228, R378). -/
def fexp2Of (p : Word) (x : FV) : Word × BitVec 5 :=
  match x with
  | .nan => (nan32, 0)
  | .inf true => (0, 0)
  | .inf false => (0x7F800000, 0)
  | .fin _ 0 _ => (0x3F800000, 0)
  | .fin neg m e =>
    if !neg ∧ 7 ≤ Nat.log2 m + e then (0x7F800000, flOF ||| flNX)
    else if neg ∧ 8 ≤ Nat.log2 m + e then (0, flUF ||| flNX)
    else
      let y := match wholeOf neg m e with
        | some k => FV.fin false 1 k
        | none => exp2Of neg m e
      match y with
      | .fin _ n q =>
        if Nat.log2 n + q < -150 then (0, flUF ||| flNX) else faithful 1 p y
      | _ => (nan32, 0)

/-- FLOG2 (R228). -/
def flog2Of (p : Word) (x : FV) : Word × BitVec 5 :=
  match x with
  | .nan => (nan32, 0)
  | .inf false => (0x7F800000, 0)
  | .inf true => (nan32, flNV)
  | .fin _ 0 _ => (0xFF800000, flDZ)
  | .fin true _ _ => (nan32, flNV)
  | .fin false m e =>
    if m = 2 ^ Nat.log2 m then
      let k : Int := Nat.log2 m + e
      (BitVec.ofNat 32 (fp32.round .rne false (.fin (decide (k < 0)) k.natAbs 0) 0).val, 0)
    else faithful 2 p (log2Of m e)

/-- FSIN and FCOS (R228, R378). -/
def trigOf (cosine : Bool) (p : Word) (x : FV) : Word × BitVec 5 :=
  match x with
  | .nan => (nan32, 0)
  | .inf _ => (nan32, flNV)
  | .fin s m e =>
    match wholeOf s m (e + 2) with
    | some n4 =>
      let signedZero : Word := if s then 0x80000000 else 0
      match (n4 % 4).toNat, cosine with
      | 0, true => (0x3F800000, 0)
      | 1, true => (0, 0)
      | 2, true => (0xBF800000, 0)
      | _, true => (0, 0)
      | 0, false => (signedZero, 0)
      | 1, false => (0x3F800000, 0)
      | 2, false => (signedZero, 0)
      | _, false => (0xBF800000, 0)
    | none => trigResult cosine p s m e

end Sys2Proof.Machine
end

