-- ==== Sys2Proof/Machine/Operands.lean ====
section
/-! DEFINITION. The operand forms: source modifiers (R76, R366), floating-point operands and results (R226, R227,
R373 to R382, R426, R427), effective addresses (R71), and data registers of memory words. -/

namespace Sys2Proof.Machine

/-- ABS, then NEG, on the sign bit (bit w - 1) of a pattern (R76, R366). -/
def modSign (w : Nat) (absolute negate : Bool) (p : Nat) : Nat :=
  let p := if absolute then p % 2 ^ (w - 1) else p
  if negate then (if p.testBit (w - 1) then p - 2 ^ (w - 1) else p + 2 ^ (w - 1)) else p

/-- No modifiers: the E = 0 forms. -/
def noMods : Mods := { absC := false, absB := false, absA := false, negC := false, negB := false, negA := false }

/-- A source of an FP32 word as a pattern, after its modifiers. -/
def modA (m : Mods) (p : Word) : Word := BitVec.ofNat 32 (modSign 32 m.absA m.negA p.toNat)
def modB (m : Mods) (p : Word) : Word := BitVec.ofNat 32 (modSign 32 m.absB m.negB p.toNat)
def modC (m : Mods) (p : Word) : Word := BitVec.ofNat 32 (modSign 32 m.absC m.negC p.toNat)

/-- The value of an FP32 pattern. -/
def val32 (p : Word) : FV := fp32.val p.toNat

/-- What one lane of a floating-point word gives: its result, its flags, and its generator's state. -/
structure LaneResult where
  val : Word
  flags : BitVec 5
  sr : Word
deriving DecidableEq, Repr

/-- The stochastic generator of a lane (R225). -/
def Team.gen (t : Team) (l : Nat) : Word := fget zeroWord t.sr l

/-- The generators of the lanes that a word has stepped. -/
def Team.putGens (t : Team) (rs : List (Nat × LaneResult)) : Team :=
  { t with sr := fsets zeroWord t.sr (rs.map fun x => (x.1, x.2.sr)) }

/-- A word's results, one for each active lane. -/
def laneResults (t : Team) (f : Nat → LaneResult) : List (Nat × LaneResult) := t.activeLanes.map fun l => (l, f l)

/-- A floating-point ALU word of len slots: it writes d in every active lane, ORs the flags into FPSTAT, and steps
the generators (R225, R226). -/
def fpWord (s : State) (len : Nat) (d : Code) (f : Nat → Team → Nat → LaneResult) : Out :=
  withTeam s fun t c =>
    let rs := laneResults t (f s.fresh t)
    let t' := { t.putGens rs with regs := fsets zeroWord t.regs (rs.map fun (x : Nat × LaneResult) => (regKey d.toNat x.1, x.2.val)) }
    .next (s.bump.putTeam s.cur ((t'.orFlags (orAll (rs.map fun (x : Nat × LaneResult) => x.2.flags))).advance c len))

/-- The rounding of an exact result with the flags that forming it set (R224, R226). -/
def roundLane (f : FFmt) (rm : Rm) (x : FV × BitVec 5) (sr : Word) : LaneResult :=
  let r := f.round rm false x.1 sr
  { val := BitVec.ofNat 32 r.val, flags := r.flags ||| x.2, sr := r.sr }

/-- An FP32 word of two sources with one rounding (R374). -/
def fpBinary (s : State) (len : Nat) (d a b : Code) (m : Mods) (rm : Rm) (op : FV → FV → FV × BitVec 5) : Out :=
  fpWord s len d fun k t l =>
    roundLane fp32 rm (op (val32 (modA m (src k t a l))) (val32 (modB m (src k t b l)))) (t.gen l)

/-- FADD, FSUB, FMUL (R373). -/
def fpAdd (rm : Rm) (a b : FV) : FV × BitVec 5 := a.add rm b
def fpSub (rm : Rm) (a b : FV) : FV × BitVec 5 := a.add rm b.neg
def fpMul (a b : FV) : FV × BitVec 5 := a.mul b

/-- FMIN and FMAX (R374). -/
def fpMinMax (s : State) (len : Nat) (wantMax : Bool) (d a b : Code) (m : Mods) : Out :=
  laneWord s len d fun k t l => minMax wantMax (modA m (src k t a l)) (modB m (src k t b l))

/-- A transcendental word (R378): its results are outstanding without a slot, and carry their flags (R226). -/
def xfnWord (s : State) (len : Nat) (d a : Code) (m : Mods) (f : Word → Word → LaneResult) : Out :=
  withTeam s fun t c =>
    let rs := laneResults t fun l => f (modA m (src s.fresh t a l)) (t.gen l)
    let t' := (t.putGens rs).addPend none false
      (rs.map fun (x : Nat × LaneResult) => (d.toNat, x.1, some x.2.val, x.2.flags))
    .next (s.bump.putTeam s.cur (t'.advance c len))

/-- FRCP and FSQRT: rounded once in the chosen mode (R228). -/
def roundedXfn (rm : Rm) (f : FV → FV × BitVec 5) (p sr : Word) : LaneResult := roundLane fp32 rm (f (val32 p)) sr

/-- A faithful word: it ignores the mode, and steps no generator (R228). -/
def faithfulXfn (f : Word → FV → Word × BitVec 5) (p sr : Word) : LaneResult :=
  let r := f p (val32 p)
  { val := r.1, flags := r.2, sr := sr }

/-- The format of a packed word (R426). -/
def packedFormat : PFmt → FFmt
  | .f16zero => fp16
  | .f16 => fp16
  | .bf16 => bf16

/-- Element e of a packed source, after its modifiers (R427). -/
def packedElement (f : FFmt) (absolute negate : Bool) (p : Word) (e : Nat) : FV :=
  f.val (modSign 16 absolute negate (fld p.toNat (16 * e) 16))

/-- A packed word (R427): element 0 first, then element 1, each rounded once. -/
def packedWord (s : State) (len : Nat) (d a b c : Code) (f : FFmt) (m : Mods) (rm : Rm)
    (op : FV → FV → FV → FV × BitVec 5) : Out :=
  fpWord s len d fun k t l =>
    let x := src k t a l
    let y := src k t b l
    let z := src k t c l
    let element (e : Nat) (sr : Word) : LaneResult :=
      roundLane f rm (op (packedElement f m.absA m.negA x e) (packedElement f m.absB m.negB y e)
        (packedElement f m.absC m.negC z e)) sr
    let r0 := element 0 (t.gen l)
    let r1 := element 1 r0.sr
    { val := BitVec.ofNat 32 (r0.val.toNat + r1.val.toNat * 65536), flags := r0.flags ||| r1.flags, sr := r1.sr }

/-- The effective address of an M-format word in a lane (R71), for an access size. -/
def effective (k : Nat) (t : Team) (b : Code) (off : BitVec 5) (size l : Nat) : DWord :=
  pair k t b l + BitVec.ofInt 64 (size * off.toInt)

/-- The n bytes of a store's data (R443): the low bytes of the register, or the pair, or the quad. -/
def storeBytes (k : Nat) (t : Team) (c : Code) (n l : Nat) : List Byte :=
  ((List.range ((n + 3) / 4)).flatMap fun i => toBytes 4 (readReg k t (c.toNat + i) l).toNat).take n

/-- The registers that n loaded bytes give (R398). -/
def loadedWords (signed : Bool) (l : List Byte) : List Word :=
  if l.length ≤ 2 then
    [if signed then
      (if l.length = 1 then (BitVec.ofNat 8 (ofBytes l)).signExtend 32 else (BitVec.ofNat 16 (ofBytes l)).signExtend 32)
     else BitVec.ofNat 32 (ofBytes l)]
  else (List.range (l.length / 4)).map fun i => BitVec.ofNat 32 (num l (4 * i) 4)

end Sys2Proof.Machine
end

