-- ==== Sys2Proof/Machine/Fp.lean ====
section
/-! DEFINITION. The floating-point and transcendental words (R373 to R378, R381): group 010 of the opcode map. -/

namespace Sys2Proof.Machine

/-- FADD with RNE (R374). -/
def execFadd (d a b : Code) (s : State) : Out := fpBinary s 1 d a b noMods .rne (fpAdd .rne)

/-- FADD with rounding and modifiers (R374). -/
def execFaddX (d a b : Code) (m : Mods) (rm : Rm) (s : State) : Out := fpBinary s 2 d a b m rm (fpAdd rm)

/-- FSUB with RNE (R374). -/
def execFsub (d a b : Code) (s : State) : Out := fpBinary s 1 d a b noMods .rne (fpSub .rne)

/-- FSUB with rounding and modifiers (R374). -/
def execFsubX (d a b : Code) (m : Mods) (rm : Rm) (s : State) : Out := fpBinary s 2 d a b m rm (fpSub rm)

/-- FMUL with RNE (R374). -/
def execFmul (d a b : Code) (s : State) : Out := fpBinary s 1 d a b noMods .rne fpMul

/-- FMUL with rounding and modifiers (R374). -/
def execFmulX (d a b : Code) (m : Mods) (rm : Rm) (s : State) : Out := fpBinary s 2 d a b m rm fpMul

/-- FFMA (R382). -/
def execFfma (d a b : Code) (m : Mods) (rm : Rm) (c : Code) (s : State) : Out :=
  fpWord s 2 d fun k t l =>
    roundLane fp32 rm (FV.ffma rm (val32 (modA m (src k t a l))) (val32 (modB m (src k t b l)))
      (val32 (modC m (src k t c l)))) (t.gen l)

/-- FMIN (R374). -/
def execFmin (d a b : Code) (s : State) : Out := fpMinMax s 1 false d a b noMods

/-- FMIN with modifiers (R374). -/
def execFminX (d a b : Code) (m : Mods) (s : State) : Out := fpMinMax s 2 false d a b m

/-- FMAX (R374). -/
def execFmax (d a b : Code) (s : State) : Out := fpMinMax s 1 true d a b noMods

/-- FMAX with modifiers (R374). -/
def execFmaxX (d a b : Code) (m : Mods) (s : State) : Out := fpMinMax s 2 true d a b m

/-- FCMP (R376). -/
def execFcmp (d a b : Code) (cond : Cond) (m : Mods) (s : State) : Out :=
  laneWord s 2 d fun k t l =>
    boolWord (fpCond cond ((val32 (modA m (src k t a l))).cmp (val32 (modB m (src k t b l)))))

/-- FRCP with RNE (R228, R378). -/
def execFrcp (d a : Code) (s : State) : Out := xfnWord s 1 d a noMods (roundedXfn .rne frcpOf)

/-- FRCP with rounding and modifiers (R228, R378). -/
def execFrcpX (d a : Code) (m : Mods) (rm : Rm) (s : State) : Out := xfnWord s 2 d a m (roundedXfn rm frcpOf)

/-- FSQRT with RNE (R228, R378). -/
def execFsqrt (d a : Code) (s : State) : Out := xfnWord s 1 d a noMods (roundedXfn .rne fsqrtOf)

/-- FSQRT with rounding and modifiers (R228, R378). -/
def execFsqrtX (d a : Code) (m : Mods) (rm : Rm) (s : State) : Out := xfnWord s 2 d a m (roundedXfn rm fsqrtOf)

/-- FRSQ (R228, R378). -/
def execFrsq (d a : Code) (s : State) : Out := xfnWord s 1 d a noMods (faithfulXfn frsqOf)

/-- FRSQ with modifiers; the rounding is ignored (R228, R377, R378). -/
def execFrsqX (d a : Code) (m : Mods) (_rm : Rm) (s : State) : Out := xfnWord s 2 d a m (faithfulXfn frsqOf)

/-- FEXP2 (R228, R378). -/
def execFexp2 (d a : Code) (s : State) : Out := xfnWord s 1 d a noMods (faithfulXfn fexp2Of)

/-- FEXP2 with modifiers; the rounding is ignored (R228, R377, R378). -/
def execFexp2X (d a : Code) (m : Mods) (_rm : Rm) (s : State) : Out := xfnWord s 2 d a m (faithfulXfn fexp2Of)

/-- FLOG2 (R228, R378). -/
def execFlog2 (d a : Code) (s : State) : Out := xfnWord s 1 d a noMods (faithfulXfn flog2Of)

/-- FLOG2 with modifiers; the rounding is ignored (R228, R377, R378). -/
def execFlog2X (d a : Code) (m : Mods) (_rm : Rm) (s : State) : Out := xfnWord s 2 d a m (faithfulXfn flog2Of)

/-- FSIN (R228, R378). -/
def execFsin (d a : Code) (s : State) : Out := xfnWord s 1 d a noMods (faithfulXfn (trigOf false))

/-- FSIN with modifiers; the rounding is ignored (R228, R377, R378). -/
def execFsinX (d a : Code) (m : Mods) (_rm : Rm) (s : State) : Out := xfnWord s 2 d a m (faithfulXfn (trigOf false))

/-- FCOS (R228, R378). -/
def execFcos (d a : Code) (s : State) : Out := xfnWord s 1 d a noMods (faithfulXfn (trigOf true))

/-- FCOS with modifiers; the rounding is ignored (R228, R377, R378). -/
def execFcosX (d a : Code) (m : Mods) (_rm : Rm) (s : State) : Out := xfnWord s 2 d a m (faithfulXfn (trigOf true))

end Sys2Proof.Machine
end

