-- ==== Sys2Proof/Machine/Integer.lean ====
section
/-! DEFINITION. The integer words (R388 to R402): group 000 of the opcode map. -/

namespace Sys2Proof.Machine

/-- |a| modulo 2^32 (R388). -/
def absWord (a : Word) : Word := if a.slt 0 then -a else a

/-- Bits [63:32] of the signed product (R388). -/
def mulHighS (a b : Word) : Word := ((a.signExtend 64) * (b.signExtend 64)).extractLsb' 32 32

/-- Bits [63:32] of the unsigned product (R388). -/
def mulHighU (a b : Word) : Word := ((a.zeroExtend 64) * (b.zeroExtend 64)).extractLsb' 32 32

def minS (a b : Word) : Word := if b.slt a then b else a
def maxS (a b : Word) : Word := if a.slt b then b else a
def minU (a b : Word) : Word := if b.ult a then b else a
def maxU (a b : Word) : Word := if a.ult b then b else a

/-- The index of LEA as a 64-bit number (R402). -/
def leaIndex (ix : LeaIndex) (b : Word) : DWord :=
  match ix with
  | .signed => b.signExtend 64
  | .unsigned => b.zeroExtend 64

/-- IADD (R388, R389). -/
def execIadd (d a b : Code) (s : State) : Out := binaryWord s d a b (· + ·)

/-- IADD with a literal for B (R75, R388). -/
def execIaddLit (d a : Code) (lit : Word) (s : State) : Out := literalWord s d a lit (· + ·)

/-- ISUB (R388, R389). -/
def execIsub (d a b : Code) (s : State) : Out := binaryWord s d a b (· - ·)

/-- ISUB with a literal for B (R75, R388). -/
def execIsubLit (d a : Code) (lit : Word) (s : State) : Out := literalWord s d a lit (· - ·)

/-- IMUL (R388, R389). -/
def execImul (d a b : Code) (s : State) : Out := binaryWord s d a b (· * ·)

/-- IMUL with a literal for B (R75, R388). -/
def execImulLit (d a : Code) (lit : Word) (s : State) : Out := literalWord s d a lit (· * ·)

/-- IMIN.S (R388, R389). -/
def execIminS (d a b : Code) (s : State) : Out := binaryWord s d a b minS

/-- IMIN.S with a literal for B (R75, R388). -/
def execIminSLit (d a : Code) (lit : Word) (s : State) : Out := literalWord s d a lit minS

/-- IMIN.U (R388, R389). -/
def execIminU (d a b : Code) (s : State) : Out := binaryWord s d a b minU

/-- IMIN.U with a literal for B (R75, R388). -/
def execIminULit (d a : Code) (lit : Word) (s : State) : Out := literalWord s d a lit minU

/-- IMAX.S (R388, R389). -/
def execImaxS (d a b : Code) (s : State) : Out := binaryWord s d a b maxS

/-- IMAX.S with a literal for B (R75, R388). -/
def execImaxSLit (d a : Code) (lit : Word) (s : State) : Out := literalWord s d a lit maxS

/-- IMAX.U (R388, R389). -/
def execImaxU (d a b : Code) (s : State) : Out := binaryWord s d a b maxU

/-- IMAX.U with a literal for B (R75, R388). -/
def execImaxULit (d a : Code) (lit : Word) (s : State) : Out := literalWord s d a lit maxU

/-- IMULH.S (R388). -/
def execImulhS (d a b : Code) (s : State) : Out := binaryWord s d a b mulHighS

/-- IMULH.U (R388). -/
def execImulhU (d a b : Code) (s : State) : Out := binaryWord s d a b mulHighU

/-- IMAD (R394). -/
def execImad (d a b c : Code) (s : State) : Out := ternaryWord s d a b c fun x y z => x * y + z

/-- IABS (R388). -/
def execIabs (d a : Code) (s : State) : Out := unaryWord s d a absWord

/-- ICMP (R393). -/
def execIcmp (d a b : Code) (cond : Cond) (s : State) : Out :=
  binaryExtWord s d a b fun x y => boolWord (intCond cond x y)

/-- LEA with no shift and a signed index (R402). -/
def execLea (d a b : Code) (s : State) : Out :=
  pairWord s 1 d fun k t l => pair k t a l + leaIndex .signed (src k t b l)

/-- LEA with a shift and an index signedness (R402). -/
def execLeaX (d a b : Code) (ix : LeaIndex) (sh : BitVec 3) (s : State) : Out :=
  pairWord s 2 d fun k t l => pair k t a l + leaIndex ix (src k t b l) <<< sh.toNat

end Sys2Proof.Machine
end

