-- ==== Sys2Proof/Machine/LaneOps.lean ====
section
/-! DEFINITION. The lane operations (R128, R348, R430, R431): the second half of group 011 of the opcode map. -/

namespace Sys2Proof.Machine

/-- The source lane of SHFL, as an exact integer (R431). -/
def shflLane (mode : ShflMode) (l b : Nat) : Int :=
  match mode with
  | .idx => b
  | .up => (l : Int) - b
  | .down => l + b
  | .xor => (Nat.xor l b : Nat)

/-- SHFL (R431). -/
def execShfl (d a b : Code) (mode : ShflMode) (s : State) : Out :=
  laneWord s 2 d fun k t l =>
    let j := shflLane mode l (src k t b l).toNat
    src k t a (if 0 ≤ j ∧ j < t.lanes then j.toNat else l)

/-- The lanes whose vote is not zero, among the active ones. -/
def votes (k : Nat) (t : Team) (a : Code) : List Nat := t.activeLanes.filter fun l => src k t a l != 0

/-- The ballot of pass q (R431). -/
def ballot (k : Nat) (t : Team) (a : Code) (q : Nat) : Word :=
  if ceilDiv t.lanes 32 ≤ q then 0
  else (votes k t a).foldl (fun r l => if l / 32 = q then r ||| 1#32 <<< (l % 32) else r) 0

/-- VOTE (R431). -/
def execVote (d a b : Code) (mode : VoteMode) (s : State) : Out :=
  laneWord s 2 d fun k t l =>
    match mode with
    | .any => boolWord (!(votes k t a).isEmpty)
    | .all => boolWord ((votes k t a).length == t.activeLanes.length)
    | .uni => boolWord (t.activeLanes.all fun j => src k t a j == src k t a l)
    | .ballot => ballot k t a (src k t b l).toNat

/-- One step of a reduction (R431). -/
def reduxStep (op : ReduxOp) (a b : Word) : Word :=
  match op with
  | .add => a + b
  | .minS => Sys2Proof.Machine.minS a b
  | .maxS => Sys2Proof.Machine.maxS a b
  | .minU => Sys2Proof.Machine.minU a b
  | .maxU => Sys2Proof.Machine.maxU a b
  | .and => a &&& b
  | .or => a ||| b
  | .xor => a ^^^ b

/-- The reduction of values: of none, 0. -/
def reduce (op : ReduxOp) : List Word → Word
  | [] => 0
  | v :: vs => vs.foldl (reduxStep op) v

/-- REDUX (R431). -/
def execRedux (d a : Code) (mode : ReduxOp) (s : State) : Out :=
  laneWord s 2 d fun k t _ => reduce mode (t.activeLanes.map (src k t a))

/-- BCAST (R348): the lane index comes from the lowest active lane. -/
def execBcast (d a b : Code) (s : State) : Out :=
  laneWord s 1 d fun k t l =>
    let j := (src k t b (t.lowest.getD l)).toNat
    src k t a (if j < t.lanes then j else l)

end Sys2Proof.Machine
end

