-- ==== Sys2Proof/Decode.lean ====
section
/-! DEFINITION. The decoder, total on any bytes, and the encoder, both written from R55 to R84 and the encoding
lines of the reference entries. -/

namespace Sys2Proof

/-- Why bytes are no instruction: too few bytes; an opcode outside R84's map; a field check of R67 to R81 that
reads the encoding; a field check that reads the operands (WellFormed). -/
inductive Reject where
  | truncated | undefinedOpcode | badField | illFormed
deriving DecidableEq, Repr

/-- The code of R77. -/
def bitsOfRm : Rm → BitVec 3
  | .dflt => 0
  | .rne => 1
  | .rtz => 2
  | .rup => 3
  | .rdn => 4
  | .sr => 5

/-- Reading the code of R77; none for a value it does not define. -/
def readRm (b : BitVec 3) : Option Rm :=
  match b.toNat with
  | 0 => some .dflt
  | 1 => some .rne
  | 2 => some .rtz
  | 3 => some .rup
  | 4 => some .rdn
  | 5 => some .sr
  | _ => none

/-- The code of R78. -/
def bitsOfCond : Cond → BitVec 4
  | .eq => 0
  | .ne => 1
  | .lt => 2
  | .le => 3
  | .gt => 4
  | .ge => 5
  | .ltu => 6
  | .leu => 7
  | .gtu => 8
  | .geu => 9
  | .ord => 10
  | .uno => 11

/-- Reading the code of R78; none for a value it does not define. -/
def readCond (b : BitVec 4) : Option Cond :=
  match b.toNat with
  | 0 => some .eq
  | 1 => some .ne
  | 2 => some .lt
  | 3 => some .le
  | 4 => some .gt
  | 5 => some .ge
  | 6 => some .ltu
  | 7 => some .leu
  | 8 => some .gtu
  | 9 => some .geu
  | 10 => some .ord
  | 11 => some .uno
  | _ => none

/-- The code of R401. -/
def bitsOfLeaIndex : LeaIndex → BitVec 4
  | .signed => 5
  | .unsigned => 6

/-- Reading the code of R401; none for a value it does not define. -/
def readLeaIndex (b : BitVec 4) : Option LeaIndex :=
  match b.toNat with
  | 5 => some .signed
  | 6 => some .unsigned
  | _ => none

/-- The code of R426. -/
def bitsOfPFmt : PFmt → BitVec 4
  | .f16zero => 0
  | .f16 => 1
  | .bf16 => 2

/-- Reading the code of R426; none for a value it does not define. -/
def readPFmt (b : BitVec 4) : Option PFmt :=
  match b.toNat with
  | 0 => some .f16zero
  | 1 => some .f16
  | 2 => some .bf16
  | _ => none

/-- The code of R128. -/
def bitsOfShflMode : ShflMode → BitVec 3
  | .idx => 0
  | .up => 1
  | .down => 2
  | .xor => 3

/-- Reading the code of R128; none for a value it does not define. -/
def readShflMode (b : BitVec 3) : Option ShflMode :=
  match b.toNat with
  | 0 => some .idx
  | 1 => some .up
  | 2 => some .down
  | 3 => some .xor
  | _ => none

/-- The code of R128. -/
def bitsOfVoteMode : VoteMode → BitVec 3
  | .any => 0
  | .all => 1
  | .uni => 2
  | .ballot => 3

/-- Reading the code of R128; none for a value it does not define. -/
def readVoteMode (b : BitVec 3) : Option VoteMode :=
  match b.toNat with
  | 0 => some .any
  | 1 => some .all
  | 2 => some .uni
  | 3 => some .ballot
  | _ => none

/-- The code of R128. -/
def bitsOfReduxOp : ReduxOp → BitVec 3
  | .add => 0
  | .minS => 1
  | .maxS => 2
  | .minU => 3
  | .maxU => 4
  | .and => 5
  | .or => 6
  | .xor => 7

/-- Reading the code of R128; none for a value it does not define. -/
def readReduxOp (b : BitVec 3) : Option ReduxOp :=
  match b.toNat with
  | 0 => some .add
  | 1 => some .minS
  | 2 => some .maxS
  | 3 => some .minU
  | 4 => some .maxU
  | 5 => some .and
  | 6 => some .or
  | 7 => some .xor
  | _ => none

/-- The code of R80, R344. -/
def bitsOfAtomSize : AtomSize → BitVec 3
  | .w => 2
  | .d => 3

/-- Reading the code of R80, R344; none for a value it does not define. -/
def readAtomSize (b : BitVec 3) : Option AtomSize :=
  match b.toNat with
  | 2 => some .w
  | 3 => some .d
  | _ => none

/-- The code of R345. -/
def bitsOfAtomOp : AtomOp → BitVec 4
  | .swap => 0
  | .cas => 1
  | .add => 2
  | .and => 3
  | .or => 4
  | .xor => 5
  | .minS => 6
  | .maxS => 7
  | .minU => 8
  | .maxU => 9

/-- Reading the code of R345; none for a value it does not define. -/
def readAtomOp (b : BitVec 4) : Option AtomOp :=
  match b.toNat with
  | 0 => some .swap
  | 1 => some .cas
  | 2 => some .add
  | 3 => some .and
  | 4 => some .or
  | 5 => some .xor
  | 6 => some .minS
  | 7 => some .maxS
  | 8 => some .minU
  | 9 => some .maxU
  | _ => none

/-- The code of R190. -/
def bitsOfFenceOrder : FenceOrder → BitVec 2
  | .acq => 0
  | .rel => 1
  | .ar => 2
  | .sc => 3

/-- Reading the code of R190; none for a value it does not define. -/
def readFenceOrder (b : BitVec 2) : Option FenceOrder :=
  match b.toNat with
  | 0 => some .acq
  | 1 => some .rel
  | 2 => some .ar
  | 3 => some .sc
  | _ => none

/-- The code of R190. -/
def bitsOfFenceScope : FenceScope → BitVec 3
  | .team => 0
  | .wg => 1
  | .core => 2
  | .cl => 3
  | .die => 4
  | .dev => 5
  | .sys => 6

/-- Reading the code of R190; none for a value it does not define. -/
def readFenceScope (b : BitVec 3) : Option FenceScope :=
  match b.toNat with
  | 0 => some .team
  | 1 => some .wg
  | 2 => some .core
  | 3 => some .cl
  | 4 => some .die
  | 5 => some .dev
  | 6 => some .sys
  | _ => none

/-- The code of R213. -/
def bitsOfSemOp : SemOp → BitVec 3
  | .set => 0
  | .add => 1
  | .or => 2
  | .maxU => 3

/-- Reading the code of R213; none for a value it does not define. -/
def readSemOp (b : BitVec 3) : Option SemOp :=
  match b.toNat with
  | 0 => some .set
  | 1 => some .add
  | 2 => some .or
  | 3 => some .maxU
  | _ => none

/-- The code of R103. -/
def bitsOfCancelLevel : CancelLevel → BitVec 2
  | .launch => 0
  | .graph => 1
  | .phase => 2
  | .job => 3

/-- Reading the code of R103; none for a value it does not define. -/
def readCancelLevel (b : BitVec 2) : Option CancelLevel :=
  match b.toNat with
  | 0 => some .launch
  | 1 => some .graph
  | 2 => some .phase
  | 3 => some .job
  | _ => none

/-- The code of R163, R271. -/
def bitsOfInvScope : InvScope → BitVec 3
  | .core => 0
  | .cl => 1
  | .die => 2
  | .part => 3
  | .dev => 4

/-- Reading the code of R163, R271; none for a value it does not define. -/
def readInvScope (b : BitVec 3) : Option InvScope :=
  match b.toNat with
  | 0 => some .core
  | 1 => some .cl
  | 2 => some .die
  | 3 => some .part
  | 4 => some .dev
  | _ => none

/-- The code of R235. -/
def bitsOfMSize : MSize → BitVec 2
  | .h => 0
  | .b => 1
  | .n => 2
  | .s => 3

/-- Reading the code of R235; none for a value it does not define. -/
def readMSize (b : BitVec 2) : Option MSize :=
  match b.toNat with
  | 0 => some .h
  | 1 => some .b
  | 2 => some .n
  | 3 => some .s
  | _ => none

/-- The code of R235. -/
def bitsOfMStFmt : MStFmt → BitVec 2
  | .f32 => 0
  | .bf16 => 1
  | .f16 => 2

/-- Reading the code of R235; none for a value it does not define. -/
def readMStFmt (b : BitVec 2) : Option MStFmt :=
  match b.toNat with
  | 0 => some .f32
  | 1 => some .bf16
  | 2 => some .f16
  | _ => none

/-- The code of R119. -/
def bitsOfSysReg : SysReg → BitVec 8
  | .teamid => 0
  | .laneid => 1
  | .lanes => 2
  | .wgid => 3
  | .launchid => 4
  | .core => 5
  | .cluster => 6
  | .priv => 7
  | .rlvl => 16
  | .noticeEn => 17
  | .tcause => 32
  | .tpc => 33
  | .taddr => 34
  | .tinfo => 35
  | .trapvec => 36
  | .fpstat => 48
  | .seed => 49
  | .timeNs => 64
  | .cycles => 65
  | .fb => 80
  | .fsp => 81

/-- Reading the code of R119; none for a value it does not define. -/
def readSysReg (b : BitVec 8) : Option SysReg :=
  match b.toNat with
  | 0 => some .teamid
  | 1 => some .laneid
  | 2 => some .lanes
  | 3 => some .wgid
  | 4 => some .launchid
  | 5 => some .core
  | 6 => some .cluster
  | 7 => some .priv
  | 16 => some .rlvl
  | 17 => some .noticeEn
  | 32 => some .tcause
  | 33 => some .tpc
  | 34 => some .taddr
  | 35 => some .tinfo
  | 36 => some .trapvec
  | 48 => some .fpstat
  | 49 => some .seed
  | 64 => some .timeNs
  | 65 => some .cycles
  | 80 => some .fb
  | 81 => some .fsp
  | _ => none

/-- The format code of R79. -/
def bitsOfFmt : Fmt → BitVec 4
  | .fp32 => 0 | .fp16 => 1 | .bf16 => 2 | .e4m3 => 3 | .e5m2 => 4 | .int32 => 5 | .uint32 => 6
  | .reg n => BitVec.ofNat 4 (8 + n.val)

/-- Reading the format code of R79; code 7 is none. -/
def readFmt (b : BitVec 4) : Option Fmt :=
  match b.toNat with
  | 0 => some .fp32 | 1 => some .fp16 | 2 => some .bf16 | 3 => some .e4m3 | 4 => some .e5m2
  | 5 => some .int32 | 6 => some .uint32 | 7 => none
  | k => if h : k - 8 < 8 then some (.reg ⟨k - 8, h⟩) else none

/-- MMA's format code (R235). -/
def bitsOfMmaFmt : MmaFmt → BitVec 4
  | .bf16 => 0 | .f16 => 1 | .e4m3 => 2 | .e5m2 => 3
  | .reg n => BitVec.ofNat 4 (8 + n.val)

/-- Reading MMA's format code (R235); 4 to 7 are none. -/
def readMmaFmt (b : BitVec 4) : Option MmaFmt :=
  match b.toNat with
  | 0 => some .bf16 | 1 => some .f16 | 2 => some .e4m3 | 3 => some .e5m2
  | 4 => none | 5 => none | 6 => none | 7 => none
  | k => if h : k - 8 < 8 then some (.reg ⟨k - 8, h⟩) else none

/-- The modifier bits [16:11] of an X.M word (R76). -/
def bitsOfMods (m : Mods) : BitVec 6 :=
  BitVec.ofBool m.absC ++ BitVec.ofBool m.absB ++ BitVec.ofBool m.absA ++
    BitVec.ofBool m.negC ++ BitVec.ofBool m.negB ++ BitVec.ofBool m.negA

/-- Reading the modifier bits (R76). -/
def readMods (b : BitVec 6) : Option Mods :=
  some ⟨b.getLsbD 5, b.getLsbD 4, b.getLsbD 3, b.getLsbD 2, b.getLsbD 1, b.getLsbD 0⟩

/-- A one-bit field. -/
def bitsOfBool (b : Bool) : BitVec 1 := BitVec.ofBool b

/-- Reading a one-bit field. -/
def readBool (b : BitVec 1) : Option Bool := some (b.getLsbD 0)

/-- The fields of IADD: sum modulo 2^32 (R388). -/
def decIadd (w _x : Word) : Option Instr :=
  some (.iadd (w.extractLsb' 16 8) (w.extractLsb' 8 8) (w.extractLsb' 0 8))

/-- The fields of IADD with an X.L literal for B (R388, R75). -/
def decIaddLit (w x : Word) : Option Instr :=
  if w.extractLsb' 0 8 = 0 then
    some (.iaddLit (w.extractLsb' 16 8) (w.extractLsb' 8 8) (x.extractLsb' 0 32))
  else none

/-- The fields of ISUB: difference modulo 2^32 (R388). -/
def decIsub (w _x : Word) : Option Instr :=
  some (.isub (w.extractLsb' 16 8) (w.extractLsb' 8 8) (w.extractLsb' 0 8))

/-- The fields of ISUB with an X.L literal for B (R388, R75). -/
def decIsubLit (w x : Word) : Option Instr :=
  if w.extractLsb' 0 8 = 0 then
    some (.isubLit (w.extractLsb' 16 8) (w.extractLsb' 8 8) (x.extractLsb' 0 32))
  else none

/-- The fields of IMUL: low product modulo 2^32 (R388). -/
def decImul (w _x : Word) : Option Instr :=
  some (.imul (w.extractLsb' 16 8) (w.extractLsb' 8 8) (w.extractLsb' 0 8))

/-- The fields of IMUL with an X.L literal for B (R388, R75). -/
def decImulLit (w x : Word) : Option Instr :=
  if w.extractLsb' 0 8 = 0 then
    some (.imulLit (w.extractLsb' 16 8) (w.extractLsb' 8 8) (x.extractLsb' 0 32))
  else none

/-- The fields of IMULH.S (R388). -/
def decImulhS (w _x : Word) : Option Instr :=
  some (.imulhS (w.extractLsb' 16 8) (w.extractLsb' 8 8) (w.extractLsb' 0 8))

/-- The fields of IMULH.U (R388). -/
def decImulhU (w _x : Word) : Option Instr :=
  some (.imulhU (w.extractLsb' 16 8) (w.extractLsb' 8 8) (w.extractLsb' 0 8))

/-- The fields of IMAD (R394). -/
def decImad (w x : Word) : Option Instr :=
  if x.extractLsb' 8 24 = 0 then
    some (.imad (w.extractLsb' 16 8) (w.extractLsb' 8 8) (w.extractLsb' 0 8) (x.extractLsb' 0 8))
  else none

/-- The fields of IMIN.S (R388). -/
def decIminS (w _x : Word) : Option Instr :=
  some (.iminS (w.extractLsb' 16 8) (w.extractLsb' 8 8) (w.extractLsb' 0 8))

/-- The fields of IMIN.S with an X.L literal for B (R388, R75). -/
def decIminSLit (w x : Word) : Option Instr :=
  if w.extractLsb' 0 8 = 0 then
    some (.iminSLit (w.extractLsb' 16 8) (w.extractLsb' 8 8) (x.extractLsb' 0 32))
  else none

/-- The fields of IMIN.U (R388). -/
def decIminU (w _x : Word) : Option Instr :=
  some (.iminU (w.extractLsb' 16 8) (w.extractLsb' 8 8) (w.extractLsb' 0 8))

/-- The fields of IMIN.U with an X.L literal for B (R388, R75). -/
def decIminULit (w x : Word) : Option Instr :=
  if w.extractLsb' 0 8 = 0 then
    some (.iminULit (w.extractLsb' 16 8) (w.extractLsb' 8 8) (x.extractLsb' 0 32))
  else none

/-- The fields of IMAX.S (R388). -/
def decImaxS (w _x : Word) : Option Instr :=
  some (.imaxS (w.extractLsb' 16 8) (w.extractLsb' 8 8) (w.extractLsb' 0 8))

/-- The fields of IMAX.S with an X.L literal for B (R388, R75). -/
def decImaxSLit (w x : Word) : Option Instr :=
  if w.extractLsb' 0 8 = 0 then
    some (.imaxSLit (w.extractLsb' 16 8) (w.extractLsb' 8 8) (x.extractLsb' 0 32))
  else none

/-- The fields of IMAX.U (R388). -/
def decImaxU (w _x : Word) : Option Instr :=
  some (.imaxU (w.extractLsb' 16 8) (w.extractLsb' 8 8) (w.extractLsb' 0 8))

/-- The fields of IMAX.U with an X.L literal for B (R388, R75). -/
def decImaxULit (w x : Word) : Option Instr :=
  if w.extractLsb' 0 8 = 0 then
    some (.imaxULit (w.extractLsb' 16 8) (w.extractLsb' 8 8) (x.extractLsb' 0 32))
  else none

/-- The fields of IABS (R388). -/
def decIabs (w _x : Word) : Option Instr :=
  if w.extractLsb' 0 8 = 0 then
    some (.iabs (w.extractLsb' 16 8) (w.extractLsb' 8 8))
  else none

/-- The fields of ICMP (R392). -/
def decIcmp (w x : Word) : Option Instr :=
  if x.extractLsb' 24 8 = 0 ∧ x.extractLsb' 21 3 = 0 ∧ x.extractLsb' 8 9 = 0 ∧ x.extractLsb' 0 8 = 0 then
    (readCond (x.extractLsb' 17 4)).bind fun cond =>
    some (.icmp (w.extractLsb' 16 8) (w.extractLsb' 8 8) (w.extractLsb' 0 8) cond)
  else none

/-- The fields of LEA, signed index, no shift (R401). -/
def decLea (w _x : Word) : Option Instr :=
  some (.lea (w.extractLsb' 16 8) (w.extractLsb' 8 8) (w.extractLsb' 0 8))

/-- The fields of LEA with a shift and an index signedness (R401). -/
def decLeaX (w x : Word) : Option Instr :=
  if x.extractLsb' 24 4 = 0 ∧ x.extractLsb' 0 21 = 0 then
    (readLeaIndex (x.extractLsb' 28 4)).bind fun ix =>
    some (.leaX (w.extractLsb' 16 8) (w.extractLsb' 8 8) (w.extractLsb' 0 8) ix (x.extractLsb' 21 3))
  else none

/-- The fields of AND (R343). -/
def decAnd (w _x : Word) : Option Instr :=
  some (.and (w.extractLsb' 16 8) (w.extractLsb' 8 8) (w.extractLsb' 0 8))

/-- The fields of AND with an X.L literal for B (R343, R75). -/
def decAndLit (w x : Word) : Option Instr :=
  if w.extractLsb' 0 8 = 0 then
    some (.andLit (w.extractLsb' 16 8) (w.extractLsb' 8 8) (x.extractLsb' 0 32))
  else none

/-- The fields of OR (R423). -/
def decOr (w _x : Word) : Option Instr :=
  some (.or (w.extractLsb' 16 8) (w.extractLsb' 8 8) (w.extractLsb' 0 8))

/-- The fields of OR with an X.L literal for B (R423, R75). -/
def decOrLit (w x : Word) : Option Instr :=
  if w.extractLsb' 0 8 = 0 then
    some (.orLit (w.extractLsb' 16 8) (w.extractLsb' 8 8) (x.extractLsb' 0 32))
  else none

/-- The fields of XOR (R423). -/
def decXor (w _x : Word) : Option Instr :=
  some (.xor (w.extractLsb' 16 8) (w.extractLsb' 8 8) (w.extractLsb' 0 8))

/-- The fields of XOR with an X.L literal for B (R423, R75). -/
def decXorLit (w x : Word) : Option Instr :=
  if w.extractLsb' 0 8 = 0 then
    some (.xorLit (w.extractLsb' 16 8) (w.extractLsb' 8 8) (x.extractLsb' 0 32))
  else none

/-- The fields of SHL (R435). -/
def decShl (w _x : Word) : Option Instr :=
  some (.shl (w.extractLsb' 16 8) (w.extractLsb' 8 8) (w.extractLsb' 0 8))

/-- The fields of SHR, logical (R435). -/
def decShr (w _x : Word) : Option Instr :=
  some (.shr (w.extractLsb' 16 8) (w.extractLsb' 8 8) (w.extractLsb' 0 8))

/-- The fields of SHR with MODE: .U or .S (R435). -/
def decShrX (w x : Word) : Option Instr :=
  if x.extractLsb' 24 8 = 0 ∧ x.extractLsb' 22 2 = 0 ∧ x.extractLsb' 0 21 = 0 then
    (readBool (x.extractLsb' 21 1)).bind fun arith =>
    some (.shrX (w.extractLsb' 16 8) (w.extractLsb' 8 8) (w.extractLsb' 0 8) arith)
  else none

/-- The fields of ROT (R435). -/
def decRot (w _x : Word) : Option Instr :=
  some (.rot (w.extractLsb' 16 8) (w.extractLsb' 8 8) (w.extractLsb' 0 8))

/-- The fields of BFX (R349). -/
def decBfx (w x : Word) : Option Instr :=
  if x.extractLsb' 24 8 = 0 ∧ x.extractLsb' 22 2 = 0 ∧ x.extractLsb' 8 13 = 0 then
    (readBool (x.extractLsb' 21 1)).bind fun signed =>
    some (.bfx (w.extractLsb' 16 8) (w.extractLsb' 8 8) (w.extractLsb' 0 8) signed (x.extractLsb' 0 8))
  else none

/-- The fields of BFI (R349). -/
def decBfi (w x : Word) : Option Instr :=
  if x.extractLsb' 8 24 = 0 then
    some (.bfi (w.extractLsb' 16 8) (w.extractLsb' 8 8) (w.extractLsb' 0 8) (x.extractLsb' 0 8))
  else none

/-- The fields of POPC (R429). -/
def decPopc (w _x : Word) : Option Instr :=
  if w.extractLsb' 0 8 = 0 then
    some (.popc (w.extractLsb' 16 8) (w.extractLsb' 8 8))
  else none

/-- The fields of CLZ (R355). -/
def decClz (w _x : Word) : Option Instr :=
  if w.extractLsb' 0 8 = 0 then
    some (.clz (w.extractLsb' 16 8) (w.extractLsb' 8 8))
  else none

/-- The fields of BREV (R355). -/
def decBrev (w _x : Word) : Option Instr :=
  if w.extractLsb' 0 8 = 0 then
    some (.brev (w.extractLsb' 16 8) (w.extractLsb' 8 8))
  else none

/-- The fields of SEL (R437). -/
def decSel (w x : Word) : Option Instr :=
  if x.extractLsb' 8 24 = 0 then
    some (.sel (w.extractLsb' 16 8) (w.extractLsb' 8 8) (w.extractLsb' 0 8) (x.extractLsb' 0 8))
  else none

/-- The fields of MOV (R413). -/
def decMov (w _x : Word) : Option Instr :=
  if w.extractLsb' 0 8 = 0 then
    some (.mov (w.extractLsb' 16 8) (w.extractLsb' 8 8))
  else none

/-- The fields of MOV with an X.L literal (R413). -/
def decMovLit (w x : Word) : Option Instr :=
  if w.extractLsb' 8 8 = 0 ∧ w.extractLsb' 0 8 = 0 then
    some (.movLit (w.extractLsb' 16 8) (x.extractLsb' 0 32))
  else none

/-- The fields of MOVI (R413). -/
def decMovi (w _x : Word) : Option Instr :=
  some (.movi (w.extractLsb' 16 8) (w.extractLsb' 0 16))

/-- The fields of MOVX (R113). -/
def decMovx (w _x : Word) : Option Instr :=
  if w.extractLsb' 0 8 = 0 then
    some (.movx (w.extractLsb' 16 8) (w.extractLsb' 8 8))
  else none

/-- The fields of MOVXW (R113). -/
def decMovxw (w _x : Word) : Option Instr :=
  if w.extractLsb' 16 8 = 0 then
    some (.movxw (w.extractLsb' 8 8) (w.extractLsb' 0 8))
  else none

/-- The fields of FADD, RNE (R373). -/
def decFadd (w _x : Word) : Option Instr :=
  some (.fadd (w.extractLsb' 16 8) (w.extractLsb' 8 8) (w.extractLsb' 0 8))

/-- The fields of FADD with rounding and modifiers (R373). -/
def decFaddX (w x : Word) : Option Instr :=
  if x.extractLsb' 17 15 = 0 ∧ x.extractLsb' 0 8 = 0 then
    (readMods (x.extractLsb' 11 6)).bind fun m =>
    (readRm (x.extractLsb' 8 3)).bind fun rm =>
    some (.faddX (w.extractLsb' 16 8) (w.extractLsb' 8 8) (w.extractLsb' 0 8) m rm)
  else none

/-- The fields of FSUB, RNE (R373). -/
def decFsub (w _x : Word) : Option Instr :=
  some (.fsub (w.extractLsb' 16 8) (w.extractLsb' 8 8) (w.extractLsb' 0 8))

/-- The fields of FSUB with rounding and modifiers (R373). -/
def decFsubX (w x : Word) : Option Instr :=
  if x.extractLsb' 17 15 = 0 ∧ x.extractLsb' 0 8 = 0 then
    (readMods (x.extractLsb' 11 6)).bind fun m =>
    (readRm (x.extractLsb' 8 3)).bind fun rm =>
    some (.fsubX (w.extractLsb' 16 8) (w.extractLsb' 8 8) (w.extractLsb' 0 8) m rm)
  else none

/-- The fields of FMUL, RNE (R373). -/
def decFmul (w _x : Word) : Option Instr :=
  some (.fmul (w.extractLsb' 16 8) (w.extractLsb' 8 8) (w.extractLsb' 0 8))

/-- The fields of FMUL with rounding and modifiers (R373). -/
def decFmulX (w x : Word) : Option Instr :=
  if x.extractLsb' 17 15 = 0 ∧ x.extractLsb' 0 8 = 0 then
    (readMods (x.extractLsb' 11 6)).bind fun m =>
    (readRm (x.extractLsb' 8 3)).bind fun rm =>
    some (.fmulX (w.extractLsb' 16 8) (w.extractLsb' 8 8) (w.extractLsb' 0 8) m rm)
  else none

/-- The fields of FFMA (R381). -/
def decFfma (w x : Word) : Option Instr :=
  if x.extractLsb' 17 15 = 0 then
    (readMods (x.extractLsb' 11 6)).bind fun m =>
    (readRm (x.extractLsb' 8 3)).bind fun rm =>
    some (.ffma (w.extractLsb' 16 8) (w.extractLsb' 8 8) (w.extractLsb' 0 8) m rm (x.extractLsb' 0 8))
  else none

/-- The fields of FMIN (R373). -/
def decFmin (w _x : Word) : Option Instr :=
  some (.fmin (w.extractLsb' 16 8) (w.extractLsb' 8 8) (w.extractLsb' 0 8))

/-- The fields of FMIN with modifiers (R373). -/
def decFminX (w x : Word) : Option Instr :=
  if x.extractLsb' 17 15 = 0 ∧ x.extractLsb' 8 3 = 0 ∧ x.extractLsb' 0 8 = 0 then
    (readMods (x.extractLsb' 11 6)).bind fun m =>
    some (.fminX (w.extractLsb' 16 8) (w.extractLsb' 8 8) (w.extractLsb' 0 8) m)
  else none

/-- The fields of FMAX (R373). -/
def decFmax (w _x : Word) : Option Instr :=
  some (.fmax (w.extractLsb' 16 8) (w.extractLsb' 8 8) (w.extractLsb' 0 8))

/-- The fields of FMAX with modifiers (R373). -/
def decFmaxX (w x : Word) : Option Instr :=
  if x.extractLsb' 17 15 = 0 ∧ x.extractLsb' 8 3 = 0 ∧ x.extractLsb' 0 8 = 0 then
    (readMods (x.extractLsb' 11 6)).bind fun m =>
    some (.fmaxX (w.extractLsb' 16 8) (w.extractLsb' 8 8) (w.extractLsb' 0 8) m)
  else none

/-- The fields of FCMP (R375). -/
def decFcmp (w x : Word) : Option Instr :=
  if x.extractLsb' 21 11 = 0 ∧ x.extractLsb' 8 3 = 0 ∧ x.extractLsb' 0 8 = 0 then
    (readCond (x.extractLsb' 17 4)).bind fun cond =>
    (readMods (x.extractLsb' 11 6)).bind fun m =>
    some (.fcmp (w.extractLsb' 16 8) (w.extractLsb' 8 8) (w.extractLsb' 0 8) cond m)
  else none

/-- The fields of FRCP (R377). -/
def decFrcp (w _x : Word) : Option Instr :=
  if w.extractLsb' 0 8 = 0 then
    some (.frcp (w.extractLsb' 16 8) (w.extractLsb' 8 8))
  else none

/-- The fields of FRCP with rounding and modifiers (R377). -/
def decFrcpX (w x : Word) : Option Instr :=
  if w.extractLsb' 0 8 = 0 ∧ x.extractLsb' 17 15 = 0 ∧ x.extractLsb' 0 8 = 0 then
    (readMods (x.extractLsb' 11 6)).bind fun m =>
    (readRm (x.extractLsb' 8 3)).bind fun rm =>
    some (.frcpX (w.extractLsb' 16 8) (w.extractLsb' 8 8) m rm)
  else none

/-- The fields of FRSQ (R377). -/
def decFrsq (w _x : Word) : Option Instr :=
  if w.extractLsb' 0 8 = 0 then
    some (.frsq (w.extractLsb' 16 8) (w.extractLsb' 8 8))
  else none

/-- The fields of FRSQ with rounding and modifiers (R377). -/
def decFrsqX (w x : Word) : Option Instr :=
  if w.extractLsb' 0 8 = 0 ∧ x.extractLsb' 17 15 = 0 ∧ x.extractLsb' 0 8 = 0 then
    (readMods (x.extractLsb' 11 6)).bind fun m =>
    (readRm (x.extractLsb' 8 3)).bind fun rm =>
    some (.frsqX (w.extractLsb' 16 8) (w.extractLsb' 8 8) m rm)
  else none

/-- The fields of FSQRT (R377). -/
def decFsqrt (w _x : Word) : Option Instr :=
  if w.extractLsb' 0 8 = 0 then
    some (.fsqrt (w.extractLsb' 16 8) (w.extractLsb' 8 8))
  else none

/-- The fields of FSQRT with rounding and modifiers (R377). -/
def decFsqrtX (w x : Word) : Option Instr :=
  if w.extractLsb' 0 8 = 0 ∧ x.extractLsb' 17 15 = 0 ∧ x.extractLsb' 0 8 = 0 then
    (readMods (x.extractLsb' 11 6)).bind fun m =>
    (readRm (x.extractLsb' 8 3)).bind fun rm =>
    some (.fsqrtX (w.extractLsb' 16 8) (w.extractLsb' 8 8) m rm)
  else none

/-- The fields of FEXP2 (R377). -/
def decFexp2 (w _x : Word) : Option Instr :=
  if w.extractLsb' 0 8 = 0 then
    some (.fexp2 (w.extractLsb' 16 8) (w.extractLsb' 8 8))
  else none

/-- The fields of FEXP2 with rounding and modifiers (R377). -/
def decFexp2X (w x : Word) : Option Instr :=
  if w.extractLsb' 0 8 = 0 ∧ x.extractLsb' 17 15 = 0 ∧ x.extractLsb' 0 8 = 0 then
    (readMods (x.extractLsb' 11 6)).bind fun m =>
    (readRm (x.extractLsb' 8 3)).bind fun rm =>
    some (.fexp2X (w.extractLsb' 16 8) (w.extractLsb' 8 8) m rm)
  else none

/-- The fields of FLOG2 (R377). -/
def decFlog2 (w _x : Word) : Option Instr :=
  if w.extractLsb' 0 8 = 0 then
    some (.flog2 (w.extractLsb' 16 8) (w.extractLsb' 8 8))
  else none

/-- The fields of FLOG2 with rounding and modifiers (R377). -/
def decFlog2X (w x : Word) : Option Instr :=
  if w.extractLsb' 0 8 = 0 ∧ x.extractLsb' 17 15 = 0 ∧ x.extractLsb' 0 8 = 0 then
    (readMods (x.extractLsb' 11 6)).bind fun m =>
    (readRm (x.extractLsb' 8 3)).bind fun rm =>
    some (.flog2X (w.extractLsb' 16 8) (w.extractLsb' 8 8) m rm)
  else none

/-- The fields of FSIN (R377). -/
def decFsin (w _x : Word) : Option Instr :=
  if w.extractLsb' 0 8 = 0 then
    some (.fsin (w.extractLsb' 16 8) (w.extractLsb' 8 8))
  else none

/-- The fields of FSIN with rounding and modifiers (R377). -/
def decFsinX (w x : Word) : Option Instr :=
  if w.extractLsb' 0 8 = 0 ∧ x.extractLsb' 17 15 = 0 ∧ x.extractLsb' 0 8 = 0 then
    (readMods (x.extractLsb' 11 6)).bind fun m =>
    (readRm (x.extractLsb' 8 3)).bind fun rm =>
    some (.fsinX (w.extractLsb' 16 8) (w.extractLsb' 8 8) m rm)
  else none

/-- The fields of FCOS (R377). -/
def decFcos (w _x : Word) : Option Instr :=
  if w.extractLsb' 0 8 = 0 then
    some (.fcos (w.extractLsb' 16 8) (w.extractLsb' 8 8))
  else none

/-- The fields of FCOS with rounding and modifiers (R377). -/
def decFcosX (w x : Word) : Option Instr :=
  if w.extractLsb' 0 8 = 0 ∧ x.extractLsb' 17 15 = 0 ∧ x.extractLsb' 0 8 = 0 then
    (readMods (x.extractLsb' 11 6)).bind fun m =>
    (readRm (x.extractLsb' 8 3)).bind fun rm =>
    some (.fcosX (w.extractLsb' 16 8) (w.extractLsb' 8 8) m rm)
  else none

/-- The fields of PADD, FP16 with RNE (R426). -/
def decPadd (w _x : Word) : Option Instr :=
  some (.padd (w.extractLsb' 16 8) (w.extractLsb' 8 8) (w.extractLsb' 0 8))

/-- The fields of PADD with format, rounding and modifiers (R426). -/
def decPaddX (w x : Word) : Option Instr :=
  if x.extractLsb' 28 4 = 0 ∧ x.extractLsb' 17 7 = 0 ∧ x.extractLsb' 0 8 = 0 then
    (readPFmt (x.extractLsb' 24 4)).bind fun pf =>
    (readMods (x.extractLsb' 11 6)).bind fun m =>
    (readRm (x.extractLsb' 8 3)).bind fun rm =>
    some (.paddX (w.extractLsb' 16 8) (w.extractLsb' 8 8) (w.extractLsb' 0 8) pf m rm)
  else none

/-- The fields of PMUL, FP16 with RNE (R426). -/
def decPmul (w _x : Word) : Option Instr :=
  some (.pmul (w.extractLsb' 16 8) (w.extractLsb' 8 8) (w.extractLsb' 0 8))

/-- The fields of PMUL with format, rounding and modifiers (R426). -/
def decPmulX (w x : Word) : Option Instr :=
  if x.extractLsb' 28 4 = 0 ∧ x.extractLsb' 17 7 = 0 ∧ x.extractLsb' 0 8 = 0 then
    (readPFmt (x.extractLsb' 24 4)).bind fun pf =>
    (readMods (x.extractLsb' 11 6)).bind fun m =>
    (readRm (x.extractLsb' 8 3)).bind fun rm =>
    some (.pmulX (w.extractLsb' 16 8) (w.extractLsb' 8 8) (w.extractLsb' 0 8) pf m rm)
  else none

/-- The fields of PFMA (R426). -/
def decPfma (w x : Word) : Option Instr :=
  if x.extractLsb' 28 4 = 0 ∧ x.extractLsb' 17 7 = 0 then
    (readPFmt (x.extractLsb' 24 4)).bind fun pf =>
    (readMods (x.extractLsb' 11 6)).bind fun m =>
    (readRm (x.extractLsb' 8 3)).bind fun rm =>
    some (.pfma (w.extractLsb' 16 8) (w.extractLsb' 8 8) (w.extractLsb' 0 8) pf m rm (x.extractLsb' 0 8))
  else none

/-- The fields of PACK8 (R424). -/
def decPack8 (w x : Word) : Option Instr :=
  if w.extractLsb' 0 8 = 0 ∧ x.extractLsb' 28 4 = 0 ∧ x.extractLsb' 11 13 = 0 ∧ x.extractLsb' 0 8 = 0 then
    (readFmt (x.extractLsb' 24 4)).bind fun fd =>
    (readRm (x.extractLsb' 8 3)).bind fun rm =>
    some (.pack8 (w.extractLsb' 16 8) (w.extractLsb' 8 8) fd rm)
  else none

/-- The fields of UNPACK (R450). -/
def decUnpack (w x : Word) : Option Instr :=
  if x.extractLsb' 0 28 = 0 then
    (readFmt (x.extractLsb' 28 4)).bind fun fs =>
    some (.unpack (w.extractLsb' 16 8) (w.extractLsb' 8 8) (w.extractLsb' 0 8) fs)
  else none

/-- The fields of CVT (R229). -/
def decCvt (w x : Word) : Option Instr :=
  if w.extractLsb' 0 8 = 0 ∧ x.extractLsb' 22 2 = 0 ∧ x.extractLsb' 17 4 = 0 ∧ x.extractLsb' 0 8 = 0 then
    (readFmt (x.extractLsb' 28 4)).bind fun fs =>
    (readFmt (x.extractLsb' 24 4)).bind fun fd =>
    (readBool (x.extractLsb' 21 1)).bind fun sat =>
    (readMods (x.extractLsb' 11 6)).bind fun m =>
    (readRm (x.extractLsb' 8 3)).bind fun rm =>
    some (.cvt (w.extractLsb' 16 8) (w.extractLsb' 8 8) fs fd sat m rm)
  else none

/-- The fields of FMTSET (R383). -/
def decFmtset (w _x : Word) : Option Instr :=
  if w.extractLsb' 19 5 = 0 ∧ w.extractLsb' 0 8 = 0 then
    some (.fmtset (w.extractLsb' 16 3) (w.extractLsb' 8 8))
  else none

/-- The fields of FMTGET (R383). -/
def decFmtget (w _x : Word) : Option Instr :=
  if w.extractLsb' 11 5 = 0 ∧ w.extractLsb' 0 8 = 0 then
    some (.fmtget (w.extractLsb' 16 8) (w.extractLsb' 8 3))
  else none

/-- The fields of SHFL (R430). -/
def decShfl (w x : Word) : Option Instr :=
  if x.extractLsb' 24 8 = 0 ∧ x.extractLsb' 0 21 = 0 then
    (readShflMode (x.extractLsb' 21 3)).bind fun mode =>
    some (.shfl (w.extractLsb' 16 8) (w.extractLsb' 8 8) (w.extractLsb' 0 8) mode)
  else none

/-- The fields of VOTE (R430). -/
def decVote (w x : Word) : Option Instr :=
  if x.extractLsb' 24 8 = 0 ∧ x.extractLsb' 0 21 = 0 then
    (readVoteMode (x.extractLsb' 21 3)).bind fun mode =>
    some (.vote (w.extractLsb' 16 8) (w.extractLsb' 8 8) (w.extractLsb' 0 8) mode)
  else none

/-- The fields of REDUX (R430). -/
def decRedux (w x : Word) : Option Instr :=
  if w.extractLsb' 0 8 = 0 ∧ x.extractLsb' 24 8 = 0 ∧ x.extractLsb' 0 21 = 0 then
    (readReduxOp (x.extractLsb' 21 3)).bind fun mode =>
    some (.redux (w.extractLsb' 16 8) (w.extractLsb' 8 8) mode)
  else none

/-- The fields of BCAST (R348). -/
def decBcast (w _x : Word) : Option Instr :=
  some (.bcast (w.extractLsb' 16 8) (w.extractLsb' 8 8) (w.extractLsb' 0 8))

/-- The fields of LD.B (R397). -/
def decLdB (w _x : Word) : Option Instr :=
  some (.ldB (w.extractLsb' 16 8) (w.extractLsb' 8 8) (w.extractLsb' 5 3) (w.extractLsb' 0 5))

/-- The fields of LD.B with an X.A word (R397). -/
def decLdBX (w x : Word) : Option Instr :=
  if x.extractLsb' 3 29 = 0 ∧ x.extractLsb' 1 1 = 0 then
    (readBool (x.extractLsb' 2 1)).bind fun signed =>
    (readBool (x.extractLsb' 0 1)).bind fun acq =>
    some (.ldBX (w.extractLsb' 16 8) (w.extractLsb' 8 8) (w.extractLsb' 5 3) (w.extractLsb' 0 5) signed acq)
  else none

/-- The fields of LD.H (R397). -/
def decLdH (w _x : Word) : Option Instr :=
  some (.ldH (w.extractLsb' 16 8) (w.extractLsb' 8 8) (w.extractLsb' 5 3) (w.extractLsb' 0 5))

/-- The fields of LD.H with an X.A word (R397). -/
def decLdHX (w x : Word) : Option Instr :=
  if x.extractLsb' 3 29 = 0 ∧ x.extractLsb' 1 1 = 0 then
    (readBool (x.extractLsb' 2 1)).bind fun signed =>
    (readBool (x.extractLsb' 0 1)).bind fun acq =>
    some (.ldHX (w.extractLsb' 16 8) (w.extractLsb' 8 8) (w.extractLsb' 5 3) (w.extractLsb' 0 5) signed acq)
  else none

/-- The fields of LD.W (R397). -/
def decLdW (w _x : Word) : Option Instr :=
  some (.ldW (w.extractLsb' 16 8) (w.extractLsb' 8 8) (w.extractLsb' 5 3) (w.extractLsb' 0 5))

/-- The fields of LD.W with an X.A word (R397). -/
def decLdWX (w x : Word) : Option Instr :=
  if x.extractLsb' 3 29 = 0 ∧ x.extractLsb' 2 1 = 0 ∧ x.extractLsb' 1 1 = 0 then
    (readBool (x.extractLsb' 0 1)).bind fun acq =>
    some (.ldWX (w.extractLsb' 16 8) (w.extractLsb' 8 8) (w.extractLsb' 5 3) (w.extractLsb' 0 5) acq)
  else none

/-- The fields of LD.D (R397). -/
def decLdD (w _x : Word) : Option Instr :=
  some (.ldD (w.extractLsb' 16 8) (w.extractLsb' 8 8) (w.extractLsb' 5 3) (w.extractLsb' 0 5))

/-- The fields of LD.D with an X.A word (R397). -/
def decLdDX (w x : Word) : Option Instr :=
  if x.extractLsb' 3 29 = 0 ∧ x.extractLsb' 2 1 = 0 ∧ x.extractLsb' 1 1 = 0 then
    (readBool (x.extractLsb' 0 1)).bind fun acq =>
    some (.ldDX (w.extractLsb' 16 8) (w.extractLsb' 8 8) (w.extractLsb' 5 3) (w.extractLsb' 0 5) acq)
  else none

/-- The fields of LD.Q (R397). -/
def decLdQ (w _x : Word) : Option Instr :=
  some (.ldQ (w.extractLsb' 16 8) (w.extractLsb' 8 8) (w.extractLsb' 5 3) (w.extractLsb' 0 5))

/-- The fields of LD.Q with an X.A word (R397). -/
def decLdQX (w x : Word) : Option Instr :=
  if x.extractLsb' 3 29 = 0 ∧ x.extractLsb' 2 1 = 0 ∧ x.extractLsb' 1 1 = 0 then
    (readBool (x.extractLsb' 0 1)).bind fun acq =>
    some (.ldQX (w.extractLsb' 16 8) (w.extractLsb' 8 8) (w.extractLsb' 5 3) (w.extractLsb' 0 5) acq)
  else none

/-- The fields of ST.B (R443). -/
def decStB (w _x : Word) : Option Instr :=
  some (.stB (w.extractLsb' 16 8) (w.extractLsb' 8 8) (w.extractLsb' 5 3) (w.extractLsb' 0 5))

/-- The fields of ST.B with an X.A word (R443). -/
def decStBX (w x : Word) : Option Instr :=
  if x.extractLsb' 4 28 = 0 ∧ x.extractLsb' 2 2 = 0 ∧ x.extractLsb' 0 1 = 0 then
    (readBool (x.extractLsb' 1 1)).bind fun rel =>
    some (.stBX (w.extractLsb' 16 8) (w.extractLsb' 8 8) (w.extractLsb' 5 3) (w.extractLsb' 0 5) rel)
  else none

/-- The fields of ST.H (R443). -/
def decStH (w _x : Word) : Option Instr :=
  some (.stH (w.extractLsb' 16 8) (w.extractLsb' 8 8) (w.extractLsb' 5 3) (w.extractLsb' 0 5))

/-- The fields of ST.H with an X.A word (R443). -/
def decStHX (w x : Word) : Option Instr :=
  if x.extractLsb' 4 28 = 0 ∧ x.extractLsb' 2 2 = 0 ∧ x.extractLsb' 0 1 = 0 then
    (readBool (x.extractLsb' 1 1)).bind fun rel =>
    some (.stHX (w.extractLsb' 16 8) (w.extractLsb' 8 8) (w.extractLsb' 5 3) (w.extractLsb' 0 5) rel)
  else none

/-- The fields of ST.W (R443). -/
def decStW (w _x : Word) : Option Instr :=
  some (.stW (w.extractLsb' 16 8) (w.extractLsb' 8 8) (w.extractLsb' 5 3) (w.extractLsb' 0 5))

/-- The fields of ST.W with an X.A word (R443). -/
def decStWX (w x : Word) : Option Instr :=
  if x.extractLsb' 4 28 = 0 ∧ x.extractLsb' 2 2 = 0 ∧ x.extractLsb' 0 1 = 0 then
    (readBool (x.extractLsb' 1 1)).bind fun rel =>
    some (.stWX (w.extractLsb' 16 8) (w.extractLsb' 8 8) (w.extractLsb' 5 3) (w.extractLsb' 0 5) rel)
  else none

/-- The fields of ST.D (R443). -/
def decStD (w _x : Word) : Option Instr :=
  some (.stD (w.extractLsb' 16 8) (w.extractLsb' 8 8) (w.extractLsb' 5 3) (w.extractLsb' 0 5))

/-- The fields of ST.D with an X.A word (R443). -/
def decStDX (w x : Word) : Option Instr :=
  if x.extractLsb' 4 28 = 0 ∧ x.extractLsb' 2 1 = 0 ∧ x.extractLsb' 0 1 = 0 then
    (readBool (x.extractLsb' 3 1)).bind fun fr =>
    (readBool (x.extractLsb' 1 1)).bind fun rel =>
    some (.stDX (w.extractLsb' 16 8) (w.extractLsb' 8 8) (w.extractLsb' 5 3) (w.extractLsb' 0 5) fr rel)
  else none

/-- The fields of ST.Q (R443). -/
def decStQ (w _x : Word) : Option Instr :=
  some (.stQ (w.extractLsb' 16 8) (w.extractLsb' 8 8) (w.extractLsb' 5 3) (w.extractLsb' 0 5))

/-- The fields of ST.Q with an X.A word (R443). -/
def decStQX (w x : Word) : Option Instr :=
  if x.extractLsb' 4 28 = 0 ∧ x.extractLsb' 2 2 = 0 ∧ x.extractLsb' 0 1 = 0 then
    (readBool (x.extractLsb' 1 1)).bind fun rel =>
    some (.stQX (w.extractLsb' 16 8) (w.extractLsb' 8 8) (w.extractLsb' 5 3) (w.extractLsb' 0 5) rel)
  else none

/-- The fields of LDT (R400). -/
def decLdt (w _x : Word) : Option Instr :=
  some (.ldt (w.extractLsb' 16 8) (w.extractLsb' 8 8) (w.extractLsb' 5 3) (w.extractLsb' 0 5))

/-- The fields of ATOM (R344). -/
def decAtom (w x : Word) : Option Instr :=
  if x.extractLsb' 19 13 = 0 ∧ x.extractLsb' 2 2 = 0 then
    (readAtomSize (x.extractLsb' 16 3)).bind fun size =>
    (readAtomOp (x.extractLsb' 4 4)).bind fun op =>
    (readBool (x.extractLsb' 1 1)).bind fun rel =>
    (readBool (x.extractLsb' 0 1)).bind fun acq =>
    some (.atom (w.extractLsb' 16 8) (w.extractLsb' 8 8) (w.extractLsb' 5 3) (w.extractLsb' 0 5) size (x.extractLsb' 8 8) op rel acq)
  else none

/-- The fields of FENCE (R190). -/
def decFence (w _x : Word) : Option Instr :=
  if w.extractLsb' 16 8 = 0 ∧ w.extractLsb' 5 11 = 0 then
    (readFenceOrder (w.extractLsb' 3 2)).bind fun ord =>
    (readFenceScope (w.extractLsb' 0 3)).bind fun scope =>
    some (.fence ord scope)
  else none

/-- The fields of ACCRD (R341). -/
def decAccrd (w _x : Word) : Option Instr :=
  if w.extractLsb' 0 8 = 0 then
    some (.accrd (w.extractLsb' 16 8) (w.extractLsb' 8 8))
  else none

/-- The fields of ACCWR (R341). -/
def decAccwr (w _x : Word) : Option Instr :=
  if w.extractLsb' 16 8 = 0 then
    some (.accwr (w.extractLsb' 8 8) (w.extractLsb' 0 8))
  else none

/-- The fields of COPY (R198). -/
def decCopy (w _x : Word) : Option Instr :=
  if w.extractLsb' 3 6 = 0 then
    (readBool (w.extractLsb' 2 1)).bind fun keyovr =>
    (readBool (w.extractLsb' 1 1)).bind fun reseal =>
    (readBool (w.extractLsb' 0 1)).bind fun arrive =>
    some (.copy (w.extractLsb' 16 8) (w.extractLsb' 12 4) (w.extractLsb' 9 3) keyovr reseal arrive)
  else none

/-- The fields of COPYC (R198). -/
def decCopyc (w _x : Word) : Option Instr :=
  if w.extractLsb' 3 6 = 0 then
    (readBool (w.extractLsb' 2 1)).bind fun keyovr =>
    (readBool (w.extractLsb' 1 1)).bind fun reseal =>
    (readBool (w.extractLsb' 0 1)).bind fun arrive =>
    some (.copyc (w.extractLsb' 16 8) (w.extractLsb' 12 4) (w.extractLsb' 9 3) keyovr reseal arrive)
  else none

/-- The fields of NBINIT (R208). -/
def decNbinit (w _x : Word) : Option Instr :=
  if w.extractLsb' 0 9 = 0 then
    some (.nbinit (w.extractLsb' 16 8) (w.extractLsb' 12 4) (w.extractLsb' 9 3))
  else none

/-- The fields of NBARR (R208). -/
def decNbarr (w _x : Word) : Option Instr :=
  if w.extractLsb' 16 8 = 0 ∧ w.extractLsb' 0 9 = 0 then
    some (.nbarr (w.extractLsb' 12 4) (w.extractLsb' 9 3))
  else none

/-- The fields of NBWAIT (R208). -/
def decNbwait (w _x : Word) : Option Instr :=
  if w.extractLsb' 1 8 = 0 then
    (readBool (w.extractLsb' 0 1)).bind fun det =>
    some (.nbwait (w.extractLsb' 16 8) (w.extractLsb' 12 4) (w.extractLsb' 9 3) det)
  else none

/-- The fields of NBSYNC (R208). -/
def decNbsync (w _x : Word) : Option Instr :=
  if w.extractLsb' 1 8 = 0 then
    (readBool (w.extractLsb' 0 1)).bind fun det =>
    some (.nbsync (w.extractLsb' 16 8) (w.extractLsb' 12 4) (w.extractLsb' 9 3) det)
  else none

/-- The fields of NBINV (R208). -/
def decNbinv (w _x : Word) : Option Instr :=
  if w.extractLsb' 16 8 = 0 ∧ w.extractLsb' 0 9 = 0 then
    some (.nbinv (w.extractLsb' 12 4) (w.extractLsb' 9 3))
  else none

/-- The fields of SEMSIG (R213). -/
def decSemsig (w _x : Word) : Option Instr :=
  if w.extractLsb' 12 4 = 0 ∧ w.extractLsb' 3 6 = 0 then
    (readSemOp (w.extractLsb' 0 3)).bind fun op =>
    some (.semsig (w.extractLsb' 16 8) (w.extractLsb' 9 3) op)
  else none

/-- The fields of SPAWN (R96). -/
def decSpawn (w _x : Word) : Option Instr :=
  if w.extractLsb' 12 4 = 0 ∧ w.extractLsb' 0 9 = 0 then
    some (.spawn (w.extractLsb' 16 8) (w.extractLsb' 9 3))
  else none

/-- The fields of CANCEL (R103). -/
def decCancel (w _x : Word) : Option Instr :=
  if w.extractLsb' 16 8 = 0 ∧ w.extractLsb' 12 4 = 0 ∧ w.extractLsb' 9 3 = 7 ∧ w.extractLsb' 2 7 = 0 then
    (readCancelLevel (w.extractLsb' 0 2)).bind fun level =>
    some (.cancel level)
  else none

/-- The fields of MARK (R136). -/
def decMark (w _x : Word) : Option Instr :=
  if w.extractLsb' 16 8 = 0 then
    some (.mark (w.extractLsb' 0 16))
  else none

/-- The fields of CUT (R136). -/
def decCut (w _x : Word) : Option Instr :=
  some (.cut (w.extractLsb' 16 8) (w.extractLsb' 0 16))

/-- The fields of GRAFT (R136). -/
def decGraft (w _x : Word) : Option Instr :=
  if w.extractLsb' 12 4 = 0 ∧ w.extractLsb' 0 9 = 0 then
    some (.graft (w.extractLsb' 16 8) (w.extractLsb' 9 3))
  else none

/-- The fields of SLFREE (R136). -/
def decSlfree (w _x : Word) : Option Instr :=
  if w.extractLsb' 12 4 = 0 ∧ w.extractLsb' 0 9 = 0 then
    some (.slfree (w.extractLsb' 16 8) (w.extractLsb' 9 3))
  else none

/-- The fields of MSTART (R231). -/
def decMstart (w _x : Word) : Option Instr :=
  if w.extractLsb' 12 4 = 0 ∧ w.extractLsb' 0 9 = 0 then
    some (.mstart (w.extractLsb' 16 8) (w.extractLsb' 9 3))
  else none

/-- The fields of IF (R367). -/
def decIfL (w _x : Word) : Option Instr :=
  if w.extractLsb' 16 8 = 0 ∧ w.extractLsb' 0 8 = 0 then
    some (.ifL (w.extractLsb' 8 8))
  else none

/-- The fields of ELSE (R367). -/
def decElseL (w _x : Word) : Option Instr :=
  if w.extractLsb' 0 24 = 0 then
    some .elseL
  else none

/-- The fields of ENDIF (R367). -/
def decEndifL (w _x : Word) : Option Instr :=
  if w.extractLsb' 0 24 = 0 then
    some .endifL
  else none

/-- The fields of LOOP (R403). -/
def decLoopL (w _x : Word) : Option Instr :=
  if w.extractLsb' 0 24 = 0 then
    some .loopL
  else none

/-- The fields of BREAK (R354). -/
def decBreakL (w _x : Word) : Option Instr :=
  if w.extractLsb' 7 9 = 0 then
    some (.breakL (w.extractLsb' 16 8) (w.extractLsb' 0 7))
  else none

/-- The fields of CONT (R354). -/
def decContL (w _x : Word) : Option Instr :=
  if w.extractLsb' 7 9 = 0 then
    some (.contL (w.extractLsb' 16 8) (w.extractLsb' 0 7))
  else none

/-- The fields of ENDLOOP (R369). -/
def decEndloop (w _x : Word) : Option Instr :=
  if w.extractLsb' 22 2 = 0 then
    some (.endloop (w.extractLsb' 0 22))
  else none

/-- The fields of BRA (R352). -/
def decBra (w _x : Word) : Option Instr :=
  if w.extractLsb' 22 2 = 0 then
    some (.bra (w.extractLsb' 0 22))
  else none

/-- The fields of BRV (R356). -/
def decBrv (w x : Word) : Option Instr :=
  if w.extractLsb' 22 2 = 0 ∧ x.extractLsb' 22 2 = 0 then
    some (.brv (w.extractLsb' 0 22) (x.extractLsb' 24 8) (x.extractLsb' 0 22))
  else none

/-- The fields of CALL (R352). -/
def decCall (w _x : Word) : Option Instr :=
  if w.extractLsb' 22 2 = 0 then
    some (.call (w.extractLsb' 0 22))
  else none

/-- The fields of RET (R432). -/
def decRet (w _x : Word) : Option Instr :=
  if w.extractLsb' 0 24 = 0 then
    some .ret
  else none

/-- The fields of JMPI (R395). -/
def decJmpi (w _x : Word) : Option Instr :=
  if w.extractLsb' 16 8 = 0 ∧ w.extractLsb' 0 8 = 0 then
    some (.jmpi (w.extractLsb' 8 8))
  else none

/-- The fields of EXIT (R371). -/
def decExit (w _x : Word) : Option Instr :=
  if w.extractLsb' 0 24 = 0 then
    some .exit
  else none

/-- The fields of NOP (R422). -/
def decNop (w _x : Word) : Option Instr :=
  if w.extractLsb' 0 24 = 0 then
    some .nop
  else none

/-- The fields of PAUSE (R428). -/
def decPause (w _x : Word) : Option Instr :=
  if w.extractLsb' 16 8 = 0 then
    some (.pause (w.extractLsb' 0 16))
  else none

/-- The fields of SYSR (R446). -/
def decSysr (w _x : Word) : Option Instr :=
  if w.extractLsb' 8 8 = 0 then
    (readSysReg (w.extractLsb' 0 8)).bind fun n =>
    some (.sysr (w.extractLsb' 16 8) n)
  else none

/-- The fields of SYSW (R446). -/
def decSysw (w _x : Word) : Option Instr :=
  if w.extractLsb' 8 8 = 0 then
    (readSysReg (w.extractLsb' 0 8)).bind fun n =>
    some (.sysw (w.extractLsb' 16 8) n)
  else none

/-- The fields of TRAP (R449). -/
def decTrap (w _x : Word) : Option Instr :=
  if w.extractLsb' 16 8 = 0 then
    some (.trap (w.extractLsb' 0 16))
  else none

/-- The fields of RETT (R434). -/
def decRett (w _x : Word) : Option Instr :=
  if w.extractLsb' 0 24 = 0 then
    some .rett
  else none

/-- The fields of BKPT (R351). -/
def decBkpt (w _x : Word) : Option Instr :=
  if w.extractLsb' 16 8 = 0 then
    some (.bkpt (w.extractLsb' 0 16))
  else none

/-- The fields of WFI (R334). -/
def decWfi (w _x : Word) : Option Instr :=
  if w.extractLsb' 0 8 = 0 then
    some (.wfi (w.extractLsb' 16 8) (w.extractLsb' 8 8))
  else none

/-- The fields of ICINV (R271). -/
def decIcinv (w _x : Word) : Option Instr :=
  if w.extractLsb' 16 8 = 0 ∧ w.extractLsb' 3 13 = 0 then
    (readInvScope (w.extractLsb' 0 3)).bind fun scope =>
    some (.icinv scope)
  else none

/-- The fields of TLBINV (R163). -/
def decTlbinv (w x : Word) : Option Instr :=
  if w.extractLsb' 16 8 = 0 ∧ x.extractLsb' 24 8 = 0 ∧ x.extractLsb' 18 3 = 0 ∧ x.extractLsb' 0 17 = 0 then
    (readInvScope (x.extractLsb' 21 3)).bind fun scope =>
    (readBool (x.extractLsb' 17 1)).bind fun ng =>
    some (.tlbinv (w.extractLsb' 8 8) (w.extractLsb' 0 8) scope ng)
  else none

/-- The fields of MCLAIM (R407). -/
def decMclaim (w _x : Word) : Option Instr :=
  if w.extractLsb' 16 8 = 0 ∧ w.extractLsb' 0 4 = 0 then
    some (.mclaim (w.extractLsb' 10 6) (w.extractLsb' 4 6))
  else none

/-- The fields of MREL (R407). -/
def decMrel (w _x : Word) : Option Instr :=
  if w.extractLsb' 16 8 = 0 ∧ w.extractLsb' 0 4 = 0 then
    some (.mrel (w.extractLsb' 10 6) (w.extractLsb' 4 6))
  else none

/-- The fields of MLOAD (R409). -/
def decMload (w x : Word) : Option Instr :=
  if w.extractLsb' 16 8 = 0 ∧ w.extractLsb' 4 6 = 0 then
    (readBool (w.extractLsb' 3 1)).bind fun sc =>
    (readBool (w.extractLsb' 2 1)).bind fun tr =>
    (readMSize (w.extractLsb' 0 2)).bind fun size =>
    some (.mload (w.extractLsb' 10 6) sc tr size (x.extractLsb' 20 12) (x.extractLsb' 0 20))
  else none

/-- The fields of MSTORE (R409). -/
def decMstore (w x : Word) : Option Instr :=
  if w.extractLsb' 10 6 = 0 ∧ w.extractLsb' 4 6 = 0 ∧ w.extractLsb' 2 1 = 0 then
    (readBool (w.extractLsb' 3 1)).bind fun sc =>
    (readMStFmt (w.extractLsb' 0 2)).bind fun f =>
    some (.mstore (w.extractLsb' 16 8) sc f (x.extractLsb' 20 12) (x.extractLsb' 0 20))
  else none

/-- The fields of MMA (R411). -/
def decMma (w _x : Word) : Option Instr :=
  (readMmaFmt (w.extractLsb' 0 4)).bind fun f =>
    some (.mma (w.extractLsb' 16 8) (w.extractLsb' 10 6) (w.extractLsb' 4 6) f)

/-- The fields of MZERO (R419). -/
def decMzero (w _x : Word) : Option Instr :=
  if w.extractLsb' 10 6 = 0 ∧ w.extractLsb' 4 6 = 0 ∧ w.extractLsb' 0 4 = 0 then
    some (.mzero (w.extractLsb' 16 8))
  else none

/-- The fields of MWAIT (R416). -/
def decMwait (w _x : Word) : Option Instr :=
  if w.extractLsb' 20 4 = 0 ∧ w.extractLsb' 0 16 = 0 then
    some (.mwait (w.extractLsb' 16 4))
  else none

/-- The fields of MSIG (R416). -/
def decMsig (w _x : Word) : Option Instr :=
  if w.extractLsb' 20 4 = 0 ∧ w.extractLsb' 4 12 = 0 ∧ w.extractLsb' 0 4 = 8 then
    some (.msig (w.extractLsb' 16 4))
  else none

/-- The fields of MEND (R408). -/
def decMend (w _x : Word) : Option Instr :=
  if w.extractLsb' 0 24 = 0 then
    some .mend
  else none

/-- The fields of a word w and its extension x, by opcode (R84). Undefined opcodes give none. -/
def decodeFields (w x : Word) : Option Instr :=
  match (w.extractLsb' 24 8).toNat with
  | 0x00 => decIadd w x
  | 0x01 => decIaddLit w x
  | 0x02 => decIsub w x
  | 0x03 => decIsubLit w x
  | 0x04 => decImul w x
  | 0x05 => decImulLit w x
  | 0x06 => decImulhS w x
  | 0x08 => decImulhU w x
  | 0x0B => decImad w x
  | 0x0C => decIminS w x
  | 0x0D => decIminSLit w x
  | 0x0E => decIminU w x
  | 0x0F => decIminULit w x
  | 0x10 => decImaxS w x
  | 0x11 => decImaxSLit w x
  | 0x12 => decImaxU w x
  | 0x13 => decImaxULit w x
  | 0x14 => decIabs w x
  | 0x17 => decIcmp w x
  | 0x18 => decLea w x
  | 0x19 => decLeaX w x
  | 0x20 => decAnd w x
  | 0x21 => decAndLit w x
  | 0x22 => decOr w x
  | 0x23 => decOrLit w x
  | 0x24 => decXor w x
  | 0x25 => decXorLit w x
  | 0x26 => decShl w x
  | 0x28 => decShr w x
  | 0x29 => decShrX w x
  | 0x2A => decRot w x
  | 0x2D => decBfx w x
  | 0x2F => decBfi w x
  | 0x30 => decPopc w x
  | 0x32 => decClz w x
  | 0x34 => decBrev w x
  | 0x37 => decSel w x
  | 0x38 => decMov w x
  | 0x39 => decMovLit w x
  | 0x3A => decMovi w x
  | 0x3C => decMovx w x
  | 0x3E => decMovxw w x
  | 0x40 => decFadd w x
  | 0x41 => decFaddX w x
  | 0x42 => decFsub w x
  | 0x43 => decFsubX w x
  | 0x44 => decFmul w x
  | 0x45 => decFmulX w x
  | 0x47 => decFfma w x
  | 0x48 => decFmin w x
  | 0x49 => decFminX w x
  | 0x4A => decFmax w x
  | 0x4B => decFmaxX w x
  | 0x4D => decFcmp w x
  | 0x50 => decFrcp w x
  | 0x51 => decFrcpX w x
  | 0x52 => decFrsq w x
  | 0x53 => decFrsqX w x
  | 0x54 => decFsqrt w x
  | 0x55 => decFsqrtX w x
  | 0x56 => decFexp2 w x
  | 0x57 => decFexp2X w x
  | 0x58 => decFlog2 w x
  | 0x59 => decFlog2X w x
  | 0x5A => decFsin w x
  | 0x5B => decFsinX w x
  | 0x5C => decFcos w x
  | 0x5D => decFcosX w x
  | 0x60 => decPadd w x
  | 0x61 => decPaddX w x
  | 0x62 => decPmul w x
  | 0x63 => decPmulX w x
  | 0x65 => decPfma w x
  | 0x67 => decPack8 w x
  | 0x69 => decUnpack w x
  | 0x6B => decCvt w x
  | 0x6C => decFmtset w x
  | 0x6E => decFmtget w x
  | 0x71 => decShfl w x
  | 0x73 => decVote w x
  | 0x75 => decRedux w x
  | 0x76 => decBcast w x
  | 0x80 => decLdB w x
  | 0x81 => decLdBX w x
  | 0x82 => decLdH w x
  | 0x83 => decLdHX w x
  | 0x84 => decLdW w x
  | 0x85 => decLdWX w x
  | 0x86 => decLdD w x
  | 0x87 => decLdDX w x
  | 0x88 => decLdQ w x
  | 0x89 => decLdQX w x
  | 0x8A => decStB w x
  | 0x8B => decStBX w x
  | 0x8C => decStH w x
  | 0x8D => decStHX w x
  | 0x8E => decStW w x
  | 0x8F => decStWX w x
  | 0x90 => decStD w x
  | 0x91 => decStDX w x
  | 0x92 => decStQ w x
  | 0x93 => decStQX w x
  | 0x94 => decLdt w x
  | 0x97 => decAtom w x
  | 0x98 => decFence w x
  | 0x9A => decAccrd w x
  | 0x9C => decAccwr w x
  | 0xA0 => decCopy w x
  | 0xA2 => decCopyc w x
  | 0xA4 => decNbinit w x
  | 0xA6 => decNbarr w x
  | 0xA8 => decNbwait w x
  | 0xAA => decNbsync w x
  | 0xAC => decNbinv w x
  | 0xAE => decSemsig w x
  | 0xB0 => decSpawn w x
  | 0xB2 => decCancel w x
  | 0xB4 => decMark w x
  | 0xB6 => decCut w x
  | 0xB8 => decGraft w x
  | 0xBA => decSlfree w x
  | 0xBC => decMstart w x
  | 0xC0 => decIfL w x
  | 0xC2 => decElseL w x
  | 0xC4 => decEndifL w x
  | 0xC6 => decLoopL w x
  | 0xC8 => decBreakL w x
  | 0xCA => decContL w x
  | 0xCC => decEndloop w x
  | 0xCE => decBra w x
  | 0xD1 => decBrv w x
  | 0xD2 => decCall w x
  | 0xD4 => decRet w x
  | 0xD6 => decJmpi w x
  | 0xD8 => decExit w x
  | 0xDA => decNop w x
  | 0xDC => decPause w x
  | 0xE0 => decSysr w x
  | 0xE2 => decSysw w x
  | 0xE4 => decTrap w x
  | 0xE6 => decRett w x
  | 0xE8 => decBkpt w x
  | 0xEA => decWfi w x
  | 0xEC => decIcinv w x
  | 0xEF => decTlbinv w x
  | 0xF0 => decMclaim w x
  | 0xF2 => decMrel w x
  | 0xF5 => decMload w x
  | 0xF7 => decMstore w x
  | 0xF8 => decMma w x
  | 0xFA => decMzero w x
  | 0xFC => (decMwait w x).or (decMsig w x)
  | 0xFE => decMend w x
  | _ => none

/-- The opcode values that R84's map defines. -/
def opcodeDefined (op : BitVec 8) : Bool :=
  match op.toNat with
  | 0x00 | 0x01 | 0x02 | 0x03 | 0x04 | 0x05 | 0x06 | 0x08
  | 0x0B | 0x0C | 0x0D | 0x0E | 0x0F | 0x10 | 0x11 | 0x12
  | 0x13 | 0x14 | 0x17 | 0x18 | 0x19 | 0x20 | 0x21 | 0x22
  | 0x23 | 0x24 | 0x25 | 0x26 | 0x28 | 0x29 | 0x2A | 0x2D
  | 0x2F | 0x30 | 0x32 | 0x34 | 0x37 | 0x38 | 0x39 | 0x3A
  | 0x3C | 0x3E | 0x40 | 0x41 | 0x42 | 0x43 | 0x44 | 0x45
  | 0x47 | 0x48 | 0x49 | 0x4A | 0x4B | 0x4D | 0x50 | 0x51
  | 0x52 | 0x53 | 0x54 | 0x55 | 0x56 | 0x57 | 0x58 | 0x59
  | 0x5A | 0x5B | 0x5C | 0x5D | 0x60 | 0x61 | 0x62 | 0x63
  | 0x65 | 0x67 | 0x69 | 0x6B | 0x6C | 0x6E | 0x71 | 0x73
  | 0x75 | 0x76 | 0x80 | 0x81 | 0x82 | 0x83 | 0x84 | 0x85
  | 0x86 | 0x87 | 0x88 | 0x89 | 0x8A | 0x8B | 0x8C | 0x8D
  | 0x8E | 0x8F | 0x90 | 0x91 | 0x92 | 0x93 | 0x94 | 0x97
  | 0x98 | 0x9A | 0x9C | 0xA0 | 0xA2 | 0xA4 | 0xA6 | 0xA8
  | 0xAA | 0xAC | 0xAE | 0xB0 | 0xB2 | 0xB4 | 0xB6 | 0xB8
  | 0xBA | 0xBC | 0xC0 | 0xC2 | 0xC4 | 0xC6 | 0xC8 | 0xCA
  | 0xCC | 0xCE | 0xD1 | 0xD2 | 0xD4 | 0xD6 | 0xD8 | 0xDA
  | 0xDC | 0xE0 | 0xE2 | 0xE4 | 0xE6 | 0xE8 | 0xEA | 0xEC
  | 0xEF | 0xF0 | 0xF2 | 0xF5 | 0xF7 | 0xF8 | 0xFA | 0xFC
  | 0xFE
    => true
  | _ => false

/-- An opcode whose bit 0 is set takes an extension word (R67). -/
def hasExt (w : Word) : Bool := w.getLsbD 24

/-- The instruction of a word and its extension: the opcode, then the encoded fields, then the operand checks
(R64 steps 1 and 3). -/
def decodeWords (w x : Word) : Except Reject Instr :=
  if opcodeDefined (w.extractLsb' 24 8) then
    match decodeFields w x with
    | none => .error .badField
    | some i => if i.wellFormed then .ok i else .error .illFormed
  else .error .undefinedOpcode

/-- Four bytes, little-endian, as a word (R2). -/
def wordOfBytes (b0 b1 b2 b3 : Byte) : Word := b3 ++ b2 ++ b1 ++ b0

/-- A word as its four bytes, little-endian (R2). -/
def bytesOfWord (w : Word) : List Byte :=
  [w.extractLsb' 0 8, w.extractLsb' 8 8, w.extractLsb' 16 8, w.extractLsb' 24 8]

/-- The decoder: the instruction at the front of a list of bytes, and the bytes after it. -/
def decode : List Byte → Except Reject (Instr × List Byte)
  | b0 :: b1 :: b2 :: b3 :: rest =>
    let w := wordOfBytes b0 b1 b2 b3
    if hasExt w then
      match rest with
      | c0 :: c1 :: c2 :: c3 :: rest' => (decodeWords w (wordOfBytes c0 c1 c2 c3)).map fun i => (i, rest')
      | _ => .error .truncated
    else (decodeWords w 0).map fun i => (i, rest)
  | _ => .error .truncated

/-- The words of an instruction (R55 to R84); a device step has none. -/
def encode : Instr → List Word
  | .iadd d a b => [(0x00#8 ++ d ++ a ++ b : BitVec 32)]
  | .iaddLit d a lit => [(0x01#8 ++ d ++ a ++ 0#8 : BitVec 32), (lit : BitVec 32)]
  | .isub d a b => [(0x02#8 ++ d ++ a ++ b : BitVec 32)]
  | .isubLit d a lit => [(0x03#8 ++ d ++ a ++ 0#8 : BitVec 32), (lit : BitVec 32)]
  | .imul d a b => [(0x04#8 ++ d ++ a ++ b : BitVec 32)]
  | .imulLit d a lit => [(0x05#8 ++ d ++ a ++ 0#8 : BitVec 32), (lit : BitVec 32)]
  | .imulhS d a b => [(0x06#8 ++ d ++ a ++ b : BitVec 32)]
  | .imulhU d a b => [(0x08#8 ++ d ++ a ++ b : BitVec 32)]
  | .imad d a b c => [(0x0B#8 ++ d ++ a ++ b : BitVec 32), (0#24 ++ c : BitVec 32)]
  | .iminS d a b => [(0x0C#8 ++ d ++ a ++ b : BitVec 32)]
  | .iminSLit d a lit => [(0x0D#8 ++ d ++ a ++ 0#8 : BitVec 32), (lit : BitVec 32)]
  | .iminU d a b => [(0x0E#8 ++ d ++ a ++ b : BitVec 32)]
  | .iminULit d a lit => [(0x0F#8 ++ d ++ a ++ 0#8 : BitVec 32), (lit : BitVec 32)]
  | .imaxS d a b => [(0x10#8 ++ d ++ a ++ b : BitVec 32)]
  | .imaxSLit d a lit => [(0x11#8 ++ d ++ a ++ 0#8 : BitVec 32), (lit : BitVec 32)]
  | .imaxU d a b => [(0x12#8 ++ d ++ a ++ b : BitVec 32)]
  | .imaxULit d a lit => [(0x13#8 ++ d ++ a ++ 0#8 : BitVec 32), (lit : BitVec 32)]
  | .iabs d a => [(0x14#8 ++ d ++ a ++ 0#8 : BitVec 32)]
  | .icmp d a b cond => [(0x17#8 ++ d ++ a ++ b : BitVec 32), (0#8 ++ 0#3 ++ bitsOfCond cond ++ 0#9 ++ 0#8 : BitVec 32)]
  | .lea d a b => [(0x18#8 ++ d ++ a ++ b : BitVec 32)]
  | .leaX d a b ix sh => [(0x19#8 ++ d ++ a ++ b : BitVec 32), (bitsOfLeaIndex ix ++ 0#4 ++ sh ++ 0#21 : BitVec 32)]
  | .and d a b => [(0x20#8 ++ d ++ a ++ b : BitVec 32)]
  | .andLit d a lit => [(0x21#8 ++ d ++ a ++ 0#8 : BitVec 32), (lit : BitVec 32)]
  | .or d a b => [(0x22#8 ++ d ++ a ++ b : BitVec 32)]
  | .orLit d a lit => [(0x23#8 ++ d ++ a ++ 0#8 : BitVec 32), (lit : BitVec 32)]
  | .xor d a b => [(0x24#8 ++ d ++ a ++ b : BitVec 32)]
  | .xorLit d a lit => [(0x25#8 ++ d ++ a ++ 0#8 : BitVec 32), (lit : BitVec 32)]
  | .shl d a b => [(0x26#8 ++ d ++ a ++ b : BitVec 32)]
  | .shr d a b => [(0x28#8 ++ d ++ a ++ b : BitVec 32)]
  | .shrX d a b arith => [(0x29#8 ++ d ++ a ++ b : BitVec 32), (0#8 ++ 0#2 ++ bitsOfBool arith ++ 0#21 : BitVec 32)]
  | .rot d a b => [(0x2A#8 ++ d ++ a ++ b : BitVec 32)]
  | .bfx d a b signed c => [(0x2D#8 ++ d ++ a ++ b : BitVec 32), (0#8 ++ 0#2 ++ bitsOfBool signed ++ 0#13 ++ c : BitVec 32)]
  | .bfi d a b c => [(0x2F#8 ++ d ++ a ++ b : BitVec 32), (0#24 ++ c : BitVec 32)]
  | .popc d a => [(0x30#8 ++ d ++ a ++ 0#8 : BitVec 32)]
  | .clz d a => [(0x32#8 ++ d ++ a ++ 0#8 : BitVec 32)]
  | .brev d a => [(0x34#8 ++ d ++ a ++ 0#8 : BitVec 32)]
  | .sel d a b c => [(0x37#8 ++ d ++ a ++ b : BitVec 32), (0#24 ++ c : BitVec 32)]
  | .mov d a => [(0x38#8 ++ d ++ a ++ 0#8 : BitVec 32)]
  | .movLit d lit => [(0x39#8 ++ d ++ 0#8 ++ 0#8 : BitVec 32), (lit : BitVec 32)]
  | .movi d imm => [(0x3A#8 ++ d ++ imm : BitVec 32)]
  | .movx d a => [(0x3C#8 ++ d ++ a ++ 0#8 : BitVec 32)]
  | .movxw a b => [(0x3E#8 ++ 0#8 ++ a ++ b : BitVec 32)]
  | .fadd d a b => [(0x40#8 ++ d ++ a ++ b : BitVec 32)]
  | .faddX d a b m rm => [(0x41#8 ++ d ++ a ++ b : BitVec 32), (0#15 ++ bitsOfMods m ++ bitsOfRm rm ++ 0#8 : BitVec 32)]
  | .fsub d a b => [(0x42#8 ++ d ++ a ++ b : BitVec 32)]
  | .fsubX d a b m rm => [(0x43#8 ++ d ++ a ++ b : BitVec 32), (0#15 ++ bitsOfMods m ++ bitsOfRm rm ++ 0#8 : BitVec 32)]
  | .fmul d a b => [(0x44#8 ++ d ++ a ++ b : BitVec 32)]
  | .fmulX d a b m rm => [(0x45#8 ++ d ++ a ++ b : BitVec 32), (0#15 ++ bitsOfMods m ++ bitsOfRm rm ++ 0#8 : BitVec 32)]
  | .ffma d a b m rm c => [(0x47#8 ++ d ++ a ++ b : BitVec 32), (0#15 ++ bitsOfMods m ++ bitsOfRm rm ++ c : BitVec 32)]
  | .fmin d a b => [(0x48#8 ++ d ++ a ++ b : BitVec 32)]
  | .fminX d a b m => [(0x49#8 ++ d ++ a ++ b : BitVec 32), (0#15 ++ bitsOfMods m ++ 0#3 ++ 0#8 : BitVec 32)]
  | .fmax d a b => [(0x4A#8 ++ d ++ a ++ b : BitVec 32)]
  | .fmaxX d a b m => [(0x4B#8 ++ d ++ a ++ b : BitVec 32), (0#15 ++ bitsOfMods m ++ 0#3 ++ 0#8 : BitVec 32)]
  | .fcmp d a b cond m => [(0x4D#8 ++ d ++ a ++ b : BitVec 32), (0#11 ++ bitsOfCond cond ++ bitsOfMods m ++ 0#3 ++ 0#8 : BitVec 32)]
  | .frcp d a => [(0x50#8 ++ d ++ a ++ 0#8 : BitVec 32)]
  | .frcpX d a m rm => [(0x51#8 ++ d ++ a ++ 0#8 : BitVec 32), (0#15 ++ bitsOfMods m ++ bitsOfRm rm ++ 0#8 : BitVec 32)]
  | .frsq d a => [(0x52#8 ++ d ++ a ++ 0#8 : BitVec 32)]
  | .frsqX d a m rm => [(0x53#8 ++ d ++ a ++ 0#8 : BitVec 32), (0#15 ++ bitsOfMods m ++ bitsOfRm rm ++ 0#8 : BitVec 32)]
  | .fsqrt d a => [(0x54#8 ++ d ++ a ++ 0#8 : BitVec 32)]
  | .fsqrtX d a m rm => [(0x55#8 ++ d ++ a ++ 0#8 : BitVec 32), (0#15 ++ bitsOfMods m ++ bitsOfRm rm ++ 0#8 : BitVec 32)]
  | .fexp2 d a => [(0x56#8 ++ d ++ a ++ 0#8 : BitVec 32)]
  | .fexp2X d a m rm => [(0x57#8 ++ d ++ a ++ 0#8 : BitVec 32), (0#15 ++ bitsOfMods m ++ bitsOfRm rm ++ 0#8 : BitVec 32)]
  | .flog2 d a => [(0x58#8 ++ d ++ a ++ 0#8 : BitVec 32)]
  | .flog2X d a m rm => [(0x59#8 ++ d ++ a ++ 0#8 : BitVec 32), (0#15 ++ bitsOfMods m ++ bitsOfRm rm ++ 0#8 : BitVec 32)]
  | .fsin d a => [(0x5A#8 ++ d ++ a ++ 0#8 : BitVec 32)]
  | .fsinX d a m rm => [(0x5B#8 ++ d ++ a ++ 0#8 : BitVec 32), (0#15 ++ bitsOfMods m ++ bitsOfRm rm ++ 0#8 : BitVec 32)]
  | .fcos d a => [(0x5C#8 ++ d ++ a ++ 0#8 : BitVec 32)]
  | .fcosX d a m rm => [(0x5D#8 ++ d ++ a ++ 0#8 : BitVec 32), (0#15 ++ bitsOfMods m ++ bitsOfRm rm ++ 0#8 : BitVec 32)]
  | .padd d a b => [(0x60#8 ++ d ++ a ++ b : BitVec 32)]
  | .paddX d a b pf m rm => [(0x61#8 ++ d ++ a ++ b : BitVec 32), (0#4 ++ bitsOfPFmt pf ++ 0#7 ++ bitsOfMods m ++ bitsOfRm rm ++ 0#8 : BitVec 32)]
  | .pmul d a b => [(0x62#8 ++ d ++ a ++ b : BitVec 32)]
  | .pmulX d a b pf m rm => [(0x63#8 ++ d ++ a ++ b : BitVec 32), (0#4 ++ bitsOfPFmt pf ++ 0#7 ++ bitsOfMods m ++ bitsOfRm rm ++ 0#8 : BitVec 32)]
  | .pfma d a b pf m rm c => [(0x65#8 ++ d ++ a ++ b : BitVec 32), (0#4 ++ bitsOfPFmt pf ++ 0#7 ++ bitsOfMods m ++ bitsOfRm rm ++ c : BitVec 32)]
  | .pack8 d a fd rm => [(0x67#8 ++ d ++ a ++ 0#8 : BitVec 32), (0#4 ++ bitsOfFmt fd ++ 0#13 ++ bitsOfRm rm ++ 0#8 : BitVec 32)]
  | .unpack d a b fs => [(0x69#8 ++ d ++ a ++ b : BitVec 32), (bitsOfFmt fs ++ 0#28 : BitVec 32)]
  | .cvt d a fs fd sat m rm => [(0x6B#8 ++ d ++ a ++ 0#8 : BitVec 32), (bitsOfFmt fs ++ bitsOfFmt fd ++ 0#2 ++ bitsOfBool sat ++ 0#4 ++ bitsOfMods m ++ bitsOfRm rm ++ 0#8 : BitVec 32)]
  | .fmtset n a => [(0x6C#8 ++ 0#5 ++ n ++ a ++ 0#8 : BitVec 32)]
  | .fmtget d n => [(0x6E#8 ++ d ++ 0#5 ++ n ++ 0#8 : BitVec 32)]
  | .shfl d a b mode => [(0x71#8 ++ d ++ a ++ b : BitVec 32), (0#8 ++ bitsOfShflMode mode ++ 0#21 : BitVec 32)]
  | .vote d a b mode => [(0x73#8 ++ d ++ a ++ b : BitVec 32), (0#8 ++ bitsOfVoteMode mode ++ 0#21 : BitVec 32)]
  | .redux d a mode => [(0x75#8 ++ d ++ a ++ 0#8 : BitVec 32), (0#8 ++ bitsOfReduxOp mode ++ 0#21 : BitVec 32)]
  | .bcast d a b => [(0x76#8 ++ d ++ a ++ b : BitVec 32)]
  | .ldB d b slot off => [(0x80#8 ++ d ++ b ++ slot ++ off : BitVec 32)]
  | .ldBX d b slot off signed acq => [(0x81#8 ++ d ++ b ++ slot ++ off : BitVec 32), (0#29 ++ bitsOfBool signed ++ 0#1 ++ bitsOfBool acq : BitVec 32)]
  | .ldH d b slot off => [(0x82#8 ++ d ++ b ++ slot ++ off : BitVec 32)]
  | .ldHX d b slot off signed acq => [(0x83#8 ++ d ++ b ++ slot ++ off : BitVec 32), (0#29 ++ bitsOfBool signed ++ 0#1 ++ bitsOfBool acq : BitVec 32)]
  | .ldW d b slot off => [(0x84#8 ++ d ++ b ++ slot ++ off : BitVec 32)]
  | .ldWX d b slot off acq => [(0x85#8 ++ d ++ b ++ slot ++ off : BitVec 32), (0#29 ++ 0#1 ++ 0#1 ++ bitsOfBool acq : BitVec 32)]
  | .ldD d b slot off => [(0x86#8 ++ d ++ b ++ slot ++ off : BitVec 32)]
  | .ldDX d b slot off acq => [(0x87#8 ++ d ++ b ++ slot ++ off : BitVec 32), (0#29 ++ 0#1 ++ 0#1 ++ bitsOfBool acq : BitVec 32)]
  | .ldQ d b slot off => [(0x88#8 ++ d ++ b ++ slot ++ off : BitVec 32)]
  | .ldQX d b slot off acq => [(0x89#8 ++ d ++ b ++ slot ++ off : BitVec 32), (0#29 ++ 0#1 ++ 0#1 ++ bitsOfBool acq : BitVec 32)]
  | .stB d b slot off => [(0x8A#8 ++ d ++ b ++ slot ++ off : BitVec 32)]
  | .stBX d b slot off rel => [(0x8B#8 ++ d ++ b ++ slot ++ off : BitVec 32), (0#28 ++ 0#2 ++ bitsOfBool rel ++ 0#1 : BitVec 32)]
  | .stH d b slot off => [(0x8C#8 ++ d ++ b ++ slot ++ off : BitVec 32)]
  | .stHX d b slot off rel => [(0x8D#8 ++ d ++ b ++ slot ++ off : BitVec 32), (0#28 ++ 0#2 ++ bitsOfBool rel ++ 0#1 : BitVec 32)]
  | .stW d b slot off => [(0x8E#8 ++ d ++ b ++ slot ++ off : BitVec 32)]
  | .stWX d b slot off rel => [(0x8F#8 ++ d ++ b ++ slot ++ off : BitVec 32), (0#28 ++ 0#2 ++ bitsOfBool rel ++ 0#1 : BitVec 32)]
  | .stD d b slot off => [(0x90#8 ++ d ++ b ++ slot ++ off : BitVec 32)]
  | .stDX d b slot off fr rel => [(0x91#8 ++ d ++ b ++ slot ++ off : BitVec 32), (0#28 ++ bitsOfBool fr ++ 0#1 ++ bitsOfBool rel ++ 0#1 : BitVec 32)]
  | .stQ d b slot off => [(0x92#8 ++ d ++ b ++ slot ++ off : BitVec 32)]
  | .stQX d b slot off rel => [(0x93#8 ++ d ++ b ++ slot ++ off : BitVec 32), (0#28 ++ 0#2 ++ bitsOfBool rel ++ 0#1 : BitVec 32)]
  | .ldt d b slot off => [(0x94#8 ++ d ++ b ++ slot ++ off : BitVec 32)]
  | .atom d b slot off size c op rel acq => [(0x97#8 ++ d ++ b ++ slot ++ off : BitVec 32), (0#13 ++ bitsOfAtomSize size ++ c ++ bitsOfAtomOp op ++ 0#2 ++ bitsOfBool rel ++ bitsOfBool acq : BitVec 32)]
  | .fence ord scope => [(0x98#8 ++ 0#8 ++ 0#11 ++ bitsOfFenceOrder ord ++ bitsOfFenceScope scope : BitVec 32)]
  | .accrd d a => [(0x9A#8 ++ d ++ a ++ 0#8 : BitVec 32)]
  | .accwr a b => [(0x9C#8 ++ 0#8 ++ a ++ b : BitVec 32)]
  | .copy g nb slot keyovr reseal arrive => [(0xA0#8 ++ g ++ nb ++ slot ++ 0#6 ++ bitsOfBool keyovr ++ bitsOfBool reseal ++ bitsOfBool arrive : BitVec 32)]
  | .copyc g nb slot keyovr reseal arrive => [(0xA2#8 ++ g ++ nb ++ slot ++ 0#6 ++ bitsOfBool keyovr ++ bitsOfBool reseal ++ bitsOfBool arrive : BitVec 32)]
  | .nbinit a nb slot => [(0xA4#8 ++ a ++ nb ++ slot ++ 0#9 : BitVec 32)]
  | .nbarr nb slot => [(0xA6#8 ++ 0#8 ++ nb ++ slot ++ 0#9 : BitVec 32)]
  | .nbwait d nb slot det => [(0xA8#8 ++ d ++ nb ++ slot ++ 0#8 ++ bitsOfBool det : BitVec 32)]
  | .nbsync d nb slot det => [(0xAA#8 ++ d ++ nb ++ slot ++ 0#8 ++ bitsOfBool det : BitVec 32)]
  | .nbinv nb slot => [(0xAC#8 ++ 0#8 ++ nb ++ slot ++ 0#9 : BitVec 32)]
  | .semsig g slot op => [(0xAE#8 ++ g ++ 0#4 ++ slot ++ 0#6 ++ bitsOfSemOp op : BitVec 32)]
  | .spawn g slot => [(0xB0#8 ++ g ++ 0#4 ++ slot ++ 0#9 : BitVec 32)]
  | .cancel level => [(0xB2#8 ++ 0#8 ++ 0#4 ++ 7#3 ++ 0#7 ++ bitsOfCancelLevel level : BitVec 32)]
  | .mark tag => [(0xB4#8 ++ 0#8 ++ tag : BitVec 32)]
  | .cut d tag => [(0xB6#8 ++ d ++ tag : BitVec 32)]
  | .graft g slot => [(0xB8#8 ++ g ++ 0#4 ++ slot ++ 0#9 : BitVec 32)]
  | .slfree g slot => [(0xBA#8 ++ g ++ 0#4 ++ slot ++ 0#9 : BitVec 32)]
  | .mstart g slot => [(0xBC#8 ++ g ++ 0#4 ++ slot ++ 0#9 : BitVec 32)]
  | .ifL a => [(0xC0#8 ++ 0#8 ++ a ++ 0#8 : BitVec 32)]
  | .elseL => [(0xC2#8 ++ 0#24 : BitVec 32)]
  | .endifL => [(0xC4#8 ++ 0#24 : BitVec 32)]
  | .loopL => [(0xC6#8 ++ 0#24 : BitVec 32)]
  | .breakL p n => [(0xC8#8 ++ p ++ 0#9 ++ n : BitVec 32)]
  | .contL p n => [(0xCA#8 ++ p ++ 0#9 ++ n : BitVec 32)]
  | .endloop off => [(0xCC#8 ++ 0#2 ++ off : BitVec 32)]
  | .bra off => [(0xCE#8 ++ 0#2 ++ off : BitVec 32)]
  | .brv off p off2 => [(0xD1#8 ++ 0#2 ++ off : BitVec 32), (p ++ 0#2 ++ off2 : BitVec 32)]
  | .call off => [(0xD2#8 ++ 0#2 ++ off : BitVec 32)]
  | .ret => [(0xD4#8 ++ 0#24 : BitVec 32)]
  | .jmpi a => [(0xD6#8 ++ 0#8 ++ a ++ 0#8 : BitVec 32)]
  | .exit => [(0xD8#8 ++ 0#24 : BitVec 32)]
  | .nop => [(0xDA#8 ++ 0#24 : BitVec 32)]
  | .pause imm => [(0xDC#8 ++ 0#8 ++ imm : BitVec 32)]
  | .sysr d n => [(0xE0#8 ++ d ++ 0#8 ++ bitsOfSysReg n : BitVec 32)]
  | .sysw src n => [(0xE2#8 ++ src ++ 0#8 ++ bitsOfSysReg n : BitVec 32)]
  | .trap imm => [(0xE4#8 ++ 0#8 ++ imm : BitVec 32)]
  | .rett => [(0xE6#8 ++ 0#24 : BitVec 32)]
  | .bkpt imm => [(0xE8#8 ++ 0#8 ++ imm : BitVec 32)]
  | .wfi d a => [(0xEA#8 ++ d ++ a ++ 0#8 : BitVec 32)]
  | .icinv scope => [(0xEC#8 ++ 0#8 ++ 0#13 ++ bitsOfInvScope scope : BitVec 32)]
  | .tlbinv a b scope ng => [(0xEF#8 ++ 0#8 ++ a ++ b : BitVec 32), (0#8 ++ bitsOfInvScope scope ++ 0#3 ++ bitsOfBool ng ++ 0#17 : BitVec 32)]
  | .mclaim a b => [(0xF0#8 ++ 0#8 ++ a ++ b ++ 0#4 : BitVec 32)]
  | .mrel a b => [(0xF2#8 ++ 0#8 ++ a ++ b ++ 0#4 : BitVec 32)]
  | .mload a sc tr size stride off => [(0xF5#8 ++ 0#8 ++ a ++ 0#6 ++ bitsOfBool sc ++ bitsOfBool tr ++ bitsOfMSize size : BitVec 32), (stride ++ off : BitVec 32)]
  | .mstore t sc f stride off => [(0xF7#8 ++ t ++ 0#6 ++ 0#6 ++ bitsOfBool sc ++ 0#1 ++ bitsOfMStFmt f : BitVec 32), (stride ++ off : BitVec 32)]
  | .mma t a b f => [(0xF8#8 ++ t ++ a ++ b ++ bitsOfMmaFmt f : BitVec 32)]
  | .mzero t => [(0xFA#8 ++ t ++ 0#6 ++ 0#6 ++ 0#4 : BitVec 32)]
  | .mwait k => [(0xFC#8 ++ 0#4 ++ k ++ 0#16 : BitVec 32)]
  | .msig k => [(0xFC#8 ++ 0#4 ++ k ++ 0#12 ++ 8#4 : BitVec 32)]
  | .mend => [(0xFE#8 ++ 0#24 : BitVec 32)]
  | .clauseFetch _ => []
  | .resultLanding _ _ => []
  | .registerRefill _ _ => []
  | .pauseExpiry _ => []
  | .launchPacket _ => []
  | .copyPacket _ => []
  | .graphPacket _ => []
  | .waitPacket _ => []
  | .signalPacket _ => []
  | .signalPerform _ _ => []
  | .phasePacket _ => []
  | .cancelPacket _ => []
  | .timefencePacket _ => []
  | .timefenceRelease _ => []
  | .nopPacket _ => []
  | .packetReread _ => []
  | .queueStall _ => []
  | .waitReread _ => []
  | .waitSemStall _ => []
  | .heldLaunchStart => []
  | .workgroupAdmission _ => []
  | .passedOverBlock _ => []
  | .ophintHoldEnd _ => []
  | .workgroupEnd _ => []
  | .cancelNoticeTimeout _ => []
  | .preemptWrite _ _ => []
  | .foldExpansion _ => []
  | .workgroupSave _ => []
  | .workgroupRestore _ _ => []
  | .sliceEnd _ => []
  | .tenantSwitch _ _ => []
  | .overrunSave _ _ => []
  | .overrunReset _ _ => []
  | .walkCompletion _ _ _ _ => []
  | .copyTile _ => []
  | .faultRetry _ => []
  | .faultUnresolved _ => []
  | .semsigPerform _ => []
  | .tokenRefill => []
  | .openTileTimeout _ => []
  | .breezeTile _ => []
  | .breezeClr => []
  | .tlbinvCompletion _ => []
  | .icinvCompletion _ => []
  | .wfiResume _ => []
  | .reservationEntryGrant _ => []
  | .streamAdmission _ => []
  | .streamClauseFetch _ => []
  | .streamOpRetire _ _ => []
  | .ballastPass _ => []
  | .allowanceRegulation _ _ => []
  | .notifyStore _ _ _ => []
  | .kettleUngate _ => []
  | .qctlWrite _ _ => []
  | .ingFiltWrite _ _ => []
  | .hevtWrite _ _ => []
  | .nqlatchWrite _ _ => []
  | .registerWrite _ => []
  | .cxlMemRead _ _ => []
  | .cxlMemWrite _ _ => []
  | .ptmDialogue => []
  | .doeRequest _ => []
  | .flr _ => []
  | .ptpMessageRx _ => []
  | .ptpRequestTx _ => []
  | .ptpHoldover => []
  | .ingressFrame _ => []
  | .connect _ => []
  | .disconnect _ => []
  | .regrant => []
  | .partConnDone => []
  | .retireWrite _ _ => []
  | .quiesce _ _ => []
  | .clkgate _ _ => []
  | .pwroff _ _ => []
  | .powerup _ _ => []
  | .clpwrOn _ _ => []
  | .clpwrDone _ => []
  | .clWake _ => []
  | .retSave _ _ => []
  | .retRestore _ _ => []
  | .retDone _ => []
  | .agentDb => []
  | .operatingPointChange _ => []
  | .thermalLimit _ _ => []
  | .thermalStop _ _ => []
  | .deviceReset => []
  | .bootGo => []
  | .run _ => []
  | .keyload _ => []
  | .keyclear _ => []
  | .attest _ => []
  | .undefinedOpcodePacket _ => []
  | .badkindRequest _ => []
  | .firstLockComplete => []
  | .periodStart _ => []
  | .linkTraining _ _ => []

/-- The bytes of an instruction, in memory order (R2). -/
def encodeBytes (i : Instr) : List Byte := (encode i).flatMap bytesOfWord

/-- The eight bytes of a number below 2^64, lowest first. -/
def bytesOfNat64 (n : Nat) : List Byte :=
  bytesOfWord (BitVec.ofNat 32 n) ++ bytesOfWord (BitVec.ofNat 32 (n / 2 ^ 32))

/-- What the decoder reads from an instruction whose bits are w, numbered as the opcode table numbers them;
the bits from nbits on are 0. -/
def decodeTableWord (nbits w : Nat) : Option Instr :=
  match decode (bytesOfNat64 (w % 2 ^ nbits)) with
  | .ok (i, _) => some i
  | .error _ => none

end Sys2Proof
end

