-- ==== Sys2Proof/Machine/Control.lean ====
section
/-! DEFINITION. The control words that touch no frame (R123 to R126, R258, R352, R354, R356, R367 to R372, R395, R403,
R422): group 110 of the opcode map. -/

namespace Sys2Proof.Machine

/-- The counters of every lane below LANES set to what f gives (R124). -/
def Team.mapDepth (t : Team) (f : Nat → Nat) : Team :=
  { t with d := fsets (fun _ => (0 : BitVec 7)) t.d ((List.range t.lanes).map fun l => (l, BitVec.ofNat 7 (f l))) }

/-- Some lane is at the deepest level (R124). -/
def Team.deepest (t : Team) : Bool := (List.range t.lanes).any fun l => t.depth l == 127

/-- IF (R124, R368). -/
def execIfL (a : Code) (s : State) : Out :=
  withTeam s fun t c =>
    if t.deepest then wordTrap s t c 0x15 0
    else
      let t' := t.mapDepth fun l =>
        if 0 < t.depth l then t.depth l + 1 else if src s.fresh t a l = 0 then 1 else 0
      .next (s.bump.putTeam s.cur (t'.advance c 1))

/-- ELSE (R124). -/
def execElseL (s : State) : Out :=
  withTeam s fun t c =>
    let t' := t.mapDepth fun l => if t.depth l = 0 then 1 else if t.depth l = 1 then 0 else t.depth l
    .next (s.putTeam s.cur (t'.advance c 1))

/-- ENDIF (R124). -/
def execEndifL (s : State) : Out :=
  withTeam s fun t c => .next (s.putTeam s.cur ((t.mapDepth fun l => t.depth l - 1).advance c 1))

/-- LOOP (R124, R403). -/
def execLoopL (s : State) : Out :=
  withTeam s fun t c =>
    if t.deepest then wordTrap s t c 0x15 0
    else
      let t' := t.mapDepth fun l => if 0 < t.depth l then t.depth l + 1 else 0
      .next (s.putTeam s.cur (t'.advance c 1))

/-- The active lanes whose predicate is not zero. -/
def takenLanes (k : Nat) (t : Team) (p : Code) : List Nat := t.activeLanes.filter fun l => src k t p l != 0

/-- BREAK (R124, R354). -/
def execBreakL (p : Code) (n : BitVec 7) (s : State) : Out :=
  withTeam s fun t c =>
    let ls := takenLanes s.fresh t p
    let t' := { t with
      d := fsets (fun _ => (0 : BitVec 7)) t.d (ls.map fun l => (l, n + 1))
      b := fsets falseAt t.b (ls.map fun l => (l, true)) }
    .next (s.bump.putTeam s.cur (t'.advance c 1))

/-- CONT (R124, R354). -/
def execContL (p : Code) (n : BitVec 7) (s : State) : Out :=
  withTeam s fun t c =>
    let t' := { t with
      d := fsets (fun _ => (0 : BitVec 7)) t.d ((takenLanes s.fresh t p).map fun l => (l, n + 1)) }
    .next (s.bump.putTeam s.cur (t'.advance c 1))

/-- The counters after ENDLOOP has revived the lanes that sat out by CONT (R124). -/
def Team.revive (t : Team) : Team :=
  t.mapDepth fun l => if t.depth l = 1 ∧ !t.broken l then 0 else t.depth l

/-- The counters and flags after ENDLOOP has left the loop (R124). -/
def Team.leaveLoop (t : Team) : Team :=
  let back := (List.range t.lanes).filter fun l => t.depth l == 1 && t.broken l
  { t.mapDepth fun l => t.depth l - 1 with b := fsets falseAt t.b (back.map fun l => (l, false)) }

/-- ENDLOOP (R124, R370). -/
def execEndloop (off : BitVec 22) (s : State) : Out :=
  withTeam s fun t c =>
    let t' := t.revive
    if t'.activeLanes.isEmpty then .next (s.putTeam s.cur (t'.leaveLoop.advance c 1))
    else .next (s.putTeam s.cur (t'.branch c (c.target off)))

/-- BRA (R353). -/
def execBra (off : BitVec 22) (s : State) : Out :=
  teamWord s 1 fun t c _ => .next (s.putTeam s.cur (t.branch c (c.target off)))

/-- BRV (R126, R357). -/
def execBrv (off : BitVec 22) (p : Code) (off2 : BitVec 22) (s : State) : Out :=
  teamWord s 2 fun t c _ =>
    let v := (takenLanes s.fresh t p).length
    let t' := if v = t.activeLanes.length then t.branch c (c.target off)
      else if v = 0 then t.branch c c.follow
      else t.branch c (c.target off2)
    .next (s.bump.putTeam s.cur t')

/-- JMPI (R396). -/
def execJmpi (a : Code) (s : State) : Out :=
  teamWord s 1 fun t c l0 =>
    let v := pair s.fresh t a l0
    if v.toNat % 4 ≠ 0 then wordTrap s.bump t c 5 v
    else .next (s.bump.putTeam s.cur (t.branch c v))

/-- The end of a team by EXIT (R98, R372): an agent restarts (R329). -/
def exitTeam (s : State) (t : Team) : State :=
  if t.agent then restartAgent s s.cur false else teamLeaves s s.cur .exited

/-- EXIT (R371). -/
def execExit (s : State) : Out := teamWord s 1 fun t _ _ => .next (exitTeam s t)

/-- NOP (R422). -/
def execNop (s : State) : Out := skipWord s 1

/-- A team is paused: the count of its cluster's clock has not run out (R8, R258, R428). -/
def Team.paused (s : State) (t : Team) : Bool := decide (clockTenths s (teamCore s t / 4) < t.pauseEnd)

/-- PAUSE (R258, R428): the rank is lowered until the count has run out. -/
def execPause (imm : BitVec 16) (s : State) : Out :=
  teamWord s 1 fun t c _ =>
    .next (s.putTeam s.cur
      ({ t with pauseEnd := clockTenths s (teamCore s t / 4) + 10 * imm.toNat }.advance c 1))

end Sys2Proof.Machine
end

