-- ==== Sys2Proof/Machine/Frame.lean ====
section
/-! DEFINITION. Frames and slices (R129 to R144, R353, R362, R363, R385 to R387, R404, R405, R432, R433, R440). -/

namespace Sys2Proof.Machine

/-! ## Ranges of memory -/

/-- The pieces of n bytes from va in different 64 KiB pages. -/
def pagePieces : Nat → Nat → Nat → List (Nat × Nat)
  | 0, _, _ => []
  | fuel + 1, va, n =>
    if n = 0 then []
    else
      let k := min n (65536 - va % 65536)
      (va, k) :: pagePieces fuel (va + k) (n - k)

/-- A range checked as one access of a team (R137, R146, R386). The ranges of a CUT or a GRAFT are checked one after another:
the model's choice (log entry 57). -/
def rangeAccess (s : State) (u : Nat) (t : Team) (wr : Bool) (va n : Nat) : Except (Nat × Nat) (List Seg) × State :=
  meetAll s u t { n := n, wr := wr, rd := !wr, device := false, aligned := false } va n (pagePieces (n / 65536 + 2) va n)

/-- Writing bytes at va through the pieces of a range. -/
def writeSegs (s : State) (xs : List Seg) (va : Nat) (l : List Byte) (ref : Bool) : State :=
  xs.foldl (fun s x =>
    let lo := max va x.va
    let hi := min (va + l.length) (x.va + x.n)
    if lo < hi then placeWrite s x.place (x.off + (lo - x.va)) ((l.drop (lo - va)).take (hi - lo)) ref else s) s

/-- Reading n bytes at va through the pieces of a range. -/
def readSegs (s : State) (xs : List Seg) (va n : Nat) : List Byte :=
  xs.flatMap fun x =>
    let lo := max va x.va
    let hi := min (va + n) (x.va + x.n)
    (List.range (hi - lo)).map fun i => placeByte s x.place (x.off + (lo - x.va) + i)

/-- Performing the earlier accesses that a word of the team's own must follow, where it reads or writes the pieces xs and
its window: those to the window and to the same bytes (R182, R353, R405), what other teams have written there that the team
sees, those that a release has ordered before its next write (R191), the ATOMs that are acquires (R186), and, where it
writes a strictly ordered page, all (R185). -/
def drainFrame (s : State) (u : Nat) (wr : Bool) (xs : List Seg) : State :=
  if wr && xs.any fun x => x.order == 0 then drainAll s u
  else
    match s.team u with
    | none => s
    | some t =>
      let t := t.fixLoads fun y => y.acq || decide (gateLevel t.storeGate y.word ≠ 0) ||
        (y.parts.any fun p => decide (p.place = .frame u)) || xs.any fun x => y.meets x.place x.off x.n
      raiseStores (xs.foldl (fun s x => raiseMet s u x.place x.off x.n) (s.putTeam u t)) u fun y =>
        if decide (y.place = .frame u) || y.acquires || xs.any fun x => y.meets x.place x.off x.n then 6
        else gateLevel t.storeGate y.word

/-- A word that would have state leave local memory under a key that is not VALID is handled as a PERMISSION failure (R167):
it writes nothing, and TADDR is the first byte that it would have written. -/
def withSpill (s : State) (t t' : Team) (c : Clause) (va : Nat) (k : State → Out) : Out :=
  match spillRefused s t t' with
  | (true, s) => wordTrap s t c 7 (BitVec.ofNat 64 va)
  | (false, s) => k s

/-! ## The window -/

/-- n bytes of the window at an address, as a number. Where a word of a chain that software has overwritten points outside
the team's window, R137 does not say what its walk reads: 0 below the window, and above its live part the bytes that the
window itself holds, with no translation and no trap, by the model's choice (log entry 57). -/
def Team.frameNum (t : Team) (a n : Nat) : Nat :=
  if a < t.base then 0 else ofBytes (Memory.read t.frame (a - t.base) n)

/-- The size of a mark frame (R134). -/
def Team.markSize (t : Team) : Nat := 32 + 16 * ceilDiv t.lanes 16

/-- How many frames a window can hold: a bound for a walk of a chain in it. -/
def Team.chainBound (t : Team) : Nat := t.framesz / 16 + 1

/-- The first mark of the chain from m that ends at or below fsp (R134). -/
def Team.unlinkFrom (t : Team) (fsp : Nat) : Nat → Nat → Nat
  | 0, _ => 0
  | fuel + 1, m => if m = 0 ∨ m + t.markSize ≤ fsp then m else t.unlinkFrom fsp fuel (t.frameNum (m + 24) 8)

/-- Unlinking every mark that is not wholly below FSP (R134). -/
def Team.unlink (t : Team) : Team :=
  { t with head := BitVec.ofNat 64 (t.unlinkFrom t.fsp.toNat t.chainBound t.head.toNat) }

/-- The top of the window. -/
def Team.limit (t : Team) : Nat := t.base + t.framesz

/-- CTR of every lane: d and b (R134). -/
def Team.ctrs (t : Team) : List Byte :=
  (List.range t.lanes).map fun l => BitVec.ofNat 8 (t.depth l + (t.broken l).toNat * 128)

/-- The counters and flags of every lane set from CTR bytes. -/
def Team.setCtrs (t : Team) (l : List Byte) : Team :=
  { t with
    d := fsets (fun _ => (0 : BitVec 7)) t.d ((List.range t.lanes).map fun i => (i, ((l[i]?).getD 0).extractLsb' 0 7))
    b := fsets falseAt t.b ((List.range t.lanes).map fun i => (i, ((l[i]?).getD 0).getLsbD 7)) }

/-- CALL (R132, R353). -/
def execCall (off : BitVec 22) (s : State) : Out :=
  teamWord s 1 fun t c _ =>
    let a := t.fsp.toNat
    if t.limit < a + 16 then wordTrap s t c 0x14 0
    else
      match rangeAccess s s.cur { t with fsp := t.fsp + 16 } true a 16 with
      | (.error (cause, b), s) => accessTrap s t c cause b
      | (.ok xs, s) => withSpill s t { t with fsp := t.fsp + 16 } c a fun s =>
        let s := drainFrame s s.cur true xs
        let s := writeSegs s xs a (toBytes 8 c.follow.toNat) false
        let s := writeSegs s xs (a + 8) (toBytes 8 t.fb.toNat) true
        match s.team s.cur with
        | none => .next s
        | some t =>
          .next (spillCheck (s.putTeam s.cur ({ t with fb := t.fsp, fsp := t.fsp + 16 }.branch c (c.target off))) s.cur)

/-- RET (R132, R433). R132 loads the saved FB without a check, where R130 says that FB keeps its limits: one that software
has overwritten is loaded as it stands, by the model's choice (log entry 57). -/
def execRet (s : State) : Out :=
  teamWord s 1 fun t c _ =>
    let a := t.fb.toNat
    if t.fsp.toNat < a + 16 then wordTrap s t c 0x0A t.fb
    else
      match rangeAccess s s.cur t false a 16 with
      | (.error (cause, b), s) => accessTrap s t c cause b
      | (.ok xs, s) =>
        let s := drainFrame s s.cur false xs
        let l := readSegs s xs a 16
        match s.team s.cur with
        | none => .next s
        | some t =>
          let t' := { t with fsp := t.fb, fb := BitVec.ofNat 64 (num l 8 8) }.unlink
          .next (s.putTeam s.cur (t'.branch c (BitVec.ofNat 64 (num l 0 8))))

/-- MARK (R134, R405). -/
def execMark (tag : BitVec 16) (s : State) : Out :=
  teamWord s 1 fun t c _ =>
    let a := t.fsp.toNat
    let z := t.markSize
    if t.limit < a + z then wordTrap s t c 0x14 0
    else
      match rangeAccess s s.cur { t with fsp := t.fsp + BitVec.ofNat 64 z } true a z with
      | (.error (cause, b), s) => accessTrap s t c cause b
      | (.ok xs, s) => withSpill s t { t with fsp := t.fsp + BitVec.ofNat 64 z } c a fun s =>
        let s := drainFrame s s.cur true xs
        let s := writeSegs s xs a (toBytes 2 tag.toNat ++ toBytes 2 0x4D41 ++ zeros 4 ++ toBytes 8 c.follow.toNat) false
        let s := writeSegs s xs (a + 16) (toBytes 8 t.fb.toNat ++ toBytes 8 t.head.toNat) true
        let s := writeSegs s xs (a + 32) (t.ctrs ++ zeros (z - 32 - t.lanes)) false
        match s.team s.cur with
        | none => .next s
        | some t =>
          let t' := { t with head := t.fsp, fsp := t.fsp + BitVec.ofNat 64 z }
          .next (spillCheck (s.putTeam s.cur (t'.branch c c.follow)) s.cur)

/-! ## The slice store -/

/-- The slice store of a team's launch (R139): its base and size, none where it is unusable. -/
def sliceStore (s : State) (t : Team) : Option (Nat × Nat) :=
  match s.launch t.launch with
  | none => none
  | some x =>
    let a := x.sliceStore.toNat
    if a = 0 ∨ x.sliceSz = 0 ∨ a % 2048 ≠ 0 ∨ x.sliceSz % 2048 ≠ 0 ∨ x.sliceSz < 4096 then none else some (a, x.sliceSz)

/-- How many directory entries a store has (R139). -/
def entryCount (size : Nat) : Nat := min 128 (size / 2048 - 1)

/-- Directory entry i of a directory block. -/
def dirEntry (dir : List Byte) (i : Nat) : List Byte := (dir.drop (16 * i)).take 16

def entryGen (e : List Byte) : Nat := num e 0 2
def entryLive (e : List Byte) : Bool := num e 2 1 % 2 == 1
def entryOwner (e : List Byte) : Nat := num e 3 1
def entryFirst (e : List Byte) : Nat := num e 4 2
def entryBlocks (e : List Byte) : Nat := num e 6 2
def entryFrame (e : List Byte) : Nat := num e 12 4

/-- Block b is held by a LIVE entry. -/
def blockUsed (dir : List Byte) (count b : Nat) : Bool :=
  (List.range count).any fun i =>
    let e := dirEntry dir i
    entryLive e && decide (entryFirst e ≤ b) && decide (b < entryFirst e + entryBlocks e)

/-- The lowest run of k free blocks (R139). -/
def freeRun (dir : List Byte) (size k : Nat) : Option Nat :=
  let nb := size / 2048
  findFrom (fun b => decide (b + k ≤ nb) && (List.range k).all fun i => !blockUsed dir (entryCount size) (b + i)) 1 (nb - 1)

/-- Every COPY, COPYC and SEMSIG of a team has completed (R137): none is in the engine, none of its slices waits. -/
def copiesDone (s : State) (u : Nat) (t : Team) : Bool :=
  ((entries s.copies).all fun e => !(e.2.team == some u || (decide (e.2.kind = .copyc) && e.2.wg == some t.wg))) &&
  (match s.wg t.wg with
   | some w => w.colls.all fun x => x.slices.all fun y => y.team != u
   | none => true)

/-! ## CUT -/

/-- The nearest mark of a tag from m (R137): 0 where there is none. -/
def Team.findMark (t : Team) (tag : Nat) : Nat → Nat → Nat
  | 0, _ => 0
  | fuel + 1, m =>
    if m = 0 ∨ t.frameNum (m + 2) 2 ≠ 0x4D41 then 0
    else if t.frameNum m 2 = tag then m
    else t.findMark tag fuel (t.frameNum (m + 24) 8)

/-- The lowest return frame met from fb while it lies in [lo, hi) (R137). -/
def Team.linkFrame (t : Team) (lo hi : Nat) : Nat → Nat → Option Nat
  | 0, _ => none
  | fuel + 1, fb =>
    if lo ≤ fb ∧ fb < hi then
      match t.linkFrame lo hi fuel (t.frameNum (fb + 8) 8) with
      | some x => some (min fb x)
      | none => some fb
    else none

/-- The bytes of a slice before its frames (R138). -/
def sliceHead (t : Team) (resume : DWord) (link : Option Nat) (dreg : Code) : List Byte :=
  toBytes 8 resume.toNat ++ toBytes 8 t.fb.toNat ++ toBytes 8 t.fsp.toNat ++
  toBytes 4 (link.getD 0xFFFFFFFF) ++ toBytes 2 t.lanes ++ toBytes 1 t.nregs ++ toBytes 1 dreg.toNat ++
  ((List.range 8).flatMap fun i => toBytes 4 (t.fmtReg i).toNat) ++
  (t.ctrs ++ zeros (16 * ceilDiv t.lanes 16 - t.lanes)) ++
  ((List.range t.nregs).flatMap fun n => (List.range t.lanes).flatMap fun l => toBytes 4 (t.reg n l).toNat)

/-- The reference bits of F bytes of the window from an offset, as bytes (R138). -/
def refBytes (t : Team) (o f : Nat) : List Byte :=
  let n := 16 * ceilDiv f 1024
  (List.range n).map fun i => BitVec.ofNat 8 ((List.range 8).map fun j =>
    if 8 * i + j < f / 8 ∧ fget falseAt t.refs (o / 8 + 8 * i + j) then 2 ^ j else 0).sum

/-- The size of a slice (R137). -/
def sliceSize (t : Team) (f : Nat) : Nat := 64 + 16 * ceilDiv t.lanes 16 + 4 * t.lanes * t.nregs + f + 16 * ceilDiv f 1024

/-- The team after a successful CUT (R137): the range released, the counters restored, the handle in every lane. It goes
on at the mark's RESUME, as R137 and R363 say, where R135 speaks of the clause that follows its own; and a SAVEDFB outside
R130's limits is loaded as it stands: the model's choices (log entry 57). -/
def Team.afterCut (t : Team) (c : Clause) (m lo : Nat) (d : Code) (handle : DWord) : Team :=
  let o := lo - t.base
  let f := t.fsp.toNat - lo
  let ctr := Memory.read t.frame (m + 32 - t.base) t.lanes
  let resume := BitVec.ofNat 64 (t.frameNum (m + 8) 8)
  let t' := { t.setCtrs ctr with
    frame := fclear t.frame o f, refs := fclear t.refs (o / 8) (f / 8)
    fsp := BitVec.ofNat 64 lo, fb := BitVec.ofNat 64 (t.frameNum (m + 16) 8), head := BitVec.ofNat 64 m }
  (({ t' with regs := fsets zeroWord t'.regs ((List.range t.lanes).flatMap fun l =>
    [(regKey d.toNat l, handle.extractLsb' 0 32), (regKey (d.toNat + 1) l, handle.extractLsb' 32 32)]) }).switchPark
      c).goto resume

/-- CUT after its store and range checks: entry e, block run b (R137 to R140). -/
def cutWrite (s : State) (c : Clause) (d : Code) (t : Team) (m lo base e gen b : Nat) (xs ys : List Seg) : Out :=
  let f := t.fsp.toNat - lo
  let n := sliceSize t f
  let o := lo - t.base
  let link := t.linkFrame lo t.fsp.toNat t.chainBound t.fb.toNat
  let data := sliceHead t c.follow (link.map fun x => x - lo) d ++ Memory.read t.frame o f ++ refBytes t o f
  let part := ownPart s t
  let ent := toBytes 2 gen ++ toBytes 1 1 ++ toBytes 1 part ++ toBytes 2 b ++ toBytes 2 (ceilDiv n 2048) ++
    toBytes 4 n ++ toBytes 4 f
  let s := drainFrame s s.cur true (xs ++ ys)
  let s := writeSegs s ys (base + 2048 * b) data false
  let s := writeSegs s xs (base + 16 * e) ent false
  let handle := BitVec.ofNat 64 (e + gen * 2 ^ 16 + part * 2 ^ 32)
  match s.team s.cur with
  | none => .next s
  | some t => .next (s.putTeam s.cur (t.afterCut c m lo d handle))

/-- CUT (R137, R363). It holds its team while the team's own work is outstanding. -/
def execCut (d : Code) (tag : BitVec 16) (s : State) : Out :=
  teamWord s 1 fun t c _ =>
    if !t.pend.isEmpty || !copiesDone s s.cur t then .next s
    else
      let s := drainFrame s s.cur false []
      match s.team s.cur with
      | none => .next s
      | some t =>
        let m := t.findMark tag.toNat t.chainBound t.head.toNat
        if m = 0 then wordTrap s t c 0x0E 0
        else
          let lo := m + t.markSize
          let f := t.fsp.toNat - lo
          let n := sliceSize t f
          match sliceStore s t with
          | none => wordTrap s t c 0x0F 0
          | some (base, size) =>
            if 65536 < n then wordTrap s t c 0x0F 0
            else
              match rangeAccess s s.cur t false lo f with
              | (.error (cause, a), s) => accessTrap s t c cause a
              | (.ok _, s) =>
                match rangeAccess s s.cur t false base 2048 with
                | (.error (cause, a), s) => accessTrap s t c cause a
                | (.ok ds, s) =>
                  let s := drainFrame s s.cur false ds
                  let dir := readSegs s ds base 2048
                  match findFrom (fun i => !entryLive (dirEntry dir i)) 0 (entryCount size),
                      freeRun dir size (ceilDiv n 2048) with
                  | some e, some b =>
                    match rangeAccess s s.cur t true (base + 16 * e) 16 with
                    | (.error (cause, a), s) => accessTrap s t c cause a
                    | (.ok xs, s) =>
                      match rangeAccess s s.cur t true (base + 2048 * b) (2048 * ceilDiv n 2048) with
                      | (.error (cause, a), s) => accessTrap s t c cause a
                      | (.ok ys, s) =>
                        let old := entryGen (dirEntry dir e)
                        cutWrite s c d t m lo base e (if old = 65535 then 1 else old + 1) b xs ys
                  | _, _ => wordTrap s t c 0x0F 0

/-! ## GRAFT and SLFREE -/

/-- The checks of a handle that GRAFT and SLFREE share, up to the OWNER check (R141, R142): a cause and TADDR, or the
store's base, the entry's index and its bytes. -/
def checkHandle (s : State) (t : Team) (h : DWord) : Except (Nat × Nat) (Nat × Nat × List Byte) × State :=
  let own := ownPart s t
  let i := dfld h 0 16
  if dfld h 38 26 ≠ 0 then (.error (0x0B, 0), s)
  else if dfld h 32 6 ≠ own then (.error (0x0C, 0), s)
  else
    match sliceStore s t with
    | none => (.error (0x0B, 0), s)
    | some (base, size) =>
      if entryCount size ≤ i then (.error (0x0B, 0), s)
      else
        match rangeAccess s s.cur t false base 2048 with
        | (.error e, s) => (.error e, s)
        | (.ok ds, s) =>
          let s := drainFrame s s.cur false ds
          let e := dirEntry (readSegs s ds base 2048) i
          if !entryLive e ∨ entryGen e ≠ dfld h 16 16 then (.error (0x0B, 0), s)
          else if entryOwner e ≠ own then (.error (0x0C, 0), s)
          else (.ok (base, i, e), s)

/-- SLFREE (R142, R440). -/
def execSlfree (g : Code) (slot : BitVec 3) (s : State) : Out :=
  teamWord s 1 fun t c l0 =>
    match checkHandle s.bump t (pair s.fresh t g l0) with
    | (.error (cause, a), s) => accessTrap s t c cause a
    | (.ok (base, i, e), s) =>
      match rangeAccess s s.cur t true (base + 16 * i) 16 with
      | (.error (cause, a), s) => accessTrap s t c cause a
      | (.ok xs, s) =>
        let s := drainFrame s s.cur true xs
        let s := writeSegs s xs (base + 16 * i + 2) (toBytes 1 (num e 2 1 / 2 * 2)) false
        match s.team s.cur with
        | none => .next s
        | some t => .next (s.putTeam s.cur ((t.addPend (slotOf slot) false []).advance c 1))

/-- A word of the slice, rebased where it points into [lo, hi] (R141, R387). -/
def rebase (lo hi delta p : DWord) : DWord := if lo.ule p ∧ p.ule hi then p + delta else p

/-- The frames of a slice with the set-bit words rebased (R141). -/
def graftFrames (frames bits : List Byte) (lo hi delta : DWord) : List Byte :=
  (List.range ((frames.length + 7) / 8)).flatMap fun i =>
    let w := (frames.drop (8 * i)).take 8
    if ((bits[i / 8]?).getD 0).getLsbD (i % 8) then
      toBytes 8 (rebase lo hi delta (BitVec.ofNat 64 (ofBytes w))).toNat
    else w

/-- The registers that a slice holds (R138). -/
def sliceRegs (t : Team) (l : List Byte) : List (Nat × Word) :=
  (List.range t.nregs).flatMap fun n => (List.range t.lanes).map fun i =>
    (regKey n i, BitVec.ofNat 32 (num l (4 * (n * t.lanes + i)) 4))

/-- The team after a GRAFT (R141), apart from its frames: from the record, the counters and registers of the slice,
and the argument pair. Bits [31:21] of a format register are 0 (R4, R220). -/
def Team.afterGraft (t : Team) (c : Clause) (rec_ body : List Byte) (lo hi delta : DWord) (args : Nat → DWord) : Team :=
  let fb := BitVec.ofNat 64 (num rec_ 8 8)
  let dreg := num rec_ 31 1
  let t1 := t.setCtrs (body.take t.lanes)
  let regs := fsets zeroWord t1.regs (sliceRegs t (body.drop (16 * ceilDiv t.lanes 16)))
  let t2 := { t1 with
    regs := fsets zeroWord regs ((List.range t.lanes).flatMap fun l =>
      [(regKey dreg l, (args l).extractLsb' 0 32), (regKey (dreg + 1) l, (args l).extractLsb' 32 32)])
    fmt := fsets zeroWord t1.fmt ((List.range 8).map fun i => (i, BitVec.ofNat 32 (num rec_ (32 + 4 * i) 4 % 2 ^ 21)))
    fb := if lo.ule fb ∧ fb.ule hi then fb + delta else t.fb
    fsp := rebase lo hi delta hi }
  (t2.unlink.switchPark c).goto (BitVec.ofNat 64 (num rec_ 0 8))

/-- GRAFT past its checks of the handle (R141, R386): the record, the shape, the room, the slice, the copy. -/
def graftSlice (s : State) (t : Team) (c : Clause) (g : Code) (k base : Nat) (e : List Byte) : Out :=
  let a := base + 2048 * entryFirst e
  let f := entryFrame e
  match rangeAccess s s.cur t false a 64 with
  | (.error (cause, b), s) => accessTrap s t c cause b
  | (.ok rs, s) =>
    let s := drainFrame s s.cur false rs
    let rec_ := readSegs s rs a 64
    let link := num rec_ 24 4
    let dreg := num rec_ 31 1
    if num rec_ 28 2 ≠ t.lanes ∨ num rec_ 30 1 ≠ t.nregs then wordTrap s t c 0x0D 0
    else if link ≠ 0xFFFFFFFF ∧ (link % 16 ≠ 0 ∨ f < link + 16) then wordTrap s t c 0x0D 0
    else if dreg % 2 = 1 ∨ t.nregs ≤ dreg + 1 then wordTrap s t c 0x0D 0
    else if t.limit < t.fsp.toNat + f then wordTrap s t c 0x14 0
    else
      match rangeAccess s s.cur t false (a + 64) (sliceSize t f - 64) with
      | (.error (cause, b), s) => accessTrap s t c cause b
      | (.ok bs, s) =>
        match rangeAccess s s.cur { t with fsp := t.fsp + BitVec.ofNat 64 f } true t.fsp.toNat f with
        | (.error (cause, b), s) => accessTrap s t c cause b
        | (.ok fs, s) => withSpill s t { t with fsp := t.fsp + BitVec.ofNat 64 f } c t.fsp.toNat fun s =>
          let s := drainFrame (drainFrame s s.cur false bs) s.cur true fs
          let body := readSegs s bs (a + 64) (sliceSize t f - 64)
          let o := 16 * ceilDiv t.lanes 16 + 4 * t.lanes * t.nregs
          let bits := body.drop (o + f)
          let hi := BitVec.ofNat 64 (num rec_ 16 8)
          let lo := hi - BitVec.ofNat 64 f
          let delta := t.fsp - lo
          let frames := graftFrames ((body.drop o).take f) bits lo hi delta
          let frames := if link = 0xFFFFFFFF then frames
            else patch frames link (toBytes 8 c.follow.toNat ++ toBytes 8 t.fb.toNat)
          let s := writeSegs s fs t.fsp.toNat frames false
          match s.team s.cur with
          | none => .next s
          | some t =>
            let w0 := (t.fsp.toNat - t.base) / 8
            let t := { t with refs := fsets falseAt t.refs ((List.range (f / 8)).map fun i =>
              (w0 + i, ((bits[i / 8]?).getD 0).getLsbD (i % 8))) }
            let args := fun l => pair k t (g + 2) l
            .next (spillCheck (s.putTeam s.cur (t.afterGraft c rec_ body lo hi delta args)) s.cur)

/-- GRAFT (R141, R386). It holds its team while the team's results are outstanding. -/
def execGraft (g : Code) (_slot : BitVec 3) (s : State) : Out :=
  teamWord s 1 fun t c l0 =>
    if !t.pend.isEmpty then .next s
    else
      match checkHandle s.bump t (pair s.fresh t g l0) with
      | (.error (cause, a), s) => accessTrap s t c cause a
      | (.ok (base, _, e), s) => graftSlice s t c g s.fresh base e

end Sys2Proof.Machine
end

