-- ==== Sys2Proof/Machine/Regs.lean ====
section
/-! DEFINITION. Reading and writing device registers (R4, R177, R250, R259, R273, R274, R277, R278, R282, R285, R288,
R294 to R298, R303, R315, R321), from a team and through BAR0. -/

namespace Sys2Proof.Machine

/-! ## Reading -/

/-- What a register reads as. -/
def readReg64 (s : State) (r : Nat) : DWord := if r = aPtpNow then timeNs s else s.dreg r

/-- n bytes at a device register address, as a number (R274). -/
def devRead (s : State) (a n : Nat) : Nat :=
  match regAt a with
  | none => 0
  | some r =>
    if isNqmap r then
      if n = 4 then (s.dreg r).toNat else (s.dreg r).toNat + (s.dreg (r + 4)).toNat * 2 ^ 32
    else (readReg64 s r).toNat / 2 ^ (8 * (a - r)) % 2 ^ (8 * n)

/-! ## Writing -/

/-- A write that stores the bits that a mask names (R4). -/
def store (s : State) (r : Nat) (mask v : DWord) : State := s.putDreg r (merge mask (s.dreg r) v)

/-- A write to the seal page (R177). -/
def writeSeal (s : State) (r : Nat) (v : DWord) : State :=
  if r = aBreezeCtl then
    let s := store s r 3 v
    if v.getLsbD 2 then s.putDreg aBreezeStat 0 else s
  else if r = aBreezeRate then store s r 0xFFFFFF v
  else if r = aSealBase then store s r 0xFFFFFFFFFF800#64 v
  else if r = aSealSize then store s r 0xFFFFF800 v
  else s

/-- A write to a filter's registers (R285): PART is F level; the ring stands while EN is 1; a rising EN resets. -/
def writeFilter (s : State) (priv f o : Nat) (v : DWord) : State :=
  let en := (s.dreg (aIngFilt f)).getLsbD 31
  match o with
  | 0 =>
    let s := store s (aIngFilt f) (if priv = 2 then 0x3FBFFFFFFF#64 else 0xBFFFFFFF#64) v
    if v.getLsbD 31 && !en then
      { s.putDreg (aIngStat f) 0 with
        ingDrops := fset zeroNat s.ingDrops f 0, ingSeq := fset zeroNat s.ingSeq f 0 }
    else s
  | 8 => if en then s else store s (aIngRing f) 0x01FFFFFFFFFF0000#64 v
  | 16 => if en then s else store s (aIngRctl f) 0xFF01FF v
  | _ => s

/-- HEVT_n: a 1 clears its bit, of a queue event for every queue of the function (R277). -/
def writeHevt (s : State) (n : Nat) (v : DWord) : State :=
  clearQueueEvents (s.putDreg (aHevt n) (s.dreg (aHevt n) &&& ~~~(v &&& 0x1F))) n (dfld v 0 2)

/-- NQLATCH_n: a 1 in COALESCED clears it and COUNT; DEST is F level (R315). -/
def writeNqlatch (s : State) (priv n : Nat) (v : DWord) : State :=
  let s := if priv = 2 then store s (aNqlatch n) 0x1FF00000000#64 v else s
  if v.getLsbD 1 then (s.putDfield (aNqlatch n) 1 1 0).putDfield (aNqlatch n) 16 16 0 else s

/-- VF_PACE_n (R315, R320): EN 0 sets PL to 8; a rising EN starts afresh. -/
def writePace (s : State) (priv n : Nat) (v : DWord) : State :=
  let was := (s.dreg (aPace n)).getLsbD 0
  let s := store s (aPace n) (if priv = 2 then 0xF01FFF else 0x1FFF) v
  if !v.getLsbD 0 then s.putDfield (aPace n) 16 4 8
  else if !was then s.putPart n { s.part n with paceLast := none, paceRun := 0, paceSince := 8 }
  else s

/-- A quota register: four of them stand while the partition is not OFF (R295). -/
def writeQuota (s : State) (n o : Nat) (v : DWord) : State :=
  let off := partState s n == 0
  match o with
  | 0x00 => if off then store s (aVfCores n) 0xFF03FFFF7F#64 v else s
  | 0x08 => if off then store s (aVfChan n) 0x7F7F3F v else s
  | 0x10 => if off then store s (aVfQueues n) 0x1FFF1FFF0FFF#64 v else s
  | 0x18 => if off then store s (aVfKeys n) 0xFFF07FF v else s
  | 0x20 => store s (aVfTok n) 0xFFFFFF v
  | _ => store s (aVfSlice n) 0x7FFFFFFFFFFF#64 v

/-- A write to block n of the partition page (R295 to R297, R315). -/
def writeBlock (s : State) (priv n o : Nat) (v : DWord) : State :=
  if o < 0x30 then writeQuota s n o v
  else if o = 0x30 then store s (aPtRoot n) 0x7FFFFFFFFFFFE000#64 v
  else if o = 0x38 then store s (aFaultq n) 0x7FFFFFFFFFFFF800#64 v
  else if o = 0x40 then store s (aSave n) 0x01FFFFFFFFFF0000#64 v
  else if o = 0x48 then store s (aSavesz n) 0xFFFFFFFF v
  else if o = 0x50 then if v.getLsbD 4 then s.putDfield (aPartState n) 4 1 0 else s
  else if o = 0x80 then if priv = 2 then store s (aPcap n) 0xFFFFF v else s
  else if o = 0x88 then writePace s priv n v
  else if o = 0x90 then store s (aSealq n) 0x7FFFFFFFFFFFF800#64 v
  else if o = 0x98 then writeNqlatch s priv n v
  else if o = 0xA0 then writeHevt s n v
  else if 0xC0 ≤ o then store s (aBlock n o) 0x803FFFFF#64 v
  else s

/-- A write to the partition page (R294, R298, R303). -/
def writePartPage (s : State) (priv r : Nat) (v : DWord) : State :=
  if r = aPartConn then writeConn s v
  else if r = aDevEnergy then s
  else if r < 0x40400 then writeRetire s ((r - 0x40010) / 8) v
  else writeBlock s priv ((r - 0x40400) / 0x100) ((r - 0x40400) % 0x100) v

/-- A write to the power page (R321). -/
def writePowerPage (s : State) (r : Nat) (v : DWord) : State :=
  let c := (r - 0x50000) / 0x100
  if r = aBallast then store s r 0xF1 v
  else if r = aAgentDb then if v.getLsbD 0 then ringAgents s else s
  else
    match r % 0x100 with
    | 0x00 => settle (writeClpwr s c v)
    | 0x10 => if v.getLsbD 4 then s.putDfield (aClState c) 4 1 0 else s
    | 0x18 => if v.getLsbD 0 then wakeCluster s c else s
    | 0x20 => writeRet s c v
    | _ => s

/-- A write to RPLY_CTL_q (R288): while MODE is not 0, only a MODE 0 counts; a new mode starts afresh. -/
def writeReplay (s : State) (q : Nat) (v : DWord) : State :=
  if replayMode s q ≠ 0 then if dfld v 0 2 = 0 then store s (aRplyCtl q) 3 v else s
  else
    let s := store s (aRplyCtl q) 3 v
    if dfld v 0 2 = 0 then s else (s.putQueue q { s.queue q with replayEnd := none }).putDreg (aRplyStat q) 0

/-- A write to a queue's registers (R250, R288). -/
def writeQueuePage (s : State) (q o : Nat) (v : DWord) : State :=
  match o with
  | 0x00 => if queueEn s q then s else store s (aQbase q) 0x01FFFFFFFFFFF000#64 v
  | 0x08 => settle (writeQctl s q v)
  | 0x20 => writeReplay s q v
  | 0x28 => if replayMode s q ≠ 0 then s else store s (aRplyBase q) 0x01FFFFFFFFFFF800#64 v
  | 0x30 => if replayMode s q ≠ 0 then s else store s (aRplySize q) 0xFFFFF800 v
  | _ => s

/-- A write to PTP_CFG (R282), which says when EN rises. -/
def writePtpCfg (s : State) (v : DWord) : State :=
  let rises := v.getLsbD 11 && !(s.dreg aPtpCfg).getLsbD 11
  store { s with ptp := { s.ptp with enAt := if rises then s.ns else s.ptp.enAt } } aPtpCfg 0xFFF v

/-- A write of a register's own width at a device register address, from a level that reaches it (R4, R274). -/
def devWrite (s : State) (priv a : Nat) (v : DWord) : State :=
  match regAt a with
  | none => s
  | some r =>
    if r < 0x10000 then writeSeal s r v
    else if r < 0x20000 then if r = aPtpCfg then writePtpCfg s v else s
    else if r < 0x30000 then store s r 0x003FFFFFFFFFFFFF#64 v
    else if r < 0x40000 then writeFilter s priv ((r - 0x30000) / 32) ((r - 0x30000) % 32) v
    else if r < 0x50000 then writePartPage s priv r v
    else if r < 0x60000 then writePowerPage s r v
    else if r < 0x70000 then writePreempt s ((r - 0x60000) / 8) v
    else writeQueuePage s ((r - 0x100000) / 64) ((r - 0x100000) % 64) v

/-! ## BAR0 (R273, R274, R331, R332) -/

/-- The device register address that an offset of function fn's BAR0 shows (R274). -/
def barAddress (fn off : Nat) : Option Nat :=
  if off < 0x100 then some (aBlock fn off)
  else if 0x1000 ≤ off ∧ off < 0x1100 then some (0x10000 + (off - 0x1000))
  else if 0x10000 ≤ off ∧ off < 0x11000 then some (0x60000 + (off - 0x10000))
  else if 0x20000 ≤ off ∧ off < 0x20400 ∧ off % 8 = 0 then some (aClWake ((off - 0x20000) / 8))
  else if 0x30000 ≤ off ∧ off < 0x32000 then some off
  else if 0x40000 ≤ off ∧ off < 0x80000 then some (0x100000 + (off - 0x40000))
  else none

/-- A write of a register's own width stands at the register's address (R274). -/
def ownAddress (a : Nat) : Bool := regAt a == some a

/-- A host write of a register's own width at an offset of function fn's BAR0 (R273, R274): to the mailbox, to the boot
registers of the PF, or to a register of the function at P level; any other is ignored or dropped. -/
def barWrite (s : State) (fn off : Nat) (v : DWord) : State :=
  let x := s.mailbox fn
  if off = 0xE0000 then s.putMailbox fn { x with addr := v }
  else if off = 0xE0008 then if v.getLsbD 0 && !x.busy then s.putMailbox fn { x with busy := true } else s
  else if off = 0xF0000 then if fn = 0 then { s with boot := { s.boot with addr := v } } else s
  else if off = 0xF0008 then if fn = 0 then { s with boot := { s.boot with len := v } } else s
  else if off = 0xF0010 then if fn = 0 ∧ v.getLsbD 0 then bootDevice s else s
  else
    match barAddress fn off with
    | some a => if regReached s 1 (some fn) a && ownAddress a then devWrite s 1 a v else s
    | none => s

/-- The register at an 8-byte offset of function fn's BAR0, as a host reads it (R273, R274, R331, R332): 0 where the function
has none. BOOT_STAT's layout is the model's choice (log entry 60). -/
def barReg (s : State) (fn off : Nat) : DWord :=
  let x := s.mailbox fn
  if off = 0xE0000 then x.addr
  else if off = 0xE0010 then BitVec.ofNat 64 (x.busy.toNat + 16 * x.result)
  else if off = 0xE0020 then BitVec.ofNat 64 (num (Config.nonce x.nonce) 0 8)
  else if off = 0xE0028 then BitVec.ofNat 64 (num (Config.nonce x.nonce) 8 8)
  else if 0xF0000 ≤ off then
    if fn ≠ 0 then 0
    else if off = 0xF0000 then s.boot.addr
    else if off = 0xF0008 then s.boot.len
    else if off = 0xF0018 then BitVec.ofNat 64 (s.boot.state + 16 * s.boot.code)
    else 0
  else
    match barAddress fn off with
    | some a =>
      if a = aPtmPtp ∧ fn ≠ 0 then 0
      else if (regAt a).isSome ∧ regReached s 1 (some fn) a then BitVec.ofNat 64 (devRead s a 8)
      else 0
    | none => 0

/-- A host read of n bytes at an offset of function fn's BAR0 (R273, R274). -/
def barRead (s : State) (fn off n : Nat) : List Byte :=
  (List.range n).map fun i =>
    let o := off + i
    ((barReg s fn (o / 8 * 8)).extractLsb' (8 * (o % 8)) 8)

/-! ## The meanings -/

/-- REGISTER_WRITE (R4, R273, R274): a write of any width but the register's own is dropped. -/
def execRegisterWrite (r : RegWrite) (s : State) : Out :=
  match r with
  | .atF a v => if ownAddress a then .next (devWrite s 2 a v) else .next s
  | .bar0 fn off v => if fn < 64 then .next (barWrite s fn off v) else .next s

/-- ING_FILT_WRITE (R285). -/
def execIngFiltWrite (f : Nat) (v : DWord) (s : State) : Out :=
  if f < 256 then .next (writeFilter s 2 f 0 v) else .next s

/-- HEVT_WRITE (R277). -/
def execHevtWrite (n : Nat) (v : DWord) (s : State) : Out := if n < 64 then .next (writeHevt s n v) else .next s

/-- NQLATCH_WRITE (R315), at F level. -/
def execNqlatchWrite (n : Nat) (v : DWord) (s : State) : Out := if n < 64 then .next (writeNqlatch s 2 n v) else .next s

/-- BREEZE_CLR (R177): CLR is written to BREEZE_CTL, with its other fields as they stand. -/
def execBreezeClr (s : State) : Out := .next (writeSeal s aBreezeCtl (s.dreg aBreezeCtl ||| 4))

end Sys2Proof.Machine
end

