-- ==== Sys2Proof/Machine/Mem.lean ====
section
/-! DEFINITION. The memory words (R157, R176, R182 to R191, R245, R248, R341, R342, R344 to R347, R397 to R400, R443 to
R445): group 100 of the opcode map. -/

namespace Sys2Proof.Machine

/-! ## Loads -/

/-- How LD and ST access memory (R152, R153). -/
def loadKind (n : Nat) : AccKind := { n := n, wr := false, rd := true, device := true, aligned := false }
def storeKind (n : Nat) (fr : Bool) : AccKind := { n := n, wr := true, rd := false, device := true, aligned := fr }

/-- Reading one piece of lane l's load: memory, a device register (R274), or a notify register (R251, R276). -/
def loadSeg (s : State) (t : Team) (l : Nat) (x : Seg) : List Byte × State :=
  if x.typ = 5 then (toBytes x.n (devRead s x.off x.n), s)
  else if x.typ = 6 then
    let (v, s) := notifyLoad s (ownPart s t) x.off
    (toBytes 8 v.toNat, s)
  else (laneBytes s s.cur t l x.place x.off x.n, s)

/-- The bytes of the pieces of one lane's load. -/
def loadSegs (t : Team) (l : Nat) : State → List Seg → List Byte × State
  | s, [] => ([], s)
  | s, x :: xs =>
    let (b, s) := loadSeg s t l x
    let (bs, s) := loadSegs t l s xs
    (b ++ bs, s)

/-- The bytes of every lane's load. -/
def loadLanes (t : Team) : State → List (Nat × List Seg) → List (Nat × List Byte) × State
  | s, [] => ([], s)
  | s, (l, xs) :: rest =>
    let (b, s) := loadSegs t l s xs
    let (bs, s) := loadLanes t s rest
    ((l, b) :: bs, s)

/-- A word's results from the register values of each lane: registers from d on. -/
def laneWords (d : Nat) (rs : List (Nat × List Word)) : List (Nat × Nat × Option Word × BitVec 5) :=
  rs.flatMap fun x => x.2.mapIdx fun i v => (d + i, x.1, some v, 0)

/-- The 16-byte parts in which one lane's pieces are read (R183), with the bytes read: those of a strictly ordered page or a
device stand (R185). -/
def readParts (xs : List Seg) (data : List Byte) : List LoadPart :=
  let va := ((xs.head?).map fun x => x.va).getD 0
  xs.flatMap fun x => (storeParts x.off ((data.drop (x.va - va)).take x.n)).map fun p =>
    { place := x.place, off := p.1, bytes := p.2, fixed := x.order == 0 }

/-- The loads of a word that may be read again until their results land (R186, R187): of the lanes that read a page that does
not order strictly (R185). Only on an RC page is an annotated load an acquire (R186, R187). -/
def floatLoads (word d : Nat) (form : LoadForm) (acq : Bool) (xs : List (Nat × List Seg)) (rs : List (Nat × List Byte)) :
    List FloatLoad :=
  xs.flatMap fun x =>
    if x.2.all fun y => y.order == 0 then []
    else [{ word := word, lane := x.1, reg := d, parts := readParts x.2 (((rs.find? fun r => r.1 == x.1).map Prod.snd).getD [])
            form := form, acq := acq && x.2.any fun y => y.order == 1 }]

/-- The team once a word's loads have been read for the first time. Where some of them are performed at that moment, the
acquires before them are too (R186), and their own lanes' loads of the same bytes (R182). -/
def Team.addLoads (t : Team) (d : Nat) (form : LoadForm) (acq : Bool) (xs : List (Nat × List Seg))
    (rs : List (Nat × List Byte)) : Team :=
  let t := if xs.any fun x => x.2.any fun y => y.order == 0 then
      t.fixLoads fun y => y.acq || xs.any fun x => x.1 == y.lane &&
        x.2.any fun p => p.order == 0 && y.meets p.place p.off p.n
    else t
  { t with loads := t.loads ++ floatLoads t.nextWord d form acq xs rs }

/-- The value of an outstanding result after a load of its word has been read again (R248, R398). -/
def FloatLoad.value (x : FloatLoad) (p : Pending) : Option Word :=
  let l := x.parts.flatMap fun y => y.bytes
  match x.form with
  | .plain signed =>
    if p.id = x.word ∧ p.lane = x.lane ∧ x.reg ≤ p.reg then ((loadedWords signed l)[p.reg - x.reg]?).or p.val else p.val
  | .row =>
    if p.id = x.word ∧ p.lane / 8 = x.lane / 8 ∧ p.reg = x.reg + x.lane % 8 / 2 then
      let h := BitVec.ofNat 16 (num l (2 * (p.lane % 8)) 2)
      p.val.map fun w => if x.lane % 2 = 0 then w.extractLsb' 16 16 ++ h else h ++ w.extractLsb' 0 16
    else p.val

/-- A load of team u read again: all of its parts that do not stand, or a free choice of them (R183). Its lane's own earlier
stores count (R182). -/
def FloatLoad.reread (x : FloatLoad) (s : State) (u : Nat) (t : Team) (all_ : Bool) : FloatLoad :=
  let t := { t with stores := t.stores.filter fun y => decide (y.level ≠ 0) || decide (y.word < x.word) }
  { x with parts := x.parts.mapIdx fun j p =>
      if !p.fixed && (all_ || Config.pick s.fresh j % 2 == 0) then
        { p with bytes := laneBytes s u t x.lane p.place p.off p.bytes.length } else p }

/-- Load k of a list read again, and every later one that it must precede (R182, R186): the list, and those read again. -/
def rereadLoads (s : State) (u : Nat) (t : Team) (k : Nat) (l : List FloatLoad) : List FloatLoad × List FloatLoad :=
  (l.zipIdx).foldl (fun (a : List FloatLoad × List FloatLoad) e =>
    if e.2 = k then (a.1 ++ [e.1.reread s u t false], a.2 ++ [e.1.reread s u t false])
    else if a.2.any fun y => y.precedes e.1 then (a.1 ++ [e.1.reread s u t true], a.2 ++ [e.1.reread s u t true])
    else (a.1 ++ [e.1], a.2)) ([], [])

/-- The k-th load of team u that is not yet performed for good reads memory again (R186, R187); by a free choice it is then
performed for good, so that a word may read what it delivers (R63). -/
def performLoad (s : State) (u k : Nat) : State :=
  match s.team u with
  | none => s
  | some t =>
    let (loads, again) := rereadLoads s u t k t.loads
    let t := { t with
      loads := loads
      pend := t.pend.map fun p => { p with val := again.foldl (fun v x => x.value { p with val := v }) p.val } }
    s.bump.putTeam u (if Config.pick s.fresh 16 % 2 = 0 then t else t.fixLoads fun y => again.any fun x => decide (x = y))

/-- A lane of some accesses is the store's own, and reads or writes some of its bytes. -/
def ownMeets (xs : List (Nat × List Seg)) (x : PendStore) : Bool :=
  xs.any fun y => y.1 == x.lane && y.2.any fun z => x.meets z.place z.off z.n

/-- The loads of a word whose accesses xs have passed their checks, in state s: it delivers the registers that `words` makes
of each lane's bytes. The ATOMs before it come first (R182, R186). -/
def deliverLoads (s : State) (c : Clause) (len : Nat) (d : Code) (slot : BitVec 3) (form : LoadForm) (acq : Bool)
    (xs : List (Nat × List Seg)) (words : List (Nat × List Byte) → Nat × List Byte → List Word) : Out :=
  let s := atomsFirst s s.cur (ownMeets xs)
  match s.team s.cur with
  | none => .next s
  | some t =>
    let (rs, s) := loadLanes t s xs
    let vs := rs.map fun x => (x.1, words rs x)
    let t := t.addLoads d.toNat form acq xs rs
    .next (s.putTeam s.cur ((t.addPend (slotOf slot) false (laneWords d.toNat vs)).advance c len))

/-- LD of n bytes (R398, R399). -/
def loadWord (s : State) (len n : Nat) (d b : Code) (slot : BitVec 3) (off : BitVec 5) (signed acq : Bool) : Out :=
  withTeam s fun t c =>
    match lanesAccess s.cur t (loadKind n) s.bump (t.activeLanes.map fun l => (l, effective s.fresh t b off n l)) with
    | (.error (cause, va), s) => accessTrap s t c cause va
    | (.ok xs, s) => deliverLoads s c len d slot (.plain signed) acq xs fun _ x => loadedWords signed x.2

/-! ## Stores -/

/-- The gates of a store of word w that is a release (R186). -/
def relGates (gates : FMap Nat) (w : Nat) : FMap Nat := fset zeroNat gates 6 w

/-- The stores of one lane's pieces that are not to a device, with the byte range of the data each takes; and whether
its page orders strictly (R183, R185, R186). -/
def laneStores (word : Nat) (gates : FMap Nat) (fr rel : Bool) (l : Nat) (xs : List Seg) (data : List Byte) :
    List (Bool × PendStore) :=
  let va := ((xs.head?).map fun x => x.va).getD 0
  xs.flatMap fun x =>
    if x.typ = 5 ∨ x.typ = 6 then []
    else
      (storeParts x.off ((data.drop (x.va - va)).take x.n)).map fun p =>
        (x.order == 0,
         { word := word, gates := if rel ∧ x.order = 1 then relGates gates word else gates, lane := l, place := x.place
           off := p.1, bytes := p.2, setRef := fr && x.typ == 4, level := 0, stamp := 0, rmw := none })

/-- Some piece of some lanes' accesses lies in a strictly ordered page (R185). -/
def anyStrict (xs : List (Nat × List Seg)) : Bool := xs.any fun x => x.2.any fun y => y.order == 0

/-- A word's stores are a release on some piece's page (R186). -/
def anyRelease (rel : Bool) (xs : List (Nat × List Seg)) : Bool := rel && xs.any fun x => x.2.any fun y => y.order == 1

/-- What a word that stores to the pieces xs performs before its own stores: all, where a page orders strictly (R185); and
where it is a release, the writes that its team has observed (R189). -/
def beforeStores (s : State) (u : Nat) (rel : Bool) (xs : List (Nat × List Seg)) : State :=
  if anyStrict xs then drainAll s u else if anyRelease rel xs then raiseSeen s u 6 else s

/-- Stores join those that team u holds back; those to strictly ordered pages are performed at once, with what must
precede them (R184, R185). -/
def holdStores (s : State) (u : Nat) (xs : List (Bool × PendStore)) : State :=
  match s.team u with
  | none => s
  | some t =>
    let s := s.putTeam u { t with stores := t.stores ++ xs.map Prod.snd }
    if xs.any Prod.fst then raiseStores s u fun x => if xs.any fun y => y.1 && y.2.same x then 6 else 0 else s

/-- A store to a device register or a notify register (R274, R251, R276). -/
def deviceStore (s : State) (priv part : Nat) (x : Seg) (data : List Byte) : State :=
  let v : DWord := BitVec.ofNat 64 (ofBytes data)
  if x.typ = 5 then devWrite s priv x.off v else if x.typ = 6 then notifyStore s part x.off v else s

/-- Two lanes of one ST write a common byte of a device. -/
def deviceMeets (xs ys : List Seg) : Bool :=
  xs.any fun x => ys.any fun y => (x.typ == 5 || x.typ == 6) && x.typ == y.typ &&
    decide (x.off < y.off + y.n) && decide (y.off < x.off + x.n)

/-- The lanes of one ST in the order in which their device stores are performed: free, except that lanes that write a common
byte come in ascending order (R184). -/
def deviceOrder (k : Nat) : Nat → List (Nat × List Seg) → List (Nat × List Seg)
  | 0, _ => []
  | fuel + 1, ls =>
    let first := ls.filter fun x => ls.all fun y => decide (x.1 ≤ y.1) || !deviceMeets x.2 y.2
    match first[Config.pick k fuel % first.length]? with
    | none => []
    | some x => x :: deviceOrder k fuel (ls.filter fun y => y.1 != x.1)

/-- The device stores of every lane. -/
def deviceStores (s : State) (priv part : Nat) (ls : List (Nat × List Seg)) (data : Nat → List Byte) : State :=
  (deviceOrder s.fresh ls.length ls).foldl
    (fun s x => x.2.foldl (fun s y => deviceStore s priv part y (data x.1)) s) s.bump

/-- ST of n bytes (R443 to R445). -/
def storeWord (s : State) (len n : Nat) (v b : Code) (slot : BitVec 3) (off : BitVec 5) (fr rel : Bool) : Out :=
  withTeam s fun t c =>
    let k := s.fresh
    match lanesAccess s.cur t (storeKind n fr) s.bump (t.activeLanes.map fun l => (l, effective k t b off n l)) with
    | (.error (cause, va), s) => accessTrap s t c cause va
    | (.ok xs, s) =>
      let data (l : Nat) : List Byte := storeBytes k t v n l
      let parts := xs.flatMap fun x => laneStores t.nextWord t.storeGate fr rel x.1 x.2 (data x.1)
      let part := ownPart s t
      let u := s.cur
      let s := s.putTeam u ((t.addPend (slotOf slot) false []).advance c len)
      .next (deviceStores (holdStores (beforeStores s u rel xs) u parts) t.priv part xs data)

/-! ## ATOM -/

/-- The read-modify-writes of an ATOM's lanes, in ascending order (R184), and whether each one's page orders strictly; where
it does, and on a UO page, the annotations add nothing (R185, R187). -/
def laneAtoms (word : Nat) (gates : FMap Nat) (n : Nat) (rel : Bool) (xs : List (Nat × List Seg)) (rmw : Nat → Bool → Rmw) :
    List (Bool × PendStore) :=
  xs.flatMap fun x => ((x.2.head?).map fun y =>
    (y.order == 0,
     ({ word := word, gates := if rel ∧ y.order = 1 then relGates gates word else gates, lane := x.1, place := y.place
        off := y.off, bytes := zeros n, setRef := false, level := 0, stamp := 0, rmw := some (rmw x.1 (y.order == 1)) } : PendStore))).toList

/-- ATOM (R346, R347): its read-modify-writes are held back as stores are; a lane's result is there once its own has been
performed (R186, R187). -/
def execAtom (d b : Code) (slot : BitVec 3) (off : BitVec 5) (size : AtomSize) (v : Code) (op : AtomOp) (rel acq : Bool)
    (s : State) : Out :=
  withTeam s fun t c =>
    let n := if size = .d then 8 else 4
    let k := s.fresh
    let kind : AccKind := { n := n, wr := true, rd := true, device := false, aligned := true }
    match lanesAccess s.cur t kind s.bump (t.activeLanes.map fun l => (l, effective k t b off n l)) with
    | (.error (cause, va), s) => accessTrap s t c cause va
    | (.ok xs, s) =>
      let rmw (l : Nat) (rc : Bool) : Rmw :=
        { op := op, reg := d.toNat, acq := acq && rc
          cmp := if n = 8 then (pair k t d l).toNat else (readReg k t d.toNat l).toNat
          operand := if n = 8 then (pair k t v l).toNat else (src k t v l).toNat }
      let results := xs.flatMap fun x => (List.range (n / 4)).map fun i => (d.toNat + i, x.1, (none : Option Word), (0 : BitVec 5))
      let s := s.putTeam s.cur ((t.addPend (slotOf slot) false results).advance c 2)
      .next (holdStores (beforeStores s s.cur rel xs) s.cur (laneAtoms t.nextWord t.storeGate n rel xs rmw))

/-! ## LDT -/

/-- The group of a lane has a lane that is not active, or that lies beyond LANES (R248). -/
def Team.brokenGroup (t : Team) (l : Nat) : Bool :=
  (List.range 8).any fun i => decide (t.lanes ≤ l / 8 * 8 + i) || !t.active (l / 8 * 8 + i)

/-- Element j of a row. -/
def rowElement (rows : List (Nat × List Byte)) (l j : Nat) : Nat :=
  ((rows.find? fun x => x.1 == l).map fun x => num x.2 (2 * j) 2).getD 0

/-- What LDT delivers to a lane: column l mod 8 of its group's rows (R248). -/
def columnWords (rows : List (Nat × List Byte)) (l : Nat) : List Word :=
  let g := l / 8 * 8
  (List.range 4).map fun i =>
    BitVec.ofNat 32 (rowElement rows (g + 2 * i) (l % 8) + 65536 * rowElement rows (g + 2 * i + 1) (l % 8))

/-- LDT (R248, R400). -/
def execLdt (d b : Code) (slot : BitVec 3) (off : BitVec 5) (s : State) : Out :=
  withTeam s fun t c =>
    if t.activeLanes.any t.brokenGroup then wordTrap s t c 4 0
    else
      let kind : AccKind := { n := 16, wr := false, rd := true, device := false, aligned := true }
      match lanesAccess s.cur t kind s.bump (t.activeLanes.map fun l => (l, effective s.fresh t b off 16 l)) with
      | (.error (cause, va), s) => accessTrap s t c cause va
      | (.ok xs, s) =>
        deliverLoads s c 1 d slot .row false xs fun rows x => columnWords rows x.1

/-! ## FENCE -/

/-- The level of a scope (R181): where a store stands that its agents see. What the host and the peers see is in memory. -/
def scopeLevel : FenceScope → Nat
  | .team => 1
  | .wg => 2
  | .core => 3
  | .cl => 4
  | .die => 5
  | .dev => 6
  | .sys => 6

/-- FENCE (R190, R191). Its acquire part performs every load and every ATOM before it; its release part holds the stores after
it back until those before it have come to its scope, and brings what its team has observed there (R189); an SC FENCE
performs all of that at its scope. -/
def execFence (ord : FenceOrder) (scope : FenceScope) (s : State) : Out :=
  teamWord s 1 fun t c _ =>
    let u := s.cur
    let gate := fset zeroNat t.storeGate (scopeLevel scope) t.nextWord
    let s := match ord with
      | .acq => atomsFirst (s.putTeam u (t.fixLoads fun _ => true)) u fun _ => true
      | .rel => raiseSeen (s.putTeam u { t with storeGate := gate }) u (scopeLevel scope)
      | .ar => raiseSeen (atomsFirst (s.putTeam u { t.fixLoads fun _ => true with storeGate := gate }) u fun _ => true) u (scopeLevel scope)
      | .sc => drainTo (s.putTeam u { t with storeGate := gate }) u (scopeLevel scope)
    match s.team u with
    | none => .next s
    | some t =>
      let s := s.putTeam u (t.advance c 1)
      .next (if scope = .sys then closeTiles s fun o => o.part == ownPart s t else s)

/-! ## ACCRD and ACCWR -/

/-- The tile and element that an index names (R245). -/
def accTile (x : Word) : Nat := fld x.toNat 10 8
def accElement (x : Word) : Nat := fld x.toNat 0 10

/-- The tiles that operations of a workgroup's stream still work on (R246, R342). -/
def busyTiles (s : State) (w : Workgroup) : List Nat :=
  match w.stream.bind s.stream with
  | some x => x.inflight.flatMap fun o => o.tiles
  | none => []

/-- The checks of ACCRD and ACCWR (R245, R342), then k with the workgroup, its window and each lane's index. -/
def accWord (s : State) (a : Code) (k : Team → Clause → Workgroup → AccWindow → List (Nat × Word) → Out) : Out :=
  withTeam s fun t c =>
    let ix := t.activeLanes.map fun l => (l, src s.fresh t a l)
    if ix.isEmpty then .next (s.putTeam s.cur (t.advance c 1))
    else
      match s.wg t.wg with
      | none => wordTrap s t c 0x12 0
      | some w =>
        match w.window with
        | none => wordTrap s t c 0x12 0
        | some x =>
          if ix.any fun i => fld i.2.toNat 18 14 != 0 || decide (x.w ≤ accTile i.2) then wordTrap s t c 0x12 0
          else if ix.any fun i => (busyTiles s w).contains (accTile i.2) then .next s
          else
            match ix.find? fun i => x.fails (accTile i.2) (accElement i.2 / 16) with
            | some i => wordTrap (checkLog s (teamPart s t) (accElement i.2 / 16)) t c 9 0
            | none => k t c w x ix

/-- ACCRD (R245, R342). -/
def execAccrd (d a : Code) (s : State) : Out :=
  accWord s a fun t c _ x ix =>
    let rs := ix.map fun i => (d.toNat, i.1, some (x.element (accTile i.2) (accElement i.2)), 0)
    .next (s.bump.putTeam s.cur ((t.addPend none true rs).advance c 1))

/-- ACCWR (R245, R342): the lanes write in ascending order. -/
def execAccwr (a b : Code) (s : State) : Out :=
  accWord s a fun t c w x ix =>
    let x' := x.putElements (ix.map fun i => (accTile i.2, accElement i.2, src s.fresh t b i.1))
    let s' := s.bump.putWg t.wg { w with window := some x' }
    .next (s'.putTeam s.cur ((t.addPend none true []).advance c 1))

/-! ## LD and ST by width -/

/-- LD.B (R397, R398). -/
def execLdB (d b : Code) (slot : BitVec 3) (off : BitVec 5) (s : State) : Out :=
  loadWord s 1 1 d b slot off false false

/-- LD.B with an X.A word (R397, R398). -/
def execLdBX (d b : Code) (slot : BitVec 3) (off : BitVec 5) (signed acq : Bool) (s : State) : Out :=
  loadWord s 2 1 d b slot off signed acq

/-- LD.H (R397, R398). -/
def execLdH (d b : Code) (slot : BitVec 3) (off : BitVec 5) (s : State) : Out :=
  loadWord s 1 2 d b slot off false false

/-- LD.H with an X.A word (R397, R398). -/
def execLdHX (d b : Code) (slot : BitVec 3) (off : BitVec 5) (signed acq : Bool) (s : State) : Out :=
  loadWord s 2 2 d b slot off signed acq

/-- LD.W (R397, R398). -/
def execLdW (d b : Code) (slot : BitVec 3) (off : BitVec 5) (s : State) : Out :=
  loadWord s 1 4 d b slot off false false

/-- LD.W with an X.A word (R397, R398). -/
def execLdWX (d b : Code) (slot : BitVec 3) (off : BitVec 5) (acq : Bool) (s : State) : Out :=
  loadWord s 2 4 d b slot off false acq

/-- LD.D (R397, R398). -/
def execLdD (d b : Code) (slot : BitVec 3) (off : BitVec 5) (s : State) : Out :=
  loadWord s 1 8 d b slot off false false

/-- LD.D with an X.A word (R397, R398). -/
def execLdDX (d b : Code) (slot : BitVec 3) (off : BitVec 5) (acq : Bool) (s : State) : Out :=
  loadWord s 2 8 d b slot off false acq

/-- LD.Q (R397, R398). -/
def execLdQ (d b : Code) (slot : BitVec 3) (off : BitVec 5) (s : State) : Out :=
  loadWord s 1 16 d b slot off false false

/-- LD.Q with an X.A word (R397, R398). -/
def execLdQX (d b : Code) (slot : BitVec 3) (off : BitVec 5) (acq : Bool) (s : State) : Out :=
  loadWord s 2 16 d b slot off false acq

/-- ST.B (R443, R444). -/
def execStB (d b : Code) (slot : BitVec 3) (off : BitVec 5) (s : State) : Out :=
  storeWord s 1 1 d b slot off false false

/-- ST.B with an X.A word (R443, R444). -/
def execStBX (d b : Code) (slot : BitVec 3) (off : BitVec 5) (rel : Bool) (s : State) : Out :=
  storeWord s 2 1 d b slot off false rel

/-- ST.H (R443, R444). -/
def execStH (d b : Code) (slot : BitVec 3) (off : BitVec 5) (s : State) : Out :=
  storeWord s 1 2 d b slot off false false

/-- ST.H with an X.A word (R443, R444). -/
def execStHX (d b : Code) (slot : BitVec 3) (off : BitVec 5) (rel : Bool) (s : State) : Out :=
  storeWord s 2 2 d b slot off false rel

/-- ST.W (R443, R444). -/
def execStW (d b : Code) (slot : BitVec 3) (off : BitVec 5) (s : State) : Out :=
  storeWord s 1 4 d b slot off false false

/-- ST.W with an X.A word (R443, R444). -/
def execStWX (d b : Code) (slot : BitVec 3) (off : BitVec 5) (rel : Bool) (s : State) : Out :=
  storeWord s 2 4 d b slot off false rel

/-- ST.D (R443, R444). -/
def execStD (d b : Code) (slot : BitVec 3) (off : BitVec 5) (s : State) : Out :=
  storeWord s 1 8 d b slot off false false

/-- ST.D with an X.A word (R443, R444). -/
def execStDX (d b : Code) (slot : BitVec 3) (off : BitVec 5) (fr rel : Bool) (s : State) : Out :=
  storeWord s 2 8 d b slot off fr rel

/-- ST.Q (R443, R444). -/
def execStQ (d b : Code) (slot : BitVec 3) (off : BitVec 5) (s : State) : Out :=
  storeWord s 1 16 d b slot off false false

/-- ST.Q with an X.A word (R443, R444). -/
def execStQX (d b : Code) (slot : BitVec 3) (off : BitVec 5) (rel : Bool) (s : State) : Out :=
  storeWord s 2 16 d b slot off false rel

end Sys2Proof.Machine
end

