-- ==== Sys2Proof/Machine/Async.lean ====
section
/-! DEFINITION. The asynchronous words that reach the copy engine and the kettle (R96, R97, R103 to R106, R198 to R206,
R213, R358 to R361, R438, R439, R441, R442). -/

namespace Sys2Proof.Machine

/-- A descriptor group in a lane, as bytes: n registers from g on (R72, R199). -/
def groupBytes (k : Nat) (t : Team) (g : Code) (n l : Nat) : List Byte :=
  (List.range n).flatMap fun i => toBytes 4 (readReg k t (g.toNat + i) l).toNat

/-- The copy tracking entries of a core that are taken (R204). -/
def trackers (s : State) (core : Nat) : Nat :=
  ((entries s.copies).filter fun e => e.2.core == some core && !e.2.saved).length +
  ((entries s.wgs).map fun e => if e.2.core = core ∧ !e.2.saved then e.2.colls.length else 0).sum

/-- Team u goes on after an ASYNC word that writes no register and that its unit has accepted (R60). -/
def asyncGo (s : State) (u : Nat) (slot : BitVec 3) (c : Clause) : State :=
  match s.team u with
  | some t => s.putTeam u ((t.addPend (slotOf slot) false []).advance c 1)
  | none => s

/-- A copy of a team (R199, R361). -/
def teamCopy (s : State) (u : Nat) (t : Team) (kind : CopyKind) : Copy :=
  { kind := kind, part := ownPart s t, priv := t.priv, launch := if t.agent then none else some t.launch
    core := some (teamCore s t), wg := some t.wg, team := some u, descs := [], reseal := false, keyovr := false
    arrive := false, nb := 0, attached := false, next := 0, late := [], ended := false, wrote := false, fail := none
    suspended := none, saved := false }

/-! ## COPY -/

/-- COPY (R198 to R202, R361). -/
def execCopy (g : Code) (nb : BitVec 4) (slot : BitVec 3) (keyovr reseal arr : Bool) (s : State) : Out :=
  teamWord s 1 fun t c l0 =>
    if keyovr ∧ t.priv = 0 then wordTrap s t c 0x13 0
    else if 1024 ≤ trackers s (teamCore s t) then .next s
    else
      let u := s.cur
      let d := descOf (groupBytes s.fresh t g 8 l0)
      let bad := malformedDesc s (ownPart s t) t.priv keyovr false d
      let k := s.nextUid
      let s := drainAll s.bump.nextId u
      let (att, s) := if arr then attach s t.wg nb.toNat k else (false, s)
      let x := { teamCopy s u t .copy with
        descs := [d], reseal := reseal, keyovr := keyovr, arrive := arr, nb := nb.toNat, attached := att }
      let s := asyncGo (s.putCopy k x) u slot c
      .next (if bad then completeCopy s k 8 0 else s)

/-! ## COPYC -/

/-- A collective is well formed (R205), in a workgroup of n teams. -/
def wellFormedColl (s : State) (part priv n : Nat) (l : List Slice) : Bool :=
  l.length == n &&
  (l.all fun x => x.desc.nslice + 1 == n && !malformedDesc s part priv x.keyovr true x.desc) &&
  decide (l.map fun x => x.desc.slice).Nodup && decide (l.map fun x => x.team).Nodup &&
  match l.head? with
  | some y => l.all fun x => x.reseal == y.reseal && x.keyovr == y.keyovr && x.arrive == y.arrive && x.nb == y.nb
  | none => false

/-- Slice x is still attached to its barrier (R209, R211). -/
def sliceAttached (s : State) (g : Nat) (x : Slice) : Bool :=
  ((s.wg g).map fun w => (w.bar x.nb).attached.contains x.uid).getD false

/-- The slices of a collective leave their barriers. -/
def detachSlices (s : State) (g : Nat) (l : List Slice) : State :=
  l.foldl (fun s x => detach s g x.nb x.uid) s

/-- A well-formed collective starts as one copy (R205), which takes the place of its slices at their barrier; with one
of them detached, its status will be BARRIER_GONE (R211). -/
def startColl (s : State) (u : Nat) (t : Team) (l : List Slice) : State :=
  match l.head? with
  | none => s
  | some y =>
    let k := s.nextUid
    let all_ := l.all fun x => sliceAttached s t.wg x
    let s := detachSlices s.nextId t.wg l
    let (att, s) := if y.arrive ∧ all_ then attach s t.wg y.nb k else (false, s)
    s.putCopy k { teamCopy s u t .copyc with
      team := none, descs := (sortBy (fun (a b : Slice) => decide (a.desc.slice < b.desc.slice)) l).map fun x => x.desc
      reseal := y.reseal, keyovr := y.keyovr, arrive := y.arrive, nb := y.nb, attached := att }

/-- A collective that is not well formed (R206): each slice arrives with PERMISSION. -/
def refuseColl (s : State) (g : Nat) (l : List Slice) : State :=
  l.foldl (fun s x => if x.arrive ∧ sliceAttached s g x then arrive (detach s g x.nb x.uid) g x.nb none (some (8, 0)) else s) s

/-- A team of the workgroup has ended without joining collective n (R206). -/
def cannotForm (s : State) (w : Workgroup) (n : Nat) : Bool :=
  w.teams.any fun u => ((s.team u).map fun t => t.status != .running && decide (t.copycs ≤ n)).getD false

/-- A slice joins collective n of workgroup g (R205, R206): the last one starts it or has it refused. -/
def joinColl (s : State) (u g n : Nat) (t : Team) (x : Slice) : State :=
  match s.wg g with
  | none => s
  | some w =>
    let uid := ((w.colls.find? fun c => c.n == n).map fun c => c.uid).getD s.nextUid
    let old := ((w.colls.find? fun c => c.n == n).map fun c => c.slices).getD []
    let l := old ++ [x]
    let rest := w.colls.filter fun c => c.n != n
    if l.length = w.teams.length then
      let s := s.putWg g { w with colls := rest }
      if wellFormedColl s w.part t.priv w.teams.length l then startColl s u t l else refuseColl s g l
    else
      let s := s.nextId.putWg g { w with colls := rest ++ [{ n := n, uid := uid, slices := l }] }
      if cannotForm s w n then leaveColls s g n else s

/-- COPYC (R198, R199, R205, R206, R361). -/
def execCopyc (g : Code) (nb : BitVec 4) (slot : BitVec 3) (keyovr reseal arr : Bool) (s : State) : Out :=
  teamWord s 1 fun t c l0 =>
    let first := (((s.wg t.wg).map fun w => w.colls.all fun x => x.n != t.copycs).getD true)
    if keyovr ∧ t.priv = 0 then wordTrap s t c 0x13 0
    else if first ∧ 1024 ≤ trackers s (teamCore s t) then .next s
    else
      let u := s.cur
      let d := descOf (groupBytes s.fresh t g 8 l0)
      let x : Slice :=
        { uid := s.nextUid, team := u, desc := d, reseal := reseal, keyovr := keyovr, arrive := arr, nb := nb.toNat }
      let s := drainAll s.bump.nextId u
      let s := if arr then (attach s t.wg nb.toNat x.uid).2 else s
      match s.team u with
      | none => .next s
      | some t' =>
        let s := asyncGo (s.putTeam u { t' with copycs := t'.copycs + 1 }) u slot c
        .next (joinColl s u t.wg t.copycs t x)

/-! ## SEMSIG -/

/-- SEMSIG (R213, R439). -/
def execSemsig (g : Code) (slot : BitVec 3) (op : SemOp) (s : State) : Out :=
  teamWord s 1 fun t c l0 =>
    if 1024 ≤ trackers s (teamCore s t) then .next s
    else
      let u := s.cur
      let kind : CopyKind := .semsig (pair s.fresh t g l0) (pair s.fresh t (g + 2) l0) op
      let k := s.nextUid
      let s := drainAll s.bump.nextId u
      .next (asyncGo (s.putCopy k (teamCopy s u t kind)) u slot c)

/-! ## SPAWN -/

/-- A SPAWN's descriptor keeps its limits (R96). -/
def spawnOk (l : List Byte) : Bool :=
  let shape := num l 16 4
  let lanes := fld shape 0 11
  let regs := fld shape 11 8
  let teams := fld shape 19 5
  let shared := num l 20 4
  decide (num l 0 4 % 4 = 0) && decide (1 ≤ num l 4 4) && decide (num l 4 4 ≤ 4096) &&
  decide (4 ≤ lanes) && decide (lanes ≤ 1024) && decide (lanes % 4 = 0) &&
  decide (8 ≤ regs) && decide (regs ≤ 192) && decide (regs % 8 = 0) &&
  decide (1 ≤ teams) && decide (teams ≤ 16) && decide (teams * lanes ≤ 4096) && decide (fld shape 24 8 = 0) &&
  decide (shared % 256 = 0) && decide (shared ≤ 1048576) && decide (num l 28 4 = 0) &&
  fitsEmpty lanes regs teams shared

/-- The pending workgroups that a SPAWN creates (R96). -/
def spawnOf (x : Launch) (l : List Byte) : Spawned :=
  { entry := x.entry + (BitVec.ofNat 32 (num l 0 4)).signExtend 64, args := BitVec.ofNat 64 (num l 8 8)
    lanes := fld (num l 16 4) 0 11, nregs := fld (num l 16 4) 11 8, nteams := fld (num l 16 4) 19 5
    sharedSz := num l 20 4, baseId := BitVec.ofNat 32 (num l 24 4), count := num l 4 4, next := 0, since := none
    blocked := false }

/-- SPAWN (R96, R97, R442): a spawn that would take the counter too high holds its team. FAILWG of a SPAWN_INVALID failure,
which stops no team, is the issuing team's WGID: the model's choice (R106; log entry 57). -/
def execSpawn (g : Code) (slot : BitVec 3) (s : State) : Out :=
  teamWord s 1 fun t c l0 =>
    let u := s.cur
    let l := groupBytes s.fresh t g 8 l0
    match s.launch t.launch with
    | none => .next (asyncGo (drainAll s.bump u) u slot c)
    | some x =>
      if t.agent ∨ x.cancelling then .next (asyncGo (drainAll s.bump u) u slot c)
      else if !spawnOk l then
        .next (settle (failLaunch (asyncGo (drainAll s.bump u) u slot c) t.launch 4 false 0
          (((s.wg t.wg).map fun w => w.wgid).getD 0)))
      else if 16777216 < x.counter + num l 4 4 then .next s
      else
        let s := (drainAll s.bump u).putLaunch t.launch
          { x with counter := x.counter + num l 4 4, pending := x.pending ++ [spawnOf x l] }
        .next (asyncGo s u slot c)

/-! ## CANCEL -/

/-- The unit of a launch that a level names is cancelled (R103 to R105). -/
def cancelUnit (s : State) (l : Nat) (x : Launch) (level : CancelLevel) : State :=
  match level with
  | .launch => cancelLaunch s l
  | .graph => cancelGraph s x.graph
  | .phase => match s.graph x.graph with | some y => cancelPhase s y.queue y.job y.phase | none => s
  | .job => match s.graph x.graph with | some y => cancelJob s y.queue y.job | none => s

/-- CANCEL (R103, R359). By a firmware agent it acts as EXIT. -/
def execCancel (level : CancelLevel) (s : State) : Out :=
  teamWord s 1 fun t c _ =>
    if t.agent then .next (restartAgent s s.cur false)
    else
      let s' := s.putTeam s.cur (t.advance c 1)
      match s.launch t.launch with
      | some x => .next (settle (cancelUnit s' t.launch x level))
      | none => .next s'

end Sys2Proof.Machine
end

