-- ==== Sys2Proof/Machine/Nb.lean ====
section
/-! DEFINITION. The barrier words (R194, R207 to R212, R420, R421). -/

namespace Sys2Proof.Machine

/-- What a barrier's set-up would disturb (R209): a team that waits, an arrival, a copy that is attached. -/
def Bar.busy (s : State) (b : Bar) : Bool :=
  b.valid && (decide (0 < b.arrived) || !b.attached.isEmpty ||
    b.waiters.any fun x => ((s.team x.team).map fun t => t.status == .running).getD false)

/-- NBINIT (R209, R421). -/
def execNbinit (a : Code) (nb : BitVec 4) (slot : BitVec 3) (s : State) : Out :=
  teamWord s 1 fun t c l0 =>
    match s.wg t.wg with
    | none => .next (asyncGo s.bump s.cur slot c)
    | some w =>
      let b := w.bar nb.toNat
      let n := fld (readReg s.fresh t a.toNat l0).toNat 0 16
      if b.busy s then wordTrap s t c 0x10 0
      else
        let s' := if n = 0 then invalidate (drainTo s.bump s.cur 2) t.wg nb.toNat
          else s.bump.putWg t.wg (w.putBar nb.toNat (b.fresh n))
        .next (asyncGo s' s.cur slot c)

/-- NBARR (R209): an arrival, and a release (R194). -/
def execNbarr (nb : BitVec 4) (slot : BitVec 3) (s : State) : Out :=
  teamWord s 1 fun t c _ =>
    .next (asyncGo (arrive (drainTo s s.cur 2) t.wg nb.toNat (some s.cur) none) s.cur slot c)

/-- The wait of NBWAIT and NBSYNC (R209): its result is delivered when the round completes. -/
def waitBar (s : State) (g k : Nat) (d : Code) (slot : BitVec 3) (det : Bool) (c : Clause) : State :=
  let u := s.cur
  match s.team u, s.wg g with
  | some t, some w =>
    let b := w.bar k
    let r := (fget noEntry b.teamRound u).getD b.round
    let open_ := b.valid && decide (b.round ≤ r)
    let v : Option Word :=
      if !b.valid then some 1 else if open_ then none else some (roundResult (fget noEntry b.past r) det)
    let b' := { b with
      teamRound := fset noEntry b.teamRound u none
      waiters := if open_ then b.waiters ++ [{ team := u, word := t.nextWord, round := r, detail := det }] else b.waiters }
    let rs := t.activeLanes.map fun l => (d.toNat, l, v, (0 : BitVec 5))
    (s.putWg g (w.putBar k b')).putTeam u ((t.addPend (slotOf slot) false rs).advance c 1)
  | _, _ => s

/-- NBWAIT (R209, R421). -/
def execNbwait (d : Code) (nb : BitVec 4) (slot : BitVec 3) (det : Bool) (s : State) : Out :=
  teamWord s 1 fun t c _ => .next (waitBar s t.wg nb.toNat d slot det c)

/-- NBSYNC (R209, R421): an arrival, then the wait. -/
def execNbsync (d : Code) (nb : BitVec 4) (slot : BitVec 3) (det : Bool) (s : State) : Out :=
  teamWord s 1 fun t c _ =>
    .next (waitBar (arrive (drainTo s s.cur 2) t.wg nb.toNat (some s.cur) none) t.wg nb.toNat d slot det c)

/-- NBINV (R211): its team's earlier accesses come before the waiters' later ones (R194). -/
def execNbinv (nb : BitVec 4) (slot : BitVec 3) (s : State) : Out :=
  teamWord s 1 fun t c _ => .next (asyncGo (invalidate (drainTo s s.cur 2) t.wg nb.toNat) s.cur slot c)

end Sys2Proof.Machine
end

