-- ==== Sys2Proof/Machine/Sys.lean ====
section
/-! DEFINITION. The system words (R107 to R110, R118 to R121, R130, R134, R163, R164, R265, R271, R289, R290, R334, R351,
R434, R446 to R449, R452): group 111 of the opcode map up to 0xEF. -/

namespace Sys2Proof.Machine

/-! ## TIME_NS -/

/-- The key of a team's TIME_NS read (R289): WGID, TEAMID and the team's read count. -/
def timeKey (s : State) (t : Team) : List Byte :=
  toBytes 4 (((s.wg t.wg).map fun w => w.wgid.toNat).getD 0) ++ toBytes 2 t.teamId ++ toBytes 2 t.reads

/-- A read of TIME_NS by a team (R283, R289, R290): recorded, or replayed where a record matches. -/
def sysTime (s : State) (t : Team) : DWord × State :=
  match s.launch t.launch with
  | none => (timeNs s, s)
  | some x =>
    if t.agent then (timeNs s, s)
    else
      let key := timeKey s t
      if replays s x.queue x.packet then
        let hit (h : List Byte) : Bool :=
          num h 0 1 == 3 && num h 4 4 == x.packet % 2 ^ 32 && decide (((h.drop 8).take 8) = key)
        match findRecord x.queue hit (s.dfield (aRplySize x.queue) 0 32) 0 s 0 with
        | (some v, s) => (BitVec.ofNat 64 (ofBytes v), s)
        | (none, s) => (timeNs s, raiseEvent (s.putDfield (aRplyStat x.queue) 33 1 1) x.part 4)
      else (timeNs s, recordInput s x.queue (recordHeader 3 0 x.packet key) (toBytes 8 (timeNs s).toNat))

/-! ## SYSR and SYSW -/

/-- The value of a system register in a lane, but for TIME_NS (R92, R107, R119). -/
def sysValue (s : State) (t : Team) (n : SysReg) (l : Nat) : DWord :=
  match n with
  | .teamid => BitVec.ofNat 64 t.teamId
  | .laneid => BitVec.ofNat 64 l
  | .lanes => BitVec.ofNat 64 t.lanes
  | .wgid => BitVec.ofNat 64 (((s.wg t.wg).map fun w => w.wgid.toNat).getD 0)
  | .launchid => if t.agent then 0xFFFFFFFF else BitVec.ofNat 64 (((s.launch t.launch).map fun x => x.launchId).getD 0)
  | .core => BitVec.ofNat 64 (teamCore s t)
  | .cluster => BitVec.ofNat 64 (teamCore s t / 4)
  | .priv => BitVec.ofNat 64 t.priv
  | .rlvl => BitVec.ofNat 64 t.rlvl
  | .noticeEn => BitVec.ofNat 64 t.noticeEn.toNat
  | .tcause => t.tcause.zeroExtend 64
  | .tpc => t.tpc
  | .taddr => t.taddr
  | .tinfo => t.tinfo.zeroExtend 64
  | .trapvec => t.trapvec
  | .fpstat => t.fpstat.zeroExtend 64
  | .seed => t.seed.zeroExtend 64
  | .timeNs => timeNs s
  | .cycles => BitVec.ofNat 64 (cyclesOf s (teamCore s t / 4))
  | .fb => t.fb
  | .fsp => t.fsp

/-- A system register's value in every active lane's register or pair. -/
def Team.putSys (t : Team) (n : SysReg) (d : Code) (f : Nat → DWord) : Team :=
  if n.wide then t.putPair d.toNat f else t.putActive d.toNat fun l => (f l).extractLsb' 0 32

/-- SYSR (R120, R447). -/
def execSysr (d : Code) (n : SysReg) (s : State) : Out :=
  withTeam s fun t c =>
    if n = .timeNs ∧ !t.activeLanes.isEmpty then
      let (v, s') := sysTime s t
      .next (s'.putTeam s.cur (({ t with reads := t.reads + 1 }.putSys n d fun _ => v).advance c 1))
    else .next (s.putTeam s.cur ((t.putSys n d (sysValue s t n)).advance c 1))

/-- What SYSW of a value makes of a team (R121, R130, R134, R447); a cause where it traps. -/
def Team.sysWrite (t : Team) (n : SysReg) (v : DWord) : Except Nat Team :=
  let w := v.extractLsb' 0 32
  match n with
  | .noticeEn => .ok { t with noticeEn := w.getLsbD 0, noticeFold := t.noticeFold && w.getLsbD 0 }
  | .tcause => .ok { t with tcause := w &&& 0xFF }
  | .tpc => .ok { t with tpc := v }
  | .taddr => .ok { t with taddr := v }
  | .tinfo => .ok { t with tinfo := w &&& 0xFFFF010F }
  | .trapvec => .ok { t with trapvec := v }
  | .fpstat => .ok { t with fpstat := w &&& 0x1F }
  | .fb => if v.toNat % 16 = 0 ∧ t.base ≤ v.toNat ∧ v.toNat ≤ t.fsp.toNat then .ok { t with fb := v } else .error 0x14
  | .fsp => if v.toNat % 16 = 0 ∧ t.fb.toNat ≤ v.toNat ∧ v.toNat ≤ t.limit then .ok { t with fsp := v }.unlink
      else .error 0x14
  | .teamid | .laneid | .lanes | .wgid | .launchid | .core | .cluster | .priv | .rlvl | .seed | .timeNs | .cycles =>
    .error 0x13

/-- SYSW (R121, R447). Marks unlink by the frames as stored, so the team's stores to its window come first; a risen FSP may
have frames leave local memory (R129, R167). -/
def execSysw (v : Code) (n : SysReg) (s : State) : Out :=
  teamWord s 1 fun t c l0 =>
    let x := if n.wide then pair s.fresh t v l0 else (readReg s.fresh t v.toNat l0).zeroExtend 64
    let s' := if n = .fsp then drainFrame s.bump s.cur false [] else s.bump
    match s'.team s.cur with
    | none => .next s'
    | some t =>
      match t.sysWrite n x with
      | .error cause => wordTrap s' t c cause 0
      | .ok t' =>
        if n = .fsp then
          withSpill s' t t' c t.fsp.toNat fun s' => .next (spillCheck (s'.putTeam s.cur (t'.advance c 1)) s.cur)
        else .next (s'.putTeam s.cur (t'.advance c 1))

/-! ## Traps -/

/-- TRAP (R109, R449). -/
def execTrap (imm : BitVec 16) (s : State) : Out := teamWord s 1 fun t c _ => trapAfter s t c 0x18 imm.toNat

/-- BKPT (R109, R351): its number has no effect. -/
def execBkpt (_imm : BitVec 16) (s : State) : Out := teamWord s 1 fun t c _ => trapAfter s t c 0x19 0

/-- RETT (R110, R434), whatever the active mask. -/
def execRett (s : State) : Out :=
  withTeam s fun t c =>
    if t.inHandler then .next (s.putTeam s.cur (t.returnFromTrap c)) else wordTrap s t c 1 0

/-! ## Words that park -/

/-- Team s.cur parks at the word that it stands at; the word is finished by the event that ends the park. -/
def parkTeam (s : State) (t : Team) (p : Park) : Out := .next (s.putTeam s.cur { t with park := p })

/-- WFI (R334, R452). -/
def execWfi (d a : Code) (s : State) : Out :=
  teamWord s 1 fun t c l0 =>
    if t.priv < 2 then wordTrap s t c 0x13 0
    else
      let n := (src s.fresh t a l0).toNat
      parkTeam s.bump t (.wfi d (if n = 0 then none else some (s.ns + 1000 * n)))

/-- The cores of a scope, for a team (R164, R271). -/
def scopeCores (s : State) (t : Team) (scope : InvScope) : List Nat :=
  let k := teamCore s t
  match scope with
  | .core => [k]
  | .cl => (List.range 4).map fun i => k / 4 * 4 + i
  | .die => (List.range 64).map fun i => k / 64 * 64 + i
  | .part => match teamPart s t with
    | some n => coresOf s n
    | none => List.range 512
  | .dev => List.range 512

/-- A team runs in a resident workgroup. -/
def teamResident (s : State) (t : Team) : Bool :=
  t.status == .running && !(((s.wg t.wg).map fun w => w.saved).getD false)

/-- The teams and the streams that an ICINV waits for (R271), but for the issuing team. -/
def icinvTeams (s : State) (u : Nat) (t : Team) (scope : InvScope) : List Nat :=
  let cores := scopeCores s t scope
  ((entries s.teams).filterMap fun e =>
    if e.1 ≠ u ∧ teamResident s e.2 ∧ cores.contains (teamCore s e.2) ∧
        (scope = .dev ∨ teamPart s e.2 = teamPart s t) then some e.1 else none) ++
  (entries s.streams).filterMap fun e => if e.2.admitted ∧ cores.any fun k => k / 4 = e.2.cluster then some e.1 else none

/-- The clauses that the teams of some cores, and the sequencers of their clusters, have fetched and not started are
dropped (R271). -/
def dropPrefetched (s : State) (cores : List Nat) : State :=
  { s with
    teams := s.teams.map fun (e : Nat × Option Team) => (e.1, e.2.map fun (t : Team) =>
      if cores.contains (teamCore s t) then { t with clause := t.clause.filter fun c => c.started } else t)
    streams := s.streams.map fun (e : Nat × Option Stream) => (e.1, e.2.map fun (x : Stream) =>
      if cores.any fun k => k / 4 = x.cluster then { x with clause := x.clause.filter fun c => c.started } else x) }

/-- ICINV (R271): its issue drops the buffers and the prefetched clauses of its cores, and is a release. -/
def execIcinv (scope : InvScope) (s : State) : Out :=
  teamWord s 1 fun t c _ =>
    if scope = .dev ∧ t.priv < 2 then wordTrap s t c 0x13 0
    else
      let p := Park.icinv scope (icinvTeams s s.cur t scope)
      let s := dropPrefetched ((scopeCores s t scope).foldl dropLoop (drainAll s s.cur)) (scopeCores s t scope)
      match s.team s.cur with
      | none => .next s
      | some t => parkTeam s t p

/-- TLBINV (R163, R164). -/
def execTlbinv (a b : Code) (scope : InvScope) (ng : Bool) (s : State) : Out :=
  teamWord s 2 fun t c l0 =>
    if t.priv = 0 ∨ (scope = .dev ∧ t.priv < 2) then wordTrap s t c 0x13 0
    else
      let start := fld (pair s.fresh t a l0).toNat 16 41 * 65536
      parkTeam s.bump t (.tlbinv start (65536 * (src s.fresh t b l0).toNat) scope ng)

/-! ## The events that end a park -/

/-- The team goes past the word that parked it, of len slots. -/
def Team.unpark (t : Team) (len : Nat) : Team :=
  match t.clause with
  | some c => { t with park := .none }.advance c len
  | none => { t with park := .none }

/-- A firmware agent runs on its core (R323): while the cluster's clock does (R321). -/
def agentRuns (s : State) (core : Nat) : Bool := pointAt s (core / 4) != 0

/-- WFI_RESUME (R323, R334): the wake bits are read and cleared in one step, and the team goes on. While the cluster is not
ON its wake bits wake nothing; the timeout counts wherever the agent runs. -/
def execWfiResume (u : Nat) (s : State) : Out :=
  match s.team u with
  | some t =>
    match t.park with
    | .wfi d until_ =>
      let core := teamCore s t
      let bits := fget zeroNat s.wake core
      let late := (until_.map fun x => decide (x ≤ s.ns)).getD false
      if agentRuns s core ∧ (late ∨ (clState s (core / 4) = 0 ∧ bits ≠ 0)) then
        let v : Word := if bits = 0 then 4 else BitVec.ofNat 32 bits
        .next ({ s with wake := fset zeroNat s.wake core 0 }.putTeam u ((t.putActive d.toNat fun _ => v).unpark 1))
      else .next s
    | _ => .next s
  | none => .next s

/-- Team or stream x has passed a clause boundary: no ICINV waits for it any more (R271). -/
def passBoundary (s : State) (x : Nat) : State :=
  { s with teams := s.teams.map fun (e : Nat × Option Team) => (e.1, e.2.map fun (t : Team) =>
      match t.park with
      | .icinv scope l => { t with park := .icinv scope (l.filter fun y => y != x) }
      | _ => t) }

/-- A cached translation that TLBINV removes (R164). -/
def tlbinvHits (all_ : Bool) (part : Option Nat) (start len : Nat) (ng : Bool) (x : Tlb) : Bool :=
  (all_ || x.part == part) && !(ng && x.pte.global) &&
  (len == 0 || (decide (x.base < start + len) && decide (start < x.base + x.size)))

/-- The caches of a scope without the translations that p names (R164). -/
def dropTlbs (s : State) (cores : Option (List Nat)) (own : Nat) (p : Tlb → Bool) : State :=
  let one (keep : Nat → Bool) (m : FMap (List Tlb)) : FMap (List Tlb) :=
    m.foldl (fun m' e => if keep e.1 then m' else fset noTlbs m' e.1 ((fget noTlbs m e.1).filter fun x => !p x)) m
  match cores with
  | none => { s with tlb1 := one (fun _ => false) s.tlb1, tlb2 := one (fun _ => false) s.tlb2 }
  | some l =>
    { s with tlb1 := one (fun k => !l.contains k) s.tlb1
             tlb2 := one (fun k => !(k == own / 4) && !(l.any fun c => c / 4 == k)) s.tlb2 }

/-- A copy of the units of a scope holds a translation of the range for a tile that it has not finished (R164). -/
def holdsTile (cores : Option (List Nat)) (own : Nat) (p : Tlb → Bool) (c : Copy) : Bool :=
  (match cores, c.core with
   | some l, some k => k / 4 == own / 4 || l.contains k
   | some _, none => false
   | none, _ => true) &&
  c.late.any fun x => p x.srcPage || p x.dstPage

/-- TLBINV_COMPLETION (R161, R164): the translations are gone, the copies have finished the tiles that they had translated,
and the suspended operations of the partition try again. -/
def execTlbinvCompletion (u : Nat) (s : State) : Out :=
  match s.team u with
  | some t =>
    match t.park with
    | .tlbinv start len scope ng =>
      let part := teamPart s t
      let cores := match scope with
        | .part | .dev => none
        | sc => some (scopeCores s t sc)
      let s := dropTlbs s cores (teamCore s t) (tlbinvHits (scope == .dev) part start len ng)
      if (entries s.copies).any fun e => holdsTile cores (teamCore s t) (tlbinvHits (scope == .dev) part start len false) e.2
      then .next s
      else
        let s := ((entries s.copies).filter fun e => e.2.suspended.isSome && !e.2.saved &&
          (scope == .dev || e.2.requester.part == part)).foldl (fun s e => retryCopy s e.1) s
        match s.team u with
        | some t => .next (s.putTeam u (t.unpark 2))
        | none => .next s
    | _ => .next s
  | none => .next s

end Sys2Proof.Machine
end

