-- ==== Sys2Proof/Machine/Fetch.lean ====
section
/-! DEFINITION. Fetching a clause and checking it (R55 to R58, R64 to R66, R158, R270), notices (R105, R265), and the
landing of results (R60 to R63, R226). -/

namespace Sys2Proof.Machine

/-! ## Which words a clause may hold (R56, R57, R84, R86) -/

/-- The class of an opcode's group (R86): 0 ALU, 1 MEM, 2 ASYNC, 3 XFN, 4 SYS, 5 MSTR. -/
def wordClass (op : Nat) : Nat :=
  match op / 32 with
  | 2 => if op % 32 / 2 ≤ 6 then 0 else 3
  | 4 => 1
  | 5 => 2
  | 7 => if op % 32 / 2 ≤ 7 then 4 else 5
  | _ => 0

/-- NOP stands in a clause of any class. -/
def isNop (op : Nat) : Bool := op == 0xDA

/-- BRA, BRV, CALL, RET, JMPI and EXIT stand as the last instruction of a clause of class 0 to 4. -/
def isBranch (op : Nat) : Bool := [0xCE, 0xD1, 0xD2, 0xD4, 0xD6, 0xD8].contains op

/-- The fields of a header (R55). -/
def hdrEng (h : Word) : Nat := fld h.toNat 4 3
def hdrWait (h : Word) : Nat := fld h.toNat 7 8
def hdrSwitch (h : Word) : Nat := fld h.toNat 15 15
def hdrKind (h : Word) : Nat := fld h.toNat 30 2
def hdrCount (h : Word) : Nat := fld h.toNat 0 4

/-- The header's own checks (R57, R64, R234). -/
def headerOk (stream : Bool) (h : Word) : Bool :=
  decide (1 ≤ hdrCount h) && decide (hdrKind h ≤ 1) &&
  (if stream then hdrEng h == 5 && hdrWait h % 128 == 0 && hdrSwitch h == 0
   else decide (hdrEng h ≤ 4) && hdrSwitch h / 2 ^ hdrCount h == 0)

/-- The opcode of a word. -/
def opOf (w : Word) : Nat := (w.extractLsb' 24 8).toNat

/-- How many slots an instruction fills (R67). -/
def wordLen (w : Word) : Nat := if hasExt w then 2 else 1

/-- A word at slot j may stand in the clause (R56, R57). -/
def placeOk (stream : Bool) (h : Word) (j : Nat) (w : Word) : Bool :=
  let op := opOf w
  let n := wordLen w
  decide (j + n ≤ hdrCount h) &&
  (isNop op || (isBranch op && !stream && j + n == hdrCount h) || (!isBranch op && wordClass op == hdrEng h))

/-- The tile and the operand slots that a stream word names (R234). -/
def streamNames : Instr → Option Nat × List Nat
  | .mclaim a b => (none, [a.toNat, b.toNat])
  | .mrel a b => (none, [a.toNat, b.toNat])
  | .mload a _ _ _ _ _ => (none, [a.toNat])
  | .mstore t _ _ _ _ => (some t.toNat, [])
  | .mma t a b _ => (some t.toNat, [a.toNat, b.toNat])
  | .mzero t => (some t.toNat, [])
  | _ => (none, [])

/-- The limits that words are checked against: a team's register count, or a stream's window and slots. -/
inductive Limits where
  | team (nregs : Nat)
  | stream (w s : Nat)
deriving DecidableEq, Repr

/-- The range checks of an instruction (R64 step 4, R234): a cause. -/
def rangeFail (lim : Limits) (i : Instr) : Option Nat :=
  match lim with
  | .team g => if g < i.regTop then some 3 else none
  | .stream w n =>
    let x := streamNames i
    if (x.1.map fun k => decide (w ≤ k)).getD false then some 0x12
    else if x.2.any fun k => decide (n ≤ k) then some 0x11
    else none

def Limits.isStream : Limits → Bool
  | .team _ => false
  | .stream _ _ => true

/-- The first failure among the slots from j on (R64, R234): its slot as TINFO counts it, and its cause. -/
def slotsFail (lim : Limits) (h : Word) (words : List Word) : Nat → Nat → Option (Nat × Nat)
  | 0, _ => none
  | fuel + 1, j =>
    match words[j]? with
    | none => none
    | some w =>
      if !opcodeDefined (w.extractLsb' 24 8) then some (j + 1, 1)
      else if !placeOk lim.isStream h j w then some (j + 1, 2)
      else
        match decodeWords w ((words[j + 1]?).getD 0) with
        | .error _ => some (j + 1, 1)
        | .ok i =>
          match rangeFail lim i with
          | some c => some (j + 1, c)
          | none =>
            if hasExt w && (hdrSwitch h).testBit (j + 1) then some (j + 2, 2)
            else slotsFail lim h words fuel (j + wordLen w)

/-- The first failing check of a clause (R64, R234). -/
def clauseFail (lim : Limits) (h : Word) (words : List Word) : Option (Nat × Nat) :=
  if headerOk lim.isStream h then slotsFail lim h words 15 0 else some (0, 2)

/-- Slot k names an instruction word of the clause (R110). -/
def slotStarts (words : List Word) (k : Nat) : Nat → Nat → Bool
  | 0, _ => false
  | fuel + 1, j =>
    match words[j]? with
    | none => false
    | some w => j == k || slotStarts words k fuel (j + wordLen w)

/-! ## Fetching (R158) -/

/-- Fetching n bytes: every page is an HBM page with EX; a failure is a cause. -/
def fetchBytes (part core : Option Nat) : Nat → State → Nat → Nat → Except Nat (List Byte) × State
  | 0, s, _, _ => (.ok [], s)
  | fuel + 1, s, va, n =>
    if n = 0 then (.ok [], s)
    else
      match xlate s part core va false with
      | (.error c, s) => (.error (if c = 10 then 9 else c), s)
      | (.ok x, s) =>
        let p := x.pte
        let k := min n (min (2048 - va % 2048) (x.base + x.size - va))
        let pa := p.addr + (va - x.base)
        if !p.ex then (.error 7, s)
        else if p.typ ≠ 0 then (.error 8, s)
        else if !keyOk s p.key ∨ (part.isSome ∧ (inMetadata p.addr ∨ inReserve p.addr)) then (.error 7, s)
        else if !xbarAllows s part pa then (.error 7, match part with | some q => addDeny s q | none => s)
        else
          match sealRead s p.key 0 pa k with
          | (0, l, s) =>
            match fetchBytes part core fuel s (va + k) (n - k) with
            | (.ok l', s) => (.ok (l ++ l'), s)
            | (.error c, s) => (.error c, s)
          | (_, _, s) => (.error 9, s)

/-- Bytes as words (R2). -/
def wordsOf : List Byte → List Word
  | a :: b :: c :: d :: rest => wordOfBytes a b c d :: wordsOf rest
  | _ => []

/-- Fetching the clause at an address: its header, and its slots. All of its slots are fetched before any is checked, so a
slot whose fetch fails comes before a check of R64 that an earlier slot fails; the spec does not order the two: the model's
choice (log entry 57). -/
def fetchClause (s : State) (part core : Option Nat) (a : DWord) : Except Nat (Word × List Word) × State :=
  if a.toNat % 4 ≠ 0 then (.error 5, s)
  else
    match fetchBytes part core 8 s a.toNat 4 with
    | (.error c, s) => (.error c, s)
    | (.ok l, s) =>
      let h := BitVec.ofNat 32 (ofBytes l)
      match fetchBytes part core 8 s (a.toNat + 4) (4 * hdrCount h) with
      | (.error c, s) => (.error c, s)
      | (.ok l, s) => (.ok (h, wordsOf l), s)

/-- The clause that the loop buffer of a core serves to its user teams or its firmware agent, by a free choice (R270). -/
def fromLoop (s : State) (core : Nat) (agent : Bool) (a : DWord) : Option Clause :=
  match (fget noClauses s.loopBuf core).find? fun c => c.1 == agent && c.2.addr == a with
  | some c => if Config.pick s.fresh 1 % 2 = 1 then some c.2 else none
  | none => none

/-- A KIND 01 clause is captured in the core's loop buffer of 32 clauses, by a free choice (R58, R270). -/
def capture (s : State) (core : Nat) (agent : Bool) (c : Clause) : State :=
  if hdrKind c.hdr = 1 ∧ Config.pick s.fresh 2 % 2 = 1 then
    let l := (fget noClauses s.loopBuf core).filter fun x => !(x.1 == agent && x.2.addr == c.addr)
    { s with loopBuf := fset noClauses s.loopBuf core (((agent, c) :: l).take 32) }
  else s

/-- The clause at a team's header, from its loop buffer or from memory. -/
def obtainClause (s : State) (t : Team) : Except Nat (Word × List Word) × State :=
  match fromLoop s (teamCore s t) t.agent t.pc with
  | some c => (.ok (c.hdr, c.words), s)
  | none => fetchClause s (teamPart s t) (some (teamCore s t)) t.pc

/-- A trap at a fetch (R64, R109, R158): TPC holds the header. -/
def fetchTrap (s : State) (u : Nat) (t : Team) (cause slot : Nat) (addr : DWord) : State :=
  takeTrap s u cause t.pc slot addr false 0

/-- Team u takes the clause at its header (R64, R110, R158). -/
def takeClause (s : State) (u : Nat) (t : Team) : State :=
  let core := teamCore s t
  match obtainClause s t with
  | (.error c, s) => fetchTrap s.bump u t c 0 t.pc
  | (.ok (h, words), s) =>
    match clauseFail (.team t.nregs) h words with
    | some (slot, cause) => fetchTrap s.bump u t cause slot 0
    | none =>
      let k := t.resume - 1
      if !slotStarts words k 16 0 then fetchTrap s.bump u t 2 t.resume 0
      else
        let c : Clause := { addr := t.pc, hdr := h, words := words, started := false }
        let s := (capture s core t.agent c).bump
        passBoundary (s.putTeam u { t with clause := some c, slot := k, clauseSeq := t.clauseSeq + 1 }) u

/-- A team may act: it runs, its workgroup is not saved, and its cluster is ON and held by its partition (R305, R321); a
firmware agent runs while its cluster's clock does (R323, R329). -/
def mayAct (s : State) (t : Team) : Bool :=
  teamResident s t &&
  if t.agent then agentRuns s (teamCore s t) else clState s (teamCore s t / 4) == 0 && partActive s (ownPart s t)

/-- A team's park does not hold it: none, or a SWITCH whose results have landed (R62). -/
def Team.parkOver (t : Team) : Bool :=
  match t.park with
  | .none => true
  | .switch n => t.pend.all fun p => decide (n ≤ p.id)
  | _ => false

/-- A notice is due at the team's next clause boundary (R66, R106, R109, R265). -/
def Team.noticeDue (t : Team) : Bool := !t.inHandler && (t.noticeCancel || (t.noticeFold && t.noticeEn))

/-- A notice is due now: a paused team takes NOTICE_CANCEL, or its stop, at its next clause boundary (R105), and a notice
of a fold when it resumes (R266). -/
def Team.noticeNow (s : State) (t : Team) : Bool := t.noticeDue && (t.noticeCancel || !t.paused s)

/-- A notice is delivered (R66, R105, R106, R265): NOTICE_CANCEL first. The 100 µs of R105 run from here, the moment at which
the team takes it: the model's choice (log entry 57). -/
def deliverNotice (s : State) (u : Nat) (t : Team) : State :=
  if t.noticeCancel then
    if t.trapvec = 0 then teamLeaves s u .stopped
    else
      let t' := { t with noticeCancel := false, cancelAt := some s.ns }
      takeTrap (s.putTeam u t') u 0x1D t.pc t.resume 0 true 0
  else takeTrap (s.putTeam u { t with noticeFold := false, lastRlvl := t.rlvl }) u 0x1C t.pc t.resume 0 true t.rlvl

/-- The team stands at a clause boundary: no clause of its own has started. -/
def Team.atBoundary (t : Team) : Bool :=
  match t.clause with
  | none => true
  | some c => !c.started

/-- CLAUSE_FETCH (R64 to R66): at a boundary a notice that is due is delivered, before the next clause's WAIT conditions
hold; else the clause is fetched. A parked team reaches no boundary. -/
def execClauseFetch (u : Nat) (s : State) : Out :=
  match s.team u with
  | some t =>
    if !t.atBoundary ∨ !t.parkOver ∨ !mayAct s t then .next s
    else if t.noticeNow s then .next (deliverNotice s u t)
    else if t.clause.isNone then .next (takeClause s u t)
    else .next s
  | none => .next s

/-! ## Results -/

/-- A result lands in its register, with its flags (R63, R226), and the load from which it comes is read no more; a folded
team evicts again what waited for it (R261). -/
def Team.land (t : Team) (k : Nat) : Team :=
  match t.pend[k]? with
  | none => t
  | some p =>
    match p.val with
    | none => t
    | some v =>
      let t' := { (t.fixLoads fun x => x.gives p).putReg p.reg p.lane v with
        pend := t.pend.eraseIdx k, fpstat := t.fpstat ||| p.flags.zeroExtend 32 }
      if t.rlvl = 0 then t' else t'.evict []

/-- RESULT_LANDING (R60, R63). -/
def execResultLanding (u k : Nat) (s : State) : Out :=
  match s.team u with
  | some t => .next (s.putTeam u (t.land k))
  | none => .next s

/-- PAUSE_EXPIRY (R258): the count stands while the team is saved (R428). -/
def execPauseExpiry (u : Nat) (s : State) : Out :=
  match s.team u with
  | some t =>
    if teamResident s t ∧ t.pauseEnd ≤ clockTenths s (teamCore s t / 4) then .next (s.putTeam u { t with pauseEnd := 0 })
    else .next s
  | none => .next s

end Sys2Proof.Machine
end

