-- ==== Sys2Proof/Machine/Service.lean ====
section
/-! DEFINITION. The steps of the walkers, the copy engine, the seal units and the breeze (R155, R159 to R162, R173, R177,
R201, R213, R216, R217, R317, R318). -/

namespace Sys2Proof.Machine

/-- WALK_COMPLETION (R147 to R151, R154, R155): a walk for a core ends and fills the caches; the table is a partition's,
or from number 64 on the firmware's. It may be of any address, core and table, with no lookup that waits for it, and for a
write it sets DIRTY though no write need follow: the model's choice (R151; log entry 57). -/
def execWalkCompletion (core part : Nat) (va : DWord) (wr : Bool) (s : State) : Out :=
  if core < 512 ∧ va.toNat < 2 ^ 57 then
    match walk s (if part < 64 then some part else none) va.toNat wr with
    | (.ok x, s) => .next (cacheFill true s (some core) x)
    | (.error _, s) => .next s
  else .next s

/-- An operation of the copy engine may go on: it is not suspended or saved, and its partition holds its clusters. -/
def copyRuns (s : State) (c : Copy) : Bool :=
  c.suspended.isNone && !c.saved && (c.requester.part.isNone || partActive s c.part)

/-- The cluster whose allowance a copy debits: its core's; of a kettle's copy, the partition's lowest (log entry 27). -/
def copyCluster (s : State) (c : Copy) : Option Nat :=
  match c.core with
  | some k => some (k / 4)
  | none => (clustersOf s c.part).head?

/-- The rank of a copy (R318): its launch's; 0 of a kettle copy node. -/
def copyRank (s : State) (c : Copy) : Nat := ((c.launch.bind s.launch).map fun x => x.rank).getD 0

/-- An issue of weight w and rank r on a cluster, where the allowance lets it (R316, R318): the state with the debit, or
the state in which it is withheld. -/
def meter (s : State) (c w rank : Nat) (agent : Bool) : Except State State :=
  if agent ∨ allowed s c w rank then .ok (debit s c w agent) else .error (markWithheld s c)

/-- Copy k has come past its tile. -/
def tileTaken (s : State) (k : Nat) (c : Copy) : Bool := (s.copy k).all fun x => x.next != c.next

/-- The copy engine takes copy k one tile further (R201, R216, R318). -/
def copyTile (s : State) (k : Nat) (c : Copy) : State :=
  match copyCluster s c, c.position, lateTurn s k c with
  | some cl, some p, none =>
    let w := ceilDiv p.n 8
    if c.requester.part.isSome ∧ !allowed s cl w (copyRank s c) then markWithheld s cl
    else
      let s' := stepCopy s k c
      settle (if tileTaken s' k c then debit s' cl w c.requester.part.isNone else s')
  | _, _, _ => settle (stepCopy s k c)

/-- COPY_TILE (R201). -/
def execCopyTile (k : Nat) (s : State) : Out :=
  match s.copy k with
  | some c =>
    match c.kind with
    | .semsig _ _ _ => .next s
    | _ => if copyRuns s c then .next (copyTile s k c) else .next s
  | none => .next s

/-- SEMSIG_PERFORM (R213): the kettle then reads its WAIT semaphores again (R253, R439). Its energy is charged (R310). -/
def execSemsigPerform (k : Nat) (s : State) : Out :=
  match s.copy k with
  | some c =>
    match c.kind with
    | .semsig _ _ _ => if copyRuns s c then .next (charge (rereadAll (stepSemsig s k) c.part) c.requester.part) else .next s
    | _ => .next s
  | none => .next s

/-- FAULT_RETRY (R161). -/
def execFaultRetry (k : Nat) (s : State) : Out :=
  match s.copy k with
  | some c => if c.suspended.isSome ∧ !c.saved ∧ (c.requester.part.isNone ∨ partActive s c.part) then .next (retryCopy s k)
              else .next s
  | none => .next s

/-- FAULT_UNRESOLVED (R161, R162): 100 ms after the suspension the operation completes, unless a retry succeeds at that
instant. -/
def execFaultUnresolved (k : Nat) (s : State) : Out :=
  match s.copy k with
  | some c =>
    match c.suspended with
    | some t0 =>
      if t0 + 100000000 ≤ opNs s c ∧ !c.saved ∧ (c.requester.part.isNone ∨ partActive s c.part) then
        let s := retryCopy s k
        match s.copy k with
        | some c => if c.suspended.isSome then
            .next (settle (finishCopy (s.putCopy k { c with fail := c.fail.or (some (3, c.next)) }) k)) else .next s
        | none => .next s
      else .next s
    | none => .next s
  | none => .next s

/-- TOKEN_REFILL (R216, R217): once for each 1 µs. -/
def execTokenRefill (s : State) : Out :=
  if s.ns < s.tokenAt + 1000 then .next s else .next (refillTokens { s with tokenAt := s.tokenAt + 1000 })

/-- OPEN_TILE_TIMEOUT (R173). -/
def execOpenTileTimeout (tile : Nat) (s : State) : Out :=
  match openOf s tile with
  | some o => if o.since + 1000000 ≤ s.ns then .next (closeTile s tile) else .next s
  | none => .next s

/-- The number of data tiles (R177). -/
def dataTiles : Nat := 2 ^ 28 - 2 ^ 22

/-- The tile number of data tile index p (R177): stack p div (63 × 2^19). -/
def breezeTileOf (p : Nat) : Nat := p / (63 * 2 ^ 19) * 2 ^ 25 + p % (63 * 2 ^ 19)

/-- Counting in BREEZE_STAT (R177). -/
def breezeCount (s : State) (lo n : Nat) : State := s.addDfield aBreezeStat lo 16 n

/-- The check of a tile's tag by the breeze (R168, R177): a tile whose tag fails becomes FAILED. A path that fails is its
node's failure (R170). Where the tile's key slot has VALID 0, R177 says nothing: the tag is judged under the value that the
slot still holds, by the model's choice (log entry 57). -/
def breezeCheck (s : State) (t : Nat) : State :=
  let c := s.caddy t
  match sealCheck s c.key t with
  | (none, s) => s
  | (some f, s) =>
    if f.node.isSome then failLog s t 3 f
    else
      let s := failLog (s.putCaddy t { s.caddy t with state := 2 }) t 3 f
      if c.state = 2 then s else breezeCount s 16 1

/-- BREEZE_TILE (R177): the tile at BREEZE_POS has a number of correctable errors; the breeze corrects them, checks the
tag, and goes on to the next tile. It waits on an open tile. -/
def execBreezeTile (corrected : Nat) (s : State) : Out :=
  let pos := s.dfield aBreezePos 0 28
  let t := breezeTileOf pos
  if !(s.dreg aBreezeCtl).getLsbD 0 ∨ (openOf s t).isSome then .next s
  else
    let s := if (s.dreg aBreezeCtl).getLsbD 1 then breezeCount s 0 corrected else s
    let s := charge (breezeCheck s t) none
    .next (s.putDfield aBreezePos 0 28 ((pos + 1) % dataTiles))

end Sys2Proof.Machine
end

