-- ==== Sys2Proof/Machine/Stream.lean ====
section
/-! DEFINITION. The matrix engine (R230 to R247, R406 to R412, R416 to R419): streams, their entries and admission, and the
stream words. -/

namespace Sys2Proof.Machine

/-! ## Acting for a stream -/

/-- The stream that issues a word: it is admitted, and it has a fetched clause. Otherwise nothing can issue the word. -/
def withStream (s : State) (k : Stream → Clause → Workgroup → Out) : Out :=
  match s.stream s.curStream with
  | some x =>
    match x.clause, s.wg x.wg, x.admitted with
    | some c, some w, true => k x c w
    | _, _, _ => .fault .noStream
  | none => .fault .noStream

/-- A stream goes past a word of len slots. -/
def Stream.advance (x : Stream) (c : Clause) (len : Nat) : Stream :=
  if x.slot + len < c.count then { x with slot := x.slot + len }
  else { x with clause := none, pc := c.follow, slot := 0 }

/-- A workgroup's stream may run: the workgroup is resident, its cluster is ON and held (R264, R305, R321), and a team
of it has not ended (R243). -/
def streamRuns (s : State) (x : Stream) : Bool :=
  match s.wg x.wg with
  | some w => !w.saved && clState s x.cluster == 0 && (w.agent || partActive s w.part) &&
      w.teams.any fun u => ((s.team u).map fun t => t.status == .running).getD false
  | none => false

/-- The word at a slot of a clause, decoded, and its length (R64, R67). -/
def wordAt (c : Clause) (j : Nat) : Option (Instr × Nat) :=
  match c.words[j]? with
  | some w =>
    match decodeWords w ((c.words[j + 1]?).getD 0) with
    | .ok i => some (i, wordLen w)
    | .error _ => none
  | none => none

/-- The engine operation that a stream has next (R233): its tile and its slots. -/
def nextEngineOp (x : Stream) : Option (Nat × List Nat) :=
  match x.clause with
  | some c =>
    if !c.started ∧ (hdrWait c.hdr).testBit 7 ∧ !x.inflight.isEmpty then none
    else
      match wordAt c x.slot with
      | some (.mma t a b _, _) => some (t.toNat, [a.toNat, b.toNat])
      | some (.mzero t, _) => some (t.toNat, [])
      | _ => none
  | none => none

/-- A stream's next engine operation has its dependences met (R233, R240). -/
def engineReady (s : State) (x : Stream) : Bool :=
  x.admitted && streamRuns s x &&
  match nextEngineOp x with
  | some (t, l) => x.inflight.all fun o => !o.tiles.contains t && !(o.slots.any fun n => l.contains n)
  | none => false

/-- A stream goes past a word of len slots; its next engine operation may be ready from now on (R233). -/
def goStream (s : State) (k : Nat) (x : Stream) (c : Clause) (len : Nat) : State :=
  let x' := x.advance c len
  s.putStream k { x' with waited := 0, readyAt := if engineReady s x' then some (cyclesOf s x.cluster) else none }

/-- An operation has issued: it is in the engine until it retires (R240). -/
def Stream.launchOp (x : Stream) (slots tiles : List Nat) (engine : Bool) (mem : Option StreamMem) : Stream :=
  { x with inflight := x.inflight ++ [{ slots := slots, tiles := tiles, engine := engine, mem := mem }] }

/-- Slots a to b. -/
def slotRange (a b : BitVec 6) : List Nat := (List.range (b.toNat + 1 - a.toNat)).map fun i => a.toNat + i

/-! ## Claims (R237, R407) -/

/-- MCLAIM: a slot that was not claimed holds nothing known. -/
def execMclaim (a b : BitVec 6) (s : State) : Out :=
  withStream s fun x c _ =>
    let x' := (slotRange a b).foldl (fun (x : Stream) n =>
      if (x.slotAt n).inUse then x else x.putSlot n { OpSlot.free with seed := s.fresh, inUse := true }) x
    .next (goStream s.bump s.curStream x' c 1)

/-- MREL waits until every earlier operation on its slots has retired. -/
def execMrel (a b : BitVec 6) (s : State) : Out :=
  withStream s fun x c _ =>
    if x.inflight.any fun o => o.slots.any fun n => (slotRange a b).contains n then .next s
    else
      let x' := (slotRange a b).foldl (fun (x : Stream) n => x.putSlot n OpSlot.free) x
      .next (goStream s s.curStream x' c 1)

/-! ## MLOAD and MSTORE (R238, R241, R409, R410) -/

/-- The place of a space, and its size (R235). -/
def spacePlace (x : Stream) (w : Workgroup) (sc : Bool) : Place × Nat :=
  if sc then (.scratch w.core, 262144) else (.shared x.wg, w.sharedSz)

/-- A stream may reach bytes [o, o + n) of its space (R238, R330). -/
def spaceOk (x : Stream) (w : Workgroup) (sc : Bool) (o n : Nat) : Bool :=
  decide (o + n ≤ (spacePlace x w sc).2) && !(sc && w.core == 0 && decide (o < 65536) && !w.agent)

/-- MLOAD (R238, R410): it reads memory after its issue, until it retires (R193, R240). -/
def execMload (a : BitVec 6) (sc tr : Bool) (size : MSize) (stride : BitVec 12) (off : BitVec 20) (s : State) : Out :=
  withStream s fun x c w =>
    let k := s.curStream
    let (rows, n) := loadShape size tr
    let ats := (List.range rows).map (rowAt off stride n)
    if !(x.slotAt a.toNat).inUse then .next (failStream s k 0x11)
    else if off.toNat % 16 ≠ 0 then .next (failStream s k 5)
    else if ats.any fun o => !spaceOk x w sc o n then .next (failStream s k 7)
    else
      let m := StreamMem.start (.load a.toNat size tr) (spacePlace x w sc).1 ats n
      .next (goStream s k (x.launchOp [a.toNat] [] false (some m)) c 2)

/-- MSTORE (R241, R410): it writes memory after its issue, until it retires (R193, R240). -/
def execMstore (t : Code) (sc : Bool) (f : MStFmt) (stride : BitVec 12) (off : BitVec 20) (s : State) : Out :=
  withStream s fun x c w =>
    let k := s.curStream
    let n := if f = .f32 then 128 else 64
    let ats := (List.range 32).map (rowAt off stride n)
    if w.window.isNone then .next (failStream s k 0x12)
    else if off.toNat % 16 ≠ 0 then .next (failStream s k 5)
    else if ats.any fun o => !spaceOk x w sc o n then .next (failStream s k 7)
    else
      let m := StreamMem.start (.store t.toNat f) (spacePlace x w sc).1 ats n
      .next (goStream s k (x.launchOp [] [t.toNat] false (some m)) c 2)

/-! ## MMA and MZERO (R236, R239, R241, R411, R412, R419) -/

/-- The format that an MMA code names in a stream's copy, its block scale, and the bits of a container (R236, R239). -/
def mmaFormat (x : Stream) : MmaFmt → Option (FFmt × Nat × Nat)
  | .bf16 => some (bf16, 0, 16)
  | .f16 => some (fp16, 0, 16)
  | .e4m3 => some (e4m3, 0, 8)
  | .e5m2 => some (e5m2, 0, 8)
  | .reg n =>
    let v := fget zeroWord x.fmt n.val
    (formatOf v).map fun f => (f, scaleOf v, if f.w ≤ 4 then 4 else 8)

/-- The value of a block scale byte (R223): 1 and 2 E8M0, 3 E4M3, 0 none. -/
def scaleVal (scale : Nat) (b : Byte) : FV :=
  match scale with
  | 0 => .fin false 1 0
  | 3 => if b.getLsbD 7 then .nan else e4m3.val b.toNat
  | _ => if b = 0xFF then .nan else .fin false 1 ((b.toNat : Int) - 127)

/-- Element e of row i of a slot, with its scale (R236, R239). -/
def operand (v : OpSlot) (n : Nat) (f : FFmt) (scale bits i e : Nat) : FV :=
  let p := match bits with
    | 16 => (v.byte n (128 * i + 2 * e)).toNat + 256 * (v.byte n (128 * i + 2 * e + 1)).toNat
    | 8 => (v.byte n (128 * i + e)).toNat
    | _ => fld (v.byte n (128 * i + e / 2)).toNat (4 * (e % 2)) 4
  let x := f.val p
  if scale = 0 then x
  else (x.mul (scaleVal scale (v.byte n (4096 + 16 * i + e / (if scale = 1 then 32 else 16))))).1

/-- The exact sum of a chunk of products (R239): NaN, an infinity, or a number; an exact zero is +0. -/
def chunkSum (l : List FV) : FV := l.foldl (fun a b => (a.add .rne b).1) (.fin false 0 0)

/-- One chunk added with one rounding (R239). -/
def addChunk (acc : Word) (l : List FV) : Word :=
  BitVec.ofNat 32 (fp32.round .rne false ((fp32.val acc.toNat).add .rne (chunkSum l)).1 0).val

/-- One element of MMA (R239): K products in chunks of 16, in ascending k. -/
def mmaElement (acc : Word) (a b : Nat → FV) (chunks : Nat) : Word :=
  (List.range chunks).foldl (fun s c => addChunk s ((List.range 16).map fun i => ((a (16 * c + i)).mul (b (16 * c + i))).1)) acc

/-- MMA (R239, R411, R412). -/
def execMma (t : Code) (a b : BitVec 6) (f : MmaFmt) (s : State) : Out :=
  withStream s fun x c w =>
    let k := s.curStream
    let va := x.slotAt a.toNat
    let vb := x.slotAt b.toNat
    let part : Option Nat := if w.agent then none else some w.part
    match w.window with
    | none => .next (failStream s k 0x12)
    | some y =>
      if !va.inUse ∨ !vb.inUse then .next (failStream s k 0x11)
      else
        match mmaFormat x f with
        | none => .next (failStream s k 0x16)
        | some (g, scale, bits) =>
          match (va.badGranule scale).or ((vb.badGranule scale).or (y.badGranule t.toNat)) with
          | some i => .next (failStream (checkLog s part i) k 9)
          | none =>
            let chunks := 1024 / bits / 16
            let vs := (List.range 1024).map fun e =>
              (e, mmaElement (y.element t.toNat e) (operand va a.toNat g scale bits (e / 32))
                (operand vb b.toNat g scale bits (e % 32)) chunks)
            let s' := s.putWg x.wg { w with window := some (y.putTile t.toNat vs) }
            .next (goStream s' k (x.launchOp [a.toNat, b.toNat] [t.toNat] true none) c 1)

/-- MZERO (R241, R419). -/
def execMzero (t : Code) (s : State) : Out :=
  withStream s fun x c w =>
    match w.window with
    | none => .next (failStream s s.curStream 0x12)
    | some y =>
      let s' := s.putWg x.wg { w with window := some (y.putTile t.toNat []) }
      .next (goStream s' s.curStream (x.launchOp [] [t.toNat] true none) c 1)

/-! ## Barriers and the end (R242, R243, R408, R416) -/

/-- The stream's next round of barrier k rises. -/
def Stream.stepRound (x : Stream) (k : Nat) : Stream := { x with rounds := fset zeroNat x.rounds k (fget zeroNat x.rounds k + 1) }

/-- An MWAIT of a stream at barrier k goes on waiting (R242, R416): its round has not completed, and the barrier is VALID
and has not been invalidated since the wait began. -/
def Stream.mwaits (x : Stream) (w : Workgroup) (k : Nat) : Bool :=
  (w.bar k).valid && decide ((w.bar k).round ≤ fget zeroNat x.rounds k) && x.mwait != some (k, true)

/-- MWAIT: it issues when every earlier operation has retired, and waits for its round. -/
def execMwait (k : BitVec 4) (s : State) : Out :=
  withStream s fun x c w =>
    if !x.inflight.isEmpty then .next s
    else if x.mwaits w k.toNat then .next (s.putStream s.curStream { x with mwait := some (k.toNat, false) })
    else .next (goStream s s.curStream { x.stepRound k.toNat with mwait := none } c 1)

/-- MSIG: an arrival, when every earlier operation has retired. -/
def execMsig (k : BitVec 4) (s : State) : Out :=
  withStream s fun x c _ =>
    if !x.inflight.isEmpty then .next s
    else .next (arrive (goStream s s.curStream (x.stepRound k.toNat) c 1) x.wg k.toNat none none)

/-- MEND: the stream ends when every earlier operation has retired. -/
def execMend (s : State) : Out :=
  withStream s fun x _ _ => if !x.inflight.isEmpty then .next s else .next (endStream s s.curStream)

/-! ## MSTART, entries and admission (R231 to R233, R417, R418) -/

/-- The checks of MSTART's descriptor, in their order (R231): a cause and TADDR. -/
def mstartFail (l : List Byte) : Option (Nat × DWord) :=
  let image := num l 0 8
  let d := num l 8 4
  if image % 16 ≠ 0 ∨ 2 ^ 57 ≤ image then some (5, BitVec.ofNat 64 image)
  else if fld d 0 9 = 0 ∨ 256 < fld d 0 9 ∨ fld d 9 7 ≠ 0 ∨ fld d 23 9 ≠ 0 ∨ num l 12 4 ≠ 0 then some (0x12, 0)
  else if fld d 16 7 = 0 ∨ 64 < fld d 16 7 then some (0x11, 0)
  else none

/-- MSTART may take an entry (R232): the workgroup has no stream, and its cluster's table has room. -/
def entryFree (s : State) (w : Workgroup) : Bool :=
  w.stream.isNone && decide ((entriesOf s (w.core / 4)).length < 16)

/-- MSTART of team u takes its entry (R232, R242, R418): the stream is forked, with the team's format registers and each
barrier's current round. -/
def takeEntry (s : State) (u : Nat) (t : Team) (w : Workgroup) (image : DWord) (win sl : Nat) : State :=
  let k := s.nextUid
  let s := drainAll s.nextId u
  let x : Stream :=
    { wg := t.wg, cluster := w.core / 4, image := image, w := win, s := sl, fmt := t.fmt
      rounds := fsets zeroNat [] ((List.range 16).map fun i => (i, (w.bar i).round))
      pc := image, clause := none, slot := 0, rank := launchRankOf s t.launch, readyAt := none, waited := 0, age := k
      admitted := false, slots := [], inflight := [], mwait := none }
  match s.wg t.wg with
  | some w => (s.putStream k x).putWg t.wg { w with stream := some k }
  | none => s

/-- MSTART (R231, R418): with no entry free it holds its team. -/
def execMstart (g : Code) (slot : BitVec 3) (s : State) : Out :=
  teamWord s 1 fun t c l0 =>
    let l := groupBytes s.fresh t g 4 l0
    match mstartFail l with
    | some (cause, a) => wordTrap s.bump t c cause a
    | none =>
      let image := BitVec.ofNat 64 (num l 0 8)
      let win := fld (num l 8 4) 0 9
      let sl := fld (num l 8 4) 16 7
      match s.wg t.wg with
      | none => parkTeam s.bump t (.mstart image win sl)
      | some w =>
        if entryFree s w then .next (asyncGo (takeEntry s.bump s.cur t w image win sl) s.cur slot c)
        else parkTeam s.bump t (.mstart image win sl)

/-- RESERVATION_ENTRY_GRANT (R232): the MSTART that holds team u takes its entry. -/
def execReservationEntryGrant (u : Nat) (s : State) : Out :=
  match s.team u with
  | some t =>
    match t.park, s.wg t.wg with
    | .mstart image win sl, some w =>
      if entryFree s w ∧ mayAct s t then
        let s := takeEntry s u t w image win sl
        match s.team u with
        | some t => .next (s.putTeam u ({ t with nextWord := t.nextWord + 1 }.unpark 1))
        | none => .next s
      else .next s
    | _, _ => .next s
  | none => .next s

/-- The cycles for which a stream has had a ready engine operation without a grant (R233). -/
def Stream.waitedCycles (s : State) (x : Stream) : Nat :=
  x.waited + (x.readyAt.map fun c => cyclesOf s x.cluster - c).getD 0

/-- The effective rank of a stream (R233). -/
def effectiveRank (s : State) (x : Stream) : Nat := min 63 (x.rank + x.waitedCycles s / 4096)

/-- A stream comes before another: by effective rank, then by age (R233). -/
def streamBefore (s : State) (a b : Stream) : Bool :=
  decide (effectiveRank s b < effectiveRank s a) || (effectiveRank s a == effectiveRank s b && decide (a.age < b.age))

/-- STREAM_ADMISSION (R233): of the waiting streams of a cluster, the first, where it fits. -/
def execStreamAdmission (c : Nat) (s : State) : Out :=
  let waiting := (entriesOf s c).filter fun e => !e.2.admitted && streamRuns s e.2
  match (sortBy (fun a b => streamBefore s a.2 b.2) waiting).head? with
  | none => .next s
  | some (k, x) =>
    match s.wg x.wg with
    | none => .next s
    | some w =>
      if x.s ≤ freeOpSlots s c ∧ x.w ≤ freeTiles s w.core x.wg then
        let win : AccWindow := { w := x.w, tiles := [], inUse := [], dirty := [], bad := [] }
        .next ((s.putStream k { x with admitted := true }).putWg x.wg { w with window := some win })
      else .next s

/-! ## The sequencer and the engine (R233, R234, R240) -/

/-- Since when each stream of a cluster has had a ready engine operation (R233). -/
def noteReady (s : State) (cluster : Nat) : State :=
  (entriesOf s cluster).foldl (fun s e =>
    if engineReady s e.2 then
      s.putStream e.1 { e.2 with readyAt := e.2.readyAt.or (some (cyclesOf s cluster)) }
    else s.putStream e.1 { e.2 with readyAt := none, waited := e.2.waitedCycles s }) s

/-- The engine of a cluster is free, and its arbiter grants it to this stream (R233). -/
def engineGrants (s : State) (k : Nat) (x : Stream) : Bool :=
  engineReady s x &&
  (entriesOf s x.cluster).all fun e =>
    (e.2.inflight.all fun o => !o.engine) && (e.1 == k || !engineReady s e.2 || !streamBefore s e.2 x)

/-- STREAM_CLAUSE_FETCH (R234): a failing fetch or check fails the stream. -/
def execStreamClauseFetch (st : Nat) (s : State) : Out :=
  match s.stream st with
  | none => .next s
  | some x =>
    match s.wg x.wg with
    | none => .next s
    | some w =>
      if !x.admitted ∨ x.clause.isSome ∨ !streamRuns s x then .next s
      else
        match fetchClause s (if w.agent then none else some w.part) (some w.core) x.pc with
        | (.error c, s) => .next (settle (failStream s st c))
        | (.ok (h, words), s) =>
          match clauseFail (.stream x.w x.s) h words with
          | some (_, cause) => .next (settle (failStream s st cause))
          | none =>
            let c : Clause := { addr := x.pc, hdr := h, words := words, started := false }
            .next (noteReady (passBoundary (s.putStream st { x with clause := some c, slot := 0 }) st) x.cluster)

/-- STREAM_OP_RETIRE (R240): operation k of a stream, performed whole, retires, after every earlier one that shares a tile or a
slot or that still has to reach the same bytes of memory. -/
def execStreamOpRetire (st k : Nat) (s : State) : Out :=
  match s.stream st with
  | none => .next s
  | some x =>
    match x.inflight[k]? with
    | none => .next s
    | some o =>
      if ((x.inflight.take k).any fun p => o.shares p) || o.mem.any fun m => m.left.any fun p => !x.mayPart k o { m with left := [] } p then
        .next s
      else
        match retireOp s st k with
        | (some g, s) => .next (settle (failCheck s st g))
        | (none, s) => .next (lastTeamGone (noteReady s x.cluster) x.wg)

/-- A turn in which operation k of a stream is performed in part (R183, R193). -/
def partTurn (s : State) (st k : Nat) : State :=
  match s.stream st with
  | none => s
  | some x =>
    if x.admitted ∧ streamRuns s x then
      match somePart s st k with
      | (some g, s) => settle (failCheck s st g)
      | (none, s) => s
    else s

end Sys2Proof.Machine
end

