-- ==== Sys2Proof/Machine/Issue.lean ====
section
/-! DEFINITION. Whether a team or a stream issues its next word, and what its issue does beside the word itself (R60 to
R62, R233, R234, R258, R261, R262, R316 to R318); placing one instruction where the next step fetches it. -/

namespace Sys2Proof.Machine

/-! ## What a word touches -/

/-- The registers of an operand. -/
def Operand.regs : Operand → List Nat
  | .src c => if isReg c then [c.toNat] else []
  | .reg c => [c.toNat]
  | .pair c => [c.toNat, c.toNat + 1]
  | .quad c => (List.range 4).map fun i => c.toNat + i
  | .group c => (List.range 8).map fun i => c.toNat + i

/-- The registers that an instruction reads or writes: those it names, those that MOVX and MOVXW index (R113), and every
one of a CUT or a GRAFT (R137, R141). -/
def touched (k : Nat) (t : Team) (i : Instr) : List Nat :=
  let indexed (a : Code) : List Nat := (t.activeLanes.map fun l => (src k t a l).toNat).filter fun r => decide (r < t.nregs)
  (i.operands.flatMap Operand.regs) ++
  match i with
  | .movx _ a => indexed a
  | .movxw a _ => indexed a
  | .cut _ _ => List.range t.nregs
  | .graft _ _ => List.range t.nregs
  | _ => []

/-- The slot field of a word (R60, R71, R72). -/
def slotField (w : Word) : Option Nat :=
  let op := opOf w
  if 0x80 ≤ op ∧ op ≤ 0x97 then slotOf (w.extractLsb' 5 3)
  else if wordClass op = 2 ∧ op ≠ 0xB4 ∧ op ≠ 0xB6 then slotOf (w.extractLsb' 9 3)
  else none

/-- The passes of a team that have an active lane (R91). -/
def Team.passes (t : Team) : Nat :=
  ((List.range (ceilDiv t.lanes 32)).filter fun p => (List.range 32).any fun i =>
    decide (32 * p + i < t.lanes) && t.active (32 * p + i)).length

/-- A control word: NOP, which stands among them, is an ALU word that passes without an active lane skip (R91, R422). -/
def isControl (op : Nat) : Bool := op / 32 == 6 && op != 0xDA

/-- A word that issues in one slot, not in passes: a control word, a system word other than SYSR, FENCE, an ASYNC word
(R91, R123). -/
def isSingle (op : Nat) : Bool :=
  isControl op || (wordClass op == 4 && op != 0xE0) || op == 0x98 || wordClass op == 2

/-- The weight of a team's word (R317): nothing where every pass of it is skipped (R91). -/
def wordWeight (t : Team) (w : Word) : Nat :=
  let op := opOf w
  let n := if isSingle op then 1 else t.passes
  match wordClass op with
  | 1 => 70 * n
  | 2 => 30
  | 3 => 90 * n
  | _ => 40 * n

/-- The lanes, active or not, that BCAST and SHFL read for the active ones (R348, R431). -/
def sourceLanes (k : Nat) (t : Team) (i : Instr) : List Nat :=
  match i with
  | .bcast _ _ b => (t.lowest.map fun l => (src k t b l).toNat).toList.filter fun j => decide (j < t.lanes)
  | .shfl _ _ b mode => t.activeLanes.filterMap fun l =>
      let j := shflLane mode l (src k t b l).toNat
      if 0 ≤ j ∧ j < t.lanes then some j.toNat else none
  | _ => []

/-- The passes whose lane contexts a word uses (R91, R261): every one of a control word, a CUT or a GRAFT; the lowest active
lane's of another word that issues in one slot; else those with an active lane, and those of the lanes that BCAST and SHFL
read. -/
def touchedPasses (k : Nat) (t : Team) (w : Word) (i : Instr) : List Nat :=
  let all_ := List.range (ceilDiv t.lanes 32)
  let whole := match i with
    | .cut _ _ => true
    | .graft _ _ => true
    | _ => isControl (opOf w)
  let read := sourceLanes k t i
  if whole then all_
  else if isSingle (opOf w) then (t.lowest.map fun l => l / 32).toList
  else all_.filter fun p => ((List.range 32).any fun i => decide (32 * p + i < t.lanes) && t.active (32 * p + i)) ||
    read.any fun j => j / 32 == p

/-- A word stamps the registers that it touches, and refills those and the passes that are evicted (R261, R262). -/
def touchState (s : State) (u : Nat) (t : Team) (rs ps : List Nat) : State :=
  let s := s.putTeam u { t with stamps := fsets zeroNat t.stamps (rs.map fun r => (r, t.clauseSeq)) }
  if t.evicted.isEmpty && t.passOut.isEmpty then s
  else ps.foldl (fun s p => refillPass s u p) (rs.foldl (fun s r => refillRegister s u r) s)

/-! ## A team -/

/-- Team u may issue the next word of its clause: it may act, its park is over, no notice is due before the clause (R66),
the WAIT conditions hold (R61), and the word's slot counts fewer than 64 words (R60). -/
def teamReady (s : State) (t : Team) (c : Clause) : Bool :=
  mayAct s t && t.parkOver && (c.started || (!t.noticeNow s && t.waitHolds (hdrWait c.hdr))) &&
  match (c.words[t.slot]?).bind slotField with
  | some n => decide (t.counted n < 64)
  | none => true

/-- A team has had no issue for 63 cycles, so that its next is one of the floor (R102, R258). -/
def floorIssue (s : State) (t : Team) : Bool := decide (t.issueAt + 630 ≤ clockTenths s (teamCore s t / 4))

/-- A word of weight w of a team is withheld (R318): the allowance is too low for its rank, it is no issue of the floor, and
no firmware agent's. -/
def withheld (s : State) (t : Team) (w : Nat) : Bool :=
  decide (0 < w) && !t.agent && !floorIssue s t && !allowed s (teamCore s t / 4) w (launchRankOf s t.launch)

/-- What the issue of a word does beside the word's own effect: the team acts, its clause has started, its park is over,
its registers and passes are stamped and refilled, and the cluster's allowance is debited. The state in which the word acts;
or the state where it is withheld, or where a refill has stopped the team (R169). -/
def prepareIssue (s : State) (u : Nat) (t : Team) (c : Clause) (w : Word) (i : Instr) : Except State State :=
  let cl := teamCore s t / 4
  let n := wordWeight t w
  if withheld s t n then .error (markWithheld s cl)
  else
    let t' := { t with clause := some { c with started := true }, park := .none, issueAt := clockTenths s cl }
    let s := touchState s u t' (touched s.fresh t i) (touchedPasses s.fresh t w i)
    if ((s.team u).map fun x => x.clause.isSome).getD false then .ok (debit { s with cur := u } cl n t.agent) else .error s

/-- The next word of team u (R61, R62, R102): the instruction, and the state in which it acts; or the state where none
issues. -/
def teamIssue (s : State) (u : Nat) : Except State (Instr × State) :=
  match s.team u with
  | none => .error s
  | some t =>
    match t.clause with
    | none => .error s
    | some c =>
      if teamReady s t c then
        match wordAt c t.slot, c.words[t.slot]? with
        | some (i, _), some w =>
          match prepareIssue s u t c w i with
          | .ok s => .ok (i, s)
          | .error s => .error s
        | _, _ => .error (takeTrap s u 1 c.addr (t.slot + 1) 0 false 0)
      else .error s

/-! ## A stream -/

/-- The weight of a stream word (R317). -/
def streamWeight (x : Stream) : Instr → Nat
  | .mma _ _ _ f => match mmaFormat x f with
    | some (_, _, 16) => 5000
    | some (_, _, 8) => 5600
    | _ => 6400
  | .mzero _ => 300
  | .mload _ _ _ _ _ _ => 300
  | .mstore _ _ _ _ _ => 300
  | _ => 0

/-- An instruction runs in the matrix engine (R233). -/
def isEngineOp : Instr → Bool
  | .mma _ _ _ _ => true
  | .mzero _ => true
  | _ => false

/-- The rise limit counts MMAs (R319). -/
def isMma : Instr → Bool
  | .mma _ _ _ _ => true
  | _ => false

/-- The next word of stream k (R233, R234, R318, R319). -/
def streamIssue (s : State) (k : Nat) : Except State (Instr × State) :=
  match s.stream k with
  | none => .error s
  | some x =>
    match x.clause with
    | none => .error s
    | some c =>
      if !x.admitted ∨ !streamRuns s x ∨ (!c.started ∧ (hdrWait c.hdr).testBit 7 ∧ !x.inflight.isEmpty) then .error s
      else
        match wordAt c x.slot with
        | none => .error (failStream s k 1)
        | some (i, n) =>
          let x' := { x with clause := some { c with started := true } }
          if i = .nop then .error (goStream s k x' c n)
          else if isEngineOp i && (!engineGrants s k x || (isMma i && riseHolds s x.cluster)) then .error s
          else
            let p := streamWeight x i
            match (if p = 0 then .ok s else meter s x.cluster p x.rank (decide (x.rank = 64))) with
            | .error s => .error s
            | .ok s =>
              let s := if isEngineOp i then noteGrant s x.cluster (isMma i) else s
              .ok (i, { s.putStream k x' with curStream := k })

/-! ## Words that wait, and ICINV (R271) -/

/-- The next word of a team's started clause waits for an event: of a CUT or a GRAFT the team's own work (R137, R386), of an
ASYNC word room in its unit (R97, R204), of ACCRD and ACCWR an operation on their tile (R342). -/
def teamWaits (s : State) (u : Nat) (t : Team) (c : Clause) : Bool :=
  match wordAt c t.slot with
  | some (.cut _ _, _) => !t.pend.isEmpty || !copiesDone s u t
  | some (.graft _ _, _) => !t.pend.isEmpty
  | some (.copy .., _) => decide (1024 ≤ trackers s (teamCore s t))
  | some (.copyc .., _) => decide (1024 ≤ trackers s (teamCore s t))
  | some (.semsig .., _) => decide (1024 ≤ trackers s (teamCore s t))
  | some (.spawn g _, _) =>
    match t.lowest, s.launch t.launch with
    | some l, some x => !t.agent && !x.cancelling && decide (16777216 < x.counter + num (groupBytes s.fresh t g 8 l) 4 4)
    | _, _ => false
  | some (.accrd _ a, _) => tileBusy a
  | some (.accwr a _, _) => tileBusy a
  | _ => false
where
  tileBusy (a : Code) : Bool := match s.wg t.wg with
    | some w => t.activeLanes.any fun l => (busyTiles s w).contains (accTile (src s.fresh t a l))
    | none => false

/-- The next word of a stream waits: MWAIT for its barrier, another for the operations before it (R237, R240, R242). -/
def streamWaits (x : Stream) (w : Workgroup) (c : Clause) : Bool :=
  match wordAt c x.slot with
  | some (.mwait k, _) =>
    !x.inflight.isEmpty || x.mwaits w k.toNat
  | some (.msig _, _) => !x.inflight.isEmpty
  | some (.mend, _) => !x.inflight.isEmpty
  | some (.mrel a b, _) => x.inflight.any fun o => o.slots.any fun n => (slotRange a b).contains n
  | _ => false

/-- A team or a stream that ICINV waits for may be left out: it is gone, parked, saved, waits, or has not started the clause
that it has fetched (R271). -/
def icinvPasses (s : State) (x : Nat) : Bool :=
  match s.team x, s.stream x with
  | some t, _ => !teamResident s t || t.park != .none ||
      (match t.clause with | some c => !c.started || teamWaits s x t c | none => false)
  | none, some y =>
    match s.wg y.wg with
    | none => true
    | some w => !y.admitted || w.saved || (match y.clause with | some c => !c.started || streamWaits y w c | none => false)
  | none, none => true

/-- ICINV_COMPLETION (R271). -/
def execIcinvCompletion (u : Nat) (s : State) : Out :=
  match s.team u with
  | some t =>
    match t.park with
    | .icinv _ teams => if teams.all (icinvPasses s) then .next (s.putTeam u (t.unpark 1)) else .next s
    | _ => .next s
  | none => .next s

/-! ## Bits that change without a write (R175, R176) -/

/-- 64 free bytes. -/
def freeGranule (s : State) : List Byte := (List.range 64).map (Config.freeByte s.fresh)

/-- Whether the check word of a granule fails once other bytes stand in it: it failed before, or it is not theirs. -/
def spoiled (was : Bool) (old new : List Byte) : Bool := was || crc32c old != crc32c new

/-- A granule of a store takes other bytes: the store, and the granules of it whose check word fails. -/
def spoilGranule (m : Memory) (bad : FMap Bool) (o g : Nat) (l : List Byte) : Memory × FMap Bool :=
  (Memory.write m o l, fset falseAt bad g (spoiled (fget falseAt bad g) (Memory.read m o 64) l))

/-- Bits of a store change (R175, R176): a granule holds free bytes. A tile that is not in use is read from no store (R244).
On its way to a seal only the failure counts; and of a
tile in HBM the ciphertext no longer matches the tag. -/
def upset (s : State) : Upset → State
  | .scratch c g =>
    if c < 512 ∧ g < 4096 then
      let x := spoilGranule s.scratch s.scratchBad (262144 * c + 64 * g) (4096 * c + g) (freeGranule s)
      { s.bump with scratch := x.1, scratchBad := x.2 }
    else s
  | .shared w g =>
    match s.wg w with
    | some x =>
      if 64 * g < x.sharedSz then
        let y := spoilGranule x.shared x.sharedBad (64 * g) g (freeGranule s)
        s.bump.putWg w { x with shared := y.1, sharedBad := y.2 }
      else s
    | none => s
  | .frame u g =>
    match s.team u with
    | some t =>
      if 64 * g < t.framesz then
        let y := spoilGranule t.frame t.frameBad (64 * g) g (freeGranule s)
        s.bump.putTeam u { t with frame := y.1, frameBad := y.2 }
      else s
    | none => s
  | .slot k n g =>
    match s.stream k with
    | some x =>
      if n < x.s ∧ g < 72 then
        let v := x.slotAt n
        let l := freeGranule s
        let old := (List.range 64).map fun i => v.byte n (64 * g + i)
        s.bump.putStream k (x.putSlot n { v with
          bytes := (v.bytes.filter fun (e : Nat × Byte) => decide (e.1 / 64 < g)) ++ (l.mapIdx fun i b => (64 * g + i, b)) ++
            v.bytes.filter fun (e : Nat × Byte) => decide (g < e.1 / 64)
          bad := fset falseAt v.bad g (spoiled (fget falseAt v.bad g) old l) })
      else s
    | none => s
  | .tile w t g =>
    match s.wg w with
    | some x =>
      match x.window with
      | some y =>
        if t < y.w ∧ g < 64 ∧ fget falseAt y.inUse t then
          let l := freeGranule s
          let old := (List.range 16).flatMap fun i => toBytes 4 (y.element t (16 * g + i)).toNat
          s.bump.putWg w { x with window := some { y with
            tiles := fsets zeroWord y.tiles ((List.range 16).map fun i => (1024 * t + 16 * g + i, BitVec.ofNat 32 (num l (4 * i) 4)))
            bad := fset falseAt y.bad (64 * t + g) (spoiled (fget falseAt y.bad (64 * t + g)) old l) } }
        else s
      | none => s
    | none => s
  | .openTile t g =>
    match openOf s t with
    | some x =>
      if g < 32 then
        let y := spoilGranule x.bytes x.bad (64 * g) g (freeGranule s)
        { s.bump with openTiles := s.openTiles.map fun z => if z.tile = t then { z with bytes := y.1, bad := y.2 } else z }
      else s
    | none => s
  | .flight g => if g < 32 then { s with flight := some g } else s
  | .hbm t =>
    if 2 ^ 39 ≤ t * 2048 ∨ inMetadata (t * 2048) then s
    else
      let tag := storedTag s t
      { s.bump with hbm := Memory.write s.hbm (t * 2048) ((List.range 2048).map (Config.freeByte s.fresh)) }.putCaddy t
        { s.caddy t with tag := some tag }

/-! ## A turn -/

/-- The turn that comes next: of the agenda, or, where it is empty, a free one (log entry 3); and the state in which it
takes place. -/
def nextTurn (s : State) : Act × State :=
  match s.agenda with
  | t :: rest => (t.act, { s with agenda := rest, ns := s.ns + t.dt })
  | [] =>
    let t := Config.turn s.tick
    (t.act, { s with tick := s.tick + 1, ns := s.ns + t.dt })

/-- What a turn that is no word and no event does (log entry 3). -/
def otherTurn (s : State) : Act → State
  | .drain u k => drainOne s u k
  | .perform u k => performLoad s u k
  | .streamPart st k => partTurn s st k
  | .evict t => closeTile s t
  | .upset x => upset s x
  | .corrected => breezeCount s 0 1
  | .bootDone => bootVerify s
  | .forward => forwardRecord s
  | .hostRead fn off n => if fn < 64 then { s with barRead := barRead s fn off n } else s
  | .hostWrite a l => { s with host := Memory.write s.host a l }
  | .msixEnable fn on => if fn < 64 then { s with msixOn := fset falseAt s.msixOn fn on } else s
  | .msixMask fn v on => if fn < 64 ∧ v < 3 then { s with msixOpen := fset falseAt s.msixOpen (3 * fn + v) on } else s
  | .hdm k d => programHdm s k d
  | .event _ | .issue _ | .stream _ => s

/-- What a turn does: an instruction in a state, or a state. A device that has stopped for heat does nothing until it is
reset (R335). -/
def choose (s : State) (a : Act) : Except State (Instr × State) :=
  match a with
  | .event i =>
    if !(encode i).isEmpty then .error s
    else if s.heatStop ∧ i ≠ .deviceReset then .error s
    else .ok (i, s)
  | .issue u => if s.heatStop then .error s else teamIssue s u
  | .stream k => if s.heatStop then .error s else streamIssue s k
  | a => if s.heatStop then .error s else .error (otherTurn s a)

/-! ## Placing an instruction (log entries 10, 11) -/

/-- The workgroup of the firmware agent that stands ready to issue the placed instruction: on core 0. -/
def fetchWg : Workgroup :=
  { launch := 0, part := 0, wgid := 0, core := 0, lanes := 4, nregs := 32, teams := [0], sharedSz := 0, shared := []
    sharedBad := [], bars := [], colls := [], stream := none, window := none, saved := false, saveUnits := [], order := 0
    agent := true }

/-- The clause that holds the placed instruction, of its own class. -/
def fetchClauseOf (w : Nat) : Clause :=
  let lo : Word := BitVec.ofNat 32 w
  let hi : Word := BitVec.ofNat 32 (w / 2 ^ 32)
  let op := opOf lo
  let eng := if isNop op || isBranch op then 0 else wordClass op
  let n := wordLen lo
  { addr := 0, hdr := BitVec.ofNat 32 (n + 16 * eng), words := if n = 2 then [lo, hi] else [lo], started := true }

/-- The agent's team, in the start state of R95. -/
def fetchTeam (s : State) (c : Clause) : Team :=
  { startTeam (idleLaunch s) 0 0 0 4 32 0 s.agentEntry 0 0 0 true with clause := some c }

/-- The stream that stands ready to issue a placed stream word, with every slot and tile it can name. -/
def fetchStream (c : Clause) : Stream :=
  { wg := 0, cluster := 0, image := 0, w := 256, s := 64, fmt := [], rounds := [], pc := 0, clause := some c, slot := 0
    rank := 64, readyAt := none, waited := 0, age := 0, admitted := true, slots := [], inflight := []
    mwait := none }

/-- The state with the instruction whose bits are w placed where the next step fetches it. -/
def placeWord (s : State) (w : Nat) : State :=
  let c := fetchClauseOf w
  let isStream := wordClass (opOf (BitVec.ofNat 32 w)) == 5
  let win : AccWindow := { w := 256, tiles := [], inUse := [], dirty := [], bad := [] }
  let g : Workgroup := if isStream then { fetchWg with stream := some 1, window := some win } else fetchWg
  let s := ((s.putTeam 0 (fetchTeam s c)).putWg 0 g).putLaunch 0 (idleLaunch s)
  if isStream then { s.putStream 1 (fetchStream c) with agenda := [{ dt := 0, act := .stream 1 }], curStream := 1 }
  else { s with agenda := [{ dt := 0, act := .issue 0 }], cur := 0 }

end Sys2Proof.Machine
end

