-- ==== Sys2Proof/Machine/Logic.lean ====
section
/-! DEFINITION. The logic and move words (R113, R343, R349, R355, R413, R423, R429, R435, R437): group 001 of the
opcode map. -/

namespace Sys2Proof.Machine

/-- The count of a shift: bits [7:0] (R436). -/
def shiftCount (b : Word) : Nat := b.toNat % 256

/-- ROT: a left rotation by n mod 32 (R436). -/
def rotate (a b : Word) : Word := a.rotateLeft (shiftCount b % 32)

/-- SHR.S: floor division by 2^n (R436). -/
def shiftRightS (a b : Word) : Word := a.sshiftRight (shiftCount b)

def shiftRightU (a b : Word) : Word := a >>> shiftCount b

def shiftLeft (a b : Word) : Word := a <<< shiftCount b

/-- The width of the field of BFX and BFI from position p (R350). -/
def fieldWidth (p n : Nat) : Nat := min n (32 - p)

/-- BFX (R350): position b, width c, of which bits [7:0] are read. -/
def extractField (signed : Bool) (a b c : Word) : Word :=
  let p := shiftCount b
  let n := shiftCount c
  if 32 ≤ p ∨ n = 0 then 0
  else
    let k := fieldWidth p n
    let v := a >>> p <<< (32 - k)
    if signed then v.sshiftRight (32 - k) else v >>> (32 - k)

/-- BFI (R350): the base with its field replaced. -/
def insertField (base a b c : Word) : Word :=
  let p := shiftCount b
  let n := shiftCount c
  if 32 ≤ p ∨ n = 0 then base
  else
    let mask := (0xFFFFFFFF#32 >>> (32 - fieldWidth p n)) <<< p
    (base &&& ~~~mask) ||| ((a <<< p) &&& mask)

/-- The number of set bits among the low n. -/
def popCount (a : Word) : Nat → Nat
  | 0 => 0
  | n + 1 => popCount a n + (a.getLsbD n).toNat

/-- The number of zero bits above the highest set bit of the low n bits. -/
def leadingZeros (a : Word) : Nat → Nat
  | 0 => 0
  | n + 1 => if a.getLsbD n then 0 else leadingZeros a n + 1

/-- Bit i of the result is bit 31 - i (R355). -/
def reverseBits (a : Word) : Word :=
  (List.range 32).foldl (fun r i => (r <<< 1) ||| (if a.getLsbD i then 1 else 0)) 0

/-- AND (R343). -/
def execAnd (d a b : Code) (s : State) : Out := binaryWord s d a b (· &&& ·)

/-- AND with a literal for B (R343, R75). -/
def execAndLit (d a : Code) (lit : Word) (s : State) : Out := literalWord s d a lit (· &&& ·)

/-- OR (R423). -/
def execOr (d a b : Code) (s : State) : Out := binaryWord s d a b (· ||| ·)

/-- OR with a literal for B (R423, R75). -/
def execOrLit (d a : Code) (lit : Word) (s : State) : Out := literalWord s d a lit (· ||| ·)

/-- XOR (R423). -/
def execXor (d a b : Code) (s : State) : Out := binaryWord s d a b (· ^^^ ·)

/-- XOR with a literal for B (R423, R75). -/
def execXorLit (d a : Code) (lit : Word) (s : State) : Out := literalWord s d a lit (· ^^^ ·)

/-- SHL (R436). -/
def execShl (d a b : Code) (s : State) : Out := binaryWord s d a b shiftLeft

/-- SHR, logical (R436). -/
def execShr (d a b : Code) (s : State) : Out := binaryWord s d a b shiftRightU

/-- SHR with MODE (R436). -/
def execShrX (d a b : Code) (arith : Bool) (s : State) : Out :=
  binaryExtWord s d a b (if arith then shiftRightS else shiftRightU)

/-- ROT (R436). -/
def execRot (d a b : Code) (s : State) : Out := binaryWord s d a b rotate

/-- BFX (R350). -/
def execBfx (d a b : Code) (signed : Bool) (c : Code) (s : State) : Out :=
  ternaryWord s d a b c (extractField signed)

/-- BFI (R350): DST is read as the base. -/
def execBfi (d a b c : Code) (s : State) : Out :=
  laneWord s 2 d fun k t l => insertField (src k t d l) (src k t a l) (src k t b l) (src k t c l)

/-- POPC (R429). -/
def execPopc (d a : Code) (s : State) : Out := unaryWord s d a fun x => BitVec.ofNat 32 (popCount x 32)

/-- CLZ (R355). -/
def execClz (d a : Code) (s : State) : Out := unaryWord s d a fun x => BitVec.ofNat 32 (leadingZeros x 32)

/-- BREV (R355). -/
def execBrev (d a : Code) (s : State) : Out := unaryWord s d a reverseBits

/-- SEL (R437). -/
def execSel (d a b c : Code) (s : State) : Out := ternaryWord s d a b c fun x y z => if z = 0 then y else x

/-- MOV (R414). -/
def execMov (d a : Code) (s : State) : Out := unaryWord s d a id

/-- MOV with a literal (R414, R75). -/
def execMovLit (d : Code) (lit : Word) (s : State) : Out := laneWord s 2 d fun _ _ _ => lit

/-- MOVI (R414). -/
def execMovi (d : Code) (imm : BitVec 16) (s : State) : Out := laneWord s 1 d fun _ _ _ => imm.zeroExtend 32

/-- Some active lane's index is at or beyond G (R113). -/
def indexOutside (k : Nat) (t : Team) (a : Code) : Bool :=
  t.activeLanes.any fun l => decide (t.nregs ≤ (src k t a l).toNat)

/-- MOVX (R113). -/
def execMovx (d a : Code) (s : State) : Out :=
  withTeam s fun t c =>
    if indexOutside s.fresh t a then wordTrap s t c 3 0
    else laneWord s 1 d fun k t l => readReg k t (src k t a l).toNat l

/-- MOVXW (R113). -/
def execMovxw (a b : Code) (s : State) : Out :=
  withTeam s fun t c =>
    if indexOutside s.fresh t a then wordTrap s t c 3 0
    else
      let t' := { t with regs := fsets zeroWord t.regs (t.activeLanes.map fun l =>
        (regKey (src s.fresh t a l).toNat l, src s.fresh t b l)) }
      .next (s.bump.putTeam s.cur (t'.advance c 1))

end Sys2Proof.Machine
end

