-- ==== Sys2Proof/Machine/Packed.lean ====
section
/-! DEFINITION. The packed and format words (R122, R229, R364, R383, R424 to R427, R450): the first half of group 011
of the opcode map. -/

namespace Sys2Proof.Machine

/-- PADD, FP16 with RNE (R427). -/
def execPadd (d a b : Code) (s : State) : Out :=
  packedWord s 1 d a b b fp16 noMods .rne fun x y _ => fpAdd .rne x y

/-- PADD with format, rounding and modifiers (R427). -/
def execPaddX (d a b : Code) (pf : PFmt) (m : Mods) (rm : Rm) (s : State) : Out :=
  packedWord s 2 d a b b (packedFormat pf) m rm fun x y _ => fpAdd rm x y

/-- PMUL, FP16 with RNE (R427). -/
def execPmul (d a b : Code) (s : State) : Out :=
  packedWord s 1 d a b b fp16 noMods .rne fun x y _ => fpMul x y

/-- PMUL with format, rounding and modifiers (R427). -/
def execPmulX (d a b : Code) (pf : PFmt) (m : Mods) (rm : Rm) (s : State) : Out :=
  packedWord s 2 d a b b (packedFormat pf) m rm fun x y _ => fpMul x y

/-- PFMA (R427). -/
def execPfma (d a b : Code) (pf : PFmt) (m : Mods) (rm : Rm) (c : Code) (s : State) : Out :=
  packedWord s 2 d a b c (packedFormat pf) m rm fun x y z => FV.fma rm x y z

/-- One lane of PACK8 (R425): four elements, lowest first, each rounded once. -/
def packLane (f : FFmt) (rm : Rm) (p : Nat → Word) (sr : Word) : LaneResult :=
  (List.range 4).foldl (fun r i =>
    let x := f.round rm false (val32 (p i)) r.sr
    { val := r.val + BitVec.ofNat 32 (x.val % 256 * 256 ^ i), flags := r.flags ||| x.flags, sr := x.sr })
    { val := 0, flags := 0, sr := sr }

/-- PACK8 (R425). -/
def execPack8 (d a : Code) (fd : Fmt) (rm : Rm) (s : State) : Out :=
  withTeam s fun t c =>
    match t.format fd with
    | none => wordTrap s t c 0x16 0
    | some f => fpWord s 2 d fun k t l => packLane f rm (fun i => readReg k t (a.toNat + i) l) (t.gen l)

/-- One lane of UNPACK (R451): element i of a, widened exactly. -/
def unpackLane (f : FFmt) (a i : Word) : Word :=
  let p := if f.w = 16 then fld a.toNat (16 * (i.toNat % 2)) 16 else fld a.toNat (8 * (i.toNat % 4)) 8
  BitVec.ofNat 32 (fp32.round .rne false (f.val p) 0).val

/-- UNPACK (R451). -/
def execUnpack (d a b : Code) (fs : Fmt) (s : State) : Out :=
  withTeam s fun t c =>
    match t.format fs with
    | none => wordTrap s t c 0x16 0
    | some f => laneWord s 2 d fun k t l => unpackLane f (src k t a l) (src k t b l)

/-- One lane of CVT (R229): ABS and then NEG act on the source pattern's sign bit, as the sign of its value (R76, R366); a
source of an unsigned format has none, and stays as it is (log entry 34). -/
def cvtLane (ff ft : FFmt) (sat : Bool) (m : Mods) (rm : Rm) (p sr : Word) : LaneResult :=
  let x := ff.val p.toNat
  let x := if m.absA && ff.signed then x.abs else x
  let x := if m.negA && ff.signed then x.neg else x
  let r := ft.round rm sat x sr
  { val := BitVec.ofNat 32 r.val, flags := r.flags, sr := r.sr }

/-- CVT (R229, R365). -/
def execCvt (d a : Code) (fs fd : Fmt) (sat : Bool) (m : Mods) (rm : Rm) (s : State) : Out :=
  withTeam s fun t c =>
    match t.format fs, t.format fd with
    | some ff, some ft =>
      if (sat ∧ ft.e ≠ 0) ∨ (ff.e = 0 ∧ (m.negA ∨ m.absA)) then wordTrap s t c 0x16 0
      else fpWord s 2 d fun k t l => cvtLane ff ft sat m rm (src k t a l) (t.gen l)
    | _, _ => wordTrap s t c 0x16 0

/-- FMTSET (R122, R384): its checks in order. -/
def execFmtset (n : BitVec 3) (a : Code) (s : State) : Out :=
  teamWord s 1 fun t c l0 =>
    let v := src s.fresh t a l0
    if t.activeLanes.length ≠ t.lanes ∨ (t.activeLanes.any fun l => src s.fresh t a l != v) then wordTrap s t c 4 0
    else if (formatOf v).isNone then wordTrap s t c 0x16 0
    else .next (s.bump.putTeam s.cur ({ t with fmt := fset zeroWord t.fmt n.toNat v }.advance c 1))

/-- FMTGET (R122). -/
def execFmtget (d : Code) (n : BitVec 3) (s : State) : Out := laneWord s 1 d fun _ t _ => t.fmtReg n.toNat

end Sys2Proof.Machine
end

