-- ==== Sys2Proof/Machine/Ptp.lean ====
section
/-! DEFINITION. The PTP clock's events (R281 to R283). -/

namespace Sys2Proof.Machine

/-- The clock's value and rate taken up to now (R282). -/
def rebasePtp (s : State) : State := { s with ptp := { s.ptp with base := ptpNow s, at_ := s.ns } }

/-- PTP_STATE (R282). -/
def ptpLocked (s : State) : Bool := (s.dreg aPtpState).getLsbD 0

/-- The measured offset: the clock less the leader's time, signed, as 64 bits (R282). -/
def ptpOffset (s : State) (leader : Nat) : Int := (ptpNow s : Int) - leader

/-- The rate correction after an offset (R282): towards the leader, within 500 ppm; which rate is chosen is free below
the limit. -/
def slew (s : State) (off : Int) : Int :=
  let k : Nat := if off = 0 then 0
    else if off.natAbs < 1000000 then Config.pick s.fresh 0 % 500001 else 500000
  if 0 < off then -(k : Int) else k

/-- The first lock: the clock steps forward, or holds until the leader reaches it (R282). -/
def firstLock (s : State) (leader : Nat) : State :=
  let now := ptpNow s
  if now ≤ leader then
    { s with ptp := { s.ptp with base := leader, at_ := s.ns, ppb := 0, held := false, leader := leader, leaderAt := s.ns } }
      |>.putDfield aPtpState 0 1 1
  else
    { s with ptp := { s.ptp with base := now, at_ := s.ns, held := true, leader := leader, leaderAt := s.ns } }
      |>.putDfield aPtpState 3 1 1

/-- A leader's time that the clock takes after its first lock (R282): it slews, and FAULT is set beyond 1 ms. -/
def laterLock (s : State) (leader : Nat) : State :=
  let off := ptpOffset s leader
  let s := rebasePtp s
  let s := { s.bump with ptp := { s.ptp with ppb := slew s off, leader := leader, leaderAt := s.ns } }
  if 1000000 < off.natAbs then s.putDfield aPtpState 1 1 1 else s

/-! ## The best master clock algorithm (R281; log entry 55) -/

/-- The first difference of two lists of numbers decides: the lower comes before. -/
def lowerFirst : List Nat → List Nat → Bool
  | a :: as, b :: bs => decide (a < b) || (a == b && lowerFirst as bs)
  | _, _ => false

/-- A leader is better than another: by what it says of its grandmaster; where that is the same, by the steps to it. -/
def PtpLeader.better (a b : PtpLeader) : Bool :=
  let rank (x : PtpLeader) : List Nat :=
    [x.data.prio1, x.data.cls, x.data.accuracy, x.data.variance, x.data.prio2, x.data.grandmaster]
  if a.data.grandmaster = b.data.grandmaster then lowerFirst [a.data.steps, a.source] [b.data.steps, b.source]
  else lowerFirst (rank a) (rank b)

/-- A leader is valid (R282): its last two announcements lie within 4 intervals, and the last is no 3 intervals old. -/
def PtpLeader.valid (x : PtpLeader) (now : Nat) : Bool :=
  decide (now < x.at_ + 3 * x.data.interval) && x.before.any fun b => decide (x.at_ ≤ b + 4 * x.data.interval)

/-- The leader that the port has chosen. -/
def bestLeader (s : State) : Option PtpLeader :=
  (s.ptp.leaders.filter fun x => x.valid s.ns).foldl (fun b x => match b with
    | some y => if x.better y then some x else some y
    | none => some x) none

/-- A leader announces itself. -/
def hearLeader (s : State) (source : Nat) (a : Announce) : State :=
  let old := s.ptp.leaders.find? fun x => x.source == source
  let x : PtpLeader := { source := source, data := a, at_ := s.ns, before := old.map fun y => y.at_ }
  { s with ptp := { s.ptp with leaders := (s.ptp.leaders.filter fun y => y.source != source) ++ [x] } }

/-- The time of the chosen leader reaches the clock (R282). -/
def takeTime (s : State) (leaderNs : Nat) : State :=
  let s := (s.putDreg aPtpOffset (BitVec.ofInt 64 (ptpOffset s leaderNs))).putDfield aPtpState 2 1 0
  if ptpLocked s then laterLock s leaderNs
  else if s.ptp.held then { s with ptp := { s.ptp with leader := leaderNs, leaderAt := s.ns } }
  else firstLock s leaderNs

/-! ## The meanings -/

/-- PTP_MESSAGE_RX (R281, R282): a message of the port's domain and transport. Only the chosen leader's time counts; a peer's
delay request is answered where the mechanism is peer delay. -/
def execPtpMessageRx (m : PtpMsg) (s : State) : Out :=
  let cfg := s.dreg aPtpCfg
  if cfg.getLsbD 11 ∧ dfld cfg 0 8 = m.domain.toNat ∧ dfld cfg 8 2 = m.transport.toNat ∧ dfld cfg 8 2 ≠ 3 then
    match m.body with
    | .announce a => .next (hearLeader s m.source a)
    | .time leaderNs => if (bestLeader s).any fun x => x.source == m.source then .next (takeTime s leaderNs) else .next s
    | .pdelayReq =>
      if cfg.getLsbD 10 then .next { s with ptpTx := s.ptpTx ++ [.pdelayResp, .pdelayRespFollowUp] } else .next s
  else .next s

/-- PTP_REQUEST_TX (R281): a delay request of the configured mechanism leaves the port. -/
def execPtpRequestTx (pdelay : Bool) (s : State) : Out :=
  let cfg := s.dreg aPtpCfg
  if cfg.getLsbD 11 ∧ cfg.getLsbD 10 = pdelay then
    .next { s with ptpTx := s.ptpTx ++ [if pdelay then .pdelayReq else .delayReq] }
  else .next s

/-- The announce interval of the leaders that the port hears, the longest; where it has heard none, a free value (log entry
55). -/
def announceNs (s : State) : Nat :=
  if s.ptp.leaders.isEmpty then Config.announceNs else s.ptp.leaders.foldl (fun m x => max m x.data.interval) 0

/-- PTP_HOLDOVER (R282): with no valid leader for 3 announce intervals since the port has been running (a leader is lost 3
intervals after its last announcement), the last rate is kept. -/
def execPtpHoldover (s : State) : Out :=
  if (s.dreg aPtpCfg).getLsbD 11 ∧ (bestLeader s).isNone ∧ s.ptp.enAt + 3 * announceNs s ≤ s.ns then
    .next (s.putDfield aPtpState 2 1 1)
  else .next s

/-- FIRST_LOCK_COMPLETE (R282): the leader's time has reached the held clock. -/
def execFirstLockComplete (s : State) : Out :=
  if s.ptp.held ∧ s.ptp.base ≤ s.ptp.leader + (s.ns - s.ptp.leaderAt) then
    let s := { s with ptp := { s.ptp with at_ := s.ns, ppb := 0, held := false } }
    .next ((s.putDfield aPtpState 0 1 1).putDfield aPtpState 3 1 0)
  else .next s

/-- PTM_DIALOGUE (R283). -/
def execPtmDialogue (s : State) : Out := .next (s.putDreg aPtmPtp (timeNs s))

end Sys2Proof.Machine
end

