-- ==== Sys2Proof/Machine/Dispatch.lean ====
section
/-! DEFINITION. Each instruction's meaning. -/

namespace Sys2Proof.Machine

/-- The meaning of an instruction in a state. -/
def exec (i : Instr) (s : State) : Host.Outcome State Fault Refusal :=
  match i with
  | .iadd d a b => Sys2Proof.Machine.execIadd d a b s
  | .iaddLit d a lit => Sys2Proof.Machine.execIaddLit d a lit s
  | .isub d a b => Sys2Proof.Machine.execIsub d a b s
  | .isubLit d a lit => Sys2Proof.Machine.execIsubLit d a lit s
  | .imul d a b => Sys2Proof.Machine.execImul d a b s
  | .imulLit d a lit => Sys2Proof.Machine.execImulLit d a lit s
  | .imulhS d a b => Sys2Proof.Machine.execImulhS d a b s
  | .imulhU d a b => Sys2Proof.Machine.execImulhU d a b s
  | .imad d a b c => Sys2Proof.Machine.execImad d a b c s
  | .iminS d a b => Sys2Proof.Machine.execIminS d a b s
  | .iminSLit d a lit => Sys2Proof.Machine.execIminSLit d a lit s
  | .iminU d a b => Sys2Proof.Machine.execIminU d a b s
  | .iminULit d a lit => Sys2Proof.Machine.execIminULit d a lit s
  | .imaxS d a b => Sys2Proof.Machine.execImaxS d a b s
  | .imaxSLit d a lit => Sys2Proof.Machine.execImaxSLit d a lit s
  | .imaxU d a b => Sys2Proof.Machine.execImaxU d a b s
  | .imaxULit d a lit => Sys2Proof.Machine.execImaxULit d a lit s
  | .iabs d a => Sys2Proof.Machine.execIabs d a s
  | .icmp d a b cond => Sys2Proof.Machine.execIcmp d a b cond s
  | .lea d a b => Sys2Proof.Machine.execLea d a b s
  | .leaX d a b ix sh => Sys2Proof.Machine.execLeaX d a b ix sh s
  | .and d a b => Sys2Proof.Machine.execAnd d a b s
  | .andLit d a lit => Sys2Proof.Machine.execAndLit d a lit s
  | .or d a b => Sys2Proof.Machine.execOr d a b s
  | .orLit d a lit => Sys2Proof.Machine.execOrLit d a lit s
  | .xor d a b => Sys2Proof.Machine.execXor d a b s
  | .xorLit d a lit => Sys2Proof.Machine.execXorLit d a lit s
  | .shl d a b => Sys2Proof.Machine.execShl d a b s
  | .shr d a b => Sys2Proof.Machine.execShr d a b s
  | .shrX d a b arith => Sys2Proof.Machine.execShrX d a b arith s
  | .rot d a b => Sys2Proof.Machine.execRot d a b s
  | .bfx d a b signed c => Sys2Proof.Machine.execBfx d a b signed c s
  | .bfi d a b c => Sys2Proof.Machine.execBfi d a b c s
  | .popc d a => Sys2Proof.Machine.execPopc d a s
  | .clz d a => Sys2Proof.Machine.execClz d a s
  | .brev d a => Sys2Proof.Machine.execBrev d a s
  | .sel d a b c => Sys2Proof.Machine.execSel d a b c s
  | .mov d a => Sys2Proof.Machine.execMov d a s
  | .movLit d lit => Sys2Proof.Machine.execMovLit d lit s
  | .movi d imm => Sys2Proof.Machine.execMovi d imm s
  | .movx d a => Sys2Proof.Machine.execMovx d a s
  | .movxw a b => Sys2Proof.Machine.execMovxw a b s
  | .fadd d a b => Sys2Proof.Machine.execFadd d a b s
  | .faddX d a b m rm => Sys2Proof.Machine.execFaddX d a b m rm s
  | .fsub d a b => Sys2Proof.Machine.execFsub d a b s
  | .fsubX d a b m rm => Sys2Proof.Machine.execFsubX d a b m rm s
  | .fmul d a b => Sys2Proof.Machine.execFmul d a b s
  | .fmulX d a b m rm => Sys2Proof.Machine.execFmulX d a b m rm s
  | .ffma d a b m rm c => Sys2Proof.Machine.execFfma d a b m rm c s
  | .fmin d a b => Sys2Proof.Machine.execFmin d a b s
  | .fminX d a b m => Sys2Proof.Machine.execFminX d a b m s
  | .fmax d a b => Sys2Proof.Machine.execFmax d a b s
  | .fmaxX d a b m => Sys2Proof.Machine.execFmaxX d a b m s
  | .fcmp d a b cond m => Sys2Proof.Machine.execFcmp d a b cond m s
  | .frcp d a => Sys2Proof.Machine.execFrcp d a s
  | .frcpX d a m rm => Sys2Proof.Machine.execFrcpX d a m rm s
  | .frsq d a => Sys2Proof.Machine.execFrsq d a s
  | .frsqX d a m rm => Sys2Proof.Machine.execFrsqX d a m rm s
  | .fsqrt d a => Sys2Proof.Machine.execFsqrt d a s
  | .fsqrtX d a m rm => Sys2Proof.Machine.execFsqrtX d a m rm s
  | .fexp2 d a => Sys2Proof.Machine.execFexp2 d a s
  | .fexp2X d a m rm => Sys2Proof.Machine.execFexp2X d a m rm s
  | .flog2 d a => Sys2Proof.Machine.execFlog2 d a s
  | .flog2X d a m rm => Sys2Proof.Machine.execFlog2X d a m rm s
  | .fsin d a => Sys2Proof.Machine.execFsin d a s
  | .fsinX d a m rm => Sys2Proof.Machine.execFsinX d a m rm s
  | .fcos d a => Sys2Proof.Machine.execFcos d a s
  | .fcosX d a m rm => Sys2Proof.Machine.execFcosX d a m rm s
  | .padd d a b => Sys2Proof.Machine.execPadd d a b s
  | .paddX d a b pf m rm => Sys2Proof.Machine.execPaddX d a b pf m rm s
  | .pmul d a b => Sys2Proof.Machine.execPmul d a b s
  | .pmulX d a b pf m rm => Sys2Proof.Machine.execPmulX d a b pf m rm s
  | .pfma d a b pf m rm c => Sys2Proof.Machine.execPfma d a b pf m rm c s
  | .pack8 d a fd rm => Sys2Proof.Machine.execPack8 d a fd rm s
  | .unpack d a b fs => Sys2Proof.Machine.execUnpack d a b fs s
  | .cvt d a fs fd sat m rm => Sys2Proof.Machine.execCvt d a fs fd sat m rm s
  | .fmtset n a => Sys2Proof.Machine.execFmtset n a s
  | .fmtget d n => Sys2Proof.Machine.execFmtget d n s
  | .shfl d a b mode => Sys2Proof.Machine.execShfl d a b mode s
  | .vote d a b mode => Sys2Proof.Machine.execVote d a b mode s
  | .redux d a mode => Sys2Proof.Machine.execRedux d a mode s
  | .bcast d a b => Sys2Proof.Machine.execBcast d a b s
  | .ldB d b slot off => Sys2Proof.Machine.execLdB d b slot off s
  | .ldBX d b slot off signed acq => Sys2Proof.Machine.execLdBX d b slot off signed acq s
  | .ldH d b slot off => Sys2Proof.Machine.execLdH d b slot off s
  | .ldHX d b slot off signed acq => Sys2Proof.Machine.execLdHX d b slot off signed acq s
  | .ldW d b slot off => Sys2Proof.Machine.execLdW d b slot off s
  | .ldWX d b slot off acq => Sys2Proof.Machine.execLdWX d b slot off acq s
  | .ldD d b slot off => Sys2Proof.Machine.execLdD d b slot off s
  | .ldDX d b slot off acq => Sys2Proof.Machine.execLdDX d b slot off acq s
  | .ldQ d b slot off => Sys2Proof.Machine.execLdQ d b slot off s
  | .ldQX d b slot off acq => Sys2Proof.Machine.execLdQX d b slot off acq s
  | .stB d b slot off => Sys2Proof.Machine.execStB d b slot off s
  | .stBX d b slot off rel => Sys2Proof.Machine.execStBX d b slot off rel s
  | .stH d b slot off => Sys2Proof.Machine.execStH d b slot off s
  | .stHX d b slot off rel => Sys2Proof.Machine.execStHX d b slot off rel s
  | .stW d b slot off => Sys2Proof.Machine.execStW d b slot off s
  | .stWX d b slot off rel => Sys2Proof.Machine.execStWX d b slot off rel s
  | .stD d b slot off => Sys2Proof.Machine.execStD d b slot off s
  | .stDX d b slot off fr rel => Sys2Proof.Machine.execStDX d b slot off fr rel s
  | .stQ d b slot off => Sys2Proof.Machine.execStQ d b slot off s
  | .stQX d b slot off rel => Sys2Proof.Machine.execStQX d b slot off rel s
  | .ldt d b slot off => Sys2Proof.Machine.execLdt d b slot off s
  | .atom d b slot off size c op rel acq => Sys2Proof.Machine.execAtom d b slot off size c op rel acq s
  | .fence ord scope => Sys2Proof.Machine.execFence ord scope s
  | .accrd d a => Sys2Proof.Machine.execAccrd d a s
  | .accwr a b => Sys2Proof.Machine.execAccwr a b s
  | .copy g nb slot keyovr reseal arrive => Sys2Proof.Machine.execCopy g nb slot keyovr reseal arrive s
  | .copyc g nb slot keyovr reseal arrive => Sys2Proof.Machine.execCopyc g nb slot keyovr reseal arrive s
  | .nbinit a nb slot => Sys2Proof.Machine.execNbinit a nb slot s
  | .nbarr nb slot => Sys2Proof.Machine.execNbarr nb slot s
  | .nbwait d nb slot det => Sys2Proof.Machine.execNbwait d nb slot det s
  | .nbsync d nb slot det => Sys2Proof.Machine.execNbsync d nb slot det s
  | .nbinv nb slot => Sys2Proof.Machine.execNbinv nb slot s
  | .semsig g slot op => Sys2Proof.Machine.execSemsig g slot op s
  | .spawn g slot => Sys2Proof.Machine.execSpawn g slot s
  | .cancel level => Sys2Proof.Machine.execCancel level s
  | .mark tag => Sys2Proof.Machine.execMark tag s
  | .cut d tag => Sys2Proof.Machine.execCut d tag s
  | .graft g slot => Sys2Proof.Machine.execGraft g slot s
  | .slfree g slot => Sys2Proof.Machine.execSlfree g slot s
  | .mstart g slot => Sys2Proof.Machine.execMstart g slot s
  | .ifL a => Sys2Proof.Machine.execIfL a s
  | .elseL => Sys2Proof.Machine.execElseL s
  | .endifL => Sys2Proof.Machine.execEndifL s
  | .loopL => Sys2Proof.Machine.execLoopL s
  | .breakL p n => Sys2Proof.Machine.execBreakL p n s
  | .contL p n => Sys2Proof.Machine.execContL p n s
  | .endloop off => Sys2Proof.Machine.execEndloop off s
  | .bra off => Sys2Proof.Machine.execBra off s
  | .brv off p off2 => Sys2Proof.Machine.execBrv off p off2 s
  | .call off => Sys2Proof.Machine.execCall off s
  | .ret => Sys2Proof.Machine.execRet s
  | .jmpi a => Sys2Proof.Machine.execJmpi a s
  | .exit => Sys2Proof.Machine.execExit s
  | .nop => Sys2Proof.Machine.execNop s
  | .pause imm => Sys2Proof.Machine.execPause imm s
  | .sysr d n => Sys2Proof.Machine.execSysr d n s
  | .sysw src n => Sys2Proof.Machine.execSysw src n s
  | .trap imm => Sys2Proof.Machine.execTrap imm s
  | .rett => Sys2Proof.Machine.execRett s
  | .bkpt imm => Sys2Proof.Machine.execBkpt imm s
  | .wfi d a => Sys2Proof.Machine.execWfi d a s
  | .icinv scope => Sys2Proof.Machine.execIcinv scope s
  | .tlbinv a b scope ng => Sys2Proof.Machine.execTlbinv a b scope ng s
  | .mclaim a b => Sys2Proof.Machine.execMclaim a b s
  | .mrel a b => Sys2Proof.Machine.execMrel a b s
  | .mload a sc tr size stride off => Sys2Proof.Machine.execMload a sc tr size stride off s
  | .mstore t sc f stride off => Sys2Proof.Machine.execMstore t sc f stride off s
  | .mma t a b f => Sys2Proof.Machine.execMma t a b f s
  | .mzero t => Sys2Proof.Machine.execMzero t s
  | .mwait k => Sys2Proof.Machine.execMwait k s
  | .msig k => Sys2Proof.Machine.execMsig k s
  | .mend => Sys2Proof.Machine.execMend s
  | .clauseFetch t => Sys2Proof.Machine.execClauseFetch t s
  | .resultLanding t k => Sys2Proof.Machine.execResultLanding t k s
  | .registerRefill t r => Sys2Proof.Machine.execRegisterRefill t r s
  | .pauseExpiry t => Sys2Proof.Machine.execPauseExpiry t s
  | .launchPacket q => Sys2Proof.Machine.execLaunchPacket q s
  | .copyPacket q => Sys2Proof.Machine.execCopyPacket q s
  | .graphPacket q => Sys2Proof.Machine.execGraphPacket q s
  | .waitPacket q => Sys2Proof.Machine.execWaitPacket q s
  | .signalPacket q => Sys2Proof.Machine.execSignalPacket q s
  | .signalPerform q n => Sys2Proof.Machine.execSignalPerform q n s
  | .phasePacket q => Sys2Proof.Machine.execPhasePacket q s
  | .cancelPacket q => Sys2Proof.Machine.execCancelPacket q s
  | .timefencePacket q => Sys2Proof.Machine.execTimefencePacket q s
  | .timefenceRelease q => Sys2Proof.Machine.execTimefenceRelease q s
  | .nopPacket q => Sys2Proof.Machine.execNopPacket q s
  | .packetReread q => Sys2Proof.Machine.execPacketReread q s
  | .queueStall q => Sys2Proof.Machine.execQueueStall q s
  | .waitReread q => Sys2Proof.Machine.execWaitReread q s
  | .waitSemStall q => Sys2Proof.Machine.execWaitSemStall q s
  | .heldLaunchStart => Sys2Proof.Machine.execHeldLaunchStart s
  | .workgroupAdmission p => Sys2Proof.Machine.execWorkgroupAdmission p s
  | .passedOverBlock l => Sys2Proof.Machine.execPassedOverBlock l s
  | .ophintHoldEnd l => Sys2Proof.Machine.execOphintHoldEnd l s
  | .workgroupEnd g => Sys2Proof.Machine.execWorkgroupEnd g s
  | .cancelNoticeTimeout t => Sys2Proof.Machine.execCancelNoticeTimeout t s
  | .preemptWrite n v => Sys2Proof.Machine.execPreemptWrite n v s
  | .foldExpansion core => Sys2Proof.Machine.execFoldExpansion core s
  | .workgroupSave g => Sys2Proof.Machine.execWorkgroupSave g s
  | .workgroupRestore g core => Sys2Proof.Machine.execWorkgroupRestore g core s
  | .sliceEnd n => Sys2Proof.Machine.execSliceEnd n s
  | .tenantSwitch c n => Sys2Proof.Machine.execTenantSwitch c n s
  | .overrunSave n us => Sys2Proof.Machine.execOverrunSave n us s
  | .overrunReset n us => Sys2Proof.Machine.execOverrunReset n us s
  | .walkCompletion core part va wr => Sys2Proof.Machine.execWalkCompletion core part va wr s
  | .copyTile k => Sys2Proof.Machine.execCopyTile k s
  | .faultRetry k => Sys2Proof.Machine.execFaultRetry k s
  | .faultUnresolved k => Sys2Proof.Machine.execFaultUnresolved k s
  | .semsigPerform k => Sys2Proof.Machine.execSemsigPerform k s
  | .tokenRefill => Sys2Proof.Machine.execTokenRefill s
  | .openTileTimeout tile => Sys2Proof.Machine.execOpenTileTimeout tile s
  | .breezeTile corrected => Sys2Proof.Machine.execBreezeTile corrected s
  | .breezeClr => Sys2Proof.Machine.execBreezeClr s
  | .tlbinvCompletion t => Sys2Proof.Machine.execTlbinvCompletion t s
  | .icinvCompletion t => Sys2Proof.Machine.execIcinvCompletion t s
  | .wfiResume t => Sys2Proof.Machine.execWfiResume t s
  | .reservationEntryGrant t => Sys2Proof.Machine.execReservationEntryGrant t s
  | .streamAdmission c => Sys2Proof.Machine.execStreamAdmission c s
  | .streamClauseFetch st => Sys2Proof.Machine.execStreamClauseFetch st s
  | .streamOpRetire st k => Sys2Proof.Machine.execStreamOpRetire st k s
  | .ballastPass c => Sys2Proof.Machine.execBallastPass c s
  | .allowanceRegulation n watts => Sys2Proof.Machine.execAllowanceRegulation n watts s
  | .notifyStore fn o v => Sys2Proof.Machine.execNotifyStore fn o v s
  | .kettleUngate n => Sys2Proof.Machine.execKettleUngate n s
  | .qctlWrite q v => Sys2Proof.Machine.execQctlWrite q v s
  | .ingFiltWrite f v => Sys2Proof.Machine.execIngFiltWrite f v s
  | .hevtWrite n v => Sys2Proof.Machine.execHevtWrite n v s
  | .nqlatchWrite n v => Sys2Proof.Machine.execNqlatchWrite n v s
  | .registerWrite r => Sys2Proof.Machine.execRegisterWrite r s
  | .cxlMemRead a len => Sys2Proof.Machine.execCxlMemRead a len s
  | .cxlMemWrite a bytes => Sys2Proof.Machine.execCxlMemWrite a bytes s
  | .ptmDialogue => Sys2Proof.Machine.execPtmDialogue s
  | .doeRequest nonce => Sys2Proof.Machine.execDoeRequest nonce s
  | .flr n => Sys2Proof.Machine.execFlr n s
  | .ptpMessageRx m => Sys2Proof.Machine.execPtpMessageRx m s
  | .ptpRequestTx pdelay => Sys2Proof.Machine.execPtpRequestTx pdelay s
  | .ptpHoldover => Sys2Proof.Machine.execPtpHoldover s
  | .ingressFrame f => Sys2Proof.Machine.execIngressFrame f s
  | .connect n => Sys2Proof.Machine.execConnect n s
  | .disconnect n => Sys2Proof.Machine.execDisconnect n s
  | .regrant => Sys2Proof.Machine.execRegrant s
  | .partConnDone => Sys2Proof.Machine.execPartConnDone s
  | .retireWrite k v => Sys2Proof.Machine.execRetireWrite k v s
  | .quiesce c dest => Sys2Proof.Machine.execQuiesce c dest s
  | .clkgate c dest => Sys2Proof.Machine.execClkgate c dest s
  | .pwroff c dest => Sys2Proof.Machine.execPwroff c dest s
  | .powerup c dest => Sys2Proof.Machine.execPowerup c dest s
  | .clpwrOn c dest => Sys2Proof.Machine.execClpwrOn c dest s
  | .clpwrDone c => Sys2Proof.Machine.execClpwrDone c s
  | .clWake c => Sys2Proof.Machine.execClWake c s
  | .retSave c addr => Sys2Proof.Machine.execRetSave c addr s
  | .retRestore c addr => Sys2Proof.Machine.execRetRestore c addr s
  | .retDone c => Sys2Proof.Machine.execRetDone c s
  | .agentDb => Sys2Proof.Machine.execAgentDb s
  | .operatingPointChange c => Sys2Proof.Machine.execOperatingPointChange c s
  | .thermalLimit die temp => Sys2Proof.Machine.execThermalLimit die temp s
  | .thermalStop die temp => Sys2Proof.Machine.execThermalStop die temp s
  | .deviceReset => Sys2Proof.Machine.execDeviceReset s
  | .bootGo => Sys2Proof.Machine.execBootGo s
  | .run fn => Sys2Proof.Machine.execRun fn s
  | .keyload fn => Sys2Proof.Machine.execKeyload fn s
  | .keyclear fn => Sys2Proof.Machine.execKeyclear fn s
  | .attest fn => Sys2Proof.Machine.execAttest fn s
  | .undefinedOpcodePacket q => Sys2Proof.Machine.execUndefinedOpcodePacket q s
  | .badkindRequest fn => Sys2Proof.Machine.execBadkindRequest fn s
  | .firstLockComplete => Sys2Proof.Machine.execFirstLockComplete s
  | .periodStart n => Sys2Proof.Machine.execPeriodStart n s
  | .linkTraining width rate => Sys2Proof.Machine.execLinkTraining width rate s

end Sys2Proof.Machine
end

