-- ==== Sys2Proof/Machine/Step.lean ====
section
/-! DEFINITION. One step of the machine, and the placing of one instruction where the next step fetches it. -/

namespace Sys2Proof.Machine

/-- One step: the next turn's instruction has its meaning, or nothing issues in it. -/
def step (s : State) : Host.Outcome State Fault Refusal :=
  match choose (nextTurn s).2 (nextTurn s).1 with
  | .ok (i, s) => exec i s
  | .error s => .next s

/-- The state with one instruction placed where the next step fetches it (log entry 11): bits above nbits are 0. -/
def State.withFetchWord (s : State) (nbits w : Nat) : State := placeWord s (w % 2 ^ nbits)

end Sys2Proof.Machine
end

