-- ==== Sys2Proof/Safety.lean ====
section
/-! DEFINITION. What counts as a safe run, and the terms in which the claims are stated: the canonical form of the
memories, who issues a word, and what a word leaves as it was. -/

namespace Sys2Proof.Machine

/-- The memories of the machine are in canonical form: HBM, host memory and the scratchpads. -/
def State.wf (s : State) : Bool := Memory.wf s.hbm && Memory.wf s.host && Memory.wf s.scratch

/-- A safe step: it answers a next state, and the memories stay canonical. -/
def SafeStep (s : State) : Prop := ∃ t, step s = .next t ∧ t.wf = true

/-! ## Who issues a word -/

/-- Team t, the current one, runs and stands at a word of its fetched clause c. -/
abbrev Issues (s : State) (t : Team) (c : Clause) : Prop :=
  s.team s.cur = some t ∧ t.status = .running ∧ t.clause = some c

/-- Stream x, the current one, is admitted and stands at a word of its fetched clause c, in workgroup w. -/
abbrev Streams (s : State) (x : Stream) (c : Clause) (w : Workgroup) : Prop :=
  s.stream s.curStream = some x ∧ x.clause = some c ∧ s.wg x.wg = some w ∧ x.admitted = true

/-! ## What a word leaves as it was -/

/-- Out answers a next state that is s but for the current team, which has become t', and for n free values drawn: every
byte of memory, every other team and every device register is as before. -/
def OnlyTeam (s : State) (n : Nat) (t' : Team) (out : Out) : Prop :=
  out = .next { s.putTeam s.cur t' with fresh := s.fresh + n }

/-- Where a team stands after a word of len slots that ends in no branch: at the next slot of its clause, or past the
clause (R55); a SWITCH bit parks it (R62). -/
def Past (t t' : Team) (c : Clause) (len : Nat) : Prop :=
  (t'.park = if c.switchAt t.slot then .switch t.nextWord else t.park) ∧
  if t.slot + len < c.count then t'.slot = t.slot + len ∧ t'.clause = t.clause ∧ t'.pc = t.pc ∧ t'.resume = t.resume
  else t'.slot = 0 ∧ t'.clause = none ∧ t'.resume = 0 ∧ t'.pc = c.addr + BitVec.ofNat 64 (4 * (c.count + 1))

/-- Where a team stands after a word that branches to a header. -/
def Branched (t t' : Team) (c : Clause) (a : DWord) : Prop :=
  (t'.park = if c.switchAt t.slot then .switch t.nextWord else t.park) ∧
  t'.slot = 0 ∧ t'.clause = none ∧ t'.resume = 0 ∧ t'.pc = a

/-- t' is t but for where it stands. -/
def SamePlaceApart (t t' : Team) : Prop :=
  t' = { t with park := t'.park, slot := t'.slot, clause := t'.clause, pc := t'.pc, resume := t'.resume }

/-- t' is t but for where it stands and for its registers. -/
def SameButRegs (t t' : Team) : Prop := SamePlaceApart { t with regs := t'.regs } t'

/-- Register d of every active lane holds what v says; every other register of every lane is as before. -/
def Wrote (t t' : Team) (d : Nat) (v : Nat → Word) : Prop :=
  (∀ l ∈ t.activeLanes, t'.reg d l = v l) ∧
  ∀ r l, (∀ j ∈ t.activeLanes, regKey r l ≠ regKey d j) → t'.reg r l = t.reg r l

/-- A per-lane word of len slots has its whole effect: register d of every active lane, and nothing else. -/
def LaneEffect (s : State) (t : Team) (c : Clause) (len : Nat) (d : Code) (v : Nat → Word) (out : Out) : Prop :=
  ∃ t', OnlyTeam s 1 t' out ∧ Past t t' c len ∧ SameButRegs t t' ∧ Wrote t t' d.toNat v

/-- A per-lane word of len slots has its whole effect, with a result in each active lane of which p holds. -/
def Gives (s : State) (t : Team) (c : Clause) (len : Nat) (d : Code) (out : Out) (p : Nat → Word → Prop) : Prop :=
  ∃ v, LaneEffect s t c len d v out ∧ ∀ l ∈ t.activeLanes, p l (v l)

/-- A per-lane word that writes a pair has its whole effect. (A lane 1,024 above an active one would share a register
with it; no team has one, R89.) -/
def PairEffect (s : State) (t : Team) (c : Clause) (n len : Nat) (d : Code) (v : Nat → DWord) (out : Out) : Prop :=
  ∃ t', OnlyTeam s n t' out ∧ Past t t' c len ∧ SameButRegs t t' ∧
    (∀ l ∈ t.activeLanes, t'.reg d.toNat l = (v l).extractLsb' 0 32) ∧
    (∀ l ∈ t.activeLanes, l + 1024 ∉ t.activeLanes → t'.reg (d.toNat + 1) l = (v l).extractLsb' 32 32) ∧
    ∀ r l, (∀ j ∈ t.activeLanes, regKey r l ≠ regKey d.toNat j ∧ regKey r l ≠ regKey (d.toNat + 1) j) →
      t'.reg r l = t.reg r l

/-- t' has the flags of t in FPSTAT and those that the lanes' results set (R226); the generators of the active lanes
have gone where the results say (R225), and no other has. -/
def Stepped (t t' : Team) (res : Nat → LaneResult) : Prop :=
  (∀ l ∈ t.activeLanes, t'.gen l = (res l).sr) ∧ (∀ l, l ∉ t.activeLanes → t'.gen l = t.gen l)

/-- A floating-point word of len slots has its whole effect: the register, the flags and the generators, and nothing
else. -/
def FpEffect (s : State) (t : Team) (c : Clause) (len : Nat) (d : Code) (res : Nat → LaneResult) (out : Out) : Prop :=
  ∃ t', OnlyTeam s 1 t' out ∧ Past t t' c len ∧
    SamePlaceApart { t with regs := t'.regs, sr := t'.sr, fpstat := t'.fpstat } t' ∧
    Wrote t t' d.toNat (fun l => (res l).val) ∧ Stepped t t' res ∧
    ∀ i, t'.fpstat.getLsbD i = (t.fpstat.getLsbD i || t.activeLanes.any fun l => (res l).flags.getLsbD i)

/-- A transcendental word of len slots has its whole effect: each active lane has its result outstanding without a slot,
with its flags, to land later (R63, R226, R378); no register and no flag has changed. -/
def XfnEffect (s : State) (t : Team) (c : Clause) (len : Nat) (d : Code) (res : Nat → LaneResult) (out : Out) : Prop :=
  ∃ t', OnlyTeam s 1 t' out ∧ Past { t with nextWord := t.nextWord + 1 } t' c len ∧
    SamePlaceApart { t with pend := t'.pend, nextWord := t.nextWord + 1, sr := t'.sr } t' ∧
    t'.pend = t.pend ++ t.activeLanes.map (fun l =>
      { id := t.nextWord, slot := none, acc := false, reg := d.toNat, lane := l, val := some (res l).val
        flags := (res l).flags }) ∧
    Stepped t t' res

/-- A word that changes where its team stands and nothing else, as a word of len slots that does not branch. -/
def Skips (s : State) (t : Team) (c : Clause) (n len : Nat) (out : Out) : Prop :=
  ∃ t', OnlyTeam s n t' out ∧ Past t t' c len ∧ SamePlaceApart t t'

/-- A word that branches to a header, and changes nothing else. -/
def Jumps (s : State) (t : Team) (c : Clause) (n : Nat) (a : DWord) (out : Out) : Prop :=
  ∃ t', OnlyTeam s n t' out ∧ Branched t t' c a ∧ SamePlaceApart t t'

/-- A word that takes the trap of a cause: the trap of R107 at its slot, for the reason TADDR gives. -/
def Traps (s : State) (t : Team) (c : Clause) (cause : Nat) (addr : DWord) (out : Out) : Prop :=
  out = .next (takeTrap s s.cur cause c.addr (t.slot + 1) addr false 0)

/-- What a word of team t reads from an operand in a lane, in state s (R63, R88). -/
abbrev reads (s : State) (t : Team) (a : Code) (l : Nat) : Word := src s.fresh t a l

/-- The memory side of a state: what a translation, a sealed tile and a refill may change (R147, R151, R154, R160, R168 to
R171, R178, R293). All else of s' is as in s. -/
def MemSide (s s' : State) : Prop :=
  s' = { s with hbm := s'.hbm, caddies := s'.caddies, openTiles := s'.openTiles, treeAlt := s'.treeAlt, flight := s'.flight
                dev := s'.dev, sealSeq := s'.sealSeq, sealFwd := s'.sealFwd, tlb1 := s'.tlb1, tlb2 := s'.tlb2
                fresh := s'.fresh }

/-- An outstanding result without the value that is to land. -/
def Pending.bare (x : Pending) : Pending := { x with val := none }

/-- t' is t but for its window, its stores on their way to memory, the loads that may be read again, and the values of the
results that are outstanding: the old value that a held ATOM has read (R346). -/
def SameButWindow (t t' : Team) : Prop :=
  t' = { t with frame := t'.frame, frameBad := t'.frameBad, refs := t'.refs, stores := t'.stores, loads := t'.loads
                pend := t'.pend } ∧
  t'.pend.map Pending.bare = t.pend.map Pending.bare

/-- Team u of s' is team u of s but for its window, its stores, its loads and the values that are to land. -/
def WindowSide (s s' : State) (u : Nat) : Prop :=
  match s.team u with
  | none => s'.team u = none
  | some t => ∃ t', s'.team u = some t' ∧ SameButWindow t t'

/-- Workgroup g of s' is workgroup g of s but for its shared memory. -/
def SharedSide (s s' : State) (g : Nat) : Prop :=
  match s.wg g with
  | none => s'.wg g = none
  | some w => ∃ w', s'.wg g = some w' ∧ w' = { w with shared := w'.shared, sharedBad := w'.sharedBad }

/-- What bringing held stores and ATOMs to memory may change: the scratchpads, the shared memories, the frame windows, the
stores that are held, the loads that may be read again, the values that are to land, and the count that stamps the stores.
All else of s' is as in s. -/
def StoreSide (s s' : State) : Prop :=
  s' = { s with scratch := s'.scratch, scratchBad := s'.scratchBad, teams := s'.teams, wgs := s'.wgs, nextUid := s'.nextUid } ∧
  (∀ u, WindowSide s s' u) ∧ ∀ g, SharedSide s s' g

end Sys2Proof.Machine
end

