-- ==== Sys2Proof/Certificates/Slice0/Obligations.lean ====
section
/-! DEFINITION. The statements about the machine, and the terms that several of them share. -/

namespace Sys2Proof.Claims
end Sys2Proof.Claims

open Sys2Proof Sys2Proof.Machine Sys2Proof.Claims

/-! ## The integer words (R388, R389, R393, R394) -/

/-- IADD, ISUB, IMUL, IMULH, IMAD and IABS, with the literal forms (R388, R394): the exact integer, modulo 2^32, in every
active lane; nothing else changes. -/
def Sys2Proof.Claims.IntegerArithmetic : Prop :=
  ∀ (s : State) (t : Team) (c : Clause) (d a b e : Code) (lit : Word), Issues s t c →
    LaneEffect s t c 1 d (fun l => BitVec.ofNat 32 ((reads s t a l).toNat + (reads s t b l).toNat)) (exec (.iadd d a b) s) ∧
    LaneEffect s t c 2 d (fun l => BitVec.ofNat 32 ((reads s t a l).toNat + lit.toNat)) (exec (.iaddLit d a lit) s) ∧
    LaneEffect s t c 1 d (fun l => BitVec.ofInt 32 ((reads s t a l).toInt - (reads s t b l).toInt)) (exec (.isub d a b) s) ∧
    LaneEffect s t c 2 d (fun l => BitVec.ofInt 32 ((reads s t a l).toInt - lit.toInt)) (exec (.isubLit d a lit) s) ∧
    LaneEffect s t c 1 d (fun l => BitVec.ofNat 32 ((reads s t a l).toNat * (reads s t b l).toNat)) (exec (.imul d a b) s) ∧
    LaneEffect s t c 2 d (fun l => BitVec.ofNat 32 ((reads s t a l).toNat * lit.toNat)) (exec (.imulLit d a lit) s) ∧
    LaneEffect s t c 1 d (fun l => BitVec.ofInt 32 ((reads s t a l).toInt * (reads s t b l).toInt / 2 ^ 32))
      (exec (.imulhS d a b) s) ∧
    LaneEffect s t c 1 d (fun l => BitVec.ofNat 32 ((reads s t a l).toNat * (reads s t b l).toNat / 2 ^ 32))
      (exec (.imulhU d a b) s) ∧
    LaneEffect s t c 2 d (fun l => BitVec.ofNat 32
      ((reads s t a l).toNat * (reads s t b l).toNat + (reads s t e l).toNat)) (exec (.imad d a b e) s) ∧
    LaneEffect s t c 1 d (fun l => BitVec.ofNat 32 (reads s t a l).toInt.natAbs) (exec (.iabs d a) s)

/-- IMIN and IMAX, signed and unsigned, with the literal forms (R388): the smaller or the larger operand by value. -/
def Sys2Proof.Claims.IntegerMinMax : Prop :=
  ∀ (s : State) (t : Team) (c : Clause) (d a b : Code) (lit : Word), Issues s t c →
    LaneEffect s t c 1 d (fun l => BitVec.ofInt 32 (min (reads s t a l).toInt (reads s t b l).toInt)) (exec (.iminS d a b) s) ∧
    LaneEffect s t c 2 d (fun l => BitVec.ofInt 32 (min (reads s t a l).toInt lit.toInt)) (exec (.iminSLit d a lit) s) ∧
    LaneEffect s t c 1 d (fun l => BitVec.ofInt 32 (max (reads s t a l).toInt (reads s t b l).toInt)) (exec (.imaxS d a b) s) ∧
    LaneEffect s t c 2 d (fun l => BitVec.ofInt 32 (max (reads s t a l).toInt lit.toInt)) (exec (.imaxSLit d a lit) s) ∧
    LaneEffect s t c 1 d (fun l => BitVec.ofNat 32 (min (reads s t a l).toNat (reads s t b l).toNat)) (exec (.iminU d a b) s) ∧
    LaneEffect s t c 2 d (fun l => BitVec.ofNat 32 (min (reads s t a l).toNat lit.toNat)) (exec (.iminULit d a lit) s) ∧
    LaneEffect s t c 1 d (fun l => BitVec.ofNat 32 (max (reads s t a l).toNat (reads s t b l).toNat)) (exec (.imaxU d a b) s) ∧
    LaneEffect s t c 2 d (fun l => BitVec.ofNat 32 (max (reads s t a l).toNat lit.toNat)) (exec (.imaxULit d a lit) s)

/-- The conditions of ICMP (R78, R393), as relations of two words: signed, and unsigned with a U. -/
def Sys2Proof.Claims.IntegerCondition : Cond → Word → Word → Prop
  | .eq, x, y => x = y
  | .ne, x, y => x ≠ y
  | .lt, x, y => x.toInt < y.toInt
  | .le, x, y => x.toInt ≤ y.toInt
  | .gt, x, y => y.toInt < x.toInt
  | .ge, x, y => y.toInt ≤ x.toInt
  | .ltu, x, y => x.toNat < y.toNat
  | .leu, x, y => x.toNat ≤ y.toNat
  | .gtu, x, y => y.toNat < x.toNat
  | .geu, x, y => y.toNat ≤ x.toNat
  | .ord, _, _ => False
  | .uno, _, _ => False

/-- ICMP (R78, R393): in every active lane 1 where the condition holds of the two operands, else 0. -/
def Sys2Proof.Claims.IntegerCompare : Prop :=
  ∀ (s : State) (t : Team) (c : Clause) (d a b : Code) (k : Cond), Issues s t c →
    Gives s t c 2 d (exec (.icmp d a b k) s) fun l v =>
      (v = 1 ∧ IntegerCondition k (reads s t a l) (reads s t b l)) ∨
      (v = 0 ∧ ¬ IntegerCondition k (reads s t a l) (reads s t b l))

/-- The integer words: arithmetic, minima and maxima, comparisons (R389, R393, R394). -/
def Obligations.IntegerWords : Prop := Sys2Proof.Claims.IntegerArithmetic ∧ Sys2Proof.Claims.IntegerMinMax ∧ Sys2Proof.Claims.IntegerCompare

/-! ## The logic and move words (R113, R343, R350, R355, R402, R414, R423, R429, R436, R437) -/

/-- AND, OR and XOR, with the literal forms, SEL, MOV and MOVI (R343, R414, R423, R437): the bits in every active lane,
and nothing else changes. -/
def Sys2Proof.Claims.LogicAndMove : Prop :=
  ∀ (s : State) (t : Team) (c : Clause) (d a b e : Code) (lit : Word) (imm : BitVec 16), Issues s t c →
    (Gives s t c 1 d (exec (.and d a b) s) fun l v => ∀ i, v.getLsbD i = ((reads s t a l).getLsbD i && (reads s t b l).getLsbD i)) ∧
    (Gives s t c 2 d (exec (.andLit d a lit) s) fun l v => ∀ i, v.getLsbD i = ((reads s t a l).getLsbD i && lit.getLsbD i)) ∧
    (Gives s t c 1 d (exec (.or d a b) s) fun l v => ∀ i, v.getLsbD i = ((reads s t a l).getLsbD i || (reads s t b l).getLsbD i)) ∧
    (Gives s t c 2 d (exec (.orLit d a lit) s) fun l v => ∀ i, v.getLsbD i = ((reads s t a l).getLsbD i || lit.getLsbD i)) ∧
    (Gives s t c 1 d (exec (.xor d a b) s) fun l v => ∀ i, v.getLsbD i = ((reads s t a l).getLsbD i ^^ (reads s t b l).getLsbD i)) ∧
    (Gives s t c 2 d (exec (.xorLit d a lit) s) fun l v => ∀ i, v.getLsbD i = ((reads s t a l).getLsbD i ^^ lit.getLsbD i)) ∧
    LaneEffect s t c 2 d (fun l => if reads s t e l ≠ 0 then reads s t a l else reads s t b l) (exec (.sel d a b e) s) ∧
    LaneEffect s t c 1 d (fun l => reads s t a l) (exec (.mov d a) s) ∧
    LaneEffect s t c 2 d (fun _ => lit) (exec (.movLit d lit) s) ∧
    LaneEffect s t c 1 d (fun _ => BitVec.ofNat 32 imm.toNat) (exec (.movi d imm) s)

/-- SHL, SHR and ROT (R436): only bits [7:0] of the count are read; a shift by 32 or more gives 0, or the sign for SHR.S;
and the rule's four words on its operands. -/
def Sys2Proof.Claims.Shifts : Prop :=
  (∀ (s : State) (t : Team) (c : Clause) (d a b : Code), Issues s t c →
    let n (l : Nat) : Nat := (reads s t b l).toNat % 2 ^ 8
    LaneEffect s t c 1 d (fun l => BitVec.ofNat 32 ((reads s t a l).toNat * 2 ^ n l)) (exec (.shl d a b) s) ∧
    LaneEffect s t c 1 d (fun l => BitVec.ofNat 32 ((reads s t a l).toNat / 2 ^ n l)) (exec (.shr d a b) s) ∧
    LaneEffect s t c 2 d (fun l => BitVec.ofNat 32 ((reads s t a l).toNat / 2 ^ n l)) (exec (.shrX d a b false) s) ∧
    LaneEffect s t c 2 d (fun l => BitVec.ofInt 32 ((reads s t a l).toInt / 2 ^ n l)) (exec (.shrX d a b true) s) ∧
    LaneEffect s t c 1 d (fun l => if 0 < n l % 32
      then (reads s t a l <<< (n l % 32)) ||| (reads s t a l >>> (32 - n l % 32)) else reads s t a l) (exec (.rot d a b) s)) ∧
  decodeTableWord 32 0x260504C4 = some (.shl 5 4 0xC4) ∧ decodeTableWord 32 0x280504C4 = some (.shr 5 4 0xC4) ∧
  decodeTableWord 64 0x00200000290504C4 = some (.shrX 5 4 0xC4 true) ∧ decodeTableWord 32 0x2A0504C4 = some (.rot 5 4 0xC4) ∧
  constant 0xC4 = 4 ∧
  shiftLeft 0x800000F0 4 = 0x00000F00 ∧ shiftRightU 0x800000F0 4 = 0x0800000F ∧
  shiftRightS 0x800000F0 4 = 0xF800000F ∧ rotate 0x800000F0 4 = 0x00000F08 ∧
  shiftLeft 0x800000F0 32 = 0 ∧ shiftRightU 0x800000F0 32 = 0 ∧ shiftRightS 0x800000F0 32 = 0xFFFFFFFF ∧
  rotate 0x800000F0 32 = 0x800000F0

/-- The shifts and rotations. -/
def Obligations.ShiftsAndRotations : Prop := Sys2Proof.Claims.Shifts

/-- BFX and BFI (R350): the field of the position and the width, of which only bits [7:0] are read; a field that would
run past bit 31 is cut there; and the rule's two words on their operands. -/
def Obligations.BitFields : Prop :=
  (∀ (s : State) (t : Team) (c : Clause) (d a b e : Code), Issues s t c →
    let p (l : Nat) : Nat := (reads s t b l).toNat % 2 ^ 8
    let n (l : Nat) : Nat := (reads s t e l).toNat % 2 ^ 8
    let k (l : Nat) : Nat := min (n l) (32 - p l)
    let f (l : Nat) : Nat := (reads s t a l).toNat / 2 ^ p l % 2 ^ k l
    LaneEffect s t c 2 d (fun l => if 32 ≤ p l ∨ n l = 0 then 0 else BitVec.ofNat 32 (f l)) (exec (.bfx d a b false e) s) ∧
    LaneEffect s t c 2 d (fun l => if 32 ≤ p l ∨ n l = 0 then 0
      else if f l < 2 ^ (k l - 1) then BitVec.ofNat 32 (f l) else BitVec.ofInt 32 (f l - 2 ^ k l)) (exec (.bfx d a b true e) s) ∧
    (Gives s t c 2 d (exec (.bfi d a b e) s) fun l v => ∀ i < 32, v.getLsbD i =
      if p l ≤ i ∧ i < p l + k l then (reads s t a l).getLsbD (i - p l) else (reads s t d l).getLsbD i)) ∧
  decodeTableWord 64 0x002000C42D0504C8 = some (.bfx 5 4 0xC8 true 0xC4) ∧
  decodeTableWord 64 0x000000C42F0506C8 = some (.bfi 5 6 0xC8 0xC4) ∧ constant 0xC8 = 8 ∧ constant 0xC4 = 4 ∧
  extractField true 0x00000A00 8 4 = 0xFFFFFFFA ∧ insertField 0x12345678 0x000000AB 8 4 = 0x12345B78

/-- POPC, CLZ and BREV (R355, R429): the count of set bits, the count of zero bits above the highest set bit, and the
bits in reverse; B must be 0x00. -/
def Sys2Proof.Claims.BitCounts : Prop :=
  (∀ (s : State) (t : Team) (c : Clause) (d a : Code), Issues s t c →
    LaneEffect s t c 1 d (fun l => BitVec.ofNat 32 (((List.range 32).filter fun i => (reads s t a l).getLsbD i).length))
      (exec (.popc d a) s) ∧
    LaneEffect s t c 1 d (fun l => if reads s t a l = 0 then 32 else BitVec.ofNat 32 (31 - Nat.log2 (reads s t a l).toNat))
      (exec (.clz d a) s) ∧
    (Gives s t c 1 d (exec (.brev d a) s) fun l v => ∀ i < 32, v.getLsbD i = (reads s t a l).getLsbD (31 - i))) ∧
  decodeTableWord 32 0x30050400 = some (.popc 5 4) ∧ decodeTableWord 32 0x32050400 = some (.clz 5 4) ∧
  decodeTableWord 32 0x34050400 = some (.brev 5 4)

/-- LEA (R402): the pair plus the index times a power of two, modulo 2^64; both halves are read before either is
written. -/
def Sys2Proof.Claims.LoadEffectiveAddress : Prop :=
  ∀ (s : State) (t : Team) (c : Clause) (d a b : Code) (n : BitVec 3), Issues s t c →
    let base (l : Nat) : Nat := (pair s.fresh t a l).toNat
    PairEffect s t c 1 1 d (fun l => BitVec.ofInt 64 (base l + (reads s t b l).toInt)) (exec (.lea d a b) s) ∧
    PairEffect s t c 1 2 d (fun l => BitVec.ofInt 64 (base l + (reads s t b l).toInt * 2 ^ n.toNat))
      (exec (.leaX d a b .signed n) s) ∧
    PairEffect s t c 1 2 d (fun l => BitVec.ofNat 64 (base l + (reads s t b l).toNat * 2 ^ n.toNat))
      (exec (.leaX d a b .unsigned n) s)

/-- MOVX and MOVXW (R113): a register that a lane's own index names; an index at or beyond G in an active lane raises
REG_RANGE, and nothing is written. (Two active lanes 1,024 apart would share a register; no team has them, R89.) -/
def Sys2Proof.Claims.IndexedMoves : Prop :=
  ∀ (s : State) (t : Team) (c : Clause) (d a b : Code), Issues s t c →
    let ix (l : Nat) : Nat := (reads s t a l).toNat
    ((∃ l ∈ t.activeLanes, t.nregs ≤ ix l) →
      Traps s t c 3 0 (exec (.movx d a) s) ∧ Traps s t c 3 0 (exec (.movxw a b) s)) ∧
    ((∀ l ∈ t.activeLanes, ix l < t.nregs) →
      LaneEffect s t c 1 d (fun l => readReg s.fresh t (ix l) l) (exec (.movx d a) s) ∧
      ∃ t', OnlyTeam s 1 t' (exec (.movxw a b) s) ∧ Past t t' c 1 ∧ SameButRegs t t' ∧
        (∀ l ∈ t.activeLanes, (∀ j ∈ t.activeLanes, j ≠ l → regKey (ix l) l ≠ regKey (ix j) j) →
          t'.reg (ix l) l = reads s t b l) ∧
        ∀ r l, (∀ j ∈ t.activeLanes, regKey r l ≠ regKey (ix j) j) → t'.reg r l = t.reg r l)

/-- The logic and move words, the bit counts, LEA, and the indexed moves. -/
def Obligations.LogicAndBits : Prop := Sys2Proof.Claims.LogicAndMove ∧ Sys2Proof.Claims.BitCounts ∧ Sys2Proof.Claims.LoadEffectiveAddress ∧ Sys2Proof.Claims.IndexedMoves

/-! ## The floating-point words (R224 to R229, R366, R373 to R384, R424 to R427, R450, R451) -/

/-- FADD, FSUB, FMUL and FFMA (R374, R382): the exact result of the sources, each after ABS and then NEG, rounded once;
its flags join FPSTAT; the generators step under SR. FFMA's product, finite or infinite, with an infinity of the other sign
is a NaN with NV (R382; log entry 67). -/
def Sys2Proof.Claims.FloatArithmetic : Prop :=
  ∀ (s : State) (t : Team) (c : Clause) (d a b e : Code) (m : Mods) (rm : Rm), Issues s t c →
    let x (k : Mods) (l : Nat) : FV := val32 (modA k (reads s t a l))
    let y (k : Mods) (l : Nat) : FV := val32 (modB k (reads s t b l))
    let z (k : Mods) (l : Nat) : FV := val32 (modC k (reads s t e l))
    FpEffect s t c 1 d (fun l => roundLane fp32 .rne ((x noMods l).add .rne (y noMods l)) (t.gen l)) (exec (.fadd d a b) s) ∧
    FpEffect s t c 2 d (fun l => roundLane fp32 rm ((x m l).add rm (y m l)) (t.gen l)) (exec (.faddX d a b m rm) s) ∧
    FpEffect s t c 1 d (fun l => roundLane fp32 .rne ((x noMods l).add .rne (y noMods l).neg) (t.gen l)) (exec (.fsub d a b) s) ∧
    FpEffect s t c 2 d (fun l => roundLane fp32 rm ((x m l).add rm (y m l).neg) (t.gen l)) (exec (.fsubX d a b m rm) s) ∧
    FpEffect s t c 1 d (fun l => roundLane fp32 .rne ((x noMods l).mul (y noMods l)) (t.gen l)) (exec (.fmul d a b) s) ∧
    FpEffect s t c 2 d (fun l => roundLane fp32 rm ((x m l).mul (y m l)) (t.gen l)) (exec (.fmulX d a b m rm) s) ∧
    FpEffect s t c 2 d (fun l => roundLane fp32 rm (FV.ffma rm (x m l) (y m l) (z m l)) (t.gen l)) (exec (.ffma d a b m rm e) s) ∧
    ∀ (u v w : FV) (neg : Bool),
      ((∃ j k, (u.mul v).1 = .fin (!neg) j k) ∨ (u.mul v).1 = .inf (!neg) → FV.ffma rm u v (.inf neg) = (.nan, 1)) ∧
      ((u.mul v).2 ≠ 0 → FV.ffma rm u v w = (.nan, (u.mul v).2)) ∧
      ((∀ i, w ≠ .inf i) → (u.mul v).2 = 0 → FV.ffma rm u v w = (u.mul v).1.add rm w)

/-- What FMIN and FMAX choose (R227, R374): one of the two patterns, the other one where one is a NaN, the canonical NaN
where both are, and otherwise one that the other does not come before, or that comes before no other, where -0 counts as
less than +0. -/
def Sys2Proof.Claims.Chosen (wantMax : Bool) (p q v : Word) : Prop :=
  match val32 p, val32 q with
  | .nan, .nan => v = 0x7FC00000
  | .nan, _ => v = q
  | _, .nan => v = p
  | x, y => (v = p ∨ v = q) ∧ (x.before y → v = if wantMax then q else p) ∧ (y.before x → v = if wantMax then p else q)

/-- FMIN, FMAX and FCMP (R374, R376): a choice of one operand or the canonical NaN, and a comparison in which -0 equals
+0 and a NaN compares as unordered; neither sets a flag. -/
def Sys2Proof.Claims.FloatSelection : Prop :=
  ∀ (s : State) (t : Team) (c : Clause) (d a b : Code) (m : Mods) (k : Cond), Issues s t c →
    let x (k : Mods) (l : Nat) : Word := modA k (reads s t a l)
    let y (k : Mods) (l : Nat) : Word := modB k (reads s t b l)
    (Gives s t c 1 d (exec (.fmin d a b) s) fun l v => Chosen false (x noMods l) (y noMods l) v) ∧
    (Gives s t c 2 d (exec (.fminX d a b m) s) fun l v => Chosen false (x m l) (y m l) v) ∧
    (Gives s t c 1 d (exec (.fmax d a b) s) fun l v => Chosen true (x noMods l) (y noMods l) v) ∧
    (Gives s t c 2 d (exec (.fmaxX d a b m) s) fun l v => Chosen true (x m l) (y m l) v) ∧
    (Gives s t c 2 d (exec (.fcmp d a b k m) s) fun l v =>
      v = if fpCond k ((val32 (x m l)).cmp (val32 (y m l))) then 1 else 0) ∧
    ∀ o : Option Ordering,
      (fpCond .uno o = true ↔ o = none) ∧ (fpCond .ord o = true ↔ o ≠ none) ∧ (fpCond .eq o = true ↔ o = some .eq) ∧
      (fpCond .lt o = true ↔ o = some .lt) ∧ (fpCond .gt o = true ↔ o = some .gt) ∧
      (fpCond .ne o = !fpCond .eq o) ∧ (fpCond .geu o = !fpCond .lt o) ∧ (fpCond .leu o = !fpCond .gt o) ∧
      (fpCond .ltu o = !fpCond .ge o) ∧ (fpCond .gtu o = !fpCond .le o)

/-- The transcendental words (R228, R377, R378, R381): each active lane has its result outstanding, without a slot; FRCP
and FSQRT round once in the chosen mode, and the others ignore it and step no generator. (Which of the two neighbours a
faithful result is, and FSIN's and FCOS's value within their bounds, are free: log entry 13.) -/
def Sys2Proof.Claims.Transcendental : Prop :=
  ∀ (s : State) (t : Team) (c : Clause) (d a : Code) (m : Mods) (rm : Rm), Issues s t c →
    let x (k : Mods) (l : Nat) : Word := modA k (reads s t a l)
    let once (r : Rm) (f : FV → FV × BitVec 5) (k : Mods) (l : Nat) : LaneResult := roundLane fp32 r (f (val32 (x k l))) (t.gen l)
    let near (f : Word → FV → Word × BitVec 5) (k : Mods) (l : Nat) : LaneResult :=
      { val := (f (x k l) (val32 (x k l))).1, flags := (f (x k l) (val32 (x k l))).2, sr := t.gen l }
    XfnEffect s t c 1 d (once .rne frcpOf noMods) (exec (.frcp d a) s) ∧
    XfnEffect s t c 2 d (once rm frcpOf m) (exec (.frcpX d a m rm) s) ∧
    XfnEffect s t c 1 d (once .rne fsqrtOf noMods) (exec (.fsqrt d a) s) ∧
    XfnEffect s t c 2 d (once rm fsqrtOf m) (exec (.fsqrtX d a m rm) s) ∧
    XfnEffect s t c 1 d (near frsqOf noMods) (exec (.frsq d a) s) ∧
    XfnEffect s t c 2 d (near frsqOf m) (exec (.frsqX d a m rm) s) ∧
    XfnEffect s t c 1 d (near fexp2Of noMods) (exec (.fexp2 d a) s) ∧
    XfnEffect s t c 2 d (near fexp2Of m) (exec (.fexp2X d a m rm) s) ∧
    XfnEffect s t c 1 d (near flog2Of noMods) (exec (.flog2 d a) s) ∧
    XfnEffect s t c 2 d (near flog2Of m) (exec (.flog2X d a m rm) s) ∧
    XfnEffect s t c 1 d (near (trigOf false) noMods) (exec (.fsin d a) s) ∧
    XfnEffect s t c 2 d (near (trigOf false) m) (exec (.fsinX d a m rm) s) ∧
    XfnEffect s t c 1 d (near (trigOf true) noMods) (exec (.fcos d a) s) ∧
    XfnEffect s t c 2 d (near (trigOf true) m) (exec (.fcosX d a m rm) s)

/-- The result of a packed word in a lane (R427): element 0 first, then element 1, each rounded once, with one generator
between them. -/
def Sys2Proof.Claims.packedResult (f : FFmt) (rm : Rm) (op : Nat → FV × BitVec 5) (sr : Word) : LaneResult :=
  let r0 := roundLane f rm (op 0) sr
  let r1 := roundLane f rm (op 1) r0.sr
  { val := BitVec.ofNat 32 (r0.val.toNat + r1.val.toNat * 2 ^ 16), flags := r0.flags ||| r1.flags, sr := r1.sr }

/-- PADD, PMUL and PFMA (R426, R427): both elements of each source, each after ABS and then NEG on its own sign bit. -/
def Sys2Proof.Claims.Packed : Prop :=
  ∀ (s : State) (t : Team) (c : Clause) (d a b e : Code) (pf : PFmt) (m : Mods) (rm : Rm), Issues s t c →
    let el (f : FFmt) (absolute negate : Bool) (r : Code) (l i : Nat) : FV :=
      f.val (modSign 16 absolute negate ((reads s t r l).toNat / 2 ^ (16 * i) % 2 ^ 16))
    let g : FFmt := if pf = .bf16 then bf16 else fp16
    FpEffect s t c 1 d (fun l => packedResult fp16 .rne (fun i =>
      (el fp16 false false a l i).add .rne (el fp16 false false b l i)) (t.gen l)) (exec (.padd d a b) s) ∧
    FpEffect s t c 2 d (fun l => packedResult g rm (fun i =>
      (el g m.absA m.negA a l i).add rm (el g m.absB m.negB b l i)) (t.gen l)) (exec (.paddX d a b pf m rm) s) ∧
    FpEffect s t c 1 d (fun l => packedResult fp16 .rne (fun i =>
      (el fp16 false false a l i).mul (el fp16 false false b l i)) (t.gen l)) (exec (.pmul d a b) s) ∧
    FpEffect s t c 2 d (fun l => packedResult g rm (fun i =>
      (el g m.absA m.negA a l i).mul (el g m.absB m.negB b l i)) (t.gen l)) (exec (.pmulX d a b pf m rm) s) ∧
    FpEffect s t c 2 d (fun l => packedResult g rm (fun i =>
      FV.fma rm (el g m.absA m.negA a l i) (el g m.absB m.negB b l i) (el g m.absC m.negC e l i)) (t.gen l))
      (exec (.pfma d a b pf m rm e) s)

/-- The floating-point words: arithmetic, selection, the transcendental words, and the packed words. -/
def Obligations.FloatWords : Prop := Sys2Proof.Claims.FloatArithmetic ∧ Sys2Proof.Claims.FloatSelection ∧ Sys2Proof.Claims.Transcendental ∧ Sys2Proof.Claims.Packed

/-- PACK8, UNPACK and CVT (R229, R365, R425, R451): each value rounded once or widened exactly; a format register that
holds an invalid word raises FORMAT_INVALID and nothing is written, as do the two combinations that CVT can judge only at
issue. CVT's modifiers act on the sign bit of the source's pattern: a format without one is left as it is (log entry 34). -/
def Sys2Proof.Claims.FormatConversions : Prop :=
  ∀ (s : State) (t : Team) (c : Clause) (d a b : Code) (fs fd : Fmt) (sat : Bool) (m : Mods) (rm : Rm), Issues s t c →
    (t.format fd = none → Traps s t c 0x16 0 (exec (.pack8 d a fd rm) s)) ∧
    (∀ f, t.format fd = some f →
      FpEffect s t c 2 d (fun l => packLane f rm (fun i => readReg s.fresh t (a.toNat + i) l) (t.gen l)) (exec (.pack8 d a fd rm) s)) ∧
    (t.format fs = none → Traps s t c 0x16 0 (exec (.unpack d a b fs) s)) ∧
    (∀ f, t.format fs = some f →
      LaneEffect s t c 2 d (fun l =>
        let i := (reads s t b l).toNat
        let p := if f.w = 16 then (reads s t a l).toNat / 2 ^ (16 * (i % 2)) % 2 ^ 16
          else (reads s t a l).toNat / 2 ^ (8 * (i % 4)) % 2 ^ 8
        BitVec.ofNat 32 (fp32.round .rne false (f.val p) 0).val) (exec (.unpack d a b fs) s)) ∧
    (t.format fs = none ∨ t.format fd = none → Traps s t c 0x16 0 (exec (.cvt d a fs fd sat m rm) s)) ∧
    ∀ ff ft, t.format fs = some ff → t.format fd = some ft →
      ((sat = true ∧ ft.e ≠ 0) ∨ (ff.e = 0 ∧ (m.negA = true ∨ m.absA = true)) →
        Traps s t c 0x16 0 (exec (.cvt d a fs fd sat m rm) s)) ∧
      (¬ ((sat = true ∧ ft.e ≠ 0) ∨ (ff.e = 0 ∧ (m.negA = true ∨ m.absA = true))) →
        FpEffect s t c 2 d (fun l =>
          let x := ff.val (reads s t a l).toNat
          let x := if m.absA = true ∧ ff.signed = true then x.abs else x
          let r := ft.round rm sat (if m.negA = true ∧ ff.signed = true then x.neg else x) (t.gen l)
          { val := BitVec.ofNat 32 r.val, flags := r.flags, sr := r.sr }) (exec (.cvt d a fs fd sat m rm) s))

/-- FMTSET and FMTGET (R122, R384): the checks in order, and the one format register. -/
def Sys2Proof.Claims.FormatRegisters : Prop :=
  ∀ (s : State) (t : Team) (c : Clause) (d a : Code) (n : BitVec 3), Issues s t c →
    LaneEffect s t c 1 d (fun _ => t.fmtReg n.toNat) (exec (.fmtget d n) s) ∧
    (t.lowest = none → Skips s t c 0 1 (exec (.fmtset n a) s)) ∧
    ∀ l0, t.lowest = some l0 →
      let uniform := t.activeLanes.length = t.lanes ∧ ∀ l ∈ t.activeLanes, reads s t a l = reads s t a l0
      (¬ uniform → Traps s t c 4 0 (exec (.fmtset n a) s)) ∧
      (uniform → formatOf (reads s t a l0) = none → Traps s t c 0x16 0 (exec (.fmtset n a) s)) ∧
      (uniform → formatOf (reads s t a l0) ≠ none →
        ∃ t', OnlyTeam s 1 t' (exec (.fmtset n a) s) ∧ Past t t' c 1 ∧ SamePlaceApart { t with fmt := t'.fmt } t' ∧
          t'.fmtReg n.toNat = reads s t a l0 ∧ ∀ k, k ≠ n.toNat → t'.fmtReg k = t.fmtReg k)

/-- The format words: conversions and the format registers. -/
def Obligations.FormatWords : Prop := Sys2Proof.Claims.FormatConversions ∧ Sys2Proof.Claims.FormatRegisters

/-! ## The lane operations (R128, R348, R431) -/

/-- What the reduction of values is (R431): the sum modulo 2^32, a least or greatest value among them, or a bit-wise
AND, OR or XOR. -/
def Sys2Proof.Claims.Reduced (op : ReduxOp) (l : List Word) (v : Word) : Prop :=
  match op with
  | .add => v = BitVec.ofNat 32 (l.map BitVec.toNat).sum
  | .minS => v ∈ l ∧ ∀ x ∈ l, v.toInt ≤ x.toInt
  | .maxS => v ∈ l ∧ ∀ x ∈ l, x.toInt ≤ v.toInt
  | .minU => v ∈ l ∧ ∀ x ∈ l, v.toNat ≤ x.toNat
  | .maxU => v ∈ l ∧ ∀ x ∈ l, x.toNat ≤ v.toNat
  | .and => ∀ i < 32, v.getLsbD i = l.all fun x => x.getLsbD i
  | .or => ∀ i < 32, v.getLsbD i = l.any fun x => x.getLsbD i
  | .xor => ∀ i < 32, v.getLsbD i = decide ((l.filter fun x => x.getLsbD i).length % 2 = 1)

/-- SHFL, VOTE, REDUX and BCAST (R128, R348, R431): each source is read in its lane, active or not, as it stood before
the word; a lane of SHFL or BCAST whose source lane lies outside the team keeps its own. -/
def Obligations.LaneOperations : Prop :=
  ∀ (s : State) (t : Team) (c : Clause) (d a b : Code) (op : ReduxOp), Issues s t c →
    let n (l : Nat) : Nat := (reads s t b l).toNat
    let A := t.activeLanes
    LaneEffect s t c 2 d (fun l => if n l < t.lanes then reads s t a (n l) else reads s t a l) (exec (.shfl d a b .idx) s) ∧
    LaneEffect s t c 2 d (fun l => if n l ≤ l then reads s t a (l - n l) else reads s t a l) (exec (.shfl d a b .up) s) ∧
    LaneEffect s t c 2 d (fun l => if l + n l < t.lanes then reads s t a (l + n l) else reads s t a l)
      (exec (.shfl d a b .down) s) ∧
    LaneEffect s t c 2 d (fun l => if Nat.xor l (n l) < t.lanes then reads s t a (Nat.xor l (n l)) else reads s t a l)
      (exec (.shfl d a b .xor) s) ∧
    LaneEffect s t c 2 d (fun _ => if ∃ k ∈ A, reads s t a k ≠ 0 then 1 else 0) (exec (.vote d a b .any) s) ∧
    LaneEffect s t c 2 d (fun _ => if ∀ k ∈ A, reads s t a k ≠ 0 then 1 else 0) (exec (.vote d a b .all) s) ∧
    LaneEffect s t c 2 d (fun _ => if ∀ k ∈ A, ∀ j ∈ A, reads s t a k = reads s t a j then 1 else 0)
      (exec (.vote d a b .uni) s) ∧
    (Gives s t c 2 d (exec (.vote d a b .ballot) s) fun l v => ∀ j < 32,
      v.getLsbD j = decide (32 * n l + j ∈ A ∧ reads s t a (32 * n l + j) ≠ 0)) ∧
    (Gives s t c 2 d (exec (.redux d a op) s) fun _ v => Reduced op (A.map (reads s t a)) v) ∧
    (t.lowest = none → Skips s t c 1 1 (exec (.bcast d a b) s)) ∧
    ∀ l0, t.lowest = some l0 → LaneEffect s t c 1 d (fun l => if n l0 < t.lanes then reads s t a (n l0) else reads s t a l)
      (exec (.bcast d a b) s)

/-! ## The control words (R123 to R127, R353 to R357, R367 to R372, R396, R403, R422, R428) -/

/-- A structured-control word that sets the counters and the broken flags of the lanes below LANES and leaves the team
where `place` says, n free values drawn; nothing else changes (R123, R124). -/
def Sys2Proof.Claims.Nests (s : State) (t : Team) (n : Nat) (place : Team → Prop) (out : Out) (d : Nat → Nat) (b : Nat → Bool) : Prop :=
  ∃ t', OnlyTeam s n t' out ∧ place t' ∧ SamePlaceApart { t with d := t'.d, b := t'.b } t' ∧
    (∀ l < t.lanes, t'.depth l = d l ∧ t'.broken l = b l) ∧
    ∀ l, t.lanes ≤ l → t'.depth l = t.depth l ∧ t'.broken l = t.broken l

/-- IF, ELSE, ENDIF, LOOP, BREAK, CONT and ENDLOOP (R124), whatever the active mask; at the deepest level IF and LOOP
raise NESTING_OVERFLOW. (BREAK and CONT are ill formed with n = 127, R354.) -/
def Sys2Proof.Claims.StructuredControl : Prop :=
  ∀ (s : State) (t : Team) (c : Clause) (a : Code) (n : BitVec 7) (off : BitVec 22), Issues s t c → n.toNat < 127 →
    let on (l : Nat) : Prop := t.depth l = 0 ∧ reads s t a l ≠ 0
    ((∃ l < t.lanes, t.depth l = 127) → Traps s t c 0x15 0 (exec (.ifL a) s) ∧ Traps s t c 0x15 0 (exec .loopL s)) ∧
    ((∀ l < t.lanes, t.depth l ≠ 127) →
      Nests s t 1 (Past t · c 1) (exec (.ifL a) s)
        (fun l => if 0 < t.depth l then t.depth l + 1 else if reads s t a l = 0 then 1 else 0) t.broken ∧
      Nests s t 0 (Past t · c 1) (exec .loopL s) (fun l => if 0 < t.depth l then t.depth l + 1 else 0) t.broken) ∧
    Nests s t 0 (Past t · c 1) (exec .elseL s)
      (fun l => if t.depth l = 0 then 1 else if t.depth l = 1 then 0 else t.depth l) t.broken ∧
    Nests s t 0 (Past t · c 1) (exec .endifL s) (fun l => t.depth l - 1) t.broken ∧
    Nests s t 1 (Past t · c 1) (exec (.breakL a n) s)
      (fun l => if on l then n.toNat + 1 else t.depth l) (fun l => decide (on l) || t.broken l) ∧
    Nests s t 1 (Past t · c 1) (exec (.contL a n) s) (fun l => if on l then n.toNat + 1 else t.depth l) t.broken ∧
    let back (l : Nat) : Prop := t.depth l = 0 ∨ (t.depth l = 1 ∧ t.broken l = false)
    ((∃ l < t.lanes, back l) → Nests s t 0 (Branched t · c (c.target off)) (exec (.endloop off) s)
      (fun l => if t.depth l = 1 ∧ t.broken l = false then 0 else t.depth l) t.broken) ∧
    ((∀ l < t.lanes, ¬ back l) → Nests s t 0 (Past t · c 1) (exec (.endloop off) s)
      (fun l => t.depth l - 1) (fun l => t.broken l && t.depth l != 1))

/-- BRA, BRV, JMPI, NOP and PAUSE (R126, R127, R258, R353, R357, R396, R422, R428): a team-level word with no active
lane is skipped whole; JMPI to an address that is no multiple of 4 raises MISALIGNED. -/
def Sys2Proof.Claims.Branches : Prop :=
  ∀ (s : State) (t : Team) (c : Clause) (a : Code) (off off2 : BitVec 22) (imm : BitVec 16), Issues s t c →
    Skips s t c 0 1 (exec .nop s) ∧
    (t.lowest = none → Skips s t c 0 1 (exec (.bra off) s) ∧ Skips s t c 0 2 (exec (.brv off a off2) s) ∧
      Skips s t c 0 1 (exec (.jmpi a) s) ∧ Skips s t c 0 1 (exec (.pause imm) s)) ∧
    ∀ l0, t.lowest = some l0 →
      Jumps s t c 0 (c.target off) (exec (.bra off) s) ∧
      ((∀ l ∈ t.activeLanes, reads s t a l ≠ 0) → Jumps s t c 1 (c.target off) (exec (.brv off a off2) s)) ∧
      ((∀ l ∈ t.activeLanes, reads s t a l = 0) → Jumps s t c 1 c.follow (exec (.brv off a off2) s)) ∧
      ((∃ l ∈ t.activeLanes, reads s t a l = 0) → (∃ l ∈ t.activeLanes, reads s t a l ≠ 0) →
        Jumps s t c 1 (c.target off2) (exec (.brv off a off2) s)) ∧
      (let v := pair s.fresh t a l0
       (v.toNat % 4 = 0 → Jumps s t c 1 v (exec (.jmpi a) s)) ∧
       (v.toNat % 4 ≠ 0 → Traps s.bump t c 5 v (exec (.jmpi a) s))) ∧
      ∃ t', OnlyTeam s 0 t' (exec (.pause imm) s) ∧ Past t t' c 1 ∧ SamePlaceApart { t with pauseEnd := t'.pauseEnd } t' ∧
        t'.pauseEnd = clockTenths s (teamCore s t / 4) + 10 * imm.toNat

/-- The structured-control words and the branches, with NOP and PAUSE. -/
def Obligations.ControlFlow : Prop := Sys2Proof.Claims.StructuredControl ∧ Sys2Proof.Claims.Branches

/-! ## Frames (R130 to R134, R353, R405, R433) -/

/-- Bytes [o, o + l.length) of the window of t' hold l, and every other byte is as in the window of t. -/
def Sys2Proof.Claims.Window (t t' : Team) (o : Nat) (l : List Byte) : Prop :=
  (∀ i < l.length, Memory.get t'.frame (o + i) = (l[i]?).getD 0) ∧
  ∀ j, j < o ∨ o + l.length ≤ j → Memory.get t'.frame j = Memory.get t.frame j

/-- t' is t but for where it stands, its frame window, FB, FSP and the mark-chain head. -/
def Sys2Proof.Claims.FrameOnly (t t' : Team) : Prop :=
  SamePlaceApart { t with frame := t'.frame, frameBad := t'.frameBad, refs := t'.refs, fb := t'.fb, fsp := t'.fsp
                          head := t'.head } t'

/-- The reference bits of the n words from word w of the window of t' are as p says, and the others are as in t. -/
def Sys2Proof.Claims.RefBits (t t' : Team) (w n : Nat) (p : Nat → Bool) : Prop :=
  ∀ i, fget falseAt t'.refs i = if w ≤ i ∧ i < w + n then p (i - w) else fget falseAt t.refs i

/-- Where a word would have state leave local memory under a key that is not VALID (R167, R309), it raises PERMISSION at
the first byte that it would have written, and writes nothing; else it does what `done` says of the state after that check. -/
def Sys2Proof.Claims.Spills (s s1 : State) (t t' : Team) (c : Clause) (va : DWord) (out : Out) (done : State → Prop) : Prop :=
  let sp := spillRefused s1 t t'
  MemSide s sp.2 ∧ (sp.1 = true → Traps sp.2 t c 7 va out) ∧ (sp.1 = false → done sp.2)

/-- CALL (R127, R132, R133, R353): the frame of the return address and FB at FSP, whatever the partial mask; a frame past
the window raises FRAME_OVERFLOW, and a failed access traps; both change nothing of the team. What the team has issued to
its window is performed first (R353). It completes wherever the 16 bytes pass the checks of an access (R157) and the
frames that leave local memory, if any, have a valid key. -/
def Sys2Proof.Claims.Call : Prop :=
  ∀ (s : State) (t : Team) (c : Clause) (off : BitVec 22), Issues s t c →
    let out := exec (.call off) s
    (t.lowest = none → Skips s t c 0 1 out) ∧
    ∀ l0, t.lowest = some l0 →
      (t.limit < t.fsp.toNat + 16 → Traps s t c 0x14 0 out) ∧
      (t.fsp.toNat + 16 ≤ t.limit →
        let t2 : Team := { t with fsp := t.fsp + 16 }
        let met := rangeAccess s s.cur t2 true t.fsp.toNat 16
        (∀ cause b, met.1 = .error (cause, b) → MemSide s met.2 ∧ out = accessTrap met.2 t c cause b) ∧
        ∀ xs, met.1 = .ok xs → (∀ x ∈ xs, x.typ = 4) →
          Spills s met.2 t t2 c t.fsp out fun s1 =>
            let s2 := drainFrame s1 s.cur true xs
            StoreSide s1 s2 ∧ ∃ t1 t', s2.team s.cur = some t1 ∧ SameButWindow t t1 ∧ out = .next (spillCheck (s2.putTeam s.cur t') s.cur) ∧
              Branched t1 t' c (c.target off) ∧ FrameOnly t1 t' ∧
              t'.fb = t.fsp ∧ t'.fsp = t.fsp + 16 ∧ t'.head = t.head ∧
              Window t1 t' (t.fsp.toNat - t.base) (toBytes 8 c.follow.toNat ++ toBytes 8 t.fb.toNat) ∧
              (t.fsp.toNat % 16 = 0 → RefBits t1 t' ((t.fsp.toNat - t.base) / 8) 2 fun i => i == 1))

/-- The marks of t that do not lie wholly below the new FSP are unlinked (R134): the head moves along PREV to the first that
does, or until it is 0; a chain longer than the window can hold ends at 0 too, the model's choice (log entry 36). -/
def Sys2Proof.Claims.Unlinked (t t' : Team) : Prop :=
  let mark (n : Nat) : Nat := (fun m => t.frameNum (m + 24) 8)^[n] t.head.toNat
  (t'.head ≠ 0 → ∃ n, t'.head.toNat = mark n ∧ mark n + t.markSize ≤ t'.fsp.toNat ∧
    ∀ j < n, mark j ≠ 0 ∧ t'.fsp.toNat < mark j + t.markSize) ∧
  (t'.head = 0 → ∀ n < t.chainBound, (∀ j ≤ n, mark j ≠ 0) → t'.fsp.toNat < mark n + t.markSize)

/-- RET (R127, R132, R134, R433): back to the return address and the saved FB of the frame at FB; every mark that does not
lie wholly below the new FSP is unlinked; a frame that is not wholly below FSP raises FRAME_STALE. It completes wherever the frame's 16 bytes pass the
checks of an access (R157). -/
def Sys2Proof.Claims.Return : Prop :=
  ∀ (s : State) (t : Team) (c : Clause), Issues s t c →
    let out := exec .ret s
    (t.lowest = none → Skips s t c 0 1 out) ∧
    ∀ l0, t.lowest = some l0 →
      (t.fsp.toNat < t.fb.toNat + 16 → Traps s t c 0x0A t.fb out) ∧
      (t.fb.toNat + 16 ≤ t.fsp.toNat →
        let met := rangeAccess s s.cur t false t.fb.toNat 16
        (∀ cause b, met.1 = .error (cause, b) → MemSide s met.2 ∧ out = accessTrap met.2 t c cause b) ∧
        ∀ xs, met.1 = .ok xs → (∀ x ∈ xs, x.typ = 4) →
          let s2 := drainFrame met.2 s.cur false xs
          MemSide s met.2 ∧ StoreSide met.2 s2 ∧ ∃ t1 t', s2.team s.cur = some t1 ∧ SameButWindow t t1 ∧ out = .next (s2.putTeam s.cur t') ∧
            Branched t1 t' c (BitVec.ofNat 64 (t1.frameNum t.fb.toNat 8)) ∧ FrameOnly t1 t' ∧
            t'.fsp = t.fb ∧ t'.fb = BitVec.ofNat 64 (t1.frameNum (t.fb.toNat + 8) 8) ∧
            t'.frame = t1.frame ∧ t'.refs = t1.refs ∧
            Unlinked t1 t' ∧
            (t.head.toNat + t.markSize ≤ t.fb.toNat → t'.head = t.head))

/-- CALL and RET on the frame stack. -/
def Obligations.CallAndReturn : Prop := Sys2Proof.Claims.Call ∧ Sys2Proof.Claims.Return

/-- MARK (R127, R134, R405): the mark frame at FSP, with the counter and the broken flag of every lane; the reference bits
of SAVEDFB and PREV alone are set; no register changes. It completes wherever its bytes pass the checks of an access (R157)
and the frames that leave local memory, if any, have a valid key. -/
def Sys2Proof.Claims.Mark : Prop :=
  ∀ (s : State) (t : Team) (c : Clause) (tag : BitVec 16), Issues s t c →
    let out := exec (.mark tag) s
    let z := 32 + 16 * ceilDiv t.lanes 16
    (t.lowest = none → Skips s t c 0 1 out) ∧
    ∀ l0, t.lowest = some l0 →
      (t.limit < t.fsp.toNat + z → Traps s t c 0x14 0 out) ∧
      (t.fsp.toNat + z ≤ t.limit →
        let t2 : Team := { t with fsp := t.fsp + BitVec.ofNat 64 z }
        let met := rangeAccess s s.cur t2 true t.fsp.toNat z
        (∀ cause b, met.1 = .error (cause, b) → MemSide s met.2 ∧ out = accessTrap met.2 t c cause b) ∧
        ∀ xs, met.1 = .ok xs → (∀ x ∈ xs, x.typ = 4) →
          Spills s met.2 t t2 c t.fsp out fun s1 =>
            let s2 := drainFrame s1 s.cur true xs
            StoreSide s1 s2 ∧ ∃ t1 t', s2.team s.cur = some t1 ∧ SameButWindow t t1 ∧ out = .next (spillCheck (s2.putTeam s.cur t') s.cur) ∧
              Branched t1 t' c c.follow ∧ FrameOnly t1 t' ∧
              t'.fb = t.fb ∧ t'.fsp = t.fsp + BitVec.ofNat 64 z ∧ t'.head = t.fsp ∧
              Window t1 t' (t.fsp.toNat - t.base)
                (toBytes 2 tag.toNat ++ toBytes 2 0x4D41 ++ zeros 4 ++ toBytes 8 c.follow.toNat ++ toBytes 8 t.fb.toNat ++
                  toBytes 8 t.head.toNat ++
                  ((List.range t.lanes).map fun l => BitVec.ofNat 8 (t.depth l + 128 * (t.broken l).toNat)) ++
                  zeros (z - 32 - t.lanes)) ∧
              (t.fsp.toNat % 16 = 0 → RefBits t1 t' ((t.fsp.toNat - t.base) / 8) (z / 8) fun i => i == 2 || i == 3))

/-- MARK pushes a mark frame. -/
def Obligations.MarkPushesFrame : Prop := Sys2Proof.Claims.Mark

/-! ## Traps, returns and system registers (R98, R107, R109, R110, R119 to R121, R130, R351, R372, R434, R447, R449) -/

/-- Taking a trap (R107): with a handler and outside one, TCAUSE, TPC, TADDR and TINFO are written, every lane's counter
and broken flag are saved and set to 0, the in-handler state is set, and the clause at TRAPVEC is next; no register and no
frame is saved, FSP is unchanged, and nothing else of the machine changes. -/
def Obligations.TrapEntry : Prop :=
  ∀ (s : State) (t : Team) (u cause slot detail : Nat) (tpc addr : DWord) (async_ : Bool),
    s.team u = some t → t.inHandler = false → t.trapvec ≠ 0 → slot < 16 → detail < 2 ^ 16 →
    ∃ t', takeTrap s u cause tpc slot addr async_ detail = s.putTeam u t' ∧
      t'.tcause = BitVec.ofNat 32 cause ∧ t'.tpc = tpc ∧ t'.taddr = addr ∧
      t'.tinfo = BitVec.ofNat 32 (slot + 2 ^ 8 * async_.toNat + 2 ^ 16 * detail) ∧
      t'.savedD = t.d ∧ t'.savedB = t.b ∧ (∀ l, t'.depth l = 0 ∧ t'.broken l = false) ∧
      (∀ l, l ∈ t'.activeLanes ↔ l < t.lanes) ∧ t'.inHandler = true ∧ t'.pc = t.trapvec ∧
      t' = { t with tcause := t'.tcause, tpc := tpc, taddr := addr, tinfo := t'.tinfo, savedD := t.d, savedB := t.b
                    d := t'.d, b := t'.b, inHandler := true, pauseEnd := t'.pauseEnd, pc := t.trapvec
                    clause := none, slot := 0, resume := 0 }

/-- A trap with no handler, or inside one, stops the team, and its launch fails, with NESTED where it was inside (R106,
R107, R109). -/
def Sys2Proof.Claims.TrapStops : Prop :=
  ∀ (s : State) (t : Team) (x : Launch) (u cause slot detail : Nat) (tpc addr : DWord) (async_ : Bool),
    s.team u = some t → t.agent = false → t.inHandler = true ∨ t.trapvec = 0 → s.launch t.launch = some x →
    x.failure = none → x.cancelling = false → pendingCount x < x.counter →
    ∃ t' x', (takeTrap s u cause tpc slot addr async_ detail).team u = some t' ∧ t'.status = .stopped ∧
      t'.tcause = BitVec.ofNat 32 cause ∧ t'.tpc = tpc ∧ t'.taddr = addr ∧
      (takeTrap s u cause tpc slot addr async_ detail).launch t.launch = some x' ∧ x'.cancelling = true ∧
      x'.failure = some (1, t.inHandler, cause, ((s.wg t.wg).map fun w => w.wgid).getD 0)

/-- EXIT, TRAP, BKPT and RETT (R98, R109, R110, R351, R372, R434, R449): EXIT ends the team, or restarts an agent; TRAP
and BKPT trap with the word that follows as the place to resume; RETT restores the counters and the broken flags and goes to
the clause at TPC at the slot that SLOT names, whatever the active mask, and is illegal outside a handler. -/
def Obligations.ExitTrapReturn : Prop :=
  ∀ (s : State) (t : Team) (c : Clause) (imm : BitVec 16), Issues s t c →
    (t.lowest = none → Skips s t c 0 1 (exec .exit s) ∧ Skips s t c 0 1 (exec (.trap imm) s) ∧
      Skips s t c 0 1 (exec (.bkpt imm) s)) ∧
    (∀ l0, t.lowest = some l0 →
      (t.agent = true → exec .exit s = .next (restartAgent s s.cur false)) ∧
      (t.agent = false → ∃ s' t', exec .exit s = .next s' ∧ s'.team s.cur = some t' ∧ t'.status = .exited ∧
        t'.pend = [] ∧ t'.stores = [] ∧ t'.clause = none ∧ t'.regs = t.regs ∧ t'.fpstat = t.fpstat ∧
        s'.hbm = s.hbm ∧ s'.host = s.host ∧ s'.dev = s.dev) ∧
      let s1 := s.putTeam s.cur (t.switchPark c)
      (t.slot + 1 < c.count →
        exec (.trap imm) s = .next (takeTrap s1 s.cur 0x18 c.addr (t.slot + 2) 0 false imm.toNat) ∧
        exec (.bkpt imm) s = .next (takeTrap s1 s.cur 0x19 c.addr (t.slot + 2) 0 false 0)) ∧
      (c.count ≤ t.slot + 1 →
        exec (.trap imm) s = .next (takeTrap s1 s.cur 0x18 c.follow 0 0 false imm.toNat) ∧
        exec (.bkpt imm) s = .next (takeTrap s1 s.cur 0x19 c.follow 0 0 false 0))) ∧
    (t.inHandler = false → Traps s t c 1 0 (exec .rett s)) ∧
    (t.inHandler = true → ∃ t', OnlyTeam s 0 t' (exec .rett s) ∧ t'.d = t.savedD ∧ t'.b = t.savedB ∧
      t'.inHandler = false ∧ t'.pc = t.tpc ∧ t'.resume = t.tinfo.toNat % 16 ∧ t'.clause = none ∧
      SamePlaceApart { t with d := t.savedD, b := t.savedB, inHandler := false } t')

/-- The system registers that are read-only at every level (R119). -/
def Sys2Proof.Claims.readOnly : SysReg → Bool
  | .teamid | .laneid | .lanes | .wgid | .launchid | .core | .cluster | .priv | .rlvl | .seed | .timeNs | .cycles => true
  | _ => false

/-- What a SYSW of v to a register makes of a team (R107, R119, R130, R134, R265, R447): reserved bits are ignored, FB and
FSP keep the limits of R130, and a fall of FSP unlinks marks; none where it raises FRAME_OVERFLOW. -/
def Sys2Proof.Claims.Written (t : Team) (n : SysReg) (v : DWord) (t' : Team) : Prop :=
  let w := v.extractLsb' 0 32
  match n with
  | .noticeEn => t' = { t with noticeEn := v.getLsbD 0, noticeFold := t.noticeFold && v.getLsbD 0 }
  | .tcause => t' = { t with tcause := w &&& 0xFF }
  | .tpc => t' = { t with tpc := v }
  | .taddr => t' = { t with taddr := v }
  | .tinfo => t' = { t with tinfo := w &&& 0xFFFF010F }
  | .trapvec => t' = { t with trapvec := v }
  | .fpstat => t' = { t with fpstat := w &&& 0x1F }
  | .fb => t' = { t with fb := v }
  | .fsp => t' = { t with fsp := v, head := t'.head } ∧ (t'.head = 0 ∨ t'.head.toNat + t.markSize ≤ v.toNat) ∧
      (t.head.toNat + t.markSize ≤ v.toNat → t'.head = t.head)
  | _ => False

/-- Whether a value keeps the limits of R130 for FB and FSP. -/
def Sys2Proof.Claims.inLimits (t : Team) (n : SysReg) (v : DWord) : Prop :=
  match n with
  | .fb => v.toNat % 16 = 0 ∧ t.base ≤ v.toNat ∧ v.toNat ≤ t.fsp.toNat
  | .fsp => v.toNat % 16 = 0 ∧ t.fb.toNat ≤ v.toNat ∧ v.toNat ≤ t.base + t.framesz
  | _ => True

/-- What each system register but TIME_NS holds for a lane of a team (R92, R107, R119, R226, R260, R265). An agent's
LAUNCHID is all ones. -/
def Sys2Proof.Claims.SystemValues (s : State) (t : Team) (l : Nat) (v : SysReg → Nat → DWord) : Prop :=
  (∀ n : SysReg, n.wide = true ↔ n ∈ [SysReg.tpc, .taddr, .trapvec, .timeNs, .cycles, .fb, .fsp]) ∧
  v .teamid l = BitVec.ofNat 64 t.teamId ∧ v .laneid l = BitVec.ofNat 64 l ∧ v .lanes l = BitVec.ofNat 64 t.lanes ∧
  (∀ w, s.wg t.wg = some w → v .wgid l = BitVec.ofNat 64 w.wgid.toNat ∧ v .core l = BitVec.ofNat 64 w.core ∧
    v .cluster l = BitVec.ofNat 64 (w.core / 4) ∧ v .cycles l = BitVec.ofNat 64 (cyclesOf s (w.core / 4))) ∧
  (t.agent = true → v .launchid l = 0xFFFFFFFF) ∧
  (∀ x, t.agent = false → s.launch t.launch = some x → v .launchid l = BitVec.ofNat 64 x.launchId) ∧
  v .priv l = BitVec.ofNat 64 t.priv ∧ v .rlvl l = BitVec.ofNat 64 t.rlvl ∧ v .noticeEn l = (if t.noticeEn then 1 else 0) ∧
  v .tcause l = t.tcause.zeroExtend 64 ∧ v .tpc l = t.tpc ∧ v .taddr l = t.taddr ∧ v .tinfo l = t.tinfo.zeroExtend 64 ∧
  v .trapvec l = t.trapvec ∧ v .fpstat l = t.fpstat.zeroExtend 64 ∧ v .seed l = t.seed.zeroExtend 64 ∧ v .fb l = t.fb ∧
  v .fsp l = t.fsp

/-- SYSR and SYSW (R119, R120, R121, R130, R447): a read of any register completes, and gives the register's value to every
active lane; a write takes the value of the lowest active lane, completes for every register that is not read-only and for
every value within the limits of FB and FSP, and raises PRIVILEGE for a read-only register and FRAME_OVERFLOW outside those
limits. (The team's held stores to its window are performed before a write of FSP, and frames that leave local memory then
need a valid key.) -/
def Sys2Proof.Claims.SystemRegisters : Prop :=
  ∀ (s : State) (t : Team) (c : Clause) (d v : Code) (n : SysReg), Issues s t c →
    (n ≠ .timeNs ∨ t.lowest = none →
      (n.wide = false → ∃ t', OnlyTeam s 0 t' (exec (.sysr d n) s) ∧ Past t t' c 1 ∧ SameButRegs t t' ∧
        Wrote t t' d.toNat fun l => (sysValue s t n l).extractLsb' 0 32) ∧
      (n.wide = true → PairEffect s t c 0 1 d (sysValue s t n) (exec (.sysr d n) s))) ∧
    (t.lowest ≠ none → ∃ t', exec (.sysr d .timeNs) s = .next ((sysTime s t).2.putTeam s.cur t') ∧ Past t t' c 1 ∧
      SamePlaceApart { t with regs := t'.regs, reads := t.reads + 1 } t' ∧
      (∀ l ∈ t.activeLanes, t'.reg d.toNat l = (sysTime s t).1.extractLsb' 0 32) ∧
      (∀ l ∈ t.activeLanes, l + 1024 ∉ t.activeLanes → t'.reg (d.toNat + 1) l = (sysTime s t).1.extractLsb' 32 32) ∧
      ∀ r l, (∀ j ∈ t.activeLanes, regKey r l ≠ regKey d.toNat j ∧ regKey r l ≠ regKey (d.toNat + 1) j) →
        t'.reg r l = t.reg r l) ∧
    (∀ l, SystemValues s t l (sysValue s t)) ∧
    (t.lowest = none → Skips s t c 0 1 (exec (.sysw v n) s)) ∧
    ∀ l0, t.lowest = some l0 →
      let x : DWord := if n.wide then pair s.fresh t v l0 else (readReg s.fresh t v.toNat l0).zeroExtend 64
      let s1 := if n = .fsp then drainFrame s.bump s.cur false [] else s.bump
      (readOnly n = true → Traps s1 t c 0x13 0 (exec (.sysw v n) s)) ∧
      ∃ t1, s1.team s.cur = some t1 ∧
        (readOnly n = false → ¬ inLimits t n x → Traps s1 t1 c 0x14 0 (exec (.sysw v n) s)) ∧
        (readOnly n = false → n ≠ .fsp → inLimits t n x → ∃ t', Written t1 n x t' ∧
          exec (.sysw v n) s = .next (s1.putTeam s.cur (t'.advance c 1))) ∧
        (n = .fsp → inLimits t n x → ∃ t', Written t1 n x t' ∧
          Spills s1 s1 t1 t' c t1.fsp (exec (.sysw v n) s) fun s2 =>
            exec (.sysw v n) s = .next (spillCheck (s2.putTeam s.cur (t'.advance c 1)) s.cur))

/-- SYSR and SYSW complete (R119, R121): SYSR of every register; SYSW, with an active lane, of every register that is not
read-only and is not FSP, with a value within the limits; and of FSP where it does not rise. Each leaves its team past its
word. -/
def Sys2Proof.Claims.SystemWordsComplete : Prop :=
  ∀ (s : State) (t : Team) (c : Clause) (d v : Code) (n : SysReg), Issues s t c →
    let x (l : Nat) : DWord := if n.wide then pair s.fresh t v l else (readReg s.fresh t v.toNat l).zeroExtend 64
    (∃ u t', exec (.sysr d n) s = .next u ∧ u.team s.cur = some t' ∧ Past t t' c 1) ∧
    (∀ l0, t.lowest = some l0 → readOnly n = false → n ≠ .fsp → inLimits t n (x l0) →
      ∃ u t', exec (.sysw v n) s = .next u ∧ u.team s.cur = some t' ∧ Past t t' c 1) ∧
    (∀ l0, t.lowest = some l0 → n = .fsp → inLimits t n (x l0) → (x l0).toNat ≤ t.fsp.toNat →
      t.spillMore t.rlvl = 0 → ∃ u t', exec (.sysw v n) s = .next u ∧ u.team s.cur = some t' ∧ t'.fsp = x l0 ∧ Past t t' c 1)

/-- SYSR and SYSW, and where they complete. -/
def Obligations.SystemRegisters : Prop := Sys2Proof.Claims.SystemRegisters ∧ Sys2Proof.Claims.SystemWordsComplete

/-! ## The checks of an access (R131, R145, R149, R150, R152, R153, R157, R176, R274, R293) -/

/-- The last check of a piece y on chip (R176): it passes where no granule fails of those that it reads, or that it writes in
part; else the word meets CHECK_FAIL at the first such granule. -/
def Sys2Proof.Claims.Verified (s : State) (k : AccKind) (y : Seg) (r : Met) : Prop :=
  let bad (g : Nat) : Prop := placeBad s y.place g = true ∧ (k.rd = true ∨ 64 * g < y.off ∨ y.off + y.n < 64 * g + 64)
  ((∀ g, y.off / 64 ≤ g → g ≤ (y.off + y.n - 1) / 64 → ¬ bad g) → r = .seg y) ∧
  ∀ g, y.off / 64 ≤ g → g ≤ (y.off + y.n - 1) / 64 → bad g → (∀ j, y.off / 64 ≤ j → j < g → ¬ bad j) →
    r = .fail 7 checkWordCause (y.va + g * 64 - y.off)

/-- Steps 3 to 6 of R157 for a piece of n bytes at va, of an access of len bytes at lo, in a translated page: its rights and
its key range (PERMISSION, 7); its type (TARGET_TYPE, 8), then natural alignment on MMIO and QUEUE pages (MISALIGNED, 5) and
the level of a device register (PRIVILEGE, 0x13; its rank is the model's choice, log entry 57); the offset's limit
(PERMISSION), which takes in a core that the crossbar refuses; the window (FRAME_STALE, 0x0A); and last the check words. -/
def Sys2Proof.Claims.PageChecks : Prop :=
  ∀ (s : State) (u : Nat) (t : Team) (k : AccKind) (x : Tlb) (va n lo len : Nat), 0 < n → k.rd = true ∨ k.wr = true →
    let p := x.pte
    let off := p.addr + (va - x.base)
    let r := meetPage s u t k x va n lo len
    let mine := ∀ m, teamPart s t = some m → ownsCluster s m (p.core / 4) = true
    let right := (k.rd = true → p.rd = true) ∧ (k.wr = true → p.wr = true)
    let room := ((s.wg t.wg).map fun w => w.sharedSz).getD 0
    (¬ right → r = .fail 3 7 va) ∧
    (right → p.typ = 0 → r = .fail 3 7 va ∨ r = .fail 4 8 va) ∧
    (right → p.typ = 1 ∨ 7 ≤ p.typ → r = .fail 4 8 va) ∧
    (right → p.typ = 2 →
      (¬ mine → r = .fail 5 7 va) ∧
      (mine → 262144 < off + n → r = .fail 5 7 (va + (262144 - off))) ∧
      (mine → off + n ≤ 262144 → p.core = 0 → off < 65536 → t.priv ≠ 2 → r = .fail 5 7 va) ∧
      (mine → off + n ≤ 262144 → p.core ≠ 0 ∨ 65536 ≤ off ∨ t.priv = 2 →
        Verified s k { va := va, n := n, typ := 2, order := p.order, place := .scratch p.core, off := off } r)) ∧
    (right → p.typ = 3 →
      (¬ mine → r = .fail 5 7 va) ∧ (mine → p.core ≠ teamCore s t → r = .fail 4 8 va) ∧
      (mine → p.core = teamCore s t → room < off + n → r = .fail 5 7 (va + (room - off))) ∧
      (mine → p.core = teamCore s t → off + n ≤ room →
        Verified s k { va := va, n := n, typ := 3, order := p.order, place := .shared t.wg, off := off } r)) ∧
    (right → p.typ = 4 →
      (lo < t.base → r = .fail 6 0x0A lo) ∧
      (t.base ≤ lo → t.fsp.toNat < lo + len → r = .fail 6 0x0A (max lo t.fsp.toNat)) ∧
      (t.base ≤ lo → lo + len ≤ t.fsp.toNat →
        Verified s k { va := va, n := n, typ := 4, order := p.order, place := .frame u, off := va - t.base } r)) ∧
    (right → p.typ = 5 →
      let fits := k.device = true ∧ (k.n = 4 ∨ k.n = 8) ∧ (k.wr = true → writeWidthOk off k.n = true)
      (¬ fits → r = .fail 4 8 va) ∧ (fits → lo % k.n ≠ 0 → r = .fail 4 5 va) ∧
      (fits → lo % k.n = 0 → regReached s t.priv ((s.wg t.wg).map fun w => w.part) off = false → r = .fail 4 0x13 va) ∧
      (fits → lo % k.n = 0 → regReached s t.priv ((s.wg t.wg).map fun w => w.part) off = true →
        r = .seg { va := va, n := n, typ := 5, order := 0, place := .frame u, off := off })) ∧
    (right → p.typ = 6 →
      let fits := k.device = true ∧ k.n = 8
      (¬ fits → r = .fail 4 8 va) ∧ (fits → lo % 8 ≠ 0 → r = .fail 4 5 va) ∧
      (fits → lo % 8 = 0 → r = .seg { va := va, n := n, typ := 6, order := 0, place := .frame u, off := va - x.base }))

/-- A piece of an access (R145, R157, R293): its translation comes first (PAGE_NOT_PRESENT, 6, or CHECK_FAIL, 9, of the walk,
whose rank is the model's choice, log entry 57; the key range, PERMISSION, with step 3), then its page; a core that the
crossbar refuses is counted in XBAR_DENY. A piece of the window that has left local memory is refilled. -/
def Sys2Proof.Claims.PieceChecks : Prop :=
  ∀ (s : State) (u : Nat) (t : Team) (k : AccKind) (va n lo len : Nat),
    let tr := xlate s (teamPart s t) (some (teamCore s t)) va k.wr
    let r := meetPiece s u t k va n lo len
    (2 ^ 57 ≤ va → r = (.fail 2 6 va, s)) ∧
    (tr.1 = .error 7 → r = (.fail 3 7 va, tr.2)) ∧
    (∀ c, tr.1 = .error c → c = 9 ∨ c = 10 → r = (.fail 2 9 va, tr.2)) ∧
    (∀ c, tr.1 = .error c → c ≠ 7 → c ≠ 9 → c ≠ 10 → r = (.fail 2 c va, tr.2)) ∧
    ∀ x, tr.1 = .ok x →
      let m := meetPage tr.2 u t k x va n lo len
      (∀ st c a, m = .fail st c a → r.1 = m ∧
        r.2 = match teamPart tr.2 t with
          | some p => if st = 5 ∧ (x.pte.typ = 2 ∨ x.pte.typ = 3) ∧ ownsCluster tr.2 p (x.pte.core / 4) = false
              then addDeny tr.2 p else tr.2
          | none => tr.2) ∧
      (∀ y, m = .seg y → y.typ ≠ 4 ∨ t.spill = [] → r = (.seg y, tr.2)) ∧
      ∀ y, m = .seg y → y.typ = 4 → MemSide tr.2 r.2 ∧
        (r.1 = .seg y ∨ ∃ c a, y.va ≤ a ∧ ((c = 7 ∧ r.1 = .fail 3 c a) ∨ (c ≠ 7 ∧ r.1 = .fail 7 c a)))

/-- The whole of an access (R153, R157): its pieces, one in each 64 KiB page, in ascending order, are all judged; the failure
is that of the lowest-numbered step, and of the lowest address within it. A word's own alignment is checked first. The active
lanes are judged in ascending order, each before any access is performed, and the lowest failing lane's failure is the
word's. -/
def Sys2Proof.Claims.WholeAccesses : Prop :=
  (∀ (u : Nat) (t : Team) (k : AccKind) (lo len : Nat) (s : State), meetPieces u t k lo len s [] = (.segs [], s) ∧
    ∀ (va n : Nat) (rest : List (Nat × Nat)),
      let m := meetPiece s u t k va n lo len
      let ms := meetPieces u t k lo len m.2 rest
      let r := meetPieces u t k lo len s ((va, n) :: rest)
      r.2 = ms.2 ∧ (∀ x xs, m.1 = .seg x → ms.1 = .segs xs → r.1 = .segs (x :: xs)) ∧
      (∀ st c a, m.1 = .fail st c a → (∀ st' c' a', ms.1 = .fail st' c' a' → st ≤ st') → r.1 = .fail st c a) ∧
      ∀ st c a, ms.1 = .fail st c a → ((∃ x, m.1 = .seg x) ∨ ∃ st' c' a', m.1 = .fail st' c' a' ∧ st < st') →
        r.1 = .fail st c a) ∧
  (∀ (s : State) (u : Nat) (t : Team) (k : AccKind) (va : DWord), k.n ≤ 16 →
    let a := va.toNat
    let first := 65536 - a % 65536
    let m := meetPieces u t k a k.n s (if k.n ≤ first then [(a, k.n)] else [(a, first), (a + first, k.n - first)])
    let r := laneAccess s u t k va
    (k.aligned = true → a % k.n ≠ 0 → r = (.error (5, a), s)) ∧
    (k.aligned = false ∨ a % k.n = 0 → r.2 = m.2 ∧ (∀ xs, m.1 = .segs xs → r.1 = .ok xs) ∧
      ∀ st c b, m.1 = .fail st c b → r.1 = .error (c, b))) ∧
  (∀ (u : Nat) (t : Team) (k : AccKind) (s : State), lanesAccess u t k s [] = (.ok [], s) ∧
    ∀ (pre post : List (Nat × DWord)) (l : Nat) (va : DWord) xs s1, lanesAccess u t k s pre = (.ok xs, s1) →
      let r := laneAccess s1 u t k va
      (∀ e, r.1 = .error e → lanesAccess u t k s (pre ++ (l, va) :: post) = (.error e, r.2)) ∧
      ∀ ys, r.1 = .ok ys → lanesAccess u t k s (pre ++ [(l, va)]) = (.ok (xs ++ [(l, ys)]), r.2)) ∧
  ∀ (s : State) (u : Nat) (t : Team) (wr : Bool) (va n : Nat),
    let ps := pagePieces (n / 65536 + 2) va n
    let m := meetPieces u t { n := n, wr := wr, rd := !wr, device := false, aligned := false } va n s ps
    let r := rangeAccess s u t wr va n
    (ps.map Prod.snd).sum = n ∧
    (∀ i p, ps[i]? = some p → p.1 = va + ((ps.take i).map Prod.snd).sum ∧ 0 < p.2 ∧ p.1 % 65536 + p.2 ≤ 65536) ∧
    r.2 = m.2 ∧ (∀ xs, m.1 = .segs xs → r.1 = .ok xs) ∧ ∀ st c b, m.1 = .fail st c b → r.1 = .error (c, b)

/-- The checks of an access to memory, in their order. -/
def Sys2Proof.Claims.AccessChecks : Prop := PageChecks ∧ PieceChecks ∧ WholeAccesses

/-! ## Memory (R131, R157, R182 to R191, R245, R248, R342, R345, R346, R398, R443 to R445) -/

/-- A piece stands on chip: in a scratchpad, in shared memory or in a frame window. -/
def Sys2Proof.Claims.onChip (x : Seg) : Prop := x.typ ≠ 5 ∧ x.typ ≠ 6

/-- The outstanding results of the team's next word: register r + i of lane l gets the i-th of l's words. -/
def Sys2Proof.Claims.results (t : Team) (slot : Option Nat) (acc : Bool) (r : Nat) (ws : List (Nat × List Word)) : List Pending :=
  ws.flatMap fun x => x.2.mapIdx fun i v =>
    { id := t.nextWord, slot := slot, acc := acc, reg := r + i, lane := x.1, val := some v, flags := 0 }

/-- A memory word that has passed the checks of R157 leaves its team with some results outstanding, counted on a slot,
and past the word; the team has nothing else changed (R59, R60, R63). For a load, t is the team with the loads of t'. -/
def Sys2Proof.Claims.Delivers (t t' : Team) (c : Clause) (len : Nat) (slot : Option Nat) (acc : Bool) (r : Nat) (ws : List (Nat × List Word)) :
    Prop :=
  Past { t with nextWord := t.nextWord + 1 } t' c len ∧ t'.pend = t.pend ++ results t slot acc r ws ∧
  SamePlaceApart { t with pend := t'.pend, nextWord := t.nextWord + 1 } t'

/-- The registers that n loaded bytes give (R398): one, extended, for a byte or a half word; else one for each four bytes,
lowest first. -/
def Sys2Proof.Claims.loaded (n : Nat) (signed : Bool) (l : List Byte) : List Word :=
  if n = 1 then [if signed then (BitVec.ofNat 8 (ofBytes l)).signExtend 32 else BitVec.ofNat 32 (ofBytes l)]
  else if n = 2 then [if signed then (BitVec.ofNat 16 (ofBytes l)).signExtend 32 else BitVec.ofNat 32 (ofBytes l)]
  else (List.range (n / 4)).map fun i => BitVec.ofNat 32 (ofBytes ((l.drop (4 * i)).take 4))

/-- The loads of a word that its team may still read again until their results land (R186, R187): one for each lane that
meets a page that does not order strictly (R185); where none does, no load is added. -/
def Sys2Proof.Claims.LoadsFloat (t t' : Team) (d : Nat) (form : LoadForm) (acq : Bool) (xs : List (Nat × List Seg))
    (got : List (Nat × List Byte)) : Prop :=
  ((∀ x ∈ xs, ∀ y ∈ x.2, y.order ≠ 0) → t'.loads = t.loads ++ floatLoads t.nextWord d form acq xs got) ∧
  ((∀ x ∈ xs, ∀ y ∈ x.2, y.order = 0) → ∀ y ∈ t'.loads, y ∈ t.loads)

/-- What a word that reads the pieces xs performs first (R182, R186): its team's ATOMs that are acquires, and those of its
own lanes to the same bytes; with no ATOM on its way, nothing. -/
def Sys2Proof.Claims.Followed (s : State) (u : Nat) (xs : List (Nat × List Seg)) (s1 : State) : Prop :=
  StoreSide s s1 ∧ ∀ t, s.team u = some t →
    ((∀ y ∈ t.stores, y.rmw = none) → s1 = s) ∧
    ∀ t1, s1.team u = some t1 → ∀ y ∈ t1.stores, ∀ r, y.rmw = some r → r.acq = false ∧ ownMeets xs y = false

/-- A load of n bytes (R398): every active lane is checked at its effective address before any access, a failure traps
with the lowest failing lane's cause and byte, and otherwise the load completes: the lanes' bytes are outstanding as
results. The ATOMs that it must follow are performed first (R182, R186). An on-chip load changes nothing else; the bytes are
those that the lane sees (R181, R182). A device register gives its value (R274), and a notify register its queue's TAIL and
HEAD (R251). -/
def Sys2Proof.Claims.Loads (s : State) (t : Team) (c : Clause) (len n : Nat) (d b : Code) (slot : BitVec 3) (off : BitVec 5)
    (signed acq : Bool) (out : Out) : Prop :=
  let ea (l : Nat) : DWord := pair s.fresh t b l + BitVec.ofInt 64 (n * off.toInt)
  let met := lanesAccess s.cur t (loadKind n) s.bump (t.activeLanes.map fun l => (l, ea l))
  MemSide s met.2 ∧
  (∀ cause va, met.1 = .error (cause, va) → out = accessTrap met.2 t c cause va) ∧
  ∀ xs, met.1 = .ok xs → ∃ s1 t1, Followed met.2 s.cur xs s1 ∧ s1.team s.cur = some t1 ∧ SameButWindow t t1 ∧
    let got := loadLanes t1 s1 xs
    (∃ t', out = .next (got.2.putTeam s.cur t') ∧ LoadsFloat t1 t' d.toNat (.plain signed) acq xs got.1 ∧
      Delivers { t1 with loads := t'.loads } t' c len (slotOf slot) false d.toNat
        (got.1.map fun x => (x.1, loadedWords signed x.2))) ∧
    ((∀ x ∈ xs, ∀ y ∈ x.2, onChip y) → got.2 = s1 ∧
      got.1 = xs.map fun x => (x.1, x.2.flatMap fun y => laneBytes s1 s.cur t1 x.1 y.place y.off y.n)) ∧
    ∀ l y, xs = [(l, [y])] →
      (y.typ = 5 → got = ([(l, toBytes y.n (devRead s1 y.off y.n))], s1)) ∧
      (y.typ = 6 → (∀ q, notifyQueue s1 (ownPart s1 t1) y.off = some q → got =
          ([(l, toBytes 8 ((s1.queue q).tail + queueHead s1 q * 2 ^ 32))], s1)) ∧
        (notifyQueue s1 (ownPart s1 t1) y.off = none → got.1 = [(l, zeros 8)] ∧ MemSide s1 got.2))

/-- LD in its widths (R397, R398). -/
def Sys2Proof.Claims.LoadWords : Prop :=
  ∀ (s : State) (t : Team) (c : Clause) (d b : Code) (slot : BitVec 3) (off : BitVec 5) (sg acq : Bool), Issues s t c →
    Loads s t c 1 1 d b slot off false false (exec (.ldB d b slot off) s) ∧
    Loads s t c 2 1 d b slot off sg acq (exec (.ldBX d b slot off sg acq) s) ∧
    Loads s t c 1 2 d b slot off false false (exec (.ldH d b slot off) s) ∧
    Loads s t c 2 2 d b slot off sg acq (exec (.ldHX d b slot off sg acq) s) ∧
    Loads s t c 1 4 d b slot off false false (exec (.ldW d b slot off) s) ∧
    Loads s t c 2 4 d b slot off false acq (exec (.ldWX d b slot off acq) s) ∧
    Loads s t c 1 8 d b slot off false false (exec (.ldD d b slot off) s) ∧
    Loads s t c 2 8 d b slot off false acq (exec (.ldDX d b slot off acq) s) ∧
    Loads s t c 1 16 d b slot off false false (exec (.ldQ d b slot off) s) ∧
    Loads s t c 2 16 d b slot off false acq (exec (.ldQX d b slot off acq) s) ∧
    (∀ n ∈ [1, 2, 4, 8, 16], ∀ l : List Byte, l.length = n → loadedWords sg l = loaded n sg l)

/-- The checks of an access, and the loads. -/
def Obligations.LoadWords : Prop := Sys2Proof.Claims.AccessChecks ∧ Sys2Proof.Claims.LoadWords

/-- What a word that stores performs before its own stores (R185, R189): all of its team's accesses, where a page of the
pieces xs orders strictly; the writes that its team has observed, where it is a release on an RC page; else nothing. -/
def Sys2Proof.Claims.Prepared (s : State) (u : Nat) (rel : Bool) (xs : List (Nat × List Seg)) (s1 : State) : Prop :=
  StoreSide s s1 ∧
  ((∃ x ∈ xs, ∃ y ∈ x.2, y.order = 0) → ∀ t1, s1.team u = some t1 → t1.stores = [] ∧ t1.loads = []) ∧
  ((∀ x ∈ xs, ∀ y ∈ x.2, y.order ≠ 0 ∧ (rel = true → y.order ≠ 1)) → s1 = s)

/-- A store of n bytes (R443, R444): every active lane is checked at its effective address before any access, and the store
completes wherever these checks pass. On chip, in pages that are not strictly ordered, the stores are held: each lane has its
bytes among the team's stores on their way, and no byte of memory changes by them yet (R182). In a strictly ordered page
every store is performed (R185); a device register or a notify register is written (R274, R251). With no store on its way in
the machine before, no byte outside the stored ones changes in any scratchpad, shared memory or window. -/
def Sys2Proof.Claims.Stores (s : State) (t : Team) (c : Clause) (len n : Nat) (v b : Code) (off : BitVec 5) (fr rel : Bool)
    (out : Out) : Prop :=
  let ea (l : Nat) : DWord := pair s.fresh t b l + BitVec.ofInt 64 (n * off.toInt)
  let data (l : Nat) : List Byte := storeBytes s.fresh t v n l
  let met := lanesAccess s.cur t (storeKind n fr) s.bump (t.activeLanes.map fun l => (l, ea l))
  MemSide s met.2 ∧
  (∀ cause va, met.1 = .error (cause, va) → out = accessTrap met.2 t c cause va) ∧
  ∀ xs, met.1 = .ok xs → ∃ t0 s1 t1, Past { t with nextWord := t.nextWord + 1 } t0 c len ∧
    SamePlaceApart { t with nextWord := t.nextWord + 1 } t0 ∧ Prepared (met.2.putTeam s.cur t0) s.cur rel xs s1 ∧
    s1.team s.cur = some t1 ∧ SameButWindow t0 t1 ∧
    let parts := xs.flatMap fun x => laneStores t.nextWord t.storeGate fr rel x.1 x.2 (data x.1)
    (∃ s', out = .next s') ∧
    ((∀ x ∈ xs, ∀ y ∈ x.2, onChip y ∧ y.order ≠ 0) →
      out = .next (s1.bump.putTeam s.cur { t1 with stores := t1.stores ++ parts.map Prod.snd })) ∧
    ((∃ x ∈ xs, x.2 ≠ []) → (∀ x ∈ xs, ∀ y ∈ x.2, onChip y ∧ y.order = 0) →
      ∃ s2 t2, out = .next s2 ∧ s2.team s.cur = some t2 ∧ t2.stores = [] ∧ SameButWindow t1 t2 ∧ StoreSide s1.bump s2) ∧
    (∀ l y, xs = [(l, [y])] → onChip y → y.order = 0 → y.n = n → y.off % n = 0 → (∀ w, y.place = .shared w → s.wg w ≠ none) →
      (∀ u, y.place = .frame u → s.team u ≠ none) → ∀ s2, out = .next s2 → ∀ i < n, placeByte s2 y.place (y.off + i) = (data l)[i]?.getD 0) ∧
    (∀ l y, xs = [(l, [y])] → y.typ = 5 → ∃ s2, StoreSide s1 s2 ∧
      out = .next (devWrite s2.bump t.priv y.off (BitVec.ofNat 64 (ofBytes (data l))))) ∧
    (∀ l y, xs = [(l, [y])] → y.typ = 6 → ∃ s2, StoreSide s1 s2 ∧
      out = .next (notifyStore s2.bump (ownPart s t) y.off (BitVec.ofNat 64 (ofBytes (data l))))) ∧
    ((∀ x ∈ xs, ∀ y ∈ x.2, onChip y) → (∀ e ∈ entries s.teams, e.2.stores = []) → ∀ s' p o, out = .next s' →
      (∀ k, p = .scratch k → o < 262144) →
      (∀ x ∈ xs, ∀ y ∈ x.2, ¬ (y.place = p ∧ y.off ≤ o ∧ o < y.off + y.n)) → placeByte s' p o = placeByte s p o)

/-- ST in its widths (R443 to R445). -/
def Sys2Proof.Claims.StoreWords : Prop :=
  ∀ (s : State) (t : Team) (c : Clause) (v b : Code) (slot : BitVec 3) (off : BitVec 5) (fr rel : Bool), Issues s t c →
    Stores s t c 1 1 v b off false false (exec (.stB v b slot off) s) ∧
    Stores s t c 2 1 v b off false rel (exec (.stBX v b slot off rel) s) ∧
    Stores s t c 1 2 v b off false false (exec (.stH v b slot off) s) ∧
    Stores s t c 2 2 v b off false rel (exec (.stHX v b slot off rel) s) ∧
    Stores s t c 1 4 v b off false false (exec (.stW v b slot off) s) ∧
    Stores s t c 2 4 v b off false rel (exec (.stWX v b slot off rel) s) ∧
    Stores s t c 1 8 v b off false false (exec (.stD v b slot off) s) ∧
    Stores s t c 2 8 v b off fr rel (exec (.stDX v b slot off fr rel) s) ∧
    Stores s t c 1 16 v b off false false (exec (.stQ v b slot off) s) ∧
    Stores s t c 2 16 v b off false rel (exec (.stQX v b slot off rel) s)

/-- A held store is read back by its own lane and by no other, and it is what memory holds once it is performed (R182,
R184): for a store of up to 16 bytes at one place. One that has left its lane is read by the lanes of another team that is
within its scope, and by those of no other (R181). -/
def Sys2Proof.Claims.HeldStores : Prop :=
  (∀ (s : State) (u : Nat) (t : Team) (x : PendStore) (i l : Nat), i < x.bytes.length → x.level = 0 → x.rmw = none →
    let t' := { t with stores := t.stores ++ [x] }
    laneByte s u t' x.lane x.place (x.off + i) = (x.bytes[i]?).getD 0 ∧
    (l ≠ x.lane → ∀ p o, laneByte s u t' l p o = laneByte s u t l p o) ∧
    ((∀ w, x.place = .shared w → s.wg w ≠ none) → (∀ v, x.place = .frame v → s.team v ≠ none) →
      placeByte (performStore s u x) x.place (x.off + i) = (x.bytes[i]?).getD 0) ∧
    ∀ p o, ¬ (p = x.place ∧ x.off ≤ o ∧ o < x.off + x.bytes.length) → (∀ c, p = .scratch c → o < 262144) →
      (∀ c, x.place = .scratch c → x.off + x.bytes.length ≤ 262144) →
      placeByte (performStore s u x) p o = placeByte s p o) ∧
  ∀ (s : State) (u v : Nat) (t a : Team) (x : PendStore) (l o : Nat), s.team u = some t → (v, a) ∈ entries s.teams →
    x ∈ a.stores → v ≠ u → x.off ≤ o → o < x.off + x.bytes.length →
    (∀ e ∈ entries s.teams, ∀ y ∈ e.2.stores, y.meets x.place o 1 = true → e.1 = v ∧ y = x) →
    (∀ y ∈ t.stores, y.meets x.place o 1 = false) →
    laneByte s u t l x.place o =
      if together s x.level.val v u = true then (x.bytes[o - x.off]?).getD 0 else placeByte s x.place o

/-- The store words, and the performing of the stores that they hold. -/
def Obligations.StoreWords : Prop := Sys2Proof.Claims.StoreWords ∧ Sys2Proof.Claims.HeldStores

/-- The new value of ATOM (R345), for an access of n bytes: arithmetic modulo 2^(8 n); minima and maxima by the signed or
the unsigned value. -/
def Sys2Proof.Claims.AtomicOperations : Prop :=
  ∀ (n old x : Nat), n = 4 ∨ n = 8 → old < 2 ^ (8 * n) → x < 2 ^ (8 * n) →
    let sg (v : Nat) : Int := (BitVec.ofNat (8 * n) v).toInt
    atomValue .swap n old x = x ∧ atomValue .cas n old x = x ∧
    atomValue .add n old x = (old + x) % 2 ^ (8 * n) ∧
    (∀ i, (atomValue .and n old x).testBit i = (old.testBit i && x.testBit i)) ∧
    (∀ i, (atomValue .or n old x).testBit i = (old.testBit i || x.testBit i)) ∧
    (∀ i, (atomValue .xor n old x).testBit i = (old.testBit i ^^ x.testBit i)) ∧
    sg (atomValue .minS n old x) = min (sg old) (sg x) ∧ sg (atomValue .maxS n old x) = max (sg old) (sg x) ∧
    atomValue .minU n old x = min old x ∧ atomValue .maxU n old x = max old x

/-- The level of a scope (R181): what its agents see has come there. -/
def Sys2Proof.Claims.ScopeLevel : FenceScope → Nat
  | .team => 1
  | .wg => 2
  | .core => 3
  | .cl => 4
  | .die => 5
  | .dev => 6
  | .sys => 6

/-- ATOM, LDT and FENCE (R181, R186, R189 to R191, R248, R346, R347): ATOM checks every active lane, and its
read-modify-writes are on their way, in ascending order, each lane's result outstanding until its own is performed: at once on
a strictly ordered page. LDT delivers columns, and raises UNIFORM_DIVERGENT over a group with a lane that is not active.
FENCE, unless its order is REL, performs every load and every ATOM of its team; unless it is ACQ, it draws the line that later
stores wait for, at its scope, and brings there what its team has observed; where it is SC, every store of its team comes to
its scope; it closes the partition's open tiles where its scope is SYS. ATOM and LDT complete wherever their lanes' addresses
pass the checks; FENCE completes for every order and scope. -/
def Sys2Proof.Claims.AtomLdtFence : Prop :=
  ∀ (s : State) (t : Team) (c : Clause) (d b v : Code) (slot : BitVec 3) (off : BitVec 5) (sz : AtomSize) (op : AtomOp)
      (rel acq : Bool) (ord : FenceOrder) (scope : FenceScope), Issues s t c →
    (let n : Nat := if sz = .d then 8 else 4
     let ea (l : Nat) : DWord := pair s.fresh t b l + BitVec.ofInt 64 (n * off.toInt)
     let cmp (l : Nat) : Nat := if sz = .d then (pair s.fresh t d l).toNat else (readReg s.fresh t d.toNat l).toNat
     let x (l : Nat) : Nat := if sz = .d then (pair s.fresh t v l).toNat else (reads s t v l).toNat
     let met := lanesAccess s.cur t { n := n, wr := true, rd := true, device := false, aligned := true } s.bump
       (t.activeLanes.map fun l => (l, ea l))
     let out := exec (.atom d b slot off sz v op rel acq) s
     MemSide s met.2 ∧
     (∀ cause va, met.1 = .error (cause, va) → out = accessTrap met.2 t c cause va) ∧
     ∀ xs, met.1 = .ok xs → ∃ t0 s1 t1,
       Past { t with nextWord := t.nextWord + 1 } t0 c 2 ∧
       SamePlaceApart { t with pend := t0.pend, nextWord := t.nextWord + 1 } t0 ∧
       t0.pend = t.pend ++ xs.flatMap (fun y => (List.range (n / 4)).map fun i =>
         { id := t.nextWord, slot := slotOf slot, acc := false, reg := d.toNat + i, lane := y.1, val := none, flags := 0 }) ∧
       Prepared (met.2.putTeam s.cur t0) s.cur rel xs s1 ∧ s1.team s.cur = some t1 ∧ SameButWindow t0 t1 ∧
       let rmws := laneAtoms t.nextWord t.storeGate n rel xs fun l rc =>
         { op := op, reg := d.toNat, acq := acq && rc, cmp := cmp l, operand := x l }
       let s2 := s1.putTeam s.cur { t1 with stores := t1.stores ++ rmws.map Prod.snd }
       ((∀ y ∈ rmws, y.1 = false) → out = .next s2) ∧
       ∃ s3 t3, out = .next s3 ∧ StoreSide s2 s3 ∧ s3.team s.cur = some t3 ∧
         ∀ y ∈ rmws, y.1 = true → ∀ z ∈ t3.stores, z.same y.2 = false) ∧
    ((∃ l ∈ t.activeLanes, t.brokenGroup l) → Traps s t c 4 0 (exec (.ldt d b slot off) s)) ∧
    ((∀ l ∈ t.activeLanes, ¬ t.brokenGroup l) →
      let ea (l : Nat) : DWord := pair s.fresh t b l + BitVec.ofInt 64 (16 * off.toInt)
      let met := lanesAccess s.cur t { n := 16, wr := false, rd := true, device := false, aligned := true } s.bump
        (t.activeLanes.map fun l => (l, ea l))
      let out := exec (.ldt d b slot off) s
      MemSide s met.2 ∧
      (∀ cause va, met.1 = .error (cause, va) → out = accessTrap met.2 t c cause va) ∧
      ∀ xs, met.1 = .ok xs → ∃ s1 t1, Followed met.2 s.cur xs s1 ∧ s1.team s.cur = some t1 ∧ SameButWindow t t1 ∧
        let got := loadLanes t1 s1 xs
        ∃ t', out = .next (got.2.putTeam s.cur t') ∧ LoadsFloat t1 t' d.toNat .row false xs got.1 ∧
          Delivers { t1 with loads := t'.loads } t' c 1 (slotOf slot) false d.toNat
            (got.1.map fun y => (y.1, columnWords got.1 y.1))) ∧
    (t.lowest = none → Skips s t c 0 1 (exec (.fence ord scope) s)) ∧
    ∀ l0, t.lowest = some l0 → ∃ t0 s2 t2 t',
      let k := ScopeLevel scope
      let s1 := s.putTeam s.cur t0
      t0 = { t with storeGate := t0.storeGate, loads := t0.loads } ∧
      (∀ j, fget zeroNat t0.storeGate j = if ord ≠ .acq ∧ j = k then t.nextWord else fget zeroNat t.storeGate j) ∧
      StoreSide s1 s2 ∧ s2.team s.cur = some t2 ∧ Past t2 t' c 1 ∧ SamePlaceApart t2 t' ∧
      (ord ≠ .rel → t2.loads = [] ∧ ∀ y ∈ t2.stores, y.rmw = none) ∧ (ord = .rel → t2.loads = t.loads) ∧
      (ord = .acq → (∀ y ∈ t.stores, y.rmw = none) → s2 = s1) ∧
      (ord = .sc → ∀ y ∈ t2.stores, k ≤ y.level.val) ∧
      (ord = .rel → ∀ e ∈ entries s1.teams, e.1 ≠ s.cur → ∀ y ∈ e.2.stores, together s1 y.level.val e.1 s.cur = true →
        ∀ a, s2.team e.1 = some a → ∀ z ∈ a.stores, z.same y = true → k ≤ z.level.val) ∧
      exec (.fence ord scope) s = .next (
        let s3 := s2.putTeam s.cur t'
        if scope = .sys then closeTiles s3 fun o => o.part == ownPart s t else s3)

/-- The order in which a team's stores and ATOMs come further (R182, R184, R186, R191): a store comes to a level only behind
every earlier one that must precede it: one lane's or one word's to a common byte, and an ATOM that is an acquire; and it
leaves its lane only behind the stores before a gate between them, at the gate's level. -/
def Sys2Proof.Claims.StoreOrder : Prop :=
  (∀ (p : PendStore → Nat) (l : List PendStore) (i j n m : Nat) (x y : PendStore),
    (storeNeeds p l)[i]? = some (y, m) → (storeNeeds p l)[j]? = some (x, n) → i < j → x.level.val < n → n ≤ 6 →
    gateLevel x.gates y.word ≤ 6 →
    (y.place = x.place → y.off < x.off + x.bytes.length → x.off < y.off + y.bytes.length → y.lane = x.lane ∨ y.word = x.word →
      n ≤ m) ∧
    (∀ r, y.rmw = some r → r.acq = true → n ≤ m) ∧
    (x.level = 0 → gateLevel x.gates y.word ≤ m)) ∧
  (∀ (p : PendStore → Nat) (l : List PendStore), (storeNeeds p l).map Prod.fst = l ∧ ∀ x n, (x, n) ∈ storeNeeds p l →
    p x ≤ 6 → p x ≤ n) ∧
  ∀ (g : FMap Nat) (w : Nat), (∀ k, w < fget zeroNat g k → k ≤ gateLevel g w) ∧
    (gateLevel g w ≠ 0 → ∃ e ∈ g, e.1 = gateLevel g w ∧ w < e.2)

/-- ATOM, LDT and FENCE complete (R190, R248, R346): ATOM and LDT with no active lane; ATOM wherever every active lane's
naturally aligned address passes the checks of R157; LDT wherever, besides, its groups of eight lanes are whole; FENCE of
every order and scope, whatever the mask. Each leaves its team past its word. -/
def Sys2Proof.Claims.AtomLdtFenceComplete : Prop :=
  ∀ (s : State) (t : Team) (c : Clause) (d b v : Code) (slot : BitVec 3) (off : BitVec 5) (sz : AtomSize) (op : AtomOp)
      (rel acq : Bool) (ord : FenceOrder) (scope : FenceScope), Issues s t c →
    let n : Nat := if sz = .d then 8 else 4
    let ea (k l : Nat) : DWord := pair s.fresh t b l + BitVec.ofInt 64 (k * off.toInt)
    let ok (k : Nat) (wr : Bool) : Prop := ∃ xs,
      (lanesAccess s.cur t { n := k, wr := wr, rd := true, device := false, aligned := true } s.bump
        (t.activeLanes.map fun l => (l, ea k l))).1 = .ok xs
    (ok n true → ∃ u t', exec (.atom d b slot off sz v op rel acq) s = .next u ∧ u.team s.cur = some t' ∧
      t'.nextWord = t.nextWord + 1 ∧ Past { t with nextWord := t.nextWord + 1 } t' c 2) ∧
    ((∀ l ∈ t.activeLanes, ¬ t.brokenGroup l) → ok 16 false →
      ∃ u t', exec (.ldt d b slot off) s = .next u ∧ u.team s.cur = some t' ∧
        t'.nextWord = t.nextWord + 1 ∧ Past { t with nextWord := t.nextWord + 1 } t' c 1) ∧
    (t.activeLanes = [] → ok n true ∧ ok 16 false) ∧
    ∃ u t', exec (.fence ord scope) s = .next u ∧ u.team s.cur = some t' ∧ Past t t' c 1

/-- ATOM, LDT and FENCE, where they complete, and the order of stores and ATOMs. -/
def Obligations.AtomLdtFence : Prop := Sys2Proof.Claims.AtomLdtFence ∧ Sys2Proof.Claims.AtomLdtFenceComplete ∧ Sys2Proof.Claims.StoreOrder

/-- One lane's read-modify-write, x, performed for team u (R345, R346): the bytes hold the new value afterwards, unless a CAS
did not match; no other byte of any place changes; and the lane's registers are to get the old value. The lanes of one ATOM
are held in ascending order (R184), and held read-modify-writes are done in the order in which they are held. -/
def Sys2Proof.Claims.AtomicAccess : Prop :=
  (∀ (s : State) (t : Team) (u : Nat) (x : PendStore) (r : Rmw), x.rmw = some r → s.team u = some t →
    x.bytes.length = 4 ∨ x.bytes.length = 8 →
    (∀ w, x.place = .shared w → s.wg w ≠ none) → (∀ w, x.place = .frame w → s.team w ≠ none) →
    let n := x.bytes.length
    r.operand < 2 ^ (8 * n) → (∀ c, x.place = .scratch c → x.off + n ≤ 262144) →
    let s' := performStore s u x
    let word (s : State) : Nat := ofBytes ((List.range n).map fun i => placeByte s x.place (x.off + i))
    (word s' = if r.op = .cas ∧ word s ≠ r.cmp then word s else atomValue r.op n (word s) r.operand) ∧
    (∀ p o, ¬ (p = x.place ∧ x.off ≤ o ∧ o < x.off + n) → (∀ c, p = .scratch c → o < 262144) →
      placeByte s' p o = placeByte s p o) ∧
    ∃ t', s'.team u = some t' ∧ SameButWindow t t' ∧ t'.stores = t.stores ∧ t'.loads = t.loads ∧
      t'.pend = t.pend.map fun p => if p.id = x.word ∧ p.lane = x.lane
        then { p with val := some (BitVec.ofNat 32 (word s / 2 ^ (32 * (p.reg - r.reg)))) } else p) ∧
  (∀ (w n : Nat) (g : FMap Nat) (rel : Bool) (xs : List (Nat × List Seg)) (f : Nat → Bool → Rmw),
    ((laneAtoms w g n rel xs f).map fun y => y.2.lane) = (xs.filter fun x => x.2 ≠ []).map Prod.fst) ∧
  ∀ (s : State) (t : Team) (u : Nat), s.team u = some t → (∀ e ∈ entries s.teams, ∀ x ∈ e.2.stores, x.level = 0) →
    (∀ x ∈ t.stores, x.rmw ≠ none) →
    ∀ p o, placeByte (drainAll s u) p o = placeByte (t.stores.foldl (fun s x => performStore s u x) s) p o

/-- The atomic operations and their access to memory. -/
def Obligations.Atomics : Prop := Sys2Proof.Claims.AtomicAccess ∧ Sys2Proof.Claims.AtomicOperations

/-- ACCRD and ACCWR (R245, R342): with no active lane they do nothing; an index outside the window, or no window, raises
ACC_RANGE; a tile that an operation still works on holds the team; a failing check word raises CHECK_FAIL; otherwise a read
is outstanding without a slot, and a write sets its element, where the highest lane wins, and the flags of its tile. -/
def Obligations.AccumulatorWords : Prop :=
  ∀ (s : State) (t : Team) (c : Clause) (d a b : Code), Issues s t c →
    let A := t.activeLanes
    let ix (l : Nat) : Nat := (reads s t a l).toNat
    let tile (l : Nat) : Nat := ix l / 2 ^ 10 % 2 ^ 8
    let at_ (l : Nat) : Nat := 1024 * tile l + ix l % 2 ^ 10
    let granule (l : Nat) : Nat := 64 * tile l + ix l % 2 ^ 10 / 16
    (A = [] → Skips s t c 0 1 (exec (.accrd d a) s) ∧ Skips s t c 0 1 (exec (.accwr a b) s)) ∧
    (A ≠ [] → (∀ w, s.wg t.wg = some w → w.window = none) →
      Traps s t c 0x12 0 (exec (.accrd d a) s) ∧ Traps s t c 0x12 0 (exec (.accwr a b) s)) ∧
    ∀ w x, s.wg t.wg = some w → w.window = some x → A ≠ [] →
      ((∃ l ∈ A, 2 ^ 18 ≤ ix l ∨ x.w ≤ tile l) →
        Traps s t c 0x12 0 (exec (.accrd d a) s) ∧ Traps s t c 0x12 0 (exec (.accwr a b) s)) ∧
      ((∀ l ∈ A, ix l < 2 ^ 18 ∧ tile l < x.w) → (∃ l ∈ A, tile l ∈ busyTiles s w) →
        exec (.accrd d a) s = .next s ∧ exec (.accwr a b) s = .next s) ∧
      ((∀ l ∈ A, ix l < 2 ^ 18 ∧ tile l < x.w) → (∀ l ∈ A, tile l ∉ busyTiles s w) →
        (∃ l ∈ A, fget falseAt x.inUse (tile l) = true ∧ fget falseAt x.bad (granule l) = true) → ∃ s', MemSide s s' ∧
        Traps s' t c 9 0 (exec (.accrd d a) s) ∧ Traps s' t c 9 0 (exec (.accwr a b) s)) ∧
      ((∀ l ∈ A, ix l < 2 ^ 18 ∧ tile l < x.w) → (∀ l ∈ A, tile l ∉ busyTiles s w) →
        (∀ l ∈ A, fget falseAt x.inUse (tile l) = false ∨ fget falseAt x.bad (granule l) = false) →
        (∃ t', OnlyTeam s 1 t' (exec (.accrd d a) s) ∧
          Delivers t t' c 1 none true d.toNat (A.map fun l => (l, [x.element (tile l) (ix l % 2 ^ 10)]))) ∧
        ∃ t' x', exec (.accwr a b) s = .next ((s.bump.putWg t.wg { w with window := some x' }).putTeam s.cur t') ∧
          Delivers t t' c 1 none true 0 [] ∧ 
            x' = { x with tiles := x'.tiles, inUse := x'.inUse, dirty := x'.dirty, bad := x'.bad } ∧
          (∀ l ∈ A, (∀ j ∈ A, l < j → at_ j ≠ at_ l) → x'.element (tile l) (ix l % 2 ^ 10) = reads s t b l) ∧
          (∀ k e, e < 1024 → (∀ l ∈ A, at_ l ≠ 1024 * k + e) → x'.element k e = x.element k e) ∧
          (∀ k g, g < 64 → x'.fails k g = x.fails k g) ∧
          (∀ k, fget falseAt x'.inUse k = (fget falseAt x.inUse k || decide (∃ l ∈ A, tile l = k))) ∧
          ∀ k, fget falseAt x'.dirty k = (fget falseAt x.dirty k || decide (∃ l ∈ A, tile l = k)))

/-! ## Copies (R198 to R206, R213, R361, R438, R439) -/

/-- An ASYNC word of one slot without a result has been accepted: its team, as it stands in s1, is past the word, and
nothing else of s1 has changed (R59, R60). -/
def Sys2Proof.Claims.Accepted (s1 : State) (u : Nat) (c : Clause) (out : Out) : Prop :=
  ∃ t1 t', s1.team u = some t1 ∧ out = .next (s1.putTeam u t') ∧ Past { t1 with nextWord := t1.nextWord + 1 } t' c 1 ∧
    SamePlaceApart { t1 with nextWord := t1.nextWord + 1 } t'

/-- The descriptor in eight registers from g on of lane l (R199). -/
def Sys2Proof.Claims.descriptor (k : Nat) (t : Team) (g : Code) (l : Nat) : Desc :=
  let R (i : Nat) : Word := readReg k t (g.toNat + i) l
  { src := R 1 ++ R 0, dst := R 3 ++ R 2, rows := (R 4).toNat % 2 ^ 21, key := (R 4).toNat / 2 ^ 21
    rowBytes := (R 5).toNat % 2 ^ 24, slice := (R 5).toNat / 2 ^ 24 % 2 ^ 4, nslice := (R 5).toNat / 2 ^ 28
    sstride := (R 6).toInt, dstride := (R 7).toInt }

/-- State s1 with number k attached to barrier nb of workgroup g, where the barrier is VALID (R209). -/
def Sys2Proof.Claims.Attaches (s1 s2 : State) (g nb k : Nat) (att : Bool) : Prop :=
  match s1.wg g with
  | none => att = false ∧ s2 = s1
  | some w => att = (w.bar nb).valid ∧
      s2 = if att then s1.putWg g (w.putBar nb { w.bar nb with attached := (w.bar nb).attached ++ [k] }) else s1

/-- COPY, COPYC and SEMSIG (R192, R198, R199, R204, R361, R439): skipped with no active lane; KEYOVR at U level raises
PRIVILEGE; with no tracking entry free the team is held. Otherwise the team's held stores are performed, the operation
starts with its descriptor as read at issue, ARRIVE attaches it to its barrier where that is VALID, and the team goes on.
A malformed COPY completes at once with PERMISSION, at tile 0 (R200). A COPYC's slice joins its team's next collective. Each
completes wherever a tracking entry is free and, under KEYOVR, the team is not at U level. -/
def Obligations.CopyWords : Prop :=
  ∀ (s : State) (t : Team) (c : Clause) (w : Workgroup) (g : Code) (nb : BitVec 4) (slot : BitVec 3) (ov rs arr : Bool)
      (op : SemOp), Issues s t c → s.wg t.wg = some w →
    let copyOut := exec (.copy g nb slot ov rs arr) s
    let collOut := exec (.copyc g nb slot ov rs arr) s
    let semOut := exec (.semsig g slot op) s
    (t.lowest = none → Skips s t c 0 1 copyOut ∧ Skips s t c 0 1 collOut ∧ Skips s t c 0 1 semOut) ∧
    ∀ l0, t.lowest = some l0 →
      let d := descriptor s.fresh t g l0
      let mine (kind : CopyKind) : Copy :=
        { kind := kind, part := w.part, priv := t.priv, launch := if t.agent then none else some t.launch
          core := some w.core, wg := some t.wg, team := some s.cur, descs := [], reseal := false, keyovr := false
          arrive := false, nb := 0, attached := false, next := 0, late := [], ended := false, wrote := false
          fail := none, suspended := none, saved := false }
      let slice : Slice :=
        { uid := s.nextUid, team := s.cur, desc := d, reseal := rs, keyovr := ov, arrive := arr, nb := nb.toNat }
      (ov = true → t.priv = 0 → Traps s t c 0x13 0 copyOut ∧ Traps s t c 0x13 0 collOut) ∧
      (¬ (ov = true ∧ t.priv = 0) → 1024 ≤ trackers s w.core → copyOut = .next s ∧
        ((∀ x ∈ w.colls, x.n ≠ t.copycs) → collOut = .next s)) ∧
      (1024 ≤ trackers s w.core → semOut = .next s) ∧
      (¬ (ov = true ∧ t.priv = 0) → trackers s w.core < 1024 →
        let s1 := drainAll s.bump.nextId s.cur
        StoreSide s.bump.nextId s1 ∧ ∃ att s2 s3,
          (if arr then Attaches s1 s2 t.wg nb.toNat s.nextUid att else att = false ∧ s2 = s1) ∧
          Accepted (s2.putCopy s.nextUid { mine .copy with
            descs := [d], reseal := rs, keyovr := ov, arrive := arr, nb := nb.toNat, attached := att }) s.cur c (.next s3) ∧
          copyOut = .next (if d.rows = 0 ∨ d.rowBytes = 0 ∨ (ov = false ∧ d.key ≠ 0) ∨ d.slice ≠ 0 ∨ d.nslice ≠ 0 ∨
            (ov = true ∧ t.priv = 1 ∧ keyInRange s w.part d.key = false) then completeCopy s3 s.nextUid 8 0 else s3)) ∧
      (¬ (ov = true ∧ t.priv = 0) → trackers s w.core < 1024 ∨ (∃ x ∈ w.colls, x.n = t.copycs) →
        let s1 := drainAll s.bump.nextId s.cur
        StoreSide s.bump.nextId s1 ∧ ∃ att s2 s3 t2,
          (if arr then Attaches s1 s2 t.wg nb.toNat s.nextUid att else s2 = s1) ∧ s2.team s.cur = some t2 ∧
          Accepted (s2.putTeam s.cur { t2 with copycs := t.copycs + 1 }) s.cur c (.next s3) ∧
          collOut = .next (joinColl s3 s.cur t.wg t.copycs t slice)) ∧
      (trackers s w.core < 1024 →
        let s1 := drainAll s.bump.nextId s.cur
        StoreSide s.bump.nextId s1 ∧
        Accepted (s1.putCopy s.nextUid (mine (.semsig (pair s.fresh t g l0) (pair s.fresh t (g + 2) l0) op))) s.cur c semOut)

/-- Collectives (R205, R206): a slice that is not the last of its collective waits in the workgroup, and no copy starts;
the last slice of a well-formed collective starts the one copy of it, with the slices in ascending SLICE order, attached
where each slice is still attached to the barrier that ARRIVE names; a collective that is not well formed starts no copy. -/
def Sys2Proof.Claims.Collectives : Prop :=
  ∀ (s : State) (t : Team) (w : Workgroup) (u n : Nat) (x : Slice), s.wg t.wg = some w →
    let old := ((w.colls.find? fun c => c.n == n).map fun c => c.slices).getD []
    let rest := w.colls.filter fun c => c.n != n
    let l := old ++ [x]
    let r := joinColl s u t.wg n t x
    (l.length ≠ w.teams.length → (∀ v ∈ w.teams, ∀ y, s.team v = some y → y.status = .running ∨ n < y.copycs) →
      ∃ uid, r = s.nextId.putWg t.wg { w with colls := rest ++ [{ n := n, uid := uid, slices := l }] }) ∧
    (l.length = w.teams.length →
      let s0 := s.putWg t.wg { w with colls := rest }
      let good := (∀ y ∈ l, y.desc.nslice + 1 = w.teams.length ∧ y.reseal = x.reseal ∧ y.keyovr = x.keyovr ∧
          y.arrive = x.arrive ∧ y.nb = x.nb ∧ malformedDesc s0 w.part t.priv y.keyovr true y.desc = false) ∧
        (l.map fun y => y.desc.slice).Nodup ∧ (l.map fun y => y.team).Nodup
      (good → ∃ k w',
        r.copy s.nextUid = some k ∧ k.kind = .copyc ∧ k.team = none ∧ k.wg = some t.wg ∧ k.part = w.part ∧ k.priv = t.priv ∧
        k.reseal = x.reseal ∧ k.keyovr = x.keyovr ∧ k.arrive = x.arrive ∧ k.nb = x.nb ∧ k.next = 0 ∧ k.fail = none ∧
        k.descs.Perm (l.map fun y => y.desc) ∧ k.descs.Pairwise (fun a b => a.slice ≤ b.slice) ∧
        (k.attached = true ↔ x.arrive = true ∧ (w.bar x.nb).valid = true ∧ ∀ y ∈ l, y.uid ∈ (w.bar x.nb).attached) ∧
        (∀ j, j ≠ s.nextUid → r.copy j = s.copy j) ∧
        r.wg t.wg = some w' ∧ w'.colls = rest ∧ (k.attached = true → s.nextUid ∈ (w'.bar x.nb).attached)) ∧
      (¬ good → r = refuseColl s0 t.wg l ∧ r.copies = s.copies))

/-- The status of a copy (R202, R211): BARRIER_GONE where ARRIVE names a barrier that it is no longer attached to, else
that of its first failed tile, else OK; and what its completion does: it leaves the engine; attached, it arrives with the
error flag unless it is OK; a copy node finishes its graph's node (R214, R215). -/
def Sys2Proof.Claims.CopyCompletion : Prop :=
  (∀ x : Copy,
    (x.arrive = true → x.attached = false → (copyOutcome x).1 = 4 ∧ (x.fail = none → (copyOutcome x).2 = 0) ∧
      ∀ st i, x.fail = some (st, i) → (copyOutcome x).2 = i) ∧
    (x.arrive = false ∨ x.attached = true →
      (x.fail = none → copyOutcome x = (0, 0)) ∧ ∀ st i, x.fail = some (st, i) → copyOutcome x = (st, i))) ∧
  ∀ (s : State) (k st tile : Nat) (x : Copy), s.copy k = some x →
    (completeCopy s k st tile).copy k = none ∧
    (x.kind = .copy ∨ x.kind = .copyc →
      (x.arrive = false ∨ x.attached = false → completeCopy s k st tile = s.dropCopy k) ∧
      ∀ g, x.wg = some g → x.arrive = true → x.attached = true →
        completeCopy s k st tile =
          arrive (detach (s.dropCopy k) g x.nb k) g x.nb none (if st = 0 then none else some (st, tile))) ∧
    ∀ g i y, x.kind = .node g i → s.graph g = some y → ∃ y', (completeCopy s k st tile).graph g = some y' ∧
      y'.counter = y.counter - 1 ∧ (∀ n, y.nodes[i]? = some n → y'.nodes[i]? = some { n with state := 2 }) ∧
      let word := if st = 5 then statusWord 2 false 0 0 i 0 else statusWord 1 false 0 st i 0
      y'.decided = (if st = 0 then y.decided else if y.kind = 0 then some word else y.decided.or (some word))

/-- Collective copies, and the completion of copies. -/
def Obligations.CollectivesAndCopies : Prop := Sys2Proof.Claims.Collectives ∧ Sys2Proof.Claims.CopyCompletion

/-! ## Spawns and cancels (R96, R97, R103 to R106, R359, R441, R442) -/

/-- SPAWN and CANCEL: a SPAWN counts its workgroups, makes them pending and lets its team go on; an invalid one fails the
launch with SPAWN_INVALID; one that would take the counter above 16,777,216 holds the team; an agent's, or a cancelled
launch's, creates nothing. CANCEL cancels the unit that its level names while its own team goes on; an agent's acts as
EXIT. -/
def Sys2Proof.Claims.SpawnAndCancel : Prop :=
  ∀ (s : State) (t : Team) (c : Clause) (w : Workgroup) (x : Launch) (g : Code) (slot : BitVec 3) (level : CancelLevel),
    Issues s t c → s.wg t.wg = some w → s.launch t.launch = some x →
    let out := exec (.spawn g slot) s
    let off := exec (.cancel level) s
    (t.lowest = none → Skips s t c 0 1 out ∧ Skips s t c 0 1 off) ∧
    ∀ l0, t.lowest = some l0 →
      let R (i : Nat) : Word := readReg s.fresh t (g.toNat + i) l0
      let lanes := (R 4).toNat % 2 ^ 11
      let regs := (R 4).toNat / 2 ^ 11 % 2 ^ 8
      let teams := (R 4).toNat / 2 ^ 19 % 2 ^ 5
      let n := (R 1).toNat
      let shared := (R 5).toNat
      let good := (R 0).toNat % 4 = 0 ∧ 1 ≤ n ∧ n ≤ 4096 ∧ 4 ≤ lanes ∧ lanes ≤ 1024 ∧ lanes % 4 = 0 ∧ 8 ≤ regs ∧ regs ≤ 192 ∧
        regs % 8 = 0 ∧ 1 ≤ teams ∧ teams ≤ 16 ∧ teams * lanes ≤ 4096 ∧ (R 4).toNat / 2 ^ 24 = 0 ∧ shared % 256 = 0 ∧
        shared ≤ 2 ^ 20 ∧ R 7 = 0 ∧ fitsEmpty lanes regs teams shared = true
      let s1 := drainAll s.bump s.cur
      StoreSide s.bump s1 ∧
      (t.agent = true ∨ x.cancelling = true → Accepted s1 s.cur c out) ∧
      (t.agent = false → x.cancelling = false →
        (¬ good → ∃ s2, Accepted s1 s.cur c (.next s2) ∧ out = .next (settle (failLaunch s2 t.launch 4 false 0 w.wgid))) ∧
        (good → 2 ^ 24 < x.counter + n → out = .next s) ∧
        (good → x.counter + n ≤ 2 ^ 24 →
          Accepted (s1.putLaunch t.launch { x with
            counter := x.counter + n
            pending := x.pending ++ [{ entry := x.entry + (R 0).signExtend 64, args := R 3 ++ R 2, lanes := lanes
                                       nregs := regs, nteams := teams, sharedSz := shared, baseId := R 6, count := n
                                       next := 0, since := none, blocked := false }] }) s.cur c out)) ∧
      (t.agent = true → off = .next (restartAgent s s.cur false)) ∧
      (t.agent = false → ∃ t', Past t t' c 1 ∧ SamePlaceApart t t' ∧
        let s2 := s.putTeam s.cur t'
        (level = .launch → off = .next (settle (cancelLaunch s2 t.launch))) ∧
        (level = .graph → off = .next (settle (cancelGraph s2 x.graph))) ∧
        ∀ y, s.graph x.graph = some y →
          (level = .phase → off = .next (settle (cancelPhase s2 y.queue y.job y.phase))) ∧
          (level = .job → off = .next (settle (cancelJob s2 y.queue y.job))))

/-- A launch is cancelled (R105): its pending workgroups are discarded and no longer counted, every barrier of its
workgroups is invalid and no collective waits in them, none of its copies is left in the engine, and each of its running
teams has NOTICE_CANCEL; with nothing left it is complete (R97). A launch that is being cancelled stays as it is. -/
def Sys2Proof.Claims.LaunchCancel : Prop :=
  ∀ (s : State) (l : Nat) (x : Launch), s.launch l = some x →
    (x.cancelling = true → cancelLaunch s l = s) ∧
    (x.cancelling = false →
      let r := cancelLaunch s l
      (pendingCount x = x.counter → r.launch l = none) ∧
      (pendingCount x < x.counter →
        r.launch l = some { x with cancelling := true, pending := [], counter := x.counter - pendingCount x }) ∧
      (∀ k y, r.copy k = some y → y.launch ≠ some l) ∧
      (∀ g w, s.wg g = some w → w.launch = l → w.agent = false →
        ∃ w', r.wg g = some w' ∧ w'.colls = [] ∧ ∀ k < 16, (w'.bar k).valid = false) ∧
      ∀ u t, s.team u = some t → t.launch = l → t.agent = false → t.status = .running →
        ∃ t', r.team u = some t' ∧ t'.noticeCancel = true ∧ t'.status = .running)

/-- A phase or a job of queue q is cancelled (R104, R105): each graph of it is being cancelled, and no other graph starts to
be. Of the queue's current job, the packets that start a unit and wait before the next PHASE packet are cancelled with their
phase, and every packet up to the tail that is observed with their job. One that is already being cancelled stays as it is. -/
def Sys2Proof.Claims.UnitCancel : Prop :=
  ∀ (s : State) (q job ph : Nat),
    let x := s.queue q
    let rp := cancelPhase s q job ph
    let rj := cancelJob s q job
    (x.job = job → x.phase = ph → ph ∈ x.phaseCancel → rp = s) ∧
    (x.job = job → x.jobCancel = true → rj = s) ∧
    (¬ (x.job = job ∧ x.phase = ph ∧ ph ∈ x.phaseCancel) →
      rp.queue q = (if x.job = job ∧ x.phase = ph then { x with
        phaseCancel := x.phaseCancel ++ [ph]
        pkts := x.pkts.map fun (p : Pkt) =>
          if (p.op = 1 ∨ p.op = 2 ∨ p.op = 3) ∧ p.state = .waiting ∧ p.num < phaseStop x then { p with marked := true } else p }
        else x) ∧
      ∀ g y, s.graph g = some y → ∃ y', rp.graph g = some y' ∧
        (y'.cancelling = true ↔ y.cancelling = true ∨ (y.queue = q ∧ y.job = job ∧ y.phase = ph))) ∧
    (¬ (x.job = job ∧ x.jobCancel = true) →
      rj.queue q = (if x.job = job then { x with cancelTo := tailCount s q, jobCancel := true } else x) ∧
      ∀ g y, s.graph g = some y → ∃ y', rj.graph g = some y' ∧
        (y'.cancelling = true ↔ y.cancelling = true ∨ (y.queue = q ∧ y.job = job)))

/-- SPAWN and CANCEL, and what cancelling a launch, a phase or a job does. -/
def Obligations.SpawnAndCancel : Prop := Sys2Proof.Claims.SpawnAndCancel ∧ Sys2Proof.Claims.LaunchCancel ∧ Sys2Proof.Claims.UnitCancel

/-! ## Barriers (R194, R207 to R212, R420, R421) -/

/-- The result of a completed round (R209): 0; or 2 where its error flag was set, with the status and the tile index of
the first failed arrival under DETAIL. -/
def Sys2Proof.Claims.RoundResult (err : Option (Nat × Nat)) (detail : Bool) (v : Word) : Prop :=
  (err = none → v = 0) ∧ ∀ st tile, err = some (st, tile) → st < 16 →
    v = if detail then 2 ||| (BitVec.ofNat 32 st <<< 4) ||| (BitVec.ofNat 32 (min tile 0xFFFFFF) <<< 8) else 2

/-- The results that some waiters wait for have been delivered: v says what a waiter gets. All else of s' is as in s. -/
def Sys2Proof.Claims.Delivered (s s' : State) (ws : List Waiter) (v : Waiter → Word → Prop) : Prop :=
  s' = { s with teams := s'.teams } ∧ ∀ u, match s.team u with
    | none => s'.team u = none
    | some t => ∃ t', s'.team u = some t' ∧ t' = { t with pend := t'.pend } ∧ t'.pend.length = t.pend.length ∧
        ∀ (i : Nat) (p : Pending), t.pend[i]? = some p → ∃ p' : Pending, t'.pend[i]? = some p' ∧ p' = { p with val := p'.val } ∧
          ((∀ x ∈ ws, ¬ (x.team = u ∧ x.word = p.id)) → p'.val = p.val) ∧
          ((∃ x ∈ ws, x.team = u ∧ x.word = p.id) → ∃ x ∈ ws, x.team = u ∧ x.word = p.id ∧ ∃ r, p'.val = some r ∧ v x r)

/-- An arrival (R209), by a team or by a copy: at a barrier that is not VALID it does nothing; it is counted, the team's
round is the current one, and the first failure is recorded; the arrival that makes ARRIVED = EXPECT completes the round,
whose waiters get its result, and opens the next round with no arrival and no error. -/
def Sys2Proof.Claims.BarrierArrival : Prop :=
  ∀ (s : State) (w : Workgroup) (g k : Nat) (who : Option Nat) (err : Option (Nat × Nat)), s.wg g = some w →
    let b := w.bar k
    let s' := arrive s g k who err
    let first := b.err.or err
    (b.valid = false → s' = s) ∧
    (b.valid = true → ∃ b', (∀ u, who = some u → fget noEntry b'.teamRound u = some b.round) ∧
      (∀ u, who ≠ some u → fget noEntry b'.teamRound u = fget noEntry b.teamRound u) ∧
      (b.arrived + 1 ≠ b.expect → s' = s.putWg g (w.putBar k b') ∧
        b' = { b with arrived := b.arrived + 1, err := first, teamRound := b'.teamRound }) ∧
      (b.arrived + 1 = b.expect →
        let here := b.waiters.filter fun x => x.round == b.round
        fget noEntry b'.past b.round = first ∧ (∀ r, r ≠ b.round → fget noEntry b'.past r = fget noEntry b.past r) ∧
        b' = { b with arrived := 0, err := none, round := b.round + 1, teamRound := b'.teamRound, past := b'.past
                      waiters := b.waiters.filter fun x => x.round != b.round } ∧
        Delivered (s.putWg g (w.putBar k b')) s' here fun x r => RoundResult first x.detail r))

/-- NBINV, and NBINIT with a count of 0 (R211, R242): the barrier is not VALID, its waiters get 1, its copies are detached, and
an MWAIT of the workgroup's stream that waits at it returns; everything else is as it was. -/
def Sys2Proof.Claims.BarrierInvalidation : Prop :=
  ∀ (s : State) (w : Workgroup) (g k : Nat), s.wg g = some w →
    let b := w.bar k
    ∃ s1, Delivered s1 (invalidate s g k) b.waiters (fun _ r => r = 1) ∧
      s1 = { s with wgs := s1.wgs, copies := s1.copies, streams := s1.streams } ∧
      (∀ j, s1.wg j = if j = g then some (w.putBar k { b with valid := false, waiters := [], attached := [] }) else s.wg j) ∧
      (∀ j, s1.copy j = if j ∈ b.attached then (s.copy j).map fun x => { x with attached := false } else s.copy j) ∧
      ∀ j, s1.stream j = (s.stream j).map fun x =>
        if w.stream = some j ∧ x.mwait = some (k, false) then { x with mwait := some (k, true) } else x

/-- A barrier's rounds. -/
def Obligations.BarrierRounds : Prop := Sys2Proof.Claims.BarrierArrival ∧ Sys2Proof.Claims.BarrierInvalidation

/-- The barrier words (R194, R209, R211, R420, R421), each skipped with no active lane. NBINIT traps with BARRIER_BUSY
while an arrival, a copy or a running team is at the barrier, and otherwise sets it up; NBARR brings the team's held
stores, and those that it sees, to its workgroup, and arrives; NBWAIT waits for its team's round, or the current one: its result is outstanding, delivered at once
where the round is over or the barrier not VALID; NBSYNC arrives and waits; NBINV brings those stores to its workgroup and
invalidates (R194). NBARR, NBWAIT, NBSYNC and NBINV complete in every state; NBINIT where the barrier is not busy. -/
def Sys2Proof.Claims.BarrierWords : Prop :=
  ∀ (s : State) (t : Team) (c : Clause) (w : Workgroup) (a d : Code) (nb : BitVec 4) (slot : BitVec 3) (det : Bool),
    Issues s t c → s.wg t.wg = some w →
    let k := nb.toNat
    let init := exec (.nbinit a nb slot) s
    (t.lowest = none → Skips s t c 0 1 init ∧ Skips s t c 0 1 (exec (.nbarr nb slot) s) ∧
      Skips s t c 0 1 (exec (.nbwait d nb slot det) s) ∧ Skips s t c 0 1 (exec (.nbsync d nb slot det) s) ∧
      Skips s t c 0 1 (exec (.nbinv nb slot) s)) ∧
    ∀ l0, t.lowest = some l0 →
      let n := (readReg s.fresh t a.toNat l0).toNat % 2 ^ 16
      let b := w.bar k
      let busy := b.valid = true ∧ (0 < b.arrived ∨ b.attached ≠ [] ∨
        ∃ x ∈ b.waiters, ∃ y, s.team x.team = some y ∧ y.status = .running)
      (busy → Traps s t c 0x10 0 init) ∧
      (¬ busy → n = 0 → Accepted (invalidate (drainTo s.bump s.cur 2) t.wg k) s.cur c init) ∧
      (¬ busy → n ≠ 0 → Accepted (s.bump.putWg t.wg (w.putBar k { b with
        valid := true, expect := n, arrived := 0, err := none, teamRound := [] })) s.cur c init) ∧
      StoreSide s (drainTo s s.cur 2) ∧
      Accepted (arrive (drainTo s s.cur 2) t.wg k (some s.cur) none) s.cur c (exec (.nbarr nb slot) s) ∧
      exec (.nbwait d nb slot det) s = .next (waitBar s t.wg k d slot det c) ∧
      exec (.nbsync d nb slot det) s =
        .next (waitBar (arrive (drainTo s s.cur 2) t.wg k (some s.cur) none) t.wg k d slot det c) ∧
      Accepted (invalidate (drainTo s s.cur 2) t.wg k) s.cur c (exec (.nbinv nb slot) s)

/-- The wait of NBWAIT and NBSYNC (R209, R210). -/
def Sys2Proof.Claims.BarrierWait : Prop :=
  ∀ (s : State) (t : Team) (c : Clause) (w : Workgroup) (k : Nat) (d : Code) (slot : BitVec 3) (det : Bool),
    s.team s.cur = some t → s.wg t.wg = some w →
    let b := w.bar k
    let r := (fget noEntry b.teamRound s.cur).getD b.round
    ∃ t' b' v, waitBar s t.wg k d slot det c = (s.putWg t.wg (w.putBar k b')).putTeam s.cur t' ∧
      Past { t with nextWord := t.nextWord + 1 } t' c 1 ∧ SamePlaceApart { t with pend := t'.pend, nextWord := t.nextWord + 1 } t' ∧
      t'.pend = t.pend ++ t.activeLanes.map (fun l =>
        { id := t.nextWord, slot := slotOf slot, acc := false, reg := d.toNat, lane := l, val := v, flags := 0 }) ∧
      b' = { b with teamRound := b'.teamRound, waiters := b'.waiters } ∧
      (∀ u, fget noEntry b'.teamRound u = if u = s.cur then none else fget noEntry b.teamRound u) ∧
      (b.valid = false → v = some 1 ∧ b'.waiters = b.waiters) ∧
      (b.valid = true → b.round ≤ r → v = none ∧
        b'.waiters = b.waiters ++ [{ team := s.cur, word := t.nextWord, round := r, detail := det }]) ∧
      (b.valid = true → r < b.round → b'.waiters = b.waiters ∧
        ∃ x, v = some x ∧ RoundResult (fget noEntry b.past r) det x)

/-- The barrier words. -/
def Obligations.BarrierWords : Prop := Sys2Proof.Claims.BarrierWords ∧ Sys2Proof.Claims.BarrierWait

/-! ## Continuation slices (R136 to R143, R363, R386, R387, R440) -/

/-- The checks of a slice handle (R140 to R142), in their order: the reserved bits, the partition, the store, the entry,
the directory's block as a load that the team's own earlier stores to it come before, LIVE and GEN, OWNER. -/
def Sys2Proof.Claims.SliceHandles : Prop :=
  ∀ (s : State) (t : Team) (w : Workgroup) (h : DWord), s.wg t.wg = some w →
    let i := h.toNat % 2 ^ 16
    let r := checkHandle s t h
    (h.toNat / 2 ^ 38 ≠ 0 → r = (.error (0x0B, 0), s)) ∧
    (h.toNat / 2 ^ 38 = 0 → h.toNat / 2 ^ 32 ≠ w.part → r = (.error (0x0C, 0), s)) ∧
    (h.toNat / 2 ^ 32 = w.part → h.toNat / 2 ^ 38 = 0 →
      (sliceStore s t = none → r = (.error (0x0B, 0), s)) ∧
      ∀ base size, sliceStore s t = some (base, size) →
        (min 128 (size / 2048 - 1) ≤ i → r = (.error (0x0B, 0), s)) ∧
        (i < min 128 (size / 2048 - 1) →
          let met := rangeAccess s s.cur t false base 2048
          MemSide s met.2 ∧
          (∀ e, met.1 = .error e → r = (.error e, met.2)) ∧
          ∀ ds, met.1 = .ok ds →
            let s1 := drainFrame met.2 s.cur false ds
            let e := (((readSegs s1 ds base 2048).drop (16 * i)).take 16)
            StoreSide met.2 s1 ∧
            (num e 2 1 % 2 = 0 ∨ num e 0 2 ≠ h.toNat / 2 ^ 16 % 2 ^ 16 → r = (.error (0x0B, 0), s1)) ∧
            (num e 2 1 % 2 = 1 → num e 0 2 = h.toNat / 2 ^ 16 % 2 ^ 16 → num e 3 1 ≠ w.part →
              r = (.error (0x0C, 0), s1)) ∧
            (num e 2 1 % 2 = 1 → num e 0 2 = h.toNat / 2 ^ 16 % 2 ^ 16 → num e 3 1 = w.part → r = (.ok (base, i, e), s1))))

/-- A failed access traps, with the memory side of s changed at most. -/
def Sys2Proof.Claims.Refused (s : State) (t : Team) (c : Clause) (out : Out) (met : Except (Nat × Nat) (List Seg) × State) : Prop :=
  MemSide s met.2 ∧ ∀ cause a, met.1 = .error (cause, a) → out = accessTrap met.2 t c cause a

/-- SLFREE (R142): a handle that its checks refuse traps, as does an entry that cannot be written; otherwise LIVE is
cleared in the entry and nothing else of it is, what the team has stored there before is performed first, and the team goes
on. -/
def Sys2Proof.Claims.SliceFree : Prop :=
  ∀ (s : State) (t : Team) (c : Clause) (g : Code) (slot : BitVec 3), Issues s t c →
    let out := exec (.slfree g slot) s
    (t.lowest = none → Skips s t c 0 1 out) ∧
    ∀ l0, t.lowest = some l0 →
      let r := checkHandle s.bump t (pair s.fresh t g l0)
      (∀ cause a, r.1 = .error (cause, a) → out = accessTrap r.2 t c cause a) ∧
      ∀ base i e, r.1 = .ok (base, i, e) →
        let met := rangeAccess r.2 r.2.cur t true (base + 16 * i) 16
        Refused r.2 t c out met ∧
        ∀ xs, met.1 = .ok xs →
          let s2 := drainFrame met.2 s.cur true xs
          StoreSide met.2 s2 ∧
          Accepted (writeSegs s2 xs (base + 16 * i + 2) [BitVec.ofNat 8 (num e 2 1 / 2 * 2)] false) s.cur c out

/-- Slice handles and SLFREE. -/
def Obligations.SliceStores : Prop := Sys2Proof.Claims.SliceHandles ∧ Sys2Proof.Claims.SliceFree

/-- CUT (R137 to R140, R363): held while the team has work outstanding; no mark of the tag, an unusable or full store and
a failed access trap, and change nothing of the team; otherwise the slice and its directory entry are written, the range
above the mark is released, FSP, FB and the mark-chain head are the mark's, every lane's counters come back from it, every
lane's pair holds the handle, and the mark's RESUME clause is next. -/
def Sys2Proof.Claims.Cut : Prop :=
  ∀ (s : State) (t : Team) (c : Clause) (d : Code) (tag : BitVec 16), Issues s t c →
    let out := exec (.cut d tag) s
    (t.lowest = none → Skips s t c 0 1 out) ∧
    (t.lowest ≠ none → t.pend ≠ [] ∨ copiesDone s s.cur t = false → out = .next s) ∧
    (t.lowest ≠ none → t.pend = [] → copiesDone s s.cur t = true →
      let s1 := drainFrame s s.cur false []
      StoreSide s s1 ∧ ∀ t1, s1.team s.cur = some t1 → SameButWindow t t1 ∧
        let m := t1.findMark tag.toNat t1.chainBound t1.head.toNat
        let lo := m + 32 + 16 * ((t.lanes + 15) / 16)
        let F := t.fsp.toNat - lo
        let n := 64 + 16 * ((t.lanes + 15) / 16) + 4 * t.lanes * t.nregs + F + 16 * ((F + 1023) / 1024)
        (m = 0 → Traps s1 t1 c 0x0E 0 out) ∧
        (m ≠ 0 → sliceStore s1 t1 = none ∨ 65536 < n → Traps s1 t1 c 0x0F 0 out) ∧
        ∀ base size, m ≠ 0 → sliceStore s1 t1 = some (base, size) → n ≤ 65536 →
          let m1 := rangeAccess s1 s.cur t1 false lo F
          Refused s1 t1 c out m1 ∧ ∀ fs, m1.1 = .ok fs →
          let m2 := rangeAccess m1.2 s.cur t1 false base 2048
          Refused m1.2 t1 c out m2 ∧ ∀ ds, m2.1 = .ok ds →
          let s2 := drainFrame m2.2 s.cur false ds
          let dir := readSegs s2 ds base 2048
          let k := (n + 2047) / 2048
          let room (b : Nat) : Prop := b + k ≤ size / 2048 ∧ ∀ j < k, blockUsed dir (entryCount size) (b + j) = false
          ((∀ e < entryCount size, entryLive (dirEntry dir e) = true) ∨ (∀ b, 1 ≤ b → ¬ room b) →
            Traps s2 t1 c 0x0F 0 out) ∧
          ∀ e b, e < entryCount size → entryLive (dirEntry dir e) = false →
            (∀ j < e, entryLive (dirEntry dir j) = true) → 1 ≤ b → room b → (∀ j, 1 ≤ j → j < b → ¬ room j) →
            let m3 := rangeAccess s2 s.cur t1 true (base + 16 * e) 16
            Refused s2 t1 c out m3 ∧ ∀ xs, m3.1 = .ok xs →
            let m4 := rangeAccess m3.2 s.cur t1 true (base + 2048 * b) (2048 * k)
            Refused m3.2 t1 c out m4 ∧ ∀ ys, m4.1 = .ok ys →
              let gen := if entryGen (dirEntry dir e) = 65535 then 1 else entryGen (dirEntry dir e) + 1
              let part := ownPart s t
              let link := t1.linkFrame lo t.fsp.toNat t1.chainBound t.fb.toNat
              let slice := sliceHead t1 c.follow (link.map fun x => x - lo) d ++ Memory.read t1.frame (lo - t.base) F ++
                refBytes t1 (lo - t.base) F
              let entry := toBytes 2 gen ++ toBytes 1 1 ++ toBytes 1 part ++ toBytes 2 b ++ toBytes 2 k ++ toBytes 4 n ++
                toBytes 4 F
              let s3 := drainFrame m4.2 s.cur true (xs ++ ys)
              let s4 := writeSegs (writeSegs s3 ys (base + 2048 * b) slice false) xs (base + 16 * e) entry false
              let handle : DWord := BitVec.ofNat 64 (e + 2 ^ 16 * gen + 2 ^ 32 * part)
              ∃ t2 t', s4.team s.cur = some t2 ∧ SameButWindow t t2 ∧ out = .next (s4.putTeam s.cur t') ∧
                t'.fsp = BitVec.ofNat 64 lo ∧ t'.head = BitVec.ofNat 64 m ∧ t'.fb = BitVec.ofNat 64 (t2.frameNum (m + 16) 8) ∧
                Branched t2 t' c (BitVec.ofNat 64 (t2.frameNum (m + 8) 8)) ∧
                (∀ l < t.lanes, t'.reg d.toNat l = handle.extractLsb' 0 32) ∧
                (∀ r l, (∀ j < t.lanes, regKey r l ≠ regKey d.toNat j ∧ regKey r l ≠ regKey (d.toNat + 1) j) →
                  t'.reg r l = t2.reg r l) ∧
                (∀ l < t.lanes,
                  let v := Memory.get t2.frame (m + 32 - t.base + l)
                  t'.depth l = v.toNat % 2 ^ 7 ∧ t'.broken l = v.getLsbD 7) ∧
                SamePlaceApart { t2 with frame := t'.frame, refs := t'.refs, fsp := t'.fsp, fb := t'.fb, head := t'.head
                                         d := t'.d, b := t'.b, regs := t'.regs } t')

/-- GRAFT (R141, R386, R387): held while the team has results outstanding; a handle or a record that its checks refuse, a
window without room, a failed access and frames that would leave local memory without a valid key trap; otherwise the slice's frames stand rebased from the old FSP on, registers,
formats and lane counters are the slice's but for the argument pair, FSP rises by the frames, the marks that do
not lie wholly below the new FSP are unlinked, and the slice's RESUME clause is next. -/
def Sys2Proof.Claims.Graft : Prop :=
  ∀ (s : State) (t : Team) (c : Clause) (g : Code) (slot : BitVec 3), Issues s t c →
    let out := exec (.graft g slot) s
    (t.lowest = none → Skips s t c 0 1 out) ∧
    (t.lowest ≠ none → t.pend ≠ [] → out = .next s) ∧
    ∀ l0, t.lowest = some l0 → t.pend = [] →
      let r := checkHandle s.bump t (pair s.fresh t g l0)
      (∀ cause a, r.1 = .error (cause, a) → out = accessTrap r.2 t c cause a) ∧
      ∀ base i e, r.1 = .ok (base, i, e) →
        let a := base + 2048 * num e 4 2
        let F := num e 12 4
        let m1 := rangeAccess r.2 r.2.cur t false a 64
        Refused r.2 t c out m1 ∧ ∀ rs, m1.1 = .ok rs →
        let s1 := drainFrame m1.2 s.cur false rs
        let rec_ := readSegs s1 rs a 64
        let link := num rec_ 24 4
        let dreg := num rec_ 31 1
        let shape := num rec_ 28 2 = t.lanes ∧ num rec_ 30 1 = t.nregs ∧
          (link = 0xFFFFFFFF ∨ (link % 16 = 0 ∧ link + 16 ≤ F)) ∧ dreg % 2 = 0 ∧ dreg + 1 < t.nregs
        (¬ shape → Traps s1 t c 0x0D 0 out) ∧
        (shape → t.limit < t.fsp.toNat + F → Traps s1 t c 0x14 0 out) ∧
        (shape → t.fsp.toNat + F ≤ t.limit →
          let m2 := rangeAccess s1 s.cur t false (a + 64) (sliceSize t F - 64)
          Refused s1 t c out m2 ∧ ∀ bs, m2.1 = .ok bs →
          let t1 : Team := { t with fsp := t.fsp + BitVec.ofNat 64 F }
          let m3 := rangeAccess m2.2 s.cur t1 true t.fsp.toNat F
          Refused m2.2 t c out m3 ∧ ∀ fs, m3.1 = .ok fs → Spills m3.2 m3.2 t t1 c t.fsp out fun s3 =>
            let s4 := drainFrame (drainFrame s3 s.cur false bs) s.cur true fs
            let body := readSegs s4 bs (a + 64) (sliceSize t F - 64)
            let o := 16 * ((t.lanes + 15) / 16) + 4 * t.lanes * t.nregs
            let hi := BitVec.ofNat 64 (num rec_ 16 8)
            let lo := hi - BitVec.ofNat 64 F
            let delta := t.fsp - lo
            let fb := BitVec.ofNat 64 (num rec_ 8 8)
            let plain := graftFrames ((body.drop o).take F) (body.drop (o + F)) lo hi delta
            let frames := if link = 0xFFFFFFFF then plain
              else patch plain link (toBytes 8 c.follow.toNat ++ toBytes 8 t.fb.toNat)
            let s2 := writeSegs s4 fs t.fsp.toNat frames false
            ∃ t2 t', s2.team s.cur = some t2 ∧ SameButWindow t t2 ∧ out = .next (spillCheck (s2.putTeam s.cur t') s.cur) ∧
              t'.fsp = (if lo.ule hi then hi + delta else hi) ∧
              t'.fb = (if lo.ule fb ∧ fb.ule hi then fb + delta else t.fb) ∧ Unlinked t2 t' ∧
              Branched t2 t' c (BitVec.ofNat 64 (num rec_ 0 8)) ∧
              (∀ j < 8, t'.fmtReg j = BitVec.ofNat 32 (num rec_ (32 + 4 * j) 4 % 2 ^ 21)) ∧
              (∀ l < t.lanes,
                let v := (body[l]?).getD 0
                t'.depth l = v.toNat % 2 ^ 7 ∧ t'.broken l = v.getLsbD 7 ∧
                (t.lanes ≤ 1024 → t'.reg dreg l = (pair s.fresh t (g + 2) l).extractLsb' 0 32 ∧
                  t'.reg (dreg + 1) l = (pair s.fresh t (g + 2) l).extractLsb' 32 32) ∧
                ∀ n < t.nregs, n ≠ dreg → n ≠ dreg + 1 → t.lanes ≤ 1024 →
                  t'.reg n l = BitVec.ofNat 32 (num body (16 * ((t.lanes + 15) / 16) + 4 * (n * t.lanes + l)) 4)) ∧
              SamePlaceApart { t2 with refs := t'.refs, fsp := t'.fsp, fb := t'.fb, head := t'.head, d := t'.d, b := t'.b
                                       regs := t'.regs, fmt := t'.fmt } t')

/-- GRAFT lays a slice on the stack of its team. -/
def Obligations.GraftLaysSlice : Prop := Sys2Proof.Claims.Graft

/-- CUT, GRAFT and SLFREE complete (R137, R141, R142): CUT where the team has no work outstanding, a mark of the tag is
found, the slice store is usable, the slice is no more than 64 KiB, its ranges pass the checks of an access, and the
directory has an entry and a run of blocks free; GRAFT where no result is outstanding, its handle passes, the slice fits
the team and the window, its ranges pass, and no frame need leave local memory; SLFREE where its handle passes and its
directory entry may be written. CUT and GRAFT leave their team at the mark's and the slice's RESUME clause, before the check of
its spill space (R309); SLFREE leaves it at its next word. -/
def Sys2Proof.Claims.SlicesComplete : Prop :=
  ∀ (s s1 s2 s3 s4 s5 s6 : State) (t t1 : Team) (c : Clause) (d g : Code) (tag : BitVec 16) (slot : BitVec 3)
      (l0 m base size i b : Nat) (e rec_ : List Byte) (fs ds xs ys rs bs : List Seg),
    Issues s t c → t.lowest = some l0 →
    (t.pend = [] → copiesDone s s.cur t = true → drainFrame s s.cur false [] = s1 → s1.team s.cur = some t1 →
      t1.findMark tag.toNat t1.chainBound t1.head.toNat = m → m ≠ 0 → sliceStore s1 t1 = some (base, size) →
      let lo := m + t.markSize
      let n := sliceSize t (t.fsp.toNat - lo)
      n ≤ 65536 → rangeAccess s1 s.cur t1 false lo (t.fsp.toNat - lo) = (.ok fs, s2) →
      rangeAccess s2 s.cur t1 false base 2048 = (.ok ds, s3) → drainFrame s3 s.cur false ds = s4 →
      findFrom (fun j => !entryLive (dirEntry (readSegs s4 ds base 2048) j)) 0 (entryCount size) = some i →
      freeRun (readSegs s4 ds base 2048) size (ceilDiv n 2048) = some b →
      rangeAccess s4 s.cur t1 true (base + 16 * i) 16 = (.ok xs, s5) →
      rangeAccess s5 s.cur t1 true (base + 2048 * b) (2048 * ceilDiv n 2048) = (.ok ys, s6) →
      ∃ u t', exec (.cut d tag) s = .next u ∧ u.team s.cur = some t' ∧ t'.fsp = BitVec.ofNat 64 lo ∧
        t'.head = BitVec.ofNat 64 m ∧ t'.clause = none ∧ t'.slot = 0 ∧ t'.resume = 0) ∧
    (t.pend = [] → checkHandle s.bump t (pair s.fresh t g l0) = (.ok (base, i, e), s1) →
      let a := base + 2048 * entryFirst e
      let f := entryFrame e
      rangeAccess s1 s.cur t false a 64 = (.ok rs, s2) → drainFrame s2 s.cur false rs = s3 → readSegs s3 rs a 64 = rec_ →
      num rec_ 28 2 = t.lanes → num rec_ 30 1 = t.nregs → num rec_ 31 1 % 2 = 0 → num rec_ 31 1 + 1 < t.nregs →
      num rec_ 24 4 = 0xFFFFFFFF ∨ (num rec_ 24 4 % 16 = 0 ∧ num rec_ 24 4 + 16 ≤ f) → t.fsp.toNat + f ≤ t.limit →
      rangeAccess s3 s.cur t false (a + 64) (sliceSize t f - 64) = (.ok bs, s4) →
      rangeAccess s4 s.cur { t with fsp := t.fsp + BitVec.ofNat 64 f } true t.fsp.toNat f = (.ok fs, s5) →
      (spillRefused s5 t { t with fsp := t.fsp + BitVec.ofNat 64 f }).1 = false →
      ∃ (u : State) (t' : Team), exec (.graft g slot) s = .next (spillCheck (u.putTeam s.cur t') s.cur) ∧
        t'.clause = none ∧ t'.slot = 0 ∧ t'.resume = 0 ∧ t'.pc = BitVec.ofNat 64 (num rec_ 0 8)) ∧
    (checkHandle s.bump t (pair s.fresh t g l0) = (.ok (base, i, e), s1) →
      rangeAccess s1 s.cur t true (base + 16 * i) 16 = (.ok xs, s2) →
      ∃ u t', exec (.slfree g slot) s = .next u ∧ u.team s.cur = some t' ∧ t'.nextWord = t.nextWord + 1 ∧
        Past { t with nextWord := t.nextWord + 1 } t' c 1)

/-- CUT lifts the frames above the mark into a slice. -/
def Obligations.CutLiftsFrames : Prop := Sys2Proof.Claims.Cut ∧ Sys2Proof.Claims.SlicesComplete

/-! ## Words that park, and the events that end them (R62, R163, R164, R231, R232, R271, R323, R334, R418, R452) -/

/-- The team parks at its word, and nothing else changes, but for n free values drawn. -/
def Sys2Proof.Claims.Parks (s : State) (t : Team) (n : Nat) (p : Park) (out : Out) : Prop := OnlyTeam s n { t with park := p } out

/-- WFI, TLBINV, ICINV and MSTART at issue: skipped with no active lane, PRIVILEGE below the level that they ask for,
otherwise parked with what they read. ICINV performs its team's held stores and drops every loop-buffer entry, and every
clause fetched but not started, of the scope's cores and of their clusters' streams. MSTART checks its descriptor in
R231's order. -/
def Sys2Proof.Claims.ParkingWords : Prop :=
  ∀ (s : State) (t : Team) (c : Clause) (w : Workgroup) (a b d g : Code) (scope : InvScope) (ng : Bool) (slot : BitVec 3),
    Issues s t c → s.wg t.wg = some w →
    let wfi := exec (.wfi d a) s
    let tlb := exec (.tlbinv a b scope ng) s
    let icinv := exec (.icinv scope) s
    let mst := exec (.mstart g slot) s
    (t.lowest = none → Skips s t c 0 1 wfi ∧ Skips s t c 0 2 tlb ∧ Skips s t c 0 1 icinv ∧ Skips s t c 0 1 mst) ∧
    ∀ l0, t.lowest = some l0 →
      let n := (reads s t a l0).toNat
      (t.priv < 2 → Traps s t c 0x13 0 wfi) ∧
      (2 ≤ t.priv → Parks s t 1 (.wfi d (if n = 0 then none else some (s.ns + 1000 * n))) wfi) ∧
      (t.priv = 0 ∨ (scope = .dev ∧ t.priv < 2) → Traps s t c 0x13 0 tlb) ∧
      (t.priv ≠ 0 → ¬ (scope = .dev ∧ t.priv < 2) →
        Parks s t 1 (.tlbinv ((pair s.fresh t a l0).toNat / 2 ^ 16 % 2 ^ 41 * 2 ^ 16) (2 ^ 16 * (reads s t b l0).toNat) scope ng)
          tlb) ∧
      (scope = .dev → t.priv < 2 → Traps s t c 0x13 0 icinv) ∧
      (¬ (scope = .dev ∧ t.priv < 2) → ∃ s1 t1,
        icinv = .next s1 ∧ s1.team s.cur = some t1 ∧ t1.park = .icinv scope (icinvTeams s s.cur t scope) ∧ t1.stores = [] ∧
        (∀ k ∈ scopeCores s t scope, fget noClauses s1.loopBuf k = []) ∧
        (∀ u y x, s1.team u = some y → teamCore s y ∈ scopeCores s t scope → y.clause = some x → x.started = true) ∧
        (∀ u y x k, s1.stream u = some y → k ∈ scopeCores s t scope → y.cluster = k / 4 → y.clause = some x →
          x.started = true) ∧
        s1 = { s with teams := s1.teams, wgs := s1.wgs, scratch := s1.scratch, scratchBad := s1.scratchBad
                      streams := s1.streams, loopBuf := s1.loopBuf, nextUid := s1.nextUid }) ∧
      (let image := pair s.fresh t g l0
       let d := (readReg s.fresh t (g.toNat + 2) l0).toNat
       let win := d % 2 ^ 9
       let slots := d / 2 ^ 16 % 2 ^ 7
       let bad := d / 2 ^ 9 % 2 ^ 7 ≠ 0 ∨ d / 2 ^ 23 ≠ 0 ∨ readReg s.fresh t (g.toNat + 3) l0 ≠ 0
       (image.toNat % 16 ≠ 0 ∨ 2 ^ 57 ≤ image.toNat → Traps s.bump t c 5 image mst) ∧
       (image.toNat % 16 = 0 → image.toNat < 2 ^ 57 →
         (win = 0 ∨ 256 < win ∨ bad → Traps s.bump t c 0x12 0 mst) ∧
         (1 ≤ win → win ≤ 256 → ¬ bad → (slots = 0 ∨ 64 < slots → Traps s.bump t c 0x11 0 mst) ∧
           (1 ≤ slots → slots ≤ 64 →
             (¬ (w.stream = none ∧ (entriesOf s (w.core / 4)).length < 16) → Parks s t 1 (.mstart image win slots) mst) ∧
             (w.stream = none → (entriesOf s (w.core / 4)).length < 16 →
               Accepted (takeEntry s.bump s.cur t w image win slots) s.cur c mst)))))

/-- A reservation entry is taken (R230, R232, R242): the team's held stores are performed, and the workgroup has a new
stream with the team's format registers, each barrier's current round and its launch's rank, not yet admitted. -/
def Sys2Proof.Claims.StreamEntry : Prop :=
  ∀ (s : State) (t : Team) (w : Workgroup) (u win slots : Nat) (image : DWord), s.wg t.wg = some w →
    let r := takeEntry s u t w image win slots
    ∃ x w1, r.stream s.nextUid = some x ∧ x.wg = t.wg ∧ x.cluster = w.core / 4 ∧ x.image = image ∧ x.pc = image ∧ x.w = win ∧
      x.s = slots ∧ x.fmt = t.fmt ∧ (∀ k < 16, fget zeroNat x.rounds k = (w.bar k).round) ∧
      x.rank = ((s.launch t.launch).map fun y => y.rank).getD 0 ∧ x.admitted = false ∧ x.clause = none ∧ x.inflight = [] ∧ x.mwait = none ∧
      (∀ n, (x.slotAt n).inUse = false) ∧ r.wg t.wg = some w1 ∧ w1.stream = some s.nextUid ∧
      (∀ k, k ≠ s.nextUid → r.stream k = s.stream k) ∧
      (∀ g, g ≠ t.wg → SharedSide s r g) ∧ ∀ v, WindowSide s r v

/-- WFI, TLBINV, ICINV and MSTART complete (R62, R164, R232, R271, R334), each at the level that it asks for: WFI and its
WFI_RESUME, where a wake bit is set and the cluster is ON with its clock running; TLBINV and its TLBINV_COMPLETION, where no
copy holds a tile; ICINV and its ICINV_COMPLETION, where no other team and no stream of the scope is resident; MSTART
with a good descriptor and an entry free. Each leaves its team past its word. -/
def Sys2Proof.Claims.ParkingWordsComplete : Prop :=
  ∀ (s : State) (t : Team) (c : Clause) (w : Workgroup) (l0 : Nat) (a b d g : Code) (scope : InvScope) (ng : Bool)
      (slot : BitVec 3), Issues s t c → s.wg t.wg = some w → t.lowest = some l0 →
    let bits := fget zeroNat s.wake w.core
    let image := (pair s.fresh t g l0).toNat
    let x := (readReg s.fresh t (g.toNat + 2) l0).toNat
    let t0 : Team := { t with park := .none }
    (2 ≤ t.priv → clState s (w.core / 4) = 0 → pointAt s (w.core / 4) ≠ 0 → bits ≠ 0 →
      ∃ s1 s2 t', exec (.wfi d a) s = .next s1 ∧ exec (.wfiResume s.cur) s1 = .next s2 ∧ s2.team s.cur = some t' ∧
        Past t0 t' c 1 ∧ (∀ l ∈ t.activeLanes, t'.reg d.toNat l = BitVec.ofNat 32 bits) ∧ fget zeroNat s2.wake w.core = 0) ∧
    (t.priv ≠ 0 → ¬ (scope = .dev ∧ t.priv < 2) → (∀ e ∈ entries s.copies, e.2.late = [] ∧ e.2.suspended = none) →
      ∃ s1 s2 t', exec (.tlbinv a b scope ng) s = .next s1 ∧ exec (.tlbinvCompletion s.cur) s1 = .next s2 ∧
        s2.team s.cur = some t' ∧ Past t0 t' c 2) ∧
    (¬ (scope = .dev ∧ t.priv < 2) → c.started = true → icinvTeams s s.cur t scope = [] →
      ∃ s1 s2 t', exec (.icinv scope) s = .next s1 ∧ exec (.icinvCompletion s.cur) s1 = .next s2 ∧
        s2.team s.cur = some t' ∧ Past t0 t' c 1 ∧ t'.stores = []) ∧
    (image % 16 = 0 → image < 2 ^ 57 → 1 ≤ x % 2 ^ 9 → x % 2 ^ 9 ≤ 256 → x / 2 ^ 9 % 2 ^ 7 = 0 → 1 ≤ x / 2 ^ 16 % 2 ^ 7 →
      x / 2 ^ 16 % 2 ^ 7 ≤ 64 → x / 2 ^ 23 = 0 → readReg s.fresh t (g.toNat + 3) l0 = 0 → w.stream = none →
      (entriesOf s (w.core / 4)).length < 16 →
      ∃ u t', exec (.mstart g slot) s = .next u ∧ u.team s.cur = some t' ∧ t'.nextWord = t.nextWord + 1 ∧
        Past { t with nextWord := t.nextWord + 1 } t' c 1 ∧ (u.stream s.nextUid).isSome = true)

/-- The words that park their team, and the taking of a reservation entry. -/
def Obligations.ParkingWords : Prop := Sys2Proof.Claims.ParkingWords ∧ Sys2Proof.Claims.StreamEntry ∧ Sys2Proof.Claims.ParkingWordsComplete

/-- A cached translation that TLBINV removes (R164): of its partition, or of any for DEV; non-global under NG; and mapping
a byte of the range. -/
def Sys2Proof.Claims.Removed (dev : Bool) (part : Option Nat) (start len : Nat) (ng : Bool) (x : Tlb) : Prop :=
  (dev = true ∨ x.part = part) ∧ ¬ (ng = true ∧ x.pte.global = true) ∧
  (len = 0 ∨ (x.base < start + len ∧ start < x.base + x.size))

/-- The events that end a park (R62, R164, R232, R271, R334): WFI_RESUME reads and clears the core's wake bits in one
step, with 4 for a timeout, writes them to every active lane and lets the team go on; an agent whose cluster's clock stands
still does not go on, and while the cluster is not ON only the timeout ends its park (R323). TLBINV_COMPLETION removes what
TLBINV names; once no copy of its scope holds a removed translation for a tile that it has not finished, it tries the
suspended operations again and lets the team go on past its two slots. ICINV_COMPLETION waits for every team and stream that it
names. RESERVATION_ENTRY_GRANT takes the entry once one is free and the team may act. -/
def Obligations.ParkEnds : Prop :=
  ∀ (s : State) (t : Team) (c : Clause) (w : Workgroup) (u : Nat), s.team u = some t → t.clause = some c → s.wg t.wg = some w →
    (∀ d until_, t.park = .wfi d until_ →
      let bits := fget zeroNat s.wake w.core
      let awake := pointAt s (w.core / 4) ≠ 0 ∧
        ((clState s (w.core / 4) = 0 ∧ bits ≠ 0) ∨ ∃ x, until_ = some x ∧ x ≤ s.ns)
      (¬ awake → exec (.wfiResume u) s = .next s) ∧
      (awake → ∃ (s1 : State) (t' : Team), exec (.wfiResume u) s = .next (s1.putTeam u t') ∧ s1 = { s with wake := s1.wake } ∧
        (∀ k, fget zeroNat s1.wake k = if k = w.core then 0 else fget zeroNat s.wake k) ∧
        Past { t with park := .none } t' c 1 ∧ SameButRegs { t with park := .none } t' ∧
        Wrote t t' d.toNat fun _ => if bits = 0 then 4 else BitVec.ofNat 32 bits)) ∧
    (∀ start len scope ng, t.park = .tlbinv start len scope ng → ∃ (s1 s2 : State) (t' : Team),
      s1 = { s with tlb1 := s1.tlb1, tlb2 := s1.tlb2 } ∧
      (let part := if t.priv = 2 then none else some w.part
       let gone := Removed (scope == .dev) part start len ng
       let near (k : Nat) : Prop := scope = .part ∨ scope = .dev ∨ k ∈ scopeCores s t scope
       let beside (k : Nat) : Prop := scope = .part ∨ scope = .dev ∨ k = w.core / 4 ∨ ∃ j ∈ scopeCores s t scope, j / 4 = k
       (∀ k x, x ∈ fget noTlbs s1.tlb1 k ↔ x ∈ fget noTlbs s.tlb1 k ∧ ¬ (near k ∧ gone x)) ∧
       (∀ k x, x ∈ fget noTlbs s1.tlb2 k ↔ x ∈ fget noTlbs s.tlb2 k ∧ ¬ (beside k ∧ gone x)) ∧
       s2 = ((entries s1.copies).filter fun e => e.2.suspended.isSome && !e.2.saved &&
         (scope == .dev || e.2.requester.part == part)).foldl (fun s e => retryCopy s e.1) s1 ∧
       let held (y : Copy) : Prop := (scope = .part ∨ scope = .dev ∨ ∃ k, y.core = some k ∧
           (k / 4 = w.core / 4 ∨ k ∈ scopeCores s t scope)) ∧
         ∃ x ∈ y.late, Removed (scope == .dev) part start len false x.srcPage ∨
           Removed (scope == .dev) part start len false x.dstPage
       ((∃ e ∈ entries s.copies, held e.2) → exec (.tlbinvCompletion u) s = .next s1) ∧
       ((∀ e ∈ entries s.copies, ¬ held e.2) → exec (.tlbinvCompletion u) s = .next (s2.putTeam u t'))) ∧
      Past { t with park := .none } t' c 2 ∧ SamePlaceApart { t with park := .none } t') ∧
    (∀ scope teams, t.park = .icinv scope teams →
      ((∃ x ∈ teams, icinvPasses s x = false) → exec (.icinvCompletion u) s = .next s) ∧
      ((∀ x ∈ teams, icinvPasses s x = true) → ∃ t', exec (.icinvCompletion u) s = .next (s.putTeam u t') ∧
        Past { t with park := .none } t' c 1 ∧ SamePlaceApart { t with park := .none } t')) ∧
    ∀ image win slots, t.park = .mstart image win slots →
      let free := w.stream = none ∧ (entriesOf s (w.core / 4)).length < 16 ∧ mayAct s t = true
      (¬ free → exec (.reservationEntryGrant u) s = .next s) ∧
      (free → ∃ t1 t', (takeEntry s u t w image win slots).team u = some t1 ∧
        exec (.reservationEntryGrant u) s = .next ((takeEntry s u t w image win slots).putTeam u t') ∧
        Past { t1 with park := .none, nextWord := t1.nextWord + 1 } t' c 1 ∧
        SamePlaceApart { t1 with park := .none, nextWord := t1.nextWord + 1 } t')

/-! ## The stream words (R236 to R242, R244, R407 to R412, R416, R419) -/

/-- A stream word of len slots has issued: its stream, as x1 says, is past the word; its next engine operation counts as
ready from now on where its dependences are met (R233). Nothing else of s1 has changed. -/
def Sys2Proof.Claims.StreamGoes (s1 : State) (k : Nat) (x1 : Stream) (c : Clause) (len : Nat) (out : Out) : Prop :=
  ∃ x', out = .next (s1.putStream k x') ∧
    x' = { x1 with slot := x'.slot, clause := x'.clause, pc := x'.pc, readyAt := x'.readyAt, waited := 0 } ∧
    (if x1.slot + len < c.count then x'.slot = x1.slot + len ∧ x'.clause = x1.clause ∧ x'.pc = x1.pc
     else x'.slot = 0 ∧ x'.clause = none ∧ x'.pc = c.addr + BitVec.ofNat 64 (4 * (c.count + 1))) ∧
    ((∃ n, x'.readyAt = some n) → x'.readyAt = some (cyclesOf s1 x1.cluster))

/-- MCLAIM, MREL, MZERO, MWAIT, MSIG and MEND (R237, R240 to R242, R407, R408, R416, R419). MWAIT waits while its round has not
completed, its barrier is VALID, and no invalidation has ended its wait (R211). -/
def Obligations.StreamControl : Prop :=
  ∀ (s : State) (x : Stream) (c : Clause) (w : Workgroup) (a b : BitVec 6) (t : Code) (k : BitVec 4), Streams s x c w →
    let named (n : Nat) : Prop := a.toNat ≤ n ∧ n ≤ b.toNat
    let quiet := x.inflight = []
    (∃ x1, StreamGoes s.bump s.curStream x1 c 1 (exec (.mclaim a b) s) ∧ x1 = { x with slots := x1.slots } ∧
      ∀ n, (named n → (x1.slotAt n).inUse = true) ∧ (¬ named n ∨ (x.slotAt n).inUse = true → x1.slotAt n = x.slotAt n)) ∧
    ((∃ o ∈ x.inflight, ∃ n ∈ o.slots, named n) → exec (.mrel a b) s = .next s) ∧
    ((∀ o ∈ x.inflight, ∀ n ∈ o.slots, ¬ named n) →
      ∃ x1, StreamGoes s s.curStream x1 c 1 (exec (.mrel a b) s) ∧ x1 = { x with slots := x1.slots } ∧
        ∀ n, (named n → (x1.slotAt n).inUse = false) ∧ (¬ named n → x1.slotAt n = x.slotAt n)) ∧
    (∀ y, w.window = some y → ∃ y',
      StreamGoes (s.putWg x.wg { w with window := some y' }) s.curStream
        { x with inflight := x.inflight ++ [{ slots := [], tiles := [t.toNat], engine := true, mem := none }] } c 1 (exec (.mzero t) s) ∧
      y' = { y with tiles := y'.tiles, inUse := y'.inUse, dirty := y'.dirty, bad := y'.bad } ∧
      (∀ e < 1024, y'.element t.toNat e = 0) ∧
      ∀ n e, n ≠ t.toNat → e < 1024 → y'.element n e = y.element n e) ∧
    (let b := w.bar k.toNat
     let r := fget zeroNat x.rounds k.toNat
     let done_ := ¬ (b.valid = true ∧ b.round ≤ r) ∨ x.mwait = some (k.toNat, true)
     let x1 : Stream := { x with rounds := fset zeroNat x.rounds k.toNat (r + 1) }
     (¬ quiet → exec (.mwait k) s = .next s) ∧
     (quiet → ¬ done_ → exec (.mwait k) s = .next (s.putStream s.curStream { x with mwait := some (k.toNat, false) })) ∧
     (quiet → done_ → StreamGoes s s.curStream { x1 with mwait := none } c 1 (exec (.mwait k) s)) ∧
     (¬ quiet → exec (.msig k) s = .next s) ∧
     (quiet → ∃ s1, StreamGoes s s.curStream x1 c 1 (.next s1) ∧
       exec (.msig k) s = .next (arrive s1 x.wg k.toNat none none))) ∧
    (¬ quiet → exec .mend s = .next s) ∧
    (quiet → exec .mend s = .next ((s.dropStream s.curStream).putWg x.wg { w with stream := none }))

/-- The stream fails with a cause (R234). -/
abbrev Sys2Proof.Claims.StreamFails (s : State) (cause : Nat) (out : Out) : Prop := out = .next (failStream s s.curStream cause)

/-- A check word fails under a stream's word (R175, R178): it is logged, and the stream fails with CHECK_FAIL. -/
def Sys2Proof.Claims.StreamCheckFails (s : State) (out : Out) : Prop := ∃ s', MemSide s s' ∧ StreamFails s' 9 out

/-- MLOAD and MSTORE (R235, R238, R241, R409, R410): the checks of the slot or the window, of OFF and of the space fail the
stream in that order; otherwise the stream goes on, and the operation stays with it, to be performed by its 16-byte parts
(R183, R193). -/
def Sys2Proof.Claims.StreamTransfers : Prop :=
  ∀ (s : State) (x : Stream) (c : Clause) (w : Workgroup) (a : BitVec 6) (sc tr : Bool) (size : MSize) (stride : BitVec 12)
      (off : BitVec 20) (t : Code) (f : MStFmt), Streams s x c w →
    let place : Place := if sc then .scratch w.core else .shared x.wg
    let room : Nat := if sc then 262144 else w.sharedSz
    let row (n q : Nat) : Nat := off.toNat + q * (if stride = 0 then n else 16 * stride.toNat)
    let inside (rows n : Nat) : Prop := ∀ q < rows, row n q + n ≤ room ∧
      (sc = true → w.core = 0 → w.agent = false → 65536 ≤ row n q)
    let mem (move : StreamMove) (rows n : Nat) : StreamMem :=
      { move := move, place := place, rows := (List.range rows).map (row n), rowBytes := n, got := []
        left := (List.range rows).flatMap fun q => (List.range (n / 16)).map fun i => (q, 16 * i) }
    let v := x.slotAt a.toNat
    let shape := loadShape size tr
    let ld := exec (.mload a sc tr size stride off) s
    let st := exec (.mstore t sc f stride off) s
    let n : Nat := if f = .f32 then 128 else 64
    (size = .s → shape = (32, 16)) ∧ (size ≠ .s → tr = false → shape = (32, 128)) ∧
    (tr = true → (size = .h → shape = (64, 64)) ∧ (size = .b → shape = (128, 32)) ∧ (size = .n → shape = (256, 16))) ∧
    (v.inUse = false → StreamFails s 0x11 ld) ∧
    (v.inUse = true → off.toNat % 16 ≠ 0 → StreamFails s 5 ld) ∧
    (v.inUse = true → off.toNat % 16 = 0 → ¬ inside shape.1 shape.2 → StreamFails s 7 ld) ∧
    (v.inUse = true → off.toNat % 16 = 0 → inside shape.1 shape.2 → StreamGoes s s.curStream { x with
      inflight := x.inflight ++ [{ slots := [a.toNat], tiles := [], engine := false
                                   mem := some (mem (.load a.toNat size tr) shape.1 shape.2) }] } c 2 ld) ∧
    (w.window = none → StreamFails s 0x12 st) ∧
    (w.window ≠ none → off.toNat % 16 ≠ 0 → StreamFails s 5 st) ∧
    (w.window ≠ none → off.toNat % 16 = 0 → ¬ inside 32 n → StreamFails s 7 st) ∧
    (w.window ≠ none → off.toNat % 16 = 0 → inside 32 n → StreamGoes s s.curStream { x with
      inflight := x.inflight ++ [{ slots := [], tiles := [t.toNat], engine := false
                                   mem := some (mem (.store t.toNat f) 32 n) }] } c 2 st)

/-- A part of an MLOAD or an MSTORE (R175, R181, R182, R193, R194, R238, R240, R241): it may come where no earlier operation of
the stream shares a tile or a slot with it, and none, nor an earlier part of its own, has still to reach the same bytes. A
part of an MLOAD reads 16 bytes, with what the workgroup's teams have stored there and brought to its scope; a part of an
MSTORE writes 16 bytes of the tile's row, behind such stores, and no other byte of any place. A granule whose check word fails is answered, and
nothing is done: of an MLOAD's source, of the tile, or of the memory that an MSTORE does not cover whole. -/
def Sys2Proof.Claims.StreamParts : Prop :=
  ∀ (s : State) (st k : Nat) (x : Stream) (w : Workgroup) (o : StreamOp) (m : StreamMem) (p : Nat × Nat),
    s.stream st = some x → s.wg x.wg = some w → x.inflight[k]? = some o → o.mem = some m →
    m.place = .scratch w.core ∨ m.place = .shared x.wg →
    let at_ (q : Nat × Nat) : Nat := (m.rows[q.1]?).getD 0 + q.2
    let near (u v : Nat) : Prop := u < v + 16 ∧ v < u + 16
    let g := at_ p / 64
    let r := performPart s st k p
    let goes (s1 : State) (got : Memory) : Prop := r = (none, s1.putStream st { x with
      inflight := x.inflight.mapIdx fun j y =>
        if j = k then { y with mem := some { m with left := m.left.filter fun q => q ≠ p, got := got } } else y })
    (x.mayPart k o m p = true ↔
      (∀ e ∈ x.inflight.take k, (∀ t ∈ e.tiles, t ∉ o.tiles) ∧ (∀ n ∈ e.slots, n ∉ o.slots) ∧
        ∀ y, e.mem = some y → y.place = m.place → ∀ q ∈ y.left, ¬ near ((y.rows[q.1]?).getD 0 + q.2) (at_ p)) ∧
      ∀ q ∈ (m.left.takeWhile fun q => q ≠ p), ¬ near (at_ q) (at_ p)) ∧
    (∀ a size tr, m.move = .load a size tr →
      (placeBad s m.place g = true → r = (some g, s)) ∧
      (placeBad s m.place g = false → ∃ got, goes s got ∧
        (∀ i < 16, Memory.get got (4096 * p.1 + p.2 + i) = streamByte s x.wg m.place (at_ p + i)) ∧
        ∀ b, b < 4096 * p.1 + p.2 ∨ 4096 * p.1 + p.2 + 16 ≤ b → Memory.get got b = Memory.get m.got b)) ∧
    ∀ t f y, m.move = .store t f → w.window = some y → p.2 + 16 ≤ (if f = .f32 then 128 else 64) →
      (∀ c, m.place = .scratch c → at_ p + 16 ≤ 262144) →
      let whole := ∀ i < 64, ∃ b ∈ m.rows, b ≤ 64 * g + i ∧ 64 * g + i < b + m.rowBytes
      let spoilt := ∃ i < 64, y.fails t i = true
      (spoilt → ∃ i < 64, y.fails t i = true ∧ r = (some i, s)) ∧
      (¬ spoilt → placeBad s m.place g = true → ¬ whole → r = (some g, s)) ∧
      (¬ spoilt → placeBad s m.place g = false ∨ whole → ∃ s1 s2, StoreSide s s1 ∧ StoreSide s1 s2 ∧ goes s2 m.got ∧
        (∀ i < 16, some (placeByte s2 m.place (at_ p + i)) = (((List.range 32).flatMap fun j =>
          let e := y.element t (32 * p.1 + j)
          match f with
          | .f32 => toBytes 4 e.toNat
          | .bf16 => toBytes 2 (bf16.round .rne false (fp32.val e.toNat) 0).val
          | .f16 => toBytes 2 (fp16.round .rne false (fp32.val e.toNat) 0).val)[p.2 + i]?)) ∧
        ∀ q b, (∀ c, q = .scratch c → b < 262144) → (q ≠ m.place ∨ b < at_ p ∨ at_ p + 16 ≤ b) → placeByte s2 q b = placeByte s1 q b)

/-- An operation of a stream retires (R175, R238, R240, R241): its parts that are left are performed, each as a part alone is,
up to one whose check word fails; then it leaves the stream. An MLOAD so fills its slot, row by row or transposed, or its
sidecar; of an MSTORE every granule that its rows reach has a fresh check word; any other operation changes nothing more. -/
def Sys2Proof.Claims.StreamRetires : Prop :=
  ∀ (s : State) (st k : Nat) (x : Stream) (o : StreamOp), s.stream st = some x → x.inflight[k]? = some o →
    let r := retireOp s st k
    let rest : Stream := { x with inflight := x.inflight.eraseIdx k }
    (o.mem = none → r = (none, s.putStream st rest)) ∧
    ∀ m, o.mem = some m →
      (∀ p l, m.left = p :: l → p ∉ l → x.mayPart k o m p = true →
        (∀ g, (performPart s st k p).1 = some g → r = performPart s st k p) ∧
        ((performPart s st k p).1 = none → r = retireOp (performPart s st k p).2 st k)) ∧
      (∀ a size tr, m.left = [] → m.move = .load a size tr → ∃ v', r = (none, s.putStream st (rest.putSlot a v')) ∧
        let v := x.slotAt a
        let got (q b : Nat) : Byte := Memory.get m.got (4096 * q + b)
        v'.inUse = v.inUse ∧ (∀ g, fget falseAt v'.bad g =
          if (if size = .s then 64 ≤ g ∧ g < 72 else g < 64) then false else fget falseAt v.bad g) ∧
        (∀ j < 32, ∀ i < 128, size ≠ .s → v'.byte a (128 * j + i) =
          if tr = false then got j i
          else match size with
            | .h => got (i / 2) (2 * j + i % 2)
            | .b => got i j
            | _ => BitVec.ofNat 8 ((got (2 * i) (j / 2)).toNat / 2 ^ (4 * (j % 2)) % 2 ^ 4 +
                2 ^ 4 * ((got (2 * i + 1) (j / 2)).toNat / 2 ^ (4 * (j % 2)) % 2 ^ 4))) ∧
        ∀ j < 32, ∀ i < 16, size = .s → v'.byte a (4096 + 16 * j + i) = got j i) ∧
      ∀ t f, m.left = [] → m.move = .store t f → (∀ u, m.place ≠ .frame u) → 0 < m.rowBytes → ∃ s', r = (none, s') ∧ StoreSide (s.putStream st rest) s' ∧
        (∀ q b, placeByte s' q b = placeByte s q b) ∧
        ∀ g, placeBad s' m.place g = true ↔ placeBad s m.place g = true ∧
          ¬ ∃ b ∈ m.rows, ∃ i < m.rowBytes, (b + i) / 64 = g

/-- MLOAD and MSTORE: their issue, their parts, and their retirement. -/
def Obligations.StreamTransfers : Prop := Sys2Proof.Claims.StreamTransfers ∧ Sys2Proof.Claims.StreamParts ∧ Sys2Proof.Claims.StreamRetires

/-- MMA (R236, R239, R411, R412): no window, a slot that is not claimed, an invalid format and a failing check word fail the
stream; otherwise element (i, j) of the tile is what mmaElement makes of it, of row i of slot A and row j of slot B in
chunks of 16, and every other tile is as before. -/
def Sys2Proof.Claims.MatrixMultiply : Prop :=
  ∀ (s : State) (x : Stream) (c : Clause) (w : Workgroup) (t : Code) (a b : BitVec 6) (f : MmaFmt), Streams s x c w →
    let out := exec (.mma t a b f) s
    let va := x.slotAt a.toNat
    let vb := x.slotAt b.toNat
    (w.window = none → StreamFails s 0x12 out) ∧
    ∀ y, w.window = some y →
      (va.inUse = false ∨ vb.inUse = false → StreamFails s 0x11 out) ∧
      (va.inUse = true → vb.inUse = true → mmaFormat x f = none → StreamFails s 0x16 out) ∧
      ∀ g scale bits, va.inUse = true → vb.inUse = true → mmaFormat x f = some (g, scale, bits) →
        let fails (v : OpSlot) : Prop := ∃ i < 64 + (if scale = 0 then 0 else 8), fget falseAt v.bad i = true
        let bad := fails va ∨ fails vb ∨ ∃ i < 64, y.fails t.toNat i = true
        (bad → StreamCheckFails s out) ∧ (¬ bad → ∃ y',
          StreamGoes (s.putWg x.wg { w with window := some y' }) s.curStream
            { x with inflight := x.inflight ++ [{ slots := [a.toNat, b.toNat], tiles := [t.toNat], engine := true, mem := none }] } c 1 out ∧
          y' = { y with tiles := y'.tiles, inUse := y'.inUse, dirty := y'.dirty, bad := y'.bad } ∧
          (bits = 16 ∨ bits = 8 ∨ bits = 4) ∧
          (∀ i < 32, ∀ j < 32, y'.element t.toNat (32 * i + j) =
            mmaElement (y.element t.toNat (32 * i + j)) (operand va a.toNat g scale bits i)
              (operand vb b.toNat g scale bits j) (1024 / bits / 16)) ∧
          ∀ n e, n ≠ t.toNat → e < 1024 → y'.element n e = y.element n e)

/-- The rational value of a finite number. -/
def Sys2Proof.Machine.FV.rat : FV → ℚ
  | .fin neg m e => (if neg then -1 else 1) * m * 2 ^ e
  | _ => 0

/-- A value is a finite number. -/
def Sys2Proof.Machine.FV.finite : FV → Bool
  | .fin _ _ _ => true
  | _ => false

/-- The exact arithmetic of a chunk (R239, R374): a product and a sum of finite numbers are exact, so is the sum of a chunk,
+0 where it is zero; NaN, or infinities of both signs, make a NaN, an infinity alone makes itself; each chunk is added with
one rounding to the nearest even. -/
def Sys2Proof.Claims.ExactProducts : Prop :=
  (∀ a b : FV, a.finite = true → b.finite = true →
    (a.mul b).1.finite = true ∧ (a.mul b).1.rat = a.rat * b.rat ∧ (a.mul b).2 = 0 ∧
    ∀ rm, (a.add rm b).1.finite = true ∧ (a.add rm b).1.rat = a.rat + b.rat ∧ (a.add rm b).2 = 0) ∧
  (∀ l : List FV, (∀ x ∈ l, x.finite = true) →
    (chunkSum l).finite = true ∧ (chunkSum l).rat = (l.map FV.rat).sum ∧ ((l.map FV.rat).sum = 0 → (chunkSum l).sign = false)) ∧
  (∀ l : List FV, FV.nan ∈ l ∨ (FV.inf true ∈ l ∧ FV.inf false ∈ l) → chunkSum l = .nan) ∧
  (∀ (l : List FV) (neg : Bool), FV.nan ∉ l → FV.inf neg ∈ l → FV.inf (!neg) ∉ l → chunkSum l = .inf neg) ∧
  ∀ (acc : Word) (a b : Nat → FV) (n : Nat), mmaElement acc a b 0 = acc ∧ mmaElement acc a b (n + 1) =
    BitVec.ofNat 32 (fp32.round .rne false ((fp32.val (mmaElement acc a b n).toNat).add .rne
      (chunkSum ((List.range 16).map fun i => ((a (16 * n + i)).mul (b (16 * n + i))).1))).1 0).val

/-- MMA, and the exactness of its products and sums. -/
def Obligations.MatrixMultiply : Prop := Sys2Proof.Claims.MatrixMultiply ∧ Sys2Proof.Claims.ExactProducts

/-! ## Fetching, landing, refilling (R58, R60 to R66, R102, R106, R110, R158, R226, R258, R261, R262, R265, R270) -/

/-- CLAUSE_FETCH (R64 to R66, R106, R110, R158, R265, R266): nothing happens to a team in a clause, parked, or not allowed to
act. At a boundary a notice that is due is delivered first, a fold's only to a team that is not paused: NOTICE_CANCEL stops a team without a handler; either enters a
handler at the header that would have come next. Otherwise the clause at the header is obtained and checked: the first
failure traps, with TPC the header, slot 0 and TADDR the header for a failed fetch; else the team holds it, not started,
at the slot that its resume point names. -/
def Obligations.ClauseFetch : Prop :=
  ∀ (s : State) (t : Team) (u : Nat), s.team u = some t →
    let out := exec (.clauseFetch u) s
    let boundary := ∀ c, t.clause = some c → c.started = false
    let free := t.park = .none ∨ ∃ n, t.park = .switch n ∧ ∀ p ∈ t.pend, n ≤ p.id
    let due := t.inHandler = false ∧ (t.noticeCancel = true ∨ (t.noticeFold = true ∧ t.noticeEn = true ∧
      t.pauseEnd ≤ clockTenths s (teamCore s t / 4)))
    (¬ boundary ∨ ¬ free ∨ mayAct s t = false → out = .next s) ∧
    (boundary → free → mayAct s t = true →
      (due → t.noticeCancel = true → t.trapvec = 0 → out = .next (teamLeaves s u .stopped)) ∧
      (due → t.noticeCancel = true → t.trapvec ≠ 0 → out = .next (takeTrap
        (s.putTeam u { t with noticeCancel := false, cancelAt := some s.ns }) u 0x1D t.pc t.resume 0 true 0)) ∧
      (due → t.noticeCancel = false → out = .next (takeTrap
        (s.putTeam u { t with noticeFold := false, lastRlvl := t.rlvl }) u 0x1C t.pc t.resume 0 true t.rlvl)) ∧
      (¬ due → t.clause ≠ none → out = .next s) ∧
      (¬ due → t.clause = none →
        let got := obtainClause s t
        MemSide s got.2 ∧
        (∀ cause, got.1 = .error cause → out = .next (takeTrap got.2.bump u cause t.pc 0 t.pc false 0)) ∧
        ∀ h ws, got.1 = .ok (h, ws) →
          (∀ slot cause, clauseFail (.team t.nregs) h ws = some (slot, cause) →
            out = .next (takeTrap got.2.bump u cause t.pc slot 0 false 0)) ∧
          (clauseFail (.team t.nregs) h ws = none → slotStarts ws (t.resume - 1) 16 0 = false →
            out = .next (takeTrap got.2.bump u 2 t.pc t.resume 0 false 0)) ∧
          (clauseFail (.team t.nregs) h ws = none → slotStarts ws (t.resume - 1) 16 0 = true → ∃ s1 : State,
            s1 = { got.2.bump with loopBuf := s1.loopBuf } ∧
            let c : Clause := { addr := t.pc, hdr := h, words := ws, started := false }
            out = .next (passBoundary
              (s1.putTeam u { t with clause := some c, slot := t.resume - 1, clauseSeq := t.clauseSeq + 1 }) u))))

/-- RESULT_LANDING, REGISTER_REFILL and PAUSE_EXPIRY (R60, R63, R169, R226, R258, R261, R262): the k-th outstanding result,
once delivered, stands in its register with its flags in FPSTAT, and is no longer outstanding; a folded team then evicts
again as its level asks. A refill completes wherever the tiles of the register's bytes pass, or nothing of the team has left
the core: it brings an evicted register back, and evicts only resident registers in its place; no value changes. A tile that
fails stops the team with CHECK_FAIL, a key that is not VALID with PERMISSION. A pause ends at its time by the cluster's clock,
which does not run for a team that is saved. -/
def Obligations.ResultsLand : Prop :=
  ∀ (s : State) (t : Team) (u : Nat), s.team u = some t →
    (∀ k p v, t.pend[k]? = some p → p.val = some v → ∃ t', exec (.resultLanding u k) s = .next (s.putTeam u t') ∧
      t'.reg p.reg p.lane = v ∧ (∀ r l, regKey r l ≠ regKey p.reg p.lane → t'.reg r l = t.reg r l) ∧
      t'.pend = t.pend.eraseIdx k ∧ (∀ i, t'.fpstat.getLsbD i = (t.fpstat.getLsbD i || p.flags.getLsbD i)) ∧
      (t.rlvl = 0 → t'.evicted = t.evicted) ∧ (∀ r ∈ t.evicted, r ∈ t'.evicted) ∧
      (∀ x ∈ t'.loads, x ∈ t.loads) ∧
      t' = { t with regs := t'.regs, pend := t'.pend, fpstat := t'.fpstat, evicted := t'.evicted, loads := t'.loads }) ∧
    (∀ k, (∀ p, t.pend[k]? = some p → p.val = none) → exec (.resultLanding u k) s = .next (s.putTeam u t)) ∧
    (∀ r, r ∉ t.evicted → exec (.registerRefill u r) s = .next (settle s)) ∧
    (∀ r ∈ t.evicted,
      let got := refillBytes s t (t.evictedAt (t.evicted.idxOf r)) (4 * t.lanes)
      MemSide s got.2 ∧ (t.spill = [] → got = (none, s)) ∧
      (got.1 = none → ∃ t', exec (.registerRefill u r) s = .next (settle (got.2.putTeam u t')) ∧ r ∉ t'.evicted ∧
        (∀ q ∈ t.evicted, q ≠ r → q ∈ t'.evicted) ∧
        (∀ q ∈ t'.evicted, q ∉ t.evicted → q < t.nregs ∧ ∀ p ∈ t.pend, p.reg ≠ q) ∧
        t' = { t with evicted := t'.evicted, spill := t.spill.take t'.spill.length }) ∧
      ∀ cause o, got.1 = some (cause, o) → (cause = 7 ∨ cause = 9) ∧ (cause = 7 ↔ (spillKey s t).1 = none) ∧
        exec (.registerRefill u r) s = .next (settle (stopFor got.2 u cause))) ∧
    (teamResident s t = true → t.pauseEnd ≤ clockTenths s (teamCore s t / 4) →
      exec (.pauseExpiry u) s = .next (s.putTeam u { t with pauseEnd := 0 })) ∧
    (teamResident s t = false ∨ clockTenths s (teamCore s t / 4) < t.pauseEnd → exec (.pauseExpiry u) s = .next s)

/-! ## The kettle (R105, R213, R215, R250 to R254, R275, R276, R288 to R290, R320, R326) -/

/-- The kettle reads and accepts a packet of the kind that an event names (R252, R253), outside a replay: each of these
events completes wherever the kettle accepts and the slot of the next number holds a packet of its kind: the packet is
accepted, and everything goes as far as it goes. Another kind is left to its own event; a slot that is not accepted is read
again later. A WAIT that is at once at its turn has its semaphore read. -/
def Sys2Proof.Claims.PacketEvents : Prop :=
  ∀ (s : State) (q : Nat), kettleAccepts s q = true → replays s q (s.queue q).accepted = false →
    (s.queue q).tail ≠ queueHead s q →
    let got := readSlot s q
    (∀ l, got.1 = some l →
      let next := chargeKettle (settle (acceptPacket got.2 q l)) q
      ((acceptPacket got.2 q l).queue q).accepted = (s.queue q).accepted + 1 ∧
      (num l 0 1 = 0 → exec (.nopPacket q) s = .next next) ∧ (num l 0 1 ≠ 0 → exec (.nopPacket q) s = .next s) ∧
      (num l 0 1 = 1 → exec (.launchPacket q) s = .next next) ∧ (num l 0 1 ≠ 1 → exec (.launchPacket q) s = .next s) ∧
      (num l 0 1 = 2 → exec (.copyPacket q) s = .next next) ∧ (num l 0 1 ≠ 2 → exec (.copyPacket q) s = .next s) ∧
      (num l 0 1 = 3 → exec (.graphPacket q) s = .next next) ∧ (num l 0 1 ≠ 3 → exec (.graphPacket q) s = .next s) ∧
      (num l 0 1 = 4 → exec (.waitPacket q) s = .next (rereadWait next q)) ∧
      (num l 0 1 ≠ 4 → exec (.waitPacket q) s = .next (rereadWait s q)) ∧
      (num l 0 1 = 5 → exec (.signalPacket q) s = .next next) ∧ (num l 0 1 ≠ 5 → exec (.signalPacket q) s = .next s) ∧
      (num l 0 1 = 6 → exec (.phasePacket q) s = .next next) ∧ (num l 0 1 ≠ 6 → exec (.phasePacket q) s = .next s) ∧
      (num l 0 1 = 7 → exec (.cancelPacket q) s = .next next) ∧ (num l 0 1 ≠ 7 → exec (.cancelPacket q) s = .next s) ∧
      (num l 0 1 = 8 → exec (.timefencePacket q) s = .next next) ∧
      (num l 0 1 ≠ 8 → exec (.timefencePacket q) s = .next s) ∧
      (8 < num l 0 1 → exec (.undefinedOpcodePacket q) s = .next next) ∧
      (num l 0 1 ≤ 8 → exec (.undefinedOpcodePacket q) s = .next s) ∧
      ((s.queue q).firstRead ≠ none → exec (.packetReread q) s = .next next)) ∧
    ((s.queue q).firstRead = none → exec (.packetReread q) s = .next s) ∧
    (got.1 = none → ∃ t, t = got.2.putQueue q { s.queue q with firstRead := (s.queue q).firstRead.or (some s.ns) } ∧
      (∀ out ∈ [exec (.nopPacket q) s, exec (.launchPacket q) s, exec (.copyPacket q) s, exec (.graphPacket q) s,
          exec (.signalPacket q) s, exec (.phasePacket q) s, exec (.cancelPacket q) s, exec (.timefencePacket q) s,
          exec (.undefinedOpcodePacket q) s], out = .next (chargeKettle (showState t q) q)) ∧
      ((s.queue q).firstRead ≠ none → exec (.packetReread q) s = .next (chargeKettle (showState t q) q)))

/-- The events of a queue that accept a packet, each with its OPCODE. -/
def Sys2Proof.Claims.packetEvents (q : Nat) : List (Nat × Instr) :=
  [(0, .nopPacket q), (1, .launchPacket q), (2, .copyPacket q), (3, .graphPacket q), (5, .signalPacket q), (6, .phasePacket q),
   (7, .cancelPacket q), (8, .timefencePacket q)]

/-- The payload bytes of a record of each KIND, where it is one (R289). -/
def Sys2Proof.Claims.payloadOf (s : State) (h : List Byte) : Option Nat :=
  if num h 0 1 = 1 then some 64
  else if num h 0 1 = 2 then some (32 + 2048 * min 8 (max 1 (s.dfield (aIngRctl (num h 1 1)) 4 4)))
  else if num h 0 1 = 3 then some 8
  else if num h 0 1 = 4 then some 4
  else none

/-- A replayed job (R290): the kettle takes its next packet from the capture buffer, after the frames recorded before it, each
written into its filter's ring under the delivery rule, and passes over the other records; USED is what it has consumed. The
replay ends where no record follows, and the ring is read from then on (log entry 59). -/
def Sys2Proof.Claims.Replays : Prop :=
  ∀ (s : State) (q : Nat),
    (kettleAccepts s q = true → replays s q (s.queue q).accepted = true →
      let got := replayNext q (s.dfield (aRplySize q) 0 32 / 16) s
      (∀ l, got.1 = some l → ∀ e ∈ packetEvents q,
        exec e.2 s = .next (if num l 0 1 = e.1 then settle (acceptPacket got.2 q l) else s)) ∧
      (got.1 = none → ∀ e ∈ packetEvents q, exec e.2 s = .next got.2)) ∧
    (replays s q (s.queue q).accepted = true ↔ s.dfield (aRplyCtl q) 0 2 = 2 ∧
      ∀ n, (s.queue q).replayEnd = some n → (s.queue q).accepted < n) ∧
    ∀ fuel : Nat,
      let used := s.dfield (aRplyStat q) 0 32
      let at_ := s.dfield (aRplyBase q) 0 57 + used
      let size := s.dfield (aRplySize q) 0 32
      let part := some (queuePart s q)
      let ends (s1 : State) : State := s1.putQueue q { s1.queue q with replayEnd := some (s1.queue q).accepted }
      let r := replayNext q (fuel + 1) s
      (size < used + 16 → r = (none, ends s)) ∧
      (used + 16 ≤ size → ∀ h s1, vread false part none 3 s at_ 16 = (.ok h, s1) →
        (payloadOf s1 h = none → r = (none, ends s1)) ∧
        ∀ n l s2, payloadOf s1 h = some n → vread false part none 12 s1 (at_ + 16) n = (.ok l, s2) →
          let s3 := s2.putDfield (aRplyStat q) 0 32 (used + 16 + roundUp n 16)
          (num h 0 1 = 1 → r = (some l, s3)) ∧
          (num h 0 1 = 2 → r = replayNext q fuel (deliverFrame s3 (num h 1 1) (l.take 32) (l.drop 32))) ∧
          (num h 0 1 ≠ 1 → num h 0 1 ≠ 2 → r = replayNext q fuel s3))

/-- The acceptance events of the kettle, and a replayed job. -/
def Obligations.PacketEvents : Prop := Sys2Proof.Claims.PacketEvents ∧ Sys2Proof.Claims.Replays

/-- Recording and replaying the other inputs (R289, R290): in record mode, an input is appended at USED, its header, its
payload and zeros up to 16 bytes; one that does not fit sets FULL, and nothing more is recorded. A read of TIME_NS is
recorded with its key, or has the value of the record that matches it, or the live clock, DIVERGED and the partition's
event; a launch's SEED is recorded, or replaced. -/
def Sys2Proof.Claims.Recording : Prop :=
  (∀ (s : State) (q : Nat) (header payload : List Byte),
    let st := s.dreg (aRplyStat q)
    let used := st.toNat % 2 ^ 32
    let l := header ++ payload ++ zeros (roundUp payload.length 16 - payload.length)
    let r := recordInput s q header payload
    (s.dfield (aRplyCtl q) 0 2 ≠ 1 ∨ st.getLsbD 32 = true → r = s) ∧
    (s.dfield (aRplyCtl q) 0 2 = 1 → st.getLsbD 32 = false →
      (s.dfield (aRplySize q) 0 32 < used + l.length → r = s.putDfield (aRplyStat q) 32 1 1) ∧
      (used + l.length ≤ s.dfield (aRplySize q) 0 32 →
        let w := vwrite (some (queuePart s q)) none (l.length / 2048 + 2) s (s.dfield (aRplyBase q) 0 57 + used) l
        MemSide s w.2 ∧ r = w.2.putDfield (aRplyStat q) 0 32 (used + l.length)))) ∧
  (∀ (kind filter p : Nat) (key : List Byte),
    recordHeader kind filter p key = [BitVec.ofNat 8 kind, BitVec.ofNat 8 filter, 0, 0] ++ toBytes 4 p ++ key) ∧
  (∀ (s : State) (t : Team) (x : Launch), s.launch t.launch = some x → t.agent = false →
    let key := toBytes 4 (((s.wg t.wg).map fun w => w.wgid.toNat).getD 0) ++ toBytes 2 t.teamId ++ toBytes 2 t.reads
    let hit (h : List Byte) : Bool := decide (num h 0 1 = 3 ∧ num h 4 4 = x.packet % 2 ^ 32 ∧ (h.drop 8).take 8 = key)
    let got := findRecord x.queue hit (s.dfield (aRplySize x.queue) 0 32) 0 s 0
    (replays s x.queue x.packet = false → sysTime s t =
      (timeNs s, recordInput s x.queue (recordHeader 3 0 x.packet key) (toBytes 8 (timeNs s).toNat))) ∧
    (replays s x.queue x.packet = true →
      (∀ v, got.1 = some v → sysTime s t = (BitVec.ofNat 64 (ofBytes v), got.2)) ∧
      (got.1 = none → sysTime s t =
        (timeNs got.2, raiseEvent (got.2.putDfield (aRplyStat x.queue) 33 1 1) x.part 4)))) ∧
  ∀ (s : State) (q packet k : Nat) (l : List Byte),
    let seed := (l.drop 32).take 4
    let hit (h : List Byte) : Bool := decide (num h 0 1 = 4 ∧ num h 4 4 = packet % 2 ^ 32)
    let got := findRecord q hit (s.dfield (aRplySize q) 0 32) k s 0
    (replays s q packet = false → launchSeed s q packet k l =
      (BitVec.ofNat 32 (ofBytes seed), recordInput s q (recordHeader 4 0 packet (zeros 8)) seed)) ∧
    (replays s q packet = true →
      (∀ v, got.1 = some v → launchSeed s q packet k l = (BitVec.ofNat 32 (ofBytes v), got.2)) ∧
      (got.1 = none → launchSeed s q packet k l = (BitVec.ofNat 32 (ofBytes seed), got.2)))

/-- Acceptance (R105, R250 to R254, R289): the packet is recorded, has the next number, and HEAD rises. A packet that a job-level cancel
consumes completes CANCELLED; one with an undefined opcode, a reserved byte that is not 0 or a field out of range completes
with SHAPE; a CANCEL acts; a LAUNCH, COPY or GRAPH is checked, and completes with its failure or waits with its graph; any
other waits its turn. -/
def Sys2Proof.Claims.PacketAcceptance : Prop :=
  ∀ (s : State) (q : Nat) (l : List Byte),
    let n := (s.queue q).accepted
    let p : Pkt := { num := n, bytes := l, marked := false, graph := none, state := .waiting }
    let s0 := recordInput s q (recordHeader 1 0 n (zeros 8)) l
    let s1 := (s0.putQueue q { s.queue q with
      accepted := n + 1, firstRead := none, stalled := false, pkts := (s.queue q).pkts ++ [p] }).putDfield (aQstat q) 0 32 (n + 1)
    let op := num l 0 1
    let r := acceptPacket s q l
    let compl := num l 8 8
    (n < (s.queue q).cancelTo →
      r = finishPacket s1 q n compl (if op = 2 ∨ op = 5 then copyRecordWord 5 0 else 2)) ∧
    ((s.queue q).cancelTo ≤ n →
      (8 < op ∨ packetOk n l = false → r = finishPacket s1 q n compl 3) ∧
      (packetOk n l = true →
        (op = 7 → r = cancelPacket s1 q n l) ∧
        (op = 0 ∨ op = 4 ∨ op = 5 ∨ op = 6 ∨ op = 8 → r = s1) ∧
        (op = 1 ∨ op = 2 ∨ op = 3 →
          let got := prepare s1 q n l
          (∀ w, got.1 = .error w → r = finishPacket got.2 q n compl w) ∧
          ∀ g, got.1 = .ok g → r = mapPacket got.2.nextId q n fun p => { p with graph := some g })))

/-- A packet's turn (R100, R105, R252, R253), for the first packet p that is not done: cancelled or marked it completes
CANCELLED; with BARRIER it waits for every earlier packet; NOP completes; PHASE closes the phase; LAUNCH, COPY and GRAPH
start their unit in the current phase; WAIT and TIMEFENCE block the queue; SIGNAL, and a packet whose unit runs, let the
later ones go on; a closed phase blocks the queue until it has finished. -/
def Sys2Proof.Claims.PacketTurns : Prop :=
  ∀ (s : State) (q : Nat) (p : Pkt) (rest : List Pkt),
    let r := turnOf s q (p :: rest)
    let op := num p.bytes 0 1
    let compl := num p.bytes 8 8
    let gone := p.num < (s.queue q).cancelTo ∨ p.marked = true
    let barrier := num p.bytes 1 1 % 2 = 1 ∧ ¬ ∀ x ∈ (s.queue q).pkts, p.num ≤ x.num ∨ x.state = .done
    (p.state = .done → r = turnOf s q rest) ∧
    (∀ g, p.state = .running g → r = turnOf s q rest) ∧
    (∀ ph, p.state = .closing ph → (ph ∈ (s.queue q).closed → r = none) ∧
      (ph ∉ (s.queue q).closed → r = some (finishPacket s q p.num compl 0))) ∧
    (∀ t, p.state = .suspended t → ¬ gone → r = turnOf s q rest) ∧
    (gone → p.state = .waiting ∨ (∃ t, p.state = .suspended t) →
      r = some (finishPacket s q p.num compl (if op = 2 ∨ op = 5 then copyRecordWord 5 0 else 2))) ∧
    (p.state = .waiting → ¬ gone →
      (barrier → r = none) ∧
      (¬ barrier →
        (op = 0 → r = some (finishPacket s q p.num compl 0)) ∧
        (op = 4 → r = none) ∧ (op = 5 → r = turnOf s q rest) ∧ (op = 6 → r = some (closePhase s q p)) ∧
        (op = 8 → replays s q p.num = false → r = none) ∧ (op = 8 → replays s q p.num = true → r = some (finishFence s q p)) ∧
        ∀ g, op = 1 ∨ op = 2 ∨ op = 3 → p.graph = some g → r = some (startPacket s q p g)))

/-- The completion of a packet (R253, R254): its record is written where COMPL is 8-byte aligned, the word and then TIME_NS at
COMPL, nothing for COMPL 0; and it is done. A WAIT that blocks its queue takes its semaphore's failed reads with it, and a
TIMEFENCE the time of its arrival at the head (R320). -/
def Sys2Proof.Claims.PacketCompletion : Prop :=
  ∀ (s : State) (q n compl : Nat) (word : DWord),
    let r := finishPacket s q n compl word
    let s1 := if compl % 8 = 0 ∧ compl ≠ 0 then vwriteWhole (some (queuePart s q)) s compl
      (toBytes 8 word.toNat ++ toBytes 8 (ptpNow s)) else s
    let x := s.queue q
    let x' := r.queue q
    let blocks (op : Nat) : Prop := ∃ p, blocking s q = some p ∧ p.num = n ∧ num p.bytes 0 1 = op
    MemSide s s1 ∧ r = s1.putQueue q x' ∧
    x' = { x with pkts := x'.pkts, semFail := x'.semFail, semStalled := x'.semStalled, fenceSince := x'.fenceSince } ∧
    (blocks 4 → x'.semFail = none ∧ x'.semStalled = false) ∧
    (¬ blocks 4 → x'.semFail = x.semFail ∧ x'.semStalled = x.semStalled) ∧
    (blocks 8 → x'.fenceSince = none) ∧ (¬ blocks 8 → x'.fenceSince = x.fenceSince) ∧
    (r.queue q).pkts.length = (s.queue q).pkts.length ∧
    ∀ (i : Nat) (p : Pkt), (s.queue q).pkts[i]? = some p →
      (r.queue q).pkts[i]? = some (if p.num = n then { p with state := .done } else p)

/-- The life of a packet: acceptance, turn, completion; and what is recorded of a job. -/
def Obligations.PacketLife : Prop := Sys2Proof.Claims.Recording ∧ Sys2Proof.Claims.PacketAcceptance ∧ Sys2Proof.Claims.PacketTurns ∧ Sys2Proof.Claims.PacketCompletion

/-- SIGNAL_PERFORM, TIMEFENCE_RELEASE, QUEUE_STALL, WAIT_REREAD and WAIT_SEM_STALL (R159, R161, R162, R213, R252, R253, R277,
R310), none of which does anything unless the kettle runs: its queue is enabled and not in ERROR, its partition holds its
clusters, and it is not gated. A SIGNAL whose earlier packets have completed updates its semaphore and completes with its
status, and the partition's WAITs are read again; a TIMEFENCE at the head completes from its time on; a slot or a semaphore
that cannot be had for 1 ms raises QUEUE_STALL once. -/
def Obligations.KettleEvents : Prop :=
  ∀ (s : State) (q : Nat),
    let x := s.queue q
    let part := queuePart s q
    let runs := queueEn s q = true ∧ queueState s q ≠ 4 ∧ partActive s part = true ∧ (s.part part).gated = false
    (¬ runs → (∀ n, exec (.signalPerform q n) s = .next s) ∧ exec (.timefenceRelease q) s = .next s ∧
      exec (.waitReread q) s = .next s ∧ exec (.waitSemStall q) s = .next s) ∧
    (∀ n p, x.pkts.find? (fun y => y.num == n) = some p → num p.bytes 0 1 = 5 → p.state ≠ .done → p.marked = false →
      (∀ y ∈ x.pkts, n ≤ y.num ∨ y.state = .done) → runs →
      let l := p.bytes
      let up := semUpdate s (kettleOf part) (BitVec.ofNat 64 (num l 16 8)) (BitVec.ofNat 64 (num l 24 8)) (signalOp l)
      let now := residentNs up.2 (queuePart up.2 q)
      let goes (s1 : State) : Prop := exec (.signalPerform q n) s = .next (chargeKettle s1 q)
      (up.1 ≠ 3 → goes (rereadAll (settle (finishPacket up.2 q n (num l 8 8) (copyRecordWord up.1 0))) part)) ∧
      (up.1 = 3 → (∀ t0, p.state ≠ .suspended t0) →
        goes (faultRecord (mapPacket up.2 q n fun p => { p with state := .suspended now }) (signalCopy s q l) (num l 16 8) true)) ∧
      ∀ t0, up.1 = 3 → p.state = .suspended t0 →
        (now < t0 + 100000000 → goes up.2) ∧
        (t0 + 100000000 ≤ now → goes (settle (finishPacket up.2 q n (num l 8 8) (copyRecordWord 3 0))))) ∧
    (∀ p, blocking s q = some p → runs →
      (num p.bytes 1 1 % 2 = 1 → ∀ y ∈ x.pkts, p.num ≤ y.num ∨ y.state = .done) →
      (num p.bytes 0 1 = 8 → num p.bytes 16 8 ≤ ptpNow s →
        exec (.timefenceRelease q) s = .next (settle (finishFence s q p))) ∧
      (num p.bytes 0 1 = 8 → ptpNow s < num p.bytes 16 8 → exec (.timefenceRelease q) s = .next s) ∧
      (num p.bytes 0 1 = 4 →
        let got := engineRead s (kettleOf part) (num p.bytes 16 8) 8
        let v := BitVec.ofNat 64 (ofBytes got.2.1) &&& BitVec.ofNat 64 (num p.bytes 32 8)
        let y := BitVec.ofNat 64 (num p.bytes 24 8)
        let holds := (num p.bytes 40 1 = 0 ∧ v = y) ∨ (num p.bytes 40 1 = 1 ∧ v ≠ y) ∨ (num p.bytes 40 1 = 2 ∧ y ≤ v) ∨
          (num p.bytes 40 1 = 3 ∧ v < y) ∨ (4 ≤ num p.bytes 40 1 ∧ v ≠ 0)
        let s1 := got.2.2.putQueue q { got.2.2.queue q with semFail := none, semStalled := false }
        let goes (s1 : State) : Prop := exec (.waitReread q) s = .next (settle (chargeKettle s1 q))
        (got.1 = 0 → holds → goes (finishPacket s1 q p.num (num p.bytes 8 8) 0)) ∧
        (got.1 = 0 → ¬ holds → goes s1) ∧
        (got.1 ≠ 0 → goes (got.2.2.putQueue q { got.2.2.queue q with
          semFail := (got.2.2.queue q).semFail.or (some got.2.2.ns) })))) ∧
    (∀ t0, x.firstRead = some t0 → t0 + 1000000 ≤ s.ns → x.stalled = false → kettleAccepts s q = true →
      exec (.queueStall q) s = .next (showState (raiseQueueEvent (s.putQueue q { x with stalled := true }) part 0 q) q)) ∧
    (∀ t0, x.firstRead = some t0 → s.ns < t0 + 1000000 → exec (.queueStall q) s = .next s) ∧
    (∀ t0 p, x.semFail = some t0 → t0 + 1000000 ≤ s.ns → x.semStalled = false → runs → blocking s q = some p →
      num p.bytes 0 1 = 4 →
      exec (.waitSemStall q) s = .next (showState (raiseQueueEvent (s.putQueue q { x with semStalled := true }) part 0 q) q))

/-- Notify stores, ungating and QCTL writes (R250, R251, R275, R276, R326): a store that names no queue is counted as
dropped; to a gated partition it is latched, and the first sends CLWAKE; otherwise it sets TAIL, and ERROR
and QUEUE_ERROR where it lies more than the ring's slots past HEAD. Ungating applies every latched TAIL. A rising EN starts a new job with
HEAD and TAIL 0. -/
def Obligations.QueueRegisters : Prop :=
  ∀ (s : State) (fn o q : Nat) (v : DWord),
    let tail := v.toNat % 2 ^ 32
    (notifyQueue s fn o = none → exec (.notifyStore fn o v) s = .next (s.addDfield (aNqdrop fn) 0 32 1)) ∧
    (notifyQueue s fn o = some q →
      let x := s.queue q
      let s1 := s.putQueue q { x with latched := some tail }
      ((s.part fn).gated = true → (s.dreg (aNqlatch fn)).getLsbD 0 = true →
        exec (.notifyStore fn o v) s = .next ((s1.addDfield (aNqlatch fn) 16 16 1).putDfield (aNqlatch fn) 1 1 1)) ∧
      ((s.part fn).gated = true → (s.dreg (aNqlatch fn)).getLsbD 0 = false →
        exec (.notifyStore fn o v) s = .next (setWake (s1.putDfield (aNqlatch fn) 0 1 1) (s.dfield (aNqlatch fn) 32 9) 2)) ∧
      ((s.part fn).gated = false → slotCount s q < (tail + 2 ^ 32 - queueHead s q) % 2 ^ 32 →
        exec (.notifyStore fn o v) s = .next (raiseQueueEvent
          (setQueueState (s.putQueue q { x with tail := tail }) q 4) (queuePart s q) 1 q)) ∧
      ((s.part fn).gated = false → (tail + 2 ^ 32 - queueHead s q) % 2 ^ 32 ≤ slotCount s q →
        exec (.notifyStore fn o v) s = .next (showState (s.putQueue q { x with tail := tail }) q))) ∧
    ((s.part fn).gated = true → (s.dreg (aNqlatch fn)).getLsbD 0 = true →
      exec (.kettleUngate fn) s = .next (settle (ungate s fn))) ∧
    ((s.part fn).gated = false → exec (.kettleUngate fn) s = .next s) ∧
    (let old := s.dreg (aQctl q)
     let mask : DWord := if old.getLsbD 0 then 0x7E1 else 0x7FF
     let s1 := s.putDreg (aQctl q) ((old &&& ~~~ mask) ||| (v &&& mask))
     (v.getLsbD 0 = true → old.getLsbD 0 = false → exec (.qctlWrite q v) s =
       .next (settle ((s1.putQueue q { Queue.init with job := (s.queue q).job + 1 }).putDfield (aQstat q) 0 35 0))) ∧
     (v.getLsbD 0 = true → old.getLsbD 0 = true → exec (.qctlWrite q v) s = .next (settle s1)) ∧
     (v.getLsbD 0 = false → exec (.qctlWrite q v) s = .next (settle (setQueueState s1 q 0))))

/-! ## Launches and workgroups (R94, R95, R98, R99, R105, R225, R256, R257) -/

/-- A team's start state (R95, R225): v0.p holds the arguments, every other register is 0, every lane is active, the
formats, FPSTAT, RLVL, NOTICE_EN and the mark chain are 0, FB and FSP stand at the window's base, TRAPVEC, SEED and the
level are the launch's, the header is the entry, and each lane's generator is as R225 seeds it. -/
def Obligations.TeamStart : Prop :=
  ∀ (x : Launch) (lid g i lanes nregs window order : Nat) (entry args : DWord) (wgid : Word) (agent : Bool), lanes ≤ 1024 →
    let t := startTeam x lid g i lanes nregs window entry args wgid order agent
    (∀ l < lanes, t.reg 0 l = args.extractLsb' 0 32 ∧ t.reg 1 l = args.extractLsb' 32 32 ∧ ∀ r, 2 ≤ r → t.reg r l = 0) ∧
    (∀ l, l ∈ t.activeLanes ↔ l < lanes) ∧ (∀ l, t.depth l = 0 ∧ t.broken l = false) ∧
    (∀ l < lanes, t.gen l =
      let v := x.seed ^^^ (0x9E3779B9#32 * BitVec.ofNat 32 (wgid.toNat * 65536 + i * 1024 + l + 1))
      if v = 0 then 0x6C078965#32 else v) ∧
    (∀ n, t.fmtReg n = 0) ∧ t.fpstat = 0 ∧ t.fb = BitVec.ofNat 64 t.base ∧ t.fsp = t.fb ∧ t.rlvl = 0 ∧ t.noticeEn = false ∧
    t.head = 0 ∧ t.trapvec = x.trapvec ∧ t.seed = x.seed ∧ t.priv = x.priv ∧ t.framesz = x.framesz ∧ t.pc = entry ∧
    t.clause = none ∧ t.pend = [] ∧ t.stores = [] ∧ t.loads = [] ∧ t.evicted = [] ∧ t.passOut = [] ∧ t.spill = [] ∧
    t.status = .running ∧ t.inHandler = false ∧ t.teamId = i

/-- The placing of a pending workgroup (R101, R256, R257): on a core of its partition that takes it and has its room and its
team slots free, the one with the most free lane contexts, and of equals the lowest-numbered; where there is such a core, one
is found. A seed that OPHINT has held goes to the core chosen for it, where it fits there. -/
def Sys2Proof.Claims.Placement : Prop :=
  ∀ (s : State) (c : Candidate),
    let need := shapeRoom c.sp.lanes c.sp.nregs c.sp.nteams c.sp.sharedSz
    let may (k : Nat) : Prop := coreOpen s c.l.part c.l.rank k = true ∧
      need.le (freeRoom s k c.uid) = true ∧ c.sp.nteams ≤ freeSlots s k
    let fits (k : Nat) : Prop := k ∈ coresOf s c.l.part ∧ may k
    (∀ k, c.l.seedCore = some k → may k → placeFor s c = some k) ∧
    ((∀ k, c.l.seedCore = some k → ¬ may k) →
      (placeFor s c = none ↔ ∀ k, ¬ fits k) ∧
      ∀ k, placeFor s c = some k → fits k ∧ ∀ j, fits j → j ≠ k →
        (freeRoom s j c.uid).ctx < (freeRoom s k c.uid).ctx ∨
        ((freeRoom s j c.uid).ctx = (freeRoom s k c.uid).ctx ∧ k < j))

/-- WORKGROUP_ADMISSION (R95, R99, R256, R257, R264) completes wherever the first pending workgroup in order fits, no saved
one of its rank comes before it and no OPHINT hold stands: the workgroup is admitted: it is a workgroup with its shape, its WGID and that many running teams, and its launch
has it no longer pending. A seed that is held has the core chosen for it. Nothing is admitted to a partition that does not
run. -/
def Sys2Proof.Claims.Admission : Prop :=
  ∀ (s : State) (p core : Nat) (c : Candidate) (rest : List Candidate),
    (partActive s p = false → exec (.workgroupAdmission p) s = .next s) ∧
    (partActive s p = true → sortBy candidateOrder (candidates s p) = [] → exec (.workgroupAdmission p) s = .next s) ∧
    (partActive s p = true → sortBy candidateOrder (candidates s p) = c :: rest → s.launch c.uid = some c.l →
      c.l.pending.head? = some c.sp → savedBefore s c.l.part c.l.rank = false → placeFor s c = some core →
      c.l.hintHold = none → ∃ s' w,
        exec (.workgroupAdmission p) s = .next s' ∧ s'.wg s.nextUid = some w ∧
        w.launch = c.uid ∧ w.part = c.l.part ∧ w.wgid = c.sp.baseId + BitVec.ofNat 32 c.sp.next ∧ w.core = core ∧
        w.lanes = c.sp.lanes ∧ w.nregs = c.sp.nregs ∧ w.sharedSz = c.sp.sharedSz ∧ w.shared = [] ∧ w.bars = [] ∧
        w.stream = none ∧ w.saved = false ∧ w.teams.length = c.sp.nteams ∧ w.teams.Nodup ∧
        (∀ i u, w.teams[i]? = some u → ∃ k, s'.team u = some
          { startTeam c.l c.uid s.nextUid i c.sp.lanes c.sp.nregs k c.sp.entry c.sp.args w.wgid u false with
            issueAt := clockTenths s (core / 4) }) ∧
        (∀ g, g ≠ s.nextUid → s'.wg g = s.wg g) ∧ (∀ u, u ∉ w.teams → s'.team u = s.team u) ∧
        (∀ l, l ≠ c.uid → s'.launch l = s.launch l) ∧ s'.launch c.uid = some c.l.takePending) ∧
    (partActive s p = true → sortBy candidateOrder (candidates s p) = [c] → s.launch c.uid = some c.l →
      savedBefore s c.l.part c.l.rank = false → placeFor s c = some core → c.l.hintHold ≠ none →
      exec (.workgroupAdmission p) s = .next (s.putLaunch c.uid { c.l with seedCore := c.l.seedCore.or (some core) })) ∧
    ∀ (x : Launch) (sp : Spawned) (tl : List Spawned), x.pending = sp :: tl →
      (sp.next + 1 < sp.count → x.takePending.pending =
        { sp with next := sp.next + 1, since := none, blocked := false } :: tl) ∧
      (sp.count ≤ sp.next + 1 → x.takePending.pending = tl)

/-- The dispatcher: where a workgroup goes, and its admission. -/
def Obligations.Dispatcher : Prop := Sys2Proof.Claims.Placement ∧ Sys2Proof.Claims.Admission

/-- HELD_LAUNCH_START, PASSED_OVER_BLOCK, OPHINT_HOLD_END, CANCEL_NOTICE_TIMEOUT and WORKGROUP_END (R94, R98, R105, R243,
R256, R257): the held launch accepted first becomes live, with a LAUNCHID that no live launch has, once fewer than 16,384
are live; a workgroup passed over for 1 ms blocks; an OPHINT hold ends after 50 µs or with the seed's cluster at the point; a
team that has not
ended 100 µs after its NOTICE_CANCEL is stopped; a workgroup whose teams, copies and stream have ended is gone with its
teams, and its launch counts one less. Its room goes to the unmet requests of its core. -/
def Obligations.WorkgroupEvents : Prop :=
  ∀ (s : State) (l : Nat) (x : Launch), s.launch l = some x →
    (x.held = true → (∀ e ∈ entries s.launches, e.2.held = true → e = (l, x) ∨ x.order < e.2.order) →
      ((liveLaunches s).length < 16384 → ∃ id < 16384, (∀ y ∈ liveLaunches s, y.launchId ≠ id) ∧
        exec .heldLaunchStart s = .next (s.bump.putLaunch l { x with held := false, launchId := id })) ∧
      (16384 ≤ (liveLaunches s).length → exec .heldLaunchStart s = .next s)) ∧
    (∀ sp rest t0, x.pending = sp :: rest → sp.since = some t0 →
      (t0 + 1000000 ≤ s.ns →
        exec (.passedOverBlock l) s = .next (s.putLaunch l { x with pending := { sp with blocked := true } :: rest })) ∧
      (s.ns < t0 + 1000000 → exec (.passedOverBlock l) s = .next s)) ∧
    (∀ t0, x.hintHold = some t0 →
      let stable := ∃ k, x.seedCore = some k ∧ clState s (k / 4) = 0 ∧
        pointAt s (k / 4) = min (x.ophint % 16) (min (paceAt s (k / 4)) (thermalOf s (k / 4 / 16)))
      (t0 + 50000 ≤ s.ns ∨ stable → exec (.ophintHoldEnd l) s = .next (s.putLaunch l { x with hintHold := none })) ∧
      (¬ (t0 + 50000 ≤ s.ns ∨ stable) → exec (.ophintHoldEnd l) s = .next s)) ∧
    (∀ u t t0, s.team u = some t → t.cancelAt = some t0 → t.status = .running →
      (t0 + 100000 ≤ s.ns → exec (.cancelNoticeTimeout u) s = .next (teamLeaves s u .stopped)) ∧
      (s.ns < t0 + 100000 → exec (.cancelNoticeTimeout u) s = .next s)) ∧
    ∀ g w, s.wg g = some w → w.launch = l → w.agent = false → w.saved = false →
      ((∃ u ∈ w.teams, ∃ t, s.team u = some t ∧ t.status = .running) → exec (.workgroupEnd g) s = .next s) ∧
      (w.stream = none → (∀ u ∈ w.teams, ∀ t, s.team u = some t → t.status ≠ .running) →
        (∀ e ∈ entries s.copies, e.2.wg ≠ some g) → ∃ s1 : State,
          exec (.workgroupEnd g) s = .next (settle (launchCheck (s1.putLaunch l { x with counter := x.counter - 1 }) l)) ∧
          s1.wg g = none ∧ (∀ j, j ≠ g → s1.wg j = s.wg j) ∧ (∀ u ∈ w.teams, s1.team u = none) ∧
          (∀ u, u ∉ w.teams → s1.team u = s.team u) ∧
          (∀ k, fget falseAt s1.roomBack k = (fget falseAt s.roomBack k || k == w.core)) ∧
          (∀ r ∈ s1.reqs, g ∉ r.users) ∧ s1.reqs.length = s.reqs.length ∧
          s1 = { s with teams := s1.teams, wgs := s1.wgs, foldOrder := s1.foldOrder, roomBack := s1.roomBack,
                        reqs := s1.reqs, dev := s1.dev })

/-- A team leaves, by EXIT or stopped (R98, R105 to R107, R309): its held stores are performed, its results, its clause and
its park are dropped, and its room in the save area is free. -/
def Sys2Proof.Claims.TeamEnd : Prop :=
  ∀ (s : State) (t : Team) (w : Workgroup) (u : Nat) (st : TeamStatus), s.team u = some t → s.wg t.wg = some w →
    w.colls = [] → ∃ s1 t1, StoreSide s s1 ∧ s1.team u = some t1 ∧ t1.stores = [] ∧ ∃ w', s1.wg t.wg = some w' ∧
      teamLeaves s u st = (s1.putTeam u { t1 with status := st, pend := [], clause := none, park := .none, passOut := [], spill := [] }).putWg
        t.wg w'

/-- A team that stops or ends. -/
def Obligations.TeamStops : Prop := Sys2Proof.Claims.TrapStops ∧ Sys2Proof.Claims.TeamEnd

/-! ## Folding, saving and restoring (R259 to R265, R304 to R308) -/

/-- What a residency level keeps (R260, R261, R265): at level k the lane contexts, registers and spill stack of R260, and
the coldest registers evicted until as many are as the level asks, of those that no result is outstanding for, and the
highest-numbered passes swapped out. Raising
RLVL sets NOTICE_FOLD where notices are enabled and the level is not the last one delivered. No register value changes. -/
def Obligations.FoldLevels : Prop :=
  (∀ lanes nregs k : Nat, 1 ≤ lanes → 8 ≤ nregs →
    let passes := (lanes + 31) / 32
    let N := max 1 ((passes + 2 ^ k - 1) / 2 ^ k)
    let G := max 8 (8 * ((nregs + 8 * 2 ^ k - 1) / (8 * 2 ^ k)))
    roomAt lanes nregs k = { ctx := 32 * N, regs := 32 * N * G, lmem := 16384 / 2 ^ k }) ∧
  ∀ (t : Team) (k : Nat), t.evicted.Nodup → (∀ r ∈ t.evicted, r < t.nregs) → t.passOut.Nodup →
    (∀ p ∈ t.passOut, p < ctxOf t.lanes 0 / 32) →
    let t' := t.setLevel k
    let want := t.nregs - regsOf t.nregs k
    t' = { t with rlvl := k, noticeFold := t.noticeEn && k != t.lastRlvl, evicted := t'.evicted, passOut := t'.passOut } ∧
    (∀ p ∈ t.passOut, p ∈ t'.passOut) ∧ (∀ p ∈ t'.passOut, p < ctxOf t.lanes 0 / 32) ∧
    t'.passOut.length = max t.passOut.length (ctxOf t.lanes 0 / 32 - ctxOf t.lanes k / 32) ∧
    (∀ p < ctxOf t.lanes 0 / 32, p ∉ t'.passOut → ∀ q ∈ t'.passOut, q ∉ t.passOut → p < q) ∧
    (∀ r ∈ t.evicted, r ∈ t'.evicted) ∧ t'.evicted.Nodup ∧
    (∀ r ∈ t'.evicted, r < t.nregs ∧ (r ∈ t.evicted ∨ ∀ p ∈ t.pend, p.reg ≠ r)) ∧
    (t'.evicted.length ≤ max want t.evicted.length) ∧
    (∀ r < t.nregs, r ∉ t'.evicted → (∀ p ∈ t.pend, p.reg ≠ r) → want ≤ t'.evicted.length ∧
      ∀ q ∈ t'.evicted, q ∉ t.evicted → t.stamp q < t.stamp r ∨ (t.stamp q = t.stamp r ∧ r < q))

/-- Room that frees on a core goes to the requests of the core that are not met, the slice end's apart, in their order, up to
what each still wants (R259, R264). Requests that end, or that another replaces, are gone: what they took and no workgroup of
theirs uses goes to the others so, and their cores' folded teams may expand again (R263). -/
def Sys2Proof.Claims.RoomGiven : Prop :=
  (∀ (s : State) (core : Nat) (free : Room),
    let r := giveRoom s core free
    (∃ reqs, r = showRequest { s with reqs := reqs } core) ∧ r.reqs.length = s.reqs.length ∧
    (∀ (i : Nat) (q : Request), s.reqs[i]? = some q → ∃ q' : Request, r.reqs[i]? = some q' ∧ q' = { q with took := q'.took } ∧ q.took.le q'.took = true ∧
      (q.core ≠ core ∨ q.source = 1 → q' = q) ∧ (q.want.le q.took = true → q'.took = q.took)) ∧
    (∀ (i : Nat) (q : Request), s.reqs[i]? = some q →
      (sortBy requestOrder (s.reqs.filter fun q => q.core == core && q.source != 1)).head? = some q →
      ∃ q' : Request, r.reqs[i]? = some q' ∧ q'.took = q.took.add (free.meet (q.want.sub q.took)))) ∧
  ∀ (s : State) (p : Request → Bool),
    let r := endRequests s p
    let bare (q : Request) : Request := { q with took := Room.zero }
    ((∀ q ∈ s.reqs, p q = false) → r = s) ∧
    r = { s with reqs := r.reqs, roomBack := r.roomBack, dev := r.dev } ∧
    r.reqs.map bare = (s.reqs.filter fun q => !p q).map bare ∧
    ∀ core, fget falseAt r.roomBack core = true ↔ fget falseAt s.roomBack core = true ∨ ∃ q ∈ s.reqs, p q = true ∧ q.core = core

/-- A workgroup is saved (R175, R264, R308): its copies come to a tile boundary, its teams' stores are performed, their spill
is free and what is left of their pauses kept; where the save area has room for the state and its tiles are written, it and
its copies are saved, and its stores have fresh check words. Where there is no room, or a tile is not written, SAVEFULL is
set and it is stopped with CAUSE 0; where a check word has a tile refused, with CHECK_FAIL (log entry 18): of a workgroup
that is stopped, nothing stays in the save area, no team runs, and its launch has failed. -/
def Sys2Proof.Claims.WorkgroupSaves : Prop :=
  (∀ (s : State) (g : Nat) (w : Workgroup), s.wg g = some w →
    let s1 := w.teams.foldl saveTeam (w.teams.foldl drainAll (haltCopies s g))
    let size := saveSize s w
    let bad := saveBad s1 ((s1.wg g).getD w)
    let wr := writeSave g bad (size / 65536) s1
    let r := saveWorkgroup s g
    (saveArea s1 w.part < saveUse s1 w.part + size → r = stopWorkgroup (setSaveFull s1 w.part) g 0) ∧
    (saveUse s1 w.part + size ≤ saveArea s1 w.part →
      (wr.1 = false → bad = none → r = stopWorkgroup (setSaveFull wr.2 w.part) g 0) ∧
      (wr.1 = false → bad ≠ none → r = stopWorkgroup wr.2 g 9) ∧
      (wr.1 = true →
        (∀ x, wr.2.wg g = some x → r.wg g = some { x with saved := true, sharedBad := []
                                                          window := x.window.map fun y => { y with dirty := [], bad := [] } }) ∧
        (∀ k c, wr.2.copy k = some c → r.copy k = some (if c.wg = some g then { c with saved := true } else c)) ∧
        (∀ u t, wr.2.team u = some t → r.team u = some (if u ∈ w.teams then { t with frameBad := [] } else t)) ∧
        r = { wr.2 with foldOrder := r.foldOrder, copies := r.copies, streams := r.streams, teams := r.teams, wgs := r.wgs }))) ∧
  ∀ (s : State) (g cause : Nat) (w : Workgroup), s.wg g = some w →
    let r := stopWorkgroup s g cause
    (∃ w', r.wg g = some w' ∧ w'.saved = false ∧ w'.saveUnits = []) ∧
    (∀ u ∈ w.teams, ∀ t, s.team u = some t → ∃ t', r.team u = some t' ∧ t'.status ≠ .running) ∧
    ∀ x, s.launch w.launch = some x → x.cancelling = false → r.launch w.launch = none ∨ ∃ x', r.launch w.launch = some x' ∧
      x'.cancelling = true ∧ x'.failure = some (1, false, cause, w.wgid)

/-- PREEMPT_WRITE, FOLD_EXPANSION, WORKGROUP_SAVE and WORKGROUP_RESTORE (R259, R261, R263, R264, R308, R323): the fields of the
write are kept, and GO puts its request in place of the core's manual one, or withdraws it with all counts 0, as on a core
whose cluster is not ON; where room has
returned and no request is unmet, the team folded last that the room lets expand does, to the lowest level that fits; a
drained workgroup that a request asks for is saved, and its room counts for the request; a saved one returns to a core
that takes it and where it fits, unless it does not fit: where the tiles of its save pass, its teams and copies go on there;
where one fails, its launch fails with CHECK_FAIL (R169). -/
def Sys2Proof.Claims.PreemptionEvents : Prop :=
  ∀ (s : State) (n core g : Nat) (v : DWord),
    (let s1 := s.putDreg (aPreempt n) ((s.dreg (aPreempt n) &&& ~~~ 0x0FDFFFFFFFFFDFFF#64) ||| (v &&& 0x0FDFFFFFFFFFDFFF#64))
     let want : Room := { ctx := v.toNat % 2 ^ 13, regs := v.toNat / 2 ^ 14 % 2 ^ 18, lmem := v.toNat / 2 ^ 32 % 2 ^ 21 }
     (v.getLsbD 63 = false → exec (.preemptWrite n v) s = .next s1) ∧
     let on := clState s1 (n / 4) = 0
     let r : Request := { core := n, source := 2, want := want, took := Room.zero, rank := v.toNat / 2 ^ 54 % 2 ^ 6, launch := 0
                          item := 0, users := [], order := s.nextUid, saves := false }
     (v.getLsbD 63 = true → want = Room.zero ∨ ¬ on → exec (.preemptWrite n v) s = .next
       (showRequest (endRequests s1 fun q => q.core == n && q.source == 2) n)) ∧
     (v.getLsbD 63 = true → want ≠ Room.zero → on → exec (.preemptWrite n v) s = .next
       (meetRequests (endRequests { s1 with nextUid := s.nextUid + 1, reqs := s.reqs ++ [r] }
         fun q => q.core == n && q.source == 2 && q != r) n))) ∧
    (fget falseAt s.roomBack core = false ∨ (∃ r ∈ s.reqs, r.core = core ∧ r.want.le r.took = false) →
      exec (.foldExpansion core) s = .next s) ∧
    (fget falseAt s.roomBack core = true → (∀ r ∈ s.reqs, r.core = core → r.want.le r.took = true) →
      let order := fget (fun _ => ([] : List Nat)) s.foldOrder core
      let able (u : Nat) (k : Nat) : Prop := ∃ t, s.team u = some t ∧ expandLevel s core t = some k
      (∀ pre u post k, order = pre ++ u :: post → (∀ j ∈ pre, ∀ i, ¬ able j i) → able u k →
        exec (.foldExpansion core) s = .next (expandTeam s core u k)) ∧
      ((∀ u ∈ order, ∀ k, ¬ able u k) →
        exec (.foldExpansion core) s = .next { s with roomBack := fset falseAt s.roomBack core false })) ∧
    ∀ w, s.wg g = some w →
      (w.saved = true ∨ w.agent = true ∨ streamDrained s w = false → exec (.workgroupSave g) s = .next s) ∧
      (w.saved = false → w.agent = false → streamDrained s w = true →
        ((∀ r ∈ s.reqs, saveWanted s g w r = false) → exec (.workgroupSave g) s = .next s) ∧
        ∀ r, (sortBy requestOrder s.reqs).find? (saveWanted s g w) = some r →
          let s1 := saveWorkgroup (charge s (some w.part)) g
          ((∃ w1, s1.wg g = some w1 ∧ w1.saved = true) →
            exec (.workgroupSave g) s = .next (showRequest { s1 with reqs := s1.reqs.map fun q =>
              if q = r then { r with took := r.took.add (wgRoom s w), saves := true } else q } w.core)) ∧
          ((∀ w1, s1.wg g = some w1 → w1.saved = false) → exec (.workgroupSave g) s = .next s1)) ∧
      (w.saved = true → coreOpen s w.part (launchRankOf s w.launch) core = true → restoreFits s g w core = true →
        let got := readSave (charge s (some w.part)) w core
        ∃ s2 : State, (got.1 = true → exec (.workgroupRestore g core) s = .next (w.teams.foldl spillCheck s2)) ∧
          (got.1 = false → exec (.workgroupRestore g core) s = .next (stopWorkgroup s2 g 9)) ∧
          s2.wg g = some { w with saved := false, saveUnits := [], core := core } ∧
          (∀ u, u ∉ w.teams → s2.team u = s.team u) ∧
          (w.teams.Nodup → ∀ u ∈ w.teams, ∀ t, s.team u = some t → s2.team u = some { t with
            pauseEnd := if t.pauseEnd = 0 then 0 else clockTenths s2 (core / 4) + t.pauseEnd
            issueAt := clockTenths s2 (core / 4) }) ∧
          ∀ k c, s.copy k = some c → ∃ c', s2.copy k = some c' ∧ c'.next = c.next ∧
            (c.wg = some g → c'.saved = false ∧ c'.core = some core) ∧ (c.wg ≠ some g → c' = c)) ∧
      (w.saved = false ∨ coreOpen s w.part (launchRankOf s w.launch) core = false ∨ restoreFits s g w core = false →
        exec (.workgroupRestore g core) s = .next s)

/-- Pre-emption requests, expansion, saving and restoring. -/
def Obligations.PreemptionEvents : Prop := Sys2Proof.Claims.RoomGiven ∧ Sys2Proof.Claims.WorkgroupSaves ∧ Sys2Proof.Claims.PreemptionEvents

/-- What the clear of a cluster leaves (R306): its scratchpads are zero but for the firmware scratch area, with fresh check
words; no stream that is not saved has an entry there; the loop buffers and the translation caches of its cores and its own are
empty; the outgoing tenant has no open tile; every barrier of its workgroups stands as at its start, and no accumulator tile is
in use. The bytes and check words of other clusters' scratchpads stay, but for what ending its streams stores. -/
def Sys2Proof.Claims.ClusterCleared : Prop :=
  ∀ (s : State) (c : Nat), c < 128 →
    let r := clearCluster s c
    (∀ core o, core / 4 = c → o < 262144 → core ≠ 0 ∨ 65536 ≤ o →
      placeByte r (.scratch core) o = 0 ∧ placeBad r (.scratch core) (o / 64) = false) ∧
    (∀ core, core / 4 = c → fget noClauses r.loopBuf core = [] ∧ fget noTlbs r.tlb1 core = []) ∧
    fget noTlbs r.tlb2 c = [] ∧
    (∀ core, core / 4 ≠ c → fget noClauses r.loopBuf core = fget noClauses s.loopBuf core ∧
      fget noTlbs r.tlb1 core = fget noTlbs s.tlb1 core) ∧
    (∀ k, k ≠ c → fget noTlbs r.tlb2 k = fget noTlbs s.tlb2 k) ∧
    (∀ k x, s.stream k = some x → x.cluster = c → (∀ w, s.wg x.wg = some w → w.saved = false) → r.stream k = none) ∧
    (∀ n, holderOf s c = some n → ∀ o ∈ r.openTiles, o.part ≠ n) ∧
    ∀ g w, s.wg g = some w → w.saved = false → w.core / 4 = c → ∃ w', r.wg g = some w' ∧
      (∀ k, w'.bar k = Bar.init w.teams.length) ∧ ∀ y, w'.window = some y → ∀ t e, y.element t e = 0

/-- SLICE_END, PERIOD_START, TENANT_SWITCH, OVERRUN_SAVE and OVERRUN_RESET (R259, R269, R305 to R307): when a hold has
lasted, and the peer is not disconnected, OWED is paid and a request for everything arises on each core; a period starts at
its time, with the VF_SLICE that then stands, and takes free clusters, cleared, or asks the peer for them; a cluster due
and empty is cleared, and with the last one every cluster of the outgoing tenant is, and the hold passes (at once where none is
ON, R323); an overrun is charged to OWED, beyond 1 ms it saves the partition with CAUSE 4, beyond 10 ms it resets it. -/
def Sys2Proof.Claims.SliceEvents : Prop :=
  ∀ (s : State) (n c us : Nat),
    let passes (s : State) (m n : Nat) : State := takeHold (setResident ((clustersOf s m).foldl clearCluster s) m false) n
    let ends (s : State) (m n : Nat) (out : Out) : Prop :=
      let s1 := requestAll s m
      ((∃ k ∈ clustersOf s1 m, switchDue s1 k = true) → out = .next s1) ∧
      ((∀ k ∈ clustersOf s1 m, switchDue s1 k = false) → out = .next (passes s1 m n))
    (slicedNow s n = true → (s.part n).inSlice = true → partState s n = 1 ∨ partState s n = 2 → resident s n = true →
      (∀ k ∈ clustersOf s n, switchDue s k = false) →
      let hold := 1000 * ((s.part n).slice.toNat % 2 ^ 20 - s.dfield (aVfSlice n) 48 16)
      let peer := peerNow s n
      ((s.part n).periodAt + hold ≤ s.ns → peer = 0 ∨ partState s peer ≠ 0 →
        ends (payOwed (s.putPart n { s.part n with inSlice := false }) n) n peer (exec (.sliceEnd n) s)) ∧
      (s.ns < (s.part n).periodAt + hold ∨ (peer ≠ 0 ∧ partState s peer = 0) → exec (.sliceEnd n) s = .next s)) ∧
    (sliced s n = true ∨ slicedNow s n = true → partState s n = 1 ∨ partState s n = 2 →
      let period := 1000 * ((s.part n).slice.toNat / 2 ^ 20 % 2 ^ 20)
      let s1 := s.putPart n { s.part n with periodAt := s.ns, slice := s.dreg (aVfSlice n), inSlice := true }
      (s.ns < (s.part n).periodAt + period → exec (.periodStart n) s = .next s) ∧
      ((s.part n).periodAt + period ≤ s.ns →
        (resident s n = true → exec (.periodStart n) s = .next s1) ∧
        (∀ m, resident s n = false → (clustersOf s n).findSome? (holderOf s) = some m →
          ends (s1.putPart m { s1.part m with inSlice := false }) m n (exec (.periodStart n) s)) ∧
        (resident s n = false → (∀ k ∈ clustersOf s n, holderOf s k = none) →
          exec (.periodStart n) s = .next (takeHold ((clustersOf s n).foldl clearCluster s1) n)))) ∧
    (∀ m, holderOf s c = some m →
      (m = n ∨ switchDue s c = false ∨ clusterEmpty s c = false ∨ (peerNow s m ≠ n ∧ peerNow s n ≠ m) →
        exec (.tenantSwitch c n) s = .next s) ∧
      (m ≠ n → switchDue s c = true → clusterEmpty s c = true → peerNow s m = n ∨ peerNow s n = m →
        let s1 := endRequests s fun r => r.source == 1 && r.core / 4 == c
        ((∃ k ∈ clustersOf s1 m, switchDue s1 k = true) → exec (.tenantSwitch c n) s = .next (clearCluster s1 c)) ∧
        ((∀ k ∈ clustersOf s1 m, switchDue s1 k = false) → exec (.tenantSwitch c n) s = .next (passes s1 m n)))) ∧
    (let s1 := s.putDfield (aVfSlice n) 48 16 (min (s.dfield (aVfSlice n) 48 16 + us) (2 ^ 16 - 1))
     (us ≤ 1000 ∨ partActive s n = false → exec (.overrunSave n us) s = .next s1) ∧
     (1000 < us → partActive s n = true →
       exec (.overrunSave n us) s = .next (setCause (setPartState (savePartition s1 n) n 2) n 4)) ∧
     (us ≤ 10000 → exec (.overrunReset n us) s = .next s1) ∧
     (10000 < us → exec (.overrunReset n us) s = .next (settle (resetPartition s1 n 2))))

/-- The clear of a cluster, time slices, tenant switches and overruns. -/
def Obligations.SliceEvents : Prop := Sys2Proof.Claims.ClusterCleared ∧ Sys2Proof.Claims.SliceEvents

/-! ## The copy engine, the walkers, the seal units and the breeze (R147, R154, R159 to R162, R173, R177, R201, R213,
R216, R217) -/

/-- The copy tiles of a row (R201): they cover its bytes in order, none crosses a 2 KiB boundary of either address, and each
is as long as these let it be. The tiles of a copy are its descriptors' rows in order. -/
def Obligations.CopyTiles : Prop :=
  (∀ (d : Desc) (row : Nat),
    let l := rowTiles d row (d.rowBytes + 1) 0
    (l.map fun p => p.n).sum = d.rowBytes ∧
    ∀ (k : Nat) (p : CopyPos), l[k]? = some p →
      let o := ((l.take k).map fun (q : CopyPos) => q.n).sum
      p.src = addrAt d.src ((row : Int) * d.sstride + o) ∧ p.dst = addrAt d.dst ((row : Int) * d.dstride + o) ∧ p.desc = d ∧
      0 < p.n ∧ p.src % 2048 + p.n ≤ 2048 ∧ p.dst % 2048 + p.n ≤ 2048 ∧
      (o + p.n < d.rowBytes → p.src % 2048 + p.n = 2048 ∨ p.dst % 2048 + p.n = 2048)) ∧
  ∀ (ds : List Desc) (k : Nat), copyTileAt ds k =
    (ds.flatMap fun d => (List.range d.rows).flatMap fun r => rowTiles d r (d.rowBytes + 1) 0)[k]?

/-- A copy after one of its tiles: it is complete where no tile is left to translate or to perform, and goes on otherwise;
with `pay` for the allowance that the tile took. -/
def Sys2Proof.Claims.CopyGoes (pay : State → State) (s : State) (k : Nat) (c : Copy) (out : Out) : Prop :=
  (c.late = [] → c.ended = true ∨ copyTileAt c.descs c.next = none →
    out = .next (settle (pay (finishCopy (s.putCopy k c) k)))) ∧
  (c.late ≠ [] ∨ (c.ended = false ∧ copyTileAt c.descs c.next ≠ none) → out = .next (settle (pay (s.putCopy k c))))

/-- A copy that has performed parts of tile x, and stands then as c1: a tile of which no part is left, or that was refused, is
none of its late tiles, and its first failure is kept with its index; another tile stays as far as it has come (R201, R202). -/
def Sys2Proof.Claims.CopyRan (pay : State → State) (s : State) (k : Nat) (c : Copy) (x : LateTile) (out : Out) : Prop :=
  ∃ p, let r := performTile p s c x
    let y := r.1
    CopyGoes pay r.2 k (if y.reads = [] ∧ y.writes = [] then
        { c with late := c.late.filter fun z => z.idx != y.idx, fail := firstFail c.fail y.st y.idx, wrote := c.wrote || y.wrote }
      else { c with late := c.late.map fun z => if z.idx = y.idx then y else z }) out

/-- The parts of a translated tile (R168 to R172, R175, R176, R183, R193, R202): each of an HBM tile's access is whole, and each
other is 16 bytes of an aligned 16 at most; together they are the tile's bytes. A part is read, and kept, with its status; a
part whose bytes have all been read is written: into HBM or HOST through its page, into an on-chip store as it stands. What is
refused ends the tile with its status, and a tile that covers a failing granule in part writes nothing of itself. -/
def Sys2Proof.Claims.TileParts : Prop :=
  (∀ (p : Pte) (a n : Nat), 0 < n →
    (p.typ = 0 → sideParts p a n = [(0, n)]) ∧
    (p.typ ≠ 0 → ∀ q ∈ sideParts p a n, 0 < q.2 ∧ q.1 + q.2 ≤ n ∧ (a + q.1) / 16 = (a + q.1 + q.2 - 1) / 16) ∧
    ∀ i < n, ∃! q, q ∈ sideParts p a n ∧ q.1 ≤ i ∧ i < q.1 + q.2) ∧
  ∀ (s : State) (c : Copy) (x : LateTile) (p : Nat × Nat),
    (let r := x.part s c (false, p)
     (p ∉ x.reads → r = (x, s)) ∧
     (p ∈ x.reads →
       let got := pageReadBut x.logged s c.requester x.srcPage.pte (x.srcAt + p.1) p.2
       MemSide s got.2.2 ∧ r.2 = got.2.2 ∧ r.1 = { x with
         st := if x.st = 0 then got.1 else x.st, reads := x.reads.filter fun q => q != p, begun := true
         buf := r.1.buf, logged := r.1.logged } ∧
       ((∀ i (h : i < got.2.1.length), Memory.get r.1.buf (p.1 + i) = got.2.1[i]) ∧
        ∀ b, b < p.1 ∨ p.1 + got.2.1.length ≤ b → Memory.get r.1.buf b = Memory.get x.buf b))) ∧
    (let r := x.part s c (true, p)
     let q := x.dstPage.pte
     let ready := p ∈ x.writes ∧ ∀ y ∈ x.reads, y.1 + y.2 ≤ p.1 ∨ p.1 + p.2 ≤ y.1
     let torn := x.writes = sideParts q x.dstAt x.n ∧ partGranules s c.requester q x.dstAt x.n ≠ []
     let l := Memory.read x.buf p.1 p.2
     let goes (st : Nat) : Prop := r.1 = { x with
       st := if x.st = 0 then st else x.st, writes := x.writes.filter fun y => y != p, begun := true
       wrote := x.wrote || st == 0 }
     (¬ ready → r = (x, s)) ∧
     (ready → torn → MemSide s r.2 ∧
       r.1 = { x with st := if x.st = 0 then 6 else x.st, reads := [], writes := [], begun := true }) ∧
     (ready → ¬ torn →
       (q.typ ≤ 1 →
         let w := pageWrite s c.requester q ((if c.keyovr then some x.desc.key else none).getD q.key) (x.dstAt + p.1) l
         MemSide { s with host := w.2.host } w.2 ∧ r.2 = w.2 ∧ goes w.1) ∧
       (1 < q.typ → r.2 = placeWrite s (pagePlace c.requester q) (x.dstAt + p.1) l false ∧ goes 0)))

/-- The performing of a tile (R174, R183, R193): some of its parts in turn, each as a part alone is, its reads before its
writes; a tile of a RESEAL copy is performed at once, and equal keys fail there with PERMISSION, the tile unchanged. -/
def Sys2Proof.Claims.TileRuns : Prop :=
  ∀ (p : Bool × Nat × Nat → Bool) (s : State) (c : Copy) (x : LateTile),
    let r := performTile p s c x
    (c.reseal = true →
      let got := resealTile s c x
      MemSide s got.2 ∧ r = ({ x with st := if x.st = 0 then got.1 else x.st, reads := [], writes := [], begun := true
                                      wrote := got.1 == 0 }, got.2) ∧
      let key := (if c.keyovr then some x.desc.key else none).getD x.dstPage.pte.key
      (key = x.srcPage.pte.key → got = (8, s)) ∧
      (key ≠ x.srcPage.pte.key → got.1 = 0 → got.2.caddy (x.srcAt / 2048) =
        { version := 1, key := key, state := 1, pad := 0, tag := none, sealedWith := keyValue s key, sealedVersion := 1 })) ∧
    (c.reseal = false →
      let l := (x.reads.map (fun q => (false, q)) ++ x.writes.map fun q => (true, q)).filter p
      let z := l.foldl (fun (z : LateTile × State) q => z.1.part z.2 c q) (x, s)
      r.1 = z.1 ∧ (z.1.reads ≠ [] ∨ z.1.writes ≠ [] ∨ z.1.wrote = false → r.2 = z.2) ∧
      ∀ q b, placeByte r.2 q b = placeByte z.2 q b)

/-- COPY_TILE (R147, R159, R174, R193, R201, R202, R216, R310, R318): it completes wherever the copy may go on. A translated
tile that waits is performed, in part or whole; or the next tile is metered, and withheld for want of allowance; a RESEAL copy
that breaks its conditions ends at its first tile with PERMISSION, and is performed tile by tile; it waits without its tokens; a
translation that is not present suspends the copy at its tile, once the tiles before it have been performed; a walk's TAG_FAIL
or CHECK_FAIL fails its tile alone; another failure of the translation ends the copy; a translated tile
is performed at once or later, by the model's free choice (log entry 30). What it debits is the partition's, or an
agent's (R310). -/
def Sys2Proof.Claims.CopyTileStep : Prop :=
  ∀ (s : State) (k : Nat) (c : Copy), s.copy k = some c → (∀ a v op, c.kind ≠ .semsig a v op) →
    let out := exec (.copyTile k) s
    (copyRuns s c = false → out = .next s) ∧
    (copyRuns s c = true →
      (∀ x, lateTurn s k c = some x → x ∈ c.late ∧ CopyRan id s.bump.bump k c x out) ∧
      (lateTurn s k c = none → c.position = none → out = .next (settle (finishCopy s k))) ∧
      ∀ p, lateTurn s k c = none → c.position = some p →
        let w := ceilDiv p.n 8
        let agent := c.requester.part.isNone
        let pay (s1 : State) : State := match copyCluster s c with
          | some cl => debit s1 cl w agent
          | none => s1
        (∀ cl, copyCluster s c = some cl → agent = false → allowed s cl w (copyRank s c) = false →
          out = .next (markWithheld s cl)) ∧
        (copyCluster s c = none ∨ agent = true ∨
            (∃ cl, copyCluster s c = some cl ∧ allowed s cl w (copyRank s c) = true) →
          let first := if c.reseal ∧ c.next = 0 then resealOk s c else (true, s)
          let s0 := first.2
          let part := c.reseal = true ∧ p.src % 2048 ≠ 0
          (first.1 = false → out = .next (settle (pay (finishCopy (s0.putCopy k { c with fail := some (8, 0) }) k)))) ∧
          (first.1 = true → drawTokens s0 c.part (ceilDiv p.n 64) = none → out = .next (settle s0)) ∧
          ∀ s1, first.1 = true → drawTokens s0 c.part (ceilDiv p.n 64) = some s1 →
            let aim := aimTile s0 c c.next p
            let gone : Prop := ∃ va wr, aim.1 = .error (3, va, wr)
            (part → gone → CopyGoes pay s0 k { c with next := c.next + 1 } out) ∧
            (part → ¬ gone → CopyGoes pay s1 k { c with next := c.next + 1 } out) ∧
            (∀ va wr, ¬ part → aim.1 = .error (3, va, wr) →
              (c.late = [] → out = .next (settle (suspend aim.2 k c va wr))) ∧
              ∀ x rest, c.late = x :: rest → CopyRan id aim.2.bump k c x out) ∧
            (¬ part → ¬ gone →
              let got := aimTile s1 c c.next p
              (∀ st va wr, got.1 = .error (st, va, wr) → st ≠ 3 → CopyGoes pay got.2 k
                { c with next := c.next + 1, ended := decide (st ≠ 1 ∧ st ≠ 6), suspended := none
                         fail := firstFail c.fail st c.next } out) ∧
              ∀ x, got.1 = .ok x →
                (c.reseal = true → x.oneTile = false → CopyGoes pay got.2 k
                  { c with next := c.next + 1, ended := true, fail := firstFail c.fail 8 c.next } out) ∧
                (c.reseal = false ∨ x.oneTile = true →
                  let c' := { c with next := c.next + 1, late := c.late ++ [x], suspended := none }
                  CopyRan pay got.2.bump.bump k c' x out ∨ out = .next (settle (pay (got.2.bump.putCopy k c')))))))

/-- SEMSIG_PERFORM (R213, R216): one token, then the update; a translation that is not present suspends it, and takes no
token; any other outcome completes it; the queues that wait read their semaphores again; its energy is charged. -/
def Sys2Proof.Claims.SemsigStep : Prop :=
  ∀ (s : State) (k : Nat) (c : Copy) (a v : DWord) (op : SemOp), s.copy k = some c → c.kind = .semsig a v op →
    let out := exec (.semsigPerform k) s
    (copyRuns s c = false → out = .next s) ∧
    let goes (s1 : State) : Out := .next (charge (rereadAll s1 c.part) c.requester.part)
    (copyRuns s c = true → drawTokens s c.part 1 = none → out = goes s) ∧
    ∀ s1, copyRuns s c = true → drawTokens s c.part 1 = some s1 →
      let r := semUpdate s1 c.requester a v op
      (r.1 = 3 → out = goes (suspend (semUpdate s c.requester a v op).2 k c a.toNat true)) ∧
      (r.1 ≠ 3 → out = goes (completeCopy r.2 k r.1 0))

/-- The bytes of an engine access (R149, R152, R213): a write that a HOST page takes puts its bytes there and nowhere else,
and a read of it gives what stands there; a semaphore address that is not 8-byte aligned changes nothing. -/
def Sys2Proof.Claims.EngineBytes : Prop :=
  (∀ (s s1 : State) (r : Requester) (key : Option Nat) (va pa : Nat) (x : Tlb) (l : List Byte),
    enginePage s r va l.length true = (.ok (x, pa), s1) → x.pte.typ = 1 →
    let o := engineWrite s r key va l
    o.1 = 0 ∧ o.2 = { s1 with host := o.2.host } ∧
    (∀ i (h : i < l.length), fget unwritten o.2.host (pa + i) = l[i]) ∧
    ∀ a, a < pa ∨ pa + l.length ≤ a → fget unwritten o.2.host a = fget unwritten s1.host a) ∧
  (∀ (s s1 : State) (r : Requester) (va pa n : Nat) (x : Tlb),
    enginePage s r va n false = (.ok (x, pa), s1) → x.pte.typ = 1 →
    ∃ l, engineRead s r va n = (0, l, s1) ∧ l.length = n ∧ ∀ i < n, l[i]? = some (fget unwritten s1.host (pa + i))) ∧
  (∀ (s : State) (r : Requester) (a v : DWord) (op : SemOp), a.toNat % 8 ≠ 0 → semUpdate s r a v op = (8, s)) ∧
  ∀ old v : DWord, semValue .set old v = v ∧ semValue .add old v = old + v ∧ semValue .or old v = old ||| v ∧
    (semValue .maxU old v).toNat = max old.toNat v.toNat

/-- The translation of an address (R145, R147, R148, R150, R151, R154): one with a bit of [63:57] set has no page; otherwise a
cached translation of its partition answers, but for the first write through it, and a walk else, which fills the caches. A
walk starts at the partition's root, under its key, and indexes five levels; an entry is read through the seal units; it fails
where the crossbar or the seal refuses it (a refused read or write of an entry is a CHECK_FAIL), where it is not present or
malformed, and where its key lies outside the partition's range; a leaf ends the walk with ACC, and DIRTY for a write that
it allows, set in it. -/
def Sys2Proof.Claims.Translation : Prop :=
  (∀ (s : State) (part core : Option Nat) (va : Nat) (wr : Bool),
    let r := xlate s part core va wr
    let hit := cached true s core part va wr
    let w := walk s part va wr
    (2 ^ 57 ≤ va → r = (.error 6, s)) ∧
    (va < 2 ^ 57 → ∀ x, hit = some x → r = (.ok x, s)) ∧
    (va < 2 ^ 57 → hit = none → (∀ e, w.1 = .error e → r = (.error e, w.2)) ∧
      ∀ x, w.1 = .ok x → r = (.ok x, cacheFill true w.2 core x)) ∧
    ∀ x, hit = some x → ∃ c, core = some c ∧ (x ∈ fget noTlbs s.tlb1 c ∨ x ∈ fget noTlbs s.tlb2 (c / 4)) ∧
      x.part = part ∧ x.base ≤ va ∧ va < x.base + x.size ∧ (wr = true → x.pte.wr = true → x.pte.dirty = true)) ∧
  (∀ (s : State) (part : Option Nat) (va : Nat) (wr : Bool),
    let root := match part with
      | some n => (s.dfield (aPtRoot n) 0 52, s.dfield (aPtRoot n) 52 11)
      | none => (s.fwRoot / 8192 * 8192, 0)
    let w := walkFrom part va wr 4 s root.1 root.2
    (∀ e, w.1 = .error e → walk s part va wr = (.error e, w.2)) ∧
    ∀ e level, w.1 = .ok (e, level) → level ≤ 2 ∧
      let size := 2 ^ (if level = 0 then 16 else 12 + 9 * level)
      walk s part va wr = (.ok { part := part, base := va / size * size, size := size, pte := pteOf e }, w.2)) ∧
  (∀ (s : State) (part : Option Nat) (va : Nat) (wr : Bool) (level node key : Nat), level ≤ 4 →
    let a := node + 16 * (if level = 0 then va / 2 ^ 16 % 32 else va / 2 ^ (12 + 9 * level) % 512)
    let r := walkFrom part va wr level s node key
    let got := sealRead s key 4 a 16
    let e := ofBytes got.2.1
    let p := pteOf e
    let refused (st : Nat) : Nat := if st = 1 then 10 else 9
    (xbarAllows s part a = false → r = (.error 9, (part.map (addDeny s)).getD s)) ∧
    (xbarAllows s part a = true → got.1 ≠ 0 → r = (.error (refused got.1), got.2.2)) ∧
    (xbarAllows s part a = true → got.1 = 0 →
      (e.testBit 0 = false ∨ malformed part level va e = true → r = (.error 6, got.2.2)) ∧
      (e.testBit 0 = true → malformed part level va e = false →
        let out := ∃ n, part = some n ∧ (e.testBit 7 = false ∨ p.typ ∈ [0, 1, 4]) ∧ keyInRange got.2.2 n p.key = false
        let e' := e ||| (if wr = true ∧ e.testBit 2 = true then 0x60 else 0x20)
        let w := sealWrite got.2.2 key 1 a (toBytes 16 e')
        (out → r = (.error 7, got.2.2)) ∧
        (¬ out → e.testBit 7 = false → r = walkFrom part va wr (level - 1) got.2.2 p.addr p.key) ∧
        (¬ out → e.testBit 7 = true → e' = e → r = (.ok (e, level), got.2.2)) ∧
        (¬ out → e.testBit 7 = true → e' ≠ e → w.1 = 0 → r = (.ok (e', level), w.2)) ∧
        (¬ out → e.testBit 7 = true → e' ≠ e → w.1 ≠ 0 → r = (.error (refused w.1), w.2))))) ∧
  ∀ (part : Option Nat) (level va e : Nat), level ≤ 4 →
    let f (lo n : Nat) : Nat := e / 2 ^ lo % 2 ^ n
    let typ := f 8 3
    let keyed := typ = 0 ∨ typ = 1 ∨ typ = 4
    (e.testBit 7 = true → (malformed part level va e = true ↔
      2 < level ∨ f 13 3 ≠ 0 ∨ f 36 28 ≠ 0 ∨ f 116 12 ≠ 0 ∨ typ = 7 ∨ f 11 2 = 3 ∨
      f 64 52 % 2 ^ (if level = 0 then 16 else 12 + 9 * level) ≠ 0 ∨ (f 27 9 ≠ 0 ∧ typ ≠ 2 ∧ typ ≠ 3) ∨
      ((typ = 4 ∨ typ = 6) ∧ f 64 52 ≠ 0) ∨ ((typ = 5 ∨ typ = 6) ∧ f 11 2 ≠ 0) ∨ (typ = 6 ∧ level ≠ 0) ∨
      (typ = 4 ∧ va < 0x01FF800000000000) ∨ (keyed ∧ f 16 11 = 0 ∧ part ≠ none) ∨ (¬ keyed ∧ f 16 11 ≠ 0))) ∧
    (e.testBit 7 = false → (malformed part level va e = true ↔
      level = 0 ∨ f 1 6 ≠ 0 ∨ f 8 8 ≠ 0 ∨ f 27 37 ≠ 0 ∨ f 116 12 ≠ 0 ∨
      f 64 52 % (if level = 1 then 512 else 8192) ≠ 0 ∨ (f 16 11 = 0 ∧ part ≠ none)))

/-- COPY_TILE, SEMSIG_PERFORM, WALK_COMPLETION, FAULT_RETRY and FAULT_UNRESOLVED (R154, R159, R161, R162, R201, R213, R216):
a walk fills its core's caches and its cluster's, within their sizes; a suspended operation's translation is tried again and,
where it succeeds, the operation goes on where it stopped; after 100 ms of its partition's resident time, unless it succeeds
then, the operation ends with FAULT_UNRESOLVED (3) at its tile; an operation of F level, which acts for no partition, counts
the time itself. A tile's parts, the performing of a tile, and the translation of an address are the terms they cite. -/
def Obligations.EngineEvents : Prop :=
  Translation ∧ TileParts ∧ TileRuns ∧ CopyTileStep ∧ SemsigStep ∧ EngineBytes ∧
  (∀ (s : State) (core part : Nat) (va : DWord) (wr : Bool),
    (¬ (core < 512 ∧ va.toNat < 2 ^ 57) → exec (.walkCompletion core part va wr) s = .next s) ∧
    (core < 512 → va.toNat < 2 ^ 57 →
      let w := walk s (if part < 64 then some part else none) va.toNat wr
      MemSide s w.2 ∧ (∀ e, w.1 = .error e → exec (.walkCompletion core part va wr) s = .next w.2) ∧
      ∀ x, w.1 = .ok x → ∃ s', exec (.walkCompletion core part va wr) s = .next s' ∧ MemSide w.2 s' ∧
        x ∈ fget noTlbs s'.tlb1 core ∧ x ∈ fget noTlbs s'.tlb2 (core / 4) ∧
        (fget noTlbs s'.tlb1 core).length ≤ 64 ∧ (fget noTlbs s'.tlb2 (core / 4)).length ≤ 2048 ∧
        (∀ k, k ≠ core → fget noTlbs s'.tlb1 k = fget noTlbs s.tlb1 k) ∧
        (∀ k, k ≠ core / 4 → fget noTlbs s'.tlb2 k = fget noTlbs s.tlb2 k))) ∧
  ∀ (s : State) (k : Nat) (c : Copy), s.copy k = some c →
    let on := c.saved = false ∧ (c.requester.part = none ∨ partActive s c.part = true)
    let now := if c.requester.part = none then s.ns else residentNs s c.part
    (c.suspended = none ∨ ¬ on → exec (.faultRetry k) s = .next s ∧ exec (.faultUnresolved k) s = .next s) ∧
    ∀ t0, c.suspended = some t0 → on →
      exec (.faultRetry k) s = .next (retryCopy s k) ∧
      (now < t0 + 100000000 → exec (.faultUnresolved k) s = .next s) ∧
      (∃ s1, MemSide s s1 ∧ (retryCopy s k = s1 ∨ retryCopy s k = s1.putCopy k { c with suspended := none })) ∧
      ∀ c1, t0 + 100000000 ≤ now → (retryCopy s k).copy k = some c1 →
        (c1.suspended = none → exec (.faultUnresolved k) s = .next (retryCopy s k)) ∧
        (c1.suspended ≠ none → exec (.faultUnresolved k) s = .next (settle (finishCopy
          ((retryCopy s k).putCopy k { c1 with fail := c1.fail.or (some (3, c1.next)) }) k)))

/-- The token meter (R216, R217, R295): tokens are drawn from the VF's bucket, and, with it empty, from the pool, up to a quarter
of RATE in a period, as DEBT; a RATE acts from the refill after it was written. TOKEN_REFILL, once a µs, gives each VF its
RATE: of it half at most repays DEBT to the pool, the bucket takes the rest up to 8 times RATE, and what it cannot hold, also
of what it held under a higher RATE, goes to the pool, which holds at most 1,048,576. -/
def Sys2Proof.Claims.TokenMeter : Prop :=
  (∀ (s : State) (n cost : Nat),
    let p := s.part n
    let rate := p.rate
    let need := cost - p.bucket
    (n = 0 ∨ rate = 0 → drawTokens s n cost = some s) ∧
    (n ≠ 0 → rate ≠ 0 → cost ≤ p.bucket →
      drawTokens s n cost = some (s.putPart n { p with bucket := p.bucket - cost })) ∧
    (n ≠ 0 → rate ≠ 0 → p.bucket < cost →
      (p.bucket ≠ 0 ∨ s.pool < need ∨ rate / 4 < p.borrowed + need → drawTokens s n cost = none) ∧
      (p.bucket = 0 → need ≤ s.pool → p.borrowed + need ≤ rate / 4 → ∃ s', drawTokens s n cost = some s' ∧
        s'.pool = s.pool - need ∧ s'.part n = { p with borrowed := p.borrowed + need } ∧
        s'.dfield (aVfTok n) 32 24 = min (s.dfield (aVfTok n) 32 24 + need) (2 ^ 24 - 1) ∧
        (∀ m, m ≠ n → s'.part m = s.part m) ∧ (∀ a, a ≠ aVfTok n → s'.dreg a = s.dreg a) ∧
        s' = { s with pool := s'.pool, parts := s'.parts, dev := s'.dev }))) ∧
  (∀ s : State, s.ns < s.tokenAt + 1000 → exec .tokenRefill s = .next s) ∧
  ∀ s : State, s.tokenAt + 1000 ≤ s.ns → ∃ s', exec .tokenRefill s = .next s' ∧
    s' = { s with pool := s'.pool, parts := s'.parts, dev := s'.dev, tokenAt := s.tokenAt + 1000 } ∧
    (∀ n, 64 ≤ n → s'.part n = s.part n ∧ s'.dreg (aVfTok n) = s.dreg (aVfTok n)) ∧
    (∀ n < 64, n = 0 ∨ s.dfield (aVfTok n) 0 24 = 0 →
      s'.part n = { s.part n with rate := s.dfield (aVfTok n) 0 24 } ∧ s'.dreg (aVfTok n) = s.dreg (aVfTok n)) ∧
    (∀ a, (∀ n < 64, a ≠ aVfTok n) → s'.dreg a = s.dreg a) ∧
    (∀ n, n ≠ 0 → n < 64 → s.dfield (aVfTok n) 0 24 ≠ 0 →
      let rate := s.dfield (aVfTok n) 0 24
      let debt := s.dfield (aVfTok n) 32 24
      let back := min debt (rate / 2)
      s'.part n = { s.part n with rate := rate, bucket := min ((s.part n).bucket + (rate - back)) (8 * rate), borrowed := 0 } ∧
      s'.dreg (aVfTok n) = dput (s.dreg (aVfTok n)) 32 24 (debt - back)) ∧
    (s.pool ≤ 1048576 → s'.pool = min 1048576 (s.pool + (((List.range 64).filter fun n =>
      n != 0 && s.dfield (aVfTok n) 0 24 != 0).map fun n =>
        let rate := s.dfield (aVfTok n) 0 24
        let back := min (s.dfield (aVfTok n) 32 24) (rate / 2)
        let full := (s.part n).bucket + (rate - back)
        back + (full - min full (8 * rate))).sum))

/-- TOKEN_REFILL, OPEN_TILE_TIMEOUT, BREEZE_TILE and BREEZE_CLR (R173, R177, R216, R217): an open tile is resealed with its
plaintext 1 ms after it opened, or is FAILED where a check word fails, or its write is lost where a node of its path fails
(R170); the breeze, where it runs and the tile is not open, counts what it corrects with FIX, makes a tile whose tag fails
FAILED, logs a failing node, and goes on to the next of the data tiles, at the overhead account's charge (R310); CLR
clears BREEZE_STAT and nothing else. -/
def Obligations.ServiceEvents : Prop :=
  TokenMeter ∧
  (∀ (s : State) (tile : Nat) (o : OpenTile), openOf s tile = some o →
    (s.ns < o.since + 1000000 → exec (.openTileTimeout tile) s = .next s) ∧
    (o.since + 1000000 ≤ s.ns → ∃ s', exec (.openTileTimeout tile) s = .next s' ∧ MemSide s s' ∧
      (o.badGranule true 0 2048 = none → pathFail s tile = none → openOf s' tile = none ∧ (∀ j, j ≠ tile → openOf s' j = openOf s j) ∧ s'.caddy tile = resealed s (s.caddy tile) o.key ∧
        (∀ i < 2048, fget unwritten s'.hbm (2048 * tile + i) = fget unwritten o.bytes i) ∧
        (∀ a, a / 2048 ≠ tile → fget unwritten s'.hbm a = fget unwritten s.hbm a) ∧
        ∀ j, j ≠ tile → s'.caddy j = s.caddy j) ∧
      (∀ g, o.badGranule true 0 2048 = some g → s' = sealLog { s with
        openTiles := s.openTiles.filter fun x => x.tile != tile
        caddies := fset (fun _ => Caddy.blank) s.caddies tile { s.caddy tile with state := 2 } } (tile * 2048) 1 6 g) ∧
      ∀ a, o.badGranule true 0 2048 = none → pathFail s tile = some a →
        s' = nodeLog { s with openTiles := s.openTiles.filter fun x => x.tile != tile } a)) ∧
  (∀ (s : State) (n : Nat),
    let pos := s.dfield aBreezePos 0 28
    let t := pos / (63 * 2 ^ 19) * 2 ^ 25 + pos % (63 * 2 ^ 19)
    let done (s1 : State) : Out := .next ((charge s1 none).putDfield aBreezePos 0 28 ((pos + 1) % (2 ^ 28 - 2 ^ 22)))
    ((s.dreg aBreezeCtl).getLsbD 0 = false ∨ openOf s t ≠ none → exec (.breezeTile n) s = .next s) ∧
    ((s.dreg aBreezeCtl).getLsbD 0 = true → openOf s t = none → ∀ s1 : State,
      ((s.dreg aBreezeCtl).getLsbD 1 = false → s1 = s) →
      ((s.dreg aBreezeCtl).getLsbD 1 = true →
        s1 = s.putDfield aBreezeStat 0 16 (min (s.dfield aBreezeStat 0 16 + n) 65535)) →
      let c := s.caddy t
      let live := c.state = 1 ∨ c.state = 3
      let bad := sealLog (s1.putCaddy t { c with state := 2 }) (t * 2048) 3 1 0
      (c.state = 0 ∨ (live ∧ pathFail s t = none ∧ tagMatches s t = true) → exec (.breezeTile n) s = done s1) ∧
      (∀ a, live → pathFail s t = some a → exec (.breezeTile n) s = done (nodeLog s1 a)) ∧
      (c.state = 2 → exec (.breezeTile n) s = done bad) ∧
      (4 ≤ c.state ∨ (live ∧ pathFail s t = none ∧ tagMatches s t = false) →
        exec (.breezeTile n) s = done (breezeCount bad 16 1)))) ∧
  ∀ s : State, ∃ s', exec .breezeClr s = .next s' ∧ s' = { s with dev := s'.dev } ∧ s'.dreg aBreezeStat = 0 ∧
    ∀ a, a ≠ aBreezeStat → s'.dreg a = s.dreg a

/-! ## Streams in the cluster (R233, R234, R240) -/

/-- STREAM_ADMISSION, STREAM_CLAUSE_FETCH and STREAM_OP_RETIRE (R233, R234, R240): of a cluster's waiting streams that may
run, the first by effective rank and age is admitted with an empty window, where its slots and its tiles are free; an
admitted stream between clauses obtains and checks the next, or fails with the cause; an operation retires when none before
it shares a tile or a slot with it, or has still to reach the bytes of memory that it has to reach; what is left of it is then
performed, and a check word that fails fails the stream. -/
def Obligations.StreamEvents : Prop :=
  (∀ (s : State) (c : Nat),
    let waits (k : Nat) (x : Stream) : Prop := (k, x) ∈ entriesOf s c ∧ x.admitted = false ∧ streamRuns s x = true
    ((∀ k x, ¬ waits k x) → exec (.streamAdmission c) s = .next s) ∧
    ∀ k x w, waits k x → (∀ j y, waits j y → (j, y) = (k, x) ∨ streamBefore s y x = false ∧ streamBefore s x y = true) →
      s.wg x.wg = some w →
      (x.s ≤ freeOpSlots s c → x.w ≤ freeTiles s w.core x.wg →
        exec (.streamAdmission c) s = .next ((s.putStream k { x with admitted := true }).putWg x.wg
          { w with window := some { w := x.w, tiles := [], inUse := [], dirty := [], bad := [] } })) ∧
      (freeOpSlots s c < x.s ∨ freeTiles s w.core x.wg < x.w → exec (.streamAdmission c) s = .next s)) ∧
  (∀ (s : State) (k : Nat) (x : Stream) (w : Workgroup), s.stream k = some x → s.wg x.wg = some w →
    (x.admitted = false ∨ x.clause ≠ none ∨ streamRuns s x = false → exec (.streamClauseFetch k) s = .next s) ∧
    (x.admitted = true → x.clause = none → streamRuns s x = true →
      let got := fetchClause s (if w.agent then none else some w.part) (some w.core) x.pc
      (∀ cause, got.1 = .error cause → exec (.streamClauseFetch k) s = .next (settle (failStream got.2 k cause))) ∧
      ∀ h ws, got.1 = .ok (h, ws) →
        (∀ j cause, clauseFail (.stream x.w x.s) h ws = some (j, cause) →
          exec (.streamClauseFetch k) s = .next (settle (failStream got.2 k cause))) ∧
        (clauseFail (.stream x.w x.s) h ws = none →
          let c : Clause := { addr := x.pc, hdr := h, words := ws, started := false }
          exec (.streamClauseFetch k) s =
            .next (noteReady (passBoundary (got.2.putStream k { x with clause := some c, slot := 0 }) k) x.cluster)))) ∧
  ∀ (s : State) (k i : Nat) (x : Stream) (o : StreamOp), s.stream k = some x → x.inflight[i]? = some o →
    let waits := (∃ p ∈ x.inflight.take i, (∃ t ∈ p.tiles, t ∈ o.tiles) ∨ ∃ n ∈ p.slots, n ∈ o.slots) ∨
      ∃ m, o.mem = some m ∧ ∃ q ∈ m.left, x.mayPart i o { m with left := [] } q = false
    let r := retireOp s k i
    (waits → exec (.streamOpRetire k i) s = .next s) ∧
    (¬ waits → (∀ g, r.1 = some g → exec (.streamOpRetire k i) s = .next (settle (failCheck r.2 k g))) ∧
      (r.1 = none → exec (.streamOpRetire k i) s = .next (lastTeamGone (noteReady r.2 x.cluster) x.wg)))

/-! ## Allowances, operating points and temperatures (R313 to R316, R318, R319, R335) -/

/-- OPERATING_POINT_CHANGE, ALLOWANCE_REGULATION, BALLAST_PASS, THERMAL_LIMIT and THERMAL_STOP (R313, R314, R316, R319,
R335): an ON cluster's point becomes the lowest of the hint, the pace and the die's limit, and its counted cycles stay; CLRATE
falls by a sixteenth above the cap, and rises by one below 95% where issue was withheld, to twice its initial value, once
every 10 µs, and is set anew where the cluster's clock changes; ballast takes the µs that have ended, one after another, and
runs a pass, which changes no tile and no slot, where the debit is low and the engine idle; a die at 100 degrees is limited to point 4, below 95 it is not, and from 110 on the device
stops. -/
def Sys2Proof.Claims.RateEvents : Prop :=
  (∀ (s : State) (c : Nat),
    (clState s c ≠ 0 → exec (.operatingPointChange c) s = .next s) ∧
    (clState s c = 0 → ∃ s', exec (.operatingPointChange c) s = .next s' ∧
      pointAt s' c = min (hintAt s c) (min (paceAt s c) (thermalOf s (c / 16))) ∧ cyclesOf s' c = cyclesOf s c ∧
      (∀ k, k ≠ c → s'.cluster k = s.cluster k) ∧ (∀ a, a ≠ aClState c → s'.dreg a = s.dreg a) ∧
      (let m := min (hintAt s c) (min (paceAt s c) (thermalOf s (c / 16)))
       (pointAt s c = m → s' = s) ∧
       (pointAt s c ≠ m → m = 0 ∨ holderOf s c = none → (s'.cluster c).clrate = (s.cluster c).clrate ∧
          (s'.cluster c).clrate0 = (s.cluster c).clrate0) ∧
       ∀ n, pointAt s c ≠ m → m ≠ 0 → holderOf s c = some n →
          (s'.cluster c).clrate = initialRate s' n c ∧ (s'.cluster c).clrate0 = initialRate s' n c) ∧
      s' = { s with dev := s'.dev, clusters := s'.clusters })) ∧
  (∀ (s : State) (n watts : Nat), s.ns < (s.part n).regAt + 10000 → exec (.allowanceRegulation n watts) s = .next s) ∧
  (∀ (s : State) (n watts : Nat), (s.part n).regAt + 10000 ≤ s.ns → ∃ s', exec (.allowanceRegulation n watts) s = .next s' ∧
    s'.dfield (aPcap n) 32 16 = watts % 65536 ∧ (∀ a, a ≠ aPcap n → s'.dreg a = s.dreg a) ∧
    s' = { s with dev := s'.dev, clusters := s'.clusters, parts := s'.parts } ∧
    s'.part n = { s.part n with regAt := s.ns } ∧ (∀ m, m ≠ n → s'.part m = s.part m) ∧
    (∀ c, ownsCluster s n c = false → s'.cluster c = s.cluster c) ∧
    ∀ c, ownsCluster s n c = true →
      let cap := effectiveCap s n
      let x := s.cluster c
      (s'.cluster c).withheld = false ∧ (s'.cluster c).clrate0 = x.clrate0 ∧
      (cap.1 < watts * cap.2 → (s'.cluster c).clrate = x.clrate - x.clrate / 16) ∧
      (watts * cap.2 ≤ cap.1 → 100 * watts * cap.2 < 95 * cap.1 → x.withheld = true →
        (s'.cluster c).clrate = min (x.clrate + x.clrate / 16) (2 * x.clrate0)) ∧
      (watts * cap.2 ≤ cap.1 → (95 * cap.1 ≤ 100 * watts * cap.2 ∨ x.withheld = false) →
        (s'.cluster c).clrate = x.clrate)) ∧
  (∀ (s : State) (c : Nat),
    let x := s.cluster c
    let s0 := rollWindow s c
    let y := s0.cluster c
    let idle := ∀ e ∈ entries s.streams, e.2.cluster = c → ∀ o ∈ e.2.inflight, o.engine = false
    let level (l : Nat × Bool) (now : Nat) : Nat × Bool :=
      let ramp := l.1 * (16 - s.dfield aBallast 4 4) / 16
      if 2 * now < l.1 ∨ (l.2 = true ∧ now < ramp) then (max now ramp, true) else (now, false)
    let runs := (s.dreg aBallast).getLsbD 0 = true ∧ y.low = true ∧ idle ∧ y.debit + 5000 * y.ballast < y.lastDebit
    (s.ns < x.winAt + 1000 → s0 = s) ∧
    (x.winAt + 1000 ≤ s.ns → s0 = s.putCluster c y ∧ y.debit = 0 ∧ y.ballast = 0 ∧ y.winAt ≤ s.ns ∧ s.ns < y.winAt + 1000 ∧
      y = { x with lastDebit := y.lastDebit, low := y.low, debit := 0, ballast := 0, winAt := y.winAt }) ∧
    (x.winAt + 1000 ≤ s.ns → (y.lastDebit, y.low) =
      (List.replicate (min ((s.ns - x.winAt) / 1000 - 1) 512) 0).foldl level (level (x.lastDebit, x.low) x.debit)) ∧
    (runs → exec (.ballastPass c) s = .next (charge (s0.putCluster c { y with ballast := y.ballast + 1 }) none)) ∧
    (¬ runs → exec (.ballastPass c) s = .next s0)) ∧
  ∀ (s : State) (die temp : Nat),
    (∃ s', exec (.thermalLimit die temp) s = .next s' ∧ s' = { s with th := s'.th } ∧
      thermalOf s' die = (if 100 ≤ temp then 4 else if temp < 95 then 8 else thermalOf s die) ∧
      ∀ d, d ≠ die → thermalOf s' d = thermalOf s d) ∧
    exec (.thermalStop die temp) s = .next { s with heatStop := s.heatStop || decide (110 ≤ temp) }

/-- An issue's metering (R310, R316, R318): ALW refills by CLRATE for each counted cycle up to 256 × CLRATE, a debit takes the
weight, and ALW never falls below −256 × CLRATE; an issue of rank r passes where ALW is its weight and (63 − r) × ALWMAX ÷
128. Its energy goes to the partition that holds the cluster, and a firmware agent's to the overhead account. -/
def Sys2Proof.Claims.Allowance : Prop :=
  ∀ (s : State) (c w rank : Nat) (agent : Bool),
    let x := s.cluster c
    let full : Int := min (x.alw + (cyclesOf s c - x.cycBase / 10 : Nat) * x.clrate) (256 * x.clrate)
    let s' := debit s c w agent
    (x.cycBase ≤ clockTenths s c) ∧
    (s'.cluster c).alw = max (full - w) (-(256 * x.clrate)) ∧ (s'.cluster c).clrate = x.clrate ∧
    (s'.cluster c).withheld = x.withheld ∧ cyclesOf s' c = cyclesOf s c ∧
    (s'.cluster c).debit = ((rollWindow s c).cluster c).debit + w ∧
    (∀ k, k ≠ c → s'.cluster k = s.cluster k) ∧ s' = { s with clusters := s'.clusters, dev := s'.dev, fresh := s.fresh + 1 } ∧
    (∀ a, (agent = true ∨ holderOf s c = none → a ≠ aDevEnergy) →
      (∀ n, agent = false → holderOf s c = some n → a ≠ aEnergy n) → s'.dreg a = s.dreg a) ∧
    (allowed s c w rank = true ↔ x.clrate = 0 ∨ ((w + (63 - rank) * (256 * x.clrate / 128) : Nat) : Int) ≤ full)

/-- Operating points, allowances, ballast and temperatures. -/
def Obligations.RateEvents : Prop := Sys2Proof.Claims.RateEvents ∧ Sys2Proof.Claims.Allowance

/-! ## Registers, the host and the mailbox (R177, R250, R259, R272 to R274, R277 to R279, R285, R294 to R298, R315, R321,
R330, R331, R333) -/

/-- HEVT_WRITE and NQLATCH_WRITE (R277, R315), and ING_FILT_WRITE (R285): a 1 clears its event bit, and QUEUE is the
lowest queue with an event left, or 0; a 1 in COALESCED clears it and COUNT, and DEST is written; a filter's VLAN test, port, vector and EN are
written, and a rising EN clears ING_STAT and the frame counts. -/
def Sys2Proof.Claims.SmallWrites : Prop :=
  (∀ (s : State) (n : Nat) (v : DWord), n < 64 →
    (∃ s', exec (.hevtWrite n v) s = .next s' ∧ s' = { s with dev := s'.dev, qEvents := s'.qEvents } ∧
      (∀ a, a ≠ aHevt n → s'.dreg a = s.dreg a) ∧
      (∀ i < 5, (s'.dreg (aHevt n)).getLsbD i = ((s.dreg (aHevt n)).getLsbD i && !v.getLsbD i)) ∧
      (∀ e ∈ s'.qEvents, ∃ k, (e.1, k) ∈ s.qEvents ∧ e.2 ≠ 0 ∧
        e.2 = if ownsQueue s n e.1 then k - (k &&& v.toNat % 4) else k) ∧
      s'.dfield (aHevt n) 16 12 = ((s'.qEvents.find? fun e => ownsQueue s n e.1).map Prod.fst).getD 0 % 4096) ∧
    ∃ s', exec (.nqlatchWrite n v) s = .next s' ∧ s' = { s with dev := s'.dev } ∧
      (∀ a, a ≠ aNqlatch n → s'.dreg a = s.dreg a) ∧
      s'.dfield (aNqlatch n) 32 9 = dfld v 32 9 ∧
      (v.getLsbD 1 = true → s'.dfield (aNqlatch n) 1 1 = 0 ∧ s'.dfield (aNqlatch n) 16 16 = 0) ∧
      (v.getLsbD 1 = false → s'.dfield (aNqlatch n) 0 32 = s.dfield (aNqlatch n) 0 32)) ∧
  ∀ (s : State) (f : Nat) (v : DWord), f < 256 → ∃ s', exec (.ingFiltWrite f v) s = .next s' ∧
    s'.dreg (aIngFilt f) = merge 0x3FBFFFFFFF#64 (s.dreg (aIngFilt f)) v ∧
    (∀ a, a ≠ aIngFilt f → a ≠ aIngStat f → s'.dreg a = s.dreg a) ∧
    (v.getLsbD 31 = true → (s.dreg (aIngFilt f)).getLsbD 31 = false →
      s'.dreg (aIngStat f) = 0 ∧ dropsOf s' f = 0 ∧ framesOf s' f = 0 ∧
      (∀ g, g ≠ f → dropsOf s' g = dropsOf s g ∧ framesOf s' g = framesOf s g) ∧
      s' = { s with dev := s'.dev, ingDrops := s'.ingDrops, ingSeq := s'.ingSeq }) ∧
    (v.getLsbD 31 = false ∨ (s.dreg (aIngFilt f)).getLsbD 31 = true →
      s'.dreg (aIngStat f) = s.dreg (aIngStat f) ∧ s' = { s with dev := s'.dev })

/-- REGISTER_WRITE (R4, R273, R274): an F-level write goes to the register at its address, and to none where none stands at
it;
a host write through a function's BAR0 goes to its mailbox, to the PF's boot registers, or to a register that the function
reaches at P level, and is ignored elsewhere. Writes that only store leave every reserved and read-only bit, and every low bit
that must be 0. -/
def Sys2Proof.Claims.BarWrites : Prop :=
  (∀ (s : State) (a : Nat) (v : DWord),
    (regAt a ≠ some a → exec (.registerWrite (.atF a v)) s = .next s) ∧
    (regAt a = some a → exec (.registerWrite (.atF a v)) s = .next (devWrite s 2 a v)) ∧
    (a ∈ [aPtpState, aPtpOffset, aPtpNow, aPtmPtp, aBreezePos, aBreezeStat, aDevEnergy] →
      exec (.registerWrite (.atF a v)) s = .next s)) ∧
  (∀ (s : State) (v : DWord), ∀ e ∈ [(aBreezeRate, 0xFFFFFF#64), (aSealBase, 0xFFFFFFFFFF800#64), (aSealSize, 0xFFFFF800#64),
      (aHwin 5, 0x003FFFFFFFFFFFFF#64), (aVfTok 3, 0xFFFFFF#64), (aVfSlice 3, 0x7FFFFFFFFFFF#64),
      (aPtRoot 3, 0x7FFFFFFFFFFFE000#64), (aFaultq 3, 0x7FFFFFFFFFFFF800#64), (aSave 3, 0x01FFFFFFFFFF0000#64), (aSavesz 3, 0xFFFFFFFF#64),
      (aPcap 3, 0xFFFFF#64), (aBallast, 0xF1#64)],
    exec (.registerWrite (.atF e.1 v)) s = .next (s.putDreg e.1 (merge e.2 (s.dreg e.1) v))) ∧
  (∀ (s : State) (v : DWord), exec (.registerWrite (.atF aPtpCfg v)) s = .next ({ s with ptp := { s.ptp with
    enAt := if v.getLsbD 11 = true ∧ (s.dreg aPtpCfg).getLsbD 11 = false then s.ns else s.ptp.enAt } }.putDreg aPtpCfg
      (merge 0xFFF (s.dreg aPtpCfg) v))) ∧
  (∀ (s : State) (fn off : Nat) (v : DWord), fn < 64 →
    let out := exec (.registerWrite (.bar0 fn off v)) s
    let x := s.mailbox fn
    (off = 0xE0000 → out = .next (s.putMailbox fn { x with addr := v })) ∧
    (off = 0xE0008 → out = .next (if v.getLsbD 0 = true ∧ x.busy = false then s.putMailbox fn { x with busy := true } else s)) ∧
    (off = 0xF0000 → fn = 0 → out = .next { s with boot := { s.boot with addr := v } }) ∧
    (off = 0xF0008 → fn = 0 → out = .next { s with boot := { s.boot with len := v } }) ∧
    (off = 0xF0010 → fn = 0 → v.getLsbD 0 = true → out = exec .bootGo s) ∧
    (off = 0xF0000 ∨ off = 0xF0008 ∨ off = 0xF0010 → fn ≠ 0 → out = .next s) ∧
    (off < 0xE0000 → barAddress fn off = none → out = .next s) ∧
    ∀ a, off < 0xE0000 → barAddress fn off = some a →
      (regReached s 1 (some fn) a = false ∨ regAt a ≠ some a → out = .next s) ∧
      (regReached s 1 (some fn) a = true → regAt a = some a → out = .next (devWrite s 1 a v))) ∧
  ∀ (s : State) (m fn off : Nat) (v : DWord), fn < 64 → m < 64 → m ≠ fn → off < 0x100 →
    ∃ s', exec (.registerWrite (.bar0 fn off v)) s = .next s' ∧
      ∀ o < 0x100, s'.dreg (aBlock m o) = s.dreg (aBlock m o)

/-- The register writes that have events of their own, and REGISTER_WRITE. -/
def Obligations.RegisterWrites : Prop := SmallWrites ∧ BarWrites

/-- The HDM decoders (R272; the order of their ranges is the model's choice, log entry 60): with none on, an address maps to
none; with the first one alone, and no interleaving, an address of its range maps to its offset behind SKIP. -/
def Sys2Proof.Claims.HdmDecoders : Prop :=
  ∀ (s : State) (h : Nat), ((∀ k < 4, (s.decoder k).on = false) → deviceAddress s h = none) ∧
    ((s.decoder 0).on = true → (s.decoder 0).ways ≤ 1 → (∀ k < 4, k ≠ 0 → (s.decoder k).on = false) →
      let d := s.decoder 0
      deviceAddress s h = if d.base ≤ h ∧ h < d.base + d.size then some (d.skip + (h - d.base)) else none)

/-- CXL_MEM_READ and CXL_MEM_WRITE (R272, R278, R279, R293): an access that no decoder maps, lies in no enabled window,
crosses its end, meets a metadata region or a key that is not VALID or not in the window's partition's range, or that the
crossbar refuses, is answered with zeros or dropped, with the memory data error status and a non-fatal error of its host
address; otherwise it is served under the window's key. Its energy goes to the window's partition (R310). An access over several lines of 64 bytes is those of its lines, in
ascending order (the model's choice, log entry 60). -/
def Sys2Proof.Claims.CxlAccess : Prop :=
  (∀ (s : State) (a n : Nat),
    let key := cxlKey s a n
    MemSide s key.2 ∧
    (hostWindow s a = none → key = (none, s)) ∧
    (∀ w, hostWindow s a = some w →
      w.getLsbD 0 = true ∧ dfld w 18 18 ≤ a / 2 ^ 21 ∧ a / 2 ^ 21 ≤ dfld w 36 18 ∧
      ∀ k, key.1 = some k → k = dfld w 1 11 ∧ 0 < n ∧ (a + n - 1) / 2 ^ 21 ≤ dfld w 36 18 ∧ inMetadata a = false ∧
        inMetadata (a + n - 1) = false ∧ keyOk s k = true ∧ keyInRange s (dfld w 12 6) k = true ∧
        xbarAllows s (some (dfld w 12 6)) a = true ∧ xbarAllows s (some (dfld w 12 6)) (a + n - 1) = true)) ∧
  (∀ (s : State) (h : Nat) (l : List Byte), 0 < l.length → h % 64 + l.length ≤ 64 →
    let n := l.length
    let pays (a : Nat) (s1 : State) : State := match hostWindow s1 a with
      | some w => charge s1 (some (dfld w 12 6))
      | none => s1
    (deviceAddress s h = none →
      exec (.cxlMemRead h n) s = .next { s with cxlRead := zeros n, cxlRas := true, aer := s.aer ++ [h] } ∧
      exec (.cxlMemWrite h l) s = .next { s with cxlRas := true, aer := s.aer ++ [h] }) ∧
    ∀ a, deviceAddress s h = some a →
      let key := cxlKey s a n
      let fails (s1 : State) : State := { s1 with cxlRas := true, aer := s1.aer ++ [h] }
      (key.1 = none → exec (.cxlMemRead h n) s = .next { pays a (fails key.2) with cxlRead := zeros n } ∧
        exec (.cxlMemWrite h l) s = .next (pays a (fails key.2))) ∧
      ∀ k, key.1 = some k →
        let r := sealRead key.2 k 2 a n
        let w := sealWrite key.2 k 2 a l
        exec (.cxlMemRead h n) s = .next { pays a (if r.1 = 0 then r.2.2 else fails r.2.2) with cxlRead := r.2.1 } ∧
        exec (.cxlMemWrite h l) s = .next (pays a (if w.1 = 0 then w.2 else fails w.2))) ∧
  ∀ (s : State) (h : Nat) (l : List Byte), 64 < h % 64 + l.length →
    let k := 64 - h % 64
    ∃ s1, exec (.cxlMemWrite h (l.take k)) s = .next s1 ∧ exec (.cxlMemWrite h l) s = exec (.cxlMemWrite (h + k) (l.drop k)) s1

/-- RUN, KEYLOAD, KEYCLEAR, ATTEST, BADKIND_REQUEST, DOE_REQUEST and LINK_TRAINING (R272, R330, R331, R333): a request of
a kind that is not its own is left to its own event; each ends with BUSY 0 and its RESULT. RUN posts the PF's record as a
ticket, waits while none can be posted, and is refused to a VF; KEYLOAD loads a slot of the function's range with the key
that was wrapped for this nonce, and changes the nonce; KEYCLEAR makes a slot invalid; ATTEST writes the report at byte 64
of the block; another kind is BADKIND. -/
def Obligations.HostAndMailbox : Prop :=
  HdmDecoders ∧ CxlAccess ∧
  (∀ (s : State) (fn : Nat), fn < 64 → s.boot.state = 2 → (s.mailbox fn).busy = true →
    let block := Memory.read s.host (s.mailbox fn).addr.toNat 4096
    let kind := num block 0 1
    let ends (s1 : State) (r : Nat) : Out := .next (s1.putMailbox fn { s1.mailbox fn with busy := false, result := r })
    (kind ≠ 1 → exec (.run fn) s = .next s) ∧ (kind ≠ 2 → exec (.keyload fn) s = .next s) ∧
    (kind ≠ 3 → exec (.keyclear fn) s = .next s) ∧ (kind ≠ 4 → exec (.attest fn) s = .next s) ∧
    (1 ≤ kind → kind ≤ 4 → exec (.badkindRequest fn) s = .next s) ∧
    (kind = 0 ∨ 4 < kind → exec (.badkindRequest fn) s = ends s 2) ∧
    (kind = 1 →
      (fn ≠ 0 → exec (.run fn) s = ends s 1) ∧
      (fn = 0 → (postTicket s (num block 8 8) 0 = none → exec (.run fn) s = .next s) ∧
        ∀ s1, postTicket s (num block 8 8) 0 = some s1 → exec (.run fn) s = ends s1 0)) ∧
    (kind = 2 →
      let s1 := s.bump.putMailbox fn { s.mailbox fn with nonce := s.fresh + 1 }
      let open_ := oaepDecrypt Config.kekKey.1 Config.kekKey.2 ((block.drop 64).take 512)
      (open_ = none → exec (.keyload fn) s = ends s1 1) ∧
      ∀ p, open_ = some p →
        let slot := num p 32 2
        let fits := p.length = 64 ∧ num p 35 13 = 0 ∧ slot ≠ 0 ∧ keyInRange s fn slot = true ∧ num p 34 1 = fn ∧
          num p 48 16 = ofBytes ((Config.nonce (s.mailbox fn).nonce).take 16)
        (¬ fits → exec (.keyload fn) s = ends s1 1) ∧
        (fits → ∃ s2 : State, exec (.keyload fn) s = ends s2 0 ∧ keyValue s2 slot = BitVec.ofNat 256 (num p 0 32) ∧
          keyOk s2 slot = true ∧ (∀ k, k ≠ slot → keyValue s2 k = keyValue s k ∧ keyOk s2 k = keyOk s k) ∧
          s2 = { s1 with keyVal := s2.keyVal, keyValid := s2.keyValid })) ∧
    (kind = 3 →
      let slot := num block 8 2
      (slot = 0 ∨ keyInRange s fn slot = false → exec (.keyclear fn) s = ends s 1) ∧
      (slot ≠ 0 → keyInRange s fn slot = true → ∃ s1 : State, exec (.keyclear fn) s = ends s1 0 ∧
        keyOk s1 slot = false ∧ (∀ k, k ≠ slot → keyOk s1 k = keyOk s k) ∧ s1 = { s with keyValid := s1.keyValid })) ∧
    (kind = 4 →
      let report := attestReport s fn ((block.drop 16).take 32)
      let at_ := (s.mailbox fn).addr.toNat + 64
      ∃ s1 : State, exec (.attest fn) s = ends s1 0 ∧ s1 = { s with host := s1.host } ∧
        (∀ i (h : i < report.length), fget unwritten s1.host (at_ + i) = report[i]) ∧
        ∀ a, a < at_ ∨ at_ + report.length ≤ a → fget unwritten s1.host a = fget unwritten s.host a)) ∧
  (∀ (s : State) (fn : Nat), s.boot.state ≠ 2 ∨ (s.mailbox fn).busy = false →
    exec (.run fn) s = .next s ∧ exec (.keyload fn) s = .next s ∧ exec (.keyclear fn) s = .next s ∧
    exec (.attest fn) s = .next s ∧ exec (.badkindRequest fn) s = .next s) ∧
  (∀ (s : State) (nonce : List Byte), exec (.doeRequest nonce) s =
    .next { s with doe := attestReport s 0 nonce ++ Config.certChain }) ∧
  ∀ (s : State) (w r : Nat),
    (w ∈ [16, 8, 4, 2, 1] → r ∈ [128, 64, 32, 16, 8] → exec (.linkTraining w r) s = .next { s with link := (w, r) }) ∧
    (w ∉ [16, 8, 4, 2, 1] ∨ r ∉ [128, 64, 32, 16, 8] → exec (.linkTraining w r) s = .next s)

/-! ## The clock and the ingress port (R281 to R287) -/

/-- PTP_MESSAGE_RX (R281, R282): a message of the port's domain and transport. An announcement is what the port next
knows of its leader; a peer's delay request is answered where the mechanism is peer delay. The chosen leader's time (the
choice follows IEEE 1588: log entry 55) records the offset and clears HOLDOVER. Before the first lock the clock steps forward
to a leader that is not behind it and is locked; to one that is behind it, it holds its value, and BEHIND is set. After the
lock it is only slewed, by at most 500 ppm, and at that limit beyond 1 ms, which sets FAULT: the clock itself does not
jump. -/
def Sys2Proof.Claims.PtpMessages : Prop :=
  ∀ (s : State) (m : PtpMsg),
    let cfg := s.dreg aPtpCfg
    let good := cfg.getLsbD 11 = true ∧ dfld cfg 0 8 = m.domain.toNat ∧ dfld cfg 8 2 = m.transport.toNat ∧ dfld cfg 8 2 ≠ 3
    let now := ptpNow s
    let chosen := ∃ x, bestLeader s = some x ∧ x.source = m.source
    (∀ x, bestLeader s = some x → x ∈ s.ptp.leaders ∧ x.valid s.ns = true) ∧
    (bestLeader s = none ↔ ∀ x ∈ s.ptp.leaders, x.valid s.ns = false) ∧
    (¬ good → exec (.ptpMessageRx m) s = .next s) ∧
    (∀ a, good → m.body = .announce a → exec (.ptpMessageRx m) s = .next { s with ptp := { s.ptp with
      leaders := (s.ptp.leaders.filter fun y => y.source != m.source) ++ [{
        source := m.source, data := a, at_ := s.ns
        before := (s.ptp.leaders.find? fun x => x.source == m.source).map fun y => y.at_ }] } }) ∧
    (good → m.body = .pdelayReq →
      (cfg.getLsbD 10 = true →
        exec (.ptpMessageRx m) s = .next { s with ptpTx := s.ptpTx ++ [.pdelayResp, .pdelayRespFollowUp] }) ∧
      (cfg.getLsbD 10 = false → exec (.ptpMessageRx m) s = .next s)) ∧
    (∀ time, good → m.body = .time time → ¬ chosen → exec (.ptpMessageRx m) s = .next s) ∧
    ∀ time : Nat, good → m.body = .time time → chosen →
      let off : Int := (now : Int) - time
      ∃ s', exec (.ptpMessageRx m) s = .next s' ∧
      s' = { s with dev := s'.dev, ptp := s'.ptp, fresh := s'.fresh } ∧
      (∀ a, a ≠ aPtpOffset → a ≠ aPtpState → s'.dreg a = s.dreg a) ∧
      s'.dreg aPtpOffset = BitVec.ofInt 64 off ∧ (s'.dreg aPtpState).getLsbD 2 = false ∧
      ((s.dreg aPtpState).getLsbD 0 = true → ptpNow s' = now ∧ s'.ptp.ppb.natAbs ≤ 500000 ∧
        (off = 0 → s'.ptp.ppb = 0) ∧ (0 < off → s'.ptp.ppb ≤ 0) ∧ (off < 0 → 0 ≤ s'.ptp.ppb) ∧
        (1000000 < off.natAbs → s'.ptp.ppb.natAbs = 500000 ∧ (s'.dreg aPtpState).getLsbD 1 = true) ∧
        (s'.dreg aPtpState).getLsbD 0 = true) ∧
      ((s.dreg aPtpState).getLsbD 0 = false → s.ptp.held = true → ptpNow s' = now ∧ s'.ptp.held = true ∧
        (s'.dreg aPtpState).getLsbD 0 = false ∧ s'.ptp.leader = time ∧ s'.ptp.leaderAt = s.ns) ∧
      ((s.dreg aPtpState).getLsbD 0 = false → s.ptp.held = false →
        (now ≤ time → ptpNow s' = time ∧ s'.ptp.held = false ∧ (s'.dreg aPtpState).getLsbD 0 = true) ∧
        (time < now → ptpNow s' = now ∧ s'.ptp.held = true ∧ (s'.dreg aPtpState).getLsbD 0 = false ∧
          (s'.dreg aPtpState).getLsbD 3 = true ∧ s'.ptp.leader = time ∧ s'.ptp.leaderAt = s.ns))

/-- The delivery of a frame (R286, R287, R289, R310): in HOLD a slot whose STATUS is VALID drops it, and a ring page without RD,
and any access that fails, drops it with ERR and writes nothing further; otherwise STATUS is written 0, then the whole slot,
then the descriptor, each through the partition's translation and the seal units, one tile at a time; the frame's number and
ING_STAT go on, DROPS starts again, and the partition's account is charged. -/
def Sys2Proof.Claims.FrameDelivery : Prop :=
  (∀ (s : State) (n : Nat) (desc slot : List Byte),
    let out := deliverFrame s n desc slot
    let part := s.dfield (aIngFilt n) 32 6
    let seq := framesOf s n
    let i := seq % 2 ^ min 12 (s.dfield (aIngRctl n) 0 4)
    let base := s.dfield (aIngRing n) 0 57
    let d := base + 32 * i
    let data := base + 4096 * s.dfield (aIngRctl n) 16 8 + slotBytes s n * i
    let hold := (s.dreg (aIngRctl n)).getLsbD 8 = false
    let status := vread false (some part) none 2 s (d + 28) 4
    let r := pagesReadable part [d, data, data + slotBytes s n - 1] (if hold then status.2 else s)
    let w1 := vwrite (some part) none 2 r.2 (d + 28) (zeros 4)
    let w2 := vwrite (some part) none 12 w1.2 data slot
    let w3 := vwrite (some part) none 2 w2.2 d desc
    let unread := (hold ∧ ∃ e, status.1 = .error e) ∨ r.1 = false
    let full := hold ∧ ∃ l, status.1 = .ok l ∧ ofBytes l % 2 = 1
    (unread → out = failFrame r.2 n) ∧ (¬ unread → full → out = dropFrame r.2 n) ∧
    (¬ unread → ¬ full →
      (∀ e, w1.1 = .error e → out = failFrame w1.2 n) ∧
      (∀ e, w1.1 = .ok () → w2.1 = .error e → out = failFrame w2.2 n) ∧
      (∀ e, w1.1 = .ok () → w2.1 = .ok () → w3.1 = .error e → out = failFrame w3.2 n) ∧
      (w1.1 = .ok () → w2.1 = .ok () → w3.1 = .ok () → MemSide s w3.2 ∧ ∃ s1 : State,
        out = charge (recordFrame s1 n part desc slot) (some part) ∧
        s1 = { w3.2 with ingDrops := s1.ingDrops, ingSeq := s1.ingSeq, dev := s1.dev } ∧
        dropsOf s1 n = 0 ∧ framesOf s1 n = (seq + 1) % 2 ^ 64 ∧ s1.dfield (aIngStat n) 0 32 = (seq + 1) % 2 ^ 32 ∧
        (∀ k, k ≠ n → dropsOf s1 k = dropsOf s k ∧ framesOf s1 k = framesOf s k) ∧
        ∀ a, a ≠ aIngStat n → s1.dreg a = w3.2.dreg a))) ∧
  (∀ (s : State) (n : Nat), let s' := failFrame s n
    (s'.dreg (aIngStat n)).getLsbD 48 = true ∧ dropsOf s' n = dropsOf s n + 1 ∧
    s' = { s with dev := s'.dev, ingDrops := s'.ingDrops }) ∧
  (∀ (s : State) (n part : Nat) (desc slot : List Byte), (∀ q ∈ s.queues.map Prod.fst, ownsQueue s part q = false) →
    recordFrame s n part desc slot = s) ∧
  (∀ (s : State) (part a : Nat) (l : List Nat), pagesReadable part [] s = (true, s) ∧
    let t := xlate s (some part) none a false
    (∀ e, t.1 = .error e → pagesReadable part (a :: l) s = (false, t.2)) ∧
    ∀ x, t.1 = .ok x →
      (rightsFail t.2 (some part) x.pte false ≠ none → pagesReadable part (a :: l) s = (false, t.2)) ∧
      (rightsFail t.2 (some part) x.pte false = none → pagesReadable part (a :: l) s = pagesReadable part l t.2)) ∧
  ∀ (s : State) (part : Option Nat) (core : Option Nat) (fuel va : Nat) (l : List Byte), l ≠ [] →
    let r := vwrite part core (fuel + 1) s va l
    let t := xlate s part core va true
    (∀ e, t.1 = .error e → r = (.error e, t.2)) ∧
    ∀ x, t.1 = .ok x →
      let k := min l.length (min (2048 - va % 2048) (x.base + x.size - va))
      let pa := x.pte.addr + (va - x.base)
      let w := sealWrite t.2 x.pte.key 1 pa (l.take k)
      (∀ e, rightsFail t.2 part x.pte true = some e → r = (.error e, t.2)) ∧
      (rightsFail t.2 part x.pte true = none →
        (x.pte.typ ≠ 0 → r = (.error 8, t.2)) ∧
        (x.pte.typ = 0 → xbarAllows t.2 part pa = false → r = (.error 7, (part.map (addDeny t.2)).getD t.2)) ∧
        (x.pte.typ = 0 → xbarAllows t.2 part pa = true →
          (w.1 ≠ 0 → r = (.error (if w.1 = 1 then 10 else 9), w.2)) ∧
          (w.1 = 0 → r = vwrite part core fuel w.2 (va + k) (l.drop k))))

/-- What a filter takes and where a frame goes (R284 to R287): only a frame that the port accepts, that no PTP port takes,
is delivered, to the lowest-numbered enabled filter whose port and VLAN test match; the recorded frames of a replay drop
the wire's. A slot holds the payload, cut or filled with zeros to the slot's size; a descriptor holds R286's fields, as far as
each has bits for them. -/
def Sys2Proof.Claims.IngressDelivery : Prop :=
  (∀ (s : State) (f : Frame),
    let accepted := f.goodFcs = true ∧ f.oneTagAtMost = true ∧ f.addressed = true ∧ f.plainIp = true ∧ f.goodUdp = true ∧
      f.ptp = false
    let fits (n : Nat) : Prop := n < 256 ∧ (s.dreg (aIngFilt n)).getLsbD 31 = true ∧
      s.dfield (aIngFilt n) 0 16 = f.dstPort.toNat ∧
      match s.dfield (aIngFilt n) 28 2 with
      | 0 => f.tci = none
      | 1 => ∃ x, f.tci = some x ∧ x.toNat % 4096 = s.dfield (aIngFilt n) 16 12
      | 2 => True
      | _ => False
    (¬ accepted ∨ (∀ n, ¬ fits n) → exec (.ingressFrame f) s = .next s) ∧
    ∀ n, accepted → fits n → (∀ j < n, ¬ fits j) →
      (filterReplayed s n = true → exec (.ingressFrame f) s = .next (dropFrame s n)) ∧
      (filterReplayed s n = false →
        let seq := framesOf s n
        exec (.ingressFrame f) s = .next (deliverFrame s n
          (frameDescriptor (ptpNow s) f.payload.length n seq f.srcPort.toNat ((f.tci.map BitVec.toNat).getD 0)
            (decide (slotBytes s n < f.payload.length)) (dropsOf s n))
          (slotImage s n f.payload)))) ∧
  (∀ (s : State) (n : Nat) (l : List Byte), (slotImage s n l).length = slotBytes s n ∧
    ∀ i < slotBytes s n, (slotImage s n l)[i]? = some (if h : i < l.length then l[i] else 0)) ∧
  (∀ (s : State) (n : Nat),
    let s' := dropFrame s n
    dropsOf s' n = dropsOf s n + 1 ∧
    s'.dfield (aIngStat n) 32 16 = min (s.dfield (aIngStat n) 32 16 + 1) 65535 ∧
    (∀ k, k ≠ n → dropsOf s' k = dropsOf s k) ∧ (∀ a, a ≠ aIngStat n → s'.dreg a = s.dreg a)) ∧
  ∀ time length filter seq src tci drops : Nat, ∀ trunc : Bool,
    let l := frameDescriptor time length filter seq src tci trunc drops
    l.length = 32 ∧ num l 0 4 = time % 1000000000 ∧ num l 4 6 = time / 1000000000 % 2 ^ 48 ∧ num l 10 2 = length % 2 ^ 16 ∧
    num l 12 2 = filter % 2 ^ 16 ∧ num l 14 2 = 0 ∧ num l 16 8 = seq % 2 ^ 64 ∧ num l 24 2 = src % 2 ^ 16 ∧
    num l 26 2 = tci % 2 ^ 16 ∧ num l 28 4 = 1 + (if trunc then 2 else 0) + 256 * min drops 255

/-- PTM_DIALOGUE, PTP_MESSAGE_RX, PTP_REQUEST_TX, PTP_HOLDOVER, FIRST_LOCK_COMPLETE and INGRESS_FRAME (R281 to R287). HOLDOVER
comes with no valid leader, 3 announce intervals after EN has risen; which interval counts is the model's choice (log entry
55). -/
def Obligations.PtpAndIngress : Prop :=
  PtpMessages ∧ FrameDelivery ∧ IngressDelivery ∧
  ∀ s : State,
    exec .ptmDialogue s = .next (s.putDreg aPtmPtp (timeNs s)) ∧
    (∀ pdelay, exec (.ptpRequestTx pdelay) s = .next
      (if (s.dreg aPtpCfg).getLsbD 11 = true ∧ (s.dreg aPtpCfg).getLsbD 10 = pdelay
        then { s with ptpTx := s.ptpTx ++ [if pdelay then .pdelayReq else .delayReq] } else s)) ∧
    (let every := if s.ptp.leaders = [] then Config.announceNs else (s.ptp.leaders.map fun x => x.data.interval).foldl max 0
     exec .ptpHoldover s = .next (if (s.dreg aPtpCfg).getLsbD 11 = true ∧ bestLeader s = none ∧ s.ptp.enAt + 3 * every ≤ s.ns
      then s.putDfield aPtpState 2 1 1 else s)) ∧
    (s.ptp.held = false ∨ s.ptp.leader + (s.ns - s.ptp.leaderAt) < s.ptp.base → exec .firstLockComplete s = .next s) ∧
    (s.ptp.held = true → s.ptp.base ≤ s.ptp.leader + (s.ns - s.ptp.leaderAt) → ∃ s',
      exec .firstLockComplete s = .next s' ∧ ptpNow s' = ptpNow s ∧ s'.ptp.held = false ∧
      (s'.dreg aPtpState).getLsbD 0 = true ∧ (s'.dreg aPtpState).getLsbD 3 = false ∧
      (∀ a, a ≠ aPtpState → s'.dreg a = s.dreg a) ∧ s' = { s with dev := s'.dev, ptp := s'.ptp })

/-! ## Partitions (R298 to R304, R307) -/

/-- CONNECT's checks (R299), in their order: 4 STATE, 2 RANGE, 1 OVERLAP, 3 MINIMUM; 0 where all pass. The first that
fails decides. -/
def Sys2Proof.Claims.ConnectChecks : Prop :=
  ∀ (s : State) (n : Nat),
    let first := s.dfield (aVfCores n) 0 7
    let count := s.dfield (aVfCores n) 8 8
    let g := s.dfield (aVfChan n) 0 6
    let gs := s.dfield (aVfChan n) 8 7
    let q := s.dfield (aVfQueues n) 0 12
    let qs := s.dfield (aVfQueues n) 16 13
    let k := s.dfield (aVfKeys n) 0 11
    let ks := s.dfield (aVfKeys n) 16 12
    let range := first + count ≤ 128 ∧ g + gs ≤ 64 ∧ q + qs ≤ 4096 ∧ (ks = 0 ∨ 1 ≤ k ∧ k + ks ≤ 2048)
    let pair (m : Nat) : Prop := (s.dreg (aVfSlice n)).getLsbD 46 = true ∧ (s.dreg (aVfSlice m)).getLsbD 46 = true ∧
      s.dfield (aVfSlice n) 40 6 = m ∧ s.dfield (aVfSlice m) 40 6 = n
    let free := ∀ m < 64, m ≠ n → partState s m ≠ 0 → partState s m ≠ 5 →
      (pair m ∨ ∀ c, first ≤ c → c < first + count → ownsCluster s m c = false) ∧
      (∀ x, g ≤ x → x < g + gs → ownsGroup s m x = false) ∧
      (∀ x, q ≤ x → x < q + qs → ownsQueue s m x = false) ∧ (∀ x, k ≤ x → x < k + ks → keyInRange s m x = false)
    (partState s n ≠ 0 → connectCheck s n = 4) ∧
    (partState s n = 0 → ¬ range → connectCheck s n = 2) ∧
    (partState s n = 0 → range → ¬ free → connectCheck s n = 1) ∧
    (partState s n = 0 → range → free →
      let short := 4 * ((wantClusters s n).filter fun c => !clusterRetired s c).length < s.dfield (aVfCores n) 16 10 ∨
        ((wantGroups s n).filter fun x => !groupRetired s x).length < s.dfield (aVfChan n) 16 7 ∨
        qs < s.dfield (aVfQueues n) 32 13
      (short → connectCheck s n = 3) ∧ (¬ short → connectCheck s n = 0))

/-- CONNECT, DISCONNECT, REGRANT, PART_CONN_DONE and RETIRE_WRITE (R298 to R304): a write while an operation runs is
ignored; a check that fails is RESULT, and nothing else changes; CONNECT starts with BUSY and CHANGING, a fresh tree key
and no tokens, and at its end the partition is ACTIVE, and RESIDENT unless its peer holds the clusters; DISCONNECT leaves it
OFF with no mask and no valid key of its range; a retired unit leaves every mask, at once or when the operation ends. -/
def Obligations.PartitionOps : Prop :=
  ConnectChecks ∧
  (∀ (s : State) (n : Nat), n < 64 → s.partOp ≠ none →
    exec (.connect n) s = .next s ∧ exec (.disconnect n) s = .next s ∧ exec .regrant s = .next s) ∧
  (∀ (s : State) (n : Nat), n < 64 → s.partOp = none →
    (let s1 := s.putDreg aPartConn (merge 0x33F (s.dreg aPartConn) (BitVec.ofNat 64 (n + 0x100 + 0x400)))
     connectCheck s1 n = connectCheck s n ∧
     (connectCheck s n ≠ 0 → ∃ s', exec (.connect n) s = .next s' ∧ s' = { s with dev := s'.dev } ∧
       s'.dfield aPartConn 12 4 = connectCheck s n ∧ s'.dfield aPartConn 11 1 = 0 ∧ s'.dfield aPartConn 0 6 = n ∧
       s'.dfield aPartConn 8 2 = 1 ∧ ∀ a, a ≠ aPartConn → s'.dreg a = s.dreg a) ∧
     (connectCheck s n = 0 → ∃ s', exec (.connect n) s = .next s' ∧ partState s' n = 5 ∧ s'.dfield aPartConn 11 1 = 1 ∧
       (s'.part n).treeKey ≠ none ∧ (s'.part n).bucket = 0 ∧ ∃ x, s'.partOp = some x ∧ x.op = 1 ∧ x.part = n ∧ x.retire = [])) ∧
    (let s1 := s.putDreg aPartConn (merge 0x33F (s.dreg aPartConn) (BitVec.ofNat 64 (n + 0x200 + 0x400)))
     (partState s n = 0 ∨ 3 < partState s n → exec (.disconnect n) s = .next ((s1.putDfield aPartConn 11 1 0).putDfield aPartConn 12 4 4)) ∧
     (1 ≤ partState s n → partState s n ≤ 3 → ∃ s', exec (.disconnect n) s = .next s' ∧ partState s' n = 0 ∧
       s'.dreg (aClLo n) = 0 ∧ s'.dreg (aClHi n) = 0 ∧ s'.dreg (aCgMask n) = 0 ∧ resident s' n = false ∧
       ∀ k, s.dfield (aVfKeys n) 0 11 ≤ k → k < s.dfield (aVfKeys n) 0 11 + s.dfield (aVfKeys n) 16 12 → keyOk s' k = false))) ∧
  (∀ s : State, (s.partOp = none → exec .partConnDone s = .next (settle s)) ∧
    ∀ x, s.partOp = some x → x.retire = [] →
      let s0 : State := { (s.putDfield aPartConn 11 1 0).putDfield aPartConn 12 4 0 with partOp := none }
      (x.op ≠ 1 → exec .partConnDone s = .next (settle s0)) ∧
      (x.op = 1 → exec .partConnDone s = .next (settle (connectEnd s0 x.part))) ∧
      (x.part < 64 → partState (connectEnd s0 x.part) x.part = 1)) ∧
  (∀ (s : State) (v : DWord),
    (∀ k, 3 ≤ k → exec (.retireWrite k v) s = .next s) ∧
    (∀ x, s.partOp = some x → ∀ k < 3,
      exec (.retireWrite k v) s = .next (settle { s with partOp := some { x with retire := x.retire ++ [(k, v)] } })) ∧
    (s.partOp = none → ∀ k < 3, exec (.retireWrite k v) s = .next (settle (grantAll (retireUnits s k v)))) ∧
    ∀ k < 3, (retireUnits s k v).dreg (aRetire k) = s.dreg (aRetire k) ||| v ∧
      ∀ i < 64, v.getLsbD i = true → (s.dreg (aRetire k)).getLsbD i = false → ∀ n < 64,
        (k = 2 → ownsGroup (retireUnits s k v) n i = false) ∧ (k = 0 → ownsCluster (retireUnits s k v) n i = false) ∧
        (k = 1 → ownsCluster (retireUnits s k v) n (64 + i) = false) ∧
        ((∀ e ∈ entries s.wgs, e.2.agent = true ∨ e.2.saved = true) → k < 2 →
          ((retireUnits s k v).cluster (64 * k + i)).lost = decide (clState s (64 * k + i) ≠ 0))) ∧
  ∀ s : State, s.partOp = none → exec .regrant s = .next
    (grantAll { (s.putDreg aPartConn (merge 0x33F (s.dreg aPartConn) 0x700)).putDfield aPartConn 11 1 1 with
      partOp := some { op := 3, part := 0, retire := [] } })

/-! ## Power, retention, reset and boot (R307, R321 to R327, R329, R330, R332) -/

/-- A write with GO of an OP and a DEST to CLPWR_REQ_c (R321 to R323, R327): it is ignored while DONE is 0; a pair of state
and OP that is no transition, or one of a cluster that was retired while it was not ON, sets ERR and changes no state; any other starts,
with DONE 0 and TRANSITION, and QUIESCE saves the workgroups of the cluster. -/
def Sys2Proof.Claims.PowerRequests : Prop :=
  ∀ (s : State) (c dest op : Nat) (out : Out), c < 128 → dest < 512 →
    (op, out) ∈ [(0, exec (.clpwrOn c dest) s), (1, exec (.quiesce c dest) s), (2, exec (.clkgate c dest) s),
      (3, exec (.pwroff c dest) s), (4, exec (.powerup c dest) s)] →
    let fin (x : State) : State := if op = 1 then settle x else x
    let goes (to_ : Nat) : Prop := (clState s c, op, to_) ∈ [(0, 1, 1), (1, 2, 2), (2, 3, 3), (3, 4, 1), (1, 0, 0), (2, 0, 0)] ∧
      (s.cluster c).lost = false
    let frame (x : State) : Prop := (∀ a, a ≠ aClReq c → a ≠ aClAck c → a ≠ aClState c → x.dreg a = s.dreg a) ∧
      x.dfield (aClReq c) 4 9 = dest ∧ x.dfield (aClReq c) 1 3 = op ∧ x.dfield (aClAck c) 1 3 = op
    (s.dfield (aClAck c) 0 1 = 0 → out = .next (fin s)) ∧
    (s.dfield (aClAck c) 0 1 = 1 →
      ((∀ t, ¬ goes t) → ∃ s1, out = .next (fin s1) ∧ frame s1 ∧ s1 = { s with dev := s1.dev } ∧
        s1.dfield (aClAck c) 0 1 = 1 ∧ s1.dfield (aClAck c) 4 1 = 1 ∧ s1.dreg (aClState c) = s.dreg (aClState c)) ∧
      ∀ t, goes t → ∃ s1, out = .next (fin (if op = 1 then quiesceSaves s1 c else s1)) ∧ frame s1 ∧
        s1.dfield (aClAck c) 0 1 = 0 ∧ s1.dfield (aClAck c) 4 1 = 0 ∧ clState s1 c = 4 ∧ pointAt s1 c = pointAt s c ∧
        s1.cluster c = { s.cluster c with op := some (op, t) } ∧ (∀ k, k ≠ c → s1.cluster k = s.cluster k) ∧
        s1 = { s with dev := s1.dev, clusters := s1.clusters })

/-- CLPWR_DONE (R313, R322, R323, R325 to R327): QUIESCE ends when no user workgroup stands on the cluster and its copies
have ended or been saved, CLKGATE when every agent is parked in WFI, and no cluster that was retired while it was not ON
becomes ON. The end sets DONE and the state; a cluster that becomes
ON has no pending wake and runs at its wanted point; a gated or powered-off one has point 0; one powered up has zeroed
stores and point 8, or the die's limit. -/
def Sys2Proof.Claims.PowerEnds : Prop :=
  (∀ (s : State) (c : Nat), (s.cluster c).op = none → exec (.clpwrDone c) s = .next s) ∧
  ∀ (s : State) (c op to_ : Nat), (s.cluster c).op = some (op, to_) →
    (opMayEnd s c op = false ∨ (to_ = 0 ∧ (s.cluster c).lost = true) → exec (.clpwrDone c) s = .next s) ∧
    (opMayEnd s c 2 = true ↔ ∀ e ∈ agentsOf s c, e.2.inWfi = true) ∧
    (opMayEnd s c 1 = true → ∀ e ∈ entries s.wgs, e.2.agent = true ∨ e.2.saved = true ∨ e.2.core / 4 ≠ c) ∧
    (opMayEnd s c op = true → ¬ (to_ = 0 ∧ (s.cluster c).lost = true) → ∃ s1,
      exec (.clpwrDone c) s = .next (updateGates s1) ∧
      s1.dfield (aClAck c) 0 1 = 1 ∧ (s1.cluster c).op = none ∧ cyclesOf s1 c = cyclesOf s c ∧
      (op = 0 → clState s1 c = 0 ∧ s1.dfield (aClState c) 3 1 = 0 ∧ s1.dfield (aClState c) 16 16 = 0 ∧
        pointAt s1 c = wantedPoint s c ∧
        (pointAt s c = wantedPoint s c → (s1.cluster c).clrate = (s.cluster c).clrate)) ∧
      (op ≠ 0 → clState s1 c = to_ % 8) ∧ (op = 1 → pointAt s1 c = pointAt s c) ∧
      (op = 2 ∨ op = 3 → pointAt s1 c = 0) ∧
      (op = 4 → pointAt s1 c = min 8 (thermalOf s (c / 16)) ∧
        (∀ k ∈ clusterCores c, ∀ o < 262144, fget unwritten s1.scratch (262144 * k + o) = 0 ∧
          fget falseAt s1.scratchBad ((262144 * k + o) / 64) = false ∧ fget noTlbs s1.tlb1 k = []) ∧
        fget noTlbs s1.tlb2 c = [] ∧
        ((entries s.teams).Pairwise (fun x y => x.1 ≠ y.1) → ∀ e ∈ agentsOf s c, s1.team e.1 = some e.2.zeroed) ∧
        ((entries s.wgs).Pairwise (fun x y => x.1 ≠ y.1) → (entries s.streams).Pairwise (fun x y => x.1 ≠ y.1) →
          ∀ e ∈ entries s.wgs, e.2.agent = true → e.2.core / 4 = c → ∃ w, s1.wg e.1 = some w ∧ w.bars = [] ∧ w.shared = [] ∧
            w.window = none ∧ w.stream = none)) ∧
      (op ≠ 4 → s1.scratch = s.scratch ∧ s1.teams = s.teams))

/-- The retention of a cluster (R321, R324): GO is ignored while DONE is 0, and otherwise starts; the end sets DONE, with
ERR and nothing else changed where the image leaves the firmware reserve or the cluster is not QUIESCED; a save puts the
image's CRC-32C in SUM; a restore whose CRC is not SUM leaves the cluster zero with ERR, and one that is restores the
allowance and the operating point, and the cluster's clock cycles go on (R119); SUM stays. -/
def Sys2Proof.Claims.Retention : Prop :=
  (∀ (s : State) (c addr : Nat), c < 128 → addr % 2048 = 0 → addr < 2 ^ 52 → ∀ e ∈ [(false, exec (.retSave c addr) s),
      (true, exec (.retRestore c addr) s)],
    ((s.dreg (aRetDone c)).getLsbD 0 = false → e.2 = .next s) ∧
    ((s.dreg (aRetDone c)).getLsbD 0 = true → ∃ s1, e.2 = .next s1 ∧ s1.dreg (aRetDone c) = BitVec.ofNat 64 (2 * e.1.toNat) ∧
      s1.dfield (aRetSave c) 11 41 * 2048 = addr ∧ s1.cluster c = { s.cluster c with ret := some (e.1, addr) } ∧
      (∀ k, k ≠ c → s1.cluster k = s.cluster k) ∧ (∀ a, a ≠ aRetSave c → a ≠ aRetDone c → s1.dreg a = s.dreg a) ∧
      s1 = { s with dev := s1.dev, clusters := s1.clusters })) ∧
  (∀ (s : State) (c : Nat), (s.cluster c).ret = none → exec (.retDone c) s = .next s) ∧
  ∀ (s : State) (c addr : Nat) (restore : Bool), (s.cluster c).ret = some (restore, addr) →
    ∃ s', exec (.retDone c) s = .next s' ∧ s'.dfield (aRetDone c) 0 1 = 1 ∧ (s'.cluster c).ret = none ∧
      (0x20000000 < addr + 131072 ∨ clState s c ≠ 1 → s'.dfield (aRetDone c) 2 1 = 1 ∧
        (∀ a, a ≠ aRetDone c → s'.dreg a = s.dreg a) ∧ s' = { s with dev := s'.dev, clusters := s'.clusters }) ∧
      (addr + 131072 ≤ 0x20000000 → clState s c = 1 → restore = false → ∃ image : List Byte, image.length = 131072 ∧
        s'.dreg (aRetSum c) = (crc32c image).setWidth 64 ∧ s'.dfield (aRetDone c) 2 1 = 0 ∧
        ∃ x ∈ s'.retImages, x.cluster = c ∧ x.addr = addr ∧ x.sum = crc32c image ∧ x.alw = ((touchCluster s c).cluster c).alw ∧ x.point = pointAt s c) ∧
      (addr + 131072 ≤ 0x20000000 → clState s c = 1 → restore = true →
        let r := sealReads 0 0 66 s addr 131072
        s'.dreg (aRetSum c) = s.dreg (aRetSum c) ∧
        ((crc32c r.2.1).setWidth 64 ≠ s.dreg (aRetSum c) → s'.dfield (aRetDone c) 2 1 = 1 ∧
          ∀ k ∈ clusterCores c, ∀ o < 262144, fget unwritten s'.scratch (262144 * k + o) = 0) ∧
        ∀ x, r.1 = 0 → s.retImages.find? (fun y => y.cluster == c) = some x → crc32c r.2.1 = x.sum →
          x.sum.setWidth 64 = s.dreg (aRetSum c) → s'.dfield (aRetDone c) 2 1 = 0 ∧ (s'.cluster c).alw = x.alw ∧
            (s'.cluster c).clrate = x.clrate ∧ pointAt s' c = x.point % 16 ∧ cyclesOf s' c = cyclesOf s c)

/-- QUIESCE, CLKGATE, PWROFF, POWERUP, CLPWR_ON, CLPWR_DONE, CL_WAKE, RET_SAVE, RET_RESTORE, RET_DONE and AGENT_DB (R321 to
R327): a wake of a cluster that is not ON is latched and counted, sets CLWAKE in DEST's wake bits once and COALESCED after;
AGENT_DB sets DOORBELL in every core's wake bits. -/
def Obligations.PowerEvents : Prop :=
  PowerRequests ∧ PowerEnds ∧ Retention ∧
  (∀ (s : State) (c : Nat),
    let x := s.dreg (aClState c)
    let count := min (s.dfield (aClState c) 16 16 + 1) 65535
    (clState s c = 0 → exec (.clWake c) s = .next s) ∧
    (clState s c ≠ 0 → ∃ s', exec (.clWake c) s = .next s' ∧ s'.dfield (aClState c) 16 16 = count ∧
      s'.dfield (aClState c) 3 1 = 1 ∧ clState s' c = clState s c ∧ pointAt s' c = pointAt s c ∧
      (∀ a, a ≠ aClState c → s'.dreg a = s.dreg a) ∧
      (x.getLsbD 3 = true → s'.dfield (aClState c) 4 1 = 1 ∧ s' = { s with dev := s'.dev }) ∧
      (x.getLsbD 3 = false → s'.dfield (aClState c) 4 1 = s.dfield (aClState c) 4 1 ∧
        fget zeroNat s'.wake (s.dfield (aClReq c) 4 9) = fget zeroNat s.wake (s.dfield (aClReq c) 4 9) ||| 2 ∧
        (∀ k, k ≠ s.dfield (aClReq c) 4 9 → fget zeroNat s'.wake k = fget zeroNat s.wake k) ∧
        s' = { s with dev := s'.dev, wake := s'.wake }))) ∧
  ∀ s : State, ∃ s', exec .agentDb s = .next s' ∧ (∀ k < 512, fget zeroNat s'.wake k = fget zeroNat s.wake k ||| 1) ∧
    (∀ k, 512 ≤ k → fget zeroNat s'.wake k = fget zeroNat s.wake k) ∧
    (ofBytes (Memory.read s.scratch (ticketAt 0) 8) ≤ ofBytes (Memory.read s.scratch (ticketAt 8) 8) →
      s' = { s with wake := s'.wake })

/-- DEVICE_RESET, FLR and BOOT_GO (R307, R329, R332): a device reset leaves the state of reset, and the tiles of HBM and
host memory (the model's choice: log entry 25). A partition reset leaves ACTIVE with LASTCAUSE 1, every queue of the partition
with EN 0, and its keys and quota registers as they were; a partition that is OFF or changing is not reset. Boot, from its
waiting or failed state, draws key 0, copies the image into the firmware reserve and verifies it; it then fails or, where the
image passes, starts an agent on every core at the image's entry. -/
def Obligations.ResetAndBoot : Prop :=
  (∀ s : State, exec .deviceReset s = .next { State.reset with
    agenda := s.agenda, tick := s.tick, fresh := s.fresh, host := s.host, hbm := s.hbm, caddies := s.caddies }) ∧
  (∀ (s : State) (n : Nat), n < 64 →
    (partState s n = 0 ∨ 3 < partState s n → exec (.flr n) s = .next (settle s)) ∧
    (1 ≤ partState s n → partState s n ≤ 3 → ∃ s', exec (.flr n) s = .next (settle s') ∧ partState s' n = 1 ∧
      s'.dfield (aPartState n) 8 4 = 1 ∧ resident s' n = resident s n ∧ s'.keyVal = s.keyVal ∧ s'.keyValid = s.keyValid ∧
      (∀ o ∈ [0x00, 0x08, 0x10, 0x18], s'.dreg (aBlock n o) = s.dreg (aBlock n o)) ∧
      ∀ q, ownsQueue s n q = true → queueEn s' q = false)) ∧
  (∀ s : State,
    let l := Memory.read s.host s.boot.addr.toNat s.boot.len.toNat
    (s.boot.state ≠ 0 → s.boot.state ≠ 3 → exec .bootGo s = .next s) ∧
    (s.boot.state = 0 ∨ s.boot.state = 3 → ∃ s', exec .bootGo s = .next s' ∧ keyOk s' 0 = true ∧
      (∀ k, k ≠ 0 → keyOk s' k = keyOk s k ∧ keyValue s' k = keyValue s k) ∧ s'.teams = s.teams ∧
      s'.boot.state = 1 ∧ s'.boot.code = 0 ∧ s'.boot.size = l.length ∧
      (l = [] ∨ 2 ^ 29 < l.length → s'.boot.copyAt = none) ∧
      ∀ a, s'.boot.copyAt = some a → a % 2048 = 0 ∧ a + l.length ≤ 2 ^ 29)) ∧
  ∀ s : State,
    let s' := bootVerify s
    (s.boot.state ≠ 1 → s' = s) ∧
    (s.boot.state = 1 → s.boot.copyAt = none → s' = { s with boot := { s.boot with state := 3, code := 5 } }) ∧
    ∀ a, s.boot.state = 1 → s.boot.copyAt = some a →
      let r := sealReads 0 0 (s.boot.size / 2048 + 2) s a s.boot.size
      let l := r.2.1
      (r.1 ≠ 0 ∨ bootCheck l ≠ 0 → s'.boot.state = 3 ∧ s'.teams = s.teams ∧
        s'.boot.code = if r.1 = 0 then bootCheck l else 5) ∧
      (r.1 = 0 → bootCheck l = 0 → s'.boot.state = 2 ∧ s'.boot.code = 0 ∧ s'.fwVersion = num l 4 4 ∧
        s'.fwRoot = num l 24 8 ∧ s'.agentEntry = BitVec.ofNat 64 (num l 16 8) ∧ s'.fwDigest = sha512 (l.take (num l 8 8)) ∧
        ∀ core < 512, ∃ u t w, s'.team u = some t ∧ s'.wg t.wg = some w ∧ w.core = core ∧ w.agent = true ∧ t.agent = true ∧
          t.priv = 2 ∧ t.pc = s'.agentEntry ∧ t.status = .running ∧ t.lanes = 4 ∧ t.nregs = 32 ∧ t.clause = none)

/-! ## One step (R61, R102, R233, R329, R332, R335), and the whole machine -/

/-- A turn runs the decoded instruction: a team's turn runs the instruction at its slot, a stream's likewise, and a device
step runs as itself. A team's word that does not decode traps; a turn in which nothing may issue leaves the state as it is,
and so does every turn but a device reset once the device has stopped for heat; a word is withheld for want of allowance.
What stands beside the word: the turn's time passes, the team's clause has started and its park is over, its registers are
stamped and refilled, and its cluster is debited; no register, flag or memory of it changes by this. A refill that fails stops
the team instead (R169). Other turns perform a held store or a floating load, or some parts of a stream's operation, each
where it may come, close an open tile, end the verification of the
boot image, answer a host's read, or write the host's own memory. -/
def Sys2Proof.Claims.StepRunsDecodedInstruction : Prop :=
  ∀ (s : State) (d : Nat) (rest : List Turn),
    let at_ : State := { s with agenda := rest, ns := s.ns + d }
    (∀ (i : Instr), s.agenda = { dt := d, act := .event i } :: rest →
      (encode i ≠ [] → step s = .next at_) ∧
      (encode i = [] → s.heatStop = false ∨ i = .deviceReset → step s = exec i at_) ∧
      (s.heatStop = true → i ≠ .deviceReset → step s = .next at_)) ∧
    (∀ a : Act, (∀ i, a ≠ .event i) → s.agenda = { dt := d, act := a } :: rest → s.heatStop = true → step s = .next at_) ∧
    (s.heatStop = false →
      (∀ u k, s.agenda = { dt := d, act := .perform u k } :: rest → step s = .next (performLoad at_ u k)) ∧
      (∀ t, s.agenda = { dt := d, act := .evict t } :: rest → step s = .next (closeTile at_ t)) ∧
      (s.agenda = { dt := d, act := .bootDone } :: rest → step s = .next (bootVerify at_)) ∧
      (∀ a l, s.agenda = { dt := d, act := .hostWrite a l } :: rest →
        step s = .next { at_ with host := Memory.write s.host a l }) ∧
      ∀ fn < 64, ∀ off n, s.agenda = { dt := d, act := .hostRead fn off n } :: rest →
        step s = .next { at_ with barRead := barRead at_ fn off n }) ∧
    (∀ u k, s.heatStop = false → s.agenda = { dt := d, act := .drain u k } :: rest →
      step s = .next (drainOne at_ u k) ∧ StoreSide at_ (drainOne at_ u k)) ∧
    (∀ k i x o m, s.heatStop = false → s.agenda = { dt := d, act := .streamPart k i } :: rest →
      (s.stream k = some x → x.admitted = false ∨ streamRuns at_ x = false → step s = .next at_) ∧
      (s.stream k = some x → x.admitted = true → streamRuns at_ x = true → x.inflight[i]? = some o → o.mem = some m →
        ∃ l, l.Sublist m.left ∧
          let r := performParts k i l at_.bump
          (∀ g, r.1 = some g → step s = .next (settle (failCheck r.2 k g))) ∧ (r.1 = none → step s = .next r.2))) ∧
    (∀ k i p l x o, at_.stream k = some x → x.inflight[i]? = some o →
      let may := ∃ m, o.mem = some m ∧ x.mayPart i o m p = true
      let r := performPart at_ k i p
      (¬ may → performParts k i (p :: l) at_ = performParts k i l at_) ∧
      (may → (∀ g, r.1 = some g → performParts k i (p :: l) at_ = r) ∧
        (r.1 = none → performParts k i (p :: l) at_ = performParts k i l r.2))) ∧
    ∀ (u : Nat) (t : Team) (c : Clause), s.heatStop = false → s.agenda = { dt := d, act := .issue u } :: rest →
      s.team u = some t → t.clause = some c →
      (teamReady at_ t c = false → step s = .next at_) ∧
      (teamReady at_ t c = true → ∀ w, c.words[t.slot]? = some w →
        (∀ e, decodeWords w ((c.words[t.slot + 1]?).getD 0) = .error e →
          step s = .next (takeTrap at_ u 1 c.addr (t.slot + 1) 0 false 0)) ∧
        ∀ i, decodeWords w ((c.words[t.slot + 1]?).getD 0) = .ok i →
          let n := wordWeight t w
          let cl := teamCore at_ t / 4
          let c1 : Clause := { c with started := true }
          (withheld at_ t n = true → step s = .next (markWithheld at_ cl)) ∧
          (withheld at_ t n = false → t.evicted = [] → t.passOut = [] → ∃ s1 t1,
            step s = exec i s1 ∧ s1.cur = u ∧ s1.team u = some t1 ∧ (∀ v, v ≠ u → s1.team v = s.team v) ∧
            t1 = { t with clause := some c1, park := .none, issueAt := clockTenths at_ cl, stamps := t1.stamps } ∧
            s1 = { at_ with teams := s1.teams, clusters := s1.clusters, dev := s1.dev, fresh := s1.fresh, cur := u }) ∧
          (withheld at_ t n = false →
            (∃ s1 t1, step s = exec i s1 ∧ s1.cur = u ∧ s1.team u = some t1 ∧ (∀ v, v ≠ u → s1.team v = s.team v) ∧
              t1 = { t with clause := some c1, park := .none, issueAt := clockTenths at_ cl, stamps := t1.stamps
                            evicted := t1.evicted, passOut := t1.passOut, spill := t1.spill } ∧
              s1.scratch = s.scratch ∧ s1.host = s.host ∧ s1.wgs = s.wgs ∧ s1.launches = s.launches) ∨
            ((t.evicted ≠ [] ∨ t.passOut ≠ []) ∧ ∃ s1, step s = .next s1 ∧ ∀ t1, s1.team u = some t1 → t1.clause = none)))

/-- A stream's turn (R61, R233, R234, R317, R318): an admitted stream that runs and whose WAIT holds goes past a NOP; an
engine operation waits for the engine's grant, and an MMA for the rise limit (R319); a word is withheld for want of allowance; any other issues, and the step is
that word's meaning, with its clause started and its cluster debited, and nothing else changed by it. -/
def Sys2Proof.Claims.StepRunsStreamWord : Prop :=
  ∀ (s : State) (d k : Nat) (rest : List Turn) (x : Stream) (c : Clause) (w : Word) (i : Instr),
    let at_ : State := { s with agenda := rest, ns := s.ns + d }
    let x1 : Stream := { x with clause := some { c with started := true } }
    let p := streamWeight x i
    let waits := c.started = false ∧ (hdrWait c.hdr).testBit 7 = true ∧ x.inflight ≠ []
    s.heatStop = false → s.agenda = { dt := d, act := .stream k } :: rest → s.stream k = some x → x.clause = some c →
    (x.admitted = false ∨ streamRuns at_ x = false ∨ waits → step s = .next at_) ∧
    (x.admitted = true → streamRuns at_ x = true → ¬ waits → c.words[x.slot]? = some w →
      decodeWords w ((c.words[x.slot + 1]?).getD 0) = .ok i →
      (i = .nop → step s = .next (goStream at_ k x1 c 1)) ∧
      let free := engineGrants at_ k x = true ∧ ¬ (isMma i = true ∧ riseHolds at_ x.cluster = true)
      (isEngineOp i = true → ¬ free → step s = .next at_) ∧
      (i ≠ .nop → isEngineOp i = false ∨ free →
        (p ≠ 0 → x.rank ≠ 64 → allowed at_ x.cluster p x.rank = false → step s = .next (markWithheld at_ x.cluster)) ∧
        (p = 0 ∨ x.rank = 64 ∨ allowed at_ x.cluster p x.rank = true → ∃ s1, step s = exec i s1 ∧ s1.curStream = k ∧
          s1.stream k = some x1 ∧ (∀ j, j ≠ k → s1.stream j = s.stream j) ∧
          s1 = { at_ with streams := s1.streams, clusters := s1.clusters, dev := s1.dev, fresh := s1.fresh, curStream := k })))

/-- A step runs the decoded instruction, for teams, streams and device steps. -/
def Obligations.StepRunsDecodedInstruction : Prop := Sys2Proof.Claims.StepRunsDecodedInstruction ∧ Sys2Proof.Claims.StepRunsStreamWord

/-- Words that the spec writes out decode to what they stand for (R388, R349, R344, R364, R397, R360, R362, R352, R356,
R420, R411, R409), and so does MSIG's; and an undefined opcode, a reserved field that is not 0, an odd register of a pair
and SLOT 6 are refused. -/
def Obligations.DecodeWords : Prop :=
  decodeWords 0x00070506 0 = .ok (.iadd 7 5 6) ∧
  decodeWords 0x01080800 0x00001000 = .ok (.iaddLit 8 8 0x1000) ∧
  decodeWords 0x2D0504C8 0x002000C4 = .ok (.bfx 5 4 0xC8 true 0xC4) ∧
  decodeWords 0x97050220 0x00020611 = .ok (.atom 5 2 1 0 .w 6 .cas false true) ∧
  decodeWords 0x8105025F 0x00000004 = .ok (.ldBX 5 2 2 (-1) true false) ∧
  decodeWords 0xA0081E01 0 = .ok (.copy 8 1 7 false false true) ∧
  decodeWords 0xB6060007 0 = .ok (.cut 6 7) ∧
  decodeWords 0xD2000010 0 = .ok (.call 16) ∧
  decodeWords 0xD1000005 0x06000005 = .ok (.brv 5 6 5) ∧
  decodeWords 0xA8052E01 0 = .ok (.nbwait 5 2 7 true) ∧
  decodeWords 0xF8030010 0 = .ok (.mma 3 0 1 .bf16) ∧
  decodeWords 0x6B030200 0x02000200 = .ok (.cvt 3 2 .fp32 .bf16 false { negA := false, absA := false, negB := false, absB := false, negC := false, absC := false } .rtz) ∧
  decodeWords 0xF5001804 0x00007000 = .ok (.mload 6 false true .h 0 0x7000) ∧
  decodeWords 0xFC040008 0 = .ok (.msig 4) ∧
  decodeWords 0x07070203 0 = .error .undefinedOpcode ∧
  decodeWords 0xD8000001 0 = .error .badField ∧
  decodeWords 0xB6070007 0 = .error .illFormed ∧
  decodeWords 0x840502C2 0 = .error .illFormed

/-- Every well-formed word of every constructor decodes to itself: its encoding, its length and its instruction agree,
and no other bits of a word give it. A device step has no encoding. -/
def Obligations.RoundTrip : Prop :=
  (∀ (i : Instr) (w x : Word), i.wellFormed = true → encode i = [w] → hasExt w = false ∧ decodeWords w x = .ok i) ∧
  (∀ (i : Instr) (w x : Word), i.wellFormed = true → encode i = [w, x] → hasExt w = true ∧ decodeWords w x = .ok i) ∧
  (∀ (i : Instr) (rest : List Byte), i.wellFormed = true → encode i ≠ [] → decode (encodeBytes i ++ rest) = .ok (i, rest)) ∧
  ∀ (i : Instr) (w x : Word), decodeWords w x = .ok i → i.wellFormed = true ∧ encode i = if hasExt w then [w, x] else [w]

/-- No step takes a memory out of its canonical form: HBM, host memory and the scratchpads stay rising, with no entry that
equals what an unlisted address reads as, so that equal memories are equal data. -/
def Obligations.MemoryInvariant : Prop :=
  ∀ s t : State, s.wf = true → step s = .next t → t.wf = true

/-- The machine right after reset: the memories are canonical, boot waits (R332), no team and no launch stands, the clock
starts from 0 (R282), and the device registers hold the reset values of their layouts (R177, R250, R282, R285, R295 to R298,
R315, R321). -/
def Obligations.ResetState : Prop :=
  State.reset.wf = true ∧ State.reset.boot.state = 0 ∧ entries State.reset.teams = [] ∧ entries State.reset.launches = [] ∧
  State.reset.heatStop = false ∧ ptpNow State.reset = 0 ∧
  State.reset.dreg aBreezeCtl = 2 ∧ State.reset.dreg aBreezeRate = 4096 ∧ State.reset.dreg aPtpCfg = 0x100 ∧
  State.reset.dreg aPartConn = 0 ∧ State.reset.dreg aBallast = 0x41 ∧
  (∀ f < 256, State.reset.dreg (aIngFilt f) = 0 ∧ State.reset.dreg (aIngRctl f) = 0x10010) ∧
  (∀ n < 64, partState State.reset n = 0 ∧ State.reset.dfield (aPcap n) 16 4 = 8 ∧ State.reset.dfield (aPace n) 16 4 = 8 ∧
    State.reset.dreg (aVfCores n) = 0 ∧ State.reset.dreg (aHevt n) = 0) ∧
  (∀ c < 128, clState State.reset c = 0 ∧ pointAt State.reset c = 8 ∧ State.reset.dreg (aClAck c) = 1 ∧
    State.reset.dreg (aRetDone c) = 1) ∧
  ∀ q < 4096, queueEn State.reset q = false ∧ queueHead State.reset q = 0
end

