-- ==== Sys2Proof/Laws/FMap.lean ====
section
/-! SUPPORT. Read over write, and the canonical form, of the maps of State. -/

namespace Sys2Proof.Machine

variable {α : Type}

theorem fget_ferase_same (d : Nat → α) (m : FMap α) (k : Nat) : fget d (ferase m k) k = d k := by
  induction m with
  | nil => rfl
  | cons e m ih =>
    obtain ⟨j, v⟩ := e
    by_cases h : j = k <;> simp [ferase, fget, h, ih]

theorem fget_ferase_other (d : Nat → α) (m : FMap α) {k k' : Nat} (h : k' ≠ k) :
    fget d (ferase m k) k' = fget d m k' := by
  induction m with
  | nil => rfl
  | cons e m ih =>
    obtain ⟨j, v⟩ := e
    by_cases hj : j = k
    · subst hj; simp [ferase, fget, ih, Ne.symm h]
    · simp only [ferase, hj, if_false, fget, ih]

theorem fget_finsert_same (d : Nat → α) (m : FMap α) (k : Nat) (v : α) : fget d (finsert m k v) k = v := by
  induction m with
  | nil => simp [finsert, fget]
  | cons e m ih =>
    obtain ⟨j, w⟩ := e
    unfold finsert
    split
    · simp [fget]
    · split
      · simp [fget]
      · simp_all [fget]

theorem fget_finsert_other (d : Nat → α) (m : FMap α) {k k' : Nat} (v : α) (h : k' ≠ k) :
    fget d (finsert m k v) k' = fget d m k' := by
  induction m with
  | nil => simp [finsert, fget, Ne.symm h]
  | cons e m ih =>
    obtain ⟨j, w⟩ := e
    unfold finsert
    split
    · simp [fget, Ne.symm h]
    · split
      · rename_i hj; subst hj; simp [fget, Ne.symm h]
      · by_cases hj' : j = k' <;> simp [fget, hj', ih]

section
variable [DecidableEq α]

/-- Read after write at one place. -/
@[simp] theorem fget_fset_same (d : Nat → α) (m : FMap α) (k : Nat) (v : α) : fget d (fset d m k v) k = v := by
  unfold fset
  split
  · rename_i h; rw [fget_ferase_same, h]
  · exact fget_finsert_same d m k v

/-- A write leaves every other place alone. -/
theorem fget_fset_other (d : Nat → α) (m : FMap α) {k k' : Nat} (v : α) (h : k' ≠ k) :
    fget d (fset d m k v) k' = fget d m k' := by
  unfold fset
  split
  · exact fget_ferase_other d m h
  · exact fget_finsert_other d m v h

/-- Read after write, both cases at once. -/
theorem fget_fset (d : Nat → α) (m : FMap α) (k k' : Nat) (v : α) :
    fget d (fset d m k v) k' = if k' = k then v else fget d m k' := by
  by_cases h : k' = k
  · subst h; simp
  · simp [h, fget_fset_other d m v h]

theorem fwfFrom_mono (d : Nat → α) {lo lo' : Nat} (h : lo' ≤ lo) {m : FMap α} (hm : fwfFrom d lo m = true) :
    fwfFrom d lo' m = true := by
  cases m with
  | nil => rfl
  | cons e m =>
    obtain ⟨k, v⟩ := e
    simp only [fwfFrom, Bool.and_eq_true, decide_eq_true_eq] at *
    exact ⟨⟨by omega, hm.1.2⟩, hm.2⟩

theorem fwfFrom_ferase (d : Nat → α) (k : Nat) {lo : Nat} {m : FMap α} (hm : fwfFrom d lo m = true) :
    fwfFrom d lo (ferase m k) = true := by
  induction m generalizing lo with
  | nil => rfl
  | cons e m ih =>
    obtain ⟨j, v⟩ := e
    simp only [fwfFrom, Bool.and_eq_true, decide_eq_true_eq] at hm
    unfold ferase
    split
    · exact fwfFrom_mono d (by omega) (ih hm.2)
    · simp [fwfFrom, hm.1, ih hm.2]

theorem fwfFrom_finsert (d : Nat → α) {k : Nat} {v : α} (hv : v ≠ d k) {lo : Nat} (hlo : lo ≤ k) {m : FMap α}
    (hm : fwfFrom d lo m = true) : fwfFrom d lo (finsert m k v) = true := by
  induction m generalizing lo with
  | nil => simp [finsert, fwfFrom, hv, hlo]
  | cons e m ih =>
    obtain ⟨j, w⟩ := e
    simp only [fwfFrom, Bool.and_eq_true, decide_eq_true_eq] at hm
    unfold finsert
    split
    · simp [fwfFrom, hv, hlo, hm.1.2, hm.2]; omega
    · split
      · rename_i h; subst h; simp [fwfFrom, hv, hlo, hm.2]
      · simp [fwfFrom, hm.1, ih (lo := j + 1) (by omega) hm.2]

/-- A write keeps the canonical form. -/
theorem fwf_fset (d : Nat → α) (k : Nat) (v : α) {m : FMap α} (hm : fwf d m = true) :
    fwf d (fset d m k v) = true := by
  unfold fset
  split
  · exact fwfFrom_ferase d k hm
  · rename_i h; exact fwfFrom_finsert d h (Nat.zero_le k) hm

/-- Several writes keep the canonical form. -/
theorem fwf_fsets (d : Nat → α) (l : List (Nat × α)) {m : FMap α} (hm : fwf d m = true) :
    fwf d (fsets d m l) = true := by
  induction l generalizing m with
  | nil => exact hm
  | cons e l ih => exact ih (fwf_fset d e.1 e.2 hm)

theorem fwfFrom_filter (d : Nat → α) (p : Nat × α → Bool) {lo : Nat} {m : FMap α} (hm : fwfFrom d lo m = true) :
    fwfFrom d lo (m.filter p) = true := by
  induction m generalizing lo with
  | nil => rfl
  | cons e m ih =>
    obtain ⟨j, v⟩ := e
    simp only [fwfFrom, Bool.and_eq_true, decide_eq_true_eq] at hm
    simp only [List.filter_cons]
    split
    · simp [fwfFrom, hm.1, ih hm.2]
    · exact fwfFrom_mono d (by omega) (ih hm.2)

/-- Clearing a range keeps the canonical form. -/
theorem fwf_fclear (d : Nat → α) (lo n : Nat) {m : FMap α} (hm : fwf d m = true) : fwf d (fclear m lo n) = true :=
  fwfFrom_filter d _ hm

end

@[simp] theorem Memory.get_put_same (m : Memory) (a : Nat) (v : Byte) : Memory.get (Memory.put m a v) a = v :=
  fget_fset_same _ m a v

theorem Memory.get_put_other (m : Memory) {a a' : Nat} (v : Byte) (h : a' ≠ a) :
    Memory.get (Memory.put m a v) a' = Memory.get m a' := fget_fset_other _ m v h

/-- Every byte outside the written range reads as before. -/
theorem Memory.get_write_outside (l : List Byte) (m : Memory) (a a' : Nat) (h : a' < a ∨ a + l.length ≤ a') :
    Memory.get (Memory.write m a l) a' = Memory.get m a' := by
  induction l generalizing m a with
  | nil => rfl
  | cons b l ih =>
    simp only [List.length_cons] at h
    rw [Memory.write, ih _ _ (by omega), Memory.get_put_other _ _ (by omega)]

/-- The written bytes read back. -/
theorem Memory.read_write_same (l : List Byte) (m : Memory) (a : Nat) :
    Memory.read (Memory.write m a l) a l.length = l := by
  induction l generalizing m a with
  | nil => rfl
  | cons b l ih =>
    simp only [Memory.write, Memory.read, List.length_cons]
    rw [ih, Memory.get_write_outside _ _ _ _ (by omega), Memory.get_put_same]

/-- A write of bytes keeps the canonical form. -/
theorem Memory.wf_write (l : List Byte) {m : Memory} (a : Nat) (hm : Memory.wf m = true) :
    Memory.wf (Memory.write m a l) = true := by
  induction l generalizing m a with
  | nil => exact hm
  | cons b l ih => exact ih _ (fwf_fset _ a b hm)

end Sys2Proof.Machine
end

