-- ==== Sys2Proof/Laws/State.lean ====
section
/-! SUPPORT. What the updates of State and of Team leave as it was: one lemma for each field and update, and read over
write of the tables. -/

namespace Sys2Proof.Machine

/-! ### State.putTeam -/

@[simp] theorem State.putTeam_agenda (s : State) (u : Nat) (t : Team) : (s.putTeam u t).agenda = s.agenda := rfl
@[simp] theorem State.putTeam_tick (s : State) (u : Nat) (t : Team) : (s.putTeam u t).tick = s.tick := rfl
@[simp] theorem State.putTeam_fresh (s : State) (u : Nat) (t : Team) : (s.putTeam u t).fresh = s.fresh := rfl
@[simp] theorem State.putTeam_cur (s : State) (u : Nat) (t : Team) : (s.putTeam u t).cur = s.cur := rfl
@[simp] theorem State.putTeam_curStream (s : State) (u : Nat) (t : Team) : (s.putTeam u t).curStream = s.curStream := rfl
@[simp] theorem State.putTeam_nextUid (s : State) (u : Nat) (t : Team) : (s.putTeam u t).nextUid = s.nextUid := rfl
@[simp] theorem State.putTeam_ns (s : State) (u : Nat) (t : Team) : (s.putTeam u t).ns = s.ns := rfl
@[simp] theorem State.putTeam_wgs (s : State) (u : Nat) (t : Team) : (s.putTeam u t).wgs = s.wgs := rfl
@[simp] theorem State.putTeam_launches (s : State) (u : Nat) (t : Team) : (s.putTeam u t).launches = s.launches := rfl
@[simp] theorem State.putTeam_graphs (s : State) (u : Nat) (t : Team) : (s.putTeam u t).graphs = s.graphs := rfl
@[simp] theorem State.putTeam_queues (s : State) (u : Nat) (t : Team) : (s.putTeam u t).queues = s.queues := rfl
@[simp] theorem State.putTeam_copies (s : State) (u : Nat) (t : Team) : (s.putTeam u t).copies = s.copies := rfl
@[simp] theorem State.putTeam_streams (s : State) (u : Nat) (t : Team) : (s.putTeam u t).streams = s.streams := rfl
@[simp] theorem State.putTeam_hbm (s : State) (u : Nat) (t : Team) : (s.putTeam u t).hbm = s.hbm := rfl
@[simp] theorem State.putTeam_caddies (s : State) (u : Nat) (t : Team) : (s.putTeam u t).caddies = s.caddies := rfl
@[simp] theorem State.putTeam_treeAlt (s : State) (u : Nat) (t : Team) : (s.putTeam u t).treeAlt = s.treeAlt := rfl
@[simp] theorem State.putTeam_openTiles (s : State) (u : Nat) (t : Team) : (s.putTeam u t).openTiles = s.openTiles := rfl
@[simp] theorem State.putTeam_flight (s : State) (u : Nat) (t : Team) : (s.putTeam u t).flight = s.flight := rfl
@[simp] theorem State.putTeam_keyValid (s : State) (u : Nat) (t : Team) : (s.putTeam u t).keyValid = s.keyValid := rfl
@[simp] theorem State.putTeam_keyVal (s : State) (u : Nat) (t : Team) : (s.putTeam u t).keyVal = s.keyVal := rfl
@[simp] theorem State.putTeam_host (s : State) (u : Nat) (t : Team) : (s.putTeam u t).host = s.host := rfl
@[simp] theorem State.putTeam_scratch (s : State) (u : Nat) (t : Team) : (s.putTeam u t).scratch = s.scratch := rfl
@[simp] theorem State.putTeam_scratchBad (s : State) (u : Nat) (t : Team) : (s.putTeam u t).scratchBad = s.scratchBad := rfl
@[simp] theorem State.putTeam_dev (s : State) (u : Nat) (t : Team) : (s.putTeam u t).dev = s.dev := rfl
@[simp] theorem State.putTeam_tlb1 (s : State) (u : Nat) (t : Team) : (s.putTeam u t).tlb1 = s.tlb1 := rfl
@[simp] theorem State.putTeam_tlb2 (s : State) (u : Nat) (t : Team) : (s.putTeam u t).tlb2 = s.tlb2 := rfl
@[simp] theorem State.putTeam_loopBuf (s : State) (u : Nat) (t : Team) : (s.putTeam u t).loopBuf = s.loopBuf := rfl
@[simp] theorem State.putTeam_wake (s : State) (u : Nat) (t : Team) : (s.putTeam u t).wake = s.wake := rfl
@[simp] theorem State.putTeam_reqs (s : State) (u : Nat) (t : Team) : (s.putTeam u t).reqs = s.reqs := rfl
@[simp] theorem State.putTeam_foldOrder (s : State) (u : Nat) (t : Team) : (s.putTeam u t).foldOrder = s.foldOrder := rfl
@[simp] theorem State.putTeam_roomBack (s : State) (u : Nat) (t : Team) : (s.putTeam u t).roomBack = s.roomBack := rfl
@[simp] theorem State.putTeam_parts (s : State) (u : Nat) (t : Team) : (s.putTeam u t).parts = s.parts := rfl
@[simp] theorem State.putTeam_partOp (s : State) (u : Nat) (t : Team) : (s.putTeam u t).partOp = s.partOp := rfl
@[simp] theorem State.putTeam_pool (s : State) (u : Nat) (t : Team) : (s.putTeam u t).pool = s.pool := rfl
@[simp] theorem State.putTeam_tokenAt (s : State) (u : Nat) (t : Team) : (s.putTeam u t).tokenAt = s.tokenAt := rfl
@[simp] theorem State.putTeam_clusters (s : State) (u : Nat) (t : Team) : (s.putTeam u t).clusters = s.clusters := rfl
@[simp] theorem State.putTeam_retImages (s : State) (u : Nat) (t : Team) : (s.putTeam u t).retImages = s.retImages := rfl
@[simp] theorem State.putTeam_th (s : State) (u : Nat) (t : Team) : (s.putTeam u t).th = s.th := rfl
@[simp] theorem State.putTeam_heatStop (s : State) (u : Nat) (t : Team) : (s.putTeam u t).heatStop = s.heatStop := rfl
@[simp] theorem State.putTeam_ptp (s : State) (u : Nat) (t : Team) : (s.putTeam u t).ptp = s.ptp := rfl
@[simp] theorem State.putTeam_ptpTx (s : State) (u : Nat) (t : Team) : (s.putTeam u t).ptpTx = s.ptpTx := rfl
@[simp] theorem State.putTeam_ingDrops (s : State) (u : Nat) (t : Team) : (s.putTeam u t).ingDrops = s.ingDrops := rfl
@[simp] theorem State.putTeam_ingSeq (s : State) (u : Nat) (t : Team) : (s.putTeam u t).ingSeq = s.ingSeq := rfl
@[simp] theorem State.putTeam_link (s : State) (u : Nat) (t : Team) : (s.putTeam u t).link = s.link := rfl
@[simp] theorem State.putTeam_msix (s : State) (u : Nat) (t : Team) : (s.putTeam u t).msix = s.msix := rfl
@[simp] theorem State.putTeam_msixOn (s : State) (u : Nat) (t : Team) : (s.putTeam u t).msixOn = s.msixOn := rfl
@[simp] theorem State.putTeam_msixOpen (s : State) (u : Nat) (t : Team) : (s.putTeam u t).msixOpen = s.msixOpen := rfl
@[simp] theorem State.putTeam_qEvents (s : State) (u : Nat) (t : Team) : (s.putTeam u t).qEvents = s.qEvents := rfl
@[simp] theorem State.putTeam_hdm (s : State) (u : Nat) (t : Team) : (s.putTeam u t).hdm = s.hdm := rfl
@[simp] theorem State.putTeam_cxlRas (s : State) (u : Nat) (t : Team) : (s.putTeam u t).cxlRas = s.cxlRas := rfl
@[simp] theorem State.putTeam_aer (s : State) (u : Nat) (t : Team) : (s.putTeam u t).aer = s.aer := rfl
@[simp] theorem State.putTeam_cxlRead (s : State) (u : Nat) (t : Team) : (s.putTeam u t).cxlRead = s.cxlRead := rfl
@[simp] theorem State.putTeam_barRead (s : State) (u : Nat) (t : Team) : (s.putTeam u t).barRead = s.barRead := rfl
@[simp] theorem State.putTeam_doe (s : State) (u : Nat) (t : Team) : (s.putTeam u t).doe = s.doe := rfl
@[simp] theorem State.putTeam_sealSeq (s : State) (u : Nat) (t : Team) : (s.putTeam u t).sealSeq = s.sealSeq := rfl
@[simp] theorem State.putTeam_sealFwd (s : State) (u : Nat) (t : Team) : (s.putTeam u t).sealFwd = s.sealFwd := rfl
@[simp] theorem State.putTeam_fwRoot (s : State) (u : Nat) (t : Team) : (s.putTeam u t).fwRoot = s.fwRoot := rfl
@[simp] theorem State.putTeam_agentEntry (s : State) (u : Nat) (t : Team) : (s.putTeam u t).agentEntry = s.agentEntry := rfl
@[simp] theorem State.putTeam_fwVersion (s : State) (u : Nat) (t : Team) : (s.putTeam u t).fwVersion = s.fwVersion := rfl
@[simp] theorem State.putTeam_fwDigest (s : State) (u : Nat) (t : Team) : (s.putTeam u t).fwDigest = s.fwDigest := rfl
@[simp] theorem State.putTeam_mbox (s : State) (u : Nat) (t : Team) : (s.putTeam u t).mbox = s.mbox := rfl
@[simp] theorem State.putTeam_boot (s : State) (u : Nat) (t : Team) : (s.putTeam u t).boot = s.boot := rfl

/-! ### State.putWg -/

@[simp] theorem State.putWg_agenda (s : State) (g : Nat) (w : Workgroup) : (s.putWg g w).agenda = s.agenda := rfl
@[simp] theorem State.putWg_tick (s : State) (g : Nat) (w : Workgroup) : (s.putWg g w).tick = s.tick := rfl
@[simp] theorem State.putWg_fresh (s : State) (g : Nat) (w : Workgroup) : (s.putWg g w).fresh = s.fresh := rfl
@[simp] theorem State.putWg_cur (s : State) (g : Nat) (w : Workgroup) : (s.putWg g w).cur = s.cur := rfl
@[simp] theorem State.putWg_curStream (s : State) (g : Nat) (w : Workgroup) : (s.putWg g w).curStream = s.curStream := rfl
@[simp] theorem State.putWg_nextUid (s : State) (g : Nat) (w : Workgroup) : (s.putWg g w).nextUid = s.nextUid := rfl
@[simp] theorem State.putWg_ns (s : State) (g : Nat) (w : Workgroup) : (s.putWg g w).ns = s.ns := rfl
@[simp] theorem State.putWg_teams (s : State) (g : Nat) (w : Workgroup) : (s.putWg g w).teams = s.teams := rfl
@[simp] theorem State.putWg_launches (s : State) (g : Nat) (w : Workgroup) : (s.putWg g w).launches = s.launches := rfl
@[simp] theorem State.putWg_graphs (s : State) (g : Nat) (w : Workgroup) : (s.putWg g w).graphs = s.graphs := rfl
@[simp] theorem State.putWg_queues (s : State) (g : Nat) (w : Workgroup) : (s.putWg g w).queues = s.queues := rfl
@[simp] theorem State.putWg_copies (s : State) (g : Nat) (w : Workgroup) : (s.putWg g w).copies = s.copies := rfl
@[simp] theorem State.putWg_streams (s : State) (g : Nat) (w : Workgroup) : (s.putWg g w).streams = s.streams := rfl
@[simp] theorem State.putWg_hbm (s : State) (g : Nat) (w : Workgroup) : (s.putWg g w).hbm = s.hbm := rfl
@[simp] theorem State.putWg_caddies (s : State) (g : Nat) (w : Workgroup) : (s.putWg g w).caddies = s.caddies := rfl
@[simp] theorem State.putWg_treeAlt (s : State) (g : Nat) (w : Workgroup) : (s.putWg g w).treeAlt = s.treeAlt := rfl
@[simp] theorem State.putWg_openTiles (s : State) (g : Nat) (w : Workgroup) : (s.putWg g w).openTiles = s.openTiles := rfl
@[simp] theorem State.putWg_flight (s : State) (g : Nat) (w : Workgroup) : (s.putWg g w).flight = s.flight := rfl
@[simp] theorem State.putWg_keyValid (s : State) (g : Nat) (w : Workgroup) : (s.putWg g w).keyValid = s.keyValid := rfl
@[simp] theorem State.putWg_keyVal (s : State) (g : Nat) (w : Workgroup) : (s.putWg g w).keyVal = s.keyVal := rfl
@[simp] theorem State.putWg_host (s : State) (g : Nat) (w : Workgroup) : (s.putWg g w).host = s.host := rfl
@[simp] theorem State.putWg_scratch (s : State) (g : Nat) (w : Workgroup) : (s.putWg g w).scratch = s.scratch := rfl
@[simp] theorem State.putWg_scratchBad (s : State) (g : Nat) (w : Workgroup) : (s.putWg g w).scratchBad = s.scratchBad := rfl
@[simp] theorem State.putWg_dev (s : State) (g : Nat) (w : Workgroup) : (s.putWg g w).dev = s.dev := rfl
@[simp] theorem State.putWg_tlb1 (s : State) (g : Nat) (w : Workgroup) : (s.putWg g w).tlb1 = s.tlb1 := rfl
@[simp] theorem State.putWg_tlb2 (s : State) (g : Nat) (w : Workgroup) : (s.putWg g w).tlb2 = s.tlb2 := rfl
@[simp] theorem State.putWg_loopBuf (s : State) (g : Nat) (w : Workgroup) : (s.putWg g w).loopBuf = s.loopBuf := rfl
@[simp] theorem State.putWg_wake (s : State) (g : Nat) (w : Workgroup) : (s.putWg g w).wake = s.wake := rfl
@[simp] theorem State.putWg_reqs (s : State) (g : Nat) (w : Workgroup) : (s.putWg g w).reqs = s.reqs := rfl
@[simp] theorem State.putWg_foldOrder (s : State) (g : Nat) (w : Workgroup) : (s.putWg g w).foldOrder = s.foldOrder := rfl
@[simp] theorem State.putWg_roomBack (s : State) (g : Nat) (w : Workgroup) : (s.putWg g w).roomBack = s.roomBack := rfl
@[simp] theorem State.putWg_parts (s : State) (g : Nat) (w : Workgroup) : (s.putWg g w).parts = s.parts := rfl
@[simp] theorem State.putWg_partOp (s : State) (g : Nat) (w : Workgroup) : (s.putWg g w).partOp = s.partOp := rfl
@[simp] theorem State.putWg_pool (s : State) (g : Nat) (w : Workgroup) : (s.putWg g w).pool = s.pool := rfl
@[simp] theorem State.putWg_tokenAt (s : State) (g : Nat) (w : Workgroup) : (s.putWg g w).tokenAt = s.tokenAt := rfl
@[simp] theorem State.putWg_clusters (s : State) (g : Nat) (w : Workgroup) : (s.putWg g w).clusters = s.clusters := rfl
@[simp] theorem State.putWg_retImages (s : State) (g : Nat) (w : Workgroup) : (s.putWg g w).retImages = s.retImages := rfl
@[simp] theorem State.putWg_th (s : State) (g : Nat) (w : Workgroup) : (s.putWg g w).th = s.th := rfl
@[simp] theorem State.putWg_heatStop (s : State) (g : Nat) (w : Workgroup) : (s.putWg g w).heatStop = s.heatStop := rfl
@[simp] theorem State.putWg_ptp (s : State) (g : Nat) (w : Workgroup) : (s.putWg g w).ptp = s.ptp := rfl
@[simp] theorem State.putWg_ptpTx (s : State) (g : Nat) (w : Workgroup) : (s.putWg g w).ptpTx = s.ptpTx := rfl
@[simp] theorem State.putWg_ingDrops (s : State) (g : Nat) (w : Workgroup) : (s.putWg g w).ingDrops = s.ingDrops := rfl
@[simp] theorem State.putWg_ingSeq (s : State) (g : Nat) (w : Workgroup) : (s.putWg g w).ingSeq = s.ingSeq := rfl
@[simp] theorem State.putWg_link (s : State) (g : Nat) (w : Workgroup) : (s.putWg g w).link = s.link := rfl
@[simp] theorem State.putWg_msix (s : State) (g : Nat) (w : Workgroup) : (s.putWg g w).msix = s.msix := rfl
@[simp] theorem State.putWg_msixOn (s : State) (g : Nat) (w : Workgroup) : (s.putWg g w).msixOn = s.msixOn := rfl
@[simp] theorem State.putWg_msixOpen (s : State) (g : Nat) (w : Workgroup) : (s.putWg g w).msixOpen = s.msixOpen := rfl
@[simp] theorem State.putWg_qEvents (s : State) (g : Nat) (w : Workgroup) : (s.putWg g w).qEvents = s.qEvents := rfl
@[simp] theorem State.putWg_hdm (s : State) (g : Nat) (w : Workgroup) : (s.putWg g w).hdm = s.hdm := rfl
@[simp] theorem State.putWg_cxlRas (s : State) (g : Nat) (w : Workgroup) : (s.putWg g w).cxlRas = s.cxlRas := rfl
@[simp] theorem State.putWg_aer (s : State) (g : Nat) (w : Workgroup) : (s.putWg g w).aer = s.aer := rfl
@[simp] theorem State.putWg_cxlRead (s : State) (g : Nat) (w : Workgroup) : (s.putWg g w).cxlRead = s.cxlRead := rfl
@[simp] theorem State.putWg_barRead (s : State) (g : Nat) (w : Workgroup) : (s.putWg g w).barRead = s.barRead := rfl
@[simp] theorem State.putWg_doe (s : State) (g : Nat) (w : Workgroup) : (s.putWg g w).doe = s.doe := rfl
@[simp] theorem State.putWg_sealSeq (s : State) (g : Nat) (w : Workgroup) : (s.putWg g w).sealSeq = s.sealSeq := rfl
@[simp] theorem State.putWg_sealFwd (s : State) (g : Nat) (w : Workgroup) : (s.putWg g w).sealFwd = s.sealFwd := rfl
@[simp] theorem State.putWg_fwRoot (s : State) (g : Nat) (w : Workgroup) : (s.putWg g w).fwRoot = s.fwRoot := rfl
@[simp] theorem State.putWg_agentEntry (s : State) (g : Nat) (w : Workgroup) : (s.putWg g w).agentEntry = s.agentEntry := rfl
@[simp] theorem State.putWg_fwVersion (s : State) (g : Nat) (w : Workgroup) : (s.putWg g w).fwVersion = s.fwVersion := rfl
@[simp] theorem State.putWg_fwDigest (s : State) (g : Nat) (w : Workgroup) : (s.putWg g w).fwDigest = s.fwDigest := rfl
@[simp] theorem State.putWg_mbox (s : State) (g : Nat) (w : Workgroup) : (s.putWg g w).mbox = s.mbox := rfl
@[simp] theorem State.putWg_boot (s : State) (g : Nat) (w : Workgroup) : (s.putWg g w).boot = s.boot := rfl

/-! ### State.dropWg -/

@[simp] theorem State.dropWg_agenda (s : State) (g : Nat) : (s.dropWg g).agenda = s.agenda := rfl
@[simp] theorem State.dropWg_tick (s : State) (g : Nat) : (s.dropWg g).tick = s.tick := rfl
@[simp] theorem State.dropWg_fresh (s : State) (g : Nat) : (s.dropWg g).fresh = s.fresh := rfl
@[simp] theorem State.dropWg_cur (s : State) (g : Nat) : (s.dropWg g).cur = s.cur := rfl
@[simp] theorem State.dropWg_curStream (s : State) (g : Nat) : (s.dropWg g).curStream = s.curStream := rfl
@[simp] theorem State.dropWg_nextUid (s : State) (g : Nat) : (s.dropWg g).nextUid = s.nextUid := rfl
@[simp] theorem State.dropWg_ns (s : State) (g : Nat) : (s.dropWg g).ns = s.ns := rfl
@[simp] theorem State.dropWg_teams (s : State) (g : Nat) : (s.dropWg g).teams = s.teams := rfl
@[simp] theorem State.dropWg_launches (s : State) (g : Nat) : (s.dropWg g).launches = s.launches := rfl
@[simp] theorem State.dropWg_graphs (s : State) (g : Nat) : (s.dropWg g).graphs = s.graphs := rfl
@[simp] theorem State.dropWg_queues (s : State) (g : Nat) : (s.dropWg g).queues = s.queues := rfl
@[simp] theorem State.dropWg_copies (s : State) (g : Nat) : (s.dropWg g).copies = s.copies := rfl
@[simp] theorem State.dropWg_streams (s : State) (g : Nat) : (s.dropWg g).streams = s.streams := rfl
@[simp] theorem State.dropWg_hbm (s : State) (g : Nat) : (s.dropWg g).hbm = s.hbm := rfl
@[simp] theorem State.dropWg_caddies (s : State) (g : Nat) : (s.dropWg g).caddies = s.caddies := rfl
@[simp] theorem State.dropWg_treeAlt (s : State) (g : Nat) : (s.dropWg g).treeAlt = s.treeAlt := rfl
@[simp] theorem State.dropWg_openTiles (s : State) (g : Nat) : (s.dropWg g).openTiles = s.openTiles := rfl
@[simp] theorem State.dropWg_flight (s : State) (g : Nat) : (s.dropWg g).flight = s.flight := rfl
@[simp] theorem State.dropWg_keyValid (s : State) (g : Nat) : (s.dropWg g).keyValid = s.keyValid := rfl
@[simp] theorem State.dropWg_keyVal (s : State) (g : Nat) : (s.dropWg g).keyVal = s.keyVal := rfl
@[simp] theorem State.dropWg_host (s : State) (g : Nat) : (s.dropWg g).host = s.host := rfl
@[simp] theorem State.dropWg_scratch (s : State) (g : Nat) : (s.dropWg g).scratch = s.scratch := rfl
@[simp] theorem State.dropWg_scratchBad (s : State) (g : Nat) : (s.dropWg g).scratchBad = s.scratchBad := rfl
@[simp] theorem State.dropWg_dev (s : State) (g : Nat) : (s.dropWg g).dev = s.dev := rfl
@[simp] theorem State.dropWg_tlb1 (s : State) (g : Nat) : (s.dropWg g).tlb1 = s.tlb1 := rfl
@[simp] theorem State.dropWg_tlb2 (s : State) (g : Nat) : (s.dropWg g).tlb2 = s.tlb2 := rfl
@[simp] theorem State.dropWg_loopBuf (s : State) (g : Nat) : (s.dropWg g).loopBuf = s.loopBuf := rfl
@[simp] theorem State.dropWg_wake (s : State) (g : Nat) : (s.dropWg g).wake = s.wake := rfl
@[simp] theorem State.dropWg_reqs (s : State) (g : Nat) : (s.dropWg g).reqs = s.reqs := rfl
@[simp] theorem State.dropWg_foldOrder (s : State) (g : Nat) : (s.dropWg g).foldOrder = s.foldOrder := rfl
@[simp] theorem State.dropWg_roomBack (s : State) (g : Nat) : (s.dropWg g).roomBack = s.roomBack := rfl
@[simp] theorem State.dropWg_parts (s : State) (g : Nat) : (s.dropWg g).parts = s.parts := rfl
@[simp] theorem State.dropWg_partOp (s : State) (g : Nat) : (s.dropWg g).partOp = s.partOp := rfl
@[simp] theorem State.dropWg_pool (s : State) (g : Nat) : (s.dropWg g).pool = s.pool := rfl
@[simp] theorem State.dropWg_tokenAt (s : State) (g : Nat) : (s.dropWg g).tokenAt = s.tokenAt := rfl
@[simp] theorem State.dropWg_clusters (s : State) (g : Nat) : (s.dropWg g).clusters = s.clusters := rfl
@[simp] theorem State.dropWg_retImages (s : State) (g : Nat) : (s.dropWg g).retImages = s.retImages := rfl
@[simp] theorem State.dropWg_th (s : State) (g : Nat) : (s.dropWg g).th = s.th := rfl
@[simp] theorem State.dropWg_heatStop (s : State) (g : Nat) : (s.dropWg g).heatStop = s.heatStop := rfl
@[simp] theorem State.dropWg_ptp (s : State) (g : Nat) : (s.dropWg g).ptp = s.ptp := rfl
@[simp] theorem State.dropWg_ptpTx (s : State) (g : Nat) : (s.dropWg g).ptpTx = s.ptpTx := rfl
@[simp] theorem State.dropWg_ingDrops (s : State) (g : Nat) : (s.dropWg g).ingDrops = s.ingDrops := rfl
@[simp] theorem State.dropWg_ingSeq (s : State) (g : Nat) : (s.dropWg g).ingSeq = s.ingSeq := rfl
@[simp] theorem State.dropWg_link (s : State) (g : Nat) : (s.dropWg g).link = s.link := rfl
@[simp] theorem State.dropWg_msix (s : State) (g : Nat) : (s.dropWg g).msix = s.msix := rfl
@[simp] theorem State.dropWg_msixOn (s : State) (g : Nat) : (s.dropWg g).msixOn = s.msixOn := rfl
@[simp] theorem State.dropWg_msixOpen (s : State) (g : Nat) : (s.dropWg g).msixOpen = s.msixOpen := rfl
@[simp] theorem State.dropWg_qEvents (s : State) (g : Nat) : (s.dropWg g).qEvents = s.qEvents := rfl
@[simp] theorem State.dropWg_hdm (s : State) (g : Nat) : (s.dropWg g).hdm = s.hdm := rfl
@[simp] theorem State.dropWg_cxlRas (s : State) (g : Nat) : (s.dropWg g).cxlRas = s.cxlRas := rfl
@[simp] theorem State.dropWg_aer (s : State) (g : Nat) : (s.dropWg g).aer = s.aer := rfl
@[simp] theorem State.dropWg_cxlRead (s : State) (g : Nat) : (s.dropWg g).cxlRead = s.cxlRead := rfl
@[simp] theorem State.dropWg_barRead (s : State) (g : Nat) : (s.dropWg g).barRead = s.barRead := rfl
@[simp] theorem State.dropWg_doe (s : State) (g : Nat) : (s.dropWg g).doe = s.doe := rfl
@[simp] theorem State.dropWg_sealSeq (s : State) (g : Nat) : (s.dropWg g).sealSeq = s.sealSeq := rfl
@[simp] theorem State.dropWg_sealFwd (s : State) (g : Nat) : (s.dropWg g).sealFwd = s.sealFwd := rfl
@[simp] theorem State.dropWg_fwRoot (s : State) (g : Nat) : (s.dropWg g).fwRoot = s.fwRoot := rfl
@[simp] theorem State.dropWg_agentEntry (s : State) (g : Nat) : (s.dropWg g).agentEntry = s.agentEntry := rfl
@[simp] theorem State.dropWg_fwVersion (s : State) (g : Nat) : (s.dropWg g).fwVersion = s.fwVersion := rfl
@[simp] theorem State.dropWg_fwDigest (s : State) (g : Nat) : (s.dropWg g).fwDigest = s.fwDigest := rfl
@[simp] theorem State.dropWg_mbox (s : State) (g : Nat) : (s.dropWg g).mbox = s.mbox := rfl
@[simp] theorem State.dropWg_boot (s : State) (g : Nat) : (s.dropWg g).boot = s.boot := rfl

/-! ### State.putLaunch -/

@[simp] theorem State.putLaunch_agenda (s : State) (l : Nat) (x : Launch) : (s.putLaunch l x).agenda = s.agenda := rfl
@[simp] theorem State.putLaunch_tick (s : State) (l : Nat) (x : Launch) : (s.putLaunch l x).tick = s.tick := rfl
@[simp] theorem State.putLaunch_fresh (s : State) (l : Nat) (x : Launch) : (s.putLaunch l x).fresh = s.fresh := rfl
@[simp] theorem State.putLaunch_cur (s : State) (l : Nat) (x : Launch) : (s.putLaunch l x).cur = s.cur := rfl
@[simp] theorem State.putLaunch_curStream (s : State) (l : Nat) (x : Launch) : (s.putLaunch l x).curStream = s.curStream := rfl
@[simp] theorem State.putLaunch_nextUid (s : State) (l : Nat) (x : Launch) : (s.putLaunch l x).nextUid = s.nextUid := rfl
@[simp] theorem State.putLaunch_ns (s : State) (l : Nat) (x : Launch) : (s.putLaunch l x).ns = s.ns := rfl
@[simp] theorem State.putLaunch_teams (s : State) (l : Nat) (x : Launch) : (s.putLaunch l x).teams = s.teams := rfl
@[simp] theorem State.putLaunch_wgs (s : State) (l : Nat) (x : Launch) : (s.putLaunch l x).wgs = s.wgs := rfl
@[simp] theorem State.putLaunch_graphs (s : State) (l : Nat) (x : Launch) : (s.putLaunch l x).graphs = s.graphs := rfl
@[simp] theorem State.putLaunch_queues (s : State) (l : Nat) (x : Launch) : (s.putLaunch l x).queues = s.queues := rfl
@[simp] theorem State.putLaunch_copies (s : State) (l : Nat) (x : Launch) : (s.putLaunch l x).copies = s.copies := rfl
@[simp] theorem State.putLaunch_streams (s : State) (l : Nat) (x : Launch) : (s.putLaunch l x).streams = s.streams := rfl
@[simp] theorem State.putLaunch_hbm (s : State) (l : Nat) (x : Launch) : (s.putLaunch l x).hbm = s.hbm := rfl
@[simp] theorem State.putLaunch_caddies (s : State) (l : Nat) (x : Launch) : (s.putLaunch l x).caddies = s.caddies := rfl
@[simp] theorem State.putLaunch_treeAlt (s : State) (l : Nat) (x : Launch) : (s.putLaunch l x).treeAlt = s.treeAlt := rfl
@[simp] theorem State.putLaunch_openTiles (s : State) (l : Nat) (x : Launch) : (s.putLaunch l x).openTiles = s.openTiles := rfl
@[simp] theorem State.putLaunch_flight (s : State) (l : Nat) (x : Launch) : (s.putLaunch l x).flight = s.flight := rfl
@[simp] theorem State.putLaunch_keyValid (s : State) (l : Nat) (x : Launch) : (s.putLaunch l x).keyValid = s.keyValid := rfl
@[simp] theorem State.putLaunch_keyVal (s : State) (l : Nat) (x : Launch) : (s.putLaunch l x).keyVal = s.keyVal := rfl
@[simp] theorem State.putLaunch_host (s : State) (l : Nat) (x : Launch) : (s.putLaunch l x).host = s.host := rfl
@[simp] theorem State.putLaunch_scratch (s : State) (l : Nat) (x : Launch) : (s.putLaunch l x).scratch = s.scratch := rfl
@[simp] theorem State.putLaunch_scratchBad (s : State) (l : Nat) (x : Launch) : (s.putLaunch l x).scratchBad = s.scratchBad := rfl
@[simp] theorem State.putLaunch_dev (s : State) (l : Nat) (x : Launch) : (s.putLaunch l x).dev = s.dev := rfl
@[simp] theorem State.putLaunch_tlb1 (s : State) (l : Nat) (x : Launch) : (s.putLaunch l x).tlb1 = s.tlb1 := rfl
@[simp] theorem State.putLaunch_tlb2 (s : State) (l : Nat) (x : Launch) : (s.putLaunch l x).tlb2 = s.tlb2 := rfl
@[simp] theorem State.putLaunch_loopBuf (s : State) (l : Nat) (x : Launch) : (s.putLaunch l x).loopBuf = s.loopBuf := rfl
@[simp] theorem State.putLaunch_wake (s : State) (l : Nat) (x : Launch) : (s.putLaunch l x).wake = s.wake := rfl
@[simp] theorem State.putLaunch_reqs (s : State) (l : Nat) (x : Launch) : (s.putLaunch l x).reqs = s.reqs := rfl
@[simp] theorem State.putLaunch_foldOrder (s : State) (l : Nat) (x : Launch) : (s.putLaunch l x).foldOrder = s.foldOrder := rfl
@[simp] theorem State.putLaunch_roomBack (s : State) (l : Nat) (x : Launch) : (s.putLaunch l x).roomBack = s.roomBack := rfl
@[simp] theorem State.putLaunch_parts (s : State) (l : Nat) (x : Launch) : (s.putLaunch l x).parts = s.parts := rfl
@[simp] theorem State.putLaunch_partOp (s : State) (l : Nat) (x : Launch) : (s.putLaunch l x).partOp = s.partOp := rfl
@[simp] theorem State.putLaunch_pool (s : State) (l : Nat) (x : Launch) : (s.putLaunch l x).pool = s.pool := rfl
@[simp] theorem State.putLaunch_tokenAt (s : State) (l : Nat) (x : Launch) : (s.putLaunch l x).tokenAt = s.tokenAt := rfl
@[simp] theorem State.putLaunch_clusters (s : State) (l : Nat) (x : Launch) : (s.putLaunch l x).clusters = s.clusters := rfl
@[simp] theorem State.putLaunch_retImages (s : State) (l : Nat) (x : Launch) : (s.putLaunch l x).retImages = s.retImages := rfl
@[simp] theorem State.putLaunch_th (s : State) (l : Nat) (x : Launch) : (s.putLaunch l x).th = s.th := rfl
@[simp] theorem State.putLaunch_heatStop (s : State) (l : Nat) (x : Launch) : (s.putLaunch l x).heatStop = s.heatStop := rfl
@[simp] theorem State.putLaunch_ptp (s : State) (l : Nat) (x : Launch) : (s.putLaunch l x).ptp = s.ptp := rfl
@[simp] theorem State.putLaunch_ptpTx (s : State) (l : Nat) (x : Launch) : (s.putLaunch l x).ptpTx = s.ptpTx := rfl
@[simp] theorem State.putLaunch_ingDrops (s : State) (l : Nat) (x : Launch) : (s.putLaunch l x).ingDrops = s.ingDrops := rfl
@[simp] theorem State.putLaunch_ingSeq (s : State) (l : Nat) (x : Launch) : (s.putLaunch l x).ingSeq = s.ingSeq := rfl
@[simp] theorem State.putLaunch_link (s : State) (l : Nat) (x : Launch) : (s.putLaunch l x).link = s.link := rfl
@[simp] theorem State.putLaunch_msix (s : State) (l : Nat) (x : Launch) : (s.putLaunch l x).msix = s.msix := rfl
@[simp] theorem State.putLaunch_msixOn (s : State) (l : Nat) (x : Launch) : (s.putLaunch l x).msixOn = s.msixOn := rfl
@[simp] theorem State.putLaunch_msixOpen (s : State) (l : Nat) (x : Launch) : (s.putLaunch l x).msixOpen = s.msixOpen := rfl
@[simp] theorem State.putLaunch_qEvents (s : State) (l : Nat) (x : Launch) : (s.putLaunch l x).qEvents = s.qEvents := rfl
@[simp] theorem State.putLaunch_hdm (s : State) (l : Nat) (x : Launch) : (s.putLaunch l x).hdm = s.hdm := rfl
@[simp] theorem State.putLaunch_cxlRas (s : State) (l : Nat) (x : Launch) : (s.putLaunch l x).cxlRas = s.cxlRas := rfl
@[simp] theorem State.putLaunch_aer (s : State) (l : Nat) (x : Launch) : (s.putLaunch l x).aer = s.aer := rfl
@[simp] theorem State.putLaunch_cxlRead (s : State) (l : Nat) (x : Launch) : (s.putLaunch l x).cxlRead = s.cxlRead := rfl
@[simp] theorem State.putLaunch_barRead (s : State) (l : Nat) (x : Launch) : (s.putLaunch l x).barRead = s.barRead := rfl
@[simp] theorem State.putLaunch_doe (s : State) (l : Nat) (x : Launch) : (s.putLaunch l x).doe = s.doe := rfl
@[simp] theorem State.putLaunch_sealSeq (s : State) (l : Nat) (x : Launch) : (s.putLaunch l x).sealSeq = s.sealSeq := rfl
@[simp] theorem State.putLaunch_sealFwd (s : State) (l : Nat) (x : Launch) : (s.putLaunch l x).sealFwd = s.sealFwd := rfl
@[simp] theorem State.putLaunch_fwRoot (s : State) (l : Nat) (x : Launch) : (s.putLaunch l x).fwRoot = s.fwRoot := rfl
@[simp] theorem State.putLaunch_agentEntry (s : State) (l : Nat) (x : Launch) : (s.putLaunch l x).agentEntry = s.agentEntry := rfl
@[simp] theorem State.putLaunch_fwVersion (s : State) (l : Nat) (x : Launch) : (s.putLaunch l x).fwVersion = s.fwVersion := rfl
@[simp] theorem State.putLaunch_fwDigest (s : State) (l : Nat) (x : Launch) : (s.putLaunch l x).fwDigest = s.fwDigest := rfl
@[simp] theorem State.putLaunch_mbox (s : State) (l : Nat) (x : Launch) : (s.putLaunch l x).mbox = s.mbox := rfl
@[simp] theorem State.putLaunch_boot (s : State) (l : Nat) (x : Launch) : (s.putLaunch l x).boot = s.boot := rfl

/-! ### State.dropLaunch -/

@[simp] theorem State.dropLaunch_agenda (s : State) (l : Nat) : (s.dropLaunch l).agenda = s.agenda := rfl
@[simp] theorem State.dropLaunch_tick (s : State) (l : Nat) : (s.dropLaunch l).tick = s.tick := rfl
@[simp] theorem State.dropLaunch_fresh (s : State) (l : Nat) : (s.dropLaunch l).fresh = s.fresh := rfl
@[simp] theorem State.dropLaunch_cur (s : State) (l : Nat) : (s.dropLaunch l).cur = s.cur := rfl
@[simp] theorem State.dropLaunch_curStream (s : State) (l : Nat) : (s.dropLaunch l).curStream = s.curStream := rfl
@[simp] theorem State.dropLaunch_nextUid (s : State) (l : Nat) : (s.dropLaunch l).nextUid = s.nextUid := rfl
@[simp] theorem State.dropLaunch_ns (s : State) (l : Nat) : (s.dropLaunch l).ns = s.ns := rfl
@[simp] theorem State.dropLaunch_teams (s : State) (l : Nat) : (s.dropLaunch l).teams = s.teams := rfl
@[simp] theorem State.dropLaunch_wgs (s : State) (l : Nat) : (s.dropLaunch l).wgs = s.wgs := rfl
@[simp] theorem State.dropLaunch_graphs (s : State) (l : Nat) : (s.dropLaunch l).graphs = s.graphs := rfl
@[simp] theorem State.dropLaunch_queues (s : State) (l : Nat) : (s.dropLaunch l).queues = s.queues := rfl
@[simp] theorem State.dropLaunch_copies (s : State) (l : Nat) : (s.dropLaunch l).copies = s.copies := rfl
@[simp] theorem State.dropLaunch_streams (s : State) (l : Nat) : (s.dropLaunch l).streams = s.streams := rfl
@[simp] theorem State.dropLaunch_hbm (s : State) (l : Nat) : (s.dropLaunch l).hbm = s.hbm := rfl
@[simp] theorem State.dropLaunch_caddies (s : State) (l : Nat) : (s.dropLaunch l).caddies = s.caddies := rfl
@[simp] theorem State.dropLaunch_treeAlt (s : State) (l : Nat) : (s.dropLaunch l).treeAlt = s.treeAlt := rfl
@[simp] theorem State.dropLaunch_openTiles (s : State) (l : Nat) : (s.dropLaunch l).openTiles = s.openTiles := rfl
@[simp] theorem State.dropLaunch_flight (s : State) (l : Nat) : (s.dropLaunch l).flight = s.flight := rfl
@[simp] theorem State.dropLaunch_keyValid (s : State) (l : Nat) : (s.dropLaunch l).keyValid = s.keyValid := rfl
@[simp] theorem State.dropLaunch_keyVal (s : State) (l : Nat) : (s.dropLaunch l).keyVal = s.keyVal := rfl
@[simp] theorem State.dropLaunch_host (s : State) (l : Nat) : (s.dropLaunch l).host = s.host := rfl
@[simp] theorem State.dropLaunch_scratch (s : State) (l : Nat) : (s.dropLaunch l).scratch = s.scratch := rfl
@[simp] theorem State.dropLaunch_scratchBad (s : State) (l : Nat) : (s.dropLaunch l).scratchBad = s.scratchBad := rfl
@[simp] theorem State.dropLaunch_dev (s : State) (l : Nat) : (s.dropLaunch l).dev = s.dev := rfl
@[simp] theorem State.dropLaunch_tlb1 (s : State) (l : Nat) : (s.dropLaunch l).tlb1 = s.tlb1 := rfl
@[simp] theorem State.dropLaunch_tlb2 (s : State) (l : Nat) : (s.dropLaunch l).tlb2 = s.tlb2 := rfl
@[simp] theorem State.dropLaunch_loopBuf (s : State) (l : Nat) : (s.dropLaunch l).loopBuf = s.loopBuf := rfl
@[simp] theorem State.dropLaunch_wake (s : State) (l : Nat) : (s.dropLaunch l).wake = s.wake := rfl
@[simp] theorem State.dropLaunch_reqs (s : State) (l : Nat) : (s.dropLaunch l).reqs = s.reqs := rfl
@[simp] theorem State.dropLaunch_foldOrder (s : State) (l : Nat) : (s.dropLaunch l).foldOrder = s.foldOrder := rfl
@[simp] theorem State.dropLaunch_roomBack (s : State) (l : Nat) : (s.dropLaunch l).roomBack = s.roomBack := rfl
@[simp] theorem State.dropLaunch_parts (s : State) (l : Nat) : (s.dropLaunch l).parts = s.parts := rfl
@[simp] theorem State.dropLaunch_partOp (s : State) (l : Nat) : (s.dropLaunch l).partOp = s.partOp := rfl
@[simp] theorem State.dropLaunch_pool (s : State) (l : Nat) : (s.dropLaunch l).pool = s.pool := rfl
@[simp] theorem State.dropLaunch_tokenAt (s : State) (l : Nat) : (s.dropLaunch l).tokenAt = s.tokenAt := rfl
@[simp] theorem State.dropLaunch_clusters (s : State) (l : Nat) : (s.dropLaunch l).clusters = s.clusters := rfl
@[simp] theorem State.dropLaunch_retImages (s : State) (l : Nat) : (s.dropLaunch l).retImages = s.retImages := rfl
@[simp] theorem State.dropLaunch_th (s : State) (l : Nat) : (s.dropLaunch l).th = s.th := rfl
@[simp] theorem State.dropLaunch_heatStop (s : State) (l : Nat) : (s.dropLaunch l).heatStop = s.heatStop := rfl
@[simp] theorem State.dropLaunch_ptp (s : State) (l : Nat) : (s.dropLaunch l).ptp = s.ptp := rfl
@[simp] theorem State.dropLaunch_ptpTx (s : State) (l : Nat) : (s.dropLaunch l).ptpTx = s.ptpTx := rfl
@[simp] theorem State.dropLaunch_ingDrops (s : State) (l : Nat) : (s.dropLaunch l).ingDrops = s.ingDrops := rfl
@[simp] theorem State.dropLaunch_ingSeq (s : State) (l : Nat) : (s.dropLaunch l).ingSeq = s.ingSeq := rfl
@[simp] theorem State.dropLaunch_link (s : State) (l : Nat) : (s.dropLaunch l).link = s.link := rfl
@[simp] theorem State.dropLaunch_msix (s : State) (l : Nat) : (s.dropLaunch l).msix = s.msix := rfl
@[simp] theorem State.dropLaunch_msixOn (s : State) (l : Nat) : (s.dropLaunch l).msixOn = s.msixOn := rfl
@[simp] theorem State.dropLaunch_msixOpen (s : State) (l : Nat) : (s.dropLaunch l).msixOpen = s.msixOpen := rfl
@[simp] theorem State.dropLaunch_qEvents (s : State) (l : Nat) : (s.dropLaunch l).qEvents = s.qEvents := rfl
@[simp] theorem State.dropLaunch_hdm (s : State) (l : Nat) : (s.dropLaunch l).hdm = s.hdm := rfl
@[simp] theorem State.dropLaunch_cxlRas (s : State) (l : Nat) : (s.dropLaunch l).cxlRas = s.cxlRas := rfl
@[simp] theorem State.dropLaunch_aer (s : State) (l : Nat) : (s.dropLaunch l).aer = s.aer := rfl
@[simp] theorem State.dropLaunch_cxlRead (s : State) (l : Nat) : (s.dropLaunch l).cxlRead = s.cxlRead := rfl
@[simp] theorem State.dropLaunch_barRead (s : State) (l : Nat) : (s.dropLaunch l).barRead = s.barRead := rfl
@[simp] theorem State.dropLaunch_doe (s : State) (l : Nat) : (s.dropLaunch l).doe = s.doe := rfl
@[simp] theorem State.dropLaunch_sealSeq (s : State) (l : Nat) : (s.dropLaunch l).sealSeq = s.sealSeq := rfl
@[simp] theorem State.dropLaunch_sealFwd (s : State) (l : Nat) : (s.dropLaunch l).sealFwd = s.sealFwd := rfl
@[simp] theorem State.dropLaunch_fwRoot (s : State) (l : Nat) : (s.dropLaunch l).fwRoot = s.fwRoot := rfl
@[simp] theorem State.dropLaunch_agentEntry (s : State) (l : Nat) : (s.dropLaunch l).agentEntry = s.agentEntry := rfl
@[simp] theorem State.dropLaunch_fwVersion (s : State) (l : Nat) : (s.dropLaunch l).fwVersion = s.fwVersion := rfl
@[simp] theorem State.dropLaunch_fwDigest (s : State) (l : Nat) : (s.dropLaunch l).fwDigest = s.fwDigest := rfl
@[simp] theorem State.dropLaunch_mbox (s : State) (l : Nat) : (s.dropLaunch l).mbox = s.mbox := rfl
@[simp] theorem State.dropLaunch_boot (s : State) (l : Nat) : (s.dropLaunch l).boot = s.boot := rfl

/-! ### State.putGraph -/

@[simp] theorem State.putGraph_agenda (s : State) (g : Nat) (x : Graph) : (s.putGraph g x).agenda = s.agenda := rfl
@[simp] theorem State.putGraph_tick (s : State) (g : Nat) (x : Graph) : (s.putGraph g x).tick = s.tick := rfl
@[simp] theorem State.putGraph_fresh (s : State) (g : Nat) (x : Graph) : (s.putGraph g x).fresh = s.fresh := rfl
@[simp] theorem State.putGraph_cur (s : State) (g : Nat) (x : Graph) : (s.putGraph g x).cur = s.cur := rfl
@[simp] theorem State.putGraph_curStream (s : State) (g : Nat) (x : Graph) : (s.putGraph g x).curStream = s.curStream := rfl
@[simp] theorem State.putGraph_nextUid (s : State) (g : Nat) (x : Graph) : (s.putGraph g x).nextUid = s.nextUid := rfl
@[simp] theorem State.putGraph_ns (s : State) (g : Nat) (x : Graph) : (s.putGraph g x).ns = s.ns := rfl
@[simp] theorem State.putGraph_teams (s : State) (g : Nat) (x : Graph) : (s.putGraph g x).teams = s.teams := rfl
@[simp] theorem State.putGraph_wgs (s : State) (g : Nat) (x : Graph) : (s.putGraph g x).wgs = s.wgs := rfl
@[simp] theorem State.putGraph_launches (s : State) (g : Nat) (x : Graph) : (s.putGraph g x).launches = s.launches := rfl
@[simp] theorem State.putGraph_queues (s : State) (g : Nat) (x : Graph) : (s.putGraph g x).queues = s.queues := rfl
@[simp] theorem State.putGraph_copies (s : State) (g : Nat) (x : Graph) : (s.putGraph g x).copies = s.copies := rfl
@[simp] theorem State.putGraph_streams (s : State) (g : Nat) (x : Graph) : (s.putGraph g x).streams = s.streams := rfl
@[simp] theorem State.putGraph_hbm (s : State) (g : Nat) (x : Graph) : (s.putGraph g x).hbm = s.hbm := rfl
@[simp] theorem State.putGraph_caddies (s : State) (g : Nat) (x : Graph) : (s.putGraph g x).caddies = s.caddies := rfl
@[simp] theorem State.putGraph_treeAlt (s : State) (g : Nat) (x : Graph) : (s.putGraph g x).treeAlt = s.treeAlt := rfl
@[simp] theorem State.putGraph_openTiles (s : State) (g : Nat) (x : Graph) : (s.putGraph g x).openTiles = s.openTiles := rfl
@[simp] theorem State.putGraph_flight (s : State) (g : Nat) (x : Graph) : (s.putGraph g x).flight = s.flight := rfl
@[simp] theorem State.putGraph_keyValid (s : State) (g : Nat) (x : Graph) : (s.putGraph g x).keyValid = s.keyValid := rfl
@[simp] theorem State.putGraph_keyVal (s : State) (g : Nat) (x : Graph) : (s.putGraph g x).keyVal = s.keyVal := rfl
@[simp] theorem State.putGraph_host (s : State) (g : Nat) (x : Graph) : (s.putGraph g x).host = s.host := rfl
@[simp] theorem State.putGraph_scratch (s : State) (g : Nat) (x : Graph) : (s.putGraph g x).scratch = s.scratch := rfl
@[simp] theorem State.putGraph_scratchBad (s : State) (g : Nat) (x : Graph) : (s.putGraph g x).scratchBad = s.scratchBad := rfl
@[simp] theorem State.putGraph_dev (s : State) (g : Nat) (x : Graph) : (s.putGraph g x).dev = s.dev := rfl
@[simp] theorem State.putGraph_tlb1 (s : State) (g : Nat) (x : Graph) : (s.putGraph g x).tlb1 = s.tlb1 := rfl
@[simp] theorem State.putGraph_tlb2 (s : State) (g : Nat) (x : Graph) : (s.putGraph g x).tlb2 = s.tlb2 := rfl
@[simp] theorem State.putGraph_loopBuf (s : State) (g : Nat) (x : Graph) : (s.putGraph g x).loopBuf = s.loopBuf := rfl
@[simp] theorem State.putGraph_wake (s : State) (g : Nat) (x : Graph) : (s.putGraph g x).wake = s.wake := rfl
@[simp] theorem State.putGraph_reqs (s : State) (g : Nat) (x : Graph) : (s.putGraph g x).reqs = s.reqs := rfl
@[simp] theorem State.putGraph_foldOrder (s : State) (g : Nat) (x : Graph) : (s.putGraph g x).foldOrder = s.foldOrder := rfl
@[simp] theorem State.putGraph_roomBack (s : State) (g : Nat) (x : Graph) : (s.putGraph g x).roomBack = s.roomBack := rfl
@[simp] theorem State.putGraph_parts (s : State) (g : Nat) (x : Graph) : (s.putGraph g x).parts = s.parts := rfl
@[simp] theorem State.putGraph_partOp (s : State) (g : Nat) (x : Graph) : (s.putGraph g x).partOp = s.partOp := rfl
@[simp] theorem State.putGraph_pool (s : State) (g : Nat) (x : Graph) : (s.putGraph g x).pool = s.pool := rfl
@[simp] theorem State.putGraph_tokenAt (s : State) (g : Nat) (x : Graph) : (s.putGraph g x).tokenAt = s.tokenAt := rfl
@[simp] theorem State.putGraph_clusters (s : State) (g : Nat) (x : Graph) : (s.putGraph g x).clusters = s.clusters := rfl
@[simp] theorem State.putGraph_retImages (s : State) (g : Nat) (x : Graph) : (s.putGraph g x).retImages = s.retImages := rfl
@[simp] theorem State.putGraph_th (s : State) (g : Nat) (x : Graph) : (s.putGraph g x).th = s.th := rfl
@[simp] theorem State.putGraph_heatStop (s : State) (g : Nat) (x : Graph) : (s.putGraph g x).heatStop = s.heatStop := rfl
@[simp] theorem State.putGraph_ptp (s : State) (g : Nat) (x : Graph) : (s.putGraph g x).ptp = s.ptp := rfl
@[simp] theorem State.putGraph_ptpTx (s : State) (g : Nat) (x : Graph) : (s.putGraph g x).ptpTx = s.ptpTx := rfl
@[simp] theorem State.putGraph_ingDrops (s : State) (g : Nat) (x : Graph) : (s.putGraph g x).ingDrops = s.ingDrops := rfl
@[simp] theorem State.putGraph_ingSeq (s : State) (g : Nat) (x : Graph) : (s.putGraph g x).ingSeq = s.ingSeq := rfl
@[simp] theorem State.putGraph_link (s : State) (g : Nat) (x : Graph) : (s.putGraph g x).link = s.link := rfl
@[simp] theorem State.putGraph_msix (s : State) (g : Nat) (x : Graph) : (s.putGraph g x).msix = s.msix := rfl
@[simp] theorem State.putGraph_msixOn (s : State) (g : Nat) (x : Graph) : (s.putGraph g x).msixOn = s.msixOn := rfl
@[simp] theorem State.putGraph_msixOpen (s : State) (g : Nat) (x : Graph) : (s.putGraph g x).msixOpen = s.msixOpen := rfl
@[simp] theorem State.putGraph_qEvents (s : State) (g : Nat) (x : Graph) : (s.putGraph g x).qEvents = s.qEvents := rfl
@[simp] theorem State.putGraph_hdm (s : State) (g : Nat) (x : Graph) : (s.putGraph g x).hdm = s.hdm := rfl
@[simp] theorem State.putGraph_cxlRas (s : State) (g : Nat) (x : Graph) : (s.putGraph g x).cxlRas = s.cxlRas := rfl
@[simp] theorem State.putGraph_aer (s : State) (g : Nat) (x : Graph) : (s.putGraph g x).aer = s.aer := rfl
@[simp] theorem State.putGraph_cxlRead (s : State) (g : Nat) (x : Graph) : (s.putGraph g x).cxlRead = s.cxlRead := rfl
@[simp] theorem State.putGraph_barRead (s : State) (g : Nat) (x : Graph) : (s.putGraph g x).barRead = s.barRead := rfl
@[simp] theorem State.putGraph_doe (s : State) (g : Nat) (x : Graph) : (s.putGraph g x).doe = s.doe := rfl
@[simp] theorem State.putGraph_sealSeq (s : State) (g : Nat) (x : Graph) : (s.putGraph g x).sealSeq = s.sealSeq := rfl
@[simp] theorem State.putGraph_sealFwd (s : State) (g : Nat) (x : Graph) : (s.putGraph g x).sealFwd = s.sealFwd := rfl
@[simp] theorem State.putGraph_fwRoot (s : State) (g : Nat) (x : Graph) : (s.putGraph g x).fwRoot = s.fwRoot := rfl
@[simp] theorem State.putGraph_agentEntry (s : State) (g : Nat) (x : Graph) : (s.putGraph g x).agentEntry = s.agentEntry := rfl
@[simp] theorem State.putGraph_fwVersion (s : State) (g : Nat) (x : Graph) : (s.putGraph g x).fwVersion = s.fwVersion := rfl
@[simp] theorem State.putGraph_fwDigest (s : State) (g : Nat) (x : Graph) : (s.putGraph g x).fwDigest = s.fwDigest := rfl
@[simp] theorem State.putGraph_mbox (s : State) (g : Nat) (x : Graph) : (s.putGraph g x).mbox = s.mbox := rfl
@[simp] theorem State.putGraph_boot (s : State) (g : Nat) (x : Graph) : (s.putGraph g x).boot = s.boot := rfl

/-! ### State.dropGraph -/

@[simp] theorem State.dropGraph_agenda (s : State) (g : Nat) : (s.dropGraph g).agenda = s.agenda := rfl
@[simp] theorem State.dropGraph_tick (s : State) (g : Nat) : (s.dropGraph g).tick = s.tick := rfl
@[simp] theorem State.dropGraph_fresh (s : State) (g : Nat) : (s.dropGraph g).fresh = s.fresh := rfl
@[simp] theorem State.dropGraph_cur (s : State) (g : Nat) : (s.dropGraph g).cur = s.cur := rfl
@[simp] theorem State.dropGraph_curStream (s : State) (g : Nat) : (s.dropGraph g).curStream = s.curStream := rfl
@[simp] theorem State.dropGraph_nextUid (s : State) (g : Nat) : (s.dropGraph g).nextUid = s.nextUid := rfl
@[simp] theorem State.dropGraph_ns (s : State) (g : Nat) : (s.dropGraph g).ns = s.ns := rfl
@[simp] theorem State.dropGraph_teams (s : State) (g : Nat) : (s.dropGraph g).teams = s.teams := rfl
@[simp] theorem State.dropGraph_wgs (s : State) (g : Nat) : (s.dropGraph g).wgs = s.wgs := rfl
@[simp] theorem State.dropGraph_launches (s : State) (g : Nat) : (s.dropGraph g).launches = s.launches := rfl
@[simp] theorem State.dropGraph_queues (s : State) (g : Nat) : (s.dropGraph g).queues = s.queues := rfl
@[simp] theorem State.dropGraph_copies (s : State) (g : Nat) : (s.dropGraph g).copies = s.copies := rfl
@[simp] theorem State.dropGraph_streams (s : State) (g : Nat) : (s.dropGraph g).streams = s.streams := rfl
@[simp] theorem State.dropGraph_hbm (s : State) (g : Nat) : (s.dropGraph g).hbm = s.hbm := rfl
@[simp] theorem State.dropGraph_caddies (s : State) (g : Nat) : (s.dropGraph g).caddies = s.caddies := rfl
@[simp] theorem State.dropGraph_treeAlt (s : State) (g : Nat) : (s.dropGraph g).treeAlt = s.treeAlt := rfl
@[simp] theorem State.dropGraph_openTiles (s : State) (g : Nat) : (s.dropGraph g).openTiles = s.openTiles := rfl
@[simp] theorem State.dropGraph_flight (s : State) (g : Nat) : (s.dropGraph g).flight = s.flight := rfl
@[simp] theorem State.dropGraph_keyValid (s : State) (g : Nat) : (s.dropGraph g).keyValid = s.keyValid := rfl
@[simp] theorem State.dropGraph_keyVal (s : State) (g : Nat) : (s.dropGraph g).keyVal = s.keyVal := rfl
@[simp] theorem State.dropGraph_host (s : State) (g : Nat) : (s.dropGraph g).host = s.host := rfl
@[simp] theorem State.dropGraph_scratch (s : State) (g : Nat) : (s.dropGraph g).scratch = s.scratch := rfl
@[simp] theorem State.dropGraph_scratchBad (s : State) (g : Nat) : (s.dropGraph g).scratchBad = s.scratchBad := rfl
@[simp] theorem State.dropGraph_dev (s : State) (g : Nat) : (s.dropGraph g).dev = s.dev := rfl
@[simp] theorem State.dropGraph_tlb1 (s : State) (g : Nat) : (s.dropGraph g).tlb1 = s.tlb1 := rfl
@[simp] theorem State.dropGraph_tlb2 (s : State) (g : Nat) : (s.dropGraph g).tlb2 = s.tlb2 := rfl
@[simp] theorem State.dropGraph_loopBuf (s : State) (g : Nat) : (s.dropGraph g).loopBuf = s.loopBuf := rfl
@[simp] theorem State.dropGraph_wake (s : State) (g : Nat) : (s.dropGraph g).wake = s.wake := rfl
@[simp] theorem State.dropGraph_reqs (s : State) (g : Nat) : (s.dropGraph g).reqs = s.reqs := rfl
@[simp] theorem State.dropGraph_foldOrder (s : State) (g : Nat) : (s.dropGraph g).foldOrder = s.foldOrder := rfl
@[simp] theorem State.dropGraph_roomBack (s : State) (g : Nat) : (s.dropGraph g).roomBack = s.roomBack := rfl
@[simp] theorem State.dropGraph_parts (s : State) (g : Nat) : (s.dropGraph g).parts = s.parts := rfl
@[simp] theorem State.dropGraph_partOp (s : State) (g : Nat) : (s.dropGraph g).partOp = s.partOp := rfl
@[simp] theorem State.dropGraph_pool (s : State) (g : Nat) : (s.dropGraph g).pool = s.pool := rfl
@[simp] theorem State.dropGraph_tokenAt (s : State) (g : Nat) : (s.dropGraph g).tokenAt = s.tokenAt := rfl
@[simp] theorem State.dropGraph_clusters (s : State) (g : Nat) : (s.dropGraph g).clusters = s.clusters := rfl
@[simp] theorem State.dropGraph_retImages (s : State) (g : Nat) : (s.dropGraph g).retImages = s.retImages := rfl
@[simp] theorem State.dropGraph_th (s : State) (g : Nat) : (s.dropGraph g).th = s.th := rfl
@[simp] theorem State.dropGraph_heatStop (s : State) (g : Nat) : (s.dropGraph g).heatStop = s.heatStop := rfl
@[simp] theorem State.dropGraph_ptp (s : State) (g : Nat) : (s.dropGraph g).ptp = s.ptp := rfl
@[simp] theorem State.dropGraph_ptpTx (s : State) (g : Nat) : (s.dropGraph g).ptpTx = s.ptpTx := rfl
@[simp] theorem State.dropGraph_ingDrops (s : State) (g : Nat) : (s.dropGraph g).ingDrops = s.ingDrops := rfl
@[simp] theorem State.dropGraph_ingSeq (s : State) (g : Nat) : (s.dropGraph g).ingSeq = s.ingSeq := rfl
@[simp] theorem State.dropGraph_link (s : State) (g : Nat) : (s.dropGraph g).link = s.link := rfl
@[simp] theorem State.dropGraph_msix (s : State) (g : Nat) : (s.dropGraph g).msix = s.msix := rfl
@[simp] theorem State.dropGraph_msixOn (s : State) (g : Nat) : (s.dropGraph g).msixOn = s.msixOn := rfl
@[simp] theorem State.dropGraph_msixOpen (s : State) (g : Nat) : (s.dropGraph g).msixOpen = s.msixOpen := rfl
@[simp] theorem State.dropGraph_qEvents (s : State) (g : Nat) : (s.dropGraph g).qEvents = s.qEvents := rfl
@[simp] theorem State.dropGraph_hdm (s : State) (g : Nat) : (s.dropGraph g).hdm = s.hdm := rfl
@[simp] theorem State.dropGraph_cxlRas (s : State) (g : Nat) : (s.dropGraph g).cxlRas = s.cxlRas := rfl
@[simp] theorem State.dropGraph_aer (s : State) (g : Nat) : (s.dropGraph g).aer = s.aer := rfl
@[simp] theorem State.dropGraph_cxlRead (s : State) (g : Nat) : (s.dropGraph g).cxlRead = s.cxlRead := rfl
@[simp] theorem State.dropGraph_barRead (s : State) (g : Nat) : (s.dropGraph g).barRead = s.barRead := rfl
@[simp] theorem State.dropGraph_doe (s : State) (g : Nat) : (s.dropGraph g).doe = s.doe := rfl
@[simp] theorem State.dropGraph_sealSeq (s : State) (g : Nat) : (s.dropGraph g).sealSeq = s.sealSeq := rfl
@[simp] theorem State.dropGraph_sealFwd (s : State) (g : Nat) : (s.dropGraph g).sealFwd = s.sealFwd := rfl
@[simp] theorem State.dropGraph_fwRoot (s : State) (g : Nat) : (s.dropGraph g).fwRoot = s.fwRoot := rfl
@[simp] theorem State.dropGraph_agentEntry (s : State) (g : Nat) : (s.dropGraph g).agentEntry = s.agentEntry := rfl
@[simp] theorem State.dropGraph_fwVersion (s : State) (g : Nat) : (s.dropGraph g).fwVersion = s.fwVersion := rfl
@[simp] theorem State.dropGraph_fwDigest (s : State) (g : Nat) : (s.dropGraph g).fwDigest = s.fwDigest := rfl
@[simp] theorem State.dropGraph_mbox (s : State) (g : Nat) : (s.dropGraph g).mbox = s.mbox := rfl
@[simp] theorem State.dropGraph_boot (s : State) (g : Nat) : (s.dropGraph g).boot = s.boot := rfl

/-! ### State.putQueue -/

@[simp] theorem State.putQueue_agenda (s : State) (q : Nat) (x : Queue) : (s.putQueue q x).agenda = s.agenda := rfl
@[simp] theorem State.putQueue_tick (s : State) (q : Nat) (x : Queue) : (s.putQueue q x).tick = s.tick := rfl
@[simp] theorem State.putQueue_fresh (s : State) (q : Nat) (x : Queue) : (s.putQueue q x).fresh = s.fresh := rfl
@[simp] theorem State.putQueue_cur (s : State) (q : Nat) (x : Queue) : (s.putQueue q x).cur = s.cur := rfl
@[simp] theorem State.putQueue_curStream (s : State) (q : Nat) (x : Queue) : (s.putQueue q x).curStream = s.curStream := rfl
@[simp] theorem State.putQueue_nextUid (s : State) (q : Nat) (x : Queue) : (s.putQueue q x).nextUid = s.nextUid := rfl
@[simp] theorem State.putQueue_ns (s : State) (q : Nat) (x : Queue) : (s.putQueue q x).ns = s.ns := rfl
@[simp] theorem State.putQueue_teams (s : State) (q : Nat) (x : Queue) : (s.putQueue q x).teams = s.teams := rfl
@[simp] theorem State.putQueue_wgs (s : State) (q : Nat) (x : Queue) : (s.putQueue q x).wgs = s.wgs := rfl
@[simp] theorem State.putQueue_launches (s : State) (q : Nat) (x : Queue) : (s.putQueue q x).launches = s.launches := rfl
@[simp] theorem State.putQueue_graphs (s : State) (q : Nat) (x : Queue) : (s.putQueue q x).graphs = s.graphs := rfl
@[simp] theorem State.putQueue_copies (s : State) (q : Nat) (x : Queue) : (s.putQueue q x).copies = s.copies := rfl
@[simp] theorem State.putQueue_streams (s : State) (q : Nat) (x : Queue) : (s.putQueue q x).streams = s.streams := rfl
@[simp] theorem State.putQueue_hbm (s : State) (q : Nat) (x : Queue) : (s.putQueue q x).hbm = s.hbm := rfl
@[simp] theorem State.putQueue_caddies (s : State) (q : Nat) (x : Queue) : (s.putQueue q x).caddies = s.caddies := rfl
@[simp] theorem State.putQueue_treeAlt (s : State) (q : Nat) (x : Queue) : (s.putQueue q x).treeAlt = s.treeAlt := rfl
@[simp] theorem State.putQueue_openTiles (s : State) (q : Nat) (x : Queue) : (s.putQueue q x).openTiles = s.openTiles := rfl
@[simp] theorem State.putQueue_flight (s : State) (q : Nat) (x : Queue) : (s.putQueue q x).flight = s.flight := rfl
@[simp] theorem State.putQueue_keyValid (s : State) (q : Nat) (x : Queue) : (s.putQueue q x).keyValid = s.keyValid := rfl
@[simp] theorem State.putQueue_keyVal (s : State) (q : Nat) (x : Queue) : (s.putQueue q x).keyVal = s.keyVal := rfl
@[simp] theorem State.putQueue_host (s : State) (q : Nat) (x : Queue) : (s.putQueue q x).host = s.host := rfl
@[simp] theorem State.putQueue_scratch (s : State) (q : Nat) (x : Queue) : (s.putQueue q x).scratch = s.scratch := rfl
@[simp] theorem State.putQueue_scratchBad (s : State) (q : Nat) (x : Queue) : (s.putQueue q x).scratchBad = s.scratchBad := rfl
@[simp] theorem State.putQueue_dev (s : State) (q : Nat) (x : Queue) : (s.putQueue q x).dev = s.dev := rfl
@[simp] theorem State.putQueue_tlb1 (s : State) (q : Nat) (x : Queue) : (s.putQueue q x).tlb1 = s.tlb1 := rfl
@[simp] theorem State.putQueue_tlb2 (s : State) (q : Nat) (x : Queue) : (s.putQueue q x).tlb2 = s.tlb2 := rfl
@[simp] theorem State.putQueue_loopBuf (s : State) (q : Nat) (x : Queue) : (s.putQueue q x).loopBuf = s.loopBuf := rfl
@[simp] theorem State.putQueue_wake (s : State) (q : Nat) (x : Queue) : (s.putQueue q x).wake = s.wake := rfl
@[simp] theorem State.putQueue_reqs (s : State) (q : Nat) (x : Queue) : (s.putQueue q x).reqs = s.reqs := rfl
@[simp] theorem State.putQueue_foldOrder (s : State) (q : Nat) (x : Queue) : (s.putQueue q x).foldOrder = s.foldOrder := rfl
@[simp] theorem State.putQueue_roomBack (s : State) (q : Nat) (x : Queue) : (s.putQueue q x).roomBack = s.roomBack := rfl
@[simp] theorem State.putQueue_parts (s : State) (q : Nat) (x : Queue) : (s.putQueue q x).parts = s.parts := rfl
@[simp] theorem State.putQueue_partOp (s : State) (q : Nat) (x : Queue) : (s.putQueue q x).partOp = s.partOp := rfl
@[simp] theorem State.putQueue_pool (s : State) (q : Nat) (x : Queue) : (s.putQueue q x).pool = s.pool := rfl
@[simp] theorem State.putQueue_tokenAt (s : State) (q : Nat) (x : Queue) : (s.putQueue q x).tokenAt = s.tokenAt := rfl
@[simp] theorem State.putQueue_clusters (s : State) (q : Nat) (x : Queue) : (s.putQueue q x).clusters = s.clusters := rfl
@[simp] theorem State.putQueue_retImages (s : State) (q : Nat) (x : Queue) : (s.putQueue q x).retImages = s.retImages := rfl
@[simp] theorem State.putQueue_th (s : State) (q : Nat) (x : Queue) : (s.putQueue q x).th = s.th := rfl
@[simp] theorem State.putQueue_heatStop (s : State) (q : Nat) (x : Queue) : (s.putQueue q x).heatStop = s.heatStop := rfl
@[simp] theorem State.putQueue_ptp (s : State) (q : Nat) (x : Queue) : (s.putQueue q x).ptp = s.ptp := rfl
@[simp] theorem State.putQueue_ptpTx (s : State) (q : Nat) (x : Queue) : (s.putQueue q x).ptpTx = s.ptpTx := rfl
@[simp] theorem State.putQueue_ingDrops (s : State) (q : Nat) (x : Queue) : (s.putQueue q x).ingDrops = s.ingDrops := rfl
@[simp] theorem State.putQueue_ingSeq (s : State) (q : Nat) (x : Queue) : (s.putQueue q x).ingSeq = s.ingSeq := rfl
@[simp] theorem State.putQueue_link (s : State) (q : Nat) (x : Queue) : (s.putQueue q x).link = s.link := rfl
@[simp] theorem State.putQueue_msix (s : State) (q : Nat) (x : Queue) : (s.putQueue q x).msix = s.msix := rfl
@[simp] theorem State.putQueue_msixOn (s : State) (q : Nat) (x : Queue) : (s.putQueue q x).msixOn = s.msixOn := rfl
@[simp] theorem State.putQueue_msixOpen (s : State) (q : Nat) (x : Queue) : (s.putQueue q x).msixOpen = s.msixOpen := rfl
@[simp] theorem State.putQueue_qEvents (s : State) (q : Nat) (x : Queue) : (s.putQueue q x).qEvents = s.qEvents := rfl
@[simp] theorem State.putQueue_hdm (s : State) (q : Nat) (x : Queue) : (s.putQueue q x).hdm = s.hdm := rfl
@[simp] theorem State.putQueue_cxlRas (s : State) (q : Nat) (x : Queue) : (s.putQueue q x).cxlRas = s.cxlRas := rfl
@[simp] theorem State.putQueue_aer (s : State) (q : Nat) (x : Queue) : (s.putQueue q x).aer = s.aer := rfl
@[simp] theorem State.putQueue_cxlRead (s : State) (q : Nat) (x : Queue) : (s.putQueue q x).cxlRead = s.cxlRead := rfl
@[simp] theorem State.putQueue_barRead (s : State) (q : Nat) (x : Queue) : (s.putQueue q x).barRead = s.barRead := rfl
@[simp] theorem State.putQueue_doe (s : State) (q : Nat) (x : Queue) : (s.putQueue q x).doe = s.doe := rfl
@[simp] theorem State.putQueue_sealSeq (s : State) (q : Nat) (x : Queue) : (s.putQueue q x).sealSeq = s.sealSeq := rfl
@[simp] theorem State.putQueue_sealFwd (s : State) (q : Nat) (x : Queue) : (s.putQueue q x).sealFwd = s.sealFwd := rfl
@[simp] theorem State.putQueue_fwRoot (s : State) (q : Nat) (x : Queue) : (s.putQueue q x).fwRoot = s.fwRoot := rfl
@[simp] theorem State.putQueue_agentEntry (s : State) (q : Nat) (x : Queue) : (s.putQueue q x).agentEntry = s.agentEntry := rfl
@[simp] theorem State.putQueue_fwVersion (s : State) (q : Nat) (x : Queue) : (s.putQueue q x).fwVersion = s.fwVersion := rfl
@[simp] theorem State.putQueue_fwDigest (s : State) (q : Nat) (x : Queue) : (s.putQueue q x).fwDigest = s.fwDigest := rfl
@[simp] theorem State.putQueue_mbox (s : State) (q : Nat) (x : Queue) : (s.putQueue q x).mbox = s.mbox := rfl
@[simp] theorem State.putQueue_boot (s : State) (q : Nat) (x : Queue) : (s.putQueue q x).boot = s.boot := rfl

/-! ### State.putCopy -/

@[simp] theorem State.putCopy_agenda (s : State) (k : Nat) (x : Copy) : (s.putCopy k x).agenda = s.agenda := rfl
@[simp] theorem State.putCopy_tick (s : State) (k : Nat) (x : Copy) : (s.putCopy k x).tick = s.tick := rfl
@[simp] theorem State.putCopy_fresh (s : State) (k : Nat) (x : Copy) : (s.putCopy k x).fresh = s.fresh := rfl
@[simp] theorem State.putCopy_cur (s : State) (k : Nat) (x : Copy) : (s.putCopy k x).cur = s.cur := rfl
@[simp] theorem State.putCopy_curStream (s : State) (k : Nat) (x : Copy) : (s.putCopy k x).curStream = s.curStream := rfl
@[simp] theorem State.putCopy_nextUid (s : State) (k : Nat) (x : Copy) : (s.putCopy k x).nextUid = s.nextUid := rfl
@[simp] theorem State.putCopy_ns (s : State) (k : Nat) (x : Copy) : (s.putCopy k x).ns = s.ns := rfl
@[simp] theorem State.putCopy_teams (s : State) (k : Nat) (x : Copy) : (s.putCopy k x).teams = s.teams := rfl
@[simp] theorem State.putCopy_wgs (s : State) (k : Nat) (x : Copy) : (s.putCopy k x).wgs = s.wgs := rfl
@[simp] theorem State.putCopy_launches (s : State) (k : Nat) (x : Copy) : (s.putCopy k x).launches = s.launches := rfl
@[simp] theorem State.putCopy_graphs (s : State) (k : Nat) (x : Copy) : (s.putCopy k x).graphs = s.graphs := rfl
@[simp] theorem State.putCopy_queues (s : State) (k : Nat) (x : Copy) : (s.putCopy k x).queues = s.queues := rfl
@[simp] theorem State.putCopy_streams (s : State) (k : Nat) (x : Copy) : (s.putCopy k x).streams = s.streams := rfl
@[simp] theorem State.putCopy_hbm (s : State) (k : Nat) (x : Copy) : (s.putCopy k x).hbm = s.hbm := rfl
@[simp] theorem State.putCopy_caddies (s : State) (k : Nat) (x : Copy) : (s.putCopy k x).caddies = s.caddies := rfl
@[simp] theorem State.putCopy_treeAlt (s : State) (k : Nat) (x : Copy) : (s.putCopy k x).treeAlt = s.treeAlt := rfl
@[simp] theorem State.putCopy_openTiles (s : State) (k : Nat) (x : Copy) : (s.putCopy k x).openTiles = s.openTiles := rfl
@[simp] theorem State.putCopy_flight (s : State) (k : Nat) (x : Copy) : (s.putCopy k x).flight = s.flight := rfl
@[simp] theorem State.putCopy_keyValid (s : State) (k : Nat) (x : Copy) : (s.putCopy k x).keyValid = s.keyValid := rfl
@[simp] theorem State.putCopy_keyVal (s : State) (k : Nat) (x : Copy) : (s.putCopy k x).keyVal = s.keyVal := rfl
@[simp] theorem State.putCopy_host (s : State) (k : Nat) (x : Copy) : (s.putCopy k x).host = s.host := rfl
@[simp] theorem State.putCopy_scratch (s : State) (k : Nat) (x : Copy) : (s.putCopy k x).scratch = s.scratch := rfl
@[simp] theorem State.putCopy_scratchBad (s : State) (k : Nat) (x : Copy) : (s.putCopy k x).scratchBad = s.scratchBad := rfl
@[simp] theorem State.putCopy_dev (s : State) (k : Nat) (x : Copy) : (s.putCopy k x).dev = s.dev := rfl
@[simp] theorem State.putCopy_tlb1 (s : State) (k : Nat) (x : Copy) : (s.putCopy k x).tlb1 = s.tlb1 := rfl
@[simp] theorem State.putCopy_tlb2 (s : State) (k : Nat) (x : Copy) : (s.putCopy k x).tlb2 = s.tlb2 := rfl
@[simp] theorem State.putCopy_loopBuf (s : State) (k : Nat) (x : Copy) : (s.putCopy k x).loopBuf = s.loopBuf := rfl
@[simp] theorem State.putCopy_wake (s : State) (k : Nat) (x : Copy) : (s.putCopy k x).wake = s.wake := rfl
@[simp] theorem State.putCopy_reqs (s : State) (k : Nat) (x : Copy) : (s.putCopy k x).reqs = s.reqs := rfl
@[simp] theorem State.putCopy_foldOrder (s : State) (k : Nat) (x : Copy) : (s.putCopy k x).foldOrder = s.foldOrder := rfl
@[simp] theorem State.putCopy_roomBack (s : State) (k : Nat) (x : Copy) : (s.putCopy k x).roomBack = s.roomBack := rfl
@[simp] theorem State.putCopy_parts (s : State) (k : Nat) (x : Copy) : (s.putCopy k x).parts = s.parts := rfl
@[simp] theorem State.putCopy_partOp (s : State) (k : Nat) (x : Copy) : (s.putCopy k x).partOp = s.partOp := rfl
@[simp] theorem State.putCopy_pool (s : State) (k : Nat) (x : Copy) : (s.putCopy k x).pool = s.pool := rfl
@[simp] theorem State.putCopy_tokenAt (s : State) (k : Nat) (x : Copy) : (s.putCopy k x).tokenAt = s.tokenAt := rfl
@[simp] theorem State.putCopy_clusters (s : State) (k : Nat) (x : Copy) : (s.putCopy k x).clusters = s.clusters := rfl
@[simp] theorem State.putCopy_retImages (s : State) (k : Nat) (x : Copy) : (s.putCopy k x).retImages = s.retImages := rfl
@[simp] theorem State.putCopy_th (s : State) (k : Nat) (x : Copy) : (s.putCopy k x).th = s.th := rfl
@[simp] theorem State.putCopy_heatStop (s : State) (k : Nat) (x : Copy) : (s.putCopy k x).heatStop = s.heatStop := rfl
@[simp] theorem State.putCopy_ptp (s : State) (k : Nat) (x : Copy) : (s.putCopy k x).ptp = s.ptp := rfl
@[simp] theorem State.putCopy_ptpTx (s : State) (k : Nat) (x : Copy) : (s.putCopy k x).ptpTx = s.ptpTx := rfl
@[simp] theorem State.putCopy_ingDrops (s : State) (k : Nat) (x : Copy) : (s.putCopy k x).ingDrops = s.ingDrops := rfl
@[simp] theorem State.putCopy_ingSeq (s : State) (k : Nat) (x : Copy) : (s.putCopy k x).ingSeq = s.ingSeq := rfl
@[simp] theorem State.putCopy_link (s : State) (k : Nat) (x : Copy) : (s.putCopy k x).link = s.link := rfl
@[simp] theorem State.putCopy_msix (s : State) (k : Nat) (x : Copy) : (s.putCopy k x).msix = s.msix := rfl
@[simp] theorem State.putCopy_msixOn (s : State) (k : Nat) (x : Copy) : (s.putCopy k x).msixOn = s.msixOn := rfl
@[simp] theorem State.putCopy_msixOpen (s : State) (k : Nat) (x : Copy) : (s.putCopy k x).msixOpen = s.msixOpen := rfl
@[simp] theorem State.putCopy_qEvents (s : State) (k : Nat) (x : Copy) : (s.putCopy k x).qEvents = s.qEvents := rfl
@[simp] theorem State.putCopy_hdm (s : State) (k : Nat) (x : Copy) : (s.putCopy k x).hdm = s.hdm := rfl
@[simp] theorem State.putCopy_cxlRas (s : State) (k : Nat) (x : Copy) : (s.putCopy k x).cxlRas = s.cxlRas := rfl
@[simp] theorem State.putCopy_aer (s : State) (k : Nat) (x : Copy) : (s.putCopy k x).aer = s.aer := rfl
@[simp] theorem State.putCopy_cxlRead (s : State) (k : Nat) (x : Copy) : (s.putCopy k x).cxlRead = s.cxlRead := rfl
@[simp] theorem State.putCopy_barRead (s : State) (k : Nat) (x : Copy) : (s.putCopy k x).barRead = s.barRead := rfl
@[simp] theorem State.putCopy_doe (s : State) (k : Nat) (x : Copy) : (s.putCopy k x).doe = s.doe := rfl
@[simp] theorem State.putCopy_sealSeq (s : State) (k : Nat) (x : Copy) : (s.putCopy k x).sealSeq = s.sealSeq := rfl
@[simp] theorem State.putCopy_sealFwd (s : State) (k : Nat) (x : Copy) : (s.putCopy k x).sealFwd = s.sealFwd := rfl
@[simp] theorem State.putCopy_fwRoot (s : State) (k : Nat) (x : Copy) : (s.putCopy k x).fwRoot = s.fwRoot := rfl
@[simp] theorem State.putCopy_agentEntry (s : State) (k : Nat) (x : Copy) : (s.putCopy k x).agentEntry = s.agentEntry := rfl
@[simp] theorem State.putCopy_fwVersion (s : State) (k : Nat) (x : Copy) : (s.putCopy k x).fwVersion = s.fwVersion := rfl
@[simp] theorem State.putCopy_fwDigest (s : State) (k : Nat) (x : Copy) : (s.putCopy k x).fwDigest = s.fwDigest := rfl
@[simp] theorem State.putCopy_mbox (s : State) (k : Nat) (x : Copy) : (s.putCopy k x).mbox = s.mbox := rfl
@[simp] theorem State.putCopy_boot (s : State) (k : Nat) (x : Copy) : (s.putCopy k x).boot = s.boot := rfl

/-! ### State.dropCopy -/

@[simp] theorem State.dropCopy_agenda (s : State) (k : Nat) : (s.dropCopy k).agenda = s.agenda := rfl
@[simp] theorem State.dropCopy_tick (s : State) (k : Nat) : (s.dropCopy k).tick = s.tick := rfl
@[simp] theorem State.dropCopy_fresh (s : State) (k : Nat) : (s.dropCopy k).fresh = s.fresh := rfl
@[simp] theorem State.dropCopy_cur (s : State) (k : Nat) : (s.dropCopy k).cur = s.cur := rfl
@[simp] theorem State.dropCopy_curStream (s : State) (k : Nat) : (s.dropCopy k).curStream = s.curStream := rfl
@[simp] theorem State.dropCopy_nextUid (s : State) (k : Nat) : (s.dropCopy k).nextUid = s.nextUid := rfl
@[simp] theorem State.dropCopy_ns (s : State) (k : Nat) : (s.dropCopy k).ns = s.ns := rfl
@[simp] theorem State.dropCopy_teams (s : State) (k : Nat) : (s.dropCopy k).teams = s.teams := rfl
@[simp] theorem State.dropCopy_wgs (s : State) (k : Nat) : (s.dropCopy k).wgs = s.wgs := rfl
@[simp] theorem State.dropCopy_launches (s : State) (k : Nat) : (s.dropCopy k).launches = s.launches := rfl
@[simp] theorem State.dropCopy_graphs (s : State) (k : Nat) : (s.dropCopy k).graphs = s.graphs := rfl
@[simp] theorem State.dropCopy_queues (s : State) (k : Nat) : (s.dropCopy k).queues = s.queues := rfl
@[simp] theorem State.dropCopy_streams (s : State) (k : Nat) : (s.dropCopy k).streams = s.streams := rfl
@[simp] theorem State.dropCopy_hbm (s : State) (k : Nat) : (s.dropCopy k).hbm = s.hbm := rfl
@[simp] theorem State.dropCopy_caddies (s : State) (k : Nat) : (s.dropCopy k).caddies = s.caddies := rfl
@[simp] theorem State.dropCopy_treeAlt (s : State) (k : Nat) : (s.dropCopy k).treeAlt = s.treeAlt := rfl
@[simp] theorem State.dropCopy_openTiles (s : State) (k : Nat) : (s.dropCopy k).openTiles = s.openTiles := rfl
@[simp] theorem State.dropCopy_flight (s : State) (k : Nat) : (s.dropCopy k).flight = s.flight := rfl
@[simp] theorem State.dropCopy_keyValid (s : State) (k : Nat) : (s.dropCopy k).keyValid = s.keyValid := rfl
@[simp] theorem State.dropCopy_keyVal (s : State) (k : Nat) : (s.dropCopy k).keyVal = s.keyVal := rfl
@[simp] theorem State.dropCopy_host (s : State) (k : Nat) : (s.dropCopy k).host = s.host := rfl
@[simp] theorem State.dropCopy_scratch (s : State) (k : Nat) : (s.dropCopy k).scratch = s.scratch := rfl
@[simp] theorem State.dropCopy_scratchBad (s : State) (k : Nat) : (s.dropCopy k).scratchBad = s.scratchBad := rfl
@[simp] theorem State.dropCopy_dev (s : State) (k : Nat) : (s.dropCopy k).dev = s.dev := rfl
@[simp] theorem State.dropCopy_tlb1 (s : State) (k : Nat) : (s.dropCopy k).tlb1 = s.tlb1 := rfl
@[simp] theorem State.dropCopy_tlb2 (s : State) (k : Nat) : (s.dropCopy k).tlb2 = s.tlb2 := rfl
@[simp] theorem State.dropCopy_loopBuf (s : State) (k : Nat) : (s.dropCopy k).loopBuf = s.loopBuf := rfl
@[simp] theorem State.dropCopy_wake (s : State) (k : Nat) : (s.dropCopy k).wake = s.wake := rfl
@[simp] theorem State.dropCopy_reqs (s : State) (k : Nat) : (s.dropCopy k).reqs = s.reqs := rfl
@[simp] theorem State.dropCopy_foldOrder (s : State) (k : Nat) : (s.dropCopy k).foldOrder = s.foldOrder := rfl
@[simp] theorem State.dropCopy_roomBack (s : State) (k : Nat) : (s.dropCopy k).roomBack = s.roomBack := rfl
@[simp] theorem State.dropCopy_parts (s : State) (k : Nat) : (s.dropCopy k).parts = s.parts := rfl
@[simp] theorem State.dropCopy_partOp (s : State) (k : Nat) : (s.dropCopy k).partOp = s.partOp := rfl
@[simp] theorem State.dropCopy_pool (s : State) (k : Nat) : (s.dropCopy k).pool = s.pool := rfl
@[simp] theorem State.dropCopy_tokenAt (s : State) (k : Nat) : (s.dropCopy k).tokenAt = s.tokenAt := rfl
@[simp] theorem State.dropCopy_clusters (s : State) (k : Nat) : (s.dropCopy k).clusters = s.clusters := rfl
@[simp] theorem State.dropCopy_retImages (s : State) (k : Nat) : (s.dropCopy k).retImages = s.retImages := rfl
@[simp] theorem State.dropCopy_th (s : State) (k : Nat) : (s.dropCopy k).th = s.th := rfl
@[simp] theorem State.dropCopy_heatStop (s : State) (k : Nat) : (s.dropCopy k).heatStop = s.heatStop := rfl
@[simp] theorem State.dropCopy_ptp (s : State) (k : Nat) : (s.dropCopy k).ptp = s.ptp := rfl
@[simp] theorem State.dropCopy_ptpTx (s : State) (k : Nat) : (s.dropCopy k).ptpTx = s.ptpTx := rfl
@[simp] theorem State.dropCopy_ingDrops (s : State) (k : Nat) : (s.dropCopy k).ingDrops = s.ingDrops := rfl
@[simp] theorem State.dropCopy_ingSeq (s : State) (k : Nat) : (s.dropCopy k).ingSeq = s.ingSeq := rfl
@[simp] theorem State.dropCopy_link (s : State) (k : Nat) : (s.dropCopy k).link = s.link := rfl
@[simp] theorem State.dropCopy_msix (s : State) (k : Nat) : (s.dropCopy k).msix = s.msix := rfl
@[simp] theorem State.dropCopy_msixOn (s : State) (k : Nat) : (s.dropCopy k).msixOn = s.msixOn := rfl
@[simp] theorem State.dropCopy_msixOpen (s : State) (k : Nat) : (s.dropCopy k).msixOpen = s.msixOpen := rfl
@[simp] theorem State.dropCopy_qEvents (s : State) (k : Nat) : (s.dropCopy k).qEvents = s.qEvents := rfl
@[simp] theorem State.dropCopy_hdm (s : State) (k : Nat) : (s.dropCopy k).hdm = s.hdm := rfl
@[simp] theorem State.dropCopy_cxlRas (s : State) (k : Nat) : (s.dropCopy k).cxlRas = s.cxlRas := rfl
@[simp] theorem State.dropCopy_aer (s : State) (k : Nat) : (s.dropCopy k).aer = s.aer := rfl
@[simp] theorem State.dropCopy_cxlRead (s : State) (k : Nat) : (s.dropCopy k).cxlRead = s.cxlRead := rfl
@[simp] theorem State.dropCopy_barRead (s : State) (k : Nat) : (s.dropCopy k).barRead = s.barRead := rfl
@[simp] theorem State.dropCopy_doe (s : State) (k : Nat) : (s.dropCopy k).doe = s.doe := rfl
@[simp] theorem State.dropCopy_sealSeq (s : State) (k : Nat) : (s.dropCopy k).sealSeq = s.sealSeq := rfl
@[simp] theorem State.dropCopy_sealFwd (s : State) (k : Nat) : (s.dropCopy k).sealFwd = s.sealFwd := rfl
@[simp] theorem State.dropCopy_fwRoot (s : State) (k : Nat) : (s.dropCopy k).fwRoot = s.fwRoot := rfl
@[simp] theorem State.dropCopy_agentEntry (s : State) (k : Nat) : (s.dropCopy k).agentEntry = s.agentEntry := rfl
@[simp] theorem State.dropCopy_fwVersion (s : State) (k : Nat) : (s.dropCopy k).fwVersion = s.fwVersion := rfl
@[simp] theorem State.dropCopy_fwDigest (s : State) (k : Nat) : (s.dropCopy k).fwDigest = s.fwDigest := rfl
@[simp] theorem State.dropCopy_mbox (s : State) (k : Nat) : (s.dropCopy k).mbox = s.mbox := rfl
@[simp] theorem State.dropCopy_boot (s : State) (k : Nat) : (s.dropCopy k).boot = s.boot := rfl

/-! ### State.putStream -/

@[simp] theorem State.putStream_agenda (s : State) (k : Nat) (x : Stream) : (s.putStream k x).agenda = s.agenda := rfl
@[simp] theorem State.putStream_tick (s : State) (k : Nat) (x : Stream) : (s.putStream k x).tick = s.tick := rfl
@[simp] theorem State.putStream_fresh (s : State) (k : Nat) (x : Stream) : (s.putStream k x).fresh = s.fresh := rfl
@[simp] theorem State.putStream_cur (s : State) (k : Nat) (x : Stream) : (s.putStream k x).cur = s.cur := rfl
@[simp] theorem State.putStream_curStream (s : State) (k : Nat) (x : Stream) : (s.putStream k x).curStream = s.curStream := rfl
@[simp] theorem State.putStream_nextUid (s : State) (k : Nat) (x : Stream) : (s.putStream k x).nextUid = s.nextUid := rfl
@[simp] theorem State.putStream_ns (s : State) (k : Nat) (x : Stream) : (s.putStream k x).ns = s.ns := rfl
@[simp] theorem State.putStream_teams (s : State) (k : Nat) (x : Stream) : (s.putStream k x).teams = s.teams := rfl
@[simp] theorem State.putStream_wgs (s : State) (k : Nat) (x : Stream) : (s.putStream k x).wgs = s.wgs := rfl
@[simp] theorem State.putStream_launches (s : State) (k : Nat) (x : Stream) : (s.putStream k x).launches = s.launches := rfl
@[simp] theorem State.putStream_graphs (s : State) (k : Nat) (x : Stream) : (s.putStream k x).graphs = s.graphs := rfl
@[simp] theorem State.putStream_queues (s : State) (k : Nat) (x : Stream) : (s.putStream k x).queues = s.queues := rfl
@[simp] theorem State.putStream_copies (s : State) (k : Nat) (x : Stream) : (s.putStream k x).copies = s.copies := rfl
@[simp] theorem State.putStream_hbm (s : State) (k : Nat) (x : Stream) : (s.putStream k x).hbm = s.hbm := rfl
@[simp] theorem State.putStream_caddies (s : State) (k : Nat) (x : Stream) : (s.putStream k x).caddies = s.caddies := rfl
@[simp] theorem State.putStream_treeAlt (s : State) (k : Nat) (x : Stream) : (s.putStream k x).treeAlt = s.treeAlt := rfl
@[simp] theorem State.putStream_openTiles (s : State) (k : Nat) (x : Stream) : (s.putStream k x).openTiles = s.openTiles := rfl
@[simp] theorem State.putStream_flight (s : State) (k : Nat) (x : Stream) : (s.putStream k x).flight = s.flight := rfl
@[simp] theorem State.putStream_keyValid (s : State) (k : Nat) (x : Stream) : (s.putStream k x).keyValid = s.keyValid := rfl
@[simp] theorem State.putStream_keyVal (s : State) (k : Nat) (x : Stream) : (s.putStream k x).keyVal = s.keyVal := rfl
@[simp] theorem State.putStream_host (s : State) (k : Nat) (x : Stream) : (s.putStream k x).host = s.host := rfl
@[simp] theorem State.putStream_scratch (s : State) (k : Nat) (x : Stream) : (s.putStream k x).scratch = s.scratch := rfl
@[simp] theorem State.putStream_scratchBad (s : State) (k : Nat) (x : Stream) : (s.putStream k x).scratchBad = s.scratchBad := rfl
@[simp] theorem State.putStream_dev (s : State) (k : Nat) (x : Stream) : (s.putStream k x).dev = s.dev := rfl
@[simp] theorem State.putStream_tlb1 (s : State) (k : Nat) (x : Stream) : (s.putStream k x).tlb1 = s.tlb1 := rfl
@[simp] theorem State.putStream_tlb2 (s : State) (k : Nat) (x : Stream) : (s.putStream k x).tlb2 = s.tlb2 := rfl
@[simp] theorem State.putStream_loopBuf (s : State) (k : Nat) (x : Stream) : (s.putStream k x).loopBuf = s.loopBuf := rfl
@[simp] theorem State.putStream_wake (s : State) (k : Nat) (x : Stream) : (s.putStream k x).wake = s.wake := rfl
@[simp] theorem State.putStream_reqs (s : State) (k : Nat) (x : Stream) : (s.putStream k x).reqs = s.reqs := rfl
@[simp] theorem State.putStream_foldOrder (s : State) (k : Nat) (x : Stream) : (s.putStream k x).foldOrder = s.foldOrder := rfl
@[simp] theorem State.putStream_roomBack (s : State) (k : Nat) (x : Stream) : (s.putStream k x).roomBack = s.roomBack := rfl
@[simp] theorem State.putStream_parts (s : State) (k : Nat) (x : Stream) : (s.putStream k x).parts = s.parts := rfl
@[simp] theorem State.putStream_partOp (s : State) (k : Nat) (x : Stream) : (s.putStream k x).partOp = s.partOp := rfl
@[simp] theorem State.putStream_pool (s : State) (k : Nat) (x : Stream) : (s.putStream k x).pool = s.pool := rfl
@[simp] theorem State.putStream_tokenAt (s : State) (k : Nat) (x : Stream) : (s.putStream k x).tokenAt = s.tokenAt := rfl
@[simp] theorem State.putStream_clusters (s : State) (k : Nat) (x : Stream) : (s.putStream k x).clusters = s.clusters := rfl
@[simp] theorem State.putStream_retImages (s : State) (k : Nat) (x : Stream) : (s.putStream k x).retImages = s.retImages := rfl
@[simp] theorem State.putStream_th (s : State) (k : Nat) (x : Stream) : (s.putStream k x).th = s.th := rfl
@[simp] theorem State.putStream_heatStop (s : State) (k : Nat) (x : Stream) : (s.putStream k x).heatStop = s.heatStop := rfl
@[simp] theorem State.putStream_ptp (s : State) (k : Nat) (x : Stream) : (s.putStream k x).ptp = s.ptp := rfl
@[simp] theorem State.putStream_ptpTx (s : State) (k : Nat) (x : Stream) : (s.putStream k x).ptpTx = s.ptpTx := rfl
@[simp] theorem State.putStream_ingDrops (s : State) (k : Nat) (x : Stream) : (s.putStream k x).ingDrops = s.ingDrops := rfl
@[simp] theorem State.putStream_ingSeq (s : State) (k : Nat) (x : Stream) : (s.putStream k x).ingSeq = s.ingSeq := rfl
@[simp] theorem State.putStream_link (s : State) (k : Nat) (x : Stream) : (s.putStream k x).link = s.link := rfl
@[simp] theorem State.putStream_msix (s : State) (k : Nat) (x : Stream) : (s.putStream k x).msix = s.msix := rfl
@[simp] theorem State.putStream_msixOn (s : State) (k : Nat) (x : Stream) : (s.putStream k x).msixOn = s.msixOn := rfl
@[simp] theorem State.putStream_msixOpen (s : State) (k : Nat) (x : Stream) : (s.putStream k x).msixOpen = s.msixOpen := rfl
@[simp] theorem State.putStream_qEvents (s : State) (k : Nat) (x : Stream) : (s.putStream k x).qEvents = s.qEvents := rfl
@[simp] theorem State.putStream_hdm (s : State) (k : Nat) (x : Stream) : (s.putStream k x).hdm = s.hdm := rfl
@[simp] theorem State.putStream_cxlRas (s : State) (k : Nat) (x : Stream) : (s.putStream k x).cxlRas = s.cxlRas := rfl
@[simp] theorem State.putStream_aer (s : State) (k : Nat) (x : Stream) : (s.putStream k x).aer = s.aer := rfl
@[simp] theorem State.putStream_cxlRead (s : State) (k : Nat) (x : Stream) : (s.putStream k x).cxlRead = s.cxlRead := rfl
@[simp] theorem State.putStream_barRead (s : State) (k : Nat) (x : Stream) : (s.putStream k x).barRead = s.barRead := rfl
@[simp] theorem State.putStream_doe (s : State) (k : Nat) (x : Stream) : (s.putStream k x).doe = s.doe := rfl
@[simp] theorem State.putStream_sealSeq (s : State) (k : Nat) (x : Stream) : (s.putStream k x).sealSeq = s.sealSeq := rfl
@[simp] theorem State.putStream_sealFwd (s : State) (k : Nat) (x : Stream) : (s.putStream k x).sealFwd = s.sealFwd := rfl
@[simp] theorem State.putStream_fwRoot (s : State) (k : Nat) (x : Stream) : (s.putStream k x).fwRoot = s.fwRoot := rfl
@[simp] theorem State.putStream_agentEntry (s : State) (k : Nat) (x : Stream) : (s.putStream k x).agentEntry = s.agentEntry := rfl
@[simp] theorem State.putStream_fwVersion (s : State) (k : Nat) (x : Stream) : (s.putStream k x).fwVersion = s.fwVersion := rfl
@[simp] theorem State.putStream_fwDigest (s : State) (k : Nat) (x : Stream) : (s.putStream k x).fwDigest = s.fwDigest := rfl
@[simp] theorem State.putStream_mbox (s : State) (k : Nat) (x : Stream) : (s.putStream k x).mbox = s.mbox := rfl
@[simp] theorem State.putStream_boot (s : State) (k : Nat) (x : Stream) : (s.putStream k x).boot = s.boot := rfl

/-! ### State.dropStream -/

@[simp] theorem State.dropStream_agenda (s : State) (k : Nat) : (s.dropStream k).agenda = s.agenda := rfl
@[simp] theorem State.dropStream_tick (s : State) (k : Nat) : (s.dropStream k).tick = s.tick := rfl
@[simp] theorem State.dropStream_fresh (s : State) (k : Nat) : (s.dropStream k).fresh = s.fresh := rfl
@[simp] theorem State.dropStream_cur (s : State) (k : Nat) : (s.dropStream k).cur = s.cur := rfl
@[simp] theorem State.dropStream_curStream (s : State) (k : Nat) : (s.dropStream k).curStream = s.curStream := rfl
@[simp] theorem State.dropStream_nextUid (s : State) (k : Nat) : (s.dropStream k).nextUid = s.nextUid := rfl
@[simp] theorem State.dropStream_ns (s : State) (k : Nat) : (s.dropStream k).ns = s.ns := rfl
@[simp] theorem State.dropStream_teams (s : State) (k : Nat) : (s.dropStream k).teams = s.teams := rfl
@[simp] theorem State.dropStream_wgs (s : State) (k : Nat) : (s.dropStream k).wgs = s.wgs := rfl
@[simp] theorem State.dropStream_launches (s : State) (k : Nat) : (s.dropStream k).launches = s.launches := rfl
@[simp] theorem State.dropStream_graphs (s : State) (k : Nat) : (s.dropStream k).graphs = s.graphs := rfl
@[simp] theorem State.dropStream_queues (s : State) (k : Nat) : (s.dropStream k).queues = s.queues := rfl
@[simp] theorem State.dropStream_copies (s : State) (k : Nat) : (s.dropStream k).copies = s.copies := rfl
@[simp] theorem State.dropStream_hbm (s : State) (k : Nat) : (s.dropStream k).hbm = s.hbm := rfl
@[simp] theorem State.dropStream_caddies (s : State) (k : Nat) : (s.dropStream k).caddies = s.caddies := rfl
@[simp] theorem State.dropStream_treeAlt (s : State) (k : Nat) : (s.dropStream k).treeAlt = s.treeAlt := rfl
@[simp] theorem State.dropStream_openTiles (s : State) (k : Nat) : (s.dropStream k).openTiles = s.openTiles := rfl
@[simp] theorem State.dropStream_flight (s : State) (k : Nat) : (s.dropStream k).flight = s.flight := rfl
@[simp] theorem State.dropStream_keyValid (s : State) (k : Nat) : (s.dropStream k).keyValid = s.keyValid := rfl
@[simp] theorem State.dropStream_keyVal (s : State) (k : Nat) : (s.dropStream k).keyVal = s.keyVal := rfl
@[simp] theorem State.dropStream_host (s : State) (k : Nat) : (s.dropStream k).host = s.host := rfl
@[simp] theorem State.dropStream_scratch (s : State) (k : Nat) : (s.dropStream k).scratch = s.scratch := rfl
@[simp] theorem State.dropStream_scratchBad (s : State) (k : Nat) : (s.dropStream k).scratchBad = s.scratchBad := rfl
@[simp] theorem State.dropStream_dev (s : State) (k : Nat) : (s.dropStream k).dev = s.dev := rfl
@[simp] theorem State.dropStream_tlb1 (s : State) (k : Nat) : (s.dropStream k).tlb1 = s.tlb1 := rfl
@[simp] theorem State.dropStream_tlb2 (s : State) (k : Nat) : (s.dropStream k).tlb2 = s.tlb2 := rfl
@[simp] theorem State.dropStream_loopBuf (s : State) (k : Nat) : (s.dropStream k).loopBuf = s.loopBuf := rfl
@[simp] theorem State.dropStream_wake (s : State) (k : Nat) : (s.dropStream k).wake = s.wake := rfl
@[simp] theorem State.dropStream_reqs (s : State) (k : Nat) : (s.dropStream k).reqs = s.reqs := rfl
@[simp] theorem State.dropStream_foldOrder (s : State) (k : Nat) : (s.dropStream k).foldOrder = s.foldOrder := rfl
@[simp] theorem State.dropStream_roomBack (s : State) (k : Nat) : (s.dropStream k).roomBack = s.roomBack := rfl
@[simp] theorem State.dropStream_parts (s : State) (k : Nat) : (s.dropStream k).parts = s.parts := rfl
@[simp] theorem State.dropStream_partOp (s : State) (k : Nat) : (s.dropStream k).partOp = s.partOp := rfl
@[simp] theorem State.dropStream_pool (s : State) (k : Nat) : (s.dropStream k).pool = s.pool := rfl
@[simp] theorem State.dropStream_tokenAt (s : State) (k : Nat) : (s.dropStream k).tokenAt = s.tokenAt := rfl
@[simp] theorem State.dropStream_clusters (s : State) (k : Nat) : (s.dropStream k).clusters = s.clusters := rfl
@[simp] theorem State.dropStream_retImages (s : State) (k : Nat) : (s.dropStream k).retImages = s.retImages := rfl
@[simp] theorem State.dropStream_th (s : State) (k : Nat) : (s.dropStream k).th = s.th := rfl
@[simp] theorem State.dropStream_heatStop (s : State) (k : Nat) : (s.dropStream k).heatStop = s.heatStop := rfl
@[simp] theorem State.dropStream_ptp (s : State) (k : Nat) : (s.dropStream k).ptp = s.ptp := rfl
@[simp] theorem State.dropStream_ptpTx (s : State) (k : Nat) : (s.dropStream k).ptpTx = s.ptpTx := rfl
@[simp] theorem State.dropStream_ingDrops (s : State) (k : Nat) : (s.dropStream k).ingDrops = s.ingDrops := rfl
@[simp] theorem State.dropStream_ingSeq (s : State) (k : Nat) : (s.dropStream k).ingSeq = s.ingSeq := rfl
@[simp] theorem State.dropStream_link (s : State) (k : Nat) : (s.dropStream k).link = s.link := rfl
@[simp] theorem State.dropStream_msix (s : State) (k : Nat) : (s.dropStream k).msix = s.msix := rfl
@[simp] theorem State.dropStream_msixOn (s : State) (k : Nat) : (s.dropStream k).msixOn = s.msixOn := rfl
@[simp] theorem State.dropStream_msixOpen (s : State) (k : Nat) : (s.dropStream k).msixOpen = s.msixOpen := rfl
@[simp] theorem State.dropStream_qEvents (s : State) (k : Nat) : (s.dropStream k).qEvents = s.qEvents := rfl
@[simp] theorem State.dropStream_hdm (s : State) (k : Nat) : (s.dropStream k).hdm = s.hdm := rfl
@[simp] theorem State.dropStream_cxlRas (s : State) (k : Nat) : (s.dropStream k).cxlRas = s.cxlRas := rfl
@[simp] theorem State.dropStream_aer (s : State) (k : Nat) : (s.dropStream k).aer = s.aer := rfl
@[simp] theorem State.dropStream_cxlRead (s : State) (k : Nat) : (s.dropStream k).cxlRead = s.cxlRead := rfl
@[simp] theorem State.dropStream_barRead (s : State) (k : Nat) : (s.dropStream k).barRead = s.barRead := rfl
@[simp] theorem State.dropStream_doe (s : State) (k : Nat) : (s.dropStream k).doe = s.doe := rfl
@[simp] theorem State.dropStream_sealSeq (s : State) (k : Nat) : (s.dropStream k).sealSeq = s.sealSeq := rfl
@[simp] theorem State.dropStream_sealFwd (s : State) (k : Nat) : (s.dropStream k).sealFwd = s.sealFwd := rfl
@[simp] theorem State.dropStream_fwRoot (s : State) (k : Nat) : (s.dropStream k).fwRoot = s.fwRoot := rfl
@[simp] theorem State.dropStream_agentEntry (s : State) (k : Nat) : (s.dropStream k).agentEntry = s.agentEntry := rfl
@[simp] theorem State.dropStream_fwVersion (s : State) (k : Nat) : (s.dropStream k).fwVersion = s.fwVersion := rfl
@[simp] theorem State.dropStream_fwDigest (s : State) (k : Nat) : (s.dropStream k).fwDigest = s.fwDigest := rfl
@[simp] theorem State.dropStream_mbox (s : State) (k : Nat) : (s.dropStream k).mbox = s.mbox := rfl
@[simp] theorem State.dropStream_boot (s : State) (k : Nat) : (s.dropStream k).boot = s.boot := rfl

/-! ### State.putPart -/

@[simp] theorem State.putPart_agenda (s : State) (n : Nat) (x : Part) : (s.putPart n x).agenda = s.agenda := rfl
@[simp] theorem State.putPart_tick (s : State) (n : Nat) (x : Part) : (s.putPart n x).tick = s.tick := rfl
@[simp] theorem State.putPart_fresh (s : State) (n : Nat) (x : Part) : (s.putPart n x).fresh = s.fresh := rfl
@[simp] theorem State.putPart_cur (s : State) (n : Nat) (x : Part) : (s.putPart n x).cur = s.cur := rfl
@[simp] theorem State.putPart_curStream (s : State) (n : Nat) (x : Part) : (s.putPart n x).curStream = s.curStream := rfl
@[simp] theorem State.putPart_nextUid (s : State) (n : Nat) (x : Part) : (s.putPart n x).nextUid = s.nextUid := rfl
@[simp] theorem State.putPart_ns (s : State) (n : Nat) (x : Part) : (s.putPart n x).ns = s.ns := rfl
@[simp] theorem State.putPart_teams (s : State) (n : Nat) (x : Part) : (s.putPart n x).teams = s.teams := rfl
@[simp] theorem State.putPart_wgs (s : State) (n : Nat) (x : Part) : (s.putPart n x).wgs = s.wgs := rfl
@[simp] theorem State.putPart_launches (s : State) (n : Nat) (x : Part) : (s.putPart n x).launches = s.launches := rfl
@[simp] theorem State.putPart_graphs (s : State) (n : Nat) (x : Part) : (s.putPart n x).graphs = s.graphs := rfl
@[simp] theorem State.putPart_queues (s : State) (n : Nat) (x : Part) : (s.putPart n x).queues = s.queues := rfl
@[simp] theorem State.putPart_copies (s : State) (n : Nat) (x : Part) : (s.putPart n x).copies = s.copies := rfl
@[simp] theorem State.putPart_streams (s : State) (n : Nat) (x : Part) : (s.putPart n x).streams = s.streams := rfl
@[simp] theorem State.putPart_hbm (s : State) (n : Nat) (x : Part) : (s.putPart n x).hbm = s.hbm := rfl
@[simp] theorem State.putPart_caddies (s : State) (n : Nat) (x : Part) : (s.putPart n x).caddies = s.caddies := rfl
@[simp] theorem State.putPart_treeAlt (s : State) (n : Nat) (x : Part) : (s.putPart n x).treeAlt = s.treeAlt := rfl
@[simp] theorem State.putPart_openTiles (s : State) (n : Nat) (x : Part) : (s.putPart n x).openTiles = s.openTiles := rfl
@[simp] theorem State.putPart_flight (s : State) (n : Nat) (x : Part) : (s.putPart n x).flight = s.flight := rfl
@[simp] theorem State.putPart_keyValid (s : State) (n : Nat) (x : Part) : (s.putPart n x).keyValid = s.keyValid := rfl
@[simp] theorem State.putPart_keyVal (s : State) (n : Nat) (x : Part) : (s.putPart n x).keyVal = s.keyVal := rfl
@[simp] theorem State.putPart_host (s : State) (n : Nat) (x : Part) : (s.putPart n x).host = s.host := rfl
@[simp] theorem State.putPart_scratch (s : State) (n : Nat) (x : Part) : (s.putPart n x).scratch = s.scratch := rfl
@[simp] theorem State.putPart_scratchBad (s : State) (n : Nat) (x : Part) : (s.putPart n x).scratchBad = s.scratchBad := rfl
@[simp] theorem State.putPart_dev (s : State) (n : Nat) (x : Part) : (s.putPart n x).dev = s.dev := rfl
@[simp] theorem State.putPart_tlb1 (s : State) (n : Nat) (x : Part) : (s.putPart n x).tlb1 = s.tlb1 := rfl
@[simp] theorem State.putPart_tlb2 (s : State) (n : Nat) (x : Part) : (s.putPart n x).tlb2 = s.tlb2 := rfl
@[simp] theorem State.putPart_loopBuf (s : State) (n : Nat) (x : Part) : (s.putPart n x).loopBuf = s.loopBuf := rfl
@[simp] theorem State.putPart_wake (s : State) (n : Nat) (x : Part) : (s.putPart n x).wake = s.wake := rfl
@[simp] theorem State.putPart_reqs (s : State) (n : Nat) (x : Part) : (s.putPart n x).reqs = s.reqs := rfl
@[simp] theorem State.putPart_foldOrder (s : State) (n : Nat) (x : Part) : (s.putPart n x).foldOrder = s.foldOrder := rfl
@[simp] theorem State.putPart_roomBack (s : State) (n : Nat) (x : Part) : (s.putPart n x).roomBack = s.roomBack := rfl
@[simp] theorem State.putPart_partOp (s : State) (n : Nat) (x : Part) : (s.putPart n x).partOp = s.partOp := rfl
@[simp] theorem State.putPart_pool (s : State) (n : Nat) (x : Part) : (s.putPart n x).pool = s.pool := rfl
@[simp] theorem State.putPart_tokenAt (s : State) (n : Nat) (x : Part) : (s.putPart n x).tokenAt = s.tokenAt := rfl
@[simp] theorem State.putPart_clusters (s : State) (n : Nat) (x : Part) : (s.putPart n x).clusters = s.clusters := rfl
@[simp] theorem State.putPart_retImages (s : State) (n : Nat) (x : Part) : (s.putPart n x).retImages = s.retImages := rfl
@[simp] theorem State.putPart_th (s : State) (n : Nat) (x : Part) : (s.putPart n x).th = s.th := rfl
@[simp] theorem State.putPart_heatStop (s : State) (n : Nat) (x : Part) : (s.putPart n x).heatStop = s.heatStop := rfl
@[simp] theorem State.putPart_ptp (s : State) (n : Nat) (x : Part) : (s.putPart n x).ptp = s.ptp := rfl
@[simp] theorem State.putPart_ptpTx (s : State) (n : Nat) (x : Part) : (s.putPart n x).ptpTx = s.ptpTx := rfl
@[simp] theorem State.putPart_ingDrops (s : State) (n : Nat) (x : Part) : (s.putPart n x).ingDrops = s.ingDrops := rfl
@[simp] theorem State.putPart_ingSeq (s : State) (n : Nat) (x : Part) : (s.putPart n x).ingSeq = s.ingSeq := rfl
@[simp] theorem State.putPart_link (s : State) (n : Nat) (x : Part) : (s.putPart n x).link = s.link := rfl
@[simp] theorem State.putPart_msix (s : State) (n : Nat) (x : Part) : (s.putPart n x).msix = s.msix := rfl
@[simp] theorem State.putPart_msixOn (s : State) (n : Nat) (x : Part) : (s.putPart n x).msixOn = s.msixOn := rfl
@[simp] theorem State.putPart_msixOpen (s : State) (n : Nat) (x : Part) : (s.putPart n x).msixOpen = s.msixOpen := rfl
@[simp] theorem State.putPart_qEvents (s : State) (n : Nat) (x : Part) : (s.putPart n x).qEvents = s.qEvents := rfl
@[simp] theorem State.putPart_hdm (s : State) (n : Nat) (x : Part) : (s.putPart n x).hdm = s.hdm := rfl
@[simp] theorem State.putPart_cxlRas (s : State) (n : Nat) (x : Part) : (s.putPart n x).cxlRas = s.cxlRas := rfl
@[simp] theorem State.putPart_aer (s : State) (n : Nat) (x : Part) : (s.putPart n x).aer = s.aer := rfl
@[simp] theorem State.putPart_cxlRead (s : State) (n : Nat) (x : Part) : (s.putPart n x).cxlRead = s.cxlRead := rfl
@[simp] theorem State.putPart_barRead (s : State) (n : Nat) (x : Part) : (s.putPart n x).barRead = s.barRead := rfl
@[simp] theorem State.putPart_doe (s : State) (n : Nat) (x : Part) : (s.putPart n x).doe = s.doe := rfl
@[simp] theorem State.putPart_sealSeq (s : State) (n : Nat) (x : Part) : (s.putPart n x).sealSeq = s.sealSeq := rfl
@[simp] theorem State.putPart_sealFwd (s : State) (n : Nat) (x : Part) : (s.putPart n x).sealFwd = s.sealFwd := rfl
@[simp] theorem State.putPart_fwRoot (s : State) (n : Nat) (x : Part) : (s.putPart n x).fwRoot = s.fwRoot := rfl
@[simp] theorem State.putPart_agentEntry (s : State) (n : Nat) (x : Part) : (s.putPart n x).agentEntry = s.agentEntry := rfl
@[simp] theorem State.putPart_fwVersion (s : State) (n : Nat) (x : Part) : (s.putPart n x).fwVersion = s.fwVersion := rfl
@[simp] theorem State.putPart_fwDigest (s : State) (n : Nat) (x : Part) : (s.putPart n x).fwDigest = s.fwDigest := rfl
@[simp] theorem State.putPart_mbox (s : State) (n : Nat) (x : Part) : (s.putPart n x).mbox = s.mbox := rfl
@[simp] theorem State.putPart_boot (s : State) (n : Nat) (x : Part) : (s.putPart n x).boot = s.boot := rfl

/-! ### State.putCluster -/

@[simp] theorem State.putCluster_agenda (s : State) (c : Nat) (x : ClPower) : (s.putCluster c x).agenda = s.agenda := rfl
@[simp] theorem State.putCluster_tick (s : State) (c : Nat) (x : ClPower) : (s.putCluster c x).tick = s.tick := rfl
@[simp] theorem State.putCluster_fresh (s : State) (c : Nat) (x : ClPower) : (s.putCluster c x).fresh = s.fresh := rfl
@[simp] theorem State.putCluster_cur (s : State) (c : Nat) (x : ClPower) : (s.putCluster c x).cur = s.cur := rfl
@[simp] theorem State.putCluster_curStream (s : State) (c : Nat) (x : ClPower) : (s.putCluster c x).curStream = s.curStream := rfl
@[simp] theorem State.putCluster_nextUid (s : State) (c : Nat) (x : ClPower) : (s.putCluster c x).nextUid = s.nextUid := rfl
@[simp] theorem State.putCluster_ns (s : State) (c : Nat) (x : ClPower) : (s.putCluster c x).ns = s.ns := rfl
@[simp] theorem State.putCluster_teams (s : State) (c : Nat) (x : ClPower) : (s.putCluster c x).teams = s.teams := rfl
@[simp] theorem State.putCluster_wgs (s : State) (c : Nat) (x : ClPower) : (s.putCluster c x).wgs = s.wgs := rfl
@[simp] theorem State.putCluster_launches (s : State) (c : Nat) (x : ClPower) : (s.putCluster c x).launches = s.launches := rfl
@[simp] theorem State.putCluster_graphs (s : State) (c : Nat) (x : ClPower) : (s.putCluster c x).graphs = s.graphs := rfl
@[simp] theorem State.putCluster_queues (s : State) (c : Nat) (x : ClPower) : (s.putCluster c x).queues = s.queues := rfl
@[simp] theorem State.putCluster_copies (s : State) (c : Nat) (x : ClPower) : (s.putCluster c x).copies = s.copies := rfl
@[simp] theorem State.putCluster_streams (s : State) (c : Nat) (x : ClPower) : (s.putCluster c x).streams = s.streams := rfl
@[simp] theorem State.putCluster_hbm (s : State) (c : Nat) (x : ClPower) : (s.putCluster c x).hbm = s.hbm := rfl
@[simp] theorem State.putCluster_caddies (s : State) (c : Nat) (x : ClPower) : (s.putCluster c x).caddies = s.caddies := rfl
@[simp] theorem State.putCluster_treeAlt (s : State) (c : Nat) (x : ClPower) : (s.putCluster c x).treeAlt = s.treeAlt := rfl
@[simp] theorem State.putCluster_openTiles (s : State) (c : Nat) (x : ClPower) : (s.putCluster c x).openTiles = s.openTiles := rfl
@[simp] theorem State.putCluster_flight (s : State) (c : Nat) (x : ClPower) : (s.putCluster c x).flight = s.flight := rfl
@[simp] theorem State.putCluster_keyValid (s : State) (c : Nat) (x : ClPower) : (s.putCluster c x).keyValid = s.keyValid := rfl
@[simp] theorem State.putCluster_keyVal (s : State) (c : Nat) (x : ClPower) : (s.putCluster c x).keyVal = s.keyVal := rfl
@[simp] theorem State.putCluster_host (s : State) (c : Nat) (x : ClPower) : (s.putCluster c x).host = s.host := rfl
@[simp] theorem State.putCluster_scratch (s : State) (c : Nat) (x : ClPower) : (s.putCluster c x).scratch = s.scratch := rfl
@[simp] theorem State.putCluster_scratchBad (s : State) (c : Nat) (x : ClPower) : (s.putCluster c x).scratchBad = s.scratchBad := rfl
@[simp] theorem State.putCluster_dev (s : State) (c : Nat) (x : ClPower) : (s.putCluster c x).dev = s.dev := rfl
@[simp] theorem State.putCluster_tlb1 (s : State) (c : Nat) (x : ClPower) : (s.putCluster c x).tlb1 = s.tlb1 := rfl
@[simp] theorem State.putCluster_tlb2 (s : State) (c : Nat) (x : ClPower) : (s.putCluster c x).tlb2 = s.tlb2 := rfl
@[simp] theorem State.putCluster_loopBuf (s : State) (c : Nat) (x : ClPower) : (s.putCluster c x).loopBuf = s.loopBuf := rfl
@[simp] theorem State.putCluster_wake (s : State) (c : Nat) (x : ClPower) : (s.putCluster c x).wake = s.wake := rfl
@[simp] theorem State.putCluster_reqs (s : State) (c : Nat) (x : ClPower) : (s.putCluster c x).reqs = s.reqs := rfl
@[simp] theorem State.putCluster_foldOrder (s : State) (c : Nat) (x : ClPower) : (s.putCluster c x).foldOrder = s.foldOrder := rfl
@[simp] theorem State.putCluster_roomBack (s : State) (c : Nat) (x : ClPower) : (s.putCluster c x).roomBack = s.roomBack := rfl
@[simp] theorem State.putCluster_parts (s : State) (c : Nat) (x : ClPower) : (s.putCluster c x).parts = s.parts := rfl
@[simp] theorem State.putCluster_partOp (s : State) (c : Nat) (x : ClPower) : (s.putCluster c x).partOp = s.partOp := rfl
@[simp] theorem State.putCluster_pool (s : State) (c : Nat) (x : ClPower) : (s.putCluster c x).pool = s.pool := rfl
@[simp] theorem State.putCluster_tokenAt (s : State) (c : Nat) (x : ClPower) : (s.putCluster c x).tokenAt = s.tokenAt := rfl
@[simp] theorem State.putCluster_retImages (s : State) (c : Nat) (x : ClPower) : (s.putCluster c x).retImages = s.retImages := rfl
@[simp] theorem State.putCluster_th (s : State) (c : Nat) (x : ClPower) : (s.putCluster c x).th = s.th := rfl
@[simp] theorem State.putCluster_heatStop (s : State) (c : Nat) (x : ClPower) : (s.putCluster c x).heatStop = s.heatStop := rfl
@[simp] theorem State.putCluster_ptp (s : State) (c : Nat) (x : ClPower) : (s.putCluster c x).ptp = s.ptp := rfl
@[simp] theorem State.putCluster_ptpTx (s : State) (c : Nat) (x : ClPower) : (s.putCluster c x).ptpTx = s.ptpTx := rfl
@[simp] theorem State.putCluster_ingDrops (s : State) (c : Nat) (x : ClPower) : (s.putCluster c x).ingDrops = s.ingDrops := rfl
@[simp] theorem State.putCluster_ingSeq (s : State) (c : Nat) (x : ClPower) : (s.putCluster c x).ingSeq = s.ingSeq := rfl
@[simp] theorem State.putCluster_link (s : State) (c : Nat) (x : ClPower) : (s.putCluster c x).link = s.link := rfl
@[simp] theorem State.putCluster_msix (s : State) (c : Nat) (x : ClPower) : (s.putCluster c x).msix = s.msix := rfl
@[simp] theorem State.putCluster_msixOn (s : State) (c : Nat) (x : ClPower) : (s.putCluster c x).msixOn = s.msixOn := rfl
@[simp] theorem State.putCluster_msixOpen (s : State) (c : Nat) (x : ClPower) : (s.putCluster c x).msixOpen = s.msixOpen := rfl
@[simp] theorem State.putCluster_qEvents (s : State) (c : Nat) (x : ClPower) : (s.putCluster c x).qEvents = s.qEvents := rfl
@[simp] theorem State.putCluster_hdm (s : State) (c : Nat) (x : ClPower) : (s.putCluster c x).hdm = s.hdm := rfl
@[simp] theorem State.putCluster_cxlRas (s : State) (c : Nat) (x : ClPower) : (s.putCluster c x).cxlRas = s.cxlRas := rfl
@[simp] theorem State.putCluster_aer (s : State) (c : Nat) (x : ClPower) : (s.putCluster c x).aer = s.aer := rfl
@[simp] theorem State.putCluster_cxlRead (s : State) (c : Nat) (x : ClPower) : (s.putCluster c x).cxlRead = s.cxlRead := rfl
@[simp] theorem State.putCluster_barRead (s : State) (c : Nat) (x : ClPower) : (s.putCluster c x).barRead = s.barRead := rfl
@[simp] theorem State.putCluster_doe (s : State) (c : Nat) (x : ClPower) : (s.putCluster c x).doe = s.doe := rfl
@[simp] theorem State.putCluster_sealSeq (s : State) (c : Nat) (x : ClPower) : (s.putCluster c x).sealSeq = s.sealSeq := rfl
@[simp] theorem State.putCluster_sealFwd (s : State) (c : Nat) (x : ClPower) : (s.putCluster c x).sealFwd = s.sealFwd := rfl
@[simp] theorem State.putCluster_fwRoot (s : State) (c : Nat) (x : ClPower) : (s.putCluster c x).fwRoot = s.fwRoot := rfl
@[simp] theorem State.putCluster_agentEntry (s : State) (c : Nat) (x : ClPower) : (s.putCluster c x).agentEntry = s.agentEntry := rfl
@[simp] theorem State.putCluster_fwVersion (s : State) (c : Nat) (x : ClPower) : (s.putCluster c x).fwVersion = s.fwVersion := rfl
@[simp] theorem State.putCluster_fwDigest (s : State) (c : Nat) (x : ClPower) : (s.putCluster c x).fwDigest = s.fwDigest := rfl
@[simp] theorem State.putCluster_mbox (s : State) (c : Nat) (x : ClPower) : (s.putCluster c x).mbox = s.mbox := rfl
@[simp] theorem State.putCluster_boot (s : State) (c : Nat) (x : ClPower) : (s.putCluster c x).boot = s.boot := rfl

/-! ### State.nextId -/

@[simp] theorem State.nextId_agenda (s : State) : (s.nextId).agenda = s.agenda := rfl
@[simp] theorem State.nextId_tick (s : State) : (s.nextId).tick = s.tick := rfl
@[simp] theorem State.nextId_fresh (s : State) : (s.nextId).fresh = s.fresh := rfl
@[simp] theorem State.nextId_cur (s : State) : (s.nextId).cur = s.cur := rfl
@[simp] theorem State.nextId_curStream (s : State) : (s.nextId).curStream = s.curStream := rfl
@[simp] theorem State.nextId_ns (s : State) : (s.nextId).ns = s.ns := rfl
@[simp] theorem State.nextId_teams (s : State) : (s.nextId).teams = s.teams := rfl
@[simp] theorem State.nextId_wgs (s : State) : (s.nextId).wgs = s.wgs := rfl
@[simp] theorem State.nextId_launches (s : State) : (s.nextId).launches = s.launches := rfl
@[simp] theorem State.nextId_graphs (s : State) : (s.nextId).graphs = s.graphs := rfl
@[simp] theorem State.nextId_queues (s : State) : (s.nextId).queues = s.queues := rfl
@[simp] theorem State.nextId_copies (s : State) : (s.nextId).copies = s.copies := rfl
@[simp] theorem State.nextId_streams (s : State) : (s.nextId).streams = s.streams := rfl
@[simp] theorem State.nextId_hbm (s : State) : (s.nextId).hbm = s.hbm := rfl
@[simp] theorem State.nextId_caddies (s : State) : (s.nextId).caddies = s.caddies := rfl
@[simp] theorem State.nextId_treeAlt (s : State) : (s.nextId).treeAlt = s.treeAlt := rfl
@[simp] theorem State.nextId_openTiles (s : State) : (s.nextId).openTiles = s.openTiles := rfl
@[simp] theorem State.nextId_flight (s : State) : (s.nextId).flight = s.flight := rfl
@[simp] theorem State.nextId_keyValid (s : State) : (s.nextId).keyValid = s.keyValid := rfl
@[simp] theorem State.nextId_keyVal (s : State) : (s.nextId).keyVal = s.keyVal := rfl
@[simp] theorem State.nextId_host (s : State) : (s.nextId).host = s.host := rfl
@[simp] theorem State.nextId_scratch (s : State) : (s.nextId).scratch = s.scratch := rfl
@[simp] theorem State.nextId_scratchBad (s : State) : (s.nextId).scratchBad = s.scratchBad := rfl
@[simp] theorem State.nextId_dev (s : State) : (s.nextId).dev = s.dev := rfl
@[simp] theorem State.nextId_tlb1 (s : State) : (s.nextId).tlb1 = s.tlb1 := rfl
@[simp] theorem State.nextId_tlb2 (s : State) : (s.nextId).tlb2 = s.tlb2 := rfl
@[simp] theorem State.nextId_loopBuf (s : State) : (s.nextId).loopBuf = s.loopBuf := rfl
@[simp] theorem State.nextId_wake (s : State) : (s.nextId).wake = s.wake := rfl
@[simp] theorem State.nextId_reqs (s : State) : (s.nextId).reqs = s.reqs := rfl
@[simp] theorem State.nextId_foldOrder (s : State) : (s.nextId).foldOrder = s.foldOrder := rfl
@[simp] theorem State.nextId_roomBack (s : State) : (s.nextId).roomBack = s.roomBack := rfl
@[simp] theorem State.nextId_parts (s : State) : (s.nextId).parts = s.parts := rfl
@[simp] theorem State.nextId_partOp (s : State) : (s.nextId).partOp = s.partOp := rfl
@[simp] theorem State.nextId_pool (s : State) : (s.nextId).pool = s.pool := rfl
@[simp] theorem State.nextId_tokenAt (s : State) : (s.nextId).tokenAt = s.tokenAt := rfl
@[simp] theorem State.nextId_clusters (s : State) : (s.nextId).clusters = s.clusters := rfl
@[simp] theorem State.nextId_retImages (s : State) : (s.nextId).retImages = s.retImages := rfl
@[simp] theorem State.nextId_th (s : State) : (s.nextId).th = s.th := rfl
@[simp] theorem State.nextId_heatStop (s : State) : (s.nextId).heatStop = s.heatStop := rfl
@[simp] theorem State.nextId_ptp (s : State) : (s.nextId).ptp = s.ptp := rfl
@[simp] theorem State.nextId_ptpTx (s : State) : (s.nextId).ptpTx = s.ptpTx := rfl
@[simp] theorem State.nextId_ingDrops (s : State) : (s.nextId).ingDrops = s.ingDrops := rfl
@[simp] theorem State.nextId_ingSeq (s : State) : (s.nextId).ingSeq = s.ingSeq := rfl
@[simp] theorem State.nextId_link (s : State) : (s.nextId).link = s.link := rfl
@[simp] theorem State.nextId_msix (s : State) : (s.nextId).msix = s.msix := rfl
@[simp] theorem State.nextId_msixOn (s : State) : (s.nextId).msixOn = s.msixOn := rfl
@[simp] theorem State.nextId_msixOpen (s : State) : (s.nextId).msixOpen = s.msixOpen := rfl
@[simp] theorem State.nextId_qEvents (s : State) : (s.nextId).qEvents = s.qEvents := rfl
@[simp] theorem State.nextId_hdm (s : State) : (s.nextId).hdm = s.hdm := rfl
@[simp] theorem State.nextId_cxlRas (s : State) : (s.nextId).cxlRas = s.cxlRas := rfl
@[simp] theorem State.nextId_aer (s : State) : (s.nextId).aer = s.aer := rfl
@[simp] theorem State.nextId_cxlRead (s : State) : (s.nextId).cxlRead = s.cxlRead := rfl
@[simp] theorem State.nextId_barRead (s : State) : (s.nextId).barRead = s.barRead := rfl
@[simp] theorem State.nextId_doe (s : State) : (s.nextId).doe = s.doe := rfl
@[simp] theorem State.nextId_sealSeq (s : State) : (s.nextId).sealSeq = s.sealSeq := rfl
@[simp] theorem State.nextId_sealFwd (s : State) : (s.nextId).sealFwd = s.sealFwd := rfl
@[simp] theorem State.nextId_fwRoot (s : State) : (s.nextId).fwRoot = s.fwRoot := rfl
@[simp] theorem State.nextId_agentEntry (s : State) : (s.nextId).agentEntry = s.agentEntry := rfl
@[simp] theorem State.nextId_fwVersion (s : State) : (s.nextId).fwVersion = s.fwVersion := rfl
@[simp] theorem State.nextId_fwDigest (s : State) : (s.nextId).fwDigest = s.fwDigest := rfl
@[simp] theorem State.nextId_mbox (s : State) : (s.nextId).mbox = s.mbox := rfl
@[simp] theorem State.nextId_boot (s : State) : (s.nextId).boot = s.boot := rfl

/-! ### State.bump -/

@[simp] theorem State.bump_agenda (s : State) : (s.bump).agenda = s.agenda := rfl
@[simp] theorem State.bump_tick (s : State) : (s.bump).tick = s.tick := rfl
@[simp] theorem State.bump_cur (s : State) : (s.bump).cur = s.cur := rfl
@[simp] theorem State.bump_curStream (s : State) : (s.bump).curStream = s.curStream := rfl
@[simp] theorem State.bump_nextUid (s : State) : (s.bump).nextUid = s.nextUid := rfl
@[simp] theorem State.bump_ns (s : State) : (s.bump).ns = s.ns := rfl
@[simp] theorem State.bump_teams (s : State) : (s.bump).teams = s.teams := rfl
@[simp] theorem State.bump_wgs (s : State) : (s.bump).wgs = s.wgs := rfl
@[simp] theorem State.bump_launches (s : State) : (s.bump).launches = s.launches := rfl
@[simp] theorem State.bump_graphs (s : State) : (s.bump).graphs = s.graphs := rfl
@[simp] theorem State.bump_queues (s : State) : (s.bump).queues = s.queues := rfl
@[simp] theorem State.bump_copies (s : State) : (s.bump).copies = s.copies := rfl
@[simp] theorem State.bump_streams (s : State) : (s.bump).streams = s.streams := rfl
@[simp] theorem State.bump_hbm (s : State) : (s.bump).hbm = s.hbm := rfl
@[simp] theorem State.bump_caddies (s : State) : (s.bump).caddies = s.caddies := rfl
@[simp] theorem State.bump_treeAlt (s : State) : (s.bump).treeAlt = s.treeAlt := rfl
@[simp] theorem State.bump_openTiles (s : State) : (s.bump).openTiles = s.openTiles := rfl
@[simp] theorem State.bump_flight (s : State) : (s.bump).flight = s.flight := rfl
@[simp] theorem State.bump_keyValid (s : State) : (s.bump).keyValid = s.keyValid := rfl
@[simp] theorem State.bump_keyVal (s : State) : (s.bump).keyVal = s.keyVal := rfl
@[simp] theorem State.bump_host (s : State) : (s.bump).host = s.host := rfl
@[simp] theorem State.bump_scratch (s : State) : (s.bump).scratch = s.scratch := rfl
@[simp] theorem State.bump_scratchBad (s : State) : (s.bump).scratchBad = s.scratchBad := rfl
@[simp] theorem State.bump_dev (s : State) : (s.bump).dev = s.dev := rfl
@[simp] theorem State.bump_tlb1 (s : State) : (s.bump).tlb1 = s.tlb1 := rfl
@[simp] theorem State.bump_tlb2 (s : State) : (s.bump).tlb2 = s.tlb2 := rfl
@[simp] theorem State.bump_loopBuf (s : State) : (s.bump).loopBuf = s.loopBuf := rfl
@[simp] theorem State.bump_wake (s : State) : (s.bump).wake = s.wake := rfl
@[simp] theorem State.bump_reqs (s : State) : (s.bump).reqs = s.reqs := rfl
@[simp] theorem State.bump_foldOrder (s : State) : (s.bump).foldOrder = s.foldOrder := rfl
@[simp] theorem State.bump_roomBack (s : State) : (s.bump).roomBack = s.roomBack := rfl
@[simp] theorem State.bump_parts (s : State) : (s.bump).parts = s.parts := rfl
@[simp] theorem State.bump_partOp (s : State) : (s.bump).partOp = s.partOp := rfl
@[simp] theorem State.bump_pool (s : State) : (s.bump).pool = s.pool := rfl
@[simp] theorem State.bump_tokenAt (s : State) : (s.bump).tokenAt = s.tokenAt := rfl
@[simp] theorem State.bump_clusters (s : State) : (s.bump).clusters = s.clusters := rfl
@[simp] theorem State.bump_retImages (s : State) : (s.bump).retImages = s.retImages := rfl
@[simp] theorem State.bump_th (s : State) : (s.bump).th = s.th := rfl
@[simp] theorem State.bump_heatStop (s : State) : (s.bump).heatStop = s.heatStop := rfl
@[simp] theorem State.bump_ptp (s : State) : (s.bump).ptp = s.ptp := rfl
@[simp] theorem State.bump_ptpTx (s : State) : (s.bump).ptpTx = s.ptpTx := rfl
@[simp] theorem State.bump_ingDrops (s : State) : (s.bump).ingDrops = s.ingDrops := rfl
@[simp] theorem State.bump_ingSeq (s : State) : (s.bump).ingSeq = s.ingSeq := rfl
@[simp] theorem State.bump_link (s : State) : (s.bump).link = s.link := rfl
@[simp] theorem State.bump_msix (s : State) : (s.bump).msix = s.msix := rfl
@[simp] theorem State.bump_msixOn (s : State) : (s.bump).msixOn = s.msixOn := rfl
@[simp] theorem State.bump_msixOpen (s : State) : (s.bump).msixOpen = s.msixOpen := rfl
@[simp] theorem State.bump_qEvents (s : State) : (s.bump).qEvents = s.qEvents := rfl
@[simp] theorem State.bump_hdm (s : State) : (s.bump).hdm = s.hdm := rfl
@[simp] theorem State.bump_cxlRas (s : State) : (s.bump).cxlRas = s.cxlRas := rfl
@[simp] theorem State.bump_aer (s : State) : (s.bump).aer = s.aer := rfl
@[simp] theorem State.bump_cxlRead (s : State) : (s.bump).cxlRead = s.cxlRead := rfl
@[simp] theorem State.bump_barRead (s : State) : (s.bump).barRead = s.barRead := rfl
@[simp] theorem State.bump_doe (s : State) : (s.bump).doe = s.doe := rfl
@[simp] theorem State.bump_sealSeq (s : State) : (s.bump).sealSeq = s.sealSeq := rfl
@[simp] theorem State.bump_sealFwd (s : State) : (s.bump).sealFwd = s.sealFwd := rfl
@[simp] theorem State.bump_fwRoot (s : State) : (s.bump).fwRoot = s.fwRoot := rfl
@[simp] theorem State.bump_agentEntry (s : State) : (s.bump).agentEntry = s.agentEntry := rfl
@[simp] theorem State.bump_fwVersion (s : State) : (s.bump).fwVersion = s.fwVersion := rfl
@[simp] theorem State.bump_fwDigest (s : State) : (s.bump).fwDigest = s.fwDigest := rfl
@[simp] theorem State.bump_mbox (s : State) : (s.bump).mbox = s.mbox := rfl
@[simp] theorem State.bump_boot (s : State) : (s.bump).boot = s.boot := rfl

/-! ### State.putDreg -/

@[simp] theorem State.putDreg_agenda (s : State) (a : Nat) (v : DWord) : (s.putDreg a v).agenda = s.agenda := rfl
@[simp] theorem State.putDreg_tick (s : State) (a : Nat) (v : DWord) : (s.putDreg a v).tick = s.tick := rfl
@[simp] theorem State.putDreg_fresh (s : State) (a : Nat) (v : DWord) : (s.putDreg a v).fresh = s.fresh := rfl
@[simp] theorem State.putDreg_cur (s : State) (a : Nat) (v : DWord) : (s.putDreg a v).cur = s.cur := rfl
@[simp] theorem State.putDreg_curStream (s : State) (a : Nat) (v : DWord) : (s.putDreg a v).curStream = s.curStream := rfl
@[simp] theorem State.putDreg_nextUid (s : State) (a : Nat) (v : DWord) : (s.putDreg a v).nextUid = s.nextUid := rfl
@[simp] theorem State.putDreg_ns (s : State) (a : Nat) (v : DWord) : (s.putDreg a v).ns = s.ns := rfl
@[simp] theorem State.putDreg_teams (s : State) (a : Nat) (v : DWord) : (s.putDreg a v).teams = s.teams := rfl
@[simp] theorem State.putDreg_wgs (s : State) (a : Nat) (v : DWord) : (s.putDreg a v).wgs = s.wgs := rfl
@[simp] theorem State.putDreg_launches (s : State) (a : Nat) (v : DWord) : (s.putDreg a v).launches = s.launches := rfl
@[simp] theorem State.putDreg_graphs (s : State) (a : Nat) (v : DWord) : (s.putDreg a v).graphs = s.graphs := rfl
@[simp] theorem State.putDreg_queues (s : State) (a : Nat) (v : DWord) : (s.putDreg a v).queues = s.queues := rfl
@[simp] theorem State.putDreg_copies (s : State) (a : Nat) (v : DWord) : (s.putDreg a v).copies = s.copies := rfl
@[simp] theorem State.putDreg_streams (s : State) (a : Nat) (v : DWord) : (s.putDreg a v).streams = s.streams := rfl
@[simp] theorem State.putDreg_hbm (s : State) (a : Nat) (v : DWord) : (s.putDreg a v).hbm = s.hbm := rfl
@[simp] theorem State.putDreg_caddies (s : State) (a : Nat) (v : DWord) : (s.putDreg a v).caddies = s.caddies := rfl
@[simp] theorem State.putDreg_treeAlt (s : State) (a : Nat) (v : DWord) : (s.putDreg a v).treeAlt = s.treeAlt := rfl
@[simp] theorem State.putDreg_openTiles (s : State) (a : Nat) (v : DWord) : (s.putDreg a v).openTiles = s.openTiles := rfl
@[simp] theorem State.putDreg_flight (s : State) (a : Nat) (v : DWord) : (s.putDreg a v).flight = s.flight := rfl
@[simp] theorem State.putDreg_keyValid (s : State) (a : Nat) (v : DWord) : (s.putDreg a v).keyValid = s.keyValid := rfl
@[simp] theorem State.putDreg_keyVal (s : State) (a : Nat) (v : DWord) : (s.putDreg a v).keyVal = s.keyVal := rfl
@[simp] theorem State.putDreg_host (s : State) (a : Nat) (v : DWord) : (s.putDreg a v).host = s.host := rfl
@[simp] theorem State.putDreg_scratch (s : State) (a : Nat) (v : DWord) : (s.putDreg a v).scratch = s.scratch := rfl
@[simp] theorem State.putDreg_scratchBad (s : State) (a : Nat) (v : DWord) : (s.putDreg a v).scratchBad = s.scratchBad := rfl
@[simp] theorem State.putDreg_tlb1 (s : State) (a : Nat) (v : DWord) : (s.putDreg a v).tlb1 = s.tlb1 := rfl
@[simp] theorem State.putDreg_tlb2 (s : State) (a : Nat) (v : DWord) : (s.putDreg a v).tlb2 = s.tlb2 := rfl
@[simp] theorem State.putDreg_loopBuf (s : State) (a : Nat) (v : DWord) : (s.putDreg a v).loopBuf = s.loopBuf := rfl
@[simp] theorem State.putDreg_wake (s : State) (a : Nat) (v : DWord) : (s.putDreg a v).wake = s.wake := rfl
@[simp] theorem State.putDreg_reqs (s : State) (a : Nat) (v : DWord) : (s.putDreg a v).reqs = s.reqs := rfl
@[simp] theorem State.putDreg_foldOrder (s : State) (a : Nat) (v : DWord) : (s.putDreg a v).foldOrder = s.foldOrder := rfl
@[simp] theorem State.putDreg_roomBack (s : State) (a : Nat) (v : DWord) : (s.putDreg a v).roomBack = s.roomBack := rfl
@[simp] theorem State.putDreg_parts (s : State) (a : Nat) (v : DWord) : (s.putDreg a v).parts = s.parts := rfl
@[simp] theorem State.putDreg_partOp (s : State) (a : Nat) (v : DWord) : (s.putDreg a v).partOp = s.partOp := rfl
@[simp] theorem State.putDreg_pool (s : State) (a : Nat) (v : DWord) : (s.putDreg a v).pool = s.pool := rfl
@[simp] theorem State.putDreg_tokenAt (s : State) (a : Nat) (v : DWord) : (s.putDreg a v).tokenAt = s.tokenAt := rfl
@[simp] theorem State.putDreg_clusters (s : State) (a : Nat) (v : DWord) : (s.putDreg a v).clusters = s.clusters := rfl
@[simp] theorem State.putDreg_retImages (s : State) (a : Nat) (v : DWord) : (s.putDreg a v).retImages = s.retImages := rfl
@[simp] theorem State.putDreg_th (s : State) (a : Nat) (v : DWord) : (s.putDreg a v).th = s.th := rfl
@[simp] theorem State.putDreg_heatStop (s : State) (a : Nat) (v : DWord) : (s.putDreg a v).heatStop = s.heatStop := rfl
@[simp] theorem State.putDreg_ptp (s : State) (a : Nat) (v : DWord) : (s.putDreg a v).ptp = s.ptp := rfl
@[simp] theorem State.putDreg_ptpTx (s : State) (a : Nat) (v : DWord) : (s.putDreg a v).ptpTx = s.ptpTx := rfl
@[simp] theorem State.putDreg_ingDrops (s : State) (a : Nat) (v : DWord) : (s.putDreg a v).ingDrops = s.ingDrops := rfl
@[simp] theorem State.putDreg_ingSeq (s : State) (a : Nat) (v : DWord) : (s.putDreg a v).ingSeq = s.ingSeq := rfl
@[simp] theorem State.putDreg_link (s : State) (a : Nat) (v : DWord) : (s.putDreg a v).link = s.link := rfl
@[simp] theorem State.putDreg_msix (s : State) (a : Nat) (v : DWord) : (s.putDreg a v).msix = s.msix := rfl
@[simp] theorem State.putDreg_msixOn (s : State) (a : Nat) (v : DWord) : (s.putDreg a v).msixOn = s.msixOn := rfl
@[simp] theorem State.putDreg_msixOpen (s : State) (a : Nat) (v : DWord) : (s.putDreg a v).msixOpen = s.msixOpen := rfl
@[simp] theorem State.putDreg_qEvents (s : State) (a : Nat) (v : DWord) : (s.putDreg a v).qEvents = s.qEvents := rfl
@[simp] theorem State.putDreg_hdm (s : State) (a : Nat) (v : DWord) : (s.putDreg a v).hdm = s.hdm := rfl
@[simp] theorem State.putDreg_cxlRas (s : State) (a : Nat) (v : DWord) : (s.putDreg a v).cxlRas = s.cxlRas := rfl
@[simp] theorem State.putDreg_aer (s : State) (a : Nat) (v : DWord) : (s.putDreg a v).aer = s.aer := rfl
@[simp] theorem State.putDreg_cxlRead (s : State) (a : Nat) (v : DWord) : (s.putDreg a v).cxlRead = s.cxlRead := rfl
@[simp] theorem State.putDreg_barRead (s : State) (a : Nat) (v : DWord) : (s.putDreg a v).barRead = s.barRead := rfl
@[simp] theorem State.putDreg_doe (s : State) (a : Nat) (v : DWord) : (s.putDreg a v).doe = s.doe := rfl
@[simp] theorem State.putDreg_sealSeq (s : State) (a : Nat) (v : DWord) : (s.putDreg a v).sealSeq = s.sealSeq := rfl
@[simp] theorem State.putDreg_sealFwd (s : State) (a : Nat) (v : DWord) : (s.putDreg a v).sealFwd = s.sealFwd := rfl
@[simp] theorem State.putDreg_fwRoot (s : State) (a : Nat) (v : DWord) : (s.putDreg a v).fwRoot = s.fwRoot := rfl
@[simp] theorem State.putDreg_agentEntry (s : State) (a : Nat) (v : DWord) : (s.putDreg a v).agentEntry = s.agentEntry := rfl
@[simp] theorem State.putDreg_fwVersion (s : State) (a : Nat) (v : DWord) : (s.putDreg a v).fwVersion = s.fwVersion := rfl
@[simp] theorem State.putDreg_fwDigest (s : State) (a : Nat) (v : DWord) : (s.putDreg a v).fwDigest = s.fwDigest := rfl
@[simp] theorem State.putDreg_mbox (s : State) (a : Nat) (v : DWord) : (s.putDreg a v).mbox = s.mbox := rfl
@[simp] theorem State.putDreg_boot (s : State) (a : Nat) (v : DWord) : (s.putDreg a v).boot = s.boot := rfl

/-! ### State.putCaddy -/

@[simp] theorem State.putCaddy_agenda (s : State) (k : Nat) (c : Caddy) : (s.putCaddy k c).agenda = s.agenda := rfl
@[simp] theorem State.putCaddy_tick (s : State) (k : Nat) (c : Caddy) : (s.putCaddy k c).tick = s.tick := rfl
@[simp] theorem State.putCaddy_fresh (s : State) (k : Nat) (c : Caddy) : (s.putCaddy k c).fresh = s.fresh := rfl
@[simp] theorem State.putCaddy_cur (s : State) (k : Nat) (c : Caddy) : (s.putCaddy k c).cur = s.cur := rfl
@[simp] theorem State.putCaddy_curStream (s : State) (k : Nat) (c : Caddy) : (s.putCaddy k c).curStream = s.curStream := rfl
@[simp] theorem State.putCaddy_nextUid (s : State) (k : Nat) (c : Caddy) : (s.putCaddy k c).nextUid = s.nextUid := rfl
@[simp] theorem State.putCaddy_ns (s : State) (k : Nat) (c : Caddy) : (s.putCaddy k c).ns = s.ns := rfl
@[simp] theorem State.putCaddy_teams (s : State) (k : Nat) (c : Caddy) : (s.putCaddy k c).teams = s.teams := rfl
@[simp] theorem State.putCaddy_wgs (s : State) (k : Nat) (c : Caddy) : (s.putCaddy k c).wgs = s.wgs := rfl
@[simp] theorem State.putCaddy_launches (s : State) (k : Nat) (c : Caddy) : (s.putCaddy k c).launches = s.launches := rfl
@[simp] theorem State.putCaddy_graphs (s : State) (k : Nat) (c : Caddy) : (s.putCaddy k c).graphs = s.graphs := rfl
@[simp] theorem State.putCaddy_queues (s : State) (k : Nat) (c : Caddy) : (s.putCaddy k c).queues = s.queues := rfl
@[simp] theorem State.putCaddy_copies (s : State) (k : Nat) (c : Caddy) : (s.putCaddy k c).copies = s.copies := rfl
@[simp] theorem State.putCaddy_streams (s : State) (k : Nat) (c : Caddy) : (s.putCaddy k c).streams = s.streams := rfl
@[simp] theorem State.putCaddy_hbm (s : State) (k : Nat) (c : Caddy) : (s.putCaddy k c).hbm = s.hbm := rfl
@[simp] theorem State.putCaddy_treeAlt (s : State) (k : Nat) (c : Caddy) : (s.putCaddy k c).treeAlt = s.treeAlt := rfl
@[simp] theorem State.putCaddy_openTiles (s : State) (k : Nat) (c : Caddy) : (s.putCaddy k c).openTiles = s.openTiles := rfl
@[simp] theorem State.putCaddy_flight (s : State) (k : Nat) (c : Caddy) : (s.putCaddy k c).flight = s.flight := rfl
@[simp] theorem State.putCaddy_keyValid (s : State) (k : Nat) (c : Caddy) : (s.putCaddy k c).keyValid = s.keyValid := rfl
@[simp] theorem State.putCaddy_keyVal (s : State) (k : Nat) (c : Caddy) : (s.putCaddy k c).keyVal = s.keyVal := rfl
@[simp] theorem State.putCaddy_host (s : State) (k : Nat) (c : Caddy) : (s.putCaddy k c).host = s.host := rfl
@[simp] theorem State.putCaddy_scratch (s : State) (k : Nat) (c : Caddy) : (s.putCaddy k c).scratch = s.scratch := rfl
@[simp] theorem State.putCaddy_scratchBad (s : State) (k : Nat) (c : Caddy) : (s.putCaddy k c).scratchBad = s.scratchBad := rfl
@[simp] theorem State.putCaddy_dev (s : State) (k : Nat) (c : Caddy) : (s.putCaddy k c).dev = s.dev := rfl
@[simp] theorem State.putCaddy_tlb1 (s : State) (k : Nat) (c : Caddy) : (s.putCaddy k c).tlb1 = s.tlb1 := rfl
@[simp] theorem State.putCaddy_tlb2 (s : State) (k : Nat) (c : Caddy) : (s.putCaddy k c).tlb2 = s.tlb2 := rfl
@[simp] theorem State.putCaddy_loopBuf (s : State) (k : Nat) (c : Caddy) : (s.putCaddy k c).loopBuf = s.loopBuf := rfl
@[simp] theorem State.putCaddy_wake (s : State) (k : Nat) (c : Caddy) : (s.putCaddy k c).wake = s.wake := rfl
@[simp] theorem State.putCaddy_reqs (s : State) (k : Nat) (c : Caddy) : (s.putCaddy k c).reqs = s.reqs := rfl
@[simp] theorem State.putCaddy_foldOrder (s : State) (k : Nat) (c : Caddy) : (s.putCaddy k c).foldOrder = s.foldOrder := rfl
@[simp] theorem State.putCaddy_roomBack (s : State) (k : Nat) (c : Caddy) : (s.putCaddy k c).roomBack = s.roomBack := rfl
@[simp] theorem State.putCaddy_parts (s : State) (k : Nat) (c : Caddy) : (s.putCaddy k c).parts = s.parts := rfl
@[simp] theorem State.putCaddy_partOp (s : State) (k : Nat) (c : Caddy) : (s.putCaddy k c).partOp = s.partOp := rfl
@[simp] theorem State.putCaddy_pool (s : State) (k : Nat) (c : Caddy) : (s.putCaddy k c).pool = s.pool := rfl
@[simp] theorem State.putCaddy_tokenAt (s : State) (k : Nat) (c : Caddy) : (s.putCaddy k c).tokenAt = s.tokenAt := rfl
@[simp] theorem State.putCaddy_clusters (s : State) (k : Nat) (c : Caddy) : (s.putCaddy k c).clusters = s.clusters := rfl
@[simp] theorem State.putCaddy_retImages (s : State) (k : Nat) (c : Caddy) : (s.putCaddy k c).retImages = s.retImages := rfl
@[simp] theorem State.putCaddy_th (s : State) (k : Nat) (c : Caddy) : (s.putCaddy k c).th = s.th := rfl
@[simp] theorem State.putCaddy_heatStop (s : State) (k : Nat) (c : Caddy) : (s.putCaddy k c).heatStop = s.heatStop := rfl
@[simp] theorem State.putCaddy_ptp (s : State) (k : Nat) (c : Caddy) : (s.putCaddy k c).ptp = s.ptp := rfl
@[simp] theorem State.putCaddy_ptpTx (s : State) (k : Nat) (c : Caddy) : (s.putCaddy k c).ptpTx = s.ptpTx := rfl
@[simp] theorem State.putCaddy_ingDrops (s : State) (k : Nat) (c : Caddy) : (s.putCaddy k c).ingDrops = s.ingDrops := rfl
@[simp] theorem State.putCaddy_ingSeq (s : State) (k : Nat) (c : Caddy) : (s.putCaddy k c).ingSeq = s.ingSeq := rfl
@[simp] theorem State.putCaddy_link (s : State) (k : Nat) (c : Caddy) : (s.putCaddy k c).link = s.link := rfl
@[simp] theorem State.putCaddy_msix (s : State) (k : Nat) (c : Caddy) : (s.putCaddy k c).msix = s.msix := rfl
@[simp] theorem State.putCaddy_msixOn (s : State) (k : Nat) (c : Caddy) : (s.putCaddy k c).msixOn = s.msixOn := rfl
@[simp] theorem State.putCaddy_msixOpen (s : State) (k : Nat) (c : Caddy) : (s.putCaddy k c).msixOpen = s.msixOpen := rfl
@[simp] theorem State.putCaddy_qEvents (s : State) (k : Nat) (c : Caddy) : (s.putCaddy k c).qEvents = s.qEvents := rfl
@[simp] theorem State.putCaddy_hdm (s : State) (k : Nat) (c : Caddy) : (s.putCaddy k c).hdm = s.hdm := rfl
@[simp] theorem State.putCaddy_cxlRas (s : State) (k : Nat) (c : Caddy) : (s.putCaddy k c).cxlRas = s.cxlRas := rfl
@[simp] theorem State.putCaddy_aer (s : State) (k : Nat) (c : Caddy) : (s.putCaddy k c).aer = s.aer := rfl
@[simp] theorem State.putCaddy_cxlRead (s : State) (k : Nat) (c : Caddy) : (s.putCaddy k c).cxlRead = s.cxlRead := rfl
@[simp] theorem State.putCaddy_barRead (s : State) (k : Nat) (c : Caddy) : (s.putCaddy k c).barRead = s.barRead := rfl
@[simp] theorem State.putCaddy_doe (s : State) (k : Nat) (c : Caddy) : (s.putCaddy k c).doe = s.doe := rfl
@[simp] theorem State.putCaddy_sealSeq (s : State) (k : Nat) (c : Caddy) : (s.putCaddy k c).sealSeq = s.sealSeq := rfl
@[simp] theorem State.putCaddy_sealFwd (s : State) (k : Nat) (c : Caddy) : (s.putCaddy k c).sealFwd = s.sealFwd := rfl
@[simp] theorem State.putCaddy_fwRoot (s : State) (k : Nat) (c : Caddy) : (s.putCaddy k c).fwRoot = s.fwRoot := rfl
@[simp] theorem State.putCaddy_agentEntry (s : State) (k : Nat) (c : Caddy) : (s.putCaddy k c).agentEntry = s.agentEntry := rfl
@[simp] theorem State.putCaddy_fwVersion (s : State) (k : Nat) (c : Caddy) : (s.putCaddy k c).fwVersion = s.fwVersion := rfl
@[simp] theorem State.putCaddy_fwDigest (s : State) (k : Nat) (c : Caddy) : (s.putCaddy k c).fwDigest = s.fwDigest := rfl
@[simp] theorem State.putCaddy_mbox (s : State) (k : Nat) (c : Caddy) : (s.putCaddy k c).mbox = s.mbox := rfl
@[simp] theorem State.putCaddy_boot (s : State) (k : Nat) (c : Caddy) : (s.putCaddy k c).boot = s.boot := rfl

@[simp] theorem State.bump_fresh (s : State) : s.bump.fresh = s.fresh + 1 := rfl
@[simp] theorem State.nextId_nextUid (s : State) : s.nextId.nextUid = s.nextUid + 1 := rfl

/-! ### Read over write -/

@[simp] theorem State.team_putTeam_same (s : State) (k : Nat) (t : Team) : (s.putTeam k t).team k = some t := by
  simp [State.team, State.putTeam]
theorem State.team_putTeam_other (s : State) {k k' : Nat} (t : Team) (h : k' ≠ k) : (s.putTeam k t).team k' = s.team k' := by
  simp [State.team, State.putTeam, fget_fset_other _ _ _ h]
@[simp] theorem State.wg_putWg_same (s : State) (k : Nat) (w : Workgroup) : (s.putWg k w).wg k = some w := by
  simp [State.wg, State.putWg]
theorem State.wg_putWg_other (s : State) {k k' : Nat} (w : Workgroup) (h : k' ≠ k) : (s.putWg k w).wg k' = s.wg k' := by
  simp [State.wg, State.putWg, fget_fset_other _ _ _ h]
@[simp] theorem State.wg_dropWg_same (s : State) (k : Nat) : (s.dropWg k).wg k = none := by
  simp [State.wg, State.dropWg]
theorem State.wg_dropWg_other (s : State) {k k' : Nat} (h : k' ≠ k) : (s.dropWg k).wg k' = s.wg k' := by
  simp [State.wg, State.dropWg, fget_fset_other _ _ _ h]
@[simp] theorem State.launch_putLaunch_same (s : State) (k : Nat) (x : Launch) : (s.putLaunch k x).launch k = some x := by
  simp [State.launch, State.putLaunch]
theorem State.launch_putLaunch_other (s : State) {k k' : Nat} (x : Launch) (h : k' ≠ k) : (s.putLaunch k x).launch k' = s.launch k' := by
  simp [State.launch, State.putLaunch, fget_fset_other _ _ _ h]
@[simp] theorem State.launch_dropLaunch_same (s : State) (k : Nat) : (s.dropLaunch k).launch k = none := by
  simp [State.launch, State.dropLaunch]
theorem State.launch_dropLaunch_other (s : State) {k k' : Nat} (h : k' ≠ k) : (s.dropLaunch k).launch k' = s.launch k' := by
  simp [State.launch, State.dropLaunch, fget_fset_other _ _ _ h]
@[simp] theorem State.graph_putGraph_same (s : State) (k : Nat) (x : Graph) : (s.putGraph k x).graph k = some x := by
  simp [State.graph, State.putGraph]
theorem State.graph_putGraph_other (s : State) {k k' : Nat} (x : Graph) (h : k' ≠ k) : (s.putGraph k x).graph k' = s.graph k' := by
  simp [State.graph, State.putGraph, fget_fset_other _ _ _ h]
@[simp] theorem State.graph_dropGraph_same (s : State) (k : Nat) : (s.dropGraph k).graph k = none := by
  simp [State.graph, State.dropGraph]
theorem State.graph_dropGraph_other (s : State) {k k' : Nat} (h : k' ≠ k) : (s.dropGraph k).graph k' = s.graph k' := by
  simp [State.graph, State.dropGraph, fget_fset_other _ _ _ h]
@[simp] theorem State.copy_putCopy_same (s : State) (k : Nat) (x : Copy) : (s.putCopy k x).copy k = some x := by
  simp [State.copy, State.putCopy]
theorem State.copy_putCopy_other (s : State) {k k' : Nat} (x : Copy) (h : k' ≠ k) : (s.putCopy k x).copy k' = s.copy k' := by
  simp [State.copy, State.putCopy, fget_fset_other _ _ _ h]
@[simp] theorem State.copy_dropCopy_same (s : State) (k : Nat) : (s.dropCopy k).copy k = none := by
  simp [State.copy, State.dropCopy]
theorem State.copy_dropCopy_other (s : State) {k k' : Nat} (h : k' ≠ k) : (s.dropCopy k).copy k' = s.copy k' := by
  simp [State.copy, State.dropCopy, fget_fset_other _ _ _ h]
@[simp] theorem State.stream_putStream_same (s : State) (k : Nat) (x : Stream) : (s.putStream k x).stream k = some x := by
  simp [State.stream, State.putStream]
theorem State.stream_putStream_other (s : State) {k k' : Nat} (x : Stream) (h : k' ≠ k) : (s.putStream k x).stream k' = s.stream k' := by
  simp [State.stream, State.putStream, fget_fset_other _ _ _ h]
@[simp] theorem State.stream_dropStream_same (s : State) (k : Nat) : (s.dropStream k).stream k = none := by
  simp [State.stream, State.dropStream]
theorem State.stream_dropStream_other (s : State) {k k' : Nat} (h : k' ≠ k) : (s.dropStream k).stream k' = s.stream k' := by
  simp [State.stream, State.dropStream, fget_fset_other _ _ _ h]

/-! ### Reads past writes of other tables -/

@[simp] theorem State.wg_putTeam (s : State) (u : Nat) (t : Team) (i : Nat) : (s.putTeam u t).wg i = s.wg i := rfl
@[simp] theorem State.launch_putTeam (s : State) (u : Nat) (t : Team) (i : Nat) : (s.putTeam u t).launch i = s.launch i := rfl
@[simp] theorem State.graph_putTeam (s : State) (u : Nat) (t : Team) (i : Nat) : (s.putTeam u t).graph i = s.graph i := rfl
@[simp] theorem State.copy_putTeam (s : State) (u : Nat) (t : Team) (i : Nat) : (s.putTeam u t).copy i = s.copy i := rfl
@[simp] theorem State.stream_putTeam (s : State) (u : Nat) (t : Team) (i : Nat) : (s.putTeam u t).stream i = s.stream i := rfl
@[simp] theorem State.queue_putTeam (s : State) (u : Nat) (t : Team) (i : Nat) : (s.putTeam u t).queue i = s.queue i := rfl
@[simp] theorem State.part_putTeam (s : State) (u : Nat) (t : Team) (i : Nat) : (s.putTeam u t).part i = s.part i := rfl
@[simp] theorem State.cluster_putTeam (s : State) (u : Nat) (t : Team) (i : Nat) : (s.putTeam u t).cluster i = s.cluster i := rfl
@[simp] theorem State.dreg_putTeam (s : State) (u : Nat) (t : Team) (i : Nat) : (s.putTeam u t).dreg i = s.dreg i := rfl
@[simp] theorem State.team_putWg (s : State) (g : Nat) (w : Workgroup) (i : Nat) : (s.putWg g w).team i = s.team i := rfl
@[simp] theorem State.launch_putWg (s : State) (g : Nat) (w : Workgroup) (i : Nat) : (s.putWg g w).launch i = s.launch i := rfl
@[simp] theorem State.graph_putWg (s : State) (g : Nat) (w : Workgroup) (i : Nat) : (s.putWg g w).graph i = s.graph i := rfl
@[simp] theorem State.copy_putWg (s : State) (g : Nat) (w : Workgroup) (i : Nat) : (s.putWg g w).copy i = s.copy i := rfl
@[simp] theorem State.stream_putWg (s : State) (g : Nat) (w : Workgroup) (i : Nat) : (s.putWg g w).stream i = s.stream i := rfl
@[simp] theorem State.queue_putWg (s : State) (g : Nat) (w : Workgroup) (i : Nat) : (s.putWg g w).queue i = s.queue i := rfl
@[simp] theorem State.part_putWg (s : State) (g : Nat) (w : Workgroup) (i : Nat) : (s.putWg g w).part i = s.part i := rfl
@[simp] theorem State.cluster_putWg (s : State) (g : Nat) (w : Workgroup) (i : Nat) : (s.putWg g w).cluster i = s.cluster i := rfl
@[simp] theorem State.dreg_putWg (s : State) (g : Nat) (w : Workgroup) (i : Nat) : (s.putWg g w).dreg i = s.dreg i := rfl
@[simp] theorem State.team_dropWg (s : State) (g : Nat) (i : Nat) : (s.dropWg g).team i = s.team i := rfl
@[simp] theorem State.launch_dropWg (s : State) (g : Nat) (i : Nat) : (s.dropWg g).launch i = s.launch i := rfl
@[simp] theorem State.graph_dropWg (s : State) (g : Nat) (i : Nat) : (s.dropWg g).graph i = s.graph i := rfl
@[simp] theorem State.copy_dropWg (s : State) (g : Nat) (i : Nat) : (s.dropWg g).copy i = s.copy i := rfl
@[simp] theorem State.stream_dropWg (s : State) (g : Nat) (i : Nat) : (s.dropWg g).stream i = s.stream i := rfl
@[simp] theorem State.queue_dropWg (s : State) (g : Nat) (i : Nat) : (s.dropWg g).queue i = s.queue i := rfl
@[simp] theorem State.part_dropWg (s : State) (g : Nat) (i : Nat) : (s.dropWg g).part i = s.part i := rfl
@[simp] theorem State.cluster_dropWg (s : State) (g : Nat) (i : Nat) : (s.dropWg g).cluster i = s.cluster i := rfl
@[simp] theorem State.dreg_dropWg (s : State) (g : Nat) (i : Nat) : (s.dropWg g).dreg i = s.dreg i := rfl
@[simp] theorem State.team_putLaunch (s : State) (l : Nat) (x : Launch) (i : Nat) : (s.putLaunch l x).team i = s.team i := rfl
@[simp] theorem State.wg_putLaunch (s : State) (l : Nat) (x : Launch) (i : Nat) : (s.putLaunch l x).wg i = s.wg i := rfl
@[simp] theorem State.graph_putLaunch (s : State) (l : Nat) (x : Launch) (i : Nat) : (s.putLaunch l x).graph i = s.graph i := rfl
@[simp] theorem State.copy_putLaunch (s : State) (l : Nat) (x : Launch) (i : Nat) : (s.putLaunch l x).copy i = s.copy i := rfl
@[simp] theorem State.stream_putLaunch (s : State) (l : Nat) (x : Launch) (i : Nat) : (s.putLaunch l x).stream i = s.stream i := rfl
@[simp] theorem State.queue_putLaunch (s : State) (l : Nat) (x : Launch) (i : Nat) : (s.putLaunch l x).queue i = s.queue i := rfl
@[simp] theorem State.part_putLaunch (s : State) (l : Nat) (x : Launch) (i : Nat) : (s.putLaunch l x).part i = s.part i := rfl
@[simp] theorem State.cluster_putLaunch (s : State) (l : Nat) (x : Launch) (i : Nat) : (s.putLaunch l x).cluster i = s.cluster i := rfl
@[simp] theorem State.dreg_putLaunch (s : State) (l : Nat) (x : Launch) (i : Nat) : (s.putLaunch l x).dreg i = s.dreg i := rfl
@[simp] theorem State.team_dropLaunch (s : State) (l : Nat) (i : Nat) : (s.dropLaunch l).team i = s.team i := rfl
@[simp] theorem State.wg_dropLaunch (s : State) (l : Nat) (i : Nat) : (s.dropLaunch l).wg i = s.wg i := rfl
@[simp] theorem State.graph_dropLaunch (s : State) (l : Nat) (i : Nat) : (s.dropLaunch l).graph i = s.graph i := rfl
@[simp] theorem State.copy_dropLaunch (s : State) (l : Nat) (i : Nat) : (s.dropLaunch l).copy i = s.copy i := rfl
@[simp] theorem State.stream_dropLaunch (s : State) (l : Nat) (i : Nat) : (s.dropLaunch l).stream i = s.stream i := rfl
@[simp] theorem State.queue_dropLaunch (s : State) (l : Nat) (i : Nat) : (s.dropLaunch l).queue i = s.queue i := rfl
@[simp] theorem State.part_dropLaunch (s : State) (l : Nat) (i : Nat) : (s.dropLaunch l).part i = s.part i := rfl
@[simp] theorem State.cluster_dropLaunch (s : State) (l : Nat) (i : Nat) : (s.dropLaunch l).cluster i = s.cluster i := rfl
@[simp] theorem State.dreg_dropLaunch (s : State) (l : Nat) (i : Nat) : (s.dropLaunch l).dreg i = s.dreg i := rfl
@[simp] theorem State.team_putGraph (s : State) (g : Nat) (x : Graph) (i : Nat) : (s.putGraph g x).team i = s.team i := rfl
@[simp] theorem State.wg_putGraph (s : State) (g : Nat) (x : Graph) (i : Nat) : (s.putGraph g x).wg i = s.wg i := rfl
@[simp] theorem State.launch_putGraph (s : State) (g : Nat) (x : Graph) (i : Nat) : (s.putGraph g x).launch i = s.launch i := rfl
@[simp] theorem State.copy_putGraph (s : State) (g : Nat) (x : Graph) (i : Nat) : (s.putGraph g x).copy i = s.copy i := rfl
@[simp] theorem State.stream_putGraph (s : State) (g : Nat) (x : Graph) (i : Nat) : (s.putGraph g x).stream i = s.stream i := rfl
@[simp] theorem State.queue_putGraph (s : State) (g : Nat) (x : Graph) (i : Nat) : (s.putGraph g x).queue i = s.queue i := rfl
@[simp] theorem State.part_putGraph (s : State) (g : Nat) (x : Graph) (i : Nat) : (s.putGraph g x).part i = s.part i := rfl
@[simp] theorem State.cluster_putGraph (s : State) (g : Nat) (x : Graph) (i : Nat) : (s.putGraph g x).cluster i = s.cluster i := rfl
@[simp] theorem State.dreg_putGraph (s : State) (g : Nat) (x : Graph) (i : Nat) : (s.putGraph g x).dreg i = s.dreg i := rfl
@[simp] theorem State.team_dropGraph (s : State) (g : Nat) (i : Nat) : (s.dropGraph g).team i = s.team i := rfl
@[simp] theorem State.wg_dropGraph (s : State) (g : Nat) (i : Nat) : (s.dropGraph g).wg i = s.wg i := rfl
@[simp] theorem State.launch_dropGraph (s : State) (g : Nat) (i : Nat) : (s.dropGraph g).launch i = s.launch i := rfl
@[simp] theorem State.copy_dropGraph (s : State) (g : Nat) (i : Nat) : (s.dropGraph g).copy i = s.copy i := rfl
@[simp] theorem State.stream_dropGraph (s : State) (g : Nat) (i : Nat) : (s.dropGraph g).stream i = s.stream i := rfl
@[simp] theorem State.queue_dropGraph (s : State) (g : Nat) (i : Nat) : (s.dropGraph g).queue i = s.queue i := rfl
@[simp] theorem State.part_dropGraph (s : State) (g : Nat) (i : Nat) : (s.dropGraph g).part i = s.part i := rfl
@[simp] theorem State.cluster_dropGraph (s : State) (g : Nat) (i : Nat) : (s.dropGraph g).cluster i = s.cluster i := rfl
@[simp] theorem State.dreg_dropGraph (s : State) (g : Nat) (i : Nat) : (s.dropGraph g).dreg i = s.dreg i := rfl
@[simp] theorem State.team_putQueue (s : State) (q : Nat) (x : Queue) (i : Nat) : (s.putQueue q x).team i = s.team i := rfl
@[simp] theorem State.wg_putQueue (s : State) (q : Nat) (x : Queue) (i : Nat) : (s.putQueue q x).wg i = s.wg i := rfl
@[simp] theorem State.launch_putQueue (s : State) (q : Nat) (x : Queue) (i : Nat) : (s.putQueue q x).launch i = s.launch i := rfl
@[simp] theorem State.graph_putQueue (s : State) (q : Nat) (x : Queue) (i : Nat) : (s.putQueue q x).graph i = s.graph i := rfl
@[simp] theorem State.copy_putQueue (s : State) (q : Nat) (x : Queue) (i : Nat) : (s.putQueue q x).copy i = s.copy i := rfl
@[simp] theorem State.stream_putQueue (s : State) (q : Nat) (x : Queue) (i : Nat) : (s.putQueue q x).stream i = s.stream i := rfl
@[simp] theorem State.part_putQueue (s : State) (q : Nat) (x : Queue) (i : Nat) : (s.putQueue q x).part i = s.part i := rfl
@[simp] theorem State.cluster_putQueue (s : State) (q : Nat) (x : Queue) (i : Nat) : (s.putQueue q x).cluster i = s.cluster i := rfl
@[simp] theorem State.dreg_putQueue (s : State) (q : Nat) (x : Queue) (i : Nat) : (s.putQueue q x).dreg i = s.dreg i := rfl
@[simp] theorem State.team_putCopy (s : State) (k : Nat) (x : Copy) (i : Nat) : (s.putCopy k x).team i = s.team i := rfl
@[simp] theorem State.wg_putCopy (s : State) (k : Nat) (x : Copy) (i : Nat) : (s.putCopy k x).wg i = s.wg i := rfl
@[simp] theorem State.launch_putCopy (s : State) (k : Nat) (x : Copy) (i : Nat) : (s.putCopy k x).launch i = s.launch i := rfl
@[simp] theorem State.graph_putCopy (s : State) (k : Nat) (x : Copy) (i : Nat) : (s.putCopy k x).graph i = s.graph i := rfl
@[simp] theorem State.stream_putCopy (s : State) (k : Nat) (x : Copy) (i : Nat) : (s.putCopy k x).stream i = s.stream i := rfl
@[simp] theorem State.queue_putCopy (s : State) (k : Nat) (x : Copy) (i : Nat) : (s.putCopy k x).queue i = s.queue i := rfl
@[simp] theorem State.part_putCopy (s : State) (k : Nat) (x : Copy) (i : Nat) : (s.putCopy k x).part i = s.part i := rfl
@[simp] theorem State.cluster_putCopy (s : State) (k : Nat) (x : Copy) (i : Nat) : (s.putCopy k x).cluster i = s.cluster i := rfl
@[simp] theorem State.dreg_putCopy (s : State) (k : Nat) (x : Copy) (i : Nat) : (s.putCopy k x).dreg i = s.dreg i := rfl
@[simp] theorem State.team_dropCopy (s : State) (k : Nat) (i : Nat) : (s.dropCopy k).team i = s.team i := rfl
@[simp] theorem State.wg_dropCopy (s : State) (k : Nat) (i : Nat) : (s.dropCopy k).wg i = s.wg i := rfl
@[simp] theorem State.launch_dropCopy (s : State) (k : Nat) (i : Nat) : (s.dropCopy k).launch i = s.launch i := rfl
@[simp] theorem State.graph_dropCopy (s : State) (k : Nat) (i : Nat) : (s.dropCopy k).graph i = s.graph i := rfl
@[simp] theorem State.stream_dropCopy (s : State) (k : Nat) (i : Nat) : (s.dropCopy k).stream i = s.stream i := rfl
@[simp] theorem State.queue_dropCopy (s : State) (k : Nat) (i : Nat) : (s.dropCopy k).queue i = s.queue i := rfl
@[simp] theorem State.part_dropCopy (s : State) (k : Nat) (i : Nat) : (s.dropCopy k).part i = s.part i := rfl
@[simp] theorem State.cluster_dropCopy (s : State) (k : Nat) (i : Nat) : (s.dropCopy k).cluster i = s.cluster i := rfl
@[simp] theorem State.dreg_dropCopy (s : State) (k : Nat) (i : Nat) : (s.dropCopy k).dreg i = s.dreg i := rfl
@[simp] theorem State.team_putStream (s : State) (k : Nat) (x : Stream) (i : Nat) : (s.putStream k x).team i = s.team i := rfl
@[simp] theorem State.wg_putStream (s : State) (k : Nat) (x : Stream) (i : Nat) : (s.putStream k x).wg i = s.wg i := rfl
@[simp] theorem State.launch_putStream (s : State) (k : Nat) (x : Stream) (i : Nat) : (s.putStream k x).launch i = s.launch i := rfl
@[simp] theorem State.graph_putStream (s : State) (k : Nat) (x : Stream) (i : Nat) : (s.putStream k x).graph i = s.graph i := rfl
@[simp] theorem State.copy_putStream (s : State) (k : Nat) (x : Stream) (i : Nat) : (s.putStream k x).copy i = s.copy i := rfl
@[simp] theorem State.queue_putStream (s : State) (k : Nat) (x : Stream) (i : Nat) : (s.putStream k x).queue i = s.queue i := rfl
@[simp] theorem State.part_putStream (s : State) (k : Nat) (x : Stream) (i : Nat) : (s.putStream k x).part i = s.part i := rfl
@[simp] theorem State.cluster_putStream (s : State) (k : Nat) (x : Stream) (i : Nat) : (s.putStream k x).cluster i = s.cluster i := rfl
@[simp] theorem State.dreg_putStream (s : State) (k : Nat) (x : Stream) (i : Nat) : (s.putStream k x).dreg i = s.dreg i := rfl
@[simp] theorem State.team_dropStream (s : State) (k : Nat) (i : Nat) : (s.dropStream k).team i = s.team i := rfl
@[simp] theorem State.wg_dropStream (s : State) (k : Nat) (i : Nat) : (s.dropStream k).wg i = s.wg i := rfl
@[simp] theorem State.launch_dropStream (s : State) (k : Nat) (i : Nat) : (s.dropStream k).launch i = s.launch i := rfl
@[simp] theorem State.graph_dropStream (s : State) (k : Nat) (i : Nat) : (s.dropStream k).graph i = s.graph i := rfl
@[simp] theorem State.copy_dropStream (s : State) (k : Nat) (i : Nat) : (s.dropStream k).copy i = s.copy i := rfl
@[simp] theorem State.queue_dropStream (s : State) (k : Nat) (i : Nat) : (s.dropStream k).queue i = s.queue i := rfl
@[simp] theorem State.part_dropStream (s : State) (k : Nat) (i : Nat) : (s.dropStream k).part i = s.part i := rfl
@[simp] theorem State.cluster_dropStream (s : State) (k : Nat) (i : Nat) : (s.dropStream k).cluster i = s.cluster i := rfl
@[simp] theorem State.dreg_dropStream (s : State) (k : Nat) (i : Nat) : (s.dropStream k).dreg i = s.dreg i := rfl
@[simp] theorem State.team_putPart (s : State) (n : Nat) (x : Part) (i : Nat) : (s.putPart n x).team i = s.team i := rfl
@[simp] theorem State.wg_putPart (s : State) (n : Nat) (x : Part) (i : Nat) : (s.putPart n x).wg i = s.wg i := rfl
@[simp] theorem State.launch_putPart (s : State) (n : Nat) (x : Part) (i : Nat) : (s.putPart n x).launch i = s.launch i := rfl
@[simp] theorem State.graph_putPart (s : State) (n : Nat) (x : Part) (i : Nat) : (s.putPart n x).graph i = s.graph i := rfl
@[simp] theorem State.copy_putPart (s : State) (n : Nat) (x : Part) (i : Nat) : (s.putPart n x).copy i = s.copy i := rfl
@[simp] theorem State.stream_putPart (s : State) (n : Nat) (x : Part) (i : Nat) : (s.putPart n x).stream i = s.stream i := rfl
@[simp] theorem State.queue_putPart (s : State) (n : Nat) (x : Part) (i : Nat) : (s.putPart n x).queue i = s.queue i := rfl
@[simp] theorem State.cluster_putPart (s : State) (n : Nat) (x : Part) (i : Nat) : (s.putPart n x).cluster i = s.cluster i := rfl
@[simp] theorem State.dreg_putPart (s : State) (n : Nat) (x : Part) (i : Nat) : (s.putPart n x).dreg i = s.dreg i := rfl
@[simp] theorem State.team_putCluster (s : State) (c : Nat) (x : ClPower) (i : Nat) : (s.putCluster c x).team i = s.team i := rfl
@[simp] theorem State.wg_putCluster (s : State) (c : Nat) (x : ClPower) (i : Nat) : (s.putCluster c x).wg i = s.wg i := rfl
@[simp] theorem State.launch_putCluster (s : State) (c : Nat) (x : ClPower) (i : Nat) : (s.putCluster c x).launch i = s.launch i := rfl
@[simp] theorem State.graph_putCluster (s : State) (c : Nat) (x : ClPower) (i : Nat) : (s.putCluster c x).graph i = s.graph i := rfl
@[simp] theorem State.copy_putCluster (s : State) (c : Nat) (x : ClPower) (i : Nat) : (s.putCluster c x).copy i = s.copy i := rfl
@[simp] theorem State.stream_putCluster (s : State) (c : Nat) (x : ClPower) (i : Nat) : (s.putCluster c x).stream i = s.stream i := rfl
@[simp] theorem State.queue_putCluster (s : State) (c : Nat) (x : ClPower) (i : Nat) : (s.putCluster c x).queue i = s.queue i := rfl
@[simp] theorem State.part_putCluster (s : State) (c : Nat) (x : ClPower) (i : Nat) : (s.putCluster c x).part i = s.part i := rfl
@[simp] theorem State.dreg_putCluster (s : State) (c : Nat) (x : ClPower) (i : Nat) : (s.putCluster c x).dreg i = s.dreg i := rfl
@[simp] theorem State.team_nextId (s : State) (i : Nat) : (s.nextId).team i = s.team i := rfl
@[simp] theorem State.wg_nextId (s : State) (i : Nat) : (s.nextId).wg i = s.wg i := rfl
@[simp] theorem State.launch_nextId (s : State) (i : Nat) : (s.nextId).launch i = s.launch i := rfl
@[simp] theorem State.graph_nextId (s : State) (i : Nat) : (s.nextId).graph i = s.graph i := rfl
@[simp] theorem State.copy_nextId (s : State) (i : Nat) : (s.nextId).copy i = s.copy i := rfl
@[simp] theorem State.stream_nextId (s : State) (i : Nat) : (s.nextId).stream i = s.stream i := rfl
@[simp] theorem State.queue_nextId (s : State) (i : Nat) : (s.nextId).queue i = s.queue i := rfl
@[simp] theorem State.part_nextId (s : State) (i : Nat) : (s.nextId).part i = s.part i := rfl
@[simp] theorem State.cluster_nextId (s : State) (i : Nat) : (s.nextId).cluster i = s.cluster i := rfl
@[simp] theorem State.dreg_nextId (s : State) (i : Nat) : (s.nextId).dreg i = s.dreg i := rfl
@[simp] theorem State.team_bump (s : State) (i : Nat) : (s.bump).team i = s.team i := rfl
@[simp] theorem State.wg_bump (s : State) (i : Nat) : (s.bump).wg i = s.wg i := rfl
@[simp] theorem State.launch_bump (s : State) (i : Nat) : (s.bump).launch i = s.launch i := rfl
@[simp] theorem State.graph_bump (s : State) (i : Nat) : (s.bump).graph i = s.graph i := rfl
@[simp] theorem State.copy_bump (s : State) (i : Nat) : (s.bump).copy i = s.copy i := rfl
@[simp] theorem State.stream_bump (s : State) (i : Nat) : (s.bump).stream i = s.stream i := rfl
@[simp] theorem State.queue_bump (s : State) (i : Nat) : (s.bump).queue i = s.queue i := rfl
@[simp] theorem State.part_bump (s : State) (i : Nat) : (s.bump).part i = s.part i := rfl
@[simp] theorem State.cluster_bump (s : State) (i : Nat) : (s.bump).cluster i = s.cluster i := rfl
@[simp] theorem State.dreg_bump (s : State) (i : Nat) : (s.bump).dreg i = s.dreg i := rfl
@[simp] theorem State.team_putDreg (s : State) (a : Nat) (v : DWord) (i : Nat) : (s.putDreg a v).team i = s.team i := rfl
@[simp] theorem State.wg_putDreg (s : State) (a : Nat) (v : DWord) (i : Nat) : (s.putDreg a v).wg i = s.wg i := rfl
@[simp] theorem State.launch_putDreg (s : State) (a : Nat) (v : DWord) (i : Nat) : (s.putDreg a v).launch i = s.launch i := rfl
@[simp] theorem State.graph_putDreg (s : State) (a : Nat) (v : DWord) (i : Nat) : (s.putDreg a v).graph i = s.graph i := rfl
@[simp] theorem State.copy_putDreg (s : State) (a : Nat) (v : DWord) (i : Nat) : (s.putDreg a v).copy i = s.copy i := rfl
@[simp] theorem State.stream_putDreg (s : State) (a : Nat) (v : DWord) (i : Nat) : (s.putDreg a v).stream i = s.stream i := rfl
@[simp] theorem State.queue_putDreg (s : State) (a : Nat) (v : DWord) (i : Nat) : (s.putDreg a v).queue i = s.queue i := rfl
@[simp] theorem State.part_putDreg (s : State) (a : Nat) (v : DWord) (i : Nat) : (s.putDreg a v).part i = s.part i := rfl
@[simp] theorem State.cluster_putDreg (s : State) (a : Nat) (v : DWord) (i : Nat) : (s.putDreg a v).cluster i = s.cluster i := rfl
@[simp] theorem State.team_putCaddy (s : State) (k : Nat) (c : Caddy) (i : Nat) : (s.putCaddy k c).team i = s.team i := rfl
@[simp] theorem State.wg_putCaddy (s : State) (k : Nat) (c : Caddy) (i : Nat) : (s.putCaddy k c).wg i = s.wg i := rfl
@[simp] theorem State.launch_putCaddy (s : State) (k : Nat) (c : Caddy) (i : Nat) : (s.putCaddy k c).launch i = s.launch i := rfl
@[simp] theorem State.graph_putCaddy (s : State) (k : Nat) (c : Caddy) (i : Nat) : (s.putCaddy k c).graph i = s.graph i := rfl
@[simp] theorem State.copy_putCaddy (s : State) (k : Nat) (c : Caddy) (i : Nat) : (s.putCaddy k c).copy i = s.copy i := rfl
@[simp] theorem State.stream_putCaddy (s : State) (k : Nat) (c : Caddy) (i : Nat) : (s.putCaddy k c).stream i = s.stream i := rfl
@[simp] theorem State.queue_putCaddy (s : State) (k : Nat) (c : Caddy) (i : Nat) : (s.putCaddy k c).queue i = s.queue i := rfl
@[simp] theorem State.part_putCaddy (s : State) (k : Nat) (c : Caddy) (i : Nat) : (s.putCaddy k c).part i = s.part i := rfl
@[simp] theorem State.cluster_putCaddy (s : State) (k : Nat) (c : Caddy) (i : Nat) : (s.putCaddy k c).cluster i = s.cluster i := rfl
@[simp] theorem State.dreg_putCaddy (s : State) (k : Nat) (c : Caddy) (i : Nat) : (s.putCaddy k c).dreg i = s.dreg i := rfl
@[simp] theorem State.queue_putQueue_same (s : State) (k : Nat) (x : Queue) : (s.putQueue k x).queue k = x := by
  simp [State.queue, State.putQueue]
theorem State.queue_putQueue_other (s : State) {k k' : Nat} (x : Queue) (h : k' ≠ k) : (s.putQueue k x).queue k' = s.queue k' := by
  simp [State.queue, State.putQueue, fget_fset_other _ _ _ h]
@[simp] theorem State.part_putPart_same (s : State) (k : Nat) (x : Part) : (s.putPart k x).part k = x := by
  simp [State.part, State.putPart]
theorem State.part_putPart_other (s : State) {k k' : Nat} (x : Part) (h : k' ≠ k) : (s.putPart k x).part k' = s.part k' := by
  simp [State.part, State.putPart, fget_fset_other _ _ _ h]
@[simp] theorem State.cluster_putCluster_same (s : State) (k : Nat) (x : ClPower) : (s.putCluster k x).cluster k = x := by
  simp [State.cluster, State.putCluster]
theorem State.cluster_putCluster_other (s : State) {k k' : Nat} (x : ClPower) (h : k' ≠ k) : (s.putCluster k x).cluster k' = s.cluster k' := by
  simp [State.cluster, State.putCluster, fget_fset_other _ _ _ h]
@[simp] theorem State.dreg_putDreg_same (s : State) (k : Nat) (x : DWord) : (s.putDreg k x).dreg k = x := by
  simp [State.dreg, State.putDreg]
theorem State.dreg_putDreg_other (s : State) {k k' : Nat} (x : DWord) (h : k' ≠ k) : (s.putDreg k x).dreg k' = s.dreg k' := by
  simp [State.dreg, State.putDreg, fget_fset_other _ _ _ h]

/-! ### Team -/

@[simp] theorem Team.switchPark_wg (t : Team) (c : Clause) : (t.switchPark c).wg = t.wg := by unfold Team.switchPark; split <;> rfl
@[simp] theorem Team.switchPark_launch (t : Team) (c : Clause) : (t.switchPark c).launch = t.launch := by unfold Team.switchPark; split <;> rfl
@[simp] theorem Team.switchPark_teamId (t : Team) (c : Clause) : (t.switchPark c).teamId = t.teamId := by unfold Team.switchPark; split <;> rfl
@[simp] theorem Team.switchPark_lanes (t : Team) (c : Clause) : (t.switchPark c).lanes = t.lanes := by unfold Team.switchPark; split <;> rfl
@[simp] theorem Team.switchPark_nregs (t : Team) (c : Clause) : (t.switchPark c).nregs = t.nregs := by unfold Team.switchPark; split <;> rfl
@[simp] theorem Team.switchPark_regs (t : Team) (c : Clause) : (t.switchPark c).regs = t.regs := by unfold Team.switchPark; split <;> rfl
@[simp] theorem Team.switchPark_d (t : Team) (c : Clause) : (t.switchPark c).d = t.d := by unfold Team.switchPark; split <;> rfl
@[simp] theorem Team.switchPark_b (t : Team) (c : Clause) : (t.switchPark c).b = t.b := by unfold Team.switchPark; split <;> rfl
@[simp] theorem Team.switchPark_sr (t : Team) (c : Clause) : (t.switchPark c).sr = t.sr := by unfold Team.switchPark; split <;> rfl
@[simp] theorem Team.switchPark_fmt (t : Team) (c : Clause) : (t.switchPark c).fmt = t.fmt := by unfold Team.switchPark; split <;> rfl
@[simp] theorem Team.switchPark_fpstat (t : Team) (c : Clause) : (t.switchPark c).fpstat = t.fpstat := by unfold Team.switchPark; split <;> rfl
@[simp] theorem Team.switchPark_seed (t : Team) (c : Clause) : (t.switchPark c).seed = t.seed := by unfold Team.switchPark; split <;> rfl
@[simp] theorem Team.switchPark_fb (t : Team) (c : Clause) : (t.switchPark c).fb = t.fb := by unfold Team.switchPark; split <;> rfl
@[simp] theorem Team.switchPark_fsp (t : Team) (c : Clause) : (t.switchPark c).fsp = t.fsp := by unfold Team.switchPark; split <;> rfl
@[simp] theorem Team.switchPark_window (t : Team) (c : Clause) : (t.switchPark c).window = t.window := by unfold Team.switchPark; split <;> rfl
@[simp] theorem Team.switchPark_framesz (t : Team) (c : Clause) : (t.switchPark c).framesz = t.framesz := by unfold Team.switchPark; split <;> rfl
@[simp] theorem Team.switchPark_frame (t : Team) (c : Clause) : (t.switchPark c).frame = t.frame := by unfold Team.switchPark; split <;> rfl
@[simp] theorem Team.switchPark_frameBad (t : Team) (c : Clause) : (t.switchPark c).frameBad = t.frameBad := by unfold Team.switchPark; split <;> rfl
@[simp] theorem Team.switchPark_refs (t : Team) (c : Clause) : (t.switchPark c).refs = t.refs := by unfold Team.switchPark; split <;> rfl
@[simp] theorem Team.switchPark_head (t : Team) (c : Clause) : (t.switchPark c).head = t.head := by unfold Team.switchPark; split <;> rfl
@[simp] theorem Team.switchPark_tcause (t : Team) (c : Clause) : (t.switchPark c).tcause = t.tcause := by unfold Team.switchPark; split <;> rfl
@[simp] theorem Team.switchPark_tpc (t : Team) (c : Clause) : (t.switchPark c).tpc = t.tpc := by unfold Team.switchPark; split <;> rfl
@[simp] theorem Team.switchPark_taddr (t : Team) (c : Clause) : (t.switchPark c).taddr = t.taddr := by unfold Team.switchPark; split <;> rfl
@[simp] theorem Team.switchPark_tinfo (t : Team) (c : Clause) : (t.switchPark c).tinfo = t.tinfo := by unfold Team.switchPark; split <;> rfl
@[simp] theorem Team.switchPark_trapvec (t : Team) (c : Clause) : (t.switchPark c).trapvec = t.trapvec := by unfold Team.switchPark; split <;> rfl
@[simp] theorem Team.switchPark_inHandler (t : Team) (c : Clause) : (t.switchPark c).inHandler = t.inHandler := by unfold Team.switchPark; split <;> rfl
@[simp] theorem Team.switchPark_savedD (t : Team) (c : Clause) : (t.switchPark c).savedD = t.savedD := by unfold Team.switchPark; split <;> rfl
@[simp] theorem Team.switchPark_savedB (t : Team) (c : Clause) : (t.switchPark c).savedB = t.savedB := by unfold Team.switchPark; split <;> rfl
@[simp] theorem Team.switchPark_noticeEn (t : Team) (c : Clause) : (t.switchPark c).noticeEn = t.noticeEn := by unfold Team.switchPark; split <;> rfl
@[simp] theorem Team.switchPark_noticeFold (t : Team) (c : Clause) : (t.switchPark c).noticeFold = t.noticeFold := by unfold Team.switchPark; split <;> rfl
@[simp] theorem Team.switchPark_noticeCancel (t : Team) (c : Clause) : (t.switchPark c).noticeCancel = t.noticeCancel := by unfold Team.switchPark; split <;> rfl
@[simp] theorem Team.switchPark_cancelAt (t : Team) (c : Clause) : (t.switchPark c).cancelAt = t.cancelAt := by unfold Team.switchPark; split <;> rfl
@[simp] theorem Team.switchPark_priv (t : Team) (c : Clause) : (t.switchPark c).priv = t.priv := by unfold Team.switchPark; split <;> rfl
@[simp] theorem Team.switchPark_rlvl (t : Team) (c : Clause) : (t.switchPark c).rlvl = t.rlvl := by unfold Team.switchPark; split <;> rfl
@[simp] theorem Team.switchPark_lastRlvl (t : Team) (c : Clause) : (t.switchPark c).lastRlvl = t.lastRlvl := by unfold Team.switchPark; split <;> rfl
@[simp] theorem Team.switchPark_stamps (t : Team) (c : Clause) : (t.switchPark c).stamps = t.stamps := by unfold Team.switchPark; split <;> rfl
@[simp] theorem Team.switchPark_evicted (t : Team) (c : Clause) : (t.switchPark c).evicted = t.evicted := by unfold Team.switchPark; split <;> rfl
@[simp] theorem Team.switchPark_passOut (t : Team) (c : Clause) : (t.switchPark c).passOut = t.passOut := by unfold Team.switchPark; split <;> rfl
@[simp] theorem Team.switchPark_spill (t : Team) (c : Clause) : (t.switchPark c).spill = t.spill := by unfold Team.switchPark; split <;> rfl
@[simp] theorem Team.switchPark_clauseSeq (t : Team) (c : Clause) : (t.switchPark c).clauseSeq = t.clauseSeq := by unfold Team.switchPark; split <;> rfl
@[simp] theorem Team.switchPark_pc (t : Team) (c : Clause) : (t.switchPark c).pc = t.pc := by unfold Team.switchPark; split <;> rfl
@[simp] theorem Team.switchPark_resume (t : Team) (c : Clause) : (t.switchPark c).resume = t.resume := by unfold Team.switchPark; split <;> rfl
@[simp] theorem Team.switchPark_clause (t : Team) (c : Clause) : (t.switchPark c).clause = t.clause := by unfold Team.switchPark; split <;> rfl
@[simp] theorem Team.switchPark_slot (t : Team) (c : Clause) : (t.switchPark c).slot = t.slot := by unfold Team.switchPark; split <;> rfl
@[simp] theorem Team.switchPark_pend (t : Team) (c : Clause) : (t.switchPark c).pend = t.pend := by unfold Team.switchPark; split <;> rfl
@[simp] theorem Team.switchPark_nextWord (t : Team) (c : Clause) : (t.switchPark c).nextWord = t.nextWord := by unfold Team.switchPark; split <;> rfl
@[simp] theorem Team.switchPark_stores (t : Team) (c : Clause) : (t.switchPark c).stores = t.stores := by unfold Team.switchPark; split <;> rfl
@[simp] theorem Team.switchPark_storeGate (t : Team) (c : Clause) : (t.switchPark c).storeGate = t.storeGate := by unfold Team.switchPark; split <;> rfl
@[simp] theorem Team.switchPark_loads (t : Team) (c : Clause) : (t.switchPark c).loads = t.loads := by unfold Team.switchPark; split <;> rfl
@[simp] theorem Team.switchPark_status (t : Team) (c : Clause) : (t.switchPark c).status = t.status := by unfold Team.switchPark; split <;> rfl
@[simp] theorem Team.switchPark_pauseEnd (t : Team) (c : Clause) : (t.switchPark c).pauseEnd = t.pauseEnd := by unfold Team.switchPark; split <;> rfl
@[simp] theorem Team.switchPark_issueAt (t : Team) (c : Clause) : (t.switchPark c).issueAt = t.issueAt := by unfold Team.switchPark; split <;> rfl
@[simp] theorem Team.switchPark_reads (t : Team) (c : Clause) : (t.switchPark c).reads = t.reads := by unfold Team.switchPark; split <;> rfl
@[simp] theorem Team.switchPark_agent (t : Team) (c : Clause) : (t.switchPark c).agent = t.agent := by unfold Team.switchPark; split <;> rfl
@[simp] theorem Team.switchPark_order (t : Team) (c : Clause) : (t.switchPark c).order = t.order := by unfold Team.switchPark; split <;> rfl
@[simp] theorem Team.switchPark_copycs (t : Team) (c : Clause) : (t.switchPark c).copycs = t.copycs := by unfold Team.switchPark; split <;> rfl
@[simp] theorem Team.switchPark_doneSem (t : Team) (c : Clause) : (t.switchPark c).doneSem = t.doneSem := by unfold Team.switchPark; split <;> rfl

@[simp] theorem Team.goto_wg (t : Team) (a : DWord) : (t.goto a).wg = t.wg := rfl
@[simp] theorem Team.goto_launch (t : Team) (a : DWord) : (t.goto a).launch = t.launch := rfl
@[simp] theorem Team.goto_teamId (t : Team) (a : DWord) : (t.goto a).teamId = t.teamId := rfl
@[simp] theorem Team.goto_lanes (t : Team) (a : DWord) : (t.goto a).lanes = t.lanes := rfl
@[simp] theorem Team.goto_nregs (t : Team) (a : DWord) : (t.goto a).nregs = t.nregs := rfl
@[simp] theorem Team.goto_regs (t : Team) (a : DWord) : (t.goto a).regs = t.regs := rfl
@[simp] theorem Team.goto_d (t : Team) (a : DWord) : (t.goto a).d = t.d := rfl
@[simp] theorem Team.goto_b (t : Team) (a : DWord) : (t.goto a).b = t.b := rfl
@[simp] theorem Team.goto_sr (t : Team) (a : DWord) : (t.goto a).sr = t.sr := rfl
@[simp] theorem Team.goto_fmt (t : Team) (a : DWord) : (t.goto a).fmt = t.fmt := rfl
@[simp] theorem Team.goto_fpstat (t : Team) (a : DWord) : (t.goto a).fpstat = t.fpstat := rfl
@[simp] theorem Team.goto_seed (t : Team) (a : DWord) : (t.goto a).seed = t.seed := rfl
@[simp] theorem Team.goto_fb (t : Team) (a : DWord) : (t.goto a).fb = t.fb := rfl
@[simp] theorem Team.goto_fsp (t : Team) (a : DWord) : (t.goto a).fsp = t.fsp := rfl
@[simp] theorem Team.goto_window (t : Team) (a : DWord) : (t.goto a).window = t.window := rfl
@[simp] theorem Team.goto_framesz (t : Team) (a : DWord) : (t.goto a).framesz = t.framesz := rfl
@[simp] theorem Team.goto_frame (t : Team) (a : DWord) : (t.goto a).frame = t.frame := rfl
@[simp] theorem Team.goto_frameBad (t : Team) (a : DWord) : (t.goto a).frameBad = t.frameBad := rfl
@[simp] theorem Team.goto_refs (t : Team) (a : DWord) : (t.goto a).refs = t.refs := rfl
@[simp] theorem Team.goto_head (t : Team) (a : DWord) : (t.goto a).head = t.head := rfl
@[simp] theorem Team.goto_tcause (t : Team) (a : DWord) : (t.goto a).tcause = t.tcause := rfl
@[simp] theorem Team.goto_tpc (t : Team) (a : DWord) : (t.goto a).tpc = t.tpc := rfl
@[simp] theorem Team.goto_taddr (t : Team) (a : DWord) : (t.goto a).taddr = t.taddr := rfl
@[simp] theorem Team.goto_tinfo (t : Team) (a : DWord) : (t.goto a).tinfo = t.tinfo := rfl
@[simp] theorem Team.goto_trapvec (t : Team) (a : DWord) : (t.goto a).trapvec = t.trapvec := rfl
@[simp] theorem Team.goto_inHandler (t : Team) (a : DWord) : (t.goto a).inHandler = t.inHandler := rfl
@[simp] theorem Team.goto_savedD (t : Team) (a : DWord) : (t.goto a).savedD = t.savedD := rfl
@[simp] theorem Team.goto_savedB (t : Team) (a : DWord) : (t.goto a).savedB = t.savedB := rfl
@[simp] theorem Team.goto_noticeEn (t : Team) (a : DWord) : (t.goto a).noticeEn = t.noticeEn := rfl
@[simp] theorem Team.goto_noticeFold (t : Team) (a : DWord) : (t.goto a).noticeFold = t.noticeFold := rfl
@[simp] theorem Team.goto_noticeCancel (t : Team) (a : DWord) : (t.goto a).noticeCancel = t.noticeCancel := rfl
@[simp] theorem Team.goto_cancelAt (t : Team) (a : DWord) : (t.goto a).cancelAt = t.cancelAt := rfl
@[simp] theorem Team.goto_priv (t : Team) (a : DWord) : (t.goto a).priv = t.priv := rfl
@[simp] theorem Team.goto_rlvl (t : Team) (a : DWord) : (t.goto a).rlvl = t.rlvl := rfl
@[simp] theorem Team.goto_lastRlvl (t : Team) (a : DWord) : (t.goto a).lastRlvl = t.lastRlvl := rfl
@[simp] theorem Team.goto_stamps (t : Team) (a : DWord) : (t.goto a).stamps = t.stamps := rfl
@[simp] theorem Team.goto_evicted (t : Team) (a : DWord) : (t.goto a).evicted = t.evicted := rfl
@[simp] theorem Team.goto_passOut (t : Team) (a : DWord) : (t.goto a).passOut = t.passOut := rfl
@[simp] theorem Team.goto_spill (t : Team) (a : DWord) : (t.goto a).spill = t.spill := rfl
@[simp] theorem Team.goto_clauseSeq (t : Team) (a : DWord) : (t.goto a).clauseSeq = t.clauseSeq := rfl
@[simp] theorem Team.goto_park (t : Team) (a : DWord) : (t.goto a).park = t.park := rfl
@[simp] theorem Team.goto_pend (t : Team) (a : DWord) : (t.goto a).pend = t.pend := rfl
@[simp] theorem Team.goto_nextWord (t : Team) (a : DWord) : (t.goto a).nextWord = t.nextWord := rfl
@[simp] theorem Team.goto_stores (t : Team) (a : DWord) : (t.goto a).stores = t.stores := rfl
@[simp] theorem Team.goto_storeGate (t : Team) (a : DWord) : (t.goto a).storeGate = t.storeGate := rfl
@[simp] theorem Team.goto_loads (t : Team) (a : DWord) : (t.goto a).loads = t.loads := rfl
@[simp] theorem Team.goto_status (t : Team) (a : DWord) : (t.goto a).status = t.status := rfl
@[simp] theorem Team.goto_pauseEnd (t : Team) (a : DWord) : (t.goto a).pauseEnd = t.pauseEnd := rfl
@[simp] theorem Team.goto_issueAt (t : Team) (a : DWord) : (t.goto a).issueAt = t.issueAt := rfl
@[simp] theorem Team.goto_reads (t : Team) (a : DWord) : (t.goto a).reads = t.reads := rfl
@[simp] theorem Team.goto_agent (t : Team) (a : DWord) : (t.goto a).agent = t.agent := rfl
@[simp] theorem Team.goto_order (t : Team) (a : DWord) : (t.goto a).order = t.order := rfl
@[simp] theorem Team.goto_copycs (t : Team) (a : DWord) : (t.goto a).copycs = t.copycs := rfl
@[simp] theorem Team.goto_doneSem (t : Team) (a : DWord) : (t.goto a).doneSem = t.doneSem := rfl

@[simp] theorem Team.branch_wg (t : Team) (c : Clause) (a : DWord) : (t.branch c a).wg = t.wg := by simp [Team.branch]
@[simp] theorem Team.branch_launch (t : Team) (c : Clause) (a : DWord) : (t.branch c a).launch = t.launch := by simp [Team.branch]
@[simp] theorem Team.branch_teamId (t : Team) (c : Clause) (a : DWord) : (t.branch c a).teamId = t.teamId := by simp [Team.branch]
@[simp] theorem Team.branch_lanes (t : Team) (c : Clause) (a : DWord) : (t.branch c a).lanes = t.lanes := by simp [Team.branch]
@[simp] theorem Team.branch_nregs (t : Team) (c : Clause) (a : DWord) : (t.branch c a).nregs = t.nregs := by simp [Team.branch]
@[simp] theorem Team.branch_regs (t : Team) (c : Clause) (a : DWord) : (t.branch c a).regs = t.regs := by simp [Team.branch]
@[simp] theorem Team.branch_d (t : Team) (c : Clause) (a : DWord) : (t.branch c a).d = t.d := by simp [Team.branch]
@[simp] theorem Team.branch_b (t : Team) (c : Clause) (a : DWord) : (t.branch c a).b = t.b := by simp [Team.branch]
@[simp] theorem Team.branch_sr (t : Team) (c : Clause) (a : DWord) : (t.branch c a).sr = t.sr := by simp [Team.branch]
@[simp] theorem Team.branch_fmt (t : Team) (c : Clause) (a : DWord) : (t.branch c a).fmt = t.fmt := by simp [Team.branch]
@[simp] theorem Team.branch_fpstat (t : Team) (c : Clause) (a : DWord) : (t.branch c a).fpstat = t.fpstat := by simp [Team.branch]
@[simp] theorem Team.branch_seed (t : Team) (c : Clause) (a : DWord) : (t.branch c a).seed = t.seed := by simp [Team.branch]
@[simp] theorem Team.branch_fb (t : Team) (c : Clause) (a : DWord) : (t.branch c a).fb = t.fb := by simp [Team.branch]
@[simp] theorem Team.branch_fsp (t : Team) (c : Clause) (a : DWord) : (t.branch c a).fsp = t.fsp := by simp [Team.branch]
@[simp] theorem Team.branch_window (t : Team) (c : Clause) (a : DWord) : (t.branch c a).window = t.window := by simp [Team.branch]
@[simp] theorem Team.branch_framesz (t : Team) (c : Clause) (a : DWord) : (t.branch c a).framesz = t.framesz := by simp [Team.branch]
@[simp] theorem Team.branch_frame (t : Team) (c : Clause) (a : DWord) : (t.branch c a).frame = t.frame := by simp [Team.branch]
@[simp] theorem Team.branch_frameBad (t : Team) (c : Clause) (a : DWord) : (t.branch c a).frameBad = t.frameBad := by simp [Team.branch]
@[simp] theorem Team.branch_refs (t : Team) (c : Clause) (a : DWord) : (t.branch c a).refs = t.refs := by simp [Team.branch]
@[simp] theorem Team.branch_head (t : Team) (c : Clause) (a : DWord) : (t.branch c a).head = t.head := by simp [Team.branch]
@[simp] theorem Team.branch_tcause (t : Team) (c : Clause) (a : DWord) : (t.branch c a).tcause = t.tcause := by simp [Team.branch]
@[simp] theorem Team.branch_tpc (t : Team) (c : Clause) (a : DWord) : (t.branch c a).tpc = t.tpc := by simp [Team.branch]
@[simp] theorem Team.branch_taddr (t : Team) (c : Clause) (a : DWord) : (t.branch c a).taddr = t.taddr := by simp [Team.branch]
@[simp] theorem Team.branch_tinfo (t : Team) (c : Clause) (a : DWord) : (t.branch c a).tinfo = t.tinfo := by simp [Team.branch]
@[simp] theorem Team.branch_trapvec (t : Team) (c : Clause) (a : DWord) : (t.branch c a).trapvec = t.trapvec := by simp [Team.branch]
@[simp] theorem Team.branch_inHandler (t : Team) (c : Clause) (a : DWord) : (t.branch c a).inHandler = t.inHandler := by simp [Team.branch]
@[simp] theorem Team.branch_savedD (t : Team) (c : Clause) (a : DWord) : (t.branch c a).savedD = t.savedD := by simp [Team.branch]
@[simp] theorem Team.branch_savedB (t : Team) (c : Clause) (a : DWord) : (t.branch c a).savedB = t.savedB := by simp [Team.branch]
@[simp] theorem Team.branch_noticeEn (t : Team) (c : Clause) (a : DWord) : (t.branch c a).noticeEn = t.noticeEn := by simp [Team.branch]
@[simp] theorem Team.branch_noticeFold (t : Team) (c : Clause) (a : DWord) : (t.branch c a).noticeFold = t.noticeFold := by simp [Team.branch]
@[simp] theorem Team.branch_noticeCancel (t : Team) (c : Clause) (a : DWord) : (t.branch c a).noticeCancel = t.noticeCancel := by simp [Team.branch]
@[simp] theorem Team.branch_cancelAt (t : Team) (c : Clause) (a : DWord) : (t.branch c a).cancelAt = t.cancelAt := by simp [Team.branch]
@[simp] theorem Team.branch_priv (t : Team) (c : Clause) (a : DWord) : (t.branch c a).priv = t.priv := by simp [Team.branch]
@[simp] theorem Team.branch_rlvl (t : Team) (c : Clause) (a : DWord) : (t.branch c a).rlvl = t.rlvl := by simp [Team.branch]
@[simp] theorem Team.branch_lastRlvl (t : Team) (c : Clause) (a : DWord) : (t.branch c a).lastRlvl = t.lastRlvl := by simp [Team.branch]
@[simp] theorem Team.branch_stamps (t : Team) (c : Clause) (a : DWord) : (t.branch c a).stamps = t.stamps := by simp [Team.branch]
@[simp] theorem Team.branch_evicted (t : Team) (c : Clause) (a : DWord) : (t.branch c a).evicted = t.evicted := by simp [Team.branch]
@[simp] theorem Team.branch_passOut (t : Team) (c : Clause) (a : DWord) : (t.branch c a).passOut = t.passOut := by simp [Team.branch]
@[simp] theorem Team.branch_spill (t : Team) (c : Clause) (a : DWord) : (t.branch c a).spill = t.spill := by simp [Team.branch]
@[simp] theorem Team.branch_clauseSeq (t : Team) (c : Clause) (a : DWord) : (t.branch c a).clauseSeq = t.clauseSeq := by simp [Team.branch]
@[simp] theorem Team.branch_pend (t : Team) (c : Clause) (a : DWord) : (t.branch c a).pend = t.pend := by simp [Team.branch]
@[simp] theorem Team.branch_nextWord (t : Team) (c : Clause) (a : DWord) : (t.branch c a).nextWord = t.nextWord := by simp [Team.branch]
@[simp] theorem Team.branch_stores (t : Team) (c : Clause) (a : DWord) : (t.branch c a).stores = t.stores := by simp [Team.branch]
@[simp] theorem Team.branch_storeGate (t : Team) (c : Clause) (a : DWord) : (t.branch c a).storeGate = t.storeGate := by simp [Team.branch]
@[simp] theorem Team.branch_loads (t : Team) (c : Clause) (a : DWord) : (t.branch c a).loads = t.loads := by simp [Team.branch]
@[simp] theorem Team.branch_status (t : Team) (c : Clause) (a : DWord) : (t.branch c a).status = t.status := by simp [Team.branch]
@[simp] theorem Team.branch_pauseEnd (t : Team) (c : Clause) (a : DWord) : (t.branch c a).pauseEnd = t.pauseEnd := by simp [Team.branch]
@[simp] theorem Team.branch_issueAt (t : Team) (c : Clause) (a : DWord) : (t.branch c a).issueAt = t.issueAt := by simp [Team.branch]
@[simp] theorem Team.branch_reads (t : Team) (c : Clause) (a : DWord) : (t.branch c a).reads = t.reads := by simp [Team.branch]
@[simp] theorem Team.branch_agent (t : Team) (c : Clause) (a : DWord) : (t.branch c a).agent = t.agent := by simp [Team.branch]
@[simp] theorem Team.branch_order (t : Team) (c : Clause) (a : DWord) : (t.branch c a).order = t.order := by simp [Team.branch]
@[simp] theorem Team.branch_copycs (t : Team) (c : Clause) (a : DWord) : (t.branch c a).copycs = t.copycs := by simp [Team.branch]
@[simp] theorem Team.branch_doneSem (t : Team) (c : Clause) (a : DWord) : (t.branch c a).doneSem = t.doneSem := by simp [Team.branch]

@[simp] theorem Team.advance_wg (t : Team) (c : Clause) (n : Nat) : (t.advance c n).wg = t.wg := by unfold Team.advance; split <;> simp
@[simp] theorem Team.advance_launch (t : Team) (c : Clause) (n : Nat) : (t.advance c n).launch = t.launch := by unfold Team.advance; split <;> simp
@[simp] theorem Team.advance_teamId (t : Team) (c : Clause) (n : Nat) : (t.advance c n).teamId = t.teamId := by unfold Team.advance; split <;> simp
@[simp] theorem Team.advance_lanes (t : Team) (c : Clause) (n : Nat) : (t.advance c n).lanes = t.lanes := by unfold Team.advance; split <;> simp
@[simp] theorem Team.advance_nregs (t : Team) (c : Clause) (n : Nat) : (t.advance c n).nregs = t.nregs := by unfold Team.advance; split <;> simp
@[simp] theorem Team.advance_regs (t : Team) (c : Clause) (n : Nat) : (t.advance c n).regs = t.regs := by unfold Team.advance; split <;> simp
@[simp] theorem Team.advance_d (t : Team) (c : Clause) (n : Nat) : (t.advance c n).d = t.d := by unfold Team.advance; split <;> simp
@[simp] theorem Team.advance_b (t : Team) (c : Clause) (n : Nat) : (t.advance c n).b = t.b := by unfold Team.advance; split <;> simp
@[simp] theorem Team.advance_sr (t : Team) (c : Clause) (n : Nat) : (t.advance c n).sr = t.sr := by unfold Team.advance; split <;> simp
@[simp] theorem Team.advance_fmt (t : Team) (c : Clause) (n : Nat) : (t.advance c n).fmt = t.fmt := by unfold Team.advance; split <;> simp
@[simp] theorem Team.advance_fpstat (t : Team) (c : Clause) (n : Nat) : (t.advance c n).fpstat = t.fpstat := by unfold Team.advance; split <;> simp
@[simp] theorem Team.advance_seed (t : Team) (c : Clause) (n : Nat) : (t.advance c n).seed = t.seed := by unfold Team.advance; split <;> simp
@[simp] theorem Team.advance_fb (t : Team) (c : Clause) (n : Nat) : (t.advance c n).fb = t.fb := by unfold Team.advance; split <;> simp
@[simp] theorem Team.advance_fsp (t : Team) (c : Clause) (n : Nat) : (t.advance c n).fsp = t.fsp := by unfold Team.advance; split <;> simp
@[simp] theorem Team.advance_window (t : Team) (c : Clause) (n : Nat) : (t.advance c n).window = t.window := by unfold Team.advance; split <;> simp
@[simp] theorem Team.advance_framesz (t : Team) (c : Clause) (n : Nat) : (t.advance c n).framesz = t.framesz := by unfold Team.advance; split <;> simp
@[simp] theorem Team.advance_frame (t : Team) (c : Clause) (n : Nat) : (t.advance c n).frame = t.frame := by unfold Team.advance; split <;> simp
@[simp] theorem Team.advance_frameBad (t : Team) (c : Clause) (n : Nat) : (t.advance c n).frameBad = t.frameBad := by unfold Team.advance; split <;> simp
@[simp] theorem Team.advance_refs (t : Team) (c : Clause) (n : Nat) : (t.advance c n).refs = t.refs := by unfold Team.advance; split <;> simp
@[simp] theorem Team.advance_head (t : Team) (c : Clause) (n : Nat) : (t.advance c n).head = t.head := by unfold Team.advance; split <;> simp
@[simp] theorem Team.advance_tcause (t : Team) (c : Clause) (n : Nat) : (t.advance c n).tcause = t.tcause := by unfold Team.advance; split <;> simp
@[simp] theorem Team.advance_tpc (t : Team) (c : Clause) (n : Nat) : (t.advance c n).tpc = t.tpc := by unfold Team.advance; split <;> simp
@[simp] theorem Team.advance_taddr (t : Team) (c : Clause) (n : Nat) : (t.advance c n).taddr = t.taddr := by unfold Team.advance; split <;> simp
@[simp] theorem Team.advance_tinfo (t : Team) (c : Clause) (n : Nat) : (t.advance c n).tinfo = t.tinfo := by unfold Team.advance; split <;> simp
@[simp] theorem Team.advance_trapvec (t : Team) (c : Clause) (n : Nat) : (t.advance c n).trapvec = t.trapvec := by unfold Team.advance; split <;> simp
@[simp] theorem Team.advance_inHandler (t : Team) (c : Clause) (n : Nat) : (t.advance c n).inHandler = t.inHandler := by unfold Team.advance; split <;> simp
@[simp] theorem Team.advance_savedD (t : Team) (c : Clause) (n : Nat) : (t.advance c n).savedD = t.savedD := by unfold Team.advance; split <;> simp
@[simp] theorem Team.advance_savedB (t : Team) (c : Clause) (n : Nat) : (t.advance c n).savedB = t.savedB := by unfold Team.advance; split <;> simp
@[simp] theorem Team.advance_noticeEn (t : Team) (c : Clause) (n : Nat) : (t.advance c n).noticeEn = t.noticeEn := by unfold Team.advance; split <;> simp
@[simp] theorem Team.advance_noticeFold (t : Team) (c : Clause) (n : Nat) : (t.advance c n).noticeFold = t.noticeFold := by unfold Team.advance; split <;> simp
@[simp] theorem Team.advance_noticeCancel (t : Team) (c : Clause) (n : Nat) : (t.advance c n).noticeCancel = t.noticeCancel := by unfold Team.advance; split <;> simp
@[simp] theorem Team.advance_cancelAt (t : Team) (c : Clause) (n : Nat) : (t.advance c n).cancelAt = t.cancelAt := by unfold Team.advance; split <;> simp
@[simp] theorem Team.advance_priv (t : Team) (c : Clause) (n : Nat) : (t.advance c n).priv = t.priv := by unfold Team.advance; split <;> simp
@[simp] theorem Team.advance_rlvl (t : Team) (c : Clause) (n : Nat) : (t.advance c n).rlvl = t.rlvl := by unfold Team.advance; split <;> simp
@[simp] theorem Team.advance_lastRlvl (t : Team) (c : Clause) (n : Nat) : (t.advance c n).lastRlvl = t.lastRlvl := by unfold Team.advance; split <;> simp
@[simp] theorem Team.advance_stamps (t : Team) (c : Clause) (n : Nat) : (t.advance c n).stamps = t.stamps := by unfold Team.advance; split <;> simp
@[simp] theorem Team.advance_evicted (t : Team) (c : Clause) (n : Nat) : (t.advance c n).evicted = t.evicted := by unfold Team.advance; split <;> simp
@[simp] theorem Team.advance_passOut (t : Team) (c : Clause) (n : Nat) : (t.advance c n).passOut = t.passOut := by unfold Team.advance; split <;> simp
@[simp] theorem Team.advance_spill (t : Team) (c : Clause) (n : Nat) : (t.advance c n).spill = t.spill := by unfold Team.advance; split <;> simp
@[simp] theorem Team.advance_clauseSeq (t : Team) (c : Clause) (n : Nat) : (t.advance c n).clauseSeq = t.clauseSeq := by unfold Team.advance; split <;> simp
@[simp] theorem Team.advance_pend (t : Team) (c : Clause) (n : Nat) : (t.advance c n).pend = t.pend := by unfold Team.advance; split <;> simp
@[simp] theorem Team.advance_nextWord (t : Team) (c : Clause) (n : Nat) : (t.advance c n).nextWord = t.nextWord := by unfold Team.advance; split <;> simp
@[simp] theorem Team.advance_stores (t : Team) (c : Clause) (n : Nat) : (t.advance c n).stores = t.stores := by unfold Team.advance; split <;> simp
@[simp] theorem Team.advance_storeGate (t : Team) (c : Clause) (n : Nat) : (t.advance c n).storeGate = t.storeGate := by unfold Team.advance; split <;> simp
@[simp] theorem Team.advance_loads (t : Team) (c : Clause) (n : Nat) : (t.advance c n).loads = t.loads := by unfold Team.advance; split <;> simp
@[simp] theorem Team.advance_status (t : Team) (c : Clause) (n : Nat) : (t.advance c n).status = t.status := by unfold Team.advance; split <;> simp
@[simp] theorem Team.advance_pauseEnd (t : Team) (c : Clause) (n : Nat) : (t.advance c n).pauseEnd = t.pauseEnd := by unfold Team.advance; split <;> simp
@[simp] theorem Team.advance_issueAt (t : Team) (c : Clause) (n : Nat) : (t.advance c n).issueAt = t.issueAt := by unfold Team.advance; split <;> simp
@[simp] theorem Team.advance_reads (t : Team) (c : Clause) (n : Nat) : (t.advance c n).reads = t.reads := by unfold Team.advance; split <;> simp
@[simp] theorem Team.advance_agent (t : Team) (c : Clause) (n : Nat) : (t.advance c n).agent = t.agent := by unfold Team.advance; split <;> simp
@[simp] theorem Team.advance_order (t : Team) (c : Clause) (n : Nat) : (t.advance c n).order = t.order := by unfold Team.advance; split <;> simp
@[simp] theorem Team.advance_copycs (t : Team) (c : Clause) (n : Nat) : (t.advance c n).copycs = t.copycs := by unfold Team.advance; split <;> simp
@[simp] theorem Team.advance_doneSem (t : Team) (c : Clause) (n : Nat) : (t.advance c n).doneSem = t.doneSem := by unfold Team.advance; split <;> simp

@[simp] theorem Team.putReg_wg (t : Team) (r l : Nat) (v : Word) : (t.putReg r l v).wg = t.wg := rfl
@[simp] theorem Team.putReg_launch (t : Team) (r l : Nat) (v : Word) : (t.putReg r l v).launch = t.launch := rfl
@[simp] theorem Team.putReg_teamId (t : Team) (r l : Nat) (v : Word) : (t.putReg r l v).teamId = t.teamId := rfl
@[simp] theorem Team.putReg_lanes (t : Team) (r l : Nat) (v : Word) : (t.putReg r l v).lanes = t.lanes := rfl
@[simp] theorem Team.putReg_nregs (t : Team) (r l : Nat) (v : Word) : (t.putReg r l v).nregs = t.nregs := rfl
@[simp] theorem Team.putReg_d (t : Team) (r l : Nat) (v : Word) : (t.putReg r l v).d = t.d := rfl
@[simp] theorem Team.putReg_b (t : Team) (r l : Nat) (v : Word) : (t.putReg r l v).b = t.b := rfl
@[simp] theorem Team.putReg_sr (t : Team) (r l : Nat) (v : Word) : (t.putReg r l v).sr = t.sr := rfl
@[simp] theorem Team.putReg_fmt (t : Team) (r l : Nat) (v : Word) : (t.putReg r l v).fmt = t.fmt := rfl
@[simp] theorem Team.putReg_fpstat (t : Team) (r l : Nat) (v : Word) : (t.putReg r l v).fpstat = t.fpstat := rfl
@[simp] theorem Team.putReg_seed (t : Team) (r l : Nat) (v : Word) : (t.putReg r l v).seed = t.seed := rfl
@[simp] theorem Team.putReg_fb (t : Team) (r l : Nat) (v : Word) : (t.putReg r l v).fb = t.fb := rfl
@[simp] theorem Team.putReg_fsp (t : Team) (r l : Nat) (v : Word) : (t.putReg r l v).fsp = t.fsp := rfl
@[simp] theorem Team.putReg_window (t : Team) (r l : Nat) (v : Word) : (t.putReg r l v).window = t.window := rfl
@[simp] theorem Team.putReg_framesz (t : Team) (r l : Nat) (v : Word) : (t.putReg r l v).framesz = t.framesz := rfl
@[simp] theorem Team.putReg_frame (t : Team) (r l : Nat) (v : Word) : (t.putReg r l v).frame = t.frame := rfl
@[simp] theorem Team.putReg_frameBad (t : Team) (r l : Nat) (v : Word) : (t.putReg r l v).frameBad = t.frameBad := rfl
@[simp] theorem Team.putReg_refs (t : Team) (r l : Nat) (v : Word) : (t.putReg r l v).refs = t.refs := rfl
@[simp] theorem Team.putReg_head (t : Team) (r l : Nat) (v : Word) : (t.putReg r l v).head = t.head := rfl
@[simp] theorem Team.putReg_tcause (t : Team) (r l : Nat) (v : Word) : (t.putReg r l v).tcause = t.tcause := rfl
@[simp] theorem Team.putReg_tpc (t : Team) (r l : Nat) (v : Word) : (t.putReg r l v).tpc = t.tpc := rfl
@[simp] theorem Team.putReg_taddr (t : Team) (r l : Nat) (v : Word) : (t.putReg r l v).taddr = t.taddr := rfl
@[simp] theorem Team.putReg_tinfo (t : Team) (r l : Nat) (v : Word) : (t.putReg r l v).tinfo = t.tinfo := rfl
@[simp] theorem Team.putReg_trapvec (t : Team) (r l : Nat) (v : Word) : (t.putReg r l v).trapvec = t.trapvec := rfl
@[simp] theorem Team.putReg_inHandler (t : Team) (r l : Nat) (v : Word) : (t.putReg r l v).inHandler = t.inHandler := rfl
@[simp] theorem Team.putReg_savedD (t : Team) (r l : Nat) (v : Word) : (t.putReg r l v).savedD = t.savedD := rfl
@[simp] theorem Team.putReg_savedB (t : Team) (r l : Nat) (v : Word) : (t.putReg r l v).savedB = t.savedB := rfl
@[simp] theorem Team.putReg_noticeEn (t : Team) (r l : Nat) (v : Word) : (t.putReg r l v).noticeEn = t.noticeEn := rfl
@[simp] theorem Team.putReg_noticeFold (t : Team) (r l : Nat) (v : Word) : (t.putReg r l v).noticeFold = t.noticeFold := rfl
@[simp] theorem Team.putReg_noticeCancel (t : Team) (r l : Nat) (v : Word) : (t.putReg r l v).noticeCancel = t.noticeCancel := rfl
@[simp] theorem Team.putReg_cancelAt (t : Team) (r l : Nat) (v : Word) : (t.putReg r l v).cancelAt = t.cancelAt := rfl
@[simp] theorem Team.putReg_priv (t : Team) (r l : Nat) (v : Word) : (t.putReg r l v).priv = t.priv := rfl
@[simp] theorem Team.putReg_rlvl (t : Team) (r l : Nat) (v : Word) : (t.putReg r l v).rlvl = t.rlvl := rfl
@[simp] theorem Team.putReg_lastRlvl (t : Team) (r l : Nat) (v : Word) : (t.putReg r l v).lastRlvl = t.lastRlvl := rfl
@[simp] theorem Team.putReg_stamps (t : Team) (r l : Nat) (v : Word) : (t.putReg r l v).stamps = t.stamps := rfl
@[simp] theorem Team.putReg_evicted (t : Team) (r l : Nat) (v : Word) : (t.putReg r l v).evicted = t.evicted := rfl
@[simp] theorem Team.putReg_passOut (t : Team) (r l : Nat) (v : Word) : (t.putReg r l v).passOut = t.passOut := rfl
@[simp] theorem Team.putReg_spill (t : Team) (r l : Nat) (v : Word) : (t.putReg r l v).spill = t.spill := rfl
@[simp] theorem Team.putReg_clauseSeq (t : Team) (r l : Nat) (v : Word) : (t.putReg r l v).clauseSeq = t.clauseSeq := rfl
@[simp] theorem Team.putReg_pc (t : Team) (r l : Nat) (v : Word) : (t.putReg r l v).pc = t.pc := rfl
@[simp] theorem Team.putReg_resume (t : Team) (r l : Nat) (v : Word) : (t.putReg r l v).resume = t.resume := rfl
@[simp] theorem Team.putReg_clause (t : Team) (r l : Nat) (v : Word) : (t.putReg r l v).clause = t.clause := rfl
@[simp] theorem Team.putReg_slot (t : Team) (r l : Nat) (v : Word) : (t.putReg r l v).slot = t.slot := rfl
@[simp] theorem Team.putReg_park (t : Team) (r l : Nat) (v : Word) : (t.putReg r l v).park = t.park := rfl
@[simp] theorem Team.putReg_pend (t : Team) (r l : Nat) (v : Word) : (t.putReg r l v).pend = t.pend := rfl
@[simp] theorem Team.putReg_nextWord (t : Team) (r l : Nat) (v : Word) : (t.putReg r l v).nextWord = t.nextWord := rfl
@[simp] theorem Team.putReg_stores (t : Team) (r l : Nat) (v : Word) : (t.putReg r l v).stores = t.stores := rfl
@[simp] theorem Team.putReg_storeGate (t : Team) (r l : Nat) (v : Word) : (t.putReg r l v).storeGate = t.storeGate := rfl
@[simp] theorem Team.putReg_loads (t : Team) (r l : Nat) (v : Word) : (t.putReg r l v).loads = t.loads := rfl
@[simp] theorem Team.putReg_status (t : Team) (r l : Nat) (v : Word) : (t.putReg r l v).status = t.status := rfl
@[simp] theorem Team.putReg_pauseEnd (t : Team) (r l : Nat) (v : Word) : (t.putReg r l v).pauseEnd = t.pauseEnd := rfl
@[simp] theorem Team.putReg_issueAt (t : Team) (r l : Nat) (v : Word) : (t.putReg r l v).issueAt = t.issueAt := rfl
@[simp] theorem Team.putReg_reads (t : Team) (r l : Nat) (v : Word) : (t.putReg r l v).reads = t.reads := rfl
@[simp] theorem Team.putReg_agent (t : Team) (r l : Nat) (v : Word) : (t.putReg r l v).agent = t.agent := rfl
@[simp] theorem Team.putReg_order (t : Team) (r l : Nat) (v : Word) : (t.putReg r l v).order = t.order := rfl
@[simp] theorem Team.putReg_copycs (t : Team) (r l : Nat) (v : Word) : (t.putReg r l v).copycs = t.copycs := rfl
@[simp] theorem Team.putReg_doneSem (t : Team) (r l : Nat) (v : Word) : (t.putReg r l v).doneSem = t.doneSem := rfl

@[simp] theorem Team.putLanes_wg (t : Team) (r : Nat) (ls : List Nat) (f : Nat → Word) : (t.putLanes r ls f).wg = t.wg := rfl
@[simp] theorem Team.putLanes_launch (t : Team) (r : Nat) (ls : List Nat) (f : Nat → Word) : (t.putLanes r ls f).launch = t.launch := rfl
@[simp] theorem Team.putLanes_teamId (t : Team) (r : Nat) (ls : List Nat) (f : Nat → Word) : (t.putLanes r ls f).teamId = t.teamId := rfl
@[simp] theorem Team.putLanes_lanes (t : Team) (r : Nat) (ls : List Nat) (f : Nat → Word) : (t.putLanes r ls f).lanes = t.lanes := rfl
@[simp] theorem Team.putLanes_nregs (t : Team) (r : Nat) (ls : List Nat) (f : Nat → Word) : (t.putLanes r ls f).nregs = t.nregs := rfl
@[simp] theorem Team.putLanes_d (t : Team) (r : Nat) (ls : List Nat) (f : Nat → Word) : (t.putLanes r ls f).d = t.d := rfl
@[simp] theorem Team.putLanes_b (t : Team) (r : Nat) (ls : List Nat) (f : Nat → Word) : (t.putLanes r ls f).b = t.b := rfl
@[simp] theorem Team.putLanes_sr (t : Team) (r : Nat) (ls : List Nat) (f : Nat → Word) : (t.putLanes r ls f).sr = t.sr := rfl
@[simp] theorem Team.putLanes_fmt (t : Team) (r : Nat) (ls : List Nat) (f : Nat → Word) : (t.putLanes r ls f).fmt = t.fmt := rfl
@[simp] theorem Team.putLanes_fpstat (t : Team) (r : Nat) (ls : List Nat) (f : Nat → Word) : (t.putLanes r ls f).fpstat = t.fpstat := rfl
@[simp] theorem Team.putLanes_seed (t : Team) (r : Nat) (ls : List Nat) (f : Nat → Word) : (t.putLanes r ls f).seed = t.seed := rfl
@[simp] theorem Team.putLanes_fb (t : Team) (r : Nat) (ls : List Nat) (f : Nat → Word) : (t.putLanes r ls f).fb = t.fb := rfl
@[simp] theorem Team.putLanes_fsp (t : Team) (r : Nat) (ls : List Nat) (f : Nat → Word) : (t.putLanes r ls f).fsp = t.fsp := rfl
@[simp] theorem Team.putLanes_window (t : Team) (r : Nat) (ls : List Nat) (f : Nat → Word) : (t.putLanes r ls f).window = t.window := rfl
@[simp] theorem Team.putLanes_framesz (t : Team) (r : Nat) (ls : List Nat) (f : Nat → Word) : (t.putLanes r ls f).framesz = t.framesz := rfl
@[simp] theorem Team.putLanes_frame (t : Team) (r : Nat) (ls : List Nat) (f : Nat → Word) : (t.putLanes r ls f).frame = t.frame := rfl
@[simp] theorem Team.putLanes_frameBad (t : Team) (r : Nat) (ls : List Nat) (f : Nat → Word) : (t.putLanes r ls f).frameBad = t.frameBad := rfl
@[simp] theorem Team.putLanes_refs (t : Team) (r : Nat) (ls : List Nat) (f : Nat → Word) : (t.putLanes r ls f).refs = t.refs := rfl
@[simp] theorem Team.putLanes_head (t : Team) (r : Nat) (ls : List Nat) (f : Nat → Word) : (t.putLanes r ls f).head = t.head := rfl
@[simp] theorem Team.putLanes_tcause (t : Team) (r : Nat) (ls : List Nat) (f : Nat → Word) : (t.putLanes r ls f).tcause = t.tcause := rfl
@[simp] theorem Team.putLanes_tpc (t : Team) (r : Nat) (ls : List Nat) (f : Nat → Word) : (t.putLanes r ls f).tpc = t.tpc := rfl
@[simp] theorem Team.putLanes_taddr (t : Team) (r : Nat) (ls : List Nat) (f : Nat → Word) : (t.putLanes r ls f).taddr = t.taddr := rfl
@[simp] theorem Team.putLanes_tinfo (t : Team) (r : Nat) (ls : List Nat) (f : Nat → Word) : (t.putLanes r ls f).tinfo = t.tinfo := rfl
@[simp] theorem Team.putLanes_trapvec (t : Team) (r : Nat) (ls : List Nat) (f : Nat → Word) : (t.putLanes r ls f).trapvec = t.trapvec := rfl
@[simp] theorem Team.putLanes_inHandler (t : Team) (r : Nat) (ls : List Nat) (f : Nat → Word) : (t.putLanes r ls f).inHandler = t.inHandler := rfl
@[simp] theorem Team.putLanes_savedD (t : Team) (r : Nat) (ls : List Nat) (f : Nat → Word) : (t.putLanes r ls f).savedD = t.savedD := rfl
@[simp] theorem Team.putLanes_savedB (t : Team) (r : Nat) (ls : List Nat) (f : Nat → Word) : (t.putLanes r ls f).savedB = t.savedB := rfl
@[simp] theorem Team.putLanes_noticeEn (t : Team) (r : Nat) (ls : List Nat) (f : Nat → Word) : (t.putLanes r ls f).noticeEn = t.noticeEn := rfl
@[simp] theorem Team.putLanes_noticeFold (t : Team) (r : Nat) (ls : List Nat) (f : Nat → Word) : (t.putLanes r ls f).noticeFold = t.noticeFold := rfl
@[simp] theorem Team.putLanes_noticeCancel (t : Team) (r : Nat) (ls : List Nat) (f : Nat → Word) : (t.putLanes r ls f).noticeCancel = t.noticeCancel := rfl
@[simp] theorem Team.putLanes_cancelAt (t : Team) (r : Nat) (ls : List Nat) (f : Nat → Word) : (t.putLanes r ls f).cancelAt = t.cancelAt := rfl
@[simp] theorem Team.putLanes_priv (t : Team) (r : Nat) (ls : List Nat) (f : Nat → Word) : (t.putLanes r ls f).priv = t.priv := rfl
@[simp] theorem Team.putLanes_rlvl (t : Team) (r : Nat) (ls : List Nat) (f : Nat → Word) : (t.putLanes r ls f).rlvl = t.rlvl := rfl
@[simp] theorem Team.putLanes_lastRlvl (t : Team) (r : Nat) (ls : List Nat) (f : Nat → Word) : (t.putLanes r ls f).lastRlvl = t.lastRlvl := rfl
@[simp] theorem Team.putLanes_stamps (t : Team) (r : Nat) (ls : List Nat) (f : Nat → Word) : (t.putLanes r ls f).stamps = t.stamps := rfl
@[simp] theorem Team.putLanes_evicted (t : Team) (r : Nat) (ls : List Nat) (f : Nat → Word) : (t.putLanes r ls f).evicted = t.evicted := rfl
@[simp] theorem Team.putLanes_passOut (t : Team) (r : Nat) (ls : List Nat) (f : Nat → Word) : (t.putLanes r ls f).passOut = t.passOut := rfl
@[simp] theorem Team.putLanes_spill (t : Team) (r : Nat) (ls : List Nat) (f : Nat → Word) : (t.putLanes r ls f).spill = t.spill := rfl
@[simp] theorem Team.putLanes_clauseSeq (t : Team) (r : Nat) (ls : List Nat) (f : Nat → Word) : (t.putLanes r ls f).clauseSeq = t.clauseSeq := rfl
@[simp] theorem Team.putLanes_pc (t : Team) (r : Nat) (ls : List Nat) (f : Nat → Word) : (t.putLanes r ls f).pc = t.pc := rfl
@[simp] theorem Team.putLanes_resume (t : Team) (r : Nat) (ls : List Nat) (f : Nat → Word) : (t.putLanes r ls f).resume = t.resume := rfl
@[simp] theorem Team.putLanes_clause (t : Team) (r : Nat) (ls : List Nat) (f : Nat → Word) : (t.putLanes r ls f).clause = t.clause := rfl
@[simp] theorem Team.putLanes_slot (t : Team) (r : Nat) (ls : List Nat) (f : Nat → Word) : (t.putLanes r ls f).slot = t.slot := rfl
@[simp] theorem Team.putLanes_park (t : Team) (r : Nat) (ls : List Nat) (f : Nat → Word) : (t.putLanes r ls f).park = t.park := rfl
@[simp] theorem Team.putLanes_pend (t : Team) (r : Nat) (ls : List Nat) (f : Nat → Word) : (t.putLanes r ls f).pend = t.pend := rfl
@[simp] theorem Team.putLanes_nextWord (t : Team) (r : Nat) (ls : List Nat) (f : Nat → Word) : (t.putLanes r ls f).nextWord = t.nextWord := rfl
@[simp] theorem Team.putLanes_stores (t : Team) (r : Nat) (ls : List Nat) (f : Nat → Word) : (t.putLanes r ls f).stores = t.stores := rfl
@[simp] theorem Team.putLanes_storeGate (t : Team) (r : Nat) (ls : List Nat) (f : Nat → Word) : (t.putLanes r ls f).storeGate = t.storeGate := rfl
@[simp] theorem Team.putLanes_loads (t : Team) (r : Nat) (ls : List Nat) (f : Nat → Word) : (t.putLanes r ls f).loads = t.loads := rfl
@[simp] theorem Team.putLanes_status (t : Team) (r : Nat) (ls : List Nat) (f : Nat → Word) : (t.putLanes r ls f).status = t.status := rfl
@[simp] theorem Team.putLanes_pauseEnd (t : Team) (r : Nat) (ls : List Nat) (f : Nat → Word) : (t.putLanes r ls f).pauseEnd = t.pauseEnd := rfl
@[simp] theorem Team.putLanes_issueAt (t : Team) (r : Nat) (ls : List Nat) (f : Nat → Word) : (t.putLanes r ls f).issueAt = t.issueAt := rfl
@[simp] theorem Team.putLanes_reads (t : Team) (r : Nat) (ls : List Nat) (f : Nat → Word) : (t.putLanes r ls f).reads = t.reads := rfl
@[simp] theorem Team.putLanes_agent (t : Team) (r : Nat) (ls : List Nat) (f : Nat → Word) : (t.putLanes r ls f).agent = t.agent := rfl
@[simp] theorem Team.putLanes_order (t : Team) (r : Nat) (ls : List Nat) (f : Nat → Word) : (t.putLanes r ls f).order = t.order := rfl
@[simp] theorem Team.putLanes_copycs (t : Team) (r : Nat) (ls : List Nat) (f : Nat → Word) : (t.putLanes r ls f).copycs = t.copycs := rfl
@[simp] theorem Team.putLanes_doneSem (t : Team) (r : Nat) (ls : List Nat) (f : Nat → Word) : (t.putLanes r ls f).doneSem = t.doneSem := rfl

@[simp] theorem Team.putActive_wg (t : Team) (r : Nat) (f : Nat → Word) : (t.putActive r f).wg = t.wg := rfl
@[simp] theorem Team.putActive_launch (t : Team) (r : Nat) (f : Nat → Word) : (t.putActive r f).launch = t.launch := rfl
@[simp] theorem Team.putActive_teamId (t : Team) (r : Nat) (f : Nat → Word) : (t.putActive r f).teamId = t.teamId := rfl
@[simp] theorem Team.putActive_lanes (t : Team) (r : Nat) (f : Nat → Word) : (t.putActive r f).lanes = t.lanes := rfl
@[simp] theorem Team.putActive_nregs (t : Team) (r : Nat) (f : Nat → Word) : (t.putActive r f).nregs = t.nregs := rfl
@[simp] theorem Team.putActive_d (t : Team) (r : Nat) (f : Nat → Word) : (t.putActive r f).d = t.d := rfl
@[simp] theorem Team.putActive_b (t : Team) (r : Nat) (f : Nat → Word) : (t.putActive r f).b = t.b := rfl
@[simp] theorem Team.putActive_sr (t : Team) (r : Nat) (f : Nat → Word) : (t.putActive r f).sr = t.sr := rfl
@[simp] theorem Team.putActive_fmt (t : Team) (r : Nat) (f : Nat → Word) : (t.putActive r f).fmt = t.fmt := rfl
@[simp] theorem Team.putActive_fpstat (t : Team) (r : Nat) (f : Nat → Word) : (t.putActive r f).fpstat = t.fpstat := rfl
@[simp] theorem Team.putActive_seed (t : Team) (r : Nat) (f : Nat → Word) : (t.putActive r f).seed = t.seed := rfl
@[simp] theorem Team.putActive_fb (t : Team) (r : Nat) (f : Nat → Word) : (t.putActive r f).fb = t.fb := rfl
@[simp] theorem Team.putActive_fsp (t : Team) (r : Nat) (f : Nat → Word) : (t.putActive r f).fsp = t.fsp := rfl
@[simp] theorem Team.putActive_window (t : Team) (r : Nat) (f : Nat → Word) : (t.putActive r f).window = t.window := rfl
@[simp] theorem Team.putActive_framesz (t : Team) (r : Nat) (f : Nat → Word) : (t.putActive r f).framesz = t.framesz := rfl
@[simp] theorem Team.putActive_frame (t : Team) (r : Nat) (f : Nat → Word) : (t.putActive r f).frame = t.frame := rfl
@[simp] theorem Team.putActive_frameBad (t : Team) (r : Nat) (f : Nat → Word) : (t.putActive r f).frameBad = t.frameBad := rfl
@[simp] theorem Team.putActive_refs (t : Team) (r : Nat) (f : Nat → Word) : (t.putActive r f).refs = t.refs := rfl
@[simp] theorem Team.putActive_head (t : Team) (r : Nat) (f : Nat → Word) : (t.putActive r f).head = t.head := rfl
@[simp] theorem Team.putActive_tcause (t : Team) (r : Nat) (f : Nat → Word) : (t.putActive r f).tcause = t.tcause := rfl
@[simp] theorem Team.putActive_tpc (t : Team) (r : Nat) (f : Nat → Word) : (t.putActive r f).tpc = t.tpc := rfl
@[simp] theorem Team.putActive_taddr (t : Team) (r : Nat) (f : Nat → Word) : (t.putActive r f).taddr = t.taddr := rfl
@[simp] theorem Team.putActive_tinfo (t : Team) (r : Nat) (f : Nat → Word) : (t.putActive r f).tinfo = t.tinfo := rfl
@[simp] theorem Team.putActive_trapvec (t : Team) (r : Nat) (f : Nat → Word) : (t.putActive r f).trapvec = t.trapvec := rfl
@[simp] theorem Team.putActive_inHandler (t : Team) (r : Nat) (f : Nat → Word) : (t.putActive r f).inHandler = t.inHandler := rfl
@[simp] theorem Team.putActive_savedD (t : Team) (r : Nat) (f : Nat → Word) : (t.putActive r f).savedD = t.savedD := rfl
@[simp] theorem Team.putActive_savedB (t : Team) (r : Nat) (f : Nat → Word) : (t.putActive r f).savedB = t.savedB := rfl
@[simp] theorem Team.putActive_noticeEn (t : Team) (r : Nat) (f : Nat → Word) : (t.putActive r f).noticeEn = t.noticeEn := rfl
@[simp] theorem Team.putActive_noticeFold (t : Team) (r : Nat) (f : Nat → Word) : (t.putActive r f).noticeFold = t.noticeFold := rfl
@[simp] theorem Team.putActive_noticeCancel (t : Team) (r : Nat) (f : Nat → Word) : (t.putActive r f).noticeCancel = t.noticeCancel := rfl
@[simp] theorem Team.putActive_cancelAt (t : Team) (r : Nat) (f : Nat → Word) : (t.putActive r f).cancelAt = t.cancelAt := rfl
@[simp] theorem Team.putActive_priv (t : Team) (r : Nat) (f : Nat → Word) : (t.putActive r f).priv = t.priv := rfl
@[simp] theorem Team.putActive_rlvl (t : Team) (r : Nat) (f : Nat → Word) : (t.putActive r f).rlvl = t.rlvl := rfl
@[simp] theorem Team.putActive_lastRlvl (t : Team) (r : Nat) (f : Nat → Word) : (t.putActive r f).lastRlvl = t.lastRlvl := rfl
@[simp] theorem Team.putActive_stamps (t : Team) (r : Nat) (f : Nat → Word) : (t.putActive r f).stamps = t.stamps := rfl
@[simp] theorem Team.putActive_evicted (t : Team) (r : Nat) (f : Nat → Word) : (t.putActive r f).evicted = t.evicted := rfl
@[simp] theorem Team.putActive_passOut (t : Team) (r : Nat) (f : Nat → Word) : (t.putActive r f).passOut = t.passOut := rfl
@[simp] theorem Team.putActive_spill (t : Team) (r : Nat) (f : Nat → Word) : (t.putActive r f).spill = t.spill := rfl
@[simp] theorem Team.putActive_clauseSeq (t : Team) (r : Nat) (f : Nat → Word) : (t.putActive r f).clauseSeq = t.clauseSeq := rfl
@[simp] theorem Team.putActive_pc (t : Team) (r : Nat) (f : Nat → Word) : (t.putActive r f).pc = t.pc := rfl
@[simp] theorem Team.putActive_resume (t : Team) (r : Nat) (f : Nat → Word) : (t.putActive r f).resume = t.resume := rfl
@[simp] theorem Team.putActive_clause (t : Team) (r : Nat) (f : Nat → Word) : (t.putActive r f).clause = t.clause := rfl
@[simp] theorem Team.putActive_slot (t : Team) (r : Nat) (f : Nat → Word) : (t.putActive r f).slot = t.slot := rfl
@[simp] theorem Team.putActive_park (t : Team) (r : Nat) (f : Nat → Word) : (t.putActive r f).park = t.park := rfl
@[simp] theorem Team.putActive_pend (t : Team) (r : Nat) (f : Nat → Word) : (t.putActive r f).pend = t.pend := rfl
@[simp] theorem Team.putActive_nextWord (t : Team) (r : Nat) (f : Nat → Word) : (t.putActive r f).nextWord = t.nextWord := rfl
@[simp] theorem Team.putActive_stores (t : Team) (r : Nat) (f : Nat → Word) : (t.putActive r f).stores = t.stores := rfl
@[simp] theorem Team.putActive_storeGate (t : Team) (r : Nat) (f : Nat → Word) : (t.putActive r f).storeGate = t.storeGate := rfl
@[simp] theorem Team.putActive_loads (t : Team) (r : Nat) (f : Nat → Word) : (t.putActive r f).loads = t.loads := rfl
@[simp] theorem Team.putActive_status (t : Team) (r : Nat) (f : Nat → Word) : (t.putActive r f).status = t.status := rfl
@[simp] theorem Team.putActive_pauseEnd (t : Team) (r : Nat) (f : Nat → Word) : (t.putActive r f).pauseEnd = t.pauseEnd := rfl
@[simp] theorem Team.putActive_issueAt (t : Team) (r : Nat) (f : Nat → Word) : (t.putActive r f).issueAt = t.issueAt := rfl
@[simp] theorem Team.putActive_reads (t : Team) (r : Nat) (f : Nat → Word) : (t.putActive r f).reads = t.reads := rfl
@[simp] theorem Team.putActive_agent (t : Team) (r : Nat) (f : Nat → Word) : (t.putActive r f).agent = t.agent := rfl
@[simp] theorem Team.putActive_order (t : Team) (r : Nat) (f : Nat → Word) : (t.putActive r f).order = t.order := rfl
@[simp] theorem Team.putActive_copycs (t : Team) (r : Nat) (f : Nat → Word) : (t.putActive r f).copycs = t.copycs := rfl
@[simp] theorem Team.putActive_doneSem (t : Team) (r : Nat) (f : Nat → Word) : (t.putActive r f).doneSem = t.doneSem := rfl

@[simp] theorem Team.putPair_wg (t : Team) (r : Nat) (f : Nat → DWord) : (t.putPair r f).wg = t.wg := rfl
@[simp] theorem Team.putPair_launch (t : Team) (r : Nat) (f : Nat → DWord) : (t.putPair r f).launch = t.launch := rfl
@[simp] theorem Team.putPair_teamId (t : Team) (r : Nat) (f : Nat → DWord) : (t.putPair r f).teamId = t.teamId := rfl
@[simp] theorem Team.putPair_lanes (t : Team) (r : Nat) (f : Nat → DWord) : (t.putPair r f).lanes = t.lanes := rfl
@[simp] theorem Team.putPair_nregs (t : Team) (r : Nat) (f : Nat → DWord) : (t.putPair r f).nregs = t.nregs := rfl
@[simp] theorem Team.putPair_d (t : Team) (r : Nat) (f : Nat → DWord) : (t.putPair r f).d = t.d := rfl
@[simp] theorem Team.putPair_b (t : Team) (r : Nat) (f : Nat → DWord) : (t.putPair r f).b = t.b := rfl
@[simp] theorem Team.putPair_sr (t : Team) (r : Nat) (f : Nat → DWord) : (t.putPair r f).sr = t.sr := rfl
@[simp] theorem Team.putPair_fmt (t : Team) (r : Nat) (f : Nat → DWord) : (t.putPair r f).fmt = t.fmt := rfl
@[simp] theorem Team.putPair_fpstat (t : Team) (r : Nat) (f : Nat → DWord) : (t.putPair r f).fpstat = t.fpstat := rfl
@[simp] theorem Team.putPair_seed (t : Team) (r : Nat) (f : Nat → DWord) : (t.putPair r f).seed = t.seed := rfl
@[simp] theorem Team.putPair_fb (t : Team) (r : Nat) (f : Nat → DWord) : (t.putPair r f).fb = t.fb := rfl
@[simp] theorem Team.putPair_fsp (t : Team) (r : Nat) (f : Nat → DWord) : (t.putPair r f).fsp = t.fsp := rfl
@[simp] theorem Team.putPair_window (t : Team) (r : Nat) (f : Nat → DWord) : (t.putPair r f).window = t.window := rfl
@[simp] theorem Team.putPair_framesz (t : Team) (r : Nat) (f : Nat → DWord) : (t.putPair r f).framesz = t.framesz := rfl
@[simp] theorem Team.putPair_frame (t : Team) (r : Nat) (f : Nat → DWord) : (t.putPair r f).frame = t.frame := rfl
@[simp] theorem Team.putPair_frameBad (t : Team) (r : Nat) (f : Nat → DWord) : (t.putPair r f).frameBad = t.frameBad := rfl
@[simp] theorem Team.putPair_refs (t : Team) (r : Nat) (f : Nat → DWord) : (t.putPair r f).refs = t.refs := rfl
@[simp] theorem Team.putPair_head (t : Team) (r : Nat) (f : Nat → DWord) : (t.putPair r f).head = t.head := rfl
@[simp] theorem Team.putPair_tcause (t : Team) (r : Nat) (f : Nat → DWord) : (t.putPair r f).tcause = t.tcause := rfl
@[simp] theorem Team.putPair_tpc (t : Team) (r : Nat) (f : Nat → DWord) : (t.putPair r f).tpc = t.tpc := rfl
@[simp] theorem Team.putPair_taddr (t : Team) (r : Nat) (f : Nat → DWord) : (t.putPair r f).taddr = t.taddr := rfl
@[simp] theorem Team.putPair_tinfo (t : Team) (r : Nat) (f : Nat → DWord) : (t.putPair r f).tinfo = t.tinfo := rfl
@[simp] theorem Team.putPair_trapvec (t : Team) (r : Nat) (f : Nat → DWord) : (t.putPair r f).trapvec = t.trapvec := rfl
@[simp] theorem Team.putPair_inHandler (t : Team) (r : Nat) (f : Nat → DWord) : (t.putPair r f).inHandler = t.inHandler := rfl
@[simp] theorem Team.putPair_savedD (t : Team) (r : Nat) (f : Nat → DWord) : (t.putPair r f).savedD = t.savedD := rfl
@[simp] theorem Team.putPair_savedB (t : Team) (r : Nat) (f : Nat → DWord) : (t.putPair r f).savedB = t.savedB := rfl
@[simp] theorem Team.putPair_noticeEn (t : Team) (r : Nat) (f : Nat → DWord) : (t.putPair r f).noticeEn = t.noticeEn := rfl
@[simp] theorem Team.putPair_noticeFold (t : Team) (r : Nat) (f : Nat → DWord) : (t.putPair r f).noticeFold = t.noticeFold := rfl
@[simp] theorem Team.putPair_noticeCancel (t : Team) (r : Nat) (f : Nat → DWord) : (t.putPair r f).noticeCancel = t.noticeCancel := rfl
@[simp] theorem Team.putPair_cancelAt (t : Team) (r : Nat) (f : Nat → DWord) : (t.putPair r f).cancelAt = t.cancelAt := rfl
@[simp] theorem Team.putPair_priv (t : Team) (r : Nat) (f : Nat → DWord) : (t.putPair r f).priv = t.priv := rfl
@[simp] theorem Team.putPair_rlvl (t : Team) (r : Nat) (f : Nat → DWord) : (t.putPair r f).rlvl = t.rlvl := rfl
@[simp] theorem Team.putPair_lastRlvl (t : Team) (r : Nat) (f : Nat → DWord) : (t.putPair r f).lastRlvl = t.lastRlvl := rfl
@[simp] theorem Team.putPair_stamps (t : Team) (r : Nat) (f : Nat → DWord) : (t.putPair r f).stamps = t.stamps := rfl
@[simp] theorem Team.putPair_evicted (t : Team) (r : Nat) (f : Nat → DWord) : (t.putPair r f).evicted = t.evicted := rfl
@[simp] theorem Team.putPair_passOut (t : Team) (r : Nat) (f : Nat → DWord) : (t.putPair r f).passOut = t.passOut := rfl
@[simp] theorem Team.putPair_spill (t : Team) (r : Nat) (f : Nat → DWord) : (t.putPair r f).spill = t.spill := rfl
@[simp] theorem Team.putPair_clauseSeq (t : Team) (r : Nat) (f : Nat → DWord) : (t.putPair r f).clauseSeq = t.clauseSeq := rfl
@[simp] theorem Team.putPair_pc (t : Team) (r : Nat) (f : Nat → DWord) : (t.putPair r f).pc = t.pc := rfl
@[simp] theorem Team.putPair_resume (t : Team) (r : Nat) (f : Nat → DWord) : (t.putPair r f).resume = t.resume := rfl
@[simp] theorem Team.putPair_clause (t : Team) (r : Nat) (f : Nat → DWord) : (t.putPair r f).clause = t.clause := rfl
@[simp] theorem Team.putPair_slot (t : Team) (r : Nat) (f : Nat → DWord) : (t.putPair r f).slot = t.slot := rfl
@[simp] theorem Team.putPair_park (t : Team) (r : Nat) (f : Nat → DWord) : (t.putPair r f).park = t.park := rfl
@[simp] theorem Team.putPair_pend (t : Team) (r : Nat) (f : Nat → DWord) : (t.putPair r f).pend = t.pend := rfl
@[simp] theorem Team.putPair_nextWord (t : Team) (r : Nat) (f : Nat → DWord) : (t.putPair r f).nextWord = t.nextWord := rfl
@[simp] theorem Team.putPair_stores (t : Team) (r : Nat) (f : Nat → DWord) : (t.putPair r f).stores = t.stores := rfl
@[simp] theorem Team.putPair_storeGate (t : Team) (r : Nat) (f : Nat → DWord) : (t.putPair r f).storeGate = t.storeGate := rfl
@[simp] theorem Team.putPair_loads (t : Team) (r : Nat) (f : Nat → DWord) : (t.putPair r f).loads = t.loads := rfl
@[simp] theorem Team.putPair_status (t : Team) (r : Nat) (f : Nat → DWord) : (t.putPair r f).status = t.status := rfl
@[simp] theorem Team.putPair_pauseEnd (t : Team) (r : Nat) (f : Nat → DWord) : (t.putPair r f).pauseEnd = t.pauseEnd := rfl
@[simp] theorem Team.putPair_issueAt (t : Team) (r : Nat) (f : Nat → DWord) : (t.putPair r f).issueAt = t.issueAt := rfl
@[simp] theorem Team.putPair_reads (t : Team) (r : Nat) (f : Nat → DWord) : (t.putPair r f).reads = t.reads := rfl
@[simp] theorem Team.putPair_agent (t : Team) (r : Nat) (f : Nat → DWord) : (t.putPair r f).agent = t.agent := rfl
@[simp] theorem Team.putPair_order (t : Team) (r : Nat) (f : Nat → DWord) : (t.putPair r f).order = t.order := rfl
@[simp] theorem Team.putPair_copycs (t : Team) (r : Nat) (f : Nat → DWord) : (t.putPair r f).copycs = t.copycs := rfl
@[simp] theorem Team.putPair_doneSem (t : Team) (r : Nat) (f : Nat → DWord) : (t.putPair r f).doneSem = t.doneSem := rfl

@[simp] theorem Team.addPend_wg (t : Team) (n : Option Nat) (a : Bool) (rs : List (Nat × Nat × Option Word × BitVec 5)) : (t.addPend n a rs).wg = t.wg := rfl
@[simp] theorem Team.addPend_launch (t : Team) (n : Option Nat) (a : Bool) (rs : List (Nat × Nat × Option Word × BitVec 5)) : (t.addPend n a rs).launch = t.launch := rfl
@[simp] theorem Team.addPend_teamId (t : Team) (n : Option Nat) (a : Bool) (rs : List (Nat × Nat × Option Word × BitVec 5)) : (t.addPend n a rs).teamId = t.teamId := rfl
@[simp] theorem Team.addPend_lanes (t : Team) (n : Option Nat) (a : Bool) (rs : List (Nat × Nat × Option Word × BitVec 5)) : (t.addPend n a rs).lanes = t.lanes := rfl
@[simp] theorem Team.addPend_nregs (t : Team) (n : Option Nat) (a : Bool) (rs : List (Nat × Nat × Option Word × BitVec 5)) : (t.addPend n a rs).nregs = t.nregs := rfl
@[simp] theorem Team.addPend_regs (t : Team) (n : Option Nat) (a : Bool) (rs : List (Nat × Nat × Option Word × BitVec 5)) : (t.addPend n a rs).regs = t.regs := rfl
@[simp] theorem Team.addPend_d (t : Team) (n : Option Nat) (a : Bool) (rs : List (Nat × Nat × Option Word × BitVec 5)) : (t.addPend n a rs).d = t.d := rfl
@[simp] theorem Team.addPend_b (t : Team) (n : Option Nat) (a : Bool) (rs : List (Nat × Nat × Option Word × BitVec 5)) : (t.addPend n a rs).b = t.b := rfl
@[simp] theorem Team.addPend_sr (t : Team) (n : Option Nat) (a : Bool) (rs : List (Nat × Nat × Option Word × BitVec 5)) : (t.addPend n a rs).sr = t.sr := rfl
@[simp] theorem Team.addPend_fmt (t : Team) (n : Option Nat) (a : Bool) (rs : List (Nat × Nat × Option Word × BitVec 5)) : (t.addPend n a rs).fmt = t.fmt := rfl
@[simp] theorem Team.addPend_fpstat (t : Team) (n : Option Nat) (a : Bool) (rs : List (Nat × Nat × Option Word × BitVec 5)) : (t.addPend n a rs).fpstat = t.fpstat := rfl
@[simp] theorem Team.addPend_seed (t : Team) (n : Option Nat) (a : Bool) (rs : List (Nat × Nat × Option Word × BitVec 5)) : (t.addPend n a rs).seed = t.seed := rfl
@[simp] theorem Team.addPend_fb (t : Team) (n : Option Nat) (a : Bool) (rs : List (Nat × Nat × Option Word × BitVec 5)) : (t.addPend n a rs).fb = t.fb := rfl
@[simp] theorem Team.addPend_fsp (t : Team) (n : Option Nat) (a : Bool) (rs : List (Nat × Nat × Option Word × BitVec 5)) : (t.addPend n a rs).fsp = t.fsp := rfl
@[simp] theorem Team.addPend_window (t : Team) (n : Option Nat) (a : Bool) (rs : List (Nat × Nat × Option Word × BitVec 5)) : (t.addPend n a rs).window = t.window := rfl
@[simp] theorem Team.addPend_framesz (t : Team) (n : Option Nat) (a : Bool) (rs : List (Nat × Nat × Option Word × BitVec 5)) : (t.addPend n a rs).framesz = t.framesz := rfl
@[simp] theorem Team.addPend_frame (t : Team) (n : Option Nat) (a : Bool) (rs : List (Nat × Nat × Option Word × BitVec 5)) : (t.addPend n a rs).frame = t.frame := rfl
@[simp] theorem Team.addPend_frameBad (t : Team) (n : Option Nat) (a : Bool) (rs : List (Nat × Nat × Option Word × BitVec 5)) : (t.addPend n a rs).frameBad = t.frameBad := rfl
@[simp] theorem Team.addPend_refs (t : Team) (n : Option Nat) (a : Bool) (rs : List (Nat × Nat × Option Word × BitVec 5)) : (t.addPend n a rs).refs = t.refs := rfl
@[simp] theorem Team.addPend_head (t : Team) (n : Option Nat) (a : Bool) (rs : List (Nat × Nat × Option Word × BitVec 5)) : (t.addPend n a rs).head = t.head := rfl
@[simp] theorem Team.addPend_tcause (t : Team) (n : Option Nat) (a : Bool) (rs : List (Nat × Nat × Option Word × BitVec 5)) : (t.addPend n a rs).tcause = t.tcause := rfl
@[simp] theorem Team.addPend_tpc (t : Team) (n : Option Nat) (a : Bool) (rs : List (Nat × Nat × Option Word × BitVec 5)) : (t.addPend n a rs).tpc = t.tpc := rfl
@[simp] theorem Team.addPend_taddr (t : Team) (n : Option Nat) (a : Bool) (rs : List (Nat × Nat × Option Word × BitVec 5)) : (t.addPend n a rs).taddr = t.taddr := rfl
@[simp] theorem Team.addPend_tinfo (t : Team) (n : Option Nat) (a : Bool) (rs : List (Nat × Nat × Option Word × BitVec 5)) : (t.addPend n a rs).tinfo = t.tinfo := rfl
@[simp] theorem Team.addPend_trapvec (t : Team) (n : Option Nat) (a : Bool) (rs : List (Nat × Nat × Option Word × BitVec 5)) : (t.addPend n a rs).trapvec = t.trapvec := rfl
@[simp] theorem Team.addPend_inHandler (t : Team) (n : Option Nat) (a : Bool) (rs : List (Nat × Nat × Option Word × BitVec 5)) : (t.addPend n a rs).inHandler = t.inHandler := rfl
@[simp] theorem Team.addPend_savedD (t : Team) (n : Option Nat) (a : Bool) (rs : List (Nat × Nat × Option Word × BitVec 5)) : (t.addPend n a rs).savedD = t.savedD := rfl
@[simp] theorem Team.addPend_savedB (t : Team) (n : Option Nat) (a : Bool) (rs : List (Nat × Nat × Option Word × BitVec 5)) : (t.addPend n a rs).savedB = t.savedB := rfl
@[simp] theorem Team.addPend_noticeEn (t : Team) (n : Option Nat) (a : Bool) (rs : List (Nat × Nat × Option Word × BitVec 5)) : (t.addPend n a rs).noticeEn = t.noticeEn := rfl
@[simp] theorem Team.addPend_noticeFold (t : Team) (n : Option Nat) (a : Bool) (rs : List (Nat × Nat × Option Word × BitVec 5)) : (t.addPend n a rs).noticeFold = t.noticeFold := rfl
@[simp] theorem Team.addPend_noticeCancel (t : Team) (n : Option Nat) (a : Bool) (rs : List (Nat × Nat × Option Word × BitVec 5)) : (t.addPend n a rs).noticeCancel = t.noticeCancel := rfl
@[simp] theorem Team.addPend_cancelAt (t : Team) (n : Option Nat) (a : Bool) (rs : List (Nat × Nat × Option Word × BitVec 5)) : (t.addPend n a rs).cancelAt = t.cancelAt := rfl
@[simp] theorem Team.addPend_priv (t : Team) (n : Option Nat) (a : Bool) (rs : List (Nat × Nat × Option Word × BitVec 5)) : (t.addPend n a rs).priv = t.priv := rfl
@[simp] theorem Team.addPend_rlvl (t : Team) (n : Option Nat) (a : Bool) (rs : List (Nat × Nat × Option Word × BitVec 5)) : (t.addPend n a rs).rlvl = t.rlvl := rfl
@[simp] theorem Team.addPend_lastRlvl (t : Team) (n : Option Nat) (a : Bool) (rs : List (Nat × Nat × Option Word × BitVec 5)) : (t.addPend n a rs).lastRlvl = t.lastRlvl := rfl
@[simp] theorem Team.addPend_stamps (t : Team) (n : Option Nat) (a : Bool) (rs : List (Nat × Nat × Option Word × BitVec 5)) : (t.addPend n a rs).stamps = t.stamps := rfl
@[simp] theorem Team.addPend_evicted (t : Team) (n : Option Nat) (a : Bool) (rs : List (Nat × Nat × Option Word × BitVec 5)) : (t.addPend n a rs).evicted = t.evicted := rfl
@[simp] theorem Team.addPend_passOut (t : Team) (n : Option Nat) (a : Bool) (rs : List (Nat × Nat × Option Word × BitVec 5)) : (t.addPend n a rs).passOut = t.passOut := rfl
@[simp] theorem Team.addPend_spill (t : Team) (n : Option Nat) (a : Bool) (rs : List (Nat × Nat × Option Word × BitVec 5)) : (t.addPend n a rs).spill = t.spill := rfl
@[simp] theorem Team.addPend_clauseSeq (t : Team) (n : Option Nat) (a : Bool) (rs : List (Nat × Nat × Option Word × BitVec 5)) : (t.addPend n a rs).clauseSeq = t.clauseSeq := rfl
@[simp] theorem Team.addPend_pc (t : Team) (n : Option Nat) (a : Bool) (rs : List (Nat × Nat × Option Word × BitVec 5)) : (t.addPend n a rs).pc = t.pc := rfl
@[simp] theorem Team.addPend_resume (t : Team) (n : Option Nat) (a : Bool) (rs : List (Nat × Nat × Option Word × BitVec 5)) : (t.addPend n a rs).resume = t.resume := rfl
@[simp] theorem Team.addPend_clause (t : Team) (n : Option Nat) (a : Bool) (rs : List (Nat × Nat × Option Word × BitVec 5)) : (t.addPend n a rs).clause = t.clause := rfl
@[simp] theorem Team.addPend_slot (t : Team) (n : Option Nat) (a : Bool) (rs : List (Nat × Nat × Option Word × BitVec 5)) : (t.addPend n a rs).slot = t.slot := rfl
@[simp] theorem Team.addPend_park (t : Team) (n : Option Nat) (a : Bool) (rs : List (Nat × Nat × Option Word × BitVec 5)) : (t.addPend n a rs).park = t.park := rfl
@[simp] theorem Team.addPend_stores (t : Team) (n : Option Nat) (a : Bool) (rs : List (Nat × Nat × Option Word × BitVec 5)) : (t.addPend n a rs).stores = t.stores := rfl
@[simp] theorem Team.addPend_storeGate (t : Team) (n : Option Nat) (a : Bool) (rs : List (Nat × Nat × Option Word × BitVec 5)) : (t.addPend n a rs).storeGate = t.storeGate := rfl
@[simp] theorem Team.addPend_loads (t : Team) (n : Option Nat) (a : Bool) (rs : List (Nat × Nat × Option Word × BitVec 5)) : (t.addPend n a rs).loads = t.loads := rfl
@[simp] theorem Team.addPend_status (t : Team) (n : Option Nat) (a : Bool) (rs : List (Nat × Nat × Option Word × BitVec 5)) : (t.addPend n a rs).status = t.status := rfl
@[simp] theorem Team.addPend_pauseEnd (t : Team) (n : Option Nat) (a : Bool) (rs : List (Nat × Nat × Option Word × BitVec 5)) : (t.addPend n a rs).pauseEnd = t.pauseEnd := rfl
@[simp] theorem Team.addPend_issueAt (t : Team) (n : Option Nat) (a : Bool) (rs : List (Nat × Nat × Option Word × BitVec 5)) : (t.addPend n a rs).issueAt = t.issueAt := rfl
@[simp] theorem Team.addPend_reads (t : Team) (n : Option Nat) (a : Bool) (rs : List (Nat × Nat × Option Word × BitVec 5)) : (t.addPend n a rs).reads = t.reads := rfl
@[simp] theorem Team.addPend_agent (t : Team) (n : Option Nat) (a : Bool) (rs : List (Nat × Nat × Option Word × BitVec 5)) : (t.addPend n a rs).agent = t.agent := rfl
@[simp] theorem Team.addPend_order (t : Team) (n : Option Nat) (a : Bool) (rs : List (Nat × Nat × Option Word × BitVec 5)) : (t.addPend n a rs).order = t.order := rfl
@[simp] theorem Team.addPend_copycs (t : Team) (n : Option Nat) (a : Bool) (rs : List (Nat × Nat × Option Word × BitVec 5)) : (t.addPend n a rs).copycs = t.copycs := rfl
@[simp] theorem Team.addPend_doneSem (t : Team) (n : Option Nat) (a : Bool) (rs : List (Nat × Nat × Option Word × BitVec 5)) : (t.addPend n a rs).doneSem = t.doneSem := rfl

@[simp] theorem Team.trapRegs_wg (t : Team) (cause : Nat) (p : DWord) (k : Nat) (a : DWord) (b : Bool) (d : Nat) : (t.trapRegs cause p k a b d).wg = t.wg := rfl
@[simp] theorem Team.trapRegs_launch (t : Team) (cause : Nat) (p : DWord) (k : Nat) (a : DWord) (b : Bool) (d : Nat) : (t.trapRegs cause p k a b d).launch = t.launch := rfl
@[simp] theorem Team.trapRegs_teamId (t : Team) (cause : Nat) (p : DWord) (k : Nat) (a : DWord) (b : Bool) (d : Nat) : (t.trapRegs cause p k a b d).teamId = t.teamId := rfl
@[simp] theorem Team.trapRegs_lanes (t : Team) (cause : Nat) (p : DWord) (k : Nat) (a : DWord) (b : Bool) (d : Nat) : (t.trapRegs cause p k a b d).lanes = t.lanes := rfl
@[simp] theorem Team.trapRegs_nregs (t : Team) (cause : Nat) (p : DWord) (k : Nat) (a : DWord) (b : Bool) (d : Nat) : (t.trapRegs cause p k a b d).nregs = t.nregs := rfl
@[simp] theorem Team.trapRegs_regs (t : Team) (cause : Nat) (p : DWord) (k : Nat) (a : DWord) (b : Bool) (d : Nat) : (t.trapRegs cause p k a b d).regs = t.regs := rfl
@[simp] theorem Team.trapRegs_d (t : Team) (cause : Nat) (p : DWord) (k : Nat) (a : DWord) (b : Bool) (d : Nat) : (t.trapRegs cause p k a b d).d = t.d := rfl
@[simp] theorem Team.trapRegs_b (t : Team) (cause : Nat) (p : DWord) (k : Nat) (a : DWord) (b : Bool) (d : Nat) : (t.trapRegs cause p k a b d).b = t.b := rfl
@[simp] theorem Team.trapRegs_sr (t : Team) (cause : Nat) (p : DWord) (k : Nat) (a : DWord) (b : Bool) (d : Nat) : (t.trapRegs cause p k a b d).sr = t.sr := rfl
@[simp] theorem Team.trapRegs_fmt (t : Team) (cause : Nat) (p : DWord) (k : Nat) (a : DWord) (b : Bool) (d : Nat) : (t.trapRegs cause p k a b d).fmt = t.fmt := rfl
@[simp] theorem Team.trapRegs_fpstat (t : Team) (cause : Nat) (p : DWord) (k : Nat) (a : DWord) (b : Bool) (d : Nat) : (t.trapRegs cause p k a b d).fpstat = t.fpstat := rfl
@[simp] theorem Team.trapRegs_seed (t : Team) (cause : Nat) (p : DWord) (k : Nat) (a : DWord) (b : Bool) (d : Nat) : (t.trapRegs cause p k a b d).seed = t.seed := rfl
@[simp] theorem Team.trapRegs_fb (t : Team) (cause : Nat) (p : DWord) (k : Nat) (a : DWord) (b : Bool) (d : Nat) : (t.trapRegs cause p k a b d).fb = t.fb := rfl
@[simp] theorem Team.trapRegs_fsp (t : Team) (cause : Nat) (p : DWord) (k : Nat) (a : DWord) (b : Bool) (d : Nat) : (t.trapRegs cause p k a b d).fsp = t.fsp := rfl
@[simp] theorem Team.trapRegs_window (t : Team) (cause : Nat) (p : DWord) (k : Nat) (a : DWord) (b : Bool) (d : Nat) : (t.trapRegs cause p k a b d).window = t.window := rfl
@[simp] theorem Team.trapRegs_framesz (t : Team) (cause : Nat) (p : DWord) (k : Nat) (a : DWord) (b : Bool) (d : Nat) : (t.trapRegs cause p k a b d).framesz = t.framesz := rfl
@[simp] theorem Team.trapRegs_frame (t : Team) (cause : Nat) (p : DWord) (k : Nat) (a : DWord) (b : Bool) (d : Nat) : (t.trapRegs cause p k a b d).frame = t.frame := rfl
@[simp] theorem Team.trapRegs_frameBad (t : Team) (cause : Nat) (p : DWord) (k : Nat) (a : DWord) (b : Bool) (d : Nat) : (t.trapRegs cause p k a b d).frameBad = t.frameBad := rfl
@[simp] theorem Team.trapRegs_refs (t : Team) (cause : Nat) (p : DWord) (k : Nat) (a : DWord) (b : Bool) (d : Nat) : (t.trapRegs cause p k a b d).refs = t.refs := rfl
@[simp] theorem Team.trapRegs_head (t : Team) (cause : Nat) (p : DWord) (k : Nat) (a : DWord) (b : Bool) (d : Nat) : (t.trapRegs cause p k a b d).head = t.head := rfl
@[simp] theorem Team.trapRegs_trapvec (t : Team) (cause : Nat) (p : DWord) (k : Nat) (a : DWord) (b : Bool) (d : Nat) : (t.trapRegs cause p k a b d).trapvec = t.trapvec := rfl
@[simp] theorem Team.trapRegs_inHandler (t : Team) (cause : Nat) (p : DWord) (k : Nat) (a : DWord) (b : Bool) (d : Nat) : (t.trapRegs cause p k a b d).inHandler = t.inHandler := rfl
@[simp] theorem Team.trapRegs_savedD (t : Team) (cause : Nat) (p : DWord) (k : Nat) (a : DWord) (b : Bool) (d : Nat) : (t.trapRegs cause p k a b d).savedD = t.savedD := rfl
@[simp] theorem Team.trapRegs_savedB (t : Team) (cause : Nat) (p : DWord) (k : Nat) (a : DWord) (b : Bool) (d : Nat) : (t.trapRegs cause p k a b d).savedB = t.savedB := rfl
@[simp] theorem Team.trapRegs_noticeEn (t : Team) (cause : Nat) (p : DWord) (k : Nat) (a : DWord) (b : Bool) (d : Nat) : (t.trapRegs cause p k a b d).noticeEn = t.noticeEn := rfl
@[simp] theorem Team.trapRegs_noticeFold (t : Team) (cause : Nat) (p : DWord) (k : Nat) (a : DWord) (b : Bool) (d : Nat) : (t.trapRegs cause p k a b d).noticeFold = t.noticeFold := rfl
@[simp] theorem Team.trapRegs_noticeCancel (t : Team) (cause : Nat) (p : DWord) (k : Nat) (a : DWord) (b : Bool) (d : Nat) : (t.trapRegs cause p k a b d).noticeCancel = t.noticeCancel := rfl
@[simp] theorem Team.trapRegs_cancelAt (t : Team) (cause : Nat) (p : DWord) (k : Nat) (a : DWord) (b : Bool) (d : Nat) : (t.trapRegs cause p k a b d).cancelAt = t.cancelAt := rfl
@[simp] theorem Team.trapRegs_priv (t : Team) (cause : Nat) (p : DWord) (k : Nat) (a : DWord) (b : Bool) (d : Nat) : (t.trapRegs cause p k a b d).priv = t.priv := rfl
@[simp] theorem Team.trapRegs_rlvl (t : Team) (cause : Nat) (p : DWord) (k : Nat) (a : DWord) (b : Bool) (d : Nat) : (t.trapRegs cause p k a b d).rlvl = t.rlvl := rfl
@[simp] theorem Team.trapRegs_lastRlvl (t : Team) (cause : Nat) (p : DWord) (k : Nat) (a : DWord) (b : Bool) (d : Nat) : (t.trapRegs cause p k a b d).lastRlvl = t.lastRlvl := rfl
@[simp] theorem Team.trapRegs_stamps (t : Team) (cause : Nat) (p : DWord) (k : Nat) (a : DWord) (b : Bool) (d : Nat) : (t.trapRegs cause p k a b d).stamps = t.stamps := rfl
@[simp] theorem Team.trapRegs_evicted (t : Team) (cause : Nat) (p : DWord) (k : Nat) (a : DWord) (b : Bool) (d : Nat) : (t.trapRegs cause p k a b d).evicted = t.evicted := rfl
@[simp] theorem Team.trapRegs_passOut (t : Team) (cause : Nat) (p : DWord) (k : Nat) (a : DWord) (b : Bool) (d : Nat) : (t.trapRegs cause p k a b d).passOut = t.passOut := rfl
@[simp] theorem Team.trapRegs_spill (t : Team) (cause : Nat) (p : DWord) (k : Nat) (a : DWord) (b : Bool) (d : Nat) : (t.trapRegs cause p k a b d).spill = t.spill := rfl
@[simp] theorem Team.trapRegs_clauseSeq (t : Team) (cause : Nat) (p : DWord) (k : Nat) (a : DWord) (b : Bool) (d : Nat) : (t.trapRegs cause p k a b d).clauseSeq = t.clauseSeq := rfl
@[simp] theorem Team.trapRegs_pc (t : Team) (cause : Nat) (p : DWord) (k : Nat) (a : DWord) (b : Bool) (d : Nat) : (t.trapRegs cause p k a b d).pc = t.pc := rfl
@[simp] theorem Team.trapRegs_resume (t : Team) (cause : Nat) (p : DWord) (k : Nat) (a : DWord) (b : Bool) (d : Nat) : (t.trapRegs cause p k a b d).resume = t.resume := rfl
@[simp] theorem Team.trapRegs_clause (t : Team) (cause : Nat) (p : DWord) (k : Nat) (a : DWord) (b : Bool) (d : Nat) : (t.trapRegs cause p k a b d).clause = t.clause := rfl
@[simp] theorem Team.trapRegs_slot (t : Team) (cause : Nat) (p : DWord) (k : Nat) (a : DWord) (b : Bool) (d : Nat) : (t.trapRegs cause p k a b d).slot = t.slot := rfl
@[simp] theorem Team.trapRegs_park (t : Team) (cause : Nat) (p : DWord) (k : Nat) (a : DWord) (b : Bool) (d : Nat) : (t.trapRegs cause p k a b d).park = t.park := rfl
@[simp] theorem Team.trapRegs_pend (t : Team) (cause : Nat) (p : DWord) (k : Nat) (a : DWord) (b : Bool) (d : Nat) : (t.trapRegs cause p k a b d).pend = t.pend := rfl
@[simp] theorem Team.trapRegs_nextWord (t : Team) (cause : Nat) (p : DWord) (k : Nat) (a : DWord) (b : Bool) (d : Nat) : (t.trapRegs cause p k a b d).nextWord = t.nextWord := rfl
@[simp] theorem Team.trapRegs_stores (t : Team) (cause : Nat) (p : DWord) (k : Nat) (a : DWord) (b : Bool) (d : Nat) : (t.trapRegs cause p k a b d).stores = t.stores := rfl
@[simp] theorem Team.trapRegs_storeGate (t : Team) (cause : Nat) (p : DWord) (k : Nat) (a : DWord) (b : Bool) (d : Nat) : (t.trapRegs cause p k a b d).storeGate = t.storeGate := rfl
@[simp] theorem Team.trapRegs_loads (t : Team) (cause : Nat) (p : DWord) (k : Nat) (a : DWord) (b : Bool) (d : Nat) : (t.trapRegs cause p k a b d).loads = t.loads := rfl
@[simp] theorem Team.trapRegs_status (t : Team) (cause : Nat) (p : DWord) (k : Nat) (a : DWord) (b : Bool) (d : Nat) : (t.trapRegs cause p k a b d).status = t.status := rfl
@[simp] theorem Team.trapRegs_pauseEnd (t : Team) (cause : Nat) (p : DWord) (k : Nat) (a : DWord) (b : Bool) (d : Nat) : (t.trapRegs cause p k a b d).pauseEnd = t.pauseEnd := rfl
@[simp] theorem Team.trapRegs_issueAt (t : Team) (cause : Nat) (p : DWord) (k : Nat) (a : DWord) (b : Bool) (d : Nat) : (t.trapRegs cause p k a b d).issueAt = t.issueAt := rfl
@[simp] theorem Team.trapRegs_reads (t : Team) (cause : Nat) (p : DWord) (k : Nat) (a : DWord) (b : Bool) (d : Nat) : (t.trapRegs cause p k a b d).reads = t.reads := rfl
@[simp] theorem Team.trapRegs_agent (t : Team) (cause : Nat) (p : DWord) (k : Nat) (a : DWord) (b : Bool) (d : Nat) : (t.trapRegs cause p k a b d).agent = t.agent := rfl
@[simp] theorem Team.trapRegs_order (t : Team) (cause : Nat) (p : DWord) (k : Nat) (a : DWord) (b : Bool) (d : Nat) : (t.trapRegs cause p k a b d).order = t.order := rfl
@[simp] theorem Team.trapRegs_copycs (t : Team) (cause : Nat) (p : DWord) (k : Nat) (a : DWord) (b : Bool) (d : Nat) : (t.trapRegs cause p k a b d).copycs = t.copycs := rfl
@[simp] theorem Team.trapRegs_doneSem (t : Team) (cause : Nat) (p : DWord) (k : Nat) (a : DWord) (b : Bool) (d : Nat) : (t.trapRegs cause p k a b d).doneSem = t.doneSem := rfl

@[simp] theorem Team.switchPark_park (t : Team) (c : Clause) :
    (t.switchPark c).park = if c.switchAt t.slot then .switch t.nextWord else t.park := by
  unfold Team.switchPark; split <;> rfl
@[simp] theorem Team.goto_clause (t : Team) (a : DWord) : (t.goto a).clause = none := rfl
@[simp] theorem Team.goto_pc (t : Team) (a : DWord) : (t.goto a).pc = a := rfl
@[simp] theorem Team.goto_resume (t : Team) (a : DWord) : (t.goto a).resume = 0 := rfl
@[simp] theorem Team.goto_slot (t : Team) (a : DWord) : (t.goto a).slot = 0 := rfl

end Sys2Proof.Machine
end

