-- ==== Sys2Proof/Laws/Words.lean ====
section
/-! SUPPORT. What the wrappers that the words share can do: one lemma for each. -/

namespace Sys2Proof.Machine

/-! ### Several writes -/

theorem fget_fsets_notin {α : Type} [DecidableEq α] (d : Nat → α) {l : List (Nat × α)} {m : FMap α} {k : Nat}
    (h : ∀ e ∈ l, k ≠ e.1) : fget d (fsets d m l) k = fget d m k := by
  induction l generalizing m with
  | nil => rfl
  | cons e l ih =>
    rw [fsets, ih fun e he => h e (List.mem_cons_of_mem _ he), fget_fset_other d m _ (h e List.mem_cons_self)]

/-- Writes at different keys: each key holds its value. -/
theorem fget_fsets_map {α : Type} [DecidableEq α] (d : Nat → α) {ls : List Nat} {m : FMap α} {key : Nat → Nat}
    {v : Nat → α} (hk : ∀ i j, key i = key j → i = j) {i : Nat} (hi : i ∈ ls) :
    fget d (fsets d m (ls.map fun l => (key l, v l))) (key i) = v i := by
  induction ls generalizing m with
  | nil => simp at hi
  | cons j ls ih =>
    rw [List.map_cons, fsets]
    by_cases h : i ∈ ls
    · exact ih h
    · have hij : i = j := by simpa [h] using hi
      subst hij
      rw [fget_fsets_notin]
      · simp
      · intro e he
        obtain ⟨l, hl, rfl⟩ := List.mem_map.1 he
        intro hc
        exact h (hk _ _ hc ▸ hl)

theorem regKey_inj_lane (r : Nat) {i j : Nat} (h : regKey r i = regKey r j) : i = j := by
  simp only [regKey] at h; omega

/-! ### Where a team stands -/

theorem Past.of_advance (t : Team) (c : Clause) (n : Nat) : Past t (t.advance c n) c n := by
  unfold Past Team.advance
  by_cases h : t.slot + n < c.count <;> simp [h, Clause.follow]

theorem Branched.of_branch (t : Team) (c : Clause) (a : DWord) : Branched t (t.branch c a) c a := by
  simp [Branched, Team.branch]

theorem SamePlaceApart.of_advance (t : Team) (c : Clause) (n : Nat) : SamePlaceApart t (t.advance c n) := by
  unfold SamePlaceApart Team.advance Team.switchPark
  split <;> split <;> rfl

theorem SamePlaceApart.of_branch (t : Team) (c : Clause) (a : DWord) : SamePlaceApart t (t.branch c a) := by
  unfold SamePlaceApart Team.branch Team.switchPark
  split <;> rfl

/-! ### The wrappers -/

/-- The wrapper of every team word, where the team issues. -/
theorem withTeam_eq {s : State} {t : Team} {c : Clause} (h : Issues s t c) (k : Team → Clause → Out) :
    withTeam s k = k t c := by
  obtain ⟨h1, h2, h3⟩ := h
  simp [withTeam, h1, h2, h3]

/-- A team-level word with an active lane. -/
theorem teamWord_eq {s : State} {t : Team} {c : Clause} (h : Issues s t c) {l : Nat} (hl : t.lowest = some l) (n : Nat)
    (k : Team → Clause → Nat → Out) : teamWord s n k = k t c l := by
  rw [teamWord, withTeam_eq h]; simp [hl]

/-- A team-level word with no active lane is skipped. -/
theorem teamWord_skip {s : State} {t : Team} {c : Clause} (h : Issues s t c) (hl : t.lowest = none) (n : Nat)
    (k : Team → Clause → Nat → Out) : teamWord s n k = .next (s.putTeam s.cur (t.advance c n)) := by
  rw [teamWord, withTeam_eq h]; simp [hl]

theorem Wrote.of_putActive (t : Team) (d : Nat) (v : Nat → Word) : Wrote t (t.putActive d v) d v := by
  refine ⟨fun l hl => ?_, fun r l h => ?_⟩
  · exact fget_fsets_map zeroWord (fun i j h => regKey_inj_lane d h) hl
  · refine fget_fsets_notin zeroWord fun e he => ?_
    obtain ⟨j, hj, rfl⟩ := List.mem_map.1 he
    exact h j hj

/-- A per-lane word (R59, R89): its register in every active lane, and nothing else. -/
theorem laneWord_effect {s : State} {t : Team} {c : Clause} (h : Issues s t c) (n : Nat) (d : Code)
    (f : Nat → Team → Nat → Word) : LaneEffect s t c n d (f s.fresh t) (laneWord s n d f) := by
  refine ⟨(t.putActive d.toNat (f s.fresh t)).advance c n, ?_, ?_, ?_, ?_⟩
  · rw [laneWord, withTeam_eq h]; rfl
  · exact Past.of_advance (t.putActive d.toNat (f s.fresh t)) c n
  · unfold SameButRegs
    rw [Team.advance_regs]
    exact SamePlaceApart.of_advance (t.putActive d.toNat (f s.fresh t)) c n
  · obtain ⟨h1, h2⟩ := Wrote.of_putActive t d.toNat (f s.fresh t)
    exact ⟨fun l hl => by simpa [Team.reg] using h1 l hl, fun r l hr => by simpa [Team.reg] using h2 r l hr⟩

/-- Two per-lane results that agree on every active lane are one. -/
theorem LaneEffect.congr {s : State} {t : Team} {c : Clause} {n : Nat} {d : Code} {v w : Nat → Word} {out : Out}
    (h : LaneEffect s t c n d v out) (hv : ∀ l ∈ t.activeLanes, v l = w l) : LaneEffect s t c n d w out := by
  obtain ⟨t', h1, h2, h3, h4, h5⟩ := h
  exact ⟨t', h1, h2, h3, fun l hl => (h4 l hl).trans (hv l hl), h5⟩

/-! ### Floating-point, transcendental and pair words -/

theorem getLsbD_foldl_or (l : List (BitVec 5)) (a : BitVec 5) (i : Nat) :
    (l.foldl (fun a b => a ||| b) a).getLsbD i = (a.getLsbD i || l.any fun x => x.getLsbD i) := by
  induction l generalizing a with
  | nil => simp
  | cons x l ih => simp [ih, Bool.or_assoc]

/-- The flags of FPSTAT after a word: its own, or those that were there. -/
theorem orFlags_bit (t : Team) (l : List (BitVec 5)) (i : Nat) :
    (t.orFlags (orAll l)).fpstat.getLsbD i = (t.fpstat.getLsbD i || l.any fun x => x.getLsbD i) := by
  have h : i < 32 ∨ 32 ≤ i := by omega
  simp only [Team.orFlags, orAll, BitVec.getLsbD_or, BitVec.truncate_eq_setWidth, BitVec.getLsbD_setWidth, getLsbD_foldl_or]
  rcases h with h | h
  · simp [h]
  · have : ∀ x : BitVec 5, x.getLsbD i = false := fun x => BitVec.getLsbD_of_ge x i (by omega)
    simp [this]
    simp [show ¬ i < 32 by omega]

theorem Stepped.of_putGens {t t' : Team} {f : Nat → LaneResult}
    (h : t'.sr = (t.putGens (laneResults t f)).sr) : Stepped t t' f := by
  have e : ((laneResults t f).map fun x => (x.1, x.2.sr)) = t.activeLanes.map fun l => (l, (f l).sr) := by
    simp [laneResults]
  simp only [Stepped, Team.gen, h, Team.putGens, e]
  refine ⟨fun l hl => fget_fsets_map zeroWord (fun i j h => h) hl, fun l hl => fget_fsets_notin zeroWord fun e he => ?_⟩
  obtain ⟨j, hj, rfl⟩ := List.mem_map.1 he
  rintro rfl
  exact hl hj

/-- A floating-point word (R89, R225, R226). -/
theorem fpWord_effect {s : State} {t : Team} {c : Clause} (h : Issues s t c) (n : Nat) (d : Code)
    (f : Nat → Team → Nat → LaneResult) : FpEffect s t c n d (f s.fresh t) (fpWord s n d f) := by
  let u : Team := { t.putGens (laneResults t (f s.fresh t)) with
    regs := fsets zeroWord t.regs ((laneResults t (f s.fresh t)).map fun (x : Nat × LaneResult) => (regKey d.toNat x.1, x.2.val)) }
  let v := u.orFlags (orAll ((laneResults t (f s.fresh t)).map fun (x : Nat × LaneResult) => x.2.flags))
  have er : v.regs = (t.putActive d.toNat fun l => (f s.fresh t l).val).regs := by
    simp [v, u, Team.orFlags, laneResults, Team.putActive, Team.putLanes]; rfl
  refine ⟨v.advance c n, ?_, Past.of_advance v c n, ?_, ?_, Stepped.of_putGens ?_, fun i => ?_⟩
  · rw [fpWord, withTeam_eq h]; rfl
  · rw [Team.advance_regs, Team.advance_sr, Team.advance_fpstat]
    exact SamePlaceApart.of_advance v c n
  · obtain ⟨h1, h2⟩ := Wrote.of_putActive t d.toNat fun l => (f s.fresh t l).val
    have e : ∀ r l, (v.advance c n).reg r l = (t.putActive d.toNat fun l => (f s.fresh t l).val).reg r l := fun r l => by
      simp only [Team.reg, Team.advance_regs, er]
    exact ⟨fun l hl => (e _ _).trans (h1 l hl), fun r l hr => (e _ _).trans (h2 r l hr)⟩
  · rw [Team.advance_sr]; rfl
  · rw [Team.advance_fpstat, orFlags_bit]
    simp only [laneResults, List.map_map, List.any_map]; rfl

/-- A transcendental word (R63, R226, R378). -/
theorem xfnWord_effect {s : State} {t : Team} {c : Clause} (h : Issues s t c) (n : Nat) (d a : Code) (m : Mods)
    (f : Word → Word → LaneResult) :
    XfnEffect s t c n d (fun l => f (modA m (reads s t a l)) (t.gen l)) (xfnWord s n d a m f) := by
  let rs := laneResults t fun l => f (modA m (src s.fresh t a l)) (t.gen l)
  let v := (t.putGens rs).addPend none false (rs.map fun (x : Nat × LaneResult) => (d.toNat, x.1, some x.2.val, x.2.flags))
  refine ⟨v.advance c n, ?_, ?_, ?_, ?_, Stepped.of_putGens ?_⟩
  · rw [xfnWord, withTeam_eq h]; rfl
  · exact Past.of_advance v c n
  · rw [Team.advance_pend, Team.advance_sr]
    exact SamePlaceApart.of_advance v c n
  · rw [Team.advance_pend]
    simp [v, Team.addPend, rs, laneResults, Team.putGens]
  · rw [Team.advance_sr]; rfl

/-- The first of two keys that each element writes, where no later element's second key is it. -/
theorem fget_fsets_flatMap {α : Type} [DecidableEq α] (d : Nat → α) {ls : List Nat} {m : FMap α} {k1 k2 : Nat → Nat}
    {v1 v2 : Nat → α} {i : Nat} (hi : i ∈ ls) (h1 : ∀ j, k1 j = k1 i → j = i) (h0 : ∀ i, k2 i ≠ k1 i)
    (h2 : ls.Pairwise fun i j => k2 j ≠ k1 i) :
    fget d (fsets d m (ls.flatMap fun l => [(k1 l, v1 l), (k2 l, v2 l)])) (k1 i) = v1 i := by
  induction ls generalizing m with
  | nil => simp at hi
  | cons j ls ih =>
    rw [List.flatMap_cons]
    change fget d (fsets d (fset d (fset d m (k1 j) (v1 j)) (k2 j) (v2 j)) _) _ = _
    rw [List.pairwise_cons] at h2
    by_cases h : i ∈ ls
    · exact ih h h2.2
    · have hij : i = j := by simpa [h] using hi
      subst hij
      rw [fget_fsets_notin]
      · rw [fget_fset_other]
        · simp
        · exact fun e => h0 i e.symm
      · intro e he
        obtain ⟨l, hl, he⟩ := List.mem_flatMap.1 he
        simp at he
        rcases he with rfl | rfl
        · intro hc
          exact h (h1 l hc.symm ▸ hl)
        · exact fun hc => h2.1 l hl hc.symm

theorem activeLanes_pairwise (t : Team) : t.activeLanes.Pairwise (· < ·) :=
  List.pairwise_lt_range.filter _

/-- The second of two keys that each element writes. -/
theorem fget_fsets_flatMap' {α : Type} [DecidableEq α] (d : Nat → α) {ls : List Nat} {m : FMap α} {k1 k2 : Nat → Nat}
    {v1 v2 : Nat → α} {i : Nat} (hi : i ∈ ls) (h1 : ∀ j ∈ ls, k2 j = k2 i → j = i) (h2 : ∀ j ∈ ls, k1 j = k2 i → j ∉ ls) :
    fget d (fsets d m (ls.flatMap fun l => [(k1 l, v1 l), (k2 l, v2 l)])) (k2 i) = v2 i := by
  have h2 : ∀ j ∈ ls, k1 j ≠ k2 i := fun j hj e => h2 j hj e hj
  clear * - hi h1 h2
  induction ls generalizing m with
  | nil => simp at hi
  | cons j ls ih =>
    rw [List.flatMap_cons]
    change fget d (fsets d (fset d (fset d m (k1 j) (v1 j)) (k2 j) (v2 j)) _) _ = _
    by_cases h : i ∈ ls
    · exact ih h (fun j hj => h1 j (List.mem_cons_of_mem _ hj)) (fun j hj => h2 j (List.mem_cons_of_mem _ hj))
    · have hij : i = j := by simpa [h] using hi
      subst hij
      rw [fget_fsets_notin]
      · simp
      · intro e he
        obtain ⟨l, hl, he⟩ := List.mem_flatMap.1 he
        simp at he
        rcases he with rfl | rfl
        · exact fun hc => h2 l (List.mem_cons_of_mem _ hl) hc.symm
        · intro hc
          exact h (h1 l (List.mem_cons_of_mem _ hl) hc.symm ▸ hl)

/-- A per-lane word that writes a pair. -/
theorem pairWord_effect {s : State} {t : Team} {c : Clause} (h : Issues s t c) (n : Nat) (d : Code)
    (f : Nat → Team → Nat → DWord) : PairEffect s t c 1 n d (f s.fresh t) (pairWord s n d f) := by
  refine ⟨(t.putPair d.toNat (f s.fresh t)).advance c n, ?_, Past.of_advance (t.putPair d.toNat (f s.fresh t)) c n, ?_, ?_, ?_, ?_⟩
  · rw [pairWord, withTeam_eq h]; rfl
  · unfold SameButRegs
    rw [Team.advance_regs]
    exact SamePlaceApart.of_advance (t.putPair d.toNat (f s.fresh t)) c n
  · intro l hl
    simp only [Team.reg, Team.advance_regs, Team.putPair]
    refine fget_fsets_flatMap zeroWord (k1 := regKey d.toNat) (k2 := regKey (d.toNat + 1)) hl
      (fun j e => regKey_inj_lane _ e) (fun i => by simp only [regKey]; omega) ?_
    exact (activeLanes_pairwise t).imp fun {i j} h => by simp only [regKey]; omega
  · intro l hl hn
    simp only [Team.reg, Team.advance_regs, Team.putPair]
    refine fget_fsets_flatMap' zeroWord (k1 := regKey d.toNat) (k2 := regKey (d.toNat + 1)) hl
      (fun j _ e => regKey_inj_lane _ e) (fun j hj e => ?_)
    simp only [regKey] at e
    have : j = l + 1024 := by omega
    exact absurd (this ▸ hj) hn
  · intro r l hr
    simp only [Team.reg, Team.advance_regs, Team.putPair]
    refine fget_fsets_notin zeroWord fun e he => ?_
    obtain ⟨j, hj, he⟩ := List.mem_flatMap.1 he
    simp at he
    rcases he with rfl | rfl
    · exact (hr j hj).1
    · exact (hr j hj).2

end Sys2Proof.Machine
end

