-- ==== Sys2Proof/Laws/Access.lean ====
section
/-! SUPPORT. What a translation and the checks of an access can change: the memory side of the machine, and nothing else;
what the pieces of an access are; and what performing stores changes. -/

namespace Sys2Proof.Machine

/-! ### The memory side -/

theorem MemSide.refl (s : State) : MemSide s s := rfl

theorem MemSide.trans {a b c : State} (h : MemSide a b) (h' : MemSide b c) : MemSide a c := by
  unfold MemSide at *; rw [h', h]

theorem MemSide.teams {a b : State} (h : MemSide a b) : b.teams = a.teams := by rw [h]
theorem MemSide.wgs {a b : State} (h : MemSide a b) : b.wgs = a.wgs := by rw [h]
theorem MemSide.launches {a b : State} (h : MemSide a b) : b.launches = a.launches := by rw [h]
theorem MemSide.cur {a b : State} (h : MemSide a b) : b.cur = a.cur := by rw [h]
theorem MemSide.scratch {a b : State} (h : MemSide a b) : b.scratch = a.scratch := by rw [h]
theorem MemSide.host {a b : State} (h : MemSide a b) : b.host = a.host := by rw [h]
theorem MemSide.team {a b : State} (h : MemSide a b) (u : Nat) : b.team u = a.team u := by
  simp only [State.team, h.teams]
theorem MemSide.wg {a b : State} (h : MemSide a b) (g : Nat) : b.wg g = a.wg g := by simp only [State.wg, h.wgs]

theorem MemSide.putDreg (s : State) (a : Nat) (v : DWord) : MemSide s (s.putDreg a v) := rfl
theorem MemSide.putDfield (s : State) (a lo n x : Nat) : MemSide s (s.putDfield a lo n x) := rfl
theorem MemSide.addDfield (s : State) (a lo n x : Nat) : MemSide s (s.addDfield a lo n x) := rfl
theorem MemSide.addDeny (s : State) (n : Nat) : MemSide s (addDeny s n) := rfl
theorem MemSide.bump (s : State) : MemSide s s.bump := rfl
theorem MemSide.putCaddy (s : State) (t : Nat) (c : Caddy) : MemSide s (s.putCaddy t c) := rfl

theorem MemSide.pathWritten (s : State) (t : Nat) : MemSide s (pathWritten s t) := by
  unfold Machine.pathWritten; split <;> rfl

theorem MemSide.putHbm (s : State) (m : Memory) : MemSide s { s with hbm := m } := rfl
theorem MemSide.putOpen (s : State) (l : List OpenTile) : MemSide s { s with openTiles := l } := rfl
theorem MemSide.putFwd (s : State) (l : List (Nat × List Byte)) : MemSide s { s with sealFwd := l } := rfl
theorem MemSide.putFlight (s : State) (f : Option Nat) : MemSide s { s with flight := f } := rfl

theorem MemSide.alter (s : State) (a : Nat) (w n : List Byte) : MemSide s (alter s a w n) := rfl

theorem MemSide.putMetaByte (s : State) (a : Nat) (b : Byte) : MemSide s (putMetaByte s a b) := by
  unfold Machine.putMetaByte
  extract_lets
  split
  · exact (MemSide.putCaddy _ _ _).trans (MemSide.alter _ _ _ _)
  · split
    · exact MemSide.alter _ _ _ _
    · exact MemSide.putHbm _ _

theorem MemSide.putMeta (s : State) (a : Nat) (l : List Byte) : MemSide s (putMeta s a l) := by
  have h : ∀ (l : List Byte) (x : State × Nat), MemSide s x.1 →
      MemSide s (l.foldl (fun (x : State × Nat) b => (Machine.putMetaByte x.1 x.2 b, x.2 + 1)) x).1 := by
    intro l
    induction l with
    | nil => exact fun x h => h
    | cons b l ih => exact fun x h => ih _ (h.trans (MemSide.putMetaByte _ _ _))
  exact (h l (s, a) (MemSide.refl s)).trans rfl

theorem MemSide.sealCheck (s : State) (key t : Nat) : MemSide s (sealCheck s key t).2 := by
  unfold Machine.sealCheck
  dsimp only
  repeat' split
  all_goals exact MemSide.refl _

theorem MemSide.sealStore (s : State) (key a : Nat) (l : List Byte) : MemSide s (sealStore s key a l).2 := by
  unfold Machine.sealStore
  dsimp only
  split
  · exact MemSide.putMeta _ _ _
  · split
    · repeat' split
      all_goals exact MemSide.refl _
    · split
      · exact MemSide.refl _
      · split
        · exact MemSide.refl _
        · generalize hx : (if (l.length == 2048) = true ∨ (s.caddy (tileOf a)).state = 0 then
            ((pathFail s (tileOf a)).map SealFail.path, s) else Machine.sealCheck s key (tileOf a)) = x
          have hs : MemSide s x.2 := by
            rw [← hx]; split
            · rfl
            · exact MemSide.sealCheck _ _ _
          obtain ⟨f, s1⟩ := x
          cases f with
          | some f => exact hs
          | none =>
            dsimp only
            split
            · exact hs.trans (MemSide.putFlight _ _)
            · exact ((hs.trans (MemSide.pathWritten _ _)).trans (MemSide.putHbm _ _)).trans (MemSide.putCaddy _ _ _)

theorem MemSide.ringAppend (hdr : List Byte) (cap : Nat) {w : State → Nat → List Byte → State}
    (hw : ∀ s o l, MemSide s (w s o l)) (s : State) (r : List Byte) : MemSide s (ringAppend hdr cap w s r) := by
  unfold Machine.ringAppend
  dsimp only
  split
  · exact hw _ _ _
  · exact ((hw _ _ _).trans (hw _ _ _)).trans (hw _ _ _)

theorem MemSide.sealRecord (s : State) (part paddr source status granule : Nat) :
    MemSide s (sealRecord s part paddr source status granule) := by
  unfold Machine.sealRecord
  dsimp only
  have h0 : MemSide s { s with sealSeq := s.sealSeq + 1 } := rfl
  split
  · exact h0
  · have h := h0.trans (MemSide.sealCheck _ 0 (tileOf (s.dfield aSealBase 0 52)))
    split <;> rename_i e <;> rw [e] at h
    · exact h
    · split
      · exact (h.trans (MemSide.putFwd _ _)).trans (MemSide.ringAppend _ _ (fun s o l => MemSide.sealStore s 0 _ l) _ _)
      · exact h.trans (MemSide.ringAppend _ _ (fun s o l => MemSide.sealStore s 0 _ l) _ _)

theorem MemSide.sealLog (s : State) (paddr source status granule : Nat) :
    MemSide s (sealLog s paddr source status granule) := MemSide.sealRecord _ _ _ _ _ _

theorem MemSide.checkLog (s : State) (part : Option Nat) (granule : Nat) : MemSide s (checkLog s part granule) :=
  (MemSide.bump s).trans (MemSide.sealRecord _ _ _ _ _ _)

theorem MemSide.nodeLog (s : State) (a : Nat) : MemSide s (nodeLog s a) := by
  unfold Machine.nodeLog
  split
  · split
    · rfl
    · rename_i x _ _
      exact MemSide.trans (b := { s with treeAlt := fset noEntry s.treeAlt a (some { x with logged := true }) }) rfl
        (MemSide.sealLog _ _ _ _ _)
  · rfl

theorem MemSide.failLog (s : State) (t source : Nat) (f : SealFail) : MemSide s (failLog s t source f) := by
  unfold Machine.failLog
  split
  · exact MemSide.nodeLog _ _
  · exact MemSide.sealLog _ _ _ _ _

theorem MemSide.refuseLog (s : State) (t source : Nat) (f : SealFail) : MemSide s (refuseLog s t source f) := by
  unfold Machine.refuseLog
  dsimp only
  split
  · exact (MemSide.failLog _ _ _ _).trans (MemSide.failLog _ _ _ _)
  · exact MemSide.failLog _ _ _ _

theorem MemSide.sealRead (s : State) (key source a n : Nat) : MemSide s (sealRead s key source a n).2.2 := by
  unfold Machine.sealRead
  split
  · rfl
  · dsimp only
    have h := MemSide.sealCheck s key (tileOf a)
    split <;> rename_i s1 e <;> rw [e] at h <;> dsimp only at h ⊢
    · exact h.trans (MemSide.failLog _ _ _ _)
    · split
      · exact h.trans (MemSide.failLog s1 (tileOf a) 6 (.check _))
      · exact h

theorem MemSide.openTile (s : State) (key source a : Nat) (l : List Byte) : MemSide s (openTile s key source a l).2 := by
  unfold Machine.openTile
  dsimp only
  have h := (MemSide.bump s).trans (MemSide.sealCheck s.bump key (tileOf a))
  split <;> rename_i e <;> rw [e] at h
  · exact h.trans (MemSide.refuseLog _ _ _ _)
  · split
    · exact h.trans (MemSide.nodeLog _ _)
    · exact h.trans (MemSide.putOpen _ _)

theorem MemSide.sealWrite (s : State) (key source a : Nat) (l : List Byte) : MemSide s (sealWrite s key source a l).2 := by
  unfold Machine.sealWrite
  split
  · exact MemSide.openTile _ _ _ _ _
  · have h := MemSide.sealStore s key a l
    split <;> rename_i e <;> rw [e] at h
    · exact h
    · exact h.trans (MemSide.refuseLog _ _ _ _)

theorem MemSide.walkFrom (part : Option Nat) (va : Nat) (wr : Bool) (level : Nat) (s : State) (node key : Nat) :
    MemSide s (walkFrom part va wr level s node key).2 := by
  induction level generalizing s node key with
  | zero =>
    unfold Machine.walkFrom
    dsimp only
    split
    · split
      · exact MemSide.addDeny _ _
      · exact MemSide.refl _
    · have h := MemSide.sealRead s key 4 (node + 16 * walkIndex 0 va) 16
      split <;> rename_i l s1 e <;> rw [e] at h <;> dsimp only at h
      · generalize ofBytes l ||| (if (wr && (ofBytes l).testBit 2) = true then 0x60 else 0x20) = z
        split
        · exact h
        · split
          · exact h
          · split
            · split
              · exact h
              · have hw := h.trans (MemSide.sealWrite s1 key 1 (node + 16 * walkIndex 0 va) (toBytes 16 z))
                split <;> rename_i ew <;> rw [ew] at hw <;> exact hw
            · exact h
      · exact h
  | succ k ih =>
    unfold Machine.walkFrom
    dsimp only
    split
    · split
      · exact MemSide.addDeny _ _
      · exact MemSide.refl _
    · have h := MemSide.sealRead s key 4 (node + 16 * walkIndex (k + 1) va) 16
      split <;> rename_i l s1 e <;> rw [e] at h <;> dsimp only at h
      · generalize ofBytes l ||| (if (wr && (ofBytes l).testBit 2) = true then 0x60 else 0x20) = z
        split
        · exact h
        · split
          · exact h
          · split
            · split
              · exact h
              · have hw := h.trans (MemSide.sealWrite s1 key 1 (node + 16 * walkIndex (k + 1) va) (toBytes 16 z))
                split <;> rename_i ew <;> rw [ew] at hw <;> exact hw
            · exact h.trans (ih _ _ _)
      · exact h

theorem MemSide.walk (s : State) (part : Option Nat) (va : Nat) (wr : Bool) : MemSide s (walk s part va wr).2 := by
  unfold Machine.walk
  dsimp only
  split <;> rename_i e <;> [skip; skip]
  all_goals
    have h := congrArg (fun x => MemSide s x.2) e
    exact h ▸ MemSide.walkFrom _ _ _ _ _ _ _

theorem MemSide.cacheFill (l1 : Bool) (s : State) (core : Option Nat) (x : Tlb) : MemSide s (cacheFill l1 s core x) := by
  unfold Machine.cacheFill; split <;> rfl

theorem MemSide.xlateBy (l1 : Bool) (s : State) (part core : Option Nat) (va : Nat) (wr : Bool) :
    MemSide s (xlateBy l1 s part core va wr).2 := by
  unfold Machine.xlateBy
  split
  · exact MemSide.refl _
  · split
    · exact MemSide.refl _
    · have h := MemSide.walk s part va wr
      split <;> rename_i e <;> rw [e] at h
      · exact h.trans (MemSide.cacheFill _ _ _ _)
      · exact h

theorem MemSide.xlate (s : State) (part core : Option Nat) (va : Nat) (wr : Bool) :
    MemSide s (xlate s part core va wr).2 := MemSide.xlateBy _ _ _ _ _ _

/-! ### The save area -/

theorem MemSide.areaAddr (s : State) (part : Option Nat) (core va : Nat) (wr : Bool) :
    MemSide s (areaAddr s part core va wr).2 := by
  unfold Machine.areaAddr
  split
  · exact MemSide.refl _
  · rename_i n
    have h := MemSide.xlateBy false s (some n) (some core) va wr
    split <;> rename_i e <;> rw [e] at h <;> dsimp only at h ⊢
    · exact h
    · repeat' split
      all_goals first | exact h | exact h.trans (MemSide.addDeny _ _)

theorem MemSide.charge (s : State) (p : Option Nat) : MemSide s (charge s p) := rfl

theorem MemSide.areaWrite (s : State) (part : Option Nat) (core : Nat) (key bad : Option Nat) (va : Nat) :
    MemSide s (areaWrite s part core key bad va).2 := by
  unfold Machine.areaWrite
  have h := MemSide.areaAddr s part core va true
  split <;> rename_i e <;> rw [e] at h <;> dsimp only at h ⊢
  · exact h
  · rename_i pa k s1
    have hw := ((h.trans (MemSide.bump s1)).trans (MemSide.putFlight s1.bump (bad.or s1.flight))).trans
      (MemSide.sealWrite { s1.bump with flight := bad.or s1.flight } (key.getD k) 1 pa
        ((List.range 2048).map (Config.freeByte s1.fresh)))
    generalize Machine.sealWrite _ _ _ _ _ = r at hw ⊢
    exact hw.trans (MemSide.putFlight r.2 _)

theorem MemSide.areaRead (s : State) (part : Option Nat) (core : Nat) (key : Option Nat) (va : Nat) :
    MemSide s (areaRead s part core key va).2 := by
  unfold Machine.areaRead
  have h := MemSide.areaAddr s part core va false
  split <;> rename_i e <;> rw [e] at h <;> dsimp only at h ⊢
  · exact h
  · exact h.trans (MemSide.sealRead _ _ _ _ _)

theorem MemSide.spillKey (s : State) (t : Team) : MemSide s (spillKey s t).2 := by
  unfold Machine.spillKey
  generalize t.base = b
  have h := MemSide.xlateBy false s (teamPart s t) (some (teamCore s t)) b false
  split <;> rename_i e <;> rw [e] at h <;> dsimp only at h ⊢ <;> exact h

theorem MemSide.spillRefused (s : State) (t t' : Team) : MemSide s (spillRefused s t t').2 := by
  unfold Machine.spillRefused
  split
  · exact MemSide.refl _
  · have h := MemSide.spillKey s t'
    split
    rename_i e
    rw [e] at h
    exact h

/-- A fold keeps what each of its steps keeps. -/
theorem foldl_keeps {α β : Type} (p : β → Prop) (f : β → α → β) (hf : ∀ x i, p x → p (f x i)) (l : List α) (x : β)
    (h : p x) : p (l.foldl f x) := by
  induction l generalizing x with
  | nil => exact h
  | cons i l ih => exact ih _ (hf _ _ h)

theorem MemSide.refillBytes (s : State) (t : Team) (o n : Nat) : MemSide s (refillBytes s t o n).2 := by
  unfold Machine.refillBytes
  extract_lets hi
  split
  · exact MemSide.refl _
  · have h := MemSide.spillKey s t
    split <;> rename_i e <;> rw [e] at h <;> dsimp only at h
    · exact h
    · rename_i key _
      extract_lets part core
      refine foldl_keeps (fun x : Option (Nat × Nat) × State => MemSide s x.2) _ (fun x i hx => ?_) _ _
        (h.trans (MemSide.charge _ _))
      extract_lets at_
      dsimp only
      split
      · rename_i s2 unit _
        have hr := MemSide.trans hx (MemSide.areaRead s2 part core (some key) (unit + at_ % 65536))
        split <;> rename_i er <;> rw [er] at hr <;> dsimp only at hr
        · have hw := hr.trans (MemSide.areaWrite _ part core (some key) none (unit + at_ % 65536))
          split <;> exact hw
        · exact hr
      · exact hx

theorem MemSide.refillFrame (s : State) (t : Team) (o n : Nat) : MemSide s (refillFrame s t o n).2 := by
  unfold Machine.refillFrame
  repeat' split
  · exact MemSide.refl _
  · exact MemSide.bump s
  · exact (MemSide.bump s).trans (MemSide.refillBytes _ _ _ _)

/-! ### The checks of an access -/

theorem MemSide.meetRefill (s : State) (t : Team) (y : Seg) : MemSide s (meetRefill s t y).2 := by
  unfold Machine.meetRefill
  have h := MemSide.refillFrame s t y.off y.n
  split <;> rename_i e <;> rw [e] at h <;> exact h

theorem MemSide.meetPiece (s : State) (u : Nat) (t : Team) (k : AccKind) (va n lo len : Nat) :
    MemSide s (meetPiece s u t k va n lo len).2 := by
  unfold Machine.meetPiece
  have h := MemSide.xlate s (teamPart s t) (some (teamCore s t)) va k.wr
  split <;> rename_i e <;> rw [e] at h
  · exact h
  · split
    · dsimp only
      split
      · exact h.trans (MemSide.addDeny _ _)
      · exact h
    · split
      · exact h.trans (MemSide.meetRefill _ _ _)
      · exact h
    · exact h

theorem MemSide.meetPieces (u : Nat) (t : Team) (k : AccKind) (lo len : Nat) (s : State) (l : List (Nat × Nat)) :
    MemSide s (meetPieces u t k lo len s l).2 := by
  induction l generalizing s with
  | nil => exact MemSide.refl _
  | cons e l ih => exact (MemSide.meetPiece s u t k e.1 e.2 lo len).trans (ih _)

theorem MemSide.meetAll (s : State) (u : Nat) (t : Team) (k : AccKind) (lo len : Nat) (ps : List (Nat × Nat)) :
    MemSide s (meetAll s u t k lo len ps).2 := by
  unfold Machine.meetAll
  have h := MemSide.meetPieces u t k lo len s ps
  split <;> rename_i e <;> rw [e] at h <;> exact h

theorem MemSide.laneAccess (s : State) (u : Nat) (t : Team) (k : AccKind) (va : DWord) :
    MemSide s (laneAccess s u t k va).2 := by
  unfold Machine.laneAccess
  dsimp only
  split
  · exact MemSide.refl _
  · exact MemSide.meetAll _ _ _ _ _ _ _

theorem MemSide.lanesAccess (u : Nat) (t : Team) (k : AccKind) (s : State) (l : List (Nat × DWord)) :
    MemSide s (lanesAccess u t k s l).2 := by
  induction l generalizing s with
  | nil => exact MemSide.refl _
  | cons e l ih =>
    obtain ⟨i, va⟩ := e
    unfold Machine.lanesAccess
    have h := MemSide.laneAccess s u t k va
    split <;> rename_i e <;> rw [e] at h
    · exact h
    · have h' := h.trans (ih _)
      split <;> rename_i e' <;> rw [e'] at h' <;> exact h'

theorem MemSide.rangeAccess (s : State) (u : Nat) (t : Team) (wr : Bool) (va n : Nat) :
    MemSide s (rangeAccess s u t wr va n).2 := MemSide.meetAll _ _ _ _ _ _ _

/-! ### Performing stores -/

theorem SameButWindow.refl (t : Team) : SameButWindow t t := ⟨rfl, rfl⟩

theorem SameButWindow.trans {a b c : Team} (h : SameButWindow a b) (h' : SameButWindow b c) : SameButWindow a c :=
  ⟨by rw [h'.1, h.1], h'.2.trans h.2⟩

theorem WindowSide.of_eq {s s' : State} {u : Nat} (h : s'.team u = s.team u) : WindowSide s s' u := by
  unfold WindowSide; rw [h]; cases s.team u <;> simp [SameButWindow.refl]

theorem SharedSide.of_eq {s s' : State} {g : Nat} (h : s'.wg g = s.wg g) : SharedSide s s' g := by
  unfold SharedSide; rw [h]; cases s.wg g <;> simp

theorem StoreSide.refl (s : State) : StoreSide s s := ⟨rfl, fun _ => WindowSide.of_eq rfl, fun _ => SharedSide.of_eq rfl⟩

theorem StoreSide.trans {a b c : State} (h : StoreSide a b) (h' : StoreSide b c) : StoreSide a c := by
  obtain ⟨h1, h2, h3⟩ := h
  obtain ⟨g1, g2, g3⟩ := h'
  refine ⟨by rw [g1, h1], fun u => ?_, fun g => ?_⟩
  · have x := h2 u; have y := g2 u
    unfold WindowSide at *
    cases ha : a.team u with
    | none => rw [ha] at x; simp only at x; rw [x] at y; simpa using y
    | some t =>
      rw [ha] at x
      obtain ⟨t1, e1, r1⟩ := x
      rw [e1] at y
      obtain ⟨t2, e2, r2⟩ := y
      exact ⟨t2, e2, r1.trans r2⟩
  · have x := h3 g; have y := g3 g
    unfold SharedSide at *
    cases ha : a.wg g with
    | none => rw [ha] at x; simp only at x; rw [x] at y; simpa using y
    | some t =>
      rw [ha] at x
      obtain ⟨t1, e1, r1⟩ := x
      rw [e1] at y
      obtain ⟨t2, e2, r2⟩ := y
      exact ⟨t2, e2, by rw [r2, r1]⟩

/-- A team's window or held stores have changed, and nothing else. -/
theorem StoreSide.putTeam {s : State} {u : Nat} {t t' : Team} (h : s.team u = some t) (ht : SameButWindow t t') :
    StoreSide s (s.putTeam u t') := by
  refine ⟨rfl, fun v => ?_, fun g => SharedSide.of_eq rfl⟩
  by_cases hv : v = u
  · subst hv; unfold WindowSide; simp [h, ht]
  · exact WindowSide.of_eq (State.team_putTeam_other _ _ hv)

theorem StoreSide.putStores {s : State} {u : Nat} {t : Team} (h : s.team u = some t) (l : List PendStore) :
    StoreSide s (s.putTeam u { t with stores := l }) := StoreSide.putTeam h ⟨rfl, rfl⟩

theorem StoreSide.nextId (s : State) : StoreSide s s.nextId :=
  ⟨rfl, fun _ => WindowSide.of_eq rfl, fun _ => SharedSide.of_eq rfl⟩

theorem StoreSide.placeWrite (s : State) (p : Place) (o : Nat) (l : List Byte) (ref : Bool) :
    StoreSide s (placeWrite s p o l ref) := by
  cases p with
  | scratch c => exact ⟨rfl, fun _ => WindowSide.of_eq rfl, fun _ => SharedSide.of_eq rfl⟩
  | shared g =>
    simp only [Machine.placeWrite]
    cases hw : s.wg g with
    | none => exact StoreSide.refl s
    | some w =>
      refine ⟨rfl, fun v => WindowSide.of_eq rfl, fun g' => ?_⟩
      by_cases hv : g' = g
      · subst hv; unfold SharedSide; simp [hw]
      · exact SharedSide.of_eq (State.wg_putWg_other _ _ hv)
  | frame u =>
    simp only [Machine.placeWrite]
    cases ht : s.team u with
    | none => exact StoreSide.refl s
    | some t => exact StoreSide.putTeam ht ⟨rfl, rfl⟩

theorem StoreSide.atomWrite (s : State) (p : Place) (o n : Nat) (x : Rmw) : StoreSide s (atomWrite s p o n x).2 := by
  unfold Machine.atomWrite
  dsimp only
  split
  · exact StoreSide.refl s
  · exact StoreSide.placeWrite _ _ _ _ _

/-- The result of an ATOM stands in the entry of its own lane, and in no other. -/
theorem SameButWindow.atomResult (t : Team) (x : PendStore) (r : Rmw) (old : Nat) : SameButWindow t (t.atomResult x r old) := by
  refine ⟨rfl, ?_⟩
  simp only [Team.atomResult, List.map_map]
  refine List.map_congr_left fun p _ => ?_
  simp only [Function.comp]
  split <;> rfl

theorem StoreSide.performStore (s : State) (u : Nat) (x : PendStore) : StoreSide s (performStore s u x) := by
  unfold Machine.performStore
  split
  · exact StoreSide.placeWrite _ _ _ _ _
  · rename_i r _
    have h := StoreSide.atomWrite s x.place x.off x.bytes.length r
    split
    rename_i e
    rw [e] at h
    dsimp only at h ⊢
    split
    · rename_i ht; exact h.trans (StoreSide.putTeam ht (SameButWindow.atomResult _ _ _ _))
    · exact h

theorem StoreSide.promote (s : State) (u : Nat) (x : PendStore) : StoreSide s (promote s u x) := by
  unfold Machine.promote
  cases h : s.team u with
  | none => exact StoreSide.refl s
  | some t =>
    dsimp only
    split
    · exact (StoreSide.nextId s).trans (StoreSide.putStores (s := s.nextId) h _)
    · exact (StoreSide.putStores h _).trans (StoreSide.performStore _ _ _)

/-- Bringing stores further one after the other. -/
theorem StoreSide.foldl {α : Type} {f : State → α → State} (hf : ∀ s x, StoreSide s (f s x)) (l : List α) (s : State) :
    StoreSide s (l.foldl f s) :=
  foldl_keeps (fun r => StoreSide s r) f (fun _ _ h => h.trans (hf _ _)) l s (StoreSide.refl s)

theorem StoreSide.raiseOne (s : State) (u : Nat) (x : PendStore) (n : Nat) : StoreSide s (raiseOne s u x n) := by
  unfold Machine.raiseOne
  exact StoreSide.foldl (fun s _ => StoreSide.foldl (fun s (y : Nat × PendStore) => StoreSide.promote s y.1 y.2) _ s) _ s

theorem StoreSide.raiseStore (s : State) (u : Nat) (x : PendStore) (n : Nat) : StoreSide s (raiseStore s u x n) := by
  unfold Machine.raiseStore
  split
  · exact StoreSide.raiseOne _ _ _ _
  · extract_lets r
    have h : StoreSide s r := StoreSide.foldl (fun s (y : Nat × PendStore) => StoreSide.raiseOne s y.1 y.2 6) _ s
    split
    · exact h
    · rename_i ht
      exact (h.trans (StoreSide.putStores ht _)).trans (StoreSide.performStore _ _ _)

theorem StoreSide.fixLoads {s : State} {u : Nat} {t : Team} (h : s.team u = some t) (p : FloatLoad → Bool) :
    StoreSide s (s.putTeam u (t.fixLoads p)) := StoreSide.putTeam h ⟨rfl, rfl⟩

theorem StoreSide.raiseStores (s : State) (u : Nat) (p : PendStore → Nat) : StoreSide s (raiseStores s u p) := by
  unfold Machine.raiseStores
  cases h : s.team u with
  | none => exact StoreSide.refl s
  | some t => exact (StoreSide.fixLoads h _).trans (StoreSide.foldl (fun s (x : PendStore × Nat) => StoreSide.raiseStore s u x.1 x.2) _ _)

theorem StoreSide.raiseSeen (s : State) (u n : Nat) : StoreSide s (raiseSeen s u n) := by
  unfold Machine.raiseSeen
  exact StoreSide.foldl (fun s (x : Nat × PendStore) => StoreSide.raiseOne s x.1 x.2 n) _ s

theorem StoreSide.raiseMet (s : State) (u : Nat) (p : Place) (o n : Nat) : StoreSide s (raiseMet s u p o n) := by
  unfold Machine.raiseMet
  exact StoreSide.foldl (fun s (x : Nat × PendStore) => StoreSide.raiseOne s x.1 x.2 6) _ s

theorem StoreSide.drainTo (s : State) (u n : Nat) : StoreSide s (drainTo s u n) := by
  unfold Machine.drainTo
  cases h : s.team u with
  | none => exact StoreSide.refl s
  | some t =>
    have h' : StoreSide s (s.putTeam u { t with loads := [] }) := StoreSide.putTeam h ⟨rfl, rfl⟩
    exact (h'.trans (StoreSide.raiseStores _ _ _)).trans (StoreSide.raiseSeen _ _ _)

theorem StoreSide.drainAll (s : State) (u : Nat) : StoreSide s (drainAll s u) := StoreSide.drainTo s u 6

theorem StoreSide.drainFrame (s : State) (u : Nat) (wr : Bool) (xs : List Seg) : StoreSide s (drainFrame s u wr xs) := by
  unfold Machine.drainFrame
  split
  · exact StoreSide.drainAll s u
  · cases h : s.team u with
    | none => exact StoreSide.refl s
    | some t =>
      exact ((StoreSide.fixLoads h _).trans
        (StoreSide.foldl (fun s (x : Seg) => StoreSide.raiseMet s u x.place x.off x.n) xs _)).trans (StoreSide.raiseStores _ _ _)

theorem StoreSide.drainOne (s : State) (u k : Nat) : StoreSide s (drainOne s u k) := by
  unfold Machine.drainOne
  split
  · exact StoreSide.refl s
  · split
    · exact StoreSide.refl s
    · exact StoreSide.raiseStores _ _ _

theorem StoreSide.atomsFirst (s : State) (u : Nat) (p : PendStore → Bool) : StoreSide s (atomsFirst s u p) := by
  unfold Machine.atomsFirst
  split
  · exact StoreSide.refl s
  · split
    · exact StoreSide.raiseStores _ _ _
    · exact StoreSide.refl s

theorem StoreSide.writeSegs (s : State) (xs : List Seg) (va : Nat) (l : List Byte) (ref : Bool) :
    StoreSide s (writeSegs s xs va l ref) := by
  unfold Machine.writeSegs
  induction xs generalizing s with
  | nil => exact StoreSide.refl s
  | cons x xs ih =>
    rw [List.foldl_cons]
    refine StoreSide.trans ?_ (ih _)
    dsimp only
    split
    · exact StoreSide.placeWrite _ _ _ _ _
    · exact StoreSide.refl s

theorem StoreSide.team {s s' : State} (h : StoreSide s s') {u : Nat} {t : Team} (ht : s.team u = some t) :
    ∃ t', s'.team u = some t' ∧ SameButWindow t t' := by
  have := h.2.1 u; unfold WindowSide at this; rwa [ht] at this

theorem StoreSide.cur {s s' : State} (h : StoreSide s s') : s'.cur = s.cur := by rw [h.1]

/-! ### The pieces of an access -/

/-- The check words pass a piece as it is. -/
theorem meetGranules_seg {s : State} {k : AccKind} {x y : Seg} (h : meetGranules s k x = .seg y) : y = x := by
  unfold meetGranules at h
  split at h
  · cases h
  · cases h; rfl

theorem outsideFrame_none {t : Team} {va n : Nat} (h : t.outsideFrame va n = none) : t.base ≤ va ∧ va + n ≤ t.fsp.toNat := by
  revert h
  unfold Team.outsideFrame firstBeyond
  generalize t.base = b
  intro h
  by_cases hb : va < b
  · simp [hb] at h
  · by_cases hl : t.fsp.toNat < va + n
    · simp [hb, hl] at h
    · exact ⟨Nat.le_of_not_lt hb, Nat.le_of_not_lt hl⟩

/-- A piece in a FRAME page: the whole access lies in the team's own window below FSP (R131). -/
theorem meetFrame_seg {s : State} {u : Nat} {t : Team} {k : AccKind} {p : Pte} {va n lo len : Nat} {y : Seg}
    (h : meetFrame s u t k p va n lo len = .seg y) :
    y.va = va ∧ y.n = n ∧ y.typ = 4 ∧ y.place = .frame u ∧ y.off = va - t.base ∧ t.base ≤ lo ∧ lo + len ≤ t.fsp.toNat := by
  unfold meetFrame at h
  split at h
  · cases h
  · rename_i hb
    rw [meetGranules_seg h]
    exact ⟨rfl, rfl, rfl, rfl, rfl, outsideFrame_none hb⟩

theorem meetScratch_seg {s : State} {t : Team} {k : AccKind} {p : Pte} {va off n : Nat} {y : Seg}
    (h : meetScratch s t k p va off n = .seg y) :
    y = { va := va, n := n, typ := 2, order := p.order, place := .scratch p.core, off := off } := by
  unfold meetScratch at h
  split at h
  · cases h
  · split at h
    · cases h
    · split at h
      · cases h
      · exact meetGranules_seg h

theorem meetShared_seg {s : State} {t : Team} {k : AccKind} {p : Pte} {va off n : Nat} {y : Seg}
    (h : meetShared s t k p va off n = .seg y) :
    y = { va := va, n := n, typ := 3, order := p.order, place := .shared t.wg, off := off } := by
  unfold meetShared at h
  split at h
  · cases h
  · split at h
    · cases h
    · split at h
      · cases h
      · exact meetGranules_seg h

theorem meetMmio_seg {s : State} {u : Nat} {t : Team} {k : AccKind} {va off n lo : Nat} {y : Seg}
    (h : meetMmio s u t k va off n lo = .seg y) :
    y = { va := va, n := n, typ := 5, order := 0, place := .frame u, off := off } := by
  unfold meetMmio at h
  split at h
  · cases h
  · split at h
    · cases h
    · split at h
      · cases h
      · cases h; rfl

theorem meetQueue_seg {u : Nat} {k : AccKind} {base va n lo : Nat} {y : Seg} (h : meetQueue u k base va n lo = .seg y) :
    y = { va := va, n := n, typ := 6, order := 0, place := .frame u, off := va - base } := by
  unfold meetQueue at h
  split at h
  · cases h
  · split at h
    · cases h
    · cases h; rfl

/-- What a piece that passes the checks of a page is. -/
theorem meetPage_seg {s : State} {u : Nat} {t : Team} {k : AccKind} {x : Tlb} {va n lo len : Nat} {y : Seg}
    (h : meetPage s u t k x va n lo len = .seg y) :
    y.va = va ∧ y.n = n ∧ y.typ = x.pte.typ ∧
      (y.typ = 4 → y.place = .frame u ∧ y.off = va - t.base ∧ t.base ≤ lo ∧ lo + len ≤ t.fsp.toNat) := by
  unfold meetPage at h
  dsimp only at h
  split at h
  · cases h
  · split at h
    · rename_i hp; rw [meetScratch_seg h, hp]; exact ⟨rfl, rfl, rfl, fun h => by cases h⟩
    · rename_i hp; rw [meetShared_seg h, hp]; exact ⟨rfl, rfl, rfl, fun h => by cases h⟩
    · rename_i hp
      obtain ⟨h1, h2, h3, h4⟩ := meetFrame_seg h
      exact ⟨h1, h2, h3.trans hp.symm, fun _ => h4⟩
    · rename_i hp; rw [meetMmio_seg h, hp]; exact ⟨rfl, rfl, rfl, fun h => by cases h⟩
    · rename_i hp; rw [meetQueue_seg h, hp]; exact ⟨rfl, rfl, rfl, fun h => by cases h⟩
    · cases h

theorem meetRefill_seg {s s' : State} {t : Team} {y z : Seg} (h : meetRefill s t y = (.seg z, s')) : z = y := by
  unfold meetRefill at h
  split at h <;> simp at h
  exact h.1.symm

/-- What a piece of an access that passes is: of n bytes at va, and in a FRAME page within the team's own window, as the
whole access is. -/
theorem meetPiece_seg {s : State} {u : Nat} {t : Team} {k : AccKind} {va n lo len : Nat} {y : Seg} {s' : State}
    (h : meetPiece s u t k va n lo len = (.seg y, s')) :
    y.va = va ∧ y.n = n ∧ (y.typ = 4 → y.place = .frame u ∧ y.off = va - t.base ∧ t.base ≤ lo ∧ lo + len ≤ t.fsp.toNat) := by
  unfold meetPiece at h
  split at h
  · simp at h
  · split at h
    · simp at h
    · rename_i e
      have hp := meetPage_seg e
      split at h
      · rw [meetRefill_seg h]; exact ⟨hp.1, hp.2.1, hp.2.2.2⟩
      · have := (Prod.mk.inj h).1; injection this with this; subst this
        exact ⟨hp.1, hp.2.1, hp.2.2.2⟩
    · rename_i e _
      exact (e _ (Prod.mk.inj h).1).elim

/-- Pieces that lie one after the other from a, n bytes in all. -/
def Chain : Nat → Nat → List Seg → Prop
  | _, n, [] => n = 0
  | a, n, x :: xs => x.va = a ∧ x.n ≤ n ∧ Chain (a + x.n) (n - x.n) xs

/-- The pieces in a team's own window. -/
def InWindow (t : Team) (u : Nat) (xs : List Seg) : Prop :=
  ∀ x ∈ xs, x.place = .frame u ∧ t.base ≤ x.va ∧ x.off = x.va - t.base

theorem meetPieces_chain {u : Nat} {t : Team} {k : AccKind} {lo len fuel : Nat} {s : State} {va n : Nat} {xs : List Seg}
    (h : (meetPieces u t k lo len s (pagePieces fuel va n)).1 = .segs xs) (hlo : lo ≤ va)
    (hf : n ≤ 65536 * (fuel - 1) + (if fuel = 0 then 0 else 65536 - va % 65536)) :
    Chain va n xs ∧ ((∀ x ∈ xs, x.typ = 4) → InWindow t u xs) := by
  induction fuel generalizing s va n xs with
  | zero => simp [pagePieces, meetPieces] at h hf; subst h; simp [Chain, InWindow, hf]
  | succ f ih =>
    unfold pagePieces at h
    by_cases hn : n = 0
    · simp [hn, meetPieces] at h; subst h; simp [Chain, InWindow, hn]
    · simp only [hn, if_false] at h
      unfold meetPieces at h
      rcases hm : meetPiece s u t k va (min n (65536 - va % 65536)) lo len with ⟨m, s1⟩
      rcases hr : meetPieces u t k lo len s1 (pagePieces f (va + min n (65536 - va % 65536)) (n - min n (65536 - va % 65536))) with ⟨r, s2⟩
      rw [hm] at h
      simp only [hr] at h
      cases m with
      | fail => cases r <;> simp only [Met.before] at h <;> [split at h <;> cases h; cases h]
      | seg y =>
        have hy := meetPiece_seg hm
        cases r with
        | fail => cases h
        | segs ys =>
          simp only [Met.before, MetAll.segs.injEq] at h; subst h
          have := ih (s := s1) (va := va + min n (65536 - va % 65536)) (n := n - min n (65536 - va % 65536)) (xs := ys) (by rw [hr]) (by omega) (by
            simp at hf
            by_cases hlt : n ≤ 65536 - va % 65536
            · simp [Nat.min_eq_left hlt]
            · have e : min n (65536 - va % 65536) = 65536 - va % 65536 := by omega
              rw [e]
              rcases f with _ | f
              · simp at hf ⊢; omega
              · have : (va + (65536 - va % 65536)) % 65536 = 0 := by omega
                simp [this]; omega)
          refine ⟨⟨hy.1, by omega, ?_⟩, fun ht => ?_⟩
          · rw [hy.2.1]; exact this.1
          · have h1 := hy.2.2 (ht y List.mem_cons_self)
            have h2 := this.2 fun x hx => ht x (List.mem_cons_of_mem _ hx)
            intro x hx
            rcases List.mem_cons.1 hx with rfl | hx
            · exact ⟨h1.1, by rw [hy.1]; omega, by rw [hy.1]; exact h1.2.1⟩
            · exact h2 x hx

theorem meetAll_ok {s : State} {u : Nat} {t : Team} {k : AccKind} {lo len : Nat} {ps : List (Nat × Nat)} {xs : List Seg}
    (h : (meetAll s u t k lo len ps).1 = .ok xs) : (meetPieces u t k lo len s ps).1 = .segs xs := by
  unfold meetAll at h
  split at h <;> rename_i e <;> rw [e]
  · cases h
  · cases h; rfl

/-- The pieces of a range that passes: one after the other, and in the team's window where its pages are FRAME pages. -/
theorem rangeAccess_chain {s : State} {u : Nat} {t : Team} {wr : Bool} {va n : Nat} {xs : List Seg}
    (h : (rangeAccess s u t wr va n).1 = .ok xs) : Chain va n xs ∧ ((∀ x ∈ xs, x.typ = 4) → InWindow t u xs) :=
  meetPieces_chain (meetAll_ok h) (Nat.le_refl _) (by have := Nat.div_add_mod n 65536; have := Nat.mod_lt n (y := 65536) (by norm_num); have := Nat.mod_lt va (y := 65536) (by norm_num); simp; omega)

theorem finsert_finsert_same {α : Type} (m : FMap α) (k : Nat) (v w : α) : finsert (finsert m k v) k w = finsert m k w := by
  induction m with
  | nil => simp [finsert]
  | cons e m ih =>
    obtain ⟨j, x⟩ := e
    by_cases h1 : k < j
    · simp [finsert, h1]
    · by_cases h2 : j = k
      · simp [finsert, h2]
      · simp [finsert, h1, h2, ih]

/-- Two settings of one team: the second stands. -/
@[simp] theorem State.putTeam_putTeam (s : State) (u : Nat) (t t' : Team) : (s.putTeam u t).putTeam u t' = s.putTeam u t' := by
  simp [State.putTeam, fset, noEntry, finsert_finsert_same]

theorem get_write {m : Memory} {o : Nat} {l : List Byte} (j : Nat) :
    Memory.get (Memory.write m o l) j = if o ≤ j ∧ j < o + l.length then (l[j - o]?).getD 0 else Memory.get m j := by
  induction l generalizing m o with
  | nil => simp [Memory.write]
  | cons b l ih =>
    rw [Memory.write, ih]
    by_cases h0 : j = o
    · subst h0; simp
    · by_cases h1 : o + 1 ≤ j ∧ j < o + 1 + l.length
      · rw [if_pos h1, if_pos (by simp; omega)]
        have : j - o = (j - (o + 1)) + 1 := by omega
        rw [this, List.getElem?_cons_succ]
      · rw [if_neg h1, if_neg (by simp; omega), Memory.get_put_other _ _ h0]

open scoped Classical in
theorem refs_store (m : FMap Bool) (o n : Nat) (b : Bool) (hn : 0 < n) (w : Nat) :
    fget falseAt (storeRefs m o n b) w = if ∃ j, o ≤ j ∧ j < o + n ∧ j / 8 = w then b else fget falseAt m w := by
  unfold storeRefs
  by_cases h : ∃ j, o ≤ j ∧ j < o + n ∧ j / 8 = w
  · rw [if_pos h]
    obtain ⟨j, h1, h2, h3⟩ := h
    have hw : w = o / 8 + (w - o / 8) := by omega
    rw [hw]
    exact fget_fsets_map falseAt (key := fun i => o / 8 + i) (v := fun _ => b) (fun i j h => by simpa using h) (List.mem_range.2 (by omega))
  · rw [if_neg h]
    refine fget_fsets_notin falseAt fun e he => ?_
    obtain ⟨i, hi, rfl⟩ := List.mem_map.1 he
    simp at hi
    simp only
    intro hc
    apply h
    exact ⟨max o (8 * w), by omega, by omega, by omega⟩

open scoped Classical in
/-- Writing bytes at va through pieces of a team's own window. -/
theorem writeSegs_window {u : Nat} {t0 : Team} {xs : List Seg} {a n va : Nat} {l : List Byte} {ref : Bool} {s : State} {t : Team}
    (hc : Chain a n xs) (hx : InWindow t0 u xs) (ht : s.team u = some t) (hb : t.base = t0.base) (_hva : t0.base ≤ va) :
    ∃ t', (writeSegs s xs va l ref).team u = some t' ∧
      t' = { t with frame := t'.frame, frameBad := t'.frameBad, refs := t'.refs } ∧
      (∀ t2, (writeSegs s xs va l ref).putTeam u t2 = s.putTeam u t2) ∧
      (∀ j, Memory.get t'.frame j = if t0.base ≤ j + t0.base ∧ a ≤ j + t0.base ∧ j + t0.base < a + n ∧ va ≤ j + t0.base ∧ j + t0.base < va + l.length
        then (l[j + t0.base - va]?).getD 0 else Memory.get t.frame j) ∧
      (∀ w, fget falseAt t'.refs w = if ∃ j, a ≤ j + t0.base ∧ j + t0.base < a + n ∧ va ≤ j + t0.base ∧ j + t0.base < va + l.length ∧ j / 8 = w
        then ref else fget falseAt t.refs w) := by
  induction xs generalizing s t a n with
  | nil =>
    simp only [Chain] at hc; subst hc
    refine ⟨t, ht, rfl, fun _ => rfl, fun j => ?_, fun w => ?_⟩
    · rw [if_neg (by omega)]
    · rw [if_neg (by rintro ⟨j, h⟩; omega)]
  | cons x xs ih =>
    obtain ⟨h1, h2, h3⟩ := hc
    obtain ⟨p1, p2, p3⟩ := hx x List.mem_cons_self
    have hx' : InWindow t0 u xs := fun y hy => hx y (List.mem_cons_of_mem _ hy)
    have hcons : writeSegs s (x :: xs) va l ref = writeSegs (if max va x.va < min (va + l.length) (x.va + x.n) then
        placeWrite s x.place (x.off + (max va x.va - x.va)) ((l.drop (max va x.va - va)).take (min (va + l.length) (x.va + x.n) - max va x.va)) ref
        else s) xs va l ref := rfl
    rw [hcons]
    by_cases hlt : max va x.va < min (va + l.length) (x.va + x.n)
    · rw [if_pos hlt, p1]
      simp only [placeWrite, ht]
      generalize hd : (l.drop (max va x.va - va)).take (min (va + l.length) (x.va + x.n) - max va x.va) = d
      generalize ho : x.off + (max va x.va - x.va) = o
      have hdl : d.length = min (min (va + l.length) (x.va + x.n) - max va x.va) (l.length - (max va x.va - va)) := by
        rw [← hd]; simp
      let t1 : Team := { t with frame := Memory.write t.frame o d, frameBad := freshGranules 0 o d.length t.frameBad
                                refs := storeRefs t.refs o d.length ref }
      obtain ⟨t', e1, e2, e3, e4, e5⟩ := ih (s := s.putTeam u t1) (t := t1) h3 hx' (State.team_putTeam_same s u t1) hb
      refine ⟨t', e1, ?_, fun t2 => ?_, fun j => ?_, fun w => ?_⟩
      · rw [e2]
      · exact (e3 t2).trans (State.putTeam_putTeam _ _ _ _)
      · rw [e4]
        have g1 : t1.frame = Memory.write t.frame o d := rfl
        rw [g1, get_write, hdl]
        by_cases c1 : t0.base ≤ j + t0.base ∧ a + x.n ≤ j + t0.base ∧ j + t0.base < a + x.n + (n - x.n) ∧ va ≤ j + t0.base ∧ j + t0.base < va + l.length
        · rw [if_pos c1, if_pos (by omega)]
        · rw [if_neg c1]
          by_cases c2 : o ≤ j ∧ j < o + min (min (va + l.length) (x.va + x.n) - max va x.va) (l.length - (max va x.va - va))
          · rw [if_pos c2, if_pos (by omega), ← hd, List.getElem?_take, if_pos (by omega), List.getElem?_drop]
            congr 2; omega
          · rw [if_neg c2, if_neg (by omega)]
      · rw [e5]
        have g1 : t1.refs = storeRefs t.refs o d.length ref := rfl
        rw [g1, refs_store _ _ _ _ (by omega), hdl]
        by_cases c1 : ∃ j, a + x.n ≤ j + t0.base ∧ j + t0.base < a + x.n + (n - x.n) ∧ va ≤ j + t0.base ∧ j + t0.base < va + l.length ∧ j / 8 = w
        · rw [if_pos c1, if_pos (by obtain ⟨j, hj⟩ := c1; exact ⟨j, by omega⟩)]
        · rw [if_neg c1]
          by_cases c2 : ∃ j, o ≤ j ∧ j < o + min (min (va + l.length) (x.va + x.n) - max va x.va) (l.length - (max va x.va - va)) ∧ j / 8 = w
          · rw [if_pos c2, if_pos (by obtain ⟨j, hj⟩ := c2; exact ⟨j, by omega⟩)]
          · rw [if_neg c2, if_neg]
            rintro ⟨j, hj⟩
            by_cases hjx : j + t0.base < a + x.n
            · exact c2 ⟨j, by omega⟩
            · exact c1 ⟨j, by omega⟩
    · rw [if_neg hlt]
      obtain ⟨t', e1, e2, e3, e4, e5⟩ := ih (s := s) (t := t) h3 hx' ht hb
      refine ⟨t', e1, e2, e3, fun j => ?_, fun w => ?_⟩
      · rw [e4]
        congr 1
        apply propext; constructor <;> (intro h; omega)
      · rw [e5]
        congr 1
        apply propext; constructor
        · rintro ⟨j, h⟩; exact ⟨j, by omega⟩
        · rintro ⟨j, h⟩; exact ⟨j, by omega⟩

/-! ### Bytes of the on-chip stores -/

/-- An offset lies in the slice of a scratchpad. -/
def InSlice (p : Place) (o : Nat) : Prop := ∀ c, p = .scratch c → o < 262144

/-- A write changes the bytes that it names. -/
theorem placeByte_placeWrite_same {s : State} {p : Place} {o : Nat} {l : List Byte} {ref : Bool} {i : Nat} (hi : i < l.length)
    (h1 : ∀ w, p = .shared w → s.wg w ≠ none) (h2 : ∀ u, p = .frame u → s.team u ≠ none) :
    placeByte (placeWrite s p o l ref) p (o + i) = (l[i]?).getD 0 := by
  cases p with
  | scratch c =>
    simp only [placeByte, placeWrite, get_write]
    rw [if_pos (by omega)]; congr 2; omega
  | shared g =>
    obtain ⟨w, hw⟩ := Option.ne_none_iff_exists'.1 (h1 g rfl)
    simp only [placeByte, placeWrite, hw, State.wg_putWg_same, get_write]
    rw [if_pos (by omega)]; congr 2; omega
  | frame u =>
    obtain ⟨t, ht⟩ := Option.ne_none_iff_exists'.1 (h2 u rfl)
    simp only [placeByte, placeWrite, ht, State.team_putTeam_same, get_write]
    rw [if_pos (by omega)]; congr 2; omega

/-- A write leaves every other byte of every place alone. -/
theorem placeByte_placeWrite_other {s : State} {p q : Place} {o k : Nat} {l : List Byte} {ref : Bool}
    (h : ¬ (q = p ∧ o ≤ k ∧ k < o + l.length)) (hq : InSlice q k) (hp : ∀ c, p = .scratch c → o + l.length ≤ 262144) :
    placeByte (placeWrite s p o l ref) q k = placeByte s q k := by
  cases p with
  | scratch c =>
    cases q with
    | scratch c' =>
      simp only [placeByte, placeWrite, get_write]
      refine if_neg fun hh => ?_
      have h1 := hq c' rfl
      have h2 := hp c rfl
      by_cases hc : c' = c
      · subst hc; exact h ⟨rfl, by omega, by omega⟩
      · rcases Nat.lt_or_gt_of_ne hc with hc | hc
        · have : 262144 * (c' + 1) ≤ 262144 * c := Nat.mul_le_mul_left _ hc
          omega
        · have : 262144 * (c + 1) ≤ 262144 * c' := Nat.mul_le_mul_left _ hc
          omega
    | shared g => rfl
    | frame u => rfl
  | shared g =>
    simp only [placeWrite]
    cases hw : s.wg g with
    | none => rfl
    | some w =>
      cases q with
      | scratch c' => rfl
      | shared g' =>
        by_cases hg : g' = g
        · subst hg
          simp only [placeByte, hw, State.wg_putWg_same, get_write]
          refine if_neg fun hh => h ⟨rfl, hh⟩
        · simp only [placeByte, State.wg_putWg_other _ _ hg]
      | frame u => rfl
  | frame u =>
    simp only [placeWrite]
    cases ht : s.team u with
    | none => rfl
    | some t =>
      cases q with
      | scratch c' => rfl
      | shared g' => rfl
      | frame u' =>
        by_cases hg : u' = u
        · subst hg
          simp only [placeByte, ht, State.team_putTeam_same, get_write]
          refine if_neg fun hh => h ⟨rfl, hh⟩
        · simp only [placeByte, State.team_putTeam_other _ _ hg]

/-- A team's bytes are those of its window: the rest of the team does not matter. -/
theorem placeByte_putTeam {s : State} {u : Nat} {t t' : Team} (ht : s.team u = some t) (hf : t'.frame = t.frame) (q : Place) (k : Nat) :
    placeByte (s.putTeam u t') q k = placeByte s q k := by
  cases q with
  | scratch c => rfl
  | shared g => rfl
  | frame v =>
    by_cases hv : v = u
    · subst hv; simp [placeByte, ht, hf]
    · simp [placeByte, State.team_putTeam_other _ _ hv]

theorem MemSide.placeByte {a b : State} (h : MemSide a b) (q : Place) (k : Nat) : placeByte b q k = placeByte a q k := by
  cases q <;> simp [Machine.placeByte, h.scratch, h.wg, h.team]

end Sys2Proof.Machine
end

