-- ==== Sys2Proof/Laws/Drain.lean ====
section
/-! SUPPORT. What bringing stores further leaves in a team: only stores and loads that it had, none further back than it was,
and every store at the level that the release asks (R181, R186, R191). -/

namespace Sys2Proof.Machine

/-- Each store of l' is one of l but for where it stands, no further back than it was. -/
def Further (l l' : List PendStore) : Prop :=
  ∀ y ∈ l', ∃ x ∈ l, y = { x with level := y.level, stamp := y.stamp } ∧ x.level.val ≤ y.level.val

theorem PendStore.same_iff (x y : PendStore) :
    x.same y = true ↔ x.word = y.word ∧ x.lane = y.lane ∧ x.place = y.place ∧ x.off = y.off := by
  simp [PendStore.same, and_assoc]

theorem PendStore.same_refl (x : PendStore) : x.same x = true := by simp [PendStore.same_iff]

theorem PendStore.same_symm {x y : PendStore} (h : x.same y = true) : y.same x = true := by
  rw [PendStore.same_iff] at *; tauto

theorem PendStore.same_trans {x y z : PendStore} (h : x.same y = true) (h' : y.same z = true) : x.same z = true := by
  simp only [PendStore.same_iff] at *; aesop

theorem PendStore.same_of_eq {x y : PendStore} (h : y = { x with level := y.level, stamp := y.stamp }) : y.same x = true := by
  rw [h]; exact (PendStore.same_iff _ _).2 ⟨rfl, rfl, rfl, rfl⟩

theorem Further.refl (l : List PendStore) : Further l l := fun y hy => ⟨y, hy, rfl, Nat.le_refl _⟩

theorem Further.trans {a b c : List PendStore} (h : Further a b) (h' : Further b c) : Further a c := by
  intro y hy
  obtain ⟨x, hx, e, le⟩ := h' y hy
  obtain ⟨z, hz, e', le'⟩ := h x hx
  exact ⟨z, hz, by rw [e, e'], Nat.le_trans le' le⟩

/-- The teams of s' have the stores and the loads that they have in s, the stores perhaps further on. -/
def Moved (s s' : State) : Prop :=
  ∀ u t', s'.team u = some t' → ∃ t, s.team u = some t ∧ (∀ y ∈ t'.loads, y ∈ t.loads) ∧ Further t.stores t'.stores

theorem Moved.refl (s : State) : Moved s s := fun _ t h => ⟨t, h, fun _ h => h, Further.refl _⟩

theorem Moved.trans {a b c : State} (h : Moved a b) (h' : Moved b c) : Moved a c := by
  intro u t ht
  obtain ⟨t1, h1, l1, f1⟩ := h' u t ht
  obtain ⟨t2, h2, l2, f2⟩ := h u t1 h1
  exact ⟨t2, h2, fun y hy => l2 y (l1 y hy), f2.trans f1⟩

theorem Moved.putTeam {s : State} {u : Nat} {t t' : Team} (ht : s.team u = some t) (hl : ∀ y ∈ t'.loads, y ∈ t.loads)
    (hf : Further t.stores t'.stores) : Moved s (s.putTeam u t') := by
  intro v t1 h1
  by_cases hv : v = u
  · subst hv
    simp only [State.team_putTeam_same, Option.some.injEq] at h1
    subst h1
    exact ⟨t, ht, hl, hf⟩
  · rw [State.team_putTeam_other _ _ hv] at h1
    exact ⟨t1, h1, fun _ h => h, Further.refl _⟩

theorem Moved.foldl {α : Type} {f : State → α → State} (hf : ∀ s x, Moved s (f s x)) (l : List α) (s : State) :
    Moved s (l.foldl f s) :=
  foldl_keeps (fun r => Moved s r) f (fun _ _ h => h.trans (hf _ _)) l s (Moved.refl s)

/-- A store is written to memory, or an ATOM done there: the stores and the loads of every team are as before. -/
theorem performStore_team {s : State} {u v : Nat} {x : PendStore} {t' : Team} (h : (performStore s u x).team v = some t') :
    ∃ t, s.team v = some t ∧ t'.stores = t.stores ∧ t'.loads = t.loads := by
  have place : ∀ (p : Place) (o : Nat) (l : List Byte) (r : Bool) (w : Nat) (t' : Team), (placeWrite s p o l r).team w = some t' →
      ∃ t, s.team w = some t ∧ t'.stores = t.stores ∧ t'.loads = t.loads := by
    intro p o l r w t' h
    cases p with
    | scratch c => exact ⟨t', h, rfl, rfl⟩
    | shared g =>
      simp only [placeWrite] at h
      split at h <;> exact ⟨t', h, rfl, rfl⟩
    | frame k =>
      simp only [placeWrite] at h
      split at h
      · rename_i t ht
        by_cases hw : w = k
        · subst hw
          simp only [State.team_putTeam_same, Option.some.injEq] at h
          subst h; exact ⟨t, ht, rfl, rfl⟩
        · rw [State.team_putTeam_other _ _ hw] at h
          exact ⟨t', h, rfl, rfl⟩
      · exact ⟨t', h, rfl, rfl⟩
  unfold performStore at h
  split at h
  · exact place _ _ _ _ _ _ h
  · rename_i r _
    have atom : ∀ w t', (atomWrite s x.place x.off x.bytes.length r).2.team w = some t' →
        ∃ t, s.team w = some t ∧ t'.stores = t.stores ∧ t'.loads = t.loads := by
      intro w t' h
      unfold atomWrite at h
      dsimp only at h
      split at h
      · exact ⟨t', h, rfl, rfl⟩
      · exact place _ _ _ _ _ _ h
    split at h
    rename_i e
    rw [e] at atom
    split at h
    · rename_i t ht
      by_cases hw : v = u
      · subst hw
        simp only [State.team_putTeam_same, Option.some.injEq] at h
        subst h; exact atom _ t ht
      · rw [State.team_putTeam_other _ _ hw] at h
        exact atom _ _ h
    · exact atom _ _ h

/-- What one move makes of the stores of a team. -/
def moved (l : List PendStore) (x : PendStore) (stamp : Nat) : List PendStore :=
  if h : x.level.val < 5 then
    l.map fun y => if y = x then { y with level := ⟨x.level.val + 1, Nat.add_lt_add_right h 1⟩, stamp := stamp } else y
  else l.filter fun y => decide (y ≠ x)

theorem promote_team {s : State} {u v : Nat} {x : PendStore} {t' : Team} (h : (promote s u x).team v = some t') :
    ∃ t, s.team v = some t ∧ t'.loads = t.loads ∧ t'.stores = if v = u then moved t.stores x s.nextUid else t.stores := by
  unfold promote at h
  split at h
  · rename_i hn
    refine ⟨t', h, rfl, ?_⟩
    rw [if_neg]; rintro rfl; simp [hn] at h
  · rename_i t ht
    split at h
    · rename_i hl
      by_cases hv : v = u
      · subst hv
        simp only [State.team_putTeam_same, Option.some.injEq] at h
        subst h
        exact ⟨t, ht, rfl, by simp [moved, hl]⟩
      · rw [State.team_putTeam_other _ _ hv] at h
        exact ⟨t', h, rfl, by simp [hv]⟩
    · rename_i hl
      obtain ⟨t1, h1, e1, e2⟩ := performStore_team h
      by_cases hv : v = u
      · subst hv
        simp only [State.team_putTeam_same, Option.some.injEq] at h1
        subst h1
        exact ⟨t, ht, e2, by simp [moved, hl, e1]⟩
      · rw [State.team_putTeam_other _ _ hv] at h1
        exact ⟨t1, h1, e2, by simp [hv, e1]⟩

theorem further_moved (l : List PendStore) (x : PendStore) (n : Nat) : Further l (moved l x n) := by
  unfold moved
  split
  · intro y hy
    obtain ⟨z, hz, rfl⟩ := List.mem_map.1 hy
    refine ⟨z, hz, ?_, ?_⟩
    · split <;> rfl
    · split
      · rename_i e; subst e; exact Nat.le_succ _
      · exact Nat.le_refl _
  · intro y hy
    exact ⟨y, (List.mem_filter.1 hy).1, rfl, Nat.le_refl _⟩

theorem Moved.promote (s : State) (u : Nat) (x : PendStore) : Moved s (promote s u x) := by
  intro v t' h
  obtain ⟨t, ht, hl, hs⟩ := promote_team h
  refine ⟨t, ht, fun y hy => hl ▸ hy, ?_⟩
  rw [hs]
  split
  · exact further_moved _ _ _
  · exact Further.refl _

theorem Moved.performStore (s : State) (u : Nat) (x : PendStore) : Moved s (performStore s u x) := by
  intro v t' h
  obtain ⟨t, ht, hs, hl⟩ := performStore_team h
  exact ⟨t, ht, fun y hy => hl ▸ hy, hs ▸ Further.refl _⟩

theorem Moved.raiseOne (s : State) (u : Nat) (x : PendStore) (n : Nat) : Moved s (raiseOne s u x n) := by
  unfold Machine.raiseOne
  exact Moved.foldl (fun s _ => Moved.foldl (fun s (y : Nat × PendStore) => Moved.promote s y.1 y.2) _ s) _ s

theorem Moved.dropStore {s : State} {u : Nat} {t : Team} (h : s.team u = some t) (p : PendStore → Bool) :
    Moved s (s.putTeam u { t with stores := t.stores.filter p }) :=
  Moved.putTeam h (fun _ h => h) fun y hy => ⟨y, (List.mem_filter.1 hy).1, rfl, Nat.le_refl _⟩

theorem Moved.raiseStore (s : State) (u : Nat) (x : PendStore) (n : Nat) : Moved s (raiseStore s u x n) := by
  unfold Machine.raiseStore
  split
  · exact Moved.raiseOne _ _ _ _
  · extract_lets r
    have h : Moved s r := Moved.foldl (fun s (y : Nat × PendStore) => Moved.raiseOne s y.1 y.2 6) _ s
    split
    · exact h
    · rename_i ht
      exact (h.trans (Moved.dropStore ht _)).trans (Moved.performStore _ _ _)

theorem mem_leaveLoads (p : FloatLoad → Bool) (l : List FloatLoad) : ∀ y ∈ (leaveLoads p l).2, y ∈ l := by
  induction l with
  | nil => intro y h; cases h
  | cons x l ih =>
    unfold leaveLoads
    dsimp only
    split
    · exact fun y hy => List.mem_cons_of_mem _ (ih y hy)
    · intro y hy
      rcases List.mem_cons.1 hy with rfl | hy
      · exact List.mem_cons_self
      · exact List.mem_cons_of_mem _ (ih y hy)

theorem Moved.fixLoads {s : State} {u : Nat} {t : Team} (h : s.team u = some t) (p : FloatLoad → Bool) :
    Moved s (s.putTeam u (t.fixLoads p)) := Moved.putTeam h (mem_leaveLoads p _) (Further.refl _)

theorem Moved.raiseStores (s : State) (u : Nat) (p : PendStore → Nat) : Moved s (raiseStores s u p) := by
  unfold Machine.raiseStores
  cases h : s.team u with
  | none => exact Moved.refl s
  | some t => exact (Moved.fixLoads h _).trans (Moved.foldl (fun s (x : PendStore × Nat) => Moved.raiseStore s u x.1 x.2) _ _)

theorem Moved.raiseSeen (s : State) (u n : Nat) : Moved s (raiseSeen s u n) := by
  unfold Machine.raiseSeen
  exact Moved.foldl (fun s (x : Nat × PendStore) => Moved.raiseOne s x.1 x.2 n) _ s

/-- Bringing stores further leaves the loads of every team. -/
theorem raiseOne_loads {s : State} {u v n : Nat} {x : PendStore} {t' : Team} (h : (raiseOne s u x n).team v = some t') :
    ∃ t, s.team v = some t ∧ t'.loads = t.loads := by
  have keep : ∀ (l : List (Nat × PendStore)) (r : State), (∀ w t', r.team w = some t' → ∃ t, s.team w = some t ∧ t'.loads = t.loads) →
      ∀ w t', (l.foldl (fun s y => promote s y.1 y.2) r).team w = some t' → ∃ t, s.team w = some t ∧ t'.loads = t.loads :=
    fun l r hr => foldl_keeps (fun r => ∀ w t', r.team w = some t' → ∃ t, s.team w = some t ∧ t'.loads = t.loads) _
      (fun r y hr w t' h => by
        obtain ⟨t, ht, e, _⟩ := promote_team h
        obtain ⟨t0, h0, e0⟩ := hr w t ht
        exact ⟨t0, h0, e.trans e0⟩) l r hr
  unfold Machine.raiseOne at h
  exact foldl_keeps (fun r => ∀ w t', r.team w = some t' → ∃ t, s.team w = some t ∧ t'.loads = t.loads) _
    (fun r k hr => keep _ r hr) (List.range n) s (fun w t h => ⟨t, h, rfl⟩) v t' h

theorem raiseSeen_loads {s : State} {u v n : Nat} {t' : Team} (h : (raiseSeen s u n).team v = some t') :
    ∃ t, s.team v = some t ∧ t'.loads = t.loads := by
  unfold Machine.raiseSeen at h
  exact foldl_keeps (fun r => ∀ w t', r.team w = some t' → ∃ t, s.team w = some t ∧ t'.loads = t.loads) _
    (fun r (y : Nat × PendStore) hr w t' h => by
      obtain ⟨t, ht, e⟩ := raiseOne_loads h
      obtain ⟨t0, h0, e0⟩ := hr w t ht
      exact ⟨t0, h0, e.trans e0⟩) _ s (fun w t h => ⟨t, h, rfl⟩) v t' h

/-! ### The level that a store comes to -/

/-- Every store of team u that is x stands at level n or beyond. -/
def Reached (s : State) (u : Nat) (x : PendStore) (n : Nat) : Prop :=
  ∀ t, s.team u = some t → ∀ y ∈ t.stores, y.same x = true → n ≤ y.level.val

theorem Reached.of_moved {s s' : State} {u : Nat} {x : PendStore} {n : Nat} (h : Reached s u x n) (hm : Moved s s') :
    Reached s' u x n := by
  intro t' ht' y hy hs
  obtain ⟨t, ht, _, hf⟩ := hm u t' ht'
  obtain ⟨z, hz, e, le⟩ := hf y hy
  exact Nat.le_trans (h t ht z hz (PendStore.same_trans (PendStore.same_symm (PendStore.same_of_eq e)) hs)) le

theorem mem_insertBy {α : Type} (b : α → α → Bool) (x y : α) (l : List α) : y ∈ insertBy b x l ↔ y = x ∨ y ∈ l := by
  induction l with
  | nil => simp [insertBy]
  | cons z l ih =>
    unfold insertBy
    split
    · simp [ih]; tauto
    · simp

theorem mem_sortBy {α : Type} (b : α → α → Bool) (y : α) (l : List α) : y ∈ sortBy b l ↔ y ∈ l := by
  induction l with
  | nil => simp [sortBy]
  | cons x l ih => simp [sortBy, mem_insertBy, ih]

theorem fget_mem_entries {α : Type} {m : FMap (Option α)} {k : Nat} {v : α} (h : fget noEntry m k = some v) :
    (k, v) ∈ entries m := by
  induction m with
  | nil => cases h
  | cons e m ih =>
    obtain ⟨j, w⟩ := e
    by_cases hj : j = k
    · subst hj
      simp only [fget, if_true] at h
      subst h
      simp [entries]
    · simp only [fget, hj, if_false] at h
      have := ih h
      simp only [entries, List.mem_filterMap, List.mem_cons] at this ⊢
      obtain ⟨a, ha, e⟩ := this
      exact ⟨a, .inr ha, e⟩

theorem mem_storesAt {s : State} {u k : Nat} {t : Team} {x : PendStore} (ht : s.team u = some t) (hx : x ∈ t.stores)
    (hk : x.level.val = k) : (u, x) ∈ storesAt s k := by
  rw [storesAt, mem_sortBy, List.mem_flatMap]
  exact ⟨(u, t), fget_mem_entries ht, List.mem_map.2 ⟨x, List.mem_filter.2 ⟨hx, by simp [hk]⟩, rfl⟩⟩

theorem storesAt_level {s : State} {k : Nat} {z : Nat × PendStore} (h : z ∈ storesAt s k) : z.2.level.val = k := by
  rw [storesAt, mem_sortBy, List.mem_flatMap] at h
  obtain ⟨e, _, h⟩ := h
  obtain ⟨x, hx, rfl⟩ := List.mem_map.1 h
  simpa using (List.mem_filter.1 hx).2

theorem movers_sub (s : State) (k : Nat) (p : Nat × PendStore → Bool) (l : List (Nat × PendStore)) :
    ∀ z ∈ movers s k p l, z ∈ l := by
  induction l with
  | nil => intro z h; cases h
  | cons x l ih =>
    unfold movers
    dsimp only
    split
    · intro z hz
      rcases List.mem_cons.1 hz with rfl | hz
      · exact List.mem_cons_self
      · exact List.mem_cons_of_mem _ (ih z hz)
    · exact fun z hz => List.mem_cons_of_mem _ (ih z hz)

theorem mem_movers (s : State) (k : Nat) (p : Nat × PendStore → Bool) (l : List (Nat × PendStore)) :
    ∀ z ∈ l, p z = true → z ∈ movers s k p l := by
  induction l with
  | nil => intro z h; cases h
  | cons x l ih =>
    intro z hz hp
    unfold movers
    dsimp only
    rcases List.mem_cons.1 hz with rfl | hz
    · simp [hp]
    · split
      · exact List.mem_cons_of_mem _ (ih z hz hp)
      · exact ih z hz hp

/-- Moving a list of stores of level k leaves none of those that are x behind, where the list has them all. -/
theorem Reached.promoteAll {u k : Nat} {x : PendStore} {l : List (Nat × PendStore)} {s : State}
    (hl : ∀ z ∈ l, z.2.level.val = k)
    (h : ∀ t, s.team u = some t → ∀ y ∈ t.stores, y.same x = true → k + 1 ≤ y.level.val ∨ (u, y) ∈ l) :
    Reached (l.foldl (fun s y => promote s y.1 y.2) s) u x (k + 1) := by
  induction l generalizing s with
  | nil => exact fun t ht y hy hs => (h t ht y hy hs).resolve_right (by simp)
  | cons z l ih =>
    obtain ⟨v, w⟩ := z
    refine ih (fun z hz => hl z (List.mem_cons_of_mem _ hz)) fun t' ht' y hy hs => ?_
    obtain ⟨t, ht, _, hst⟩ := promote_team ht'
    rw [hst] at hy
    have hw : w.level.val = k := hl (v, w) List.mem_cons_self
    by_cases hv : u = v
    · subst hv
      rw [if_pos rfl] at hy
      unfold moved at hy
      split at hy
      · obtain ⟨y0, hy0, rfl⟩ := List.mem_map.1 hy
        by_cases hyw : y0 = w
        · subst hyw; simp [hw]
        · simp only [hyw, if_false] at hs ⊢
          rcases h t ht y0 hy0 hs with h | h
          · exact .inl h
          · simp only [List.mem_cons, Prod.mk.injEq, true_and] at h
            exact .inr (h.resolve_left hyw)
      · obtain ⟨hy0, hyw⟩ := List.mem_filter.1 hy
        rcases h t ht y hy0 hs with h | h
        · exact .inl h
        · simp only [List.mem_cons, Prod.mk.injEq, true_and] at h
          exact .inr (h.resolve_left (by simpa using hyw))
    · rw [if_neg hv] at hy
      rcases h t ht y hy hs with h | h
      · exact .inl h
      · simp only [List.mem_cons, Prod.mk.injEq, hv, false_and, false_or] at h
        exact .inr h

/-- A store that is raised to a level comes there. -/
theorem Reached.raiseOne (s : State) (u : Nat) (x : PendStore) (n : Nat) : Reached (raiseOne s u x n) u x n := by
  unfold Machine.raiseOne
  induction n with
  | zero => exact fun t ht y hy hs => Nat.zero_le _
  | succ n ih =>
    rw [List.range_succ, List.foldl_append]
    generalize List.foldl _ s (List.range n) = r at ih ⊢
    simp only [List.foldl_cons, List.foldl_nil]
    refine Reached.promoteAll (fun z hz => storesAt_level (movers_sub _ _ _ _ z hz)) fun t ht y hy hs => ?_
    rcases Nat.lt_or_ge n y.level.val with h | h
    · exact .inl h
    · have e : y.level.val = n := Nat.le_antisymm h (ih t ht y hy hs)
      exact .inr (mem_movers _ _ _ _ _ (mem_storesAt ht hy e) (by simp [hs]))

/-- A store or an ATOM that is raised to a level comes there. -/
theorem Reached.raiseStore (s : State) (u : Nat) (x : PendStore) (n : Nat) : Reached (raiseStore s u x n) u x n := by
  unfold Machine.raiseStore
  split
  · exact Reached.raiseOne _ _ _ _
  · extract_lets r
    split
    · rename_i hn; intro t ht; simp [hn] at ht
    · rename_i t ht
      intro t' ht' y hy hs
      obtain ⟨t1, h1, e1, _⟩ := performStore_team ht'
      simp only [State.team_putTeam_same, Option.some.injEq] at h1
      subst h1
      rw [e1] at hy
      have := (List.mem_filter.1 hy).2
      simp [hs] at this

theorem Reached.raiseAll {u : Nat} (l : List (PendStore × Nat)) (s : State) :
    ∀ z ∈ l, Reached (l.foldl (fun s x => Machine.raiseStore s u x.1 x.2) s) u z.1 z.2 := by
  induction l generalizing s with
  | nil => intro z h; cases h
  | cons x l ih =>
    intro z hz
    rcases List.mem_cons.1 hz with rfl | hz
    · exact (Reached.raiseStore s u z.1 z.2).of_moved (Moved.foldl (fun s (x : PendStore × Nat) => Moved.raiseStore s u x.1 x.2) l _)
    · exact ih _ z hz

theorem foldl_max_ge {α : Type} (f : Nat → α → Nat) (hf : ∀ m x, m ≤ f m x) (l : List α) (m : Nat) : m ≤ l.foldl f m := by
  induction l generalizing m with
  | nil => exact Nat.le_refl _
  | cons x l ih => exact Nat.le_trans (hf m x) (ih _)

/-- Every store has a level that it must come to, at least as far as p asks. -/
theorem storeNeeds_ge {p : PendStore → Nat} (hp : ∀ x, p x ≤ 6) (l : List PendStore) :
    ∀ x ∈ l, ∃ m, (x, m) ∈ storeNeeds p l ∧ p x ≤ m := by
  induction l with
  | nil => intro x h; cases h
  | cons y l ih =>
    intro x hx
    unfold storeNeeds
    dsimp only
    rcases List.mem_cons.1 hx with rfl | hx
    · refine ⟨_, List.mem_cons_self, ?_⟩
      split
      · exact hp x
      · exact foldl_max_ge _ (fun m z => by split <;> simp) _ _
    · obtain ⟨m, hm, h⟩ := ih x hx
      exact ⟨m, List.mem_cons_of_mem _ hm, h⟩

/-- The stores that a release asks for have come to its level. -/
theorem raiseStores_level {s : State} {u : Nat} {p : PendStore → Nat} (hp : ∀ x, p x ≤ 6) {t t' : Team}
    (ht : s.team u = some t) (ht' : (raiseStores s u p).team u = some t') :
    ∀ y ∈ t'.stores, ∃ x ∈ t.stores, y = { x with level := y.level, stamp := y.stamp } ∧ x.level.val ≤ y.level.val ∧
      p x ≤ y.level.val := by
  intro y hy
  obtain ⟨t0, h0, _, hf⟩ := Moved.raiseStores s u p u t' ht'
  rw [ht] at h0; cases h0
  obtain ⟨x, hx, e, le⟩ := hf y hy
  refine ⟨x, hx, e, le, ?_⟩
  obtain ⟨m, hm, hpm⟩ := storeNeeds_ge hp t.stores x hx
  rcases Nat.lt_or_ge x.level.val m with h | h
  · unfold Machine.raiseStores at ht'
    simp only [ht] at ht'
    have := Reached.raiseAll (u := u) ((storeNeeds p t.stores).filter fun x => decide (x.1.level.val < x.2)) _ (x, m)
      (List.mem_filter.2 ⟨hm, by simpa using h⟩) t' ht' y hy (PendStore.same_of_eq e)
    exact Nat.le_trans hpm this
  · exact Nat.le_trans hpm (Nat.le_trans h le)

/-- After a release at level n, every store that is left of its team stands at that level, and no load is read again. -/
theorem drainTo_stores {s : State} {u n : Nat} (hn : n ≤ 6) {t' : Team} (h : (drainTo s u n).team u = some t') :
    t'.loads = [] ∧ ∀ y ∈ t'.stores, n ≤ y.level.val := by
  unfold Machine.drainTo at h
  split at h
  · rename_i hn; simp [hn] at h
  · rename_i t ht
    obtain ⟨t1, h1, l1, f1⟩ := Moved.raiseSeen _ u n u t' h
    obtain ⟨t2, h2, l2, _⟩ := Moved.raiseStores _ u _ u t1 h1
    simp only [State.team_putTeam_same, Option.some.injEq] at h2
    subst h2
    refine ⟨List.eq_nil_iff_forall_not_mem.2 fun y hy => by simpa using l2 y (l1 y hy), fun y hy => ?_⟩
    obtain ⟨z, hz, _, le⟩ := f1 y hy
    obtain ⟨x, _, _, _, hx⟩ := raiseStores_level (p := fun _ => n) (fun _ => hn) (State.team_putTeam_same _ _ _) h1 z hz
    exact Nat.le_trans hx le

/-- After a drain the team has no store on its way, and no load that is read again. -/
theorem drainAll_stores {s : State} {u : Nat} {t' : Team} (h : (drainAll s u).team u = some t') : t'.stores = [] ∧ t'.loads = [] := by
  obtain ⟨hl, hs⟩ := drainTo_stores (Nat.le_refl 6) h
  refine ⟨List.eq_nil_iff_forall_not_mem.2 fun y hy => ?_, hl⟩
  have := hs y hy
  have := y.level.isLt
  omega

end Sys2Proof.Machine
end

