-- ==== Sys2Proof/Laws/Exec.lean ====
section
/-! SUPPORT. What exec is on each instruction: the one call of its meaning. -/

namespace Sys2Proof.Machine

@[simp] theorem exec_iadd {s : State} d a b : exec (.iadd d a b) s = execIadd d a b s := rfl
@[simp] theorem exec_iaddLit {s : State} d a lit : exec (.iaddLit d a lit) s = execIaddLit d a lit s := rfl
@[simp] theorem exec_isub {s : State} d a b : exec (.isub d a b) s = execIsub d a b s := rfl
@[simp] theorem exec_isubLit {s : State} d a lit : exec (.isubLit d a lit) s = execIsubLit d a lit s := rfl
@[simp] theorem exec_imul {s : State} d a b : exec (.imul d a b) s = execImul d a b s := rfl
@[simp] theorem exec_imulLit {s : State} d a lit : exec (.imulLit d a lit) s = execImulLit d a lit s := rfl
@[simp] theorem exec_imulhS {s : State} d a b : exec (.imulhS d a b) s = execImulhS d a b s := rfl
@[simp] theorem exec_imulhU {s : State} d a b : exec (.imulhU d a b) s = execImulhU d a b s := rfl
@[simp] theorem exec_imad {s : State} d a b c : exec (.imad d a b c) s = execImad d a b c s := rfl
@[simp] theorem exec_iminS {s : State} d a b : exec (.iminS d a b) s = execIminS d a b s := rfl
@[simp] theorem exec_iminSLit {s : State} d a lit : exec (.iminSLit d a lit) s = execIminSLit d a lit s := rfl
@[simp] theorem exec_iminU {s : State} d a b : exec (.iminU d a b) s = execIminU d a b s := rfl
@[simp] theorem exec_iminULit {s : State} d a lit : exec (.iminULit d a lit) s = execIminULit d a lit s := rfl
@[simp] theorem exec_imaxS {s : State} d a b : exec (.imaxS d a b) s = execImaxS d a b s := rfl
@[simp] theorem exec_imaxSLit {s : State} d a lit : exec (.imaxSLit d a lit) s = execImaxSLit d a lit s := rfl
@[simp] theorem exec_imaxU {s : State} d a b : exec (.imaxU d a b) s = execImaxU d a b s := rfl
@[simp] theorem exec_imaxULit {s : State} d a lit : exec (.imaxULit d a lit) s = execImaxULit d a lit s := rfl
@[simp] theorem exec_iabs {s : State} d a : exec (.iabs d a) s = execIabs d a s := rfl
@[simp] theorem exec_icmp {s : State} d a b cond : exec (.icmp d a b cond) s = execIcmp d a b cond s := rfl
@[simp] theorem exec_lea {s : State} d a b : exec (.lea d a b) s = execLea d a b s := rfl
@[simp] theorem exec_leaX {s : State} d a b ix sh : exec (.leaX d a b ix sh) s = execLeaX d a b ix sh s := rfl
@[simp] theorem exec_and {s : State} d a b : exec (.and d a b) s = execAnd d a b s := rfl
@[simp] theorem exec_andLit {s : State} d a lit : exec (.andLit d a lit) s = execAndLit d a lit s := rfl
@[simp] theorem exec_or {s : State} d a b : exec (.or d a b) s = execOr d a b s := rfl
@[simp] theorem exec_orLit {s : State} d a lit : exec (.orLit d a lit) s = execOrLit d a lit s := rfl
@[simp] theorem exec_xor {s : State} d a b : exec (.xor d a b) s = execXor d a b s := rfl
@[simp] theorem exec_xorLit {s : State} d a lit : exec (.xorLit d a lit) s = execXorLit d a lit s := rfl
@[simp] theorem exec_shl {s : State} d a b : exec (.shl d a b) s = execShl d a b s := rfl
@[simp] theorem exec_shr {s : State} d a b : exec (.shr d a b) s = execShr d a b s := rfl
@[simp] theorem exec_shrX {s : State} d a b arith : exec (.shrX d a b arith) s = execShrX d a b arith s := rfl
@[simp] theorem exec_rot {s : State} d a b : exec (.rot d a b) s = execRot d a b s := rfl
@[simp] theorem exec_bfx {s : State} d a b signed c : exec (.bfx d a b signed c) s = execBfx d a b signed c s := rfl
@[simp] theorem exec_bfi {s : State} d a b c : exec (.bfi d a b c) s = execBfi d a b c s := rfl
@[simp] theorem exec_popc {s : State} d a : exec (.popc d a) s = execPopc d a s := rfl
@[simp] theorem exec_clz {s : State} d a : exec (.clz d a) s = execClz d a s := rfl
@[simp] theorem exec_brev {s : State} d a : exec (.brev d a) s = execBrev d a s := rfl
@[simp] theorem exec_sel {s : State} d a b c : exec (.sel d a b c) s = execSel d a b c s := rfl
@[simp] theorem exec_mov {s : State} d a : exec (.mov d a) s = execMov d a s := rfl
@[simp] theorem exec_movLit {s : State} d lit : exec (.movLit d lit) s = execMovLit d lit s := rfl
@[simp] theorem exec_movi {s : State} d imm : exec (.movi d imm) s = execMovi d imm s := rfl
@[simp] theorem exec_movx {s : State} d a : exec (.movx d a) s = execMovx d a s := rfl
@[simp] theorem exec_movxw {s : State} a b : exec (.movxw a b) s = execMovxw a b s := rfl
@[simp] theorem exec_fadd {s : State} d a b : exec (.fadd d a b) s = execFadd d a b s := rfl
@[simp] theorem exec_faddX {s : State} d a b m rm : exec (.faddX d a b m rm) s = execFaddX d a b m rm s := rfl
@[simp] theorem exec_fsub {s : State} d a b : exec (.fsub d a b) s = execFsub d a b s := rfl
@[simp] theorem exec_fsubX {s : State} d a b m rm : exec (.fsubX d a b m rm) s = execFsubX d a b m rm s := rfl
@[simp] theorem exec_fmul {s : State} d a b : exec (.fmul d a b) s = execFmul d a b s := rfl
@[simp] theorem exec_fmulX {s : State} d a b m rm : exec (.fmulX d a b m rm) s = execFmulX d a b m rm s := rfl
@[simp] theorem exec_ffma {s : State} d a b m rm c : exec (.ffma d a b m rm c) s = execFfma d a b m rm c s := rfl
@[simp] theorem exec_fmin {s : State} d a b : exec (.fmin d a b) s = execFmin d a b s := rfl
@[simp] theorem exec_fminX {s : State} d a b m : exec (.fminX d a b m) s = execFminX d a b m s := rfl
@[simp] theorem exec_fmax {s : State} d a b : exec (.fmax d a b) s = execFmax d a b s := rfl
@[simp] theorem exec_fmaxX {s : State} d a b m : exec (.fmaxX d a b m) s = execFmaxX d a b m s := rfl
@[simp] theorem exec_fcmp {s : State} d a b cond m : exec (.fcmp d a b cond m) s = execFcmp d a b cond m s := rfl
@[simp] theorem exec_frcp {s : State} d a : exec (.frcp d a) s = execFrcp d a s := rfl
@[simp] theorem exec_frcpX {s : State} d a m rm : exec (.frcpX d a m rm) s = execFrcpX d a m rm s := rfl
@[simp] theorem exec_frsq {s : State} d a : exec (.frsq d a) s = execFrsq d a s := rfl
@[simp] theorem exec_frsqX {s : State} d a m rm : exec (.frsqX d a m rm) s = execFrsqX d a m rm s := rfl
@[simp] theorem exec_fsqrt {s : State} d a : exec (.fsqrt d a) s = execFsqrt d a s := rfl
@[simp] theorem exec_fsqrtX {s : State} d a m rm : exec (.fsqrtX d a m rm) s = execFsqrtX d a m rm s := rfl
@[simp] theorem exec_fexp2 {s : State} d a : exec (.fexp2 d a) s = execFexp2 d a s := rfl
@[simp] theorem exec_fexp2X {s : State} d a m rm : exec (.fexp2X d a m rm) s = execFexp2X d a m rm s := rfl
@[simp] theorem exec_flog2 {s : State} d a : exec (.flog2 d a) s = execFlog2 d a s := rfl
@[simp] theorem exec_flog2X {s : State} d a m rm : exec (.flog2X d a m rm) s = execFlog2X d a m rm s := rfl
@[simp] theorem exec_fsin {s : State} d a : exec (.fsin d a) s = execFsin d a s := rfl
@[simp] theorem exec_fsinX {s : State} d a m rm : exec (.fsinX d a m rm) s = execFsinX d a m rm s := rfl
@[simp] theorem exec_fcos {s : State} d a : exec (.fcos d a) s = execFcos d a s := rfl
@[simp] theorem exec_fcosX {s : State} d a m rm : exec (.fcosX d a m rm) s = execFcosX d a m rm s := rfl
@[simp] theorem exec_padd {s : State} d a b : exec (.padd d a b) s = execPadd d a b s := rfl
@[simp] theorem exec_paddX {s : State} d a b pf m rm : exec (.paddX d a b pf m rm) s = execPaddX d a b pf m rm s := rfl
@[simp] theorem exec_pmul {s : State} d a b : exec (.pmul d a b) s = execPmul d a b s := rfl
@[simp] theorem exec_pmulX {s : State} d a b pf m rm : exec (.pmulX d a b pf m rm) s = execPmulX d a b pf m rm s := rfl
@[simp] theorem exec_pfma {s : State} d a b pf m rm c : exec (.pfma d a b pf m rm c) s = execPfma d a b pf m rm c s := rfl
@[simp] theorem exec_pack8 {s : State} d a fd rm : exec (.pack8 d a fd rm) s = execPack8 d a fd rm s := rfl
@[simp] theorem exec_unpack {s : State} d a b fs : exec (.unpack d a b fs) s = execUnpack d a b fs s := rfl
@[simp] theorem exec_cvt {s : State} d a fs fd sat m rm : exec (.cvt d a fs fd sat m rm) s = execCvt d a fs fd sat m rm s := rfl
@[simp] theorem exec_fmtset {s : State} n a : exec (.fmtset n a) s = execFmtset n a s := rfl
@[simp] theorem exec_fmtget {s : State} d n : exec (.fmtget d n) s = execFmtget d n s := rfl
@[simp] theorem exec_shfl {s : State} d a b mode : exec (.shfl d a b mode) s = execShfl d a b mode s := rfl
@[simp] theorem exec_vote {s : State} d a b mode : exec (.vote d a b mode) s = execVote d a b mode s := rfl
@[simp] theorem exec_redux {s : State} d a mode : exec (.redux d a mode) s = execRedux d a mode s := rfl
@[simp] theorem exec_bcast {s : State} d a b : exec (.bcast d a b) s = execBcast d a b s := rfl
@[simp] theorem exec_ldB {s : State} d b slot off : exec (.ldB d b slot off) s = execLdB d b slot off s := rfl
@[simp] theorem exec_ldBX {s : State} d b slot off signed acq : exec (.ldBX d b slot off signed acq) s = execLdBX d b slot off signed acq s := rfl
@[simp] theorem exec_ldH {s : State} d b slot off : exec (.ldH d b slot off) s = execLdH d b slot off s := rfl
@[simp] theorem exec_ldHX {s : State} d b slot off signed acq : exec (.ldHX d b slot off signed acq) s = execLdHX d b slot off signed acq s := rfl
@[simp] theorem exec_ldW {s : State} d b slot off : exec (.ldW d b slot off) s = execLdW d b slot off s := rfl
@[simp] theorem exec_ldWX {s : State} d b slot off acq : exec (.ldWX d b slot off acq) s = execLdWX d b slot off acq s := rfl
@[simp] theorem exec_ldD {s : State} d b slot off : exec (.ldD d b slot off) s = execLdD d b slot off s := rfl
@[simp] theorem exec_ldDX {s : State} d b slot off acq : exec (.ldDX d b slot off acq) s = execLdDX d b slot off acq s := rfl
@[simp] theorem exec_ldQ {s : State} d b slot off : exec (.ldQ d b slot off) s = execLdQ d b slot off s := rfl
@[simp] theorem exec_ldQX {s : State} d b slot off acq : exec (.ldQX d b slot off acq) s = execLdQX d b slot off acq s := rfl
@[simp] theorem exec_stB {s : State} d b slot off : exec (.stB d b slot off) s = execStB d b slot off s := rfl
@[simp] theorem exec_stBX {s : State} d b slot off rel : exec (.stBX d b slot off rel) s = execStBX d b slot off rel s := rfl
@[simp] theorem exec_stH {s : State} d b slot off : exec (.stH d b slot off) s = execStH d b slot off s := rfl
@[simp] theorem exec_stHX {s : State} d b slot off rel : exec (.stHX d b slot off rel) s = execStHX d b slot off rel s := rfl
@[simp] theorem exec_stW {s : State} d b slot off : exec (.stW d b slot off) s = execStW d b slot off s := rfl
@[simp] theorem exec_stWX {s : State} d b slot off rel : exec (.stWX d b slot off rel) s = execStWX d b slot off rel s := rfl
@[simp] theorem exec_stD {s : State} d b slot off : exec (.stD d b slot off) s = execStD d b slot off s := rfl
@[simp] theorem exec_stDX {s : State} d b slot off fr rel : exec (.stDX d b slot off fr rel) s = execStDX d b slot off fr rel s := rfl
@[simp] theorem exec_stQ {s : State} d b slot off : exec (.stQ d b slot off) s = execStQ d b slot off s := rfl
@[simp] theorem exec_stQX {s : State} d b slot off rel : exec (.stQX d b slot off rel) s = execStQX d b slot off rel s := rfl
@[simp] theorem exec_ldt {s : State} d b slot off : exec (.ldt d b slot off) s = execLdt d b slot off s := rfl
@[simp] theorem exec_atom {s : State} d b slot off size c op rel acq : exec (.atom d b slot off size c op rel acq) s = execAtom d b slot off size c op rel acq s := rfl
@[simp] theorem exec_fence {s : State} ord scope : exec (.fence ord scope) s = execFence ord scope s := rfl
@[simp] theorem exec_accrd {s : State} d a : exec (.accrd d a) s = execAccrd d a s := rfl
@[simp] theorem exec_accwr {s : State} a b : exec (.accwr a b) s = execAccwr a b s := rfl
@[simp] theorem exec_copy {s : State} g nb slot keyovr reseal arrive : exec (.copy g nb slot keyovr reseal arrive) s = execCopy g nb slot keyovr reseal arrive s := rfl
@[simp] theorem exec_copyc {s : State} g nb slot keyovr reseal arrive : exec (.copyc g nb slot keyovr reseal arrive) s = execCopyc g nb slot keyovr reseal arrive s := rfl
@[simp] theorem exec_nbinit {s : State} a nb slot : exec (.nbinit a nb slot) s = execNbinit a nb slot s := rfl
@[simp] theorem exec_nbarr {s : State} nb slot : exec (.nbarr nb slot) s = execNbarr nb slot s := rfl
@[simp] theorem exec_nbwait {s : State} d nb slot det : exec (.nbwait d nb slot det) s = execNbwait d nb slot det s := rfl
@[simp] theorem exec_nbsync {s : State} d nb slot det : exec (.nbsync d nb slot det) s = execNbsync d nb slot det s := rfl
@[simp] theorem exec_nbinv {s : State} nb slot : exec (.nbinv nb slot) s = execNbinv nb slot s := rfl
@[simp] theorem exec_semsig {s : State} g slot op : exec (.semsig g slot op) s = execSemsig g slot op s := rfl
@[simp] theorem exec_spawn {s : State} g slot : exec (.spawn g slot) s = execSpawn g slot s := rfl
@[simp] theorem exec_cancel {s : State} level : exec (.cancel level) s = execCancel level s := rfl
@[simp] theorem exec_mark {s : State} tag : exec (.mark tag) s = execMark tag s := rfl
@[simp] theorem exec_cut {s : State} d tag : exec (.cut d tag) s = execCut d tag s := rfl
@[simp] theorem exec_graft {s : State} g slot : exec (.graft g slot) s = execGraft g slot s := rfl
@[simp] theorem exec_slfree {s : State} g slot : exec (.slfree g slot) s = execSlfree g slot s := rfl
@[simp] theorem exec_mstart {s : State} g slot : exec (.mstart g slot) s = execMstart g slot s := rfl
@[simp] theorem exec_ifL {s : State} a : exec (.ifL a) s = execIfL a s := rfl
@[simp] theorem exec_elseL {s : State} : exec (.elseL) s = execElseL s := rfl
@[simp] theorem exec_endifL {s : State} : exec (.endifL) s = execEndifL s := rfl
@[simp] theorem exec_loopL {s : State} : exec (.loopL) s = execLoopL s := rfl
@[simp] theorem exec_breakL {s : State} p n : exec (.breakL p n) s = execBreakL p n s := rfl
@[simp] theorem exec_contL {s : State} p n : exec (.contL p n) s = execContL p n s := rfl
@[simp] theorem exec_endloop {s : State} off : exec (.endloop off) s = execEndloop off s := rfl
@[simp] theorem exec_bra {s : State} off : exec (.bra off) s = execBra off s := rfl
@[simp] theorem exec_brv {s : State} off p off2 : exec (.brv off p off2) s = execBrv off p off2 s := rfl
@[simp] theorem exec_call {s : State} off : exec (.call off) s = execCall off s := rfl
@[simp] theorem exec_ret {s : State} : exec (.ret) s = execRet s := rfl
@[simp] theorem exec_jmpi {s : State} a : exec (.jmpi a) s = execJmpi a s := rfl
@[simp] theorem exec_exit {s : State} : exec (.exit) s = execExit s := rfl
@[simp] theorem exec_nop {s : State} : exec (.nop) s = execNop s := rfl
@[simp] theorem exec_pause {s : State} imm : exec (.pause imm) s = execPause imm s := rfl
@[simp] theorem exec_sysr {s : State} d n : exec (.sysr d n) s = execSysr d n s := rfl
@[simp] theorem exec_sysw {s : State} src n : exec (.sysw src n) s = execSysw src n s := rfl
@[simp] theorem exec_trap {s : State} imm : exec (.trap imm) s = execTrap imm s := rfl
@[simp] theorem exec_rett {s : State} : exec (.rett) s = execRett s := rfl
@[simp] theorem exec_bkpt {s : State} imm : exec (.bkpt imm) s = execBkpt imm s := rfl
@[simp] theorem exec_wfi {s : State} d a : exec (.wfi d a) s = execWfi d a s := rfl
@[simp] theorem exec_icinv {s : State} scope : exec (.icinv scope) s = execIcinv scope s := rfl
@[simp] theorem exec_tlbinv {s : State} a b scope ng : exec (.tlbinv a b scope ng) s = execTlbinv a b scope ng s := rfl
@[simp] theorem exec_mclaim {s : State} a b : exec (.mclaim a b) s = execMclaim a b s := rfl
@[simp] theorem exec_mrel {s : State} a b : exec (.mrel a b) s = execMrel a b s := rfl
@[simp] theorem exec_mload {s : State} a sc tr size stride off : exec (.mload a sc tr size stride off) s = execMload a sc tr size stride off s := rfl
@[simp] theorem exec_mstore {s : State} t sc f stride off : exec (.mstore t sc f stride off) s = execMstore t sc f stride off s := rfl
@[simp] theorem exec_mma {s : State} t a b f : exec (.mma t a b f) s = execMma t a b f s := rfl
@[simp] theorem exec_mzero {s : State} t : exec (.mzero t) s = execMzero t s := rfl
@[simp] theorem exec_mwait {s : State} k : exec (.mwait k) s = execMwait k s := rfl
@[simp] theorem exec_msig {s : State} k : exec (.msig k) s = execMsig k s := rfl
@[simp] theorem exec_mend {s : State} : exec (.mend) s = execMend s := rfl
@[simp] theorem exec_clauseFetch {s : State} t : exec (.clauseFetch t) s = execClauseFetch t s := rfl
@[simp] theorem exec_resultLanding {s : State} t k : exec (.resultLanding t k) s = execResultLanding t k s := rfl
@[simp] theorem exec_registerRefill {s : State} t r : exec (.registerRefill t r) s = execRegisterRefill t r s := rfl
@[simp] theorem exec_pauseExpiry {s : State} t : exec (.pauseExpiry t) s = execPauseExpiry t s := rfl
@[simp] theorem exec_launchPacket {s : State} q : exec (.launchPacket q) s = execLaunchPacket q s := rfl
@[simp] theorem exec_copyPacket {s : State} q : exec (.copyPacket q) s = execCopyPacket q s := rfl
@[simp] theorem exec_graphPacket {s : State} q : exec (.graphPacket q) s = execGraphPacket q s := rfl
@[simp] theorem exec_waitPacket {s : State} q : exec (.waitPacket q) s = execWaitPacket q s := rfl
@[simp] theorem exec_signalPacket {s : State} q : exec (.signalPacket q) s = execSignalPacket q s := rfl
@[simp] theorem exec_signalPerform {s : State} q n : exec (.signalPerform q n) s = execSignalPerform q n s := rfl
@[simp] theorem exec_phasePacket {s : State} q : exec (.phasePacket q) s = execPhasePacket q s := rfl
@[simp] theorem exec_cancelPacket {s : State} q : exec (.cancelPacket q) s = execCancelPacket q s := rfl
@[simp] theorem exec_timefencePacket {s : State} q : exec (.timefencePacket q) s = execTimefencePacket q s := rfl
@[simp] theorem exec_timefenceRelease {s : State} q : exec (.timefenceRelease q) s = execTimefenceRelease q s := rfl
@[simp] theorem exec_nopPacket {s : State} q : exec (.nopPacket q) s = execNopPacket q s := rfl
@[simp] theorem exec_packetReread {s : State} q : exec (.packetReread q) s = execPacketReread q s := rfl
@[simp] theorem exec_queueStall {s : State} q : exec (.queueStall q) s = execQueueStall q s := rfl
@[simp] theorem exec_waitReread {s : State} q : exec (.waitReread q) s = execWaitReread q s := rfl
@[simp] theorem exec_waitSemStall {s : State} q : exec (.waitSemStall q) s = execWaitSemStall q s := rfl
@[simp] theorem exec_heldLaunchStart {s : State} : exec (.heldLaunchStart) s = execHeldLaunchStart s := rfl
@[simp] theorem exec_workgroupAdmission {s : State} p : exec (.workgroupAdmission p) s = execWorkgroupAdmission p s := rfl
@[simp] theorem exec_passedOverBlock {s : State} l : exec (.passedOverBlock l) s = execPassedOverBlock l s := rfl
@[simp] theorem exec_ophintHoldEnd {s : State} l : exec (.ophintHoldEnd l) s = execOphintHoldEnd l s := rfl
@[simp] theorem exec_workgroupEnd {s : State} g : exec (.workgroupEnd g) s = execWorkgroupEnd g s := rfl
@[simp] theorem exec_cancelNoticeTimeout {s : State} t : exec (.cancelNoticeTimeout t) s = execCancelNoticeTimeout t s := rfl
@[simp] theorem exec_preemptWrite {s : State} n v : exec (.preemptWrite n v) s = execPreemptWrite n v s := rfl
@[simp] theorem exec_foldExpansion {s : State} core : exec (.foldExpansion core) s = execFoldExpansion core s := rfl
@[simp] theorem exec_workgroupSave {s : State} g : exec (.workgroupSave g) s = execWorkgroupSave g s := rfl
@[simp] theorem exec_workgroupRestore {s : State} g core : exec (.workgroupRestore g core) s = execWorkgroupRestore g core s := rfl
@[simp] theorem exec_sliceEnd {s : State} n : exec (.sliceEnd n) s = execSliceEnd n s := rfl
@[simp] theorem exec_tenantSwitch {s : State} c n : exec (.tenantSwitch c n) s = execTenantSwitch c n s := rfl
@[simp] theorem exec_overrunSave {s : State} n us : exec (.overrunSave n us) s = execOverrunSave n us s := rfl
@[simp] theorem exec_overrunReset {s : State} n us : exec (.overrunReset n us) s = execOverrunReset n us s := rfl
@[simp] theorem exec_walkCompletion {s : State} core part va wr : exec (.walkCompletion core part va wr) s = execWalkCompletion core part va wr s := rfl
@[simp] theorem exec_copyTile {s : State} k : exec (.copyTile k) s = execCopyTile k s := rfl
@[simp] theorem exec_faultRetry {s : State} k : exec (.faultRetry k) s = execFaultRetry k s := rfl
@[simp] theorem exec_faultUnresolved {s : State} k : exec (.faultUnresolved k) s = execFaultUnresolved k s := rfl
@[simp] theorem exec_semsigPerform {s : State} k : exec (.semsigPerform k) s = execSemsigPerform k s := rfl
@[simp] theorem exec_tokenRefill {s : State} : exec (.tokenRefill) s = execTokenRefill s := rfl
@[simp] theorem exec_openTileTimeout {s : State} tile : exec (.openTileTimeout tile) s = execOpenTileTimeout tile s := rfl
@[simp] theorem exec_breezeTile {s : State} corrected : exec (.breezeTile corrected) s = execBreezeTile corrected s := rfl
@[simp] theorem exec_breezeClr {s : State} : exec (.breezeClr) s = execBreezeClr s := rfl
@[simp] theorem exec_tlbinvCompletion {s : State} t : exec (.tlbinvCompletion t) s = execTlbinvCompletion t s := rfl
@[simp] theorem exec_icinvCompletion {s : State} t : exec (.icinvCompletion t) s = execIcinvCompletion t s := rfl
@[simp] theorem exec_wfiResume {s : State} t : exec (.wfiResume t) s = execWfiResume t s := rfl
@[simp] theorem exec_reservationEntryGrant {s : State} t : exec (.reservationEntryGrant t) s = execReservationEntryGrant t s := rfl
@[simp] theorem exec_streamAdmission {s : State} c : exec (.streamAdmission c) s = execStreamAdmission c s := rfl
@[simp] theorem exec_streamClauseFetch {s : State} st : exec (.streamClauseFetch st) s = execStreamClauseFetch st s := rfl
@[simp] theorem exec_streamOpRetire {s : State} st k : exec (.streamOpRetire st k) s = execStreamOpRetire st k s := rfl
@[simp] theorem exec_ballastPass {s : State} c : exec (.ballastPass c) s = execBallastPass c s := rfl
@[simp] theorem exec_allowanceRegulation {s : State} n watts : exec (.allowanceRegulation n watts) s = execAllowanceRegulation n watts s := rfl
@[simp] theorem exec_notifyStore {s : State} fn o v : exec (.notifyStore fn o v) s = execNotifyStore fn o v s := rfl
@[simp] theorem exec_kettleUngate {s : State} n : exec (.kettleUngate n) s = execKettleUngate n s := rfl
@[simp] theorem exec_qctlWrite {s : State} q v : exec (.qctlWrite q v) s = execQctlWrite q v s := rfl
@[simp] theorem exec_ingFiltWrite {s : State} f v : exec (.ingFiltWrite f v) s = execIngFiltWrite f v s := rfl
@[simp] theorem exec_hevtWrite {s : State} n v : exec (.hevtWrite n v) s = execHevtWrite n v s := rfl
@[simp] theorem exec_nqlatchWrite {s : State} n v : exec (.nqlatchWrite n v) s = execNqlatchWrite n v s := rfl
@[simp] theorem exec_registerWrite {s : State} r : exec (.registerWrite r) s = execRegisterWrite r s := rfl
@[simp] theorem exec_cxlMemRead {s : State} a len : exec (.cxlMemRead a len) s = execCxlMemRead a len s := rfl
@[simp] theorem exec_cxlMemWrite {s : State} a bytes : exec (.cxlMemWrite a bytes) s = execCxlMemWrite a bytes s := rfl
@[simp] theorem exec_ptmDialogue {s : State} : exec (.ptmDialogue) s = execPtmDialogue s := rfl
@[simp] theorem exec_doeRequest {s : State} nonce : exec (.doeRequest nonce) s = execDoeRequest nonce s := rfl
@[simp] theorem exec_flr {s : State} n : exec (.flr n) s = execFlr n s := rfl
@[simp] theorem exec_ptpMessageRx {s : State} m : exec (.ptpMessageRx m) s = execPtpMessageRx m s := rfl
@[simp] theorem exec_ptpRequestTx {s : State} pdelay : exec (.ptpRequestTx pdelay) s = execPtpRequestTx pdelay s := rfl
@[simp] theorem exec_ptpHoldover {s : State} : exec (.ptpHoldover) s = execPtpHoldover s := rfl
@[simp] theorem exec_ingressFrame {s : State} f : exec (.ingressFrame f) s = execIngressFrame f s := rfl
@[simp] theorem exec_connect {s : State} n : exec (.connect n) s = execConnect n s := rfl
@[simp] theorem exec_disconnect {s : State} n : exec (.disconnect n) s = execDisconnect n s := rfl
@[simp] theorem exec_regrant {s : State} : exec (.regrant) s = execRegrant s := rfl
@[simp] theorem exec_partConnDone {s : State} : exec (.partConnDone) s = execPartConnDone s := rfl
@[simp] theorem exec_retireWrite {s : State} k v : exec (.retireWrite k v) s = execRetireWrite k v s := rfl
@[simp] theorem exec_quiesce {s : State} c dest : exec (.quiesce c dest) s = execQuiesce c dest s := rfl
@[simp] theorem exec_clkgate {s : State} c dest : exec (.clkgate c dest) s = execClkgate c dest s := rfl
@[simp] theorem exec_pwroff {s : State} c dest : exec (.pwroff c dest) s = execPwroff c dest s := rfl
@[simp] theorem exec_powerup {s : State} c dest : exec (.powerup c dest) s = execPowerup c dest s := rfl
@[simp] theorem exec_clpwrOn {s : State} c dest : exec (.clpwrOn c dest) s = execClpwrOn c dest s := rfl
@[simp] theorem exec_clpwrDone {s : State} c : exec (.clpwrDone c) s = execClpwrDone c s := rfl
@[simp] theorem exec_clWake {s : State} c : exec (.clWake c) s = execClWake c s := rfl
@[simp] theorem exec_retSave {s : State} c addr : exec (.retSave c addr) s = execRetSave c addr s := rfl
@[simp] theorem exec_retRestore {s : State} c addr : exec (.retRestore c addr) s = execRetRestore c addr s := rfl
@[simp] theorem exec_retDone {s : State} c : exec (.retDone c) s = execRetDone c s := rfl
@[simp] theorem exec_agentDb {s : State} : exec (.agentDb) s = execAgentDb s := rfl
@[simp] theorem exec_operatingPointChange {s : State} c : exec (.operatingPointChange c) s = execOperatingPointChange c s := rfl
@[simp] theorem exec_thermalLimit {s : State} die temp : exec (.thermalLimit die temp) s = execThermalLimit die temp s := rfl
@[simp] theorem exec_thermalStop {s : State} die temp : exec (.thermalStop die temp) s = execThermalStop die temp s := rfl
@[simp] theorem exec_deviceReset {s : State} : exec (.deviceReset) s = execDeviceReset s := rfl
@[simp] theorem exec_bootGo {s : State} : exec (.bootGo) s = execBootGo s := rfl
@[simp] theorem exec_run {s : State} fn : exec (.run fn) s = execRun fn s := rfl
@[simp] theorem exec_keyload {s : State} fn : exec (.keyload fn) s = execKeyload fn s := rfl
@[simp] theorem exec_keyclear {s : State} fn : exec (.keyclear fn) s = execKeyclear fn s := rfl
@[simp] theorem exec_attest {s : State} fn : exec (.attest fn) s = execAttest fn s := rfl
@[simp] theorem exec_undefinedOpcodePacket {s : State} q : exec (.undefinedOpcodePacket q) s = execUndefinedOpcodePacket q s := rfl
@[simp] theorem exec_badkindRequest {s : State} fn : exec (.badkindRequest fn) s = execBadkindRequest fn s := rfl
@[simp] theorem exec_firstLockComplete {s : State} : exec (.firstLockComplete) s = execFirstLockComplete s := rfl
@[simp] theorem exec_periodStart {s : State} n : exec (.periodStart n) s = execPeriodStart n s := rfl
@[simp] theorem exec_linkTraining {s : State} width rate : exec (.linkTraining width rate) s = execLinkTraining width rate s := rfl

end Sys2Proof.Machine
end

