-- ==== Sys2Proof/Laws/Loads.lean ====
section
/-! SUPPORT. What a load reads and whom it leaves alone, the counters of a structured-control word, and the effects of words
that give free values. -/

namespace Sys2Proof.Machine

theorem LaneEffect.gives {s : State} {t : Team} {c : Clause} {n : Nat} {d : Code} {v : Nat → Word} {out : Out} {p : Nat → Word → Prop}
    (h : LaneEffect s t c n d v out) (hp : ∀ l ∈ t.activeLanes, p l (v l)) : Gives s t c n d out p := ⟨v, h, hp⟩

theorem LaneEffect.free {s : State} {t : Team} {c : Clause} {n : Nat} {d : Code} {v : Nat → Word} {out : Out}
  (h : LaneEffect s t c n d v out) : Gives s t c n d out (fun l w => w = v l) := ⟨v, h, fun _ _ => rfl⟩

theorem fget_fsets_range {α : Type} [DecidableEq α] (d : Nat → α) (n : Nat) (m : FMap α) (v : Nat → α) (l : Nat) :
    fget d (fsets d m ((List.range n).map fun l => (l, v l))) l = if l < n then v l else fget d m l := by
  split
  · exact fget_fsets_map d (key := fun l => l) (fun i j h => h) (by simpa)
  · refine fget_fsets_notin d fun e he => ?_
    obtain ⟨j, hj, rfl⟩ := List.mem_map.1 he
    simp at hj; simp; omega

theorem depth_mapDepth (t : Team) (f : Nat → Nat) (l : Nat) :
    (t.mapDepth f).depth l = if l < t.lanes then f l % 128 else t.depth l := by
  rw [Team.depth, Team.mapDepth, fget_fsets_range]
  split <;> simp [Team.depth]
@[simp] theorem broken_mapDepth (t : Team) (f : Nat → Nat) (l : Nat) : (t.mapDepth f).broken l = t.broken l := rfl

theorem depth_lt (t : Team) (l : Nat) : t.depth l < 128 := BitVec.isLt _

theorem Skips.of_advance {s : State} {t : Team} {c : Clause} (n : Nat) :
    Skips s t c 0 n (.next (s.putTeam s.cur (t.advance c n))) :=
  ⟨_, rfl, Past.of_advance t c n, SamePlaceApart.of_advance t c n⟩

/-- The state of the team that performs what a word of its own must follow. -/
theorem drainFrame_team {s s1 : State} {t : Team} {wr : Bool} {xs : List Seg} (h : s.team s.cur = some t) (hm : MemSide s s1) :
   ∃ t1, (drainFrame s1 s.cur wr xs).team s.cur = some t1 ∧ SameButWindow t t1 :=
  (StoreSide.drainFrame s1 s.cur wr xs).team ((hm.team s.cur).trans h)

theorem toBytes_length (n v : Nat) : (toBytes n v).length = n := by
  induction n generalizing v with
  | zero => rfl
  | succ n ih => simp [toBytes, ih]

theorem notifyLoad_cur (s : State) (a n : Nat) : (notifyLoad s a n).2.cur = s.cur := by
  unfold notifyLoad notifyFail; split <;> rfl

theorem loadSeg_cur (s : State) (t : Team) (l : Nat) (x : Seg) : (loadSeg s t l x).2.cur = s.cur := by
  unfold loadSeg; split
  · rfl
  · split
    · exact notifyLoad_cur _ _ _
    · rfl

theorem loadSegs_cur (t : Team) (l : Nat) (s : State) (xs : List Seg) : (loadSegs t l s xs).2.cur = s.cur := by
  induction xs generalizing s with
  | nil => rfl
  | cons x xs ih => simp only [loadSegs]; rw [ih, loadSeg_cur]

theorem loadLanes_cur (t : Team) (s : State) (xs : List (Nat × List Seg)) : (loadLanes t s xs).2.cur = s.cur := by
  induction xs generalizing s with
  | nil => rfl
  | cons x xs ih => simp only [loadLanes]; rw [ih, loadSegs_cur]

theorem loadSegs_chip (t : Team) (l : Nat) (s : State) (xs : List Seg) (h : ∀ y ∈ xs, (y.typ ≠ 5 ∧ y.typ ≠ 6)) :
    loadSegs t l s xs = (xs.flatMap fun y => laneBytes s s.cur t l y.place y.off y.n, s) := by
  induction xs with
  | nil => rfl
  | cons x xs ih =>
    have hx := h x List.mem_cons_self
    simp only [loadSegs, loadSeg, hx.1, hx.2, if_false, ih fun y hy => h y (List.mem_cons_of_mem _ hy), List.flatMap_cons]

theorem loadLanes_chip (t : Team) (s : State) (xs : List (Nat × List Seg)) (h : ∀ x ∈ xs, ∀ y ∈ x.2, (y.typ ≠ 5 ∧ y.typ ≠ 6)) :
    loadLanes t s xs = (xs.map fun x => (x.1, x.2.flatMap fun y => laneBytes s s.cur t x.1 y.place y.off y.n), s) := by
  induction xs with
  | nil => rfl
  | cons x xs ih =>
    obtain ⟨l, ys⟩ := x
    simp only [loadLanes, loadSegs_chip t l s ys (h _ List.mem_cons_self), ih fun y hy => h y (List.mem_cons_of_mem _ hy), List.map_cons]

end Sys2Proof.Machine
end

