-- ==== Sys2Proof/Laws/PerInstr.lean ====
section
/-! SUPPORT. The encoding of each instruction, constructor by constructor: a well-formed word decodes to the instruction that
it encodes (R55 to R84). -/

set_option Elab.async false
set_option linter.unusedSimpArgs false

namespace Sys2Proof.Laws.Encodes

/-- A well-formed instruction's words decode to it, whatever follows a single word; a device step has no words. -/
def Statement (i : Instr) : Prop :=
  i.wellFormed = true → ∀ x w l, encode i = w :: l →
    decodeWords w (l.headD x) = .ok i ∧ l.length = (if hasExt w then 1 else 0)

/-! ## Fields of concatenations -/

theorem extract_high {w v : Nat} (x : BitVec w) (y : BitVec v) (s n : Nat) (h : v ≤ s) :
    (x ++ y).extractLsb' s n = x.extractLsb' (s - v) n := by
  ext i hi
  simp only [BitVec.getElem_extractLsb', BitVec.getLsbD_append]
  rw [if_neg (by omega)]; congr 1; omega

theorem extract_low {w v : Nat} (x : BitVec w) (y : BitVec v) (s n : Nat) (h : s + n ≤ v) :
    (x ++ y).extractLsb' s n = y.extractLsb' s n := by
  ext i hi
  simp only [BitVec.getElem_extractLsb', BitVec.getLsbD_append]
  rw [if_pos (by omega)]

theorem extract_all {w : Nat} (x : BitVec w) : x.extractLsb' 0 w = x := by
  ext i hi; simp

theorem extract_prefix {w : Nat} (x : BitVec w) (n m : Nat) (h : m ≤ n) : (x.extractLsb' 0 n).extractLsb' 0 m = x.extractLsb' 0 m := by
  ext i hi
  simp only [BitVec.getElem_extractLsb', BitVec.getLsbD_extractLsb', Nat.zero_add, Bool.and_eq_right_iff_imp, decide_eq_true_eq]
  omega

theorem hasExt_eq (w : Word) : hasExt w = (w.extractLsb' 24 8).getLsbD 0 := by
  simp [hasExt, BitVec.getLsbD_extractLsb']

theorem of_fields {x w : Word} {l : List Word} {i : Instr} {op : BitVec 8} {dec : Word → Word → Option Instr}
    (h8 : w.extractLsb' 24 8 = op) (hop : opcodeDefined op = true) (hl : l.length = if op.getLsbD 0 then 1 else 0)
    (hd : ∀ w x : Word, w.extractLsb' 24 8 = op → decodeFields w x = dec w x) (hf : dec w (l.headD x) = some i)
    (hw : i.wellFormed = true) : decodeWords w (l.headD x) = .ok i ∧ l.length = (if hasExt w then 1 else 0) := by
  refine ⟨?_, by rw [hl, hasExt_eq, h8]⟩
  unfold decodeWords
  rw [h8, if_pos hop, hd w _ h8, hf]
  simp [hw]

/-! ## Codes are read back -/

theorem readRm_bits (c : Rm) : readRm (bitsOfRm c) = some c := by cases c <;> rfl

theorem readCond_bits (c : Cond) : readCond (bitsOfCond c) = some c := by cases c <;> rfl

theorem readLeaIndex_bits (c : LeaIndex) : readLeaIndex (bitsOfLeaIndex c) = some c := by cases c <;> rfl

theorem readPFmt_bits (c : PFmt) : readPFmt (bitsOfPFmt c) = some c := by cases c <;> rfl

theorem readShflMode_bits (c : ShflMode) : readShflMode (bitsOfShflMode c) = some c := by cases c <;> rfl

theorem readVoteMode_bits (c : VoteMode) : readVoteMode (bitsOfVoteMode c) = some c := by cases c <;> rfl

theorem readReduxOp_bits (c : ReduxOp) : readReduxOp (bitsOfReduxOp c) = some c := by cases c <;> rfl

theorem readAtomSize_bits (c : AtomSize) : readAtomSize (bitsOfAtomSize c) = some c := by cases c <;> rfl

theorem readAtomOp_bits (c : AtomOp) : readAtomOp (bitsOfAtomOp c) = some c := by cases c <;> rfl

theorem readFenceOrder_bits (c : FenceOrder) : readFenceOrder (bitsOfFenceOrder c) = some c := by cases c <;> rfl

theorem readFenceScope_bits (c : FenceScope) : readFenceScope (bitsOfFenceScope c) = some c := by cases c <;> rfl

theorem readSemOp_bits (c : SemOp) : readSemOp (bitsOfSemOp c) = some c := by cases c <;> rfl

theorem readCancelLevel_bits (c : CancelLevel) : readCancelLevel (bitsOfCancelLevel c) = some c := by cases c <;> rfl

theorem readInvScope_bits (c : InvScope) : readInvScope (bitsOfInvScope c) = some c := by cases c <;> rfl

theorem readMSize_bits (c : MSize) : readMSize (bitsOfMSize c) = some c := by cases c <;> rfl

theorem readMStFmt_bits (c : MStFmt) : readMStFmt (bitsOfMStFmt c) = some c := by cases c <;> rfl

theorem readSysReg_bits (c : SysReg) : readSysReg (bitsOfSysReg c) = some c := by cases c <;> rfl

theorem readFmt_bits (c : Fmt) : readFmt (bitsOfFmt c) = some c := by
  cases c with
  | reg n => revert n; decide
  | _ => rfl

theorem readMmaFmt_bits (c : MmaFmt) : readMmaFmt (bitsOfMmaFmt c) = some c := by
  cases c with
  | reg n => revert n; decide
  | _ => rfl

theorem readBool_bits (c : Bool) : readBool (bitsOfBool c) = some c := by cases c <;> rfl

theorem readMods_bits (m : Mods) : readMods (bitsOfMods m) = some m := by
  obtain ⟨a, b, c, d, e, f⟩ := m
  revert a b c d e f; decide

/-! ## One lemma per constructor -/

theorem iadd d a b : Statement (.iadd d a b) := by
  intro h x w l e
  cases e
  refine of_fields (op := 0x00) (dec := decIadd) ?_ rfl rfl (fun w x h => by rw [decodeFields, h]; rfl) ?_ h
  · simp (disch := decide) only [extract_high, extract_all, Nat.reduceSub]; rfl
  simp (disch := decide) only [extract_high, extract_low, extract_all, Nat.reduceSub, List.headD_cons, decIadd]

theorem iaddLit d a lit : Statement (.iaddLit d a lit) := by
  intro h x w l e
  cases e
  refine of_fields (op := 0x01) (dec := decIaddLit) ?_ rfl rfl (fun w x h => by rw [decodeFields, h]; rfl) ?_ h
  · simp (disch := decide) only [extract_high, extract_all, Nat.reduceSub]; rfl
  simp (disch := decide) only [extract_high, extract_low, extract_all, Nat.reduceSub, List.headD_cons, decIaddLit]
  all_goals simp

theorem isub d a b : Statement (.isub d a b) := by
  intro h x w l e
  cases e
  refine of_fields (op := 0x02) (dec := decIsub) ?_ rfl rfl (fun w x h => by rw [decodeFields, h]; rfl) ?_ h
  · simp (disch := decide) only [extract_high, extract_all, Nat.reduceSub]; rfl
  simp (disch := decide) only [extract_high, extract_low, extract_all, Nat.reduceSub, List.headD_cons, decIsub]

theorem isubLit d a lit : Statement (.isubLit d a lit) := by
  intro h x w l e
  cases e
  refine of_fields (op := 0x03) (dec := decIsubLit) ?_ rfl rfl (fun w x h => by rw [decodeFields, h]; rfl) ?_ h
  · simp (disch := decide) only [extract_high, extract_all, Nat.reduceSub]; rfl
  simp (disch := decide) only [extract_high, extract_low, extract_all, Nat.reduceSub, List.headD_cons, decIsubLit]
  all_goals simp

theorem imul d a b : Statement (.imul d a b) := by
  intro h x w l e
  cases e
  refine of_fields (op := 0x04) (dec := decImul) ?_ rfl rfl (fun w x h => by rw [decodeFields, h]; rfl) ?_ h
  · simp (disch := decide) only [extract_high, extract_all, Nat.reduceSub]; rfl
  simp (disch := decide) only [extract_high, extract_low, extract_all, Nat.reduceSub, List.headD_cons, decImul]

theorem imulLit d a lit : Statement (.imulLit d a lit) := by
  intro h x w l e
  cases e
  refine of_fields (op := 0x05) (dec := decImulLit) ?_ rfl rfl (fun w x h => by rw [decodeFields, h]; rfl) ?_ h
  · simp (disch := decide) only [extract_high, extract_all, Nat.reduceSub]; rfl
  simp (disch := decide) only [extract_high, extract_low, extract_all, Nat.reduceSub, List.headD_cons, decImulLit]
  all_goals simp

theorem imulhS d a b : Statement (.imulhS d a b) := by
  intro h x w l e
  cases e
  refine of_fields (op := 0x06) (dec := decImulhS) ?_ rfl rfl (fun w x h => by rw [decodeFields, h]; rfl) ?_ h
  · simp (disch := decide) only [extract_high, extract_all, Nat.reduceSub]; rfl
  simp (disch := decide) only [extract_high, extract_low, extract_all, Nat.reduceSub, List.headD_cons, decImulhS]

theorem imulhU d a b : Statement (.imulhU d a b) := by
  intro h x w l e
  cases e
  refine of_fields (op := 0x08) (dec := decImulhU) ?_ rfl rfl (fun w x h => by rw [decodeFields, h]; rfl) ?_ h
  · simp (disch := decide) only [extract_high, extract_all, Nat.reduceSub]; rfl
  simp (disch := decide) only [extract_high, extract_low, extract_all, Nat.reduceSub, List.headD_cons, decImulhU]

theorem imad d a b c : Statement (.imad d a b c) := by
  intro h x w l e
  cases e
  refine of_fields (op := 0x0B) (dec := decImad) ?_ rfl rfl (fun w x h => by rw [decodeFields, h]; rfl) ?_ h
  · simp (disch := decide) only [extract_high, extract_all, Nat.reduceSub]; rfl
  simp (disch := decide) only [extract_high, extract_low, extract_all, Nat.reduceSub, List.headD_cons, decImad]
  all_goals simp

theorem iminS d a b : Statement (.iminS d a b) := by
  intro h x w l e
  cases e
  refine of_fields (op := 0x0C) (dec := decIminS) ?_ rfl rfl (fun w x h => by rw [decodeFields, h]; rfl) ?_ h
  · simp (disch := decide) only [extract_high, extract_all, Nat.reduceSub]; rfl
  simp (disch := decide) only [extract_high, extract_low, extract_all, Nat.reduceSub, List.headD_cons, decIminS]

theorem iminSLit d a lit : Statement (.iminSLit d a lit) := by
  intro h x w l e
  cases e
  refine of_fields (op := 0x0D) (dec := decIminSLit) ?_ rfl rfl (fun w x h => by rw [decodeFields, h]; rfl) ?_ h
  · simp (disch := decide) only [extract_high, extract_all, Nat.reduceSub]; rfl
  simp (disch := decide) only [extract_high, extract_low, extract_all, Nat.reduceSub, List.headD_cons, decIminSLit]
  all_goals simp

theorem iminU d a b : Statement (.iminU d a b) := by
  intro h x w l e
  cases e
  refine of_fields (op := 0x0E) (dec := decIminU) ?_ rfl rfl (fun w x h => by rw [decodeFields, h]; rfl) ?_ h
  · simp (disch := decide) only [extract_high, extract_all, Nat.reduceSub]; rfl
  simp (disch := decide) only [extract_high, extract_low, extract_all, Nat.reduceSub, List.headD_cons, decIminU]

theorem iminULit d a lit : Statement (.iminULit d a lit) := by
  intro h x w l e
  cases e
  refine of_fields (op := 0x0F) (dec := decIminULit) ?_ rfl rfl (fun w x h => by rw [decodeFields, h]; rfl) ?_ h
  · simp (disch := decide) only [extract_high, extract_all, Nat.reduceSub]; rfl
  simp (disch := decide) only [extract_high, extract_low, extract_all, Nat.reduceSub, List.headD_cons, decIminULit]
  all_goals simp

theorem imaxS d a b : Statement (.imaxS d a b) := by
  intro h x w l e
  cases e
  refine of_fields (op := 0x10) (dec := decImaxS) ?_ rfl rfl (fun w x h => by rw [decodeFields, h]; rfl) ?_ h
  · simp (disch := decide) only [extract_high, extract_all, Nat.reduceSub]; rfl
  simp (disch := decide) only [extract_high, extract_low, extract_all, Nat.reduceSub, List.headD_cons, decImaxS]

theorem imaxSLit d a lit : Statement (.imaxSLit d a lit) := by
  intro h x w l e
  cases e
  refine of_fields (op := 0x11) (dec := decImaxSLit) ?_ rfl rfl (fun w x h => by rw [decodeFields, h]; rfl) ?_ h
  · simp (disch := decide) only [extract_high, extract_all, Nat.reduceSub]; rfl
  simp (disch := decide) only [extract_high, extract_low, extract_all, Nat.reduceSub, List.headD_cons, decImaxSLit]
  all_goals simp

theorem imaxU d a b : Statement (.imaxU d a b) := by
  intro h x w l e
  cases e
  refine of_fields (op := 0x12) (dec := decImaxU) ?_ rfl rfl (fun w x h => by rw [decodeFields, h]; rfl) ?_ h
  · simp (disch := decide) only [extract_high, extract_all, Nat.reduceSub]; rfl
  simp (disch := decide) only [extract_high, extract_low, extract_all, Nat.reduceSub, List.headD_cons, decImaxU]

theorem imaxULit d a lit : Statement (.imaxULit d a lit) := by
  intro h x w l e
  cases e
  refine of_fields (op := 0x13) (dec := decImaxULit) ?_ rfl rfl (fun w x h => by rw [decodeFields, h]; rfl) ?_ h
  · simp (disch := decide) only [extract_high, extract_all, Nat.reduceSub]; rfl
  simp (disch := decide) only [extract_high, extract_low, extract_all, Nat.reduceSub, List.headD_cons, decImaxULit]
  all_goals simp

theorem iabs d a : Statement (.iabs d a) := by
  intro h x w l e
  cases e
  refine of_fields (op := 0x14) (dec := decIabs) ?_ rfl rfl (fun w x h => by rw [decodeFields, h]; rfl) ?_ h
  · simp (disch := decide) only [extract_high, extract_all, Nat.reduceSub]; rfl
  simp (disch := decide) only [extract_high, extract_low, extract_all, Nat.reduceSub, List.headD_cons, decIabs]
  all_goals simp

theorem icmp d a b cond : Statement (.icmp d a b cond) := by
  intro h x w l e
  cases e
  refine of_fields (op := 0x17) (dec := decIcmp) ?_ rfl rfl (fun w x h => by rw [decodeFields, h]; rfl) ?_ h
  · simp (disch := decide) only [extract_high, extract_all, Nat.reduceSub]; rfl
  simp (disch := decide) only [extract_high, extract_low, extract_all, Nat.reduceSub, List.headD_cons, decIcmp]
  all_goals simp [readCond_bits]

theorem lea d a b : Statement (.lea d a b) := by
  intro h x w l e
  cases e
  refine of_fields (op := 0x18) (dec := decLea) ?_ rfl rfl (fun w x h => by rw [decodeFields, h]; rfl) ?_ h
  · simp (disch := decide) only [extract_high, extract_all, Nat.reduceSub]; rfl
  simp (disch := decide) only [extract_high, extract_low, extract_all, Nat.reduceSub, List.headD_cons, decLea]

theorem leaX d a b ix sh : Statement (.leaX d a b ix sh) := by
  intro h x w l e
  cases e
  refine of_fields (op := 0x19) (dec := decLeaX) ?_ rfl rfl (fun w x h => by rw [decodeFields, h]; rfl) ?_ h
  · simp (disch := decide) only [extract_high, extract_all, Nat.reduceSub]; rfl
  simp (disch := decide) only [extract_high, extract_low, extract_all, Nat.reduceSub, List.headD_cons, decLeaX]
  all_goals simp [readLeaIndex_bits]

theorem and d a b : Statement (.and d a b) := by
  intro h x w l e
  cases e
  refine of_fields (op := 0x20) (dec := decAnd) ?_ rfl rfl (fun w x h => by rw [decodeFields, h]; rfl) ?_ h
  · simp (disch := decide) only [extract_high, extract_all, Nat.reduceSub]; rfl
  simp (disch := decide) only [extract_high, extract_low, extract_all, Nat.reduceSub, List.headD_cons, decAnd]

theorem andLit d a lit : Statement (.andLit d a lit) := by
  intro h x w l e
  cases e
  refine of_fields (op := 0x21) (dec := decAndLit) ?_ rfl rfl (fun w x h => by rw [decodeFields, h]; rfl) ?_ h
  · simp (disch := decide) only [extract_high, extract_all, Nat.reduceSub]; rfl
  simp (disch := decide) only [extract_high, extract_low, extract_all, Nat.reduceSub, List.headD_cons, decAndLit]
  all_goals simp

theorem or d a b : Statement (.or d a b) := by
  intro h x w l e
  cases e
  refine of_fields (op := 0x22) (dec := decOr) ?_ rfl rfl (fun w x h => by rw [decodeFields, h]; rfl) ?_ h
  · simp (disch := decide) only [extract_high, extract_all, Nat.reduceSub]; rfl
  simp (disch := decide) only [extract_high, extract_low, extract_all, Nat.reduceSub, List.headD_cons, decOr]

theorem orLit d a lit : Statement (.orLit d a lit) := by
  intro h x w l e
  cases e
  refine of_fields (op := 0x23) (dec := decOrLit) ?_ rfl rfl (fun w x h => by rw [decodeFields, h]; rfl) ?_ h
  · simp (disch := decide) only [extract_high, extract_all, Nat.reduceSub]; rfl
  simp (disch := decide) only [extract_high, extract_low, extract_all, Nat.reduceSub, List.headD_cons, decOrLit]
  all_goals simp

theorem xor d a b : Statement (.xor d a b) := by
  intro h x w l e
  cases e
  refine of_fields (op := 0x24) (dec := decXor) ?_ rfl rfl (fun w x h => by rw [decodeFields, h]; rfl) ?_ h
  · simp (disch := decide) only [extract_high, extract_all, Nat.reduceSub]; rfl
  simp (disch := decide) only [extract_high, extract_low, extract_all, Nat.reduceSub, List.headD_cons, decXor]

theorem xorLit d a lit : Statement (.xorLit d a lit) := by
  intro h x w l e
  cases e
  refine of_fields (op := 0x25) (dec := decXorLit) ?_ rfl rfl (fun w x h => by rw [decodeFields, h]; rfl) ?_ h
  · simp (disch := decide) only [extract_high, extract_all, Nat.reduceSub]; rfl
  simp (disch := decide) only [extract_high, extract_low, extract_all, Nat.reduceSub, List.headD_cons, decXorLit]
  all_goals simp

theorem shl d a b : Statement (.shl d a b) := by
  intro h x w l e
  cases e
  refine of_fields (op := 0x26) (dec := decShl) ?_ rfl rfl (fun w x h => by rw [decodeFields, h]; rfl) ?_ h
  · simp (disch := decide) only [extract_high, extract_all, Nat.reduceSub]; rfl
  simp (disch := decide) only [extract_high, extract_low, extract_all, Nat.reduceSub, List.headD_cons, decShl]

theorem shr d a b : Statement (.shr d a b) := by
  intro h x w l e
  cases e
  refine of_fields (op := 0x28) (dec := decShr) ?_ rfl rfl (fun w x h => by rw [decodeFields, h]; rfl) ?_ h
  · simp (disch := decide) only [extract_high, extract_all, Nat.reduceSub]; rfl
  simp (disch := decide) only [extract_high, extract_low, extract_all, Nat.reduceSub, List.headD_cons, decShr]

theorem shrX d a b arith : Statement (.shrX d a b arith) := by
  intro h x w l e
  cases e
  refine of_fields (op := 0x29) (dec := decShrX) ?_ rfl rfl (fun w x h => by rw [decodeFields, h]; rfl) ?_ h
  · simp (disch := decide) only [extract_high, extract_all, Nat.reduceSub]; rfl
  simp (disch := decide) only [extract_high, extract_low, extract_all, Nat.reduceSub, List.headD_cons, decShrX]
  all_goals simp [readBool_bits]

theorem rot d a b : Statement (.rot d a b) := by
  intro h x w l e
  cases e
  refine of_fields (op := 0x2A) (dec := decRot) ?_ rfl rfl (fun w x h => by rw [decodeFields, h]; rfl) ?_ h
  · simp (disch := decide) only [extract_high, extract_all, Nat.reduceSub]; rfl
  simp (disch := decide) only [extract_high, extract_low, extract_all, Nat.reduceSub, List.headD_cons, decRot]

theorem bfx d a b signed c : Statement (.bfx d a b signed c) := by
  intro h x w l e
  cases e
  refine of_fields (op := 0x2D) (dec := decBfx) ?_ rfl rfl (fun w x h => by rw [decodeFields, h]; rfl) ?_ h
  · simp (disch := decide) only [extract_high, extract_all, Nat.reduceSub]; rfl
  simp (disch := decide) only [extract_high, extract_low, extract_all, Nat.reduceSub, List.headD_cons, decBfx]
  all_goals simp [readBool_bits]

theorem bfi d a b c : Statement (.bfi d a b c) := by
  intro h x w l e
  cases e
  refine of_fields (op := 0x2F) (dec := decBfi) ?_ rfl rfl (fun w x h => by rw [decodeFields, h]; rfl) ?_ h
  · simp (disch := decide) only [extract_high, extract_all, Nat.reduceSub]; rfl
  simp (disch := decide) only [extract_high, extract_low, extract_all, Nat.reduceSub, List.headD_cons, decBfi]
  all_goals simp

theorem popc d a : Statement (.popc d a) := by
  intro h x w l e
  cases e
  refine of_fields (op := 0x30) (dec := decPopc) ?_ rfl rfl (fun w x h => by rw [decodeFields, h]; rfl) ?_ h
  · simp (disch := decide) only [extract_high, extract_all, Nat.reduceSub]; rfl
  simp (disch := decide) only [extract_high, extract_low, extract_all, Nat.reduceSub, List.headD_cons, decPopc]
  all_goals simp

theorem clz d a : Statement (.clz d a) := by
  intro h x w l e
  cases e
  refine of_fields (op := 0x32) (dec := decClz) ?_ rfl rfl (fun w x h => by rw [decodeFields, h]; rfl) ?_ h
  · simp (disch := decide) only [extract_high, extract_all, Nat.reduceSub]; rfl
  simp (disch := decide) only [extract_high, extract_low, extract_all, Nat.reduceSub, List.headD_cons, decClz]
  all_goals simp

theorem brev d a : Statement (.brev d a) := by
  intro h x w l e
  cases e
  refine of_fields (op := 0x34) (dec := decBrev) ?_ rfl rfl (fun w x h => by rw [decodeFields, h]; rfl) ?_ h
  · simp (disch := decide) only [extract_high, extract_all, Nat.reduceSub]; rfl
  simp (disch := decide) only [extract_high, extract_low, extract_all, Nat.reduceSub, List.headD_cons, decBrev]
  all_goals simp

theorem sel d a b c : Statement (.sel d a b c) := by
  intro h x w l e
  cases e
  refine of_fields (op := 0x37) (dec := decSel) ?_ rfl rfl (fun w x h => by rw [decodeFields, h]; rfl) ?_ h
  · simp (disch := decide) only [extract_high, extract_all, Nat.reduceSub]; rfl
  simp (disch := decide) only [extract_high, extract_low, extract_all, Nat.reduceSub, List.headD_cons, decSel]
  all_goals simp

theorem mov d a : Statement (.mov d a) := by
  intro h x w l e
  cases e
  refine of_fields (op := 0x38) (dec := decMov) ?_ rfl rfl (fun w x h => by rw [decodeFields, h]; rfl) ?_ h
  · simp (disch := decide) only [extract_high, extract_all, Nat.reduceSub]; rfl
  simp (disch := decide) only [extract_high, extract_low, extract_all, Nat.reduceSub, List.headD_cons, decMov]
  all_goals simp

theorem movLit d lit : Statement (.movLit d lit) := by
  intro h x w l e
  cases e
  refine of_fields (op := 0x39) (dec := decMovLit) ?_ rfl rfl (fun w x h => by rw [decodeFields, h]; rfl) ?_ h
  · simp (disch := decide) only [extract_high, extract_all, Nat.reduceSub]; rfl
  simp (disch := decide) only [extract_high, extract_low, extract_all, Nat.reduceSub, List.headD_cons, decMovLit]
  all_goals simp

theorem movi d imm : Statement (.movi d imm) := by
  intro h x w l e
  cases e
  refine of_fields (op := 0x3A) (dec := decMovi) ?_ rfl rfl (fun w x h => by rw [decodeFields, h]; rfl) ?_ h
  · simp (disch := decide) only [extract_high, extract_all, Nat.reduceSub]; rfl
  simp (disch := decide) only [extract_high, extract_low, extract_all, Nat.reduceSub, List.headD_cons, decMovi]

theorem movx d a : Statement (.movx d a) := by
  intro h x w l e
  cases e
  refine of_fields (op := 0x3C) (dec := decMovx) ?_ rfl rfl (fun w x h => by rw [decodeFields, h]; rfl) ?_ h
  · simp (disch := decide) only [extract_high, extract_all, Nat.reduceSub]; rfl
  simp (disch := decide) only [extract_high, extract_low, extract_all, Nat.reduceSub, List.headD_cons, decMovx]
  all_goals simp

theorem movxw a b : Statement (.movxw a b) := by
  intro h x w l e
  cases e
  refine of_fields (op := 0x3E) (dec := decMovxw) ?_ rfl rfl (fun w x h => by rw [decodeFields, h]; rfl) ?_ h
  · simp (disch := decide) only [extract_high, extract_all, Nat.reduceSub]; rfl
  simp (disch := decide) only [extract_high, extract_low, extract_all, Nat.reduceSub, List.headD_cons, decMovxw]
  all_goals simp

theorem fadd d a b : Statement (.fadd d a b) := by
  intro h x w l e
  cases e
  refine of_fields (op := 0x40) (dec := decFadd) ?_ rfl rfl (fun w x h => by rw [decodeFields, h]; rfl) ?_ h
  · simp (disch := decide) only [extract_high, extract_all, Nat.reduceSub]; rfl
  simp (disch := decide) only [extract_high, extract_low, extract_all, Nat.reduceSub, List.headD_cons, decFadd]

theorem faddX d a b m rm : Statement (.faddX d a b m rm) := by
  intro h x w l e
  cases e
  refine of_fields (op := 0x41) (dec := decFaddX) ?_ rfl rfl (fun w x h => by rw [decodeFields, h]; rfl) ?_ h
  · simp (disch := decide) only [extract_high, extract_all, Nat.reduceSub]; rfl
  simp (disch := decide) only [extract_high, extract_low, extract_all, Nat.reduceSub, List.headD_cons, decFaddX]
  all_goals simp [readRm_bits, readMods_bits]

theorem fsub d a b : Statement (.fsub d a b) := by
  intro h x w l e
  cases e
  refine of_fields (op := 0x42) (dec := decFsub) ?_ rfl rfl (fun w x h => by rw [decodeFields, h]; rfl) ?_ h
  · simp (disch := decide) only [extract_high, extract_all, Nat.reduceSub]; rfl
  simp (disch := decide) only [extract_high, extract_low, extract_all, Nat.reduceSub, List.headD_cons, decFsub]

theorem fsubX d a b m rm : Statement (.fsubX d a b m rm) := by
  intro h x w l e
  cases e
  refine of_fields (op := 0x43) (dec := decFsubX) ?_ rfl rfl (fun w x h => by rw [decodeFields, h]; rfl) ?_ h
  · simp (disch := decide) only [extract_high, extract_all, Nat.reduceSub]; rfl
  simp (disch := decide) only [extract_high, extract_low, extract_all, Nat.reduceSub, List.headD_cons, decFsubX]
  all_goals simp [readRm_bits, readMods_bits]

theorem fmul d a b : Statement (.fmul d a b) := by
  intro h x w l e
  cases e
  refine of_fields (op := 0x44) (dec := decFmul) ?_ rfl rfl (fun w x h => by rw [decodeFields, h]; rfl) ?_ h
  · simp (disch := decide) only [extract_high, extract_all, Nat.reduceSub]; rfl
  simp (disch := decide) only [extract_high, extract_low, extract_all, Nat.reduceSub, List.headD_cons, decFmul]

theorem fmulX d a b m rm : Statement (.fmulX d a b m rm) := by
  intro h x w l e
  cases e
  refine of_fields (op := 0x45) (dec := decFmulX) ?_ rfl rfl (fun w x h => by rw [decodeFields, h]; rfl) ?_ h
  · simp (disch := decide) only [extract_high, extract_all, Nat.reduceSub]; rfl
  simp (disch := decide) only [extract_high, extract_low, extract_all, Nat.reduceSub, List.headD_cons, decFmulX]
  all_goals simp [readRm_bits, readMods_bits]

theorem ffma d a b m rm c : Statement (.ffma d a b m rm c) := by
  intro h x w l e
  cases e
  refine of_fields (op := 0x47) (dec := decFfma) ?_ rfl rfl (fun w x h => by rw [decodeFields, h]; rfl) ?_ h
  · simp (disch := decide) only [extract_high, extract_all, Nat.reduceSub]; rfl
  simp (disch := decide) only [extract_high, extract_low, extract_all, Nat.reduceSub, List.headD_cons, decFfma]
  all_goals simp [readRm_bits, readMods_bits]

theorem fmin d a b : Statement (.fmin d a b) := by
  intro h x w l e
  cases e
  refine of_fields (op := 0x48) (dec := decFmin) ?_ rfl rfl (fun w x h => by rw [decodeFields, h]; rfl) ?_ h
  · simp (disch := decide) only [extract_high, extract_all, Nat.reduceSub]; rfl
  simp (disch := decide) only [extract_high, extract_low, extract_all, Nat.reduceSub, List.headD_cons, decFmin]

theorem fminX d a b m : Statement (.fminX d a b m) := by
  intro h x w l e
  cases e
  refine of_fields (op := 0x49) (dec := decFminX) ?_ rfl rfl (fun w x h => by rw [decodeFields, h]; rfl) ?_ h
  · simp (disch := decide) only [extract_high, extract_all, Nat.reduceSub]; rfl
  simp (disch := decide) only [extract_high, extract_low, extract_all, Nat.reduceSub, List.headD_cons, decFminX]
  all_goals simp [readMods_bits]

theorem fmax d a b : Statement (.fmax d a b) := by
  intro h x w l e
  cases e
  refine of_fields (op := 0x4A) (dec := decFmax) ?_ rfl rfl (fun w x h => by rw [decodeFields, h]; rfl) ?_ h
  · simp (disch := decide) only [extract_high, extract_all, Nat.reduceSub]; rfl
  simp (disch := decide) only [extract_high, extract_low, extract_all, Nat.reduceSub, List.headD_cons, decFmax]

theorem fmaxX d a b m : Statement (.fmaxX d a b m) := by
  intro h x w l e
  cases e
  refine of_fields (op := 0x4B) (dec := decFmaxX) ?_ rfl rfl (fun w x h => by rw [decodeFields, h]; rfl) ?_ h
  · simp (disch := decide) only [extract_high, extract_all, Nat.reduceSub]; rfl
  simp (disch := decide) only [extract_high, extract_low, extract_all, Nat.reduceSub, List.headD_cons, decFmaxX]
  all_goals simp [readMods_bits]

theorem fcmp d a b cond m : Statement (.fcmp d a b cond m) := by
  intro h x w l e
  cases e
  refine of_fields (op := 0x4D) (dec := decFcmp) ?_ rfl rfl (fun w x h => by rw [decodeFields, h]; rfl) ?_ h
  · simp (disch := decide) only [extract_high, extract_all, Nat.reduceSub]; rfl
  simp (disch := decide) only [extract_high, extract_low, extract_all, Nat.reduceSub, List.headD_cons, decFcmp]
  all_goals simp [readCond_bits, readMods_bits]

theorem frcp d a : Statement (.frcp d a) := by
  intro h x w l e
  cases e
  refine of_fields (op := 0x50) (dec := decFrcp) ?_ rfl rfl (fun w x h => by rw [decodeFields, h]; rfl) ?_ h
  · simp (disch := decide) only [extract_high, extract_all, Nat.reduceSub]; rfl
  simp (disch := decide) only [extract_high, extract_low, extract_all, Nat.reduceSub, List.headD_cons, decFrcp]
  all_goals simp

theorem frcpX d a m rm : Statement (.frcpX d a m rm) := by
  intro h x w l e
  cases e
  refine of_fields (op := 0x51) (dec := decFrcpX) ?_ rfl rfl (fun w x h => by rw [decodeFields, h]; rfl) ?_ h
  · simp (disch := decide) only [extract_high, extract_all, Nat.reduceSub]; rfl
  simp (disch := decide) only [extract_high, extract_low, extract_all, Nat.reduceSub, List.headD_cons, decFrcpX]
  all_goals simp [readRm_bits, readMods_bits]

theorem frsq d a : Statement (.frsq d a) := by
  intro h x w l e
  cases e
  refine of_fields (op := 0x52) (dec := decFrsq) ?_ rfl rfl (fun w x h => by rw [decodeFields, h]; rfl) ?_ h
  · simp (disch := decide) only [extract_high, extract_all, Nat.reduceSub]; rfl
  simp (disch := decide) only [extract_high, extract_low, extract_all, Nat.reduceSub, List.headD_cons, decFrsq]
  all_goals simp

theorem frsqX d a m rm : Statement (.frsqX d a m rm) := by
  intro h x w l e
  cases e
  refine of_fields (op := 0x53) (dec := decFrsqX) ?_ rfl rfl (fun w x h => by rw [decodeFields, h]; rfl) ?_ h
  · simp (disch := decide) only [extract_high, extract_all, Nat.reduceSub]; rfl
  simp (disch := decide) only [extract_high, extract_low, extract_all, Nat.reduceSub, List.headD_cons, decFrsqX]
  all_goals simp [readRm_bits, readMods_bits]

theorem fsqrt d a : Statement (.fsqrt d a) := by
  intro h x w l e
  cases e
  refine of_fields (op := 0x54) (dec := decFsqrt) ?_ rfl rfl (fun w x h => by rw [decodeFields, h]; rfl) ?_ h
  · simp (disch := decide) only [extract_high, extract_all, Nat.reduceSub]; rfl
  simp (disch := decide) only [extract_high, extract_low, extract_all, Nat.reduceSub, List.headD_cons, decFsqrt]
  all_goals simp

theorem fsqrtX d a m rm : Statement (.fsqrtX d a m rm) := by
  intro h x w l e
  cases e
  refine of_fields (op := 0x55) (dec := decFsqrtX) ?_ rfl rfl (fun w x h => by rw [decodeFields, h]; rfl) ?_ h
  · simp (disch := decide) only [extract_high, extract_all, Nat.reduceSub]; rfl
  simp (disch := decide) only [extract_high, extract_low, extract_all, Nat.reduceSub, List.headD_cons, decFsqrtX]
  all_goals simp [readRm_bits, readMods_bits]

theorem fexp2 d a : Statement (.fexp2 d a) := by
  intro h x w l e
  cases e
  refine of_fields (op := 0x56) (dec := decFexp2) ?_ rfl rfl (fun w x h => by rw [decodeFields, h]; rfl) ?_ h
  · simp (disch := decide) only [extract_high, extract_all, Nat.reduceSub]; rfl
  simp (disch := decide) only [extract_high, extract_low, extract_all, Nat.reduceSub, List.headD_cons, decFexp2]
  all_goals simp

theorem fexp2X d a m rm : Statement (.fexp2X d a m rm) := by
  intro h x w l e
  cases e
  refine of_fields (op := 0x57) (dec := decFexp2X) ?_ rfl rfl (fun w x h => by rw [decodeFields, h]; rfl) ?_ h
  · simp (disch := decide) only [extract_high, extract_all, Nat.reduceSub]; rfl
  simp (disch := decide) only [extract_high, extract_low, extract_all, Nat.reduceSub, List.headD_cons, decFexp2X]
  all_goals simp [readRm_bits, readMods_bits]

theorem flog2 d a : Statement (.flog2 d a) := by
  intro h x w l e
  cases e
  refine of_fields (op := 0x58) (dec := decFlog2) ?_ rfl rfl (fun w x h => by rw [decodeFields, h]; rfl) ?_ h
  · simp (disch := decide) only [extract_high, extract_all, Nat.reduceSub]; rfl
  simp (disch := decide) only [extract_high, extract_low, extract_all, Nat.reduceSub, List.headD_cons, decFlog2]
  all_goals simp

theorem flog2X d a m rm : Statement (.flog2X d a m rm) := by
  intro h x w l e
  cases e
  refine of_fields (op := 0x59) (dec := decFlog2X) ?_ rfl rfl (fun w x h => by rw [decodeFields, h]; rfl) ?_ h
  · simp (disch := decide) only [extract_high, extract_all, Nat.reduceSub]; rfl
  simp (disch := decide) only [extract_high, extract_low, extract_all, Nat.reduceSub, List.headD_cons, decFlog2X]
  all_goals simp [readRm_bits, readMods_bits]

theorem fsin d a : Statement (.fsin d a) := by
  intro h x w l e
  cases e
  refine of_fields (op := 0x5A) (dec := decFsin) ?_ rfl rfl (fun w x h => by rw [decodeFields, h]; rfl) ?_ h
  · simp (disch := decide) only [extract_high, extract_all, Nat.reduceSub]; rfl
  simp (disch := decide) only [extract_high, extract_low, extract_all, Nat.reduceSub, List.headD_cons, decFsin]
  all_goals simp

theorem fsinX d a m rm : Statement (.fsinX d a m rm) := by
  intro h x w l e
  cases e
  refine of_fields (op := 0x5B) (dec := decFsinX) ?_ rfl rfl (fun w x h => by rw [decodeFields, h]; rfl) ?_ h
  · simp (disch := decide) only [extract_high, extract_all, Nat.reduceSub]; rfl
  simp (disch := decide) only [extract_high, extract_low, extract_all, Nat.reduceSub, List.headD_cons, decFsinX]
  all_goals simp [readRm_bits, readMods_bits]

theorem fcos d a : Statement (.fcos d a) := by
  intro h x w l e
  cases e
  refine of_fields (op := 0x5C) (dec := decFcos) ?_ rfl rfl (fun w x h => by rw [decodeFields, h]; rfl) ?_ h
  · simp (disch := decide) only [extract_high, extract_all, Nat.reduceSub]; rfl
  simp (disch := decide) only [extract_high, extract_low, extract_all, Nat.reduceSub, List.headD_cons, decFcos]
  all_goals simp

theorem fcosX d a m rm : Statement (.fcosX d a m rm) := by
  intro h x w l e
  cases e
  refine of_fields (op := 0x5D) (dec := decFcosX) ?_ rfl rfl (fun w x h => by rw [decodeFields, h]; rfl) ?_ h
  · simp (disch := decide) only [extract_high, extract_all, Nat.reduceSub]; rfl
  simp (disch := decide) only [extract_high, extract_low, extract_all, Nat.reduceSub, List.headD_cons, decFcosX]
  all_goals simp [readRm_bits, readMods_bits]

theorem padd d a b : Statement (.padd d a b) := by
  intro h x w l e
  cases e
  refine of_fields (op := 0x60) (dec := decPadd) ?_ rfl rfl (fun w x h => by rw [decodeFields, h]; rfl) ?_ h
  · simp (disch := decide) only [extract_high, extract_all, Nat.reduceSub]; rfl
  simp (disch := decide) only [extract_high, extract_low, extract_all, Nat.reduceSub, List.headD_cons, decPadd]

theorem paddX d a b pf m rm : Statement (.paddX d a b pf m rm) := by
  intro h x w l e
  cases e
  refine of_fields (op := 0x61) (dec := decPaddX) ?_ rfl rfl (fun w x h => by rw [decodeFields, h]; rfl) ?_ h
  · simp (disch := decide) only [extract_high, extract_all, Nat.reduceSub]; rfl
  simp (disch := decide) only [extract_high, extract_low, extract_all, Nat.reduceSub, List.headD_cons, decPaddX]
  all_goals simp [readRm_bits, readPFmt_bits, readMods_bits]

theorem pmul d a b : Statement (.pmul d a b) := by
  intro h x w l e
  cases e
  refine of_fields (op := 0x62) (dec := decPmul) ?_ rfl rfl (fun w x h => by rw [decodeFields, h]; rfl) ?_ h
  · simp (disch := decide) only [extract_high, extract_all, Nat.reduceSub]; rfl
  simp (disch := decide) only [extract_high, extract_low, extract_all, Nat.reduceSub, List.headD_cons, decPmul]

theorem pmulX d a b pf m rm : Statement (.pmulX d a b pf m rm) := by
  intro h x w l e
  cases e
  refine of_fields (op := 0x63) (dec := decPmulX) ?_ rfl rfl (fun w x h => by rw [decodeFields, h]; rfl) ?_ h
  · simp (disch := decide) only [extract_high, extract_all, Nat.reduceSub]; rfl
  simp (disch := decide) only [extract_high, extract_low, extract_all, Nat.reduceSub, List.headD_cons, decPmulX]
  all_goals simp [readRm_bits, readPFmt_bits, readMods_bits]

theorem pfma d a b pf m rm c : Statement (.pfma d a b pf m rm c) := by
  intro h x w l e
  cases e
  refine of_fields (op := 0x65) (dec := decPfma) ?_ rfl rfl (fun w x h => by rw [decodeFields, h]; rfl) ?_ h
  · simp (disch := decide) only [extract_high, extract_all, Nat.reduceSub]; rfl
  simp (disch := decide) only [extract_high, extract_low, extract_all, Nat.reduceSub, List.headD_cons, decPfma]
  all_goals simp [readRm_bits, readPFmt_bits, readMods_bits]

theorem pack8 d a fd rm : Statement (.pack8 d a fd rm) := by
  intro h x w l e
  cases e
  refine of_fields (op := 0x67) (dec := decPack8) ?_ rfl rfl (fun w x h => by rw [decodeFields, h]; rfl) ?_ h
  · simp (disch := decide) only [extract_high, extract_all, Nat.reduceSub]; rfl
  simp (disch := decide) only [extract_high, extract_low, extract_all, Nat.reduceSub, List.headD_cons, decPack8]
  all_goals simp [readRm_bits, readFmt_bits]

theorem unpack d a b fs : Statement (.unpack d a b fs) := by
  intro h x w l e
  cases e
  refine of_fields (op := 0x69) (dec := decUnpack) ?_ rfl rfl (fun w x h => by rw [decodeFields, h]; rfl) ?_ h
  · simp (disch := decide) only [extract_high, extract_all, Nat.reduceSub]; rfl
  simp (disch := decide) only [extract_high, extract_low, extract_all, Nat.reduceSub, List.headD_cons, decUnpack]
  all_goals simp [readFmt_bits]

theorem cvt d a fs fd sat m rm : Statement (.cvt d a fs fd sat m rm) := by
  intro h x w l e
  cases e
  refine of_fields (op := 0x6B) (dec := decCvt) ?_ rfl rfl (fun w x h => by rw [decodeFields, h]; rfl) ?_ h
  · simp (disch := decide) only [extract_high, extract_all, Nat.reduceSub]; rfl
  simp (disch := decide) only [extract_high, extract_low, extract_all, Nat.reduceSub, List.headD_cons, decCvt]
  all_goals simp [readRm_bits, readFmt_bits, readBool_bits, readMods_bits]

theorem fmtset n a : Statement (.fmtset n a) := by
  intro h x w l e
  cases e
  refine of_fields (op := 0x6C) (dec := decFmtset) ?_ rfl rfl (fun w x h => by rw [decodeFields, h]; rfl) ?_ h
  · simp (disch := decide) only [extract_high, extract_all, Nat.reduceSub]; rfl
  simp (disch := decide) only [extract_high, extract_low, extract_all, Nat.reduceSub, List.headD_cons, decFmtset]
  all_goals simp

theorem fmtget d n : Statement (.fmtget d n) := by
  intro h x w l e
  cases e
  refine of_fields (op := 0x6E) (dec := decFmtget) ?_ rfl rfl (fun w x h => by rw [decodeFields, h]; rfl) ?_ h
  · simp (disch := decide) only [extract_high, extract_all, Nat.reduceSub]; rfl
  simp (disch := decide) only [extract_high, extract_low, extract_all, Nat.reduceSub, List.headD_cons, decFmtget]
  all_goals simp

theorem shfl d a b mode : Statement (.shfl d a b mode) := by
  intro h x w l e
  cases e
  refine of_fields (op := 0x71) (dec := decShfl) ?_ rfl rfl (fun w x h => by rw [decodeFields, h]; rfl) ?_ h
  · simp (disch := decide) only [extract_high, extract_all, Nat.reduceSub]; rfl
  simp (disch := decide) only [extract_high, extract_low, extract_all, Nat.reduceSub, List.headD_cons, decShfl]
  all_goals simp [readShflMode_bits]

theorem vote d a b mode : Statement (.vote d a b mode) := by
  intro h x w l e
  cases e
  refine of_fields (op := 0x73) (dec := decVote) ?_ rfl rfl (fun w x h => by rw [decodeFields, h]; rfl) ?_ h
  · simp (disch := decide) only [extract_high, extract_all, Nat.reduceSub]; rfl
  simp (disch := decide) only [extract_high, extract_low, extract_all, Nat.reduceSub, List.headD_cons, decVote]
  all_goals simp [readVoteMode_bits]

theorem redux d a mode : Statement (.redux d a mode) := by
  intro h x w l e
  cases e
  refine of_fields (op := 0x75) (dec := decRedux) ?_ rfl rfl (fun w x h => by rw [decodeFields, h]; rfl) ?_ h
  · simp (disch := decide) only [extract_high, extract_all, Nat.reduceSub]; rfl
  simp (disch := decide) only [extract_high, extract_low, extract_all, Nat.reduceSub, List.headD_cons, decRedux]
  all_goals simp [readReduxOp_bits]

theorem bcast d a b : Statement (.bcast d a b) := by
  intro h x w l e
  cases e
  refine of_fields (op := 0x76) (dec := decBcast) ?_ rfl rfl (fun w x h => by rw [decodeFields, h]; rfl) ?_ h
  · simp (disch := decide) only [extract_high, extract_all, Nat.reduceSub]; rfl
  simp (disch := decide) only [extract_high, extract_low, extract_all, Nat.reduceSub, List.headD_cons, decBcast]

theorem ldB d b slot off : Statement (.ldB d b slot off) := by
  intro h x w l e
  cases e
  refine of_fields (op := 0x80) (dec := decLdB) ?_ rfl rfl (fun w x h => by rw [decodeFields, h]; rfl) ?_ h
  · simp (disch := decide) only [extract_high, extract_all, Nat.reduceSub]; rfl
  simp (disch := decide) only [extract_high, extract_low, extract_all, Nat.reduceSub, List.headD_cons, decLdB]

theorem ldBX d b slot off signed acq : Statement (.ldBX d b slot off signed acq) := by
  intro h x w l e
  cases e
  refine of_fields (op := 0x81) (dec := decLdBX) ?_ rfl rfl (fun w x h => by rw [decodeFields, h]; rfl) ?_ h
  · simp (disch := decide) only [extract_high, extract_all, Nat.reduceSub]; rfl
  simp (disch := decide) only [extract_high, extract_low, extract_all, Nat.reduceSub, List.headD_cons, decLdBX]
  all_goals simp [readBool_bits]

theorem ldH d b slot off : Statement (.ldH d b slot off) := by
  intro h x w l e
  cases e
  refine of_fields (op := 0x82) (dec := decLdH) ?_ rfl rfl (fun w x h => by rw [decodeFields, h]; rfl) ?_ h
  · simp (disch := decide) only [extract_high, extract_all, Nat.reduceSub]; rfl
  simp (disch := decide) only [extract_high, extract_low, extract_all, Nat.reduceSub, List.headD_cons, decLdH]

theorem ldHX d b slot off signed acq : Statement (.ldHX d b slot off signed acq) := by
  intro h x w l e
  cases e
  refine of_fields (op := 0x83) (dec := decLdHX) ?_ rfl rfl (fun w x h => by rw [decodeFields, h]; rfl) ?_ h
  · simp (disch := decide) only [extract_high, extract_all, Nat.reduceSub]; rfl
  simp (disch := decide) only [extract_high, extract_low, extract_all, Nat.reduceSub, List.headD_cons, decLdHX]
  all_goals simp [readBool_bits]

theorem ldW d b slot off : Statement (.ldW d b slot off) := by
  intro h x w l e
  cases e
  refine of_fields (op := 0x84) (dec := decLdW) ?_ rfl rfl (fun w x h => by rw [decodeFields, h]; rfl) ?_ h
  · simp (disch := decide) only [extract_high, extract_all, Nat.reduceSub]; rfl
  simp (disch := decide) only [extract_high, extract_low, extract_all, Nat.reduceSub, List.headD_cons, decLdW]

theorem ldWX d b slot off acq : Statement (.ldWX d b slot off acq) := by
  intro h x w l e
  cases e
  refine of_fields (op := 0x85) (dec := decLdWX) ?_ rfl rfl (fun w x h => by rw [decodeFields, h]; rfl) ?_ h
  · simp (disch := decide) only [extract_high, extract_all, Nat.reduceSub]; rfl
  simp (disch := decide) only [extract_high, extract_low, extract_all, Nat.reduceSub, List.headD_cons, decLdWX]
  all_goals simp [readBool_bits]

theorem ldD d b slot off : Statement (.ldD d b slot off) := by
  intro h x w l e
  cases e
  refine of_fields (op := 0x86) (dec := decLdD) ?_ rfl rfl (fun w x h => by rw [decodeFields, h]; rfl) ?_ h
  · simp (disch := decide) only [extract_high, extract_all, Nat.reduceSub]; rfl
  simp (disch := decide) only [extract_high, extract_low, extract_all, Nat.reduceSub, List.headD_cons, decLdD]

theorem ldDX d b slot off acq : Statement (.ldDX d b slot off acq) := by
  intro h x w l e
  cases e
  refine of_fields (op := 0x87) (dec := decLdDX) ?_ rfl rfl (fun w x h => by rw [decodeFields, h]; rfl) ?_ h
  · simp (disch := decide) only [extract_high, extract_all, Nat.reduceSub]; rfl
  simp (disch := decide) only [extract_high, extract_low, extract_all, Nat.reduceSub, List.headD_cons, decLdDX]
  all_goals simp [readBool_bits]

theorem ldQ d b slot off : Statement (.ldQ d b slot off) := by
  intro h x w l e
  cases e
  refine of_fields (op := 0x88) (dec := decLdQ) ?_ rfl rfl (fun w x h => by rw [decodeFields, h]; rfl) ?_ h
  · simp (disch := decide) only [extract_high, extract_all, Nat.reduceSub]; rfl
  simp (disch := decide) only [extract_high, extract_low, extract_all, Nat.reduceSub, List.headD_cons, decLdQ]

theorem ldQX d b slot off acq : Statement (.ldQX d b slot off acq) := by
  intro h x w l e
  cases e
  refine of_fields (op := 0x89) (dec := decLdQX) ?_ rfl rfl (fun w x h => by rw [decodeFields, h]; rfl) ?_ h
  · simp (disch := decide) only [extract_high, extract_all, Nat.reduceSub]; rfl
  simp (disch := decide) only [extract_high, extract_low, extract_all, Nat.reduceSub, List.headD_cons, decLdQX]
  all_goals simp [readBool_bits]

theorem stB d b slot off : Statement (.stB d b slot off) := by
  intro h x w l e
  cases e
  refine of_fields (op := 0x8A) (dec := decStB) ?_ rfl rfl (fun w x h => by rw [decodeFields, h]; rfl) ?_ h
  · simp (disch := decide) only [extract_high, extract_all, Nat.reduceSub]; rfl
  simp (disch := decide) only [extract_high, extract_low, extract_all, Nat.reduceSub, List.headD_cons, decStB]

theorem stBX d b slot off rel : Statement (.stBX d b slot off rel) := by
  intro h x w l e
  cases e
  refine of_fields (op := 0x8B) (dec := decStBX) ?_ rfl rfl (fun w x h => by rw [decodeFields, h]; rfl) ?_ h
  · simp (disch := decide) only [extract_high, extract_all, Nat.reduceSub]; rfl
  simp (disch := decide) only [extract_high, extract_low, extract_all, Nat.reduceSub, List.headD_cons, decStBX]
  all_goals simp [readBool_bits]

theorem stH d b slot off : Statement (.stH d b slot off) := by
  intro h x w l e
  cases e
  refine of_fields (op := 0x8C) (dec := decStH) ?_ rfl rfl (fun w x h => by rw [decodeFields, h]; rfl) ?_ h
  · simp (disch := decide) only [extract_high, extract_all, Nat.reduceSub]; rfl
  simp (disch := decide) only [extract_high, extract_low, extract_all, Nat.reduceSub, List.headD_cons, decStH]

theorem stHX d b slot off rel : Statement (.stHX d b slot off rel) := by
  intro h x w l e
  cases e
  refine of_fields (op := 0x8D) (dec := decStHX) ?_ rfl rfl (fun w x h => by rw [decodeFields, h]; rfl) ?_ h
  · simp (disch := decide) only [extract_high, extract_all, Nat.reduceSub]; rfl
  simp (disch := decide) only [extract_high, extract_low, extract_all, Nat.reduceSub, List.headD_cons, decStHX]
  all_goals simp [readBool_bits]

theorem stW d b slot off : Statement (.stW d b slot off) := by
  intro h x w l e
  cases e
  refine of_fields (op := 0x8E) (dec := decStW) ?_ rfl rfl (fun w x h => by rw [decodeFields, h]; rfl) ?_ h
  · simp (disch := decide) only [extract_high, extract_all, Nat.reduceSub]; rfl
  simp (disch := decide) only [extract_high, extract_low, extract_all, Nat.reduceSub, List.headD_cons, decStW]

theorem stWX d b slot off rel : Statement (.stWX d b slot off rel) := by
  intro h x w l e
  cases e
  refine of_fields (op := 0x8F) (dec := decStWX) ?_ rfl rfl (fun w x h => by rw [decodeFields, h]; rfl) ?_ h
  · simp (disch := decide) only [extract_high, extract_all, Nat.reduceSub]; rfl
  simp (disch := decide) only [extract_high, extract_low, extract_all, Nat.reduceSub, List.headD_cons, decStWX]
  all_goals simp [readBool_bits]

theorem stD d b slot off : Statement (.stD d b slot off) := by
  intro h x w l e
  cases e
  refine of_fields (op := 0x90) (dec := decStD) ?_ rfl rfl (fun w x h => by rw [decodeFields, h]; rfl) ?_ h
  · simp (disch := decide) only [extract_high, extract_all, Nat.reduceSub]; rfl
  simp (disch := decide) only [extract_high, extract_low, extract_all, Nat.reduceSub, List.headD_cons, decStD]

theorem stDX d b slot off fr rel : Statement (.stDX d b slot off fr rel) := by
  intro h x w l e
  cases e
  refine of_fields (op := 0x91) (dec := decStDX) ?_ rfl rfl (fun w x h => by rw [decodeFields, h]; rfl) ?_ h
  · simp (disch := decide) only [extract_high, extract_all, Nat.reduceSub]; rfl
  simp (disch := decide) only [extract_high, extract_low, extract_all, Nat.reduceSub, List.headD_cons, decStDX]
  all_goals simp [readBool_bits]

theorem stQ d b slot off : Statement (.stQ d b slot off) := by
  intro h x w l e
  cases e
  refine of_fields (op := 0x92) (dec := decStQ) ?_ rfl rfl (fun w x h => by rw [decodeFields, h]; rfl) ?_ h
  · simp (disch := decide) only [extract_high, extract_all, Nat.reduceSub]; rfl
  simp (disch := decide) only [extract_high, extract_low, extract_all, Nat.reduceSub, List.headD_cons, decStQ]

theorem stQX d b slot off rel : Statement (.stQX d b slot off rel) := by
  intro h x w l e
  cases e
  refine of_fields (op := 0x93) (dec := decStQX) ?_ rfl rfl (fun w x h => by rw [decodeFields, h]; rfl) ?_ h
  · simp (disch := decide) only [extract_high, extract_all, Nat.reduceSub]; rfl
  simp (disch := decide) only [extract_high, extract_low, extract_all, Nat.reduceSub, List.headD_cons, decStQX]
  all_goals simp [readBool_bits]

theorem ldt d b slot off : Statement (.ldt d b slot off) := by
  intro h x w l e
  cases e
  refine of_fields (op := 0x94) (dec := decLdt) ?_ rfl rfl (fun w x h => by rw [decodeFields, h]; rfl) ?_ h
  · simp (disch := decide) only [extract_high, extract_all, Nat.reduceSub]; rfl
  simp (disch := decide) only [extract_high, extract_low, extract_all, Nat.reduceSub, List.headD_cons, decLdt]

theorem atom d b slot off size c op rel acq : Statement (.atom d b slot off size c op rel acq) := by
  intro h x w l e
  cases e
  refine of_fields (op := 0x97) (dec := decAtom) ?_ rfl rfl (fun w x h => by rw [decodeFields, h]; rfl) ?_ h
  · simp (disch := decide) only [extract_high, extract_all, Nat.reduceSub]; rfl
  simp (disch := decide) only [extract_high, extract_low, extract_all, Nat.reduceSub, List.headD_cons, decAtom]
  all_goals simp [readAtomSize_bits, readAtomOp_bits, readBool_bits]

theorem fence ord scope : Statement (.fence ord scope) := by
  intro h x w l e
  cases e
  refine of_fields (op := 0x98) (dec := decFence) ?_ rfl rfl (fun w x h => by rw [decodeFields, h]; rfl) ?_ h
  · simp (disch := decide) only [extract_high, extract_all, Nat.reduceSub]; rfl
  simp (disch := decide) only [extract_high, extract_low, extract_all, Nat.reduceSub, List.headD_cons, decFence]
  all_goals simp [readFenceOrder_bits, readFenceScope_bits]

theorem accrd d a : Statement (.accrd d a) := by
  intro h x w l e
  cases e
  refine of_fields (op := 0x9A) (dec := decAccrd) ?_ rfl rfl (fun w x h => by rw [decodeFields, h]; rfl) ?_ h
  · simp (disch := decide) only [extract_high, extract_all, Nat.reduceSub]; rfl
  simp (disch := decide) only [extract_high, extract_low, extract_all, Nat.reduceSub, List.headD_cons, decAccrd]
  all_goals simp

theorem accwr a b : Statement (.accwr a b) := by
  intro h x w l e
  cases e
  refine of_fields (op := 0x9C) (dec := decAccwr) ?_ rfl rfl (fun w x h => by rw [decodeFields, h]; rfl) ?_ h
  · simp (disch := decide) only [extract_high, extract_all, Nat.reduceSub]; rfl
  simp (disch := decide) only [extract_high, extract_low, extract_all, Nat.reduceSub, List.headD_cons, decAccwr]
  all_goals simp

theorem copy g nb slot keyovr reseal arrive : Statement (.copy g nb slot keyovr reseal arrive) := by
  intro h x w l e
  cases e
  refine of_fields (op := 0xA0) (dec := decCopy) ?_ rfl rfl (fun w x h => by rw [decodeFields, h]; rfl) ?_ h
  · simp (disch := decide) only [extract_high, extract_all, Nat.reduceSub]; rfl
  simp (disch := decide) only [extract_high, extract_low, extract_all, Nat.reduceSub, List.headD_cons, decCopy]
  all_goals simp [readBool_bits]

theorem copyc g nb slot keyovr reseal arrive : Statement (.copyc g nb slot keyovr reseal arrive) := by
  intro h x w l e
  cases e
  refine of_fields (op := 0xA2) (dec := decCopyc) ?_ rfl rfl (fun w x h => by rw [decodeFields, h]; rfl) ?_ h
  · simp (disch := decide) only [extract_high, extract_all, Nat.reduceSub]; rfl
  simp (disch := decide) only [extract_high, extract_low, extract_all, Nat.reduceSub, List.headD_cons, decCopyc]
  all_goals simp [readBool_bits]

theorem nbinit a nb slot : Statement (.nbinit a nb slot) := by
  intro h x w l e
  cases e
  refine of_fields (op := 0xA4) (dec := decNbinit) ?_ rfl rfl (fun w x h => by rw [decodeFields, h]; rfl) ?_ h
  · simp (disch := decide) only [extract_high, extract_all, Nat.reduceSub]; rfl
  simp (disch := decide) only [extract_high, extract_low, extract_all, Nat.reduceSub, List.headD_cons, decNbinit]
  all_goals simp

theorem nbarr nb slot : Statement (.nbarr nb slot) := by
  intro h x w l e
  cases e
  refine of_fields (op := 0xA6) (dec := decNbarr) ?_ rfl rfl (fun w x h => by rw [decodeFields, h]; rfl) ?_ h
  · simp (disch := decide) only [extract_high, extract_all, Nat.reduceSub]; rfl
  simp (disch := decide) only [extract_high, extract_low, extract_all, Nat.reduceSub, List.headD_cons, decNbarr]
  all_goals simp

theorem nbwait d nb slot det : Statement (.nbwait d nb slot det) := by
  intro h x w l e
  cases e
  refine of_fields (op := 0xA8) (dec := decNbwait) ?_ rfl rfl (fun w x h => by rw [decodeFields, h]; rfl) ?_ h
  · simp (disch := decide) only [extract_high, extract_all, Nat.reduceSub]; rfl
  simp (disch := decide) only [extract_high, extract_low, extract_all, Nat.reduceSub, List.headD_cons, decNbwait]
  all_goals simp [readBool_bits]

theorem nbsync d nb slot det : Statement (.nbsync d nb slot det) := by
  intro h x w l e
  cases e
  refine of_fields (op := 0xAA) (dec := decNbsync) ?_ rfl rfl (fun w x h => by rw [decodeFields, h]; rfl) ?_ h
  · simp (disch := decide) only [extract_high, extract_all, Nat.reduceSub]; rfl
  simp (disch := decide) only [extract_high, extract_low, extract_all, Nat.reduceSub, List.headD_cons, decNbsync]
  all_goals simp [readBool_bits]

theorem nbinv nb slot : Statement (.nbinv nb slot) := by
  intro h x w l e
  cases e
  refine of_fields (op := 0xAC) (dec := decNbinv) ?_ rfl rfl (fun w x h => by rw [decodeFields, h]; rfl) ?_ h
  · simp (disch := decide) only [extract_high, extract_all, Nat.reduceSub]; rfl
  simp (disch := decide) only [extract_high, extract_low, extract_all, Nat.reduceSub, List.headD_cons, decNbinv]
  all_goals simp

theorem semsig g slot op : Statement (.semsig g slot op) := by
  intro h x w l e
  cases e
  refine of_fields (op := 0xAE) (dec := decSemsig) ?_ rfl rfl (fun w x h => by rw [decodeFields, h]; rfl) ?_ h
  · simp (disch := decide) only [extract_high, extract_all, Nat.reduceSub]; rfl
  simp (disch := decide) only [extract_high, extract_low, extract_all, Nat.reduceSub, List.headD_cons, decSemsig]
  all_goals simp [readSemOp_bits]

theorem spawn g slot : Statement (.spawn g slot) := by
  intro h x w l e
  cases e
  refine of_fields (op := 0xB0) (dec := decSpawn) ?_ rfl rfl (fun w x h => by rw [decodeFields, h]; rfl) ?_ h
  · simp (disch := decide) only [extract_high, extract_all, Nat.reduceSub]; rfl
  simp (disch := decide) only [extract_high, extract_low, extract_all, Nat.reduceSub, List.headD_cons, decSpawn]
  all_goals simp

theorem cancel level : Statement (.cancel level) := by
  intro h x w l e
  cases e
  refine of_fields (op := 0xB2) (dec := decCancel) ?_ rfl rfl (fun w x h => by rw [decodeFields, h]; rfl) ?_ h
  · simp (disch := decide) only [extract_high, extract_all, Nat.reduceSub]; rfl
  simp (disch := decide) only [extract_high, extract_low, extract_all, Nat.reduceSub, List.headD_cons, decCancel]
  all_goals simp [readCancelLevel_bits]

theorem mark tag : Statement (.mark tag) := by
  intro h x w l e
  cases e
  refine of_fields (op := 0xB4) (dec := decMark) ?_ rfl rfl (fun w x h => by rw [decodeFields, h]; rfl) ?_ h
  · simp (disch := decide) only [extract_high, extract_all, Nat.reduceSub]; rfl
  simp (disch := decide) only [extract_high, extract_low, extract_all, Nat.reduceSub, List.headD_cons, decMark]
  all_goals simp

theorem cut d tag : Statement (.cut d tag) := by
  intro h x w l e
  cases e
  refine of_fields (op := 0xB6) (dec := decCut) ?_ rfl rfl (fun w x h => by rw [decodeFields, h]; rfl) ?_ h
  · simp (disch := decide) only [extract_high, extract_all, Nat.reduceSub]; rfl
  simp (disch := decide) only [extract_high, extract_low, extract_all, Nat.reduceSub, List.headD_cons, decCut]

theorem graft g slot : Statement (.graft g slot) := by
  intro h x w l e
  cases e
  refine of_fields (op := 0xB8) (dec := decGraft) ?_ rfl rfl (fun w x h => by rw [decodeFields, h]; rfl) ?_ h
  · simp (disch := decide) only [extract_high, extract_all, Nat.reduceSub]; rfl
  simp (disch := decide) only [extract_high, extract_low, extract_all, Nat.reduceSub, List.headD_cons, decGraft]
  all_goals simp

theorem slfree g slot : Statement (.slfree g slot) := by
  intro h x w l e
  cases e
  refine of_fields (op := 0xBA) (dec := decSlfree) ?_ rfl rfl (fun w x h => by rw [decodeFields, h]; rfl) ?_ h
  · simp (disch := decide) only [extract_high, extract_all, Nat.reduceSub]; rfl
  simp (disch := decide) only [extract_high, extract_low, extract_all, Nat.reduceSub, List.headD_cons, decSlfree]
  all_goals simp

theorem mstart g slot : Statement (.mstart g slot) := by
  intro h x w l e
  cases e
  refine of_fields (op := 0xBC) (dec := decMstart) ?_ rfl rfl (fun w x h => by rw [decodeFields, h]; rfl) ?_ h
  · simp (disch := decide) only [extract_high, extract_all, Nat.reduceSub]; rfl
  simp (disch := decide) only [extract_high, extract_low, extract_all, Nat.reduceSub, List.headD_cons, decMstart]
  all_goals simp

theorem ifL a : Statement (.ifL a) := by
  intro h x w l e
  cases e
  refine of_fields (op := 0xC0) (dec := decIfL) ?_ rfl rfl (fun w x h => by rw [decodeFields, h]; rfl) ?_ h
  · simp (disch := decide) only [extract_high, extract_all, Nat.reduceSub]; rfl
  simp (disch := decide) only [extract_high, extract_low, extract_all, Nat.reduceSub, List.headD_cons, decIfL]
  all_goals simp

theorem elseL : Statement (.elseL) := by
  intro h x w l e
  cases e
  refine of_fields (op := 0xC2) (dec := decElseL) ?_ rfl rfl (fun w x h => by rw [decodeFields, h]; rfl) ?_ h
  · simp (disch := decide) only [extract_high, extract_all, Nat.reduceSub]; rfl
  simp (disch := decide) only [extract_high, extract_low, extract_all, Nat.reduceSub, List.headD_cons, decElseL]
  all_goals simp

theorem endifL : Statement (.endifL) := by
  intro h x w l e
  cases e
  refine of_fields (op := 0xC4) (dec := decEndifL) ?_ rfl rfl (fun w x h => by rw [decodeFields, h]; rfl) ?_ h
  · simp (disch := decide) only [extract_high, extract_all, Nat.reduceSub]; rfl
  simp (disch := decide) only [extract_high, extract_low, extract_all, Nat.reduceSub, List.headD_cons, decEndifL]
  all_goals simp

theorem loopL : Statement (.loopL) := by
  intro h x w l e
  cases e
  refine of_fields (op := 0xC6) (dec := decLoopL) ?_ rfl rfl (fun w x h => by rw [decodeFields, h]; rfl) ?_ h
  · simp (disch := decide) only [extract_high, extract_all, Nat.reduceSub]; rfl
  simp (disch := decide) only [extract_high, extract_low, extract_all, Nat.reduceSub, List.headD_cons, decLoopL]
  all_goals simp

theorem breakL p n : Statement (.breakL p n) := by
  intro h x w l e
  cases e
  refine of_fields (op := 0xC8) (dec := decBreakL) ?_ rfl rfl (fun w x h => by rw [decodeFields, h]; rfl) ?_ h
  · simp (disch := decide) only [extract_high, extract_all, Nat.reduceSub]; rfl
  simp (disch := decide) only [extract_high, extract_low, extract_all, Nat.reduceSub, List.headD_cons, decBreakL]
  all_goals simp

theorem contL p n : Statement (.contL p n) := by
  intro h x w l e
  cases e
  refine of_fields (op := 0xCA) (dec := decContL) ?_ rfl rfl (fun w x h => by rw [decodeFields, h]; rfl) ?_ h
  · simp (disch := decide) only [extract_high, extract_all, Nat.reduceSub]; rfl
  simp (disch := decide) only [extract_high, extract_low, extract_all, Nat.reduceSub, List.headD_cons, decContL]
  all_goals simp

theorem endloop off : Statement (.endloop off) := by
  intro h x w l e
  cases e
  refine of_fields (op := 0xCC) (dec := decEndloop) ?_ rfl rfl (fun w x h => by rw [decodeFields, h]; rfl) ?_ h
  · simp (disch := decide) only [extract_high, extract_all, Nat.reduceSub]; rfl
  simp (disch := decide) only [extract_high, extract_low, extract_all, Nat.reduceSub, List.headD_cons, decEndloop]
  all_goals simp

theorem bra off : Statement (.bra off) := by
  intro h x w l e
  cases e
  refine of_fields (op := 0xCE) (dec := decBra) ?_ rfl rfl (fun w x h => by rw [decodeFields, h]; rfl) ?_ h
  · simp (disch := decide) only [extract_high, extract_all, Nat.reduceSub]; rfl
  simp (disch := decide) only [extract_high, extract_low, extract_all, Nat.reduceSub, List.headD_cons, decBra]
  all_goals simp

theorem brv off p off2 : Statement (.brv off p off2) := by
  intro h x w l e
  cases e
  refine of_fields (op := 0xD1) (dec := decBrv) ?_ rfl rfl (fun w x h => by rw [decodeFields, h]; rfl) ?_ h
  · simp (disch := decide) only [extract_high, extract_all, Nat.reduceSub]; rfl
  simp (disch := decide) only [extract_high, extract_low, extract_all, Nat.reduceSub, List.headD_cons, decBrv]
  all_goals simp

theorem call off : Statement (.call off) := by
  intro h x w l e
  cases e
  refine of_fields (op := 0xD2) (dec := decCall) ?_ rfl rfl (fun w x h => by rw [decodeFields, h]; rfl) ?_ h
  · simp (disch := decide) only [extract_high, extract_all, Nat.reduceSub]; rfl
  simp (disch := decide) only [extract_high, extract_low, extract_all, Nat.reduceSub, List.headD_cons, decCall]
  all_goals simp

theorem ret : Statement (.ret) := by
  intro h x w l e
  cases e
  refine of_fields (op := 0xD4) (dec := decRet) ?_ rfl rfl (fun w x h => by rw [decodeFields, h]; rfl) ?_ h
  · simp (disch := decide) only [extract_high, extract_all, Nat.reduceSub]; rfl
  simp (disch := decide) only [extract_high, extract_low, extract_all, Nat.reduceSub, List.headD_cons, decRet]
  all_goals simp

theorem jmpi a : Statement (.jmpi a) := by
  intro h x w l e
  cases e
  refine of_fields (op := 0xD6) (dec := decJmpi) ?_ rfl rfl (fun w x h => by rw [decodeFields, h]; rfl) ?_ h
  · simp (disch := decide) only [extract_high, extract_all, Nat.reduceSub]; rfl
  simp (disch := decide) only [extract_high, extract_low, extract_all, Nat.reduceSub, List.headD_cons, decJmpi]
  all_goals simp

theorem exit : Statement (.exit) := by
  intro h x w l e
  cases e
  refine of_fields (op := 0xD8) (dec := decExit) ?_ rfl rfl (fun w x h => by rw [decodeFields, h]; rfl) ?_ h
  · simp (disch := decide) only [extract_high, extract_all, Nat.reduceSub]; rfl
  simp (disch := decide) only [extract_high, extract_low, extract_all, Nat.reduceSub, List.headD_cons, decExit]
  all_goals simp

theorem nop : Statement (.nop) := by
  intro h x w l e
  cases e
  refine of_fields (op := 0xDA) (dec := decNop) ?_ rfl rfl (fun w x h => by rw [decodeFields, h]; rfl) ?_ h
  · simp (disch := decide) only [extract_high, extract_all, Nat.reduceSub]; rfl
  simp (disch := decide) only [extract_high, extract_low, extract_all, Nat.reduceSub, List.headD_cons, decNop]
  all_goals simp

theorem pause imm : Statement (.pause imm) := by
  intro h x w l e
  cases e
  refine of_fields (op := 0xDC) (dec := decPause) ?_ rfl rfl (fun w x h => by rw [decodeFields, h]; rfl) ?_ h
  · simp (disch := decide) only [extract_high, extract_all, Nat.reduceSub]; rfl
  simp (disch := decide) only [extract_high, extract_low, extract_all, Nat.reduceSub, List.headD_cons, decPause]
  all_goals simp

theorem sysr d n : Statement (.sysr d n) := by
  intro h x w l e
  cases e
  refine of_fields (op := 0xE0) (dec := decSysr) ?_ rfl rfl (fun w x h => by rw [decodeFields, h]; rfl) ?_ h
  · simp (disch := decide) only [extract_high, extract_all, Nat.reduceSub]; rfl
  simp (disch := decide) only [extract_high, extract_low, extract_all, Nat.reduceSub, List.headD_cons, decSysr]
  all_goals simp [readSysReg_bits]

theorem sysw src n : Statement (.sysw src n) := by
  intro h x w l e
  cases e
  refine of_fields (op := 0xE2) (dec := decSysw) ?_ rfl rfl (fun w x h => by rw [decodeFields, h]; rfl) ?_ h
  · simp (disch := decide) only [extract_high, extract_all, Nat.reduceSub]; rfl
  simp (disch := decide) only [extract_high, extract_low, extract_all, Nat.reduceSub, List.headD_cons, decSysw]
  all_goals simp [readSysReg_bits]

theorem trap imm : Statement (.trap imm) := by
  intro h x w l e
  cases e
  refine of_fields (op := 0xE4) (dec := decTrap) ?_ rfl rfl (fun w x h => by rw [decodeFields, h]; rfl) ?_ h
  · simp (disch := decide) only [extract_high, extract_all, Nat.reduceSub]; rfl
  simp (disch := decide) only [extract_high, extract_low, extract_all, Nat.reduceSub, List.headD_cons, decTrap]
  all_goals simp

theorem rett : Statement (.rett) := by
  intro h x w l e
  cases e
  refine of_fields (op := 0xE6) (dec := decRett) ?_ rfl rfl (fun w x h => by rw [decodeFields, h]; rfl) ?_ h
  · simp (disch := decide) only [extract_high, extract_all, Nat.reduceSub]; rfl
  simp (disch := decide) only [extract_high, extract_low, extract_all, Nat.reduceSub, List.headD_cons, decRett]
  all_goals simp

theorem bkpt imm : Statement (.bkpt imm) := by
  intro h x w l e
  cases e
  refine of_fields (op := 0xE8) (dec := decBkpt) ?_ rfl rfl (fun w x h => by rw [decodeFields, h]; rfl) ?_ h
  · simp (disch := decide) only [extract_high, extract_all, Nat.reduceSub]; rfl
  simp (disch := decide) only [extract_high, extract_low, extract_all, Nat.reduceSub, List.headD_cons, decBkpt]
  all_goals simp

theorem wfi d a : Statement (.wfi d a) := by
  intro h x w l e
  cases e
  refine of_fields (op := 0xEA) (dec := decWfi) ?_ rfl rfl (fun w x h => by rw [decodeFields, h]; rfl) ?_ h
  · simp (disch := decide) only [extract_high, extract_all, Nat.reduceSub]; rfl
  simp (disch := decide) only [extract_high, extract_low, extract_all, Nat.reduceSub, List.headD_cons, decWfi]
  all_goals simp

theorem icinv scope : Statement (.icinv scope) := by
  intro h x w l e
  cases e
  refine of_fields (op := 0xEC) (dec := decIcinv) ?_ rfl rfl (fun w x h => by rw [decodeFields, h]; rfl) ?_ h
  · simp (disch := decide) only [extract_high, extract_all, Nat.reduceSub]; rfl
  simp (disch := decide) only [extract_high, extract_low, extract_all, Nat.reduceSub, List.headD_cons, decIcinv]
  all_goals simp [readInvScope_bits]

theorem tlbinv a b scope ng : Statement (.tlbinv a b scope ng) := by
  intro h x w l e
  cases e
  refine of_fields (op := 0xEF) (dec := decTlbinv) ?_ rfl rfl (fun w x h => by rw [decodeFields, h]; rfl) ?_ h
  · simp (disch := decide) only [extract_high, extract_all, Nat.reduceSub]; rfl
  simp (disch := decide) only [extract_high, extract_low, extract_all, Nat.reduceSub, List.headD_cons, decTlbinv]
  all_goals simp [readInvScope_bits, readBool_bits]

theorem mclaim a b : Statement (.mclaim a b) := by
  intro h x w l e
  cases e
  refine of_fields (op := 0xF0) (dec := decMclaim) ?_ rfl rfl (fun w x h => by rw [decodeFields, h]; rfl) ?_ h
  · simp (disch := decide) only [extract_high, extract_all, Nat.reduceSub]; rfl
  simp (disch := decide) only [extract_high, extract_low, extract_all, Nat.reduceSub, List.headD_cons, decMclaim]
  all_goals simp

theorem mrel a b : Statement (.mrel a b) := by
  intro h x w l e
  cases e
  refine of_fields (op := 0xF2) (dec := decMrel) ?_ rfl rfl (fun w x h => by rw [decodeFields, h]; rfl) ?_ h
  · simp (disch := decide) only [extract_high, extract_all, Nat.reduceSub]; rfl
  simp (disch := decide) only [extract_high, extract_low, extract_all, Nat.reduceSub, List.headD_cons, decMrel]
  all_goals simp

theorem mload a sc tr size stride off : Statement (.mload a sc tr size stride off) := by
  intro h x w l e
  cases e
  refine of_fields (op := 0xF5) (dec := decMload) ?_ rfl rfl (fun w x h => by rw [decodeFields, h]; rfl) ?_ h
  · simp (disch := decide) only [extract_high, extract_all, Nat.reduceSub]; rfl
  simp (disch := decide) only [extract_high, extract_low, extract_all, Nat.reduceSub, List.headD_cons, decMload]
  all_goals simp [readMSize_bits, readBool_bits]

theorem mstore t sc f stride off : Statement (.mstore t sc f stride off) := by
  intro h x w l e
  cases e
  refine of_fields (op := 0xF7) (dec := decMstore) ?_ rfl rfl (fun w x h => by rw [decodeFields, h]; rfl) ?_ h
  · simp (disch := decide) only [extract_high, extract_all, Nat.reduceSub]; rfl
  simp (disch := decide) only [extract_high, extract_low, extract_all, Nat.reduceSub, List.headD_cons, decMstore]
  all_goals simp [readMStFmt_bits, readBool_bits]

theorem mma t a b f : Statement (.mma t a b f) := by
  intro h x w l e
  cases e
  refine of_fields (op := 0xF8) (dec := decMma) ?_ rfl rfl (fun w x h => by rw [decodeFields, h]; rfl) ?_ h
  · simp (disch := decide) only [extract_high, extract_all, Nat.reduceSub]; rfl
  simp (disch := decide) only [extract_high, extract_low, extract_all, Nat.reduceSub, List.headD_cons, decMma]
  all_goals simp [readMmaFmt_bits]

theorem mzero t : Statement (.mzero t) := by
  intro h x w l e
  cases e
  refine of_fields (op := 0xFA) (dec := decMzero) ?_ rfl rfl (fun w x h => by rw [decodeFields, h]; rfl) ?_ h
  · simp (disch := decide) only [extract_high, extract_all, Nat.reduceSub]; rfl
  simp (disch := decide) only [extract_high, extract_low, extract_all, Nat.reduceSub, List.headD_cons, decMzero]
  all_goals simp

theorem mwait k : Statement (.mwait k) := by
  intro h x w l e
  cases e
  refine of_fields (op := 0xFC) (dec := (fun w x => (decMwait w x).or (decMsig w x))) ?_ rfl rfl (fun w x h => by rw [decodeFields, h]; rfl) ?_ h
  · simp (disch := decide) only [extract_high, extract_all, Nat.reduceSub]; rfl
  simp (disch := decide) only [extract_high, extract_low, extract_all, Nat.reduceSub, List.headD_cons, decMwait, decMsig]
  all_goals simp

theorem msig k : Statement (.msig k) := by
  intro h x w l e
  cases e
  refine of_fields (op := 0xFC) (dec := (fun w x => (decMwait w x).or (decMsig w x))) ?_ rfl rfl (fun w x h => by rw [decodeFields, h]; rfl) ?_ h
  · simp (disch := decide) only [extract_high, extract_all, Nat.reduceSub]; rfl
  have hne : BitVec.extractLsb' 0 16 (0xFC#8 ++ 0#4 ++ k ++ 0#12 ++ 8#4 : BitVec 32) ≠ 0 := by
    intro hz
    have h4 := congrArg (fun v : BitVec 16 => v.extractLsb' 0 4) hz
    simp only [extract_prefix _ 16 4 (by decide)] at h4
    rw [show BitVec.extractLsb' 0 4 (0xFC#8 ++ 0#4 ++ k ++ 0#12 ++ 8#4 : BitVec 32) = 8#4 by
      simp (disch := decide) only [extract_low, extract_all]] at h4
    exact absurd h4 (by decide)
  have hm : decMwait (0xFC#8 ++ 0#4 ++ k ++ 0#12 ++ 8#4 : BitVec 32) x = none := by simp only [decMwait]; exact if_neg (fun hz => hne hz.2)
  simp only [List.headD_nil, hm, Option.none_or]
  simp (disch := decide) only [extract_high, extract_low, extract_all, Nat.reduceSub, decMsig]
  all_goals simp

theorem mend : Statement (.mend) := by
  intro h x w l e
  cases e
  refine of_fields (op := 0xFE) (dec := decMend) ?_ rfl rfl (fun w x h => by rw [decodeFields, h]; rfl) ?_ h
  · simp (disch := decide) only [extract_high, extract_all, Nat.reduceSub]; rfl
  simp (disch := decide) only [extract_high, extract_low, extract_all, Nat.reduceSub, List.headD_cons, decMend]
  all_goals simp

theorem clauseFetch t : Statement (.clauseFetch t) := by intro _ _ _ _ e; cases e

theorem resultLanding t k : Statement (.resultLanding t k) := by intro _ _ _ _ e; cases e

theorem registerRefill t r : Statement (.registerRefill t r) := by intro _ _ _ _ e; cases e

theorem pauseExpiry t : Statement (.pauseExpiry t) := by intro _ _ _ _ e; cases e

theorem launchPacket q : Statement (.launchPacket q) := by intro _ _ _ _ e; cases e

theorem copyPacket q : Statement (.copyPacket q) := by intro _ _ _ _ e; cases e

theorem graphPacket q : Statement (.graphPacket q) := by intro _ _ _ _ e; cases e

theorem waitPacket q : Statement (.waitPacket q) := by intro _ _ _ _ e; cases e

theorem signalPacket q : Statement (.signalPacket q) := by intro _ _ _ _ e; cases e

theorem signalPerform q n : Statement (.signalPerform q n) := by intro _ _ _ _ e; cases e

theorem phasePacket q : Statement (.phasePacket q) := by intro _ _ _ _ e; cases e

theorem cancelPacket q : Statement (.cancelPacket q) := by intro _ _ _ _ e; cases e

theorem timefencePacket q : Statement (.timefencePacket q) := by intro _ _ _ _ e; cases e

theorem timefenceRelease q : Statement (.timefenceRelease q) := by intro _ _ _ _ e; cases e

theorem nopPacket q : Statement (.nopPacket q) := by intro _ _ _ _ e; cases e

theorem packetReread q : Statement (.packetReread q) := by intro _ _ _ _ e; cases e

theorem queueStall q : Statement (.queueStall q) := by intro _ _ _ _ e; cases e

theorem waitReread q : Statement (.waitReread q) := by intro _ _ _ _ e; cases e

theorem waitSemStall q : Statement (.waitSemStall q) := by intro _ _ _ _ e; cases e

theorem heldLaunchStart : Statement (.heldLaunchStart) := by intro _ _ _ _ e; cases e

theorem workgroupAdmission p : Statement (.workgroupAdmission p) := by intro _ _ _ _ e; cases e

theorem passedOverBlock l : Statement (.passedOverBlock l) := by intro _ _ _ _ e; cases e

theorem ophintHoldEnd l : Statement (.ophintHoldEnd l) := by intro _ _ _ _ e; cases e

theorem workgroupEnd g : Statement (.workgroupEnd g) := by intro _ _ _ _ e; cases e

theorem cancelNoticeTimeout t : Statement (.cancelNoticeTimeout t) := by intro _ _ _ _ e; cases e

theorem preemptWrite n v : Statement (.preemptWrite n v) := by intro _ _ _ _ e; cases e

theorem foldExpansion core : Statement (.foldExpansion core) := by intro _ _ _ _ e; cases e

theorem workgroupSave g : Statement (.workgroupSave g) := by intro _ _ _ _ e; cases e

theorem workgroupRestore g core : Statement (.workgroupRestore g core) := by intro _ _ _ _ e; cases e

theorem sliceEnd n : Statement (.sliceEnd n) := by intro _ _ _ _ e; cases e

theorem tenantSwitch c n : Statement (.tenantSwitch c n) := by intro _ _ _ _ e; cases e

theorem overrunSave n us : Statement (.overrunSave n us) := by intro _ _ _ _ e; cases e

theorem overrunReset n us : Statement (.overrunReset n us) := by intro _ _ _ _ e; cases e

theorem walkCompletion core part va wr : Statement (.walkCompletion core part va wr) := by intro _ _ _ _ e; cases e

theorem copyTile k : Statement (.copyTile k) := by intro _ _ _ _ e; cases e

theorem faultRetry k : Statement (.faultRetry k) := by intro _ _ _ _ e; cases e

theorem faultUnresolved k : Statement (.faultUnresolved k) := by intro _ _ _ _ e; cases e

theorem semsigPerform k : Statement (.semsigPerform k) := by intro _ _ _ _ e; cases e

theorem tokenRefill : Statement (.tokenRefill) := by intro _ _ _ _ e; cases e

theorem openTileTimeout tile : Statement (.openTileTimeout tile) := by intro _ _ _ _ e; cases e

theorem breezeTile corrected : Statement (.breezeTile corrected) := by intro _ _ _ _ e; cases e

theorem breezeClr : Statement (.breezeClr) := by intro _ _ _ _ e; cases e

theorem tlbinvCompletion t : Statement (.tlbinvCompletion t) := by intro _ _ _ _ e; cases e

theorem icinvCompletion t : Statement (.icinvCompletion t) := by intro _ _ _ _ e; cases e

theorem wfiResume t : Statement (.wfiResume t) := by intro _ _ _ _ e; cases e

theorem reservationEntryGrant t : Statement (.reservationEntryGrant t) := by intro _ _ _ _ e; cases e

theorem streamAdmission c : Statement (.streamAdmission c) := by intro _ _ _ _ e; cases e

theorem streamClauseFetch st : Statement (.streamClauseFetch st) := by intro _ _ _ _ e; cases e

theorem streamOpRetire st k : Statement (.streamOpRetire st k) := by intro _ _ _ _ e; cases e

theorem ballastPass c : Statement (.ballastPass c) := by intro _ _ _ _ e; cases e

theorem allowanceRegulation n watts : Statement (.allowanceRegulation n watts) := by intro _ _ _ _ e; cases e

theorem notifyStore fn o v : Statement (.notifyStore fn o v) := by intro _ _ _ _ e; cases e

theorem kettleUngate n : Statement (.kettleUngate n) := by intro _ _ _ _ e; cases e

theorem qctlWrite q v : Statement (.qctlWrite q v) := by intro _ _ _ _ e; cases e

theorem ingFiltWrite f v : Statement (.ingFiltWrite f v) := by intro _ _ _ _ e; cases e

theorem hevtWrite n v : Statement (.hevtWrite n v) := by intro _ _ _ _ e; cases e

theorem nqlatchWrite n v : Statement (.nqlatchWrite n v) := by intro _ _ _ _ e; cases e

theorem registerWrite r : Statement (.registerWrite r) := by intro _ _ _ _ e; cases e

theorem cxlMemRead a len : Statement (.cxlMemRead a len) := by intro _ _ _ _ e; cases e

theorem cxlMemWrite a bytes : Statement (.cxlMemWrite a bytes) := by intro _ _ _ _ e; cases e

theorem ptmDialogue : Statement (.ptmDialogue) := by intro _ _ _ _ e; cases e

theorem doeRequest nonce : Statement (.doeRequest nonce) := by intro _ _ _ _ e; cases e

theorem flr n : Statement (.flr n) := by intro _ _ _ _ e; cases e

theorem ptpMessageRx m : Statement (.ptpMessageRx m) := by intro _ _ _ _ e; cases e

theorem ptpRequestTx pdelay : Statement (.ptpRequestTx pdelay) := by intro _ _ _ _ e; cases e

theorem ptpHoldover : Statement (.ptpHoldover) := by intro _ _ _ _ e; cases e

theorem ingressFrame f : Statement (.ingressFrame f) := by intro _ _ _ _ e; cases e

theorem connect n : Statement (.connect n) := by intro _ _ _ _ e; cases e

theorem disconnect n : Statement (.disconnect n) := by intro _ _ _ _ e; cases e

theorem regrant : Statement (.regrant) := by intro _ _ _ _ e; cases e

theorem partConnDone : Statement (.partConnDone) := by intro _ _ _ _ e; cases e

theorem retireWrite k v : Statement (.retireWrite k v) := by intro _ _ _ _ e; cases e

theorem quiesce c dest : Statement (.quiesce c dest) := by intro _ _ _ _ e; cases e

theorem clkgate c dest : Statement (.clkgate c dest) := by intro _ _ _ _ e; cases e

theorem pwroff c dest : Statement (.pwroff c dest) := by intro _ _ _ _ e; cases e

theorem powerup c dest : Statement (.powerup c dest) := by intro _ _ _ _ e; cases e

theorem clpwrOn c dest : Statement (.clpwrOn c dest) := by intro _ _ _ _ e; cases e

theorem clpwrDone c : Statement (.clpwrDone c) := by intro _ _ _ _ e; cases e

theorem clWake c : Statement (.clWake c) := by intro _ _ _ _ e; cases e

theorem retSave c addr : Statement (.retSave c addr) := by intro _ _ _ _ e; cases e

theorem retRestore c addr : Statement (.retRestore c addr) := by intro _ _ _ _ e; cases e

theorem retDone c : Statement (.retDone c) := by intro _ _ _ _ e; cases e

theorem agentDb : Statement (.agentDb) := by intro _ _ _ _ e; cases e

theorem operatingPointChange c : Statement (.operatingPointChange c) := by intro _ _ _ _ e; cases e

theorem thermalLimit die temp : Statement (.thermalLimit die temp) := by intro _ _ _ _ e; cases e

theorem thermalStop die temp : Statement (.thermalStop die temp) := by intro _ _ _ _ e; cases e

theorem deviceReset : Statement (.deviceReset) := by intro _ _ _ _ e; cases e

theorem bootGo : Statement (.bootGo) := by intro _ _ _ _ e; cases e

theorem run fn : Statement (.run fn) := by intro _ _ _ _ e; cases e

theorem keyload fn : Statement (.keyload fn) := by intro _ _ _ _ e; cases e

theorem keyclear fn : Statement (.keyclear fn) := by intro _ _ _ _ e; cases e

theorem attest fn : Statement (.attest fn) := by intro _ _ _ _ e; cases e

theorem undefinedOpcodePacket q : Statement (.undefinedOpcodePacket q) := by intro _ _ _ _ e; cases e

theorem badkindRequest fn : Statement (.badkindRequest fn) := by intro _ _ _ _ e; cases e

theorem firstLockComplete : Statement (.firstLockComplete) := by intro _ _ _ _ e; cases e

theorem periodStart n : Statement (.periodStart n) := by intro _ _ _ _ e; cases e

theorem linkTraining width rate : Statement (.linkTraining width rate) := by intro _ _ _ _ e; cases e

end Sys2Proof.Laws.Encodes
end

