-- ==== Sys2Proof/Tests/Slice0.lean ====
section
/-! SUPPORT. The model's own tests: terms that well-formedness refuses, words written out from the encodings of the spec,
results that the spec works out, and a witness for the hypotheses of each statement. -/

namespace Sys2Proof.Tests

-- One theorem after another: many that wait for the kernel at once take more memory than a check has.
set_option Elab.async false

open Sys2Proof Sys2Proof.Machine Sys2Proof.Claims

/-! ## Ill-formed terms (R68 to R82) -/

/-- A destination is no constant, a pair is even, a group of four a multiple of 4, a descriptor a multiple of 8 (R68, R71,
R72, R82). -/
theorem test_illFormed_operands :
    (Instr.iadd 0xC0 5 6).wellFormed = false ∧ (Instr.fmtget 0xFF 0).wellFormed = false ∧
    (Instr.lea 5 4 6).wellFormed = false ∧ (Instr.lea 4 5 6).wellFormed = false ∧ (Instr.ldD 3 2 7 0).wellFormed = false ∧
    (Instr.ldB 3 0xC2 7 0).wellFormed = false ∧ (Instr.ldQ 6 2 7 0).wellFormed = false ∧ (Instr.pack8 5 6 .e4m3 .rne).wellFormed = false ∧
    (Instr.copy 12 0 7 false false false).wellFormed = false ∧ (Instr.spawn 0xC0 7).wellFormed = false ∧
    (Instr.sysr 5 .fsp).wellFormed = false ∧ (Instr.atom 5 2 7 0 .d 6 .add false false).wellFormed = false ∧
    (Instr.atom 4 2 7 0 .d 0xC1 .add false false).wellFormed = false ∧ (Instr.cut 7 7).wellFormed = false := by decide

/-- The checks that join fields: modifiers, formats, conditions and modes (R78, R229, R366, R377, R424, R430, R450). -/
theorem test_illFormed_fields :
    (Instr.icmp 5 4 6 .ord).wellFormed = false ∧ (Instr.faddX 5 4 6 { noMods with negC := true } .rne).wellFormed = false ∧
    (Instr.frcpX 5 4 { noMods with negB := true } .rne).wellFormed = false ∧ (Instr.fsinX 5 4 noMods .sr).wellFormed = false ∧
    (Instr.pack8 5 4 .fp16 .rne).wellFormed = false ∧ (Instr.unpack 5 4 6 .int32).wellFormed = false ∧
    (Instr.cvt 3 2 .fp32 .e4m3 true noMods .dflt).wellFormed = false ∧
    (Instr.cvt 3 2 .int32 .fp32 false { noMods with negA := true } .dflt).wellFormed = false ∧
    (Instr.vote 5 4 0xC0 .any).wellFormed = false := by decide

/-- SLOT 6, NB without ARRIVE, a depth of 127, slots out of order, and a transposed sidecar (R71, R354, R360, R407, R409). -/
theorem test_illFormed_memory :
    (Instr.ldW 5 2 6 0).wellFormed = false ∧ (Instr.stW 5 2 6 0).wellFormed = false ∧
    (Instr.copy 8 1 7 false false false).wellFormed = false ∧ (Instr.nbarr 3 6).wellFormed = false ∧
    (Instr.breakL 4 127).wellFormed = false ∧ (Instr.contL 4 127).wellFormed = false ∧
    (Instr.mclaim 5 4).wellFormed = false ∧ (Instr.mrel 1 0).wellFormed = false ∧
    (Instr.mload 0 false true .s 0 0).wellFormed = false := by decide

/-! ## Words written out from their encodings -/

/-- The integer words (R388, R392, R394, R401). -/
theorem test_decode_integer :
    decodeWords 0x00070506 0 = .ok (.iadd 7 5 6) ∧ decodeWords 0x01080800 0x1000 = .ok (.iaddLit 8 8 0x1000) ∧
    decodeWords 0x020705C3 0 = .ok (.isub 7 5 0xC3) ∧ decodeWords 0x03070500 9 = .ok (.isubLit 7 5 9) ∧
    decodeWords 0x04070506 0 = .ok (.imul 7 5 6) ∧ decodeWords 0x05070500 9 = .ok (.imulLit 7 5 9) ∧
    decodeWords 0x06070506 0 = .ok (.imulhS 7 5 6) ∧ decodeWords 0x08070506 0 = .ok (.imulhU 7 5 6) ∧
    decodeWords 0x0B070506 0x00000004 = .ok (.imad 7 5 6 4) ∧
    decodeWords 0x0C070506 0 = .ok (.iminS 7 5 6) ∧ decodeWords 0x0D070500 9 = .ok (.iminSLit 7 5 9) ∧
    decodeWords 0x0E070506 0 = .ok (.iminU 7 5 6) ∧ decodeWords 0x0F070500 9 = .ok (.iminULit 7 5 9) ∧
    decodeWords 0x10070506 0 = .ok (.imaxS 7 5 6) ∧ decodeWords 0x11070500 9 = .ok (.imaxSLit 7 5 9) ∧
    decodeWords 0x12070506 0 = .ok (.imaxU 7 5 6) ∧ decodeWords 0x13070500 9 = .ok (.imaxULit 7 5 9) ∧
    decodeWords 0x14070500 0 = .ok (.iabs 7 5) ∧ decodeWords 0x170504D0 0x000C0000 = .ok (.icmp 5 4 0xD0 .ltu) ∧
    decodeWords 0x17050406 0x000A0000 = .ok (.icmp 5 4 6 .ge) ∧ decodeWords 0x18040608 0 = .ok (.lea 4 6 8) ∧
    decodeWords 0x19040608 0x50400000 = .ok (.leaX 4 6 8 .signed 2) ∧
    decodeWords 0x19040608 0x60600000 = .ok (.leaX 4 6 8 .unsigned 3) := by decide

/-- The logic and move words (R113, R343, R349, R355, R413, R423, R429, R435, R437). -/
theorem test_decode_logic :
    decodeWords 0x20070506 0 = .ok (.and 7 5 6) ∧ decodeWords 0x21070500 9 = .ok (.andLit 7 5 9) ∧
    decodeWords 0x22070506 0 = .ok (.or 7 5 6) ∧ decodeWords 0x23070500 9 = .ok (.orLit 7 5 9) ∧
    decodeWords 0x24070506 0 = .ok (.xor 7 5 6) ∧ decodeWords 0x25070500 9 = .ok (.xorLit 7 5 9) ∧
    decodeWords 0x260504C4 0 = .ok (.shl 5 4 0xC4) ∧ decodeWords 0x280504C4 0 = .ok (.shr 5 4 0xC4) ∧
    decodeWords 0x290504C4 0x00200000 = .ok (.shrX 5 4 0xC4 true) ∧ decodeWords 0x2A0504C4 0 = .ok (.rot 5 4 0xC4) ∧
    decodeWords 0x2D0504C8 0x002000C4 = .ok (.bfx 5 4 0xC8 true 0xC4) ∧
    decodeWords 0x2F0506C8 0x000000C4 = .ok (.bfi 5 6 0xC8 0xC4) ∧
    decodeWords 0x30050400 0 = .ok (.popc 5 4) ∧ decodeWords 0x32050400 0 = .ok (.clz 5 4) ∧
    decodeWords 0x34050400 0 = .ok (.brev 5 4) ∧ decodeWords 0x37070506 0x00000004 = .ok (.sel 7 5 6 4) ∧
    decodeWords 0x380A0600 0 = .ok (.mov 10 6) ∧ decodeWords 0x390C0000 0x00088004 = .ok (.movLit 12 0x00088004) ∧
    decodeWords 0x3A0503E8 0 = .ok (.movi 5 1000) ∧ decodeWords 0x3C050400 0 = .ok (.movx 5 4) ∧
    decodeWords 0x3E000405 0 = .ok (.movxw 4 5) := by decide

/-- The floating-point words with two or three sources (R373, R375, R381). -/
theorem test_decode_float :
    decodeWords 0x40050406 0 = .ok (.fadd 5 4 6) ∧
    decodeWords 0x41050406 0x00008A00 = .ok (.faddX 5 4 6 { noMods with negA := true, absB := true } .rtz) ∧
    decodeWords 0x42050406 0 = .ok (.fsub 5 4 6) ∧
    decodeWords 0x43050406 0x00001500 = .ok (.fsubX 5 4 6 { noMods with negB := true } .sr) ∧
    decodeWords 0x44050406 0 = .ok (.fmul 5 4 6) ∧
    decodeWords 0x45050406 0x00004300 = .ok (.fmulX 5 4 6 { noMods with absA := true } .rup) ∧
    decodeWords 0x470A0909 0x0000000A = .ok (.ffma 10 9 9 noMods .dflt 10) ∧
    decodeWords 0x47050404 0x00002006 = .ok (.ffma 5 4 4 { noMods with negC := true } .dflt 6) ∧
    decodeWords 0x48050406 0 = .ok (.fmin 5 4 6) ∧
    decodeWords 0x49050406 0x00000800 = .ok (.fminX 5 4 6 { noMods with negA := true }) ∧
    decodeWords 0x4A050406 0 = .ok (.fmax 5 4 6) ∧
    decodeWords 0x4B050406 0x00008000 = .ok (.fmaxX 5 4 6 { noMods with absB := true }) ∧
    decodeWords 0x4D050406 0x00164000 = .ok (.fcmp 5 4 6 .uno { noMods with absA := true }) := by decide

/-- The transcendental words (R377). -/
theorem test_decode_transcendental :
    decodeWords 0x50050400 0 = .ok (.frcp 5 4) ∧ decodeWords 0x51050400 0x00000C00 = .ok (.frcpX 5 4 { noMods with negA := true } .rdn) ∧
    decodeWords 0x52050400 0 = .ok (.frsq 5 4) ∧ decodeWords 0x53050400 0x00004000 = .ok (.frsqX 5 4 { noMods with absA := true } .dflt) ∧
    decodeWords 0x54050400 0 = .ok (.fsqrt 5 4) ∧ decodeWords 0x55050400 0x00000100 = .ok (.fsqrtX 5 4 noMods .rne) ∧
    decodeWords 0x56050400 0 = .ok (.fexp2 5 4) ∧ decodeWords 0x57050400 0x00000800 = .ok (.fexp2X 5 4 { noMods with negA := true } .dflt) ∧
    decodeWords 0x58050400 0 = .ok (.flog2 5 4) ∧ decodeWords 0x59050400 0x00004000 = .ok (.flog2X 5 4 { noMods with absA := true } .dflt) ∧
    decodeWords 0x5A050400 0 = .ok (.fsin 5 4) ∧ decodeWords 0x5B050400 0x00000800 = .ok (.fsinX 5 4 { noMods with negA := true } .dflt) ∧
    decodeWords 0x5C050400 0 = .ok (.fcos 5 4) ∧ decodeWords 0x5D050400 0x00000200 = .ok (.fcosX 5 4 noMods .rtz) := by decide

/-- The packed, format and lane words (R229, R348, R383, R424, R426, R430, R450). -/
theorem test_decode_packed :
    decodeWords 0x60050406 0 = .ok (.padd 5 4 6) ∧ decodeWords 0x61050406 0x01000300 = .ok (.paddX 5 4 6 .f16 noMods .rup) ∧
    decodeWords 0x62050406 0 = .ok (.pmul 5 4 6) ∧ decodeWords 0x63050406 0x02000000 = .ok (.pmulX 5 4 6 .bf16 noMods .dflt) ∧
    decodeWords 0x65050406 0x02002007 = .ok (.pfma 5 4 6 .bf16 { noMods with negC := true } .dflt 7) ∧
    decodeWords 0x67050800 0x03000000 = .ok (.pack8 5 8 .e4m3 .dflt) ∧
    decodeWords 0x690605C2 0x30000000 = .ok (.unpack 6 5 0xC2 .e4m3) ∧
    decodeWords 0x6B030200 0x02000200 = .ok (.cvt 3 2 .fp32 .bf16 false noMods .rtz) ∧
    decodeWords 0x6B030200 0x15200800 = .ok (.cvt 3 2 .fp16 .int32 true { noMods with negA := true } .dflt) ∧
    decodeWords 0x6C020500 0 = .ok (.fmtset 2 5) ∧ decodeWords 0x6E060200 0 = .ok (.fmtget 6 2) ∧
    decodeWords 0x710504C1 0x00600000 = .ok (.shfl 5 4 0xC1 .xor) ∧ decodeWords 0x71050406 0x00400000 = .ok (.shfl 5 4 6 .down) ∧
    decodeWords 0x730504C0 0x00600000 = .ok (.vote 5 4 0xC0 .ballot) ∧ decodeWords 0x73050400 0x00400000 = .ok (.vote 5 4 0 .uni) ∧
    decodeWords 0x75050400 0x00800000 = .ok (.redux 5 4 .maxU) ∧ decodeWords 0x760504C0 0 = .ok (.bcast 5 4 0xC0) := by decide

/-- The loads and the stores (R397, R400, R443). -/
theorem test_decode_loadStore :
    decodeWords 0x8005025F 0 = .ok (.ldB 5 2 2 (-1)) ∧ decodeWords 0x8105025F 0x00000004 = .ok (.ldBX 5 2 2 (-1) true false) ∧
    decodeWords 0x82050263 0 = .ok (.ldH 5 2 3 3) ∧ decodeWords 0x83050263 0x00000005 = .ok (.ldHX 5 2 3 3 true true) ∧
    decodeWords 0x84050202 0 = .ok (.ldW 5 2 0 2) ∧ decodeWords 0x85070A67 0x00000001 = .ok (.ldWX 7 10 3 7 true) ∧
    decodeWords 0x860402E0 0 = .ok (.ldD 4 2 7 0) ∧ decodeWords 0x870402E0 0x00000001 = .ok (.ldDX 4 2 7 0 true) ∧
    decodeWords 0x881004E2 0 = .ok (.ldQ 16 4 7 2) ∧ decodeWords 0x891004E2 0x00000001 = .ok (.ldQX 16 4 7 2 true) ∧
    decodeWords 0x8A0502E3 0 = .ok (.stB 5 2 7 3) ∧ decodeWords 0x8B0502E3 0x00000002 = .ok (.stBX 5 2 7 3 true) ∧
    decodeWords 0x8C0502E1 0 = .ok (.stH 5 2 7 1) ∧ decodeWords 0x8D0502E1 0x00000002 = .ok (.stHX 5 2 7 1 true) ∧
    decodeWords 0x8E0400FC 0 = .ok (.stW 4 0 7 (-4)) ∧ decodeWords 0x8F0702E0 0x00000002 = .ok (.stWX 7 2 7 0 true) ∧
    decodeWords 0x900802E0 0 = .ok (.stD 8 2 7 0) ∧ decodeWords 0x910804E2 0x00000008 = .ok (.stDX 8 4 7 2 true false) ∧
    decodeWords 0x920C02E0 0 = .ok (.stQ 12 2 7 0) ∧ decodeWords 0x930C02E0 0x00000002 = .ok (.stQX 12 2 7 0 true) ∧
    decodeWords 0x941002E0 0 = .ok (.ldt 16 2 7 0) := by decide

/-- The other memory words (R190, R245, R344). -/
theorem test_decode_memory :
    decodeWords 0x97050220 0x00020611 = .ok (.atom 5 2 1 0 .w 6 .cas false true) ∧
    decodeWords 0x970402E0 0x00030622 = .ok (.atom 4 2 7 0 .d 6 .add true false) ∧
    decodeWords 0x9800000D 0 = .ok (.fence .rel .dev) ∧ decodeWords 0x9800001E 0 = .ok (.fence .sc .sys) ∧
    decodeWords 0x9A090800 0 = .ok (.accrd 9 8) ∧ decodeWords 0x9C000809 0 = .ok (.accwr 8 9) := by decide

/-- The asynchronous words (R358, R360, R362, R385, R404, R417, R420, R438, R440, R441). -/
theorem test_decode_async :
    decodeWords 0xA0081E01 0 = .ok (.copy 8 1 7 false false true) ∧ decodeWords 0xA0100E06 0 = .ok (.copy 16 0 7 true true false) ∧
    decodeWords 0xA2081E01 0 = .ok (.copyc 8 1 7 false false true) ∧ decodeWords 0xA4071E00 0 = .ok (.nbinit 7 1 7) ∧
    decodeWords 0xA6003E00 0 = .ok (.nbarr 3 7) ∧ decodeWords 0xA8052E01 0 = .ok (.nbwait 5 2 7 true) ∧
    decodeWords 0xAA074E00 0 = .ok (.nbsync 7 4 7 false) ∧ decodeWords 0xAC001E00 0 = .ok (.nbinv 1 7) ∧
    decodeWords 0xAE140E01 0 = .ok (.semsig 20 7 .add) ∧ decodeWords 0xAE140400 0 = .ok (.semsig 20 2 .set) ∧
    decodeWords 0xB0080200 0 = .ok (.spawn 8 1) ∧ decodeWords 0xB2000E03 0 = .ok (.cancel .job) ∧
    decodeWords 0xB400BEEF 0 = .ok (.mark 0xBEEF) ∧ decodeWords 0xB6060007 0 = .ok (.cut 6 7) ∧
    decodeWords 0xB8040E00 0 = .ok (.graft 4 7) ∧ decodeWords 0xBA060E00 0 = .ok (.slfree 6 7) ∧
    decodeWords 0xBC0C0E00 0 = .ok (.mstart 12 7) := by decide

/-- The control words (R351, R352, R354, R356, R367 to R372, R396, R403, R422, R428, R432, R434, R447). -/
theorem test_decode_control :
    decodeWords 0xC000C100 0 = .ok (.ifL 0xC1) ∧ decodeWords 0xC2000000 0 = .ok .elseL ∧ decodeWords 0xC4000000 0 = .ok .endifL ∧
    decodeWords 0xC6000000 0 = .ok .loopL ∧ decodeWords 0xC8040001 0 = .ok (.breakL 4 1) ∧ decodeWords 0xCA090000 0 = .ok (.contL 9 0) ∧
    decodeWords 0xCC3FFFF6 0 = .ok (.endloop (-10)) ∧ decodeWords 0xCE3FFFFD 0 = .ok (.bra (-3)) ∧
    decodeWords 0xD1000005 0x06000005 = .ok (.brv 5 6 5) ∧ decodeWords 0xD2000010 0 = .ok (.call 16) ∧
    decodeWords 0xD4000000 0 = .ok .ret ∧ decodeWords 0xD6001400 0 = .ok (.jmpi 20) ∧ decodeWords 0xD8000000 0 = .ok .exit ∧
    decodeWords 0xDA000000 0 = .ok .nop ∧ decodeWords 0xDC000040 0 = .ok (.pause 64) := by decide

/-- The system words and the stream words (R118, R163, R271, R334, R407 to R411, R416). -/
theorem test_decode_system :
    decodeWords 0xE0140001 0 = .ok (.sysr 20 .laneid) ∧ decodeWords 0xE0040040 0 = .ok (.sysr 4 .timeNs) ∧
    decodeWords 0xE2060011 0 = .ok (.sysw 6 .noticeEn) ∧ decodeWords 0xE2040051 0 = .ok (.sysw 4 .fsp) ∧
    decodeWords 0xE4000001 0 = .ok (.trap 1) ∧ decodeWords 0xE6000000 0 = .ok .rett ∧ decodeWords 0xE8000005 0 = .ok (.bkpt 5) ∧
    decodeWords 0xEA08C000 0 = .ok (.wfi 8 0xC0) ∧ decodeWords 0xEC000003 0 = .ok (.icinv .part) ∧
    decodeWords 0xEF0014C1 0x00600000 = .ok (.tlbinv 20 0xC1 .part false) ∧
    decodeWords 0xEF001407 0x00020000 = .ok (.tlbinv 20 7 .core true) ∧
    decodeWords 0xF0001450 0 = .ok (.mclaim 5 5) ∧ decodeWords 0xF2000080 0 = .ok (.mrel 0 8) ∧
    decodeWords 0xF5001804 0x00007000 = .ok (.mload 6 false true .h 0 0x7000) ∧
    decodeWords 0xF5000C0B 0x00100200 = .ok (.mload 3 true false .s 1 0x200) ∧
    decodeWords 0xF7010001 0x0040B000 = .ok (.mstore 1 false .bf16 4 0xB000) ∧
    decodeWords 0xF8000860 0 = .ok (.mma 0 2 6 .bf16) ∧ decodeWords 0xF8010C6A 0 = .ok (.mma 1 3 6 (.reg 2)) ∧
    decodeWords 0xFA010000 0 = .ok (.mzero 1) ∧ decodeWords 0xFC030000 0 = .ok (.mwait 3) ∧
    decodeWords 0xFC040008 0 = .ok (.msig 4) ∧ decodeWords 0xFE000000 0 = .ok .mend := by decide

/-- Words that fetch refuses: undefined opcodes (R84), used reserved fields (R67), and reserved codes (R77 to R81). -/
theorem test_decode_refused :
    decodeWords 0x1A070506 0 = .error .undefinedOpcode ∧ decodeWords 0x1B070506 0 = .error .undefinedOpcode ∧
    decodeWords 0x07070506 0 = .error .undefinedOpcode ∧ decodeWords 0x46070506 0 = .error .undefinedOpcode ∧
    decodeWords 0x14070501 0 = .error .badField ∧ decodeWords 0x41050406 0x00000600 = .error .badField ∧
    decodeWords 0x17050406 0x00180000 = .error .badField ∧ decodeWords 0x6B030200 0x07000000 = .error .badField ∧
    decodeWords 0x8F0702E0 0x00000001 = .error .badField ∧ decodeWords 0xCE400001 0 = .error .badField ∧
    decodeWords 0xE0040080 0 = .error .badField ∧ decodeWords 0xF8010C64 0 = .error .badField := by decide

/-! ## Small states for one step -/

/-- The clause of one word that stands at address 0. -/
def word0 : Clause := fetchClauseOf 0

/-- The firmware agent of core 0: four lanes, 32 registers, at the first word of its clause. -/
def agent : Team := fetchTeam State.reset word0

/-- The agent with no active lane. -/
def idle : Team := { agent with d := [(0, 1), (1, 1), (2, 1), (3, 1)] }

/-- The agent with lane 0 alone active. -/
def lone : Team := { agent with d := [(1, 1), (2, 1), (3, 1)] }

/-- The agent's launch as a user's: its team has another privilege and is no agent. -/
def user : Team := { agent with agent := false, priv := 0 }

/-- The state after reset with a team as the agent of core 0. -/
def on (t : Team) : State := (State.reset.withFetchWord 64 0).putTeam 0 t

/-- Such a team issues its word. -/
theorem issues_on (t : Team) (h : t.status = .running) (hc : t.clause = some word0) : Issues (on t) t word0 :=
  ⟨rfl, h, hc⟩

/-- The team of the answer. -/
def teamOf (out : Out) (u : Nat) : Option Team :=
  match out with
  | .next s => s.team u
  | _ => none

/-- The registers r of lanes 0 to 3 of the answer. -/
def lanesOf (out : Out) (r : Nat) : List Nat :=
  ((teamOf out 0).map fun t => (List.range 4).map fun l => (t.reg r l).toNat).getD []

/-- The agent with a register that holds some values in lanes 0 to 3. -/
def holding (r : Nat) (vs : List Word) (t : Team) : Team :=
  { t with regs := fsets zeroWord t.regs ((List.range 4).map fun l => (regKey r l, (vs[l]?).getD 0)) }

/-! ## Results that the spec works out -/

/-- The examples of SHFL, VOTE.BALLOT and REDUX.ADD with lane 2 inactive (R431). -/
theorem test_results_lanes :
    let t := holding 4 [10, 20, 30, 40] { agent with d := [(2, 1)] }
    lanesOf (exec (.shfl 5 4 0xC1 .xor) (on t)) 5 = [20, 10, 0, 30] ∧
    lanesOf (exec (.vote 5 4 0xC0 .ballot) (on t)) 5 = [0xB, 0xB, 0, 0xB] ∧
    lanesOf (exec (.redux 5 4 .add) (on t)) 5 = [70, 70, 0, 70] ∧
    lanesOf (exec (.shfl 5 4 0xC1 .up) (on (holding 4 [10, 20, 30, 40] agent))) 5 = [10, 10, 20, 30] := by decide +kernel

/-- The conversions of R365, and the UNPACK of R451, with their flags: NV 1, OF 4, NX 16 (R226). -/
theorem test_results_conversions :
    let t := holding 2 [0x3F3504F3, 0x477FF000, 0xBFC00000, 0x7FC00000] agent
    lanesOf (exec (.cvt 3 2 .fp32 .bf16 false noMods .dflt) (on t)) 3 = [0x3F35, 0x4780, 0xBFC0, 0x7FC0] ∧
    lanesOf (exec (.cvt 3 2 .fp32 .bf16 false noMods .rup) (on t)) 3 = [0x3F36, 0x4780, 0xBFC0, 0x7FC0] ∧
    lanesOf (exec (.cvt 3 2 .fp32 .fp16 false noMods .dflt) (on t)) 3 = [0x39A8, 0x7C00, 0xBE00, 0x7E00] ∧
    lanesOf (exec (.cvt 3 2 .fp32 .uint32 false noMods .dflt) (on t)) 3 = [1, 65520, 0, 0] ∧
    lanesOf (exec (.cvt 3 2 .fp32 .int32 false noMods .rtz) (on (holding 2 [0xC06CCCCD] lone))) 3 = [0xFFFFFFFD, 0, 0, 0] ∧
    lanesOf (exec (.cvt 3 2 .int32 .fp32 false noMods .dflt) (on (holding 2 [0x01000001] lone))) 3 = [0x4B800000, 0, 0, 0] ∧
    lanesOf (exec (.unpack 6 5 0xC3 .e4m3) (on (holding 5 [0x7E30C038] lone))) 6 = [0x43E00000, 0, 0, 0] ∧
    ((teamOf (exec (.cvt 3 2 .fp32 .fp16 false noMods .dflt) (on (holding 2 [0x477FF000] lone))) 0).map fun t => t.fpstat) =
      some 20 ∧
    ((teamOf (exec (.cvt 3 2 .fp32 .uint32 false noMods .dflt) (on (holding 2 [0xBFC00000] lone))) 0).map fun t => t.fpstat) =
      some 17 := by decide +kernel

/-- The comparisons of R376: a NaN with 1, -0 with +0, and 1 with 2. -/
theorem test_results_comparisons :
    let t := holding 4 [0x7FC00000, 0x80000000, 0x3F800000] (holding 6 [0x3F800000, 0, 0x40000000] agent)
    let f (k : Cond) : List Nat := (lanesOf (exec (.fcmp 5 4 6 k noMods) (on t)) 5).take 3
    f .eq = [0, 1, 0] ∧ f .lt = [0, 0, 1] ∧ f .ltu = [1, 0, 1] ∧ f .ne = [1, 0, 1] ∧ f .uno = [1, 0, 0] := by decide +kernel

/-- FMTSET of the E3M2 word (R384), and of an invalid one: FORMAT_INVALID, with the register as it was. -/
theorem test_results_fmtset :
    ((teamOf (exec (.fmtset 2 5) (on (holding 5 [0x3B6, 0x3B6, 0x3B6, 0x3B6] agent))) 0).map fun t => t.fmtReg 2) = some 0x3B6 ∧
    ((teamOf (exec (.fmtset 0 0xC0) (on { agent with trapvec := 64 })) 0).map fun t => (t.fmtReg 0, t.tcause)) = some (0, 0x16) := by
  decide +kernel

/-- A step runs the word that withFetchWord has placed: MOVI, then a literal, then a stream word. -/
theorem test_step_placed :
    (match step (State.reset.withFetchWord 64 0x3A0503E8) with | .next s => lanesOf (.next s) 5 | _ => []) = [1000, 1000, 1000, 1000] ∧
    (match step (State.reset.withFetchWord 64 0x00088004390C0000) with
      | .next s => lanesOf (.next s) 12 | _ => []) = [0x88004, 0x88004, 0x88004, 0x88004] ∧
    (match step (State.reset.withFetchWord 64 0xF0000080) with
      | .next s => ((s.stream 1).map fun x => (x.slotAt 8).inUse) | _ => none) = some true ∧
    decodeTableWord 64 0x00088004390C0000 = some (.movLit 12 0x88004) ∧ decodeTableWord 32 0xFE000000 = some .mend := by
  decide +kernel

/-! ## Witnesses: the words of a team -/

/-- IntegerWords, LogicAndBits, ShiftsAndRotations, BitFields, FloatWords and LaneOperations: a team that issues, with its
lanes active or none. -/
theorem test_witness_issues :
    Issues (on agent) agent word0 ∧ agent.lowest = some 0 ∧ Issues (on idle) idle word0 ∧ idle.lowest = none :=
  ⟨issues_on _ rfl rfl, by decide, issues_on _ rfl rfl, by decide⟩

/-- LogicAndBits, the indexed moves: the last register, and the first beyond G. -/
theorem test_witness_IndexedMoves :
    let t := holding 4 [31] agent
    let u := holding 4 [0, 32] agent
    (Issues (on t) t word0 ∧ ∀ l ∈ t.activeLanes, (reads (on t) t 4 l).toNat < t.nregs) ∧
    (Issues (on u) u word0 ∧ ∃ l ∈ u.activeLanes, u.nregs ≤ (reads (on u) u 4 l).toNat) :=
  ⟨⟨issues_on _ rfl rfl, by decide⟩, issues_on _ rfl rfl, by decide⟩

/-- FormatWords: valid and invalid registers, and both combinations that CVT judges at issue; a uniform source, valid and
invalid, and a divergent one. -/
theorem test_witness_FormatWords :
    let t := { holding 5 [0x3B6, 0x3B6, 0x3B6, 0x3B6] (holding 6 [0x3B6] agent) with fmt := [(1, 0x3B6), (2, 0x8)] }
    Issues (on t) t word0 ∧ t.format (.reg 0) = none ∧
    (∃ f, t.format (.reg 1) = some f ∧ f.e ≠ 0) ∧ (∃ f, t.format (.reg 2) = some f ∧ f.e = 0) ∧
    t.lowest = some 0 ∧ t.activeLanes.length = t.lanes ∧ (∀ l ∈ t.activeLanes, reads (on t) t 5 l = reads (on t) t 5 0) ∧
    formatOf (reads (on t) t 5 0) ≠ none ∧ formatOf (reads (on t) t 7 0) = none ∧
    ¬ (∀ l ∈ t.activeLanes, reads (on t) t 6 l = reads (on t) t 6 0) :=
  ⟨issues_on _ rfl rfl, by decide, ⟨_, rfl, by decide⟩, ⟨_, rfl, by decide⟩, by decide⟩

/-- ControlFlow: the deepest level and none so deep; lanes that ENDLOOP takes back, and none; votes all, none and divergent;
a JMPI to a multiple of 4 and to none. -/
theorem test_witness_ControlFlow :
    let deep := { agent with d := [(0, 127)] }
    let off := { agent with d := [(0, 2), (1, 2), (2, 2), (3, 2)] }
    let t := holding 4 [1] (holding 6 [1, 1, 1, 1] (holding 8 [2] agent))
    (Issues (on deep) deep word0 ∧ ∃ l, l < deep.lanes ∧ deep.depth l = 127) ∧
    (Issues (on agent) agent word0 ∧ (∀ l < agent.lanes, agent.depth l ≠ 127) ∧
      ∃ l, l < agent.lanes ∧ (agent.depth l = 0 ∨ (agent.depth l = 1 ∧ agent.broken l = false))) ∧
    (Issues (on off) off word0 ∧ ∀ l < off.lanes, ¬ (off.depth l = 0 ∨ (off.depth l = 1 ∧ off.broken l = false))) ∧
    Issues (on t) t word0 ∧ t.lowest = some 0 ∧ (∀ l ∈ t.activeLanes, reads (on t) t 6 l ≠ 0) ∧
    (∀ l ∈ t.activeLanes, reads (on t) t 10 l = 0) ∧
    ((∃ l ∈ t.activeLanes, reads (on t) t 4 l = 0) ∧ ∃ l ∈ t.activeLanes, reads (on t) t 4 l ≠ 0) ∧
    (pair (on t).fresh t 10 0).toNat % 4 = 0 ∧ (pair (on t).fresh t 8 0).toNat % 4 ≠ 0 ∧ (126 : BitVec 7).toNat < 127 :=
  ⟨⟨issues_on _ rfl rfl, 0, by decide, by decide⟩, ⟨issues_on _ rfl rfl, by decide, 0, by decide, by decide⟩,
    ⟨issues_on _ rfl rfl, by decide⟩, issues_on _ rfl rfl, by decide⟩

/-! ### Page tables -/

/-- A node of a page table that lists some entries. -/
def node (a : Nat) (es : List (Nat × Nat)) (m : Memory) : Memory :=
  es.foldl (fun m e => Memory.write m (a + 16 * e.1) (toBytes 16 e.2)) m

/-- A firmware page table: a FRAME page of 1 GiB at the frame region, eight scratchpad pages of core 1 from
address 0 on and a strictly ordered one, and an HBM page of 64 KiB at 1 GiB that can be fetched from. -/
def tables : Memory :=
  node 0x2000 [(0, 1 + 0x6000 * 2 ^ 64), (511, 1 + 0x4000 * 2 ^ 64)] (node 0x4000 [(256, 1 + 0x8000 * 2 ^ 64)]
    (node 0x6000 [(0, 1 + 0xA000 * 2 ^ 64)] (node 0x8000 [(0, 0xCE7)] (node 0xA000 [(0, 1 + 0xC000 * 2 ^ 64),
      (1, 1 + 0xE000 * 2 ^ 64)] (node 0xC000 [(0, 1 + 0x10000 * 2 ^ 64)] (node 0x10000 ((8, 0x80002A7) :: (List.range 8).map fun i =>
        (i, 0x8000AA7 + i % 4 * 0x10000 * 2 ^ 64)) (node 0xE000 [(0, 1 + 0x10200 * 2 ^ 64)]
          (node 0x10200 [(0, 0x8EF + 0x20000 * 2 ^ 64)] []))))))))

/-- The caddy of a tile that was sealed once under a key (R166, R171). -/
def sealedCaddy (key : Nat) : Caddy :=
  { version := 1, key := key, state := 1, pad := 0, tag := none, sealedWith := 0, sealedVersion := 1 }

/-- Tiles lo to lo + n - 1, sealed under a key. -/
def sealedTiles (key lo n : Nat) : FMap Caddy := (List.range n).map fun i => (lo + i, sealedCaddy key)

/-- A team on core 0 of a machine whose firmware page table stands in HBM, with key 0 valid. -/
def paged (t : Team) : State :=
  { on t with hbm := tables, caddies := sealedTiles 0 4 29, fwRoot := 0x2000, keyValid := [(0, true)] }

theorem issues_paged (t : Team) (h : t.status = .running) (hc : t.clause = some word0) : Issues (paged t) t word0 :=
  ⟨rfl, h, hc⟩

/-- The pieces of an access that succeeds. -/
def pieces_of (m : Except (Nat × Nat) (List Seg) × State) : List Seg :=
  match m.1 with
  | .ok xs => xs
  | .error _ => []

theorem test_tables_canonical : Memory.wf tables = true := by decide +kernel

/-- What the caches hold for an address is used, or not (R154). -/
theorem cached_or (l1 : Bool) (s : State) (c va : Nat) (part : Option Nat) (wr : Bool) :
    cached l1 s (some c) part va wr = none ∨ cached l1 s (some c) part va wr =
      ((if l1 then fget noTlbs s.tlb1 c else []) ++ fget noTlbs s.tlb2 (c / 4)).find? fun x => x.maps part va := by
  simp only [cached]
  split
  · rename_i x h
    split
    · exact .inl rfl
    · exact .inr h.symm
  · exact .inl rfl

/-- The frame page of `tables`, as the caches hold it. -/
def framePage : Tlb := { part := none, base := frameRegion, size := 2 ^ 30, pte := pteOf 0xCE7 }

/-- A spill is refused where the cached page and the page in memory both have no valid key. -/
theorem spillRefused_of (s s' : State) (u t : Team) (x y : Tlb) (h : ¬ t.spillBytes t.rlvl ≤ u.spillBytes u.rlvl)
    (hf : (fget noTlbs s.tlb2 (teamCore s t / 4)).find? (fun z => z.maps (teamPart s t) t.base) = some x)
    (hw : walk s (teamPart s t) t.base false = (.ok y, s')) (hx : keyOk s x.pte.key = false)
    (hy : keyOk s' y.pte.key = false) (hb : t.base < 2 ^ 57) : (spillRefused s u t).1 = true := by
  have hb' : ¬ 2 ^ 57 ≤ t.base := by omega
  unfold spillRefused spillKey xlateBy
  rw [if_neg h, if_neg hb']
  rcases cached_or false s (teamCore s t) t.base (teamPart s t) false with hc | hc
  · have hk (s'' : State) (hs : s''.keyValid = s'.keyValid) : keyOk s'' y.pte.key = false := by
      rw [← hy]; unfold keyOk; rw [hs]
    simp [hc, hw, cacheFill, hk]
  · simp only [Bool.false_eq_true, if_false, List.nil_append, hf] at hc
    simp [hc, hx]

/-- CALL, MARK and a rising FSP: frames that leave local memory under a key slot that is not VALID. -/
theorem test_witness_spillRefused :
    let t := { agent with fsp := BitVec.ofNat 64 (frameRegion + 16384) }
    let s : State := { paged t with keyValid := [] }
    let met := rangeAccess s 0 { t with fsp := t.fsp + 16 } true t.fsp.toNat 16
    Issues s t word0 ∧ met.1 = .ok (pieces_of met) ∧ (spillRefused met.2 t { t with fsp := t.fsp + 16 }).1 = true := by
  intro t s met
  refine ⟨⟨rfl, rfl, rfl⟩, by decide +kernel, ?_⟩
  exact spillRefused_of _ (walk met.2 none frameRegion false).2 _ _ framePage framePage
    (by decide +kernel) (by decide +kernel) (by decide +kernel) (by decide +kernel) (by decide +kernel) (by decide +kernel)

/-- CallAndReturn: a frame that just does not fit and one that just fits; an access that succeeds and one that fails. -/
theorem test_witness_CallAndReturn :
    let t := { agent with framesz := 16384, fsp := BitVec.ofNat 64 (frameRegion + 16368) }
    let u := { agent with framesz := 16384, fsp := BitVec.ofNat 64 (frameRegion + 16384) }
    let met (s : State) := rangeAccess s 0 { t with fsp := t.fsp + 16 } true t.fsp.toNat 16
    let back (s : State) := rangeAccess s 0 t false t.fb.toNat 16
    (Issues (on u) u word0 ∧ u.lowest = some 0 ∧ u.limit < u.fsp.toNat + 16) ∧
    (Issues (on t) t word0 ∧ t.fsp.toNat + 16 ≤ t.limit ∧ (met (on t)).1 = .error (6, t.fsp.toNat) ∧
      (back (on t)).1 = .error (6, t.fb.toNat)) ∧
    (Issues (paged t) t word0 ∧ (met (paged t)).1 = .ok (pieces_of (met (paged t))) ∧
      (∀ x ∈ pieces_of (met (paged t)), x.typ = 4) ∧ t.fsp.toNat % 16 = 0 ∧
      (spillRefused (met (paged t)).2 t { t with fsp := t.fsp + 16 }).1 = false ∧
      (back (paged t)).1 = .ok (pieces_of (back (paged t))) ∧ (∀ x ∈ pieces_of (back (paged t)), x.typ = 4)) ∧
    (Issues (on agent) agent word0 ∧ agent.fsp.toNat < agent.fb.toNat + 16) ∧ t.fb.toNat + 16 ≤ t.fsp.toNat :=
  ⟨⟨issues_on _ rfl rfl, by decide +kernel⟩, ⟨issues_on _ rfl rfl, by decide +kernel⟩,
    ⟨issues_paged _ rfl rfl, by decide +kernel⟩, ⟨issues_on _ rfl rfl, by decide +kernel⟩, by decide +kernel⟩

/-- MarkPushesFrame: a mark that just does not fit and one that just fits; an access that succeeds and one that fails. -/
theorem test_witness_MarkPushesFrame :
    let t := { agent with framesz := 16384, fsp := BitVec.ofNat 64 (frameRegion + 16384 - 48) }
    let u := { agent with framesz := 16384, fsp := BitVec.ofNat 64 (frameRegion + 16384 - 47) }
    let z := 32 + 16 * ceilDiv t.lanes 16
    let met (s : State) := rangeAccess s 0 { t with fsp := t.fsp + BitVec.ofNat 64 z } true t.fsp.toNat z
    (Issues (on u) u word0 ∧ u.limit < u.fsp.toNat + z) ∧
    (Issues (on t) t word0 ∧ (met (on t)).1 = .error (6, t.fsp.toNat)) ∧
    (Issues (paged t) t word0 ∧ t.lowest = some 0 ∧ t.fsp.toNat + z ≤ t.limit ∧
      (met (paged t)).1 = .ok (pieces_of (met (paged t))) ∧ (∀ x ∈ pieces_of (met (paged t)), x.typ = 4) ∧
      (spillRefused (met (paged t)).2 t { t with fsp := t.fsp + BitVec.ofNat 64 z }).1 = false) :=
  ⟨⟨issues_on _ rfl rfl, by decide +kernel⟩, ⟨issues_on _ rfl rfl, by decide +kernel⟩,
    issues_paged _ rfl rfl, by decide +kernel⟩

/-- TrapEntry: a handler, the last slot and the greatest detail. -/
theorem test_witness_TrapEntry :
    let t := { agent with trapvec := 64 }
    (on t).team 0 = some t ∧ t.inHandler = false ∧ t.trapvec ≠ 0 ∧ 15 < 16 ∧ 0xFFFF < 2 ^ 16 := by decide

/-- TeamStops: no handler, or inside one. -/
theorem test_witness_TeamStops :
    let x := idleLaunch State.reset
    let inside := { user with inHandler := true, trapvec := 64 }
    ((on user).team 0 = some user ∧ user.agent = false ∧ user.trapvec = 0 ∧ (on user).launch user.launch = some x ∧
      x.failure = none ∧ x.cancelling = false ∧ pendingCount x < x.counter) ∧
    ((on inside).team 0 = some inside ∧ inside.agent = false ∧ inside.inHandler = true ∧
      (on inside).launch inside.launch = some x) ∧
    (on user).wg user.wg = some fetchWg ∧ fetchWg.colls = [] := by decide

/-- A clause of two words. -/
def word1 : Clause := { word0 with hdr := word0.hdr + 1, words := word0.words ++ word0.words }

/-- ExitTrapReturn: an agent and a user's team, a word with one after it and a last word, inside a handler and outside. -/
theorem test_witness_ExitTrapReturn :
    let t := { agent with clause := some word1 }
    let u := { user with inHandler := true }
    (Issues (on t) t word1 ∧ t.lowest = some 0 ∧ t.agent = true ∧ t.slot + 1 < word1.count ∧ t.inHandler = false) ∧
    Issues (on u) u word0 ∧ u.lowest = some 0 ∧ u.agent = false ∧ word0.count ≤ u.slot + 1 ∧ u.inHandler = true :=
  ⟨⟨⟨rfl, rfl, rfl⟩, by decide⟩, issues_on _ rfl rfl, by decide⟩

/-- SystemRegisters: values at and just beyond the limits of FSP and FB, a read-only register, wide and narrow ones; a rise
of FSP whose frames leave local memory without a key, one within the spill stack, and a value that does not rise. -/
theorem test_witness_SystemRegisters :
    let top (v : Word) := holding 4 [v] (holding 5 [0x01FF8000] agent)
    let x (v : Word) := pair (on (top v)).fresh (top v) 4 0
    (Issues (on (top 0x10000)) (top 0x10000) word0 ∧ (top 0x10000).lowest = some 0 ∧ inLimits (top 0x10000) .fsp (x 0x10000)) ∧
    (Issues (on (top 0x10010)) (top 0x10010) word0 ∧ ¬ inLimits (top 0x10010) .fsp (x 0x10010)) ∧
    (inLimits (top 0) .fb (x 0) ∧ ¬ inLimits (top 0x10) .fb (x 0x10)) ∧
    (readOnly .laneid = true ∧ readOnly .fsp = false ∧ SysReg.wide .fsp = true ∧ SysReg.wide .fpstat = false) ∧
    ((spillRefused (on (top 0x10000)).bump (top 0x10000) { top 0x10000 with fsp := x 0x10000 }).1 = true ∧
      (spillRefused (on (top 0x4000)).bump (top 0x4000) { top 0x4000 with fsp := x 0x4000 }).1 = false) ∧
    inLimits (top 0) .fsp (x 0) ∧ (x 0).toNat ≤ (top 0).fsp.toNat ∧ (top 0).spillMore (top 0).rlvl = 0 :=
  ⟨⟨issues_on _ rfl rfl, by decide, by unfold inLimits; decide +kernel⟩,
    ⟨issues_on _ rfl rfl, by unfold inLimits; decide +kernel⟩, by unfold inLimits; decide +kernel, by decide,
    by decide +kernel, by unfold inLimits; decide +kernel⟩

/-! ## Witnesses: memory -/

/-- The lanes' pieces of an access that succeeds. -/
def lanes_of (m : Except (Nat × Nat) (List (Nat × List Seg)) × State) : List (Nat × List Seg) :=
  match m.1 with
  | .ok xs => xs
  | .error _ => []

/-- A team whose lane 0 alone is active, with an address in the pair v4 and FSP 16 bytes above its window's base. -/
def aiming (a : Nat) : Team :=
  holding 4 [BitVec.ofNat 32 a] (holding 5 [BitVec.ofNat 32 (a / 2 ^ 32)] { lone with fsp := BitVec.ofNat 64 (frameRegion + 16) })

/-- The access of lane 0 of such a team. -/
def aimed (s : State) (t : Team) (k : AccKind) : Except (Nat × Nat) (List (Nat × List Seg)) × State :=
  lanesAccess 0 t k s.bump (t.activeLanes.map fun l => (l, pair s.fresh t 4 l + BitVec.ofInt 64 (k.n * (0 : BitVec 5).toInt)))

/-- LoadWords: the last word below FSP, one that reaches past it, and a word of a strictly ordered page. -/
theorem test_witness_LoadWords :
    let t := aiming (frameRegion + 12)
    let u := aiming (frameRegion + 13)
    let o := aiming 0x80000
    (Issues (paged t) t word0 ∧ (aimed (paged t) t (loadKind 4)).1 = .ok (lanes_of (aimed (paged t) t (loadKind 4))) ∧
      ∀ x ∈ lanes_of (aimed (paged t) t (loadKind 4)), ∀ y ∈ x.2, (y.typ ≠ 5 ∧ y.typ ≠ 6) ∧ y.order ≠ 0) ∧
    (Issues (paged u) u word0 ∧ (aimed (paged u) u (loadKind 4)).1 = .error (0x0A, frameRegion + 16)) ∧
    (Issues (paged o) o word0 ∧ (aimed (paged o) o (loadKind 4)).1 = .ok (lanes_of (aimed (paged o) o (loadKind 4))) ∧
      ∀ x ∈ lanes_of (aimed (paged o) o (loadKind 4)), ∃ y ∈ x.2, y.order = 0) :=
  ⟨⟨issues_paged _ rfl rfl, by decide +kernel⟩, ⟨issues_paged _ rfl rfl, by decide +kernel⟩,
    issues_paged _ rfl rfl, by decide +kernel⟩

/-- StoreWords: the last 16 bytes below FSP, in a page that is not strictly ordered, and 16 bytes that reach past it; a held
store at the top of a scratchpad. -/
theorem test_witness_StoreWords :
    let t := aiming frameRegion
    let u := aiming (frameRegion + 1)
    let x : PendStore :=
      { word := 0, gates := [], lane := 0, place := .scratch 1, off := 262140, bytes := [1, 2, 3, 4], setRef := false
        level := 0, stamp := 0, rmw := none }
    (Issues (paged t) t word0 ∧ t.stores = [] ∧
      (aimed (paged t) t (storeKind 16 false)).1 = .ok (lanes_of (aimed (paged t) t (storeKind 16 false))) ∧
      ∀ x ∈ lanes_of (aimed (paged t) t (storeKind 16 false)), ∀ y ∈ x.2, (y.typ ≠ 5 ∧ y.typ ≠ 6) ∧ y.order ≠ 0 ∧
        ¬ (y.place = .scratch 1 ∧ y.off ≤ 262143 ∧ 262143 < y.off + y.n)) ∧
    (Issues (paged u) u word0 ∧ (aimed (paged u) u (storeKind 16 false)).1 = .error (0x0A, frameRegion + 16)) ∧
    3 < x.bytes.length ∧ x.off + x.bytes.length ≤ 262144 ∧ ¬ (Place.scratch 1 = x.place ∧ x.off ≤ 0 ∧ 0 < x.off + x.bytes.length) :=
  ⟨⟨issues_paged _ rfl rfl, by decide +kernel⟩, ⟨issues_paged _ rfl rfl, by decide +kernel⟩, by decide⟩

/-- Atomics: the greatest operands of both widths; a team that holds no store, at the top of a scratchpad. -/
theorem test_witness_Atomics :
    (2 ^ 32 - 1 < 2 ^ (8 * 4) ∧ 2 ^ 64 - 1 < 2 ^ (8 * 8)) ∧
    (on agent).team 0 = some agent ∧ agent.stores = [] ∧ 262136 + 8 ≤ 262144 ∧
    (∀ w, Place.scratch 1 = .shared w → (on agent).wg w ≠ none) ∧ (∀ w, Place.scratch 1 = .frame w → (on agent).team w ≠ none) :=
  ⟨by decide, by decide, by decide, by decide, fun _ h => by simp at h, fun _ h => by simp at h⟩

/-- AtomLdtFence: an ATOM that succeeds and one that is misaligned; a group of eight active lanes, and one that reaches past
LANES; the rows of an LDT, and one that is misaligned. -/
theorem test_witness_AtomLdtFence :
    let k : AccKind := { n := 4, wr := true, rd := true, device := false, aligned := true }
    let r : AccKind := { n := 16, wr := false, rd := true, device := false, aligned := true }
    let t := aiming (frameRegion + 12)
    let u := aiming (frameRegion + 13)
    let rows : Team := { agent with lanes := 8, regs := (List.range 8).map fun l => (regKey 4 l, BitVec.ofNat 32 (65536 * l)) }
    let odd : Team := { agent with lanes := 8, regs := (List.range 8).map fun l => (regKey 4 l, 8) }
    (Issues (paged t) t word0 ∧ (aimed (paged t) t k).1 = .ok (lanes_of (aimed (paged t) t k)) ∧ t.lowest = some 0) ∧
    (Issues (paged u) u word0 ∧ (aimed (paged u) u k).1 = .error (5, frameRegion + 13)) ∧
    (Issues (on idle) idle word0 ∧ idle.activeLanes = []) ∧
    (Issues (on agent) agent word0 ∧ ∃ l ∈ agent.activeLanes, agent.brokenGroup l = true) ∧
    (Issues (paged rows) rows word0 ∧ (∀ l ∈ rows.activeLanes, rows.brokenGroup l = false) ∧
      (aimed (paged rows) rows r).1 = .ok (lanes_of (aimed (paged rows) rows r))) ∧
    (Issues (paged odd) odd word0 ∧ (∀ l ∈ odd.activeLanes, odd.brokenGroup l = false) ∧
      (aimed (paged odd) odd r).1 = .error (5, 8)) :=
  ⟨⟨issues_paged _ rfl rfl, by decide +kernel⟩, ⟨issues_paged _ rfl rfl, by decide +kernel⟩,
    ⟨issues_on _ rfl rfl, by decide⟩, ⟨issues_on _ rfl rfl, by decide⟩, ⟨issues_paged _ rfl rfl, by decide +kernel⟩, issues_paged _ rfl rfl, by decide +kernel⟩

/-- A window of four tiles. -/
def window4 : AccWindow := { w := 4, tiles := [], inUse := [], dirty := [], bad := [] }

/-- A stream of workgroup 0 with an operation that still works on tile 3 and on slot 0. -/
def working : Stream :=
  { fetchStream (fetchClauseOf 0xFE000000) with inflight := [{ slots := [0], tiles := [3], engine := true, mem := none }] }

/-- AccumulatorWords: no active lane, no window, the first tile beyond it, the last one within it, busy, failing, free. -/
theorem test_witness_AccumulatorWords :
    let t := holding 4 [4095, 3072, 0, 1] agent
    let u := holding 4 [4096] agent
    let w : Workgroup := { fetchWg with window := some window4 }
    let v : Workgroup := { w with stream := some 1 }
    let x : Workgroup := { fetchWg with window := some { window4 with bad := [(255, true)] } }
    let ix (l : Nat) : Nat := (reads (on t) t 4 l).toNat
    let tile (l : Nat) : Nat := ix l / 2 ^ 10 % 2 ^ 8
    let busy : State := ((on t).putWg 0 v).putStream 1 working
    Issues (on idle) idle word0 ∧ idle.activeLanes = [] ∧ Issues (on t) t word0 ∧ (on t).wg t.wg = some fetchWg ∧
    fetchWg.window = none ∧ t.activeLanes ≠ [] ∧
    (Issues ((on u).putWg 0 w) u word0 ∧ ∃ l ∈ u.activeLanes, 4 ≤ (reads (on u) u 4 l).toNat / 2 ^ 10 % 2 ^ 8) ∧
    (∀ l ∈ t.activeLanes, ix l < 2 ^ 18 ∧ tile l < 4) ∧
    (Issues busy t word0 ∧ busy.wg 0 = some v ∧ ∃ l ∈ t.activeLanes, tile l ∈ busyTiles busy v) ∧
    (Issues ((on t).putWg 0 x) t word0 ∧ (∀ l ∈ t.activeLanes, tile l ∉ busyTiles ((on t).putWg 0 x) x) ∧
      ∃ l ∈ t.activeLanes, fget falseAt [(255, true)] (64 * tile l + ix l % 2 ^ 10 / 16) = true) ∧
    (Issues ((on t).putWg 0 w) t word0 ∧ ((on t).putWg 0 w).wg 0 = some w ∧
      ∀ l ∈ t.activeLanes, tile l ∉ busyTiles ((on t).putWg 0 w) w) :=
  ⟨⟨rfl, rfl, rfl⟩, by decide, ⟨rfl, rfl, rfl⟩, by decide, by decide, by decide, ⟨⟨rfl, rfl, rfl⟩, by decide +kernel⟩,
    by decide +kernel, ⟨⟨rfl, rfl, rfl⟩, by decide +kernel⟩, ⟨⟨rfl, rfl, rfl⟩, by decide +kernel⟩, ⟨rfl, rfl, rfl⟩,
    by decide +kernel⟩

/-! ## Witnesses: asynchronous words -/

/-- A copy of workgroup 0's team 0. -/
def aCopy : Copy :=
  { kind := .copy, part := 0, priv := 2, launch := none, core := some 0, wg := some 0, team := some 0, descs := []
    reseal := false, keyovr := false, arrive := false, nb := 0, attached := false, next := 0, late := [], ended := false, wrote := false, fail := none
    suspended := none, saved := false }

/-- A descriptor of one row of 64 bytes. -/
def aDesc : Desc := { src := 0, dst := 4096, rows := 1, rowBytes := 64, key := 0, slice := 0, nslice := 0, sstride := 0, dstride := 0 }

def aSlice : Slice := { uid := 9, team := 0, desc := aDesc, reseal := false, keyovr := false, arrive := false, nb := 0 }

/-- CopyWords: KEYOVR at U level; the last tracking entry and none; a collective of the team that waits. -/
theorem test_witness_CopyWords :
    let s (n : Nat) : State := { on agent with copies := (List.range n).map fun k => (k, some aCopy) }
    let w : Workgroup := { fetchWg with colls := [{ n := 0, uid := 9, slices := [] }] }
    (Issues (on user) user word0 ∧ (on user).wg user.wg = some fetchWg ∧ user.lowest = some 0 ∧ user.priv = 0) ∧
    (Issues (s 1023) agent word0 ∧ (s 1023).wg 0 = some fetchWg ∧ agent.priv ≠ 0 ∧ trackers (s 1023) 0 < 1024) ∧
    (Issues (s 1024) agent word0 ∧ (s 1024).wg 0 = some fetchWg ∧ 1024 ≤ trackers (s 1024) 0 ∧
      ∀ x ∈ fetchWg.colls, x.n ≠ agent.copycs) ∧
    Issues ((on agent).putWg 0 w) agent word0 ∧ ∃ x ∈ w.colls, x.n = agent.copycs :=
  ⟨⟨⟨rfl, rfl, rfl⟩, by decide⟩, ⟨⟨rfl, rfl, rfl⟩, by decide +kernel⟩, ⟨⟨rfl, rfl, rfl⟩, by decide +kernel⟩,
    ⟨rfl, rfl, rfl⟩, by decide⟩

/-- CollectivesAndCopies: a slice that others wait for, and one that completes its collective, well formed or not; copies
attached and not, failed and not; a copy node. -/
theorem test_witness_CollectivesAndCopies :
    let two : Workgroup := { fetchWg with teams := [0, 1] }
    let s : State := ((on agent).putTeam 1 agent).putWg 0 two
    let bad : Slice := { aSlice with desc := { aDesc with rows := 0 } }
    let g : Graph :=
      { part := 0, queue := 0, job := 0, phase := 0, packet := 0, deadline := 0, order := 0, nodes := [], counter := 1
        cancelling := false, decided := none, compl := 0, kind := 2, copySt := (0, 0), seeds := 0 }
    let t : State := (((on agent).putCopy 3 { aCopy with kind := .node 5 0 }).putCopy 4 { aCopy with arrive := true, attached := true }).putGraph 5 g
    (s.wg 0 = some two ∧ ([] ++ [aSlice]).length ≠ two.teams.length ∧
      ∀ v ∈ two.teams, (s.team v).map (fun y => y.status) = some .running) ∧
    ((on agent).wg 0 = some fetchWg ∧ ([] ++ [aSlice]).length = fetchWg.teams.length ∧ aSlice.desc.nslice + 1 = fetchWg.teams.length ∧
      malformedDesc ((on agent).putWg 0 fetchWg) 0 2 false true aSlice.desc = false ∧
      malformedDesc ((on agent).putWg 0 fetchWg) 0 2 false true bad.desc = true) ∧
    t.copy 3 = some { aCopy with kind := .node 5 0 } ∧ t.graph 5 = some g ∧
    t.copy 4 = some { aCopy with arrive := true, attached := true } := by decide

/-- A well-formed descriptor of 4,096 workgroups for SPAWN in registers 8 to 15 of lane 0: 4 lanes, 8 registers, 1 team. -/
def spawning (t : Team) : Team :=
  { t with regs := fsets zeroWord t.regs [(regKey 9 0, 4096), (regKey 12 0, 0x00084004)] }

/-- SpawnAndCancel: a good descriptor, the counter at its bound and below it; no descriptor; an agent; a cancelled launch;
launches with nothing but pending workgroups and with a running one. -/
theorem test_witness_SpawnAndCancel :
    let t := spawning user
    let R (i : Nat) : Word := readReg (on t).fresh t (8 + i) 0
    let x : Launch := { idleLaunch State.reset with counter := 2 ^ 24 - 4096 }
    let y : Launch := { x with counter := 2 ^ 24 - 4095, cancelling := true }
    let sp : Spawned :=
      { entry := 0, args := 0, lanes := 4, nregs := 8, nteams := 1, sharedSz := 0, baseId := 0, count := 3, next := 0
        since := none, blocked := false }
    (Issues ((on t).putLaunch 0 x) t word0 ∧ ((on t).putLaunch 0 x).launch t.launch = some x ∧ t.agent = false ∧
      x.cancelling = false ∧ (R 0).toNat % 4 = 0 ∧ (R 1).toNat = 4096 ∧ (R 4).toNat % 2 ^ 11 = 4 ∧
      (R 4).toNat / 2 ^ 11 % 2 ^ 8 = 8 ∧ (R 4).toNat / 2 ^ 19 % 2 ^ 5 = 1 ∧ (R 4).toNat / 2 ^ 24 = 0 ∧ (R 5).toNat = 0 ∧
      R 7 = 0 ∧ fitsEmpty 4 8 1 0 = true ∧ x.counter + 4096 ≤ 2 ^ 24) ∧
    (Issues ((on t).putLaunch 0 y) t word0 ∧ 2 ^ 24 < y.counter + 4096) ∧
    (Issues (on user) user word0 ∧ (readReg (on user).fresh user 9 0).toNat = 0) ∧
    (Issues (on agent) agent word0 ∧ agent.agent = true ∧ (on agent).wg 0 = some fetchWg) ∧
    y.cancelling = true ∧ pendingCount { x with pending := [sp], counter := 3 } = 3 ∧
    pendingCount { x with pending := [sp], counter := 4 } < 4 :=
  ⟨⟨⟨rfl, rfl, rfl⟩, by decide +kernel⟩, ⟨⟨rfl, rfl, rfl⟩, by decide⟩, ⟨⟨rfl, rfl, rfl⟩, by decide⟩,
    ⟨⟨rfl, rfl, rfl⟩, by decide⟩, by decide⟩

/-- A barrier that is VALID, with two expected arrivals, of which some have come, and a waiter. -/
def aBar (n : Nat) : Bar :=
  { valid := true, expect := 2, arrived := n, round := 3, err := none, teamRound := [], past := [(2, some (8, 1))]
    waiters := [{ team := 0, word := 5, round := 3, detail := true }], attached := [4] }

/-- BarrierRounds and BarrierWords: an arrival that is not the last and one that is; a barrier not VALID; busy and free; an
earlier round of the team's and the current one. -/
theorem test_witness_Barriers :
    let w (n : Nat) : Workgroup := fetchWg.putBar 1 (aBar n)
    let v : Workgroup := fetchWg.putBar 1 { aBar 0 with waiters := [], attached := [], teamRound := [(0, some 2)] }
    let t := holding 7 [2] agent
    let s (w : Workgroup) : State := (on t).putWg 0 w
    ((s (w 0)).wg 0 = some (w 0) ∧ ((w 0).bar 1).valid = true ∧ ((w 0).bar 1).arrived + 1 ≠ ((w 0).bar 1).expect) ∧
    (((w 1).bar 1).arrived + 1 = ((w 1).bar 1).expect ∧ ((fetchWg.putBar 1 { aBar 0 with valid := false }).bar 1).valid = false) ∧
    (Issues (s (w 1)) t word0 ∧ t.lowest = some 0 ∧ ((w 1).bar 1).valid = true ∧ 0 < ((w 1).bar 1).arrived) ∧
    (Issues (s v) t word0 ∧ (s v).wg 0 = some v ∧ (v.bar 1).arrived = 0 ∧ (v.bar 1).attached = [] ∧ (v.bar 1).waiters = [] ∧
      (readReg (s v).fresh t 7 0).toNat % 2 ^ 16 = 2 ∧ (readReg (s v).fresh t 6 0).toNat % 2 ^ 16 = 0) ∧
    (fget noEntry (v.bar 1).teamRound 0).getD (v.bar 1).round < (v.bar 1).round ∧
    ((w 0).bar 1).round ≤ (fget noEntry ((w 0).bar 1).teamRound 0).getD ((w 0).bar 1).round :=
  ⟨by decide, by decide, ⟨⟨rfl, rfl, rfl⟩, by decide⟩, ⟨⟨rfl, rfl, rfl⟩, by decide⟩, by decide, by decide⟩

/-! ### Slices -/

/-- A slice store of four blocks at 62 KiB, whose directory's first entry, of generation 1, is LIVE or not. -/
def entry (live : Bool) : List Byte :=
  toBytes 2 1 ++ [if live then 1 else 0, 0] ++ toBytes 2 1 ++ toBytes 2 1 ++ toBytes 4 624 ++ toBytes 4 16

/-- The record of a slice of 4 lanes, 32 registers and 16 bytes of frames, without a link. -/
def slice : List Byte := toBytes 8 256 ++ toBytes 8 0 ++ toBytes 8 (frameRegion + 64) ++ toBytes 4 0xFFFFFFFF ++
  toBytes 2 4 ++ [32, 6] ++ zeros 32

/-- Core 1's scratchpad with such a store and a slice in its first block. -/
def storeOf (live : Bool) : Memory :=
  Memory.write (Memory.write [] (262144 + 0x10000) slice) (262144 + 0xF800) (entry live)

/-- A team whose launch has that store; the tile of its pages' entries is open. -/
def slicing (live : Bool) (t : Team) : State :=
  ({ paged t with
    scratch := storeOf live
    openTiles := [{ tile := 32, part := 0, key := 0, since := 0, bad := []
                    bytes := node 0 ((List.range 8).map fun i => (i, 0x8000AA7 + i % 4 * 0x10000 * 2 ^ 64)) [] }] }).putLaunch 0 { idleLaunch State.reset with sliceStore := 0xF800, sliceSz := 8192 }

/-- A team that has a handle of entry 0 in the pair v4, and FSP 64 bytes above the window's base. -/
def grafting : Team :=
  holding 4 [0x10000, 0x10000, 0x10000, 0x10000] { agent with fsp := BitVec.ofNat 64 (frameRegion + 64) }

/-- SliceStores: reserved bits, another partition, no store, the first entry beyond the directory, an entry of another
generation, and a handle that passes, with the entry's access. -/
theorem test_witness_SliceStores :
    let s := slicing true grafting
    let r := checkHandle s.bump grafting (pair s.fresh grafting 4 0)
    let e := (dirEntry ((readSegs s (pieces_of (rangeAccess s.bump 0 grafting false 0xF800 2048)) 0xF800 2048)) 0)
    let met := rangeAccess r.2 0 grafting true 0xF800 16
    (s.wg grafting.wg = some fetchWg ∧ (0x4000000000 : DWord).toNat / 2 ^ 38 ≠ 0 ∧ (0x100000000 : DWord).toNat / 2 ^ 32 ≠ fetchWg.part ∧
      sliceStore (on agent) agent = none ∧ sliceStore s grafting = some (0xF800, 8192) ∧ min 128 (8192 / 2048 - 1) = 3) ∧
    (Issues s grafting word0 ∧ r.1 = .ok (0xF800, 0, e)) ∧
    met.1 = .ok (pieces_of met) ∧
    ∀ t ∈ [grafting], (checkHandle s.bump t 0x20000).1 = .error (0x0B, 0) :=
  ⟨by decide +kernel, ⟨⟨rfl, rfl, rfl⟩, by decide +kernel⟩, by decide +kernel, by decide +kernel⟩

/-- A team with a mark of tag 7 at its window's base, and one frame of 16 bytes above it. -/
def cutting : Team :=
  { agent with
    fsp := BitVec.ofNat 64 (frameRegion + 64), head := BitVec.ofNat 64 frameRegion
    frame := Memory.write [] 0 (toBytes 2 7 ++ toBytes 2 0x4D41 ++ zeros 4 ++ toBytes 8 256 ++ toBytes 8 frameRegion ++ zeros 24) }

/-- CutLiftsFrames: results outstanding; no mark of the tag; no store; no entry free; and a CUT that passes all its checks. -/
theorem test_witness_CutLiftsFrames :
    let s := slicing false cutting
    let full : State := { s with scratch := Memory.write [] (262144 + 0xF800) (entry true ++ entry true ++ entry true) }
    let p : Pending := { id := 0, slot := none, acc := false, reg := 6, lane := 0, val := none, flags := 0 }
    let busy := { cutting with pend := [p] }
    let s1 := drainFrame s 0 false []
    let t1 := (s1.team 0).getD agent
    let lo := frameRegion + 48
    let m1 := rangeAccess s1 0 t1 false lo 16
    let m2 := rangeAccess m1.2 0 t1 false 0xF800 2048
    let s2 := drainFrame m2.2 0 false (pieces_of m2)
    let dir := readSegs s2 (pieces_of m2) 0xF800 2048
    let m3 := rangeAccess s2 0 t1 true 0xF800 16
    let m4 := rangeAccess m3.2 0 t1 true 0x10000 2048
    let f2 := rangeAccess (drainFrame full 0 false []) 0 t1 false 0xF800 2048
    let fdir := readSegs (drainFrame f2.2 0 false (pieces_of f2)) (pieces_of f2) 0xF800 2048
    (Issues (slicing false busy) busy word0 ∧ busy.lowest ≠ none ∧ busy.pend ≠ []) ∧
    (Issues s cutting word0 ∧ cutting.lowest ≠ none ∧ cutting.pend = [] ∧ copiesDone s 0 cutting = true ∧ s1.team 0 = some t1) ∧
    (t1.findMark 8 t1.chainBound t1.head.toNat = 0 ∧ t1.findMark 7 t1.chainBound t1.head.toNat = frameRegion ∧
      sliceStore (on cutting) cutting = none ∧ sliceStore s1 t1 = some (0xF800, 8192) ∧ t1.fsp.toNat - lo = 16) ∧
    (m1.1 = .ok (pieces_of m1) ∧ m2.1 = .ok (pieces_of m2) ∧ entryLive (dirEntry dir 0) = false ∧
      (∀ j < 1, blockUsed dir (entryCount 8192) (1 + j) = false) ∧ m3.1 = .ok (pieces_of m3) ∧ m4.1 = .ok (pieces_of m4)) ∧
    f2.1 = .ok (pieces_of f2) ∧ ∀ e < 3, entryLive (dirEntry fdir e) = true :=
  ⟨⟨⟨rfl, rfl, rfl⟩, by decide⟩, ⟨⟨rfl, rfl, rfl⟩, by decide +kernel⟩, by decide +kernel, by decide +kernel, by decide +kernel⟩

/-- A range of one piece, whose translation and page pass. -/
theorem range_one (s s' : State) (t : Team) (wr : Bool) (va n : Nat) (x : Tlb) (y : Seg)
    (hp : pagePieces (n / 65536 + 2) va n = [(va, n)])
    (hx : xlate s (teamPart s t) (some (teamCore s t)) va wr = (.ok x, s'))
    (hm : meetPage s' 0 t { n := n, wr := wr, rd := !wr, device := false, aligned := false } x va n va n = .seg y)
    (hy : y.typ ≠ 4) : rangeAccess s 0 t wr va n = (.ok [y], s') := by
  simp [rangeAccess, hp, meetAll, meetPieces, meetPiece, hx, hm, hy, Met.before]

/-- The grafting team past the handle's checks and the record's access. -/
def graft0 : Except (Nat × Nat) (Nat × Nat × List Byte) × State := checkHandle (slicing true grafting).bump grafting 0x10000
def graft1 : Except (Nat × Nat) (List Seg) × State := rangeAccess graft0.2 0 grafting false 0x10000 64

/-- The same after the team's stores to the record. -/
def graft2 : State := drainFrame graft1.2 0 false (pieces_of graft1)

/-- The cached translation of the slice's page. -/
def graftPage : Tlb := { part := none, base := 0x10000, size := 0x10000, pte := pteOf (0x8000AA7 + 0x10000 * 2 ^ 64) }

/-- Its use, or a walk again where the cache has dropped it (R154). -/
theorem graft_xlate : ∃ s', xlate graft2 (teamPart graft2 grafting) (some (teamCore graft2 grafting)) 0x10040 false =
    (.ok graftPage, s') ∧ (s' = graft2 ∨ s' = cacheFill true graft2 (some 0) graftPage) := by
  have hf : (fget noTlbs graft2.tlb1 0 ++ fget noTlbs graft2.tlb2 (0 / 4)).find?
      (fun x => x.maps none 0x10040) = some graftPage := by decide +kernel
  have hw : walk graft2 none 0x10040 false = (.ok graftPage, graft2) := by decide +kernel
  have hp : teamPart graft2 grafting = none := by decide +kernel
  have hc : teamCore graft2 grafting = 0 := by decide +kernel
  simp only [hp, hc, xlate, xlateBy, cached, if_true, hf]
  split
  · exact absurd ‹_› (by decide)
  · split
    · next h =>
      split at h
      · simp at h
      · simp only [Option.some.injEq] at h; subst h; exact ⟨_, rfl, .inl rfl⟩
    · simp only [hw]; exact ⟨_, rfl, .inr rfl⟩

/-- GraftLaysSlice: results outstanding; a handle that fails; a record of another shape; a window without room; and a GRAFT
that passes all its checks, whether or not the cache keeps the slice's page. -/
theorem test_witness_GraftLaysSlice :
    let s := slicing true grafting
    let p : Pending := { id := 0, slot := none, acc := false, reg := 6, lane := 0, val := none, flags := 0 }
    let busy := { grafting with pend := [p] }
    let e := entry true
    let rec_ := readSegs graft2 (pieces_of graft1) 0x10000 64
    let m2 := rangeAccess graft2 0 grafting false 0x10040 (sliceSize grafting 16 - 64)
    let m3 := rangeAccess m2.2 0 { grafting with fsp := grafting.fsp + 16 } true grafting.fsp.toNat 16
    (Issues (slicing true busy) busy word0 ∧ busy.lowest ≠ none ∧ busy.pend ≠ []) ∧
    (Issues s grafting word0 ∧ grafting.lowest = some 0 ∧ grafting.pend = [] ∧ pair s.fresh grafting 4 0 = 0x10000 ∧
      graft0.1 = .ok (0xF800, 0, e) ∧ 0xF800 + 2048 * num e 4 2 = 0x10000 ∧ num e 12 4 = 16) ∧
    (checkHandle (slicing false grafting).bump grafting 0x10000).1 = .error (0x0B, 0) ∧
    (graft1.1 = .ok (pieces_of graft1) ∧ num rec_ 28 2 = grafting.lanes ∧ num rec_ 30 1 = grafting.nregs ∧
      num rec_ 24 4 = 0xFFFFFFFF ∧ num rec_ 31 1 = 6 ∧ num rec_ 28 2 ≠ 8 ∧ frameRegion + 65536 < (frameRegion + 65536) + 16) ∧
    grafting.fsp.toNat + 16 ≤ grafting.limit ∧ (∃ bs, m2.1 = .ok bs) ∧ (∃ fs, m3.1 = .ok fs) ∧
    (spillRefused m3.2 grafting { grafting with fsp := grafting.fsp + 16 }).1 = false := by
  obtain ⟨s', hx, hs⟩ := graft_xlate
  have h2 := range_one graft2 s' grafting false 0x10040 (sliceSize grafting 16 - 64) graftPage
    { va := 0x10040, n := sliceSize grafting 16 - 64, typ := 2, order := 1, place := .scratch 1, off := 0x10040 }
    (by decide +kernel) hx (by rcases hs with rfl | rfl <;> decide +kernel) (by decide)
  refine ⟨⟨⟨rfl, rfl, rfl⟩, by decide⟩, ⟨⟨rfl, rfl, rfl⟩, by decide +kernel⟩, by decide +kernel, by decide +kernel,
    by decide +kernel, ⟨_, by rw [h2]⟩, ?_, by unfold spillRefused; rw [if_pos (by decide +kernel)]⟩
  rw [h2]
  rcases hs with rfl | rfl
  · exact ⟨pieces_of (rangeAccess graft2 0 { grafting with fsp := grafting.fsp + 16 } true grafting.fsp.toNat 16),
      by decide +kernel⟩
  · exact ⟨pieces_of (rangeAccess (cacheFill true graft2 (some 0) graftPage) 0
      { grafting with fsp := grafting.fsp + 16 } true grafting.fsp.toNat 16), by decide +kernel⟩

/-! ## Witnesses: parks and streams -/

/-- ParkingWords: each level; descriptors of MSTART at and beyond the bounds of W and S, misaligned, with a reserved bit;
an entry free and none. -/
theorem test_witness_ParkingWords :
    let t := { agent with regs := fsets zeroWord [] [(regKey 4 0, 16), (regKey 6 0, 256 + 64 * 2 ^ 16), (regKey 8 0, 257 + 2 ^ 16),
      (regKey 12 0, 1), (regKey 14 0, 1 + 65 * 2 ^ 16), (regKey 18 0, 1 + 2 ^ 16 + 2 ^ 23), (regKey 20 0, 7)] }
    let d (r : Nat) : Nat := (readReg (on t).fresh t r 0).toNat
    let part := { user with priv := 1 }
    let w : Workgroup := { fetchWg with stream := some 1 }
    let s : State := ((on t).putWg 0 w).putStream 1 working
    (Issues (on user) user word0 ∧ (on user).wg 0 = some fetchWg ∧ user.lowest = some 0 ∧ user.priv = 0) ∧
    (Issues (on part) part word0 ∧ part.priv < 2 ∧ part.priv ≠ 0 ∧ ¬ (InvScope.core = .dev ∧ part.priv < 2)) ∧
    (Issues (on t) t word0 ∧ (on t).wg 0 = some fetchWg ∧ 2 ≤ t.priv ∧ t.priv ≠ 0 ∧ t.lowest = some 0 ∧
      (reads (on t) t 0xC0 0).toNat = 0 ∧ (reads (on t) t 20 0).toNat = 7) ∧
    ((pair (on t).fresh t 4 0).toNat % 16 = 0 ∧ (pair (on t).fresh t 4 0).toNat < 2 ^ 57 ∧ (pair (on t).fresh t 12 0).toNat % 16 ≠ 0) ∧
    (d 6 % 2 ^ 9 = 256 ∧ d 6 / 2 ^ 16 % 2 ^ 7 = 64 ∧ d 6 / 2 ^ 9 % 2 ^ 7 = 0 ∧ d 6 / 2 ^ 23 = 0 ∧ readReg (on t).fresh t 7 0 = 0) ∧
    (d 8 % 2 ^ 9 = 257 ∧ d 14 % 2 ^ 9 = 1 ∧ d 14 / 2 ^ 16 % 2 ^ 7 = 65 ∧ d 18 / 2 ^ 23 ≠ 0) ∧
    (fetchWg.stream = none ∧ (entriesOf (on t) 0).length < 16) ∧
    Issues s t word0 ∧ s.wg 0 = some w ∧ ¬ (w.stream = none ∧ (entriesOf s 0).length < 16) :=
  ⟨⟨⟨rfl, rfl, rfl⟩, by decide⟩, ⟨⟨rfl, rfl, rfl⟩, by decide⟩, ⟨⟨rfl, rfl, rfl⟩, by decide +kernel⟩, by decide +kernel,
    by decide +kernel, by decide +kernel, by decide +kernel, ⟨rfl, rfl, rfl⟩, by decide +kernel⟩

/-- ParkingWordsComplete: an agent awake by a bit in a cluster that is ON; no copy that holds a tile; no other team of the
scope; and a started clause. -/
theorem test_witness_ParkingWordsComplete :
    let c : Clause := { word0 with started := true }
    let t := { agent with clause := some c }
    let s := setWake (on t) 0 1
    Issues s t c ∧ s.wg t.wg = some fetchWg ∧ t.lowest = some 0 ∧ 2 ≤ t.priv ∧ clState s 0 = 0 ∧ pointAt s 0 ≠ 0 ∧
    fget zeroNat s.wake fetchWg.core ≠ 0 ∧ (∀ e ∈ entries s.copies, e.2.late = [] ∧ e.2.suspended = none) ∧ c.started = true ∧
    icinvTeams s s.cur t .core = [] :=
  ⟨⟨rfl, rfl, rfl⟩, by decide +kernel⟩

/-- A tile that a copy of cluster 0 has translated through a page of the firmware's. -/
def aTile : LateTile :=
  { idx := 0, src := 0x10000, dst := 0x20000, n := 64, desc := aDesc, srcPage := graftPage, srcAt := 0x10000
    dstPage := graftPage, dstAt := 0x10000, reads := [(0, 64)], writes := [(0, 64)], begun := false, buf := [], st := 0
    wrote := false, logged := [] }

/-- ParkEnds: each kind of park; a core awake by a bit, at its time, before it, in a cluster that is not ON and in one whose
clock stands still; a TLBINV whose page a copy holds, and one that none does; a team that ICINV still waits for, and none; a
reservation entry free and none. -/
theorem test_witness_ParkEnds :
    let t (p : Park) : Team := { agent with park := p }
    let s (p : Park) : State := on (t p)
    let at_ (n : Nat) (p : Park) : State := { s p with ns := n }
    let started := { agent with clause := some { word0 with started := true } }
    let w : Workgroup := { fetchWg with stream := some 1 }
    ((s (.wfi 8 none)).team 0 = some (t (.wfi 8 none)) ∧ (t (.wfi 8 none)).clause = some word0 ∧
      (s (.wfi 8 none)).wg 0 = some fetchWg ∧ fget zeroNat (s (.wfi 8 none)).wake 0 = 0 ∧
      fget zeroNat (setWake (s (.wfi 8 none)) 0 1).wake 0 ≠ 0 ∧ clState (setWake (s (.wfi 8 none)) 0 1) 0 = 0) ∧
    ((at_ 7000 (.wfi 8 (some 7000))).team 0 = some (t (.wfi 8 (some 7000))) ∧ (7000 : Nat) ≤ (at_ 7000 (.wfi 8 (some 7000))).ns ∧
      ¬ 7000 ≤ (at_ 6999 (.wfi 8 (some 7000))).ns ∧ clState ((s .none).putDfield (aClState 0) 0 3 1) 0 ≠ 0 ∧
      pointAt (s .none) 0 ≠ 0 ∧ pointAt ((s .none).putDfield (aClState 0) 8 4 0) 0 = 0) ∧
    ((∃ e ∈ entries ((s .none).putCopy 7 { aCopy with late := [aTile] }).copies, ∃ x ∈ e.2.late,
        Removed false none 0x10000 0x10000 false x.srcPage) ∧ ∀ e ∈ entries (s .none).copies, e.2.late = []) ∧
    ((s (.tlbinv 0x10000 0x10000 .part true)).team 0 = some (t (.tlbinv 0x10000 0x10000 .part true)) ∧
      (s (.icinv .core [0])).team 0 = some (t (.icinv .core [0])) ∧
      (∀ x ∈ [0], icinvPasses (s (.icinv .core [0])) x = true) ∧ icinvPasses ((s (.icinv .core [1])).putTeam 1 started) 1 = false) ∧
    ((s (.mstart 0 1 1)).team 0 = some (t (.mstart 0 1 1)) ∧ fetchWg.stream = none ∧ (entriesOf (s (.mstart 0 1 1)) 0).length < 16 ∧
      mayAct (s (.mstart 0 1 1)) (t (.mstart 0 1 1)) = true) ∧
    ((s (.mstart 0 1 1)).putWg 0 w).wg 0 = some w ∧ w.stream ≠ none := by
  unfold Removed; decide +kernel

/-- A stream that stands at its word, with slot 0 claimed. -/
def streaming (x : Stream) (w : Workgroup) : State :=
  { ((on agent).putWg 0 w).putStream 1 x with curStream := 1 }

/-- Such a stream with nothing in flight, or with an operation on slot 0 and tile 3. -/
def quiet : Stream := { working with inflight := [], slots := [(0, { seed := 0, inUse := true, dirty := false, bytes := [], bad := [] })] }

/-- The workgroup that has the stream, with shared memory of 8 KiB and a window. -/
def streamWg : Workgroup := { fetchWg with stream := some 1, sharedSz := 8192, window := some window4 }

/-- StreamControl: with nothing in flight and with an operation on a named slot; a barrier whose round is
over, not over, and not VALID. -/
theorem test_witness_StreamControl :
    let c := fetchClauseOf 0xFE000000
    let past : Workgroup := streamWg.putBar 4 { aBar 0 with round := 1 }
    let gone : Workgroup := streamWg.putBar 4 { aBar 0 with valid := false }
    Streams (streaming quiet streamWg) quiet c streamWg ∧ quiet.inflight = [] ∧
    Streams (streaming working streamWg) working c streamWg ∧ working.inflight ≠ [] ∧
    (∃ o ∈ working.inflight, ∃ n ∈ o.slots, 0 ≤ n ∧ n ≤ 0) ∧ streamWg.window = some window4 ∧
    ((streamWg.bar 4).valid = true ∧ (streamWg.bar 4).round ≤ fget zeroNat quiet.rounds 4) ∧
    (Streams (streaming quiet past) quiet c past ∧ ¬ (past.bar 4).round ≤ fget zeroNat quiet.rounds 4) ∧
    (gone.bar 4).valid = false :=
  ⟨⟨rfl, rfl, rfl, rfl⟩, rfl, ⟨rfl, rfl, rfl, rfl⟩, by decide, by decide, rfl, by decide, ⟨⟨rfl, rfl, rfl, rfl⟩, by decide⟩,
    by decide⟩

/-- StreamTransfers: a slot not claimed and one claimed; rows that just lie inside shared memory and that reach past it; the
firmware's part of core 0's scratchpad; granules that fail, wholly and partly covered, and none; a window, none, and one whose tile fails. -/
theorem test_witness_StreamTransfers :
    let c := fetchClauseOf 0xFE000000
    let s := streaming quiet streamWg
    let bad : Workgroup := { streamWg with sharedBad := [(127, true)], window := some { window4 with bad := [(64, true)] } }
    let odd : Workgroup := { streamWg with sharedBad := [(64, true)] }
    let user : Workgroup := { streamWg with agent := false }
    let none_ : Workgroup := { streamWg with window := none }
    (Streams s quiet c streamWg ∧ (quiet.slotAt 0).inUse = true ∧ (quiet.slotAt 1).inUse = false ∧
      (4096 : BitVec 20).toNat % 16 = 0 ∧ (4104 : BitVec 20).toNat % 16 ≠ 0) ∧
    (∀ q < 32, (4096 : BitVec 20).toNat + q * 128 + 128 ≤ streamWg.sharedSz) ∧
    (¬ ∀ q < 32, (4112 : BitVec 20).toNat + q * 128 + 128 ≤ streamWg.sharedSz) ∧
    (Streams (streaming quiet user) quiet c user ∧ user.core = 0 ∧ user.agent = false ∧ ¬ 65536 ≤ (65520 : BitVec 20).toNat) ∧
    (∀ g < 128, placeBad s (.shared 0) g = false) ∧
    (Streams (streaming quiet bad) quiet c bad ∧ placeBad (streaming quiet bad) (.shared 0) ((4096 + 31 * 128 + 127) / 64) = true) ∧
    (bad.window.map fun y => fget falseAt y.bad (64 * 1 + 0)) = some true ∧
    (Streams (streaming quiet odd) quiet c odd ∧ placeBad (streaming quiet odd) (.shared 0) 64 = true ∧
      (4112 + 0 * 64 + 0) / 64 = 64 ∧ ¬ ∃ q < 32, 4112 + q * 4080 ≤ 64 * 64 + 0 ∧ 64 * 64 + 0 < 4112 + q * 4080 + 64) ∧
    Streams (streaming quiet none_) quiet c none_ ∧ none_.window = none :=
  ⟨⟨⟨rfl, rfl, rfl, rfl⟩, by decide⟩, by decide, by decide, ⟨⟨rfl, rfl, rfl, rfl⟩, by decide⟩, by decide +kernel,
    ⟨⟨rfl, rfl, rfl, rfl⟩, by decide⟩, by decide, ⟨⟨rfl, rfl, rfl, rfl⟩, by decide +kernel⟩, ⟨rfl, rfl, rfl, rfl⟩, rfl⟩

/-- MatrixMultiply: valid and invalid formats, slots claimed and not, failing and not; finite and other values. -/
theorem test_witness_MatrixMultiply :
    let x : Stream := { quiet with slots := [(0, { OpSlot.free with inUse := true }), (1, { OpSlot.free with inUse := true, bad := [(63, true)] })] }
    Streams (streaming x streamWg) x (fetchClauseOf 0xFE000000) streamWg ∧ streamWg.window = some window4 ∧
    (x.slotAt 0).inUse = true ∧ (∀ i < 72, fget falseAt (x.slotAt 0).bad i = false) ∧ fget falseAt (x.slotAt 1).bad 63 = true ∧ (x.slotAt 2).inUse = false ∧
    mmaFormat x (.reg 0) = none ∧ mmaFormat x .bf16 ≠ none ∧ (∀ i < 64, fget falseAt window4.bad (64 * 3 + i) = false) ∧
    (FV.fin false 1 0).finite = true ∧ FV.nan ∈ [FV.nan] ∧ (FV.inf true ∈ [FV.inf true] ∧ FV.inf false ∉ [FV.inf true] ∧
      FV.nan ∉ [FV.inf true]) :=
  ⟨⟨rfl, rfl, rfl, rfl⟩, rfl, by decide +kernel, by decide +kernel, by decide +kernel, by decide +kernel, by decide +kernel,
    by decide +kernel, by decide +kernel, rfl, by simp, by simp⟩

/-! ## Witnesses: fetching and landing -/

/-- A team at the last word of a page, and the machine with a header there and a word in the next page. -/
def fetching : Team := { agent with clause := none, pc := 0x4000FFFC }

def coded (t : Team) (h w : Word) : State :=
  { paged t with
    hbm := Memory.write (Memory.write (node 0x10200 [(0, 0x8EF + 0x20000 * 2 ^ 64), (1, 0x8EF + 0x30000 * 2 ^ 64)] tables)
        0x2FFFC (toBytes 4 h.toNat)) 0x30000 (toBytes 4 w.toNat)
    caddies := sealedTiles 0 4 93 }

/-- ClauseFetch: no boundary, a park, a team that may not act; each notice with a handler and without, and during a pause; a
fetched clause; a
failed fetch, an undefined opcode, a resume point past the clause, and a clause that passes. -/
theorem test_witness_ClauseFetch :
    let begun := { agent with clause := some { word0 with started := true } }
    let parked := { fetching with park := .wfi 8 none }
    let told := { fetching with noticeCancel := true }
    let heard := { told with trapvec := 64 }
    let folded := { fetching with noticeFold := true, noticeEn := true, trapvec := 64 }
    let held := { agent with clause := some { word0 with started := false } }
    let late := { fetching with resume := 2 }
    let fresh (t : Team) : Prop := ∀ c, t.clause = some c → c.started = false
    let got (t : Team) (w : Word) := obtainClause (coded t 1 w) t
    ((on begun).team 0 = some begun ∧ begun.clause = some { word0 with started := true }) ∧
    ((on parked).team 0 = some parked ∧ parked.park ≠ .none ∧ mayAct ((on fetching).putDfield (aClState 0) 8 4 0) fetching = false) ∧
    (fresh told ∧ told.park = .none ∧ mayAct (on told) told = true ∧ told.inHandler = false ∧ told.noticeCancel = true ∧
      told.trapvec = 0 ∧ heard.trapvec ≠ 0 ∧ told.pauseEnd ≤ clockTenths (on told) 0 ∧
      clockTenths (on told) 0 < { told with pauseEnd := 1 }.pauseEnd) ∧
    (folded.noticeCancel = false ∧ folded.noticeFold = true ∧ folded.noticeEn = true ∧ mayAct (on folded) folded = true) ∧
    (fresh held ∧ held.clause ≠ none ∧ held.noticeCancel = false) ∧
    ((coded fetching 1 0x00070506).team 0 = some fetching ∧ mayAct (coded fetching 1 0x00070506) fetching = true ∧
      (got fetching 0x00070506).1 = .ok (1, [0x00070506]) ∧ clauseFail (.team 32) 1 [0x00070506] = none ∧
      slotStarts [0x00070506] (fetching.resume - 1) 16 0 = true) ∧
    ((obtainClause (on fetching) fetching).1 = .error 6 ∧ (got fetching 0xDE000000).1 = .ok (1, [0xDE000000]) ∧
      clauseFail (.team 32) 1 [0xDE000000] = some (1, 1) ∧ slotStarts [0x00070506] (late.resume - 1) 16 0 = false) := by
  refine ⟨by decide, by decide +kernel, ⟨?_, by decide +kernel⟩, by decide +kernel, ⟨?_, by decide⟩, by decide +kernel,
    by decide +kernel⟩
  · intro c h; simp [fetching] at h
  · intro c h; simp only [Option.some.injEq] at h; subst h; rfl

/-- ResultsLand: a delivered result, an undelivered one, none; a pause that has ended and one that has not; a register that
is not evicted, one that comes back and one whose tiles fail. -/
theorem test_witness_ResultsLand :
    let p : Pending := { id := 0, slot := none, acc := false, reg := 6, lane := 0, val := some 7, flags := 16 }
    let t := { agent with pend := [p, { p with val := none }], pauseEnd := 1, evicted := [9] }
    let far := { t with lanes := 1024, evicted := [9, 10, 11, 12, 13], spill := [0] }
    let got (t : Team) := refillBytes (on t) t (t.evictedAt (t.evicted.idxOf 9)) (4 * t.lanes)
    (on t).team 0 = some t ∧ t.pend[0]? = some p ∧ p.val = some 7 ∧ (∀ q, t.pend[2]? = some q → q.val = none) ∧
    (t.pend[1]?).map (fun q => q.val) = some none ∧ clockTenths (on t) 0 < t.pauseEnd ∧
    agent.pauseEnd ≤ clockTenths (on agent) 0 ∧ (8 ∉ t.evicted ∧ 9 ∈ t.evicted ∧ t.spill = [] ∧ (got t).1 = none) ∧
    (on far).team 0 = some far ∧ 9 ∈ far.evicted ∧ (got far).1 ≠ none := by
  refine ⟨by decide, rfl, rfl, ?_, rfl, by decide +kernel, by decide +kernel, by decide +kernel, by decide +kernel⟩
  intro q h; simp at h

/-! ## Witnesses: the kettle -/

/-- A page table of partition 1 under key 5 that maps the GiB at 0 to host memory. -/
def ptables : Memory :=
  node 0x2000 [(0, 1 + 5 * 2 ^ 16 + 0x6000 * 2 ^ 64)] (node 0x6000 [(0, 1 + 5 * 2 ^ 16 + 0xA000 * 2 ^ 64)]
    (node 0xA000 [(0, 0x9E7 + 5 * 2 ^ 16)] []))

/-- Partition 1, ACTIVE and RESIDENT on every cluster and group, with queues 0 and 1 and key 5, and queue 0 enabled, with a
ring of 16 slots at 0. -/
def active : State :=
  let s := { State.reset with hbm := ptables, caddies := sealedTiles 5 4 20, keyValid := [(5, true)] }
  let s := ((s.putDfield (aPartState 1) 0 4 9).putDreg (aClLo 1) (BitVec.ofNat 64 (2 ^ 64 - 1))).putDreg (aCgMask 1) (BitVec.ofNat 64 (2 ^ 64 - 1))
  let s := ((s.putDfield (aVfQueues 1) 16 13 2).putDreg (aVfKeys 1) 0x10005).putDreg (aPtRoot 1) (BitVec.ofNat 64 (0x2000 + 5 * 2 ^ 52))
  s.putDfield (aQctl 0) 0 1 1

/-- A packet of an opcode, with some bytes from byte 16 on. -/
def packet (op : Byte) (l : List Byte) : List Byte :=
  let body := patch (op :: zeros 59) 16 l
  body ++ toBytes 4 (crc32c body).toNat

/-- The machine with a packet in the first slot of queue 0, and TAIL 1. -/
def queued (l : List Byte) (x : Queue) : State := { active with host := Memory.write [] 0 l }.putQueue 0 { x with tail := 1 }

/-- A packet that waits, with its bytes. -/
def waiting (n : Nat) (l : List Byte) : Pkt := { num := n, bytes := l, marked := false, graph := none, state := .waiting }

/-- PacketEvents: a WAIT that is read for the first time and one that is read again; a slot that cannot be read. -/
theorem test_witness_PacketEvents :
    let s := queued (packet 4 []) Queue.init
    let r := queued (packet 4 []) { Queue.init with firstRead := some 0 }
    let bad := queued (zeros 64) { Queue.init with firstRead := some 0 }
    (kettleAccepts s 0 = true ∧ replays s 0 0 = false ∧ (s.queue 0).accepted = 0 ∧ (s.queue 0).tail ≠ queueHead s 0 ∧
      (readSlot s 0).1 = some (packet 4 []) ∧ num (packet 4 []) 0 1 = 4 ∧ num (packet 4 []) 0 1 ≠ 0) ∧
    ((r.queue 0).firstRead ≠ none ∧ (readSlot r 0).1 = some (packet 4 [])) ∧
    (kettleAccepts bad 0 = true ∧ (readSlot bad 0).1 = none ∧ (bad.queue 0).firstRead ≠ none) ∧
    8 < num (packet 9 []) 0 1 := by decide +kernel

/-- PacketLife: accepted packets of each treatment, and packets at their turn in each state. -/
theorem test_witness_PacketLife :
    let s := queued (zeros 64) Queue.init
    let c := queued (zeros 64) { Queue.init with cancelTo := 1 }
    let p := waiting 0 (packet 6 [])
    let w := queued (zeros 64) { Queue.init with accepted := 2, closed := [7], pkts := [p, waiting 1 (patch (packet 0 []) 1 [1])] }
    let g := (prepare s 0 0 (packet 2 (zeros 32))).1
    (replayMode s 0 = 0 ∧ (s.queue 0).cancelTo ≤ (s.queue 0).accepted ∧ (c.queue 0).accepted < (c.queue 0).cancelTo) ∧
    (8 < num (packet 9 []) 0 1 ∧ packetOk 0 (packet 7 [2]) = true ∧ packetOk 0 (packet 0 []) = true ∧
      packetOk 0 (packet 1 [4]) = true ∧ packetOk 0 (packet 2 (zeros 32)) = true) ∧
    ((match (prepare s 0 0 (packet 1 [4])).1 with | .error _ => true | .ok _ => false) = true ∧
      (match g with | .error _ => false | .ok _ => true) = true) ∧
    (¬ p.num < (s.queue 0).cancelTo ∧ p.marked = false ∧ p.num < (c.queue 0).cancelTo ∧ p.state = .waiting ∧
      num p.bytes 0 1 = 6 ∧ num p.bytes 1 1 % 2 ≠ 1) ∧
    (num (patch (packet 0 []) 1 [1]) 1 1 % 2 = 1 ∧ ¬ ∀ x ∈ (w.queue 0).pkts, 1 ≤ x.num ∨ x.state = .done) ∧
    7 ∈ (w.queue 0).closed ∧ 8 ∉ (w.queue 0).closed := by decide +kernel

/-- KettleEvents: a SIGNAL that may be performed, and one whose page is absent, for 100 ms of its partition's time and
for less; a fence whose time has come and one whose
time has not; a WAIT that holds, one that does not and one that cannot be read; a slot unread for 1 ms and for less. -/
theorem test_witness_KettleEvents :
    let q (l : List Byte) : Queue := { Queue.init with accepted := 1, pkts := [waiting 0 l] }
    let s (l : List Byte) : State := queued (zeros 64) (q l)
    let far := toBytes 8 0x40000000
    let up (l : List Byte) := semUpdate (s l) (kettleOf 1) (BitVec.ofNat 64 (num l 16 8)) (BitVec.ofNat 64 (num l 24 8)) (signalOp l)
    let rd (l : List Byte) := engineRead (s l) (kettleOf 1) (num l 16 8) 8
    ((((s (packet 5 [])).queue 0).pkts.find? fun y => y.num == 0) = some (waiting 0 (packet 5 [])) ∧
      num (packet 5 []) 0 1 = 5 ∧ queueEn (s (packet 5 [])) 0 = true ∧ partActive (s (packet 5 [])) (queuePart (s (packet 5 [])) 0) = true ∧
      (up (packet 5 [])).1 ≠ 3 ∧ (up (packet 5 far)).1 = 3) ∧
    (blocking (s (packet 8 [])) 0 = some (waiting 0 (packet 8 [])) ∧ num (packet 8 []) 16 8 ≤ ptpNow (s (packet 8 [])) ∧
      ptpNow (s (packet 8 [1])) < num (packet 8 [1]) 16 8) ∧
    (blocking (s (packet 4 [])) 0 = some (waiting 0 (packet 4 [])) ∧ (rd (packet 4 [])).1 = 0 ∧ num (packet 4 []) 40 1 = 0 ∧
      BitVec.ofNat 64 (ofBytes (rd (packet 4 [])).2.1) &&& BitVec.ofNat 64 (num (packet 4 []) 32 8) = BitVec.ofNat 64 (num (packet 4 []) 24 8) ∧
      BitVec.ofNat 64 (ofBytes (rd (packet 4 (zeros 8 ++ [1]))).2.1) &&& 0 ≠ BitVec.ofNat 64 (num (packet 4 (zeros 8 ++ [1])) 24 8) ∧
      (rd (packet 4 far)).1 ≠ 0) ∧
    (0 + 1000000 ≤ ({ s [] with ns := 1000000 }).ns ∧ ({ s [] with ns := 999999 }).ns < 0 + 1000000 ∧
      kettleAccepts { s [] with ns := 1000000 } 0 = true) ∧
    residentNs (up (packet 5 far)).2 1 < 0 + 100000000 ∧
    0 + 100000000 ≤ residentNs { s (packet 5 far) with ns := 100000000 } 1 := by decide +kernel

/-- QueueRegisters: a store that names no queue and one that names one; gated, latched or not, and not gated; TAIL at the
ring's size and beyond; EN rising, kept and falling. -/
theorem test_witness_QueueRegisters :
    let s := active.putDreg (aNqmap 0 1) (BitVec.ofNat 64 (2 ^ 31 + 2 * 2 ^ 12))
    let gated := s.putPart 1 { Part.init with gated := true }
    (notifyQueue s 1 8 = some 1 ∧ notifyQueue s 1 16 = none) ∧
    (notifyQueue gated 1 8 = some 1 ∧ (gated.part 1).gated = true ∧ (gated.dreg (aNqlatch 1)).getLsbD 0 = false ∧
      ((gated.putDfield (aNqlatch 1) 0 1 1).dreg (aNqlatch 1)).getLsbD 0 = true) ∧
    ((s.part 1).gated = false ∧ (16 + 2 ^ 32 - queueHead s 1) % 2 ^ 32 ≤ slotCount s 1 ∧
      slotCount s 1 < (17 + 2 ^ 32 - queueHead s 1) % 2 ^ 32) ∧
    (s.dreg (aQctl 0)).getLsbD 0 = true ∧ (s.dreg (aQctl 1)).getLsbD 0 = false := by decide +kernel

/-! ## Witnesses: workgroups -/

/-- A user launch of partition 1, and a block of pending workgroups of one team. -/
def launch1 : Launch := { idleLaunch State.reset with part := 1, launchId := 0, rank := 5, priv := 0 }

def pending1 (n : Nat) : Spawned :=
  { entry := 0, args := 0, lanes := 4, nregs := 8, nteams := 1, sharedSz := 0, baseId := 0, count := n, next := 0, since := none
    blocked := false }

/-- A workgroup of that launch, on core 0, with one team. -/
def wg1 : Workgroup := { fetchWg with launch := 7, part := 1, agent := false, teams := [1] }

/-- Partition 1 with that launch, workgroup and team. -/
def loaded1 (x : Launch) (w : Workgroup) (t : Team) : State := ((active.putLaunch 7 x).putWg 3 w).putTeam 1 t

/-- TeamStart and Dispatcher: the greatest team; a partition that does not run, nothing pending, and a workgroup that fits; a
block's last workgroup and one before it. -/
theorem test_witness_Dispatcher :
    let x := { launch1 with pending := [pending1 1] }
    let s := active.putLaunch 7 x
    let c : Candidate := { uid := 7, l := x, sp := pending1 1 }
    1024 ≤ 1024 ∧ partActive State.reset 1 = false ∧ partActive active 1 = true ∧
    sortBy candidateOrder (candidates active 1) = [] ∧
    (partActive s 1 = true ∧ sortBy candidateOrder (candidates s 1) = [c] ∧ s.launch c.uid = some c.l ∧
      c.l.pending.head? = some c.sp ∧ savedBefore s c.l.part c.l.rank = false) ∧
    (0 + 1 < (pending1 2).count ∧ (pending1 1).count ≤ 0 + 1) := by decide +kernel

/-- Placement and Admission: a workgroup that fits, and a seed that OPHINT holds, with a core chosen for it and without. -/
theorem test_witness_Placement :
    let x := { launch1 with pending := [pending1 1] }
    let held := { x with hintHold := some 0 }
    let chosen := { x with seedCore := some 5 }
    let c (x : Launch) : Candidate := { uid := 7, l := x, sp := pending1 1 }
    (placeFor (active.putLaunch 7 x) (c x)).isSome = true ∧
    (coreOpen active 1 5 5 = true ∧ placeFor (active.putLaunch 7 chosen) (c chosen) = some 5) ∧
    (sortBy candidateOrder (candidates (active.putLaunch 7 held) 1) = [c held] ∧ held.hintHold ≠ none ∧
      (placeFor (active.putLaunch 7 held) (c held)).isSome = true) := by decide +kernel

/-- WorkgroupEvents: a held launch; a block passed over for 1 ms and for less; a hold of 50 µs and of less; a notice of 100 µs
ago and of less; a workgroup with a running team and with none. -/
theorem test_witness_WorkgroupEvents :
    let x := { launch1 with held := true, pending := [{ pending1 1 with since := some 0 }], hintHold := some 0, seedCore := some 4 }
    let x := { x with ophint := 7 }
    let t := { user with wg := 3, launch := 7, cancelAt := some 0 }
    let s := loaded1 x wg1 t
    let ended := loaded1 x wg1 { t with status := .exited }
    let at_ (n : Nat) : Nat := ({ s with ns := n }).ns
    (s.launch 7 = some x ∧ x.held = true ∧ entries s.launches = [(7, x)] ∧ (liveLaunches s).length < 16384) ∧
    (x.pending.head?.map (fun p => p.since) = some (some 0) ∧ 0 + 1000000 ≤ at_ 1000000 ∧ at_ 999999 < 0 + 1000000) ∧
    (x.hintHold = some 0 ∧ 0 + 50000 ≤ at_ 50000 ∧ at_ 49999 < 0 + 50000 ∧
      x.seedCore = some 4 ∧ ¬ pointAt s 1 = min (x.ophint % 16) (min (paceAt s 1) (thermalOf s 0)) ∧ clState s 1 = 0 ∧
      pointAt (s.putDfield (aClState 1) 8 4 7) 1 = min (x.ophint % 16) (min (paceAt s 1) (thermalOf s 0))) ∧
    (s.team 1 = some t ∧ t.cancelAt = some 0 ∧ t.status = .running ∧ 0 + 100000 ≤ at_ 100000 ∧ at_ 99999 < 0 + 100000) ∧
    (s.wg 3 = some wg1 ∧ wg1.launch = 7 ∧ wg1.agent = false ∧ wg1.saved = false ∧ 1 ∈ wg1.teams) ∧
    (wg1.stream = none ∧ ended.team 1 = some { t with status := .exited } ∧ entries ended.copies = []) := by decide +kernel

/-- 16,384 live launches. -/
theorem test_witness_heldLaunch :
    let s := { State.reset with launches := (List.range 16384).map fun k => (k, some { launch1 with launchId := k }) }
    16384 ≤ (liveLaunches s).length := by
  decide +kernel

/-- FoldLevels: the least shape; a team with an evicted register and a swapped pass. -/
theorem test_witness_FoldLevels :
    let t := { agent with lanes := 1024, evicted := [31], passOut := [31] }
    1 ≤ 1 ∧ 8 ≤ 8 ∧ t.evicted.Nodup ∧ (∀ r ∈ t.evicted, r < t.nregs) ∧ t.passOut.Nodup ∧
    ∀ p ∈ t.passOut, p < ctxOf t.lanes 0 / 32 := by decide

/-- PreemptionEvents: GO clear, set with no count and with one; room returned with no request unmet, and not; a victim that
may expand, and none; a workgroup with a stream in flight, one that a request asks for, one that none asks for; a saved one. -/
theorem test_witness_PreemptionEvents :
    let r : Request :=
      { core := 0, source := 2, want := { ctx := 1, regs := 0, lmem := 0 }, took := Room.zero, rank := 63, launch := 0, item := 0
        users := [], order := 0, saves := false }
    let folded := { user with wg := 3, launch := 7, rlvl := 1 }
    let t := { user with wg := 3, launch := 7, rlvl := 5 }
    let s := loaded1 launch1 wg1 folded
    let back := { s with foldOrder := [(0, [1])], roomBack := [(0, true)] }
    let asked := { loaded1 launch1 wg1 t with reqs := [r] }
    let saved := { wg1 with saved := true, saveUnits := [2 ^ 57] }
    let busy := { wg1 with stream := some 1 }
    let v (n : Nat) : DWord := BitVec.ofNat 64 n
    ((v 1).getLsbD 63 = false ∧ (v (2 ^ 63)).getLsbD 63 = true ∧ (v (2 ^ 63)).toNat % 2 ^ 13 = 0 ∧ (v (2 ^ 63 + 1)).toNat % 2 ^ 13 = 1) ∧
    (fget falseAt s.roomBack 0 = false ∧ fget falseAt back.roomBack 0 = true ∧ back.reqs = [] ∧
      fget (fun _ => ([] : List Nat)) back.foldOrder 0 = [1] ∧ expandLevel back 0 folded = some 0 ∧
      expandLevel { back with reqs := [{ r with took := { ctx := 4096, regs := 300000, lmem := 0 } }] } 0 folded = none) ∧
    (streamDrained (s.putStream 1 working) busy = false ∧ s.wg 3 = some wg1 ∧ streamDrained s wg1 = true ∧ s.reqs = []) ∧
    ((sortBy requestOrder asked.reqs).find? (saveWanted asked 3 wg1) = some r) ∧
    (coreOpen (active.putWg 3 saved) saved.part 5 4 = true ∧ restoreFits ((active.putWg 3 saved).putLaunch 7 launch1) 3 saved 4 = true ∧
      coreOpen State.reset saved.part 5 4 = false ∧ (readSave (charge (active.putWg 3 saved) (some 1)) saved 4).1 = false ∧
      (readSave (charge (active.putWg 3 saved) (some 1)) { saved with saveUnits := [] } 4).1 = true) := by decide +kernel

/-- SliceEvents: a hold that has ended and one that has not; a period due and not, resident, with the peer and with free
clusters; a cluster due and empty, the last and not the last; an overrun at and beyond each bound. -/
theorem test_witness_SliceEvents :
    let f (n m : Nat) (s : State) : State :=
      (((s.putDfield (aVfSlice n) 46 1 1).putDfield (aVfSlice n) 40 6 m).putDfield (aVfSlice n) 0 20 10).putDfield (aVfSlice n) 20 20 20
    let s := (f 1 2 (f 2 1 active)).putDfield (aPartState 2) 0 3 1
    let s := (s.putDreg (aClLo 2) 1).putDreg (aClLo 1) 1
    let s := s.putDreg (aClHi 1) 0
    let r : Request :=
      { core := 0, source := 1, want := Room.zero, took := Room.zero, rank := 64, launch := 0, item := 0, users := [], order := 0
        saves := false }
    let s := (s.putPart 1 { s.part 1 with slice := s.dreg (aVfSlice 1), inSlice := true }).putPart 2
      { s.part 2 with slice := s.dreg (aVfSlice 2) }
    let due := { s with reqs := [r] }
    let none_ := s.putDfield (aPartState 1) 3 1 0
    (slicedNow s 1 = true ∧ (s.part 1).inSlice = true ∧ partState s 1 = 1 ∧ resident s 1 = true ∧
      (∀ k ∈ clustersOf s 1, switchDue s k = false) ∧ peerNow s 1 = 2 ∧ partState s 2 ≠ 0 ∧
      partState (s.putDfield (aPartState 2) 0 3 0) 2 = 0 ∧
      (s.part 1).periodAt + 1000 * ((s.part 1).slice.toNat % 2 ^ 20 - s.dfield (aVfSlice 1) 48 16) = 10000) ∧
    (sliced s 2 = true ∧ partState s 2 = 1 ∧ (s.part 2).periodAt + 1000 * ((s.part 2).slice.toNat / 2 ^ 20 % 2 ^ 20) = 20000 ∧
      resident s 2 = false ∧ ((clustersOf s 2).findSome? (holderOf s)) = some 1 ∧
      ∀ k ∈ clustersOf none_ 2, holderOf none_ k = none) ∧
    (holderOf due 0 = some 1 ∧ switchDue due 0 = true ∧ clusterEmpty due 0 = true ∧ peerNow due 1 = 2 ∧ switchDue s 0 = false) ∧
    (1000 ≤ 1000 ∧ 1000 < 1001 ∧ partActive s 1 = true ∧ 10000 ≤ 10000 ∧ 10000 < 10001) := by decide +kernel

/-! ## Witnesses: the engine and the services -/

/-- A copy node of partition 1's kettle over some descriptors, and the machine with it. -/
def nodeCopy (ds : List Desc) : Copy :=
  { aCopy with kind := .node 5 0, part := 1, priv := 0, core := none, wg := none, team := none, descs := ds }

def copying (s : State) (c : Copy) : State := s.putCopy 3 c

/-- The tile that a copy comes to. -/
def tileOf_ (c : Copy) : CopyPos := ((copyTileAt c.descs c.next).getD ⟨0, 0, 0, aDesc⟩)

/-- A copy with no translated tile performs none. -/
theorem lateTurn_nil (s : State) (k : Nat) (c : Copy) (h : c.late = []) : lateTurn s k c = none := by
  simp [lateTurn, h]

/-- A copy whose tiles are all translated performs the one that is left. -/
theorem lateTurn_last (s : State) (k : Nat) (c : Copy) (x : LateTile) (h : c.late = [x]) (hp : c.position = none) :
    lateTurn s k c = some x := by
  simp [lateTurn, h, hp, Nat.mod_one]

/-- CopyTileStep: suspended and not; a tile that waits, none left, and one to come to; no allowance, and enough; no cluster;
no tokens and some; a tile that is translated, one whose source is absent, one beyond the address space; a RESEAL that breaks
its conditions at its first tile, and at a later one. -/
theorem test_witness_copyTile :
    let c := nodeCopy [aDesc]
    let far := nodeCopy [{ aDesc with src := 0x40000000 }]
    let beyond := nodeCopy [{ aDesc with src := BitVec.ofNat 64 (2 ^ 57) }]
    let two := nodeCopy [{ aDesc with rows := 2 }]
    let reseal := { two with reseal := true }
    let s := copying active c
    let poor := s.putCluster 0 { s.cluster 0 with clrate := 1 }
    let bare := ((s.putDreg (aClLo 1) 0).putDreg (aClHi 1) 0)
    let mean := s.putPart 1 { s.part 1 with rate := 4 }
    let met (c : Copy) := (aimTile s c c.next (tileOf_ c)).1
    (s.copy 3 = some c ∧ copyRuns s c = true ∧ copyRuns s { c with suspended := some 0 } = false) ∧
    (lateTurn s 3 { c with next := 1, late := [aTile] } = some aTile ∧ lateTurn s 3 { c with next := 1 } = none ∧
      ({ c with next := 1 }).position = none ∧ lateTurn s 3 c = none ∧ c.position = some (tileOf_ c)) ∧
    (copyCluster s c = some 0 ∧ c.requester.part = some 1 ∧ allowed s 0 8 (copyRank s c) = true ∧
      allowed poor 0 8 (copyRank poor c) = false ∧ copyCluster bare c = none) ∧
    (drawTokens s 1 (ceilDiv 64 64) = some s ∧ drawTokens mean 1 1 = none) ∧
    ((match met c with | .ok x => x.n == 64 | .error _ => false) = true ∧ met far = .error (3, 0x40000000, false) ∧
      met beyond = .error (8, 2 ^ 57, false)) ∧
    ((resealOk s reseal).1 = false ∧
      (match met { reseal with next := 1 } with | .ok x => x.oneTile | .error _ => true) = false) ∧
    (copyTileAt c.descs 1 = none ∧ copyTileAt two.descs 1 ≠ none) :=
  ⟨by decide +kernel, ⟨lateTurn_last _ _ _ _ rfl (by decide +kernel), lateTurn_nil _ _ _ rfl, by decide +kernel,
    lateTurn_nil _ _ _ rfl, by decide +kernel⟩, by decide +kernel, by decide +kernel, by decide +kernel, by decide +kernel,
    by decide +kernel⟩

/-- CopyTiles: a row of two tiles. -/
theorem test_witness_CopyTiles :
    let d := { aDesc with rowBytes := 4096, src := 2000 }
    (rowTiles d 0 (d.rowBytes + 1) 0).map (fun p => p.n) = [48, 2000, 48, 2000] := by decide +kernel

/-- SemsigStep and EngineBytes: an update that is done and one whose page is absent; tokens and none; a HOST page for a read
and for a write; an address that is not aligned; walks that find a page and that do not; a suspension of 100 ms and of
less. -/
theorem test_witness_EngineEvents :
    let sem (a : Nat) : Copy := { nodeCopy [] with kind := .semsig (BitVec.ofNat 64 a) 7 .set }
    let c := sem 64
    let s := copying active c
    let mean := s.putPart 1 { s.part 1 with rate := 4 }
    let r : Requester := kettleOf 1
    let page (wr : Bool) := enginePage active r 64 8 wr
    let held := { nodeCopy [{ aDesc with src := 0x40000000 }] with suspended := some 0 }
    let at_ (n : Nat) : State := { copying active held with ns := n }
    (s.copy 3 = some c ∧ copyRuns s c = true ∧ drawTokens mean 1 1 = none ∧ drawTokens s 1 1 = some s ∧
      (semUpdate s c.requester 64 7 .set).1 ≠ 3 ∧ (semUpdate s c.requester 0x40000000 7 .set).1 = 3) ∧
    ((match (page true).1 with | .ok (x, pa) => x.pte.typ == 1 && pa == 64 | .error _ => false) = true ∧
      (match (page false).1 with | .ok (x, pa) => x.pte.typ == 1 && pa == 64 | .error _ => false) = true ∧ (65 : DWord).toNat % 8 ≠ 0) ∧
    ((match (walk active (some 1) 64 false).1 with | .ok _ => true | .error _ => false) = true ∧
      (match (walk active (some 1) 0x40000000 false).1 with | .ok _ => false | .error _ => true) = true ∧
      (511 : Nat) < 512 ∧ (64 : DWord).toNat < 2 ^ 57 ∧ ¬ (512 : Nat) < 512) ∧
    ((at_ 0).copy 3 = some held ∧ held.suspended = some 0 ∧ held.saved = false ∧ partActive (at_ 0) held.part = true ∧
      0 + 100000000 ≤ residentNs (at_ 100000000) 1 ∧ residentNs (at_ 99999999) 1 < 0 + 100000000 ∧
      ((retryCopy (at_ 100000000) 3).copy 3).map (fun x => x.suspended) = some (some 0) ∧
      ((retryCopy (at_ 100000000 |>.putCopy 3 { held with descs := [aDesc] }) 3).copy 3).map (fun x => x.suspended) = some none) := by
  decide +kernel

/-- ServiceEvents: VFs without a rate, with tokens, with an empty bucket and a pool, beyond a quarter of the rate; an open
tile of 1 ms and of less, good and bad; the breeze off, on, with FIX and at an open tile; tiles that pass and that do
not. -/
theorem test_witness_ServiceEvents :
    let s := active.putDfield (aVfTok 1) 0 24 8
    let paid := s.putPart 1 { s.part 1 with rate := 8 }
    let rich := s.putPart 1 { s.part 1 with rate := 8, bucket := 3 }
    let lent := { paid with pool := 10 }
    let o (b : Bool) : OpenTile := { tile := 9, part := 1, key := 5, bytes := [], since := 0, bad := [(31, b)] }
    let e (b : Bool) : State := { active with openTiles := [o b] }
    let awake := State.reset.putDfield aBreezeCtl 0 1 1
    let plain := State.reset.putDfield aBreezeCtl 0 2 1
    let sealed_ : Caddy := sealedCaddy 0
    (State.reset.dfield (aVfTok 1) 0 24 = 0 ∧ s.dfield (aVfTok 1) 0 24 = 8 ∧ (s.part 1).rate = 0 ∧ (paid.part 1).rate = 8 ∧
      s.ns < s.tokenAt + 1000 ∧ s.tokenAt + 1000 ≤ ({ s with ns := 1000 }).ns ∧ (paid.part 1).bucket = 0 ∧ (rich.part 1).bucket = 3 ∧
      3 ≤ (rich.part 1).bucket ∧ (rich.part 1).bucket < 4 ∧ 2 ≤ lent.pool ∧ (lent.part 1).borrowed + 2 ≤ 8 / 4 ∧
      8 / 4 < (lent.part 1).borrowed + 3 ∧ s.pool ≤ 1048576) ∧
    (openOf (e false) 9 = some (o false) ∧ openOf (e true) 9 = some (o true) ∧ (o false).badGranule true 0 2048 = none ∧
      (o true).badGranule true 0 2048 = some 31 ∧ pathFail (e false) 9 = none ∧ 0 + 1000000 ≤ ({ e false with ns := 1000000 }).ns ∧
      ({ e false with ns := 999999 }).ns < 0 + 1000000) ∧
    ((State.reset.dreg aBreezeCtl).getLsbD 0 = false ∧ (awake.dreg aBreezeCtl).getLsbD 0 = true ∧ (awake.dreg aBreezeCtl).getLsbD 1 = true ∧
      (plain.dreg aBreezeCtl).getLsbD 0 = true ∧ (plain.dreg aBreezeCtl).getLsbD 1 = false ∧ openOf awake 0 = none ∧
      openOf { awake with openTiles := [{ o false with tile := 0 }] } 0 ≠ none ∧ (awake.caddy 0).state = 0) ∧
    (((awake.putCaddy 0 sealed_).caddy 0).state = 1 ∧ pathFail (awake.putCaddy 0 sealed_) 0 = none ∧
      tagMatches (awake.putCaddy 0 sealed_) 0 = true ∧ ((awake.putCaddy 0 { sealed_ with state := 2 }).caddy 0).state = 2 ∧
      4 ≤ ((awake.putCaddy 0 { sealed_ with state := 4 }).caddy 0).state) := by
  decide +kernel

/-- StreamEvents: a stream that waits with room, without room, and none; an admitted stream that fetches a clause and one
that cannot; operations that share a slot and that do not. -/
theorem test_witness_StreamEvents :
    let waits : Stream := { quiet with admitted := false, w := 768, s := 512 }
    let s := streaming waits { streamWg with window := none }
    let full := s.putStream 2 { quiet with wg := 9, s := 1 }
    let rdy : Stream := { quiet with pc := 0x4000FFFC, clause := none }
    let f : State := (((coded { agent with clause := some word0 } 0x51 0xFE000000).putWg 0 streamWg).putStream 1 rdy)
    let bad : State := (((coded { agent with clause := some word0 } 0x1 0x00070506).putWg 0 streamWg).putStream 1 rdy)
    let got (s : State) := fetchClause s none (some 0) rdy.pc
    let op : StreamOp := { slots := [0], tiles := [3], engine := true, mem := none }
    let busy : Stream := { quiet with inflight := [op, { op with slots := [1], tiles := [3] }, { op with slots := [2], tiles := [4] }] }
    (entriesOf s 0 = [(1, waits)] ∧ waits.admitted = false ∧ streamRuns s waits = true ∧ s.wg 0 = some { streamWg with window := none } ∧
      waits.s ≤ freeOpSlots s 0 ∧ waits.w ≤ freeTiles s 0 0 ∧ freeOpSlots full 0 < waits.s ∧ entriesOf (on agent) 0 = []) ∧
    (f.stream 1 = some rdy ∧ f.wg rdy.wg = some streamWg ∧ rdy.admitted = true ∧ rdy.clause = none ∧ streamRuns f rdy = true) ∧
    ((got f).1 = .ok (0x51, [0xFE000000]) ∧ clauseFail (.stream rdy.w rdy.s) 0x51 [0xFE000000] = none ∧
      (got bad).1 = .ok (1, [0x00070506]) ∧ clauseFail (.stream rdy.w rdy.s) 1 [0x00070506] ≠ none ∧
      (got (on agent)).1 = .error 6) ∧
    ((∃ p ∈ busy.inflight.take 1, ∃ t ∈ p.tiles, t ∈ [3]) ∧
      ¬ ∃ p ∈ busy.inflight.take 2, (∃ t ∈ p.tiles, t ∈ [4]) ∨ ∃ n ∈ p.slots, n ∈ [2]) := by
  decide +kernel

/-! ## Witnesses: rates, registers, the host -/

/-- RateEvents and Allowance: a cluster that is ON and one that is not; a regulation that is due and one that is not; a
cluster that the partition owns; readings above the cap, below 95% of it with issue withheld, and between; a µs that goes on,
and ends of one with a fall and without; a ballast pass that runs. -/
theorem test_witness_RateEvents :
    let s := active.putDfield (aPcap 1) 0 16 100
    let w := s.putCluster 0 { s.cluster 0 with withheld := true, clrate := 320, clrate0 := 300 }
    let cap := effectiveCap w 1
    (clState s 0 = 0 ∧ clState (s.putDfield (aClState 0) 0 3 1) 0 ≠ 0) ∧
    (ownsCluster w 1 0 = true ∧ ownsCluster State.reset 1 0 = false ∧ (w.cluster 0).withheld = true ∧
      cap.1 < 101 * cap.2 ∧ 100 * cap.2 ≤ cap.1 ∧ 94 * cap.2 ≤ cap.1 ∧ 100 * 94 * cap.2 < 95 * cap.1 ∧
      95 * cap.1 ≤ 100 * 95 * cap.2) ∧
    (s.ns < (s.part 1).regAt + 10000 ∧ (s.part 1).regAt + 10000 ≤ ({ s with ns := 10000 }).ns) ∧
    (let low := (s.putDfield aBallast 0 1 1).putCluster 0 { s.cluster 0 with low := true, lastDebit := 6000 }
     let fall : State := { s.putCluster 0 { s.cluster 0 with debit := 2, lastDebit := 6000 } with ns := 1999 }
     let level : State := { s.putCluster 0 { s.cluster 0 with debit := 3000, lastDebit := 6000 } with ns := 1000 }
     (low.ns < (low.cluster 0).winAt + 1000 ∧ (low.dreg aBallast).getLsbD 0 = true ∧ (low.cluster 0).low = true ∧
       entries low.streams = [] ∧ (low.cluster 0).debit + 5000 * (low.cluster 0).ballast < (low.cluster 0).lastDebit) ∧
     ((fall.cluster 0).winAt + 1000 ≤ fall.ns ∧ fall.ns < (fall.cluster 0).winAt + 2000 ∧
       2 * (fall.cluster 0).debit < (fall.cluster 0).lastDebit) ∧
     (level.cluster 0).winAt + 1000 ≤ level.ns ∧ level.ns < (level.cluster 0).winAt + 2000 ∧
       (level.cluster 0).lastDebit ≤ 2 * (level.cluster 0).debit ∧ (level.cluster 0).low = false) ∧
    (let m (s : State) : Nat := min (hintAt s 0) (min (paceAt s 0) (thermalOf s 0))
     holderOf s 0 = some 1 ∧ pointAt s 0 ≠ m s ∧ m s ≠ 0 ∧ pointAt (s.putDfield (aClState 0) 8 4 2) 0 = m s ∧ holderOf State.reset 0 = none) := by
  decide +kernel

/-- RegisterWrites: the last function and filter; EN of a filter rising and staying; F-level addresses with no register and
of read-only ones; each kind of BAR0 offset, reached and not. -/
theorem test_witness_RegisterWrites :
    let s := active
    (63 < 64 ∧ 255 < 256 ∧ (0x80000000 : DWord).getLsbD 31 = true ∧ (s.dreg (aIngFilt 255)).getLsbD 31 = false ∧
      ((s.putDfield (aIngFilt 255) 31 1 1).dreg (aIngFilt 255)).getLsbD 31 = true ∧ (2 : DWord).getLsbD 1 = true ∧
      (1 : DWord).getLsbD 1 = false) ∧
    (regAt 0x70000 = none ∧ barAddress 1 0x2000 = none ∧ (0x2000 : Nat) < 0xE0000) ∧
    (barAddress 1 0x98 = some (aBlock 1 0x98) ∧ aBlock 1 0x98 % 4 = 0 ∧ regReached s 1 (some 1) (aBlock 1 0x98) = true ∧
      regReached s 1 (some 1) (aBlock 1 0x00) = false ∧ barAddress 1 0x99 = some (aBlock 1 0x98 + 1)) ∧
    ((1 : DWord).getLsbD 0 = true ∧ (s.mailbox 1).busy = false ∧ 1 < 64 ∧ 63 ≠ 1 ∧ (0xFF : Nat) < 0x100) := by decide +kernel

/-- A host window of partition 1 under key 5 over the first 2 MiB beside the firmware reserve's first GiB. -/
def windowed : State :=
  active.putDreg (aHwin 5) (BitVec.ofNat 64 (1 + 5 * 2 + 1 * 2 ^ 12 + 512 * 2 ^ 18 + 513 * 2 ^ 36))

/-- A decoder of one way over 4 GiB from host address 2^40 on. -/
def decoder0 : Hdm := { on := true, base := 2 ^ 40, size := 2 ^ 32, skip := 0, ways := 1, gran := 256 }

/-- HostAndMailbox: a host address that a decoder maps, one that it does not, and no decoder; an access in no window, in a window, across its end, under a key that is not VALID, and in a channel
group that the partition does not own; requests of each kind, refused and not; a ticket that can be posted and one that
cannot; links of 16 and 3 lanes. -/
theorem test_witness_HostAndMailbox :
    let s := windowed
    let asked (fn : Nat) (l : List Byte) : State :=
      { active with host := Memory.write [] 0 l, boot := { active.boot with state := 2 } }.putMailbox fn
        { addr := 0, busy := true, result := 0, nonce := 0 }
    let kind (l : List Byte) : Nat := num (Memory.read (asked 1 l).host 0 4096) 0 1
    let full : State := { asked 0 [1] with scratch := Memory.write [] (ticketAt 0) (toBytes 8 63) }
    (hostWindow s 0 = none ∧ (hostWindow s 0x40000000).isSome = true ∧ (cxlKey s 0x40000000 64).1 = some 5 ∧
      (cxlKey s (0x40400000 - 32) 64).1 = none ∧ (cxlKey { s with keyValid := [] } 0x40000000 64).1 = none ∧
      (cxlKey (s.putDreg (aCgMask 1) 0) 0x40000000 64).1 = none ∧ (zeros 64).length = 64) ∧
    ((asked 1 [4]).boot.state = 2 ∧ ((asked 1 [4]).mailbox 1).busy = true ∧ kind [1] = 1 ∧ kind [2] = 2 ∧ kind [3] = 3 ∧
      kind [4] = 4 ∧ kind [] = 0 ∧ kind [5] = 5) ∧
    ((postTicket (asked 0 [1]) 0 0).isSome = true ∧ postTicket full 0 0 = none) ∧
    (keyInRange s 1 6 = false ∧ keyInRange s 1 5 = true ∧ (active.mailbox 1).busy = false ∧ active.boot.state ≠ 2 ∧
      16 ∈ [16, 8, 4, 2, 1] ∧ 128 ∈ [128, 64, 32, 16, 8] ∧ 3 ∉ [16, 8, 4, 2, 1]) ∧
    (let m : State := { s with hdm := [(0, decoder0)] }
     (∀ k < 4, (s.decoder k).on = false) ∧ ((m.decoder 0).on = true ∧ (m.decoder 0).ways ≤ 1 ∧
       ∀ k < 4, k ≠ 0 → (m.decoder k).on = false) ∧ deviceAddress m (2 ^ 40 + 0x40000000) = some 0x40000000 ∧
     deviceAddress m 0 = none ∧ (2 ^ 40 + 0x40000000) % 64 + (zeros 64).length ≤ 64 ∧ 64 < 1 % 64 + (zeros 64).length) := by
  decide +kernel

/-- PtpAndIngress: a good message of each kind and one of another domain; a chosen leader and none; a clock that is locked,
that holds, and that does neither; leaders ahead, behind, equal, and more than 1 ms away; frames that a filter takes and that
none takes, in replay and not; a hold that ends and one that does not. -/
theorem test_witness_PtpAndIngress :
    let said : Announce :=
      { prio1 := 1, cls := 2, accuracy := 3, variance := 4, prio2 := 5, grandmaster := 6, steps := 0, interval := 1000 }
    let leader : PtpLeader := { source := 8, data := said, at_ := 4999000, before := some 4998000 }
    let s0 : State := { (State.reset.putDreg aPtpCfg 0x801) with ns := 5000000 }
    let s : State := { s0 with ptp := { s0.ptp with leaders := [leader] } }
    let m (b : PtpBody) : PtpMsg := { domain := 1, transport := 0, source := 8, body := b }
    let time (t : Nat) : PtpMsg := m (.time t)
    let locked := s.putDfield aPtpState 0 1 1
    let hold (t : Nat) : State := { s with ptp := { s.ptp with held := true, base := 1000, leader := t, leaderAt := 5000000 } }
    let f : Frame :=
      { goodFcs := true, oneTagAtMost := true, addressed := true, plainIp := true, goodUdp := true, ptp := false, dstPort := 9
        srcPort := 1, tci := some 7, payload := [1, 2] }
    let filt (v : Nat) : State := State.reset.putDreg (aIngFilt 3) (BitVec.ofNat 64 (9 + 7 * 2 ^ 16 + v * 2 ^ 28 + 2 ^ 31))
    let cfg := s.dreg aPtpCfg
    (cfg.getLsbD 11 = true ∧ dfld cfg 0 8 = (m .pdelayReq).domain.toNat ∧ dfld cfg 8 2 = (m .pdelayReq).transport.toNat ∧
      dfld cfg 8 2 ≠ 3 ∧ dfld cfg 0 8 ≠ ({ m .pdelayReq with domain := 2 }).domain.toNat ∧ cfg.getLsbD 10 = false ∧
      ((s.putDfield aPtpCfg 10 1 1).dreg aPtpCfg).getLsbD 10 = true ∧ (m (.announce said)).body = .announce said) ∧
    (bestLeader s = some leader ∧ leader.source = (time 0).source ∧ bestLeader s0 = none ∧
      (time 7).body = .time 7) ∧
    ((s.dreg aPtpState).getLsbD 0 = false ∧ s.ptp.held = false ∧ (locked.dreg aPtpState).getLsbD 0 = true ∧ (hold 0).ptp.held = true ∧
      ((hold 0).dreg aPtpState).getLsbD 0 = false ∧ 0 < ptpNow s ∧ 1000000 < ((ptpNow s : Int) - 0).natAbs) ∧
    (((filt 1).dreg (aIngFilt 3)).getLsbD 31 = true ∧ (filt 1).dfield (aIngFilt 3) 0 16 = f.dstPort.toNat ∧
      (filt 1).dfield (aIngFilt 3) 28 2 = 1 ∧ (7 : BitVec 16).toNat % 4096 = (filt 1).dfield (aIngFilt 3) 16 12 ∧
      f.tci = some 7 ∧ (filt 0).dfield (aIngFilt 3) 28 2 = 0 ∧ f.tci ≠ none ∧ (filt 2).dfield (aIngFilt 3) 28 2 = 2 ∧ filterReplayed (filt 1) 3 = false ∧
      ∀ j < 3, ((filt 1).dreg (aIngFilt j)).getLsbD 31 = false) ∧
    ((hold 1000).ptp.base ≤ (hold 1000).ptp.leader + ((hold 1000).ns - (hold 1000).ptp.leaderAt) ∧
      (hold 999).ptp.leader + ((hold 999).ns - (hold 999).ptp.leaderAt) < (hold 999).ptp.base) := by decide +kernel

/-- PtpAndIngress: a filter whose frames a queue's replay gives. -/
theorem test_witness_replayedFilter :
    let s := ((active.putQueue 0 { Queue.init with tail := 1 }).putDfield (aRplyCtl 0) 0 2 2).putDreg (aRplyBase 0) 0x40001000
    let s := (s.putDreg (aRplySize 0) 65536).putDreg (aIngFilt 3) (BitVec.ofNat 64 (2 ^ 31 + 2 ^ 32 + 9))
    let m := node 0xA000 [(1, 0x8E7 + 5 * 2 ^ 16 + 0x40000000 * 2 ^ 64)] ptables
    filterReplayed { s with hbm := Memory.write m 0x40001000 [2, 3], caddies := sealedTiles 5 4 17 ++ sealedTiles 5 524290 1 } 3 =
      true := by decide +kernel

/-! ## Witnesses: partitions, power, reset, boot -/

/-- PartitionOps: each outcome of CONNECT's checks, with a pair and without; an operation that runs and none; a CONNECT, a
DISCONNECT and a REGRANT that end; a unit that is retired anew. -/
theorem test_witness_PartitionOps :
    let f (s : State) (n first count : Nat) : State :=
      ((s.putDreg (aVfCores n) (BitVec.ofNat 64 (first + count * 2 ^ 8))).putDreg (aVfChan n) 0).putDreg (aVfKeys n) 0
    let s := f State.reset 2 126 2
    let long := f State.reset 2 127 2
    let held := f ((State.reset.putDfield (aPartState 1) 0 3 1).putDreg (aClHi 1) (BitVec.ofNat 64 (2 ^ 63))) 2 126 2
    let short := s.putDfield (aVfCores 2) 16 10 9
    let run (op : Nat) : State := { active with partOp := some { op := op, part := 1, retire := [] } }
    (partState s 2 = 0 ∧ partState active 1 = 1 ∧ connectCheck s 2 = 0 ∧ connectCheck long 2 = 2 ∧ connectCheck held 2 = 1 ∧
      connectCheck short 2 = 3 ∧ connectCheck active 1 = 4 ∧ s.partOp = none ∧ 63 < 64) ∧
    ((run 1).partOp = some { op := 1, part := 1, retire := [] } ∧ (run 3).partOp ≠ none ∧ (1 : Nat) ≤ partState active 1) ∧
    (active.partOp = none ∧ (1 : DWord).getLsbD 0 = true ∧ (active.dreg (aRetire 0)).getLsbD 0 = false ∧ 0 < 3 ∧ 3 ≤ 3) := by
  decide +kernel

/-- Cluster 3 of partition 1 in a state. -/
def cluster3 (n : Nat) : State := active.putDfield (aClState 3) 0 3 n

/-- The transitions of R322. -/
def transitions : List (Nat × Nat × Nat) := [(0, 1, 1), (1, 2, 2), (2, 3, 3), (3, 4, 1), (1, 0, 0), (2, 0, 0)]

/-- PowerEvents: an OP that goes, one that is no transition, one of a retired cluster, and one while DONE is 0. -/
theorem test_witness_powerRequests :
    let s := active
    let retired := (cluster3 1).putDfield (aRetire 0) 3 1 1
    s.dfield (aClAck 3) 0 1 = 1 ∧ (s.putDreg (aClAck 3) 0).dfield (aClAck 3) 0 1 = 0 ∧ (clState s 3, 1, 1) ∈ transitions ∧
    (∀ t < 8, (clState s 3, 4, t) ∉ transitions) ∧ clusterRetired retired 3 = true ∧ clState retired 3 ≠ 0 ∧
    (clState (cluster3 1) 3, 2, 2) ∈ transitions ∧ clusterRetired (cluster3 1) 3 = false ∧ 127 < 128 ∧ 511 < 512 := by
  decide +kernel

/-- PowerEvents: each OP with its end and without, of a cluster that is retired meanwhile and of one that is not. -/
theorem test_witness_PowerEvents :
    let s := active
    let wfi (t : Team) : State := (on t).putCluster 0 { (on t).cluster 0 with op := some (2, 2) }
    ((wfi agent).cluster 0).op = some (2, 2) ∧ opMayEnd (wfi agent) 0 2 = false ∧
    opMayEnd (wfi { agent with park := .wfi 8 none }) 0 2 = true ∧ opMayEnd s 3 1 = true ∧
    opMayEnd ((s.putWg 3 { wg1 with core := 12 }).putTeam 1 user) 3 1 = false ∧ opMayEnd s 3 0 = true ∧ opMayEnd s 3 4 = true ∧
    (s.cluster 3).op = none ∧ clusterRetired s 3 = false ∧ clusterRetired (s.putDfield (aRetire 0) 3 1 1) 3 = true ∧
    (entries (on agent).teams).map Prod.fst = [0] := by decide +kernel

/-- PowerEvents: an image at the reserve's end and past it, of a cluster that is QUIESCED and of one that is not; wakes of a
cluster that is ON, latched and not. -/
theorem test_witness_retentionBounds :
    let s := active
    let ret (r : Bool) (a : Nat) : State := (cluster3 1).putCluster 3 { (cluster3 1).cluster 3 with ret := some (r, a) }
    ((ret false 0x1FFE0000).cluster 3).ret = some (false, 0x1FFE0000) ∧ 0x1FFE0000 + 131072 ≤ 0x20000000 ∧
    0x20000000 < 0x1FFE0800 + 131072 ∧ clState (ret true 0x1FFE0000) 3 = 1 ∧ ((ret true 0x1FFE0000).cluster 3).ret = some (true, 0x1FFE0000) ∧
    0x1FFE0800 % 2048 = 0 ∧ (s.dreg (aRetDone 3)).getLsbD 0 = true ∧ ((s.putDreg (aRetDone 3) 0).dreg (aRetDone 3)).getLsbD 0 = false ∧
    (s.cluster 3).ret = none ∧ clState s 3 = 0 ∧ ((cluster3 2).dreg (aClState 3)).getLsbD 3 = false ∧
    (((cluster3 2).putDfield (aClState 3) 3 1 1).dreg (aClState 3)).getLsbD 3 = true ∧
    ofBytes (Memory.read s.scratch (ticketAt 0) 8) ≤ ofBytes (Memory.read s.scratch (ticketAt 8) 8) := by decide +kernel

/-- Blank data tiles that are not open read without a failure, whatever else the state holds. -/
theorem sealReads_blank (k src : Nat) (s : State) (ho : s.openTiles = []) (hc : s.caddies = []) (fuel a n : Nat)
    (hn : a + n ≤ 63 * 2 ^ 30) : sealReads k src fuel s a n = (0, (sealReads k src fuel State.reset a n).2.1, s) := by
  have one (s : State) (ho : s.openTiles = []) (hc : s.caddies = []) (a n : Nat) (ha : a < 63 * 2 ^ 30) :
      sealRead s k src a n = (0, zeros n, s) := by
    have hm : inMetadata a = false := by simp only [inMetadata, decide_eq_false_iff_not]; omega
    simp [sealRead, sealCheck, tileBytes, plainBytes, openOf, State.caddy, ho, hc, fget, Caddy.blank, hm]
  induction fuel generalizing a n with
  | zero => simp [sealReads]
  | succ fuel ih =>
    simp only [sealReads]
    split
    · rfl
    · have ha : a < 63 * 2 ^ 30 := by omega
      rw [one s ho hc _ _ ha, one State.reset rfl rfl _ _ ha]
      dsimp only
      rw [ih (a + _) (n - _) (by omega)]; simp

/-- PowerEvents: an image that reads without a failure and whose CRC-32C is the saved one's. -/
theorem test_witness_retention : ∃ (s : State) (x : RetImage),
    (s.cluster 3).ret = some (true, 0) ∧ clState s 3 = 1 ∧ s.retImages.find? (fun y => y.cluster == 3) = some x ∧
    (sealReads 0 0 66 s 0 131072).1 = 0 ∧ crc32c (sealReads 0 0 66 s 0 131072).2.1 = x.sum ∧
    x.sum.setWidth 64 = s.dreg (aRetSum 3) := by
  obtain ⟨v, hv⟩ : ∃ v : Word, v = crc32c (sealReads 0 0 66 State.reset 0 131072).2.1 := ⟨_, rfl⟩
  let x : RetImage := { addr := 0, cluster := 3, teams := [], wgs := [], scratch := [], alw := 0, clrate := 0, point := 0, sum := v }
  let s0 := (State.reset.putCluster 3 { State.reset.cluster 3 with ret := some (true, 0) }).putDreg (aClState 3) 1
  let s : State := { s0.putDreg (aRetSum 3) (v.setWidth 64) with retImages := [x] }
  have h := sealReads_blank 0 0 s rfl rfl 66 0 131072 (by decide)
  refine ⟨s, x, rfl, ?_, by simp [s, x], by rw [h], ?_, ?_⟩
  · show dfld ((s0.putDreg (aRetSum 3) (v.setWidth 64)).dreg (aClState 3)) 0 3 = 1
    rw [State.dreg_putDreg_other _ _ (by decide)]; simp only [s0]; rw [State.dreg_putDreg_same]; decide
  · rw [h]; exact hv.symm
  · exact (State.dreg_putDreg_same s0 (aRetSum 3) (v.setWidth 64)).symm

/-- ResetAndBoot: partitions that are OFF, ACTIVE and CHANGING; a boot that waits, verifies, has failed, and has succeeded. -/
theorem test_witness_ResetAndBoot :
    let s (n : Nat) : State := active.putDfield (aPartState 1) 0 3 n
    let b (n : Nat) : State := { active with boot := { active.boot with state := n } }
    partState (s 0) 1 = 0 ∧ partState (s 1) 1 = 1 ∧ partState (s 3) 1 = 3 ∧ 3 < partState (s 5) 1 ∧ active.boot.state = 0 ∧
    (b 3).boot.state = 3 ∧ (b 2).boot.state ≠ 0 ∧ (b 2).boot.state ≠ 3 ∧ ownsQueue active 1 0 = true := by decide +kernel

/-- ResetAndBoot: a verification without a copy; of a copy with a tile that fails; of an image whose header is wrong. -/
theorem test_witness_bootVerify :
    let b (a : Option Nat) : State := { active with boot := { active.boot with state := 1, copyAt := a, size := 2048 } }
    let bad := (b (some 0)).putCaddy 0 { Caddy.blank with state := 2 }
    let o : OpenTile := { tile := 0, part := 0, key := 0, bytes := [(40, 1)], since := 0, bad := [] }
    let wrong : State := { b (some 0) with openTiles := [o] }
    let r (s : State) := sealReads 0 0 (s.boot.size / 2048 + 2) s 0 s.boot.size
    (b none).boot.state = 1 ∧ (b none).boot.copyAt = none ∧ bad.boot.copyAt = some 0 ∧ (r bad).1 ≠ 0 ∧
    wrong.boot.copyAt = some 0 ∧ (r wrong).1 = 0 ∧ bootCheck (r wrong).2.1 ≠ 0 := by
  intro b bad o wrong r
  have h : zeroRange (r wrong).2.1 32 512 = false := by decide +kernel
  refine ⟨rfl, rfl, rfl, by decide +kernel, rfl, by decide +kernel, ?_⟩
  unfold bootCheck
  rw [if_pos (Or.inr (by rw [h]; rfl))]
  decide

/-! ## Witnesses: steps -/

/-- A state whose next turn is decided. -/
def turning (s : State) (a : Act) : State := { s with agenda := [{ dt := 3, act := a }] }

/-- StepRunsDecodedInstruction and MemoryInvariant: a device step, a word as an event, a stop for heat; a team that issues, one
that is not ready, one whose word decodes and one whose word does not; a word that is withheld, and a register to refill. -/
theorem test_witness_StepRunsDecodedInstruction :
    let s := on agent
    let t (w : Word) : Team := { agent with clause := some (fetchClauseOf w.toNat) }
    let at_ (u : Team) : State := { on u with ns := (on u).ns + 3 }
    encode .agentDb = [] ∧ encode (.iadd 7 5 6) ≠ [] ∧ s.heatStop = false ∧ (turning s (.event .agentDb)).agenda = [{ dt := 3, act := .event .agentDb }] ∧
    ({ s with heatStop := true }).heatStop = true ∧
    (turning s (.issue 0)).team 0 = some agent ∧ agent.clause = some word0 ∧ teamReady (at_ agent) agent word0 = true ∧
    teamReady (at_ { agent with park := .wfi 8 none }) { agent with park := .wfi 8 none } word0 = false ∧
    (fetchClauseOf 0x00070506).words[agent.slot]? = some 0x00070506 ∧ teamReady (at_ (t 0x00070506)) (t 0x00070506) (fetchClauseOf 0x00070506) = true ∧
    decodeWords 0x00070506 (((fetchClauseOf 0x00070506).words[1]?).getD 0) = .ok (.iadd 7 5 6) ∧
    (fetchClauseOf 0xDE000000).words[agent.slot]? = some 0xDE000000 ∧ decodeWords 0xDE000000 0 = .error .undefinedOpcode ∧
    (withheld (at_ agent) agent 1 = false ∧ agent.evicted = [] ∧ agent.passOut = [] ∧ ({ agent with evicted := [9] }).evicted ≠ []) ∧
    (let low := (loaded1 launch1 { wg1 with order := 5 } { user with wg := 3, launch := 7, issueAt := 0 })
     let poor : State := { low.putCluster 0 { low.cluster 0 with clrate := 1, alw := -256 } with ns := 1 }
     withheld poor { user with wg := 3, launch := 7, issueAt := 0 } 1 = true) := by
  decide +kernel

/-- A placed word at a team's turn: every word's step from the state after reset answers a next state. -/
theorem test_witness_MemoryInvariant :
    State.reset.wf = true ∧ (turning (on agent) (.event .agentDb)).wf = true ∧
    (match step (turning (on agent) (.event .agentDb)) with | .next t => t.wf | _ => false) = true ∧
    (match step (State.reset.withFetchWord 32 0x00070506) with | .next t => t.wf | _ => false) = true := by decide +kernel

/-- StepRunsStreamWord: a stream that waits for its operations, one that is not admitted, a NOP, an engine operation that is
granted and one that is not, and an issue with allowance and without. -/
theorem test_witness_StepRunsStreamWord :
    let c (w : Word) : Clause := { fetchClauseOf w.toNat with started := false }
    let x (w : Word) : Stream := { quiet with clause := some (c w), rank := 5 }
    let s (w : Word) : State := { turning (streaming (x w) streamWg) (.stream 1) with agenda := [], ns := 3 }
    let nop : Word := 0xDA000000
    let mzero : Word := 0xFA000000
    let late : Clause := { c nop with hdr := (c nop).hdr ||| 0x4000, started := false }
    let busy : Stream := { working with clause := some late }
    let poor : State := (s mzero).putCluster 0 { (s mzero).cluster 0 with clrate := 1 }
    let other : State := (s mzero).putStream 2 { x mzero with inflight := [{ slots := [], tiles := [], engine := true, mem := none }] }
    ((s nop).stream 1 = some (x nop) ∧ (x nop).clause = some (c nop) ∧ (x nop).admitted = true ∧ streamRuns (s nop) (x nop) = true ∧
      (c nop).started = false ∧ (hdrWait (c nop).hdr).testBit 7 = false ∧ (c nop).words[(x nop).slot]? = some nop ∧
      decodeWords nop 0 = .ok .nop ∧ (s nop).heatStop = false) ∧
    (late.started = false ∧ (hdrWait late.hdr).testBit 7 = true ∧ busy.inflight ≠ []) ∧
    (decodeWords mzero 0 = .ok (.mzero 0) ∧ isEngineOp (.mzero 0) = true ∧ engineGrants (s mzero) 1 (x mzero) = true ∧
      engineGrants other 1 (x mzero) = false ∧ streamWeight (x mzero) (.mzero 0) = 300 ∧ (x mzero).rank ≠ 64 ∧
      allowed (s mzero) 0 300 5 = true ∧ allowed poor 0 300 5 = false) ∧
    (isMma (.mzero 0) = false ∧ isMma (.mma 0 1 2 .bf16) = true ∧ riseHolds (s mzero) 0 = false ∧
      riseHolds (((s mzero).putDfield aBallast 0 1 1).putCluster 0 { (s mzero).cluster 0 with
        grantAt := some 0, mmaAt := clockTenths (s mzero) 0 }) 0 = true) := by decide +kernel

/-- RoundTrip: a well-formed word of one slot and one of two. -/
theorem test_witness_RoundTrip :
    (Instr.iadd 7 5 6).wellFormed = true ∧ encode (.iadd 7 5 6) = [0x00070506] ∧
    (Instr.iaddLit 8 8 0x1000).wellFormed = true ∧ encode (.iaddLit 8 8 0x1000) = [0x01080800, 0x1000] := by decide +kernel

/-! ## Witnesses: the checks of an access, and what is on its way to memory -/

/-- A page of a type on a core, at an address, with its rights. -/
def aPage (typ core addr : Nat) (rd : Bool) : Tlb :=
  { part := none, base := 0, size := 0x10000, pte := { pteOf 0 with rd := rd, wr := rd, typ := typ, core := core, addr := addr } }

/-- PageChecks: a right and none; each type; a core that the crossbar refuses and one that it lets pass; the last bytes of a
scratchpad and one beyond; the firmware's scratch area; a window's bounds; device registers of each kind; a granule that fails and
one that does not. -/
theorem test_witness_PageChecks :
    let s := (on agent).putWg 0 { fetchWg with sharedSz := 8192 }
    let u := { user with wg := 3, launch := 7 }
    let v := loaded1 launch1 wg1 u
    let rd (p : Tlb) : Prop := p.pte.rd = true
    (rd (aPage 2 1 0 true) ∧ ¬ rd (aPage 2 1 0 false)) ∧
    (teamPart s agent = none ∧ teamPart v u = some 1 ∧ ownsCluster v 1 64 = false ∧ ownsCluster v 1 63 = true) ∧
    (262140 + 4 ≤ 262144 ∧ 262144 < 262141 + 4 ∧ u.priv = 0 ∧ agent.priv = 2) ∧
    (((s.wg agent.wg).map fun w => w.sharedSz).getD 0 = 8192 ∧ teamCore s agent = 0 ∧
      8188 + 4 ≤ 8192 ∧ 8192 < 8189 + 4) ∧
    (agent.base = frameRegion ∧ agent.fsp.toNat = frameRegion ∧ (aiming 0).fsp.toNat = frameRegion + 16) ∧
    (writeWidthOk aDevEnergy 8 = true ∧ aDevEnergy % 8 = 0 ∧ regReached v 0 (some 1) aDevEnergy = false ∧
      regReached s 2 (some 0) aDevEnergy = true) ∧
    (placeBad { s with scratchBad := [(4096, true)] } (.scratch 1) 0 = true ∧ placeBad s (.scratch 1) 0 = false) := by
  decide +kernel

/-- PieceChecks, WholeAccesses and Translation: an address beyond 57 bits; walks that meet a failing tile, a key beyond the
range, no page and a page; a translation that is cached, by the model's free choice or not; a piece of the window, with bytes that
have left local memory; a word of two pages and a misaligned one. -/
theorem test_witness_PieceChecks :
    let s := paged agent
    let torn : State := { s with caddies := [(4, { sealedCaddy 0 with state := 2 })] }
    let poor := active.putDreg (aVfKeys 1) 0
    let err (m : Except Nat Tlb × State) : Nat := match m.1 with | .error c => c | .ok _ => 0
    let hit : State := { s with tlb1 := [(0, [framePage])] }
    (err (xlate torn none (some 0) 0 false) = 10 ∧ err (xlate poor (some 1) none 64 false) = 7 ∧
      err (xlate s none (some 0) 0x80000000 false) = 6 ∧ err (xlate s none (some 0) 0 false) = 0 ∧ err (xlate s none none (2 ^ 57) false) = 6) ∧
    (err (walk torn none 0 false) = 10 ∧ err (walk s none 0 false) = 0) ∧
    (fget noTlbs hit.tlb1 0 = [framePage] ∧ framePage.maps none frameRegion = true) ∧
    (match (meetPage s 0 { aiming 0 with spill := [0] } (loadKind 4) framePage frameRegion 4 frameRegion 4) with
      | .seg y => y.typ == 4 | .fail _ _ _ => false) = true ∧
    ((loadKind 4).n ≤ 16 ∧ (0x1FFFE : Nat) % 65536 = 65534 ∧ (storeKind 16 true).aligned = true ∧ 8 % 16 ≠ 0) := by
  decide +kernel

/-- A walk's levels (R147): a leaf of each level, an entry that is not present, and a malformed one. -/
theorem test_witness_Translation :
    let s := paged agent
    let step (level node va : Nat) : Except Nat (Nat × Nat) := (walkFrom none va false level s node 0).1
    let ok (x : Except Nat (Nat × Nat)) (level : Nat) : Bool := match x with | .ok (_, l) => l == level | .error _ => false
    (ok (step 4 0x2000 0) 0 = true ∧ ok (step 2 0x8000 frameRegion) 2 = true ∧ ok (step 2 0x6000 0) 2 = false ∧
      ok (step 0 0x10000 0x80000) 0 = true) ∧
    ((match step 0 0x10000 0x1F0000 with | .error c => c | .ok _ => 0) = 6) ∧
    (malformed none 0 0 0xE7 = false ∧ malformed none 2 0 0xCE7 = true ∧ malformed none 2 frameRegion 0xCE7 = false ∧
      malformed (some 1) 0 0 0xE7 = true ∧ malformed none 1 0 (1 + 0x200 * 2 ^ 64) = false ∧
      malformed none 1 0 (1 + 0x100 * 2 ^ 64) = true) ∧
    (xbarAllows s none (2 ^ 39) = false ∧ xbarAllows s none 0x2000 = true) := by decide +kernel

/-- The page table of `tables` with a page of device registers at 9 × 64 KiB, and one of notify registers and a strictly
ordered page of core 1 after it. -/
def devPaged (t : Team) : State :=
  { paged t with hbm := node 0x10000 [(9, 0x5E7 + 0x40000 * 2 ^ 64), (10, 0x6E7), (11, 0x80002E7)] tables }

/-- The pieces of an access of lane 0: the type, the order, the width and the offset of each. -/
def metPieces (s : State) (t : Team) (k : AccKind) : List Nat :=
  (lanes_of (aimed s t k)).flatMap fun e => e.2.flatMap fun y => [e.1, y.typ, y.order, y.n, y.off]

/-- LoadWords and StoreWords: a device register and a notify register of a load and of a store; a strictly ordered page, where no
team has a store on its way. -/
theorem test_witness_DeviceWords :
    let dev := aiming (0x90000 + (aDevEnergy - 0x40000))
    let note := aiming 0xA0008
    let o := aiming 0xB0000
    metPieces (devPaged dev) dev (loadKind 8) = [0, 5, 0, 8, aDevEnergy] ∧
    metPieces (devPaged dev) dev (storeKind 8 false) = [0, 5, 0, 8, aDevEnergy] ∧
    metPieces (devPaged note) note (loadKind 8) = [0, 6, 0, 8, 8] ∧
    metPieces (devPaged note) note (storeKind 8 false) = [0, 6, 0, 8, 8] ∧
    (metPieces (devPaged o) o (storeKind 4 false)).take 3 = [0, 2, 0] ∧
    (entries (devPaged o).teams).all (fun e => e.2.stores.isEmpty) = true := by decide +kernel

/-- A store of four bytes at the top of core 1's scratchpad, of a level, and an ATOM there. -/
def aStore (w : Nat) (k : Fin 6) : PendStore :=
  { word := w, gates := [], lane := 0, place := .scratch 1, off := 262140, bytes := [1, 2, 3, 4], setRef := false, level := k
    stamp := w, rmw := none }

def anRmw : Rmw := { op := .cas, reg := 5, acq := true, cmp := 0, operand := 2 ^ 32 - 1 }

/-- HeldStores: another team's store at the level of its workgroup, seen by a team of the same workgroup, and not by one of
another. -/
theorem test_witness_HeldStores :
    let a := { agent with stores := [aStore 0 2] }
    let near := { agent with teamId := 1 }
    let far := { agent with wg := 3 }
    let s (t : Team) : State := (((on a).putWg 3 { fetchWg with core := 4 }).putTeam 1 t)
    (s near).team 1 = some near ∧ (0, a) ∈ entries (s near).teams ∧ aStore 0 2 ∈ a.stores ∧
    (∀ e ∈ entries (s near).teams, ∀ y ∈ e.2.stores, y.meets (.scratch 1) 262143 1 = true → e.1 = 0 ∧ y = aStore 0 2) ∧
    near.stores = [] ∧ together (s near) 2 0 1 = true ∧ together (s far) 2 0 1 = false := by decide +kernel

/-- StoreOrder: two stores of one lane to common bytes, an ATOM that is an acquire, and a gate at the device. -/
theorem test_witness_StoreOrder :
    let p (y : PendStore) : Nat := if y.word = 1 then 6 else 0
    let l := [aStore 0 0, aStore 1 0]
    let g : FMap Nat := [(6, 1)]
    ((storeNeeds p l)[0]?.map fun x => x.2) = some 6 ∧ ((storeNeeds p l)[1]?.map fun x => x.2) = some 6 ∧
    (aStore 1 0).level.val < 6 ∧ gateLevel [] 0 = 0 ∧ gateLevel g 0 = 6 ∧ gateLevel g 1 = 0 := by decide +kernel

/-- AtomicAccess: an ATOM of the greatest operand at the top of a scratchpad, alone on its way. -/
theorem test_witness_AtomicAccess :
    let x : PendStore := { aStore 0 0 with rmw := some anRmw }
    let t := { agent with stores := [x] }
    (on t).team 0 = some t ∧ x.rmw = some anRmw ∧ x.bytes.length = 4 ∧ anRmw.operand < 2 ^ (8 * 4) ∧ 262140 + 4 ≤ 262144 ∧
    (∀ e ∈ entries (on t).teams, ∀ y ∈ e.2.stores, y.level = 0) ∧ ∀ y ∈ t.stores, y.rmw ≠ none := by decide +kernel

/-! ## Witnesses: units, streams and the kettle -/

/-- UnitCancel: a phase and a job that are being cancelled, and neither; another job. -/
theorem test_witness_UnitCancel :
    let q := { Queue.init with phaseCancel := [Queue.init.phase], jobCancel := true }
    let s := active.putQueue 0 q
    Queue.init.phase ∈ (s.queue 0).phaseCancel ∧ (s.queue 0).jobCancel = true ∧ (active.queue 0).phaseCancel = [] ∧
    (active.queue 0).jobCancel = false ∧ (active.queue 0).job ≠ (active.queue 0).job + 1 := by decide +kernel

/-- StreamParts and StreamRetires: the first part of an MLOAD and of an MSTORE at the top of a scratchpad; a source granule that
fails; an operation without a memory side; one whose parts have all been performed. -/
theorem test_witness_StreamParts :
    let m (mv : StreamMove) : StreamMem :=
      { move := mv, place := .scratch 0, rows := [262128], rowBytes := 16, left := [(0, 0)], got := [] }
    let op (mv : StreamMove) : StreamOp := { slots := [], tiles := [], engine := false, mem := some (m mv) }
    let x (mv : StreamMove) : Stream := { quiet with inflight := [op mv] }
    let s (mv : StreamMove) : State := streaming (x mv) streamWg
    let ld : StreamMove := .load 0 .s false
    let st : StreamMove := .store 0 .bf16
    ((s ld).stream 1 = some (x ld) ∧ (s ld).wg 0 = some streamWg ∧ streamWg.core = 0 ∧ (x ld).inflight[0]? = some (op ld) ∧
      (x ld).mayPart 0 (op ld) (m ld) (0, 0) = true ∧ placeBad (s ld) (.scratch 0) (262128 / 64) = false ∧
      placeBad { s ld with scratchBad := [(4095, true)] } (.scratch 0) (262128 / 64) = true) ∧
    ((s st).stream 1 = some (x st) ∧ streamWg.window = some window4 ∧ (m st).partAt (0, 0) + 16 ≤ 262144 ∧
      (∀ i < 64, window4.fails 0 i = false) ∧
      ({ window4 with inUse := [(0, true)], bad := [(63, true)] } : AccWindow).fails 0 63 = true) ∧
    (working.inflight[0]?.map fun o => o.mem) = some none := by decide +kernel

/-- Replays and Recording: a queue in record mode with room, without, and full; a queue that is replayed, with no record left
and with one whose kind is none. -/
theorem test_witness_Replays :
    let rec_ := ((active.putDfield (aRplyCtl 0) 0 2 1).putDfield (aRplySize 0) 0 32 4096)
    let play := (((queued (packet 0 []) Queue.init).putDfield (aRplyCtl 0) 0 2 2).putDfield (aRplySize 0) 0 32 4096)
    (rec_.dfield (aRplyCtl 0) 0 2 = 1 ∧ (rec_.dreg (aRplyStat 0)).getLsbD 32 = false ∧ 0 + 4096 ≤ rec_.dfield (aRplySize 0) 0 32 ∧
      rec_.dfield (aRplySize 0) 0 32 < 0 + 4112 ∧ ((rec_.putDfield (aRplyStat 0) 32 1 1).dreg (aRplyStat 0)).getLsbD 32 = true) ∧
    (kettleAccepts play 0 = true ∧ replays play 0 (play.queue 0).accepted = true ∧ replays active 0 0 = false ∧
      play.dfield (aRplySize 0) 0 32 < play.dfield (aRplySize 0) 0 32 + 16) ∧
    (payloadOf play [0] = none ∧ payloadOf play [1] = some 64 ∧ payloadOf play [4] = some 4) ∧
    ({ launch1 with packet := 0 }.queue = launch1.queue) := by decide +kernel

/-- A replayed job meets a record, or no page. -/
theorem test_witness_replayedRecord :
    (match (vread false none (some 0) 3 (paged agent) 0x40000000 16).1 with | .ok _ => true | .error _ => false) = true ∧
    (match (vread false (some 1) none 3 active (2 ^ 57) 16).1 with | .ok _ => true | .error _ => false) = false := by
  decide +kernel

/-- KettleEvents: a kettle that does not run: a queue that is not enabled, one in ERROR, and a gated partition; a suspended
SIGNAL of 100 ms and of less. -/
theorem test_witness_kettleStops :
    let s := queued (zeros 64) { Queue.init with accepted := 1, pkts := [{ waiting 0 (packet 5 []) with state := .suspended 0 }] }
    queueEn s 0 = true ∧ queueState s 0 ≠ 4 ∧ partActive s (queuePart s 0) = true ∧ (s.part (queuePart s 0)).gated = false ∧
    queueState (setQueueState s 0 4) 0 = 4 ∧ queueEn (s.putDfield (aQctl 0) 0 1 0) 0 = false ∧
    ((s.putPart 1 { Part.init with gated := true }).part 1).gated = true ∧ residentNs s 1 < 0 + 100000000 ∧
    0 + 100000000 ≤ residentNs { s with ns := 100000000 } 1 := by decide +kernel

/-! ## Witnesses: room, saves and clears -/

/-- RoomGiven and PreemptionEvents: a request that is not met, one that is, and one that ends; a core whose cluster is ON, and
one whose cluster is not. -/
theorem test_witness_RoomGiven :
    let r : Request :=
      { core := 0, source := 2, want := { ctx := 2, regs := 0, lmem := 0 }, took := Room.zero, rank := 63, launch := 0, item := 0
        users := [], order := 0, saves := false }
    let met := { r with took := r.want }
    let s := { active with reqs := [r] }
    s.reqs[0]? = some r ∧ (sortBy requestOrder (s.reqs.filter fun q => q.core == 0 && q.source != 1)).head? = some r ∧
    r.want.le r.took = false ∧ met.want.le met.took = true ∧ r.source ≠ 1 ∧ clState s 0 = 0 ∧
    clState (s.putDfield (aClState 0) 0 3 1) 0 ≠ 0 := by decide +kernel

/-- WorkgroupSaves: a workgroup without room for its state, and one with room, a team that runs and a launch that is not being
cancelled. -/
theorem test_witness_WorkgroupSaves :
    let t := { user with wg := 3, launch := 7 }
    let s := loaded1 launch1 wg1 t
    let roomy := s.putDfield (aSavesz 1) 0 32 1
    let halted (s : State) : State := wg1.teams.foldl saveTeam (wg1.teams.foldl drainAll (haltCopies s 3))
    s.wg 3 = some wg1 ∧ saveArea (halted s) 1 < saveUse (halted s) 1 + saveSize s wg1 ∧
    saveUse (halted roomy) 1 + saveSize roomy wg1 ≤ saveArea (halted roomy) 1 ∧ 1 ∈ wg1.teams ∧ s.team 1 = some t ∧
    s.launch 7 = some launch1 ∧ launch1.cancelling = false := by decide +kernel

/-- ClusterCleared: a cluster with a holder, a workgroup with a window, and a stream. -/
theorem test_witness_ClusterCleared :
    let w := { wg1 with stream := some 1, window := some window4 }
    let s := (loaded1 launch1 w { user with wg := 3, launch := 7 }).putStream 1 { quiet with wg := 3 }
    holderOf s 0 = some 1 ∧ s.wg 3 = some w ∧ w.saved = false ∧ w.core / 4 = 0 ∧ s.stream 1 = some { quiet with wg := 3 } ∧
    quiet.cluster = 0 := by decide +kernel

/-! ## Witnesses: the parts of a copy tile, the ingress port and the turns -/

/-- TileParts and TileRuns: a tile in an on-chip page, ready to be written and not, whole and torn; a tile of HBM, of one key
and of two. -/
theorem test_witness_TileParts :
    let c := { nodeCopy [aDesc] with part := 0, priv := 2, core := some 0 }
    let s := on agent
    let x := { aTile with reads := [] }
    let torn : State := { s with scratchBad := [(4096 + 1024, true)] }
    let hbm (k : Nat) : Tlb := { graftPage with pte := { pteOf 0 with rd := true, wr := true, key := k } }
    let y (k : Nat) : LateTile := { aTile with srcPage := hbm 5, srcAt := 0x40000000, dstPage := hbm k, dstAt := 0x40000000, n := 2048 }
    (x.dstPage.pte.typ = 2 ∧ x.dstPage.pte.core = 1 ∧ (0, 64) ∈ x.writes ∧ (0, 64) ∉ x.reads ∧ (0, 64) ∈ aTile.reads ∧
      (sideParts x.dstPage.pte 0x10000 64).length = 4 ∧ sideParts (hbm 5).pte 0 2048 = [(0, 2048)]) ∧
    (partGranules s c.requester x.dstPage.pte 0x10004 64 = [] ∧ partGranules torn c.requester x.dstPage.pte 0x10004 64 = [1024]) ∧
    ((y 5).srcPage.pte.key = (y 5).dstPage.pte.key ∧ (y 6).srcPage.pte.key ≠ (y 6).dstPage.pte.key ∧
      (resealTile s c (y 6)).1 = 0) := by decide +kernel

/-- FrameDelivery: a ring that no page maps; a partition that owns no queue; an empty list of bytes excepted, a byte in a page, and in
none. -/
theorem test_witness_FrameDelivery :
    (pagesReadable 1 [0x40000000] active).1 = false ∧ (pagesReadable 1 [64] active).1 = true ∧ ([0] : List Byte) ≠ [] ∧
    ownsQueue active 2 0 = false ∧
    ((match (vwrite (some 1) none 2 active 64 [0]).1 with | .error e => e | .ok _ => 0) = 8) ∧
    ((match (vwrite (some 1) none 2 active 0x40000000 [0]).1 with | .error e => e | .ok _ => 0) = 6) := by
  decide +kernel

/-- PartitionOps and PowerEvents: a cluster that is retired while it is ON, and one while it is not; no user workgroup. -/
theorem test_witness_lostCluster :
    (∀ e ∈ entries active.wgs, e.2.agent = true ∨ e.2.saved = true) ∧ clState active 3 = 0 ∧ clState (cluster3 1) 3 ≠ 0 ∧
    ((retireUnits active 0 8).cluster 3).lost = false ∧ ((retireUnits (cluster3 1) 0 8).cluster 3).lost = true := by
  decide +kernel

/-- StepRunsDecodedInstruction: a turn of a stream's operation, of a stream that is admitted and of one that waits. -/
theorem test_witness_streamTurn :
    let m : StreamMem := { move := .load 0 .s false, place := .scratch 0, rows := [0], rowBytes := 16, left := [(0, 0)], got := [] }
    let o : StreamOp := { slots := [0], tiles := [], engine := false, mem := some m }
    let x : Stream := { quiet with inflight := [o] }
    let s := turning (streaming x streamWg) (.streamPart 1 0)
    s.agenda = [{ dt := 3, act := .streamPart 1 0 }] ∧ s.heatStop = false ∧ s.stream 1 = some x ∧ x.admitted = true ∧
    streamRuns { s with agenda := [], ns := s.ns + 3 } x = true ∧ x.inflight[0]? = some o ∧ o.mem = some m ∧
    x.mayPart 0 o m (0, 0) = true ∧ ¬ x.mayPart 0 o { m with left := [(0, 0), (1, 0)], rows := [0, 0] } (1, 0) = true := by
  decide +kernel

end Sys2Proof.Tests
end

section
/-! SUPPORT. The fields of device registers, and what a write of a device register sets and leaves alone (R4, R274). -/

namespace Sys2Proof.Machine

/-! ### Bits and fields of a register -/

/-- Each bit of a register after one of its fields is set: the field's are those of the new value. -/
theorem getLsbD_dput (v : DWord) (lo n x : Nat) {i : Nat} (hi : i < 64) :
    (dput v lo n x).getLsbD i = if lo ≤ i ∧ i < lo + n then x.testBit (i - lo) else v.getLsbD i := by
  have hlow : v.toNat % 2 ^ lo < 2 ^ lo := Nat.mod_lt _ (Nat.two_pow_pos _)
  have asParts : 2 ^ lo * (2 ^ n * (v.toNat / 2 ^ lo / 2 ^ n) + dfld v lo n) + v.toNat % 2 ^ lo = v.toNat := by
    rw [dfld, fld, Nat.div_add_mod, Nat.div_add_mod]
  have join : v.toNat - dfld v lo n * 2 ^ lo + x % 2 ^ n * 2 ^ lo =
      2 ^ lo * (2 ^ n * (v.toNat / 2 ^ lo / 2 ^ n) + x % 2 ^ n) + v.toNat % 2 ^ lo := by
    rw [Nat.mul_add] at asParts ⊢
    rw [Nat.mul_comm (dfld v lo n), Nat.mul_comm (x % 2 ^ n)]
    omega
  rw [dput, BitVec.getLsbD_ofNat, join, Nat.testBit_two_pow_mul_add _ hlow,
    Nat.testBit_two_pow_mul_add _ (Nat.mod_lt _ (Nat.two_pow_pos _))]
  simp only [hi, decide_true, Bool.true_and, Nat.testBit_mod_two_pow, Nat.testBit_div_two_pow, BitVec.getLsbD]
  by_cases h1 : i < lo
  · simp [h1, Nat.not_le.2 h1]
  · by_cases h2 : i < lo + n
    · simp [h1, Nat.not_lt.1 h1, h2, show i - lo < n by omega]
    · simp [h1, h2, show ¬ i - lo < n by omega, show i - lo - n + n + lo = i by omega]

theorem testBit_dfld (v : DWord) (lo n i : Nat) : (dfld v lo n).testBit i = (decide (i < n) && v.getLsbD (lo + i)) := by
  rw [dfld, fld, Nat.testBit_mod_two_pow, Nat.testBit_div_two_pow, Nat.add_comm i]; rfl

/-- Registers that agree in a field's bits agree in the field. -/
theorem dfld_congr {v w : DWord} {lo n : Nat} (h : ∀ i, lo ≤ i → i < lo + n → v.getLsbD i = w.getLsbD i) :
    dfld v lo n = dfld w lo n := by
  refine Nat.eq_of_testBit_eq fun i => ?_
  rw [testBit_dfld, testBit_dfld]
  by_cases hi : i < n
  · rw [h (lo + i) (by omega) (by omega)]
  · simp [hi]

theorem dfld_dput_same (v : DWord) {lo n : Nat} (h : lo + n ≤ 64) (x : Nat) : dfld (dput v lo n x) lo n = x % 2 ^ n := by
  refine Nat.eq_of_testBit_eq fun i => ?_
  rw [testBit_dfld, Nat.testBit_mod_two_pow]
  by_cases hi : i < n
  · rw [getLsbD_dput v lo n x (by omega)]; simp [hi]
  · simp [hi]

theorem dfld_dput_other (v : DWord) {lo n lo' n' : Nat} (h : lo' + n' ≤ 64) (x : Nat)
    (hd : lo' + n' ≤ lo ∨ lo + n ≤ lo') : dfld (dput v lo n x) lo' n' = dfld v lo' n' :=
  dfld_congr fun i h1 h2 => by rw [getLsbD_dput v lo n x (by omega), if_neg (by omega)]

theorem getLsbD_merge (m old new : DWord) (i : Nat) :
    (merge m old new).getLsbD i = if m.getLsbD i then new.getLsbD i else old.getLsbD i := by
  by_cases hi : i < 64
  · simp only [merge, BitVec.getLsbD_or, BitVec.getLsbD_and, BitVec.getLsbD_not, hi, decide_true, Bool.true_and]
    cases m.getLsbD i <;> simp
  · simp [BitVec.getLsbD_of_ge _ i (Nat.not_lt.1 hi)]

/-! ### Fields of the state's registers -/

@[simp] theorem State.dreg_putDfield_same (s : State) (a lo n x : Nat) :
    (s.putDfield a lo n x).dreg a = dput (s.dreg a) lo n x := State.dreg_putDreg_same s a _

theorem State.dreg_putDfield_other (s : State) {a a' : Nat} (lo n x : Nat) (h : a' ≠ a) :
    (s.putDfield a lo n x).dreg a' = s.dreg a' := State.dreg_putDreg_other s _ h

theorem State.dfield_putDfield_same (s : State) (a : Nat) {lo n : Nat} (h : lo + n ≤ 64) (x : Nat) :
    (s.putDfield a lo n x).dfield a lo n = x % 2 ^ n := by
  rw [State.dfield, State.dreg_putDfield_same, dfld_dput_same _ h]

theorem State.dfield_putDfield_apart (s : State) (a : Nat) {lo n lo' n' : Nat} (h : lo' + n' ≤ 64)
    (x : Nat) (hd : lo' + n' ≤ lo ∨ lo + n ≤ lo') : (s.putDfield a lo n x).dfield a lo' n' = s.dfield a lo' n' := by
  rw [State.dfield, State.dreg_putDfield_same, dfld_dput_other _ h x hd]; rfl

@[simp] theorem dreg_store_same (s : State) (a : Nat) (m v : DWord) : (store s a m v).dreg a = merge m (s.dreg a) v :=
  State.dreg_putDreg_same s a _

theorem dreg_store_other (s : State) {a a' : Nat} (m v : DWord) (h : a' ≠ a) : (store s a m v).dreg a' = s.dreg a' :=
  State.dreg_putDreg_other s _ h

/-! ### Nothing but device registers -/

/-- The second state differs from the first in device registers alone. -/
def OnlyDev (s s' : State) : Prop := s' = { s with dev := s'.dev }

theorem OnlyDev.refl (s : State) : OnlyDev s s := rfl

theorem OnlyDev.trans {a b c : State} (h : OnlyDev a b) (h' : OnlyDev b c) : OnlyDev a c := by
  unfold OnlyDev at *; rw [h', h]

theorem OnlyDev.ite {p : Prop} [Decidable p] {s s1 s2 : State} (h1 : OnlyDev s s1) (h2 : OnlyDev s s2) :
    OnlyDev s (if p then s1 else s2) := by split <;> assumption

theorem OnlyDev.putDfield (s : State) (a lo n x : Nat) : OnlyDev s (s.putDfield a lo n x) := rfl

theorem OnlyDev.store (s : State) (a : Nat) (m v : DWord) : OnlyDev s (store s a m v) := rfl

/-! ### Queue events (R277) -/

/-- The queues of a function depend on its VF_QUEUES alone (R295). -/
theorem ownsQueue_congr {s s' : State} {n : Nat} (h : s'.dreg (aVfQueues n) = s.dreg (aVfQueues n)) (q : Nat) :
    ownsQueue s' n q = ownsQueue s n q := by
  rw [ownsQueue, State.dfield, State.dfield, h]; rfl

/-- HEVT and VF_QUEUES of a block are two registers. -/
theorem aVfQueues_ne_aHevt (n : Nat) : aVfQueues n ≠ aHevt n := by
  simp only [aVfQueues, aHevt, aBlock]; omega

theorem clearQueueEvents_dreg_other (s : State) {n a : Nat} (bits : Nat) (h : a ≠ aHevt n) :
    (clearQueueEvents s n bits).dreg a = s.dreg a := State.dreg_putDfield_other _ _ _ _ h

/-- The clear of queue events touches no event bit of HEVT. -/
theorem clearQueueEvents_eventBit (s : State) (n bits : Nat) {i : Nat} (hi : i < 5) :
    ((clearQueueEvents s n bits).dreg (aHevt n)).getLsbD i = (s.dreg (aHevt n)).getLsbD i := by
  rw [clearQueueEvents, showEventQueue, State.dreg_putDfield_same, getLsbD_dput _ _ _ _ (by omega),
    if_neg (by omega)]
  rfl

/-- An event that is left was there, with the cleared bits of a queue of the function gone. -/
theorem mem_qEvents_clearQueueEvents {s : State} {n bits : Nat} {e : Nat × Nat}
    (h : e ∈ (clearQueueEvents s n bits).qEvents) :
    ∃ k, (e.1, k) ∈ s.qEvents ∧ e.2 ≠ 0 ∧ e.2 = if ownsQueue s n e.1 then k - (k &&& bits) else k := by
  obtain ⟨⟨q, k⟩, hk, he⟩ := List.mem_filterMap.1 h
  dsimp only at he
  by_cases hne : (if ownsQueue s n q then k - (k &&& bits) else k) = 0
  · rw [if_pos hne] at he; cases he
  · rw [if_neg hne] at he; cases he; exact ⟨k, hk, hne, rfl⟩

/-- QUEUE shows the first queue of the function with an event left, or 0. -/
theorem clearQueueEvents_queue (s : State) (n bits : Nat) :
    (clearQueueEvents s n bits).dfield (aHevt n) 16 12 =
      (((clearQueueEvents s n bits).qEvents.find? fun e => ownsQueue s n e.1).map Prod.fst).getD 0 % 4096 :=
  State.dfield_putDfield_same _ _ (by decide) _

/-! ### The registers with write events of their own -/

theorem writeHevt_eq (s : State) (n : Nat) (v : DWord) :
    writeHevt s n v = { s with dev := (writeHevt s n v).dev, qEvents := (writeHevt s n v).qEvents } := rfl

theorem writeHevt_dreg_other (s : State) {n a : Nat} (v : DWord) (h : a ≠ aHevt n) :
    (writeHevt s n v).dreg a = s.dreg a := by
  rw [writeHevt, clearQueueEvents_dreg_other _ _ h, State.dreg_putDreg_other _ _ h]

/-- A 1 clears its event bit (R277). -/
theorem writeHevt_eventBit (s : State) (n : Nat) (v : DWord) {i : Nat} (hi : i < 5) :
    ((writeHevt s n v).dreg (aHevt n)).getLsbD i = ((s.dreg (aHevt n)).getLsbD i && !v.getLsbD i) := by
  have mask : (0x1F : DWord).getLsbD i = true := by
    have : ∀ j < 5, (0x1F : DWord).getLsbD j = true := by decide
    exact this i hi
  rw [writeHevt, clearQueueEvents_eventBit _ _ _ hi, State.dreg_putDreg_same, BitVec.getLsbD_and, BitVec.getLsbD_not,
    BitVec.getLsbD_and, mask, Bool.and_true, decide_eq_true (show i < 64 by omega), Bool.true_and]

/-- The write of HEVT's event bits leaves the queues of the function. -/
theorem ownsQueue_putDreg_aHevt (s : State) (n : Nat) (x : DWord) (q : Nat) :
    ownsQueue (s.putDreg (aHevt n) x) n q = ownsQueue s n q :=
  ownsQueue_congr (State.dreg_putDreg_other s x (aVfQueues_ne_aHevt n)) q

theorem mem_qEvents_writeHevt {s : State} {n : Nat} {v : DWord} {e : Nat × Nat} (h : e ∈ (writeHevt s n v).qEvents) :
    ∃ k, (e.1, k) ∈ s.qEvents ∧ e.2 ≠ 0 ∧ e.2 = if ownsQueue s n e.1 then k - (k &&& v.toNat % 4) else k := by
  obtain ⟨k, hk, hne, he⟩ := mem_qEvents_clearQueueEvents h
  rw [ownsQueue_putDreg_aHevt] at he
  refine ⟨k, hk, hne, ?_⟩
  simpa [dfld, fld] using he

theorem writeHevt_queue (s : State) (n : Nat) (v : DWord) :
    (writeHevt s n v).dfield (aHevt n) 16 12 =
      (((writeHevt s n v).qEvents.find? fun e => ownsQueue s n e.1).map Prod.fst).getD 0 % 4096 := by
  have h := clearQueueEvents_queue (s.putDreg (aHevt n) (s.dreg (aHevt n) &&& ~~~(v &&& 0x1F))) n (dfld v 0 2)
  simp only [ownsQueue_putDreg_aHevt] at h
  exact h

/-- NQLATCH at F level with COALESCED's bit 0: DEST alone is written (R315). -/
theorem writeNqlatch_keep (s : State) (n : Nat) {v : DWord} (h : v.getLsbD 1 = false) :
    writeNqlatch s 2 n v = store s (aNqlatch n) 0x1FF00000000#64 v := by simp only [writeNqlatch, h]; rfl

/-- NQLATCH at F level with COALESCED's bit 1: DEST is written, COALESCED and COUNT are cleared (R315). -/
theorem writeNqlatch_clear (s : State) (n : Nat) {v : DWord} (h : v.getLsbD 1 = true) :
    writeNqlatch s 2 n v =
      ((store s (aNqlatch n) 0x1FF00000000#64 v).putDfield (aNqlatch n) 1 1 0).putDfield (aNqlatch n) 16 16 0 := by
  simp only [writeNqlatch, h]; rfl

theorem writeNqlatch_onlyDev (s : State) (priv n : Nat) (v : DWord) : OnlyDev s (writeNqlatch s priv n v) := by
  refine OnlyDev.trans (b := if priv = 2 then store s (aNqlatch n) 0x1FF00000000#64 v else s) ?_ ?_
  · exact .ite (.store s _ _ v) (.refl s)
  · exact .ite ((OnlyDev.putDfield _ _ _ _ _).trans (.putDfield _ _ _ _ _)) (.refl _)

theorem writeNqlatch_dreg_other (s : State) (priv : Nat) {n a : Nat} (v : DWord) (h : a ≠ aNqlatch n) :
    (writeNqlatch s priv n v).dreg a = s.dreg a := by
  unfold writeNqlatch
  split <;> split <;> simp [State.dreg_putDfield_other, dreg_store_other, h]

/-- The bits of NQLATCH's mask are DEST. -/
theorem nqlatchMask_bit {i : Nat} (hi : i < 41) : (0x1FF00000000#64).getLsbD i = decide (32 ≤ i) := by
  have : ∀ j < 41, (0x1FF00000000#64).getLsbD j = decide (32 ≤ j) := by decide
  exact this i hi

theorem nqlatch_store_dest (s : State) (n : Nat) (v : DWord) :
    (store s (aNqlatch n) 0x1FF00000000#64 v).dfield (aNqlatch n) 32 9 = dfld v 32 9 := by
  rw [State.dfield, dreg_store_same]
  exact dfld_congr fun i h1 h2 => by simp [getLsbD_merge, nqlatchMask_bit h2, h1]

theorem nqlatch_store_low (s : State) (n : Nat) (v : DWord) :
    (store s (aNqlatch n) 0x1FF00000000#64 v).dfield (aNqlatch n) 0 32 = s.dfield (aNqlatch n) 0 32 := by
  rw [State.dfield, dreg_store_same]
  exact dfld_congr fun i h1 h2 => by simp [getLsbD_merge, nqlatchMask_bit (show i < 41 by omega), show ¬ 32 ≤ i by omega]

theorem writeNqlatch_dest (s : State) (n : Nat) (v : DWord) :
    (writeNqlatch s 2 n v).dfield (aNqlatch n) 32 9 = dfld v 32 9 := by
  cases h : v.getLsbD 1
  · rw [writeNqlatch_keep s n h, nqlatch_store_dest]
  · rw [writeNqlatch_clear s n h, State.dfield_putDfield_apart _ _ (by decide) _ (by decide),
      State.dfield_putDfield_apart _ _ (by decide) _ (by decide), nqlatch_store_dest]

theorem writeNqlatch_cleared (s : State) (n : Nat) {v : DWord} (h : v.getLsbD 1 = true) :
    (writeNqlatch s 2 n v).dfield (aNqlatch n) 1 1 = 0 ∧ (writeNqlatch s 2 n v).dfield (aNqlatch n) 16 16 = 0 := by
  rw [writeNqlatch_clear s n h]
  constructor
  · rw [State.dfield_putDfield_apart _ _ (by decide) _ (by decide), State.dfield_putDfield_same _ _ (by decide),
      Nat.zero_mod]
  · rw [State.dfield_putDfield_same _ _ (by decide), Nat.zero_mod]

/-- A filter's EN rises: ING_STAT and the frame counts start afresh (R285). -/
theorem writeFilter_rises {s : State} {f : Nat} {v : DWord} (hv : v.getLsbD 31 = true)
    (hs : (s.dreg (aIngFilt f)).getLsbD 31 = false) :
    writeFilter s 2 f 0 v = { (store s (aIngFilt f) 0x3FBFFFFFFF#64 v).putDreg (aIngStat f) 0 with
      ingDrops := fset zeroNat s.ingDrops f 0, ingSeq := fset zeroNat s.ingSeq f 0 } := by
  simp only [writeFilter, hv, hs]; rfl

/-- A filter's EN does not rise: the write only stores. -/
theorem writeFilter_keeps {s : State} {f : Nat} {v : DWord}
    (h : v.getLsbD 31 = false ∨ (s.dreg (aIngFilt f)).getLsbD 31 = true) :
    writeFilter s 2 f 0 v = store s (aIngFilt f) 0x3FBFFFFFFF#64 v := by
  rcases h with h | h <;> simp only [writeFilter, h, Bool.false_and, Bool.not_true, Bool.and_false] <;> rfl

/-- Either EN rises with the write, or it does not. -/
theorem filter_rises_or_keeps (s : State) (f : Nat) (v : DWord) :
    (v.getLsbD 31 = true ∧ (s.dreg (aIngFilt f)).getLsbD 31 = false) ∨
      (v.getLsbD 31 = false ∨ (s.dreg (aIngFilt f)).getLsbD 31 = true) := by
  cases v.getLsbD 31 <;> cases (s.dreg (aIngFilt f)).getLsbD 31 <;> decide

theorem aIngFilt_ne_aIngStat (f : Nat) : aIngFilt f ≠ aIngStat f := by
  simp only [aIngFilt, aIngStat]; omega

theorem writeFilter_dreg_config (s : State) (f : Nat) (v : DWord) :
    (writeFilter s 2 f 0 v).dreg (aIngFilt f) = merge 0x3FBFFFFFFF#64 (s.dreg (aIngFilt f)) v := by
  rcases filter_rises_or_keeps s f v with ⟨hv, hs⟩ | h
  · rw [writeFilter_rises hv hs]
    exact (State.dreg_putDreg_other _ _ (aIngFilt_ne_aIngStat f)).trans (dreg_store_same s _ _ v)
  · rw [writeFilter_keeps h, dreg_store_same]

theorem writeFilter_dreg_other (s : State) {f a : Nat} (v : DWord) (h1 : a ≠ aIngFilt f) (h2 : a ≠ aIngStat f) :
    (writeFilter s 2 f 0 v).dreg a = s.dreg a := by
  rcases filter_rises_or_keeps s f v with ⟨hv, hs⟩ | h
  · rw [writeFilter_rises hv hs]
    exact (State.dreg_putDreg_other _ _ h2).trans (dreg_store_other s _ v h1)
  · rw [writeFilter_keeps h, dreg_store_other s _ v h1]

/-! ### REGISTER_WRITE -/

theorem ownAddress_iff (a : Nat) : ownAddress a = true ↔ regAt a = some a := by simp [ownAddress]

/-- An F-level write at a register's own address (R274). -/
theorem registerWrite_atF {s : State} {a : Nat} (v : DWord) (h : regAt a = some a) :
    exec (.registerWrite (.atF a v)) s = .next (devWrite s 2 a v) :=
  if_pos ((ownAddress_iff a).2 h)

/-- An F-level write elsewhere is dropped. -/
theorem registerWrite_atF_dropped {s : State} {a : Nat} (v : DWord) (h : regAt a ≠ some a) :
    exec (.registerWrite (.atF a v)) s = .next s :=
  if_neg (mt (ownAddress_iff a).1 h)

/-- A host write through BAR0 of a function that there is. -/
theorem registerWrite_bar0 {s : State} {fn : Nat} (off : Nat) (v : DWord) (h : fn < 64) :
    exec (.registerWrite (.bar0 fn off v)) s = .next (barWrite s fn off v) := if_pos h

/-- The mailbox's address register (R331). -/
theorem barWrite_mailboxAddr (s : State) (fn : Nat) (v : DWord) :
    barWrite s fn 0xE0000 v = s.putMailbox fn { s.mailbox fn with addr := v } := rfl

/-- The mailbox's GO: it counts while no request is being served (R331). -/
theorem barWrite_mailboxGo (s : State) (fn : Nat) (v : DWord) :
    barWrite s fn 0xE0008 v = if v.getLsbD 0 = true ∧ (s.mailbox fn).busy = false then
      s.putMailbox fn { s.mailbox fn with busy := true } else s := by
  have go : (v.getLsbD 0 && !(s.mailbox fn).busy) = true ↔ v.getLsbD 0 = true ∧ (s.mailbox fn).busy = false := by
    rw [Bool.and_eq_true, Bool.not_eq_true']
  calc barWrite s fn 0xE0008 v
      = if v.getLsbD 0 && !(s.mailbox fn).busy then s.putMailbox fn { s.mailbox fn with busy := true } else s := rfl
    _ = _ := by simp only [go]

/-- The PF's image address (R332). -/
theorem barWrite_bootAddr (s : State) (v : DWord) :
    barWrite s 0 0xF0000 v = { s with boot := { s.boot with addr := v } } := rfl

/-- The PF's image length (R332). -/
theorem barWrite_bootLen (s : State) (v : DWord) :
    barWrite s 0 0xF0008 v = { s with boot := { s.boot with len := v } } := rfl

/-- The PF's GO boots the device (R332). -/
theorem barWrite_bootGo (s : State) {v : DWord} (h : v.getLsbD 0 = true) : barWrite s 0 0xF0010 v = bootDevice s :=
  if_pos ⟨rfl, h⟩

/-- No other function has boot registers (R273, R332). -/
theorem barWrite_bootOfVf (s : State) {fn off : Nat} (v : DWord) (ho : off = 0xF0000 ∨ off = 0xF0008 ∨ off = 0xF0010)
    (hf : fn ≠ 0) : barWrite s fn off v = s := by
  rcases ho with rfl | rfl | rfl
  · exact if_neg hf
  · exact if_neg hf
  · exact if_neg fun h => hf h.1

/-- An offset below the mailbox that shows no register: the write is ignored. -/
theorem barWrite_nothing {s : State} {fn off : Nat} (v : DWord) (h : off < 0xE0000) (ha : barAddress fn off = none) :
    barWrite s fn off v = s := by
  simp only [barWrite, ha]
  rw [if_neg (by omega), if_neg (by omega), if_neg (by omega), if_neg (by omega), if_neg (by omega)]

/-- An offset below the mailbox that shows an address: the write counts at a register's own, where it is reached. -/
theorem barWrite_shown (s : State) {fn off a : Nat} (v : DWord) (h : off < 0xE0000) (ha : barAddress fn off = some a) :
    barWrite s fn off v = if regReached s 1 (some fn) a && ownAddress a then devWrite s 1 a v else s := by
  simp only [barWrite, ha]
  rw [if_neg (by omega), if_neg (by omega), if_neg (by omega), if_neg (by omega), if_neg (by omega)]

theorem barWrite_register {s : State} {fn off a : Nat} (v : DWord) (h : off < 0xE0000) (ha : barAddress fn off = some a)
    (hr : regReached s 1 (some fn) a = true) (ho : regAt a = some a) : barWrite s fn off v = devWrite s 1 a v := by
  rw [barWrite_shown s v h ha]
  simp only [hr, (ownAddress_iff a).2 ho, Bool.and_self, if_true]

theorem barWrite_ignored {s : State} {fn off a : Nat} (v : DWord) (h : off < 0xE0000) (ha : barAddress fn off = some a)
    (hn : regReached s 1 (some fn) a = false ∨ regAt a ≠ some a) : barWrite s fn off v = s := by
  rw [barWrite_shown s v h ha]
  refine if_neg fun hc => ?_
  rw [Bool.and_eq_true, ownAddress_iff] at hc
  rcases hn with hn | hn
  · exact absurd hc.1 (by simp [hn])
  · exact hn hc.2

/-! ### A write to one block of the partition page -/

/-- Every device register outside block n of the partition page is as it was. -/
def OnlyBlock (n : Nat) (s s' : State) : Prop := ∀ a, (∀ o < 0x100, a ≠ aBlock n o) → s'.dreg a = s.dreg a

namespace OnlyBlock

variable {n : Nat} {s s1 s2 : State}

theorem refl (s : State) : OnlyBlock n s s := fun _ _ => rfl

theorem trans (h : OnlyBlock n s s1) (h' : OnlyBlock n s1 s2) : OnlyBlock n s s2 :=
  fun a ha => (h' a ha).trans (h a ha)

theorem ite {p : Prop} [Decidable p] (h1 : OnlyBlock n s s1) (h2 : OnlyBlock n s s2) :
    OnlyBlock n s (if p then s1 else s2) := by split <;> assumption

/-- A change of one register of the block. -/
theorem of_register {o : Nat} (ho : o < 0x100) (h : ∀ a, a ≠ aBlock n o → s1.dreg a = s.dreg a) : OnlyBlock n s s1 :=
  fun a ha => h a (ha o ho)

theorem store (s : State) {o : Nat} (ho : o < 0x100) (m v : DWord) : OnlyBlock n s (store s (aBlock n o) m v) :=
  of_register ho fun _ h => dreg_store_other s m v h

theorem putDfield (s : State) {o : Nat} (ho : o < 0x100) (lo k x : Nat) :
    OnlyBlock n s (s.putDfield (aBlock n o) lo k x) :=
  of_register ho fun _ h => State.dreg_putDfield_other s lo k x h

theorem writeQuota (s : State) (n o : Nat) (v : DWord) : OnlyBlock n s (writeQuota s n o v) := by
  unfold Machine.writeQuota
  split
  · exact .ite (.store (o := 0x00) s (by decide) _ v) (.refl s)
  · exact .ite (.store (o := 0x08) s (by decide) _ v) (.refl s)
  · exact .ite (.store (o := 0x10) s (by decide) _ v) (.refl s)
  · exact .ite (.store (o := 0x18) s (by decide) _ v) (.refl s)
  · exact .store (o := 0x20) s (by decide) _ v
  · exact .store (o := 0x28) s (by decide) _ v

theorem writePace (s : State) (priv n : Nat) (v : DWord) : OnlyBlock n s (writePace s priv n v) := by
  have stored := OnlyBlock.store (n := n) (o := 0x88) s (by decide) (if priv = 2 then 0xF01FFF else 0x1FFF) v
  exact .ite (stored.trans (.putDfield (o := 0x88) _ (by decide) 16 4 8)) (.ite stored stored)

/-- A write to a register of block n changes no register of another block (R295 to R297, R315). -/
theorem writeBlock (s : State) (priv n : Nat) {o : Nat} (ho : o < 0x100) (v : DWord) :
    OnlyBlock n s (writeBlock s priv n o v) :=
  .ite (.writeQuota s n o v) <|
  .ite (.store (o := 0x30) s (by decide) _ v) <|
  .ite (.store (o := 0x38) s (by decide) _ v) <|
  .ite (.store (o := 0x40) s (by decide) _ v) <|
  .ite (.store (o := 0x48) s (by decide) _ v) <|
  .ite (.ite (.putDfield (o := 0x50) s (by decide) 4 1 0) (.refl s)) <|
  .ite (.ite (.store (o := 0x80) s (by decide) _ v) (.refl s)) <|
  .ite (.writePace s priv n v) <|
  .ite (.store (o := 0x90) s (by decide) _ v) <|
  .ite (.of_register (o := 0x98) (by decide) fun _ h => writeNqlatch_dreg_other s priv v h) <|
  .ite (.of_register (o := 0xA0) (by decide) fun _ h => writeHevt_dreg_other s v h) <|
  .ite (.store s ho _ v) (.refl s)

end OnlyBlock

/-- A write of a register's own width in a block is the block's write. -/
theorem devWrite_block {s : State} {priv n o : Nat} (v : DWord) (hn : n < 64) (ho : o < 0x100)
    (h : regAt (aBlock n o) = some (aBlock n o)) : devWrite s priv (aBlock n o) v = writeBlock s priv n o v := by
  have lo : 0x40400 ≤ aBlock n o := by simp only [aBlock]; omega
  have hi : aBlock n o < 0x50000 := by simp only [aBlock]; omega
  have block : (aBlock n o - 0x40400) / 0x100 = n := by simp only [aBlock]; omega
  have place : (aBlock n o - 0x40400) % 0x100 = o := by simp only [aBlock]; omega
  have page : devWrite s priv (aBlock n o) v = writePartPage s priv (aBlock n o) v := by
    simp only [devWrite, h]
    rw [if_neg (by omega), if_neg (by omega), if_neg (by omega), if_neg (by omega), if_pos hi]
  rw [page, writePartPage, if_neg (by simp only [aPartConn]; omega), if_neg (by simp only [aDevEnergy]; omega),
    if_neg (by omega), block, place]

/-- A host write to a register in a function's own block leaves every register of another block. -/
theorem barWrite_onlyBlock (s : State) {fn off : Nat} (v : DWord) (hfn : fn < 64) (ho : off < 0x100) :
    OnlyBlock fn s (barWrite s fn off v) := by
  have ha : barAddress fn off = some (aBlock fn off) := if_pos ho
  by_cases h : regReached s 1 (some fn) (aBlock fn off) = true ∧ regAt (aBlock fn off) = some (aBlock fn off)
  · rw [barWrite_register v (by omega) ha h.1 h.2, devWrite_block v hfn ho h.2]
    exact .writeBlock s 1 fn ho v
  · rw [barWrite_ignored v (by omega) ha ((Classical.not_and_iff_not_or_not.1 h).imp_left (Bool.eq_false_of_not_eq_true))]
    exact .refl s

/-! ### F-level writes of the registers that only store, and of read-only ones -/

/-- A read-only register's write does nothing (R4). -/
theorem devWrite_readOnly (s : State) (v : DWord) :
    ∀ a ∈ [aPtpState, aPtpOffset, aPtpNow, aPtmPtp, aBreezePos, aBreezeStat, aDevEnergy],
      regAt a = some a ∧ devWrite s 2 a v = s := by
  simp only [List.forall_mem_cons]
  exact ⟨⟨rfl, rfl⟩, ⟨rfl, rfl⟩, ⟨rfl, rfl⟩, ⟨rfl, rfl⟩, ⟨rfl, rfl⟩, ⟨rfl, rfl⟩, ⟨rfl, rfl⟩, List.forall_mem_nil _⟩

/-- PTP_CFG's write, which notes when EN rises (R282). -/
theorem devWrite_ptpCfg (s : State) (v : DWord) :
    devWrite s 2 aPtpCfg v = store { s with ptp := { s.ptp with
      enAt := if v.getLsbD 11 = true ∧ (s.dreg aPtpCfg).getLsbD 11 = false then s.ns else s.ptp.enAt } } aPtpCfg 0xFFF v := by
  have rises : (v.getLsbD 11 && !(s.dreg aPtpCfg).getLsbD 11) = true ↔
      v.getLsbD 11 = true ∧ (s.dreg aPtpCfg).getLsbD 11 = false := by
    rw [Bool.and_eq_true, Bool.not_eq_true']
  have page : devWrite s 2 aPtpCfg v = writePtpCfg s v := rfl
  rw [page, writePtpCfg]
  simp only [rises]

end Sys2Proof.Machine
end

section
/-! PROOFS. RegisterWrites: the register writes that have events of their own, and REGISTER_WRITE (R4, R177, R273, R274,
R277, R285, R294, R295, R315). -/

namespace Sys2Proof.Machine

open Sys2Proof.Claims

/-- The event writes of HEVT, NQLATCH and ING_FILT (R277, R285, R315). -/
theorem smallWrites : SmallWrites := by
  refine ⟨fun s n v hn => ⟨⟨writeHevt s n v, if_pos hn, writeHevt_eq s n v, ?_, ?_, ?_, writeHevt_queue s n v⟩,
    writeNqlatch s 2 n v, if_pos hn, writeNqlatch_onlyDev s 2 n v, ?_, writeNqlatch_dest s n v, ?_, ?_⟩,
    fun s f v hf => ⟨writeFilter s 2 f 0 v, if_pos hf, writeFilter_dreg_config s f v, ?_, ?_, ?_⟩⟩
  · exact fun a ha => writeHevt_dreg_other s v ha
  · exact fun i hi => writeHevt_eventBit s n v hi
  · exact fun e he => mem_qEvents_writeHevt he
  · exact fun a ha => writeNqlatch_dreg_other s 2 v ha
  · exact fun hv => writeNqlatch_cleared s n hv
  · intro hv
    rw [writeNqlatch_keep s n hv, nqlatch_store_low]
  · exact fun a h1 h2 => writeFilter_dreg_other s v h1 h2
  · intro hv hs
    rw [writeFilter_rises hv hs]
    exact ⟨State.dreg_putDreg_same _ _ 0, fget_fset_same _ _ f 0, fget_fset_same _ _ f 0,
      fun g hg => ⟨fget_fset_other _ _ 0 hg, fget_fset_other _ _ 0 hg⟩, rfl⟩
  · intro h
    rw [writeFilter_keeps h]
    exact ⟨dreg_store_other s _ v (aIngFilt_ne_aIngStat f).symm, rfl⟩

/-- REGISTER_WRITE at F level and through BAR0 (R4, R273, R274). -/
theorem barWrites : BarWrites := by
  refine ⟨fun s a v => ⟨registerWrite_atF_dropped v, registerWrite_atF v, fun ha => ?readOnly⟩, fun s v => ?stores,
    fun s v => ?ptpCfg, fun s fn off v hfn => ?bar0, fun s m fn off v hfn hm hne ho => ?otherBlock⟩
  case readOnly =>
    obtain ⟨own, nothing⟩ := devWrite_readOnly s v a ha
    rw [registerWrite_atF v own, nothing]
  case stores =>
    simp only [List.forall_mem_cons]
    exact ⟨rfl, rfl, rfl, rfl, rfl, rfl, rfl, rfl, rfl, rfl, rfl, rfl, List.forall_mem_nil _⟩
  case ptpCfg =>
    rw [registerWrite_atF v rfl, devWrite_ptpCfg]; rfl
  case bar0 =>
    simp only [registerWrite_bar0 _ v hfn, exec_bootGo, execBootGo]
    refine ⟨?_, ?_, ?_, ?_, ?_, ?_, ?_, fun a ho ha => ⟨?_, ?_⟩⟩
    · rintro rfl; rw [barWrite_mailboxAddr]
    · rintro rfl; rw [barWrite_mailboxGo]
    · rintro rfl rfl; rw [barWrite_bootAddr]
    · rintro rfl rfl; rw [barWrite_bootLen]
    · rintro rfl rfl h; rw [barWrite_bootGo s h]
    · intro ho hf; rw [barWrite_bootOfVf s v ho hf]
    · intro ho ha; rw [barWrite_nothing v ho ha]
    · intro hn; rw [barWrite_ignored v ho ha hn]
    · intro hr own; rw [barWrite_register v ho ha hr own]
  case otherBlock =>
    refine ⟨_, registerWrite_bar0 off v hfn, fun o hlt => barWrite_onlyBlock s v hfn ho _ fun p hp => ?_⟩
    simp only [aBlock]; omega

/-- Settles O50: the event writes by what each sets and leaves in its register, REGISTER_WRITE by the register at its
address, and by what a block's write can reach. -/
theorem registerWrites : Obligations.RegisterWrites := ⟨smallWrites, barWrites⟩

end Sys2Proof.Machine
end

section
/-! PROOFS. RoundTrip: every well-formed word decodes to itself (Laws/PerInstr.lean, constructor by constructor), and a word
that decodes is the encoding of its instruction (R55, R64, R67, R84). -/

namespace Sys2Proof.Laws.Encodes

/-- A well-formed instruction's words decode to it, whatever the constructor. -/
theorem statement (i : Instr) : Statement i :=
  Instr.rec (motive := Statement)
    iadd iaddLit isub isubLit imul imulLit imulhS imulhU imad iminS iminSLit iminU iminULit imaxS imaxSLit imaxU
    imaxULit iabs icmp lea leaX and andLit or orLit xor xorLit shl shr shrX rot bfx bfi popc clz brev sel mov movLit
    movi movx movxw fadd faddX fsub fsubX fmul fmulX ffma fmin fminX fmax fmaxX fcmp frcp frcpX frsq frsqX fsqrt
    fsqrtX fexp2 fexp2X flog2 flog2X fsin fsinX fcos fcosX padd paddX pmul pmulX pfma pack8 unpack cvt fmtset fmtget
    shfl vote redux bcast ldB ldBX ldH ldHX ldW ldWX ldD ldDX ldQ ldQX stB stBX stH stHX stW stWX stD stDX stQ stQX
    ldt atom fence accrd accwr copy copyc nbinit nbarr nbwait nbsync nbinv semsig spawn cancel mark cut graft slfree
    mstart ifL elseL endifL loopL breakL contL endloop bra brv call ret jmpi exit nop pause sysr sysw trap rett bkpt
    wfi icinv tlbinv mclaim mrel mload mstore mma mzero mwait msig mend clauseFetch resultLanding registerRefill
    pauseExpiry launchPacket copyPacket graphPacket waitPacket signalPacket signalPerform phasePacket cancelPacket
    timefencePacket timefenceRelease nopPacket packetReread queueStall waitReread waitSemStall heldLaunchStart
    workgroupAdmission passedOverBlock ophintHoldEnd workgroupEnd cancelNoticeTimeout preemptWrite foldExpansion
    workgroupSave workgroupRestore sliceEnd tenantSwitch overrunSave overrunReset walkCompletion copyTile faultRetry
    faultUnresolved semsigPerform tokenRefill openTileTimeout breezeTile breezeClr tlbinvCompletion icinvCompletion
    wfiResume reservationEntryGrant streamAdmission streamClauseFetch streamOpRetire ballastPass allowanceRegulation
    notifyStore kettleUngate qctlWrite ingFiltWrite hevtWrite nqlatchWrite registerWrite cxlMemRead cxlMemWrite
    ptmDialogue doeRequest flr ptpMessageRx ptpRequestTx ptpHoldover ingressFrame connect disconnect regrant
    partConnDone retireWrite quiesce clkgate pwroff powerup clpwrOn clpwrDone clWake retSave retRestore retDone
    agentDb operatingPointChange thermalLimit thermalStop deviceReset bootGo run keyload keyclear attest
    undefinedOpcodePacket badkindRequest firstLockComplete periodStart linkTraining i

end Sys2Proof.Laws.Encodes

namespace Sys2Proof.Laws.Decodes

open Encodes

/-! ### Fields of a word -/

/-- The bits of w from s on are a. -/
def Holds {N n : Nat} (w : BitVec N) (s : Nat) (a : BitVec n) : Prop := w.extractLsb' s n = a

/-- A word holds a concatenation where it holds its two parts, one above the other. -/
theorem holds_append {N m k : Nat} (w : BitVec N) (s : Nat) (a : BitVec m) (b : BitVec k) :
    Holds w s (a ++ b) ↔ Holds w (s + k) a ∧ Holds w s b := by
  have join : w.extractLsb' s (m + k) = w.extractLsb' (s + k) m ++ w.extractLsb' s k :=
    (BitVec.extractLsb'_append_extractLsb'_eq_extractLsb' rfl).symm
  rw [Holds, join]
  constructor
  · intro h
    have high := congrArg (BitVec.extractLsb' k m) h
    have low := congrArg (BitVec.extractLsb' 0 k) h
    rw [BitVec.extractLsb'_append_eq_left, BitVec.extractLsb'_append_eq_left] at high
    rw [BitVec.extractLsb'_append_eq_right, BitVec.extractLsb'_append_eq_right] at low
    exact ⟨high, low⟩
  · rintro ⟨rfl, rfl⟩; rfl

/-! ### Codes that are read come from what they stand for -/

/-- A code gives c exactly where it is the code of c. -/
theorem mem_read_iff {n : Nat} {α : Type} {read : BitVec n → Option α} {bits : α → BitVec n}
    (back : ∀ c, read (bits c) = some c) (forth : ∀ b, ∀ c ∈ read b, bits c = b) (b : BitVec n) (c : α) :
    c ∈ read b ↔ b = bits c :=
  ⟨fun h => (forth b c h).symm, fun h => h ▸ back c⟩

theorem mem_readRm (b : BitVec 3) (c : Rm) : c ∈ readRm b ↔ b = bitsOfRm c :=
  mem_read_iff readRm_bits (by decide) b c

theorem mem_readCond (b : BitVec 4) (c : Cond) : c ∈ readCond b ↔ b = bitsOfCond c :=
  mem_read_iff readCond_bits (by decide) b c

theorem mem_readLeaIndex (b : BitVec 4) (c : LeaIndex) : c ∈ readLeaIndex b ↔ b = bitsOfLeaIndex c :=
  mem_read_iff readLeaIndex_bits (by decide) b c

theorem mem_readPFmt (b : BitVec 4) (c : PFmt) : c ∈ readPFmt b ↔ b = bitsOfPFmt c :=
  mem_read_iff readPFmt_bits (by decide) b c

theorem mem_readShflMode (b : BitVec 3) (c : ShflMode) : c ∈ readShflMode b ↔ b = bitsOfShflMode c :=
  mem_read_iff readShflMode_bits (by decide) b c

theorem mem_readVoteMode (b : BitVec 3) (c : VoteMode) : c ∈ readVoteMode b ↔ b = bitsOfVoteMode c :=
  mem_read_iff readVoteMode_bits (by decide) b c

theorem mem_readReduxOp (b : BitVec 3) (c : ReduxOp) : c ∈ readReduxOp b ↔ b = bitsOfReduxOp c :=
  mem_read_iff readReduxOp_bits (by decide) b c

theorem mem_readAtomSize (b : BitVec 3) (c : AtomSize) : c ∈ readAtomSize b ↔ b = bitsOfAtomSize c :=
  mem_read_iff readAtomSize_bits (by decide) b c

theorem mem_readAtomOp (b : BitVec 4) (c : AtomOp) : c ∈ readAtomOp b ↔ b = bitsOfAtomOp c :=
  mem_read_iff readAtomOp_bits (by decide) b c

theorem mem_readFenceOrder (b : BitVec 2) (c : FenceOrder) : c ∈ readFenceOrder b ↔ b = bitsOfFenceOrder c :=
  mem_read_iff readFenceOrder_bits (by decide) b c

theorem mem_readFenceScope (b : BitVec 3) (c : FenceScope) : c ∈ readFenceScope b ↔ b = bitsOfFenceScope c :=
  mem_read_iff readFenceScope_bits (by decide) b c

theorem mem_readSemOp (b : BitVec 3) (c : SemOp) : c ∈ readSemOp b ↔ b = bitsOfSemOp c :=
  mem_read_iff readSemOp_bits (by decide) b c

theorem mem_readCancelLevel (b : BitVec 2) (c : CancelLevel) : c ∈ readCancelLevel b ↔ b = bitsOfCancelLevel c :=
  mem_read_iff readCancelLevel_bits (by decide) b c

theorem mem_readInvScope (b : BitVec 3) (c : InvScope) : c ∈ readInvScope b ↔ b = bitsOfInvScope c :=
  mem_read_iff readInvScope_bits (by decide) b c

theorem mem_readMSize (b : BitVec 2) (c : MSize) : c ∈ readMSize b ↔ b = bitsOfMSize c :=
  mem_read_iff readMSize_bits (by decide) b c

theorem mem_readMStFmt (b : BitVec 2) (c : MStFmt) : c ∈ readMStFmt b ↔ b = bitsOfMStFmt c :=
  mem_read_iff readMStFmt_bits (by decide) b c

theorem mem_readSysReg (b : BitVec 8) (c : SysReg) : c ∈ readSysReg b ↔ b = bitsOfSysReg c :=
  mem_read_iff readSysReg_bits (by decide) b c

theorem mem_readFmt (b : BitVec 4) (c : Fmt) : c ∈ readFmt b ↔ b = bitsOfFmt c :=
  mem_read_iff readFmt_bits (by decide) b c

theorem mem_readMmaFmt (b : BitVec 4) (c : MmaFmt) : c ∈ readMmaFmt b ↔ b = bitsOfMmaFmt c :=
  mem_read_iff readMmaFmt_bits (by decide) b c

theorem mem_readMods (b : BitVec 6) (c : Mods) : c ∈ readMods b ↔ b = bitsOfMods c :=
  mem_read_iff readMods_bits (by decide) b c

theorem mem_readBool (b : BitVec 1) (c : Bool) : c ∈ readBool b ↔ b = bitsOfBool c :=
  mem_read_iff readBool_bits (by decide) b c

/-! ### Decoders -/

/-- Whatever instruction a decoder gives, its words are l. -/
def Spells (o : Option Instr) (l : List Word) : Prop := ∀ i ∈ o, encode i = l

theorem spells_none (l : List Word) : Spells none l := fun _ h => nomatch h

theorem spells_some (i : Instr) (l : List Word) : Spells (some i) l ↔ List.Forall₂ (Holds · 0 ·) l (encode i) := by
  have same : (Holds · 0 · : Word → Word → Prop) = Eq := by
    funext w a; rw [Holds, extract_all]
  rw [same, List.forall₂_eq_eq_eq]
  exact ⟨fun h => (h i rfl).symm, fun h j hj => by cases hj; exact h.symm⟩

theorem spells_ite (c : Prop) [Decidable c] (o : Option Instr) (l : List Word) :
    Spells (if c then o else none) l ↔ (c → Spells o l) := by
  split
  · next h => exact ⟨fun ho _ => ho, fun ho => ho h⟩
  · next h => exact ⟨fun _ hc => absurd hc h, fun _ => spells_none l⟩

theorem spells_bind {α : Type} (r : Option α) (f : α → Option Instr) (l : List Word) :
    Spells (r.bind f) l ↔ ∀ c ∈ r, Spells (f c) l := by
  cases r with
  | none => exact ⟨fun _ _ h => (nomatch h), fun _ => spells_none l⟩
  | some c => exact ⟨fun h _ hc => by cases hc; exact h, fun h => h c rfl⟩

theorem spells_or {o o' : Option Instr} {l : List Word} (h : Spells o l) (h' : Spells o' l) : Spells (o.or o') l := by
  cases o with
  | none => exact h'
  | some i => exact h

theorem eq_ofNat_of_toNat {m n : Nat} {b : BitVec m} (h : b.toNat = n) : b = BitVec.ofNat m n := by
  rw [← h, BitVec.ofNat_toNat, BitVec.setWidth_eq]

/-- A word and its extension are what their instruction is encoded as: opcode by opcode, each field that is read stands where
the encoding puts it, and the fields that are 0 stand between them. -/
theorem spells_decodeFields (w x : Word) : Spells (decodeFields w x) (if hasExt w then [w, x] else [w]) := by
  rw [decodeFields, hasExt_eq]
  split
  case h_154 => exact spells_none _
  case' h_152 => apply spells_or
  all_goals
    rename_i opcode
    replace opcode := eq_ofNat_of_toNat opcode
    rw [opcode]
    simp only [spells_ite, spells_bind, spells_some, and_imp, BitVec.ofNat_eq_ofNat,
      decIadd, decIaddLit, decIsub, decIsubLit, decImul, decImulLit, decImulhS, decImulhU, decImad, decIminS,
      decIminSLit, decIminU, decIminULit, decImaxS, decImaxSLit, decImaxU, decImaxULit, decIabs, decIcmp, decLea,
      decLeaX, decAnd, decAndLit, decOr, decOrLit, decXor, decXorLit, decShl, decShr, decShrX, decRot, decBfx,
      decBfi, decPopc, decClz, decBrev, decSel, decMov, decMovLit, decMovi, decMovx, decMovxw, decFadd, decFaddX,
      decFsub, decFsubX, decFmul, decFmulX, decFfma, decFmin, decFminX, decFmax, decFmaxX, decFcmp, decFrcp,
      decFrcpX, decFrsq, decFrsqX, decFsqrt, decFsqrtX, decFexp2, decFexp2X, decFlog2, decFlog2X, decFsin, decFsinX,
      decFcos, decFcosX, decPadd, decPaddX, decPmul, decPmulX, decPfma, decPack8, decUnpack, decCvt, decFmtset,
      decFmtget, decShfl, decVote, decRedux, decBcast, decLdB, decLdBX, decLdH, decLdHX, decLdW, decLdWX, decLdD,
      decLdDX, decLdQ, decLdQX, decStB, decStBX, decStH, decStHX, decStW, decStWX, decStD, decStDX, decStQ, decStQX,
      decLdt, decAtom, decFence, decAccrd, decAccwr, decCopy, decCopyc, decNbinit, decNbarr, decNbwait, decNbsync,
      decNbinv, decSemsig, decSpawn, decCancel, decMark, decCut, decGraft, decSlfree, decMstart, decIfL, decElseL,
      decEndifL, decLoopL, decBreakL, decContL, decEndloop, decBra, decBrv, decCall, decRet, decJmpi, decExit,
      decNop, decPause, decSysr, decSysw, decTrap, decRett, decBkpt, decWfi, decIcinv, decTlbinv, decMclaim, decMrel,
      decMload, decMstore, decMma, decMzero, decMwait, decMsig, decMend,
      mem_readRm, mem_readCond, mem_readLeaIndex, mem_readPFmt, mem_readShflMode, mem_readVoteMode, mem_readReduxOp,
      mem_readAtomSize, mem_readAtomOp, mem_readFenceOrder, mem_readFenceScope, mem_readSemOp, mem_readCancelLevel,
      mem_readInvScope, mem_readMSize, mem_readMStFmt, mem_readSysReg, mem_readFmt, mem_readMmaFmt, mem_readMods,
      mem_readBool]
    intros
    simp only [encode, ↓holds_append, and_true, -Nat.reduceAdd, BitVec.reduceGetLsb, List.forall₂_cons,
      List.forall₂_nil_left_iff, ↓reduceIte, Bool.false_eq_true]
    simp only [Holds, *, and_self]

/-! ### Words and bytes -/

theorem decodeWords_ok {w x : Word} {i : Instr} (h : decodeWords w x = .ok i) :
    decodeFields w x = some i ∧ i.wellFormed = true := by
  unfold decodeWords at h
  split at h
  · split at h
    · cases h
    · next j hj =>
      split at h
      · next hw => cases h; exact ⟨hj, hw⟩
      · cases h
  · cases h

/-- A word's bytes, put together again. -/
theorem wordOfBytes_bytes (w : Word) :
    wordOfBytes (w.extractLsb' 0 8) (w.extractLsb' 8 8) (w.extractLsb' 16 8) (w.extractLsb' 24 8) = w := by
  have h : Holds w 0 (wordOfBytes (w.extractLsb' 0 8) (w.extractLsb' 8 8) (w.extractLsb' 16 8) (w.extractLsb' 24 8)) := by
    simp only [wordOfBytes, ↓holds_append, -Nat.reduceAdd]
    simp only [Holds, and_self]
  rw [Holds, extract_all] at h
  exact h.symm

theorem decode_one {w : Word} {i : Instr} (h : decodeWords w 0 = .ok i) (hw : hasExt w = false) (rest : List Byte) :
    decode (bytesOfWord w ++ rest) = .ok (i, rest) := by
  simp only [bytesOfWord, List.cons_append, List.nil_append, decode, wordOfBytes_bytes, hw, h]
  rfl

theorem decode_two {w x : Word} {i : Instr} (h : decodeWords w x = .ok i) (hw : hasExt w = true) (rest : List Byte) :
    decode (bytesOfWord w ++ (bytesOfWord x ++ rest)) = .ok (i, rest) := by
  simp only [bytesOfWord, List.cons_append, List.nil_append, decode, wordOfBytes_bytes, hw, h]
  rfl

end Sys2Proof.Laws.Decodes

namespace Sys2Proof.Machine

open Laws

theorem decodeWords_encode_one {i : Instr} {w : Word} (hi : i.wellFormed = true) (h : encode i = [w]) (x : Word) :
    hasExt w = false ∧ decodeWords w x = .ok i := by
  obtain ⟨hd, hl⟩ := Encodes.statement i hi x w [] h
  refine ⟨?_, hd⟩
  cases he : hasExt w with
  | false => rfl
  | true => rw [he] at hl; cases hl

theorem decodeWords_encode_two {i : Instr} {w x : Word} (hi : i.wellFormed = true) (h : encode i = [w, x]) :
    hasExt w = true ∧ decodeWords w x = .ok i := by
  obtain ⟨hd, hl⟩ := Encodes.statement i hi 0 w [x] h
  refine ⟨?_, hd⟩
  cases he : hasExt w with
  | true => rfl
  | false => rw [he] at hl; cases hl

/-- An encoding is one word or two. -/
theorem encode_length {i : Instr} (hi : i.wellFormed = true) (hne : encode i ≠ []) :
    (∃ w, encode i = [w]) ∨ ∃ w x, encode i = [w, x] := by
  match he : encode i, hne with
  | [w], _ => exact .inl ⟨w, rfl⟩
  | [w, x], _ => exact .inr ⟨w, x, rfl⟩
  | w :: x :: y :: l, _ =>
    have hl := (Encodes.statement i hi 0 w (x :: y :: l) he).2
    split at hl <;> simp at hl

theorem decode_encodeBytes {i : Instr} (hi : i.wellFormed = true) (hne : encode i ≠ []) (rest : List Byte) :
    decode (encodeBytes i ++ rest) = .ok (i, rest) := by
  rcases encode_length hi hne with ⟨w, h⟩ | ⟨w, x, h⟩
  · obtain ⟨he, hd⟩ := decodeWords_encode_one hi h 0
    simp only [encodeBytes, h, List.flatMap_cons, List.flatMap_nil, List.append_nil]
    exact Decodes.decode_one hd he rest
  · obtain ⟨he, hd⟩ := decodeWords_encode_two hi h
    simp only [encodeBytes, h, List.flatMap_cons, List.flatMap_nil, List.append_nil, List.append_assoc]
    exact Decodes.decode_two hd he rest

/-- Settles O58: encoding then decoding by the lemma of each constructor, decoding then encoding by the fields of each opcode. -/
theorem roundTrip : Obligations.RoundTrip := by
  refine ⟨fun i w x hi h => decodeWords_encode_one hi h x, fun i w x hi h => decodeWords_encode_two hi h,
    fun i rest hi hne => decode_encodeBytes hi hne rest, fun i w x h => ?_⟩
  obtain ⟨hf, hi⟩ := Decodes.decodeWords_ok h
  exact ⟨hi, Decodes.spells_decodeFields w x i hf⟩

end Sys2Proof.Machine
end

section
/-! PROOFS. ClauseFetch: what a clause boundary asks, what is delivered there, and the clause that is obtained and checked (R64 to
R66, R106, R110, R158, R265). -/

namespace Sys2Proof.Machine

/-! ### Fetching changes the memory side alone -/

theorem MemSide.refused (s : State) (part : Option Nat) :
    MemSide s (match part with | some q => Machine.addDeny s q | none => s) := by
  cases part with
  | none => exact MemSide.refl s
  | some q => exact MemSide.addDeny s q

theorem MemSide.fetchBytes (part core : Option Nat) (fuel : Nat) (s : State) (va n : Nat) :
    MemSide s (fetchBytes part core fuel s va n).2 := by
  induction fuel generalizing s va n with
  | zero => exact MemSide.refl s
  | succ fuel ih =>
    unfold Machine.fetchBytes
    split
    · exact MemSide.refl s
    · have walked := MemSide.xlate s part core va false
      split <;> rename_i e <;> rw [e] at walked
      · exact walked
      · next x s1 =>
        dsimp only
        split
        · exact walked
        · split
          · exact walked
          · split
            · exact walked
            · split
              · exact walked.trans (MemSide.refused s1 part)
              · have read := walked.trans (MemSide.sealRead s1 x.pte.key 0 (x.pte.addr + (va - x.base))
                  (min n (min (2048 - va % 2048) (x.base + x.size - va))))
                split <;> rename_i er <;> rw [er] at read
                · have rest := read.trans (ih _ (va + min n (min (2048 - va % 2048) (x.base + x.size - va)))
                    (n - min n (min (2048 - va % 2048) (x.base + x.size - va))))
                  split <;> rename_i ef <;> rw [ef] at rest <;> exact rest
                · exact read

theorem MemSide.fetchClause (s : State) (part core : Option Nat) (a : DWord) : MemSide s (fetchClause s part core a).2 := by
  unfold Machine.fetchClause
  split
  · exact MemSide.refl s
  · have hdr := MemSide.fetchBytes part core 8 s a.toNat 4
    split <;> rename_i e <;> rw [e] at hdr
    · exact hdr
    · next l s1 =>
      dsimp only
      have slots := hdr.trans (MemSide.fetchBytes part core 8 s1 (a.toNat + 4) (4 * hdrCount (BitVec.ofNat 32 (ofBytes l))))
      split <;> rename_i e' <;> rw [e'] at slots <;> exact slots

theorem MemSide.obtainClause (s : State) (t : Team) : MemSide s (obtainClause s t).2 := by
  unfold Machine.obtainClause
  split
  · exact MemSide.refl s
  · exact MemSide.fetchClause _ _ _ _

/-! ### When a team fetches, and what it is told first -/

theorem Team.atBoundary_iff (t : Team) : t.atBoundary = true ↔ ∀ c, t.clause = some c → c.started = false := by
  unfold Team.atBoundary
  cases t.clause <;> simp

theorem Team.parkOver_iff (t : Team) :
    t.parkOver = true ↔ t.park = .none ∨ ∃ n, t.park = .switch n ∧ ∀ p ∈ t.pend, n ≤ p.id := by
  unfold Team.parkOver
  cases t.park <;> simp

/-- A notice is due now: to no team in its handler; a fold's only to a team that asked for it and is not paused (R66, R265). -/
theorem Team.noticeNow_iff (s : State) (t : Team) :
    t.noticeNow s = true ↔ t.inHandler = false ∧ (t.noticeCancel = true ∨ (t.noticeFold = true ∧ t.noticeEn = true ∧
      t.pauseEnd ≤ clockTenths s (teamCore s t / 4))) := by
  unfold Team.noticeNow Team.noticeDue Team.paused
  cases t.inHandler <;> cases t.noticeCancel <;> simp [and_assoc]

theorem clauseFetch_waits {s : State} {t : Team} {u : Nat} (ht : s.team u = some t)
    (h : t.atBoundary = false ∨ t.parkOver = false ∨ mayAct s t = false) : exec (.clauseFetch u) s = .next s := by
  simp only [exec_clauseFetch, execClauseFetch, ht]
  rw [if_pos (by simpa using h)]

section
variable {s : State} {t : Team} {u : Nat} (ht : s.team u = some t) (hb : t.atBoundary = true) (hp : t.parkOver = true)
  (ha : mayAct s t = true)
include ht hb hp ha

/-- At a boundary a notice comes before the fetch. -/
theorem clauseFetch_boundary : exec (.clauseFetch u) s =
    if t.noticeNow s then .next (deliverNotice s u t) else if t.clause.isNone then .next (takeClause s u t) else .next s := by
  simp only [exec_clauseFetch, execClauseFetch, ht]
  rw [if_neg (by simp [hb, hp, ha])]

theorem clauseFetch_notice (hn : t.noticeNow s = true) : exec (.clauseFetch u) s = .next (deliverNotice s u t) := by
  rw [clauseFetch_boundary ht hb hp ha, if_pos hn]

theorem clauseFetch_held (hn : ¬ t.noticeNow s = true) (hc : t.clause ≠ none) : exec (.clauseFetch u) s = .next s := by
  rw [clauseFetch_boundary ht hb hp ha, if_neg hn, if_neg (by simpa using hc)]

theorem clauseFetch_takes (hn : ¬ t.noticeNow s = true) (hc : t.clause = none) :
    exec (.clauseFetch u) s = .next (takeClause s u t) := by
  rw [clauseFetch_boundary ht hb hp ha, if_neg hn, if_pos (by simp [hc])]

end

theorem deliverNotice_stops {s : State} {u : Nat} {t : Team} (hc : t.noticeCancel = true) (hv : t.trapvec = 0) :
    deliverNotice s u t = teamLeaves s u .stopped := by
  rw [deliverNotice, if_pos hc, if_pos hv]

theorem deliverNotice_cancel {s : State} {u : Nat} {t : Team} (hc : t.noticeCancel = true) (hv : t.trapvec ≠ 0) :
    deliverNotice s u t = takeTrap (s.putTeam u { t with noticeCancel := false, cancelAt := some s.ns }) u 0x1D t.pc t.resume 0
      true 0 := by
  rw [deliverNotice, if_pos hc, if_neg hv]

theorem deliverNotice_fold {s : State} {u : Nat} {t : Team} (hc : t.noticeCancel = false) :
    deliverNotice s u t = takeTrap (s.putTeam u { t with noticeFold := false, lastRlvl := t.rlvl }) u 0x1C t.pc t.resume 0
      true t.rlvl := by
  rw [deliverNotice, if_neg (by simp [hc])]

/-! ### The clause that is taken -/

section
variable {s s1 : State} {t : Team} {h : Word} {ws : List Word} (u : Nat)

theorem takeClause_error {cause : Nat} (e : obtainClause s t = (.error cause, s1)) :
    takeClause s u t = takeTrap s1.bump u cause t.pc 0 t.pc false 0 := by
  simp only [takeClause, e, fetchTrap]

theorem takeClause_fails {slot cause : Nat} (e : obtainClause s t = (.ok (h, ws), s1))
    (hf : clauseFail (.team t.nregs) h ws = some (slot, cause)) :
    takeClause s u t = takeTrap s1.bump u cause t.pc slot 0 false 0 := by
  simp only [takeClause, e, hf, fetchTrap]

theorem takeClause_noSlot (e : obtainClause s t = (.ok (h, ws), s1)) (hf : clauseFail (.team t.nregs) h ws = none)
    (hs : slotStarts ws (t.resume - 1) 16 0 = false) :
    takeClause s u t = takeTrap s1.bump u 2 t.pc t.resume 0 false 0 := by
  simp only [takeClause, e, hf, fetchTrap, hs]; rfl

theorem capture_eq (s : State) (core : Nat) (agent : Bool) (c : Clause) :
    capture s core agent c = { s with loopBuf := (capture s core agent c).loopBuf } := by
  unfold capture; split <;> rfl

theorem takeClause_holds (e : obtainClause s t = (.ok (h, ws), s1)) (hf : clauseFail (.team t.nregs) h ws = none)
    (hs : slotStarts ws (t.resume - 1) 16 0 = true) : ∃ s2 : State, s2 = { s1.bump with loopBuf := s2.loopBuf } ∧
      takeClause s u t = passBoundary (s2.putTeam u { t with
        clause := some { addr := t.pc, hdr := h, words := ws, started := false }
        slot := t.resume - 1, clauseSeq := t.clauseSeq + 1 }) u := by
  refine ⟨(capture s1 (teamCore s t) t.agent { addr := t.pc, hdr := h, words := ws, started := false }).bump, ?_, ?_⟩
  · rw [capture_eq]; rfl
  · simp only [takeClause, e, hf, hs]; rfl

end

/-- Settles O33: what holds a team up, the notice that is due, and the clause that it obtains and checks. -/
theorem clauseFetch : Obligations.ClauseFetch := by
  intro s t u ht
  dsimp only
  rw [← Team.noticeNow_iff, ← Team.atBoundary_iff, ← Team.parkOver_iff]
  refine ⟨fun h => clauseFetch_waits ht (by simpa using h), fun hb hp ha =>
    ⟨fun hn hc hv => ?_, fun hn hc hv => ?_, fun hn hc => ?_, clauseFetch_held ht hb hp ha, fun hn hc => ?_⟩⟩
  · rw [clauseFetch_notice ht hb hp ha hn, deliverNotice_stops hc hv]
  · rw [clauseFetch_notice ht hb hp ha hn, deliverNotice_cancel hc hv]
  · rw [clauseFetch_notice ht hb hp ha hn, deliverNotice_fold hc]
  · rw [clauseFetch_takes ht hb hp ha hn hc]
    refine ⟨MemSide.obtainClause s t, fun cause e => ?_, fun h ws e => ⟨fun slot cause hf => ?_, fun hf hs => ?_, fun hf hs => ?_⟩⟩
    · rw [takeClause_error u (Prod.ext e rfl)]
    · rw [takeClause_fails u (Prod.ext e rfl) hf]
    · rw [takeClause_noSlot u (Prod.ext e rfl) hf hs]
    · obtain ⟨s2, hs2, eq⟩ := takeClause_holds u (Prod.ext e rfl) hf hs
      exact ⟨s2, hs2, by rw [eq]⟩

end Sys2Proof.Machine
end

section
/-! PROOFS. ResultsLand: a result that lands in its register, a register that comes back to a folded team, and the end of a pause
(R60, R63, R169, R226, R258, R261, R262). -/

namespace Sys2Proof.Machine

/-! ### What an eviction takes -/

theorem Team.evict_eq (t : Team) (spare : List Nat) : t.evict spare = { t with evicted := (t.evict spare).evicted } := rfl

theorem Team.evict_keeps {t : Team} {spare : List Nat} {q : Nat} (h : q ∈ t.evicted) : q ∈ (t.evict spare).evicted :=
  List.mem_append_left _ h

/-- A register that an eviction takes was among the coldest, and is not spared. -/
theorem Team.mem_evict {t : Team} {spare : List Nat} {q : Nat} (h : q ∈ (t.evict spare).evicted) :
    q ∈ t.evicted ∨ q ∈ t.coldest ∧ q ∉ spare := by
  refine (List.mem_append.1 h).imp_right fun taken => ?_
  simpa using List.mem_of_mem_take taken

theorem Team.mem_coldest {t : Team} {q : Nat} : q ∈ t.coldest ↔ q < t.nregs ∧ (∀ p ∈ t.pend, p.reg ≠ q) ∧ q ∉ t.evicted := by
  simp [Team.coldest, Team.outstanding, mem_sortBy]

/-! ### A result lands -/

/-- The team that a delivered result p of value v makes of t, before a folded one evicts again (R63, R226). -/
def Team.landed (t : Team) (k : Nat) (p : Pending) (v : Word) : Team :=
  { (t.fixLoads fun x => x.gives p).putReg p.reg p.lane v with
    pend := t.pend.eraseIdx k, fpstat := t.fpstat ||| p.flags.zeroExtend 32 }

/-- The flags of a result join those of FPSTAT, bit by bit. -/
theorem flags_getLsbD (x : Word) (f : BitVec 5) (i : Nat) :
    (x ||| f.zeroExtend 32).getLsbD i = (x.getLsbD i || f.getLsbD i) := by
  rw [BitVec.getLsbD_or, BitVec.zeroExtend, BitVec.getLsbD_setWidth]
  cases h : f.getLsbD i with
  | false => simp
  | true =>
    have := BitVec.lt_of_getLsbD h
    simp [show i < 32 by omega]

section
variable {t : Team} {k : Nat} {p : Pending}

theorem Team.land_delivered {v : Word} (hp : t.pend[k]? = some p) (hv : p.val = some v) :
    t.land k = if t.rlvl = 0 then t.landed k p v else (t.landed k p v).evict [] := by
  simp only [Team.land, hp, hv]; rfl

theorem Team.land_undelivered (h : ∀ p, t.pend[k]? = some p → p.val = none) : t.land k = t := by
  unfold Team.land
  split
  · rfl
  · next p hp => rw [h p hp]

/-- A landing changes nothing but the register, the results outstanding, FPSTAT, the loads and what is evicted. -/
theorem Team.land_eq {v : Word} (hp : t.pend[k]? = some p) (hv : p.val = some v) :
    t.land k = { t.landed k p v with evicted := (t.land k).evicted } := by
  rw [Team.land_delivered hp hv]
  split <;> rfl

theorem Team.land_evicted (hr : t.rlvl = 0) : (t.land k).evicted = t.evicted := by
  unfold Team.land
  split
  · rfl
  · split
    · rfl
    · rw [if_pos hr]; rfl

theorem Team.mem_land_evicted {q : Nat} (h : q ∈ t.evicted) : q ∈ (t.land k).evicted := by
  unfold Team.land
  split
  · exact h
  · split
    · exact h
    · dsimp only
      split
      · exact h
      · exact Team.evict_keeps h

theorem resultLanding_lands {s : State} {u : Nat} (ht : s.team u = some t) :
    exec (.resultLanding u k) s = .next (s.putTeam u (t.land k)) := by
  simp only [exec_resultLanding, execResultLanding, ht]

end

/-! ### A register is refilled -/

/-- What fails in a refill, fails for a check word. -/
def FailsCheck (x : Option (Nat × Nat) × State) : Prop := ∀ cause at_, x.1 = some (cause, at_) → cause = 9

/-- A refill's tiles fail for a check word, or for the key alone (R167, R169). -/
theorem refillBytes_cause {s : State} {t : Team} {o n cause at_ : Nat} (h : (refillBytes s t o n).1 = some (cause, at_)) :
    (spillKey s t).1 = none ∧ cause = 7 ∨ (spillKey s t).1 ≠ none ∧ cause = 9 := by
  unfold Machine.refillBytes at h
  extract_lets hi at h
  split at h
  · cases h
  · split at h <;> rename_i e <;> rw [e]
    · exact .inl ⟨rfl, by injection h with h; exact (congrArg Prod.fst h).symm⟩
    · next key s1 =>
      refine .inr ⟨by simp, ?_⟩
      extract_lets part core at h
      refine foldl_keeps FailsCheck _ (fun x i hx => ?_) _ _ (fun c a e => by cases e) cause at_ h
      dsimp only
      split
      · split
        · split
          · exact fun c a e => by cases e
          · rintro c a ⟨⟩; rfl
        · rintro c a ⟨⟩; rfl
      · exact hx

theorem refillBytes_nothing {s : State} {t : Team} (o n : Nat) (h : t.spill = []) : refillBytes s t o n = (none, s) := by
  simp [Machine.refillBytes, h]

/-- The team when register r has come back, and the coldest have left in its place. -/
def Team.refilled (t : Team) (r : Nat) : Team :=
  (Team.evict { t with evicted := t.evicted.filter fun x => x != r } [r]).trimSpill

section
variable {t : Team} {r q : Nat}

theorem Team.not_mem_refilled : r ∉ (t.refilled r).evicted := by
  intro h
  obtain stays | ⟨-, spared⟩ := Team.mem_evict h
  · simp at stays
  · simp at spared

theorem Team.mem_refilled (h : q ∈ t.evicted) (hq : q ≠ r) : q ∈ (t.refilled r).evicted :=
  Team.evict_keeps (by simp [h, hq])

theorem Team.of_mem_refilled (h : q ∈ (t.refilled r).evicted) (hq : q ∉ t.evicted) :
    q < t.nregs ∧ ∀ p ∈ t.pend, p.reg ≠ q := by
  obtain stays | ⟨cold, -⟩ := Team.mem_evict h
  · exact absurd (List.mem_filter.1 stays).1 hq
  · obtain ⟨low, still, -⟩ := Team.mem_coldest.1 cold
    exact ⟨low, still⟩

theorem Team.refilled_eq (t : Team) (r : Nat) : t.refilled r =
    { t with evicted := (t.refilled r).evicted, spill := t.spill.take (t.refilled r).spill.length } := by
  have units : (t.refilled r).spill = t.spill.take (t.refilled r).spill.length := by
    simp [Team.refilled, Team.trimSpill, Team.evict]
  rw [← units]; rfl

end

section
variable {s : State} {t : Team} {u r : Nat} (ht : s.team u = some t)
include ht

theorem registerRefill_resident (hr : r ∉ t.evicted) : exec (.registerRefill u r) s = .next (settle s) := by
  simp only [exec_registerRefill, execRegisterRefill, refillRegister, ht]
  rw [if_neg (by simpa using hr)]

theorem refillRegister_evicted (hr : r ∈ t.evicted) : refillRegister s u r =
    match refillBytes s t (t.evictedAt (t.evicted.idxOf r)) (4 * t.lanes) with
    | (none, s1) => s1.putTeam u (t.refilled r)
    | (some (c, _), s1) => stopFor s1 u c := by
  simp only [refillRegister, refillWith, ht]
  rw [if_pos (by simpa using hr)]
  rfl

end

/-! ### A pause ends -/

theorem pauseExpiry_eq {s : State} {t : Team} {u : Nat} (ht : s.team u = some t) : exec (.pauseExpiry u) s =
    if teamResident s t ∧ t.pauseEnd ≤ clockTenths s (teamCore s t / 4) then .next (s.putTeam u { t with pauseEnd := 0 })
    else .next s := by
  simp only [exec_pauseExpiry, execPauseExpiry, ht]

/-- Settles O34: what lands, what is refilled and what is evicted in its place, and when a pause ends. -/
theorem resultsLand : Obligations.ResultsLand := by
  intro s t u ht
  refine ⟨fun k p v hp hv => ⟨t.land k, resultLanding_lands ht, ?_⟩, fun k h => ?_, fun r hr => registerRefill_resident ht hr,
    fun r hr => ?_, fun hs hp => ?_, fun h => ?_⟩
  · have eq := Team.land_eq hp hv
    refine ⟨?_, fun r l other => ?_, ?_, fun i => ?_, Team.land_evicted, fun r => Team.mem_land_evicted, ?_, ?_⟩
    · rw [eq]; exact fget_fset_same ..
    · rw [eq]; exact fget_fset_other _ _ _ other
    · rw [eq]; rfl
    · rw [eq]; exact flags_getLsbD ..
    · rw [eq]; exact mem_leaveLoads _ _
    · rw [eq]; rfl
  · rw [resultLanding_lands ht, Team.land_undelivered h]
  · dsimp only
    refine ⟨MemSide.refillBytes .., refillBytes_nothing _ _, fun passed => ⟨t.refilled r, ?_, Team.not_mem_refilled,
      fun q => Team.mem_refilled, fun q => Team.of_mem_refilled, Team.refilled_eq t r⟩, fun cause o failed => ?_⟩
    · simp only [exec_registerRefill, execRegisterRefill, refillRegister_evicted ht hr]
      rw [← Prod.mk.eta (p := refillBytes ..), passed]
    · obtain ⟨key, rfl⟩ | ⟨key, rfl⟩ := refillBytes_cause failed
      all_goals
        refine ⟨by simp, by simp [key], ?_⟩
        simp only [exec_registerRefill, execRegisterRefill, refillRegister_evicted ht hr]
        rw [← Prod.mk.eta (p := refillBytes ..), failed]
  · rw [pauseExpiry_eq ht, if_pos ⟨hs, hp⟩]
  · rw [pauseExpiry_eq ht, if_neg (by grind)]

end Sys2Proof.Machine
end

section
/-! PROOFS. The checks of an access, in their order: a page's rights, its type, its limits, the window and the check words; a
piece with its translation; and an access of several pieces and lanes (R131, R145, R149, R152, R153, R157, R176, R293). -/

namespace Sys2Proof.Machine

/-! ### The check words of a piece (R176) -/

theorem findFrom_none {p : Nat → Bool} {lo n : Nat} (h : ∀ g, lo ≤ g → g < lo + n → p g = false) : findFrom p lo n = none := by
  induction n generalizing lo with
  | zero => rfl
  | succ n ih =>
    rw [findFrom, if_neg (by simp [h lo (by omega) (by omega)])]
    exact ih fun g hl hh => h g (by omega) (by omega)

theorem findFrom_first {p : Nat → Bool} {lo n g : Nat} (hl : lo ≤ g) (hh : g < lo + n) (hg : p g = true)
    (first : ∀ j, lo ≤ j → j < g → p j = false) : findFrom p lo n = some g := by
  induction n generalizing lo with
  | zero => omega
  | succ n ih =>
    rw [findFrom]
    by_cases e : lo = g
    · rw [e, if_pos hg]
    · rw [if_neg (by simp [first lo (by omega) (by omega)])]
      exact ih (by omega) (by omega) fun j hj => first j (by omega)

/-- A granule that fails a piece: its check word fails, and it is read or is not written whole. -/
theorem badGranule_iff (s : State) (rd : Bool) (p : Place) (o n g : Nat) :
    (placeBad s p g && (rd || decide (g * 64 < o) || decide (o + n < g * 64 + 64))) = true ↔
      placeBad s p g = true ∧ (rd = true ∨ 64 * g < o ∨ o + n < 64 * g + 64) := by
  simp [Nat.mul_comm g 64, or_assoc]

theorem meetGranules_verified (s : State) (k : AccKind) (y : Seg) (hn : 0 < y.n) : Claims.Verified s k y (meetGranules s k y) := by
  have last : ∀ g, g < y.off / 64 + ((y.off + y.n - 1) / 64 + 1 - y.off / 64) ↔ g ≤ (y.off + y.n - 1) / 64 := by omega
  refine ⟨fun passes => ?_, fun g lo hi fails first => ?_⟩
  · rw [meetGranules, badGranule, findFrom_none fun g lo hi => ?_]
    · rfl
    · rw [Bool.eq_false_iff]
      exact fun h => passes g lo ((last g).1 hi) ((badGranule_iff ..).1 h)
  · rw [meetGranules, badGranule, findFrom_first lo ((last g).2 hi) ((badGranule_iff ..).2 fails) fun j hj hg => ?_]
    · rfl
    · rw [Bool.eq_false_iff]
      exact fun h => first j hj hg ((badGranule_iff ..).1 h)

/-! ### The rights of a page, and the core that it names (R157, R293) -/

/-- The page has the rights that an access asks for. -/
def HasRights (k : AccKind) (p : Pte) : Prop := (k.rd = true → p.rd = true) ∧ (k.wr = true → p.wr = true)

theorem rightsFail_cases (s : State) (part : Option Nat) (p : Pte) (wr : Bool) :
    rightsFail s part p wr = none ∨ rightsFail s part p wr = some 7 := by
  unfold rightsFail
  split
  · exact .inr rfl
  · split
    · exact .inr rfl
    · exact .inl rfl

/-- Where a page is no HBM page, its key and its place do not count. -/
theorem rightsFail_chip (s : State) (part : Option Nat) {p : Pte} (wr : Bool) (h : p.typ ≠ 0) :
    rightsFail s part p wr = if wr = true ∧ p.wr = false ∨ wr = false ∧ p.rd = false then some 7 else none := by
  unfold rightsFail
  rw [if_neg (c := p.typ = 0 ∧ _) fun z => h z.1]
  simp

theorem pieceRights_cases (s : State) (part : Option Nat) (k : AccKind) (p : Pte) :
    pieceRights s part k p = none ∨ pieceRights s part k p = some 7 := by
  unfold pieceRights
  obtain hr | hr := rightsFail_cases s part p false <;> obtain hw | hw := rightsFail_cases s part p true <;>
    cases k.rd <;> cases k.wr <;> simp [hr, hw]

theorem pieceRights_none {s : State} {part : Option Nat} {k : AccKind} {p : Pte} (h : HasRights k p) (ht : p.typ ≠ 0) :
    pieceRights s part k p = none := by
  obtain ⟨hr, hw⟩ := h
  unfold pieceRights
  rw [rightsFail_chip s part false ht, rightsFail_chip s part true ht]
  cases hrd : k.rd <;> cases hwr : k.wr <;> simp_all

theorem rightsFail_lacks {s : State} {part : Option Nat} {p : Pte} {wr : Bool}
    (h : wr = true ∧ p.wr = false ∨ wr = false ∧ p.rd = false) : rightsFail s part p wr = some 7 := by
  unfold rightsFail
  rw [if_pos (by simpa using h)]

theorem pieceRights_lacks {s : State} {part : Option Nat} {k : AccKind} {p : Pte} (h : ¬ HasRights k p) :
    pieceRights s part k p = some 7 := by
  refine (pieceRights_cases s part k p).resolve_left fun none => h ⟨fun rd => ?_, fun wr => ?_⟩
  · by_contra hp
    simp [pieceRights, rd, rightsFail_lacks (.inr ⟨rfl, by simpa using hp⟩)] at none
  · by_contra hp
    simp [pieceRights, wr, rightsFail_lacks (.inl ⟨rfl, by simpa using hp⟩)] at none

theorem coreReachable_iff (s : State) (part : Option Nat) (core : Nat) :
    coreReachable s part core = true ↔ ∀ m, part = some m → ownsCluster s m (core / 4) = true := by
  cases part <;> simp [coreReachable]

theorem not_coreReachable {s : State} {part : Option Nat} {core : Nat}
    (h : ¬ ∀ m, part = some m → ownsCluster s m (core / 4) = true) : (!coreReachable s part core) = true := by
  simpa using mt (coreReachable_iff s part core).1 h

theorem firstBeyond_some {va off n limit : Nat} (h : limit < off + n) :
    firstBeyond va off n limit = some (va + (limit - off)) := if_pos h

theorem firstBeyond_none {va off n limit : Nat} (h : off + n ≤ limit) : firstBeyond va off n limit = none :=
  if_neg (Nat.not_lt.2 h)

/-! ### A piece in a page of each type (R149, R152, R157) -/

section
variable {s : State} {u : Nat} {t : Team} {k : AccKind} {x : Tlb} {va n lo len : Nat}

theorem meetPage_lacks (h : ¬ HasRights k x.pte) : meetPage s u t k x va n lo len = .fail 3 7 va := by
  simp only [meetPage, pieceRights_lacks h]

theorem meetPage_hbm (ht : x.pte.typ = 0) :
    meetPage s u t k x va n lo len = .fail 3 7 va ∨ meetPage s u t k x va n lo len = .fail 4 8 va := by
  obtain h | h := pieceRights_cases s (teamPart s t) k x.pte
  · right; simp only [meetPage, h, ht]
  · left; simp only [meetPage, h]

theorem meetPage_other (h : HasRights k x.pte) (ht : x.pte.typ = 1 ∨ 7 ≤ x.pte.typ) :
    meetPage s u t k x va n lo len = .fail 4 8 va := by
  simp only [meetPage, pieceRights_none h (by omega)]
  split
  case h_6 => rfl
  all_goals omega

section
variable (right : HasRights k x.pte)
include right

theorem meetPage_scratch (ht : x.pte.typ = 2) :
    meetPage s u t k x va n lo len = meetScratch s t k x.pte va (x.pte.addr + (va - x.base)) n := by
  simp only [meetPage, pieceRights_none right (by omega), ht]

theorem meetPage_shared (ht : x.pte.typ = 3) :
    meetPage s u t k x va n lo len = meetShared s t k x.pte va (x.pte.addr + (va - x.base)) n := by
  simp only [meetPage, pieceRights_none right (by omega), ht]

theorem meetPage_frame (ht : x.pte.typ = 4) : meetPage s u t k x va n lo len = meetFrame s u t k x.pte va n lo len := by
  simp only [meetPage, pieceRights_none right (by omega), ht]

theorem meetPage_mmio (ht : x.pte.typ = 5) :
    meetPage s u t k x va n lo len = meetMmio s u t k va (x.pte.addr + (va - x.base)) n lo := by
  simp only [meetPage, pieceRights_none right (by omega), ht]

theorem meetPage_queue (ht : x.pte.typ = 6) : meetPage s u t k x va n lo len = meetQueue u k x.base va n lo := by
  simp only [meetPage, pieceRights_none right (by omega), ht]

end

theorem meetScratch_checks (s : State) (t : Team) (k : AccKind) (p : Pte) (va off n : Nat) (hn : 0 < n) :
    let mine := ∀ m, teamPart s t = some m → ownsCluster s m (p.core / 4) = true
    let r := meetScratch s t k p va off n
    (¬ mine → r = .fail 5 7 va) ∧
    (mine → 262144 < off + n → r = .fail 5 7 (va + (262144 - off))) ∧
    (mine → off + n ≤ 262144 → p.core = 0 → off < 65536 → t.priv ≠ 2 → r = .fail 5 7 va) ∧
    (mine → off + n ≤ 262144 → p.core ≠ 0 ∨ 65536 ≤ off ∨ t.priv = 2 →
      Claims.Verified s k { va := va, n := n, typ := 2, order := p.order, place := .scratch p.core, off := off } r) := by
  dsimp only
  refine ⟨fun other => ?_, fun mine far => ?_, fun mine near core low user => ?_, fun mine near open_ => ?_⟩
  · rw [meetScratch, if_pos (not_coreReachable other)]
  all_goals rw [meetScratch, if_neg (by simp [(coreReachable_iff ..).2 mine])]
  · rw [firstBeyond_some far]
  · rw [firstBeyond_none near]
    exact if_pos ⟨core, low, user⟩
  · rw [firstBeyond_none near]
    dsimp only
    rw [if_neg (by omega)]
    exact meetGranules_verified s k _ hn

theorem meetShared_checks (s : State) (t : Team) (k : AccKind) (p : Pte) (va off n : Nat) (hn : 0 < n) :
    let mine := ∀ m, teamPart s t = some m → ownsCluster s m (p.core / 4) = true
    let room := ((s.wg t.wg).map fun w => w.sharedSz).getD 0
    let r := meetShared s t k p va off n
    (¬ mine → r = .fail 5 7 va) ∧ (mine → p.core ≠ teamCore s t → r = .fail 4 8 va) ∧
    (mine → p.core = teamCore s t → room < off + n → r = .fail 5 7 (va + (room - off))) ∧
    (mine → p.core = teamCore s t → off + n ≤ room →
      Claims.Verified s k { va := va, n := n, typ := 3, order := p.order, place := .shared t.wg, off := off } r) := by
  dsimp only
  refine ⟨fun other => ?_, fun mine far => ?_, fun mine here far => ?_, fun mine here near => ?_⟩
  · rw [meetShared, if_pos (not_coreReachable other)]
  all_goals rw [meetShared, if_neg (by simp [(coreReachable_iff ..).2 mine])]
  · rw [if_pos far]
  · rw [if_neg (by simpa using here), firstBeyond_some far]
  · rw [if_neg (by simpa using here), firstBeyond_none near]
    exact meetGranules_verified s k _ hn

theorem outsideFrame_below {t : Team} {va n : Nat} (h : va < t.base) : t.outsideFrame va n = some va := if_pos h

theorem outsideFrame_above {t : Team} {va n : Nat} (hb : t.base ≤ va) (h : t.fsp.toNat < va + n) :
    t.outsideFrame va n = some (max va t.fsp.toNat) := by
  rw [Team.outsideFrame, if_neg (Nat.not_lt.2 hb), firstBeyond_some h, Option.map_some]
  congr 1
  omega

theorem outsideFrame_inside {t : Team} {va n : Nat} (hb : t.base ≤ va) (h : va + n ≤ t.fsp.toNat) :
    t.outsideFrame va n = none := by
  rw [Team.outsideFrame, if_neg (Nat.not_lt.2 hb), firstBeyond_none h, Option.map_none]

theorem meetFrame_checks (s : State) (u : Nat) (t : Team) (k : AccKind) (p : Pte) (va n lo len : Nat) (hn : 0 < n) :
    let r := meetFrame s u t k p va n lo len
    (lo < t.base → r = .fail 6 0x0A lo) ∧
    (t.base ≤ lo → t.fsp.toNat < lo + len → r = .fail 6 0x0A (max lo t.fsp.toNat)) ∧
    (t.base ≤ lo → lo + len ≤ t.fsp.toNat →
      Claims.Verified s k { va := va, n := n, typ := 4, order := p.order, place := .frame u, off := va - t.base } r) := by
  dsimp only
  refine ⟨fun below => ?_, fun base above => ?_, fun base live => ?_⟩
  · rw [meetFrame, outsideFrame_below below]
  · rw [meetFrame, outsideFrame_above base above]
  · rw [meetFrame, outsideFrame_inside base live]
    exact meetGranules_verified s k _ hn

theorem meetMmio_checks (s : State) (u : Nat) (t : Team) (k : AccKind) (va off n lo : Nat) :
    let fits := k.device = true ∧ (k.n = 4 ∨ k.n = 8) ∧ (k.wr = true → writeWidthOk off k.n = true)
    let reached := regReached s t.priv ((s.wg t.wg).map fun w => w.part) off
    let r := meetMmio s u t k va off n lo
    (¬ fits → r = .fail 4 8 va) ∧ (fits → lo % k.n ≠ 0 → r = .fail 4 5 va) ∧
    (fits → lo % k.n = 0 → reached = false → r = .fail 4 0x13 va) ∧
    (fits → lo % k.n = 0 → reached = true →
      r = .seg { va := va, n := n, typ := 5, order := 0, place := .frame u, off := off }) := by
  dsimp only
  have fits : (!k.device || (k.n != 4 && k.n != 8) || (k.wr && !writeWidthOk off k.n)) = true ↔
      ¬ (k.device = true ∧ (k.n = 4 ∨ k.n = 8) ∧ (k.wr = true → writeWidthOk off k.n = true)) := by
    simp only [Bool.or_eq_true, Bool.and_eq_true, Bool.not_eq_true', bne_iff_ne]
    cases k.device <;> cases k.wr <;> cases writeWidthOk off k.n <;> simp
  refine ⟨fun no => ?_, fun yes odd => ?_, fun yes even low => ?_, fun yes even high => ?_⟩
  · rw [meetMmio, if_pos (fits.2 no)]
  all_goals rw [meetMmio, if_neg (mt fits.1 (not_not.2 yes))]
  · rw [if_pos odd]
  all_goals rw [if_neg (not_not.2 even)]
  · rw [if_pos (by simp [low])]
  · rw [if_neg (by simp [high])]

theorem meetQueue_checks (u : Nat) (k : AccKind) (base va n lo : Nat) :
    let fits := k.device = true ∧ k.n = 8
    let r := meetQueue u k base va n lo
    (¬ fits → r = .fail 4 8 va) ∧ (fits → lo % 8 ≠ 0 → r = .fail 4 5 va) ∧
    (fits → lo % 8 = 0 → r = .seg { va := va, n := n, typ := 6, order := 0, place := .frame u, off := va - base }) := by
  dsimp only
  have fits : (!k.device || k.n != 8) = true ↔ ¬ (k.device = true ∧ k.n = 8) := by
    cases k.device <;> simp
  refine ⟨fun no => ?_, fun yes odd => ?_, fun yes even => ?_⟩
  · rw [meetQueue, if_pos (fits.2 no)]
  all_goals rw [meetQueue, if_neg (mt fits.1 (not_not.2 yes))]
  · rw [if_pos odd]
  · rw [if_neg (not_not.2 even)]

end

theorem pageChecks : Claims.PageChecks := by
  intro s u t k x va n lo len hn _
  refine ⟨meetPage_lacks, fun _ => meetPage_hbm, meetPage_other, fun right ht => ?_, fun right ht => ?_, fun right ht => ?_,
    fun right ht => ?_, fun right ht => ?_⟩
  · rw [meetPage_scratch right ht]; exact meetScratch_checks s t k x.pte va _ n hn
  · rw [meetPage_shared right ht]; exact meetShared_checks s t k x.pte va _ n hn
  · rw [meetPage_frame right ht]; exact meetFrame_checks s u t k x.pte va n lo len hn
  · rw [meetPage_mmio right ht]; exact meetMmio_checks s u t k va _ n lo
  · rw [meetPage_queue right ht]; exact meetQueue_checks u k x.base va n lo

/-! ### A piece and its translation (R145, R157, R293) -/

section
variable {s s1 : State} {u : Nat} {t : Team} {k : AccKind} {x : Tlb} {va n lo len : Nat}

theorem xlate_above (s : State) (part core : Option Nat) (wr : Bool) (h : 2 ^ 57 ≤ va) :
    xlate s part core va wr = (.error 6, s) := by
  rw [xlate, xlateBy, if_pos h]

theorem meetPiece_untranslated {c : Nat} (e : xlate s (teamPart s t) (some (teamCore s t)) va k.wr = (.error c, s1)) :
    meetPiece s u t k va n lo len = (.fail (if c = 7 then 3 else 2) (if c = 10 then 9 else c) va, s1) := by
  simp only [meetPiece, e]

/-- What the crossbar's count is after a piece that a page refused: one more where a step 5 comes of a core that the requester
does not hold (R293). -/
theorem meetPiece_fails {st c a : Nat} (e : xlate s (teamPart s t) (some (teamCore s t)) va k.wr = (.ok x, s1))
    (m : meetPage s1 u t k x va n lo len = .fail st c a) : meetPiece s u t k va n lo len = (.fail st c a,
      match teamPart s1 t with
      | some p => if st = 5 ∧ (x.pte.typ = 2 ∨ x.pte.typ = 3) ∧ ownsCluster s1 p (x.pte.core / 4) = false then addDeny s1 p else s1
      | none => s1) := by
  simp only [meetPiece, e, m]
  by_cases h5 : st = 5
  · subst h5
    cases hp : teamPart s1 t <;> simp [coreReachable]
  · split
    · rename_i eq _; exact absurd (Met.fail.inj eq).1 h5
    · rename_i eq; cases eq
    · cases teamPart s1 t <;> simp [h5]

theorem meetPiece_passes {y : Seg} (e : xlate s (teamPart s t) (some (teamCore s t)) va k.wr = (.ok x, s1))
    (m : meetPage s1 u t k x va n lo len = .seg y) :
    meetPiece s u t k va n lo len = if y.typ = 4 then meetRefill s1 t y else (.seg y, s1) := by
  simp only [meetPiece, e, m]

theorem meetRefill_whole (s : State) (y : Seg) (h : t.spill = []) : meetRefill s t y = (.seg y, s) := by
  simp [meetRefill, refillFrame, h]

/-- A refill that fails has its failing byte at the piece or beyond; a key that is not VALID comes with the key range. -/
theorem meetRefill_cases (s : State) (t : Team) (y : Seg) : (meetRefill s t y).1 = .seg y ∨
    ∃ c a, y.va ≤ a ∧ ((c = 7 ∧ (meetRefill s t y).1 = .fail 3 c a) ∨ (c ≠ 7 ∧ (meetRefill s t y).1 = .fail 7 c a)) := by
  unfold meetRefill
  split
  · next c o _ _ =>
    refine .inr ⟨c, max y.va (t.base + o), le_max_left .., ?_⟩
    by_cases h : c = 7 <;> simp [h]
  · exact .inl rfl

end

theorem pieceChecks : Claims.PieceChecks := by
  intro s u t k va n lo len
  dsimp only
  rcases e : xlate s (teamPart s t) (some (teamCore s t)) va k.wr with ⟨tr, s1⟩
  refine ⟨fun above => ?_, ?_, fun c => ?_, fun c => ?_, fun x ok => ?_⟩
  · rw [meetPiece_untranslated (xlate_above _ _ _ _ above)]; rfl
  · rintro rfl
    rw [meetPiece_untranslated e]; rfl
  · rintro rfl (rfl | rfl) <;> rw [meetPiece_untranslated e] <;> rfl
  · rintro rfl h7 h9 h10
    rw [meetPiece_untranslated e, if_neg h7, if_neg h10]
  · obtain rfl : tr = .ok x := ok
    refine ⟨fun st c a m => ?_, fun y m still => ?_, fun y m frame => ?_⟩
    · rw [meetPiece_fails e m, m]
      exact ⟨rfl, rfl⟩
    · rw [meetPiece_passes e m]
      split
      · next frame => exact meetRefill_whole s1 y (still.resolve_left (not_not.2 frame))
      · rfl
    · rw [meetPiece_passes e m, if_pos frame]
      exact ⟨MemSide.meetRefill s1 t y, meetRefill_cases s1 t y⟩

/-! ### The whole of an access (R153, R157) -/

theorem Met.before_segs (x : Seg) (xs : List Seg) : (Met.seg x).before (.segs xs) = .segs (x :: xs) := rfl

/-- The failure of a first piece stands, unless a later piece fails at a lower step. -/
theorem Met.before_first {st c a : Nat} {ms : MetAll} (h : ∀ st' c' a', ms = .fail st' c' a' → st ≤ st') :
    (Met.fail st c a).before ms = .fail st c a := by
  cases ms with
  | segs xs => rfl
  | fail st' c' a' => exact if_neg (Nat.not_lt.2 (h st' c' a' rfl))

theorem Met.before_later {m : Met} {st c a : Nat} (h : (∃ x, m = .seg x) ∨ ∃ st' c' a', m = .fail st' c' a' ∧ st < st') :
    m.before (.fail st c a) = .fail st c a := by
  obtain ⟨x, rfl⟩ | ⟨st', c', a', rfl, lower⟩ := h
  · rfl
  · exact if_pos lower

theorem meetPieces_cons (u : Nat) (t : Team) (k : AccKind) (lo len : Nat) (s : State) (va n : Nat) (rest : List (Nat × Nat)) :
    meetPieces u t k lo len s ((va, n) :: rest) =
      ((meetPiece s u t k va n lo len).1.before (meetPieces u t k lo len (meetPiece s u t k va n lo len).2 rest).1,
        (meetPieces u t k lo len (meetPiece s u t k va n lo len).2 rest).2) := rfl

theorem meetAll_snd (s : State) (u : Nat) (t : Team) (k : AccKind) (lo len : Nat) (ps : List (Nat × Nat)) :
    (meetAll s u t k lo len ps).2 = (meetPieces u t k lo len s ps).2 := by
  unfold meetAll
  split <;> rename_i e <;> rw [e]

theorem meetAll_segs {s : State} {u : Nat} {t : Team} {k : AccKind} {lo len : Nat} {ps : List (Nat × Nat)} {xs : List Seg}
    (h : (meetPieces u t k lo len s ps).1 = .segs xs) : (meetAll s u t k lo len ps).1 = .ok xs := by
  unfold meetAll
  split <;> rename_i e <;> rw [e] at h <;> cases h
  rfl

theorem meetAll_fail {s : State} {u : Nat} {t : Team} {k : AccKind} {lo len : Nat} {ps : List (Nat × Nat)} {st c b : Nat}
    (h : (meetPieces u t k lo len s ps).1 = .fail st c b) : (meetAll s u t k lo len ps).1 = .error (c, b) := by
  unfold meetAll
  split <;> rename_i e <;> rw [e] at h <;> cases h
  rfl

/-- The lanes before a lane pass: its own access is judged next, and its failure is the word's. -/
theorem lanesAccess_error {u : Nat} {t : Team} {k : AccKind} {s s1 : State} {pre : List (Nat × DWord)}
    {xs : List (Nat × List Seg)} (h : lanesAccess u t k s pre = (.ok xs, s1)) {l : Nat} {va : DWord} {e : Nat × Nat}
    (post : List (Nat × DWord)) (fails : (laneAccess s1 u t k va).1 = .error e) :
    lanesAccess u t k s (pre ++ (l, va) :: post) = (.error e, (laneAccess s1 u t k va).2) := by
  induction pre generalizing s xs with
  | nil =>
    cases h
    rw [List.nil_append, lanesAccess, ← Prod.mk.eta (p := laneAccess s1 u t k va), fails]
  | cons p pre ih =>
    obtain ⟨l0, va0⟩ := p
    rw [lanesAccess] at h
    rw [List.cons_append, lanesAccess]
    split at h
    · cases h
    · split at h
      · next rest => cases h; simp only [ih rest]
      · cases h

theorem lanesAccess_append {u : Nat} {t : Team} {k : AccKind} {s s1 : State} {pre : List (Nat × DWord)}
    {xs : List (Nat × List Seg)} (h : lanesAccess u t k s pre = (.ok xs, s1)) {l : Nat} {va : DWord} {ys : List Seg}
    (passes : (laneAccess s1 u t k va).1 = .ok ys) :
    lanesAccess u t k s (pre ++ [(l, va)]) = (.ok (xs ++ [(l, ys)]), (laneAccess s1 u t k va).2) := by
  induction pre generalizing s xs with
  | nil =>
    cases h
    rw [List.nil_append, lanesAccess, ← Prod.mk.eta (p := laneAccess s1 u t k va), passes]
    rfl
  | cons p pre ih =>
    obtain ⟨l0, va0⟩ := p
    rw [lanesAccess] at h
    rw [List.cons_append, lanesAccess]
    split at h
    · cases h
    · split at h
      · next rest => cases h; simp only [ih rest]; rfl
      · cases h

/-- The fuel that pieces of n bytes from va need: one for the first page, and one for each 64 KiB beyond it. -/
theorem pagePieces_sum {fuel va n : Nat} (h : n ≤ 65536 * fuel + (65536 - va % 65536)) :
    ((pagePieces (fuel + 1) va n).map Prod.snd).sum = n := by
  induction fuel generalizing va n with
  | zero =>
    unfold pagePieces
    split
    · simp_all
    · simp [pagePieces]; omega
  | succ fuel ih =>
    unfold pagePieces
    split
    · simp_all
    · rw [List.map_cons, List.sum_cons]
      by_cases first : n ≤ 65536 - va % 65536
      · rw [Nat.min_eq_left first, Nat.sub_self, pagePieces, if_pos rfl]; rfl
      · rw [Nat.min_eq_right (by omega), ih (by omega)]
        omega

/-- The pieces lie one after the other, each of some bytes of one 64 KiB page. -/
theorem pagePieces_get {fuel va n i : Nat} {p : Nat × Nat} (h : (pagePieces fuel va n)[i]? = some p) :
    p.1 = va + (((pagePieces fuel va n).take i).map Prod.snd).sum ∧ 0 < p.2 ∧ p.1 % 65536 + p.2 ≤ 65536 := by
  induction fuel generalizing va n i with
  | zero => cases h
  | succ fuel ih =>
    unfold pagePieces at h ⊢
    split at h
    · cases h
    · rw [if_neg ‹_›]
      cases i with
      | zero =>
        cases h
        refine ⟨rfl, ?_, ?_⟩ <;> dsimp only <;> omega
      | succ i =>
        obtain ⟨at_, some_, page⟩ := ih h
        refine ⟨?_, some_, page⟩
        rw [at_, List.take_succ_cons, List.map_cons, List.sum_cons, Nat.add_assoc]

theorem wholeAccesses : Claims.WholeAccesses := by
  refine ⟨fun u t k lo len s => ⟨rfl, fun va n rest => ⟨rfl, fun x xs m ms => ?_, fun st c a m ms => ?_, fun st c a ms m => ?_⟩⟩,
    fun s u t k va _ => ⟨fun al odd => ?_, fun even => ?_⟩, fun u t k s => ⟨rfl, fun pre post l va xs s1 h =>
      ⟨fun e => lanesAccess_error h post, fun ys => lanesAccess_append h⟩⟩, fun s u t wr va n =>
      ⟨pagePieces_sum ?_, fun i p => pagePieces_get, meetAll_snd .., fun xs => meetAll_segs, fun st c b => meetAll_fail⟩⟩
  · rw [meetPieces_cons, m, ms, Met.before_segs]
  · rw [meetPieces_cons, m]; exact Met.before_first ms
  · rw [meetPieces_cons, ms]; exact Met.before_later m
  · rw [laneAccess, if_pos ⟨al, odd⟩]
  · rw [laneAccess, if_neg (by rintro ⟨al, odd⟩; simp [al, odd] at even)]
    exact ⟨meetAll_snd .., fun xs => meetAll_segs, fun st c b => meetAll_fail⟩
  · have := Nat.lt_div_mul_add (a := n) (b := 65536) (by decide)
    omega

theorem accessChecks : Claims.AccessChecks := ⟨pageChecks, pieceChecks, wholeAccesses⟩

/-! ### What a load follows, and what it delivers (R60, R63, R182, R185 to R187) -/

/-- The stores that raising to memory leaves, of those that it was asked for: none. -/
theorem raiseStores_leaves {s : State} {u : Nat} {p : PendStore → Bool} {t t1 : Team} (ht : s.team u = some t)
    (h1 : (raiseStores s u fun x => if p x then 6 else 0).team u = some t1) {y : PendStore} (hy : y ∈ t1.stores) :
    ∃ x ∈ t.stores, y = { x with level := y.level, stamp := y.stamp } ∧ p x = false := by
  obtain ⟨x, hx, same, -, asked⟩ := raiseStores_level (fun x => by split <;> decide) ht h1 y hy
  refine ⟨x, hx, same, ?_⟩
  by_contra hp
  rw [if_pos (by simpa using hp)] at asked
  exact absurd y.level.isLt (by omega)

theorem atomsFirst_none {s : State} {u : Nat} {t : Team} (p : PendStore → Bool) (ht : s.team u = some t)
    (h : ∀ y ∈ t.stores, y.rmw = none) : atomsFirst s u p = s := by
  simp only [atomsFirst, ht]
  rw [if_neg]
  simpa using h

/-- The ATOMs that are still on their way were not to be performed first: they are no acquires, and p does not name them. -/
theorem atomsFirst_leaves {s : State} {u : Nat} {t t1 : Team} {p : PendStore → Bool} (ht : s.team u = some t)
    (h1 : (atomsFirst s u p).team u = some t1) {y : PendStore} (hy : y ∈ t1.stores) {r : Rmw} (hr : y.rmw = some r) :
    ∃ x ∈ t.stores, y = { x with level := y.level, stamp := y.stamp } ∧ r.acq = false ∧ p x = false := by
  simp only [atomsFirst, ht] at h1
  split at h1
  · obtain ⟨x, hx, same, left⟩ := raiseStores_leaves ht h1 hy
    have hrx : x.rmw = some r := by rw [same] at hr; exact hr
    simp only [PendStore.acquires, hrx, Option.isSome_some, Option.any_some, Bool.true_and, Bool.or_eq_false_iff] at left
    exact ⟨x, hx, same, left⟩
  · next none =>
    obtain rfl : t = t1 := Option.some.inj (ht.symm.trans h1)
    simp only [List.any_eq_true, not_exists, not_and] at none
    exact absurd (by simp [hr]) (none y hy)

theorem ownMeets_moved (xs : List (Nat × List Seg)) {x y : PendStore} (h : y = { x with level := y.level, stamp := y.stamp }) :
    ownMeets xs y = ownMeets xs x := by rw [h]; rfl

theorem atomsFirst_followed (s : State) (u : Nat) (xs : List (Nat × List Seg)) :
    Claims.Followed s u xs (atomsFirst s u (ownMeets xs)) := by
  refine ⟨StoreSide.atomsFirst s u _, fun t ht => ⟨atomsFirst_none _ ht, fun t1 h1 y hy r hr => ?_⟩⟩
  obtain ⟨x, -, same, acq, own⟩ := atomsFirst_leaves ht h1 hy hr
  exact ⟨acq, (ownMeets_moved xs same).trans own⟩

section
variable (t : Team) (d : Nat) (form : LoadForm) (acq : Bool) (xs : List (Nat × List Seg)) (rs : List (Nat × List Byte))

theorem Team.addLoads_eq : t.addLoads d form acq xs rs = { t with loads := (t.addLoads d form acq xs rs).loads } := by
  unfold Team.addLoads
  split <;> rfl

theorem floatLoads_strict (word : Nat) (h : ∀ x ∈ xs, ∀ y ∈ x.2, y.order = 0) : floatLoads word d form acq xs rs = [] := by
  rw [floatLoads, List.flatMap_eq_nil_iff]
  intro x hx
  rw [if_pos (by simpa using h x hx)]

/-- The team with the loads of its word floats as R185 to R187 say. -/
theorem Team.addLoads_float {t' : Team} (h : t'.loads = (t.addLoads d form acq xs rs).loads) :
    Claims.LoadsFloat t t' d form acq xs rs := by
  refine ⟨fun loose => ?_, fun strict y hy => ?_⟩
  · rw [h, Team.addLoads, if_neg]
    simpa using loose
  · rw [h, Team.addLoads, floatLoads_strict _ _ _ _ _ _ strict, List.append_nil] at hy
    split at hy
    · exact mem_leaveLoads _ _ y hy
    · exact hy

end

/-- The results that a word adds to those outstanding, lane by lane. -/
theorem Team.addPend_laneWords (t : Team) (slot : Option Nat) (acc : Bool) (d : Nat) (ws : List (Nat × List Word)) :
    (t.addPend slot acc (laneWords d ws)).pend = t.pend ++ Claims.results t slot acc d ws := by
  simp only [Team.addPend, laneWords, Claims.results, List.map_flatMap, List.mapIdx_eq_zipIdx_map, List.map_map]
  rfl

theorem delivers_addPend (t : Team) (c : Clause) (len : Nat) (slot : Option Nat) (acc : Bool) (d : Nat)
    (ws : List (Nat × List Word)) : Claims.Delivers t ((t.addPend slot acc (laneWords d ws)).advance c len) c len slot acc d ws := by
  refine ⟨Past.of_advance (t.addPend slot acc (laneWords d ws)) c len, ?_, ?_⟩
  · rw [Team.advance_pend, Team.addPend_laneWords]
  · have apart := SamePlaceApart.of_advance (t.addPend slot acc (laneWords d ws)) c len
    rw [Team.advance_pend]
    exact apart

/-- A load whose checks have passed: the ATOMs first, then its bytes, and its results outstanding. -/
theorem deliverLoads_delivers {s : State} {t : Team} (ht : s.team s.cur = some t) (c : Clause) (len : Nat) (d : Code)
    (slot : BitVec 3) (form : LoadForm) (acq : Bool) (xs : List (Nat × List Seg))
    (words : List (Nat × List Byte) → Nat × List Byte → List Word) :
    ∃ t1, (atomsFirst s s.cur (ownMeets xs)).team s.cur = some t1 ∧ SameButWindow t t1 ∧
      let got := loadLanes t1 (atomsFirst s s.cur (ownMeets xs)) xs
      ∃ t', deliverLoads s c len d slot form acq xs words = .next (got.2.putTeam s.cur t') ∧
        Claims.LoadsFloat t1 t' d.toNat form acq xs got.1 ∧
        Claims.Delivers { t1 with loads := t'.loads } t' c len (slotOf slot) false d.toNat
          (got.1.map fun x => (x.1, words got.1 x)) := by
  have side := StoreSide.atomsFirst s s.cur (ownMeets xs)
  obtain ⟨t1, h1, same⟩ := side.team ht
  refine ⟨t1, h1, same, ?_⟩
  extract_lets got
  refine ⟨((t1.addLoads d.toNat form acq xs got.1).addPend (slotOf slot) false
    (laneWords d.toNat (got.1.map fun x => (x.1, words got.1 x)))).advance c len, ?_, ?_, ?_⟩
  · simp only [deliverLoads, side.cur, h1, loadLanes_cur]
    rfl
  · exact Team.addLoads_float _ _ _ _ _ _ (Team.advance_loads _ _ _)
  · rw [Team.advance_loads, Team.addPend_loads, ← Team.addLoads_eq]
    exact delivers_addPend _ c len _ _ _ _

/-! ### The bytes of a load (R181, R182, R251, R274, R398) -/

theorem toBytes_mod (n v : Nat) : toBytes n (v % 2 ^ (8 * n)) = toBytes n v := by
  induction n generalizing v with
  | zero => rfl
  | succ n ih =>
    have split : 2 ^ (8 * (n + 1)) = 256 * 2 ^ (8 * n) := by rw [Nat.mul_succ, Nat.pow_add, Nat.mul_comm]
    rw [toBytes, toBytes, split, Nat.mod_mul_right_div_self, ih]
    congr 1
    refine BitVec.eq_of_toNat_eq ?_
    simp

theorem loadLanes_one (t : Team) (s : State) (l : Nat) (y : Seg) :
    loadLanes t s [(l, [y])] = ([(l, (loadSeg s t l y).1)], (loadSeg s t l y).2) := by
  simp [loadLanes, loadSegs]

theorem loadSeg_register {t : Team} {s : State} {l : Nat} {y : Seg} (h : y.typ = 5) :
    loadSeg s t l y = (toBytes y.n (devRead s y.off y.n), s) := by
  rw [loadSeg, if_pos h]

theorem loadSeg_notify {t : Team} {s : State} {l : Nat} {y : Seg} (h : y.typ = 6) : loadSeg s t l y =
    (toBytes 8 (notifyLoad s (ownPart s t) y.off).1.toNat, (notifyLoad s (ownPart s t) y.off).2) := by
  rw [loadSeg, if_neg (by omega), if_pos h]

theorem notifyLoad_queue {s : State} {n o q : Nat} (h : notifyQueue s n o = some q) :
    notifyLoad s n o = (BitVec.ofNat 64 ((s.queue q).tail + queueHead s q * 2 ^ 32), s) := by
  simp only [notifyLoad, h]

theorem notifyLoad_none {s : State} {n o : Nat} (h : notifyQueue s n o = none) : notifyLoad s n o = (0, notifyFail s n) := by
  simp only [notifyLoad, h]

theorem MemSide.notifyFail (s : State) (n : Nat) : MemSide s (notifyFail s n) := MemSide.addDfield s _ _ _ _

theorem loadedWords_eq (sg : Bool) {n : Nat} (hn : n ∈ [1, 2, 4, 8, 16]) {l : List Byte} (hl : l.length = n) :
    loadedWords sg l = Claims.loaded n sg l := by
  simp only [List.mem_cons, List.not_mem_nil, or_false] at hn
  obtain rfl | rfl | wide := hn
  · simp [loadedWords, Claims.loaded, hl]
  · simp [loadedWords, Claims.loaded, hl]
  · rw [loadedWords, Claims.loaded, if_neg (by omega), if_neg (by omega), if_neg (by omega), hl]
    rfl

section
variable {s s0 : State} {t : Team} {c : Clause} (h : Issues s t c) (len : Nat) {n : Nat} (d : Code) {b : Code} (slot : BitVec 3)
  {off : BitVec 5} (sg acq : Bool)
include h

theorem loadWord_fails {cause va : Nat} (met : lanesAccess s.cur t (loadKind n) s.bump
      (t.activeLanes.map fun l => (l, effective s.fresh t b off n l)) = (.error (cause, va), s0)) :
    loadWord s len n d b slot off sg acq = accessTrap s0 t c cause va := by
  simp only [loadWord, withTeam_eq h, met]

theorem loadWord_passes {xs : List (Nat × List Seg)} (met : lanesAccess s.cur t (loadKind n) s.bump
      (t.activeLanes.map fun l => (l, effective s.fresh t b off n l)) = (.ok xs, s0)) :
    loadWord s len n d b slot off sg acq = deliverLoads s0 c len d slot (.plain sg) acq xs fun _ x => loadedWords sg x.2 := by
  simp only [loadWord, withTeam_eq h, met]

end

/-- What a load whose checks have passed leaves: its results outstanding, and the bytes that its lanes see. -/
theorem deliverLoads_loads {s : State} {u : Nat} (hu : s.cur = u) {t : Team} (ht : s.team u = some t) (c : Clause) (len : Nat)
    (d : Code) (slot : BitVec 3) (sg acq : Bool) (xs : List (Nat × List Seg)) :
    ∃ s1 t1, Claims.Followed s u xs s1 ∧ s1.team u = some t1 ∧ SameButWindow t t1 ∧
      let got := loadLanes t1 s1 xs
      (∃ t', deliverLoads s c len d slot (.plain sg) acq xs (fun _ x => loadedWords sg x.2) = .next (got.2.putTeam u t') ∧
        Claims.LoadsFloat t1 t' d.toNat (.plain sg) acq xs got.1 ∧
        Claims.Delivers { t1 with loads := t'.loads } t' c len (slotOf slot) false d.toNat
          (got.1.map fun x => (x.1, loadedWords sg x.2))) ∧
      ((∀ x ∈ xs, ∀ y ∈ x.2, Claims.onChip y) → got.2 = s1 ∧
        got.1 = xs.map fun x => (x.1, x.2.flatMap fun y => laneBytes s1 u t1 x.1 y.place y.off y.n)) ∧
      ∀ l y, xs = [(l, [y])] →
        (y.typ = 5 → got = ([(l, toBytes y.n (devRead s1 y.off y.n))], s1)) ∧
        (y.typ = 6 → (∀ q, notifyQueue s1 (ownPart s1 t1) y.off = some q → got =
            ([(l, toBytes 8 ((s1.queue q).tail + queueHead s1 q * 2 ^ 32))], s1)) ∧
          (notifyQueue s1 (ownPart s1 t1) y.off = none → got.1 = [(l, zeros 8)] ∧ MemSide s1 got.2)) := by
  subst hu
  obtain ⟨t1, h1, same, out⟩ := deliverLoads_delivers ht c len d slot (.plain sg) acq xs fun _ x => loadedWords sg x.2
  refine ⟨_, t1, atomsFirst_followed s s.cur xs, h1, same, out, fun chip => ?_, ?_⟩
  · rw [loadLanes_chip t1 _ xs chip, (StoreSide.atomsFirst ..).cur]
    exact ⟨rfl, rfl⟩
  · rintro l y rfl
    rw [loadLanes_one]
    refine ⟨fun reg => by rw [loadSeg_register reg], fun note => ?_⟩
    rw [loadSeg_notify note]
    refine ⟨fun q hq => ?_, fun none => ?_⟩
    · rw [notifyLoad_queue hq, BitVec.toNat_ofNat, show (2 : Nat) ^ 64 = 2 ^ (8 * 8) from rfl, toBytes_mod]
    · rw [notifyLoad_none none]
      exact ⟨by rw [show toBytes 8 (0 : DWord).toNat = zeros 8 by decide], MemSide.notifyFail _ _⟩

/-- LD of n bytes at every width. -/
theorem loadWord_loads {s : State} {t : Team} {c : Clause} (h : Issues s t c) (len n : Nat) (d b : Code) (slot : BitVec 3)
    (off : BitVec 5) (sg acq : Bool) : Claims.Loads s t c len n d b slot off sg acq (loadWord s len n d b slot off sg acq) := by
  have side := (MemSide.bump s).trans (MemSide.lanesAccess s.cur t (loadKind n) s.bump
    (t.activeLanes.map fun l => (l, effective s.fresh t b off n l)))
  refine ⟨side, fun cause va met => loadWord_fails h len d slot sg acq (Prod.ext met rfl), fun xs met => ?_⟩
  rw [loadWord_passes h len d slot sg acq (Prod.ext met rfl)]
  exact deliverLoads_loads side.cur ((side.team s.cur).trans h.1) c len d slot sg acq xs

theorem loadWords_widths : Claims.LoadWords := by
  intro s t c d b slot off sg acq h
  exact ⟨loadWord_loads h .., loadWord_loads h .., loadWord_loads h .., loadWord_loads h .., loadWord_loads h ..,
    loadWord_loads h .., loadWord_loads h .., loadWord_loads h .., loadWord_loads h .., loadWord_loads h ..,
    fun n hn l hl => loadedWords_eq sg hn hl⟩

/-- Settles O15: the checks by the order in which the model takes them, and every width of LD by the one load word. -/
theorem loadWords : Obligations.LoadWords := ⟨accessChecks, loadWords_widths⟩

end Sys2Proof.Machine
end

section
/-! PROOFS. StoreWords fails: in a state whose table lists one team twice, the second entry's held store is performed after a
strictly ordered store of the first, and the stored byte is not what memory holds. -/

namespace Sys2Proof.Machine

/-! ### A store whose pieces stand on chip -/

theorem mem_deviceOrder {k fuel : Nat} {ls : List (Nat × List Seg)} {x : Nat × List Seg} (h : x ∈ deviceOrder k fuel ls) :
    x ∈ ls := by
  induction fuel generalizing ls with
  | zero => cases h
  | succ fuel ih =>
    unfold deviceOrder at h
    dsimp only at h
    split at h
    · cases h
    · next y hy =>
      obtain rfl | rest := List.mem_cons.1 h
      · exact (List.mem_filter.1 (List.mem_of_getElem? hy)).1
      · exact (List.mem_filter.1 (ih rest)).1

theorem deviceStore_chip (s : State) (priv part : Nat) {y : Seg} (data : List Byte) (h : Claims.onChip y) :
    deviceStore s priv part y data = s := by
  obtain ⟨register, notify⟩ := h
  simp [deviceStore, register, notify]

theorem foldl_still {α β : Type} {f : β → α → β} {l : List α} (h : ∀ a ∈ l, ∀ b, f b a = b) (b : β) : l.foldl f b = b :=
  (List.foldl_ext f (fun b _ => b) b fun b a ha => h a ha b).trans (List.foldl_fixed l)

theorem deviceStores_chip (s : State) (priv part : Nat) {ls : List (Nat × List Seg)} (data : Nat → List Byte)
    (h : ∀ x ∈ ls, ∀ y ∈ x.2, Claims.onChip y) : deviceStores s priv part ls data = s.bump :=
  foldl_still (fun x hx s => foldl_still (fun y hy s => deviceStore_chip s priv part _ (h x (mem_deviceOrder hx) y hy)) s) s.bump

theorem storeWord_passes {s s0 : State} {t : Team} {c : Clause} (h : Issues s t c) {len n : Nat} {v b : Code} {slot : BitVec 3}
    {off : BitVec 5} {fr rel : Bool} {xs : List (Nat × List Seg)} (met : lanesAccess s.cur t (storeKind n fr) s.bump
      (t.activeLanes.map fun l => (l, effective s.fresh t b off n l)) = (.ok xs, s0)) :
    storeWord s len n v b slot off fr rel = .next (deviceStores (holdStores
      (beforeStores (s0.putTeam s0.cur ((t.addPend (slotOf slot) false []).advance c len)) s0.cur rel xs) s0.cur
      (xs.flatMap fun x => laneStores t.nextWord t.storeGate fr rel x.1 x.2 (storeBytes s.fresh t v n x.1)))
      t.priv (ownPart s0 t) xs (storeBytes s.fresh t v n)) := by
  simp only [storeWord, withTeam_eq h, met]

/-! ### The state -/

namespace TwiceListed

/-- A page table of three nodes, whose one leaf is a strictly ordered FRAME page of 1 GiB at the frame region. -/
def table : Memory :=
  Memory.write (Memory.write (Memory.write [] 0x3FF0 (toBytes 16 (1 + 0x4000 * 2 ^ 64)))
    0x5000 (toBytes 16 (1 + 0x8000 * 2 ^ 64))) 0x8000 (toBytes 16 0x4E7)

/-- A tile that was sealed once under key 0. -/
def tile : Caddy := { version := 1, key := 0, state := 1, pad := 0, tag := none, sealedWith := 0, sealedVersion := 1 }

def word : Clause := fetchClauseOf 0

/-- The agent of core 0 with lane 0 alone active: the pair v4 holds the base of its window, and v0 holds 0. -/
def team : Team :=
  { fetchTeam State.reset word with
    d := [(1, 1), (2, 1), (3, 1)], fsp := BitVec.ofNat 64 (frameRegion + 16)
    regs := [(regKey 5 0, BitVec.ofNat 32 (frameRegion / 2 ^ 32))] }

/-- A store of the same word, lane and byte, that has come to the outermost scope. -/
def stray : PendStore :=
  { word := 0, gates := [], lane := 0, place := .frame 0, off := 0, bytes := [1], setRef := false, level := 5, stamp := 5
    rmw := none }

/-- A machine whose table lists team 0 twice, so that it is not in canonical form: lookups see the first entry, and the stores on
their way are those of both. -/
def machine : State :=
  { State.reset.withFetchWord 64 0 with
    teams := [(0, some team), (0, some { team with stores := [stray] })]
    hbm := table, caddies := [(7, tile), (10, tile), (16, tile)], fwRoot := 0x2000, keyValid := [(0, true)] }

/-- The piece that ST.B meets: the first byte of the team's window. -/
def piece : Seg := { va := frameRegion, n := 1, typ := 4, order := 0, place := .frame 0, off := 0 }

theorem issues : Issues machine team word := ⟨rfl, rfl, rfl⟩

/-- The checks of ST.B. -/
def met : Except (Nat × Nat) (List (Nat × List Seg)) × State :=
  lanesAccess machine.cur team (storeKind 1 false) machine.bump
    (team.activeLanes.map fun l => (l, effective machine.fresh team 4 0 1 l))

theorem met_passes : met.1 = .ok [(0, [piece])] := by decide +kernel

/-- What ST.B of v0 leaves, before its device stores: it has none. -/
def stored : State :=
  holdStores (beforeStores (met.2.putTeam met.2.cur ((team.addPend (slotOf 0) false []).advance word 1)) met.2.cur false
    [(0, [piece])]) met.2.cur ([(0, [piece])].flatMap fun x =>
      laneStores team.nextWord team.storeGate false false x.1 x.2 (storeBytes machine.fresh team 0 1 x.1))

theorem stored_byte : placeByte stored (.frame 0) 0 = 1 := by decide +kernel

theorem data_byte : (storeBytes machine.fresh team 0 1 0)[0]?.getD 0 = 0 := by decide +kernel

theorem piece_onChip : Claims.onChip piece := ⟨by decide, by decide⟩

theorem store_eq : exec (.stB 0 4 0 0) machine = .next stored.bump := by
  rw [exec_stB, execStB, storeWord_passes issues (Prod.ext met_passes rfl), deviceStores_chip]
  · rfl
  · simpa using piece_onChip

end TwiceListed

open TwiceListed in
/-- Refutes O16: a state may list team 0 twice, and then a store that the second entry holds, of the same word, lane and byte, is
performed behind the one that ST.B performs at once in a strictly ordered page: memory holds 1 where ST.B stored 0. -/
theorem not_storeWords : ¬ Obligations.StoreWords := by
  rintro ⟨words, -⟩
  obtain ⟨⟨-, -, passes⟩, -⟩ := words machine team word 0 4 0 0 false false issues
  obtain ⟨t0, s1, t1, -, -, -, -, -, -, -, -, strict, -⟩ := passes _ met_passes
  have held := strict 0 piece rfl piece_onChip rfl rfl rfl (fun w h => by cases h) (fun u h => by cases h; decide) _ store_eq 0
    (by decide)
  rw [data_byte] at held
  exact absurd (stored_byte.symm.trans held) (by decide)

end Sys2Proof.Machine
end

section
/-! PROOFS. What a team's stop leaves of clauses (R98, R105, R106, R169, R330): no operation that it brings about gives a team a
clause that it does not hold, and the team that stops holds none. -/

namespace Sys2Proof.Machine

/-- The clause that team u holds. -/
def State.clauseOf (s : State) (u : Nat) : Option Clause := (s.team u).bind fun t => t.clause

/-- No team holds a clause in s' that holds none in s. -/
def BringsNoClause (s s' : State) : Prop := ∀ u, s.clauseOf u = none → s'.clauseOf u = none

theorem State.clauseOf_none_iff (s : State) (u : Nat) : s.clauseOf u = none ↔ ∀ t, s.team u = some t → t.clause = none := by
  unfold State.clauseOf
  cases s.team u <;> simp

theorem MemSide.closeTile (s : State) (t : Nat) : MemSide s (closeTile s t) := by
  unfold Machine.closeTile
  split
  · exact MemSide.refl s
  · next o _ =>
    have shut := MemSide.putOpen s (s.openTiles.filter fun x => x.tile != t)
    dsimp only
    split
    · exact (shut.trans (MemSide.putCaddy _ _ _)).trans (MemSide.sealLog _ _ _ _ _)
    · exact shut.trans (MemSide.nodeLog _ _)
    · exact ((shut.trans (MemSide.pathWritten _ t)).trans (MemSide.putHbm _ _)).trans (MemSide.putCaddy _ _ _)

theorem MemSide.showRequest (s : State) (core : Nat) : MemSide s (showRequest s core) := by
  unfold Machine.showRequest
  split <;> exact MemSide.putDfield _ _ _ _ _

namespace BringsNoClause

variable {s s' s'' : State}

theorem refl (s : State) : BringsNoClause s s := fun _ h => h

theorem trans (h : BringsNoClause s s') (h' : BringsNoClause s' s'') : BringsNoClause s s'' := fun u hu => h' u (h u hu)

theorem of_teams (h : s'.teams = s.teams) : BringsNoClause s s' := fun u hu => by
  rw [State.clauseOf, State.team, h]; exact hu

/-- A change that leaves the table of the teams comes after another. -/
theorem then_teams (h : BringsNoClause s s') (e : s''.teams = s'.teams) : BringsNoClause s s'' := h.trans (of_teams e)

theorem of_memSide (h : MemSide s s') : BringsNoClause s s' := of_teams h.teams

theorem of_storeSide (h : StoreSide s s') : BringsNoClause s s' := by
  obtain ⟨-, window, -⟩ := h
  intro u hu
  have side := window u
  unfold WindowSide at side
  rw [State.clauseOf] at hu ⊢
  cases ht : s.team u with
  | none => rw [ht] at side; rw [side]; rfl
  | some t =>
    rw [ht] at side hu
    obtain ⟨t', ht', same, -⟩ := side
    rw [ht', same]
    exact hu

theorem foldl {α : Type} {f : State → α → State} (hf : ∀ s x, BringsNoClause s (f s x)) (l : List α) (s : State) :
    BringsNoClause s (l.foldl f s) :=
  foldl_keeps (fun r => BringsNoClause s r) f (fun _ _ h => h.trans (hf _ _)) l s (refl s)

/-- A team is put in place of another, and holds no clause where that other held none. -/
theorem putTeam_of {u : Nat} {t' : Team} (h : s.clauseOf u = none → t'.clause = none) : BringsNoClause s (s.putTeam u t') := by
  intro v hv
  by_cases e : v = u
  · subst e
    rw [State.clauseOf, State.team_putTeam_same]
    exact h hv
  · rw [State.clauseOf, State.team_putTeam_other _ _ e]
    exact hv

theorem putTeam {u : Nat} {t t' : Team} (ht : s.team u = some t) (h : t'.clause = t.clause) :
    BringsNoClause s (s.putTeam u t') :=
  putTeam_of fun hu => by rw [State.clauseOf, ht] at hu; exact h.trans hu

/-! ### Barriers and collectives (R206, R207, R209, R211) -/

theorem fillResult (s : State) (u word : Nat) (v : Word) : BringsNoClause s (fillResult s u word v) := by
  unfold Machine.fillResult
  cases ht : s.team u with
  | none => exact refl s
  | some t => exact putTeam ht rfl

theorem wake (s : State) (ws : List Waiter) (v : Waiter → Word) : BringsNoClause s (wake s ws v) := by
  unfold Machine.wake
  exact foldl (fun s (w : Waiter) => fillResult s w.team w.word (v w)) ws s

theorem arrive (s : State) (g k : Nat) (team : Option Nat) (err : Option (Nat × Nat)) :
    BringsNoClause s (arrive s g k team err) := by
  unfold Machine.arrive
  split
  · exact refl s
  · dsimp only
    split
    · exact refl s
    · split
      · refine trans ?_ (wake _ _ _)
        exact of_teams rfl
      · exact of_teams rfl

theorem detach (s : State) (g k c : Nat) : BringsNoClause s (detach s g k c) := by
  unfold Machine.detach
  split
  · exact refl s
  · exact of_teams rfl

theorem releaseMwait (s : State) (w : Workgroup) (k : Nat) : BringsNoClause s (releaseMwait s w k) := by
  unfold Machine.releaseMwait
  repeat' split
  all_goals exact of_teams rfl

theorem invalidate (s : State) (g k : Nat) : BringsNoClause s (invalidate s g k) := by
  unfold Machine.invalidate
  split
  · exact refl s
  · dsimp only
    refine ((trans (of_teams ?_) (foldl (fun s c => ?_) _ _)).trans (releaseMwait _ _ k)).trans (wake _ _ _)
    · rfl
    · split
      · exact of_teams rfl
      · exact refl _

theorem invalidateAll (s : State) (g : Nat) : BringsNoClause s (invalidateAll s g) :=
  foldl (fun s k => invalidate s g k) _ s

theorem leaveColls (s : State) (g joined : Nat) : BringsNoClause s (leaveColls s g joined) := by
  unfold Machine.leaveColls
  split
  · exact refl s
  · dsimp only
    refine trans (of_teams ?_) (foldl (fun s c => ?_) _ _)
    · rfl
    · split
      · have apart := foldl (fun s (y : Slice) => detach s g y.nb y.uid) c.slices s
        split
        · exact apart.trans (arrive _ _ _ _ _)
        · exact apart
      · exact refl _

/-! ### Engine reads and writes, and the tiles of a copy (R168 to R176, R201, R202) -/

theorem engineDeny (s : State) (r : Requester) : BringsNoClause s (engineDeny s r) := by
  unfold Machine.engineDeny
  split <;> exact of_teams rfl

theorem enginePage (s : State) (r : Requester) (va n : Nat) (wr : Bool) : BringsNoClause s (enginePage s r va n wr).2 := by
  unfold Machine.enginePage
  split
  · exact refl s
  · have walked := of_memSide (MemSide.xlateBy false s r.part r.core va wr)
    split <;> rename_i e <;> rw [e] at walked
    · exact walked
    · have denied := walked.trans (engineDeny _ r)
      dsimp only at walked denied ⊢
      repeat' split
      all_goals first | exact walked | exact denied

theorem logGranules (s : State) (r : Requester) (l : List Nat) : BringsNoClause s (logGranules s r l) := by
  unfold Machine.logGranules
  exact foldl (fun s g => of_memSide (MemSide.checkLog s r.part g)) l s

theorem pageReadBut (logged : List Nat) (s : State) (r : Requester) (p : Pte) (pa n : Nat) :
    BringsNoClause s (pageReadBut logged s r p pa n).2.2 := by
  unfold Machine.pageReadBut
  split
  · exact of_memSide (MemSide.sealRead s p.key 0 pa n)
  · exact refl s
  · split
    · exact logGranules _ _ _
    · exact refl s

theorem pageWrite (s : State) (r : Requester) (p : Pte) (k pa : Nat) (l : List Byte) :
    BringsNoClause s (pageWrite s r p k pa l).2 := by
  unfold Machine.pageWrite
  split
  · exact of_memSide (MemSide.sealWrite s k 1 pa l)
  · exact of_teams rfl
  · split
    · exact of_storeSide (StoreSide.placeWrite _ _ _ _ _)
    · exact logGranules _ _ _

theorem engineRead (s : State) (r : Requester) (va n : Nat) : BringsNoClause s (engineRead s r va n).2.2 := by
  unfold Machine.engineRead
  have met := enginePage s r va n false
  split <;> rename_i e <;> rw [e] at met
  · exact met
  · exact met.trans (pageReadBut [] _ r _ _ n)

theorem readPart (x : LateTile) (s : State) (c : Copy) (p : Nat × Nat) : BringsNoClause s (x.readPart s c p).2 := by
  unfold LateTile.readPart
  exact pageReadBut x.logged s c.requester x.srcPage.pte (x.srcAt + p.1) p.2

theorem writePart (x : LateTile) (s : State) (c : Copy) (p : Nat × Nat) : BringsNoClause s (x.writePart s c p).2 := by
  unfold LateTile.writePart
  dsimp only
  split
  · split
    · exact pageWrite _ _ _ _ _ _
    · exact of_storeSide (StoreSide.placeWrite _ _ _ _ _)
  · exact logGranules _ _ _

theorem part (x : LateTile) (s : State) (c : Copy) (p : Bool × Nat × Nat) : BringsNoClause s (x.part s c p).2 := by
  unfold LateTile.part
  repeat' split
  · exact writePart x s c p.2
  · exact refl s
  · exact readPart x s c p.2
  · exact refl s

theorem performs (c : Copy) (l : List (Bool × Nat × Nat)) (x : LateTile) (s : State) :
    BringsNoClause s (LateTile.performs c l x s).2 := by
  induction l generalizing x s with
  | nil => exact refl s
  | cons p l ih => exact (part x s c p).trans (ih _ _)

theorem freshenGranule (s : State) (p : Place) (g : Nat) : BringsNoClause s (freshenGranule s p g) := by
  unfold Machine.freshenGranule
  repeat' split
  all_goals exact of_teams rfl

theorem freshen (x : LateTile) (s : State) (c : Copy) : BringsNoClause s (x.freshen s c) := by
  unfold LateTile.freshen
  split
  · exact foldl (fun s g => freshenGranule s _ g) _ s
  · exact refl s

theorem resealTile (s : State) (c : Copy) (x : LateTile) : BringsNoClause s (resealTile s c x).2 := by
  unfold Machine.resealTile
  dsimp only
  split
  · exact refl s
  · have read := (MemSide.closeTile s (tileOf x.srcAt)).trans
      (MemSide.sealRead (Machine.closeTile s (tileOf x.srcAt)) x.srcPage.pte.key 0 (tileOf x.srcAt * 2048) 2048)
    split <;> rename_i e <;> rw [e] at read
    · dsimp only at read
      split <;> dsimp only
      · exact of_memSide (read.trans (MemSide.nodeLog _ _))
      · exact of_memSide ((read.trans (MemSide.putFlight _ none)).trans (MemSide.refuseLog _ _ _ _))
      · exact of_memSide (((read.trans (MemSide.pathWritten _ _)).trans (MemSide.putHbm _ _)).trans (MemSide.putCaddy _ _ _))
    · exact of_memSide read

theorem performTile (p : Bool × Nat × Nat → Bool) (s : State) (c : Copy) (x : LateTile) :
    BringsNoClause s (performTile p s c x).2 := by
  unfold Machine.performTile
  split
  · exact resealTile s c x
  · dsimp only
    split
    · exact (performs c _ x s).trans (freshen _ _ c)
    · exact performs c _ x s

theorem finishTiles (p : LateTile → Bool) (s : State) (k : Nat) : BringsNoClause s (finishTiles p s k) := by
  unfold Machine.finishTiles
  split
  · exact refl s
  · refine foldl (fun s x => ?_) _ s
    split
    · exact refl s
    · next c _ => exact (performTile (fun _ => true) s c x).then_teams rfl

/-! ### Copies, nodes and launches that end (R97, R105, R202, R215) -/

theorem nodeDone (s : State) (g i : Nat) (word : DWord) : BringsNoClause s (nodeDone s g i word) := by
  unfold Machine.nodeDone
  split <;> exact of_teams rfl

theorem completeCopy (s : State) (k st tile : Nat) : BringsNoClause s (completeCopy s k st tile) := by
  unfold Machine.completeCopy
  split
  · exact refl s
  · dsimp only
    split
    · refine trans ?_ (nodeDone _ _ _ _)
      repeat' split
      all_goals exact of_teams rfl
    · have gone : BringsNoClause s (s.dropCopy k) := of_teams rfl
      split
      · split
        · exact (gone.trans (detach _ _ _ _)).trans (arrive _ _ _ _ _)
        · exact gone
      · exact gone

theorem stopCopy (s : State) (k : Nat) : BringsNoClause s (stopCopy s k) :=
  (finishTiles _ s k).trans (completeCopy _ k 5 _)

theorem startHeld (s : State) : BringsNoClause s (startHeld s) := by
  unfold Machine.startHeld
  repeat' split
  all_goals exact of_teams rfl

theorem giveRoom (s : State) (core : Nat) (free : Room) : BringsNoClause s (giveRoom s core free) := by
  unfold Machine.giveRoom
  dsimp only
  refine trans ?_ (of_memSide (MemSide.showRequest _ core))
  exact of_teams rfl

theorem endRequests (s : State) (p : Request → Bool) : BringsNoClause s (endRequests s p) := by
  unfold Machine.endRequests
  refine trans (of_teams ?_) (foldl (fun s r => (giveRoom s r.core (r.idle s)).trans (of_teams ?_)) _ _) <;> rfl

theorem launchCheck (s : State) (l : Nat) : BringsNoClause s (launchCheck s l) := by
  unfold Machine.launchCheck
  split
  · exact refl s
  · split
    · refine (trans (trans ?_ (endRequests _ _)) (nodeDone _ _ _ _)).trans (startHeld _)
      exact of_teams rfl
    · exact refl s

/-! ### Streams that end (R234, R240, R247) -/

theorem performPart (s : State) (st k : Nat) (p : Nat × Nat) : BringsNoClause s (performPart s st k p).2 := by
  unfold Machine.performPart
  split
  · exact refl s
  · split
    · exact refl s
    · dsimp only
      split
      · split
        · exact refl s
        · exact of_teams rfl
      · split
        · exact refl s
        · split
          · exact refl s
          · dsimp only
            refine trans ?_ (of_teams (State.putStream_teams _ _ _))
            refine trans ?_ (of_storeSide (StoreSide.placeWrite _ _ _ _ _))
            exact of_storeSide (StoreSide.foldl (fun s (e : Nat × PendStore) => StoreSide.raiseOne s e.1 e.2 6) _ s)

theorem performParts (st k : Nat) (l : List (Nat × Nat)) (s : State) : BringsNoClause s (performParts st k l s).2 := by
  induction l generalizing s with
  | nil => exact refl s
  | cons p l ih =>
    unfold Machine.performParts
    split
    · exact refl s
    · split
      · exact refl s
      · split
        · have one := performPart s st k p
          split <;> rename_i e <;> rw [e] at one
          · exact one
          · exact one.trans (ih _)
        · exact ih s

theorem finishMem (s : State) (st : Nat) (x : Stream) (m : StreamMem) : BringsNoClause s (finishMem s st x m) := by
  unfold Machine.finishMem
  split
  · exact of_teams rfl
  · exact foldl (fun s g => freshenGranule s m.place g) _ s

theorem retireOp (s : State) (st k : Nat) : BringsNoClause s (retireOp s st k).2 := by
  unfold Machine.retireOp
  dsimp only
  have parts := performParts st k ((((s.stream st).bind fun x => x.inflight[k]?).bind fun o => o.mem).elim [] fun m => m.left) s
  split <;> rename_i e <;> rw [e] at parts
  · exact parts
  · split
    · exact parts
    · split
      · refine (parts.trans ?_).trans (finishMem _ _ _ _)
        exact of_teams rfl
      · refine parts.trans ?_
        exact of_teams rfl

theorem finishOps (s : State) (st : Nat) : BringsNoClause s (finishOps s st) := by
  unfold Machine.finishOps
  split
  · exact refl s
  · refine foldl (fun s _ => ?_) _ s
    have op := retireOp s st 0
    split <;> rename_i e <;> rw [e] at op
    · exact op
    · dsimp only
      split
      · exact (op.trans (of_memSide (MemSide.checkLog _ _ _))).then_teams rfl
      · exact op.trans (of_memSide (MemSide.checkLog _ _ _))

theorem endStream (s : State) (k : Nat) : BringsNoClause s (endStream s k) := by
  unfold Machine.endStream
  dsimp only
  repeat' split
  · exact finishOps s k
  all_goals
    refine (finishOps s k).trans ?_
    exact of_teams rfl

/-! ### Launches that fail (R104 to R106) -/

theorem noteCancel (s : State) (u : Nat) : BringsNoClause s
    (match s.team u with | some t => s.putTeam u { t with noticeCancel := true } | none => s) := by
  split
  · next t ht => exact putTeam ht rfl
  · exact refl s

theorem endStreamOf (s : State) (g : Nat) : BringsNoClause s (match s.wg g with
    | some w => match w.stream with | some k => Machine.endStream s k | none => s
    | none => s) := by
  repeat' split
  · exact endStream s _
  all_goals exact refl s

theorem dropColls (s : State) (g : Nat) : BringsNoClause s
    (match s.wg g with | some w => s.putWg g { w with colls := [] } | none => s) := by
  split
  · exact of_teams rfl
  · exact refl s

theorem cancelLaunch (s : State) (l : Nat) : BringsNoClause s (cancelLaunch s l) := by
  unfold Machine.cancelLaunch
  split
  · exact refl s
  · split
    · exact refl s
    · dsimp only
      refine trans ?_ (launchCheck _ l)
      refine trans ?_ (foldl noteCancel _ _)
      refine trans ?_ (foldl endStreamOf _ _)
      refine trans ?_ (foldl (fun s (e : Nat × Copy) => stopCopy s e.1) _ _)
      refine trans ?_ (foldl dropColls _ _)
      refine trans ?_ (foldl invalidateAll _ _)
      exact of_teams (State.putLaunch_teams _ _ _)

theorem failLaunch (s : State) (l status : Nat) (nested : Bool) (cause : Nat) (wgid : Word) :
    BringsNoClause s (failLaunch s l status nested cause wgid) := by
  unfold Machine.failLaunch
  repeat' split
  · exact refl s
  · exact refl s
  · refine trans ?_ (cancelLaunch _ l)
    exact of_teams rfl

/-! ### Agents that restart (R329, R330) -/

theorem startAgent (s : State) (u : Nat) (l : Launch) (sharedSz : Nat) (sem : Option DWord) :
    BringsNoClause s (startAgent s u l sharedSz sem) := by
  unfold Machine.startAgent
  split
  · exact refl s
  · next t _ =>
    have started : BringsNoClause s (((Machine.invalidateAll (drainAll s u) t.wg).putLaunch t.launch l).putTeam u
        { startTeam l t.launch t.wg 0 4 32 t.window l.entry l.args 0 t.order true with doneSem := sem }) := by
      refine trans ?_ (putTeam_of fun _ => rfl)
      refine trans ?_ (of_teams (State.putLaunch_teams _ _ _))
      exact trans (of_storeSide (StoreSide.drainAll s u)) (invalidateAll _ t.wg)
    dsimp only
    split
    · refine trans ?_ (of_teams (State.putWg_teams _ _ _))
      exact started
    · exact started

theorem signalDone (s : State) (core g : Nat) (sem : DWord) (failed : Bool) : BringsNoClause s (signalDone s core g sem failed) := by
  unfold Machine.signalDone
  dsimp only
  repeat' split
  all_goals exact of_teams rfl

/-- What an agent reads of the record that it has claimed. -/
theorem claimedRead {r : Requester} {rec_ st : Nat} {l : List Byte} (h : BringsNoClause s s')
    (e : (if rec_ % 64 = 0 then Machine.engineRead s' r rec_ 64 else (8, [], s')) = (st, l, s'')) : BringsNoClause s s'' := by
  split at e
  · have read := engineRead s' r rec_ 64
    rw [e] at read
    exact h.trans read
  · cases e
    exact h

theorem claimTickets (fuel : Nat) (s : State) : BringsNoClause s (claimTickets fuel s) := by
  induction fuel generalizing s with
  | zero => exact refl s
  | succ fuel ih =>
    unfold Machine.claimTickets
    extract_lets tail head idle
    split
    · exact refl s
    · split
      · exact refl s
      · extract_lets core
        have claimed : BringsNoClause s { s.bump with scratch := Memory.write s.scratch (ticketAt 8) (toBytes 8 (head + 1)) } :=
          of_teams rfl
        split
        next st l s2 e =>
          have read := claimedRead claimed e
          split
          · exact (read.trans (startAgent s2 _ _ _ _)).trans (ih _)
          · exact (read.trans (signalDone s2 _ _ _ _)).trans (ih _)

end BringsNoClause

end Sys2Proof.Machine
end

section
/-! PROOFS. What the issue of a team's word does beside the word (R169, R258, R261, R262, R316, R318): its registers and passes are
refilled, or the team is stopped and holds no clause; and its cluster is debited. -/

namespace Sys2Proof.Machine

/-! ### A team that is stopped holds no clause -/

theorem State.clauseOf_putTeam (s : State) (u : Nat) (t : Team) : (s.putTeam u t).clauseOf u = t.clause := by
  simp [State.clauseOf]

theorem startAgent_clauseOf (s : State) (u : Nat) (l : Launch) (sharedSz : Nat) (sem : Option DWord) :
    (startAgent s u l sharedSz sem).clauseOf u = none := by
  unfold Machine.startAgent
  split
  · next ht => rw [State.clauseOf, ht]; rfl
  · dsimp only
    split
    · exact BringsNoClause.of_teams (State.putWg_teams _ _ _) u (State.clauseOf_putTeam _ _ _)
    · exact State.clauseOf_putTeam _ _ _

theorem teamLeaves_clauseOf (s : State) (u : Nat) (st : TeamStatus) : (teamLeaves s u st).clauseOf u = none := by
  unfold Machine.teamLeaves
  dsimp only
  split
  · next ht => rw [State.clauseOf, ht]; rfl
  · exact BringsNoClause.leaveColls _ _ _ u (State.clauseOf_putTeam _ _ _)

theorem restartAgent_clauseOf (s : State) (u : Nat) (failed : Bool) : (restartAgent s u failed).clauseOf u = none := by
  unfold Machine.restartAgent
  split
  · next ht => rw [State.clauseOf, ht]; rfl
  · dsimp only
    refine BringsNoClause.claimTickets 64 _ u ?_
    split
    · exact BringsNoClause.signalDone _ _ _ _ _ u (startAgent_clauseOf _ _ _ _ _)
    · exact startAgent_clauseOf _ _ _ _ _

theorem stopFor_clauseOf (s : State) (u cause : Nat) : (stopFor s u cause).clauseOf u = none := by
  unfold Machine.stopFor
  split
  · next ht => rw [State.clauseOf, ht]; rfl
  · split
    · exact restartAgent_clauseOf s u true
    · exact BringsNoClause.failLaunch _ _ _ _ _ _ u (teamLeaves_clauseOf s u .stopped)

/-! ### Refills -/

/-- t' is t but for what is evicted of it, and for the room that this takes. -/
def Team.SameButEvicted (t t' : Team) : Prop := t' = { t with evicted := t'.evicted, passOut := t'.passOut, spill := t'.spill }

/-- s' is s with team u as t, but for what is evicted of it, and for the memory side. -/
def Refilled (s : State) (u : Nat) (t : Team) (s' : State) : Prop :=
  (∃ t', s'.team u = some t' ∧ t.SameButEvicted t') ∧ (∀ v, v ≠ u → s'.team v = s.team v) ∧
  MemSide { s with teams := s'.teams } s'

/-- Team u stands refilled, or has been stopped. -/
def RefilledOrStopped (s : State) (u : Nat) (t : Team) (s' : State) : Prop := Refilled s u t s' ∨ s'.clauseOf u = none

/-- A change of a team that brings some of it back, and evicts other parts of it. -/
def SwapsEvicted (f : Team → Team) : Prop := ∀ t, f t = { t with evicted := (f t).evicted, passOut := (f t).passOut }

section
variable {s r : State} {u : Nat} {t : Team}

theorem Refilled.putTeam (s : State) (u : Nat) (t : Team) : Refilled s u t (s.putTeam u t) :=
  ⟨⟨t, State.team_putTeam_same _ _ _, rfl⟩, fun _ h => State.team_putTeam_other _ _ h, rfl⟩

theorem SwapsEvicted.trimSpill {f : Team → Team} (hf : SwapsEvicted f) (t : Team) : t.SameButEvicted (f t).trimSpill := by
  unfold Team.SameButEvicted Team.trimSpill
  rw [hf t]

/-- What a team's refill reads and writes, and the team put back. -/
theorem Refilled.putTeam_memSide {r' : State} {t1 t2 : Team} (h : Refilled s u t r) (ht : r.team u = some t1)
    (mem : MemSide r r') (h2 : t1.SameButEvicted t2) : Refilled s u t (r'.putTeam u t2) := by
  obtain ⟨⟨t', ht', same⟩, others, side⟩ := h
  obtain rfl : t1 = t' := by rw [ht] at ht'; exact Option.some.inj ht'
  refine ⟨⟨t2, State.team_putTeam_same _ _ _, ?_⟩, fun v hv => ?_, ?_⟩
  · unfold Team.SameButEvicted at same h2 ⊢
    rw [h2, same]
  · rw [State.team_putTeam_other _ _ hv, ← others v hv, State.team, State.team, mem.teams]
  · unfold MemSide at side mem ⊢
    rw [mem, side]
    rfl

theorem refillWith_keeps {f : Team → Team} (hf : SwapsEvicted f) (o n : Nat) (h : RefilledOrStopped s u t r) :
    RefilledOrStopped s u t (refillWith r u o n f) := by
  unfold Machine.refillWith
  cases ht : r.team u with
  | none => exact h
  | some t1 =>
    have mem := MemSide.refillBytes r t1 o n
    dsimp only
    split <;> rename_i e <;> rw [e] at mem
    · refine h.imp (fun h => h.putTeam_memSide ht mem (hf.trimSpill t1)) fun gone => ?_
      rw [State.clauseOf_putTeam, Team.trimSpill, hf t1]
      exact (State.clauseOf_none_iff r u).1 gone t1 ht
    · exact .inr (stopFor_clauseOf _ _ _)

theorem swapsEvicted_register (q : Nat) :
    SwapsEvicted fun t => Team.evict { t with evicted := t.evicted.filter fun x => x != q } [q] := fun _ => rfl

theorem swapsEvicted_pass (p : Nat) :
    SwapsEvicted fun t => Team.evictPasses { t with passOut := t.passOut.filter fun x => x != p } [p] := fun _ => rfl

theorem refillRegister_keeps (q : Nat) (h : RefilledOrStopped s u t r) : RefilledOrStopped s u t (refillRegister r u q) := by
  unfold Machine.refillRegister
  split
  · exact h
  · split
    · exact refillWith_keeps (swapsEvicted_register q) _ _ h
    · exact h

theorem refillPass_keeps (p : Nat) (h : RefilledOrStopped s u t r) : RefilledOrStopped s u t (refillPass r u p) := by
  unfold Machine.refillPass
  split
  · exact h
  · split
    · exact refillWith_keeps (swapsEvicted_pass p) _ _ h
    · exact h

end

/-- The team when a word has stamped the registers rs that it touches (R261). -/
def Team.stamped (t : Team) (rs : List Nat) : Team :=
  { t with stamps := fsets zeroNat t.stamps (rs.map fun r => (r, t.clauseSeq)) }

theorem touchState_resident (s : State) (u : Nat) {t : Team} (rs ps : List Nat) (he : t.evicted = []) (hp : t.passOut = []) :
    touchState s u t rs ps = s.putTeam u (t.stamped rs) := by
  simp [Machine.touchState, he, hp, Team.stamped]

theorem touchState_refills (s : State) (u : Nat) (t : Team) (rs ps : List Nat) :
    RefilledOrStopped s u (t.stamped rs) (touchState s u t rs ps) := by
  have put : RefilledOrStopped s u (t.stamped rs) (s.putTeam u (t.stamped rs)) := .inl (Refilled.putTeam _ _ _)
  unfold Machine.touchState
  extract_lets s1
  split
  · exact put
  · exact foldl_keeps _ _ (fun _ p h => refillPass_keeps p h) ps _
      (foldl_keeps _ _ (fun _ q h => refillRegister_keeps q h) rs _ put)

/-! ### Debits and grants -/

theorem rollWindow_eq (s : State) (c : Nat) : rollWindow s c = { s with clusters := (rollWindow s c).clusters } := by
  unfold Machine.rollWindow
  dsimp only
  split <;> rfl

theorem debit_eq (s : State) (c w : Nat) (agent : Bool) : debit s c w agent =
    { s with clusters := (debit s c w agent).clusters, dev := (debit s c w agent).dev, fresh := (debit s c w agent).fresh } := by
  unfold Machine.debit
  extract_lets s1
  simp only [State.putCluster, s1]
  rw [rollWindow_eq]
  rfl

theorem noteGrant_eq (s : State) (c : Nat) (mma : Bool) : noteGrant s c mma = { s with clusters := (noteGrant s c mma).clusters } := rfl

/-- An operation of a stream, of weight p, has its allowance. -/
theorem meter_free {s : State} {c p rank : Nat} (h : p = 0 ∨ rank = 64 ∨ allowed s c p rank = true) :
    ∃ s1, (if p = 0 then .ok s else meter s c p rank (decide (rank = 64))) = (.ok s1 : Except State State) ∧
      s1 = { s with clusters := s1.clusters, dev := s1.dev, fresh := s1.fresh } := by
  split
  · exact ⟨s, rfl, rfl⟩
  · next hp =>
    refine ⟨debit s c p (decide (rank = 64)), ?_, debit_eq _ _ _ _⟩
    rw [meter, if_pos (by simpa using h.resolve_left hp)]

theorem meter_short {s : State} {c p rank : Nat} (hp : p ≠ 0) (hr : rank ≠ 64) (h : allowed s c p rank = false) :
    (if p = 0 then .ok s else meter s c p rank (decide (rank = 64))) = (.error (markWithheld s c) : Except State State) := by
  rw [if_neg hp, meter, if_neg (by simp [hr, h])]

end Sys2Proof.Machine
end

section
/-! PROOFS. StepRunsDecodedInstruction: what a turn does (R61, R102, R233, R234, R317, R318, R335; log entry 3). -/

namespace Sys2Proof.Machine

/-! ### The turn that the agenda names -/

section
variable {s s1 : State} {d : Nat} {a : Act} {rest : List Turn} {i : Instr}

theorem step_runs (h : s.agenda = { dt := d, act := a } :: rest)
    (hc : choose { s with agenda := rest, ns := s.ns + d } a = .ok (i, s1)) : step s = exec i s1 := by
  simp only [Machine.step, nextTurn, h, hc]

theorem step_rests (h : s.agenda = { dt := d, act := a } :: rest)
    (hc : choose { s with agenda := rest, ns := s.ns + d } a = .error s1) : step s = .next s1 := by
  simp only [Machine.step, nextTurn, h, hc]

theorem choose_word (h : encode i ≠ []) : choose s (.event i) = .error s := by
  simp [Machine.choose, h]

theorem choose_deviceStep (h : encode i = []) (hs : s.heatStop = false ∨ i = .deviceReset) : choose s (.event i) = .ok (i, s) := by
  have acts : ¬ (s.heatStop = true ∧ i ≠ .deviceReset) := fun ⟨hot, hi⟩ => hs.elim (by simp [hot]) hi
  simp only [Machine.choose, h, List.isEmpty_nil, Bool.not_true, Bool.false_eq_true, if_false]
  rw [if_neg acts]

theorem choose_heatStop (hs : s.heatStop = true) (ha : ∀ i, a = .event i → i ≠ .deviceReset) : choose s a = .error s := by
  cases a with
  | event i => simp [Machine.choose, hs, ha i rfl]
  | _ => simp [Machine.choose, hs]

/-- A turn that is no word and no device step. -/
def isOther : Act → Bool
  | .event _ | .issue _ | .stream _ => false
  | _ => true

theorem choose_other (hs : s.heatStop = false) (ha : isOther a = true) : choose s a = .error (otherTurn s a) := by
  cases a with
  | event _ => cases ha
  | issue _ => cases ha
  | stream _ => cases ha
  | _ => simp [Machine.choose, hs]

theorem step_other (hs : s.heatStop = false) (h : s.agenda = { dt := d, act := a } :: rest) (ha : isOther a = true) :
    step s = .next (otherTurn { s with agenda := rest, ns := s.ns + d } a) :=
  step_rests h (choose_other hs ha)

end

/-! ### The parts of a stream's operation (R183, R193) -/

section
variable {s : State} {k i g : Nat} {x : Stream} {o : StreamOp} {m : StreamMem} {p : Nat × Nat} {l : List (Nat × Nat)}

theorem partTurn_idle (hx : s.stream k = some x) (h : x.admitted = false ∨ streamRuns s x = false) : partTurn s k i = s := by
  have idle : ¬ (x.admitted = true ∧ streamRuns s x = true) := by grind
  simp only [Machine.partTurn, hx]
  rw [if_neg idle]

/-- Some of the parts that are left are performed, in their order. -/
theorem somePart_eq (hx : s.stream k = some x) (ho : x.inflight[i]? = some o) (hm : o.mem = some m) :
    ∃ l, l.Sublist m.left ∧ somePart s k i = performParts k i l s.bump := by
  refine ⟨m.left.filter fun p => Config.pick s.fresh (256 * p.1 + p.2) % 2 == 0, List.filter_sublist, ?_⟩
  simp [Machine.somePart, hx, ho, hm]

theorem partTurn_performs (hx : s.stream k = some x) (ha : x.admitted = true) (hr : streamRuns s x = true)
    (ho : x.inflight[i]? = some o) (hm : o.mem = some m) : ∃ l, l.Sublist m.left ∧
      let r := performParts k i l s.bump
      (∀ g, r.1 = some g → partTurn s k i = settle (failCheck r.2 k g)) ∧ (r.1 = none → partTurn s k i = r.2) := by
  obtain ⟨l, sub, eq⟩ := somePart_eq hx ho hm
  refine ⟨l, sub, fun g hg => ?_, fun hn => ?_⟩
  all_goals
    simp only [Machine.partTurn, hx]
    rw [if_pos ⟨ha, hr⟩, eq, ← Prod.mk.eta (p := performParts ..)]
  · rw [hg]
  · rw [hn]

theorem mayPart_iff : (∃ m, o.mem = some m ∧ x.mayPart i o m p = true) ↔ (o.mem.any fun m => x.mayPart i o m p) = true := by
  cases o.mem <;> simp

theorem performParts_skip (hx : s.stream k = some x) (ho : x.inflight[i]? = some o)
    (h : ¬ ∃ m, o.mem = some m ∧ x.mayPart i o m p = true) : performParts k i (p :: l) s = performParts k i l s := by
  rw [mayPart_iff] at h
  rw [performParts]
  simp only [hx, ho]
  rw [if_neg h]

theorem performParts_perform (hx : s.stream k = some x) (ho : x.inflight[i]? = some o)
    (h : ∃ m, o.mem = some m ∧ x.mayPart i o m p = true) :
    let r := performPart s k i p
    (∀ g, r.1 = some g → performParts k i (p :: l) s = r) ∧
    (r.1 = none → performParts k i (p :: l) s = performParts k i l r.2) := by
  rw [mayPart_iff] at h
  rw [performParts]
  simp only [hx, ho]
  rw [if_pos h, ← Prod.mk.eta (p := performPart ..)]
  exact ⟨fun g hg => by rw [hg], fun hn => by rw [hn]⟩

end

/-! ### A team's word -/

section
variable {s : State} {u : Nat} {t : Team} {c : Clause} {w : Word} {i : Instr}

section
variable (ht : s.team u = some t) (hc : t.clause = some c)
include ht hc

theorem teamIssue_notReady (h : teamReady s t c = false) : teamIssue s u = .error s := by
  simp [Machine.teamIssue, ht, hc, h]

theorem teamIssue_undecoded (h : teamReady s t c = true) (hw : c.words[t.slot]? = some w) {e : Reject}
    (hd : decodeWords w ((c.words[t.slot + 1]?).getD 0) = .error e) :
    teamIssue s u = .error (takeTrap s u 1 c.addr (t.slot + 1) 0 false 0) := by
  simp only [Machine.teamIssue, ht, hc, wordAt, hw, hd]
  rw [if_pos h]

theorem teamIssue_decoded (h : teamReady s t c = true) (hw : c.words[t.slot]? = some w)
    (hd : decodeWords w ((c.words[t.slot + 1]?).getD 0) = .ok i) (s1 : State) :
    (prepareIssue s u t c w i = .ok s1 → teamIssue s u = .ok (i, s1)) ∧
    (prepareIssue s u t c w i = .error s1 → teamIssue s u = .error s1) := by
  simp only [Machine.teamIssue, ht, hc, wordAt, hw, hd]
  rw [if_pos h]
  exact ⟨fun e => by rw [e], fun e => by rw [e]⟩

end

/-- The team as it issues a word of clause c: its clause has started, and its park is over. -/
def Team.issuing (t : Team) (c : Clause) (now : Nat) : Team :=
  { t with clause := some { c with started := true }, park := .none, issueAt := now }

theorem prepareIssue_withheld (h : withheld s t (wordWeight t w) = true) :
    prepareIssue s u t c w i = .error (markWithheld s (teamCore s t / 4)) := by
  unfold Machine.prepareIssue
  exact if_pos h

/-- What stands when the registers and passes of a word are stamped and refilled. -/
theorem prepareIssue_allowed (h : withheld s t (wordWeight t w) = false) : prepareIssue s u t c w i =
    let s1 := touchState s u (t.issuing c (clockTenths s (teamCore s t / 4))) (touched s.fresh t i) (touchedPasses s.fresh t w i)
    if ((s1.clauseOf u).isSome) then .ok (debit { s1 with cur := u } (teamCore s t / 4) (wordWeight t w) t.agent) else .error s1 := by
  unfold Machine.prepareIssue
  extract_lets cl n t' s1
  rw [if_neg (by simp [n, h])]
  simp only [State.clauseOf]
  have held : (((s1.team u).map fun x => x.clause.isSome).getD false) = ((s1.team u).bind fun t => t.clause).isSome := by
    cases s1.team u <;> rfl
  rw [held]
  rfl

/-- A team of which nothing is evicted issues its word. -/
theorem prepareIssue_resident (h : withheld s t (wordWeight t w) = false) (he : t.evicted = []) (hp : t.passOut = []) :
    ∃ s1 t1, prepareIssue s u t c w i = .ok s1 ∧ s1.cur = u ∧ s1.team u = some t1 ∧ (∀ v, v ≠ u → s1.team v = s.team v) ∧
      t1 = { t.issuing c (clockTenths s (teamCore s t / 4)) with stamps := t1.stamps } ∧
      s1 = { s with teams := s1.teams, clusters := s1.clusters, dev := s1.dev, fresh := s1.fresh, cur := u } := by
  rw [prepareIssue_allowed h, touchState_resident s u _ _ (by exact he) (by exact hp)]
  extract_lets s1
  refine ⟨debit { s1 with cur := u } (teamCore s t / 4) (wordWeight t w) t.agent,
    (t.issuing c (clockTenths s (teamCore s t / 4))).stamped (touched s.fresh t i),
    if_pos (by rw [State.clauseOf_putTeam]; rfl), ?_⟩
  rw [debit_eq]
  exact ⟨rfl, State.team_putTeam_same _ _ _, fun v hv => State.team_putTeam_other _ _ hv, rfl, rfl⟩

/-- A team issues its word with its registers refilled, or a refill has stopped it. -/
theorem prepareIssue_refills (h : withheld s t (wordWeight t w) = false) :
    (∃ s1 t1, prepareIssue s u t c w i = .ok s1 ∧ s1.cur = u ∧ s1.team u = some t1 ∧ (∀ v, v ≠ u → s1.team v = s.team v) ∧
      t1 = { t.issuing c (clockTenths s (teamCore s t / 4)) with
              stamps := t1.stamps, evicted := t1.evicted, passOut := t1.passOut, spill := t1.spill } ∧
      s1.scratch = s.scratch ∧ s1.host = s.host ∧ s1.wgs = s.wgs ∧ s1.launches = s.launches) ∨
    ∃ s1, prepareIssue s u t c w i = .error s1 ∧ s1.clauseOf u = none := by
  rw [prepareIssue_allowed h]
  extract_lets s1
  obtain ⟨⟨t1, ht, same⟩, others, side⟩ | stopped := touchState_refills s u
    (t.issuing c (clockTenths s (teamCore s t / 4))) (touched s.fresh t i) (touchedPasses s.fresh t w i)
  · unfold Team.SameButEvicted at same
    refine .inl ⟨_, t1, if_pos ?_, ?_⟩
    · rw [State.clauseOf, ht, same]; rfl
    rw [debit_eq]
    refine ⟨rfl, ht, others, ?_, ?_⟩
    · rw [same]; rfl
    · unfold MemSide at side
      dsimp only [s1]
      rw [side]
      exact ⟨rfl, rfl, rfl, rfl⟩
  · exact .inr ⟨s1, if_neg (by rw [stopped]; simp), stopped⟩

end

/-! ### A stream's word -/

/-- NOP fills one slot (R67, R422). -/
theorem wordLen_of_nop {w x : Word} (h : decodeWords w x = .ok .nop) : wordLen w = 1 := by
  have spelled := Laws.Decodes.spells_decodeFields w x .nop (Laws.Decodes.decodeWords_ok h).1
  unfold wordLen
  cases hw : hasExt w with
  | false => rfl
  | true =>
    rw [hw] at spelled
    exact absurd (congrArg List.length spelled) (by simp [encode])

section
variable {s : State} {k : Nat} {x : Stream} {c : Clause} {w : Word} {i : Instr}

/-- The stream as it issues a word of clause c, which has started. -/
def Stream.issuing (x : Stream) (c : Clause) : Stream := { x with clause := some { c with started := true } }

/-- A stream waits with a clause whose WAIT names bit 7, and that has not started, for its operations (R61, R233). -/
def Stream.waits (x : Stream) (c : Clause) : Prop :=
  c.started = false ∧ (hdrWait c.hdr).testBit 7 = true ∧ x.inflight ≠ []

theorem waits_iff : (!c.started ∧ (hdrWait c.hdr).testBit 7 ∧ !x.inflight.isEmpty) ↔ x.waits c := by
  simp [Stream.waits]

variable (hx : s.stream k = some x) (hc : x.clause = some c)
include hx hc

theorem streamIssue_idle (h : x.admitted = false ∨ streamRuns s x = false ∨ x.waits c) : streamIssue s k = .error s := by
  simp only [Machine.streamIssue, hx, hc]
  rw [if_pos]
  rwa [waits_iff, Bool.not_eq_true', Bool.not_eq_true']

variable (ha : x.admitted = true) (hr : streamRuns s x = true) (hw : ¬ x.waits c) (h : c.words[x.slot]? = some w)
  (hd : decodeWords w ((c.words[x.slot + 1]?).getD 0) = .ok i)
include ha hr hw h hd

/-- A stream that acts: its word is a NOP, or is held back by the engine, or is metered. -/
theorem streamIssue_acts : streamIssue s k =
    if i = .nop then .error (goStream s k (x.issuing c) c (wordLen w))
    else if isEngineOp i && (!engineGrants s k x || (isMma i && riseHolds s x.cluster)) then .error s
    else
      match (if streamWeight x i = 0 then .ok s else meter s x.cluster (streamWeight x i) x.rank (decide (x.rank = 64))) with
      | .error s => .error s
      | .ok s =>
        .ok (i, { (if isEngineOp i then noteGrant s x.cluster (isMma i) else s).putStream k (x.issuing c) with curStream := k }) := by
  simp only [Machine.streamIssue, hx, hc]
  rw [if_neg (by rw [waits_iff]; simp [ha, hr, hw])]
  simp only [wordAt, h, hd]
  rfl

theorem streamIssue_nop (hi : i = .nop) : streamIssue s k = .error (goStream s k (x.issuing c) c 1) := by
  subst hi
  rw [streamIssue_acts hx hc ha hr hw h hd, if_pos rfl, wordLen_of_nop hd]

theorem streamIssue_engineHeld (he : isEngineOp i = true)
    (hf : ¬ (engineGrants s k x = true ∧ ¬ (isMma i = true ∧ riseHolds s x.cluster = true))) : streamIssue s k = .error s := by
  have word : i ≠ .nop := by rintro rfl; cases he
  rw [streamIssue_acts hx hc ha hr hw h hd, if_neg word, if_pos]
  rw [he, Bool.true_and, Bool.or_eq_true, Bool.and_eq_true, Bool.not_eq_true']
  grind

variable (word : i ≠ .nop)
  (free : isEngineOp i = false ∨ engineGrants s k x = true ∧ ¬ (isMma i = true ∧ riseHolds s x.cluster = true))
include word free

theorem streamIssue_metered : streamIssue s k =
    match (if streamWeight x i = 0 then .ok s else meter s x.cluster (streamWeight x i) x.rank (decide (x.rank = 64))) with
    | .error s => .error s
    | .ok s =>
      .ok (i, { (if isEngineOp i then noteGrant s x.cluster (isMma i) else s).putStream k (x.issuing c) with curStream := k }) := by
  rw [streamIssue_acts hx hc ha hr hw h hd, if_neg word, if_neg]
  grind

theorem streamIssue_withheld (hp : streamWeight x i ≠ 0) (hk : x.rank ≠ 64)
    (short : allowed s x.cluster (streamWeight x i) x.rank = false) :
    streamIssue s k = .error (markWithheld s x.cluster) := by
  rw [streamIssue_metered hx hc ha hr hw h hd word free, meter_short hp hk short]

theorem streamIssue_issues
    (hp : streamWeight x i = 0 ∨ x.rank = 64 ∨ allowed s x.cluster (streamWeight x i) x.rank = true) :
    ∃ s1, streamIssue s k = .ok (i, s1) ∧ s1.curStream = k ∧ s1.stream k = some (x.issuing c) ∧
      (∀ j, j ≠ k → s1.stream j = s.stream j) ∧
      s1 = { s with streams := s1.streams, clusters := s1.clusters, dev := s1.dev, fresh := s1.fresh, curStream := k } := by
  obtain ⟨s1, metered, eq⟩ := meter_free hp
  rw [streamIssue_metered hx hc ha hr hw h hd word free, metered]
  refine ⟨_, rfl, rfl, State.stream_putStream_same _ _ _, fun j hj => ?_, ?_⟩
  · refine (State.stream_putStream_other _ _ hj).trans ?_
    split <;> rw [eq] <;> rfl
  · split <;> rw [eq] <;> rfl

end

/-! ### The statements -/

theorem stepRunsStreamWord : Claims.StepRunsStreamWord := by
  intro s d k rest x c w i
  extract_lets at_ x1 p waits
  intro hot turn hx hc
  have chosen : choose at_ (.stream k) = streamIssue at_ k := by simp [Machine.choose, at_, hot]
  have at_x : at_.stream k = some x := hx
  refine ⟨fun idle => step_rests turn (chosen.trans (streamIssue_idle at_x hc idle)), fun ha hr hw h hd => ?_⟩
  refine ⟨fun hi => step_rests turn (chosen.trans (streamIssue_nop at_x hc ha hr hw h hd hi)), fun he hf => ?_,
    fun word free => ⟨fun hp hk short => ?_, fun hp => ?_⟩⟩
  · exact step_rests turn (chosen.trans (streamIssue_engineHeld at_x hc ha hr hw h hd he hf))
  · exact step_rests turn (chosen.trans (streamIssue_withheld at_x hc ha hr hw h hd word free hp hk short))
  · obtain ⟨s1, issued, rest⟩ := streamIssue_issues at_x hc ha hr hw h hd word free hp
    exact ⟨s1, step_runs turn (chosen.trans issued), rest⟩

/-- A team's turn. -/
theorem step_issue {s : State} {d u : Nat} {rest : List Turn} {t : Team} {c : Clause} :
    let at_ : State := { s with agenda := rest, ns := s.ns + d }
    s.heatStop = false → s.agenda = { dt := d, act := .issue u } :: rest → s.team u = some t → t.clause = some c →
    (teamReady at_ t c = false → step s = .next at_) ∧
    (teamReady at_ t c = true → ∀ w, c.words[t.slot]? = some w →
      (∀ e, decodeWords w ((c.words[t.slot + 1]?).getD 0) = .error e →
        step s = .next (takeTrap at_ u 1 c.addr (t.slot + 1) 0 false 0)) ∧
      ∀ i, decodeWords w ((c.words[t.slot + 1]?).getD 0) = .ok i →
        (∀ s1, prepareIssue at_ u t c w i = .ok s1 → step s = exec i s1) ∧
        ∀ s1, prepareIssue at_ u t c w i = .error s1 → step s = .next s1) := by
  intro at_ hot turn ht hc
  have chosen : choose at_ (.issue u) = teamIssue at_ u := by simp [Machine.choose, at_, hot]
  have at_t : at_.team u = some t := ht
  refine ⟨fun h => step_rests turn (chosen.trans (teamIssue_notReady at_t hc h)), fun h w hw => ?_⟩
  refine ⟨fun e hd => step_rests turn (chosen.trans (teamIssue_undecoded at_t hc h hw hd)), fun i hd => ?_⟩
  have issue := teamIssue_decoded at_t hc h hw hd
  exact ⟨fun s1 e => step_runs turn (chosen.trans ((issue s1).1 e)), fun s1 e => step_rests turn (chosen.trans ((issue s1).2 e))⟩

theorem stepRunsTurn : Claims.StepRunsDecodedInstruction := by
  intro s d rest
  extract_lets at_
  refine ⟨fun i turn => ⟨fun h => ?_, fun h hs => ?_, fun hot h => ?_⟩, fun a ha turn hot => ?_, fun hot => ?_,
    fun u k hot turn => ?_, fun k i x o m hot turn => ?_, fun k i p l x o hx ho => ?_, fun u t c hot turn ht hc => ?_⟩
  · exact step_rests turn (choose_word h)
  · exact step_runs turn (choose_deviceStep h hs)
  · exact step_rests turn (choose_heatStop hot fun j e => by cases e; exact h)
  · exact step_rests turn (choose_heatStop hot fun j e => absurd e (ha j))
  · refine ⟨fun u k turn => step_other hot turn rfl, fun t turn => step_other hot turn rfl, fun turn => step_other hot turn rfl,
      fun b l turn => step_other hot turn rfl, fun fn low off n turn => ?_⟩
    rw [step_other hot turn rfl, otherTurn, if_pos low]
  · exact ⟨step_other hot turn rfl, StoreSide.drainOne at_ u k⟩
  · have parts : step s = .next (partTurn at_ k i) := step_other hot turn rfl
    refine ⟨fun hx idle => by rw [parts, partTurn_idle (s := at_) hx idle], fun hx ha hr ho hm => ?_⟩
    obtain ⟨l, sub, fails, passes⟩ := partTurn_performs (s := at_) hx ha hr ho hm
    exact ⟨l, sub, fun g hg => by rw [parts, fails g hg], fun hn => by rw [parts, passes hn]⟩
  · exact ⟨performParts_skip hx ho, performParts_perform hx ho⟩
  · obtain ⟨rests, acts⟩ := step_issue hot turn ht hc
    refine ⟨rests, fun ready w hw => ⟨(acts ready w hw).1, fun i hd => ?_⟩⟩
    obtain ⟨issues, stays⟩ := (acts ready w hw).2 i hd
    refine ⟨fun h => stays _ (prepareIssue_withheld h), fun h he hp => ?_, fun h => ?_⟩
    · obtain ⟨s1, t1, issued, frame⟩ := prepareIssue_resident h he hp
      exact ⟨s1, t1, issues s1 issued, frame⟩
    · obtain ⟨s1, t1, issued, frame⟩ | ⟨s1, stopped, gone⟩ := prepareIssue_refills (u := u) (i := i) (c := c) h
      · exact .inl ⟨s1, t1, issues s1 issued, frame⟩
      · refine .inr ⟨?_, s1, stays s1 stopped, (State.clauseOf_none_iff _ _).1 gone⟩
        by_contra whole
        obtain ⟨he, hp⟩ : t.evicted = [] ∧ t.passOut = [] := by simpa [not_or] using whole
        obtain ⟨s2, -, issued, -⟩ := prepareIssue_resident (u := u) (i := i) (c := c) h he hp
        rw [stopped] at issued
        cases issued

/-- Settles O56: the agenda's turn, its word or device step, and what stands beside a team's and a stream's word. -/
theorem stepRunsDecodedInstruction : Obligations.StepRunsDecodedInstruction := ⟨stepRunsTurn, stepRunsStreamWord⟩

end Sys2Proof.Machine
end

section
/-! PROOFS. TeamStart and TrapEntry: the state in which a team starts (R95, R225), and the trap that its handler takes (R107). -/

namespace Sys2Proof.Machine

/-! ### A team that starts -/

/-- Every lane's first pair of registers holds a start argument, and nothing else of the register file is written. -/
theorem startTeam_reg (x : Launch) (lid g i lanes nregs window : Nat) (entry args : DWord) (wgid : Word) (order : Nat)
    (agent : Bool) (hl : lanes ≤ 1024) {l : Nat} (h : l < lanes) :
    let t := startTeam x lid g i lanes nregs window entry args wgid order agent
    t.reg 0 l = args.extractLsb' 0 32 ∧ t.reg 1 l = args.extractLsb' 32 32 ∧ ∀ r, 2 ≤ r → t.reg r l = 0 := by
  intro t
  have hl' : l ∈ List.range lanes := List.mem_range.2 h
  refine ⟨?_, ?_, fun r hr => ?_⟩
  · refine fget_fsets_flatMap zeroWord (k1 := regKey 0) (k2 := regKey 1) hl' (fun j e => regKey_inj_lane _ e)
      (fun i => by simp only [regKey]; omega) ?_
    exact List.pairwise_lt_range.imp fun {i j} h => by simp only [regKey]; omega
  · refine fget_fsets_flatMap' zeroWord (k1 := regKey 0) (k2 := regKey 1) hl' (fun j _ e => regKey_inj_lane _ e)
      fun j hj e => ?_
    have below := List.mem_range.1 hj
    simp only [regKey] at e
    omega
  · refine fget_fsets_notin zeroWord fun e he => ?_
    obtain ⟨j, hj, he⟩ := List.mem_flatMap.1 he
    have below := List.mem_range.1 hj
    simp only [regKey, List.mem_cons, List.not_mem_nil, or_false] at he ⊢
    obtain rfl | rfl := he <;> dsimp only <;> omega

/-- Every lane's generator starts as R225 seeds it. -/
theorem startTeam_gen (x : Launch) (lid g i lanes nregs window : Nat) (entry args : DWord) (wgid : Word) (order : Nat)
    (agent : Bool) {l : Nat} (h : l < lanes) :
    (startTeam x lid g i lanes nregs window entry args wgid order agent).gen l = startSr x.seed wgid i l :=
  (fget_fsets_range zeroWord lanes [] (startSr x.seed wgid i) l).trans (if_pos h)

/-- Where every counter is 0, every lane is active (R124). -/
theorem Team.mem_activeLanes_of_zero {t : Team} (h : ∀ l, t.depth l = 0) (l : Nat) : l ∈ t.activeLanes ↔ l < t.lanes := by
  simp [Team.activeLanes, Team.active, h]

/-- Settles O39: the registers and the generators by what the start writes of them, the rest as the start state has it. -/
theorem teamStart : Obligations.TeamStart := by
  unfold Obligations.TeamStart
  intro x lid g i lanes nregs window order entry args wgid agent hl t
  refine ⟨fun l h => startTeam_reg x lid g i lanes nregs window entry args wgid order agent hl h,
    Team.mem_activeLanes_of_zero fun _ => rfl, fun _ => ⟨rfl, rfl⟩,
    fun l h => startTeam_gen x lid g i lanes nregs window entry args wgid order agent h, fun _ => rfl, ?_⟩
  repeat' constructor

/-! ### A trap that a handler takes -/

section
variable {s : State} {t : Team} {u : Nat} (ht : s.team u = some t)
include ht

theorem takeTrap_enters (hh : t.inHandler = false) (hv : t.trapvec ≠ 0) (cause slot detail : Nat) (tpc addr : DWord)
    (async_ : Bool) : takeTrap s u cause tpc slot addr async_ detail =
      s.putTeam u (t.trapRegs cause tpc slot addr async_ detail).enterHandler := by
  rw [takeTrap, ht]
  exact if_neg fun h => h.elim (fun h => by simp [hh] at h) hv

/-- A trap with no handler, or inside one, stops the team and fails its launch. -/
theorem takeTrap_stops (ha : t.agent = false) (h : t.inHandler = true ∨ t.trapvec = 0) (cause slot detail : Nat)
    (tpc addr : DWord) (async_ : Bool) : takeTrap s u cause tpc slot addr async_ detail =
      failLaunch (teamLeaves (s.putTeam u (t.trapRegs cause tpc slot addr async_ detail)) u .stopped) t.launch 1 t.inHandler
        cause (((s.wg t.wg).map fun w => w.wgid).getD 0) := by
  rw [takeTrap, ht]
  exact (if_pos h).trans (if_neg (by simp [ha]))

end

theorem tinfoWord_eq {slot detail : Nat} (async_ : Bool) (hs : slot < 16) (hd : detail < 2 ^ 16) :
    tinfoWord slot async_ detail = BitVec.ofNat 32 (slot + 2 ^ 8 * async_.toNat + 2 ^ 16 * detail) := by
  have hd' : detail % 65536 = detail := Nat.mod_eq_of_lt hd
  rw [tinfoWord, Nat.mod_eq_of_lt hs, hd']
  congr 1
  omega

/-- Settles O11: the handler is entered with the trap registers written, and the team alone has changed. -/
theorem trapEntry : Obligations.TrapEntry := by
  unfold Obligations.TrapEntry
  intro s t u cause slot detail tpc addr async_ ht hh hv hs hd
  exact ⟨_, takeTrap_enters ht hh hv cause slot detail tpc addr async_, rfl, rfl, rfl, tinfoWord_eq async_ hs hd, rfl, rfl,
    fun _ => ⟨rfl, rfl⟩, Team.mem_activeLanes_of_zero fun _ => rfl, rfl, rfl, rfl⟩

end Sys2Proof.Machine
end

section
/-! PROOFS. What the work that an end, a stop or a cancel brings about leaves of teams and launches (R105, R202, R206 to R211,
R234, R240): an answer at a barrier gives values to results that are outstanding; copies and streams that stop write the stores
of teams; no launch changes until the cancelled one is looked at. -/

namespace Sys2Proof.Machine

/-! ### Answers at barriers (R206 to R211) -/

/-- t' is t but for the values of results that are outstanding. -/
def Team.Answered (t t' : Team) : Prop := t' = { t with pend := t'.pend } ∧ t'.pend.map Pending.bare = t.pend.map Pending.bare

/-- Barriers have been arrived at or invalidated, and collectives left: workgroups, copies and streams note it, and teams have
their answers. -/
def Answers (s s' : State) : Prop :=
  s' = { s with teams := s'.teams, wgs := s'.wgs, copies := s'.copies, streams := s'.streams } ∧
  ∀ u t, s.team u = some t → ∃ t', s'.team u = some t' ∧ t.Answered t'

theorem Team.Answered.refl (t : Team) : t.Answered t := ⟨rfl, rfl⟩

theorem Team.Answered.trans {a b c : Team} (h : a.Answered b) (h' : b.Answered c) : a.Answered c :=
  ⟨by rw [h'.1, h.1], h'.2.trans h.2⟩

theorem Team.Answered.nothing {t t' : Team} (h : t.Answered t') (hp : t.pend = []) : t' = t := by
  have none : t'.pend = [] := by simpa [hp] using h.2
  rw [h.1, none, ← hp]

namespace Answers

variable {s s' s'' : State}

theorem refl (s : State) : Answers s s := ⟨rfl, fun _ t h => ⟨t, h, .refl t⟩⟩

theorem trans (h : Answers s s') (h' : Answers s' s'') : Answers s s'' := by
  obtain ⟨e, teams⟩ := h
  obtain ⟨e', teams'⟩ := h'
  refine ⟨by rw [e', e], fun u t ht => ?_⟩
  obtain ⟨t1, ht1, one⟩ := teams u t ht
  obtain ⟨t2, ht2, two⟩ := teams' u t1 ht1
  exact ⟨t2, ht2, one.trans two⟩

theorem foldl {α : Type} {f : State → α → State} (hf : ∀ s x, Answers s (f s x)) (l : List α) (s : State) :
    Answers s (l.foldl f s) :=
  foldl_keeps (fun r => Answers s r) f (fun _ _ h => h.trans (hf _ _)) l s (refl s)

/-- Only workgroups, copies and streams change. -/
theorem of_eq (h : s' = { s with wgs := s'.wgs, copies := s'.copies, streams := s'.streams }) : Answers s s' := by
  have teams : s'.teams = s.teams := by rw [h]
  refine ⟨by rw [teams]; exact h, fun u t ht => ⟨t, ?_, .refl t⟩⟩
  rw [State.team, teams]
  exact ht

theorem fillResult (s : State) (u word : Nat) (v : Word) : Answers s (fillResult s u word v) := by
  unfold Machine.fillResult
  cases ht : s.team u with
  | none => exact refl s
  | some t =>
    refine ⟨rfl, fun w x hx => ?_⟩
    by_cases e : w = u
    · subst e
      obtain rfl : t = x := by rw [ht] at hx; exact Option.some.inj hx
      refine ⟨_, State.team_putTeam_same _ _ _, rfl, ?_⟩
      rw [List.map_map]
      refine List.map_congr_left fun p _ => ?_
      dsimp only [Function.comp]
      split <;> rfl
    · exact ⟨x, (State.team_putTeam_other _ _ e).trans hx, .refl x⟩

theorem wake (s : State) (ws : List Waiter) (v : Waiter → Word) : Answers s (wake s ws v) := by
  unfold Machine.wake
  exact foldl (fun s (w : Waiter) => fillResult s w.team w.word (v w)) ws s

theorem arrive (s : State) (g k : Nat) (team : Option Nat) (err : Option (Nat × Nat)) :
    Answers s (arrive s g k team err) := by
  unfold Machine.arrive
  split
  · exact refl s
  · dsimp only
    split
    · exact refl s
    · split
      · refine trans ?_ (wake _ _ _)
        exact of_eq rfl
      · exact of_eq rfl

theorem detach (s : State) (g k c : Nat) : Answers s (detach s g k c) := by
  unfold Machine.detach
  split
  · exact refl s
  · exact of_eq rfl

theorem releaseMwait (s : State) (w : Workgroup) (k : Nat) : Answers s (releaseMwait s w k) := by
  unfold Machine.releaseMwait
  repeat' split
  all_goals exact of_eq rfl

theorem detachCopy (s : State) (c : Nat) :
    Answers s (match s.copy c with | some x => s.putCopy c { x with attached := false } | none => s) := by
  split
  · exact of_eq rfl
  · exact refl s

theorem invalidate (s : State) (g k : Nat) : Answers s (invalidate s g k) := by
  unfold Machine.invalidate
  split
  · exact refl s
  · dsimp only
    refine ((trans (of_eq ?_) (foldl detachCopy _ _)).trans (releaseMwait _ _ k)).trans (wake _ _ _)
    rfl

theorem invalidateAll (s : State) (g : Nat) : Answers s (invalidateAll s g) :=
  foldl (fun s k => invalidate s g k) _ s

theorem leaveColls (s : State) (g joined : Nat) : Answers s (leaveColls s g joined) := by
  unfold Machine.leaveColls
  split
  · exact refl s
  · dsimp only
    refine trans (of_eq ?_) (foldl (fun s c => ?_) _ _)
    · rfl
    · split
      · have apart := foldl (fun s (y : Slice) => detach s g y.nb y.uid) c.slices s
        split
        · exact apart.trans (arrive _ _ _ _ _)
        · exact apart
      · exact refl _

end Answers

/-! ### Copies, streams and notices that go on beside the words -/

/-- t' is t but for its window, its stores and loads, the values that are to land, and its notice of a cancel. -/
def Team.SameBeside (t t' : Team) : Prop :=
  t' = { t with frame := t'.frame, frameBad := t'.frameBad, refs := t'.refs, stores := t'.stores, loads := t'.loads
                pend := t'.pend, noticeCancel := t'.noticeCancel }

/-- Every launch of s' is as in s, and every team of s is there but for what goes on beside its words. -/
def KeepsUnits (s s' : State) : Prop :=
  s'.launches = s.launches ∧ ∀ u t, s.team u = some t → ∃ t', s'.team u = some t' ∧ t.SameBeside t'

theorem Team.SameBeside.refl (t : Team) : t.SameBeside t := rfl

theorem Team.SameBeside.trans {a b c : Team} (h : a.SameBeside b) (h' : b.SameBeside c) : a.SameBeside c := by
  unfold Team.SameBeside at *
  rw [h', h]

namespace KeepsUnits

variable {s s' s'' : State}

theorem refl (s : State) : KeepsUnits s s := ⟨rfl, fun _ t h => ⟨t, h, .refl t⟩⟩

theorem trans (h : KeepsUnits s s') (h' : KeepsUnits s' s'') : KeepsUnits s s'' := by
  obtain ⟨e, teams⟩ := h
  obtain ⟨e', teams'⟩ := h'
  refine ⟨e'.trans e, fun u t ht => ?_⟩
  obtain ⟨t1, ht1, one⟩ := teams u t ht
  obtain ⟨t2, ht2, two⟩ := teams' u t1 ht1
  exact ⟨t2, ht2, one.trans two⟩

theorem foldl {α : Type} {f : State → α → State} (hf : ∀ s x, KeepsUnits s (f s x)) (l : List α) (s : State) :
    KeepsUnits s (l.foldl f s) :=
  foldl_keeps (fun r => KeepsUnits s r) f (fun _ _ h => h.trans (hf _ _)) l s (refl s)

theorem of_eq (ht : s'.teams = s.teams) (hl : s'.launches = s.launches) : KeepsUnits s s' :=
  ⟨hl, fun u t h => ⟨t, by rw [State.team, ht]; exact h, .refl t⟩⟩

theorem of_memSide (h : MemSide s s') : KeepsUnits s s' := of_eq h.teams h.launches

theorem of_storeSide (h : StoreSide s s') : KeepsUnits s s' := by
  refine ⟨by rw [h.1], fun u t ht => ?_⟩
  obtain ⟨t', ht', same, -⟩ := h.team ht
  refine ⟨t', ht', ?_⟩
  unfold Team.SameBeside
  rw [same]

theorem of_answers (h : Answers s s') : KeepsUnits s s' := by
  refine ⟨by rw [h.1], fun u t ht => ?_⟩
  obtain ⟨t', ht', same, -⟩ := h.2 u t ht
  refine ⟨t', ht', ?_⟩
  unfold Team.SameBeside
  rw [same]

/-! ### The tiles of a copy (R168 to R176, R201, R202) -/

theorem logGranules (s : State) (r : Requester) (l : List Nat) : KeepsUnits s (logGranules s r l) := by
  unfold Machine.logGranules
  exact foldl (fun s g => of_memSide (MemSide.checkLog s r.part g)) l s

theorem pageReadBut (logged : List Nat) (s : State) (r : Requester) (p : Pte) (pa n : Nat) :
    KeepsUnits s (pageReadBut logged s r p pa n).2.2 := by
  unfold Machine.pageReadBut
  split
  · exact of_memSide (MemSide.sealRead s p.key 0 pa n)
  · exact refl s
  · split
    · exact logGranules _ _ _
    · exact refl s

theorem pageWrite (s : State) (r : Requester) (p : Pte) (k pa : Nat) (l : List Byte) :
    KeepsUnits s (pageWrite s r p k pa l).2 := by
  unfold Machine.pageWrite
  split
  · exact of_memSide (MemSide.sealWrite s k 1 pa l)
  · exact of_eq rfl rfl
  · split
    · exact of_storeSide (StoreSide.placeWrite _ _ _ _ _)
    · exact logGranules _ _ _

theorem part (x : LateTile) (s : State) (c : Copy) (p : Bool × Nat × Nat) : KeepsUnits s (x.part s c p).2 := by
  unfold LateTile.part
  repeat' split
  · unfold LateTile.writePart
    dsimp only
    split
    · split
      · exact pageWrite _ _ _ _ _ _
      · exact of_storeSide (StoreSide.placeWrite _ _ _ _ _)
    · exact logGranules _ _ _
  · exact refl s
  · exact pageReadBut x.logged s c.requester x.srcPage.pte (x.srcAt + p.2.1) p.2.2
  · exact refl s

theorem performs (c : Copy) (l : List (Bool × Nat × Nat)) (x : LateTile) (s : State) :
    KeepsUnits s (LateTile.performs c l x s).2 := by
  induction l generalizing x s with
  | nil => exact refl s
  | cons p l ih => exact (part x s c p).trans (ih _ _)

theorem freshenGranule (s : State) (p : Place) (g : Nat) : KeepsUnits s (freshenGranule s p g) := by
  unfold Machine.freshenGranule
  split
  · exact of_eq rfl rfl
  · split <;> exact of_eq rfl rfl
  · exact refl s

theorem freshen (x : LateTile) (s : State) (c : Copy) : KeepsUnits s (x.freshen s c) := by
  unfold LateTile.freshen
  split
  · exact foldl (fun s g => freshenGranule s _ g) _ s
  · exact refl s

theorem resealTile (s : State) (c : Copy) (x : LateTile) : KeepsUnits s (resealTile s c x).2 := by
  unfold Machine.resealTile
  dsimp only
  split
  · exact refl s
  · have read := (MemSide.closeTile s (tileOf x.srcAt)).trans
      (MemSide.sealRead (Machine.closeTile s (tileOf x.srcAt)) x.srcPage.pte.key 0 (tileOf x.srcAt * 2048) 2048)
    split <;> rename_i e <;> rw [e] at read
    · dsimp only at read
      split <;> dsimp only
      · exact of_memSide (read.trans (MemSide.nodeLog _ _))
      · exact of_memSide ((read.trans (MemSide.putFlight _ none)).trans (MemSide.refuseLog _ _ _ _))
      · exact of_memSide (((read.trans (MemSide.pathWritten _ _)).trans (MemSide.putHbm _ _)).trans (MemSide.putCaddy _ _ _))
    · exact of_memSide read

theorem performTile (p : Bool × Nat × Nat → Bool) (s : State) (c : Copy) (x : LateTile) :
    KeepsUnits s (performTile p s c x).2 := by
  unfold Machine.performTile
  split
  · exact resealTile s c x
  · dsimp only
    split
    · exact (performs c _ x s).trans (freshen _ _ c)
    · exact performs c _ x s

theorem finishTiles (p : LateTile → Bool) (s : State) (k : Nat) : KeepsUnits s (finishTiles p s k) := by
  unfold Machine.finishTiles
  split
  · exact refl s
  · refine foldl (fun s x => ?_) _ s
    split
    · exact refl s
    · next c _ => exact (performTile (fun _ => true) s c x).trans (of_eq rfl rfl)

/-! ### Copies and streams that end (R202, R215, R234, R240, R247) -/

theorem nodeDone (s : State) (g i : Nat) (word : DWord) : KeepsUnits s (nodeDone s g i word) := by
  unfold Machine.nodeDone
  split <;> exact of_eq rfl rfl

theorem completeCopy (s : State) (k st tile : Nat) : KeepsUnits s (completeCopy s k st tile) := by
  unfold Machine.completeCopy
  split
  · exact refl s
  · dsimp only
    have gone : KeepsUnits s (s.dropCopy k) := of_eq rfl rfl
    split
    · refine (gone.trans ?_).trans (nodeDone _ _ _ _)
      repeat' split
      all_goals exact of_eq rfl rfl
    · split
      · split
        · exact gone.trans (of_answers ((Answers.detach _ _ _ _).trans (Answers.arrive _ _ _ _ _)))
        · exact gone
      · exact gone

theorem stopCopy (s : State) (k : Nat) : KeepsUnits s (stopCopy s k) :=
  (finishTiles _ s k).trans (completeCopy _ k 5 _)

theorem performPart (s : State) (st k : Nat) (p : Nat × Nat) : KeepsUnits s (performPart s st k p).2 := by
  unfold Machine.performPart
  split
  · exact refl s
  · split
    · exact refl s
    · dsimp only
      split
      · split
        · exact refl s
        · exact of_eq rfl rfl
      · split
        · exact refl s
        · split
          · exact refl s
          · dsimp only
            refine trans ?_ (of_eq (State.putStream_teams _ _ _) rfl)
            refine trans (of_storeSide ?_) (of_storeSide (StoreSide.placeWrite _ _ _ _ _))
            exact StoreSide.foldl (fun s (e : Nat × PendStore) => StoreSide.raiseOne s e.1 e.2 6) _ s

theorem performParts (st k : Nat) (l : List (Nat × Nat)) (s : State) : KeepsUnits s (performParts st k l s).2 := by
  induction l generalizing s with
  | nil => exact refl s
  | cons p l ih =>
    unfold Machine.performParts
    split
    · exact refl s
    · split
      · exact refl s
      · split
        · have one := performPart s st k p
          split <;> rename_i e <;> rw [e] at one
          · exact one
          · exact one.trans (ih _)
        · exact ih s

theorem finishMem (s : State) (st : Nat) (x : Stream) (m : StreamMem) : KeepsUnits s (finishMem s st x m) := by
  unfold Machine.finishMem
  split
  · exact of_eq rfl rfl
  · exact foldl (fun s g => freshenGranule s m.place g) _ s

theorem retireOp (s : State) (st k : Nat) : KeepsUnits s (retireOp s st k).2 := by
  unfold Machine.retireOp
  dsimp only
  have parts := performParts st k ((((s.stream st).bind fun x => x.inflight[k]?).bind fun o => o.mem).elim [] fun m => m.left) s
  split <;> rename_i e <;> rw [e] at parts
  · exact parts
  · split
    · exact parts
    · split
      · refine (parts.trans ?_).trans (finishMem _ _ _ _)
        exact of_eq rfl rfl
      · exact parts.trans (of_eq rfl rfl)

theorem finishOps (s : State) (st : Nat) : KeepsUnits s (finishOps s st) := by
  unfold Machine.finishOps
  split
  · exact refl s
  · refine foldl (fun s _ => ?_) _ s
    have op := retireOp s st 0
    split <;> rename_i e <;> rw [e] at op
    · exact op
    · dsimp only
      split
      · exact (op.trans (of_memSide (MemSide.checkLog _ _ _))).trans (of_eq rfl rfl)
      · exact op.trans (of_memSide (MemSide.checkLog _ _ _))

theorem endStream (s : State) (k : Nat) : KeepsUnits s (endStream s k) := by
  unfold Machine.endStream
  dsimp only
  repeat' split
  · exact finishOps s k
  all_goals exact (finishOps s k).trans (of_eq rfl rfl)

/-! ### What a cancel does before it looks at its launch (R105) -/

theorem noteCancel (s : State) (u : Nat) : KeepsUnits s
    (match s.team u with | some t => s.putTeam u { t with noticeCancel := true } | none => s) := by
  split
  · next t ht =>
    refine ⟨rfl, fun v x hx => ?_⟩
    by_cases e : v = u
    · subst e
      obtain rfl : t = x := by rw [ht] at hx; exact Option.some.inj hx
      exact ⟨_, State.team_putTeam_same _ _ _, rfl⟩
    · exact ⟨x, (State.team_putTeam_other _ _ e).trans hx, .refl x⟩
  · exact refl s

theorem endStreamOf (s : State) (g : Nat) : KeepsUnits s (match s.wg g with
    | some w => match w.stream with | some k => Machine.endStream s k | none => s
    | none => s) := by
  repeat' split
  · exact endStream s _
  all_goals exact refl s

theorem dropColls (s : State) (g : Nat) : KeepsUnits s
    (match s.wg g with | some w => s.putWg g { w with colls := [] } | none => s) := by
  split
  · exact of_eq rfl rfl
  · exact refl s

end KeepsUnits

/-- A launch with something left, its own or a workgroup's, is not complete (R97). -/
theorem KeepsUnits.launchCheck_counted {s s' : State} {l : Nat} {x : Launch} (h : KeepsUnits s s') (hx : s.launch l = some x)
    (hc : x.counter ≠ 0) : KeepsUnits s (launchCheck s' l) := by
  have hx' : s'.launch l = some x := by rw [State.launch, h.1]; exact hx
  have left : launchCheck s' l = s' := by simp [launchCheck, hx', hc]
  rw [left]
  exact h

/-- A launch that has more than its pending workgroups is cancelled, and every team stands but for what goes on beside its
words (R105). -/
theorem KeepsUnits.cancelLaunch_counted {s : State} {l : Nat} {x : Launch} (hx : s.launch l = some x) (hc : x.cancelling = false)
    (h : pendingCount x < x.counter) :
    KeepsUnits (s.putLaunch l { x with cancelling := true, pending := [], counter := x.counter - pendingCount x })
      (cancelLaunch s l) := by
  unfold Machine.cancelLaunch
  rw [hx]
  dsimp only
  rw [if_neg (by simp [hc])]
  refine launchCheck_counted ?_ (State.launch_putLaunch_same _ _ _) (Nat.sub_ne_zero_of_lt h)
  refine trans ?_ (foldl noteCancel _ _)
  refine trans ?_ (foldl endStreamOf _ _)
  refine trans ?_ (foldl (fun s (e : Nat × Copy) => stopCopy s e.1) _ _)
  exact trans (foldl (fun s g => of_answers (.invalidateAll s g)) _ _) (foldl dropColls _ _)

end Sys2Proof.Machine
end

section
/-! PROOFS. TeamStops and ExitTrapReturn: a team that leaves, a trap that stops its team and fails its launch, and the words EXIT,
TRAP, BKPT and RETT (R98, R106, R107, R109, R110, R309, R351, R372, R434, R449). -/

namespace Sys2Proof.Machine

/-! ### A team that leaves (R98, R309) -/

/-- The team when it has left: no result, no clause, no park, and nothing in the save area. -/
def Team.left (t : Team) (st : TeamStatus) : Team :=
  { t with status := st, pend := [], clause := none, park := .none, passOut := [], spill := [] }

section
variable {s : State} {t : Team} {u : Nat} (ht : s.team u = some t) (st : TeamStatus)
include ht

/-- A team's stores are performed first, and the collectives that it has not joined are left last. -/
theorem teamLeaves_eq : ∃ s1 t1, StoreSide s s1 ∧ s1.team u = some t1 ∧ SameButWindow t t1 ∧ t1.stores = [] ∧
    teamLeaves s u st = leaveColls (s1.putTeam u (t1.left st)) t.wg t.copycs := by
  have side := StoreSide.drainAll s u
  obtain ⟨t1, ht1, same⟩ := side.team ht
  refine ⟨drainAll s u, t1, side, ht1, same, (drainAll_stores ht1).1, ?_⟩
  have wg : t1.wg = t.wg := by rw [same.1]
  have copycs : t1.copycs = t.copycs := by rw [same.1]
  simp only [teamLeaves, ht1, wg, copycs, Team.left]

/-- What a team that has left keeps, and what the machine keeps. -/
theorem teamLeaves_team : ∃ s1 t1, StoreSide s s1 ∧ SameButWindow t t1 ∧ t1.stores = [] ∧
    Answers (s1.putTeam u (t1.left st)) (teamLeaves s u st) ∧ (teamLeaves s u st).team u = some (t1.left st) := by
  obtain ⟨s1, t1, side, -, same, none, e⟩ := teamLeaves_eq ht st
  rw [e]
  have answers := Answers.leaveColls (s1.putTeam u (t1.left st)) t.wg t.copycs
  obtain ⟨t2, ht2, answered⟩ := answers.2 u _ (State.team_putTeam_same _ _ _)
  exact ⟨s1, t1, side, same, none, answers, by rw [ht2, answered.nothing rfl]⟩

end

/-- Where no collective of its workgroup is being formed, a team leaves none. -/
theorem leaveColls_of_none {s : State} {g : Nat} {w : Workgroup} (hw : s.wg g = some w) (hc : w.colls = []) (joined : Nat) :
    leaveColls s g joined = s.putWg g w := by
  have same : { w with colls := [] } = w := by rw [← hc]
  simp [leaveColls, hw, hc, same]

theorem teamEnd : Claims.TeamEnd := by
  unfold Claims.TeamEnd
  intro s t w u st ht hw hc
  obtain ⟨s1, t1, side, ht1, -, none, e⟩ := teamLeaves_eq ht st
  have shared := side.2.2 t.wg
  rw [SharedSide, hw] at shared
  obtain ⟨w1, hw1, same⟩ := shared
  refine ⟨s1, t1, side, ht1, none, w1, hw1, ?_⟩
  rw [e, leaveColls_of_none (s := s1.putTeam u (t1.left st)) hw1 (by rw [same]; exact hc)]
  rfl

/-! ### A trap that stops its team (R106, R107, R109) -/

/-- Two settings of one launch: the second stands. -/
@[simp] theorem State.putLaunch_putLaunch (s : State) (l : Nat) (x y : Launch) :
    (s.putLaunch l x).putLaunch l y = s.putLaunch l y := by
  simp [State.putLaunch, fset, noEntry, finsert_finsert_same]

/-- The failure of a launch that has more than its pending workgroups. -/
theorem failLaunch_counted {s : State} {l : Nat} {x : Launch} (hx : s.launch l = some x) (hc : x.cancelling = false)
    (h : pendingCount x < x.counter) (status : Nat) (nested : Bool) (cause : Nat) (wgid : Word) :
    KeepsUnits (s.putLaunch l { x with failure := some (status, nested, cause, wgid), cancelling := true, pending := []
                                       counter := x.counter - pendingCount x })
      (failLaunch s l status nested cause wgid) := by
  have cancel := KeepsUnits.cancelLaunch_counted (State.launch_putLaunch_same s l
    { x with failure := some (status, nested, cause, wgid) }) hc h
  rw [State.putLaunch_putLaunch] at cancel
  rw [failLaunch, hx]
  dsimp only
  rw [if_neg (by simp [hc])]
  exact cancel

theorem trapStops : Claims.TrapStops := by
  unfold Claims.TrapStops
  intro s t x u cause slot detail tpc addr async_ ht ha hh hx hf hc hp
  rw [takeTrap_stops ht ha hh]
  obtain ⟨s1, t1, side, same, -, answers, ht2⟩ := teamLeaves_team
    (State.team_putTeam_same s u (t.trapRegs cause tpc slot addr async_ detail)) .stopped
  have hx2 : (teamLeaves (s.putTeam u (t.trapRegs cause tpc slot addr async_ detail)) u .stopped).launch t.launch = some x := by
    rw [State.launch, answers.1, State.putTeam_launches, side.1]
    exact hx
  have fails := failLaunch_counted hx2 hc hp 1 t.inHandler cause (((s.wg t.wg).map fun w => w.wgid).getD 0)
  obtain ⟨t3, ht3, beside⟩ := fails.2 u _ ht2
  refine ⟨t3, _, ht3, ?_, ?_, ?_, ?_, (congrArg (fget noEntry · t.launch) fails.1).trans
    (State.launch_putLaunch_same _ _ _), rfl, rfl⟩
  · rw [beside]; rfl
  all_goals
    rw [beside, Team.left, same.1]
    rfl

/-- Settles O12: a stopped team by what its launch's failure leaves of it, a leaving team by what it gives up. -/
theorem teamStops : Obligations.TeamStops := ⟨trapStops, teamEnd⟩

/-! ### EXIT, TRAP, BKPT and RETT -/

/-- A trap after its word resumes at the slot that follows, or at the clause that follows. -/
theorem trapAfter_eq (s : State) (t : Team) (c : Clause) (cause detail : Nat) :
    (t.slot + 1 < c.count → trapAfter s t c cause detail =
      .next (takeTrap (s.putTeam s.cur (t.switchPark c)) s.cur cause c.addr (t.slot + 2) 0 false detail)) ∧
    (c.count ≤ t.slot + 1 → trapAfter s t c cause detail =
      .next (takeTrap (s.putTeam s.cur (t.switchPark c)) s.cur cause c.follow 0 0 false detail)) :=
  ⟨fun more => if_pos more, fun past => if_neg (Nat.not_lt.2 past)⟩

section
variable {s : State} {t : Team} {c : Clause} (h : Issues s t c)
include h

theorem exec_exit_agent {l : Nat} (hl : t.lowest = some l) (ha : t.agent = true) :
    exec .exit s = .next (restartAgent s s.cur false) := by
  simp [execExit, teamWord_eq h hl, exitTeam, ha]

/-- A team that is no agent leaves: it keeps its registers, and the memories and the device registers are as before. -/
theorem exec_exit_leaves {l : Nat} (hl : t.lowest = some l) (ha : t.agent = false) :
    ∃ s' t', exec .exit s = .next s' ∧ s'.team s.cur = some t' ∧ t'.status = .exited ∧ t'.pend = [] ∧ t'.stores = [] ∧
      t'.clause = none ∧ t'.regs = t.regs ∧ t'.fpstat = t.fpstat ∧ s'.hbm = s.hbm ∧ s'.host = s.host ∧ s'.dev = s.dev := by
  obtain ⟨s1, t1, side, same, none, answers, ht'⟩ := teamLeaves_team h.1 .exited
  refine ⟨teamLeaves s s.cur .exited, _, ?_, ht', rfl, rfl, none, rfl, ?_, ?_, ?_, ?_, ?_⟩
  · simp [execExit, teamWord_eq h hl, exitTeam, ha]
  · rw [Team.left, same.1]
  · rw [Team.left, same.1]
  all_goals
    rw [answers.1, side.1]
    rfl

theorem exec_rett_returns (hh : t.inHandler = true) :
    ∃ t', OnlyTeam s 0 t' (exec .rett s) ∧ t'.d = t.savedD ∧ t'.b = t.savedB ∧ t'.inHandler = false ∧ t'.pc = t.tpc ∧
      t'.resume = t.tinfo.toNat % 16 ∧ t'.clause = none ∧
      SamePlaceApart { t with d := t.savedD, b := t.savedB, inHandler := false } t' := by
  refine ⟨t.returnFromTrap c, ?_, rfl, rfl, rfl, rfl, by simp [Team.returnFromTrap], rfl, ?_⟩
  · rw [exec_rett, execRett, withTeam_eq h]
    exact if_pos hh
  · unfold SamePlaceApart Team.returnFromTrap Team.switchPark
    split <;> rfl

end

/-- Settles O13: EXIT by what a team that leaves keeps, TRAP and BKPT by the trap after a word, RETT by the team that returns. -/
theorem exitTrapReturn : Obligations.ExitTrapReturn := by
  unfold Obligations.ExitTrapReturn
  intro s t c imm h
  have skips (i : Instr) (k : Team → Clause → Nat → Out) (e : exec i s = teamWord s 1 k) (hl : t.lowest = none) :
      Skips s t c 0 1 (exec i s) := by
    rw [e, teamWord_skip h hl]
    exact Skips.of_advance 1
  refine ⟨fun hl => ⟨skips _ _ rfl hl, skips _ _ rfl hl, skips _ _ rfl hl⟩, fun l0 hl => ?_, fun hh => ?_, exec_rett_returns h⟩
  · have trap : exec (.trap imm) s = trapAfter s t c 0x18 imm.toNat := by simp [execTrap, teamWord_eq h hl]
    have bkpt : exec (.bkpt imm) s = trapAfter s t c 0x19 0 := by simp [execBkpt, teamWord_eq h hl]
    rw [trap, bkpt]
    refine ⟨exec_exit_agent h hl, exec_exit_leaves h hl, fun more => ?_, fun past => ?_⟩
    · exact ⟨(trapAfter_eq s t c _ _).1 more, (trapAfter_eq s t c _ _).1 more⟩
    · exact ⟨(trapAfter_eq s t c _ _).2 past, (trapAfter_eq s t c _ _).2 past⟩
  · simp [Traps, execRett, withTeam_eq h, hh, wordTrap]

end Sys2Proof.Machine
end

section
/-! PROOFS. Dispatcher: where a pending workgroup goes, and what its admission makes of the machine (R95, R99, R101, R256, R257,
R264). -/

namespace Sys2Proof.Machine

/-! ### The core with the most room (R256) -/

/-- The better of the core found so far and the next: the next, where it fits and has more lane contexts free. -/
def betterCore (fit : Nat → Bool) (ctx : Nat → Nat) (best : Option Nat) (k : Nat) : Option Nat :=
  if fit k then
    match best with
    | some b => if ctx b < ctx k then some k else best
    | none => some k
  else best

/-- Core k has more lane contexts free than j, or as many and the lower number. -/
def Beats (ctx : Nat → Nat) (k j : Nat) : Prop := ctx j < ctx k ∨ (ctx j = ctx k ∧ k < j)

section
variable {fit : Nat → Bool} {ctx : Nat → Nat}

theorem betterCore_unfit {k : Nat} (h : fit k = false) (best : Option Nat) : betterCore fit ctx best k = best := by
  simp [betterCore, h]

theorem betterCore_first {k : Nat} (h : fit k = true) : betterCore fit ctx none k = some k := by simp [betterCore, h]

theorem betterCore_next {k : Nat} (h : fit k = true) (b : Nat) :
    betterCore fit ctx (some b) k = if ctx b < ctx k then some k else some b := by simp [betterCore, h]

/-- Nothing is found only where nothing has been found and nothing fits. -/
theorem foldl_betterCore_none (l : List Nat) (best : Option Nat) :
    l.foldl (betterCore fit ctx) best = none ↔ best = none ∧ ∀ k ∈ l, fit k = false := by
  induction l generalizing best with
  | nil => simp
  | cons a l ih =>
    rw [List.foldl_cons, ih]
    cases h : fit a with
    | false => simp [betterCore_unfit h, h]
    | true =>
      cases best with
      | none => simp [betterCore_first h, h]
      | some b =>
        rw [betterCore_next h]
        split <;> simp

theorem Beats.trans {a b c : Nat} (h : Beats ctx a b) (h' : Beats ctx b c) : Beats ctx a c := by
  unfold Beats at *
  omega

/-- What is found after one more core, higher than the one before: one of the two, and the other is no better. -/
theorem betterCore_spec {a : Nat} {best : Option Nat} (before : ∀ b, best = some b → b < a) :
    (∀ k, betterCore fit ctx best a = some k → best = some k ∨ (k = a ∧ fit a = true)) ∧
    ∀ j, best = some j ∨ (j = a ∧ fit a = true) → ∃ b, betterCore fit ctx best a = some b ∧ (j = b ∨ Beats ctx b j) := by
  cases ha : fit a with
  | false => exact ⟨fun k e => .inl (betterCore_unfit ha best ▸ e), fun j hj =>
      ⟨j, (betterCore_unfit ha best).trans (hj.resolve_right fun h => Bool.noConfusion h.2), .inl rfl⟩⟩
  | true =>
    cases best with
    | none => simp [betterCore_first ha, eq_comm]
    | some b =>
      have low := before b rfl
      rw [betterCore_next ha]
      split
      · next more =>
        refine ⟨fun k e => .inr ⟨(Option.some.inj e).symm, rfl⟩, fun j hj => ⟨a, rfl, ?_⟩⟩
        exact hj.elim (fun e => .inr (.inl (Option.some.inj e ▸ more))) fun h => .inl h.1
      · next less =>
        refine ⟨fun k e => .inl e, fun j hj => ⟨b, rfl, hj.imp (fun e => (Option.some.inj e).symm) ?_⟩⟩
        rintro ⟨rfl, -⟩
        unfold Beats
        omega

/-- Of rising cores, the one that is found beats every other that fits. -/
theorem foldl_betterCore_some {l : List Nat} (rising : l.Pairwise (· < ·)) {best : Option Nat}
    (before : ∀ b, best = some b → ∀ j ∈ l, b < j) {k : Nat} (h : l.foldl (betterCore fit ctx) best = some k) :
    (best = some k ∨ (k ∈ l ∧ fit k = true)) ∧
    ∀ j, best = some j ∨ (j ∈ l ∧ fit j = true) → j ≠ k → Beats ctx k j := by
  induction l generalizing best with
  | nil => simp_all
  | cons a l ih =>
    obtain ⟨above, rising⟩ := List.pairwise_cons.1 rising
    obtain ⟨one, noBetter⟩ := betterCore_spec (fit := fit) (ctx := ctx) fun b e => before b e a List.mem_cons_self
    obtain ⟨found, beats⟩ := ih rising (best := betterCore fit ctx best a) (fun b e j hj => by
      obtain e | ⟨rfl, -⟩ := one b e
      · exact before b e j (List.mem_cons_of_mem _ hj)
      · exact above j hj) h
    refine ⟨?_, fun j hj ne => ?_⟩
    · obtain e | ⟨mem, hf⟩ := found
      · exact (one k e).imp_right fun ⟨e, hf⟩ => ⟨e ▸ List.mem_cons_self, e ▸ hf⟩
      · exact .inr ⟨List.mem_cons_of_mem _ mem, hf⟩
    · have split : (best = some j ∨ (j = a ∧ fit a = true)) ∨ (j ∈ l ∧ fit j = true) := by
        obtain e | ⟨mem, hf⟩ := hj
        · exact .inl (.inl e)
        · exact (List.mem_cons.1 mem).imp (fun e => .inr ⟨e, e ▸ hf⟩) fun mem => ⟨mem, hf⟩
      obtain first | later := split
      · obtain ⟨b, e, same⟩ := noBetter j first
        by_cases eq : b = k
        · exact eq ▸ same.resolve_left fun e' => ne (e'.trans eq)
        · have least := beats b (.inl e) eq
          exact same.elim (fun e' => e' ▸ least) least.trans
      · exact beats j (.inr later) ne

end

/-- The cores of a partition come in rising order. -/
theorem coresOf_rising (s : State) (n : Nat) : (coresOf s n).Pairwise (· < ·) := by
  unfold coresOf
  rw [List.pairwise_flatMap]
  refine ⟨fun c _ => by simp, (List.pairwise_lt_range.filter _).imp fun {a b} lt x hx y hy => ?_⟩
  simp only [List.mem_cons, List.not_mem_nil, or_false] at hx hy
  omega

/-- A seed's core comes first, where it fits. -/
theorem placeFor_eq (s : State) (c : Candidate) : placeFor s c = (c.l.seedCore.filter (placeOn s c)).or
    ((coresOf s c.l.part).foldl (betterCore (placeOn s c) fun k => (freeRoom s k c.uid).ctx) none) := by
  unfold placeFor
  cases c.l.seedCore.filter (placeOn s c) <;> rfl

theorem placement : Claims.Placement := by
  unfold Claims.Placement
  intro s c need may fits
  have may_iff (k : Nat) : placeOn s c k = true ↔ may k := by simp [placeOn, may, need, and_assoc]
  refine ⟨fun k hk hm => ?_, fun held => ?_⟩
  · simp [placeFor_eq, hk, (may_iff k).2 hm]
  · have unheld : c.l.seedCore.filter (placeOn s c) = none :=
      Option.filter_eq_none_iff.2 fun k hk => by simpa [may_iff] using held k hk
    rw [placeFor_eq, unheld, Option.none_or]
    refine ⟨?_, fun k hk => ?_⟩
    · simp [foldl_betterCore_none, fits, ← may_iff]
    · obtain ⟨found, beats⟩ := foldl_betterCore_some (coresOf_rising _ _) (fun _ e => by cases e) hk
      obtain e | ⟨mem, fit⟩ := found
      · cases e
      · exact ⟨⟨mem, (may_iff k).1 fit⟩, fun j hj ne => beats j (.inr ⟨hj.1, (may_iff j).2 hj.2⟩) ne⟩

/-! ### The teams of an admitted workgroup (R95) -/

/-- Teams numbered i to i + n - 1 have started, with the next n unused numbers, and no other team has changed. -/
def TeamsStarted (l : Launch) (lid g : Nat) (sp : Spawned) (wgid : Word) (core n i : Nat) (s s' : State) : Prop :=
  s' = { s with teams := s'.teams, fresh := s'.fresh, nextUid := s'.nextUid } ∧
  (∀ j < n, ∃ k, s'.team (s.nextUid + j) = some
    { startTeam l lid g (i + j) sp.lanes sp.nregs k sp.entry sp.args wgid (s.nextUid + j) false with
      issueAt := clockTenths s (core / 4) }) ∧
  ∀ u, u < s.nextUid ∨ s.nextUid + n ≤ u → s'.team u = s.team u

theorem startTeams_started (l : Launch) (lid g : Nat) (sp : Spawned) (wgid : Word) (core n i : Nat) (s : State) (us : List Nat) :
    (startTeams l lid g sp wgid core n i s us).1 = us ++ List.range' s.nextUid n ∧
    TeamsStarted l lid g sp wgid core n i s (startTeams l lid g sp wgid core n i s us).2 := by
  induction n generalizing i s us with
  | zero => exact ⟨by simp [startTeams], rfl, fun j hj => absurd hj (Nat.not_lt_zero j), fun _ _ => rfl⟩
  | succ n ih =>
    unfold startTeams
    extract_lets k t u
    obtain ⟨us', e, started, others⟩ := ih (i + 1)
      (s.bump.nextId.putTeam u { t with issueAt := clockTenths s (core / 4) }) (us ++ [u])
    refine ⟨?_, ?_, fun j hj => ?_, fun v hv => ?_⟩
    · rw [us', List.range'_succ]
      simp [u]
    · rw [e]
      rfl
    · cases j with
      | zero =>
        refine ⟨k, (others s.nextUid (.inl (Nat.lt_succ_self _))).trans ?_⟩
        exact State.team_putTeam_same _ _ _
      | succ j =>
        obtain ⟨k', hk'⟩ := started j (Nat.lt_of_succ_lt_succ hj)
        refine ⟨k', ?_⟩
        have number : s.nextUid + (j + 1) = s.nextUid + 1 + j := by omega
        have place : i + (j + 1) = i + 1 + j := by omega
        rw [number, place]
        exact hk'
    · refine (others v ?_).trans (State.team_putTeam_other _ _ ?_)
      · simp only [State.putTeam_nextUid, State.nextId, State.bump]
        omega
      · omega

/-! ### Admission (R99, R256, R257) -/

section
variable {s : State} {p core : Nat} {c : Candidate} {rest : List Candidate}

/-- The first pending workgroup, where it fits and nothing keeps it back, is admitted, or chooses its core while it is held. -/
theorem admitWorkgroup_first (run : partActive s p = true) (first : sortBy candidateOrder (candidates s p) = c :: rest)
    (clear : savedBefore s c.l.part c.l.rank = false) (place : placeFor s c = some core) :
    admitWorkgroup s p =
      if c.l.hintHold.isSome then
        dispatch rest [] none (match s.launch c.uid with
          | some x => s.putLaunch c.uid { x with seedCore := x.seedCore.or (some core) }
          | none => s)
      else admitWg s c core := by
  simp only [admitWorkgroup, run, first, dispatch, clear, place, if_true]
  rfl

/-- The workgroup that an admission makes, of some teams (R95). -/
def admittedWg (c : Candidate) (g core : Nat) (us : List Nat) : Workgroup :=
  { launch := c.uid, part := c.l.part, wgid := c.sp.baseId + BitVec.ofNat 32 c.sp.next, core := core, lanes := c.sp.lanes
    nregs := c.sp.nregs, teams := us, sharedSz := c.sp.sharedSz, shared := [], sharedBad := [], bars := [], colls := []
    stream := none, window := none, saved := false, saveUnits := [], order := g, agent := false }

/-- An admission starts the workgroup's teams, places it, and takes it off its launch. -/
theorem admitWg_eq (hl : s.launch c.uid = some c.l) : ∃ s1,
    TeamsStarted c.l c.uid s.nextUid c.sp (c.sp.baseId + BitVec.ofNat 32 c.sp.next) core c.sp.nteams 0 s.nextId s1 ∧
    admitWg s c core = (useRequest (s1.putWg s.nextUid
      (admittedWg c s.nextUid core (List.range' (s.nextUid + 1) c.sp.nteams))) c.uid core s.nextUid).putLaunch c.uid
        c.l.takePending := by
  obtain ⟨us, started⟩ := startTeams_started c.l c.uid s.nextUid c.sp (c.sp.baseId + BitVec.ofNat 32 c.sp.next) core c.sp.nteams
    0 s.nextId []
  refine ⟨_, started, ?_⟩
  have launches : ∀ w, (useRequest ((startTeams c.l c.uid s.nextUid c.sp (c.sp.baseId + BitVec.ofNat 32 c.sp.next) core
      c.sp.nteams 0 s.nextId []).2.putWg s.nextUid w) c.uid core s.nextUid).launch c.uid = some c.l := by
    intro w
    rw [State.launch, useRequest, State.putWg_launches, started.1]
    exact hl
  unfold admitWg
  extract_lets g wgid
  rw [List.nil_append] at us
  split
  next us' s1 e =>
  rw [e] at us launches ⊢
  obtain rfl : us' = _ := us
  dsimp only
  rw [launches]
  rfl

end

theorem admission : Claims.Admission := by
  unfold Claims.Admission
  intro s p core c rest
  simp only [exec_workgroupAdmission, execWorkgroupAdmission]
  refine ⟨fun stop => by simp [admitWorkgroup, stop], fun run none => by simp [admitWorkgroup, run, none, dispatch],
    fun run first hl _ clear place unheld => ?_, fun run only hl clear place held => ?_, fun x sp tl hp => ?_⟩
  · obtain ⟨s1, ⟨e, started, others⟩, admitted⟩ := admitWg_eq (core := core) hl
    rw [admitWorkgroup_first run first clear place, if_neg (by simp [unheld]), admitted]
    refine ⟨_, admittedWg c s.nextUid core (List.range' (s.nextUid + 1) c.sp.nteams), rfl, State.wg_putWg_same _ _ _, rfl, rfl, rfl,
      rfl, rfl, rfl, rfl, rfl, rfl, rfl, rfl, List.length_range', List.nodup_range', fun i u hu => ?_, fun g hg => ?_,
      fun u hu => ?_, fun l hl => ?_, State.launch_putLaunch_same _ _ _⟩
    · obtain ⟨hi, number⟩ := List.getElem?_eq_some_iff.1 hu
      simp only [admittedWg, List.length_range', List.getElem_range', Nat.one_mul] at hi number
      have team := started i hi
      rw [Nat.zero_add] at team
      exact number ▸ team
    · refine (State.wg_putWg_other _ _ hg).trans ?_
      rw [State.wg, e]
      rfl
    · refine others u ?_
      simp only [admittedWg, List.mem_range'_1] at hu
      simp only [State.nextId_nextUid]
      omega
    · refine (State.launch_putLaunch_other _ _ hl).trans ?_
      rw [State.launch, useRequest, State.putWg_launches, e]
      rfl
  · rw [admitWorkgroup_first run only clear place, if_pos (Option.isSome_iff_ne_none.2 held), hl]
    rfl
  · constructor
    · intro more
      simp [Launch.takePending, hp, more]
    · intro last
      simp [Launch.takePending, hp, Nat.not_lt.2 last]

/-- Settles O40: the placing by the fold over the rising cores, the admission by the teams that start. -/
theorem dispatcher : Obligations.Dispatcher := ⟨placement, admission⟩

end Sys2Proof.Machine
end

section
/-! PROOFS. WorkgroupEvents: the start of a held launch, a workgroup passed over, the end of an OPHINT hold, a team that does not
end after its notice, and the end of a workgroup (R94, R98, R105, R243, R256, R257, R259, R264). -/

namespace Sys2Proof.Machine

/-! ### The held launch that starts (R94) -/

/-- The earlier of the launch found so far and the next. -/
def earlierLaunch (b : Option (Nat × Launch)) (e : Nat × Launch) : Option (Nat × Launch) :=
  match b with
  | some x => if e.2.order < x.2.order then some e else some x
  | none => some e

theorem firstHeld_eq (s : State) : firstHeld s = ((entries s.launches).filter fun e => e.2.held).foldl earlierLaunch none := rfl

/-- Of two launches, one of them first of all, the earlier is that one. -/
theorem earlierLaunch_first {a e b : Nat × Launch} (he : e = a ∨ a.2.order < e.2.order) (hb : b = a ∨ a.2.order < b.2.order)
    (h : e = a ∨ b = a) : earlierLaunch (some b) e = some a := by
  unfold earlierLaunch
  dsimp only
  split
  · next lt =>
    obtain rfl | rfl := h
    · rfl
    · exact congrArg some (he.resolve_right (by omega))
  · next le =>
    obtain rfl | rfl := h
    · exact congrArg some (hb.resolve_right le)
    · rfl

theorem foldl_earlierLaunch {a : Nat × Launch} {l : List (Nat × Launch)} (first : ∀ e ∈ l, e = a ∨ a.2.order < e.2.order)
    {b : Option (Nat × Launch)} (before : ∀ e, b = some e → e = a ∨ a.2.order < e.2.order) (h : a ∈ l ∨ b = some a) :
    l.foldl earlierLaunch b = some a := by
  induction l generalizing b with
  | nil => simpa using h
  | cons e l ih =>
    have he := first e List.mem_cons_self
    refine ih (fun e h => first e (List.mem_cons_of_mem _ h)) ?_ ?_
    · intro c hc
      cases b with
      | none => exact Option.some.inj hc ▸ he
      | some b =>
        unfold earlierLaunch at hc
        dsimp only at hc
        split at hc
        · exact Option.some.inj hc ▸ he
        · exact Option.some.inj hc ▸ before b rfl
    · by_cases now : e = a ∨ b = some a
      · right
        cases b with
        | none => exact congrArg some (now.resolve_right nofun)
        | some b => exact earlierLaunch_first he (before b rfl) (now.imp_right Option.some.inj)
      · obtain mem | mem := h
        · exact .inl ((List.mem_cons.1 mem).resolve_left fun e' => now (.inl e'.symm))
        · exact absurd (.inr mem) now

/-- A held launch that comes before every other held one is the first. -/
theorem firstHeld_of_first {s : State} {l : Nat} {x : Launch} (hx : s.launch l = some x) (held : x.held = true)
    (first : ∀ e ∈ entries s.launches, e.2.held = true → e = (l, x) ∨ x.order < e.2.order) : firstHeld s = some (l, x) := by
  rw [firstHeld_eq]
  refine foldl_earlierLaunch (fun e he => ?_) (fun _ e => by cases e) (.inl ?_)
  · exact first e (List.mem_of_mem_filter he) (List.mem_filter.1 he).2
  · exact List.mem_filter.2 ⟨fget_mem_entries hx, held⟩

/-! ### A number that nothing uses (log entry 16) -/

theorem findFrom_holds {p : Nat → Bool} {lo n i : Nat} (h : findFrom p lo n = some i) : p i = true := by
  induction n generalizing lo with
  | zero => cases h
  | succ n ih =>
    unfold findFrom at h
    split at h
    · exact Option.some.inj h ▸ ‹_›
    · exact ih h

theorem findFrom_isSome {p : Nat → Bool} {lo n i : Nat} (hl : lo ≤ i) (hh : i < lo + n) (hi : p i = true) :
    ∃ j, findFrom p lo n = some j := by
  induction n generalizing lo with
  | zero => omega
  | succ n ih =>
    unfold findFrom
    split
    · exact ⟨lo, rfl⟩
    · next no =>
      have ne : lo ≠ i := fun e => no (e ▸ hi)
      exact ih (by omega) (by omega)

/-- Where some number below the bound is unused, the one that is picked is unused and below the bound. -/
theorem pickUnused_spec (s : State) (k : Nat) {bound i : Nat} {used : Nat → Bool} (hi : i < bound) (free : used i = false) :
    pickUnused s k bound used < bound ∧ used (pickUnused s k bound used) = false := by
  unfold pickUnused
  extract_lets c
  have positive : 0 < bound := by omega
  have low : c < bound := Nat.mod_lt _ positive
  obtain ⟨j, hj⟩ : ∃ j, findFrom (fun i => !used (i % bound)) c bound = some j := by
    by_cases above : c ≤ i
    · exact findFrom_isSome above (by omega) (by simp [Nat.mod_eq_of_lt hi, free])
    · exact findFrom_isSome (i := i + bound) (by omega) (by omega) (by simp [Nat.mod_eq_of_lt hi, free])
  rw [hj]
  exact ⟨Nat.mod_lt _ positive, by simpa using findFrom_holds hj⟩

/-- Where fewer launches are live than there are LAUNCHIDs, one is unused (R94). -/
theorem launchId_unused {s : State} {n : Nat} (h : (liveLaunches s).length < n) : ∃ i < n, launchIdUsed s i = false := by
  by_contra none
  have all : List.range n ⊆ (liveLaunches s).map fun x => x.launchId := fun i hi => by
    have used : launchIdUsed s i = true := by
      by_contra free
      exact none ⟨i, List.mem_range.1 hi, by simpa using free⟩
    simpa [launchIdUsed] using used
  have fits := (List.nodup_range.subperm all).length_le
  simp at fits
  omega

theorem heldLaunchStart_starts {s : State} {l : Nat} {x : Launch} (first : firstHeld s = some (l, x))
    (room : (liveLaunches s).length < 16384) : ∃ id < 16384, (∀ y ∈ liveLaunches s, y.launchId ≠ id) ∧
      exec .heldLaunchStart s = .next (s.bump.putLaunch l { x with held := false, launchId := id }) := by
  obtain ⟨i, hi, free⟩ := launchId_unused room
  obtain ⟨low, unused⟩ := pickUnused_spec s 0 hi free
  refine ⟨_, low, fun y hy => ?_, ?_⟩
  · simp only [launchIdUsed, List.any_eq_false, beq_iff_eq] at unused
    exact unused y hy
  · simp [execHeldLaunchStart, startHeld, first, room]

theorem heldLaunchStart_waits {s : State} {l : Nat} {x : Launch} (first : firstHeld s = some (l, x))
    (full : 16384 ≤ (liveLaunches s).length) : exec .heldLaunchStart s = .next s := by
  simp [execHeldLaunchStart, startHeld, first, Nat.not_lt.2 full]

/-! ### Events that a time brings (R105, R256, R257) -/

section
variable {s : State} {l : Nat} {x : Launch} (hx : s.launch l = some x)
include hx

theorem passedOverBlock_eq {sp : Spawned} {rest : List Spawned} {t0 : Nat} (hp : x.pending = sp :: rest)
    (hs : sp.since = some t0) : exec (.passedOverBlock l) s =
      if t0 + 1000000 ≤ s.ns then .next (s.putLaunch l { x with pending := { sp with blocked := true } :: rest })
      else .next s := by
  simp [execPassedOverBlock, hx, hp, hs]

theorem ophintHoldEnd_eq {t0 : Nat} (hh : x.hintHold = some t0) {stable : Prop} [Decidable stable]
    (h : stable ↔ ∃ k, x.seedCore = some k ∧ clState s (k / 4) = 0 ∧
      pointAt s (k / 4) = min (x.ophint % 16) (min (paceAt s (k / 4)) (thermalOf s (k / 4 / 16)))) :
    exec (.ophintHoldEnd l) s =
      if t0 + 50000 ≤ s.ns ∨ stable then .next (s.putLaunch l { x with hintHold := none }) else .next s := by
  simp [execOphintHoldEnd, hx, hh, h, Option.any_eq_true]

end

theorem cancelNoticeTimeout_eq {s : State} {u t0 : Nat} {t : Team} (ht : s.team u = some t) (hc : t.cancelAt = some t0)
    (hr : t.status = .running) : exec (.cancelNoticeTimeout u) s =
      if t0 + 100000 ≤ s.ns then .next (teamLeaves s u .stopped) else .next s := by
  simp [execCancelNoticeTimeout, ht, hc, hr]

/-! ### The end of a workgroup (R98, R243, R259, R264) -/

/-- A table without the entries of some keys. -/
theorem fget_filter_keys {α : Type} (d : Nat → α) (p : Nat → Bool) (m : FMap α) (k : Nat) :
    fget d (m.filter fun e => p e.1) k = if p k then fget d m k else d k := by
  induction m with
  | nil => simp [fget]
  | cons e m ih =>
    obtain ⟨j, v⟩ := e
    by_cases same : j = k
    · subst same
      cases hp : p j <;> simp [fget, hp, ih]
    · cases hp : p j <;> simp [fget, hp, ih, same]

/-- Room that is given changes what requests have taken, and their register. -/
theorem giveRoom_spec (s : State) (core : Nat) (free : Room) :
    giveRoom s core free = { s with reqs := (giveRoom s core free).reqs, dev := (giveRoom s core free).dev } ∧
    (giveRoom s core free).reqs.length = s.reqs.length ∧
    ∀ r ∈ (giveRoom s core free).reqs, ∃ q ∈ s.reqs, r.users = q.users := by
  unfold giveRoom
  extract_lets given reqs
  have shown (s : State) : showRequest s core = { s with dev := (showRequest s core).dev } := by
    unfold showRequest
    split <;> rfl
  have same : (showRequest { s with reqs := reqs } core).reqs = reqs := by rw [shown]
  refine ⟨?_, ?_, fun r hr => ?_⟩
  · rw [same, shown]
  · rw [same]
    exact List.length_map _
  · rw [same] at hr
    obtain ⟨q, hq, rfl⟩ := List.mem_map.1 hr
    refine ⟨q, hq, ?_⟩
    split <;> rfl

/-- Some team of a workgroup runs. -/
theorem anyRunning_iff (s : State) (us : List Nat) :
    (us.any fun u => ((s.team u).map fun t => t.status == .running).getD false) = true ↔
      ∃ u ∈ us, ∃ t, s.team u = some t ∧ t.status = .running := by
  simp only [List.any_eq_true]
  refine exists_congr fun u => and_congr_right fun _ => ?_
  cases s.team u <;> simp

section
variable {s : State} {g : Nat} {w : Workgroup} (hw : s.wg g = some w)
include hw

/-- While a team of a workgroup runs, the workgroup stays. -/
theorem endWorkgroup_runs (h : ∃ u ∈ w.teams, ∃ t, s.team u = some t ∧ t.status = .running) : endWorkgroup s g = s := by
  have running := (anyRunning_iff s w.teams).2 h
  have stays : lastTeamGone s g = s := by simp [lastTeamGone, hw, running]
  simp only [endWorkgroup, stays, hw]
  rw [if_pos (.inr (.inr (.inr (.inl running))))]

/-- A workgroup that nothing is left of is gone, with its teams, and its room goes to the requests of its core. -/
theorem endWorkgroup_ends {x : Launch} (hx : s.launch w.launch = some x) (ha : w.agent = false) (hs : w.saved = false)
    (idle : w.stream = none) (ended : ∀ u ∈ w.teams, ∀ t, s.team u = some t → t.status ≠ .running)
    (done : ∀ e ∈ entries s.copies, e.2.wg ≠ some g) : ∃ s1 : State,
      endWorkgroup s g = settle (launchCheck (s1.putLaunch w.launch { x with counter := x.counter - 1 }) w.launch) ∧
      s1.wg g = none ∧ (∀ j, j ≠ g → s1.wg j = s.wg j) ∧ (∀ u ∈ w.teams, s1.team u = none) ∧
      (∀ u, u ∉ w.teams → s1.team u = s.team u) ∧
      (∀ k, fget falseAt s1.roomBack k = (fget falseAt s.roomBack k || k == w.core)) ∧
      (∀ r ∈ s1.reqs, g ∉ r.users) ∧ s1.reqs.length = s.reqs.length ∧
      s1 = { s with teams := s1.teams, wgs := s1.wgs, foldOrder := s1.foldOrder, roomBack := s1.roomBack,
                    reqs := s1.reqs, dev := s1.dev } := by
  have rest : ¬ (w.teams.any fun u => ((s.team u).map fun t => t.status == .running).getD false) = true := fun h => by
    obtain ⟨u, hu, t, ht, run⟩ := (anyRunning_iff s w.teams).1 h
    exact ended u hu t ht run
  have copied : ¬ ((entries s.copies).any fun e => e.2.wg == some g) = true := by
    simpa using done
  have stays : lastTeamGone s g = s := by
    unfold lastTeamGone
    rw [hw]
    dsimp only
    split
    · rfl
    · rw [idle]
  unfold endWorkgroup
  rw [stays]
  extract_lets s0 kept back
  rw [show s0.wg g = some w from hw]
  dsimp -zeta only
  rw [if_neg (by simp [s0, ha, hs, idle, rest, copied])]
  extract_lets free s2 s3
  obtain ⟨give, long, users⟩ := giveRoom_spec ({ s2 with reqs := kept }.dropWg g) w.core free
  have same : s3 = { s with teams := s3.teams, wgs := s3.wgs, foldOrder := s3.foldOrder, roomBack := s3.roomBack,
                            reqs := s3.reqs, dev := s3.dev } := by
    simp only [s3, roomReturns]
    rw [give]
    rfl
  have wgs : s3.wgs = fset noEntry s.wgs g none := by
    simp only [s3, roomReturns]
    rw [give]
    rfl
  have teams (u : Nat) : s3.team u = if !w.teams.contains u then s.team u else none := by
    have e : s3.teams = s.teams.filter fun e => !w.teams.contains e.1 := by
      simp only [s3, roomReturns]
      rw [give]
      rfl
    rw [State.team, e]
    exact fget_filter_keys noEntry (fun u => !w.teams.contains u) _ _
  have left : s3.launch w.launch = some x := by
    rw [State.launch, same]
    exact hx
  rw [left]
  refine ⟨s3, rfl, ?_, fun j hj => ?_, fun u hu => ?_, fun u hu => ?_, fun k => ?_, fun r hr => ?_, ?_, same⟩
  · rw [State.wg, wgs, fget_fset_same]
  · rw [State.wg, wgs, fget_fset_other _ _ _ hj, State.wg]
  · simp [teams, hu]
  · simp [teams, hu]
  · have back : s3.roomBack = fset falseAt s.roomBack w.core true := by
      simp only [s3, roomReturns]
      rw [give]
      rfl
    rw [back, fget_fset]
    by_cases e : k = w.core <;> simp [e]
  · obtain ⟨q, hq, e⟩ := users r hr
    obtain ⟨q0, -, rfl⟩ := List.mem_map.1 hq
    simp [e]
  · exact long.trans (List.length_map _)

end

/-- Settles O41: each event by what it looks at, the end of a workgroup by what it leaves. -/
theorem workgroupEvents : Obligations.WorkgroupEvents := by
  unfold Obligations.WorkgroupEvents
  intro s l x hx
  refine ⟨fun held first => ?_, fun sp rest t0 hp hs => ?_, fun t0 hh => ?_, fun u t t0 ht hc hr => ?_,
    fun g w hw hl ha hs => ⟨fun run => ?_, fun idle ended done => ?_⟩⟩
  · have first := firstHeld_of_first hx held first
    exact ⟨heldLaunchStart_starts first, heldLaunchStart_waits first⟩
  · rw [passedOverBlock_eq hx hp hs]
    exact ⟨fun now => if_pos now, fun early => if_neg (Nat.not_le.2 early)⟩
  · intro stable
    have : Decidable stable := Classical.propDecidable stable
    rw [ophintHoldEnd_eq hx hh (stable := stable) Iff.rfl]
    exact ⟨fun now => if_pos now, fun early => if_neg early⟩
  · rw [cancelNoticeTimeout_eq ht hc hr]
    exact ⟨fun now => if_pos now, fun early => if_neg (Nat.not_le.2 early)⟩
  · simp [execWorkgroupEnd, endWorkgroup_runs hw run]
  · subst hl
    obtain ⟨s1, e, rest⟩ := endWorkgroup_ends hw hx ha hs idle ended done
    exact ⟨s1, by rw [exec_workgroupEnd, execWorkgroupEnd, e], rest⟩

end Sys2Proof.Machine
end

section

/-! PROOFS. A phase's cancel over a machine that lists one graph twice (R104, R105): the refutation of O22. -/

namespace Sys2Proof.Machine

/-! ### The state -/

namespace GraphListedTwice

/-- A graph of queue 1 that is not being cancelled. -/
def kept : Graph :=
  { part := 0, queue := 1, job := 0, phase := 0, packet := 0, deadline := 0, order := 0, nodes := [], counter := 0
    cancelling := false, decided := none, compl := 0, kind := 0, copySt := (0, 0), seeds := 0 }

/-- The second entry of the same number: a graph of queue 0's phase 0. -/
def shadowed : Graph := { kept with queue := 0 }

/-- A machine whose table lists graph 0 twice, so that it is not in canonical form: lookups see the first entry, and a cancel
goes over both. -/
def machine : State := { State.reset with graphs := [(0, some kept), (0, some shadowed)] }

theorem machine_graph : machine.graph 0 = some kept := rfl

theorem notYetCancelled :
    ¬ ((machine.queue 0).job = 0 ∧ (machine.queue 0).phase = 0 ∧ 0 ∈ (machine.queue 0).phaseCancel) := by
  decide +kernel

/-- The cancel of queue 0's phase 0 reaches graph 0 by its second entry, and cancels the graph of queue 1 that lookups see. -/
theorem cancelPhase_graph :
    ((cancelPhase machine 0 0 0).graph 0).map Graph.cancelling = some true := by
  decide +kernel

end GraphListedTwice

open GraphListedTwice in
/-- Refutes O22: a state may list graph 0 twice, first as a graph of queue 1 and again as one of queue 0's phase 0; the cancel of
that phase then starts to cancel the graph of queue 1. -/
theorem not_spawnAndCancel : ¬ Obligations.SpawnAndCancel := by
  rintro ⟨-, -, units⟩
  obtain ⟨-, -, phase, -⟩ := units machine 0 0 0
  obtain ⟨y, found, cancelled⟩ := (phase notYetCancelled).2 0 kept machine_graph
  have begun : y.cancelling = true := by
    have h := cancelPhase_graph
    rw [found] at h
    exact Option.some.inj h
  obtain no | ⟨other, -⟩ := cancelled.1 begun
  · exact absurd no (by decide)
  · exact absurd other (by decide)

end Sys2Proof.Machine
end

section

/-! SUPPORT. What the kettle's writes change (R254, R289): the memory side of the machine, so that no queue moves by them. -/

namespace Sys2Proof.Machine

theorem MemSide.queue {a b : State} (h : MemSide a b) (q : Nat) : b.queue q = a.queue q := by
  rw [State.queue, State.queue, h]

theorem MemSide.vwrite (part core : Option Nat) (fuel : Nat) (s : State) (va : Nat) (l : List Byte) :
    MemSide s (vwrite part core fuel s va l).2 := by
  induction fuel generalizing s va l with
  | zero => exact MemSide.refl s
  | succ fuel ih =>
    unfold Machine.vwrite
    split
    · exact MemSide.refl s
    · have hx := MemSide.xlate s part core va true
      split <;> rename_i e <;> rw [e] at hx <;> dsimp only at hx ⊢
      · exact hx
      · split
        · exact hx
        · split
          · exact hx
          · split
            · cases part with
              | none => exact hx
              | some p => exact hx.trans (MemSide.addDeny _ p)
            · rename_i x s1 _ _ _ _
              have hw := hx.trans (MemSide.sealWrite s1 x.pte.key 1 (x.pte.addr + (va - x.base))
                (l.take (min l.length (min (2048 - va % 2048) (x.base + x.size - va)))))
              split <;> rename_i e' <;> rw [e'] at hw
              · exact hw.trans (ih _ _ _)
              · exact hw

theorem MemSide.vwriteWhole (part : Option Nat) (s : State) (va : Nat) (l : List Byte) :
    MemSide s (vwriteWhole part s va l) := by
  unfold Machine.vwriteWhole
  have h := MemSide.vwrite part none 3 s va l
  split <;> rename_i e <;> rw [e] at h
  · exact h
  · dsimp only
    split
    · exact MemSide.vwrite _ _ _ _ _ _
    · exact h

theorem MemSide.writeRecord (s : State) (part compl : Nat) (word : DWord) : MemSide s (writeRecord s part compl word) := by
  unfold Machine.writeRecord
  split
  · exact MemSide.refl s
  · exact MemSide.vwriteWhole _ _ _ _

theorem MemSide.recordInput (s : State) (q : Nat) (header payload : List Byte) :
    MemSide s (recordInput s q header payload) := by
  unfold Machine.recordInput
  dsimp only
  split
  · exact MemSide.refl s
  · split
    · exact MemSide.putDfield _ _ _ _ _
    · exact (MemSide.vwrite _ _ _ _ _ _).trans (MemSide.putDfield _ _ _ _ _)

end Sys2Proof.Machine
end

section

/-! PROOFS. What is recorded of a job, and the acceptance, the turn and the completion of a packet (R100, R105, R250 to R254,
R289, R290, R320): O36. -/

namespace Sys2Proof.Machine

/-! ### The records of a job's inputs -/

section recording
variable (s : State) (q : Nat) (header payload : List Byte)

/-- A record's bytes in the capture buffer: header, payload, and zeros up to 16 bytes. -/
def recordBytes : List Byte := header ++ payload ++ zeros (roundUp payload.length 16 - payload.length)

theorem dfld_low (v : DWord) (n : Nat) : dfld v 0 n = v.toNat % 2 ^ n := by
  simp [dfld, fld]

theorem recordInput_off (h : s.dfield (aRplyCtl q) 0 2 ≠ 1 ∨ (s.dreg (aRplyStat q)).getLsbD 32 = true) :
    recordInput s q header payload = s := if_pos h

theorem recordInput_on (on : s.dfield (aRplyCtl q) 0 2 = 1) (room : (s.dreg (aRplyStat q)).getLsbD 32 = false) :
    recordInput s q header payload =
      let used := (s.dreg (aRplyStat q)).toNat % 2 ^ 32
      let l := recordBytes header payload
      if s.dfield (aRplySize q) 0 32 < used + l.length then s.putDfield (aRplyStat q) 32 1 1
      else (vwrite (some (queuePart s q)) none (l.length / 2048 + 2) s (s.dfield (aRplyBase q) 0 57 + used)
        l).2.putDfield (aRplyStat q) 0 32 (used + l.length) := by
  rw [← dfld_low]
  exact if_neg fun off => off.elim (fun other => other on) (Bool.eq_false_iff.1 room)

end recording

theorem recordHeader_eq (kind filter p : Nat) (key : List Byte) :
    recordHeader kind filter p key = [BitVec.ofNat 8 kind, BitVec.ofNat 8 filter, 0, 0] ++ toBytes 4 p ++ key := rfl

/-- Whether a record's header is that of a TIME_NS read of a packet, with a key. -/
def timeHit (packet : Nat) (key h : List Byte) : Bool :=
  decide (num h 0 1 = 3 ∧ num h 4 4 = packet % 2 ^ 32 ∧ (h.drop 8).take 8 = key)

/-- Whether a record's header is that of a launch's SEED of a packet. -/
def seedHit (packet : Nat) (h : List Byte) : Bool := decide (num h 0 1 = 4 ∧ num h 4 4 = packet % 2 ^ 32)

section sysTime
variable {s : State} {t : Team} {x : Launch} (hx : s.launch t.launch = some x) (ha : t.agent = false)
include hx ha

theorem sysTime_recorded (live : replays s x.queue x.packet = false) : sysTime s t =
    (timeNs s, recordInput s x.queue (recordHeader 3 0 x.packet (timeKey s t)) (toBytes 8 (timeNs s).toNat)) := by
  unfold sysTime
  simp only [hx, ha, live, Bool.false_eq_true, if_false]

theorem sysTime_replayed (replayed : replays s x.queue x.packet = true) {found : Option (List Byte)} {s' : State}
    (got : findRecord x.queue (timeHit x.packet (timeKey s t)) (s.dfield (aRplySize x.queue) 0 32) 0 s 0 = (found, s')) :
    sysTime s t = match found with
      | some v => (BitVec.ofNat 64 (ofBytes v), s')
      | none => (timeNs s', raiseEvent (s'.putDfield (aRplyStat x.queue) 33 1 1) x.part 4) := by
  have hits : timeHit x.packet (timeKey s t) = fun h =>
      num h 0 1 == 3 && num h 4 4 == x.packet % 2 ^ 32 && decide ((h.drop 8).take 8 = timeKey s t) := by
    funext h
    simp only [timeHit, Bool.decide_and, Bool.and_assoc]
    rfl
  rw [hits] at got
  unfold sysTime
  simp only [hx, ha, replayed, Bool.false_eq_true, if_false, if_true, got]
  cases found <;> rfl

end sysTime

theorem launchSeed_recorded {s : State} {q packet : Nat} (live : replays s q packet = false) (k : Nat) (l : List Byte) :
    launchSeed s q packet k l = (BitVec.ofNat 32 (ofBytes ((l.drop 32).take 4)),
      recordInput s q (recordHeader 4 0 packet (zeros 8)) ((l.drop 32).take 4)) := by
  simp [launchSeed, live]

theorem launchSeed_replayed {s : State} {q packet : Nat} (replayed : replays s q packet = true) {k : Nat} (l : List Byte)
    {found : Option (List Byte)} {s' : State}
    (got : findRecord q (seedHit packet) (s.dfield (aRplySize q) 0 32) k s 0 = (found, s')) :
    launchSeed s q packet k l = (BitVec.ofNat 32 (ofBytes (found.getD ((l.drop 32).take 4))), s') := by
  have hits : seedHit packet = fun h => num h 0 1 == 4 && num h 4 4 == packet % 2 ^ 32 := by
    funext h
    simp only [seedHit, Bool.decide_and]
    rfl
  rw [hits] at got
  unfold launchSeed
  simp only [replayed, if_true, got]
  cases found <;> rfl

theorem recording : Claims.Recording := by
  refine ⟨fun s q header payload => ⟨recordInput_off s q header payload, fun on room => ?_⟩, recordHeader_eq,
    fun s t x hx ha => ⟨sysTime_recorded hx ha, fun replayed => ⟨fun v found => ?_, fun missed => ?_⟩⟩,
    fun s q packet k l => ⟨fun live => launchSeed_recorded live k l, fun replayed => ⟨fun v found => ?_, fun missed => ?_⟩⟩⟩
  · have e := recordInput_on s q header payload on room
    exact ⟨fun full => e.trans (if_pos full),
      fun fits => ⟨MemSide.vwrite _ _ _ _ _ _, e.trans (if_neg (Nat.not_lt.2 fits))⟩⟩
  · exact sysTime_replayed hx ha replayed (Prod.ext found rfl)
  · exact sysTime_replayed hx ha replayed (Prod.ext missed rfl)
  · exact launchSeed_replayed replayed l (Prod.ext found rfl)
  · exact launchSeed_replayed replayed l (Prod.ext missed rfl)

/-! ### Acceptance -/

theorem packetOk_op {n : Nat} {l : List Byte} (ok : packetOk n l = true) : num l 0 1 ≤ 8 := by
  unfold packetOk at ok
  obtain ⟨-, fields⟩ := Bool.and_eq_true_iff.1 ok
  split at fields
  case h_10 => cases fields
  all_goals omega

/-- The state in which packet n of a queue, recorded, has its number and waits (R252, R289). -/
def numbered (s : State) (q : Nat) (l : List Byte) : State :=
  let n := (s.queue q).accepted
  let p : Pkt := { num := n, bytes := l, marked := false, graph := none, state := .waiting }
  ((recordInput s q (recordHeader 1 0 n (zeros 8)) l).putQueue q { s.queue q with
    accepted := n + 1, firstRead := none, stalled := false, pkts := (s.queue q).pkts ++ [p] }).putDfield (aQstat q) 0 32 (n + 1)

/-- What the check of a packet that starts a unit leads to (R253): its failure completes it, or it waits with its graph. -/
def afterPrepare (q n compl : Nat) : Except DWord Graph × State → State
  | (.error w, s) => finishPacket s q n compl w
  | (.ok g, s) => mapPacket s.nextId q n fun p => { p with graph := some g }

theorem afterPrepare_error {q n compl : Nat} {x : Except DWord Graph × State} {w : DWord} (h : x.1 = .error w) :
    afterPrepare q n compl x = finishPacket x.2 q n compl w := by
  rw [← Prod.eta x, h]
  rfl

theorem afterPrepare_ok {q n compl : Nat} {x : Except DWord Graph × State} {g : Graph} (h : x.1 = .ok g) :
    afterPrepare q n compl x = mapPacket x.2.nextId q n fun p => { p with graph := some g } := by
  rw [← Prod.eta x, h]
  rfl

theorem acceptPacket_eq (s : State) (q : Nat) (l : List Byte) :
    let n := (s.queue q).accepted
    let s1 := numbered s q l
    let op := num l 0 1
    acceptPacket s q l =
      if n < (s.queue q).cancelTo then finishPacket s1 q n (num l 8 8) (cancelledWord op)
      else if (!packetOk n l) = true then finishPacket s1 q n (num l 8 8) 3
      else if op = 7 then cancelPacket s1 q n l
      else if (op == 1 || op == 2 || op == 3) = true then
        afterPrepare q n (num l 8 8) (prepare s1 q n l)
      else s1 := by
  have same := (MemSide.recordInput s q (recordHeader 1 0 (s.queue q).accepted (zeros 8)) l).queue q
  unfold acceptPacket
  simp only [same]
  rfl

theorem packetAcceptance : Claims.PacketAcceptance := by
  intro s q l
  have e := acceptPacket_eq s q l
  refine ⟨fun gone => e.trans (if_pos gone), fun stands => ?_⟩
  replace e := e.trans (if_neg (Nat.not_lt.2 stands))
  refine ⟨fun bad => ?_, fun ok => ?_⟩
  · have no : packetOk (s.queue q).accepted l = false := by
      refine bad.elim (fun big => Bool.eq_false_iff.2 fun ok => ?_) id
      exact absurd (packetOk_op ok) (Nat.not_le.2 big)
    exact e.trans (if_pos (by rw [no]; rfl))
  replace e := e.trans (if_neg (by simp [ok]))
  refine ⟨fun cancel => e.trans (if_pos cancel), fun waits => ?_, fun unit => ?_⟩
  · have other : ¬ num l 0 1 = 7 := by omega
    exact e.trans ((if_neg other).trans (if_neg (by simp; omega)))
  · have other : ¬ num l 0 1 = 7 := by omega
    replace e := e.trans ((if_neg other).trans (if_pos (by simp; omega)))
    exact ⟨fun w bad => e.trans (afterPrepare_error bad), fun g good => e.trans (afterPrepare_ok good)⟩

/-! ### Turns -/

theorem allBefore_iff (s : State) (q n : Nat) :
    allBefore s q n = true ↔ ∀ x ∈ (s.queue q).pkts, n ≤ x.num ∨ x.state = .done := by
  simp [allBefore]

theorem barrier_iff (s : State) (q : Nat) (p : Pkt) : (p.barrier && !allBefore s q p.num) = true ↔
    num p.bytes 1 1 % 2 = 1 ∧ ¬ ∀ x ∈ (s.queue q).pkts, p.num ≤ x.num ∨ x.state = .done := by
  rw [← allBefore_iff]
  simp [Pkt.barrier]

section turn
variable (s : State) (q : Nat) (p : Pkt) (rest : List Pkt)

theorem turnOf_done (h : p.state = .done) : turnOf s q (p :: rest) = turnOf s q rest := by
  rw [turnOf, h]

theorem turnOf_running {g : Nat} (h : p.state = .running g) : turnOf s q (p :: rest) = turnOf s q rest := by
  rw [turnOf, h]

theorem turnOf_closing {ph : Nat} (h : p.state = .closing ph) : turnOf s q (p :: rest) =
    if ph ∈ (s.queue q).closed then none else some (finishPacket s q p.num (num p.bytes 8 8) 0) := by
  rw [turnOf, h]
  simp

theorem turnOf_suspended {t : Nat} (h : p.state = .suspended t) : turnOf s q (p :: rest) =
    if p.num < (s.queue q).cancelTo ∨ p.marked = true then
      some (finishPacket s q p.num (num p.bytes 8 8) (cancelledWord p.op))
    else turnOf s q rest := by
  rw [turnOf, h]

theorem turnOf_waiting (h : p.state = .waiting) : turnOf s q (p :: rest) =
    if p.num < (s.queue q).cancelTo ∨ p.marked = true then
      some (finishPacket s q p.num (num p.bytes 8 8) (cancelledWord p.op))
    else if (p.barrier && !allBefore s q p.num) = true then none
    else if p.op = 5 then turnOf s q rest
    else packetTurn s q p := by
  rw [turnOf, h]

theorem packetTurn_nop (op : p.op = 0) : packetTurn s q p = some (finishPacket s q p.num (num p.bytes 8 8) 0) := by
  simp [packetTurn, op]

theorem packetTurn_wait (op : p.op = 4) : packetTurn s q p = none := by
  simp [packetTurn, op]

theorem packetTurn_phase (op : p.op = 6) : packetTurn s q p = some (closePhase s q p) := by
  simp [packetTurn, op]

theorem packetTurn_fence (op : p.op = 8) :
    packetTurn s q p = if replays s q p.num = true then some (finishFence s q p) else none := by
  simp [packetTurn, op]

theorem packetTurn_unit {g : Graph} (op : p.op = 1 ∨ p.op = 2 ∨ p.op = 3) (h : p.graph = some g) :
    packetTurn s q p = some (startPacket s q p g) := by
  rcases op with op | op | op <;> simp [packetTurn, op, h]

end turn

theorem packetTurns : Claims.PacketTurns := by
  intro s q p rest
  refine ⟨turnOf_done s q p rest, fun g => turnOf_running s q p rest, fun ph closing => ?_, fun t waits stands => ?_,
    fun gone unstarted => ?_, fun waits stands => ⟨fun held => ?_, fun free => ?_⟩⟩
  · have e := turnOf_closing s q p rest closing
    exact ⟨fun busy => e.trans (if_pos busy), fun finished => e.trans (if_neg finished)⟩
  · exact (turnOf_suspended s q p rest waits).trans (if_neg stands)
  · obtain waits | ⟨t, waits⟩ := unstarted
    · exact (turnOf_waiting s q p rest waits).trans (if_pos gone)
    · exact (turnOf_suspended s q p rest waits).trans (if_pos gone)
  · exact (turnOf_waiting s q p rest waits).trans ((if_neg stands).trans (if_pos ((barrier_iff s q p).2 held)))
  · have e := (turnOf_waiting s q p rest waits).trans ((if_neg stands).trans (if_neg (mt (barrier_iff s q p).1 free)))
    have starts (op : p.op ≠ 5) : turnOf s q (p :: rest) = packetTurn s q p := e.trans (if_neg op)
    refine ⟨fun (op : p.op = 0) => ?_, fun (op : p.op = 4) => ?_, fun op => e.trans (if_pos op), fun (op : p.op = 6) => ?_,
      fun (op : p.op = 8) live => ?_, fun (op : p.op = 8) replayed => ?_,
      fun g (op : p.op = 1 ∨ p.op = 2 ∨ p.op = 3) graph => ?_⟩
    · exact (starts (by omega)).trans (packetTurn_nop s q p op)
    · exact (starts (by omega)).trans (packetTurn_wait s q p op)
    · exact (starts (by omega)).trans (packetTurn_phase s q p op)
    · exact (starts (by omega)).trans ((packetTurn_fence s q p op).trans (if_neg (Bool.eq_false_iff.1 live)))
    · exact (starts (by omega)).trans ((packetTurn_fence s q p op).trans (if_pos replayed))
    · exact (starts (by omega)).trans (packetTurn_unit s q p op graph)

/-! ### Completion -/

/-- Two updates of a queue are the second one, where neither leaves the queue as one that nothing has touched. -/
theorem State.putQueue_putQueue (s : State) (q : Nat) {x y : Queue} (hx : x ≠ Queue.init) (hy : y ≠ Queue.init) :
    (s.putQueue q x).putQueue q y = s.putQueue q y := by
  simp only [State.putQueue, fset, if_neg hx, if_neg hy, finsert_finsert_same]

theorem Queue.ne_init {x : Queue} (h : x.pkts ≠ []) : x ≠ Queue.init := fun e => h (by rw [e]; rfl)

theorem blocker_mem {s : State} {q : Nat} {l : List Pkt} {p : Pkt} (h : blocker s q l = some p) : p ∈ l := by
  induction l with
  | nil => cases h
  | cons x l ih =>
    rw [blocker] at h
    split at h
    · split at h
      · exact Option.some.inj h ▸ List.mem_cons_self
      · exact List.mem_cons_of_mem x (ih h)
    · exact Option.some.inj h ▸ List.mem_cons_self
    · exact List.mem_cons_of_mem x (ih h)

theorem blocker_congr {s s' : State} {q : Nat} (h : s'.queue q = s.queue q) (l : List Pkt) :
    blocker s' q l = blocker s q l := by
  induction l with
  | nil => rfl
  | cons x l ih => rw [blocker, blocker, ih, allBefore, h, ← allBefore]

theorem blocking_congr {s s' : State} {q : Nat} (h : s'.queue q = s.queue q) : blocking s' q = blocking s q := by
  rw [blocking, blocking, h, blocker_congr h]

/-- Packet n blocks queue q, and its opcode is op. -/
def Blocks (s : State) (q n op : Nat) : Prop := ∃ p, blocking s q = some p ∧ p.num = n ∧ p.op = op

theorem Blocks.pkts {s : State} {q n op : Nat} (h : Blocks s q n op) : (s.queue q).pkts ≠ [] := by
  obtain ⟨p, found, -⟩ := h
  exact List.ne_nil_of_mem (blocker_mem found)

theorem Blocks.op_eq {s : State} {q n op op' : Nat} (h : Blocks s q n op) (h' : Blocks s q n op') : op = op' := by
  obtain ⟨p, found, -, hop⟩ := h
  obtain ⟨p', found', -, hop'⟩ := h'
  rw [← hop, ← hop', Option.some.inj (found.symm.trans found')]

theorem endWait_wait {s : State} {q n : Nat} (h : Blocks s q n 4) :
    endWait s q n = s.putQueue q { s.queue q with semFail := none, semStalled := false } := by
  obtain ⟨p, found, hn, op⟩ := h
  simp [endWait, found, hn, op]

theorem endWait_fence {s : State} {q n : Nat} (h : Blocks s q n 8) :
    endWait s q n = s.putQueue q { s.queue q with fenceSince := none } := by
  obtain ⟨p, found, hn, op⟩ := h
  simp [endWait, found, hn, op]

theorem endWait_other {s : State} {q n : Nat} (h4 : ¬ Blocks s q n 4) (h8 : ¬ Blocks s q n 8) : endWait s q n = s := by
  unfold endWait
  split
  · rename_i p found
    by_cases hn : p.num = n
    · rw [if_neg (not_not.2 hn), if_neg fun op => h4 ⟨p, found, hn, op⟩, if_neg fun op => h8 ⟨p, found, hn, op⟩]
    · exact if_pos hn
  · rfl

/-- A queue whose packet n is done. -/
def Queue.finish (x : Queue) (n : Nat) : Queue :=
  { x with pkts := x.pkts.map fun p => if p.num = n then { p with state := .done } else p }

theorem packetDone_eq (s : State) (q n : Nat) : packetDone s q n = s.putQueue q ((s.queue q).finish n) := rfl

theorem packetDone_putQueue {s : State} {q : Nat} (n : Nat) {x : Queue} (h : x.pkts ≠ []) :
    packetDone (s.putQueue q x) q n = s.putQueue q (x.finish n) := by
  rw [packetDone_eq, State.queue_putQueue_same]
  exact State.putQueue_putQueue s q (Queue.ne_init h) (Queue.ne_init (by simpa [Queue.finish] using h))

/-- A queue when its packet n ends: where it blocked the queue, a WAIT takes its semaphore's failed reads with it and a TIMEFENCE
the time of its arrival. -/
structure WaitEnds (s : State) (q n : Nat) (y : Queue) : Prop where
  beside : y = { s.queue q with semFail := y.semFail, semStalled := y.semStalled, fenceSince := y.fenceSince }
  wait : Blocks s q n 4 → y.semFail = none ∧ y.semStalled = false
  noWait : ¬ Blocks s q n 4 → y.semFail = (s.queue q).semFail ∧ y.semStalled = (s.queue q).semStalled
  fence : Blocks s q n 8 → y.fenceSince = none
  noFence : ¬ Blocks s q n 8 → y.fenceSince = (s.queue q).fenceSince

theorem packetDone_endWait (s : State) (q n : Nat) :
    ∃ y, WaitEnds s q n y ∧ packetDone (endWait s q n) q n = s.putQueue q (y.finish n) := by
  by_cases h4 : Blocks s q n 4
  · have h8 : ¬ Blocks s q n 8 := fun h8 => absurd (h4.op_eq h8) (by decide)
    refine ⟨{ s.queue q with semFail := none, semStalled := false },
      ⟨rfl, fun _ => ⟨rfl, rfl⟩, fun no => absurd h4 no, fun h => absurd h h8, fun _ => rfl⟩, ?_⟩
    · rw [endWait_wait h4]
      exact packetDone_putQueue n h4.pkts
  · by_cases h8 : Blocks s q n 8
    · refine ⟨{ s.queue q with fenceSince := none }, ⟨rfl, fun h => absurd h h4, fun _ => ⟨rfl, rfl⟩, fun _ => rfl, fun no => absurd h8 no⟩, ?_⟩
      · rw [endWait_fence h8]
        exact packetDone_putQueue n h8.pkts
    · refine ⟨s.queue q, ⟨rfl, fun h => absurd h h4, fun _ => ⟨rfl, rfl⟩, fun h => absurd h h8, fun _ => rfl⟩, ?_⟩
      rw [endWait_other h4 h8, packetDone_eq]

/-- A completion's record (R254): none where COMPL is 0 or not 8-byte aligned. -/
def recorded (s : State) (q compl : Nat) (word : DWord) : State :=
  if compl % 8 = 0 ∧ compl ≠ 0 then vwriteWhole (some (queuePart s q)) s compl
    (toBytes 8 word.toNat ++ toBytes 8 (ptpNow s)) else s

theorem recorded_eq (s : State) (q compl : Nat) (word : DWord) :
    (if compl % 8 = 0 then writeRecord s (queuePart s q) compl word else s) = recorded s q compl word := by
  by_cases aligned : compl % 8 = 0 <;> by_cases zero : compl = 0 <;> simp [recorded, writeRecord, aligned, zero]

theorem MemSide.recorded (s : State) (q compl : Nat) (word : DWord) : MemSide s (recorded s q compl word) := by
  unfold Machine.recorded
  split
  · exact MemSide.vwriteWhole _ _ _ _
  · exact MemSide.refl s

theorem finishPacket_eq (s : State) (q n compl : Nat) (word : DWord) :
    ∃ y, WaitEnds s q n y ∧ finishPacket s q n compl word = (recorded s q compl word).putQueue q (y.finish n) := by
  obtain ⟨y, ends, e⟩ := packetDone_endWait (recorded s q compl word) q n
  have same := (MemSide.recorded s q compl word).queue q
  have blocks (op : Nat) : Blocks (recorded s q compl word) q n op ↔ Blocks s q n op := by
    simp only [Blocks, blocking_congr same]
  refine ⟨y, ?_, by rw [finishPacket, recorded_eq, e]⟩
  obtain ⟨beside, wait, noWait, fence, noFence⟩ := ends
  rw [blocks, same] at *
  exact ⟨beside, wait, noWait, fence, noFence⟩

theorem packetCompletion : Claims.PacketCompletion := by
  intro s q n compl word
  obtain ⟨y, ⟨beside, wait, noWait, fence, noFence⟩, e⟩ := finishPacket_eq s q n compl word
  have left : (finishPacket s q n compl word).queue q = y.finish n := by rw [e, State.queue_putQueue_same]
  have pkts : y.pkts = (s.queue q).pkts := by rw [beside]
  dsimp only
  rw [left]
  refine ⟨MemSide.recorded s q compl word, e, ?_, wait, noWait, fence, noFence, ?_, fun i p hp => ?_⟩
  · rw [Queue.finish, beside]
  · simp [Queue.finish, pkts]
  · simp [Queue.finish, pkts, hp]

/-- Settles O36: the records, the acceptance, the turn and the completion, each by the cases of its own function. -/
theorem packetLife : Obligations.PacketLife := ⟨recording, packetAcceptance, packetTurns, packetCompletion⟩

end Sys2Proof.Machine
end

section
/-! PROOFS. LaneOperations: SHFL, VOTE, REDUX and BCAST, each a per-lane word of the shared wrapper, and what the lanes' values
come to together: a vote, a ballot's bits, a reduction (R128, R348, R431). -/

namespace Sys2Proof.Machine

open Sys2Proof.Claims

/-! ### The active lanes -/

theorem Team.mem_activeLanes (t : Team) (l : Nat) : l ∈ t.activeLanes ↔ l < t.lanes ∧ t.depth l = 0 := by
  simp [Team.activeLanes, Team.active]

theorem Team.lt_lanes_of_active {t : Team} {l : Nat} (h : l ∈ t.activeLanes) : l < t.lanes :=
  ((t.mem_activeLanes l).1 h).1

theorem Team.lowest_none_iff (t : Team) : t.lowest = none ↔ t.activeLanes = [] := List.head?_eq_none_iff

theorem Team.putActive_idle {t : Team} (h : t.lowest = none) (r : Nat) (f : Nat → Word) : t.putActive r f = t := by
  rw [Team.putActive, (t.lowest_none_iff).1 h]
  rfl

/-- A per-lane word with no active lane only moves its team on. -/
theorem laneWord_idle {s : State} {t : Team} {c : Clause} (h : Issues s t c) (idle : t.lowest = none) (n : Nat) (d : Code)
    (f : Nat → Team → Nat → Word) : Skips s t c 1 n (laneWord s n d f) := by
  refine ⟨t.advance c n, ?_, Past.of_advance t c n, SamePlaceApart.of_advance t c n⟩
  rw [laneWord, withTeam_eq h, Team.putActive_idle idle]
  rfl

/-! ### SHFL -/

/-- SHFL, where the source lane lies in the team exactly in the lanes of p, and is j there. -/
theorem shfl_effect {s : State} {t : Team} {c : Clause} (h : Issues s t c) (d a b : Code) {mode : ShflMode} {p : Nat → Prop}
    [DecidablePred p] {j : Nat → Nat}
    (inside : ∀ l ∈ t.activeLanes, p l → shflLane mode l (reads s t b l).toNat = j l ∧ j l < t.lanes)
    (outside : ∀ l ∈ t.activeLanes, ¬ p l →
      shflLane mode l (reads s t b l).toNat < 0 ∨ t.lanes ≤ shflLane mode l (reads s t b l).toNat) :
    LaneEffect s t c 2 d (fun l => if p l then reads s t a (j l) else reads s t a l) (exec (.shfl d a b mode) s) := by
  rw [exec_shfl, execShfl]
  refine (laneWord_effect h 2 d _).congr fun l hl => ?_
  by_cases hp : p l
  · obtain ⟨lane, below⟩ := inside l hl hp
    simp [lane, below, hp]
  · have away : ¬ (0 ≤ shflLane mode l (reads s t b l).toNat ∧ shflLane mode l (reads s t b l).toNat < t.lanes) := by
      have := outside l hl hp
      omega
    simp only [if_neg hp]
    rw [if_neg away]

/-! ### VOTE -/

theorem boolWord_iff {b : Bool} {p : Prop} [Decidable p] (h : b = true ↔ p) : boolWord b = if p then 1 else 0 :=
  if_congr h rfl rfl

theorem mem_votes (k : Nat) (t : Team) (a : Code) (l : Nat) :
    l ∈ votes k t a ↔ l ∈ t.activeLanes ∧ src k t a l ≠ 0 := by simp [votes]

theorem votes_any (k : Nat) (t : Team) (a : Code) :
    (!(votes k t a).isEmpty) = true ↔ ∃ l ∈ t.activeLanes, src k t a l ≠ 0 := by
  simp [votes]

theorem votes_all (k : Nat) (t : Team) (a : Code) :
    ((votes k t a).length == t.activeLanes.length) = true ↔ ∀ l ∈ t.activeLanes, src k t a l ≠ 0 := by
  simp [votes, List.length_filter_eq_length_iff]

/-- All lanes agree with one of them exactly when all agree. -/
theorem votes_uniform (k : Nat) {t : Team} (a : Code) {l : Nat} (hl : l ∈ t.activeLanes) :
    (t.activeLanes.all fun j => src k t a j == src k t a l) = true ↔
      ∀ i ∈ t.activeLanes, ∀ j ∈ t.activeLanes, src k t a i = src k t a j := by
  simp only [List.all_eq_true, beq_iff_eq]
  exact ⟨fun same i hi j hj => (same i hi).trans (same j hj).symm, fun same j hj => same j hj l hl⟩

/-- Each lane of pass q in the list sets the bit of its place in the pass. -/
theorem getLsbD_foldl_laneBits (q : Nat) (ls : List Nat) (r : Word) {j : Nat} (hj : j < 32) :
    (ls.foldl (fun r l => if l / 32 = q then r ||| 1#32 <<< (l % 32) else r) r).getLsbD j =
      (r.getLsbD j || decide (32 * q + j ∈ ls)) := by
  induction ls generalizing r with
  | nil => simp
  | cons l ls ih =>
    rw [List.foldl_cons, ih]
    have place : 32 * q + j = l ↔ l / 32 = q ∧ j = l % 32 := ⟨fun e => by omega, fun e => by omega⟩
    by_cases here : l / 32 = q
    · have bit : (1#32 <<< (l % 32)).getLsbD j = decide (j = l % 32) := by
        rw [BitVec.getLsbD_shiftLeft, BitVec.getLsbD_one, Bool.eq_iff_iff]
        simp [hj]
        omega
      simp [here, place, bit, Bool.or_assoc]
    · simp [here, place]

theorem ballot_bit (k : Nat) (t : Team) (a : Code) (q : Nat) {j : Nat} (hj : j < 32) :
    (ballot k t a q).getLsbD j = decide (32 * q + j ∈ votes k t a) := by
  unfold ballot
  by_cases beyond : ceilDiv t.lanes 32 ≤ q
  · have out : 32 * q + j ∉ votes k t a := fun hv => by
      have := Team.lt_lanes_of_active ((mem_votes k t a _).1 hv).1
      unfold ceilDiv at beyond
      omega
    simp [beyond, out]
  · rw [if_neg beyond, getLsbD_foldl_laneBits q _ _ hj]
    simp

/-! ### REDUX -/

/-- Folding the choice of the value with the smaller key gives one of the values, with a key below all. -/
theorem foldl_least {f : Word → Word → Word} {key : Word → Int} (choice : ∀ a b, f a b = if key b < key a then b else a)
    (x : Word) (xs : List Word) : xs.foldl f x ∈ x :: xs ∧ ∀ y ∈ x :: xs, key (xs.foldl f x) ≤ key y := by
  induction xs generalizing x with
  | nil => simp
  | cons z xs ih =>
    have one : f x z = x ∨ f x z = z := by rw [choice]; split <;> simp
    have below : key (f x z) ≤ key x ∧ key (f x z) ≤ key z := by rw [choice]; split <;> omega
    obtain ⟨mem, least⟩ := ih (f x z)
    simp only [List.foldl_cons, List.mem_cons, forall_eq_or_imp] at mem least ⊢
    obtain ⟨first, later⟩ := least
    refine ⟨?_, first.trans below.1, first.trans below.2, later⟩
    rcases mem with e | mem
    · rw [e]
      exact one.imp_right .inl
    · exact .inr (.inr mem)

theorem foldl_addWords (x : Word) (xs : List Word) :
    xs.foldl (· + ·) x = BitVec.ofNat 32 ((x :: xs).map BitVec.toNat).sum := by
  induction xs generalizing x with
  | nil => simp
  | cons z xs ih =>
    rw [List.foldl_cons, ih]
    simp only [List.map_cons, List.sum_cons, BitVec.ofNat_add, BitVec.ofNat_toNat, BitVec.setWidth_eq, BitVec.add_assoc]

theorem getLsbD_foldl_andWords (i : Nat) (x : Word) (xs : List Word) :
    (xs.foldl (· &&& ·) x).getLsbD i = (x :: xs).all fun y => y.getLsbD i := by
  induction xs generalizing x with
  | nil => simp
  | cons z xs ih => rw [List.foldl_cons, ih]; simp [Bool.and_assoc]

theorem getLsbD_foldl_orWords (i : Nat) (x : Word) (xs : List Word) :
    (xs.foldl (· ||| ·) x).getLsbD i = (x :: xs).any fun y => y.getLsbD i := by
  induction xs generalizing x with
  | nil => simp
  | cons z xs ih => rw [List.foldl_cons, ih]; simp [Bool.or_assoc]

/-- The length of a filtered list is odd: the parity of the elements that pass. -/
theorem odd_length_filter_cons {α : Type} (p : α → Bool) (x : α) (xs : List α) :
    decide (((x :: xs).filter p).length % 2 = 1) = (p x ^^ decide ((xs.filter p).length % 2 = 1)) := by
  cases hp : p x
  · simp [hp]
  · simp only [List.filter_cons, hp, if_true, List.length_cons, Bool.true_xor]
    rw [← decide_not]
    exact decide_eq_decide.2 (by omega)

theorem getLsbD_foldl_xorWords (i : Nat) (x : Word) (xs : List Word) :
    (xs.foldl (· ^^^ ·) x).getLsbD i = decide (((x :: xs).filter fun y => y.getLsbD i).length % 2 = 1) := by
  induction xs generalizing x with
  | nil => rw [odd_length_filter_cons]; simp
  | cons z xs ih =>
    rw [List.foldl_cons, ih]
    simp only [odd_length_filter_cons, BitVec.getLsbD_xor, Bool.xor_assoc]

/-- What REDUX reduces is the reduction of R431, whatever the operation. -/
theorem reduce_reduced (op : ReduxOp) {l : List Word} (h : l ≠ []) : Reduced op l (reduce op l) := by
  obtain ⟨x, xs, rfl⟩ := List.exists_cons_of_ne_nil h
  cases op with
  | add => exact foldl_addWords x xs
  | minS => exact foldl_least (key := BitVec.toInt) (fun a b => if_congr BitVec.slt_iff_toInt_lt rfl rfl) x xs
  | maxS =>
    obtain ⟨mem, most⟩ := foldl_least (key := fun y => -y.toInt) (f := maxS)
      (fun a b => if_congr (BitVec.slt_iff_toInt_lt.trans neg_lt_neg_iff.symm) rfl rfl) x xs
    exact ⟨mem, fun y hy => neg_le_neg_iff.1 (most y hy)⟩
  | minU =>
    obtain ⟨mem, least⟩ := foldl_least (key := fun y => y.toNat) (f := minU)
      (fun a b => if_congr (BitVec.ult_iff_lt.trans Int.ofNat_lt.symm) rfl rfl) x xs
    exact ⟨mem, fun y hy => Int.ofNat_le.1 (least y hy)⟩
  | maxU =>
    obtain ⟨mem, most⟩ := foldl_least (key := fun y => -y.toNat) (f := maxU)
      (fun a b => if_congr (BitVec.ult_iff_lt.trans (Int.ofNat_lt.symm.trans neg_lt_neg_iff.symm)) rfl rfl) x xs
    exact ⟨mem, fun y hy => Int.ofNat_le.1 (neg_le_neg_iff.1 (most y hy))⟩
  | and => exact fun i _ => getLsbD_foldl_andWords i x xs
  | or => exact fun i _ => getLsbD_foldl_orWords i x xs
  | xor => exact fun i _ => getLsbD_foldl_xorWords i x xs

/-! ### The words together -/

/-- Settles O7: each word is one per-lane word, and its value in a lane is what the lemmas above say of its function. -/
theorem laneOperations : Obligations.LaneOperations := by
  intro s t c d a b op h n A
  refine ⟨?_, ?_, ?_, ?_, ?_, ?_, ?_, ?_, ?_, fun idle => ?_, fun l0 low => ?_⟩
  · exact shfl_effect h d a b (p := fun l => n l < t.lanes) (j := n) (fun l _ below => ⟨rfl, below⟩)
      fun l _ beyond => .inr (Int.ofNat_le.2 (Nat.not_lt.1 beyond))
  · exact shfl_effect h d a b (p := fun l => n l ≤ l) (j := fun l => l - n l)
      (fun l hl up => ⟨(Int.ofNat_sub up).symm, (Nat.sub_le _ _).trans_lt (Team.lt_lanes_of_active hl)⟩)
      fun l _ beyond => .inl (Int.sub_neg_of_lt (Int.ofNat_lt.2 (Nat.not_le.1 beyond)))
  · exact shfl_effect h d a b (p := fun l => l + n l < t.lanes) (j := fun l => l + n l) (fun l _ below => ⟨rfl, below⟩)
      fun l _ beyond => .inr (Int.ofNat_le.2 (Nat.not_lt.1 beyond))
  · exact shfl_effect h d a b (p := fun l => Nat.xor l (n l) < t.lanes) (j := fun l => Nat.xor l (n l))
      (fun l _ below => ⟨rfl, below⟩) fun l _ beyond => .inr (Int.ofNat_le.2 (Nat.not_lt.1 beyond))
  · rw [exec_vote, execVote]
    exact (laneWord_effect h 2 d _).congr fun l _ => boolWord_iff (votes_any s.fresh t a)
  · rw [exec_vote, execVote]
    exact (laneWord_effect h 2 d _).congr fun l _ => boolWord_iff (votes_all s.fresh t a)
  · rw [exec_vote, execVote]
    exact (laneWord_effect h 2 d _).congr fun l hl => boolWord_iff (votes_uniform s.fresh a hl)
  · rw [exec_vote, execVote]
    exact (laneWord_effect h 2 d _).gives fun l _ j hj =>
      (ballot_bit s.fresh t a (n l) hj).trans (decide_eq_decide.2 (mem_votes s.fresh t a _))
  · rw [exec_redux, execRedux]
    exact (laneWord_effect h 2 d _).gives fun l hl =>
      reduce_reduced op (List.map_eq_nil_iff.not.2 (List.ne_nil_of_mem hl))
  · rw [exec_bcast, execBcast]
    exact laneWord_idle h idle 1 d _
  · rw [exec_bcast, execBcast]
    refine (laneWord_effect h 1 d _).congr fun l _ => ?_
    simp only [low, Option.getD_some]
    split <;> rfl

end Sys2Proof.Machine
end

section
/-! PROOFS. ControlFlow: the structured-control words set the counters and the broken flags of the lanes below LANES, each in one
write of a table; the branches, NOP and PAUSE move their team (R124 to R127, R258, R353, R354, R357, R396, R403, R422, R428). -/

namespace Sys2Proof.Machine

open Sys2Proof.Claims

/-! ### Counters and flags written in a list of lanes -/

/-- One value written at several keys. -/
theorem fget_fsets_const {α : Type} [DecidableEq α] (d : Nat → α) (m : FMap α) (ls : List Nat) (v : α) (l : Nat) :
    fget d (fsets d m (ls.map fun l => (l, v))) l = if l ∈ ls then v else fget d m l := by
  split
  · next hl => exact fget_fsets_map d (key := fun l => l) (v := fun _ => v) (fun _ _ e => e) hl
  · next hl =>
    refine fget_fsets_notin d fun e he => ?_
    obtain ⟨j, hj, rfl⟩ := List.mem_map.1 he
    exact fun same => hl (same ▸ hj)

theorem Team.depth_of_fsets {t u : Team} {ls : List Nat} {v : BitVec 7}
    (h : u.d = fsets (fun _ => (0 : BitVec 7)) t.d (ls.map fun l => (l, v))) (l : Nat) :
    u.depth l = if l ∈ ls then v.toNat else t.depth l := by
  rw [Team.depth, h, fget_fsets_const]
  split <;> rfl

theorem Team.broken_of_fsets {t u : Team} {ls : List Nat} {v : Bool}
    (h : u.b = fsets falseAt t.b (ls.map fun l => (l, v))) (l : Nat) :
    u.broken l = if l ∈ ls then v else t.broken l := by
  rw [Team.broken, h, fget_fsets_const]
  rfl

theorem Team.deepest_iff (t : Team) : t.deepest = true ↔ ∃ l < t.lanes, t.depth l = 127 := by
  simp [Team.deepest]

theorem Team.not_deepest {t : Team} (h : ∀ l < t.lanes, t.depth l ≠ 127) : ¬ t.deepest = true := fun deep =>
  let ⟨l, hl, e⟩ := t.deepest_iff.1 deep
  h l hl e

theorem mem_takenLanes (k : Nat) (t : Team) (p : Code) (l : Nat) :
    l ∈ takenLanes k t p ↔ l < t.lanes ∧ t.depth l = 0 ∧ src k t p l ≠ 0 := by
  simp [takenLanes, Team.mem_activeLanes, and_assoc]

/-- The counter of a lane that BREAK or CONT with a number n below 127 takes. -/
theorem toNat_succ_of_lt {n : BitVec 7} (hn : n.toNat < 127) : (n + 1).toNat = n.toNat + 1 :=
  BitVec.toNat_add_of_lt (Nat.succ_lt_succ hn)

/-! ### What a structured-control word leaves -/

section nests
variable {s : State} {t u v : Team} {n : Nat} {place : Team → Prop} {out : Out} {d : Nat → Nat} {b : Nat → Bool}

/-- A word that makes u of its team, with new counters and flags alone, and leaves it where v stands. -/
theorem Nests.of_team (only : OnlyTeam s n v out) (stands : place v) (same : SamePlaceApart u v)
    (counters : u = { t with d := u.d, b := u.b }) (inside : ∀ l < t.lanes, u.depth l = d l ∧ u.broken l = b l)
    (outside : ∀ l, t.lanes ≤ l → u.depth l = t.depth l ∧ u.broken l = t.broken l) : Nests s t n place out d b := by
  have hd : v.d = u.d := by rw [same]
  have hb : v.b = u.b := by rw [same]
  refine ⟨v, only, stands, ?_, fun l hl => ?_, fun l hl => ?_⟩
  · rw [hd, hb, ← counters]
    exact same
  · rw [Team.depth, Team.broken, hd, hb]
    exact inside l hl
  · rw [Team.depth, Team.broken, hd, hb]
    exact outside l hl

/-- A word that sets every lane's counter by a function, and no flag. -/
theorem Nests.of_mapDepth {f : Nat → Nat} (only : OnlyTeam s n v out) (stands : place v)
    (same : SamePlaceApart (t.mapDepth f) v) (value : ∀ l < t.lanes, f l = d l ∧ d l < 128) :
    Nests s t n place out d t.broken := by
  refine Nests.of_team only stands same rfl (fun l hl => ⟨?_, rfl⟩) fun l hl => ⟨?_, rfl⟩
  · obtain ⟨e, small⟩ := value l hl
    rw [depth_mapDepth, if_pos hl, e, Nat.mod_eq_of_lt small]
  · rw [depth_mapDepth, if_neg (Nat.not_lt.2 hl)]

end nests

section words
variable {s : State} {t : Team} {c : Clause} (h : Issues s t c)
include h

theorem ifL_deepest (a : Code) (deep : t.deepest = true) : Traps s t c 0x15 0 (exec (.ifL a) s) := by
  rw [exec_ifL, execIfL, withTeam_eq h, if_pos deep]
  rfl

theorem loopL_deepest (deep : t.deepest = true) : Traps s t c 0x15 0 (exec .loopL s) := by
  rw [exec_loopL, execLoopL, withTeam_eq h, if_pos deep]
  rfl

theorem ifL_nests (a : Code) (shallow : ∀ l < t.lanes, t.depth l ≠ 127) :
    Nests s t 1 (Past t · c 1) (exec (.ifL a) s)
      (fun l => if 0 < t.depth l then t.depth l + 1 else if reads s t a l = 0 then 1 else 0) t.broken := by
  rw [exec_ifL, execIfL, withTeam_eq h, if_neg (Team.not_deepest shallow)]
  refine Nests.of_mapDepth rfl (Past.of_advance _ c 1) (SamePlaceApart.of_advance _ c 1) fun l hl => ⟨rfl, ?_⟩
  have := depth_lt t l
  have := shallow l hl
  repeat' split
  all_goals omega

theorem loopL_nests (shallow : ∀ l < t.lanes, t.depth l ≠ 127) :
    Nests s t 0 (Past t · c 1) (exec .loopL s) (fun l => if 0 < t.depth l then t.depth l + 1 else 0) t.broken := by
  rw [exec_loopL, execLoopL, withTeam_eq h, if_neg (Team.not_deepest shallow)]
  refine Nests.of_mapDepth rfl (Past.of_advance _ c 1) (SamePlaceApart.of_advance _ c 1) fun l hl => ⟨rfl, ?_⟩
  have := depth_lt t l
  have := shallow l hl
  split <;> omega

theorem elseL_nests : Nests s t 0 (Past t · c 1) (exec .elseL s)
    (fun l => if t.depth l = 0 then 1 else if t.depth l = 1 then 0 else t.depth l) t.broken := by
  rw [exec_elseL, execElseL, withTeam_eq h]
  refine Nests.of_mapDepth rfl (Past.of_advance _ c 1) (SamePlaceApart.of_advance _ c 1) fun l _ => ⟨rfl, ?_⟩
  have := depth_lt t l
  repeat' split
  all_goals omega

theorem endifL_nests : Nests s t 0 (Past t · c 1) (exec .endifL s) (fun l => t.depth l - 1) t.broken := by
  rw [exec_endifL, execEndifL, withTeam_eq h]
  exact Nests.of_mapDepth rfl (Past.of_advance _ c 1) (SamePlaceApart.of_advance _ c 1) fun l _ =>
    ⟨rfl, (Nat.sub_le _ _).trans_lt (depth_lt t l)⟩

theorem breakL_nests (a : Code) {n : BitVec 7} (hn : n.toNat < 127) :
    Nests s t 1 (Past t · c 1) (exec (.breakL a n) s)
      (fun l => if t.depth l = 0 ∧ reads s t a l ≠ 0 then n.toNat + 1 else t.depth l)
      (fun l => decide (t.depth l = 0 ∧ reads s t a l ≠ 0) || t.broken l) := by
  rw [exec_breakL, execBreakL, withTeam_eq h]
  refine Nests.of_team (u := { t with
    d := fsets (fun _ => (0 : BitVec 7)) t.d ((takenLanes s.fresh t a).map fun l => (l, n + 1))
    b := fsets falseAt t.b ((takenLanes s.fresh t a).map fun l => (l, true)) })
    rfl (Past.of_advance _ c 1) (SamePlaceApart.of_advance _ c 1) rfl (fun l hl => ?_) fun l hl => ?_
  · rw [Team.depth_of_fsets rfl, Team.broken_of_fsets rfl, toNat_succ_of_lt hn]
    simp only [mem_takenLanes, hl, true_and, reads]
    by_cases on : t.depth l = 0 ∧ src s.fresh t a l ≠ 0
    · rw [if_pos on, decide_eq_true on, Bool.true_or]
    · rw [if_neg on, decide_eq_false on, Bool.false_or]
  · rw [Team.depth_of_fsets rfl, Team.broken_of_fsets rfl]
    simp only [mem_takenLanes, Nat.not_lt.2 hl, false_and, if_false, and_self]

theorem contL_nests (a : Code) {n : BitVec 7} (hn : n.toNat < 127) :
    Nests s t 1 (Past t · c 1) (exec (.contL a n) s)
      (fun l => if t.depth l = 0 ∧ reads s t a l ≠ 0 then n.toNat + 1 else t.depth l) t.broken := by
  rw [exec_contL, execContL, withTeam_eq h]
  refine Nests.of_team (u := { t with
    d := fsets (fun _ => (0 : BitVec 7)) t.d ((takenLanes s.fresh t a).map fun l => (l, n + 1)) })
    rfl (Past.of_advance _ c 1) (SamePlaceApart.of_advance _ c 1) rfl (fun l hl => ⟨?_, rfl⟩) fun l hl => ⟨?_, rfl⟩
  · rw [Team.depth_of_fsets rfl, toNat_succ_of_lt hn]
    simp only [mem_takenLanes, hl, true_and]
  · rw [Team.depth_of_fsets rfl]
    simp only [mem_takenLanes, Nat.not_lt.2 hl, false_and, if_false]

end words

/-! ### ENDLOOP -/

/-- A lane that goes round the loop again: it is active, or it sits out by CONT (R124). -/
def Team.Again (t : Team) (l : Nat) : Prop := t.depth l = 0 ∨ (t.depth l = 1 ∧ t.broken l = false)

theorem depth_revive (t : Team) (l : Nat) :
    t.revive.depth l = if l < t.lanes ∧ t.depth l = 1 ∧ t.broken l = false then 0 else t.depth l := by
  rw [Team.revive, depth_mapDepth]
  have small := Nat.mod_eq_of_lt (depth_lt t l)
  by_cases hl : l < t.lanes <;> by_cases ho : t.depth l = 1 ∧ t.broken l = false <;> simp [hl, ho, small]

theorem revive_idle_iff (t : Team) : t.revive.activeLanes.isEmpty = true ↔ ∀ l < t.lanes, ¬ t.Again l := by
  simp only [List.isEmpty_iff, List.eq_nil_iff_forall_not_mem, Team.mem_activeLanes, not_and]
  refine forall_congr' fun l => forall_congr' fun (hl : l < t.lanes) => not_congr ?_
  rw [depth_revive, Team.Again]
  by_cases ho : t.depth l = 1 ∧ t.broken l = false <;> simp [hl, ho]

theorem depth_leaveLoop (t : Team) (l : Nat) :
    t.leaveLoop.depth l = if l < t.lanes then t.depth l - 1 else t.depth l := by
  have small : t.depth l - 1 < 128 := (Nat.sub_le _ _).trans_lt (depth_lt t l)
  rw [← Nat.mod_eq_of_lt small]
  exact depth_mapDepth t (fun l => t.depth l - 1) l

theorem broken_leaveLoop (t : Team) (l : Nat) :
    t.leaveLoop.broken l = if l < t.lanes ∧ t.depth l = 1 then false else t.broken l := by
  rw [Team.broken_of_fsets (t := t) (v := false) rfl]
  cases hb : t.broken l <;> simp [hb]

section endloop
variable {s : State} {t : Team} {c : Clause} (h : Issues s t c) (off : BitVec 22)
include h

theorem endloop_branches (again : ∃ l < t.lanes, t.Again l) :
    Nests s t 0 (Branched t · c (c.target off)) (exec (.endloop off) s)
      (fun l => if t.depth l = 1 ∧ t.broken l = false then 0 else t.depth l) t.broken := by
  have live : ¬ t.revive.activeLanes.isEmpty = true := fun idle =>
    let ⟨l, hl, back⟩ := again
    (revive_idle_iff t).1 idle l hl back
  rw [exec_endloop, execEndloop, withTeam_eq h, if_neg live]
  refine Nests.of_team (u := t.revive) rfl (Branched.of_branch _ c _) (SamePlaceApart.of_branch _ c _) rfl
    (fun l hl => ⟨?_, rfl⟩) fun l hl => ⟨?_, rfl⟩
  · simp only [depth_revive, hl, true_and]
  · simp only [depth_revive, Nat.not_lt.2 hl, false_and, if_false]

theorem endloop_leaves (done : ∀ l < t.lanes, ¬ t.Again l) :
    Nests s t 0 (Past t · c 1) (exec (.endloop off) s) (fun l => t.depth l - 1)
      (fun l => t.broken l && t.depth l != 1) := by
  rw [exec_endloop, execEndloop, withTeam_eq h, if_pos ((revive_idle_iff t).2 done)]
  have still (l : Nat) : t.revive.depth l = t.depth l := by
    rw [depth_revive, if_neg]
    exact fun ⟨hl, sat⟩ => done l hl (.inr sat)
  have lanes : t.revive.lanes = t.lanes := rfl
  have flags (l : Nat) : t.revive.broken l = t.broken l := rfl
  refine Nests.of_team (u := t.revive.leaveLoop) rfl (Past.of_advance _ c 1) (SamePlaceApart.of_advance _ c 1) rfl
    (fun l hl => ?_) fun l hl => ?_
  · simp only [depth_leaveLoop, broken_leaveLoop, still, lanes, flags, hl, true_and, if_true]
    by_cases one : t.depth l = 1 <;> simp [one]
  · simp only [depth_leaveLoop, broken_leaveLoop, still, lanes, flags, Nat.not_lt.2 hl, false_and, if_false, and_self]

end endloop

theorem structuredControl : Claims.StructuredControl := by
  intro s t c a n off h hn on
  refine ⟨fun deep => ?_, fun shallow => ⟨ifL_nests h a shallow, loopL_nests h shallow⟩, elseL_nests h, endifL_nests h,
    ?_, contL_nests h a hn, endloop_branches h off, endloop_leaves h off⟩
  · exact ⟨ifL_deepest h a (t.deepest_iff.2 deep), loopL_deepest h (t.deepest_iff.2 deep)⟩
  · exact breakL_nests h a hn

/-! ### Branches, NOP and PAUSE -/

theorem Jumps.of_branch (s : State) (t : Team) (c : Clause) (a : DWord) :
    Jumps s t c 0 a (.next (s.putTeam s.cur (t.branch c a))) :=
  ⟨_, rfl, Branched.of_branch t c a, SamePlaceApart.of_branch t c a⟩

/-- A branch by a word that has read a register. -/
theorem Jumps.of_branch_read (s : State) (t : Team) (c : Clause) (a : DWord) :
    Jumps s t c 1 a (.next (s.bump.putTeam s.cur (t.branch c a))) :=
  ⟨_, rfl, Branched.of_branch t c a, SamePlaceApart.of_branch t c a⟩

theorem takenLanes_all (k : Nat) (t : Team) (p : Code) :
    (takenLanes k t p).length = t.activeLanes.length ↔ ∀ l ∈ t.activeLanes, src k t p l ≠ 0 := by
  simp [takenLanes, List.length_filter_eq_length_iff]

theorem takenLanes_none (k : Nat) (t : Team) (p : Code) :
    (takenLanes k t p).length = 0 ↔ ∀ l ∈ t.activeLanes, src k t p l = 0 := by
  simp [takenLanes]

section branches
variable {s : State} {t : Team} {c : Clause} (h : Issues s t c)
include h

/-- A team-level word with no active lane is skipped whole (R127). -/
theorem teamWord_skips (idle : t.lowest = none) (n : Nat) (k : Team → Clause → Nat → Out) :
    Skips s t c 0 n (teamWord s n k) := by
  rw [teamWord_skip h idle]
  exact Skips.of_advance n

variable {l0 : Nat} (low : t.lowest = some l0)
include low

/-- BRV by what its lanes say: all take it, none does, or they differ (R126). -/
theorem brv_eq (off : BitVec 22) (p : Code) (off2 : BitVec 22) : exec (.brv off p off2) s =
    .next (s.bump.putTeam s.cur (t.branch c (
      if (takenLanes s.fresh t p).length = t.activeLanes.length then c.target off
      else if (takenLanes s.fresh t p).length = 0 then c.follow else c.target off2))) := by
  rw [exec_brv, execBrv, teamWord_eq h low]
  simp only [apply_ite (t.branch c)]

end branches

theorem branches : Claims.Branches := by
  intro s t c a off off2 imm h
  refine ⟨?_, fun idle => ⟨?_, ?_, ?_, ?_⟩, fun l0 low => ⟨?_, fun all => ?_, fun none => ?_, fun some0 some1 => ?_,
    ⟨fun aligned => ?_, fun odd => ?_⟩, ?_⟩⟩
  · rw [exec_nop, execNop, skipWord, withTeam_eq h]
    exact Skips.of_advance 1
  · exact teamWord_skips h idle 1 _
  · exact teamWord_skips h idle 2 _
  · exact teamWord_skips h idle 1 _
  · exact teamWord_skips h idle 1 _
  · rw [exec_bra, execBra, teamWord_eq h low]
    exact Jumps.of_branch s t c _
  · rw [brv_eq h low, if_pos ((takenLanes_all _ _ _).2 all)]
    exact Jumps.of_branch_read s t c _
  · have ne : t.activeLanes ≠ [] := fun e => by simp [(t.lowest_none_iff).2 e] at low
    have differ : ¬ (takenLanes s.fresh t a).length = t.activeLanes.length := by
      rw [(takenLanes_none _ _ _).2 none]
      exact fun e => ne (List.eq_nil_of_length_eq_zero e.symm)
    rw [brv_eq h low, if_neg differ, if_pos ((takenLanes_none _ _ _).2 none)]
    exact Jumps.of_branch_read s t c _
  · have notAll := mt (takenLanes_all s.fresh t a).1 fun all =>
      let ⟨l, hl, zero⟩ := some0
      all l hl zero
    have notNone := mt (takenLanes_none s.fresh t a).1 fun none =>
      let ⟨l, hl, taken⟩ := some1
      taken (none l hl)
    rw [brv_eq h low, if_neg notAll, if_neg notNone]
    exact Jumps.of_branch_read s t c _
  · rw [exec_jmpi, execJmpi, teamWord_eq h low, if_neg (not_not.2 aligned)]
    exact Jumps.of_branch_read s t c _
  · rw [exec_jmpi, execJmpi, teamWord_eq h low, if_pos odd]
    rfl
  · rw [exec_pause, execPause, teamWord_eq h low]
    refine ⟨_, rfl, Past.of_advance _ c 1, ?_, by rw [Team.advance_pauseEnd]⟩
    rw [Team.advance_pauseEnd]
    exact SamePlaceApart.of_advance _ c 1

/-- Settles O8: each structured-control word by the counters it leaves, each branch by where it sends its team. -/
theorem controlFlow : Obligations.ControlFlow := ⟨structuredControl, branches⟩

end Sys2Proof.Machine
end

section
/-! PROOFS. SystemRegisters: SYSR writes a register's value in every active lane; SYSW makes of its team what the model's one
function of the write says, with the team's held stores to its window first where it writes FSP (R118 to R121, R130, R134,
R167, R447). -/

namespace Sys2Proof.Machine

open Sys2Proof.Claims

/-! ### A word's own change of its team -/

/-- A state and a team are what a word answers once only. -/
theorem OnlyTeam.unique {s : State} {n : Nat} {t1 t2 : Team} {out : Out} (h1 : OnlyTeam s n t1 out)
    (h2 : OnlyTeam s n t2 out) : t1 = t2 := by
  have states := Host.Outcome.next.inj (h1.symm.trans h2)
  have teams := congrArg (fun u : State => u.team s.cur) states
  simpa [State.team, State.putTeam] using teams

theorem Team.reg_advance (t : Team) (c : Clause) (n r l : Nat) : (t.advance c n).reg r l = t.reg r l := by
  rw [Team.reg, Team.advance_regs]
  rfl

/-- Register pair d of every active lane holds what v says, and every other register of every lane is as before. (The
second halves as in a pair's effect, for lanes without another 1,024 above.) -/
def WrotePair (t t' : Team) (d : Nat) (v : Nat → DWord) : Prop :=
  (∀ l ∈ t.activeLanes, t'.reg d l = (v l).extractLsb' 0 32) ∧
  (∀ l ∈ t.activeLanes, l + 1024 ∉ t.activeLanes → t'.reg (d + 1) l = (v l).extractLsb' 32 32) ∧
  ∀ r l, (∀ j ∈ t.activeLanes, regKey r l ≠ regKey d j ∧ regKey r l ≠ regKey (d + 1) j) → t'.reg r l = t.reg r l

/-- The pairs that any per-lane word writes, without the word. -/
theorem WrotePair.of_putPair {s : State} {t : Team} {c : Clause} (h : Issues s t c) (d : Code) (v : Nat → DWord) :
    WrotePair t (t.putPair d.toNat v) d.toNat v := by
  obtain ⟨t', only, -, -, wrote⟩ := pairWord_effect h 1 d fun _ _ => v
  have e : t' = (t.putPair d.toNat v).advance c 1 := only.unique (by rw [pairWord, withTeam_eq h]; rfl)
  simp only [e, Team.reg_advance] at wrote
  exact wrote

theorem Wrote.advance {t u : Team} {d : Nat} {v : Nat → Word} (h : Wrote t u d v) (c : Clause) (n : Nat) :
    Wrote t (u.advance c n) d v := by
  simp only [Wrote, Team.reg_advance]
  exact h

theorem WrotePair.advance {t u : Team} {d : Nat} {v : Nat → DWord} (h : WrotePair t u d v) (c : Clause) (n : Nat) :
    WrotePair t (u.advance c n) d v := by
  simp only [WrotePair, Team.reg_advance]
  exact h

theorem SameButRegs.of_advance {t u : Team} (h : u = { t with regs := u.regs }) (c : Clause) (n : Nat) :
    SameButRegs t (u.advance c n) := by
  unfold SameButRegs
  rw [Team.advance_regs, ← h]
  exact SamePlaceApart.of_advance u c n

theorem Team.putPair_idle {t : Team} (h : t.lowest = none) (r : Nat) (f : Nat → DWord) : t.putPair r f = t := by
  rw [Team.putPair, (t.lowest_none_iff).1 h]
  rfl

/-! ### SYSR -/

section sysr
variable {s : State} {t : Team} {c : Clause} (h : Issues s t c) (d : Code) {n : SysReg}
include h

theorem sysr_eq (plain : n ≠ .timeNs ∨ t.lowest = none) : exec (.sysr d n) s =
    .next (s.putTeam s.cur ((t.putSys n d (sysValue s t n)).advance c 1)) := by
  rw [exec_sysr, execSysr, withTeam_eq h]
  refine if_neg fun ⟨time, live⟩ => ?_
  rcases plain with other | idle
  · exact other time
  · simp [(t.lowest_none_iff).1 idle] at live

theorem sysr_time (live : t.lowest ≠ none) : exec (.sysr d .timeNs) s = .next ((sysTime s t).2.putTeam s.cur
    (({ t with reads := t.reads + 1 }.putPair d.toNat fun _ => (sysTime s t).1).advance c 1)) := by
  rw [exec_sysr, execSysr, withTeam_eq h]
  refine if_pos ⟨rfl, ?_⟩
  simpa using mt (t.lowest_none_iff).2 live

theorem sysr_narrow (plain : n ≠ .timeNs ∨ t.lowest = none) (narrow : n.wide = false) :
    ∃ t', OnlyTeam s 0 t' (exec (.sysr d n) s) ∧ Past t t' c 1 ∧ SameButRegs t t' ∧
      Wrote t t' d.toNat fun l => (sysValue s t n l).extractLsb' 0 32 := by
  have put (f : Nat → DWord) : t.putSys n d f = t.putActive d.toNat fun l => (f l).extractLsb' 0 32 :=
    if_neg (by simp [narrow])
  rw [sysr_eq h d plain, put]
  exact ⟨_, rfl, Past.of_advance _ c 1, SameButRegs.of_advance rfl c 1, (Wrote.of_putActive t d.toNat _).advance c 1⟩

theorem sysr_wide (plain : n ≠ .timeNs ∨ t.lowest = none) (wide : n.wide = true) :
    PairEffect s t c 0 1 d (sysValue s t n) (exec (.sysr d n) s) := by
  have put (f : Nat → DWord) : t.putSys n d f = t.putPair d.toNat f := if_pos wide
  rw [sysr_eq h d plain, put]
  exact ⟨_, rfl, Past.of_advance _ c 1, SameButRegs.of_advance rfl c 1, (WrotePair.of_putPair h d _).advance c 1⟩

/-- SYSR of TIME_NS with an active lane: the read is counted, and its value written. -/
theorem sysr_timeNs (live : t.lowest ≠ none) : ∃ t', exec (.sysr d .timeNs) s = .next ((sysTime s t).2.putTeam s.cur t') ∧
    Past t t' c 1 ∧ SamePlaceApart { t with regs := t'.regs, reads := t.reads + 1 } t' ∧
    WrotePair t t' d.toNat fun _ => (sysTime s t).1 := by
  have wrote : WrotePair t ({ t with reads := t.reads + 1 }.putPair d.toNat fun _ => (sysTime s t).1) d.toNat
    fun _ => (sysTime s t).1 := WrotePair.of_putPair h d _
  refine ⟨_, sysr_time h d live, Past.of_advance _ c 1, ?_, wrote.advance c 1⟩
  rw [Team.advance_regs]
  exact SamePlaceApart.of_advance _ c 1

/-- SYSR completes, whatever its register. -/
theorem sysr_completes : ∃ u t', exec (.sysr d n) s = .next u ∧ u.team s.cur = some t' ∧ Past t t' c 1 := by
  by_cases plain : n ≠ .timeNs ∨ t.lowest = none
  · have place : Past t ((t.putSys n d (sysValue s t n)).advance c 1) c 1 := by
      unfold Team.putSys
      split <;> exact Past.of_advance _ c 1
    exact ⟨_, _, sysr_eq h d plain, State.team_putTeam_same .., place⟩
  · obtain ⟨time, live⟩ := not_or.1 plain
    obtain rfl := not_not.1 time
    obtain ⟨t', e, place, -⟩ := sysr_timeNs h d live
    exact ⟨_, t', e, State.team_putTeam_same .., place⟩

end sysr

theorem sysValue_values (s : State) (t : Team) (l : Nat) : SystemValues s t l (sysValue s t) := by
  have core {w : Workgroup} (hw : s.wg t.wg = some w) : teamCore s t = w.core := by simp [teamCore, hw]
  refine ⟨fun n => by cases n <;> decide, rfl, rfl, rfl, fun w hw => ⟨?_, ?_, ?_, ?_⟩, fun agent => ?_, fun x user hx => ?_,
    rfl, rfl, ?_, rfl, rfl, rfl, rfl, rfl, rfl, rfl, rfl, rfl⟩
  · simp [sysValue, hw]
  · simp [sysValue, core hw]
  · simp [sysValue, core hw]
  · simp [sysValue, core hw]
  · simp [sysValue, agent]
  · simp [sysValue, user, hx]
  · cases e : t.noticeEn <;> simp [sysValue, e]

/-! ### What SYSW makes of its team -/

section write
variable {t t' : Team} {n : SysReg} {x : DWord}

theorem sysWrite_readOnly (h : readOnly n = true) (t : Team) (x : DWord) : t.sysWrite n x = .error 0x13 := by
  cases n
  case noticeEn | tcause | tpc | taddr | tinfo | trapvec | fpstat | fb | fsp => cases h
  all_goals rfl

theorem sysWrite_outside (h : ¬ inLimits t n x) : t.sysWrite n x = .error 0x14 := by
  cases n
  case fb | fsp => exact if_neg h
  all_goals exact absurd trivial h

theorem sysWrite_written (writable : readOnly n = false) (other : n ≠ .fsp) (h : inLimits t n x) :
    ∃ t', Written t n x t' ∧ t.sysWrite n x = .ok t' := by
  cases n
  case noticeEn =>
    refine ⟨_, rfl, ?_⟩
    have bit : (x.extractLsb' 0 32).getLsbD 0 = x.getLsbD 0 := by simp
    simp only [Team.sysWrite, bit]
  case fb => exact ⟨_, rfl, if_pos h⟩
  case fsp => exact absurd rfl other
  case tcause | tpc | taddr | tinfo | trapvec | fpstat => exact ⟨_, rfl, rfl⟩
  all_goals cases writable

/-- The walk of the mark chain ends at 0, or at a mark that lies wholly below FSP. -/
theorem unlinkFrom_below (t : Team) (fsp fuel m : Nat) :
    t.unlinkFrom fsp fuel m = 0 ∨ t.unlinkFrom fsp fuel m + t.markSize ≤ fsp := by
  induction fuel generalizing m with
  | zero => exact .inl rfl
  | succ fuel ih =>
    rw [Team.unlinkFrom]
    split
    · assumption
    · exact ih _

/-- A head that lies wholly below FSP stays. -/
theorem unlinkFrom_keeps (t : Team) {fsp m : Nat} (h : m + t.markSize ≤ fsp) : t.unlinkFrom fsp t.chainBound m = m := by
  rw [Team.chainBound, Team.unlinkFrom, if_pos (.inr h)]

/-- The head after unlinking is 0, or a mark that lies wholly below FSP; one that did so before stays (R134). -/
theorem Team.head_unlink (t : Team) :
    (t.unlink.head = 0 ∨ t.unlink.head.toNat + t.markSize ≤ t.fsp.toNat) ∧
      (t.head.toNat + t.markSize ≤ t.fsp.toNat → t.unlink.head = t.head) := by
  refine ⟨?_, fun below => ?_⟩
  · rcases unlinkFrom_below t t.fsp.toNat t.chainBound t.head.toNat with zero | below
    · exact .inl (by rw [Team.unlink, zero]; rfl)
    · have small : t.unlinkFrom t.fsp.toNat t.chainBound t.head.toNat < 2 ^ 64 := by omega
      refine .inr ?_
      rw [Team.unlink, BitVec.toNat_ofNat, Nat.mod_eq_of_lt small]
      exact below
  · rw [Team.unlink, unlinkFrom_keeps t below, BitVec.ofNat_toNat, BitVec.setWidth_eq]

theorem unlink_written (t : Team) (x : DWord) : Written t .fsp x { t with fsp := x }.unlink :=
  ⟨rfl, Team.head_unlink { t with fsp := x }⟩

theorem sysWrite_fsp (h : inLimits t .fsp x) : ∃ t', Written t .fsp x t' ∧ t.sysWrite .fsp x = .ok t' :=
  ⟨_, unlink_written t x, if_pos h⟩

/-- SYSW moves no team from its place. -/
theorem past_of_written (h : Written t n x t') (c : Clause) (k : Nat) : Past t (t'.advance c k) c k := by
  cases n
  case noticeEn | tcause | tpc | taddr | tinfo | trapvec | fpstat | fb =>
    rw [show t' = _ from h]
    exact Past.of_advance _ c k
  case fsp =>
    obtain ⟨e, -⟩ := h
    rw [e]
    exact Past.of_advance _ c k
  all_goals exact h.elim

end write

/-! ### SYSW -/

/-- The value that SYSW of a register takes in a lane (R121). -/
def syswValue (s : State) (t : Team) (v : Code) (n : SysReg) (l : Nat) : DWord :=
  if n.wide then pair s.fresh t v l else (readReg s.fresh t v.toNat l).zeroExtend 64

/-- The state in which SYSW of a register writes: FSP follows the team's held stores to its window. -/
def syswState (s : State) (n : SysReg) : State := if n = .fsp then drainFrame s.bump s.cur false [] else s.bump

/-- What SYSW does in a state with its team, by what the write makes of the team. -/
def syswThen (s : State) (u : Nat) (t : Team) (c : Clause) (n : SysReg) : Except Nat Team → Out
  | .error cause => wordTrap s t c cause 0
  | .ok t' =>
    if n = .fsp then
      withSpill s t t' c t.fsp.toNat fun s2 => .next (spillCheck (s2.putTeam u (t'.advance c 1)) u)
    else .next (s.putTeam u (t'.advance c 1))

/-- A word that may have frames leave local memory is refused for its key, or goes on (R167). -/
theorem withSpill_spills (s : State) (t t' : Team) (c : Clause) (va : DWord) (k : State → Out) :
    Spills s s t t' c va (withSpill s t t' c va.toNat k) fun s2 => withSpill s t t' c va.toNat k = k s2 := by
  refine ⟨MemSide.spillRefused s t t', fun refused => ?_, fun free => ?_⟩
  · rw [withSpill, ← Prod.eta (spillRefused s t t'), refused]
    simp only [BitVec.ofNat_toNat, BitVec.setWidth_eq]
    rfl
  · rw [withSpill, ← Prod.eta (spillRefused s t t'), free]

section sysw
variable {s : State} {t : Team} {c : Clause} (h : Issues s t c)
include h

theorem syswState_team (n : SysReg) : ∃ t1, (syswState s n).team s.cur = some t1 ∧ SameButWindow t t1 := by
  obtain ⟨team, -⟩ := h
  unfold syswState
  split
  · exact drainFrame_team team (MemSide.bump s)
  · exact ⟨t, team, rfl, rfl⟩

theorem syswState_team_other {n : SysReg} (other : n ≠ .fsp) : (syswState s n).team s.cur = some t := by
  obtain ⟨team, -⟩ := h
  rw [syswState, if_neg other]
  exact team

variable {l0 : Nat} (low : t.lowest = some l0) (v : Code) {n : SysReg} {t1 : Team}
  (drained : (syswState s n).team s.cur = some t1)
include low drained

theorem sysw_eq : exec (.sysw v n) s = syswThen (syswState s n) s.cur t1 c n (t1.sysWrite n (syswValue s t v n l0)) := by
  unfold syswState at drained ⊢
  rw [exec_sysw, execSysw, teamWord_eq h low]
  simp only [drained]
  rfl

theorem sysw_error {cause : Nat} (e : t1.sysWrite n (syswValue s t v n l0) = .error cause) :
    exec (.sysw v n) s = wordTrap (syswState s n) t1 c cause 0 := by
  rw [sysw_eq h low v drained, e]
  rfl

theorem sysw_ok {t' : Team} (other : n ≠ .fsp) (e : t1.sysWrite n (syswValue s t v n l0) = .ok t') :
    exec (.sysw v n) s = .next ((syswState s n).putTeam s.cur (t'.advance c 1)) := by
  rw [sysw_eq h low v drained, e]
  exact if_neg other

theorem sysw_fsp {t' : Team} (fsp : n = .fsp) (e : t1.sysWrite n (syswValue s t v n l0) = .ok t') :
    exec (.sysw v n) s = withSpill (syswState s n) t1 t' c t1.fsp.toNat fun s2 =>
      .next (spillCheck (s2.putTeam s.cur (t'.advance c 1)) s.cur) := by
  rw [sysw_eq h low v drained, e]
  exact if_pos fsp

end sysw

/-! ### What a write of the window's team leaves alone -/

section window
variable {t t1 : Team} (same : SameButWindow t t1)
include same

theorem inLimits_sameButWindow (n : SysReg) (x : DWord) : inLimits t1 n x ↔ inLimits t n x := by
  obtain ⟨e, -⟩ := same
  rw [e]
  cases n <;> rfl

theorem Past.of_sameButWindow {t' : Team} {c : Clause} {k : Nat} (place : Past t1 t' c k) : Past t t' c k := by
  obtain ⟨e, -⟩ := same
  rw [e] at place
  exact place

theorem Traps.of_sameButWindow {s : State} {c : Clause} {cause : Nat} {va : DWord} {out : Out} (h : Traps s t1 c cause va out) :
    Traps s t c cause va out := by
  obtain ⟨e, -⟩ := same
  rw [e] at h
  exact h

end window

/-! ### A team whose frames need no more units (R309) -/

theorem Team.spillMore_mono {t u : Team} {k : Nat} (bytes : u.spillBytes k ≤ t.spillBytes k) (units : u.spill = t.spill) :
    u.spillMore k ≤ t.spillMore k := by
  simp only [Team.spillMore, Team.spillAt, roundUp, units]
  omega

theorem spillRefused_of_le {s : State} {t u : Team} (h : u.spillBytes u.rlvl ≤ t.spillBytes t.rlvl) :
    spillRefused s t u = (false, s) := if_pos h

theorem spillCheck_fits {s : State} {u : Nat} {t : Team} (ht : s.team u = some t) (h : t.spillMore t.rlvl = 0) :
    spillCheck s u = s.putTeam u t.trimSpill := by
  simp only [spillCheck, ht, h, if_true]

theorem withSpill_stays {s : State} {t t' : Team} (h : t'.spillBytes t'.rlvl ≤ t.spillBytes t.rlvl) (c : Clause) (va : Nat)
    (k : State → Out) : withSpill s t t' c va k = k s := by
  rw [withSpill, spillRefused_of_le h]

theorem spillBytes_advance (t : Team) (c : Clause) (n k : Nat) : (t.advance c n).spillBytes k = t.spillBytes k := by
  rw [SamePlaceApart.of_advance t c n]
  rfl

/-- A write of FSP that does not raise it makes no more bytes leave local memory. -/
theorem spillBytes_le_of_written {t t' : Team} {x : DWord} (h : Written t .fsp x t') (falls : x.toNat ≤ t.fsp.toNat) (k : Nat) :
    t'.spillBytes k ≤ t.spillBytes k := by
  obtain ⟨e, -⟩ := h
  have out : t'.outBytes k = t.outBytes k := by rw [e]; rfl
  have frames : t'.frameBytes ≤ t.frameBytes := by
    rw [e]
    exact Nat.sub_le_sub_right falls t.base
  simp only [Team.spillBytes, out]
  omega

theorem rlvl_of_written {t t' : Team} {x : DWord} (h : Written t .fsp x t') : t'.rlvl = t.rlvl := by rw [h.1]

theorem spill_of_written {t t' : Team} {x : DWord} (h : Written t .fsp x t') : t'.spill = t.spill := by rw [h.1]

theorem fsp_of_written {t t' : Team} {x : DWord} (h : Written t .fsp x t') : t'.fsp = x := by rw [h.1]

/-- SYSW of FSP, where FSP does not rise and the team's spilled state has its units: no state leaves local memory. -/
theorem sysw_fsp_falls {s : State} {t t1 : Team} {c : Clause} (h : Issues s t c) {l0 : Nat} (low : t.lowest = some l0) (v : Code)
    (drained : (syswState s .fsp).team s.cur = some t1) (limits : inLimits t1 .fsp (syswValue s t v .fsp l0))
    (falls : (syswValue s t v .fsp l0).toNat ≤ t1.fsp.toNat) (fits : t1.spillMore t1.rlvl = 0) :
    ∃ u t', exec (.sysw v .fsp) s = .next u ∧ u.team s.cur = some t' ∧ t'.fsp = syswValue s t v .fsp l0 ∧ Past t1 t' c 1 := by
  obtain ⟨t', written, ok⟩ := sysWrite_fsp limits
  have bytes := spillBytes_le_of_written written falls
  have stays : t'.spillBytes t'.rlvl ≤ t1.spillBytes t1.rlvl := by
    rw [rlvl_of_written written]
    exact bytes _
  have more : (t'.advance c 1).spillMore (t'.advance c 1).rlvl = 0 := by
    rw [Team.advance_rlvl, rlvl_of_written written]
    refine Nat.eq_zero_of_le_zero (fits ▸ Team.spillMore_mono ?_ ?_)
    · rw [spillBytes_advance]
      exact bytes _
    · rw [Team.advance_spill, spill_of_written written]
  have e := sysw_fsp h low v drained rfl ok
  rw [withSpill_stays stays, spillCheck_fits (State.team_putTeam_same ..) more] at e
  refine ⟨_, (t'.advance c 1).trimSpill, e, State.team_putTeam_same .., ?_, past_of_written written c 1⟩
  rw [Team.trimSpill, Team.advance_fsp]
  exact fsp_of_written written

/-! ### The two statements -/

theorem systemRegisters_values : Claims.SystemRegisters := by
  intro s t c d v n h
  refine ⟨fun plain => ⟨sysr_narrow h d plain, sysr_wide h d plain⟩, sysr_timeNs h d, sysValue_values s t, fun idle => ?_,
    fun l0 low => ?_⟩
  · exact teamWord_skips h idle 1 _
  obtain ⟨t1, drained, same⟩ := syswState_team h n
  have within := inLimits_sameButWindow same n (syswValue s t v n l0)
  refine ⟨fun ro => ?_, t1, drained, fun _ outside => ?_, fun writable other limits => ?_, fun fsp limits => ?_⟩
  · exact Traps.of_sameButWindow same (sysw_error h low v drained (sysWrite_readOnly ro t1 _))
  · exact sysw_error h low v drained (sysWrite_outside (mt within.1 outside))
  · obtain ⟨t', written, ok⟩ := sysWrite_written writable other (within.2 limits)
    exact ⟨t', written, sysw_ok h low v drained other ok⟩
  · subst fsp
    obtain ⟨t', written, ok⟩ := sysWrite_fsp (within.2 limits)
    refine ⟨t', written, ?_⟩
    rw [sysw_fsp h low v drained rfl ok]
    exact withSpill_spills (syswState s .fsp) t1 t' c t1.fsp _

theorem systemWordsComplete : Claims.SystemWordsComplete := by
  intro s t c d v n h x
  refine ⟨sysr_completes h d, fun l0 low writable other limits => ?_, fun l0 low fsp limits falls fits => ?_⟩
  · have drained := syswState_team_other h other
    obtain ⟨t', written, ok⟩ := sysWrite_written writable other limits
    exact ⟨_, _, sysw_ok h low v drained other ok, State.team_putTeam_same .., past_of_written written c 1⟩
  · subst fsp
    obtain ⟨t1, drained, same⟩ := syswState_team h .fsp
    have limits' := (inLimits_sameButWindow same .fsp _).2 limits
    have fsp : t1.fsp = t.fsp := by rw [same.1]
    have spill : t1.spillMore t1.rlvl = t.spillMore t.rlvl := by rw [same.1]; rfl
    obtain ⟨u, t', e, team, value, place⟩ :=
      sysw_fsp_falls h low v drained limits' (by rw [fsp]; exact falls) (spill.trans fits)
    exact ⟨u, t', e, team, value, Past.of_sameButWindow same place⟩

/-- Settles O14: SYSR by the registers that it writes, SYSW by the one function of its write, and both by where they leave their
team. -/
theorem systemRegisters : Obligations.SystemRegisters := ⟨systemRegisters_values, systemWordsComplete⟩

end Sys2Proof.Machine
end

section
/-! PROOFS. The words of the frame stack and of continuation slices: what they share (R130 to R134, R137, R157, R167, R353). -/

namespace Sys2Proof.Machine

open Sys2Proof.Claims

/-! ### What the checks of a range and the stores performed behind them keep of the machine -/

/-- In s' the current team's number is that of s, every team of s stands but for its window, and every workgroup has its
partition. -/
structure Kept (s s' : State) : Prop where
  cur : s'.cur = s.cur
  team : ∀ {u : Nat} {t : Team}, s.team u = some t → ∃ t', s'.team u = some t' ∧ SameButWindow t t'
  part : ∀ g, ((s'.wg g).map fun w => w.part) = (s.wg g).map fun w => w.part

theorem MemSide.kept {s s' : State} (h : MemSide s s') : Kept s s' :=
  ⟨h.cur, fun {u t} ht => ⟨t, (h.team u).trans ht, SameButWindow.refl t⟩, fun g => by rw [h.wg]⟩

theorem SharedSide.part {s s' : State} {g : Nat} (h : SharedSide s s' g) :
    ((s'.wg g).map fun w => w.part) = (s.wg g).map fun w => w.part := by
  unfold SharedSide at h
  cases e : s.wg g with
  | none => rw [e] at h; rw [h]
  | some w =>
    rw [e] at h
    obtain ⟨w', e', same⟩ := h
    rw [e', same]
    rfl

theorem StoreSide.kept {s s' : State} (h : StoreSide s s') : Kept s s' := ⟨h.cur, h.team, fun g => (h.2.2 g).part⟩

namespace Kept

variable {s s' s'' : State}

theorem refl (s : State) : Kept s s := (MemSide.refl s).kept

theorem trans (h : Kept s s') (h' : Kept s' s'') : Kept s s'' := by
  refine ⟨h'.cur.trans h.cur, fun ht => ?_, fun g => (h'.part g).trans (h.part g)⟩
  obtain ⟨t1, ht1, same⟩ := h.team ht
  obtain ⟨t2, ht2, same'⟩ := h'.team ht1
  exact ⟨t2, ht2, same.trans same'⟩

theorem same (h : Kept s s') {u : Nat} {t t' : Team} (ht : s.team u = some t) (ht' : s'.team u = some t') :
    SameButWindow t t' := by
  obtain ⟨t1, ht1, same⟩ := h.team ht
  obtain rfl : t1 = t' := Option.some.inj (ht1.symm.trans ht')
  exact same

theorem ownPart (h : Kept s s') {t t' : Team} (wg : t'.wg = t.wg) : ownPart s' t' = ownPart s t := by
  rw [Machine.ownPart, Machine.ownPart, wg, h.part]

end Kept

theorem SameButWindow.pend_nil {t t' : Team} (h : SameButWindow t t') (idle : t.pend = []) : t'.pend = [] := by
  obtain ⟨-, bare⟩ := h
  rw [idle] at bare
  exact List.map_eq_nil_iff.1 bare

/-! ### A word that goes on where its range passes its checks, and traps where it fails them (R157) -/

/-- What a word makes of the checks of a range: the trap of the range that fails, or k of the pieces that pass. -/
def ranged (met : Except (Nat × Nat) (List Seg) × State) (t : Team) (c : Clause) (k : List Seg → State → Out) : Out :=
  match met with
  | (.error (cause, a), s) => accessTrap s t c cause a
  | (.ok xs, s) => k xs s

theorem ranged_ok {met : Except (Nat × Nat) (List Seg) × State} {xs : List Seg} (h : met.1 = .ok xs) (t : Team) (c : Clause)
    (k : List Seg → State → Out) : ranged met t c k = k xs met.2 := by
  obtain ⟨m, s⟩ := met
  obtain rfl : m = .ok xs := h
  rfl

theorem ranged_pieces (xs : List Seg) (s : State) (t : Team) (c : Clause) (k : List Seg → State → Out) :
    ranged (.ok xs, s) t c k = k xs s := rfl

theorem ranged_error {met : Except (Nat × Nat) (List Seg) × State} {cause a : Nat} (h : met.1 = .error (cause, a)) (t : Team)
    (c : Clause) (k : List Seg → State → Out) : ranged met t c k = accessTrap met.2 t c cause a := by
  obtain ⟨m, s⟩ := met
  obtain rfl : m = .error (cause, a) := h
  rfl

theorem refused_ranged (s : State) (u : Nat) (t1 : Team) (wr : Bool) (va n : Nat) (t : Team) (c : Clause)
    (k : List Seg → State → Out) :
    Refused s t c (ranged (rangeAccess s u t1 wr va n) t c k) (rangeAccess s u t1 wr va n) :=
  ⟨MemSide.rangeAccess s u t1 wr va n, fun _ _ h => ranged_error h t c k⟩

/-- A range that a word reads or writes keeps the current team, as do the stores performed before it. -/
theorem kept_range (s : State) (u : Nat) (t : Team) (wr : Bool) (va n : Nat) : Kept s (rangeAccess s u t wr va n).2 :=
  (MemSide.rangeAccess s u t wr va n).kept

theorem kept_of_range {s s' : State} {u : Nat} {t : Team} {wr : Bool} {va n : Nat} {r : Except (Nat × Nat) (List Seg)}
    (met : rangeAccess s u t wr va n = (r, s')) : Kept s s' := by
  have kept := kept_range s u t wr va n
  rwa [met] at kept

theorem kept_drain (s : State) (u : Nat) (wr : Bool) (xs : List Seg) : Kept s (drainFrame s u wr xs) :=
  (StoreSide.drainFrame s u wr xs).kept

theorem kept_writeSegs (s : State) (xs : List Seg) (va : Nat) (l : List Byte) (ref : Bool) : Kept s (writeSegs s xs va l ref) :=
  (StoreSide.writeSegs s xs va l ref).kept

/-- The next range of a word: its failure traps, and its pieces lead to what k makes of them, in a state that still keeps the
first one. -/
theorem next_range {s0 s : State} {t1 : Team} {wr : Bool} {va n : Nat} {t : Team} {c : Clause} {k : List Seg → State → Out} {out : Out}
    {p : List Seg → Prop} (kept : Kept s0 s) (eq : out = ranged (rangeAccess s s.cur t1 wr va n) t c k)
    (goes : ∀ xs, Kept s0 (rangeAccess s s0.cur t1 wr va n).2 → out = k xs (rangeAccess s s0.cur t1 wr va n).2 → p xs) :
    Refused s t c out (rangeAccess s s0.cur t1 wr va n) ∧ ∀ xs, (rangeAccess s s0.cur t1 wr va n).1 = .ok xs → p xs := by
  rw [kept.cur] at eq
  refine ⟨?_, fun xs met => goes xs (kept.trans (kept_range ..)) (eq.trans (ranged_ok met ..))⟩
  rw [eq]
  exact refused_ranged ..

/-- A word whose frames may leave local memory goes on as it does after the check of their key (R167). -/
theorem spills_after {s s1 : State} {t t' : Team} {c : Clause} {va : DWord} {k : State → Out} {done : State → Prop}
    (h : MemSide s s1) (goes : ∀ s2, MemSide s1 s2 → withSpill s1 t t' c va.toNat k = k s2 → done s2) :
    Spills s s1 t t' c va (withSpill s1 t t' c va.toNat k) done := by
  obtain ⟨mem, refused, free⟩ := withSpill_spills s1 t t' c va k
  exact ⟨h.trans mem, refused, fun e => goes _ mem (free e)⟩

theorem spills_mono {s s1 : State} {t t' : Team} {c : Clause} {va : DWord} {out : Out} {p q : State → Prop}
    (h : Spills s s1 t t' c va out p) (goes : ∀ s2, p s2 → q s2) : Spills s s1 t t' c va out q := by
  obtain ⟨mem, refused, free⟩ := h
  exact ⟨mem, refused, fun e => goes _ (free e)⟩

/-! ### Bytes of the window -/

theorem Memory.length_read (m : Memory) (a n : Nat) : (Memory.read m a n).length = n := by
  induction n generalizing a with
  | zero => rfl
  | succ n ih => simp [Memory.read, ih]

theorem Memory.read_add (m : Memory) (a n k : Nat) : Memory.read m a (n + k) = Memory.read m a n ++ Memory.read m (a + n) k := by
  induction n generalizing a with
  | zero => simp [Memory.read]
  | succ n ih => rw [Nat.add_right_comm, Memory.read, Memory.read, ih, List.cons_append, Nat.add_right_comm a, Nat.add_assoc a]

theorem Memory.read_eq_map (m : Memory) (a n : Nat) : Memory.read m a n = (List.range n).map fun i => Memory.get m (a + i) := by
  induction n with
  | zero => rfl
  | succ n ih => rw [Memory.read_add, ih, List.range_succ, List.map_append]; rfl

theorem Memory.getElem?_read {m : Memory} {a n i : Nat} (h : i < n) : (Memory.read m a n)[i]? = some (Memory.get m (a + i)) := by
  simp [Memory.read_eq_map, h]

/-- A number in a window, of bytes that were read as part of a longer range. -/
theorem num_read {m : Memory} {a n o k : Nat} (h : o + k ≤ n) :
    num (Memory.read m a n) o k = ofBytes (Memory.read m (a + o) k) := by
  obtain ⟨r, rfl⟩ := Nat.exists_eq_add_of_le h
  rw [num, Memory.read_add, Memory.read_add, List.append_assoc, List.drop_left' (Memory.length_read m a o),
    List.take_left' (Memory.length_read m _ k)]

/-- The bytes that the pieces of a range give, where they lie in the team's own window. -/
theorem readSegs_window {s : State} {u : Nat} {t0 t : Team} {xs : List Seg} {va n a k : Nat} (chain : Chain a k xs)
    (window : InWindow t0 u xs) (team : s.team u = some t) (above : va ≤ a) (last : a + k = va + n) :
    readSegs s xs va n = Memory.read t.frame (a - t0.base) k := by
  induction xs generalizing a k with
  | nil =>
    obtain rfl : k = 0 := chain
    rfl
  | cons x xs ih =>
    obtain ⟨start, fits, rest⟩ := chain
    obtain ⟨place, base, off⟩ := window x List.mem_cons_self
    obtain ⟨r, rfl⟩ := Nat.exists_eq_add_of_le fits
    rw [Nat.add_sub_cancel_left] at rest
    have tail := ih rest (fun y hy => window y (List.mem_cons_of_mem _ hy)) (by omega) (by omega)
    have next : a + x.n - t0.base = a - t0.base + x.n := by omega
    rw [readSegs] at tail ⊢
    rw [List.flatMap_cons, tail, Memory.read_add, next, Memory.read_eq_map _ (a - t0.base), place, off, start]
    simp only [placeByte, team]
    rw [show max va a = a by omega, show min (va + n) (a + x.n) - a = x.n by omega, Nat.sub_self, Nat.add_zero]

/-! ### Writes to the window -/

/-- Team t of s has become t' of s' by l written at offset o of its window, and nothing else of s has changed; the reference
bits of the words of l are as p says. -/
structure Stored (s s' : State) (u : Nat) (t t' : Team) (o : Nat) (l : List Byte) (p : Nat → Bool) : Prop where
  team : s'.team u = some t'
  only : t' = { t with frame := t'.frame, frameBad := t'.frameBad, refs := t'.refs }
  rest : ∀ t2, s'.putTeam u t2 = s.putTeam u t2
  bytes : Claims.Window t t' o l
  refs : o % 8 = 0 → l.length % 8 = 0 → RefBits t t' (o / 8) (l.length / 8) p

theorem Stored.of_writeSegs {s : State} {u : Nat} {t0 t : Team} {xs : List Seg} {a n va : Nat} {l : List Byte} (ref : Bool)
    (chain : Chain a n xs) (window : InWindow t0 u xs) (team : s.team u = some t) (base : t.base = t0.base) (low : t0.base ≤ a)
    (above : a ≤ va) (within : va + l.length ≤ a + n) :
    ∃ t', Stored s (writeSegs s xs va l ref) u t t' (va - t0.base) l fun _ => ref := by
  obtain ⟨t', team', only, rest, bytes, refs⟩ :=
    writeSegs_window (va := va) (l := l) (ref := ref) chain window team base (by omega)
  refine ⟨t', team', only, rest, ⟨fun i hi => ?_, fun j hj => ?_⟩, fun start len i => ?_⟩
  · rw [bytes, if_pos (by omega), show va - t0.base + i + t0.base - va = i by omega]
  · rw [bytes, if_neg (by omega)]
  · have inside : (∃ j, a ≤ j + t0.base ∧ j + t0.base < a + n ∧ va ≤ j + t0.base ∧ j + t0.base < va + l.length ∧ j / 8 = i) ↔
        (va - t0.base) / 8 ≤ i ∧ i < (va - t0.base) / 8 + l.length / 8 := by
      constructor
      · rintro ⟨j, hj⟩
        omega
      · intro hi
        exact ⟨8 * i, by omega⟩
    rw [refs]
    simp only [inside]

theorem refBits_congr {t t' : Team} {w n : Nat} {p q : Nat → Bool} (h : RefBits t t' w n p) (e : ∀ i < n, p i = q i) :
    RefBits t t' w n q := by
  intro i
  rw [h i]
  by_cases inside : w ≤ i ∧ i < w + n
  · rw [if_pos inside, if_pos inside, e _ (by omega)]
  · rw [if_neg inside, if_neg inside]

theorem Stored.base {s s' : State} {u : Nat} {t t' : Team} {o : Nat} {l : List Byte} {p : Nat → Bool}
    (h : Stored s s' u t t' o l p) : t'.base = t.base := by
  rw [h.only]
  rfl

theorem Stored.congr {s s' : State} {u : Nat} {t t' : Team} {o : Nat} {l : List Byte} {p q : Nat → Bool}
    (h : Stored s s' u t t' o l p) (e : ∀ i < l.length / 8, p i = q i) : Stored s s' u t t' o l q :=
  ⟨h.team, h.only, h.rest, h.bytes, fun start len => refBits_congr (h.refs start len) e⟩

/-- Bytes written behind others. -/
theorem Stored.append {s s' s'' : State} {u : Nat} {t t' t'' : Team} {o : Nat} {l l' : List Byte} {p q : Nat → Bool}
    (h : Stored s s' u t t' o l p) (h' : Stored s' s'' u t' t'' (o + l.length) l' q) (len : l.length % 8 = 0) :
    Stored s s'' u t t'' o (l ++ l') fun i => if i < l.length / 8 then p i else q (i - l.length / 8) := by
  obtain ⟨first, others⟩ := h.bytes
  obtain ⟨second, others'⟩ := h'.bytes
  refine ⟨h'.team, ?_, fun t2 => (h'.rest t2).trans (h.rest t2), ⟨fun i hi => ?_, fun j hj => ?_⟩, fun start len' i => ?_⟩
  · rw [h'.only, h.only]
  · rw [List.length_append] at hi
    by_cases low : i < l.length
    · rw [others' _ (.inl (by omega)), first i low, List.getElem?_append_left low]
    · have e := second (i - l.length) (by omega)
      rw [List.getElem?_append_right (by omega), ← e]
      congr 1
      omega
  · rw [List.length_append] at hj
    rw [others' j (by omega), others j (by omega)]
  · rw [List.length_append] at len' ⊢
    have bits := h.refs start len i
    have bits' := h'.refs (by omega) (by omega) i
    rw [bits', bits]
    by_cases before : i < (o + l.length) / 8
    · rw [if_neg (by omega)]
      by_cases inside : o / 8 ≤ i
      · rw [if_pos (by omega), if_pos (by omega), if_pos (by omega)]
      · rw [if_neg (by omega), if_neg (by omega)]
    · by_cases inside : i < (o + l.length) / 8 + l'.length / 8
      · rw [if_pos (by omega), if_pos (by omega), if_neg (by omega)]
        congr 1
        omega
      · rw [if_neg (by omega), if_neg (by omega), if_neg (by omega)]

/-- What a window's bytes and reference bits are is a matter of the bytes and bits alone. -/
theorem window_of_frame {t t' t'' : Team} {o : Nat} {l : List Byte} (h : Claims.Window t t' o l) (e : t''.frame = t'.frame) :
    Claims.Window t t'' o l := by
  unfold Claims.Window at h ⊢
  rwa [e]

theorem refBits_of_refs {t t' t'' : Team} {w n : Nat} {p : Nat → Bool} (h : RefBits t t' w n p) (e : t''.refs = t'.refs) :
    RefBits t t'' w n p := by
  unfold RefBits at h ⊢
  rwa [e]

/-- A window stands at a multiple of 16. -/
theorem Team.base_mod (t : Team) : t.base % 16 = 0 := by
  unfold Team.base frameRegion
  omega

end Sys2Proof.Machine
end

section
/-! PROOFS. CallAndReturn and MarkPushesFrame: CALL and MARK push a frame by one scheme, RET pops one (R127, R130 to R134, R353,
R405, R433). -/

namespace Sys2Proof.Machine

open Sys2Proof.Claims

/-! ### The mark chain (R134) -/

/-- The mark that the mark at m names in its PREV. -/
def Team.prevMark (t : Team) (m : Nat) : Nat := t.frameNum (m + 24) 8

theorem unlinkFrom_stops (t : Team) {fsp fuel m : Nat} (h : t.unlinkFrom fsp fuel m ≠ 0) :
    ∃ n, t.unlinkFrom fsp fuel m = t.prevMark^[n] m ∧ t.prevMark^[n] m + t.markSize ≤ fsp ∧
      ∀ j < n, t.prevMark^[j] m ≠ 0 ∧ fsp < t.prevMark^[j] m + t.markSize := by
  induction fuel generalizing m with
  | zero => exact absurd rfl h
  | succ fuel ih =>
    rw [Team.unlinkFrom] at h ⊢
    split at h
    · next stops =>
      rw [if_pos stops]
      exact ⟨0, rfl, stops.resolve_left h, fun j hj => absurd hj (Nat.not_lt_zero j)⟩
    · next goes =>
      rw [if_neg goes]
      obtain ⟨n, e, below, before⟩ := ih h
      obtain ⟨live, high⟩ := not_or.1 goes
      refine ⟨n + 1, e, below, fun j hj => ?_⟩
      cases j with
      | zero => exact ⟨live, Nat.lt_of_not_le high⟩
      | succ j => exact before j (Nat.lt_of_succ_lt_succ hj)

theorem unlinkFrom_zero (t : Team) {fsp fuel m n : Nat} (h : t.unlinkFrom fsp fuel m = 0) (hn : n < fuel)
    (live : ∀ j ≤ n, t.prevMark^[j] m ≠ 0) : fsp < t.prevMark^[n] m + t.markSize := by
  induction fuel generalizing m n with
  | zero => exact absurd hn (Nat.not_lt_zero n)
  | succ fuel ih =>
    rw [Team.unlinkFrom] at h
    split at h
    · exact absurd h (live 0 (Nat.zero_le n))
    · next goes =>
      cases n with
      | zero => exact Nat.lt_of_not_le (not_or.1 goes).2
      | succ n => exact ih (m := t.prevMark m) h (Nat.lt_of_succ_lt_succ hn) fun j hj => live (j + 1) (Nat.succ_le_succ hj)

theorem unlinked_unlink (t : Team) : Unlinked t t.unlink := by
  have value : t.unlink.head.toNat = t.unlinkFrom t.fsp.toNat t.chainBound t.head.toNat := by
    have below := unlinkFrom_below t t.fsp.toNat t.chainBound t.head.toNat
    exact Nat.mod_eq_of_lt (by omega)
  refine ⟨fun live => ?_, fun gone n hn marks => ?_⟩
  · rw [value]
    exact unlinkFrom_stops t fun zero => live (BitVec.eq_of_toNat_eq (value.trans zero))
  · rw [gone] at value
    exact unlinkFrom_zero t value.symm hn marks

theorem unlinked_congr {t t' t'' : Team} (h : Unlinked t t') (head : t''.head = t'.head) (fsp : t''.fsp = t'.fsp) :
    Unlinked t t'' := by
  unfold Unlinked at h ⊢
  rwa [head, fsp]

/-- Unlinking looks at the window, the size of a mark and the head alone. -/
theorem unlinked_of_unlink {t u : Team} (frame : u.frame = t.frame) (window : u.window = t.window) (lanes : u.lanes = t.lanes)
    (framesz : u.framesz = t.framesz) (head : u.head = t.head) : Unlinked t u.unlink := by
  have bytes : u.frameNum = t.frameNum := by
    funext a n
    rw [Team.frameNum, Team.frameNum, Team.base, Team.base, frame, window]
  have size : u.markSize = t.markSize := by rw [Team.markSize, Team.markSize, lanes]
  have bound : u.chainBound = t.chainBound := by rw [Team.chainBound, Team.chainBound, framesz]
  have unlinked := unlinked_unlink u
  unfold Unlinked at unlinked ⊢
  rwa [bytes, size, bound, head] at unlinked

/-! ### CALL and MARK: a frame pushed at FSP -/

/-- A word that pushes z bytes at FSP: the range is checked, and the frames that leave local memory; the team's stores to it are
performed, then w writes it, and the team stands as f says. -/
def pushes (s : State) (t : Team) (c : Clause) (up : DWord) (z : Nat) (w : State → List Seg → State) (f : Team → Team) : Out :=
  ranged (rangeAccess s s.cur { t with fsp := t.fsp + up } true t.fsp.toNat z) t c fun xs s1 =>
    withSpill s1 t { t with fsp := t.fsp + up } c t.fsp.toNat fun s2 =>
      let s3 := w (drainFrame s2 s2.cur true xs) xs
      match s3.team s3.cur with
      | none => .next s3
      | some t => .next (spillCheck (s3.putTeam s3.cur (f t)) s3.cur)

/-- What pushes does past the checks of its range, where w writes l with the reference bits p. -/
def Pushed (s : State) (t : Team) (xs : List Seg) (f : Team → Team) (l : List Byte) (p : Nat → Bool) (out : Out)
    (s1 : State) : Prop :=
  let s2 := drainFrame s1 s.cur true xs
  StoreSide s1 s2 ∧ ∃ t1 t2, s2.team s.cur = some t1 ∧ SameButWindow t t1 ∧
    out = .next (spillCheck (s2.putTeam s.cur (f t2)) s.cur) ∧
    t2 = { t1 with frame := t2.frame, frameBad := t2.frameBad, refs := t2.refs } ∧
    Claims.Window t1 t2 (t.fsp.toNat - t.base) l ∧
    (t.fsp.toNat % 16 = 0 → l.length % 8 = 0 → RefBits t1 t2 ((t.fsp.toNat - t.base) / 8) (l.length / 8) p)

theorem pushes_refused (s : State) (t : Team) (c : Clause) (up : DWord) (z : Nat) (w : State → List Seg → State)
    (f : Team → Team) :
    Refused s t c (pushes s t c up z w f) (rangeAccess s s.cur { t with fsp := t.fsp + up } true t.fsp.toNat z) :=
  refused_ranged ..

theorem pushes_pushed {s : State} {t : Team} {c : Clause} (h : Issues s t c) {up : DWord} {z : Nat}
    {w : State → List Seg → State} (f : Team → Team) {l : List Byte} {p : Nat → Bool} (pos : 0 < z)
    (keeps : ∀ s1 xs, Kept s1 (w s1 xs))
    (writes : ∀ {s1 : State} {xs : List Seg} {t1 : Team}, Chain t.fsp.toNat z xs →
      InWindow { t with fsp := t.fsp + up } s.cur xs →
      s1.team s.cur = some t1 → t1.base = t.base → t.base ≤ t.fsp.toNat →
      ∃ t2, Stored s1 (w s1 xs) s.cur t1 t2 (t.fsp.toNat - t.base) l p)
    {xs : List Seg} (ok : (rangeAccess s s.cur { t with fsp := t.fsp + up } true t.fsp.toNat z).1 = .ok xs)
    (frames : ∀ x ∈ xs, x.typ = 4) :
    Spills s (rangeAccess s s.cur { t with fsp := t.fsp + up } true t.fsp.toNat z).2 t { t with fsp := t.fsp + up } c t.fsp
      (pushes s t c up z w f) (Pushed s t xs f l p (pushes s t c up z w f)) := by
  obtain ⟨team, -⟩ := h
  have met := MemSide.rangeAccess s s.cur { t with fsp := t.fsp + up } true t.fsp.toNat z
  obtain ⟨chain, window⟩ := rangeAccess_chain ok
  have window := window frames
  have low : t.base ≤ t.fsp.toNat := by
    cases xs with
    | nil => exact absurd chain (Nat.ne_of_gt pos)
    | cons x xs =>
      obtain ⟨-, above, -⟩ := window x List.mem_cons_self
      rw [chain.1] at above
      exact above
  rw [pushes, ranged_ok ok]
  refine spills_after met fun s2 spill goes => ?_
  rw [goes]
  have cur : s2.cur = s.cur := spill.cur.trans met.cur
  have stores := StoreSide.drainFrame s2 s.cur true xs
  obtain ⟨t1, team1, same⟩ := ((met.trans spill).kept.trans stores.kept).team team
  have base : t1.base = t.base := by
    obtain ⟨e, -⟩ := same
    rw [e]
    rfl
  obtain ⟨t2, stored⟩ := writes chain window team1 base low
  refine ⟨stores, t1, t2, team1, same, ?_, stored.only, stored.bytes, fun start len => ?_⟩
  · have cur' : (w (drainFrame s2 s.cur true xs) xs).cur = s.cur := (keeps _ _).cur.trans (stores.cur.trans cur)
    simp only [cur, cur', stored.team, stored.rest]
  · have := t.base_mod
    exact stored.refs (by omega) len

/-- A team that pushes or pops a frame: its FB, FSP and mark-chain head change, and it branches. -/
def Team.reframe (t : Team) (fb fsp head : DWord) (c : Clause) (a : DWord) : Team :=
  { t with fb := fb, fsp := fsp, head := head }.branch c a

section reframe
variable (t : Team) (fb fsp head : DWord) (c : Clause) (a : DWord)

theorem Team.reframe_fb : (t.reframe fb fsp head c a).fb = fb := Team.branch_fb ..
theorem Team.reframe_fsp : (t.reframe fb fsp head c a).fsp = fsp := Team.branch_fsp ..
theorem Team.reframe_head : (t.reframe fb fsp head c a).head = head := Team.branch_head ..
theorem Team.reframe_frame : (t.reframe fb fsp head c a).frame = t.frame := Team.branch_frame ..
theorem Team.reframe_refs : (t.reframe fb fsp head c a).refs = t.refs := Team.branch_refs ..

variable {t}

/-- Where the team stands, and what else of it has changed, seen from the team before the writes to its window. -/
theorem reframe_place {t0 : Team} (only : t = { t0 with frame := t.frame, frameBad := t.frameBad, refs := t.refs }) :
    Branched t0 (t.reframe fb fsp head c a) c a ∧ FrameOnly t0 (t.reframe fb fsp head c a) := by
  have place := Branched.of_branch { t with fb := fb, fsp := fsp, head := head } c a
  have apart := SamePlaceApart.of_branch { t with fb := fb, fsp := fsp, head := head } c a
  rw [only] at place apart ⊢
  exact ⟨place, by simpa [FrameOnly, Team.reframe] using apart⟩

end reframe

/-! ### CALL (R132, R353) -/

/-- The writes of CALL: the return address, and the saved FB with its reference bit. -/
def callWrites (t : Team) (c : Clause) (s : State) (xs : List Seg) : State :=
  writeSegs (writeSegs s xs t.fsp.toNat (toBytes 8 c.follow.toNat) false) xs (t.fsp.toNat + 8) (toBytes 8 t.fb.toNat) true

theorem callWrites_kept (t : Team) (c : Clause) (s : State) (xs : List Seg) : Kept s (callWrites t c s xs) :=
  (kept_writeSegs ..).trans (kept_writeSegs ..)

theorem callWrites_stored {s s1 : State} {t t1 u : Team} {c : Clause} {xs : List Seg} (chain : Chain t.fsp.toNat 16 xs)
    (window : InWindow u s.cur xs) (team : s1.team s.cur = some t1) (base1 : t1.base = t.base) (base : u.base = t.base)
    (low : t.base ≤ t.fsp.toNat) :
    ∃ t2, Stored s1 (callWrites t c s1 xs) s.cur t1 t2 (t.fsp.toNat - t.base) (toBytes 8 c.follow.toNat ++ toBytes 8 t.fb.toNat)
      fun i => i == 1 := by
  have len (v : Nat) : (toBytes 8 v).length = 8 := toBytes_length 8 v
  obtain ⟨t2, first⟩ := Stored.of_writeSegs (va := t.fsp.toNat) (l := toBytes 8 c.follow.toNat) false chain window team
    (base1.trans base.symm) (by omega) (Nat.le_refl _) (by rw [len]; omega)
  obtain ⟨t3, second⟩ := Stored.of_writeSegs (va := t.fsp.toNat + 8) (l := toBytes 8 t.fb.toNat) true chain window first.team
    (first.base.trans (base1.trans base.symm)) (by omega) (by omega) (by rw [len])
  rw [base] at first second
  rw [show t.fsp.toNat + 8 - t.base = t.fsp.toNat - t.base + (toBytes 8 c.follow.toNat).length by rw [len]; omega] at second
  refine ⟨t3, (first.append second (by rw [len])).congr fun i hi => ?_⟩
  rw [List.length_append, len, len] at hi
  simp only [len]
  interval_cases i <;> rfl

/-- The team after CALL. -/
def Team.afterCall (c : Clause) (off : BitVec 22) (t : Team) : Team := t.reframe t.fsp (t.fsp + 16) t.head c (c.target off)

theorem call_eq {s : State} {t : Team} {c : Clause} (h : Issues s t c) {l0 : Nat} (low : t.lowest = some l0) (off : BitVec 22) :
    exec (.call off) s = if t.limit < t.fsp.toNat + 16 then wordTrap s t c 0x14 0
      else pushes s t c 16 16 (callWrites t c) (Team.afterCall c off) := by
  rw [exec_call, execCall, teamWord_eq h low]
  rfl

theorem call_claim : Claims.Call := by
  intro s t c off h out
  refine ⟨fun idle => teamWord_skips h idle 1 _, fun l0 low => ?_⟩
  have eq : out = _ := call_eq h low off
  refine ⟨fun full => eq.trans (if_pos full), fun room => ?_⟩
  rw [eq, if_neg (Nat.not_lt.2 room)]
  refine ⟨fun cause b e => (pushes_refused ..).imp id fun trap => trap cause b e, fun xs ok frames => ?_⟩
  refine spills_mono (pushes_pushed h (Team.afterCall c off) (by decide) (callWrites_kept t c)
    (fun chain window team base low => callWrites_stored chain window team base rfl low) ok frames) fun s1 done => ?_
  obtain ⟨stores, t1, t2, team, same, next, only, bytes, refs⟩ := done
  have fsp : t2.fsp = t.fsp := by rw [only, same.1]
  have head : t2.head = t.head := by rw [only, same.1]
  obtain ⟨place, apart⟩ := reframe_place t2.fsp (t2.fsp + 16) t2.head c (c.target off) only
  have length : (toBytes 8 c.follow.toNat ++ toBytes 8 t.fb.toNat).length = 16 := by simp [toBytes_length]
  rw [length] at refs
  exact ⟨stores, t1, _, team, same, next, place, apart, (Team.reframe_fb ..).trans fsp, by rw [← fsp]; exact Team.reframe_fsp ..,
    (Team.reframe_head ..).trans head, window_of_frame bytes (Team.reframe_frame ..),
    fun start => refBits_of_refs (refs start rfl) (Team.reframe_refs ..)⟩

/-! ### MARK (R134, R405) -/

/-- The bytes of a mark before its references, and those behind them. -/
def markHead (c : Clause) (tag : BitVec 16) : List Byte :=
  toBytes 2 tag.toNat ++ toBytes 2 0x4D41 ++ zeros 4 ++ toBytes 8 c.follow.toNat
def Team.markTail (t : Team) : List Byte := t.ctrs ++ zeros (t.markSize - 32 - t.lanes)
def Team.markRefs (t : Team) : List Byte := toBytes 8 t.fb.toNat ++ toBytes 8 t.head.toNat

theorem markHead_length (c : Clause) (tag : BitVec 16) : (markHead c tag).length = 16 := by
  simp [markHead, toBytes_length, zeros]

theorem Team.markRefs_length (t : Team) : t.markRefs.length = 16 := by simp [Team.markRefs, toBytes_length]

theorem Team.markTail_length (t : Team) : t.markTail.length = t.markSize - 32 := by
  simp only [Team.markTail, Team.ctrs, zeros, List.length_append, List.length_map, List.length_range, List.length_replicate,
    Team.markSize, ceilDiv]
  omega

theorem Team.markSize_mod (t : Team) : 32 ≤ t.markSize ∧ t.markSize % 16 = 0 := by
  unfold Team.markSize
  omega

/-- The writes of MARK; SAVEDFB and PREV have their reference bits. -/
def markWrites (t : Team) (c : Clause) (tag : BitVec 16) (s : State) (xs : List Seg) : State :=
  writeSegs (writeSegs (writeSegs s xs t.fsp.toNat (markHead c tag) false) xs (t.fsp.toNat + 16) t.markRefs true)
    xs (t.fsp.toNat + 32) t.markTail false

theorem markWrites_kept (t : Team) (c : Clause) (tag : BitVec 16) (s : State) (xs : List Seg) :
    Kept s (markWrites t c tag s xs) :=
  ((kept_writeSegs ..).trans (kept_writeSegs ..)).trans (kept_writeSegs ..)

theorem markWrites_stored {s s1 : State} {t t1 u : Team} {c : Clause} (tag : BitVec 16) {xs : List Seg}
    (chain : Chain t.fsp.toNat t.markSize xs) (window : InWindow u s.cur xs) (team : s1.team s.cur = some t1)
    (base1 : t1.base = t.base) (base : u.base = t.base) (low : t.base ≤ t.fsp.toNat) :
    ∃ t2, Stored s1 (markWrites t c tag s1 xs) s.cur t1 t2 (t.fsp.toNat - t.base) (markHead c tag ++ t.markRefs ++ t.markTail)
      fun i => i == 2 || i == 3 := by
  have ⟨large, whole⟩ := t.markSize_mod
  have len1 := markHead_length c tag
  have len2 := t.markRefs_length
  have len3 := t.markTail_length
  obtain ⟨t2, first⟩ := Stored.of_writeSegs (va := t.fsp.toNat) (l := markHead c tag) false chain window team
    (base1.trans base.symm) (by omega) (Nat.le_refl _) (by omega)
  obtain ⟨t3, second⟩ := Stored.of_writeSegs (va := t.fsp.toNat + 16) (l := t.markRefs) true chain window first.team
    (first.base.trans (base1.trans base.symm)) (by omega) (by omega) (by omega)
  obtain ⟨t4, third⟩ := Stored.of_writeSegs (va := t.fsp.toNat + 32) (l := t.markTail) false chain window second.team
    (second.base.trans (first.base.trans (base1.trans base.symm))) (by omega) (by omega) (by omega)
  rw [base] at first second third
  rw [show t.fsp.toNat + 16 - t.base = t.fsp.toNat - t.base + (markHead c tag).length by omega] at second
  rw [show t.fsp.toNat + 32 - t.base = t.fsp.toNat - t.base + (markHead c tag ++ t.markRefs).length by
    rw [List.length_append]; omega] at third
  refine ⟨t4, ((first.append second (by omega)).append third (by rw [List.length_append]; omega)).congr fun i hi => ?_⟩
  rw [List.length_append, len1, len2]
  by_cases low : i < 4
  · interval_cases i <;> rfl
  · rw [if_neg (by omega)]
    have ne2 : ¬ i = 2 := by omega
    have ne3 : ¬ i = 3 := by omega
    simp [ne2, ne3]

/-- The team after MARK. -/
def Team.afterMark (c : Clause) (z : Nat) (t : Team) : Team := t.reframe t.fb (t.fsp + BitVec.ofNat 64 z) t.fsp c c.follow

theorem mark_eq {s : State} {t : Team} {c : Clause} (h : Issues s t c) {l0 : Nat} (low : t.lowest = some l0) (tag : BitVec 16) :
    exec (.mark tag) s = if t.limit < t.fsp.toNat + t.markSize then wordTrap s t c 0x14 0
      else pushes s t c (BitVec.ofNat 64 t.markSize) t.markSize (markWrites t c tag) (Team.afterMark c t.markSize) := by
  rw [exec_mark, execMark, teamWord_eq h low]
  rfl

/-- Settles O10: the shared scheme of CALL and MARK, with the three writes that lay the mark. -/
theorem markPushesFrame : Obligations.MarkPushesFrame := by
  unfold Obligations.MarkPushesFrame
  intro s t c tag h out z
  have size : z = t.markSize := rfl
  clear_value z
  subst size
  refine ⟨fun idle => teamWord_skips h idle 1 _, fun l0 low => ?_⟩
  have eq : out = _ := mark_eq h low tag
  refine ⟨fun full => eq.trans (if_pos full), fun room => ?_⟩
  have ⟨large, whole⟩ := t.markSize_mod
  rw [eq, if_neg (Nat.not_lt.2 room)]
  refine ⟨fun cause b e => (pushes_refused ..).imp id fun trap => trap cause b e, fun xs ok frames => ?_⟩
  refine spills_mono (pushes_pushed h (Team.afterMark c t.markSize) (by omega) (markWrites_kept t c tag)
    (fun chain window team base low => markWrites_stored tag chain window team base rfl low) ok frames) fun s1 done => ?_
  obtain ⟨stores, t1, t2, team, same, next, only, bytes, refs⟩ := done
  have fsp : t2.fsp = t.fsp := by rw [only, same.1]
  have fb : t2.fb = t.fb := by rw [only, same.1]
  obtain ⟨place, apart⟩ := reframe_place t2.fb (t2.fsp + BitVec.ofNat 64 t.markSize) t2.fsp c c.follow only
  have length : (markHead c tag ++ t.markRefs ++ t.markTail).length = t.markSize := by
    rw [List.length_append, List.length_append, markHead_length, t.markRefs_length, t.markTail_length]
    omega
  rw [length] at refs
  have layout : markHead c tag ++ t.markRefs ++ t.markTail = toBytes 2 tag.toNat ++ toBytes 2 0x4D41 ++ zeros 4 ++
      toBytes 8 c.follow.toNat ++ toBytes 8 t.fb.toNat ++ toBytes 8 t.head.toNat ++
      ((List.range t.lanes).map fun l => BitVec.ofNat 8 (t.depth l + 128 * (t.broken l).toNat)) ++
      zeros (t.markSize - 32 - t.lanes) := by
    simp only [markHead, Team.markRefs, Team.markTail, Team.ctrs, List.append_assoc, Nat.mul_comm 128]
  rw [layout] at bytes
  exact ⟨stores, t1, _, team, same, next, place, apart, (Team.reframe_fb ..).trans fb, by rw [← fsp]; exact Team.reframe_fsp ..,
    (Team.reframe_head ..).trans fsp, window_of_frame bytes (Team.reframe_frame ..),
    fun start => refBits_of_refs (refs start (by omega)) (Team.reframe_refs ..)⟩

/-! ### RET (R132, R433) -/

/-- The team after RET, where its frame holds fb and pc. -/
def Team.afterRet (c : Clause) (fb pc : DWord) (t : Team) : Team :=
  t.reframe fb t.fb { t with fsp := t.fb, fb := fb }.unlink.head c pc

section afterRet
variable (t : Team) (c : Clause) (fb pc : DWord)

theorem afterRet_place : Branched t (t.afterRet c fb pc) c pc ∧ FrameOnly t (t.afterRet c fb pc) := reframe_place _ _ _ c pc rfl

theorem afterRet_unlinked : Unlinked t (t.afterRet c fb pc) :=
  have unlinked : Unlinked t { t with fsp := t.fb, fb := fb }.unlink := unlinked_of_unlink rfl rfl rfl rfl rfl
  unlinked_congr unlinked (Team.reframe_head ..) (Team.reframe_fsp ..)

theorem afterRet_head (below : t.head.toNat + t.markSize ≤ t.fb.toNat) : (t.afterRet c fb pc).head = t.head :=
  (Team.reframe_head ..).trans ((Team.head_unlink { t with fsp := t.fb, fb := fb }).2 below)

end afterRet

/-- What RET does with the frame's bytes l, once the team's stores to it are performed. -/
def popped (s : State) (c : Clause) (l : List Byte) : Out :=
  match s.team s.cur with
  | none => .next s
  | some t => .next (s.putTeam s.cur (t.afterRet c (BitVec.ofNat 64 (num l 8 8)) (BitVec.ofNat 64 (num l 0 8))))

theorem ret_eq {s : State} {t : Team} {c : Clause} (h : Issues s t c) {l0 : Nat} (low : t.lowest = some l0) :
    exec .ret s = if t.fsp.toNat < t.fb.toNat + 16 then wordTrap s t c 0x0A t.fb
      else ranged (rangeAccess s s.cur t false t.fb.toNat 16) t c fun xs s1 =>
        popped (drainFrame s1 s1.cur false xs) c (readSegs (drainFrame s1 s1.cur false xs) xs t.fb.toNat 16) := by
  rw [exec_ret, execRet, teamWord_eq h low]
  rfl

/-- The two words of a frame, as the pieces of its range give them. -/
theorem frame_words {s : State} {u : Nat} {t t1 : Team} {xs : List Seg} {a : Nat} (chain : Chain a 16 xs)
    (window : InWindow t u xs) (team : s.team u = some t1) (base : t1.base = t.base) {o : Nat} (ho : o + 8 ≤ 16) :
    num (readSegs s xs a 16) o 8 = t1.frameNum (a + o) 8 := by
  have low : t.base ≤ a := by
    cases xs with
    | nil => cases chain
    | cons x xs =>
      obtain ⟨-, above, -⟩ := window x List.mem_cons_self
      rwa [chain.1] at above
  rw [readSegs_window chain window team (Nat.le_refl _) rfl, num_read ho, Team.frameNum, base, if_neg (by omega),
    Nat.sub_add_comm low]

theorem return_claim : Claims.Return := by
  intro s t c h out
  refine ⟨fun idle => teamWord_skips h idle 1 _, fun l0 low => ?_⟩
  have eq : out = _ := ret_eq h low
  refine ⟨fun stale => eq.trans (if_pos stale), fun above => ?_⟩
  rw [eq, if_neg (Nat.not_lt.2 above)]
  refine ⟨fun cause b e => (refused_ranged ..).imp id fun trap => trap cause b e, fun xs ok frames => ?_⟩
  obtain ⟨team, -⟩ := h
  have met := MemSide.rangeAccess s s.cur t false t.fb.toNat 16
  have stores := StoreSide.drainFrame (rangeAccess s s.cur t false t.fb.toNat 16).2 s.cur false xs
  obtain ⟨t1, team1, same⟩ := (met.kept.trans stores.kept).team team
  obtain ⟨chain, window⟩ := rangeAccess_chain ok
  have base : t1.base = t.base := by rw [same.1]; rfl
  have fb : t1.fb = t.fb := by rw [same.1]
  have head : t1.head = t.head := by rw [same.1]
  have size : t1.markSize = t.markSize := by rw [same.1]; rfl
  have words {o : Nat} := frame_words chain (window frames) team1 base (o := o)
  have next : ranged (rangeAccess s s.cur t false t.fb.toNat 16) t c (fun xs s1 =>
      popped (drainFrame s1 s1.cur false xs) c (readSegs (drainFrame s1 s1.cur false xs) xs t.fb.toNat 16)) =
      .next ((drainFrame (rangeAccess s s.cur t false t.fb.toNat 16).2 s.cur false xs).putTeam s.cur (t1.afterRet c
        (BitVec.ofNat 64 (t1.frameNum (t.fb.toNat + 8) 8)) (BitVec.ofNat 64 (t1.frameNum t.fb.toNat 8)))) := by
    rw [ranged_ok ok]
    simp only [popped, met.cur, stores.cur, team1, words (o := 8) (by decide), words (o := 0) (by decide), Nat.add_zero]
  obtain ⟨place, apart⟩ := afterRet_place t1 c (BitVec.ofNat 64 (t1.frameNum (t.fb.toNat + 8) 8))
    (BitVec.ofNat 64 (t1.frameNum t.fb.toNat 8))
  refine ⟨met, stores, t1, _, team1, same, next, place, apart, (Team.reframe_fsp ..).trans fb, Team.reframe_fb ..,
    Team.reframe_frame .., Team.reframe_refs .., afterRet_unlinked t1 c _ _, fun below => ?_⟩
  rw [← head, ← size, ← fb] at below
  exact (afterRet_head t1 c _ _ below).trans head

/-- Settles O9: CALL by the shared scheme of pushed frames, RET by the two words of the frame that it pops. -/
theorem callAndReturn : Obligations.CallAndReturn := ⟨call_claim, return_claim⟩

end Sys2Proof.Machine
end

section
/-! PROOFS. SliceStores: the checks of a slice handle in their order, and SLFREE (R139 to R142, R440, R445). -/

namespace Sys2Proof.Machine

open Sys2Proof.Claims

/-! ### The checks of a handle -/

/-- The reserved bits of a handle, and its PART where they are 0 (R140). -/
theorem handle_reserved (h : DWord) : dfld h 38 26 = h.toNat / 2 ^ 38 := by
  have := h.isLt
  unfold dfld fld
  omega

theorem handle_part {h : DWord} (reserved : h.toNat / 2 ^ 38 = 0) : dfld h 32 6 = h.toNat / 2 ^ 32 := by
  unfold dfld fld
  omega

/-- The checks of the entry that a handle names: LIVE and GEN, then OWNER. -/
def entryChecks (s : State) (own : Nat) (h : DWord) (base : Nat) (e : List Byte) :
    Except (Nat × Nat) (Nat × Nat × List Byte) × State :=
  if !entryLive e ∨ entryGen e ≠ dfld h 16 16 then (.error (0x0B, 0), s)
  else if entryOwner e ≠ own then (.error (0x0C, 0), s)
  else (.ok (base, dfld h 0 16, e), s)

/-- The checks of a handle from the directory's block on. -/
def directoryChecks (own : Nat) (h : DWord) (base : Nat) (met : Except (Nat × Nat) (List Seg) × State) :
    Except (Nat × Nat) (Nat × Nat × List Byte) × State :=
  match met with
  | (.error e, s) => (.error e, s)
  | (.ok ds, s) => entryChecks (drainFrame s s.cur false ds) own h base
      (dirEntry (readSegs (drainFrame s s.cur false ds) ds base 2048) (dfld h 0 16))

section handle
variable (s : State) (t : Team) (h : DWord)

theorem checkHandle_reserved (bits : h.toNat / 2 ^ 38 ≠ 0) : checkHandle s t h = (.error (0x0B, 0), s) := by
  rw [← handle_reserved] at bits
  exact if_pos bits

theorem checkHandle_other {h : DWord} (bits : h.toNat / 2 ^ 38 = 0) (other : h.toNat / 2 ^ 32 ≠ ownPart s t) :
    checkHandle s t h = (.error (0x0C, 0), s) := by
  rw [← handle_part bits] at other
  rw [← handle_reserved] at bits
  exact (if_neg (not_not.2 bits)).trans (if_pos other)

/-- The checks of a handle of the team's own partition. -/
theorem checkHandle_own {h : DWord} (bits : h.toNat / 2 ^ 38 = 0) (own : h.toNat / 2 ^ 32 = ownPart s t) :
    checkHandle s t h = match sliceStore s t with
      | none => (.error (0x0B, 0), s)
      | some (base, size) =>
        if entryCount size ≤ dfld h 0 16 then (.error (0x0B, 0), s)
        else directoryChecks (ownPart s t) h base (rangeAccess s s.cur t false base 2048) := by
  rw [← handle_part bits] at own
  rw [← handle_reserved] at bits
  refine (if_neg (not_not.2 bits)).trans ((if_neg (not_not.2 own)).trans ?_)
  rfl

end handle

theorem entryChecks_state (s : State) (own : Nat) (h : DWord) (base : Nat) (e : List Byte) :
    (entryChecks s own h base e).2 = s := by
  unfold entryChecks
  split
  · rfl
  · split <;> rfl

section entry
variable {s : State} {own : Nat} {h : DWord} {base : Nat} {e : List Byte}

theorem entryLive_iff : entryLive e = true ↔ num e 2 1 % 2 = 1 := beq_iff_eq

theorem entryChecks_stale (stale : num e 2 1 % 2 = 0 ∨ num e 0 2 ≠ dfld h 16 16) :
    entryChecks s own h base e = (.error (0x0B, 0), s) := by
  refine if_pos (stale.imp_left fun dead => ?_)
  rw [Bool.not_eq_true', Bool.eq_false_iff, ne_eq, entryLive_iff]
  omega

theorem entryChecks_live (live : num e 2 1 % 2 = 1) (gen : num e 0 2 = dfld h 16 16) :
    entryChecks s own h base e = if num e 3 1 ≠ own then (.error (0x0C, 0), s) else (.ok (base, dfld h 0 16, e), s) := by
  refine if_neg (not_or.2 ⟨?_, not_not.2 gen⟩)
  rw [entryLive_iff.2 live]
  exact Bool.false_ne_true

end entry

theorem directoryChecks_error {own : Nat} {h : DWord} {base : Nat} {met : Except (Nat × Nat) (List Seg) × State} {e : Nat × Nat}
    (fails : met.1 = .error e) : directoryChecks own h base met = (.error e, met.2) := by
  obtain ⟨m, s⟩ := met
  obtain rfl : m = .error e := fails
  rfl

theorem directoryChecks_ok {own : Nat} {h : DWord} {base : Nat} {met : Except (Nat × Nat) (List Seg) × State} {ds : List Seg}
    (passes : met.1 = .ok ds) : directoryChecks own h base met = entryChecks (drainFrame met.2 met.2.cur false ds) own h base
      (dirEntry (readSegs (drainFrame met.2 met.2.cur false ds) ds base 2048) (dfld h 0 16)) := by
  obtain ⟨m, s⟩ := met
  obtain rfl : m = .ok ds := passes
  rfl

theorem sliceHandles : Claims.SliceHandles := by
  intro s t w h hw i r
  have own : ownPart s t = w.part := by rw [ownPart, hw]; rfl
  have index : dfld h 0 16 = i := by simp [dfld, fld, i]
  have gen : dfld h 16 16 = h.toNat / 2 ^ 16 % 2 ^ 16 := rfl
  refine ⟨checkHandle_reserved s t h, fun bits other => checkHandle_other s t bits (own ▸ other), fun part bits => ?_⟩
  have eq : r = _ := checkHandle_own s t bits (part.trans own.symm)
  refine ⟨fun none => by rw [eq, none], fun base size store => ?_⟩
  rw [store] at eq
  refine ⟨fun beyond => eq.trans (if_pos (index ▸ beyond)), fun inside => ?_⟩
  have eq := eq.trans (if_neg (index ▸ Nat.not_le.2 inside))
  have met := MemSide.rangeAccess s s.cur t false base 2048
  refine ⟨met, fun e fails => eq.trans (directoryChecks_error fails), fun ds passes => ?_⟩
  have eq := eq.trans (directoryChecks_ok passes)
  rw [met.cur, index, own] at eq
  refine ⟨StoreSide.drainFrame .., fun stale => ?_, fun live same other => ?_, fun live same mine => ?_⟩
  · exact eq.trans (entryChecks_stale stale)
  · exact eq.trans ((entryChecks_live live same).trans (if_pos other))
  · refine eq.trans ((entryChecks_live live same).trans ((if_neg (not_not.2 mine)).trans ?_))
    rw [index]

/-- The checks of a handle keep the current team but for its window, which its own earlier stores to the directory may reach. -/
theorem kept_checkHandle (s : State) (t : Team) (h : DWord) : Kept s (checkHandle s t h).2 := by
  by_cases bits : h.toNat / 2 ^ 38 = 0
  · by_cases own : h.toNat / 2 ^ 32 = ownPart s t
    · rw [checkHandle_own s t bits own]
      split
      · exact Kept.refl s
      · split
        · exact Kept.refl s
        · next base size _ _ =>
          cases met : (rangeAccess s s.cur t false base 2048).1 with
          | error e =>
            rw [directoryChecks_error met]
            exact kept_range ..
          | ok ds =>
            rw [directoryChecks_ok met, entryChecks_state]
            exact (kept_range ..).trans (kept_drain ..)
    · rw [checkHandle_other s t bits own]
      exact Kept.refl s
  · rw [checkHandle_reserved s t h bits]
    exact Kept.refl s

theorem kept_of_handle {s s' : State} {t : Team} {h : DWord} {r : Except (Nat × Nat) (Nat × Nat × List Byte)}
    (met : checkHandle s.bump t h = (r, s')) : Kept s s' := by
  have kept := kept_checkHandle s.bump t h
  rw [met] at kept
  exact (MemSide.bump s).kept.trans kept

/-- What SLFREE and GRAFT make of the checks of a handle: the trap of the check that fails, or k of the entry. -/
def handled (r : Except (Nat × Nat) (Nat × Nat × List Byte) × State) (t : Team) (c : Clause)
    (k : Nat → Nat → List Byte → State → Out) : Out :=
  match r with
  | (.error (cause, a), s) => accessTrap s t c cause a
  | (.ok (base, i, e), s) => k base i e s

section handled
variable {r : Except (Nat × Nat) (Nat × Nat × List Byte) × State}

theorem handled_error {cause a : Nat} (h : r.1 = .error (cause, a)) (t : Team) (c : Clause)
    (k : Nat → Nat → List Byte → State → Out) : handled r t c k = accessTrap r.2 t c cause a := by
  obtain ⟨m, s⟩ := r
  obtain rfl : m = .error (cause, a) := h
  rfl

theorem handled_ok {base i : Nat} {e : List Byte} (h : r.1 = .ok (base, i, e)) (t : Team) (c : Clause)
    (k : Nat → Nat → List Byte → State → Out) : handled r t c k = k base i e r.2 := by
  obtain ⟨m, s⟩ := r
  obtain rfl : m = .ok (base, i, e) := h
  rfl

theorem handled_entry (base i : Nat) (e : List Byte) (s : State) (t : Team) (c : Clause)
    (k : Nat → Nat → List Byte → State → Out) :
    handled (.ok (base, i, e), s) t c k = k base i e s := rfl

end handled

/-! ### SLFREE -/

/-- A word of one slot without a result is accepted in s. -/
def accept (s : State) (c : Clause) (slot : BitVec 3) : Out :=
  match s.team s.cur with
  | none => .next s
  | some t => .next (s.putTeam s.cur ((t.addPend (slotOf slot) false []).advance c 1))

theorem addPend_nil (t : Team) (slot : Option Nat) : t.addPend slot false [] = { t with nextWord := t.nextWord + 1 } := by
  simp [Team.addPend]

theorem accept_eq {s : State} {u : Nat} {t : Team} (cur : s.cur = u) (team : s.team u = some t) (c : Clause) (slot : BitVec 3) :
    accept s c slot = .next (s.putTeam u ({ t with nextWord := t.nextWord + 1 }.advance c 1)) := by
  simp only [accept, cur, team, addPend_nil]

theorem accepted_accept {s : State} {u : Nat} {t : Team} (cur : s.cur = u) (team : s.team u = some t) (c : Clause)
    (slot : BitVec 3) : Accepted s u c (accept s c slot) :=
  ⟨t, _, team, accept_eq cur team c slot, Past.of_advance .., SamePlaceApart.of_advance ..⟩

/-- The state in which SLFREE has cleared LIVE of entry i, e, of a directory, through the entry's pieces. -/
def freedEntry (s : State) (u : Nat) (xs : List Seg) (base i : Nat) (e : List Byte) : State :=
  writeSegs (drainFrame s u true xs) xs (base + 16 * i + 2) [BitVec.ofNat 8 (num e 2 1 / 2 * 2)] false

theorem kept_freedEntry (s : State) (u : Nat) (xs : List Seg) (base i : Nat) (e : List Byte) :
    Kept s (freedEntry s u xs base i e) :=
  (kept_drain ..).trans (kept_writeSegs ..)

section slfree
variable {s : State} {t : Team} {c : Clause} (h : Issues s t c) {l0 : Nat} (low : t.lowest = some l0) (g : Code) (slot : BitVec 3)
include h low

theorem slfree_eq : exec (.slfree g slot) s = handled (checkHandle s.bump t (pair s.fresh t g l0)) t c fun base i e s1 =>
    ranged (rangeAccess s1 s1.cur t true (base + 16 * i) 16) t c fun xs s2 =>
      accept (freedEntry s2 s2.cur xs base i e) c slot := by
  rw [exec_slfree, execSlfree, teamWord_eq h low]
  rfl

end slfree

theorem sliceFree : Claims.SliceFree := by
  intro s t c g slot h out
  refine ⟨fun idle => teamWord_skips h idle 1 _, fun l0 low => ?_⟩
  intro r
  have eq : out = _ := slfree_eq h low g slot
  have kept1 : Kept s r.2 := (MemSide.bump s).kept.trans (kept_checkHandle ..)
  refine ⟨fun cause a fails => eq.trans (handled_error fails ..), fun base i e passes => ?_⟩
  have eq := eq.trans (handled_ok passes ..)
  rw [kept1.cur]
  refine next_range kept1 eq fun xs kept2 eq => ⟨StoreSide.drainFrame .., ?_⟩
  rw [kept2.cur] at eq
  have kept3 := kept2.trans (kept_freedEntry (rangeAccess r.2 s.cur t true (base + 16 * i) 16).2 s.cur xs base i e)
  obtain ⟨t1, team, -⟩ := kept3.team h.1
  rw [eq]
  exact accepted_accept kept3.cur team c slot

/-- Settles O25: the checks of a handle in the model's order, and SLFREE by its equation. -/
theorem sliceStores : Obligations.SliceStores := ⟨sliceHandles, sliceFree⟩

end Sys2Proof.Machine
end

section
/-! PROOFS. CutLiftsFrames, CUT: the checks in their order, the directory's free entry and run, and the team that CUT leaves (R134,
R137 to R140, R363). -/

namespace Sys2Proof.Machine

open Sys2Proof.Claims

/-! ### The directory (R139) -/

/-- Blocks b to b + k - 1 of a store lie in it and are free. -/
def HasRoom (dir : List Byte) (size k b : Nat) : Prop :=
  b + k ≤ size / 2048 ∧ ∀ j < k, blockUsed dir (entryCount size) (b + j) = false

theorem room_iff (dir : List Byte) (size k b : Nat) : (decide (b + k ≤ size / 2048) &&
    (List.range k).all fun i => !blockUsed dir (entryCount size) (b + i)) = true ↔ HasRoom dir size k b := by
  simp [HasRoom]

theorem freeRun_none {dir : List Byte} {size k : Nat} (full : ∀ b, 1 ≤ b → ¬ HasRoom dir size k b) : freeRun dir size k = none :=
  findFrom_none fun b hb _ => Bool.eq_false_iff.2 (mt (room_iff dir size k b).1 (full b hb))

theorem freeRun_first {dir : List Byte} {size k b : Nat} (pos : 0 < k) (hb : 1 ≤ b) (room : HasRoom dir size k b)
    (first : ∀ j, 1 ≤ j → j < b → ¬ HasRoom dir size k j) : freeRun dir size k = some b := by
  obtain ⟨fits, -⟩ := id room
  exact findFrom_first hb (by omega) ((room_iff dir size k b).2 room) fun j hj lt =>
    Bool.eq_false_iff.2 (mt (room_iff dir size k j).1 (first j hj lt))

/-! ### CUT by its stages -/

section stages
variable (t : Team) (c : Clause) (d : Code) (m lo base size : Nat)

/-- CUT at entry e and the run from block b: their pieces, then the writes. -/
def cutSlots (dir : List Byte) (e b : Nat) (s : State) : Out :=
  ranged (rangeAccess s s.cur t true (base + 16 * e) 16) t c fun xs s1 =>
    ranged (rangeAccess s1 s1.cur t true (base + 2048 * b) (2048 * ceilDiv (sliceSize t (t.fsp.toNat - lo)) 2048)) t c fun ys s2 =>
      cutWrite s2 c d t m lo base e (if entryGen (dirEntry dir e) = 65535 then 1 else entryGen (dirEntry dir e) + 1) b xs ys

/-- CUT with the directory's block: a free entry and a free run. -/
def cutSearch (dir : List Byte) (s : State) : Out :=
  match findFrom (fun i => !entryLive (dirEntry dir i)) 0 (entryCount size),
      freeRun dir size (ceilDiv (sliceSize t (t.fsp.toNat - lo)) 2048) with
  | some e, some b => cutSlots t c d m lo base dir e b s
  | _, _ => wordTrap s t c 0x0F 0

/-- CUT with a store: the range above the mark, then the directory's block, behind the team's own stores to it. -/
def cutRanges (s : State) : Out :=
  ranged (rangeAccess s s.cur t false lo (t.fsp.toNat - lo)) t c fun _ s1 =>
    ranged (rangeAccess s1 s1.cur t false base 2048) t c fun ds s2 =>
      cutSearch t c d m lo base size (readSegs (drainFrame s2 s2.cur false ds) ds base 2048) (drainFrame s2 s2.cur false ds)

/-- CUT with a mark: the store, and the slice's size. -/
def cutFound (s : State) : Out :=
  match sliceStore s t with
  | none => wordTrap s t c 0x0F 0
  | some (base, size) =>
    if 65536 < sliceSize t (t.fsp.toNat - (m + t.markSize)) then wordTrap s t c 0x0F 0
    else cutRanges t c d m (m + t.markSize) base size s

variable {t c d m lo base size}

theorem cutFound_unusable {s : State} (h : sliceStore s t = none ∨ 65536 < sliceSize t (t.fsp.toNat - (m + t.markSize))) :
    cutFound t c d m s = wordTrap s t c 0x0F 0 := by
  unfold cutFound
  cases store : sliceStore s t with
  | none => rfl
  | some x =>
    obtain ⟨base, size⟩ := x
    exact if_pos (h.resolve_left fun none => by rw [store] at none; cases none)

theorem cutFound_store {s : State} (store : sliceStore s t = some (base, size))
    (small : sliceSize t (t.fsp.toNat - (m + t.markSize)) ≤ 65536) :
    cutFound t c d m s = cutRanges t c d m (m + t.markSize) base size s := by
  rw [cutFound, store]
  exact if_neg (Nat.not_lt.2 small)

theorem sliceBlocks_pos (t : Team) (f : Nat) : 0 < ceilDiv (sliceSize t f) 2048 := by
  unfold sliceSize ceilDiv
  omega

theorem cutSearch_full {s : State} {dir : List Byte} (full : (∀ e < entryCount size, entryLive (dirEntry dir e) = true) ∨
    ∀ b, 1 ≤ b → ¬ HasRoom dir size (ceilDiv (sliceSize t (t.fsp.toNat - lo)) 2048) b) :
    cutSearch t c d m lo base size dir s = wordTrap s t c 0x0F 0 := by
  unfold cutSearch
  rcases full with live | used
  · rw [findFrom_none fun e _ he => by rw [live e (by omega)]; rfl]
  · rw [freeRun_none used]
    split <;> trivial

theorem cutSearch_free {s : State} {dir : List Byte} {e b : Nat}
    (entry : findFrom (fun i => !entryLive (dirEntry dir i)) 0 (entryCount size) = some e)
    (run : freeRun dir size (ceilDiv (sliceSize t (t.fsp.toNat - lo)) 2048) = some b) :
    cutSearch t c d m lo base size dir s = cutSlots t c d m lo base dir e b s := by
  rw [cutSearch, entry, run]

end stages

section cut
variable {s : State} {t : Team} {c : Clause} (h : Issues s t c) {l0 : Nat} (low : t.lowest = some l0) (d : Code) (tag : BitVec 16)
include h low

theorem cut_busy (busy : t.pend ≠ [] ∨ copiesDone s s.cur t = false) : exec (.cut d tag) s = .next s := by
  rw [exec_cut, execCut, teamWord_eq h low]
  refine if_pos ?_
  simpa using busy

theorem cut_eq (idle : t.pend = []) (copies : copiesDone s s.cur t = true) {t1 : Team}
    (team : (drainFrame s s.cur false []).team s.cur = some t1) :
    exec (.cut d tag) s = if t1.findMark tag.toNat t1.chainBound t1.head.toNat = 0
      then wordTrap (drainFrame s s.cur false []) t1 c 0x0E 0
      else cutFound t1 c d (t1.findMark tag.toNat t1.chainBound t1.head.toNat) (drainFrame s s.cur false []) := by
  have cur : (drainFrame s s.cur false []).cur = s.cur := (kept_drain ..).cur
  have team : (drainFrame s s.cur false []).team (drainFrame s s.cur false []).cur = some t1 := by rw [cur, team]
  rw [exec_cut, execCut, teamWord_eq h low, if_neg (by simp [idle, copies])]
  simp only [team]
  rfl

end cut

/-! ### The lanes' counters (R134, R138) -/

theorem depth_setCtrs (t : Team) (ctr : List Byte) {l : Nat} (hl : l < t.lanes) :
    (t.setCtrs ctr).depth l = ((ctr[l]?).getD 0).toNat % 2 ^ 7 := by
  rw [Team.depth, Team.setCtrs, fget_fsets_range, if_pos hl, BitVec.extractLsb'_toNat, Nat.shiftRight_zero]

theorem broken_setCtrs (t : Team) (ctr : List Byte) {l : Nat} (hl : l < t.lanes) :
    (t.setCtrs ctr).broken l = ((ctr[l]?).getD 0).getLsbD 7 := by
  rw [Team.broken, Team.setCtrs, fget_fsets_range, if_pos hl]

/-! ### The team that CUT leaves (R137) -/

/-- The registers with a pair written in every lane. -/
def Team.pairRegs (t : Team) (regs : FMap Word) (r : Nat) (v : Nat → DWord) : FMap Word :=
  fsets zeroWord regs ((List.range t.lanes).flatMap fun l =>
    [(regKey r l, (v l).extractLsb' 0 32), (regKey (r + 1) l, (v l).extractLsb' 32 32)])

theorem pairRegs_low (t : Team) (regs : FMap Word) (r : Nat) (v : Nat → DWord) {l : Nat} (hl : l < t.lanes) :
    fget zeroWord (t.pairRegs regs r v) (regKey r l) = (v l).extractLsb' 0 32 := by
  refine fget_fsets_flatMap zeroWord (k1 := regKey r) (k2 := regKey (r + 1)) (List.mem_range.2 hl)
    (fun j e => regKey_inj_lane _ e) (fun i => by simp only [regKey]; omega) ?_
  exact List.pairwise_lt_range.imp fun {i j} h => by simp only [regKey]; omega

theorem pairRegs_other (t : Team) (regs : FMap Word) (r : Nat) (v : Nat → DWord) {k : Nat}
    (other : ∀ j < t.lanes, k ≠ regKey r j ∧ k ≠ regKey (r + 1) j) :
    fget zeroWord (t.pairRegs regs r v) k = fget zeroWord regs k := by
  refine fget_fsets_notin zeroWord fun e he => ?_
  obtain ⟨l, hl, he⟩ := List.mem_flatMap.1 he
  obtain ⟨first, second⟩ := other l (List.mem_range.1 hl)
  simp only [List.mem_cons, List.not_mem_nil, or_false] at he
  rcases he with rfl | rfl
  · exact first
  · exact second

section afterCut
variable (t : Team) (c : Clause) (m lo : Nat) (d : Code) (handle : DWord)

/-- The team that CUT leaves, before it goes to the mark's RESUME. -/
def Team.lifted : Team :=
  { t.setCtrs (Memory.read t.frame (m + 32 - t.base) t.lanes) with
    frame := fclear t.frame (lo - t.base) (t.fsp.toNat - lo), refs := fclear t.refs ((lo - t.base) / 8) ((t.fsp.toNat - lo) / 8)
    fsp := BitVec.ofNat 64 lo, fb := BitVec.ofNat 64 (t.frameNum (m + 16) 8), head := BitVec.ofNat 64 m
    regs := t.pairRegs t.regs d.toNat fun _ => handle }

theorem afterCut_eq : t.afterCut c m lo d handle =
    (t.lifted m lo d handle).branch c (BitVec.ofNat 64 (t.frameNum (m + 8) 8)) := rfl

theorem afterCut_place : Branched t (t.afterCut c m lo d handle) c (BitVec.ofNat 64 (t.frameNum (m + 8) 8)) :=
  Branched.of_branch (t.lifted m lo d handle) c _

theorem afterCut_fsp : (t.afterCut c m lo d handle).fsp = BitVec.ofNat 64 lo := Team.branch_fsp ..

theorem afterCut_head : (t.afterCut c m lo d handle).head = BitVec.ofNat 64 m := Team.branch_head ..

theorem afterCut_fb : (t.afterCut c m lo d handle).fb = BitVec.ofNat 64 (t.frameNum (m + 16) 8) := Team.branch_fb ..

theorem afterCut_regs : (t.afterCut c m lo d handle).regs = t.pairRegs t.regs d.toNat fun _ => handle := Team.branch_regs ..

variable {t c m lo d handle}

theorem afterCut_reg_low {l : Nat} (hl : l < t.lanes) : (t.afterCut c m lo d handle).reg d.toNat l = handle.extractLsb' 0 32 := by
  rw [Team.reg, afterCut_regs]
  exact pairRegs_low t t.regs d.toNat (fun _ => handle) hl

theorem afterCut_reg_other {r l : Nat}
    (other : ∀ j < t.lanes, regKey r l ≠ regKey d.toNat j ∧ regKey r l ≠ regKey (d.toNat + 1) j) :
    (t.afterCut c m lo d handle).reg r l = t.reg r l := by
  rw [Team.reg, afterCut_regs]
  exact pairRegs_other t t.regs d.toNat (fun _ => handle) other

theorem afterCut_counters {l : Nat} (hl : l < t.lanes) :
    (t.afterCut c m lo d handle).depth l = (Memory.get t.frame (m + 32 - t.base + l)).toNat % 2 ^ 7 ∧
      (t.afterCut c m lo d handle).broken l = (Memory.get t.frame (m + 32 - t.base + l)).getLsbD 7 := by
  have byte : ((Memory.read t.frame (m + 32 - t.base) t.lanes)[l]?).getD 0 = Memory.get t.frame (m + 32 - t.base + l) := by
    rw [Memory.getElem?_read hl]
    rfl
  rw [afterCut_eq, Team.depth, Team.broken, Team.branch_d, Team.branch_b]
  exact ⟨(depth_setCtrs t _ hl).trans (by rw [byte]), (broken_setCtrs t _ hl).trans (by rw [byte])⟩

/-- What else of the team than where it stands CUT changes. -/
theorem afterCut_only {t' : Team} (e : t' = t.afterCut c m lo d handle) :
    SamePlaceApart { t with frame := t'.frame, refs := t'.refs, fsp := t'.fsp, fb := t'.fb, head := t'.head, d := t'.d, b := t'.b
                            regs := t'.regs } t' := by
  subst e
  have apart := SamePlaceApart.of_branch (t.lifted m lo d handle) c (BitVec.ofNat 64 (t.frameNum (m + 8) 8))
  simp only [afterCut_eq, Team.branch_frame, Team.branch_refs, Team.branch_fsp, Team.branch_fb, Team.branch_head, Team.branch_d,
    Team.branch_b, Team.branch_regs]
  exact apart

end afterCut

/-! ### CUT's writes -/

/-- The bytes of CUT's slice and of its directory entry (R138, R139). -/
def cutSlice (t : Team) (c : Clause) (d : Code) (lo : Nat) : List Byte :=
  sliceHead t c.follow ((t.linkFrame lo t.fsp.toNat t.chainBound t.fb.toNat).map fun x => x - lo) d ++
    Memory.read t.frame (lo - t.base) (t.fsp.toNat - lo) ++ refBytes t (lo - t.base) (t.fsp.toNat - lo)

def cutDirEntry (t : Team) (lo gen part b : Nat) : List Byte :=
  toBytes 2 gen ++ toBytes 1 1 ++ toBytes 1 part ++ toBytes 2 b ++
    toBytes 2 (ceilDiv (sliceSize t (t.fsp.toNat - lo)) 2048) ++ toBytes 4 (sliceSize t (t.fsp.toNat - lo)) ++
    toBytes 4 (t.fsp.toNat - lo)

/-- The state in which CUT has written its slice and its directory entry. -/
def cutState (s : State) (u : Nat) (t : Team) (c : Clause) (d : Code) (lo base e gen part b : Nat) (xs ys : List Seg) : State :=
  writeSegs (writeSegs (drainFrame s u true (xs ++ ys)) ys (base + 2048 * b) (cutSlice t c d lo) false) xs (base + 16 * e)
    (cutDirEntry t lo gen part b) false

/-- CUT's writes, and the team that it leaves in the state after them. -/
theorem cutWrite_writes {s : State} {u : Nat} (cur : s.cur = u) {t t0 : Team} (team : s.team u = some t0) (c : Clause) (d : Code)
    (m lo base e gen b : Nat) (xs ys : List Seg) :
    ∃ t2, (cutState s u t c d lo base e gen (ownPart s t) b xs ys).team u = some t2 ∧ SameButWindow t0 t2 ∧
      cutWrite s c d t m lo base e gen b xs ys =
        .next ((cutState s u t c d lo base e gen (ownPart s t) b xs ys).putTeam u
          (t2.afterCut c m lo d (BitVec.ofNat 64 (e + 2 ^ 16 * gen + 2 ^ 32 * ownPart s t)))) := by
  have kept : Kept s (cutState s u t c d lo base e gen (ownPart s t) b xs ys) :=
    ((kept_drain ..).trans (kept_writeSegs ..)).trans (kept_writeSegs ..)
  obtain ⟨t2, team2, same⟩ := kept.team team
  have eq : cutWrite s c d t m lo base e gen b xs ys =
      match (cutState s s.cur t c d lo base e gen (ownPart s t) b xs ys).team
        (cutState s s.cur t c d lo base e gen (ownPart s t) b xs ys).cur with
      | none => .next (cutState s s.cur t c d lo base e gen (ownPart s t) b xs ys)
      | some t2 => .next ((cutState s s.cur t c d lo base e gen (ownPart s t) b xs ys).putTeam
          (cutState s s.cur t c d lo base e gen (ownPart s t) b xs ys).cur
          (t2.afterCut c m lo d (BitVec.ofNat 64 (e + gen * 2 ^ 16 + ownPart s t * 2 ^ 32)))) := rfl
  refine ⟨t2, team2, same, ?_⟩
  subst cur
  rw [Nat.mul_comm (2 ^ 16), Nat.mul_comm (2 ^ 32), eq, kept.cur, team2]

theorem cut_claim : Claims.Cut := by
  intro s t c d tag h out
  refine ⟨fun idle => teamWord_skips h idle 1 _, fun live busy => ?_, ?_⟩
  · obtain ⟨l0, low⟩ := Option.ne_none_iff_exists'.1 live
    exact cut_busy h low d tag busy
  intro live idle copies s1
  obtain ⟨l0, low⟩ := Option.ne_none_iff_exists'.1 live
  have stores : StoreSide s s1 := StoreSide.drainFrame ..
  have kept1 : Kept s s1 := stores.kept
  refine ⟨stores, fun t1 team1 => ?_⟩
  have same := kept1.same h.1 team1
  refine ⟨same, ?_⟩
  have eq : out = _ := cut_eq h low d tag idle copies team1
  have lanes : t.lanes = t1.lanes := by rw [same.1]
  have nregs : t.nregs = t1.nregs := by rw [same.1]
  have fsp : t.fsp = t1.fsp := by rw [same.1]
  have fb : t.fb = t1.fb := by rw [same.1]
  have base1 : t.base = t1.base := by rw [same.1]; rfl
  have wg : t1.wg = t.wg := by rw [same.1]
  rw [lanes, nregs, fsp, fb, base1]
  intro m lo F n
  have hlo : lo = m + t1.markSize := Nat.add_assoc ..
  have hn : n = sliceSize t1 F := by
    simp only [n, sliceSize, ceilDiv]
    omega
  clear_value n lo
  subst hn hlo
  refine ⟨fun none => eq.trans (if_pos none), fun found bad => eq.trans ((if_neg found).trans (cutFound_unusable bad)),
    fun base size found store small => ?_⟩
  have eq := eq.trans ((if_neg found).trans (cutFound_store store small))
  rw [cutRanges] at eq
  refine next_range kept1 eq fun fs kept2 eq => ?_
  refine next_range kept2 eq fun ds kept3 eq => ?_
  rw [kept3.cur] at eq
  intro s2 dir k room
  have hk : k = ceilDiv (sliceSize t1 F) 2048 := by
    simp only [k, ceilDiv]
    omega
  clear_value k
  subst hk
  have kept4 : Kept s s2 := kept3.trans (kept_drain ..)
  refine ⟨fun full => eq.trans (cutSearch_full full), ?_⟩
  intro e b inside free first pos here before
  have entry : findFrom (fun i => !entryLive (dirEntry dir i)) 0 (entryCount size) = some e :=
    findFrom_first (Nat.zero_le e) (by omega) (by rw [free]; rfl) fun j _ lt => by rw [first j lt]; rfl
  have eq := eq.trans (cutSearch_free entry (freeRun_first (sliceBlocks_pos t1 F) pos here before))
  rw [cutSlots] at eq
  refine next_range kept4 eq fun xs kept5 eq => ?_
  refine next_range kept5 eq fun ys kept6 eq => ?_
  intro gen part link slice entry s3 s4 handle
  have hpart : part = _ := (kept6.ownPart wg).symm
  clear_value part
  subst hpart
  obtain ⟨t0, team0, same0⟩ := kept6.team h.1
  obtain ⟨t2, team2, same2, writes⟩ := cutWrite_writes kept6.cur team0 c d m (m + t1.markSize) base e gen b xs ys
  have same2 := same0.trans same2
  have eq := eq.trans writes
  have lanes2 : t2.lanes = t1.lanes := (by rw [same2.1] : t2.lanes = t.lanes).trans lanes
  have base2 : t2.base = t1.base := (by rw [same2.1]; rfl : t2.base = t.base).trans base1
  rw [← lanes2, ← base2]
  exact ⟨t2, _, team2, same2, eq, afterCut_fsp .., afterCut_head .., afterCut_fb .., afterCut_place ..,
    fun l hl => afterCut_reg_low hl, fun r l other => afterCut_reg_other other, fun l hl => afterCut_counters hl,
    afterCut_only rfl⟩

end Sys2Proof.Machine
end

section
/-! PROOFS. GraftLaysSlice: GRAFT's checks in their order, the frames that it lays, and the team that it leaves (R141, R142, R386,
R387). -/

namespace Sys2Proof.Machine

open Sys2Proof.Claims

/-! ### Registers and lanes that a slice brings -/

/-- Several writes, of which those of one key agree: it holds their value. -/
theorem fget_fsets_of_mem {α : Type} [DecidableEq α] (d : Nat → α) {l : List (Nat × α)} {m : FMap α} {k : Nat} {v : α}
    (mem : (k, v) ∈ l) (agree : ∀ e ∈ l, e.1 = k → e.2 = v) : fget d (fsets d m l) k = v := by
  induction l generalizing m with
  | nil => cases mem
  | cons e l ih =>
    have rest : ∀ e ∈ l, e.1 = k → e.2 = v := fun e he => agree e (List.mem_cons_of_mem _ he)
    rw [fsets]
    by_cases later : ∃ e ∈ l, e.1 = k
    · obtain ⟨x, hx, key⟩ := later
      refine ih ?_ rest
      rw [← key, ← rest x hx key]
      exact hx
    · rw [fget_fsets_notin d fun x hx key => later ⟨x, hx, key.symm⟩]
      obtain rfl | mem := List.mem_cons.1 mem
      · exact fget_fset_same ..
      · exact absurd ⟨_, mem, rfl⟩ later

theorem pairRegs_high (t : Team) (regs : FMap Word) (r : Nat) (v : Nat → DWord) {l : Nat} (hl : l < t.lanes)
    (few : t.lanes ≤ 1024) : fget zeroWord (t.pairRegs regs r v) (regKey (r + 1) l) = (v l).extractLsb' 32 32 := by
  refine fget_fsets_flatMap' zeroWord (k1 := regKey r) (k2 := regKey (r + 1)) (List.mem_range.2 hl)
    (fun j _ e => regKey_inj_lane _ e) fun j _ e => ?_
  rw [List.mem_range]
  simp only [regKey] at e
  omega

/-- The register that a slice holds for a lane, read from its bytes. -/
theorem sliceRegs_get (t : Team) (regs : FMap Word) (l : List Byte) {n i : Nat} (hn : n < t.nregs) (hi : i < t.lanes)
    (few : t.lanes ≤ 1024) : fget zeroWord (fsets zeroWord regs (sliceRegs t l)) (regKey n i) =
      BitVec.ofNat 32 (num l (4 * (n * t.lanes + i)) 4) := by
  refine fget_fsets_of_mem zeroWord ?_ fun e he key => ?_
  · exact List.mem_flatMap.2 ⟨n, List.mem_range.2 hn, List.mem_map.2 ⟨i, List.mem_range.2 hi, rfl⟩⟩
  · obtain ⟨n', -, he⟩ := List.mem_flatMap.1 he
    obtain ⟨i', hi', rfl⟩ := List.mem_map.1 he
    have hi' := List.mem_range.1 hi'
    simp only [regKey] at key
    obtain rfl : n' = n := by omega
    obtain rfl : i' = i := by omega
    rfl

theorem num_drop (l : List Byte) (a o n : Nat) : num (l.drop a) o n = num l (a + o) n := by rw [num, num, List.drop_drop]

/-! ### The team that GRAFT leaves (R141) -/

section afterGraft
variable (t : Team) (c : Clause) (rec_ body : List Byte) (lo hi delta : DWord) (args : Nat → DWord)

/-- The team that GRAFT leaves, before its marks are unlinked and it goes to the slice's RESUME. -/
def Team.restored : Team :=
  { t.setCtrs (body.take t.lanes) with
    regs := t.pairRegs (fsets zeroWord t.regs (sliceRegs t (body.drop (16 * ceilDiv t.lanes 16)))) (num rec_ 31 1) args
    fmt := fsets zeroWord t.fmt ((List.range 8).map fun i => (i, BitVec.ofNat 32 (num rec_ (32 + 4 * i) 4 % 2 ^ 21)))
    fb := if lo.ule (BitVec.ofNat 64 (num rec_ 8 8)) ∧ (BitVec.ofNat 64 (num rec_ 8 8)).ule hi
      then BitVec.ofNat 64 (num rec_ 8 8) + delta else t.fb
    fsp := rebase lo hi delta hi }

theorem afterGraft_eq : t.afterGraft c rec_ body lo hi delta args =
    (t.restored rec_ body lo hi delta args).unlink.branch c (BitVec.ofNat 64 (num rec_ 0 8)) := rfl

theorem afterGraft_fsp : (t.afterGraft c rec_ body lo hi delta args).fsp = if lo.ule hi then hi + delta else hi := by
  rw [afterGraft_eq, Team.branch_fsp]
  change rebase lo hi delta hi = _
  rw [rebase]
  congr 1
  exact propext ⟨fun h => h.1, fun h => ⟨h, by simp [BitVec.ule]⟩⟩

theorem afterGraft_fb : (t.afterGraft c rec_ body lo hi delta args).fb =
    if lo.ule (BitVec.ofNat 64 (num rec_ 8 8)) ∧ (BitVec.ofNat 64 (num rec_ 8 8)).ule hi
      then BitVec.ofNat 64 (num rec_ 8 8) + delta else t.fb := Team.branch_fb ..

theorem afterGraft_place : Branched t (t.afterGraft c rec_ body lo hi delta args) c (BitVec.ofNat 64 (num rec_ 0 8)) :=
  Branched.of_branch (t.restored rec_ body lo hi delta args).unlink c _

theorem afterGraft_unlinked : Unlinked t (t.afterGraft c rec_ body lo hi delta args) :=
  have unlinked : Unlinked t (t.restored rec_ body lo hi delta args).unlink := unlinked_of_unlink rfl rfl rfl rfl rfl
  unlinked_congr unlinked (Team.branch_head ..) (Team.branch_fsp ..)

theorem afterGraft_refs : (t.afterGraft c rec_ body lo hi delta args).refs = t.refs := Team.branch_refs ..

theorem afterGraft_regs : (t.afterGraft c rec_ body lo hi delta args).regs =
    t.pairRegs (fsets zeroWord t.regs (sliceRegs t (body.drop (16 * ceilDiv t.lanes 16)))) (num rec_ 31 1) args :=
  Team.branch_regs ..

variable {t c rec_ body lo hi delta args}

theorem afterGraft_fmt {j : Nat} (hj : j < 8) : (t.afterGraft c rec_ body lo hi delta args).fmtReg j =
    BitVec.ofNat 32 (num rec_ (32 + 4 * j) 4 % 2 ^ 21) := by
  rw [afterGraft_eq, Team.fmtReg, Team.branch_fmt]
  exact (fget_fsets_range zeroWord 8 t.fmt (fun i => BitVec.ofNat 32 (num rec_ (32 + 4 * i) 4 % 2 ^ 21)) j).trans (if_pos hj)

theorem afterGraft_counters {l : Nat} (hl : l < t.lanes) :
    (t.afterGraft c rec_ body lo hi delta args).depth l = ((body[l]?).getD 0).toNat % 2 ^ 7 ∧
      (t.afterGraft c rec_ body lo hi delta args).broken l = ((body[l]?).getD 0).getLsbD 7 := by
  have byte : (body.take t.lanes)[l]? = body[l]? := List.getElem?_take_of_lt hl
  rw [afterGraft_eq, Team.depth, Team.broken, Team.branch_d, Team.branch_b, ← byte]
  exact ⟨depth_setCtrs t _ hl, broken_setCtrs t _ hl⟩

theorem afterGraft_args {l : Nat} (hl : l < t.lanes) (few : t.lanes ≤ 1024) :
    (t.afterGraft c rec_ body lo hi delta args).reg (num rec_ 31 1) l = (args l).extractLsb' 0 32 ∧
      (t.afterGraft c rec_ body lo hi delta args).reg (num rec_ 31 1 + 1) l = (args l).extractLsb' 32 32 := by
  rw [Team.reg, Team.reg, afterGraft_regs]
  exact ⟨pairRegs_low t _ _ args hl, pairRegs_high t _ _ args hl few⟩

theorem afterGraft_reg {n l : Nat} (hl : l < t.lanes) (hn : n < t.nregs) (first : n ≠ num rec_ 31 1)
    (second : n ≠ num rec_ 31 1 + 1) (few : t.lanes ≤ 1024) : (t.afterGraft c rec_ body lo hi delta args).reg n l =
      BitVec.ofNat 32 (num body (16 * ((t.lanes + 15) / 16) + 4 * (n * t.lanes + l)) 4) := by
  rw [Team.reg, afterGraft_regs, pairRegs_other t _ _ args fun j hj => ?_, sliceRegs_get t t.regs _ hn hl few, num_drop]
  · rfl
  · simp only [regKey]
    omega

/-- What else of the team than where it stands GRAFT changes. -/
theorem afterGraft_only {t' : Team} (e : t' = t.afterGraft c rec_ body lo hi delta args) :
    SamePlaceApart { t with fsp := t'.fsp, fb := t'.fb, head := t'.head, d := t'.d, b := t'.b, regs := t'.regs
                            fmt := t'.fmt } t' := by
  subst e
  have apart := SamePlaceApart.of_branch (t.restored rec_ body lo hi delta args).unlink c (BitVec.ofNat 64 (num rec_ 0 8))
  simp only [afterGraft_eq, Team.branch_fsp, Team.branch_fb, Team.branch_head, Team.branch_d, Team.branch_b, Team.branch_regs,
    Team.branch_fmt]
  exact apart

end afterGraft

/-! ### GRAFT's writes -/

/-- The frames that GRAFT lays, rebased from lo to the team's FSP, with a return frame where the slice has a link (R141). -/
def graftBytes (t : Team) (c : Clause) (f : Nat) (rec_ body : List Byte) : List Byte :=
  let o := 16 * ceilDiv t.lanes 16 + 4 * t.lanes * t.nregs
  let hi := BitVec.ofNat 64 (num rec_ 16 8)
  let lo := hi - BitVec.ofNat 64 f
  let frames := graftFrames ((body.drop o).take f) (body.drop (o + f)) lo hi (t.fsp - lo)
  if num rec_ 24 4 = 0xFFFFFFFF then frames
  else patch frames (num rec_ 24 4) (toBytes 8 c.follow.toNat ++ toBytes 8 t.fb.toNat)

/-- The slice behind its record, as its pieces give it. -/
def graftBody (s : State) (t : Team) (a f : Nat) (bs : List Seg) : List Byte := readSegs s bs (a + 64) (sliceSize t f - 64)

/-- The state in which the team's stores to the slice and to its frames' place are performed. -/
def graftDrain (s : State) (u : Nat) (bs fs : List Seg) : State := drainFrame (drainFrame s u false bs) u true fs

/-- The state in which GRAFT has laid the frames. -/
def graftState (s : State) (u : Nat) (t : Team) (c : Clause) (a f : Nat) (rec_ : List Byte) (bs fs : List Seg) : State :=
  writeSegs (graftDrain s u bs fs) fs t.fsp.toNat (graftBytes t c f rec_ (graftBody (graftDrain s u bs fs) t a f bs)) false

theorem kept_graftDrain (s : State) (u : Nat) (bs fs : List Seg) : Kept s (graftDrain s u bs fs) :=
  (kept_drain ..).trans (kept_drain ..)

theorem kept_graftState (s : State) (u : Nat) (t : Team) (c : Clause) (a f : Nat) (rec_ : List Byte) (bs fs : List Seg) :
    Kept s (graftState s u t c a f rec_ bs fs) := (kept_graftDrain ..).trans (kept_writeSegs ..)

/-- The reference bits of the frames that GRAFT lays. -/
def Team.graftRefs (t : Team) (o f : Nat) (body : List Byte) : Team :=
  { t with refs := fsets falseAt t.refs ((List.range (f / 8)).map fun i =>
      ((t.fsp.toNat - t.base) / 8 + i, (((body.drop (o + f))[i / 8]?).getD 0).getLsbD (i % 8))) }

/-- The team t2 that GRAFT leaves, where t issued it: k is the free value with which its operands are read. -/
def Team.grafted (t : Team) (c : Clause) (g : Code) (k f : Nat) (rec_ body : List Byte) (t2 : Team) : Team :=
  let hi := BitVec.ofNat 64 (num rec_ 16 8)
  let lo := hi - BitVec.ofNat 64 f
  (t2.graftRefs (16 * ceilDiv t.lanes 16 + 4 * t.lanes * t.nregs) f body).afterGraft c rec_ body lo hi (t.fsp - lo)
    fun l => pair k t2 (g + 2) l

section grafted
variable (t : Team) (c : Clause) (g : Code) (k f : Nat) (rec_ body : List Byte) (t2 : Team)

theorem grafted_unlinked : Unlinked t2 (t.grafted c g k f rec_ body t2) :=
  afterGraft_unlinked (t2.graftRefs (16 * ceilDiv t.lanes 16 + 4 * t.lanes * t.nregs) f body) ..

theorem grafted_place : Branched t2 (t.grafted c g k f rec_ body t2) c (BitVec.ofNat 64 (num rec_ 0 8)) :=
  afterGraft_place (t2.graftRefs (16 * ceilDiv t.lanes 16 + 4 * t.lanes * t.nregs) f body) ..

variable {t c g k f rec_ body t2}

theorem grafted_only {t' : Team} (e : t' = t.grafted c g k f rec_ body t2) :
    SamePlaceApart { t2 with refs := t'.refs, fsp := t'.fsp, fb := t'.fb, head := t'.head, d := t'.d, b := t'.b, regs := t'.regs
                             fmt := t'.fmt } t' := by
  have refs : t'.refs = (t2.graftRefs (16 * ceilDiv t.lanes 16 + 4 * t.lanes * t.nregs) f body).refs := by
    rw [e]
    exact afterGraft_refs ..
  rw [refs]
  exact afterGraft_only e

end grafted

/-- With nothing outstanding an operand reads as the register file holds it, whatever the free value. -/
theorem pair_idle {t t' : Team} (idle : t.pend = []) (idle' : t'.pend = []) (regs : t'.regs = t.regs) (k k' : Nat)
    (a : Code) (l : Nat) : pair k' t' a l = pair k t a l := by
  simp only [pair, readReg, Team.pendVals, Team.reg, idle, idle', regs, List.filterMap_nil]

/-! ### GRAFT by its stages -/

/-- The shape of a record that GRAFT takes (R141): the team's lanes and registers, a link frame within the frames, a pair. -/
def GraftFits (t : Team) (f : Nat) (rec_ : List Byte) : Prop :=
  num rec_ 28 2 = t.lanes ∧ num rec_ 30 1 = t.nregs ∧
    (num rec_ 24 4 = 0xFFFFFFFF ∨ (num rec_ 24 4 % 16 = 0 ∧ num rec_ 24 4 + 16 ≤ f)) ∧
    num rec_ 31 1 % 2 = 0 ∧ num rec_ 31 1 + 1 < t.nregs

section stages
variable (t : Team) (c : Clause) (g : Code) (k a f : Nat) (rec_ : List Byte)

/-- GRAFT past its checks: the frames are laid, and the team goes on before the check of its spill space. -/
def graftLays (bs fs : List Seg) (s : State) : Out :=
  match (graftState s s.cur t c a f rec_ bs fs).team (graftState s s.cur t c a f rec_ bs fs).cur with
  | none => .next (graftState s s.cur t c a f rec_ bs fs)
  | some t2 => .next (spillCheck ((graftState s s.cur t c a f rec_ bs fs).putTeam (graftState s s.cur t c a f rec_ bs fs).cur
      (t.grafted c g k f rec_ (graftBody (graftDrain s s.cur bs fs) t a f bs) t2)) (graftState s s.cur t c a f rec_ bs fs).cur)

/-- GRAFT with a record and room in the window: the slice's pieces, the frames', and what would leave local memory. -/
def graftRanges (s : State) : Out :=
  ranged (rangeAccess s s.cur t false (a + 64) (sliceSize t f - 64)) t c fun bs s1 =>
    ranged (rangeAccess s1 s1.cur { t with fsp := t.fsp + BitVec.ofNat 64 f } true t.fsp.toNat f) t c fun fs s2 =>
      withSpill s2 t { t with fsp := t.fsp + BitVec.ofNat 64 f } c t.fsp.toNat (graftLays t c g k a f rec_ bs fs)

/-- GRAFT with a record: its shape, then the window's room. -/
def graftRecord (s : State) : Out :=
  if num rec_ 28 2 ≠ t.lanes ∨ num rec_ 30 1 ≠ t.nregs then wordTrap s t c 0x0D 0
  else if num rec_ 24 4 ≠ 0xFFFFFFFF ∧ (num rec_ 24 4 % 16 ≠ 0 ∨ f < num rec_ 24 4 + 16) then wordTrap s t c 0x0D 0
  else if num rec_ 31 1 % 2 = 1 ∨ t.nregs ≤ num rec_ 31 1 + 1 then wordTrap s t c 0x0D 0
  else if t.limit < t.fsp.toNat + f then wordTrap s t c 0x14 0
  else graftRanges t c g k a f rec_ s

variable {t c g k a f rec_}

theorem graftSlice_eq (s : State) (base : Nat) (e : List Byte) : graftSlice s t c g k base e =
    ranged (rangeAccess s s.cur t false (base + 2048 * entryFirst e) 64) t c fun rs s1 =>
      graftRecord t c g k (base + 2048 * entryFirst e) (entryFrame e)
        (readSegs (drainFrame s1 s1.cur false rs) rs (base + 2048 * entryFirst e) 64) (drainFrame s1 s1.cur false rs) := by
  unfold graftRecord graftRanges
  rfl

theorem graftRecord_misfit {s : State} (misfit : ¬ GraftFits t f rec_) :
    graftRecord t c g k a f rec_ s = wordTrap s t c 0x0D 0 := by
  unfold graftRecord
  split
  · rfl
  · next size =>
    split
    · rfl
    · next link =>
      refine if_pos ?_
      unfold GraftFits at misfit
      by_contra pair
      exact misfit ⟨by omega, by omega, by omega, by omega, by omega⟩

theorem graftRecord_fits {s : State} (fits : GraftFits t f rec_) : graftRecord t c g k a f rec_ s =
    if t.limit < t.fsp.toNat + f then wordTrap s t c 0x14 0 else graftRanges t c g k a f rec_ s := by
  obtain ⟨lanes, nregs, link, even, inside⟩ := fits
  rw [graftRecord, if_neg (by omega), if_neg (by omega), if_neg (by omega)]

/-- The state and the team that GRAFT leaves. -/
theorem graftLays_eq {s : State} {u : Nat} (cur : s.cur = u) {t0 : Team} (team : s.team u = some t0) (same : SameButWindow t t0)
    (bs fs : List Seg) : ∃ t2, (graftState s u t c a f rec_ bs fs).team u = some t2 ∧ SameButWindow t t2 ∧
      graftLays t c g k a f rec_ bs fs s = .next (spillCheck ((graftState s u t c a f rec_ bs fs).putTeam u
        (t.grafted c g k f rec_ (graftBody (graftDrain s u bs fs) t a f bs) t2)) u) := by
  have kept := kept_graftState s u t c a f rec_ bs fs
  obtain ⟨t2, team2, same2⟩ := kept.team team
  refine ⟨t2, team2, same.trans same2, ?_⟩
  subst cur
  simp only [graftLays, kept.cur, team2]

end stages

theorem graft_eq {s : State} {t : Team} {c : Clause} (h : Issues s t c) {l0 : Nat} (low : t.lowest = some l0) (idle : t.pend = [])
    (g : Code) (slot : BitVec 3) : exec (.graft g slot) s =
      handled (checkHandle s.bump t (pair s.fresh t g l0)) t c fun base _ e s1 => graftSlice s1 t c g s1.fresh base e := by
  rw [exec_graft, execGraft, teamWord_eq h low, if_neg (by simp [idle])]
  rfl

theorem graft_busy {s : State} {t : Team} {c : Clause} (h : Issues s t c) {l0 : Nat} (low : t.lowest = some l0)
    (busy : t.pend ≠ []) (g : Code) (slot : BitVec 3) : exec (.graft g slot) s = .next s := by
  rw [exec_graft, execGraft, teamWord_eq h low]
  refine if_pos ?_
  simpa using busy

theorem graft_claim : Claims.Graft := by
  intro s t c g slot h out
  refine ⟨fun idle => teamWord_skips h idle 1 _, fun live busy => ?_, fun l0 low idle => ?_⟩
  · obtain ⟨l0, low⟩ := Option.ne_none_iff_exists'.1 live
    exact graft_busy h low busy g slot
  intro r
  have eq : out = _ := graft_eq h low idle g slot
  refine ⟨fun cause a fails => eq.trans (handled_error fails ..), fun base i e passes => ?_⟩
  have eq := eq.trans ((handled_ok passes ..).trans (graftSlice_eq ..))
  have kept1 : Kept s r.2 := (MemSide.bump s).kept.trans (kept_checkHandle ..)
  intro a F
  rw [kept1.cur]
  refine next_range kept1 eq fun rs kept2 eq => ?_
  rw [kept2.cur] at eq
  intro s1 rec_ link dreg shape
  have kept3 : Kept s s1 := kept2.trans (kept_drain ..)
  refine ⟨fun misfit => eq.trans (graftRecord_misfit misfit), fun fits full => eq.trans ((graftRecord_fits fits).trans (if_pos full)),
    fun fits room => ?_⟩
  have eq := eq.trans ((graftRecord_fits fits).trans (if_neg (Nat.not_lt.2 room)))
  rw [graftRanges] at eq
  refine next_range kept3 eq fun bs kept4 eq => ?_
  refine next_range kept4 eq fun fs kept5 eq => ?_
  rw [eq]
  refine spills_after (MemSide.refl _) fun s3 spill goes => ?_
  have kept6 := kept5.trans spill.kept
  obtain ⟨t0, team0, same0⟩ := kept6.team h.1
  obtain ⟨t2, team2, same2, lays⟩ := graftLays_eq (c := c) (g := g) (k := r.2.fresh) (a := a) (f := F) (rec_ := rec_)
    kept6.cur team0 same0 bs fs
  have lanes : t2.lanes = t.lanes := by rw [same2.1]
  have nregs : t2.nregs = t.nregs := by rw [same2.1]
  have fb2 : t2.fb = t.fb := by rw [same2.1]
  have regs2 : t2.regs = t.regs := by rw [same2.1]
  have args (l : Nat) : pair r.2.fresh t2 (g + 2) l = pair s.fresh t (g + 2) l :=
    pair_idle idle (same2.pend_nil idle) regs2 _ _ _ l
  intro s4 body o hi lo delta fb plain frames s2
  refine ⟨t2, _, team2, same2, goes.trans lays, afterGraft_fsp .., ?_, grafted_unlinked .., grafted_place ..,
    fun j hj => afterGraft_fmt hj, fun l hl => ?_, grafted_only rfl⟩
  · rw [← fb2]
    exact afterGraft_fb ..
  · rw [← lanes] at hl ⊢
    rw [← nregs, ← args l]
    obtain ⟨depth, broken⟩ := afterGraft_counters
      (t := t2.graftRefs (16 * ceilDiv t.lanes 16 + 4 * t.lanes * t.nregs) F body) (c := c) (rec_ := rec_) (body := body) (lo := lo) (hi := hi) (delta := delta) (args := fun l => pair r.2.fresh t2 (g + 2) l) hl
    exact ⟨depth, broken, fun few => afterGraft_args hl few, fun n hn first second few => afterGraft_reg hl hn first second few⟩

/-- Settles O27: GRAFT by its stages and the team that it leaves. -/
theorem graftLaysSlice : Obligations.GraftLaysSlice := graft_claim

end Sys2Proof.Machine
end

section
/-! PROOFS. CUT, GRAFT and SLFREE complete where each of their checks passes (R137, R141, R142). -/

namespace Sys2Proof.Machine

open Sys2Proof.Claims

/-- CUT from its ranges on, where every range passes and the directory has room. -/
theorem cutRanges_writes {s1 s2 s3 s4 s5 s6 : State} {u : Nat} {t : Team} {c : Clause} {d : Code} {m lo base size e b : Nat}
    {fs ds xs ys : List Seg} (cur : s1.cur = u) (above : rangeAccess s1 u t false lo (t.fsp.toNat - lo) = (.ok fs, s2))
    (directory : rangeAccess s2 u t false base 2048 = (.ok ds, s3)) (drained : drainFrame s3 u false ds = s4)
    (entry : findFrom (fun j => !entryLive (dirEntry (readSegs s4 ds base 2048) j)) 0 (entryCount size) = some e)
    (run : freeRun (readSegs s4 ds base 2048) size (ceilDiv (sliceSize t (t.fsp.toNat - lo)) 2048) = some b)
    (slot : rangeAccess s4 u t true (base + 16 * e) 16 = (.ok xs, s5))
    (blocks : rangeAccess s5 u t true (base + 2048 * b) (2048 * ceilDiv (sliceSize t (t.fsp.toNat - lo)) 2048) = (.ok ys, s6)) :
    Kept s1 s6 ∧ ∃ gen, cutRanges t c d m lo base size s1 = cutWrite s6 c d t m lo base e gen b xs ys := by
  have kept2 : Kept s1 s2 := kept_of_range above
  have kept3 : Kept s1 s3 := kept2.trans (kept_of_range directory)
  have kept4 : Kept s1 s4 := kept3.trans (drained ▸ kept_drain ..)
  have kept5 : Kept s1 s5 := kept4.trans (kept_of_range slot)
  refine ⟨kept5.trans (kept_of_range blocks), if entryGen (dirEntry (readSegs s4 ds base 2048) e) = 65535 then 1
    else entryGen (dirEntry (readSegs s4 ds base 2048) e) + 1, ?_⟩
  rw [cutRanges, cur, above, ranged_pieces, kept2.cur, cur, directory, ranged_pieces, kept3.cur, cur, drained,
    cutSearch_free entry run, cutSlots, kept4.cur, cur, slot, ranged_pieces, kept5.cur, cur, blocks, ranged_pieces]

/-- GRAFT from its ranges on, where every range passes and no frame need leave local memory. -/
theorem graftRanges_lays {s3 s4 s5 : State} {u : Nat} {t : Team} {c : Clause} {g : Code} {k a f : Nat} {rec_ : List Byte}
    {bs fs : List Seg} (cur : s3.cur = u) (slice : rangeAccess s3 u t false (a + 64) (sliceSize t f - 64) = (.ok bs, s4))
    (frames : rangeAccess s4 u { t with fsp := t.fsp + BitVec.ofNat 64 f } true t.fsp.toNat f = (.ok fs, s5))
    (stays : (spillRefused s5 t { t with fsp := t.fsp + BitVec.ofNat 64 f }).1 = false) :
    ∃ s6, Kept s3 s6 ∧ graftRanges t c g k a f rec_ s3 = graftLays t c g k a f rec_ bs fs s6 := by
  have kept4 : Kept s3 s4 := kept_of_range slice
  have kept5 : Kept s3 s5 := kept4.trans (kept_of_range frames)
  refine ⟨_, kept5.trans (MemSide.spillRefused s5 t { t with fsp := t.fsp + BitVec.ofNat 64 f }).kept, ?_⟩
  rw [graftRanges, cur, slice, ranged_pieces, kept4.cur, cur, frames, ranged_pieces, withSpill,
    ← Prod.eta (spillRefused s5 t { t with fsp := t.fsp + BitVec.ofNat 64 f }), stays]

section completes
variable {s s1 s2 : State} {t : Team} {c : Clause} (h : Issues s t c) {l0 : Nat} (low : t.lowest = some l0)
include h low

/-- CUT completes. -/
theorem cut_completes {s3 s4 s5 s6 : State} {t1 : Team} (d : Code) (tag : BitVec 16) {m base size e b : Nat}
    {fs ds xs ys : List Seg}
    (idle : t.pend = []) (copies : copiesDone s s.cur t = true) (drained : drainFrame s s.cur false [] = s1)
    (team : s1.team s.cur = some t1) (found : t1.findMark tag.toNat t1.chainBound t1.head.toNat = m) (live : m ≠ 0)
    (store : sliceStore s1 t1 = some (base, size)) (small : sliceSize t (t.fsp.toNat - (m + t.markSize)) ≤ 65536)
    (above : rangeAccess s1 s.cur t1 false (m + t.markSize) (t.fsp.toNat - (m + t.markSize)) = (.ok fs, s2))
    (directory : rangeAccess s2 s.cur t1 false base 2048 = (.ok ds, s3)) (behind : drainFrame s3 s.cur false ds = s4)
    (entry : findFrom (fun j => !entryLive (dirEntry (readSegs s4 ds base 2048) j)) 0 (entryCount size) = some e)
    (run : freeRun (readSegs s4 ds base 2048) size (ceilDiv (sliceSize t (t.fsp.toNat - (m + t.markSize))) 2048) = some b)
    (slot : rangeAccess s4 s.cur t1 true (base + 16 * e) 16 = (.ok xs, s5))
    (blocks : rangeAccess s5 s.cur t1 true (base + 2048 * b)
      (2048 * ceilDiv (sliceSize t (t.fsp.toNat - (m + t.markSize))) 2048) = (.ok ys, s6)) :
    ∃ u t', exec (.cut d tag) s = .next u ∧ u.team s.cur = some t' ∧ t'.fsp = BitVec.ofNat 64 (m + t.markSize) ∧
      t'.head = BitVec.ofNat 64 m ∧ t'.clause = none ∧ t'.slot = 0 ∧ t'.resume = 0 := by
  have kept1 : Kept s s1 := drained ▸ kept_drain ..
  have same := kept1.same h.1 team
  have mark : t.markSize = t1.markSize := by rw [same.1]; rfl
  have size1 (f : Nat) : sliceSize t f = sliceSize t1 f := by rw [same.1]; rfl
  have fsp : t.fsp = t1.fsp := by rw [same.1]
  simp only [size1, mark, fsp] at small above run blocks ⊢
  subst drained
  have eq := cut_eq h low d tag idle copies team
  rw [found, if_neg live, cutFound_store store small] at eq
  obtain ⟨kept6, gen, writes⟩ := cutRanges_writes (c := c) (d := d) (m := m) kept1.cur above directory behind entry run slot
    blocks
  have kept6 := kept1.trans kept6
  obtain ⟨t0, team0, -⟩ := kept6.team h.1
  obtain ⟨t2, -, -, left⟩ := cutWrite_writes (t := t1) kept6.cur team0 c d m (m + t1.markSize) base e gen b xs ys
  obtain ⟨-, start, gone, resume, -⟩ := afterCut_place t2 c m (m + t1.markSize) d
    (BitVec.ofNat 64 (e + 2 ^ 16 * gen + 2 ^ 32 * ownPart s6 t1))
  exact ⟨_, _, eq.trans (writes.trans left), State.team_putTeam_same .., afterCut_fsp .., afterCut_head .., gone, start, resume⟩

/-- GRAFT completes. -/
theorem graft_completes {s3 s4 s5 : State} (g : Code) (slot : BitVec 3) {base i : Nat} {e rec_ : List Byte} {rs bs fs : List Seg}
    (idle : t.pend = []) (passes : checkHandle s.bump t (pair s.fresh t g l0) = (.ok (base, i, e), s1))
    (record : rangeAccess s1 s.cur t false (base + 2048 * entryFirst e) 64 = (.ok rs, s2))
    (behind : drainFrame s2 s.cur false rs = s3)
    (read : readSegs s3 rs (base + 2048 * entryFirst e) 64 = rec_) (fits : GraftFits t (entryFrame e) rec_)
    (room : t.fsp.toNat + entryFrame e ≤ t.limit)
    (slice : rangeAccess s3 s.cur t false (base + 2048 * entryFirst e + 64) (sliceSize t (entryFrame e) - 64) = (.ok bs, s4))
    (frames : rangeAccess s4 s.cur { t with fsp := t.fsp + BitVec.ofNat 64 (entryFrame e) } true t.fsp.toNat (entryFrame e) =
      (.ok fs, s5))
    (stays : (spillRefused s5 t { t with fsp := t.fsp + BitVec.ofNat 64 (entryFrame e) }).1 = false) :
    ∃ (u : State) (t' : Team), exec (.graft g slot) s = .next (spillCheck (u.putTeam s.cur t') s.cur) ∧
      t'.clause = none ∧ t'.slot = 0 ∧ t'.resume = 0 ∧ t'.pc = BitVec.ofNat 64 (num rec_ 0 8) := by
  have kept1 : Kept s s1 := kept_of_handle passes
  have kept2 : Kept s s2 := kept1.trans (kept_of_range record)
  have kept3 : Kept s s3 := kept2.trans (behind ▸ kept_drain ..)
  obtain ⟨s6, kept6, lays⟩ := graftRanges_lays (c := c) (g := g) (k := s1.fresh) (rec_ := rec_) kept3.cur slice frames stays
  have kept6 := kept3.trans kept6
  obtain ⟨t0, team0, same0⟩ := kept6.team h.1
  obtain ⟨t2, -, -, left⟩ := graftLays_eq (c := c) (g := g) (k := s1.fresh) (a := base + 2048 * entryFirst e) (f := entryFrame e)
    (rec_ := rec_) kept6.cur team0 same0 bs fs
  have eq := graft_eq h low idle g slot
  rw [passes, handled_entry, graftSlice_eq, kept1.cur, record, ranged_pieces, kept2.cur, behind, read, graftRecord_fits fits,
    if_neg (Nat.not_lt.2 room), lays, left] at eq
  obtain ⟨-, start, gone, resume, pc⟩ := grafted_place t c g s1.fresh (entryFrame e) rec_
    (graftBody (graftDrain s6 s.cur bs fs) t (base + 2048 * entryFirst e) (entryFrame e) bs) t2
  exact ⟨_, _, eq, gone, start, resume, pc⟩

/-- SLFREE past its checks: its entry is written, and its team goes on. -/
theorem slfree_frees (g : Code) (slot : BitVec 3) {base i : Nat} {e : List Byte} {xs : List Seg}
    (passes : checkHandle s.bump t (pair s.fresh t g l0) = (.ok (base, i, e), s1))
    (met : rangeAccess s1 s.cur t true (base + 16 * i) 16 = (.ok xs, s2)) :
    exec (.slfree g slot) s = accept (freedEntry s2 s.cur xs base i e) c slot ∧ Kept s (freedEntry s2 s.cur xs base i e) := by
  have kept1 : Kept s s1 := kept_of_handle passes
  have kept2 : Kept s s2 := kept1.trans (kept_of_range met)
  refine ⟨?_, kept2.trans (kept_freedEntry ..)⟩
  rw [slfree_eq h low g slot, passes, handled_entry, kept1.cur, met, ranged_pieces, kept2.cur]

/-- SLFREE completes. -/
theorem slfree_completes (g : Code) (slot : BitVec 3) {base i : Nat} {e : List Byte} {xs : List Seg}
    (passes : checkHandle s.bump t (pair s.fresh t g l0) = (.ok (base, i, e), s1))
    (met : rangeAccess s1 s.cur t true (base + 16 * i) 16 = (.ok xs, s2)) :
    ∃ u t', exec (.slfree g slot) s = .next u ∧ u.team s.cur = some t' ∧ t'.nextWord = t.nextWord + 1 ∧
      Past { t with nextWord := t.nextWord + 1 } t' c 1 := by
  obtain ⟨frees, kept⟩ := slfree_frees h low g slot passes met
  obtain ⟨t1, team, same, bare⟩ := kept.team h.1
  have next : SameButWindow { t with nextWord := t.nextWord + 1 } { t1 with nextWord := t1.nextWord + 1 } := ⟨by rw [same], bare⟩
  have word : t1.nextWord = t.nextWord := by rw [same]
  refine ⟨_, _, frees.trans (accept_eq kept.cur team c slot), State.team_putTeam_same .., ?_,
    Past.of_sameButWindow next (Past.of_advance ..)⟩
  rw [Team.advance_nextWord, word]

end completes

theorem slicesComplete : Claims.SlicesComplete := by
  intro s s1 s2 s3 s4 s5 s6 t t1 c d g tag slot l0 m base size i b e rec_ fs ds xs ys rs bs h low
  refine ⟨fun idle copies drained team found live store =>
      cut_completes h low d tag idle copies drained team found live store, ?_,
    slfree_completes h low g slot⟩
  intro idle passes a f record behind read lanes nregs even inside link room slice frames stays
  exact graft_completes h low g slot idle passes record behind read ⟨lanes, nregs, link, even, inside⟩ room slice frames stays

/-- Settles O26: CUT by its stages and the team that it leaves, and the completion of each of the three words. -/
theorem cutLiftsFrames : Obligations.CutLiftsFrames := ⟨cut_claim, slicesComplete⟩

end Sys2Proof.Machine
end

section
/-! PROOFS. Canonical memory, tiles (R149, R165): what a step's own operations leave canonical. The tables of a state
stand beside its memories; the metadata regions, the seal of a tile, and the reads and writes through it write a
memory, or leave it. -/

namespace Sys2Proof.Machine

set_option Elab.async false

/-- A step's outcome leaves the memories canonical where it goes on. -/
@[irreducible] def Canonical (o : Out) : Prop := ∀ t, o = .next t → t.wf = true

theorem canonical_next {t : State} : Canonical (.next t) ↔ t.wf = true := by simp [Canonical]

theorem canonical_fault (x : Fault) : Canonical (.fault x) := by simp [Canonical]

theorem wf_iff {s : State} :
    s.wf = true ↔ Memory.wf s.hbm = true ∧ Memory.wf s.host = true ∧ Memory.wf s.scratch = true := by
  simp [State.wf, and_assoc]

theorem wf_withHbm {s : State} (hs : s.wf = true) {m : Memory} (hm : Memory.wf m = true) :
    { s with hbm := m }.wf = true := wf_iff.2 ⟨hm, (wf_iff.1 hs).2⟩

theorem wf_withHost {s : State} (hs : s.wf = true) {m : Memory} (hm : Memory.wf m = true) :
    { s with host := m }.wf = true := wf_iff.2 ⟨(wf_iff.1 hs).1, hm, (wf_iff.1 hs).2.2⟩

theorem wf_withScratch {s : State} (hs : s.wf = true) {m : Memory} (hm : Memory.wf m = true) :
    { s with scratch := m }.wf = true := wf_iff.2 ⟨(wf_iff.1 hs).1, (wf_iff.1 hs).2.1, hm⟩

theorem wf_ite {c : Prop} [Decidable c] {s t : State} (hs : s.wf = true) (ht : t.wf = true) :
    (if c then s else t).wf = true := by
  split
  · exact hs
  · exact ht

theorem Memory.wf_clear (lo n : Nat) {m : Memory} (hm : Memory.wf m = true) : Memory.wf (fclear m lo n) = true :=
  fwf_fclear unwritten lo n hm

theorem wf_foldl {α : Type} {f : State → α → State} (hf : ∀ s x, s.wf = true → (f s x).wf = true) (l : List α)
    {s : State} (hs : s.wf = true) : (l.foldl f s).wf = true :=
  foldl_keeps (fun s => s.wf = true) f hf l s hs

theorem wf_foldl_snd {α β : Type} {f : β × State → α → β × State} (hf : ∀ x i, x.2.wf = true → (f x i).2.wf = true)
    (l : List α) {x : β × State} (hx : x.2.wf = true) : (l.foldl f x).2.wf = true :=
  foldl_keeps (fun x => x.2.wf = true) f hf l x hx

variable {s : State}

@[simp] theorem wf_putTeam (u : Nat) (t : Team) : (s.putTeam u t).wf = s.wf := rfl

@[simp] theorem wf_putWg (g : Nat) (w : Workgroup) : (s.putWg g w).wf = s.wf := rfl

@[simp] theorem wf_dropWg (g : Nat) : (s.dropWg g).wf = s.wf := rfl

@[simp] theorem wf_putLaunch (l : Nat) (x : Launch) : (s.putLaunch l x).wf = s.wf := rfl

@[simp] theorem wf_dropLaunch (l : Nat) : (s.dropLaunch l).wf = s.wf := rfl

@[simp] theorem wf_putGraph (g : Nat) (x : Graph) : (s.putGraph g x).wf = s.wf := rfl

@[simp] theorem wf_dropGraph (g : Nat) : (s.dropGraph g).wf = s.wf := rfl

@[simp] theorem wf_putQueue (q : Nat) (x : Queue) : (s.putQueue q x).wf = s.wf := rfl

@[simp] theorem wf_putCopy (k : Nat) (x : Copy) : (s.putCopy k x).wf = s.wf := rfl

@[simp] theorem wf_dropCopy (k : Nat) : (s.dropCopy k).wf = s.wf := rfl

@[simp] theorem wf_putStream (k : Nat) (x : Stream) : (s.putStream k x).wf = s.wf := rfl

@[simp] theorem wf_dropStream (k : Nat) : (s.dropStream k).wf = s.wf := rfl

@[simp] theorem wf_putPart (n : Nat) (x : Part) : (s.putPart n x).wf = s.wf := rfl

@[simp] theorem wf_putCluster (c : Nat) (x : ClPower) : (s.putCluster c x).wf = s.wf := rfl

@[simp] theorem wf_nextId : (s.nextId).wf = s.wf := rfl

@[simp] theorem wf_bump : (s.bump).wf = s.wf := rfl

@[simp] theorem wf_dropLoop (core : Nat) : (dropLoop s core).wf = s.wf := rfl

@[simp] theorem wf_roomReturns (core : Nat) : (roomReturns s core).wf = s.wf := rfl

@[simp] theorem wf_putDreg (a : Nat) (v : DWord) : (s.putDreg a v).wf = s.wf := rfl

@[simp] theorem wf_setWake (core bits : Nat) : (setWake s core bits).wf = s.wf := rfl

@[simp] theorem wf_putCaddy (t : Nat) (c : Caddy) : (s.putCaddy t c).wf = s.wf := rfl

@[simp] theorem wf_recomputePaths : (recomputePaths s).wf = s.wf := rfl

@[simp] theorem wf_bootFail (code : Nat) : (bootFail s code).wf = s.wf := rfl

@[simp] theorem wf_putMailbox (fn : Nat) (x : Mailbox) : (s.putMailbox fn x).wf = s.wf := rfl

@[simp] theorem wf_cxlFail (h : Nat) : (cxlFail s h).wf = s.wf := rfl

@[simp] theorem wf_rebasePtp : (rebasePtp s).wf = s.wf := rfl

@[simp] theorem wf_hearLeader (source : Nat) (a : Announce) : (hearLeader s source a).wf = s.wf := rfl

variable (hs : s.wf = true)
include hs

omit hs in
theorem canonical_withTeam (k : Team → Clause → Out) (hk : ∀ t c, Canonical (k t c)) : Canonical (withTeam s k) := by
  grind [withTeam, canonical_fault]

theorem wf_putDfield (a lo n x : Nat) : (s.putDfield a lo n x).wf = true := by grind [State.putDfield, wf_putDreg]

theorem wf_addDfield (a lo n x : Nat) : (s.addDfield a lo n x).wf = true := by grind [State.addDfield, wf_putDfield]

theorem wf_raiseEvent (n bit : Nat) : (raiseEvent s n bit).wf = true := by grind [raiseEvent, wf_putDfield, State.wf]

theorem wf_setResident (n : Nat) (b : Bool) : (setResident s n b).wf = true := by
  grind [setResident, wf_putDfield, wf_putPart]

theorem wf_setPartState (n st : Nat) : (setPartState s n st).wf = true := by
  grind [setPartState, wf_putDfield, wf_raiseEvent]

theorem wf_setOwnsCluster (n c : Nat) (b : Bool) : (setOwnsCluster s n c b).wf = true := by
  grind [setOwnsCluster, wf_putDfield]

theorem wf_setOwnsGroup (n g : Nat) (b : Bool) : (setOwnsGroup s n g b).wf = true := by
  grind [setOwnsGroup, wf_putDfield]

theorem wf_showEventQueue (n : Nat) : (showEventQueue s n).wf = true := by grind [showEventQueue, wf_putDfield]

theorem wf_raiseQueueEvent (n bit q : Nat) : (raiseQueueEvent s n bit q).wf = true := by
  grind [raiseQueueEvent, wf_raiseEvent, wf_showEventQueue, State.wf]

theorem wf_clearQueueEvents (n bits : Nat) : (clearQueueEvents s n bits).wf = true := by
  grind [clearQueueEvents, wf_showEventQueue, State.wf]

theorem wf_addDeny (n : Nat) : (addDeny s n).wf = true := by grind [addDeny, wf_addDfield]

theorem wf_charge (n : Option Nat) : (charge s n).wf = true := by
  unfold charge
  grind [wf_bump, wf_putDreg]

theorem wf_setQueueState (q st : Nat) : (setQueueState s q st).wf = true := by grind [setQueueState, wf_putDfield]

theorem wf_pathWritten (t : Nat) : (pathWritten s t).wf = true := by grind [pathWritten, State.wf]

theorem wf_alter (a : Nat) (was now : List Byte) : (alter s a was now).wf = true := by grind [alter, State.wf]

theorem wf_putMetaByte (a : Nat) (b : Byte) : (putMetaByte s a b).wf = true := by
  unfold putMetaByte
  extract_lets g i t was s1
  have h1 : s1.wf = true := hs
  split
  · exact wf_alter h1 ..
  · split
    · exact wf_alter hs ..
    · exact wf_withHbm hs (fwf_fset _ a b (wf_iff.1 hs).1)

theorem wf_putMeta (a : Nat) (l : List Byte) : (putMeta s a l).wf = true :=
  foldl_keeps (fun x : State × Nat => x.1.wf = true) _ (fun x b hx => wf_putMetaByte hx x.2 b) l (s, a) hs

theorem wf_sealCheck (key t : Nat) : (sealCheck s key t).2.wf = true := by grind [sealCheck, wf_putCaddy]

theorem wf_mergeText (t a : Nat) (l : List Byte) : Memory.wf (mergeText s t a l) = true := by
  have hm := (wf_iff.1 hs).1
  unfold mergeText
  extract_lets c
  split
  · exact Memory.wf_write l a (Memory.wf_clear _ _ hm)
  · split
    · exact Memory.wf_write l a hm
    · exact Memory.wf_write l a (Memory.wf_write _ _ hm)

theorem wf_sealStore (key a : Nat) (l : List Byte) : (sealStore s key a l).2.wf = true := by
  grind [sealStore, wf_mergeText, wf_withHbm, wf_pathWritten, wf_putCaddy, wf_putMeta, wf_sealCheck, State.wf]

theorem wf_ringAppend (hdr : List Byte) (cap : Nat) {w : State → Nat → List Byte → State}
    (hw : ∀ s o l, s.wf = true → (w s o l).wf = true) (record : List Byte) :
    (ringAppend hdr cap w s record).wf = true := by
  unfold ringAppend
  extract_lets tail head s1 s2
  split
  · exact hw _ _ _ hs
  · exact hw _ _ _ (hw _ _ _ (hw _ _ _ hs))

theorem wf_sealRecord (part paddr source status granule : Nat) :
    (sealRecord s part paddr source status granule).wf = true := by
  grind [sealRecord, wf_ringAppend, wf_sealCheck, wf_sealStore, State.wf]

theorem wf_sealLog (paddr source status granule : Nat) : (sealLog s paddr source status granule).wf = true := by
  grind [sealLog, wf_sealRecord]

theorem wf_checkLog (part : Option Nat) (granule : Nat) : (checkLog s part granule).wf = true := by
  grind [checkLog, wf_bump, wf_sealRecord]

theorem wf_nodeLog (a : Nat) : (nodeLog s a).wf = true := by grind [nodeLog, wf_sealLog, State.wf]

theorem wf_failLog (t source : Nat) (f : SealFail) : (failLog s t source f).wf = true := by
  grind [failLog, wf_nodeLog, wf_sealLog]

theorem wf_refuseLog (t source : Nat) (f : SealFail) : (refuseLog s t source f).wf = true := by
  grind [refuseLog, wf_failLog]

theorem wf_sealRead (key source a n : Nat) : (sealRead s key source a n).2.2.wf = true := by
  grind [sealRead, wf_failLog, wf_sealCheck]

theorem wf_closeTile (t : Nat) : (closeTile s t).wf = true := by
  unfold closeTile
  split
  · exact hs
  next o _ =>
    extract_lets s1 c
    have h1 : s1.wf = true := hs
    split
    · exact wf_sealLog (s := s1.putCaddy _ _) h1 ..
    · exact wf_nodeLog h1 ..
    · have hm := Memory.wf_clear (t * 2048) 2048 (wf_iff.1 h1).1
      exact (wf_putCaddy ..).trans (wf_withHbm (wf_pathWritten h1 t) (Memory.wf_write _ _ hm))

theorem wf_closeTiles (p : OpenTile → Bool) : (closeTiles s p).wf = true := by
  grind [closeTiles, wf_closeTile, wf_foldl]

theorem wf_openTile (key source a : Nat) (l : List Byte) : (openTile s key source a l).2.wf = true := by
  grind [openTile, wf_bump, wf_nodeLog, wf_refuseLog, wf_sealCheck, State.wf]

theorem wf_sealWrite (key source a : Nat) (l : List Byte) : (sealWrite s key source a l).2.wf = true := by
  grind [sealWrite, wf_openTile, wf_refuseLog, wf_sealStore]

theorem wf_sealReads (key source fuel a n : Nat) : (sealReads key source fuel s a n).2.2.wf = true := by
  induction fuel generalizing s a n with
  | zero => exact hs
  | succ fuel ih =>
    unfold sealReads
    split
    · exact hs
    · exact ih (wf_sealRead hs ..) ..

theorem wf_sealWrites (key source fuel a : Nat) (l : List Byte) : (sealWrites key source fuel s a l).2.wf = true := by
  induction fuel generalizing s a l with
  | zero => exact hs
  | succ fuel ih =>
    unfold sealWrites
    split
    · exact hs
    · exact ih (wf_sealWrite hs ..) ..

theorem wf_blankRange (lo n : Nat) : (blankRange s lo n).wf = true :=
  wf_withHbm hs (Memory.wf_clear _ _ (wf_iff.1 hs).1)

theorem wf_blankGroup (g : Nat) : (blankGroup s g).wf = true := by grind [blankGroup, wf_blankRange, State.wf]

end Sys2Proof.Machine
end

section
/-! PROOFS. Canonical memory, pages: walks and translations, local memory that leaves its core, a team's accesses and
held stores, and what an engine reads and writes through a page. -/

namespace Sys2Proof.Machine

set_option Elab.async false

variable {s : State} (hs : s.wf = true)
include hs

theorem wf_walkFrom (part : Option Nat) (va : Nat) (wr : Bool) (level node key : Nat) :
    (walkFrom part va wr level s node key).2.wf = true := by
  induction level generalizing s node key with
  | zero => unfold walkFrom; grind [wf_sealRead, wf_sealWrite, wf_addDeny]
  | succ level ih => unfold walkFrom; grind [wf_sealRead, wf_sealWrite, wf_addDeny]

theorem wf_walk (part : Option Nat) (va : Nat) (wr : Bool) : (walk s part va wr).2.wf = true := by
  unfold walk
  grind [wf_walkFrom]

theorem wf_cacheFill (l1 : Bool) (core : Option Nat) (x : Tlb) : (cacheFill l1 s core x).wf = true := by
  unfold cacheFill
  grind [State.wf]

theorem wf_xlateBy (l1 : Bool) (part core : Option Nat) (va : Nat) (wr : Bool) :
    (xlateBy l1 s part core va wr).2.wf = true := by
  grind [xlateBy, wf_cacheFill, wf_walk]

theorem wf_xlate (part core : Option Nat) (va : Nat) (wr : Bool) : (xlate s part core va wr).2.wf = true := by
  grind [xlate, wf_xlateBy]

theorem wf_vread (host : Bool) (part core : Option Nat) (fuel va n : Nat) :
    (vread host part core fuel s va n).2.wf = true := by
  induction fuel generalizing s va n with
  | zero => exact hs
  | succ fuel ih => unfold vread; grind [wf_xlate, wf_sealRead, wf_addDeny]

theorem wf_vwrite (part core : Option Nat) (fuel va : Nat) (l : List Byte) :
    (vwrite part core fuel s va l).2.wf = true := by
  induction fuel generalizing s va l with
  | zero => exact hs
  | succ fuel ih => unfold vwrite; grind [wf_xlate, wf_sealWrite, wf_addDeny]

theorem wf_vwriteWhole (part : Option Nat) (va : Nat) (l : List Byte) : (vwriteWhole part s va l).wf = true := by
  grind [vwriteWhole, wf_vwrite]

theorem wf_setSaveFull (n : Nat) : (setSaveFull s n).wf = true := by grind [setSaveFull, wf_putDfield]

theorem wf_areaAddr (part : Option Nat) (core va : Nat) (wr : Bool) : (areaAddr s part core va wr).2.wf = true := by
  unfold areaAddr
  grind [wf_addDeny, wf_xlateBy]

theorem wf_areaWrite (part : Option Nat) (core : Nat) (key bad : Option Nat) (va : Nat) :
    (areaWrite s part core key bad va).2.wf = true := by
  grind [areaWrite, wf_areaAddr, wf_bump, wf_sealWrite, State.wf]

theorem wf_areaRead (part : Option Nat) (core : Nat) (key : Option Nat) (va : Nat) :
    (areaRead s part core key va).2.wf = true := by
  grind [areaRead, wf_areaAddr, wf_sealRead]

theorem wf_eachTile {f : State → Nat → Bool × State} (hf : ∀ s va, s.wf = true → (f s va).2.wf = true) (unit : Nat) :
    (eachTile f s unit).2.wf = true := by
  unfold eachTile
  refine wf_foldl_snd (fun x i hx => ?_) _ hs
  exact hf x.2 (unit + 2048 * i) hx

theorem wf_spillKey (t : Team) : (spillKey s t).2.wf = true := by grind [spillKey, wf_xlateBy]

theorem wf_spillRefused (t t' : Team) : (spillRefused s t t').2.wf = true := by grind [spillRefused, wf_spillKey]

theorem wf_chargeSpill (t : Team) : (chargeSpill s t).wf = true := by grind [chargeSpill, wf_charge]

theorem wf_spillUnit (u : Nat) (t : Team) (key : Nat) : (spillUnit s u t key).2.wf = true := by
  grind [spillUnit, wf_areaWrite, wf_bump, wf_chargeSpill, wf_eachTile, wf_putTeam]

theorem wf_growSpill (u key k : Nat) : (growSpill u key k s).2.wf = true := by
  induction k generalizing s with
  | zero => exact hs
  | succ k ih => unfold growSpill; grind [wf_spillUnit]

theorem wf_refillBytes (t : Team) (o n : Nat) : (refillBytes s t o n).2.wf = true := by
  unfold refillBytes
  grind [wf_areaRead, wf_areaWrite, wf_chargeSpill, wf_spillKey, wf_foldl_snd]

theorem wf_refillFrame (t : Team) (o n : Nat) : (refillFrame s t o n).2.wf = true := by
  grind [refillFrame, wf_bump, wf_refillBytes]

theorem wf_placeWrite (p : Place) (o : Nat) (l : List Byte) (ref : Bool) : (placeWrite s p o l ref).wf = true := by
  unfold placeWrite
  split
  · exact wf_withScratch hs (Memory.wf_write _ _ (wf_iff.1 hs).2.2)
  · grind [wf_putWg]
  · grind [wf_putTeam]

theorem wf_atomWrite (p : Place) (o n : Nat) (x : Rmw) : (atomWrite s p o n x).2.wf = true := by
  grind [atomWrite, wf_placeWrite]

theorem wf_performStore (u : Nat) (x : PendStore) : (performStore s u x).wf = true := by
  grind [performStore, wf_atomWrite, wf_placeWrite, wf_putTeam]

theorem wf_promote (u : Nat) (x : PendStore) : (promote s u x).wf = true := by
  grind [promote, wf_nextId, wf_performStore, wf_putTeam]

theorem wf_raiseOne (u : Nat) (x : PendStore) (n : Nat) : (raiseOne s u x n).wf = true := by
  grind [raiseOne, wf_promote, wf_foldl]

theorem wf_raiseStore (u : Nat) (x : PendStore) (n : Nat) : (raiseStore s u x n).wf = true := by
  grind [raiseStore, wf_performStore, wf_putTeam, wf_raiseOne, wf_foldl]

theorem wf_raiseStores (u : Nat) (p : PendStore → Nat) : (raiseStores s u p).wf = true := by
  grind [raiseStores, wf_putTeam, wf_raiseStore, wf_foldl]

theorem wf_raiseSeen (u n : Nat) : (raiseSeen s u n).wf = true := by grind [raiseSeen, wf_raiseOne, wf_foldl]

theorem wf_raiseMet (u : Nat) (p : Place) (o n : Nat) : (raiseMet s u p o n).wf = true := by
  grind [raiseMet, wf_raiseOne, wf_foldl]

theorem wf_drainTo (u n : Nat) : (drainTo s u n).wf = true := by
  grind [drainTo, wf_putTeam, wf_raiseSeen, wf_raiseStores]

theorem wf_drainAll (u : Nat) : (drainAll s u).wf = true := by grind [drainAll, wf_drainTo]

theorem wf_drainOne (u k : Nat) : (drainOne s u k).wf = true := by grind [drainOne, wf_raiseStores]

theorem wf_atomsFirst (u : Nat) (p : PendStore → Bool) : (atomsFirst s u p).wf = true := by
  grind [atomsFirst, wf_raiseStores]

theorem wf_meetRefill (t : Team) (y : Seg) : (meetRefill s t y).2.wf = true := by grind [meetRefill, wf_refillFrame]

theorem wf_meetPiece (u : Nat) (t : Team) (k : AccKind) (va n lo len : Nat) :
    (meetPiece s u t k va n lo len).2.wf = true := by
  grind [meetPiece, wf_addDeny, wf_meetRefill, wf_xlate]

theorem wf_meetPieces (u : Nat) (t : Team) (k : AccKind) (lo len : Nat) (l : List (Nat × Nat)) :
    (meetPieces u t k lo len s l).2.wf = true := by
  induction l generalizing s with
  | nil => exact hs
  | cons e l ih => unfold meetPieces; exact ih (wf_meetPiece hs ..)

theorem wf_meetAll (u : Nat) (t : Team) (k : AccKind) (lo len : Nat) (ps : List (Nat × Nat)) :
    (meetAll s u t k lo len ps).2.wf = true := by
  grind [meetAll, wf_meetPieces]

theorem wf_laneAccess (u : Nat) (t : Team) (k : AccKind) (va : DWord) : (laneAccess s u t k va).2.wf = true := by
  grind [laneAccess, wf_meetAll]

theorem wf_lanesAccess (u : Nat) (t : Team) (k : AccKind) (l : List (Nat × DWord)) :
    (lanesAccess u t k s l).2.wf = true := by
  induction l generalizing s with
  | nil => exact hs
  | cons e l ih => unfold lanesAccess; grind [wf_laneAccess]

theorem wf_engineDeny (r : Requester) : (engineDeny s r).wf = true := by grind [engineDeny, wf_addDeny]

theorem wf_enginePage (r : Requester) (va n : Nat) (wr : Bool) : (enginePage s r va n wr).2.wf = true := by
  grind [enginePage, wf_engineDeny, wf_xlateBy]

theorem wf_freshenGranule (p : Place) (g : Nat) : (freshenGranule s p g).wf = true := by
  unfold freshenGranule
  grind [wf_putWg, State.wf]

theorem wf_logGranules (r : Requester) (l : List Nat) : (logGranules s r l).wf = true := by
  grind [logGranules, wf_checkLog, wf_foldl]

theorem wf_pageReadBut (logged : List Nat) (r : Requester) (p : Pte) (pa n : Nat) :
    (pageReadBut logged s r p pa n).2.2.wf = true := by
  grind [pageReadBut, wf_logGranules, wf_sealRead]

theorem wf_pageRead (r : Requester) (p : Pte) (pa n : Nat) : (pageRead s r p pa n).2.2.wf = true := by
  grind [pageRead, wf_pageReadBut]

theorem wf_pageWrite (r : Requester) (p : Pte) (k pa : Nat) (l : List Byte) : (pageWrite s r p k pa l).2.wf = true := by
  unfold pageWrite
  split
  · exact wf_sealWrite hs ..
  · exact wf_withHost hs (Memory.wf_write _ _ (wf_iff.1 hs).2.1)
  · split
    · exact wf_placeWrite hs ..
    · exact wf_logGranules hs ..

theorem wf_engineRead (r : Requester) (va n : Nat) : (engineRead s r va n).2.2.wf = true := by
  grind [engineRead, wf_enginePage, wf_pageRead]

theorem wf_engineWrite (r : Requester) (key : Option Nat) (va : Nat) (l : List Byte) :
    (engineWrite s r key va l).2.wf = true := by
  grind [engineWrite, wf_enginePage, wf_pageWrite]

theorem wf_engineReads (r : Requester) (va n : Nat) : (engineReads s r va n).2.2.wf = true := by
  grind [engineReads, wf_engineRead]

end Sys2Proof.Machine
end

section
/-! PROOFS. Canonical memory, units: barriers, reservations, slots and accumulator tiles, the tiles of copies,
launches and graphs. -/

namespace Sys2Proof.Machine

set_option Elab.async false

variable {s : State} (hs : s.wf = true)
include hs

theorem wf_fillResult (u word : Nat) (v : Word) : (fillResult s u word v).wf = true := by
  grind [fillResult, wf_putTeam]

theorem wf_wake (ws : List Waiter) (v : Waiter → Word) : (wake s ws v).wf = true := by
  grind [wake, wf_fillResult, wf_foldl]

theorem wf_arrive (g k : Nat) (team : Option Nat) (err : Option (Nat × Nat)) : (arrive s g k team err).wf = true := by
  grind [arrive, wf_putWg, wf_wake]

theorem wf_releaseMwait (w : Workgroup) (k : Nat) : (releaseMwait s w k).wf = true := by
  grind [releaseMwait, wf_putStream]

theorem wf_invalidate (g k : Nat) : (invalidate s g k).wf = true := by
  grind [invalidate, wf_putCopy, wf_putWg, wf_releaseMwait, wf_wake, wf_foldl]

theorem wf_invalidateAll (g : Nat) : (invalidateAll s g).wf = true := by
  grind [invalidateAll, wf_invalidate, wf_foldl]

theorem wf_attach (g k c : Nat) : (attach s g k c).2.wf = true := by grind [attach, wf_putWg]

theorem wf_detach (g k c : Nat) : (detach s g k c).wf = true := by grind [detach, wf_putWg]

theorem wf_showRequest (core : Nat) : (showRequest s core).wf = true := by grind [showRequest, wf_putDfield]

theorem wf_giveRoom (core : Nat) (free : Room) : (giveRoom s core free).wf = true := by
  grind [giveRoom, wf_showRequest, State.wf]

theorem wf_endRequests (p : Request → Bool) : (endRequests s p).wf = true := by
  grind [endRequests, wf_giveRoom, wf_roomReturns, wf_foldl, State.wf]

theorem wf_groupStores (g : Nat) (p : Place) (o n k : Nat) :
    ((groupStores s g p o n).foldl (fun s e => raiseOne s e.1 e.2 k) s).wf = true := by
  refine wf_foldl (fun s e h => ?_) _ hs
  exact wf_raiseOne h e.1 e.2 k

theorem wf_performPart (st k : Nat) (p : Nat × Nat) : (performPart s st k p).2.wf = true := by
  unfold performPart
  split
  · exact hs
  · split
    · exact hs
    · extract_lets o left
      split
      · split
        · exact hs
        · exact hs
      · split
        · exact hs
        · split
          · exact hs
          · exact wf_placeWrite (wf_groupStores hs ..) ..

theorem wf_performParts (st k : Nat) (l : List (Nat × Nat)) : (performParts st k l s).2.wf = true := by
  induction l generalizing s with
  | nil => exact hs
  | cons p l ih => unfold performParts; grind [wf_performPart]

theorem wf_finishMem (st : Nat) (x : Stream) (m : StreamMem) : (finishMem s st x m).wf = true := by
  grind [finishMem, wf_freshenGranule, wf_putStream, wf_foldl]

theorem wf_retireOp (st k : Nat) : (retireOp s st k).2.wf = true := by
  grind [retireOp, wf_finishMem, wf_performParts, wf_putStream]

theorem wf_retireAll (st fuel : Nat) : (retireAll st fuel s).2.wf = true := by
  induction fuel generalizing s with
  | zero => exact hs
  | succ fuel ih => unfold retireAll; grind [wf_retireOp]

theorem wf_somePart (st k : Nat) : (somePart s st k).2.wf = true := by grind [somePart, wf_bump, wf_performParts]

theorem wf_finishOps (st : Nat) : (finishOps s st).wf = true := by
  unfold finishOps
  grind [wf_checkLog, wf_putStream, wf_retireOp, wf_foldl]

theorem wf_readPart (x : LateTile) (c : Copy) (p : Nat × Nat) : (LateTile.readPart x s c p).2.wf = true := by
  grind [LateTile.readPart, wf_pageReadBut]

theorem wf_writePart (x : LateTile) (c : Copy) (p : Nat × Nat) : (LateTile.writePart x s c p).2.wf = true := by
  grind [LateTile.writePart, wf_logGranules, wf_pageWrite, wf_placeWrite]

theorem wf_part (x : LateTile) (c : Copy) (p : Bool × Nat × Nat) : (LateTile.part x s c p).2.wf = true := by
  grind [LateTile.part, wf_readPart, wf_writePart]

theorem wf_performs (c : Copy) (l : List (Bool × Nat × Nat)) (x : LateTile) :
    (LateTile.performs c l x s).2.wf = true := by
  induction l generalizing s x with
  | nil => exact hs
  | cons p l ih => unfold LateTile.performs; exact ih (wf_part hs ..) ..

theorem wf_freshen (x : LateTile) (c : Copy) : (LateTile.freshen x s c).wf = true := by
  grind [LateTile.freshen, wf_freshenGranule, wf_foldl]

theorem wf_resealTile (c : Copy) (x : LateTile) : (resealTile s c x).2.wf = true := by
  unfold resealTile
  extract_lets key t
  split
  · exact hs
  · have h1 := wf_sealRead (wf_closeTile hs t) x.srcPage.pte.key 0 (t * 2048) 2048
    split
    next l s1 e =>
      rw [e] at h1
      split
      · exact wf_nodeLog h1 ..
      · exact wf_refuseLog (s := { s1 with flight := none }) h1 ..
      · have hm := Memory.wf_clear (t * 2048) 2048 (wf_iff.1 h1).1
        exact (wf_putCaddy ..).trans (wf_withHbm (wf_pathWritten h1 t) (Memory.wf_write _ _ hm))
    next e => rw [e] at h1; exact h1

theorem wf_performTile (p : Bool × Nat × Nat → Bool) (c : Copy) (x : LateTile) :
    (performTile p s c x).2.wf = true := by
  grind [performTile, wf_freshen, wf_performs, wf_resealTile]

theorem wf_finishTiles (p : LateTile → Bool) (k : Nat) : (finishTiles p s k).wf = true := by
  grind [finishTiles, wf_performTile, wf_putCopy, wf_foldl]

theorem wf_nodeDone (g i : Nat) (word : DWord) : (nodeDone s g i word).wf = true := by grind [nodeDone, wf_putGraph]

theorem wf_completeCopy (k st tile : Nat) : (completeCopy s k st tile).wf = true := by
  grind [completeCopy, wf_arrive, wf_detach, wf_dropCopy, wf_nodeDone, wf_putGraph]

theorem wf_stopCopy (k : Nat) : (stopCopy s k).wf = true := by grind [stopCopy, wf_completeCopy, wf_finishTiles]

theorem wf_startHeld : (startHeld s).wf = true := by grind [startHeld, wf_bump, wf_putLaunch]

theorem wf_launchCheck (l : Nat) : (launchCheck s l).wf = true := by
  grind [launchCheck, wf_dropLaunch, wf_endRequests, wf_nodeDone, wf_startHeld]

theorem wf_endStream (k : Nat) : (endStream s k).wf = true := by
  grind [endStream, wf_dropStream, wf_finishOps, wf_putWg]

theorem wf_leaveColls (g joined : Nat) : (leaveColls s g joined).wf = true := by
  grind [leaveColls, wf_arrive, wf_detach, wf_putWg, wf_foldl]

theorem wf_teamLeaves (u : Nat) (st : TeamStatus) : (teamLeaves s u st).wf = true := by
  grind [teamLeaves, wf_drainAll, wf_leaveColls, wf_putTeam]

theorem wf_cancelLaunch (l : Nat) : (cancelLaunch s l).wf = true := by
  unfold cancelLaunch
  grind [wf_endStream, wf_invalidateAll, wf_launchCheck, wf_putLaunch, wf_putTeam, wf_putWg, wf_stopCopy, wf_foldl]

theorem wf_failLaunch (l status : Nat) (nested : Bool) (cause : Nat) (wgid : Word) :
    (failLaunch s l status nested cause wgid).wf = true := by
  grind [failLaunch, wf_cancelLaunch, wf_putLaunch]

theorem wf_failStream (k cause : Nat) : (failStream s k cause).wf = true := by
  grind [failStream, wf_endStream, wf_failLaunch]

theorem wf_failCheck (st g : Nat) : (failCheck s st g).wf = true := by grind [failCheck, wf_checkLog, wf_failStream]

theorem wf_cancelGraph (g : Nat) : (cancelGraph s g).wf = true := by
  grind [cancelGraph, wf_cancelLaunch, wf_putGraph, wf_stopCopy, wf_foldl]

theorem wf_recordInput (q : Nat) (header payload : List Byte) : (recordInput s q header payload).wf = true := by
  grind [recordInput, wf_putDfield, wf_vwrite]

theorem wf_findRecord (q : Nat) (p : List Byte → Bool) (fuel k o : Nat) : (findRecord q p fuel k s o).2.wf = true := by
  induction fuel generalizing s k o with
  | zero => exact hs
  | succ fuel ih => unfold findRecord; grind [wf_vread]

theorem wf_launchSeed (q packet k : Nat) (l : List Byte) : (launchSeed s q packet k l).2.wf = true := by
  grind [launchSeed, wf_findRecord, wf_recordInput]

theorem wf_seedTaken (g : Nat) : (seedTaken s g).wf = true := by grind [seedTaken, wf_putGraph]

theorem wf_nodeRuns (g i u : Nat) : (nodeRuns s g i u).wf = true := by grind [nodeRuns, wf_putGraph]

theorem wf_createLaunch (g i q deadline packet order : Nat) (l : List Byte) :
    (createLaunch s g i q deadline packet order l).wf = true := by
  grind [createLaunch, wf_bump, wf_launchSeed, wf_nextId, wf_nodeRuns, wf_putLaunch, wf_seedTaken]

theorem wf_startNode (g i : Nat) : (startNode s g i).wf = true := by
  grind [startNode, wf_completeCopy, wf_createLaunch, wf_engineReads, wf_nextId, wf_nodeDone, wf_nodeRuns,
    wf_putCopy, wf_vread]

theorem wf_writeRecord (part compl : Nat) (word : DWord) : (writeRecord s part compl word).wf = true := by
  grind [writeRecord, wf_vwriteWhole]

theorem wf_packetDone (q n : Nat) : (packetDone s q n).wf = true := by grind [packetDone, wf_putQueue]

theorem wf_phaseFalls (q job ph : Nat) : (phaseFalls s q job ph).wf = true := by grind [phaseFalls, wf_putQueue]

theorem wf_completeGraph (g : Nat) : (completeGraph s g).wf = true := by
  grind [completeGraph, wf_dropGraph, wf_packetDone, wf_phaseFalls, wf_writeRecord]

theorem wf_settleGraph (fuel g : Nat) : (settleGraph fuel s g).wf = true := by
  induction fuel generalizing s g with
  | zero => exact hs
  | succ fuel ih => unfold settleGraph; grind [wf_cancelGraph, wf_completeGraph, wf_startNode]

theorem wf_settleGraphs : (settleGraphs s).wf = true := by grind [settleGraphs, wf_settleGraph, wf_foldl]

end Sys2Proof.Machine
end

section
/-! PROOFS. Canonical memory, engines: copies and semaphore updates, the ingress port, and the kettle's packets. -/

namespace Sys2Proof.Machine

set_option Elab.async false

variable {s : State} (hs : s.wf = true)
include hs

theorem wf_drawTokens (n cost : Nat) : ∀ t, drawTokens s n cost = some t → t.wf = true := by
  grind [drawTokens, wf_putDfield, wf_putPart, State.wf]

theorem wf_refillTokens : (refillTokens s).wf = true := by
  grind [refillTokens, wf_putDfield, wf_putPart, wf_foldl, State.wf]

theorem wf_ringRecord (n a : Nat) (rec_ : List Byte) : (ringRecord s n a rec_).2.wf = true := by
  grind [ringRecord, wf_ringAppend, wf_vread, wf_vwrite]

theorem wf_faultRecord (c : Copy) (va : Nat) (wr : Bool) : (faultRecord s c va wr).wf = true := by
  grind [faultRecord, wf_putPart, wf_raiseEvent, wf_ringRecord]

theorem wf_suspend (k : Nat) (c : Copy) (va : Nat) (wr : Bool) : (suspend s k c va wr).wf = true := by
  grind [suspend, wf_faultRecord, wf_putCopy]

theorem wf_aimTile (c : Copy) (i : Nat) (p : CopyPos) : (aimTile s c i p).2.wf = true := by
  grind [aimTile, wf_enginePage]

theorem wf_resealTiles (c : Copy) (fuel i : Nat) : (resealTiles c fuel s i).2.wf = true := by
  induction fuel generalizing s i with
  | zero => exact hs
  | succ fuel ih => unfold resealTiles; grind [wf_aimTile]

theorem wf_resealOk (c : Copy) : (resealOk s c).2.wf = true := by grind [resealOk, wf_resealTiles]

theorem wf_finishCopy (k : Nat) : (finishCopy s k).wf = true := by grind [finishCopy, wf_completeCopy]

theorem wf_settleCopy (k : Nat) (c : Copy) : (settleCopy s k c).wf = true := by
  grind [settleCopy, wf_finishCopy, wf_putCopy]

theorem wf_runTile (k : Nat) (c : Copy) (x : LateTile) : (runTile s k c x).wf = true := by
  grind [runTile, wf_bump, wf_performTile, wf_settleCopy]

theorem wf_nextTile (k : Nat) (c : Copy) (p : CopyPos) : (nextTile s k c p).wf = true := by
  grind [nextTile, wf_aimTile, wf_bump, wf_putCopy, wf_runTile, wf_settleCopy, wf_suspend]

theorem wf_translateNext (k : Nat) (c : Copy) : (translateNext s k c).wf = true := by
  unfold translateNext
  split
  · exact wf_finishCopy hs k
  next p _ =>
    have h1 : (if c.reseal ∧ c.next = 0 then resealOk s c else (true, s)).2.wf = true := by
      split
      · exact wf_resealOk hs c
      · exact hs
    split
    next s1 e => rw [e] at h1; exact wf_finishCopy (s := s1.putCopy k _) h1 k
    next s1 e =>
      rw [e] at h1
      split
      · exact h1
      next s2 e2 =>
        have h2 := wf_drawTokens h1 _ _ _ e2
        split
        · exact wf_nextTile h1 ..
        · exact wf_nextTile h2 ..

theorem wf_stepCopy (k : Nat) (c : Copy) : (stepCopy s k c).wf = true := by
  grind [stepCopy, wf_bump, wf_runTile, wf_translateNext]

theorem wf_semUpdate (r : Requester) (addr operand : DWord) (op : SemOp) :
    (semUpdate s r addr operand op).2.wf = true := by
  grind [semUpdate, wf_bump, wf_enginePage, wf_engineRead, wf_engineWrite]

theorem wf_stepSemsig (k : Nat) : (stepSemsig s k).wf = true := by
  unfold stepSemsig
  split
  · exact hs
  next c _ =>
    split
    next addr operand op _ =>
      split
      · exact hs
      next s1 e =>
        have h1 := wf_semUpdate (wf_drawTokens hs _ _ _ e) c.requester addr operand op
        split
        · exact wf_suspend (wf_semUpdate hs ..) ..
        next e2 => rw [e2] at h1; exact wf_completeCopy h1 ..
    · exact hs

theorem wf_retryCopy (k : Nat) : (retryCopy s k).wf = true := by
  unfold retryCopy
  grind [wf_enginePage, wf_putCopy]

theorem wf_dropFrame (n : Nat) : (dropFrame s n).wf = true := by grind [dropFrame, wf_addDfield, State.wf]

theorem wf_failFrame (n : Nat) : (failFrame s n).wf = true := by grind [failFrame, wf_dropFrame, wf_putDfield]

theorem wf_pagesReadable (part : Nat) (l : List Nat) : (pagesReadable part l s).2.wf = true := by
  induction l generalizing s with
  | nil => exact hs
  | cons a l ih => unfold pagesReadable; grind [wf_xlate]

theorem wf_recordFrame (n part : Nat) (desc slot : List Byte) : (recordFrame s n part desc slot).wf = true := by
  grind [recordFrame, wf_recordInput, wf_foldl]

theorem wf_deliverFrame (n : Nat) (desc slot : List Byte) : (deliverFrame s n desc slot).wf = true := by
  unfold deliverFrame
  extract_lets part seq d hold
  split
  next full s1 _ =>
    have h1 : s1.wf = true := by grind [wf_vread]
    split
    next readable s2 _ =>
      have h2 : s2.wf = true := by grind [wf_pagesReadable]
      extract_lets full
      clear_value full
      rcases full with _ | _ | _
      · exact wf_failFrame h2 n
      · dsimp only
        grind [wf_vwrite, wf_failFrame, wf_putDfield, wf_recordFrame, wf_charge, State.wf]
      · exact wf_dropFrame h2 n

theorem wf_receiveFrame (f : Frame) : (receiveFrame s f).wf = true := by
  grind [receiveFrame, wf_deliverFrame, wf_dropFrame]

theorem wf_endWait (q n : Nat) : (endWait s q n).wf = true := by grind [endWait, wf_putQueue]

theorem wf_finishPacket (q n compl : Nat) (word : DWord) : (finishPacket s q n compl word).wf = true := by
  grind [finishPacket, wf_endWait, wf_packetDone, wf_writeRecord]

theorem wf_mapPacket (q n : Nat) (f : Pkt → Pkt) : (mapPacket s q n f).wf = true := by grind [mapPacket, wf_putQueue]

theorem wf_readNodes (part at_ n k : Nat) : (readNodes part at_ n k s).2.wf = true := by
  induction k generalizing s with
  | zero => exact hs
  | succ k ih => unfold readNodes; grind [wf_vread]

theorem wf_prepare (q n : Nat) (l : List Byte) : (prepare s q n l).2.wf = true := by
  grind [prepare, wf_readNodes, wf_vread]

theorem wf_endCancels (q : Nat) : (endCancels s q).wf = true := by grind [endCancels, wf_putQueue]

theorem wf_cancelPhase (q job ph : Nat) : (cancelPhase s q job ph).wf = true := by
  grind [cancelPhase, wf_cancelGraph, wf_putQueue, wf_foldl]

theorem wf_cancelJob (q job : Nat) : (cancelJob s q job).wf = true := by
  grind [cancelJob, wf_cancelGraph, wf_putQueue, wf_foldl]

theorem wf_cancelPacket (q n : Nat) (l : List Byte) : (cancelPacket s q n l).wf = true := by
  grind [cancelPacket, wf_cancelGraph, wf_cancelJob, wf_cancelPhase, wf_finishPacket, wf_mapPacket]

theorem wf_acceptPacket (q : Nat) (l : List Byte) : (acceptPacket s q l).wf = true := by
  grind [acceptPacket, wf_cancelPacket, wf_finishPacket, wf_mapPacket, wf_nextId, wf_prepare, wf_putDfield,
    wf_putQueue, wf_recordInput]

theorem wf_checkWait (q : Nat) (p : Pkt) : (checkWait s q p).wf = true := by
  grind [checkWait, wf_engineRead, wf_finishPacket, wf_putQueue]

theorem wf_paceStep (q time since : Nat) : (paceStep s q time since).wf = true := by
  grind [paceStep, wf_putDfield, wf_putPart]

theorem wf_finishFence (q : Nat) (p : Pkt) : (finishFence s q p).wf = true := by
  grind [finishFence, wf_finishPacket, wf_paceStep, wf_putQueue]

theorem wf_startPacket (q : Nat) (p : Pkt) (g : Graph) : (startPacket s q p g).wf = true := by
  grind [startPacket, wf_mapPacket, wf_nextId, wf_putGraph, wf_putQueue, wf_settleGraphs]

theorem wf_closePhase (q : Nat) (p : Pkt) : (closePhase s q p).wf = true := by
  grind [closePhase, wf_mapPacket, wf_putQueue]

theorem wf_packetTurn (q : Nat) (p : Pkt) : ∀ t, packetTurn s q p = some t → t.wf = true := by
  unfold packetTurn
  split
  · intro t h; cases h; exact wf_finishPacket hs ..
  · intro t h; cases h; exact wf_closePhase hs ..
  · grind [wf_finishFence]
  · intro t h; cases h
  · intro t h
    obtain ⟨g, -, rfl⟩ := Option.map_eq_some_iff.1 h
    exact wf_startPacket hs ..

theorem wf_turnOf (q : Nat) (l : List Pkt) : ∀ t, turnOf s q l = some t → t.wf = true := by
  induction l with
  | nil => intro t h; cases h
  | cons p l ih => unfold turnOf; grind [wf_finishPacket, wf_packetTurn]

theorem wf_showState (q : Nat) : (showState s q).wf = true := by grind [showState, wf_setQueueState]

theorem wf_progress (fuel q : Nat) : (progress fuel s q).wf = true := by
  induction fuel generalizing s q with
  | zero => exact wf_showState hs q
  | succ fuel ih =>
    unfold progress
    extract_lets x s1 fence x1 s2
    have h1 : s1.wf = true := wf_endCancels (s := s.putQueue q _) hs q
    have h2 : s2.wf = true := by grind [wf_putQueue]
    split
    · exact wf_showState h1 q
    · split
      next e => exact ih (wf_turnOf h1 _ _ _ e) q
      · exact wf_showState h2 q

theorem wf_settle : (settle s).wf = true := by grind [settle, wf_progress, wf_settleGraphs, wf_foldl]

theorem wf_readSlot (q : Nat) : (readSlot s q).2.wf = true := by grind [readSlot, wf_vread]

theorem wf_endReplay (q : Nat) : (endReplay s q).wf = true := by grind [endReplay, wf_putQueue]

theorem wf_replayNext (q fuel : Nat) : (replayNext q fuel s).2.wf = true := by
  induction fuel generalizing s with
  | zero => exact wf_endReplay hs q
  | succ fuel ih => unfold replayNext; grind [wf_vread, wf_endReplay, wf_putDfield, wf_deliverFrame]

theorem wf_chargeKettle (q : Nat) : (chargeKettle s q).wf = true := by grind [chargeKettle, wf_charge]

theorem wf_acceptNext (q : Nat) (ops : Nat → Bool) : (acceptNext s q ops).wf = true := by
  grind [acceptNext, wf_acceptPacket, wf_chargeKettle, wf_putQueue, wf_readSlot, wf_replayNext, wf_settle,
    wf_showState]

theorem wf_rereadWait (q : Nat) : (rereadWait s q).wf = true := by
  grind [rereadWait, wf_chargeKettle, wf_checkWait, wf_settle]

theorem wf_setTail (q tail : Nat) : (setTail s q tail).wf = true := by
  unfold setTail
  extract_lets tl x s1
  have h1 : s1.wf = true := hs
  split
  · exact wf_raiseQueueEvent (wf_setQueueState h1 q 4) ..
  · exact wf_showState h1 q

theorem wf_notifyFail (n : Nat) : (notifyFail s n).wf = true := by grind [notifyFail, wf_addDfield]

theorem wf_sendClwake (core : Nat) : (sendClwake s core).wf = true := by grind [sendClwake, wf_setWake]

theorem wf_notifyStore (n o : Nat) (v : DWord) : (notifyStore s n o v).wf = true := by
  grind [notifyStore, wf_addDfield, wf_notifyFail, wf_putDfield, wf_putQueue, wf_sendClwake, wf_setTail]

theorem wf_notifyLoad (n o : Nat) : (notifyLoad s n o).2.wf = true := by grind [notifyLoad, wf_notifyFail]

theorem wf_ungate (n : Nat) : (ungate s n).wf = true := by
  grind [ungate, wf_putDfield, wf_putPart, wf_putQueue, wf_setTail, wf_foldl]

theorem wf_newJob (q : Nat) : (newJob s q).wf = true := by grind [newJob, wf_putDfield, wf_putQueue]

theorem wf_writeQctl (q : Nat) (v : DWord) : (writeQctl s q v).wf = true := by
  grind [writeQctl, wf_newJob, wf_putDreg, wf_setQueueState]

theorem wf_consumeTail (fuel q : Nat) : (consumeTail fuel s q).wf = true := by
  induction fuel generalizing s q with
  | zero => exact hs
  | succ fuel ih => unfold consumeTail; grind [wf_readSlot, wf_acceptPacket]

theorem wf_cancelWhole (q : Nat) : (cancelWhole s q).wf = true := by
  grind [cancelWhole, wf_cancelJob, wf_consumeTail, wf_finishPacket, wf_settleGraphs, wf_foldl]

theorem canonical_execLaunchPacket (q : Nat) : Canonical (execLaunchPacket q s) := by
  grind [execLaunchPacket, wf_acceptNext, canonical_next]

theorem canonical_execCopyPacket (q : Nat) : Canonical (execCopyPacket q s) := by
  grind [execCopyPacket, wf_acceptNext, canonical_next]

theorem canonical_execGraphPacket (q : Nat) : Canonical (execGraphPacket q s) := by
  grind [execGraphPacket, wf_acceptNext, canonical_next]

theorem canonical_execWaitPacket (q : Nat) : Canonical (execWaitPacket q s) := by
  grind [execWaitPacket, wf_acceptNext, wf_rereadWait, canonical_next]

theorem canonical_execSignalPacket (q : Nat) : Canonical (execSignalPacket q s) := by
  grind [execSignalPacket, wf_acceptNext, canonical_next]

theorem wf_rereadAll (n : Nat) : (rereadAll s n).wf = true := by grind [rereadAll, wf_rereadWait, wf_foldl]

theorem wf_performSignal (q n : Nat) (p : Pkt) : (performSignal s q n p).wf = true := by
  unfold performSignal
  extract_lets l
  have h1 := wf_semUpdate hs (kettleOf (queuePart s q)) (BitVec.ofNat 64 (num l 16 8)) (BitVec.ofNat 64 (num l 24 8))
    (signalOp l)
  split
  next s1 e =>
    rw [e] at h1
    split
    · split
      · exact wf_settle (wf_finishPacket h1 ..)
      · exact h1
    · exact wf_faultRecord (wf_mapPacket h1 ..) ..
  next s1 _ e =>
    rw [e] at h1
    exact wf_rereadAll (wf_settle (wf_finishPacket h1 ..)) _

theorem canonical_execSignalPerform (q n : Nat) : Canonical (execSignalPerform q n s) := by
  grind [execSignalPerform, wf_chargeKettle, wf_performSignal, canonical_next]

theorem canonical_execPhasePacket (q : Nat) : Canonical (execPhasePacket q s) := by
  grind [execPhasePacket, wf_acceptNext, canonical_next]

theorem canonical_execCancelPacket (q : Nat) : Canonical (execCancelPacket q s) := by
  grind [execCancelPacket, wf_acceptNext, canonical_next]

theorem canonical_execTimefencePacket (q : Nat) : Canonical (execTimefencePacket q s) := by
  grind [execTimefencePacket, wf_acceptNext, canonical_next]

theorem canonical_execTimefenceRelease (q : Nat) : Canonical (execTimefenceRelease q s) := by
  grind [execTimefenceRelease, wf_finishFence, wf_settle, canonical_next]

theorem canonical_execNopPacket (q : Nat) : Canonical (execNopPacket q s) := by
  grind [execNopPacket, wf_acceptNext, canonical_next]

theorem canonical_execUndefinedOpcodePacket (q : Nat) : Canonical (execUndefinedOpcodePacket q s) := by
  grind [execUndefinedOpcodePacket, wf_acceptNext, canonical_next]

theorem canonical_execPacketReread (q : Nat) : Canonical (execPacketReread q s) := by
  grind [execPacketReread, wf_acceptNext, canonical_next]

theorem canonical_execQueueStall (q : Nat) : Canonical (execQueueStall q s) := by
  unfold execQueueStall
  extract_lets x
  split
  · split
    · exact canonical_next.2 (wf_showState (wf_raiseQueueEvent ((wf_putQueue ..).trans hs) ..) q)
    · exact canonical_next.2 hs
  · exact canonical_next.2 hs

theorem canonical_execWaitSemStall (q : Nat) : Canonical (execWaitSemStall q s) := by
  unfold execWaitSemStall
  extract_lets x
  split
  · split
    · exact canonical_next.2 (wf_showState (wf_raiseQueueEvent ((wf_putQueue ..).trans hs) ..) q)
    · exact canonical_next.2 hs
  · exact canonical_next.2 hs

theorem canonical_execKettleUngate (n : Nat) : Canonical (execKettleUngate n s) := by
  grind [execKettleUngate, wf_settle, wf_ungate, canonical_next]

theorem canonical_execQctlWrite (q : Nat) (v : DWord) : Canonical (execQctlWrite q v s) := by
  grind [execQctlWrite, wf_settle, wf_writeQctl, canonical_next]

end Sys2Proof.Machine
end

section
/-! PROOFS. Canonical memory, teams: their start and traps, the shared forms of words, folding, saving and the
dispatcher. -/

namespace Sys2Proof.Machine

set_option Elab.async false

variable {s : State} (hs : s.wf = true)
include hs

theorem wf_startAgent (u : Nat) (l : Launch) (sharedSz : Nat) (sem : Option DWord) :
    (startAgent s u l sharedSz sem).wf = true := by
  grind [startAgent, wf_drainAll, wf_invalidateAll, wf_putLaunch, wf_putTeam, wf_putWg]

theorem wf_postSemsig (core g : Nat) (addr operand : DWord) (op : SemOp) :
    (postSemsig s core g addr operand op).wf = true := by
  grind [postSemsig, wf_nextId, wf_putCopy]

theorem wf_signalDone (core g : Nat) (sem : DWord) (failed : Bool) : (signalDone s core g sem failed).wf = true := by
  grind [signalDone, wf_postSemsig]

theorem wf_claimTickets (fuel : Nat) : (claimTickets fuel s).wf = true := by
  induction fuel generalizing s with
  | zero => exact hs
  | succ fuel ih =>
    unfold claimTickets
    extract_lets tail head idle tk record sem bumped s1
    split
    · exact hs
    · split
      · exact hs
      next u t _ =>
        extract_lets core
        have h1 : s1.wf = true := wf_withScratch (s := s.bump) hs (Memory.wf_write _ _ (wf_iff.1 hs).2.2)
        clear_value s1
        grind [wf_engineRead, wf_startAgent, wf_signalDone]

theorem wf_restartAgent (u : Nat) (failed : Bool) : (restartAgent s u failed).wf = true := by
  grind [restartAgent, wf_claimTickets, wf_signalDone, wf_startAgent]

theorem wf_takeTrap (u cause : Nat) (tpc : DWord) (slot : Nat) (addr : DWord) (async_ : Bool) (detail : Nat) :
    (takeTrap s u cause tpc slot addr async_ detail).wf = true := by
  grind [takeTrap, wf_failLaunch, wf_putTeam, wf_restartAgent, wf_teamLeaves]

theorem canonical_wordTrap (t : Team) (c : Clause) (cause : Nat) (addr : DWord) :
    Canonical (wordTrap s t c cause addr) := by
  grind [wordTrap, wf_takeTrap, canonical_next]

theorem canonical_accessTrap (t : Team) (c : Clause) (cause va : Nat) : Canonical (accessTrap s t c cause va) := by
  grind [accessTrap, canonical_wordTrap, wf_checkLog]

theorem canonical_trapAfter (t : Team) (c : Clause) (cause detail : Nat) :
    Canonical (trapAfter s t c cause detail) := by
  grind [trapAfter, wf_putTeam, wf_takeTrap, canonical_next]

theorem canonical_skipWord (len : Nat) : Canonical (skipWord s len) := by
  grind [skipWord, canonical_withTeam, wf_putTeam, canonical_next]

theorem canonical_laneWord (len : Nat) (d : Code) (f : Nat → Team → Nat → Word) : Canonical (laneWord s len d f) := by
  grind [laneWord, canonical_withTeam, wf_bump, wf_putTeam, canonical_next]

theorem canonical_pairWord (len : Nat) (d : Code) (f : Nat → Team → Nat → DWord) :
    Canonical (pairWord s len d f) := by
  grind [pairWord, canonical_withTeam, wf_bump, wf_putTeam, canonical_next]

theorem canonical_unaryWord (d a : Code) (f : Word → Word) : Canonical (unaryWord s d a f) := by
  grind [unaryWord, canonical_laneWord]

theorem canonical_binaryWord (d a b : Code) (f : Word → Word → Word) : Canonical (binaryWord s d a b f) := by
  grind [binaryWord, canonical_laneWord]

theorem canonical_binaryExtWord (d a b : Code) (f : Word → Word → Word) : Canonical (binaryExtWord s d a b f) := by
  grind [binaryExtWord, canonical_laneWord]

theorem canonical_literalWord (d a : Code) (lit : Word) (f : Word → Word → Word) :
    Canonical (literalWord s d a lit f) := by
  grind [literalWord, canonical_laneWord]

theorem canonical_ternaryWord (d a b c : Code) (f : Word → Word → Word → Word) :
    Canonical (ternaryWord s d a b c f) := by
  grind [ternaryWord, canonical_laneWord]

theorem canonical_teamWord (len : Nat) (k : Team → Clause → Nat → Out) (hk : ∀ t c x, Canonical (k t c x)) :
    Canonical (teamWord s len k) := by
  grind [teamWord, canonical_withTeam, wf_putTeam, canonical_next]

theorem wf_stopFor (u cause : Nat) : (stopFor s u cause).wf = true := by
  grind [stopFor, wf_failLaunch, wf_restartAgent, wf_teamLeaves]

theorem wf_spillCheck (u : Nat) : (spillCheck s u).wf = true := by
  have hg {s : State} (hs : s.wf = true) (key k : Nat) := wf_growSpill hs u key k
  unfold spillCheck
  generalize growSpill = G at hg ⊢
  as_aux_lemma =>
    split
    · exact hs
    next t _ =>
      split
      · exact hs
      · have h1 := wf_spillKey hs t
        split
        next e => rw [e] at h1; exact wf_stopFor h1 ..
        next key s1 e =>
          rw [e] at h1
          have h2 := hg h1 key (t.spillMore t.rlvl)
          split
          next e2 => rw [e2] at h2; exact h2
          next e2 =>
            rw [e2] at h2
            refine wf_stopFor ?_ ..
            split
            · exact h2
            · exact wf_setSaveFull h2 _

theorem wf_foldTeam (core u : Nat) : (foldTeam s core u).2.wf = true := by
  unfold foldTeam
  split
  · exact hs
  · exact wf_spillCheck (wf_charge (by exact hs) _) u

theorem wf_foldFor (core rank : Nat) (want : Room) (fuel : Nat) (took : Room) :
    (foldFor core rank want fuel took s).2.wf = true := by
  induction fuel generalizing s took with
  | zero => exact hs
  | succ fuel ih =>
    unfold foldFor
    split
    · exact hs
    · split
      · exact hs
      · exact ih (wf_foldTeam hs ..) _

theorem wf_meetRequests (core : Nat) : (meetRequests s core).wf = true := by
  grind [meetRequests, wf_foldFor, wf_showRequest, wf_foldl, State.wf]

theorem wf_addRequest (r : Request) : (addRequest s r).wf = true := by
  grind [addRequest, wf_endRequests, wf_meetRequests, wf_nextId, State.wf]

theorem wf_writePreempt (n : Nat) (v : DWord) : (writePreempt s n v).wf = true := by
  grind [writePreempt, wf_addRequest, wf_endRequests, wf_putDreg, wf_showRequest]

theorem wf_expandTeam (core u k : Nat) : (expandTeam s core u k).wf = true := by
  grind [expandTeam, wf_charge, wf_putTeam, State.wf]

theorem wf_expandCore (core : Nat) : (expandCore s core).wf = true := by grind [expandCore, wf_expandTeam, State.wf]

theorem wf_stopWorkgroup (g cause : Nat) : (stopWorkgroup s g cause).wf = true := by
  grind [stopWorkgroup, wf_failLaunch, wf_putWg, wf_teamLeaves, wf_foldl]

omit hs in
/-- The save of one unit, once its tiles are written. (No equation of writeSave can be generated, its check would evaluate the
32 writes of eachTile; so eachTile is generalised first.) -/
theorem writeSave_succ {g k : Nat} {bad : Option Nat} {w : Workgroup} (hw : s.wg g = some w) {ok : Bool} {s' : State}
    (h : eachTile (fun s' va => areaWrite s' (some w.part) w.core none (if va = freeUnit s w.part then bad else none) va)
      (s.bump.putWg g { w with saveUnits := w.saveUnits ++ [freeUnit s w.part] }) (freeUnit s w.part) = (ok, s')) :
    writeSave g bad (k + 1) s = if ok then writeSave g none k s' else (false, s') := by
  delta writeSave
  rw [Nat.brecOn.eq (motive := fun _ => Option Nat → State → Bool × State) (k + 1) (writeSave._f g)]
  generalize hf : writeSave._f = f
  delta writeSave._f at hf
  subst hf
  generalize eachTile = E at h ⊢
  as_aux_lemma =>
    dsimp only
    rw [hw]
    dsimp only
    rw [h]
    cases ok
    · rw [if_neg (by decide)]
    · rw [if_pos rfl]

omit hs in
theorem writeSave_none {g k : Nat} {bad : Option Nat} (hw : s.wg g = none) :
    writeSave g bad (k + 1) s = (false, s) := by
  delta writeSave
  rw [Nat.brecOn.eq (motive := fun _ => Option Nat → State → Bool × State) (k + 1) (writeSave._f g)]
  generalize hf : writeSave._f = f
  delta writeSave._f at hf
  subst hf
  generalize eachTile = E
  as_aux_lemma =>
    dsimp only
    rw [hw]

theorem wf_writeTile (part core : Nat) (bad : Option Nat) (unit : Nat) :
    (eachTile (fun s va => areaWrite s (some part) core none (if va = unit then bad else none) va) s unit).2.wf = true := by
  refine wf_eachTile hs (fun s va h => ?_) unit
  exact wf_areaWrite h ..

theorem wf_writeSave (g : Nat) (bad : Option Nat) (k : Nat) : (writeSave g bad k s).2.wf = true := by
  induction k generalizing s bad with
  | zero => exact hs
  | succ k ih =>
    cases hw : s.wg g with
    | none => rw [writeSave_none hw]; exact hs
    | some w =>
      obtain ⟨⟨ok, s1⟩, h⟩ : ∃ x, eachTile (fun s' va => areaWrite s' (some w.part) w.core none
        (if va = freeUnit s w.part then bad else none) va)
        (s.bump.putWg g { w with saveUnits := w.saveUnits ++ [freeUnit s w.part] }) (freeUnit s w.part) = x := ⟨_, rfl⟩
      have h1 := wf_writeTile (s := s.bump.putWg g { w with saveUnits := w.saveUnits ++ [freeUnit s w.part] }) hs w.part
        w.core bad (freeUnit s w.part)
      rw [writeSave_succ hw h]
      rw [h] at h1
      cases ok
      · exact h1
      · exact ih h1 none

theorem wf_saveTeam (u : Nat) : (saveTeam s u).wf = true := by grind [saveTeam, wf_putTeam]

theorem wf_haltCopies (g : Nat) : (haltCopies s g).wf = true := by
  grind [haltCopies, wf_finishTiles, wf_settleCopy, wf_foldl]

theorem wf_saveFold (us : List Nat) : (us.foldl saveTeam (us.foldl drainAll s)).wf = true :=
  wf_foldl (fun _ u h => wf_saveTeam h u) us (wf_foldl (fun _ u h => wf_drainAll h u) us hs)

theorem wf_saveWorkgroup (g : Nat) : (saveWorkgroup s g).wf = true := by
  have hw {s : State} (hs : s.wf = true) (bad : Option Nat) (k : Nat) := wf_writeSave hs g bad k
  unfold saveWorkgroup
  generalize writeSave = W at hw ⊢
  generalize saveSize = size
  generalize saveArea = area
  generalize saveUse = used
  as_aux_lemma =>
    split
    · exact hs
    next w _ =>
      extract_lets z s1 bad
      have h1 : s1.wf = true := wf_saveFold (wf_haltCopies hs g) w.teams
      clear_value s1
      have h2 : (W g bad (z / 65536) s1).2.wf = true := hw h1 bad (z / 65536)
      split
      next s2 _ =>
        have h3 : s2.wf = true := by grind
        exact wf_stopWorkgroup (wf_setSaveFull h3 _) ..
      next s2 _ =>
        have h3 : s2.wf = true := by grind
        split
        · exact wf_stopWorkgroup h3 ..
        · exact wf_stopWorkgroup (wf_setSaveFull h3 _) ..
      next s2 _ =>
        have h3 : s2.wf = true := by grind
        extract_lets s3 s4 s5
        have h4 : s4.wf = true := by grind [wf_putStream, State.wf]
        have h5 : s5.wf = true := by
          refine wf_foldl (fun s u h => ?_) _ h4
          split <;> exact h
        split
        · exact h5
        · exact h5

theorem wf_saveForRequest (g : Nat) : (saveForRequest s g).wf = true := by
  grind [saveForRequest, wf_charge, wf_saveWorkgroup, wf_showRequest, State.wf]

theorem wf_restoreTeam (core u : Nat) : (restoreTeam s core u).wf = true := by grind [restoreTeam, wf_putTeam]

theorem wf_readTile (part core unit : Nat) :
    (eachTile (fun s va => areaRead s (some part) core none va) s unit).2.wf = true := by
  refine wf_eachTile hs (fun s va h => ?_) unit
  exact wf_areaRead h ..

theorem wf_readSave (w : Workgroup) (core : Nat) : (readSave s w core).2.wf = true := by
  have h {s : State} (hs : s.wf = true) := wf_readTile hs w.part core
  unfold readSave
  generalize eachTile = E at h ⊢
  as_aux_lemma =>
    refine wf_foldl_snd (fun x unit hx => ?_) _ hs
    exact h hx unit

theorem wf_restoreOn (g core : Nat) : (restoreOn s g core).wf = true := by
  unfold restoreOn
  grind [wf_charge, wf_putStream, wf_putWg, wf_readSave, wf_restoreTeam, wf_roomReturns, wf_spillCheck,
    wf_stopWorkgroup, wf_foldl, State.wf]

theorem wf_restoreWorkgroup (g core : Nat) : (restoreWorkgroup s g core).wf = true := by
  grind [restoreWorkgroup, wf_restoreOn]

theorem wf_startTeams (l : Launch) (lid g : Nat) (sp : Spawned) (wgid : Word) (core n i : Nat) (us : List Nat) :
    (startTeams l lid g sp wgid core n i s us).2.wf = true := by
  induction n generalizing s i us with
  | zero => exact hs
  | succ n ih => exact ih (s := s.bump.nextId.putTeam _ _) hs ..

theorem wf_useRequest (l core g : Nat) : (useRequest s l core g).wf = true := by grind [useRequest, State.wf]

theorem wf_admitWg (c : Candidate) (core : Nat) : (admitWg s c core).wf = true := by
  grind [admitWg, wf_nextId, wf_putLaunch, wf_putWg, wf_startTeams, wf_useRequest]

theorem wf_raiseDeadline (c : Candidate) : (raiseDeadline s c).wf = true := by
  grind [raiseDeadline, wf_addRequest, wf_foldl]

theorem wf_markPassed (l : Nat) : (markPassed s l).wf = true := by grind [markPassed, wf_putLaunch]

theorem wf_dispatch (l : List Candidate) (passed : List Nat) (limit : Option Nat) :
    (dispatch l passed limit s).wf = true := by
  induction l generalizing s passed limit with
  | nil => exact hs
  | cons c rest ih =>
    unfold dispatch
    grind [wf_admitWg, wf_markPassed, wf_putLaunch, wf_raiseDeadline, wf_foldl]

theorem wf_admitWorkgroup (p : Nat) : (admitWorkgroup s p).wf = true := by grind [admitWorkgroup, wf_dispatch]

theorem wf_lastTeamGone (g : Nat) : (lastTeamGone s g).wf = true := by grind [lastTeamGone, wf_endStream]

theorem wf_endWorkgroup (g : Nat) : (endWorkgroup s g).wf = true := by
  grind [endWorkgroup, wf_dropWg, wf_giveRoom, wf_lastTeamGone, wf_launchCheck, wf_putLaunch, wf_roomReturns,
    wf_settle, wf_foldl, State.wf]

theorem canonical_execPassedOverBlock (l : Nat) : Canonical (execPassedOverBlock l s) := by
  unfold execPassedOverBlock
  split
  · split
    · split
      · split
        · exact canonical_next.2 hs
        · exact canonical_next.2 hs
      · exact canonical_next.2 hs
    · exact canonical_next.2 hs
  · exact canonical_next.2 hs

theorem canonical_execCancelNoticeTimeout (t : Nat) : Canonical (execCancelNoticeTimeout t s) := by
  grind [execCancelNoticeTimeout, wf_teamLeaves, canonical_next]

theorem wf_refillWith (u o n : Nat) (f : Team → Team) : (refillWith s u o n f).wf = true := by
  grind [refillWith, wf_putTeam, wf_refillBytes, wf_stopFor]

theorem wf_refillRegister (u r : Nat) : (refillRegister s u r).wf = true := by grind [refillRegister, wf_refillWith]

theorem wf_refillPass (u p : Nat) : (refillPass s u p).wf = true := by grind [refillPass, wf_refillWith]

theorem canonical_execRegisterRefill (t r : Nat) : Canonical (execRegisterRefill t r s) := by
  grind [execRegisterRefill, wf_refillRegister, wf_settle, canonical_next]

end Sys2Proof.Machine
end

section
/-! PROOFS. Canonical memory, partitions: operating points, connecting and retirement, power, retention, resets, boot
and the host link. -/

namespace Sys2Proof.Machine

set_option Elab.async false

/-- An issue that is refused, and one that is granted, leaves the memories canonical. -/
def CanonicalIssue {α : Type} (state : α → State) : Except State α → Prop
  | .error s => s.wf = true
  | .ok x => (state x).wf = true

variable {s : State} (hs : s.wf = true)
include hs

theorem wf_touchCluster (c : Nat) : (touchCluster s c).wf = true := by grind [touchCluster, wf_putCluster]

theorem wf_setRate (n c : Nat) : (setRate s n c).wf = true := by grind [setRate, wf_putCluster, wf_touchCluster]

theorem wf_setRates (n : Nat) : (setRates s n).wf = true := by grind [setRates, wf_setRate, wf_foldl]

theorem wf_setPoint (c m : Nat) : (setPoint s c m).wf = true := by
  grind [setPoint, wf_putDfield, wf_setRate, wf_touchCluster]

theorem wf_rollWindow (c : Nat) : (rollWindow s c).wf = true := by grind [rollWindow, wf_putCluster, wf_foldl]

theorem wf_debit (c w : Nat) (agent : Bool) : (debit s c w agent).wf = true :=
  (wf_putCluster ..).trans (wf_rollWindow (wf_touchCluster (wf_charge hs _) c) c)

theorem wf_noteGrant (c : Nat) (mma : Bool) : (noteGrant s c mma).wf = true := by grind [noteGrant, wf_putCluster]

theorem wf_markWithheld (c : Nat) : (markWithheld s c).wf = true := by grind [markWithheld, wf_putCluster]

theorem canonical_execOperatingPointChange (c : Nat) : Canonical (execOperatingPointChange c s) := by
  grind [execOperatingPointChange, wf_setPoint, canonical_next]

theorem canonical_execOphintHoldEnd (l : Nat) : Canonical (execOphintHoldEnd l s) := by
  grind [execOphintHoldEnd, wf_putLaunch, canonical_next]

theorem wf_regulate (c : Nat) (above low : Bool) : (regulate s c above low).wf = true := by
  grind [regulate, wf_putCluster, wf_touchCluster]

theorem canonical_execAllowanceRegulation (n watts : Nat) : Canonical (execAllowanceRegulation n watts s) := by
  unfold execAllowanceRegulation
  split
  · exact canonical_next.2 hs
  · extract_lets part s1 cap
    have h1 : s1.wf = true := wf_putDfield (s := s.putPart n _) hs ..
    clear_value s1
    refine canonical_next.2 (wf_foldl (fun s c h => ?_) _ h1)
    exact wf_regulate h ..

theorem canonical_execBallastPass (c : Nat) : Canonical (execBallastPass c s) := by
  grind [execBallastPass, wf_charge, wf_putCluster, wf_rollWindow, canonical_next]

theorem wf_clearScratch (core : Nat) : (clearScratch s core).wf = true :=
  wf_withScratch hs (Memory.wf_clear _ _ (wf_iff.1 hs).2.2)

theorem wf_resetBars (g : Nat) : (resetBars s g).wf = true := by
  unfold resetBars
  extract_lets s1
  have h1 : s1.wf = true := wf_invalidateAll hs g
  clear_value s1
  split
  · exact h1
  · exact h1

theorem wf_clearCluster (c : Nat) : (clearCluster s c).wf = true := by
  grind [clearCluster, wf_charge, wf_clearScratch, wf_closeTiles, wf_dropLoop, wf_endStream, wf_putWg, wf_resetBars,
    wf_foldl, State.wf]

theorem wf_drainStream (g : Nat) : (drainStream s g).wf = true := by grind [drainStream, wf_failCheck, wf_retireAll]

theorem wf_savePartition (n : Nat) : (savePartition s n).wf = true := by
  grind [savePartition, wf_charge, wf_closeTiles, wf_drainStream, wf_saveWorkgroup, wf_foldl]

theorem wf_stopPartition (n : Nat) : (stopPartition s n).wf = true := by
  grind [stopPartition, wf_cancelGraph, wf_cancelWhole, wf_endWorkgroup, wf_putWg, wf_settle, wf_teamLeaves, wf_foldl]

theorem wf_resetKettle (n : Nat) : (resetKettle s n).wf = true := by grind [resetKettle, wf_newJob, wf_foldl]

theorem wf_disableQueues (n : Nat) : (disableQueues s n).wf = true := by grind [disableQueues, wf_putDfield, wf_foldl]

theorem wf_clearHeld (n : Nat) : (clearHeld s n).wf = true := by grind [clearHeld, wf_clearCluster, wf_foldl]

theorem wf_setCause (n k : Nat) : (setCause s n k).wf = true := by grind [setCause, wf_putDfield]

theorem wf_startPeriod (n : Nat) (mine : Bool) : (startPeriod s n mine).wf = true := by
  grind [startPeriod, wf_putPart]

theorem wf_updateGates : (updateGates s).wf = true := by grind [updateGates, wf_putPart, wf_ungate, wf_foldl]

theorem wf_becomeActive (n : Nat) : (becomeActive s n).wf = true := by
  grind [becomeActive, wf_setPartState, wf_setRates, wf_startPeriod]

theorem wf_setConn (busy : Bool) (result : Nat) : (setConn s busy result).wf = true := by
  grind [setConn, wf_putDfield]

theorem wf_beginOp (op n : Nat) : (beginOp s op n).wf = true := by grind [beginOp, wf_putDfield, State.wf]

theorem wf_connectPart (n : Nat) : (connectPart s n).wf = true := by
  grind [connectPart, wf_beginOp, wf_blankGroup, wf_bump, wf_charge, wf_clearCluster, wf_putDreg, wf_putPart,
    wf_resetKettle, wf_setConn, wf_setPartState, wf_foldl]

theorem wf_connectEnd (n : Nat) : (connectEnd s n).wf = true := by
  grind [connectEnd, wf_becomeActive, wf_setOwnsCluster, wf_setOwnsGroup, wf_setResident, wf_updateGates, wf_foldl]

theorem wf_clearMasks (n : Nat) : (clearMasks s n).wf = true := by grind [clearMasks, wf_putDreg]

theorem wf_takeHold (n : Nat) : (takeHold s n).wf = true := by
  grind [takeHold, wf_setPartState, wf_setRates, wf_setResident]

theorem wf_disconnectPart (n : Nat) : (disconnectPart s n).wf = true := by
  grind [disconnectPart, wf_beginOp, wf_blankGroup, wf_clearHeld, wf_clearMasks, wf_closeTiles, wf_putPart,
    wf_resetKettle, wf_setConn, wf_setPartState, wf_setResident, wf_stopPartition, wf_takeHold, wf_foldl, State.wf]

theorem wf_grantPart (n : Nat) : (grantPart s n).wf = true := by
  grind [grantPart, wf_becomeActive, wf_blankGroup, wf_charge, wf_clearCluster, wf_savePartition, wf_setCause,
    wf_setOwnsCluster, wf_setOwnsGroup, wf_setPartState, wf_foldl]

theorem wf_grantAll : (grantAll s).wf = true := by grind [grantAll, wf_grantPart, wf_updateGates, wf_foldl]

theorem wf_leaveCluster (g : Nat) : (leaveCluster s g).wf = true := by
  grind [leaveCluster, wf_bump, wf_charge, wf_drainStream, wf_saveWorkgroup, wf_stopWorkgroup]

theorem wf_retireUnits (k : Nat) (v : DWord) : (retireUnits s k v).wf = true := by
  grind [retireUnits, wf_leaveCluster, wf_putCluster, wf_putDreg, wf_setOwnsCluster, wf_setOwnsGroup, wf_foldl]

theorem wf_writeRetire (k : Nat) (v : DWord) : (writeRetire s k v).wf = true := by
  grind [writeRetire, wf_grantAll, wf_retireUnits, State.wf]

theorem wf_regrantAll : (regrantAll s).wf = true := by grind [regrantAll, wf_beginOp, wf_grantAll]

theorem wf_endPartOp : (endPartOp s).wf = true := by
  grind [endPartOp, wf_connectEnd, wf_grantAll, wf_retireUnits, wf_setConn, wf_foldl, State.wf]

theorem wf_writeConn (v : DWord) : (writeConn s v).wf = true := by
  grind [writeConn, wf_connectPart, wf_disconnectPart, wf_putDreg, wf_regrantAll]

theorem wf_resetPartition (n cause : Nat) : (resetPartition s n cause).wf = true := by
  grind [resetPartition, wf_becomeActive, wf_clearHeld, wf_disableQueues, wf_resetKettle, wf_setCause,
    wf_setPartState, wf_stopPartition]

theorem wf_requestAll (n : Nat) : (requestAll s n).wf = true := by grind [requestAll, wf_addRequest, wf_foldl]

theorem wf_handOver (m n : Nat) : (handOver s m n).wf = true := by
  grind [handOver, wf_clearCluster, wf_setResident, wf_takeHold, wf_foldl]

theorem wf_endHold (m n : Nat) : (endHold s m n).wf = true := by grind [endHold, wf_handOver, wf_requestAll]

theorem wf_switchTenant (c n : Nat) : (switchTenant s c n).wf = true := by
  grind [switchTenant, wf_clearCluster, wf_endRequests, wf_handOver]

theorem wf_payOwed (n : Nat) : (payOwed s n).wf = true := by grind [payOwed, wf_putDfield]

theorem wf_chargeOverrun (n us : Nat) : (chargeOverrun s n us).wf = true := by grind [chargeOverrun, wf_addDfield]

theorem canonical_execConnect (n : Nat) : Canonical (execConnect n s) := by
  grind [execConnect, wf_writeConn, canonical_next]

theorem canonical_execDisconnect (n : Nat) : Canonical (execDisconnect n s) := by
  grind [execDisconnect, wf_writeConn, canonical_next]

theorem canonical_execPartConnDone : Canonical (execPartConnDone s) := by
  grind [execPartConnDone, wf_endPartOp, wf_settle, canonical_next]

theorem canonical_execRetireWrite (k : Nat) (v : DWord) : Canonical (execRetireWrite k v s) := by
  grind [execRetireWrite, wf_settle, wf_writeRetire, canonical_next]

theorem canonical_execFlr (n : Nat) : Canonical (execFlr n s) := by
  grind [execFlr, wf_resetPartition, wf_settle, canonical_next]

theorem canonical_execSliceEnd (n : Nat) : Canonical (execSliceEnd n s) := by
  grind [execSliceEnd, wf_endHold, wf_payOwed, wf_putPart, canonical_next]

theorem canonical_execPeriodStart (n : Nat) : Canonical (execPeriodStart n s) := by
  grind [execPeriodStart, wf_clearCluster, wf_endHold, wf_putPart, wf_startPeriod, wf_takeHold, canonical_next,
    wf_foldl]

theorem canonical_execOverrunSave (n us : Nat) : Canonical (execOverrunSave n us s) := by
  grind [execOverrunSave, wf_chargeOverrun, wf_savePartition, wf_setCause, wf_setPartState, canonical_next]

theorem canonical_execOverrunReset (n us : Nat) : Canonical (execOverrunReset n us s) := by
  grind [execOverrunReset, wf_chargeOverrun, wf_resetPartition, wf_settle, canonical_next]

theorem wf_setClState (c st : Nat) : (setClState s c st).wf = true := by grind [setClState, wf_putDfield]

theorem wf_quiesceSaves (c : Nat) : (quiesceSaves s c).wf = true := by
  grind [quiesceSaves, wf_charge, wf_drainStream, wf_saveWorkgroup, wf_foldl]

theorem wf_writeClpwr (c : Nat) (v : DWord) : (writeClpwr s c v).wf = true := by
  grind [writeClpwr, wf_putCluster, wf_putDfield, wf_putDreg, wf_quiesceSaves, wf_setClState]

omit hs in
theorem wf_withTlb2 (m : FMap (List Tlb)) : { s with tlb2 := m }.wf = s.wf := rfl

theorem wf_zeroCluster (c : Nat) : (zeroCluster s c).wf = true := by
  unfold zeroCluster
  extract_lets s1 s2 s3 s4
  have h1 : s1.wf = true := by
    refine wf_foldl (fun s k h => ?_) _ hs
    obtain ⟨hhbm, hhost, hscratch⟩ := wf_iff.1 h
    exact wf_iff.2 ⟨hhbm, hhost, Memory.wf_clear _ _ hscratch⟩
  have h2 : s2.wf = true := (wf_withTlb2 _).trans h1
  have h3 : s3.wf = true := by
    refine wf_foldl (fun s e h => ?_) _ h2
    exact wf_endStream h _
  have h4 : s4.wf = true := by
    refine wf_foldl (fun s e h => ?_) _ h3
    split
    · exact h
    · exact h
  refine wf_foldl (fun s e h => ?_) _ h4
  exact h

theorem wf_clusterOn (c : Nat) : (clusterOn s c).wf = true := by
  grind [clusterOn, wf_putDfield, wf_setClState, wf_setPoint]

theorem wf_endPower (c : Nat) : (endPower s c).wf = true := by
  grind [endPower, wf_clusterOn, wf_putCluster, wf_putDfield, wf_setClState, wf_setPoint, wf_updateGates,
    wf_zeroCluster]

theorem wf_wakeCluster (c : Nat) : (wakeCluster s c).wf = true := by
  unfold wakeCluster
  split
  · exact hs
  · extract_lets s1
    have h1 : s1.wf = true := wf_addDfield hs ..
    clear_value s1
    split
    · exact wf_putDfield h1 ..
    · exact wf_sendClwake (wf_putDfield h1 ..) _

theorem wf_writeRet (c : Nat) (v : DWord) : (writeRet s c v).wf = true := by
  unfold writeRet
  split
  · exact hs
  · split
    · exact (wf_putDreg ..).trans hs
    · exact (wf_putCluster ..).trans ((wf_putDreg ..).trans ((wf_putDreg ..).trans hs))

theorem wf_endRet (c : Nat) (err : Bool) : (endRet s c err).wf = true := by grind [endRet, wf_putCluster, wf_putDreg]

omit hs in
theorem wf_withRetImages (l : List RetImage) : { s with retImages := l }.wf = s.wf := rfl

theorem wf_retSaveImage (c addr : Nat) : (retSaveImage s c addr).wf = true := by
  unfold retSaveImage
  extract_lets s1 image sum agents x s2
  have h1 : s1.wf = true := wf_touchCluster hs c
  have h2 : s2.wf = true := wf_sealWrites (wf_bump.trans h1) ..
  refine wf_endRet ?_ c false
  rw [wf_putDreg, wf_withRetImages]
  exact h2

theorem wf_retLoadImage (c addr : Nat) : (retLoadImage s c addr).wf = true := by
  unfold retLoadImage
  have h1 := wf_sealReads hs 0 0 66 addr 131072
  split
  next l s1 e =>
    rw [e] at h1
    dsimp only at h1
    split
    next x _ =>
      split
      · extract_lets s2 s3 s4 s5
        have h2 : s2.wf = true := by
          refine wf_foldl (fun s e h => ?_) _ h1
          exact h
        have h3 : s3.wf = true := by
          refine wf_foldl (fun s e h => ?_) _ h2
          exact h
        have h4 : s4.wf = true := by
          have hm := fwf_fsets unwritten x.scratch (Memory.wf_clear 0 65536 (wf_iff.1 h3).2.2)
          exact wf_ite (wf_withScratch h3 hm) h3
        have h5 : s5.wf = true := wf_touchCluster h4 c
        exact wf_endRet (wf_putDfield ((wf_putCluster ..).trans h5) ..) ..
      · exact wf_endRet (wf_zeroCluster h1 c) ..
    · exact wf_endRet (wf_zeroCluster h1 c) ..
  next e =>
    rw [e] at h1
    exact wf_endRet (wf_zeroCluster h1 c) ..

theorem wf_endRetention (c : Nat) : (endRetention s c).wf = true := by
  unfold endRetention
  split
  · exact hs
  · split
    · exact wf_endRet hs ..
    · split
      · exact wf_retLoadImage hs ..
      · exact wf_retSaveImage hs ..

theorem wf_ringAgents : (ringAgents s).wf = true := by grind [ringAgents, wf_claimTickets, wf_setWake, wf_foldl]

theorem canonical_execQuiesce (c dest : Nat) : Canonical (execQuiesce c dest s) := by
  grind [execQuiesce, wf_settle, wf_writeClpwr, canonical_next]

theorem canonical_execClkgate (c dest : Nat) : Canonical (execClkgate c dest s) := by
  grind [execClkgate, wf_writeClpwr, canonical_next]

theorem canonical_execPwroff (c dest : Nat) : Canonical (execPwroff c dest s) := by
  grind [execPwroff, wf_writeClpwr, canonical_next]

theorem canonical_execPowerup (c dest : Nat) : Canonical (execPowerup c dest s) := by
  grind [execPowerup, wf_writeClpwr, canonical_next]

theorem canonical_execClpwrOn (c dest : Nat) : Canonical (execClpwrOn c dest s) := by
  grind [execClpwrOn, wf_writeClpwr, canonical_next]

theorem canonical_execRetSave (c addr : Nat) : Canonical (execRetSave c addr s) := by
  grind [execRetSave, wf_writeRet, canonical_next]

theorem canonical_execRetRestore (c addr : Nat) : Canonical (execRetRestore c addr s) := by
  grind [execRetRestore, wf_writeRet, canonical_next]

theorem canonical_execThermalLimit (die temp : Nat) : Canonical (execThermalLimit die temp s) := by
  grind [execThermalLimit, canonical_next, State.wf]

theorem canonical_execThermalStop (_die temp : Nat) : Canonical (execThermalStop _die temp s) := by
  grind [execThermalStop, canonical_next, State.wf]

theorem wf_resetDevice : (resetDevice s).wf = true := by
  have h := wf_iff.1 hs
  exact wf_iff.2 ⟨h.1, h.2.1, rfl⟩

theorem wf_startAgents (n : Nat) : (startAgents s n).wf = true := by
  induction n with
  | zero => exact hs
  | succ n ih => exact ih

theorem wf_bootDevice : (bootDevice s).wf = true := by grind [bootDevice, wf_bump, wf_sealWrites, State.wf]

theorem wf_bootRuns (l : List Byte) : (bootRuns s l).wf = true := by grind [bootRuns, wf_startAgents, State.wf]

theorem wf_bootVerify : (bootVerify s).wf = true := by grind [bootVerify, wf_bootFail, wf_bootRuns, wf_sealReads]

theorem wf_endRequest (fn result : Nat) : (endRequest s fn result).wf = true := by grind [endRequest, wf_putMailbox]

theorem wf_postTicket (record sem : Nat) : ∀ t, postTicket s record sem = some t → t.wf = true := by
  unfold postTicket
  extract_lets tail head m
  have hm : Memory.wf m = true := Memory.wf_write _ _ (wf_iff.1 hs).2.2
  clear_value m
  intro t h
  split at h
  · cases h
  · obtain rfl := Option.some.inj h
    exact wf_ringAgents (wf_withScratch hs (Memory.wf_write _ _ hm))

theorem canonical_execRun (fn : Nat) : Canonical (execRun fn s) := by
  grind [execRun, wf_endRequest, wf_postTicket, canonical_next]

theorem canonical_execKeyload (fn : Nat) : Canonical (execKeyload fn s) := by
  grind [execKeyload, wf_bump, wf_endRequest, wf_putMailbox, canonical_next, State.wf]

theorem canonical_execKeyclear (fn : Nat) : Canonical (execKeyclear fn s) := by
  grind [execKeyclear, wf_endRequest, canonical_next, State.wf]

theorem canonical_execAttest (fn : Nat) : Canonical (execAttest fn s) := by
  unfold execAttest
  split
  · exact canonical_next.2 (wf_endRequest (wf_withHost hs (Memory.wf_write _ _ (wf_iff.1 hs).2.1)) ..)
  · exact canonical_next.2 hs

theorem canonical_execBadkindRequest (fn : Nat) : Canonical (execBadkindRequest fn s) := by
  grind [execBadkindRequest, wf_endRequest, canonical_next]

theorem canonical_execDoeRequest (nonce : List Byte) : Canonical (execDoeRequest nonce s) := by
  grind [execDoeRequest, canonical_next, State.wf]

theorem wf_forwardRecord : (forwardRecord s).wf = true := by grind [forwardRecord, wf_ringRecord, State.wf]

theorem wf_programHdm (k : Nat) (d : Hdm) : (programHdm s k d).wf = true := by grind [programHdm, State.wf]

theorem wf_cxlKey (a n : Nat) : (cxlKey s a n).2.wf = true := by grind [cxlKey, wf_addDeny]

theorem wf_cxlReadLine (h n : Nat) : (cxlReadLine s h n).2.wf = true := by
  grind [cxlReadLine, wf_cxlFail, wf_cxlKey, wf_sealRead]

theorem wf_cxlWriteLine (h : Nat) (l : List Byte) : (cxlWriteLine s h l).wf = true := by
  grind [cxlWriteLine, wf_cxlFail, wf_cxlKey, wf_sealWrite]

theorem wf_chargeHost (h : Nat) : (chargeHost s h).wf = true := by grind [chargeHost, wf_charge]

theorem canonical_execCxlMemRead (a len : Nat) : Canonical (execCxlMemRead a len s) := by
  unfold execCxlMemRead
  extract_lets x
  have h1 : x.2.wf = true := by
    refine wf_foldl_snd (fun x y h => ?_) _ hs
    exact wf_chargeHost (wf_cxlReadLine h y.1 y.2) y.1
  clear_value x
  exact canonical_next.2 (by exact h1)

theorem canonical_execCxlMemWrite (a : Nat) (bytes : List Byte) : Canonical (execCxlMemWrite a bytes s) := by
  refine canonical_next.2 (wf_foldl (fun s y h => ?_) _ hs)
  exact wf_chargeHost (wf_cxlWriteLine h ..) _

theorem canonical_execLinkTraining (width rate : Nat) : Canonical (execLinkTraining width rate s) := by
  grind [execLinkTraining, canonical_next, State.wf]

end Sys2Proof.Machine
end

section
/-! PROOFS. Canonical memory, words: lanes, frames and slices, device registers, loads and stores, asynchronous words,
barriers and system words. -/

namespace Sys2Proof.Machine

set_option Elab.async false

variable {s : State} (hs : s.wf = true)
include hs

theorem canonical_fpWord (len : Nat) (d : Code) (f : Nat → Team → Nat → LaneResult) :
    Canonical (fpWord s len d f) := by
  grind [fpWord, canonical_withTeam, wf_bump, wf_putTeam, canonical_next]

theorem canonical_fpBinary (len : Nat) (d a b : Code) (m : Mods) (rm : Rm) (op : FV → FV → FV × BitVec 5) :
    Canonical (fpBinary s len d a b m rm op) := by
  grind [fpBinary, canonical_fpWord]

theorem canonical_fpMinMax (len : Nat) (wantMax : Bool) (d a b : Code) (m : Mods) :
    Canonical (fpMinMax s len wantMax d a b m) := by
  grind [fpMinMax, canonical_laneWord]

theorem canonical_xfnWord (len : Nat) (d a : Code) (m : Mods) (f : Word → Word → LaneResult) :
    Canonical (xfnWord s len d a m f) := by
  grind [xfnWord, canonical_withTeam, wf_bump, wf_putTeam, canonical_next]

theorem canonical_packedWord (len : Nat) (d a b c : Code) (f : FFmt) (m : Mods) (rm : Rm)
    (op : FV → FV → FV → FV × BitVec 5) :
    Canonical (packedWord s len d a b c f m rm op) := by
  grind [packedWord, canonical_fpWord]

theorem canonical_execIfL (a : Code) : Canonical (execIfL a s) := by
  grind [execIfL, canonical_withTeam, canonical_wordTrap, wf_bump, wf_putTeam, canonical_next]

theorem canonical_execElseL : Canonical (execElseL s) := by
  grind [execElseL, canonical_withTeam, wf_putTeam, canonical_next]

theorem canonical_execEndifL : Canonical (execEndifL s) := by
  grind [execEndifL, canonical_withTeam, wf_putTeam, canonical_next]

theorem canonical_execLoopL : Canonical (execLoopL s) := by
  grind [execLoopL, canonical_withTeam, canonical_wordTrap, wf_putTeam, canonical_next]

theorem canonical_execBreakL (p : Code) (n : BitVec 7) : Canonical (execBreakL p n s) := by
  grind [execBreakL, canonical_withTeam, wf_bump, wf_putTeam, canonical_next]

theorem canonical_execContL (p : Code) (n : BitVec 7) : Canonical (execContL p n s) := by
  grind [execContL, canonical_withTeam, wf_bump, wf_putTeam, canonical_next]

theorem canonical_execEndloop (off : BitVec 22) : Canonical (execEndloop off s) := by
  grind [execEndloop, canonical_withTeam, wf_putTeam, canonical_next]

theorem canonical_execBra (off : BitVec 22) : Canonical (execBra off s) := by
  grind [execBra, canonical_teamWord, wf_putTeam, canonical_next]

theorem canonical_execBrv (off : BitVec 22) (p : Code) (off2 : BitVec 22) : Canonical (execBrv off p off2 s) := by
  grind [execBrv, canonical_teamWord, wf_bump, wf_putTeam, canonical_next]

theorem canonical_execJmpi (a : Code) : Canonical (execJmpi a s) := by
  grind [execJmpi, canonical_teamWord, canonical_wordTrap, wf_bump, wf_putTeam, canonical_next]

theorem wf_exitTeam (t : Team) : (exitTeam s t).wf = true := by grind [exitTeam, wf_restartAgent, wf_teamLeaves]

theorem canonical_execExit : Canonical (execExit s) := by
  grind [execExit, canonical_teamWord, wf_exitTeam, canonical_next]

theorem canonical_execPause (imm : BitVec 16) : Canonical (execPause imm s) := by
  grind [execPause, canonical_teamWord, wf_putTeam, canonical_next]

theorem wf_rangeAccess (u : Nat) (t : Team) (wr : Bool) (va n : Nat) : (rangeAccess s u t wr va n).2.wf = true := by
  grind [rangeAccess, wf_meetAll]

theorem wf_writeSegs (xs : List Seg) (va : Nat) (l : List Byte) (ref : Bool) :
    (writeSegs s xs va l ref).wf = true := by
  grind [writeSegs, wf_placeWrite, wf_foldl]

theorem wf_drainFrame (u : Nat) (wr : Bool) (xs : List Seg) : (drainFrame s u wr xs).wf = true := by
  grind [drainFrame, wf_drainAll, wf_putTeam, wf_raiseMet, wf_raiseStores, wf_foldl]

theorem canonical_withSpill (t t' : Team) (c : Clause) (va : Nat) (k : State → Out)
    (hk : ∀ s, s.wf = true → Canonical (k s)) : Canonical (withSpill s t t' c va k) := by
  grind [withSpill, wf_spillRefused, canonical_wordTrap]

theorem canonical_execCall (off : BitVec 22) : Canonical (execCall off s) := by
  grind [execCall, canonical_accessTrap, canonical_teamWord, canonical_withSpill, canonical_wordTrap, wf_drainFrame,
    wf_putTeam, wf_rangeAccess, wf_spillCheck, wf_writeSegs, canonical_next]

theorem canonical_execRet : Canonical (execRet s) := by
  grind [execRet, canonical_accessTrap, canonical_teamWord, canonical_wordTrap, wf_drainFrame, wf_putTeam,
    wf_rangeAccess, canonical_next]

theorem canonical_execMark (tag : BitVec 16) : Canonical (execMark tag s) := by
  grind [execMark, canonical_accessTrap, canonical_teamWord, canonical_withSpill, canonical_wordTrap, wf_drainFrame,
    wf_putTeam, wf_rangeAccess, wf_spillCheck, wf_writeSegs, canonical_next]

theorem canonical_cutWrite (c : Clause) (d : Code) (t : Team) (m lo base e gen b : Nat) (xs ys : List Seg) :
    Canonical (cutWrite s c d t m lo base e gen b xs ys) := by
  grind [cutWrite, wf_drainFrame, wf_putTeam, wf_writeSegs, canonical_next]

theorem wf_of_rangeAccess {u va n : Nat} {t : Team} {wr : Bool} {r : Except (Nat × Nat) (List Seg)} {s' : State}
    (e : rangeAccess s u t wr va n = (r, s')) : s'.wf = true := by
  have h := wf_rangeAccess hs u t wr va n
  rwa [e] at h

theorem canonical_execCut (d : Code) (tag : BitVec 16) : Canonical (execCut d tag s) := by
  unfold execCut
  refine canonical_teamWord hs _ _ fun t c _ => ?_
  split
  · exact canonical_next.2 hs
  · extract_lets s1
    have h1 : s1.wf = true := wf_drainFrame hs ..
    clear_value s1
    split
    · exact canonical_next.2 h1
    · extract_lets m lo f n
      split
      · exact canonical_wordTrap h1 ..
      · split
        · exact canonical_wordTrap h1 ..
        · split
          · exact canonical_wordTrap h1 ..
          · split
            next e => exact canonical_accessTrap (wf_of_rangeAccess h1 e) ..
            next s2 e =>
              have h2 := wf_of_rangeAccess h1 e
              split
              next e => exact canonical_accessTrap (wf_of_rangeAccess h2 e) ..
              next ds s3 e =>
                extract_lets s4 dir
                have h4 : s4.wf = true := wf_drainFrame (wf_of_rangeAccess h2 e) ..
                clear_value s4
                split
                · split
                  next e => exact canonical_accessTrap (wf_of_rangeAccess h4 e) ..
                  next xs s5 e =>
                    have h5 := wf_of_rangeAccess h4 e
                    split
                    next e => exact canonical_accessTrap (wf_of_rangeAccess h5 e) ..
                    next e => exact canonical_cutWrite (wf_of_rangeAccess h5 e) ..
                · exact canonical_wordTrap h4 ..

theorem wf_checkHandle (t : Team) (h : DWord) : (checkHandle s t h).2.wf = true := by
  grind [checkHandle, wf_drainFrame, wf_rangeAccess]

theorem canonical_execSlfree (g : Code) (slot : BitVec 3) : Canonical (execSlfree g slot s) := by
  unfold execSlfree
  grind [canonical_accessTrap, canonical_teamWord, wf_bump, wf_checkHandle, wf_drainFrame, wf_putTeam,
    wf_rangeAccess, wf_writeSegs, canonical_next]

theorem canonical_graftSlice (t : Team) (c : Clause) (g : Code) (k base : Nat) (e : List Byte) :
    Canonical (graftSlice s t c g k base e) := by
  unfold graftSlice
  extract_lets a f
  split
  next e => exact canonical_accessTrap (wf_of_rangeAccess hs e) ..
  next rs s1 e =>
    extract_lets s2 rec_ link dreg
    have h2 : s2.wf = true := wf_drainFrame (wf_of_rangeAccess hs e) ..
    clear_value s2
    split
    · exact canonical_wordTrap h2 ..
    · split
      · exact canonical_wordTrap h2 ..
      · split
        · exact canonical_wordTrap h2 ..
        · split
          · exact canonical_wordTrap h2 ..
          · split
            next e => exact canonical_accessTrap (wf_of_rangeAccess h2 e) ..
            next bs s3 e =>
              have h3 := wf_of_rangeAccess h2 e
              split
              next e => exact canonical_accessTrap (wf_of_rangeAccess h3 e) ..
              next fs s4 e =>
                refine canonical_withSpill (wf_of_rangeAccess h3 e) _ _ _ _ _ fun s5 h5 => ?_
                have h6 := wf_drainFrame (wf_drainFrame h5 s5.cur false bs) s5.cur true fs
                grind [wf_writeSegs, wf_spillCheck, wf_putTeam, canonical_next]

theorem canonical_execGraft (g : Code) (_slot : BitVec 3) : Canonical (execGraft g _slot s) := by
  grind [execGraft, canonical_accessTrap, canonical_graftSlice, canonical_teamWord, wf_bump, wf_checkHandle,
    canonical_next]

theorem wf_store (r : Nat) (mask v : DWord) : (store s r mask v).wf = true := by grind [store, wf_putDreg]

theorem wf_writeSeal (r : Nat) (v : DWord) : (writeSeal s r v).wf = true := by grind [writeSeal, wf_putDreg, wf_store]

theorem wf_writeFilter (priv f o : Nat) (v : DWord) : (writeFilter s priv f o v).wf = true := by
  unfold writeFilter
  grind [wf_putDreg, wf_store, State.wf]

theorem wf_writeHevt (n : Nat) (v : DWord) : (writeHevt s n v).wf = true := by
  grind [writeHevt, wf_clearQueueEvents, wf_putDreg]

theorem wf_writeNqlatch (priv n : Nat) (v : DWord) : (writeNqlatch s priv n v).wf = true := by
  grind [writeNqlatch, wf_putDfield, wf_store]

theorem wf_writePace (priv n : Nat) (v : DWord) : (writePace s priv n v).wf = true := by
  grind [writePace, wf_putDfield, wf_putPart, wf_store]

theorem wf_writeQuota (n o : Nat) (v : DWord) : (writeQuota s n o v).wf = true := by
  unfold writeQuota
  grind [wf_store]

theorem wf_writeBlock (priv n o : Nat) (v : DWord) : (writeBlock s priv n o v).wf = true := by
  unfold writeBlock
  refine wf_ite (wf_writeQuota hs ..) (wf_ite (wf_store hs ..) (wf_ite (wf_store hs ..) (wf_ite (wf_store hs ..)
    (wf_ite (wf_store hs ..) (wf_ite (wf_ite (wf_putDfield hs ..) hs) (wf_ite (wf_ite (wf_store hs ..) hs) ?_))))))
  exact wf_ite (wf_writePace hs ..) (wf_ite (wf_store hs ..) (wf_ite (wf_writeNqlatch hs ..)
    (wf_ite (wf_writeHevt hs ..) (wf_ite (wf_store hs ..) hs))))

theorem wf_writePartPage (priv r : Nat) (v : DWord) : (writePartPage s priv r v).wf = true := by
  grind [writePartPage, wf_writeBlock, wf_writeConn, wf_writeRetire]

theorem wf_writePowerPage (r : Nat) (v : DWord) : (writePowerPage s r v).wf = true := by
  grind [writePowerPage, wf_putDfield, wf_ringAgents, wf_settle, wf_store, wf_wakeCluster, wf_writeClpwr, wf_writeRet]

theorem wf_writeReplay (q : Nat) (v : DWord) : (writeReplay s q v).wf = true := by
  grind [writeReplay, wf_putDreg, wf_putQueue, wf_store]

theorem wf_writeQueuePage (q o : Nat) (v : DWord) : (writeQueuePage s q o v).wf = true := by
  unfold writeQueuePage
  grind [wf_settle, wf_store, wf_writeQctl, wf_writeReplay]

theorem wf_writePtpCfg (v : DWord) : (writePtpCfg s v).wf = true := by grind [writePtpCfg, wf_store, State.wf]

theorem wf_devWrite (priv a : Nat) (v : DWord) : (devWrite s priv a v).wf = true := by
  grind [devWrite, wf_store, wf_writeFilter, wf_writePartPage, wf_writePowerPage, wf_writePreempt, wf_writePtpCfg,
    wf_writeQueuePage, wf_writeSeal]

theorem wf_barWrite (fn off : Nat) (v : DWord) : (barWrite s fn off v).wf = true := by
  grind [barWrite, wf_bootDevice, wf_devWrite, wf_putMailbox, State.wf]

theorem canonical_execRegisterWrite (r : RegWrite) : Canonical (execRegisterWrite r s) := by
  unfold execRegisterWrite
  grind [wf_barWrite, wf_devWrite, canonical_next]

theorem canonical_execIngFiltWrite (f : Nat) (v : DWord) : Canonical (execIngFiltWrite f v s) := by
  grind [execIngFiltWrite, wf_writeFilter, canonical_next]

theorem canonical_execHevtWrite (n : Nat) (v : DWord) : Canonical (execHevtWrite n v s) := by
  grind [execHevtWrite, wf_writeHevt, canonical_next]

theorem canonical_execNqlatchWrite (n : Nat) (v : DWord) : Canonical (execNqlatchWrite n v s) := by
  grind [execNqlatchWrite, wf_writeNqlatch, canonical_next]

theorem canonical_execBreezeClr : Canonical (execBreezeClr s) := by
  grind [execBreezeClr, wf_writeSeal, canonical_next]

theorem wf_loadSeg (t : Team) (l : Nat) (x : Seg) : (loadSeg s t l x).2.wf = true := by grind [loadSeg, wf_notifyLoad]

theorem wf_loadSegs (t : Team) (l : Nat) (xs : List Seg) : (loadSegs t l s xs).2.wf = true := by
  induction xs generalizing s with
  | nil => exact hs
  | cons x xs ih => exact ih (wf_loadSeg hs ..)

theorem wf_loadLanes (t : Team) (xs : List (Nat × List Seg)) : (loadLanes t s xs).2.wf = true := by
  induction xs generalizing s with
  | nil => exact hs
  | cons x xs ih => exact ih (wf_loadSegs hs ..)

theorem wf_performLoad (u k : Nat) : (performLoad s u k).wf = true := by
  grind [performLoad, wf_bump, wf_putTeam, wf_foldl]

theorem canonical_deliverLoads (c : Clause) (len : Nat) (d : Code) (slot : BitVec 3) (form : LoadForm)
    (acq : Bool) (xs : List (Nat × List Seg)) (words : List (Nat × List Byte) → Nat × List Byte → List Word) :
    Canonical (deliverLoads s c len d slot form acq xs words) := by
  grind [deliverLoads, wf_atomsFirst, wf_loadLanes, wf_putTeam, canonical_next]

theorem canonical_loadWord (len n : Nat) (d b : Code) (slot : BitVec 3) (off : BitVec 5) (signed acq : Bool) :
    Canonical (loadWord s len n d b slot off signed acq) := by
  grind [loadWord, canonical_accessTrap, canonical_deliverLoads, canonical_withTeam, wf_bump, wf_lanesAccess]

theorem wf_beforeStores (u : Nat) (rel : Bool) (xs : List (Nat × List Seg)) :
    (beforeStores s u rel xs).wf = true := by
  grind [beforeStores, wf_drainAll, wf_raiseSeen]

theorem wf_holdStores (u : Nat) (xs : List (Bool × PendStore)) : (holdStores s u xs).wf = true := by
  grind [holdStores, wf_putTeam, wf_raiseStores]

theorem wf_deviceStore (priv part : Nat) (x : Seg) (data : List Byte) :
    (deviceStore s priv part x data).wf = true := by
  grind [deviceStore, wf_devWrite, wf_notifyStore]

theorem wf_deviceStores (priv part : Nat) (ls : List (Nat × List Seg)) (data : Nat → List Byte) :
    (deviceStores s priv part ls data).wf = true := by
  grind [deviceStores, wf_bump, wf_deviceStore, wf_foldl]

theorem canonical_storeWord (len n : Nat) (v b : Code) (slot : BitVec 3) (off : BitVec 5) (fr rel : Bool) :
    Canonical (storeWord s len n v b slot off fr rel) := by
  grind [storeWord, canonical_accessTrap, canonical_withTeam, wf_beforeStores, wf_bump, wf_deviceStores,
    wf_holdStores, wf_lanesAccess, wf_putTeam, canonical_next]

theorem canonical_execAtom (d b : Code) (slot : BitVec 3) (off : BitVec 5) (size : AtomSize) (v : Code)
    (op : AtomOp) (rel acq : Bool) :
    Canonical (execAtom d b slot off size v op rel acq s) := by
  grind [execAtom, canonical_accessTrap, canonical_withTeam, wf_beforeStores, wf_bump, wf_holdStores, wf_lanesAccess,
    wf_putTeam, canonical_next]

theorem canonical_execLdt (d b : Code) (slot : BitVec 3) (off : BitVec 5) : Canonical (execLdt d b slot off s) := by
  grind [execLdt, canonical_accessTrap, canonical_deliverLoads, canonical_withTeam, canonical_wordTrap, wf_bump,
    wf_lanesAccess]

theorem canonical_execFence (ord : FenceOrder) (scope : FenceScope) : Canonical (execFence ord scope s) := by
  grind [execFence, canonical_teamWord, wf_atomsFirst, wf_closeTiles, wf_drainTo, wf_putTeam, wf_raiseSeen,
    canonical_next]

theorem canonical_accWord (a : Code) (k : Team → Clause → Workgroup → AccWindow → List (Nat × Word) → Out)
    (hk : ∀ t c x y z, Canonical (k t c x y z)) :
    Canonical (accWord s a k) := by
  unfold accWord
  grind [canonical_withTeam, canonical_wordTrap, wf_checkLog, wf_putTeam, canonical_next]

theorem canonical_execAccrd (d a : Code) : Canonical (execAccrd d a s) := by
  grind [execAccrd, canonical_accWord, wf_bump, wf_putTeam, canonical_next]

theorem canonical_execAccwr (a b : Code) : Canonical (execAccwr a b s) := by
  grind [execAccwr, canonical_accWord, wf_bump, wf_putTeam, wf_putWg, canonical_next]

theorem wf_asyncGo (u : Nat) (slot : BitVec 3) (c : Clause) : (asyncGo s u slot c).wf = true := by
  grind [asyncGo, wf_putTeam]

theorem canonical_execCopy (g : Code) (nb : BitVec 4) (slot : BitVec 3) (keyovr reseal arr : Bool) :
    Canonical (execCopy g nb slot keyovr reseal arr s) := by
  grind [execCopy, canonical_teamWord, canonical_wordTrap, wf_asyncGo, wf_attach, wf_bump, wf_completeCopy,
    wf_drainAll, wf_nextId, wf_putCopy, canonical_next]

theorem wf_detachSlices (g : Nat) (l : List Slice) : (detachSlices s g l).wf = true := by
  grind [detachSlices, wf_detach, wf_foldl]

theorem wf_startColl (u : Nat) (t : Team) (l : List Slice) : (startColl s u t l).wf = true := by
  grind [startColl, wf_attach, wf_detachSlices, wf_nextId, wf_putCopy]

theorem wf_refuseColl (g : Nat) (l : List Slice) : (refuseColl s g l).wf = true := by
  grind [refuseColl, wf_arrive, wf_detach, wf_foldl]

theorem wf_joinColl (u g n : Nat) (t : Team) (x : Slice) : (joinColl s u g n t x).wf = true := by
  grind [joinColl, wf_leaveColls, wf_nextId, wf_putWg, wf_refuseColl, wf_startColl]

theorem canonical_execCopyc (g : Code) (nb : BitVec 4) (slot : BitVec 3) (keyovr reseal arr : Bool) :
    Canonical (execCopyc g nb slot keyovr reseal arr s) := by
  grind [execCopyc, canonical_teamWord, canonical_wordTrap, wf_asyncGo, wf_attach, wf_bump, wf_drainAll, wf_joinColl,
    wf_nextId, wf_putTeam, canonical_next]

theorem canonical_execSemsig (g : Code) (slot : BitVec 3) (op : SemOp) : Canonical (execSemsig g slot op s) := by
  grind [execSemsig, canonical_teamWord, wf_asyncGo, wf_bump, wf_drainAll, wf_nextId, wf_putCopy, canonical_next]

theorem canonical_execSpawn (g : Code) (slot : BitVec 3) : Canonical (execSpawn g slot s) := by
  grind [execSpawn, canonical_teamWord, wf_asyncGo, wf_bump, wf_drainAll, wf_failLaunch, wf_putLaunch, wf_settle,
    canonical_next]

theorem wf_cancelUnit (l : Nat) (x : Launch) (level : CancelLevel) : (cancelUnit s l x level).wf = true := by
  unfold cancelUnit
  grind [wf_cancelGraph, wf_cancelJob, wf_cancelLaunch, wf_cancelPhase]

theorem canonical_execCancel (level : CancelLevel) : Canonical (execCancel level s) := by
  grind [execCancel, canonical_teamWord, wf_cancelUnit, wf_putTeam, wf_restartAgent, wf_settle, canonical_next]

theorem canonical_execNbinit (a : Code) (nb : BitVec 4) (slot : BitVec 3) : Canonical (execNbinit a nb slot s) := by
  grind [execNbinit, canonical_teamWord, canonical_wordTrap, wf_asyncGo, wf_bump, wf_drainTo, wf_invalidate,
    wf_putWg, canonical_next]

theorem canonical_execNbarr (nb : BitVec 4) (slot : BitVec 3) : Canonical (execNbarr nb slot s) := by
  grind [execNbarr, canonical_teamWord, wf_arrive, wf_asyncGo, wf_drainTo, canonical_next]

theorem wf_waitBar (g k : Nat) (d : Code) (slot : BitVec 3) (det : Bool) (c : Clause) :
    (waitBar s g k d slot det c).wf = true := by
  grind [waitBar, wf_putTeam, wf_putWg]

theorem canonical_execNbwait (d : Code) (nb : BitVec 4) (slot : BitVec 3) (det : Bool) :
    Canonical (execNbwait d nb slot det s) := by
  grind [execNbwait, canonical_teamWord, wf_waitBar, canonical_next]

theorem canonical_execNbsync (d : Code) (nb : BitVec 4) (slot : BitVec 3) (det : Bool) :
    Canonical (execNbsync d nb slot det s) := by
  grind [execNbsync, canonical_teamWord, wf_arrive, wf_drainTo, wf_waitBar, canonical_next]

theorem canonical_execNbinv (nb : BitVec 4) (slot : BitVec 3) : Canonical (execNbinv nb slot s) := by
  grind [execNbinv, canonical_teamWord, wf_asyncGo, wf_drainTo, wf_invalidate, canonical_next]

theorem wf_sysTime (t : Team) : (sysTime s t).2.wf = true := by
  grind [sysTime, wf_findRecord, wf_putDfield, wf_raiseEvent, wf_recordInput]

theorem canonical_execSysr (d : Code) (n : SysReg) : Canonical (execSysr d n s) := by
  grind [execSysr, canonical_withTeam, wf_putTeam, wf_sysTime, canonical_next]

theorem canonical_execSysw (v : Code) (n : SysReg) : Canonical (execSysw v n s) := by
  grind [execSysw, canonical_teamWord, canonical_withSpill, canonical_wordTrap, wf_bump, wf_drainFrame, wf_putTeam,
    wf_spillCheck, canonical_next]

theorem canonical_execTrap (imm : BitVec 16) : Canonical (execTrap imm s) := by
  grind [execTrap, canonical_teamWord, canonical_trapAfter]

theorem canonical_execBkpt (_imm : BitVec 16) : Canonical (execBkpt _imm s) := by
  grind [execBkpt, canonical_teamWord, canonical_trapAfter]

theorem canonical_execRett : Canonical (execRett s) := by
  grind [execRett, canonical_withTeam, canonical_wordTrap, wf_putTeam, canonical_next]

theorem canonical_parkTeam (t : Team) (p : Park) : Canonical (parkTeam s t p) := by
  grind [parkTeam, wf_putTeam, canonical_next]

theorem canonical_execWfi (d a : Code) : Canonical (execWfi d a s) := by
  grind [execWfi, canonical_parkTeam, canonical_teamWord, canonical_wordTrap, wf_bump]

theorem wf_dropPrefetched (cores : List Nat) : (dropPrefetched s cores).wf = true := by
  grind [dropPrefetched, State.wf]

theorem canonical_execIcinv (scope : InvScope) : Canonical (execIcinv scope s) := by
  grind [execIcinv, canonical_parkTeam, canonical_teamWord, canonical_wordTrap, wf_drainAll, wf_dropLoop,
    wf_dropPrefetched, canonical_next, wf_foldl]

theorem canonical_execTlbinv (a b : Code) (scope : InvScope) (ng : Bool) : Canonical (execTlbinv a b scope ng s) := by
  grind [execTlbinv, canonical_parkTeam, canonical_teamWord, canonical_wordTrap, wf_bump]

theorem canonical_execWfiResume (u : Nat) : Canonical (execWfiResume u s) := by
  grind [execWfiResume, wf_putTeam, canonical_next, State.wf]

theorem wf_passBoundary (x : Nat) : (passBoundary s x).wf = true := by grind [passBoundary, State.wf]

theorem wf_dropTlbs (cores : Option (List Nat)) (own : Nat) (p : Tlb → Bool) :
    (dropTlbs s cores own p).wf = true := by
  unfold dropTlbs
  grind [wf_foldl, State.wf]

theorem canonical_execTlbinvCompletion (u : Nat) : Canonical (execTlbinvCompletion u s) := by
  grind [execTlbinvCompletion, wf_dropTlbs, wf_putTeam, wf_retryCopy, canonical_next, wf_foldl]

end Sys2Proof.Machine
end

section
/-! PROOFS. Canonical memory, steps of the units: clause fetches, walks, copies, and the matrix engine's streams. -/

namespace Sys2Proof.Machine

set_option Elab.async false

variable {s : State} (hs : s.wf = true)
include hs

theorem wf_fetchBytes (part core : Option Nat) (fuel va n : Nat) : (fetchBytes part core fuel s va n).2.wf = true := by
  induction fuel generalizing s va n with
  | zero => exact hs
  | succ fuel ih => unfold fetchBytes; grind [wf_xlate, wf_sealRead, wf_addDeny]

theorem wf_fetchClause (part core : Option Nat) (a : DWord) : (fetchClause s part core a).2.wf = true := by
  grind [fetchClause, wf_fetchBytes]

theorem wf_capture (core : Nat) (agent : Bool) (c : Clause) : (capture s core agent c).wf = true := by
  grind [capture, State.wf]

theorem wf_obtainClause (t : Team) : (obtainClause s t).2.wf = true := by grind [obtainClause, wf_fetchClause]

theorem wf_fetchTrap (u : Nat) (t : Team) (cause slot : Nat) (addr : DWord) :
    (fetchTrap s u t cause slot addr).wf = true := by
  grind [fetchTrap, wf_takeTrap]

theorem wf_takeClause (u : Nat) (t : Team) : (takeClause s u t).wf = true := by
  grind [takeClause, wf_bump, wf_capture, wf_fetchTrap, wf_obtainClause, wf_passBoundary, wf_putTeam]

theorem wf_deliverNotice (u : Nat) (t : Team) : (deliverNotice s u t).wf = true := by
  grind [deliverNotice, wf_putTeam, wf_takeTrap, wf_teamLeaves]

theorem canonical_execClauseFetch (u : Nat) : Canonical (execClauseFetch u s) := by
  grind [execClauseFetch, wf_deliverNotice, wf_takeClause, canonical_next]

theorem canonical_execResultLanding (u k : Nat) : Canonical (execResultLanding u k s) := by
  grind [execResultLanding, wf_putTeam, canonical_next]

theorem canonical_execPauseExpiry (u : Nat) : Canonical (execPauseExpiry u s) := by
  grind [execPauseExpiry, wf_putTeam, canonical_next]

theorem canonical_execWalkCompletion (core part : Nat) (va : DWord) (wr : Bool) :
    Canonical (execWalkCompletion core part va wr s) := by
  grind [execWalkCompletion, wf_cacheFill, wf_walk, canonical_next]

theorem canonical_meter (c w rank : Nat) (agent : Bool) : CanonicalIssue id (meter s c w rank agent) := by
  unfold meter
  split
  · exact wf_debit hs ..
  · exact wf_markWithheld hs _

theorem wf_copyTile (k : Nat) (c : Copy) : (copyTile s k c).wf = true := by
  grind [copyTile, wf_debit, wf_markWithheld, wf_settle, wf_stepCopy]

theorem canonical_execCopyTile (k : Nat) : Canonical (execCopyTile k s) := by
  grind [execCopyTile, wf_copyTile, canonical_next]

theorem canonical_execSemsigPerform (k : Nat) : Canonical (execSemsigPerform k s) := by
  grind [execSemsigPerform, wf_charge, wf_rereadAll, wf_stepSemsig, canonical_next]

theorem canonical_execFaultRetry (k : Nat) : Canonical (execFaultRetry k s) := by
  grind [execFaultRetry, wf_retryCopy, canonical_next]

theorem canonical_execFaultUnresolved (k : Nat) : Canonical (execFaultUnresolved k s) := by
  have hn := canonical_next.2 hs
  unfold execFaultUnresolved
  split
  · split
    · split
      · extract_lets s1
        have h1 : s1.wf = true := wf_retryCopy hs k
        clear_value s1
        split
        · split
          · exact canonical_next.2 (wf_settle (wf_finishCopy ((wf_putCopy ..).trans h1) k))
          · exact canonical_next.2 h1
        · exact canonical_next.2 h1
      · exact hn
    · exact hn
  · exact hn

theorem canonical_execTokenRefill : Canonical (execTokenRefill s) := by
  grind [execTokenRefill, wf_refillTokens, canonical_next, State.wf]

theorem canonical_execOpenTileTimeout (tile : Nat) : Canonical (execOpenTileTimeout tile s) := by
  unfold execOpenTileTimeout
  split
  · split
    · exact canonical_next.2 (wf_closeTile hs tile)
    · exact canonical_next.2 hs
  · exact canonical_next.2 hs

theorem wf_breezeCount (lo n : Nat) : (breezeCount s lo n).wf = true := by grind [breezeCount, wf_addDfield]

theorem wf_breezeCheck (t : Nat) : (breezeCheck s t).wf = true := by
  grind [breezeCheck, wf_breezeCount, wf_failLog, wf_putCaddy, wf_sealCheck]

theorem canonical_execBreezeTile (corrected : Nat) : Canonical (execBreezeTile corrected s) := by
  grind [execBreezeTile, wf_breezeCheck, wf_breezeCount, wf_charge, wf_putDfield, canonical_next]

omit hs in
theorem canonical_withStream (k : Stream → Clause → Workgroup → Out) (hk : ∀ t c x, Canonical (k t c x)) :
    Canonical (withStream s k) := by
  grind [withStream, canonical_fault]

theorem wf_goStream (k : Nat) (x : Stream) (c : Clause) (len : Nat) : (goStream s k x c len).wf = true := by
  grind [goStream, wf_putStream]

theorem canonical_execMclaim (a b : BitVec 6) : Canonical (execMclaim a b s) := by
  grind [execMclaim, canonical_withStream, wf_bump, wf_goStream, canonical_next, wf_foldl]

theorem canonical_execMrel (a b : BitVec 6) : Canonical (execMrel a b s) := by
  grind [execMrel, canonical_withStream, wf_goStream, canonical_next, wf_foldl]

theorem canonical_execMload (a : BitVec 6) (sc tr : Bool) (size : MSize) (stride : BitVec 12) (off : BitVec 20) :
    Canonical (execMload a sc tr size stride off s) := by
  grind [execMload, canonical_withStream, wf_failStream, wf_goStream, canonical_next]

theorem canonical_execMstore (t : Code) (sc : Bool) (f : MStFmt) (stride : BitVec 12) (off : BitVec 20) :
    Canonical (execMstore t sc f stride off s) := by
  grind [execMstore, canonical_withStream, wf_failStream, wf_goStream, canonical_next]

theorem canonical_execMma (t : Code) (a b : BitVec 6) (f : MmaFmt) : Canonical (execMma t a b f s) := by
  unfold execMma
  grind [canonical_withStream, wf_checkLog, wf_failStream, wf_goStream, wf_putWg, canonical_next]

theorem canonical_execMzero (t : Code) : Canonical (execMzero t s) := by
  grind [execMzero, canonical_withStream, wf_failStream, wf_goStream, wf_putWg, canonical_next]

theorem canonical_execMwait (k : BitVec 4) : Canonical (execMwait k s) := by
  grind [execMwait, canonical_withStream, wf_goStream, wf_putStream, canonical_next]

theorem canonical_execMsig (k : BitVec 4) : Canonical (execMsig k s) := by
  grind [execMsig, canonical_withStream, wf_arrive, wf_goStream, canonical_next]

theorem canonical_execMend : Canonical (execMend s) := by
  grind [execMend, canonical_withStream, wf_endStream, canonical_next]

theorem wf_takeEntry (u : Nat) (t : Team) (w : Workgroup) (image : DWord) (win sl : Nat) :
    (takeEntry s u t w image win sl).wf = true := by
  grind [takeEntry, wf_drainAll, wf_nextId, wf_putStream, wf_putWg]

theorem canonical_execMstart (g : Code) (slot : BitVec 3) : Canonical (execMstart g slot s) := by
  grind [execMstart, canonical_parkTeam, canonical_teamWord, canonical_wordTrap, wf_asyncGo, wf_bump, wf_takeEntry,
    canonical_next]

theorem canonical_execReservationEntryGrant (u : Nat) : Canonical (execReservationEntryGrant u s) := by
  grind [execReservationEntryGrant, wf_putTeam, wf_takeEntry, canonical_next]

theorem canonical_execStreamAdmission (c : Nat) : Canonical (execStreamAdmission c s) := by
  grind [execStreamAdmission, wf_putStream, wf_putWg, canonical_next]

theorem wf_noteReady (cluster : Nat) : (noteReady s cluster).wf = true := by grind [noteReady, wf_putStream, wf_foldl]

theorem canonical_execStreamClauseFetch (st : Nat) : Canonical (execStreamClauseFetch st s) := by
  unfold execStreamClauseFetch
  split
  · exact canonical_next.2 hs
  next x _ =>
    split
    · exact canonical_next.2 hs
    next w _ =>
      split
      · exact canonical_next.2 hs
      · have h1 := wf_fetchClause hs (if w.agent then none else some w.part) (some w.core) x.pc
        split
        next e => rw [e] at h1; exact canonical_next.2 (wf_settle (wf_failStream h1 ..))
        next s1 e =>
          rw [e] at h1
          split
          · exact canonical_next.2 (wf_settle (wf_failStream h1 ..))
          · exact canonical_next.2 (wf_noteReady (wf_passBoundary ((wf_putStream ..).trans h1) _) _)

theorem canonical_execStreamOpRetire (st k : Nat) : Canonical (execStreamOpRetire st k s) := by
  grind [execStreamOpRetire, wf_failCheck, wf_lastTeamGone, wf_noteReady, wf_retireOp, wf_settle, canonical_next]

theorem wf_partTurn (st k : Nat) : (partTurn s st k).wf = true := by
  grind [partTurn, wf_failCheck, wf_settle, wf_somePart]

end Sys2Proof.Machine
end

section
/-! PROOFS. MemoryInvariant: whether a team or a stream issues, the turns that are no instruction, each instruction's
meaning, and a step. -/

namespace Sys2Proof.Machine

set_option Elab.async false

variable {s : State} (hs : s.wf = true)
include hs

theorem wf_touchState (u : Nat) (t : Team) (rs ps : List Nat) : (touchState s u t rs ps).wf = true := by
  grind [touchState, wf_putTeam, wf_refillPass, wf_refillRegister, wf_foldl]

theorem canonical_prepareIssue (u : Nat) (t : Team) (c : Clause) (w : Word) (i : Instr) :
    CanonicalIssue id (prepareIssue s u t c w i) := by
  unfold prepareIssue
  extract_lets cl n t' s1
  have h1 : s1.wf = true := wf_touchState hs ..
  clear_value s1
  split
  · exact wf_markWithheld hs _
  · split
    · exact wf_debit (s := { s1 with cur := u }) h1 ..
    · exact h1

theorem canonical_teamIssue (u : Nat) : CanonicalIssue Prod.snd (teamIssue s u) := by
  unfold teamIssue
  split
  · exact hs
  next t _ =>
    split
    · exact hs
    next c _ =>
      split
      · split
        next i _ w _ _ =>
          have h := canonical_prepareIssue hs u t c w i
          split
          next e => rw [e] at h; exact h
          next e => rw [e] at h; exact h
        · exact wf_takeTrap hs ..
      · exact hs

theorem canonical_streamIssue (k : Nat) : CanonicalIssue Prod.snd (streamIssue s k) := by
  unfold streamIssue
  split
  · exact hs
  next x _ =>
    split
    · exact hs
    next c _ =>
      split
      · exact hs
      · split
        · exact wf_failStream hs ..
        next i n _ =>
          extract_lets x' p
          split
          · exact wf_goStream hs ..
          · split
            · exact hs
            · have h : CanonicalIssue id (if p = 0 then .ok s else meter s x.cluster p x.rank (decide (x.rank = 64))) := by
                split
                · exact hs
                · exact canonical_meter hs ..
              split
              next e => rw [e] at h; exact h
              next e =>
                rw [e] at h
                extract_lets s1
                have h1 : s1.wf = true := wf_ite (wf_noteGrant h ..) h
                clear_value s1
                exact h1

theorem canonical_execIcinvCompletion (u : Nat) : Canonical (execIcinvCompletion u s) := by
  grind [execIcinvCompletion, wf_putTeam, canonical_next]

theorem wf_upset (x : Upset) : (upset s x).wf = true := by
  obtain ⟨hhbm, hhost, hscratch⟩ := wf_iff.1 hs
  have hb : s.bump.wf = true := wf_bump.trans hs
  unfold upset
  split
  · exact wf_ite (wf_iff.2 ⟨hhbm, hhost, Memory.wf_write _ _ hscratch⟩) hs
  · split
    · exact wf_ite ((wf_putWg ..).trans hb) hs
    · exact hs
  · split
    · exact wf_ite ((wf_putTeam ..).trans hb) hs
    · exact hs
  · split
    · exact wf_ite ((wf_putStream ..).trans hb) hs
    · exact hs
  · split
    · split
      · exact wf_ite ((wf_putWg ..).trans hb) hs
      · exact hs
    · exact hs
  · split
    · exact wf_ite hb hs
    · exact hs
  · exact wf_ite hs hs
  · exact wf_ite hs ((wf_putCaddy ..).trans (wf_withHbm hb (Memory.wf_write _ _ hhbm)))

theorem wf_nextTurn : (nextTurn s).2.wf = true := by
  unfold nextTurn
  split
  · exact hs
  · exact hs

theorem wf_otherTurn (a : Act) : (otherTurn s a).wf = true := by
  cases a with
  | drain u k => exact wf_drainOne hs ..
  | perform u k => exact wf_performLoad hs ..
  | streamPart st k => exact wf_partTurn hs ..
  | evict t => exact wf_closeTile hs t
  | upset x => exact wf_upset hs x
  | corrected => exact wf_breezeCount hs ..
  | bootDone => exact wf_bootVerify hs
  | forward => exact wf_forwardRecord hs
  | hostRead fn off n => exact wf_ite hs hs
  | hostWrite a l => exact wf_withHost hs (Memory.wf_write _ _ (wf_iff.1 hs).2.1)
  | msixEnable fn on => exact wf_ite hs hs
  | msixMask fn v on => exact wf_ite hs hs
  | hdm k d => exact wf_programHdm hs ..
  | event | issue | stream => exact hs

theorem canonical_choose (a : Act) : CanonicalIssue Prod.snd (choose s a) := by
  unfold choose
  split
  · split
    · exact hs
    · split
      · exact hs
      · exact hs
  · split
    · exact hs
    · exact canonical_teamIssue hs _
  · split
    · exact hs
    · exact canonical_streamIssue hs _
  · split
    · exact hs
    · exact wf_otherTurn hs _

theorem canonical_execMovx (d a : Code) : Canonical (execMovx d a s) := by
  grind [execMovx, canonical_laneWord, canonical_withTeam, canonical_wordTrap]

theorem canonical_execMovxw (a b : Code) : Canonical (execMovxw a b s) := by
  grind [execMovxw, canonical_withTeam, canonical_wordTrap, wf_bump, wf_putTeam, canonical_next]

theorem canonical_execPack8 (d a : Code) (fd : Fmt) (rm : Rm) : Canonical (execPack8 d a fd rm s) := by
  grind [execPack8, canonical_fpWord, canonical_withTeam, canonical_wordTrap]

theorem canonical_execUnpack (d a b : Code) (fs : Fmt) : Canonical (execUnpack d a b fs s) := by
  grind [execUnpack, canonical_laneWord, canonical_withTeam, canonical_wordTrap]

theorem canonical_execCvt (d a : Code) (fs fd : Fmt) (sat : Bool) (m : Mods) (rm : Rm) :
    Canonical (execCvt d a fs fd sat m rm s) := by
  grind [execCvt, canonical_fpWord, canonical_withTeam, canonical_wordTrap]

theorem canonical_execFmtset (n : BitVec 3) (a : Code) : Canonical (execFmtset n a s) := by
  grind [execFmtset, canonical_teamWord, canonical_wordTrap, wf_bump, wf_putTeam, canonical_next]

theorem wf_firstLock (leader : Nat) : (firstLock s leader).wf = true := by grind [firstLock, wf_putDfield, State.wf]

theorem wf_laterLock (leader : Nat) : (laterLock s leader).wf = true := by
  grind [laterLock, wf_bump, wf_putDfield, wf_rebasePtp, State.wf]

theorem wf_takeTime (leaderNs : Nat) : (takeTime s leaderNs).wf = true := by
  grind [takeTime, wf_firstLock, wf_laterLock, wf_putDfield, wf_putDreg, State.wf]

theorem canonical_execPtpMessageRx (m : PtpMsg) : Canonical (execPtpMessageRx m s) := by
  grind [execPtpMessageRx, wf_hearLeader, wf_takeTime, canonical_next, State.wf]

theorem canonical_execPtpRequestTx (pdelay : Bool) : Canonical (execPtpRequestTx pdelay s) := by
  grind [execPtpRequestTx, canonical_next, State.wf]

theorem canonical_execPtpHoldover : Canonical (execPtpHoldover s) := by
  grind [execPtpHoldover, wf_putDfield, canonical_next]

theorem canonical_execFirstLockComplete : Canonical (execFirstLockComplete s) := by
  grind [execFirstLockComplete, wf_putDfield, canonical_next, State.wf]

theorem canonical_execPtmDialogue : Canonical (execPtmDialogue s) := by
  grind [execPtmDialogue, wf_putDreg, canonical_next]

/-- Each instruction's meaning keeps the canonical form, by the lemma of its word or event. -/
theorem canonical_exec (i : Instr) : Canonical (exec i s) := by
  cases i with
  | iadd d a b => exact (canonical_binaryWord hs .. : Canonical (execIadd d a b s))
  | iaddLit d a lit => exact (canonical_literalWord hs .. : Canonical (execIaddLit d a lit s))
  | isub d a b => exact (canonical_binaryWord hs .. : Canonical (execIsub d a b s))
  | isubLit d a lit => exact (canonical_literalWord hs .. : Canonical (execIsubLit d a lit s))
  | imul d a b => exact (canonical_binaryWord hs .. : Canonical (execImul d a b s))
  | imulLit d a lit => exact (canonical_literalWord hs .. : Canonical (execImulLit d a lit s))
  | imulhS d a b => exact (canonical_binaryWord hs .. : Canonical (execImulhS d a b s))
  | imulhU d a b => exact (canonical_binaryWord hs .. : Canonical (execImulhU d a b s))
  | imad d a b c => exact (canonical_ternaryWord hs .. : Canonical (execImad d a b c s))
  | iminS d a b => exact (canonical_binaryWord hs .. : Canonical (execIminS d a b s))
  | iminSLit d a lit => exact (canonical_literalWord hs .. : Canonical (execIminSLit d a lit s))
  | iminU d a b => exact (canonical_binaryWord hs .. : Canonical (execIminU d a b s))
  | iminULit d a lit => exact (canonical_literalWord hs .. : Canonical (execIminULit d a lit s))
  | imaxS d a b => exact (canonical_binaryWord hs .. : Canonical (execImaxS d a b s))
  | imaxSLit d a lit => exact (canonical_literalWord hs .. : Canonical (execImaxSLit d a lit s))
  | imaxU d a b => exact (canonical_binaryWord hs .. : Canonical (execImaxU d a b s))
  | imaxULit d a lit => exact (canonical_literalWord hs .. : Canonical (execImaxULit d a lit s))
  | iabs d a => exact (canonical_unaryWord hs .. : Canonical (execIabs d a s))
  | icmp d a b cond => exact (canonical_binaryExtWord hs .. : Canonical (execIcmp d a b cond s))
  | lea d a b => exact (canonical_pairWord hs .. : Canonical (execLea d a b s))
  | leaX d a b ix sh => exact (canonical_pairWord hs .. : Canonical (execLeaX d a b ix sh s))
  | and d a b => exact (canonical_binaryWord hs .. : Canonical (execAnd d a b s))
  | andLit d a lit => exact (canonical_literalWord hs .. : Canonical (execAndLit d a lit s))
  | or d a b => exact (canonical_binaryWord hs .. : Canonical (execOr d a b s))
  | orLit d a lit => exact (canonical_literalWord hs .. : Canonical (execOrLit d a lit s))
  | xor d a b => exact (canonical_binaryWord hs .. : Canonical (execXor d a b s))
  | xorLit d a lit => exact (canonical_literalWord hs .. : Canonical (execXorLit d a lit s))
  | shl d a b => exact (canonical_binaryWord hs .. : Canonical (execShl d a b s))
  | shr d a b => exact (canonical_binaryWord hs .. : Canonical (execShr d a b s))
  | shrX d a b arith => exact (canonical_binaryExtWord hs .. : Canonical (execShrX d a b arith s))
  | rot d a b => exact (canonical_binaryWord hs .. : Canonical (execRot d a b s))
  | bfx d a b signed c => exact (canonical_ternaryWord hs .. : Canonical (execBfx d a b signed c s))
  | bfi d a b c => exact (canonical_laneWord hs .. : Canonical (execBfi d a b c s))
  | popc d a => exact (canonical_unaryWord hs .. : Canonical (execPopc d a s))
  | clz d a => exact (canonical_unaryWord hs .. : Canonical (execClz d a s))
  | brev d a => exact (canonical_unaryWord hs .. : Canonical (execBrev d a s))
  | sel d a b c => exact (canonical_ternaryWord hs .. : Canonical (execSel d a b c s))
  | mov d a => exact (canonical_unaryWord hs .. : Canonical (execMov d a s))
  | movLit d lit => exact (canonical_laneWord hs .. : Canonical (execMovLit d lit s))
  | movi d imm => exact (canonical_laneWord hs .. : Canonical (execMovi d imm s))
  | movx d a => exact canonical_execMovx hs d a
  | movxw a b => exact canonical_execMovxw hs a b
  | fadd d a b => exact (canonical_fpBinary hs .. : Canonical (execFadd d a b s))
  | faddX d a b m rm => exact (canonical_fpBinary hs .. : Canonical (execFaddX d a b m rm s))
  | fsub d a b => exact (canonical_fpBinary hs .. : Canonical (execFsub d a b s))
  | fsubX d a b m rm => exact (canonical_fpBinary hs .. : Canonical (execFsubX d a b m rm s))
  | fmul d a b => exact (canonical_fpBinary hs .. : Canonical (execFmul d a b s))
  | fmulX d a b m rm => exact (canonical_fpBinary hs .. : Canonical (execFmulX d a b m rm s))
  | ffma d a b m rm c => exact (canonical_fpWord hs .. : Canonical (execFfma d a b m rm c s))
  | fmin d a b => exact (canonical_fpMinMax hs .. : Canonical (execFmin d a b s))
  | fminX d a b m => exact (canonical_fpMinMax hs .. : Canonical (execFminX d a b m s))
  | fmax d a b => exact (canonical_fpMinMax hs .. : Canonical (execFmax d a b s))
  | fmaxX d a b m => exact (canonical_fpMinMax hs .. : Canonical (execFmaxX d a b m s))
  | fcmp d a b cond m => exact (canonical_laneWord hs .. : Canonical (execFcmp d a b cond m s))
  | frcp d a => exact (canonical_xfnWord hs .. : Canonical (execFrcp d a s))
  | frcpX d a m rm => exact (canonical_xfnWord hs .. : Canonical (execFrcpX d a m rm s))
  | frsq d a => exact (canonical_xfnWord hs .. : Canonical (execFrsq d a s))
  | frsqX d a m rm => exact (canonical_xfnWord hs .. : Canonical (execFrsqX d a m rm s))
  | fsqrt d a => exact (canonical_xfnWord hs .. : Canonical (execFsqrt d a s))
  | fsqrtX d a m rm => exact (canonical_xfnWord hs .. : Canonical (execFsqrtX d a m rm s))
  | fexp2 d a => exact (canonical_xfnWord hs .. : Canonical (execFexp2 d a s))
  | fexp2X d a m rm => exact (canonical_xfnWord hs .. : Canonical (execFexp2X d a m rm s))
  | flog2 d a => exact (canonical_xfnWord hs .. : Canonical (execFlog2 d a s))
  | flog2X d a m rm => exact (canonical_xfnWord hs .. : Canonical (execFlog2X d a m rm s))
  | fsin d a => exact (canonical_xfnWord hs .. : Canonical (execFsin d a s))
  | fsinX d a m rm => exact (canonical_xfnWord hs .. : Canonical (execFsinX d a m rm s))
  | fcos d a => exact (canonical_xfnWord hs .. : Canonical (execFcos d a s))
  | fcosX d a m rm => exact (canonical_xfnWord hs .. : Canonical (execFcosX d a m rm s))
  | padd d a b => exact (canonical_packedWord hs .. : Canonical (execPadd d a b s))
  | paddX d a b pf m rm => exact (canonical_packedWord hs .. : Canonical (execPaddX d a b pf m rm s))
  | pmul d a b => exact (canonical_packedWord hs .. : Canonical (execPmul d a b s))
  | pmulX d a b pf m rm => exact (canonical_packedWord hs .. : Canonical (execPmulX d a b pf m rm s))
  | pfma d a b pf m rm c => exact (canonical_packedWord hs .. : Canonical (execPfma d a b pf m rm c s))
  | pack8 d a fd rm => exact canonical_execPack8 hs d a fd rm
  | unpack d a b fs => exact canonical_execUnpack hs d a b fs
  | cvt d a fs fd sat m rm => exact canonical_execCvt hs d a fs fd sat m rm
  | fmtset n a => exact canonical_execFmtset hs n a
  | fmtget d n => exact (canonical_laneWord hs .. : Canonical (execFmtget d n s))
  | shfl d a b mode => exact (canonical_laneWord hs .. : Canonical (execShfl d a b mode s))
  | vote d a b mode => exact (canonical_laneWord hs .. : Canonical (execVote d a b mode s))
  | redux d a mode => exact (canonical_laneWord hs .. : Canonical (execRedux d a mode s))
  | bcast d a b => exact (canonical_laneWord hs .. : Canonical (execBcast d a b s))
  | ldB d b slot off => exact (canonical_loadWord hs .. : Canonical (execLdB d b slot off s))
  | ldBX d b slot off signed acq => exact (canonical_loadWord hs .. : Canonical (execLdBX d b slot off signed acq s))
  | ldH d b slot off => exact (canonical_loadWord hs .. : Canonical (execLdH d b slot off s))
  | ldHX d b slot off signed acq => exact (canonical_loadWord hs .. : Canonical (execLdHX d b slot off signed acq s))
  | ldW d b slot off => exact (canonical_loadWord hs .. : Canonical (execLdW d b slot off s))
  | ldWX d b slot off acq => exact (canonical_loadWord hs .. : Canonical (execLdWX d b slot off acq s))
  | ldD d b slot off => exact (canonical_loadWord hs .. : Canonical (execLdD d b slot off s))
  | ldDX d b slot off acq => exact (canonical_loadWord hs .. : Canonical (execLdDX d b slot off acq s))
  | ldQ d b slot off => exact (canonical_loadWord hs .. : Canonical (execLdQ d b slot off s))
  | ldQX d b slot off acq => exact (canonical_loadWord hs .. : Canonical (execLdQX d b slot off acq s))
  | stB d b slot off => exact (canonical_storeWord hs .. : Canonical (execStB d b slot off s))
  | stBX d b slot off rel => exact (canonical_storeWord hs .. : Canonical (execStBX d b slot off rel s))
  | stH d b slot off => exact (canonical_storeWord hs .. : Canonical (execStH d b slot off s))
  | stHX d b slot off rel => exact (canonical_storeWord hs .. : Canonical (execStHX d b slot off rel s))
  | stW d b slot off => exact (canonical_storeWord hs .. : Canonical (execStW d b slot off s))
  | stWX d b slot off rel => exact (canonical_storeWord hs .. : Canonical (execStWX d b slot off rel s))
  | stD d b slot off => exact (canonical_storeWord hs .. : Canonical (execStD d b slot off s))
  | stDX d b slot off fr rel => exact (canonical_storeWord hs .. : Canonical (execStDX d b slot off fr rel s))
  | stQ d b slot off => exact (canonical_storeWord hs .. : Canonical (execStQ d b slot off s))
  | stQX d b slot off rel => exact (canonical_storeWord hs .. : Canonical (execStQX d b slot off rel s))
  | ldt d b slot off => exact canonical_execLdt hs d b slot off
  | atom d b slot off size c op rel acq => exact canonical_execAtom hs d b slot off size c op rel acq
  | fence ord scope => exact canonical_execFence hs ord scope
  | accrd d a => exact canonical_execAccrd hs d a
  | accwr a b => exact canonical_execAccwr hs a b
  | copy g nb slot keyovr reseal arrive => exact canonical_execCopy hs g nb slot keyovr reseal arrive
  | copyc g nb slot keyovr reseal arrive => exact canonical_execCopyc hs g nb slot keyovr reseal arrive
  | nbinit a nb slot => exact canonical_execNbinit hs a nb slot
  | nbarr nb slot => exact canonical_execNbarr hs nb slot
  | nbwait d nb slot det => exact canonical_execNbwait hs d nb slot det
  | nbsync d nb slot det => exact canonical_execNbsync hs d nb slot det
  | nbinv nb slot => exact canonical_execNbinv hs nb slot
  | semsig g slot op => exact canonical_execSemsig hs g slot op
  | spawn g slot => exact canonical_execSpawn hs g slot
  | cancel level => exact canonical_execCancel hs level
  | mark tag => exact canonical_execMark hs tag
  | cut d tag => exact canonical_execCut hs d tag
  | graft g slot => exact canonical_execGraft hs g slot
  | slfree g slot => exact canonical_execSlfree hs g slot
  | mstart g slot => exact canonical_execMstart hs g slot
  | ifL a => exact canonical_execIfL hs a
  | elseL => exact canonical_execElseL hs
  | endifL => exact canonical_execEndifL hs
  | loopL => exact canonical_execLoopL hs
  | breakL p n => exact canonical_execBreakL hs p n
  | contL p n => exact canonical_execContL hs p n
  | endloop off => exact canonical_execEndloop hs off
  | bra off => exact canonical_execBra hs off
  | brv off p off2 => exact canonical_execBrv hs off p off2
  | call off => exact canonical_execCall hs off
  | ret => exact canonical_execRet hs
  | jmpi a => exact canonical_execJmpi hs a
  | exit => exact canonical_execExit hs
  | nop => exact (canonical_skipWord hs .. : Canonical (execNop s))
  | pause imm => exact canonical_execPause hs imm
  | sysr d n => exact canonical_execSysr hs d n
  | sysw src n => exact canonical_execSysw hs src n
  | trap imm => exact canonical_execTrap hs imm
  | rett => exact canonical_execRett hs
  | bkpt imm => exact canonical_execBkpt hs imm
  | wfi d a => exact canonical_execWfi hs d a
  | icinv scope => exact canonical_execIcinv hs scope
  | tlbinv a b scope ng => exact canonical_execTlbinv hs a b scope ng
  | mclaim a b => exact canonical_execMclaim hs a b
  | mrel a b => exact canonical_execMrel hs a b
  | mload a sc tr size stride off => exact canonical_execMload hs a sc tr size stride off
  | mstore t sc f stride off => exact canonical_execMstore hs t sc f stride off
  | mma t a b f => exact canonical_execMma hs t a b f
  | mzero t => exact canonical_execMzero hs t
  | mwait k => exact canonical_execMwait hs k
  | msig k => exact canonical_execMsig hs k
  | mend => exact canonical_execMend hs
  | clauseFetch t => exact canonical_execClauseFetch hs t
  | resultLanding t k => exact canonical_execResultLanding hs t k
  | registerRefill t r => exact canonical_execRegisterRefill hs t r
  | pauseExpiry t => exact canonical_execPauseExpiry hs t
  | launchPacket q => exact canonical_execLaunchPacket hs q
  | copyPacket q => exact canonical_execCopyPacket hs q
  | graphPacket q => exact canonical_execGraphPacket hs q
  | waitPacket q => exact canonical_execWaitPacket hs q
  | signalPacket q => exact canonical_execSignalPacket hs q
  | signalPerform q n => exact canonical_execSignalPerform hs q n
  | phasePacket q => exact canonical_execPhasePacket hs q
  | cancelPacket q => exact canonical_execCancelPacket hs q
  | timefencePacket q => exact canonical_execTimefencePacket hs q
  | timefenceRelease q => exact canonical_execTimefenceRelease hs q
  | nopPacket q => exact canonical_execNopPacket hs q
  | packetReread q => exact canonical_execPacketReread hs q
  | queueStall q => exact canonical_execQueueStall hs q
  | waitReread q => exact canonical_next.2 (wf_rereadWait hs q)
  | waitSemStall q => exact canonical_execWaitSemStall hs q
  | heldLaunchStart => exact canonical_next.2 (wf_startHeld hs)
  | workgroupAdmission p => exact canonical_next.2 (wf_admitWorkgroup hs p)
  | passedOverBlock l => exact canonical_execPassedOverBlock hs l
  | ophintHoldEnd l => exact canonical_execOphintHoldEnd hs l
  | workgroupEnd g => exact canonical_next.2 (wf_endWorkgroup hs g)
  | cancelNoticeTimeout t => exact canonical_execCancelNoticeTimeout hs t
  | preemptWrite n v => exact canonical_next.2 (wf_writePreempt hs n v)
  | foldExpansion core => exact canonical_next.2 (wf_expandCore hs core)
  | workgroupSave g => exact canonical_next.2 (wf_saveForRequest hs g)
  | workgroupRestore g core => exact canonical_next.2 (wf_restoreWorkgroup hs g core)
  | sliceEnd n => exact canonical_execSliceEnd hs n
  | tenantSwitch c n => exact canonical_next.2 (wf_switchTenant hs c n)
  | overrunSave n us => exact canonical_execOverrunSave hs n us
  | overrunReset n us => exact canonical_execOverrunReset hs n us
  | walkCompletion core part va wr => exact canonical_execWalkCompletion hs core part va wr
  | copyTile k => exact canonical_execCopyTile hs k
  | faultRetry k => exact canonical_execFaultRetry hs k
  | faultUnresolved k => exact canonical_execFaultUnresolved hs k
  | semsigPerform k => exact canonical_execSemsigPerform hs k
  | tokenRefill => exact canonical_execTokenRefill hs
  | openTileTimeout tile => exact canonical_execOpenTileTimeout hs tile
  | breezeTile corrected => exact canonical_execBreezeTile hs corrected
  | breezeClr => exact canonical_execBreezeClr hs
  | tlbinvCompletion t => exact canonical_execTlbinvCompletion hs t
  | icinvCompletion t => exact canonical_execIcinvCompletion hs t
  | wfiResume t => exact canonical_execWfiResume hs t
  | reservationEntryGrant t => exact canonical_execReservationEntryGrant hs t
  | streamAdmission c => exact canonical_execStreamAdmission hs c
  | streamClauseFetch st => exact canonical_execStreamClauseFetch hs st
  | streamOpRetire st k => exact canonical_execStreamOpRetire hs st k
  | ballastPass c => exact canonical_execBallastPass hs c
  | allowanceRegulation n watts => exact canonical_execAllowanceRegulation hs n watts
  | notifyStore fn o v => exact canonical_next.2 (wf_notifyStore hs fn o v)
  | kettleUngate n => exact canonical_execKettleUngate hs n
  | qctlWrite q v => exact canonical_execQctlWrite hs q v
  | ingFiltWrite f v => exact canonical_execIngFiltWrite hs f v
  | hevtWrite n v => exact canonical_execHevtWrite hs n v
  | nqlatchWrite n v => exact canonical_execNqlatchWrite hs n v
  | registerWrite r => exact canonical_execRegisterWrite hs r
  | cxlMemRead a len => exact canonical_execCxlMemRead hs a len
  | cxlMemWrite a bytes => exact canonical_execCxlMemWrite hs a bytes
  | ptmDialogue => exact canonical_execPtmDialogue hs
  | doeRequest nonce => exact canonical_execDoeRequest hs nonce
  | flr n => exact canonical_execFlr hs n
  | ptpMessageRx m => exact canonical_execPtpMessageRx hs m
  | ptpRequestTx pdelay => exact canonical_execPtpRequestTx hs pdelay
  | ptpHoldover => exact canonical_execPtpHoldover hs
  | ingressFrame f => exact canonical_next.2 (wf_receiveFrame hs f)
  | connect n => exact canonical_execConnect hs n
  | disconnect n => exact canonical_execDisconnect hs n
  | regrant => exact canonical_next.2 (wf_writeConn hs ..)
  | partConnDone => exact canonical_execPartConnDone hs
  | retireWrite k v => exact canonical_execRetireWrite hs k v
  | quiesce c dest => exact canonical_execQuiesce hs c dest
  | clkgate c dest => exact canonical_execClkgate hs c dest
  | pwroff c dest => exact canonical_execPwroff hs c dest
  | powerup c dest => exact canonical_execPowerup hs c dest
  | clpwrOn c dest => exact canonical_execClpwrOn hs c dest
  | clpwrDone c => exact canonical_next.2 (wf_endPower hs c)
  | clWake c => exact canonical_next.2 (wf_wakeCluster hs c)
  | retSave c addr => exact canonical_execRetSave hs c addr
  | retRestore c addr => exact canonical_execRetRestore hs c addr
  | retDone c => exact canonical_next.2 (wf_endRetention hs c)
  | agentDb => exact canonical_next.2 (wf_ringAgents hs)
  | operatingPointChange c => exact canonical_execOperatingPointChange hs c
  | thermalLimit die temp => exact canonical_execThermalLimit hs die temp
  | thermalStop die temp => exact canonical_execThermalStop hs die temp
  | deviceReset => exact canonical_next.2 (wf_resetDevice hs)
  | bootGo => exact canonical_next.2 (wf_bootDevice hs)
  | run fn => exact canonical_execRun hs fn
  | keyload fn => exact canonical_execKeyload hs fn
  | keyclear fn => exact canonical_execKeyclear hs fn
  | attest fn => exact canonical_execAttest hs fn
  | undefinedOpcodePacket q => exact canonical_execUndefinedOpcodePacket hs q
  | badkindRequest fn => exact canonical_execBadkindRequest hs fn
  | firstLockComplete => exact canonical_execFirstLockComplete hs
  | periodStart n => exact canonical_execPeriodStart hs n
  | linkTraining width rate => exact canonical_execLinkTraining hs width rate

theorem canonical_step : Canonical (step s) := by
  have h := canonical_choose (wf_nextTurn hs) (nextTurn s).1
  unfold step
  split
  next e => rw [e] at h; exact canonical_exec h _
  next e => rw [e] at h; exact canonical_next.2 h

omit hs in
/-- Settles O59: no operation takes a memory out of its canonical form, for a write keeps it (Memory.wf_write), a clearing
keeps it (Memory.wf_clear), and every other operation leaves the memories alone or goes through these. -/
theorem memoryInvariant : Obligations.MemoryInvariant := by
  unfold Obligations.MemoryInvariant
  intro s t hs h
  have hc := canonical_step hs
  rw [h] at hc
  exact canonical_next.1 hc

end Sys2Proof.Machine
end

section
/-! PROOFS. ParkingWords: WFI, TLBINV, ICINV and MSTART at issue, and the taking of a reservation entry (R62, R163, R164, R230 to
R232, R242, R271, R334, R418, R452). -/

namespace Sys2Proof.Machine

set_option Elab.async false

open Sys2Proof.Claims

/-! ### Tables -/

/-- A table whose every entry has gone through f. -/
theorem fget_mapEntries {α : Type} (f : α → α) (m : FMap (Option α)) (k : Nat) :
    fget noEntry (m.map fun e : Nat × Option α => (e.1, e.2.map f)) k = (fget noEntry m k).map f := by
  induction m with
  | nil => rfl
  | cons e m ih =>
    obtain ⟨j, v⟩ := e
    by_cases same : j = k <;> simp [fget, same, ih]

/-! ### The registers of a group as numbers (R87, R231) -/

section group
variable (k : Nat) (t : Team) (g : Code) (l : Nat)

theorem groupBytes_four : groupBytes k t g 4 l =
    toBytes 4 (readReg k t g.toNat l).toNat ++ (toBytes 4 (readReg k t (g.toNat + 1) l).toNat ++
      (toBytes 4 (readReg k t (g.toNat + 2) l).toNat ++ toBytes 4 (readReg k t (g.toNat + 3) l).toNat)) := by
  simp [groupBytes, List.range, List.range.loop]

theorem num_group_pair : num (groupBytes k t g 4 l) 0 8 = (pair k t g l).toNat := by
  have lo := (readReg k t g.toNat l).isLt
  have hi := (readReg k t (g.toNat + 1) l).isLt
  rw [groupBytes_four, pair, BitVec.toNat_append, ← Nat.shiftLeft_add_eq_or_of_lt lo, Nat.shiftLeft_eq]
  simp [num, toBytes, ofBytes]
  omega

theorem num_group_third : num (groupBytes k t g 4 l) 8 4 = (readReg k t (g.toNat + 2) l).toNat := by
  have lt := (readReg k t (g.toNat + 2) l).isLt
  rw [groupBytes_four]
  simp [num, toBytes, ofBytes]
  omega

theorem num_group_fourth : num (groupBytes k t g 4 l) 12 4 = (readReg k t (g.toNat + 3) l).toNat := by
  have lt := (readReg k t (g.toNat + 3) l).isLt
  rw [groupBytes_four]
  simp [num, toBytes, ofBytes]
  omega

end group

/-! ### WFI and TLBINV -/

section words
variable {s : State} {t : Team} {c : Clause} (h : Issues s t c) {l0 : Nat} (low : t.lowest = some l0)
include h low

theorem wfi_eq (d a : Code) : exec (.wfi d a) s =
    if t.priv < 2 then wordTrap s t c 0x13 0
    else parkTeam s.bump t (.wfi d (if (reads s t a l0).toNat = 0 then none else some (s.ns + 1000 * (reads s t a l0).toNat))) := by
  rw [exec_wfi, execWfi, teamWord_eq h low]

theorem tlbinv_eq (a b : Code) (scope : InvScope) (ng : Bool) : exec (.tlbinv a b scope ng) s =
    if t.priv = 0 ∨ (scope = .dev ∧ t.priv < 2) then wordTrap s t c 0x13 0
    else parkTeam s.bump t (.tlbinv ((pair s.fresh t a l0).toNat / 2 ^ 16 % 2 ^ 41 * 2 ^ 16)
      (2 ^ 16 * (reads s t b l0).toNat) scope ng) := by
  rw [exec_tlbinv, execTlbinv, teamWord_eq h low]
  rfl

end words

/-! ### ICINV -/

theorem foldl_dropLoop_frame (l : List Nat) (s : State) :
    l.foldl dropLoop s = { s with loopBuf := (l.foldl dropLoop s).loopBuf } := by
  induction l generalizing s with
  | nil => rfl
  | cons k l ih => rw [List.foldl_cons, ih]; rfl

theorem loopBuf_dropLoop (s : State) (j k : Nat) :
    fget noClauses (dropLoop s j).loopBuf k = if k = j then [] else fget noClauses s.loopBuf k :=
  fget_fset noClauses s.loopBuf j k []

theorem loopBuf_foldl_dropLoop (l : List Nat) (s : State) (k : Nat) :
    fget noClauses (l.foldl dropLoop s).loopBuf k = if k ∈ l then [] else fget noClauses s.loopBuf k := by
  induction l generalizing s with
  | nil => simp
  | cons j l ih =>
    rw [List.foldl_cons, ih, loopBuf_dropLoop]
    by_cases same : k = j <;> by_cases mem : k ∈ l <;> simp [same, mem]

/-- A team of one of some cores has no clause fetched and not started. -/
def Team.dropped (s : State) (cores : List Nat) (t : Team) : Team :=
  if cores.contains (teamCore s t) then { t with clause := t.clause.filter fun c => c.started } else t

/-- A stream of one of some cores' clusters has no clause fetched and not started. -/
def Stream.dropped (cores : List Nat) (x : Stream) : Stream :=
  if cores.any fun k => k / 4 = x.cluster then { x with clause := x.clause.filter fun c => c.started } else x

theorem dropPrefetched_team (s : State) (cores : List Nat) (u : Nat) :
    (dropPrefetched s cores).team u = (s.team u).map fun t => t.dropped s cores := fget_mapEntries _ _ _

theorem dropPrefetched_stream (s : State) (cores : List Nat) (k : Nat) :
    (dropPrefetched s cores).stream k = (s.stream k).map fun x => x.dropped cores := fget_mapEntries _ _ _

theorem Team.dropped_eq (s : State) (cores : List Nat) (t : Team) :
    t.dropped s cores = { t with clause := (t.dropped s cores).clause } := by
  unfold Team.dropped; split <;> rfl

theorem Team.dropped_wg (s : State) (cores : List Nat) (t : Team) : (t.dropped s cores).wg = t.wg := by
  rw [Team.dropped_eq]

theorem Team.dropped_started {s : State} {cores : List Nat} {t : Team} (mem : teamCore s t ∈ cores) {x : Clause}
    (has : (t.dropped s cores).clause = some x) : x.started = true := by
  rw [Team.dropped, if_pos (by simpa using mem)] at has
  exact (Option.filter_eq_some_iff.1 has).2

theorem Team.dropped_of_started {s : State} {cores : List Nat} {t : Team} {c : Clause} (has : t.clause = some c)
    (started : c.started = true) : t.dropped s cores = t := by
  have same : t.clause.filter (fun c => c.started) = t.clause := by rw [has]; simp [started]
  unfold Team.dropped
  split
  · rw [same]
  · rfl

theorem Stream.dropped_started {cores : List Nat} {x : Stream} {k : Nat} (mem : k ∈ cores) (at_ : x.cluster = k / 4) {c : Clause}
    (has : (x.dropped cores).clause = some c) : c.started = true := by
  rw [Stream.dropped, if_pos (List.any_eq_true.2 ⟨k, mem, by simp [at_]⟩)] at has
  exact (Option.filter_eq_some_iff.1 has).2

theorem Stream.dropped_cluster (cores : List Nat) (x : Stream) : (x.dropped cores).cluster = x.cluster := by
  unfold Stream.dropped; split <;> rfl

theorem StoreSide.teamCore {s s' : State} (h : StoreSide s s') {t t' : Team} (wg : t'.wg = t.wg) :
    teamCore s' t' = teamCore s t := by
  rw [Machine.teamCore, Machine.teamCore, wg]
  have shared := h.2.2 t.wg
  unfold SharedSide at shared
  cases has : s.wg t.wg with
  | none => rw [has] at shared; rw [shared]
  | some w =>
    rw [has] at shared
    obtain ⟨w', has', same⟩ := shared
    rw [has', same]
    rfl

/-- The state in which ICINV has performed its team's stores and dropped what its scope's cores have fetched. -/
def icinvState (s : State) (t : Team) (scope : InvScope) : State :=
  dropPrefetched ((scopeCores s t scope).foldl dropLoop (drainAll s s.cur)) (scopeCores s t scope)

section icinvState
variable (s : State) (t : Team) (scope : InvScope)

theorem icinvState_eq : icinvState s t scope = { drainAll s s.cur with
    teams := (icinvState s t scope).teams, streams := (icinvState s t scope).streams
    loopBuf := (icinvState s t scope).loopBuf } := by
  unfold icinvState
  rw [foldl_dropLoop_frame]
  rfl

theorem icinvState_frame : icinvState s t scope = { s with
    teams := (icinvState s t scope).teams, wgs := (icinvState s t scope).wgs, scratch := (icinvState s t scope).scratch
    scratchBad := (icinvState s t scope).scratchBad, streams := (icinvState s t scope).streams
    loopBuf := (icinvState s t scope).loopBuf, nextUid := (icinvState s t scope).nextUid } := by
  have eq := icinvState_eq s t scope
  rw [(StoreSide.drainAll s s.cur).1] at eq
  rw [eq]

theorem icinvState_loopBuf {k : Nat} (mem : k ∈ scopeCores s t scope) :
    fget noClauses (icinvState s t scope).loopBuf k = [] := by
  refine Eq.trans (loopBuf_foldl_dropLoop ..) (if_pos mem)

theorem icinvState_team (u : Nat) : (icinvState s t scope).team u =
    ((drainAll s s.cur).team u).map fun y =>
      y.dropped ((scopeCores s t scope).foldl dropLoop (drainAll s s.cur)) (scopeCores s t scope) := by
  rw [icinvState, dropPrefetched_team, foldl_dropLoop_frame]
  rfl

theorem icinvState_stream (k : Nat) :
    (icinvState s t scope).stream k = (s.stream k).map fun x => x.dropped (scopeCores s t scope) := by
  rw [icinvState, dropPrefetched_stream, foldl_dropLoop_frame, (StoreSide.drainAll s s.cur).1]
  rfl

theorem teamCore_dropping (cores : List Nat) {y y' : Team} (wg : y'.wg = y.wg) :
    teamCore (cores.foldl dropLoop (drainAll s s.cur)) y' = teamCore s y := by
  rw [foldl_dropLoop_frame]
  exact (StoreSide.drainAll s s.cur).teamCore wg

/-- No team of the scope's cores has a clause fetched and not started. -/
theorem icinvState_started {u : Nat} {y : Team} (has : (icinvState s t scope).team u = some y)
    (mem : teamCore s y ∈ scopeCores s t scope) {x : Clause} (clause : y.clause = some x) : x.started = true := by
  rw [icinvState_team] at has
  obtain ⟨y', -, rfl⟩ := Option.map_eq_some_iff.1 has
  refine Team.dropped_started ?_ clause
  rwa [teamCore_dropping s (scopeCores s t scope) (Team.dropped_wg _ _ y').symm]

/-- No stream of the scope's cores' clusters has. -/
theorem icinvState_streamStarted {u k : Nat} {y : Stream} (has : (icinvState s t scope).stream u = some y)
    (mem : k ∈ scopeCores s t scope) (at_ : y.cluster = k / 4) {x : Clause} (clause : y.clause = some x) : x.started = true := by
  rw [icinvState_stream] at has
  obtain ⟨y', -, rfl⟩ := Option.map_eq_some_iff.1 has
  exact Stream.dropped_started mem ((Stream.dropped_cluster ..).symm.trans at_) clause

/-- What ICINV's issue makes of a team: its window and its clause. -/
theorem icinvState_cur {u : Nat} {y : Team} (team : s.team u = some y) : ∃ y1 y2, (drainAll s s.cur).team u = some y1 ∧
    SameButWindow y y1 ∧ (icinvState s t scope).team u = some y2 ∧ y2 = { y1 with clause := y2.clause } ∧
    (∀ c, y.clause = some c → c.started = true → y2.clause = some c) := by
  obtain ⟨y1, has, same⟩ := (StoreSide.drainAll s s.cur).team team
  have clause : y1.clause = y.clause := by rw [same.1]
  refine ⟨y1, _, has, same, by rw [icinvState_team, has]; rfl, Team.dropped_eq .., fun c fetched started => ?_⟩
  rw [Team.dropped_of_started (clause.trans fetched) started, clause, fetched]

end icinvState

section icinv
variable {s : State} {t : Team} {c : Clause} (h : Issues s t c) {l0 : Nat} (low : t.lowest = some l0)
include h low

theorem icinv_refused {scope : InvScope} (bad : scope = .dev ∧ t.priv < 2) :
    exec (.icinv scope) s = wordTrap s t c 0x13 0 := by
  rw [exec_icinv, execIcinv, teamWord_eq h low, if_pos bad]

/-- ICINV parks with the teams and streams that it waits for. -/
theorem icinv_parks {scope : InvScope} (good : ¬ (scope = .dev ∧ t.priv < 2)) : ∃ t1,
    (icinvState s t scope).team s.cur = some t1 ∧ t1.stores = [] ∧
    exec (.icinv scope) s = .next ((icinvState s t scope).putTeam s.cur
      { t1 with park := .icinv scope (icinvTeams s s.cur t scope) }) ∧
    (∃ y, SameButWindow t y ∧ t1 = { y with clause := t1.clause }) ∧ (c.started = true → t1.clause = some c) := by
  obtain ⟨team, running, clause⟩ := h
  have cur : (icinvState s t scope).cur = s.cur := by rw [icinvState_frame]
  obtain ⟨y, t1, drained, same, has, bare, kept⟩ := icinvState_cur s t scope team
  have none := (drainAll_stores drained).1
  refine ⟨t1, has, by rw [bare]; exact none, ?_, ⟨y, same, bare⟩, kept c clause⟩
  rw [exec_icinv, execIcinv, teamWord_eq ⟨team, running, clause⟩ low, if_neg good]
  change (match (icinvState s t scope).team (icinvState s t scope).cur with
    | Option.none => (.next (icinvState s t scope) : Out)
    | some t1 => parkTeam (icinvState s t scope) t1 (.icinv scope (icinvTeams s s.cur t scope))) = _
  rw [cur, has]
  simp only [parkTeam, cur]

end icinv

/-! ### The taking of a reservation entry (R230, R232, R242) -/

/-- The stream of a new reservation entry. -/
def entryStream (s : State) (t : Team) (w : Workgroup) (image : DWord) (win slots : Nat) : Stream :=
  { wg := t.wg, cluster := w.core / 4, image := image, w := win, s := slots, fmt := t.fmt
    rounds := fsets zeroNat [] ((List.range 16).map fun i => (i, (w.bar i).round))
    pc := image, clause := none, slot := 0, rank := launchRankOf s t.launch, readyAt := none, waited := 0, age := s.nextUid
    admitted := false, slots := [], inflight := [], mwait := none }

theorem entryStream_round (s : State) (t : Team) (w : Workgroup) (image : DWord) (win slots : Nat) {k : Nat} (lt : k < 16) :
    fget zeroNat (entryStream s t w image win slots).rounds k = (w.bar k).round :=
  fget_fsets_map (key := fun i => i) zeroNat (fun _ _ same => same) (List.mem_range.2 lt)

section entry
variable {s : State} {t : Team} {w : Workgroup} (wg : s.wg t.wg = some w) (u : Nat) (image : DWord) (win slots : Nat)
include wg

theorem takeEntry_eq : ∃ w1 : Workgroup, w1 = { w with shared := w1.shared, sharedBad := w1.sharedBad } ∧
    takeEntry s u t w image win slots =
      ((drainAll s.nextId u).putStream s.nextUid (entryStream s t w image win slots)).putWg t.wg
        { w1 with stream := some s.nextUid } := by
  have side := StoreSide.drainAll s.nextId u
  have shared := side.2.2 t.wg
  rw [SharedSide, show s.nextId.wg t.wg = some w from wg] at shared
  obtain ⟨w1, has, same⟩ := shared
  have rank : launchRankOf (drainAll s.nextId u) t.launch = launchRankOf s t.launch := by rw [side.1]; rfl
  refine ⟨w1, same, ?_⟩
  rw [takeEntry, has, rank]
  rfl

theorem takeEntry_team (v : Nat) : (takeEntry s u t w image win slots).team v = (drainAll s.nextId u).team v := by
  obtain ⟨w1, -, eq⟩ := takeEntry_eq wg u image win slots
  rw [eq]
  rfl

theorem takeEntry_stream : (takeEntry s u t w image win slots).stream s.nextUid = some (entryStream s t w image win slots) := by
  obtain ⟨w1, -, eq⟩ := takeEntry_eq wg u image win slots
  rw [eq]
  exact State.stream_putStream_same ..

theorem takeEntry_wg : ∃ w1, (takeEntry s u t w image win slots).wg t.wg = some w1 ∧ w1.stream = some s.nextUid := by
  obtain ⟨w1, -, eq⟩ := takeEntry_eq wg u image win slots
  exact ⟨_, by rw [eq]; exact State.wg_putWg_same .., rfl⟩

theorem takeEntry_otherStream {k : Nat} (other : k ≠ s.nextUid) :
    (takeEntry s u t w image win slots).stream k = s.stream k := by
  obtain ⟨w1, -, eq⟩ := takeEntry_eq wg u image win slots
  rw [eq, State.stream_putWg, State.stream_putStream_other _ _ other, (StoreSide.drainAll s.nextId u).1]
  rfl

theorem takeEntry_shared {g : Nat} (other : g ≠ t.wg) : SharedSide s (takeEntry s u t w image win slots) g := by
  obtain ⟨w1, -, eq⟩ := takeEntry_eq wg u image win slots
  have shared := (StoreSide.drainAll s.nextId u).2.2 g
  have same : (takeEntry s u t w image win slots).wg g = (drainAll s.nextId u).wg g := by
    rw [eq, State.wg_putWg_other _ _ other, State.wg_putStream]
  unfold SharedSide at shared ⊢
  rwa [same]

theorem takeEntry_window (v : Nat) : WindowSide s (takeEntry s u t w image win slots) v := by
  have window := (StoreSide.drainAll s.nextId u).2.1 v
  unfold WindowSide at window ⊢
  rwa [takeEntry_team wg]

end entry

theorem streamEntry : Claims.StreamEntry := by
  intro s t w u win slots image wg
  obtain ⟨w1, has, stream⟩ := takeEntry_wg wg u image win slots
  exact ⟨entryStream s t w image win slots, w1, takeEntry_stream wg u image win slots, rfl, rfl, rfl, rfl, rfl, rfl, rfl,
    fun k lt => entryStream_round s t w image win slots lt, rfl, rfl, rfl, rfl, rfl, fun _ => rfl, has, stream,
    fun k other => takeEntry_otherStream wg u image win slots other,
    fun g other => takeEntry_shared wg u image win slots other, takeEntry_window wg u image win slots⟩

/-! ### MSTART -/

theorem asyncGo_eq {s : State} {u : Nat} {t : Team} (team : s.team u = some t) (slot : BitVec 3) (c : Clause) :
    asyncGo s u slot c = s.putTeam u ({ t with nextWord := t.nextWord + 1 }.advance c 1) := by
  rw [asyncGo, team]
  simp only [addPend_nil]

/-- What the third register of MSTART's group asks: an unusable word (R231). -/
abbrev startUnfit (d : Nat) (r : Word) : Prop := d / 2 ^ 9 % 2 ^ 7 ≠ 0 ∨ d / 2 ^ 23 ≠ 0 ∨ r ≠ 0

section checks
variable {k : Nat} {t : Team} {g : Code} {l : Nat}

theorem mstartFail_image (bad : (pair k t g l).toNat % 16 ≠ 0 ∨ 2 ^ 57 ≤ (pair k t g l).toNat) :
    mstartFail (groupBytes k t g 4 l) = some (5, pair k t g l) := by
  simp only [mstartFail, num_group_pair, if_pos bad, BitVec.ofNat_toNat, BitVec.setWidth_eq]

variable (aligned : (pair k t g l).toNat % 16 = 0) (low : (pair k t g l).toNat < 2 ^ 57)
include aligned low

theorem mstartFail_good_image : mstartFail (groupBytes k t g 4 l) =
    (let d := (readReg k t (g.toNat + 2) l).toNat
     if d % 2 ^ 9 = 0 ∨ 256 < d % 2 ^ 9 ∨ startUnfit d (readReg k t (g.toNat + 3) l) then some (0x12, 0)
     else if d / 2 ^ 16 % 2 ^ 7 = 0 ∨ 64 < d / 2 ^ 16 % 2 ^ 7 then some (0x11, 0)
     else none) := by
  have lt := (readReg k t (g.toNat + 2) l).isLt
  have zero : (readReg k t (g.toNat + 3) l).toNat ≠ 0 ↔ readReg k t (g.toNat + 3) l ≠ 0 := by
    rw [ne_eq, ne_eq, BitVec.toNat_eq]; rfl
  have top : (readReg k t (g.toNat + 2) l).toNat / 2 ^ 23 % 2 ^ 9 = (readReg k t (g.toNat + 2) l).toNat / 2 ^ 23 := by omega
  have image : ¬ ((pair k t g l).toNat % 16 ≠ 0 ∨ 2 ^ 57 ≤ (pair k t g l).toNat) := by omega
  simp only [mstartFail, num_group_pair, num_group_third, num_group_fourth, if_neg image, fld, startUnfit, zero, top,
    Nat.pow_zero, Nat.div_one]

section third
variable (one : 1 ≤ (readReg k t (g.toNat + 2) l).toNat % 2 ^ 9) (most : (readReg k t (g.toNat + 2) l).toNat % 2 ^ 9 ≤ 256)
  (fit : ¬ startUnfit (readReg k t (g.toNat + 2) l).toNat (readReg k t (g.toNat + 3) l))
include one most fit

theorem mstartFail_fit : mstartFail (groupBytes k t g 4 l) =
    (let d := (readReg k t (g.toNat + 2) l).toNat
     if d / 2 ^ 16 % 2 ^ 7 = 0 ∨ 64 < d / 2 ^ 16 % 2 ^ 7 then some (0x11, 0) else none) :=
  (mstartFail_good_image aligned low).trans
    (if_neg (not_or.2 ⟨Nat.ne_of_gt one, not_or.2 ⟨Nat.not_lt.2 most, fit⟩⟩))

theorem mstartFail_none (someSlots : 1 ≤ (readReg k t (g.toNat + 2) l).toNat / 2 ^ 16 % 2 ^ 7)
    (fewSlots : (readReg k t (g.toNat + 2) l).toNat / 2 ^ 16 % 2 ^ 7 ≤ 64) : mstartFail (groupBytes k t g 4 l) = none :=
  (mstartFail_fit aligned low one most fit).trans
    (if_neg (not_or.2 ⟨Nat.ne_of_gt someSlots, Nat.not_lt.2 fewSlots⟩))

end third

end checks

section mstart
variable {s : State} {t : Team} {c : Clause} {w : Workgroup} (h : Issues s t c) {l0 : Nat} (low : t.lowest = some l0)
  (wg : s.wg t.wg = some w) (g : Code) (slot : BitVec 3)
include h low

theorem mstart_traps {cause : Nat} {a : DWord} (fails : mstartFail (groupBytes s.fresh t g 4 l0) = some (cause, a)) :
    Traps s.bump t c cause a (exec (.mstart g slot) s) := by
  rw [exec_mstart, execMstart, teamWord_eq h low]
  dsimp only
  rw [fails]
  rfl

include wg

theorem mstart_passes (good : mstartFail (groupBytes s.fresh t g 4 l0) = none) : exec (.mstart g slot) s =
    (let d := (readReg s.fresh t (g.toNat + 2) l0).toNat
     if entryFree s w then
       .next (asyncGo (takeEntry s.bump s.cur t w (pair s.fresh t g l0) (d % 2 ^ 9) (d / 2 ^ 16 % 2 ^ 7)) s.cur slot c)
     else parkTeam s.bump t (.mstart (pair s.fresh t g l0) (d % 2 ^ 9) (d / 2 ^ 16 % 2 ^ 7))) := by
  rw [exec_mstart, execMstart, teamWord_eq h low]
  dsimp only
  rw [good]
  simp only [wg, num_group_pair, num_group_third, fld, BitVec.ofNat_toNat, BitVec.setWidth_eq, Nat.pow_zero, Nat.div_one]

end mstart

theorem entryFree_iff (s : State) (w : Workgroup) :
    entryFree s w = true ↔ w.stream = none ∧ (entriesOf s (w.core / 4)).length < 16 := by
  simp [entryFree]

theorem takeEntry_ownTeam {s : State} {t y : Team} {w : Workgroup} (wg : s.wg t.wg = some w) {u : Nat} (team : s.team u = some y)
    (image : DWord) (win slots : Nat) :
    ∃ t1, (takeEntry s u t w image win slots).team u = some t1 ∧ SameButWindow y t1 := by
  rw [takeEntry_team wg]
  exact (StoreSide.drainAll s.nextId u).team team

/-- MSTART takes a free entry, and its team goes on. -/
theorem mstart_takes {s : State} {t : Team} {c : Clause} {w : Workgroup} (h : Issues s t c) {l0 : Nat} (low : t.lowest = some l0)
    (wg : s.wg t.wg = some w) (g : Code) (slot : BitVec 3) (good : mstartFail (groupBytes s.fresh t g 4 l0) = none)
    (free : entryFree s w = true) {d : Nat} (word : (readReg s.fresh t (g.toNat + 2) l0).toNat = d) :
    ∃ t1, (takeEntry s.bump s.cur t w (pair s.fresh t g l0) (d % 2 ^ 9) (d / 2 ^ 16 % 2 ^ 7)).team s.cur = some t1 ∧
      SameButWindow t t1 ∧ exec (.mstart g slot) s =
        .next ((takeEntry s.bump s.cur t w (pair s.fresh t g l0) (d % 2 ^ 9) (d / 2 ^ 16 % 2 ^ 7)).putTeam s.cur
          ({ t1 with nextWord := t1.nextWord + 1 }.advance c 1)) := by
  obtain ⟨t1, team, same⟩ := takeEntry_ownTeam (s := s.bump) wg h.1 (pair s.fresh t g l0) (d % 2 ^ 9) (d / 2 ^ 16 % 2 ^ 7)
  refine ⟨t1, team, same, ?_⟩
  subst word
  rw [mstart_passes h low wg g slot good]
  dsimp only
  rw [if_pos free, asyncGo_eq team]

/-! ### The words at issue -/

theorem parkingWords_claim : Claims.ParkingWords := by
  intro s t c w a b d g scope ng slot h wg
  refine ⟨fun idle => ⟨teamWord_skips h idle 1 _, teamWord_skips h idle 2 _, teamWord_skips h idle 1 _,
    teamWord_skips h idle 1 _⟩, fun l0 low => ⟨fun below => ?_, fun atS => ?_, fun below => ?_, fun level fit => ?_,
    fun dev below => ?_, fun good => ?_, fun image => ?_, fun aligned small => ⟨fun unfit => ?_, fun one most fit =>
    ⟨fun slots => ?_, fun someSlots fewSlots => ⟨fun full => ?_, fun noStream room => ?_⟩⟩⟩⟩⟩
  · rw [wfi_eq h low, if_pos below]; rfl
  · rw [wfi_eq h low, if_neg (show ¬ t.priv < 2 by omega)]; rfl
  · rw [tlbinv_eq h low, if_pos below]; rfl
  · rw [tlbinv_eq h low, if_neg (not_or.2 ⟨level, fit⟩)]; rfl
  · rw [icinv_refused h low ⟨dev, below⟩]; rfl
  · obtain ⟨t1, has, none, eq, -, -⟩ := icinv_parks h low good
    refine ⟨_, _, eq, State.team_putTeam_same .., rfl, none, fun k mem => icinvState_loopBuf s t scope mem,
      fun u y x team mem clause => ?_, fun u y x k stream mem at_ clause =>
      icinvState_streamStarted s t scope stream mem at_ clause, ?_⟩
    · by_cases same : u = s.cur
      · subst same
        obtain rfl := Option.some.inj ((State.team_putTeam_same ..).symm.trans team)
        exact icinvState_started s t scope has mem clause
      · exact icinvState_started s t scope ((State.team_putTeam_other _ _ same).symm.trans team) mem clause
    · rw [State.putTeam, icinvState_frame]
  · exact mstart_traps h low g slot (mstartFail_image image)
  · refine mstart_traps h low g slot ((mstartFail_good_image aligned small).trans (if_pos ?_))
    exact unfit
  · exact mstart_traps h low g slot ((mstartFail_fit aligned small one most fit).trans (if_pos slots))
  · rw [mstart_passes h low wg g slot (mstartFail_none aligned small one most fit someSlots fewSlots)]
    exact if_neg (mt (entryFree_iff s w).1 full)
  · obtain ⟨t1, team, -, takes⟩ := mstart_takes h low wg g slot
      (mstartFail_none aligned small one most fit someSlots fewSlots) ((entryFree_iff s w).2 ⟨noStream, room⟩) rfl
    exact ⟨t1, _, team, takes, Past.of_advance .., SamePlaceApart.of_advance ..⟩

/-! ### Where each of them completes -/

/-- The team that WFI_RESUME lets go on. -/
def Team.woken (t : Team) (d : Code) (bits : Nat) : Team :=
  (t.putActive d.toNat fun _ => if bits = 0 then 4 else BitVec.ofNat 32 bits).unpark 1

section resume
variable {s : State} {t : Team} {w : Workgroup} {u : Nat} (team : s.team u = some t) (wg : s.wg t.wg = some w)

theorem teamCore_eq (wg : s.wg t.wg = some w) : teamCore s t = w.core := by rw [teamCore, wg]; rfl

theorem unpark_eq {c : Clause} (clause : t.clause = some c) (len : Nat) :
    t.unpark len = { t with park := .none }.advance c len := by
  rw [Team.unpark, clause]

theorem past_unpark {c : Clause} (clause : t.clause = some c) (len : Nat) :
    Past { t with park := .none } (t.unpark len) c len := by
  rw [unpark_eq clause]; exact Past.of_advance ..

theorem unpark_stores (t : Team) (len : Nat) : (t.unpark len).stores = t.stores := by
  unfold Team.unpark; split <;> simp

theorem unpark_regs (t : Team) (len : Nat) : (t.unpark len).regs = t.regs := by
  unfold Team.unpark; split <;> simp

/-- What lets a team that WFI has parked go on (R323, R334). -/
def awake (s : State) (core : Nat) (bits : Nat) (until_ : Option Nat) : Prop :=
  pointAt s (core / 4) ≠ 0 ∧ ((clState s (core / 4) = 0 ∧ bits ≠ 0) ∨ ∃ x, until_ = some x ∧ x ≤ s.ns)

theorem awake_iff (s : State) (core bits : Nat) (until_ : Option Nat) :
    (agentRuns s core = true ∧ ((until_.map fun x => decide (x ≤ s.ns)).getD false = true ∨
      (clState s (core / 4) = 0 ∧ bits ≠ 0))) ↔ awake s core bits until_ := by
  cases until_ <;> simp [agentRuns, awake, or_comm]

include team wg

theorem wfiResume_waits {d : Code} {until_ : Option Nat} (park : t.park = .wfi d until_)
    (asleep : ¬ awake s w.core (fget zeroNat s.wake w.core) until_) : exec (.wfiResume u) s = .next s := by
  rw [exec_wfiResume, execWfiResume, team]
  dsimp only
  rw [park]
  dsimp only
  rw [teamCore_eq wg]
  exact if_neg (mt (awake_iff ..).1 asleep)

theorem wfiResume_goes {d : Code} {until_ : Option Nat} (park : t.park = .wfi d until_)
    (on : awake s w.core (fget zeroNat s.wake w.core) until_) : exec (.wfiResume u) s =
      .next ({ s with wake := fset zeroNat s.wake w.core 0 }.putTeam u (t.woken d (fget zeroNat s.wake w.core))) := by
  rw [exec_wfiResume, execWfiResume, team]
  dsimp only
  rw [park]
  dsimp only
  rw [teamCore_eq wg]
  exact if_pos ((awake_iff ..).2 on)

end resume

/-- The cores whose caches TLBINV's scope names; none names every cache. -/
def tlbinvCores (s : State) (t : Team) : InvScope → Option (List Nat)
  | .part | .dev => none
  | scope => some (scopeCores s t scope)

/-- The state without the translations that TLBINV names. -/
def tlbinvDropped (s : State) (t : Team) (start len : Nat) (scope : InvScope) (ng : Bool) : State :=
  dropTlbs s (tlbinvCores s t scope) (teamCore s t) (tlbinvHits (scope == .dev) (teamPart s t) start len ng)

/-- A copy keeps TLBINV waiting. -/
def tlbinvHolds (s : State) (t : Team) (start len : Nat) (scope : InvScope) (y : Copy) : Bool :=
  holdsTile (tlbinvCores s t scope) (teamCore s t) (tlbinvHits (scope == .dev) (teamPart s t) start len false) y

/-- The suspended operations of a partition, or of every one, have tried again. -/
def tlbinvRetried (s : State) (part : Option Nat) (dev : Bool) : State :=
  ((entries s.copies).filter fun e => e.2.suspended.isSome && !e.2.saved && (dev || e.2.requester.part == part)).foldl
    (fun s e => retryCopy s e.1) s

theorem tlbinvDropped_frame (s : State) (t : Team) (start len : Nat) (scope : InvScope) (ng : Bool) :
    tlbinvDropped s t start len scope ng = { s with tlb1 := (tlbinvDropped s t start len scope ng).tlb1
                                                    tlb2 := (tlbinvDropped s t start len scope ng).tlb2 } := by
  cases scope <;> rfl

theorem tlbinvRetried_idle {s : State} {part : Option Nat} {dev : Bool}
    (idle : ∀ e ∈ entries s.copies, e.2.suspended = none) : tlbinvRetried s part dev = s := by
  have none_ : ((entries s.copies).filter fun e => e.2.suspended.isSome && !e.2.saved &&
      (dev || e.2.requester.part == part)) = [] :=
    List.filter_eq_nil_iff.2 fun e mem => by simp [idle e mem]
  rw [tlbinvRetried, none_]
  rfl

section tlbinv
variable {s : State} {t : Team} {u start len : Nat} {scope : InvScope} {ng : Bool} (team : s.team u = some t)
  (park : t.park = .tlbinv start len scope ng)
include team park

theorem tlbinvCompletion_eq : exec (.tlbinvCompletion u) s =
    if (entries s.copies).any fun e => tlbinvHolds s t start len scope e.2 then .next (tlbinvDropped s t start len scope ng)
    else
      let s2 := tlbinvRetried (tlbinvDropped s t start len scope ng) (teamPart s t) (scope == .dev)
      match s2.team u with
      | some t => .next (s2.putTeam u (t.unpark 2))
      | none => .next s2 := by
  rw [exec_tlbinvCompletion, execTlbinvCompletion, team]
  dsimp only
  rw [park]
  cases scope <;> rfl

theorem tlbinvCompletion_waits (holds : ∃ e ∈ entries s.copies, tlbinvHolds s t start len scope e.2 = true) :
    exec (.tlbinvCompletion u) s = .next (tlbinvDropped s t start len scope ng) := by
  rw [tlbinvCompletion_eq team park, if_pos (List.any_eq_true.2 holds)]

theorem tlbinvCompletion_goes (free : ∀ e ∈ entries s.copies, tlbinvHolds s t start len scope e.2 = false) {s2 : State}
    (retried : tlbinvRetried (tlbinvDropped s t start len scope ng) (teamPart s t) (scope == .dev) = s2)
    (still : s2.team u = some t) : exec (.tlbinvCompletion u) s = .next (s2.putTeam u (t.unpark 2)) := by
  rw [tlbinvCompletion_eq team park, if_neg (by simpa using free)]
  dsimp only
  rw [retried, still]

end tlbinv

section completions
variable {s : State} {t : Team} {c : Clause} {w : Workgroup} (h : Issues s t c) (wg : s.wg t.wg = some w) {l0 : Nat}
  (low : t.lowest = some l0)
include h low

include wg in
theorem wfi_completes (a d : Code) (level : 2 ≤ t.priv) (on : clState s (w.core / 4) = 0) (clock : pointAt s (w.core / 4) ≠ 0)
    (bits : fget zeroNat s.wake w.core ≠ 0) : ∃ s1 s2 t', exec (.wfi d a) s = .next s1 ∧
      exec (.wfiResume s.cur) s1 = .next s2 ∧ s2.team s.cur = some t' ∧ Past { t with park := .none } t' c 1 ∧
      (∀ l ∈ t.activeLanes, t'.reg d.toNat l = BitVec.ofNat 32 (fget zeroNat s.wake w.core)) ∧
      fget zeroNat s2.wake w.core = 0 := by
  obtain ⟨until_, parked⟩ : ∃ until_, exec (.wfi d a) s = .next (s.bump.putTeam s.cur { t with park := .wfi d until_ }) :=
    ⟨_, (wfi_eq h low d a).trans (if_neg (Nat.not_lt.2 level))⟩
  have goes := wfiResume_goes (s := s.bump.putTeam s.cur { t with park := .wfi d until_ }) (u := s.cur)
    (State.team_putTeam_same ..) wg rfl ⟨clock, .inl ⟨on, bits⟩⟩
  refine ⟨_, _, _, parked, goes, State.team_putTeam_same .., ?_, fun l mem => ?_, fget_fset_same zeroNat s.wake w.core 0⟩
  · exact past_unpark (t := Team.putActive _ _ _) h.2.2 1
  · rw [Team.woken, Team.reg, unpark_regs]
    exact ((Wrote.of_putActive t d.toNat _).1 l mem).trans (if_neg bits)

theorem icinv_completes {scope : InvScope} (good : ¬ (scope = .dev ∧ t.priv < 2)) (started : c.started = true)
    (alone : icinvTeams s s.cur t scope = []) : ∃ s1 s2 t', exec (.icinv scope) s = .next s1 ∧
      exec (.icinvCompletion s.cur) s1 = .next s2 ∧ s2.team s.cur = some t' ∧ Past { t with park := .none } t' c 1 ∧
      t'.stores = [] := by
  obtain ⟨t1, -, none, parked, ⟨y, same, bare⟩, clause⟩ := icinv_parks h low good
  rw [alone] at parked
  have goes : exec (.icinvCompletion s.cur) ((icinvState s t scope).putTeam s.cur { t1 with park := .icinv scope [] }) =
      .next (((icinvState s t scope).putTeam s.cur { t1 with park := .icinv scope [] }).putTeam s.cur
        ({ t1 with park := .icinv scope [] }.unpark 1)) := by
    rw [exec_icinvCompletion, execIcinvCompletion, State.team_putTeam_same]
    rfl
  refine ⟨_, _, _, parked, goes, State.team_putTeam_same .., ?_, ?_⟩
  · have place : SameButWindow { t with park := .none } { t1 with park := .none } :=
      ⟨by rw [bare, same.1, clause started, h.2.2], by rw [bare]; exact same.2⟩
    exact Past.of_sameButWindow place (past_unpark (t := { t1 with park := .icinv scope [] }) (clause started) 1)
  · rw [unpark_stores, none]

theorem tlbinv_completes (a b : Code) {scope : InvScope} (ng : Bool) (level : t.priv ≠ 0) (fit : ¬ (scope = .dev ∧ t.priv < 2))
    (idle : ∀ e ∈ entries s.copies, e.2.late = [] ∧ e.2.suspended = none) : ∃ s1 s2 t',
      exec (.tlbinv a b scope ng) s = .next s1 ∧ exec (.tlbinvCompletion s.cur) s1 = .next s2 ∧ s2.team s.cur = some t' ∧
      Past { t with park := .none } t' c 2 := by
  have parked := tlbinv_eq h low a b scope ng
  rw [if_neg (not_or.2 ⟨level, fit⟩)] at parked
  refine ⟨_, _, _, parked, tlbinvCompletion_goes (State.team_putTeam_same ..) rfl (fun e mem => ?_) (tlbinvRetried_idle ?_) ?_,
    State.team_putTeam_same .., ?_⟩
  · simp only [tlbinvHolds, holdsTile, (idle e mem).1, List.any_nil, Bool.and_false]
  · rw [tlbinvDropped_frame]
    exact fun e mem => (idle e mem).2
  · rw [tlbinvDropped_frame]
    exact State.team_putTeam_same ..
  · exact past_unpark (t := { t with park := _ }) h.2.2 2

include wg in
theorem mstart_completes (g : Code) (slot : BitVec 3) (good : mstartFail (groupBytes s.fresh t g 4 l0) = none)
    (free : entryFree s w = true) : ∃ u t', exec (.mstart g slot) s = .next u ∧ u.team s.cur = some t' ∧
      t'.nextWord = t.nextWord + 1 ∧ Past { t with nextWord := t.nextWord + 1 } t' c 1 ∧
      (u.stream s.nextUid).isSome = true := by
  obtain ⟨t1, -, same, takes⟩ := mstart_takes h low wg g slot good free rfl
  have next : SameButWindow { t with nextWord := t.nextWord + 1 } { t1 with nextWord := t1.nextWord + 1 } :=
    ⟨by rw [same.1], same.2⟩
  have word : t1.nextWord = t.nextWord := by rw [same.1]
  refine ⟨_, _, takes, State.team_putTeam_same .., ?_, Past.of_sameButWindow next (Past.of_advance ..), ?_⟩
  · rw [Team.advance_nextWord, word]
  · exact Option.isSome_iff_exists.2 ⟨_, takeEntry_stream (s := s.bump) wg ..⟩

end completions

theorem parkingWordsComplete : Claims.ParkingWordsComplete := by
  intro s t c w l0 a b d g scope ng slot h wg low
  refine ⟨fun level on clock bits => wfi_completes h wg low a d level on clock bits,
    fun level fit idle => tlbinv_completes h low a b ng level fit idle,
    fun good started alone => icinv_completes h low good started alone,
    fun aligned small one most spare someSlots fewSlots top fourth noStream room => ?_⟩
  have fit : ¬ startUnfit (readReg s.fresh t (g.toNat + 2) l0).toNat (readReg s.fresh t (g.toNat + 3) l0) :=
    not_or.2 ⟨not_not_intro spare, not_or.2 ⟨not_not_intro top, not_not_intro fourth⟩⟩
  exact mstart_completes h wg low g slot (mstartFail_none aligned small one most fit someSlots fewSlots)
    ((entryFree_iff s w).2 ⟨noStream, room⟩)

/-- Settles O28: each word by the equation of its issue, the taken entry by `takeEntry_eq`, and the completions by the events
that end the parks. -/
theorem parkingWords : Obligations.ParkingWords := ⟨parkingWords_claim, streamEntry, parkingWordsComplete⟩

end Sys2Proof.Machine
end

section
/-! PROOFS. ParkEnds: the events that end the parks of WFI, TLBINV, ICINV and MSTART (R62, R155, R161, R164, R232, R271, R323,
R334). -/

namespace Sys2Proof.Machine

set_option Elab.async false

open Sys2Proof.Claims

/-! ### A suspended operation that tries its translation again (R159, R161) -/

theorem MemSide.engineDeny (s : State) (r : Requester) : MemSide s (engineDeny s r) := by
  unfold Machine.engineDeny
  split
  · exact MemSide.addDeny ..
  · exact MemSide.refl s

/-- Meeting a page changes the memory side of the machine (R145, R149, R152, R293). -/
theorem MemSide.enginePage (s : State) (r : Requester) (va n : Nat) (wr : Bool) : MemSide s (enginePage s r va n wr).2 := by
  unfold Machine.enginePage
  split
  · exact MemSide.refl s
  · have side := MemSide.xlateBy false s r.part r.core va wr
    generalize Machine.xlateBy false s r.part r.core va wr = got at side ⊢
    obtain ⟨c | x, s1⟩ := got
    · exact side
    · have denied := side.trans (MemSide.engineDeny s1 r)
      dsimp only
      repeat' split
      all_goals assumption

/-- A retry changes the memory side of the machine, and where it succeeds its operation is no longer suspended. -/
theorem retryCopy_eq {s : State} {k : Nat} {c : Copy} (copy : s.copy k = some c) :
    ∃ s1, MemSide s s1 ∧ (retryCopy s k = s1 ∨ retryCopy s k = s1.putCopy k { c with suspended := none }) := by
  rw [retryCopy, copy]
  dsimp only
  split
  case h_1 a _ _ _ =>
    have side := MemSide.enginePage s c.requester a.toNat 8 true
    split <;> rename_i eq <;> rw [eq] at side
    · exact ⟨_, side, .inl rfl⟩
    · exact ⟨_, side, .inr rfl⟩
  case h_2 =>
    split
    · exact ⟨s, MemSide.refl s, .inl rfl⟩
    · rename_i p _
      have side := MemSide.enginePage s c.requester p.src p.n false
      split <;> rename_i eq <;> rw [eq] at side
      · exact ⟨_, side, .inl rfl⟩
      · rename_i s1 _
        have side2 := MemSide.enginePage s1 c.requester p.dst p.n true
        split <;> rename_i eq2 <;> rw [eq2] at side2
        · exact ⟨_, side.trans side2, .inl rfl⟩
        · exact ⟨_, side.trans side2, .inr rfl⟩

theorem retryCopy_teams (s : State) (k : Nat) : (retryCopy s k).teams = s.teams := by
  cases copy : s.copy k with
  | none => rw [retryCopy, copy]
  | some c =>
    obtain ⟨s1, side, same | put⟩ := retryCopy_eq copy
    · rw [same, side.teams]
    · rw [put]; exact side.teams

theorem tlbinvRetried_team (s : State) (part : Option Nat) (dev : Bool) (u : Nat) :
    (tlbinvRetried s part dev).team u = s.team u := by
  have keeps (l : List (Nat × Copy)) (s : State) : (l.foldl (fun s e => retryCopy s e.1) s).teams = s.teams := by
    induction l generalizing s with
    | nil => rfl
    | cons e l ih => rw [List.foldl_cons, ih, retryCopy_teams]
  rw [State.team, tlbinvRetried, keeps, State.team]

/-! ### The translations that TLBINV removes (R164) -/

theorem tlbinvHits_iff (dev : Bool) (part : Option Nat) (start len : Nat) (ng : Bool) (x : Tlb) :
    tlbinvHits dev part start len ng x = true ↔ Removed dev part start len ng x := by
  cases ng <;> simp [tlbinvHits, Removed, and_assoc]

/-- A cache table whose listed caches have lost what p names, but for those that are kept. -/
def dropped (keep : Nat → Bool) (p : Tlb → Bool) (m : FMap (List Tlb)) : FMap (List Tlb) :=
  m.foldl (fun m' e => if keep e.1 then m' else fset noTlbs m' e.1 ((fget noTlbs m e.1).filter fun x => !p x)) m

theorem fget_of_not_key {α : Type} (d : Nat → α) {m : FMap α} {k : Nat} (absent : k ∉ m.map Prod.fst) : fget d m k = d k := by
  induction m with
  | nil => rfl
  | cons e m ih =>
    simp only [List.map_cons, List.mem_cons, not_or] at absent
    rw [fget, if_neg (Ne.symm absent.1), ih absent.2]

theorem fget_dropped (keep : Nat → Bool) (p : Tlb → Bool) (m : FMap (List Tlb)) (k : Nat) :
    fget noTlbs (dropped keep p m) k = if keep k then fget noTlbs m k else (fget noTlbs m k).filter fun x => !p x := by
  have fold (l : FMap (List Tlb)) (m' : FMap (List Tlb)) : fget noTlbs (l.foldl (fun m' e =>
      if keep e.1 then m' else fset noTlbs m' e.1 ((fget noTlbs m e.1).filter fun x => !p x)) m') k =
      if k ∈ l.map Prod.fst ∧ keep k = false then (fget noTlbs m k).filter fun x => !p x else fget noTlbs m' k := by
    induction l generalizing m' with
    | nil => simp
    | cons e l ih =>
      rw [List.foldl_cons, ih]
      by_cases same : k = e.1
      · subst same
        cases keep e.1 <;> simp
      · have key : k ∈ (e :: l).map Prod.fst ↔ k ∈ l.map Prod.fst := by simp [same]
        have other : fget noTlbs (if keep e.1 then m' else
            fset noTlbs m' e.1 ((fget noTlbs m e.1).filter fun x => !p x)) k = fget noTlbs m' k := by
          split
          · rfl
          · exact fget_fset_other noTlbs m' _ same
        simp only [key, other]
  rw [dropped, fold]
  by_cases key : k ∈ m.map Prod.fst
  · cases keep k <;> simp [key]
  · have absent : fget noTlbs m k = [] := fget_of_not_key noTlbs key
    simp [absent]

/-- Of which cores TLBINV names the first-level caches, and of which clusters the second-level ones. -/
def nearCore (s : State) (t : Team) (scope : InvScope) (k : Nat) : Prop :=
  scope = .part ∨ scope = .dev ∨ k ∈ scopeCores s t scope

def nearCluster (s : State) (t : Team) (core : Nat) (scope : InvScope) (k : Nat) : Prop :=
  scope = .part ∨ scope = .dev ∨ k = core / 4 ∨ ∃ j ∈ scopeCores s t scope, j / 4 = k

section drops
variable (s : State) (t : Team) (start len : Nat) (scope : InvScope) (ng : Bool) (k : Nat) (x : Tlb)

theorem mem_dropped (keep p : _ → Bool) (m : FMap (List Tlb)) : x ∈ fget noTlbs (dropped keep p m) k ↔
    x ∈ fget noTlbs m k ∧ ¬ (keep k = false ∧ p x = true) := by
  rw [fget_dropped]
  cases keep k <;> simp

/-- The caches that a removal leaves as they are: of the cores, and of the clusters. -/
def farCore (cores : Option (List Nat)) (k : Nat) : Bool := cores.any fun l => !l.contains k

def farCluster (cores : Option (List Nat)) (own k : Nat) : Bool :=
  cores.any fun l => !(k == own / 4) && !(l.any fun c => c / 4 == k)

theorem tlbinvDropped_tlb1 : (tlbinvDropped s t start len scope ng).tlb1 =
    dropped (farCore (tlbinvCores s t scope)) (tlbinvHits (scope == .dev) (teamPart s t) start len ng) s.tlb1 := by
  cases scope <;> rfl

theorem tlbinvDropped_tlb2 : (tlbinvDropped s t start len scope ng).tlb2 =
    dropped (farCluster (tlbinvCores s t scope) (teamCore s t)) (tlbinvHits (scope == .dev) (teamPart s t) start len ng)
      s.tlb2 := by
  cases scope <;> rfl

theorem farCore_iff : farCore (tlbinvCores s t scope) k = false ↔ nearCore s t scope k := by
  cases scope <;> simp [nearCore, farCore, tlbinvCores]

theorem farCluster_iff : farCluster (tlbinvCores s t scope) (teamCore s t) k = false ↔
    nearCluster s t (teamCore s t) scope k := by
  cases scope <;> simp [nearCluster, farCluster, tlbinvCores, or_iff_not_imp_left]

theorem tlb1_tlbinvDropped : x ∈ fget noTlbs (tlbinvDropped s t start len scope ng).tlb1 k ↔ x ∈ fget noTlbs s.tlb1 k ∧
    ¬ (nearCore s t scope k ∧ Removed (scope == .dev) (teamPart s t) start len ng x) := by
  rw [tlbinvDropped_tlb1, mem_dropped, farCore_iff, tlbinvHits_iff]

theorem tlb2_tlbinvDropped : x ∈ fget noTlbs (tlbinvDropped s t start len scope ng).tlb2 k ↔ x ∈ fget noTlbs s.tlb2 k ∧
    ¬ (nearCluster s t (teamCore s t) scope k ∧ Removed (scope == .dev) (teamPart s t) start len ng x) := by
  rw [tlbinvDropped_tlb2, mem_dropped, farCluster_iff, tlbinvHits_iff]

end drops

/-- A copy that keeps TLBINV waiting: of the scope, with an unfinished tile under a translation of the range. -/
theorem tlbinvHolds_iff (s : State) (t : Team) (start len : Nat) (scope : InvScope) (y : Copy) :
    tlbinvHolds s t start len scope y = true ↔
      (scope = .part ∨ scope = .dev ∨ ∃ k, y.core = some k ∧ (k / 4 = teamCore s t / 4 ∨ k ∈ scopeCores s t scope)) ∧
      ∃ x ∈ y.late, Removed (scope == .dev) (teamPart s t) start len false x.srcPage ∨
        Removed (scope == .dev) (teamPart s t) start len false x.dstPage := by
  simp only [tlbinvHolds, holdsTile, Bool.and_eq_true, List.any_eq_true, Bool.or_eq_true, tlbinvHits_iff]
  refine and_congr_left fun _ => ?_
  cases scope <;> cases y.core <;> simp [tlbinvCores]

/-! ### The four parks -/

theorem teamPart_eq {s : State} {t : Team} {w : Workgroup} (wg : s.wg t.wg = some w) :
    teamPart s t = if t.priv = 2 then none else some w.part := by
  rw [teamPart, wg]
  rfl

section parks
variable {s : State} {t : Team} {c : Clause} {w : Workgroup} {u : Nat} (team : s.team u = some t) (clause : t.clause = some c)
  (wg : s.wg t.wg = some w)

theorem SamePlaceApart.of_unpark (clause : t.clause = some c) (len : Nat) :
    SamePlaceApart { t with park := .none } (t.unpark len) := by
  rw [unpark_eq clause]; exact SamePlaceApart.of_advance ..

/-- The team that WFI_RESUME lets go on is past its word, with the wake bits in every active lane. -/
theorem woken_spec (clause : t.clause = some c) (d : Code) (bits : Nat) :
    Past { t with park := .none } (t.woken d bits) c 1 ∧ SameButRegs { t with park := .none } (t.woken d bits) ∧
      Wrote t (t.woken d bits) d.toNat fun _ => if bits = 0 then 4 else BitVec.ofNat 32 bits := by
  rw [Team.woken, unpark_eq (t := t.putActive _ _) clause]
  refine ⟨Past.of_advance .., SameButRegs.of_advance rfl c 1, ?_⟩
  simp only [Wrote, Team.reg_advance]
  exact Wrote.of_putActive t d.toNat _

include team

theorem icinvCompletion_eq {scope : InvScope} {teams : List Nat} (park : t.park = .icinv scope teams) :
    exec (.icinvCompletion u) s = if teams.all (icinvPasses s) then .next (s.putTeam u (t.unpark 1)) else .next s := by
  rw [exec_icinvCompletion, execIcinvCompletion, team]
  dsimp only
  rw [park]

include wg

theorem reservationEntryGrant_waits {image : DWord} {win slots : Nat} (park : t.park = .mstart image win slots)
    (held : ¬ (entryFree s w ∧ mayAct s t)) : exec (.reservationEntryGrant u) s = .next s := by
  rw [exec_reservationEntryGrant, execReservationEntryGrant, team]
  dsimp only
  rw [park, wg]
  exact if_neg held

include clause

theorem reservationEntryGrant_takes {image : DWord} {win slots : Nat} (park : t.park = .mstart image win slots)
    (free : entryFree s w ∧ mayAct s t) : ∃ t1, (takeEntry s u t w image win slots).team u = some t1 ∧
      t1.clause = some c ∧ exec (.reservationEntryGrant u) s = .next ((takeEntry s u t w image win slots).putTeam u
        ({ t1 with nextWord := t1.nextWord + 1 }.unpark 1)) := by
  obtain ⟨t1, has, same⟩ := takeEntry_ownTeam wg team image win slots
  refine ⟨t1, has, by rw [same.1]; exact clause, ?_⟩
  rw [exec_reservationEntryGrant, execReservationEntryGrant, team]
  dsimp only
  rw [park, wg]
  dsimp only
  rw [if_pos free, has]

end parks

/-- Settles O29: each event by its equation where the park holds and where it ends; what TLBINV removes by `fget_dropped`, and
its retries keep every team. -/
theorem parkEnds : Obligations.ParkEnds := by
  intro s t c w u team clause wg
  refine ⟨fun d until_ park => ⟨wfiResume_waits team wg park, fun on => ?_⟩, fun start len scope ng park => ?_,
    fun scope teams park => ⟨fun holds => ?_, fun passes => ?_⟩, fun image win slots park => ⟨fun held => ?_, fun free => ?_⟩⟩
  · obtain ⟨past, regs, wrote⟩ := woken_spec clause d (fget zeroNat s.wake w.core)
    exact ⟨_, _, wfiResume_goes team wg park on, rfl, fun k => fget_fset zeroNat s.wake w.core k 0, past, regs, wrote⟩
  · have part := teamPart_eq wg
    have core := teamCore_eq wg
    refine ⟨tlbinvDropped s t start len scope ng, tlbinvRetried (tlbinvDropped s t start len scope ng) (teamPart s t)
      (scope == .dev), t.unpark 2, tlbinvDropped_frame .., ⟨fun k x => ?_, fun k x => ?_, ?_, fun holds => ?_, fun free => ?_⟩,
      past_unpark clause 2, SamePlaceApart.of_unpark clause 2⟩
    · rw [← part]; exact tlb1_tlbinvDropped ..
    · rw [← part, ← core]; exact tlb2_tlbinvDropped ..
    · rw [← part]; rfl
    · refine tlbinvCompletion_waits team park ?_
      simpa only [tlbinvHolds_iff, part, core] using holds
    · refine tlbinvCompletion_goes team park (fun e mem => ?_) rfl ?_
      · rw [Bool.eq_false_iff, ne_eq, tlbinvHolds_iff, part, core]
        exact free e mem
      · rw [tlbinvRetried_team, tlbinvDropped_frame]
        exact team
  · rw [icinvCompletion_eq team park]
    obtain ⟨x, mem, held⟩ := holds
    exact if_neg fun all => Bool.false_ne_true (held.symm.trans (List.all_eq_true.1 all x mem))
  · rw [icinvCompletion_eq team park]
    exact ⟨_, if_pos (List.all_eq_true.2 passes), past_unpark clause 1, SamePlaceApart.of_unpark clause 1⟩
  · refine reservationEntryGrant_waits team wg park fun free => held ?_
    rw [entryFree_iff] at free
    exact ⟨free.1.1, free.1.2, free.2⟩
  · obtain ⟨noStream, room, acts⟩ := free
    obtain ⟨t1, has, clause1, takes⟩ := reservationEntryGrant_takes team clause wg park
      ⟨(entryFree_iff s w).2 ⟨noStream, room⟩, acts⟩
    exact ⟨t1, _, has, takes, past_unpark (t := { t1 with nextWord := t1.nextWord + 1 }) clause1 1,
      SamePlaceApart.of_unpark (t := { t1 with nextWord := t1.nextWord + 1 }) clause1 1⟩

end Sys2Proof.Machine
end

section
/-! PROOFS. The translation of an address (R145 to R151, R154): entries, walks, lookups, and WALK_COMPLETION. -/

namespace Sys2Proof.Machine

set_option Elab.async false

open Sys2Proof.Claims

/-! ### Entries (R148, R150) -/

theorem pageSize_eq {level : Nat} (le : level ≤ 2) : pageSize level = 2 ^ (if level = 0 then 16 else 12 + 9 * level) := by
  match level, le with
  | 0, _ => rfl
  | 1, _ => rfl
  | 2, _ => rfl

theorem walkIndex_eq {level : Nat} (le : level ≤ 4) (va : Nat) :
    walkIndex level va = if level = 0 then va / 2 ^ 16 % 32 else va / 2 ^ (12 + 9 * level) % 512 := by
  match level, le with
  | 0, _ => rfl
  | 1, _ => rfl
  | 2, _ => rfl
  | 3, _ => rfl
  | 4, _ => rfl

/-- A leaf is malformed where it stands too high, where a reserved field is not 0, or where a field does not fit its type. -/
theorem malformed_leaf (part : Option Nat) (level va e : Nat) (leaf : e.testBit 7 = true) :
    malformed part level va e = true ↔ (let f (lo n : Nat) : Nat := e / 2 ^ lo % 2 ^ n
      let typ := f 8 3
      let keyed := typ = 0 ∨ typ = 1 ∨ typ = 4
      2 < level ∨ f 13 3 ≠ 0 ∨ f 36 28 ≠ 0 ∨ f 116 12 ≠ 0 ∨ typ = 7 ∨ f 11 2 = 3 ∨
      f 64 52 % 2 ^ (if level = 0 then 16 else 12 + 9 * level) ≠ 0 ∨ (f 27 9 ≠ 0 ∧ typ ≠ 2 ∧ typ ≠ 3) ∨
      ((typ = 4 ∨ typ = 6) ∧ f 64 52 ≠ 0) ∨ ((typ = 5 ∨ typ = 6) ∧ f 11 2 ≠ 0) ∨ (typ = 6 ∧ level ≠ 0) ∨
      (typ = 4 ∧ va < 0x01FF800000000000) ∨ (keyed ∧ f 16 11 = 0 ∧ part ≠ none) ∨ (¬ keyed ∧ f 16 11 ≠ 0)) := by
  by_cases high : 2 < level
  · simp [malformed, leaf, high]
  · rw [← pageSize_eq (Nat.not_lt.1 high)]
    simp only [malformed, leaf, if_true, Bool.or_eq_true, Bool.and_eq_true, Bool.not_eq_true', Bool.or_eq_false_iff,
      decide_eq_true_eq, beq_iff_eq, beq_eq_false_iff_ne, bne_iff_ne, Option.isSome_iff_ne_none, or_assoc, and_assoc, not_or]
    rfl

theorem malformed_node (part : Option Nat) (level va e : Nat) (node : e.testBit 7 = false) :
    malformed part level va e = true ↔ (let f (lo n : Nat) : Nat := e / 2 ^ lo % 2 ^ n
      level = 0 ∨ f 1 6 ≠ 0 ∨ f 8 8 ≠ 0 ∨ f 27 37 ≠ 0 ∨ f 116 12 ≠ 0 ∨
      f 64 52 % (if level = 1 then 512 else 8192) ≠ 0 ∨ (f 16 11 = 0 ∧ part ≠ none)) := by
  simp only [malformed, node, Bool.false_eq_true, if_false, Bool.or_eq_true, Bool.and_eq_true, decide_eq_true_eq, beq_iff_eq,
    Option.isSome_iff_ne_none, or_assoc]
  rfl

theorem keyRefused_iff (s : State) (part : Option Nat) (e : Nat) : keyRefused s part e = true ↔ ∃ n, part = some n ∧
    (e.testBit 7 = false ∨ (pteOf e).typ ∈ [0, 1, 4]) ∧ keyInRange s n (pteOf e).key = false := by
  cases part <;> simp [keyRefused, or_assoc]

/-! ### Walks (R147, R151) -/

/-- A leaf's entry with ACC set in it, and DIRTY for a write that it allows. -/
def markedEntry (wr : Bool) (e : Nat) : Nat := e ||| (if wr && e.testBit 2 then 0x60 else 0x20)

/-- What a refused read or write of an entry gives. -/
def refusedCause (st : Nat) : Nat := if st = 1 then 10 else 9

/-- What a walk makes of a present, well-formed leaf at address a, under its node's key. -/
def leafMet (wr : Bool) (level : Nat) (s : State) (key a e : Nat) : Except Nat (Nat × Nat) × State :=
  if markedEntry wr e = e then (.ok (e, level), s)
  else
    let w := sealWrite s key 1 a (toBytes 16 (markedEntry wr e))
    if w.1 = 0 then (.ok (markedEntry wr e, level), w.2) else (.error (refusedCause w.1), w.2)

/-- The walk goes on from a node's entry to the next level. -/
def deeper (part : Option Nat) (va : Nat) (wr : Bool) : Nat → State → Nat → Except Nat (Nat × Nat) × State
  | 0, s, _ => (.error 6, s)
  | k + 1, s, e => walkFrom part va wr k s (pteOf e).addr (pteOf e).key

/-- What a walk makes of an entry e at address a that it has read (R150). -/
def entryMet (part : Option Nat) (va : Nat) (wr : Bool) (level : Nat) (s : State) (key a e : Nat) :
    Except Nat (Nat × Nat) × State :=
  if e.testBit 0 = false ∨ malformed part level va e = true then (.error 6, s)
  else if keyRefused s part e = true then (.error 7, s)
  else if e.testBit 7 = true then leafMet wr level s key a e
  else deeper part va wr level s e

theorem entryMet_read (part : Option Nat) (va : Nat) (wr : Bool) (level : Nat) (s : State) (key a e : Nat) :
    (if (!e.testBit 0 || malformed part level va e) = true then (.error 6, s)
     else if keyRefused s part e = true then (.error 7, s)
     else if e.testBit 7 = true then
       if markedEntry wr e = e then (.ok (e, level), s)
       else match sealWrite s key 1 a (toBytes 16 (markedEntry wr e)) with
         | (0, s) => (.ok (markedEntry wr e, level), s)
         | (st, s) => (.error (refusedCause st), s)
     else deeper part va wr level s e) = entryMet part va wr level s key a e := by
  have absent : (!e.testBit 0 || malformed part level va e) = true ↔ e.testBit 0 = false ∨ malformed part level va e = true := by
    simp
  have written : (match sealWrite s key 1 a (toBytes 16 (markedEntry wr e)) with
      | (0, s) => (Except.ok (markedEntry wr e, level), s)
      | (st, s) => (.error (refusedCause st), s)) =
      (let w := sealWrite s key 1 a (toBytes 16 (markedEntry wr e))
       if w.1 = 0 then (.ok (markedEntry wr e, level), w.2) else (.error (refusedCause w.1), w.2)) := by
    generalize sealWrite s key 1 a _ = w
    obtain ⟨_ | st, s1⟩ := w <;> rfl
  simp only [absent, written]
  rfl

section walk
variable (s : State) (part : Option Nat) (va : Nat) (wr : Bool) (level node key : Nat)

/-- One level of a walk: the crossbar, the read of the entry, and what it makes of it. -/
theorem walkFrom_eq : walkFrom part va wr level s node key =
    (let a := node + 16 * walkIndex level va
     let got := sealRead s key 4 a 16
     if xbarAllows s part a = false then (.error 9, (part.map (addDeny s)).getD s)
     else if got.1 ≠ 0 then (.error (refusedCause got.1), got.2.2)
     else entryMet part va wr level got.2.2 key a (ofBytes got.2.1)) := by
  have denied : (match part with | some n => addDeny s n | none => s) = (part.map (addDeny s)).getD s := by
    cases part <;> rfl
  cases level
  all_goals
    conv_lhs => unfold walkFrom
    dsimp only
    cases xbarAllows s part _ with
    | false => rw [← denied]; rfl
    | true =>
      generalize sealRead s key 4 _ 16 = got
      obtain ⟨_ | st, l, s1⟩ := got
      · exact entryMet_read ..
      · rfl

theorem level_le_two {e : Nat} (leaf : e.testBit 7 = true) (formed : malformed part level va e ≠ true) : level ≤ 2 :=
  Nat.not_lt.1 fun high => formed ((malformed_leaf part level va e leaf).2 (.inl high))

theorem leafMet_level {key a e e' k : Nat} {s s1 : State} (found : leafMet wr level s key a e = (.ok (e', k), s1)) :
    k = level := by
  simp only [leafMet] at found
  split_ifs at found
  · cases found; rfl
  · cases found; rfl
  · cases found

/-- An entry that a walk meets ends it at a leaf, or leads to the next level. -/
theorem entryMet_found {a e e' k : Nat} {s1 : State} (found : entryMet part va wr level s key a e = (.ok (e', k), s1)) :
    (k = level ∧ level ≤ 2) ∨ deeper part va wr level s e = (.ok (e', k), s1) := by
  unfold entryMet at found
  split_ifs at found with bad refused leaf
  · cases found
  · cases found
  · exact .inl ⟨leafMet_level wr level found, level_le_two part va level leaf (not_or.1 bad).2⟩
  · exact .inr found

/-- A walk that ends has met an entry. -/
theorem walkFrom_found {e k : Nat} {s1 : State} (found : walkFrom part va wr level s node key = (.ok (e, k), s1)) :
    ∃ s2 a e2, entryMet part va wr level s2 key a e2 = (.ok (e, k), s1) := by
  rw [walkFrom_eq] at found
  dsimp only at found
  split_ifs at found
  · cases found
  · cases found
  · exact ⟨_, _, _, found⟩

/-- A walk ends at a leaf of level 2 at most. -/
theorem walkFrom_level {e k : Nat} {s1 : State} (found : walkFrom part va wr level s node key = (.ok (e, k), s1)) : k ≤ 2 := by
  induction level generalizing s node key with
  | zero =>
    obtain ⟨s2, a, e2, met⟩ := walkFrom_found _ _ _ _ _ _ _ found
    rcases entryMet_found _ _ _ _ _ _ met with ⟨same, le⟩ | deep
    · exact same ▸ le
    · cases deep
  | succ n ih =>
    obtain ⟨s2, a, e2, met⟩ := walkFrom_found _ _ _ _ _ _ _ found
    rcases entryMet_found _ _ _ _ _ _ met with ⟨same, le⟩ | deep
    · exact same ▸ le
    · exact ih _ _ _ deep

end walk

/-! ### The claim on translations -/

/-- Where a walk starts, and under which key. -/
def walkRoot (s : State) (part : Option Nat) : Nat × Nat :=
  match part with
  | some n => (s.dfield (aPtRoot n) 0 52, s.dfield (aPtRoot n) 52 11)
  | none => (s.fwRoot / 8192 * 8192, 0)

theorem walk_eq (s : State) (part : Option Nat) (va : Nat) (wr : Bool) : walk s part va wr =
    (match walkFrom part va wr 4 s (walkRoot s part).1 (walkRoot s part).2 with
     | (.ok (e, level), s) =>
       (.ok { part := part, base := va / pageSize level * pageSize level, size := pageSize level, pte := pteOf e }, s)
     | (.error c, s) => (.error c, s)) := by
  cases part <;> rfl

theorem xlate_far {s : State} {part core : Option Nat} {va : Nat} {wr : Bool} (far : 2 ^ 57 ≤ va) :
    xlate s part core va wr = (.error 6, s) := if_pos far

theorem xlate_near {s : State} {part core : Option Nat} {va : Nat} {wr : Bool} (near : va < 2 ^ 57) :
    xlate s part core va wr = (match cached true s core part va wr with
      | some x => (.ok x, s)
      | none => match walk s part va wr with
        | (.ok x, s) => (.ok x, cacheFill true s core x)
        | (.error c, s) => (.error c, s)) := if_neg (Nat.not_le.2 near)

theorem cached_some {s : State} {part core : Option Nat} {va : Nat} {wr : Bool} {x : Tlb}
    (hit : cached true s core part va wr = some x) : ∃ c, core = some c ∧
      (x ∈ fget noTlbs s.tlb1 c ∨ x ∈ fget noTlbs s.tlb2 (c / 4)) ∧ x.part = part ∧ x.base ≤ va ∧ va < x.base + x.size ∧
      (wr = true → x.pte.wr = true → x.pte.dirty = true) := by
  unfold cached at hit
  cases core with
  | none => cases hit
  | some c =>
    dsimp only at hit
    split at hit
    · next y found =>
      split at hit
      · cases hit
      · next usable =>
        obtain rfl := Option.some.inj hit
        have mem := List.mem_of_find?_eq_some found
        have maps := List.find?_some found
        simp only [if_true, List.mem_append] at mem
        simp only [Tlb.maps, Bool.and_eq_true, decide_eq_true_eq, and_assoc] at maps
        refine ⟨c, rfl, mem, maps.1, maps.2.1, maps.2.2, fun write allowed => ?_⟩
        simp [write, allowed] at usable
        exact usable.1
    · cases hit

theorem entryMet_refused {part : Option Nat} {va : Nat} {wr : Bool} {level : Nat} {s : State} {key a e : Nat}
    (present : e.testBit 0 = true) (formed : malformed part level va e = false) (refused : keyRefused s part e = true) :
    entryMet part va wr level s key a e = (.error 7, s) := by
  rw [entryMet, if_neg (by simp [present, formed]), if_pos refused]

/-- A walk that has read a present, well-formed entry, of a key that the partition may use. -/
theorem entryMet_good {part : Option Nat} {va : Nat} {wr : Bool} {level : Nat} {s : State} {key a e : Nat}
    (present : e.testBit 0 = true) (formed : malformed part level va e = false) (allowed : ¬ keyRefused s part e = true) :
    entryMet part va wr level s key a e =
      if e.testBit 7 = true then leafMet wr level s key a e else deeper part va wr level s e := by
  rw [entryMet, if_neg (by simp [present, formed]), if_neg allowed]

theorem markedEntry_eq (wr : Bool) (e : Nat) :
    markedEntry wr e = e ||| (if wr = true ∧ e.testBit 2 = true then 0x60 else 0x20) := by
  simp only [markedEntry, Bool.and_eq_true]

section met
variable {s : State} {part : Option Nat} {va : Nat} {wr : Bool} {level node key a : Nat} (le : level ≤ 4)
  (at_ : node + 16 * (if level = 0 then va / 2 ^ 16 % 32 else va / 2 ^ (12 + 9 * level) % 512) = a)
include le at_

theorem walkFrom_shut (shut : xbarAllows s part a = false) :
    walkFrom part va wr level s node key = (.error 9, (part.map (addDeny s)).getD s) := by
  rw [walkFrom_eq, walkIndex_eq le, at_]; exact if_pos shut

theorem walkFrom_unread (reach : xbarAllows s part a = true) (fails : (sealRead s key 4 a 16).1 ≠ 0) :
    walkFrom part va wr level s node key =
      (.error (refusedCause (sealRead s key 4 a 16).1), (sealRead s key 4 a 16).2.2) := by
  rw [walkFrom_eq, walkIndex_eq le, at_]
  exact (if_neg (by simp [reach])).trans (if_pos fails)

theorem walkFrom_met (reach : xbarAllows s part a = true) (read : (sealRead s key 4 a 16).1 = 0) :
    walkFrom part va wr level s node key =
      entryMet part va wr level (sealRead s key 4 a 16).2.2 key a (ofBytes (sealRead s key 4 a 16).2.1) := by
  rw [walkFrom_eq, walkIndex_eq le, at_]
  exact (if_neg (by simp [reach])).trans (if_neg (not_not_intro read))

end met

section leaf
variable {s : State} {part : Option Nat} {va : Nat} {wr : Bool} {level key a e e' : Nat} (present : e.testBit 0 = true)
  (formed : malformed part level va e = false) (allowed : ¬ keyRefused s part e = true)
include present formed allowed

theorem entryMet_node (node : e.testBit 7 = false) : entryMet part va wr level s key a e =
    walkFrom part va wr (level - 1) s (pteOf e).addr (pteOf e).key := by
  rw [entryMet_good present formed allowed, if_neg (by simp [node])]
  cases level with
  | zero => rw [(malformed_node part 0 va e node).2 (.inl rfl)] at formed; cases formed
  | succ k => rfl

variable (leaf : e.testBit 7 = true) (marked : markedEntry wr e = e')
include leaf marked

theorem entryMet_same (same : e' = e) : entryMet part va wr level s key a e = (.ok (e, level), s) := by
  rw [entryMet_good present formed allowed, if_pos leaf, leafMet, if_pos (marked.trans same)]

theorem entryMet_written (new : e' ≠ e) (written : (sealWrite s key 1 a (toBytes 16 e')).1 = 0) :
    entryMet part va wr level s key a e = (.ok (e', level), (sealWrite s key 1 a (toBytes 16 e')).2) := by
  rw [entryMet_good present formed allowed, if_pos leaf, leafMet, marked, if_neg new]
  exact if_pos written

theorem entryMet_unwritten (new : e' ≠ e) (refused : (sealWrite s key 1 a (toBytes 16 e')).1 ≠ 0) :
    entryMet part va wr level s key a e = (.error (refusedCause (sealWrite s key 1 a (toBytes 16 e')).1),
      (sealWrite s key 1 a (toBytes 16 e')).2) := by
  rw [entryMet_good present formed allowed, if_pos leaf, leafMet, marked, if_neg new]
  exact if_neg refused

end leaf

section found
variable {s : State} {part core : Option Nat} {va : Nat} {wr : Bool}

theorem walk_fails {e : Nat} (fails : (walkFrom part va wr 4 s (walkRoot s part).1 (walkRoot s part).2).1 = .error e) :
    walk s part va wr = (.error e, (walkFrom part va wr 4 s (walkRoot s part).1 (walkRoot s part).2).2) := by
  rw [walk_eq]
  generalize walkFrom part va wr 4 s _ _ = w at fails ⊢
  obtain ⟨c | x, s1⟩ := w
  · cases fails; rfl
  · cases fails

theorem walk_finds {e level : Nat}
    (found : (walkFrom part va wr 4 s (walkRoot s part).1 (walkRoot s part).2).1 = .ok (e, level)) : level ≤ 2 ∧
    walk s part va wr =
      (.ok { part := part, base := va / pageSize level * pageSize level, size := pageSize level, pte := pteOf e },
        (walkFrom part va wr 4 s (walkRoot s part).1 (walkRoot s part).2).2) := by
  rw [walk_eq]
  have high := fun s1 => walkFrom_level s part va wr 4 (walkRoot s part).1 (walkRoot s part).2 (e := e) (k := level) (s1 := s1)
  generalize walkFrom part va wr 4 s _ _ = w at found high ⊢
  obtain ⟨c | x, s1⟩ := w
  · cases found
  · cases found; exact ⟨high s1 rfl, rfl⟩

variable (near : va < 2 ^ 57) (miss : cached true s core part va wr = none)
include near miss

theorem xlate_fails {e : Nat} (fails : (walk s part va wr).1 = .error e) :
    xlate s part core va wr = (.error e, (walk s part va wr).2) := by
  rw [xlate_near near, miss]
  generalize walk s part va wr = w at fails ⊢
  obtain ⟨c | x, s1⟩ := w <;> cases fails
  rfl

theorem xlate_finds {x : Tlb} (found : (walk s part va wr).1 = .ok x) :
    xlate s part core va wr = (.ok x, cacheFill true (walk s part va wr).2 core x) := by
  rw [xlate_near near, miss]
  generalize walk s part va wr = w at found ⊢
  obtain ⟨c | y, s1⟩ := w <;> cases found
  rfl

end found

theorem translation : Claims.Translation := by
  refine ⟨fun s part core va wr => ⟨xlate_far, fun near x hit => ?_, fun near miss => ⟨fun e => xlate_fails near miss,
    fun x => xlate_finds near miss⟩, fun x => cached_some⟩, fun s part va wr => ⟨fun e => walk_fails, fun e level found => ?_⟩,
    fun s part va wr level node key le => ⟨walkFrom_shut le rfl, walkFrom_unread le rfl, fun reach read => ?_⟩,
    fun part level va e le => ⟨malformed_leaf part level va e, malformed_node part level va e⟩⟩
  · rw [xlate_near near, hit]
  · obtain ⟨low, finds⟩ := walk_finds found
    rw [pageSize_eq low] at finds
    exact ⟨low, finds⟩
  · rw [walkFrom_met le rfl reach read]
    refine ⟨fun bad => if_pos bad, fun present formed => ⟨fun out => ?_, fun good node_ => ?_, fun good leaf same => ?_,
      fun good leaf new => ?_, fun good leaf new => ?_⟩⟩
    · exact entryMet_refused present formed ((keyRefused_iff ..).2 out)
    · exact entryMet_node present formed (mt (keyRefused_iff ..).1 good) node_
    · exact entryMet_same present formed (mt (keyRefused_iff ..).1 good) leaf (markedEntry_eq ..) same
    · exact entryMet_written present formed (mt (keyRefused_iff ..).1 good) leaf (markedEntry_eq ..) new
    · exact entryMet_unwritten present formed (mt (keyRefused_iff ..).1 good) leaf (markedEntry_eq ..) new

end Sys2Proof.Machine
end

section
/-! PROOFS. The seal units and a walk leave the translation caches alone; what WALK_COMPLETION fills (R154, R155). -/

namespace Sys2Proof.Machine

set_option Elab.async false

/-- The translation caches of s' are those of s. -/
def SameCaches (s s' : State) : Prop := s'.tlb1 = s.tlb1 ∧ s'.tlb2 = s.tlb2

namespace SameCaches

theorem refl (s : State) : SameCaches s s := ⟨rfl, rfl⟩

theorem trans {a b c : State} (h : SameCaches a b) (h' : SameCaches b c) : SameCaches a c :=
  ⟨h'.1.trans h.1, h'.2.trans h.2⟩

theorem putMetaByte (s : State) (a : Nat) (b : Byte) : SameCaches s (putMetaByte s a b) := by
  unfold Machine.putMetaByte
  extract_lets
  split
  · exact ⟨rfl, rfl⟩
  · split <;> exact ⟨rfl, rfl⟩

theorem putMeta (s : State) (a : Nat) (l : List Byte) : SameCaches s (putMeta s a l) := by
  have bytes (l : List Byte) (x : State × Nat) :
      SameCaches x.1 (l.foldl (fun (x : State × Nat) b => (Machine.putMetaByte x.1 x.2 b, x.2 + 1)) x).1 := by
    induction l generalizing x with
    | nil => exact refl _
    | cons b l ih => exact (putMetaByte x.1 x.2 b).trans (ih _)
  exact (bytes l (s, a)).trans ⟨rfl, rfl⟩

theorem sealCheck (s : State) (key t : Nat) : SameCaches s (sealCheck s key t).2 := by
  unfold Machine.sealCheck
  dsimp only
  repeat' split
  all_goals exact ⟨rfl, rfl⟩

theorem pathWritten (s : State) (t : Nat) : SameCaches s (pathWritten s t) := by
  unfold Machine.pathWritten; split <;> exact ⟨rfl, rfl⟩

theorem sealStore (s : State) (key a : Nat) (l : List Byte) : SameCaches s (sealStore s key a l).2 := by
  unfold Machine.sealStore
  grind [SameCaches, putMeta, pathWritten, sealCheck, State.putCaddy]

theorem ringAppend (hdr : List Byte) (cap : Nat) {w : State → Nat → List Byte → State}
    (hw : ∀ s o l, SameCaches s (w s o l)) (s : State) (r : List Byte) : SameCaches s (ringAppend hdr cap w s r) := by
  unfold Machine.ringAppend
  dsimp only
  split
  · exact hw _ _ _
  · exact ((hw _ _ _).trans (hw _ _ _)).trans (hw _ _ _)

theorem sealRecord (s : State) (part paddr source status granule : Nat) :
    SameCaches s (sealRecord s part paddr source status granule) := by
  unfold Machine.sealRecord
  dsimp only
  split
  · exact ⟨rfl, rfl⟩
  · have checked := sealCheck { s with sealSeq := s.sealSeq + 1 } 0 (tileOf (s.dfield aSealBase 0 52))
    split <;> rename_i e <;> rw [e] at checked
    · exact checked
    · refine trans (b := _) ?_ (ringAppend _ _ (fun s o l => sealStore s 0 _ l) _ _)
      split <;> exact checked

theorem nodeLog (s : State) (a : Nat) : SameCaches s (nodeLog s a) := by
  unfold Machine.nodeLog
  split
  · next x _ =>
    split
    · exact refl s
    · exact sealRecord { s with treeAlt := fset noEntry s.treeAlt a (some { x with logged := true }) } ..
  · exact refl s

theorem failLog (s : State) (t source : Nat) (f : SealFail) : SameCaches s (failLog s t source f) := by
  unfold Machine.failLog
  split
  · exact nodeLog ..
  · exact sealRecord ..

theorem refuseLog (s : State) (t source : Nat) (f : SealFail) : SameCaches s (refuseLog s t source f) := by
  unfold Machine.refuseLog
  dsimp only
  split
  · exact (failLog ..).trans (failLog ..)
  · exact failLog ..

theorem sealRead (s : State) (key source a n : Nat) : SameCaches s (sealRead s key source a n).2.2 := by
  unfold Machine.sealRead
  have checked := sealCheck s key (tileOf a)
  split
  · exact refl s
  · dsimp only
    split <;> rename_i s1 e <;> rw [e] at checked <;> dsimp only at checked ⊢
    · exact checked.trans (failLog ..)
    · split
      · exact checked.trans (failLog s1 (tileOf a) 6 (.check _))
      · exact checked

theorem openTile (s : State) (key source a : Nat) (l : List Byte) : SameCaches s (openTile s key source a l).2 := by
  unfold Machine.openTile
  dsimp only
  have checked : SameCaches s _ := sealCheck s.bump key (tileOf a)
  split <;> rename_i e <;> rw [e] at checked
  · exact checked.trans (refuseLog ..)
  · split
    · exact checked.trans (nodeLog ..)
    · exact checked

theorem sealWrite (s : State) (key source a : Nat) (l : List Byte) : SameCaches s (sealWrite s key source a l).2 := by
  unfold Machine.sealWrite
  have stored := sealStore s key a l
  split
  · exact openTile ..
  · split <;> rename_i e <;> rw [e] at stored
    · exact stored
    · exact stored.trans (refuseLog ..)

theorem leafMet (wr : Bool) (level : Nat) (s : State) (key a e : Nat) : SameCaches s (leafMet wr level s key a e).2 := by
  have written := sealWrite s key 1 a (toBytes 16 (markedEntry wr e))
  unfold Machine.leafMet
  dsimp only
  split
  · exact refl s
  · split <;> exact written

theorem entryMet {part : Option Nat} {va : Nat} {wr : Bool} {level : Nat} {s : State} {key a e : Nat}
    (deep : SameCaches s (deeper part va wr level s e).2) : SameCaches s (entryMet part va wr level s key a e).2 := by
  unfold Machine.entryMet
  split
  · exact refl s
  · split
    · exact refl s
    · split
      · exact leafMet ..
      · exact deep

theorem denied (s : State) (part : Option Nat) : SameCaches s ((part.map (addDeny s)).getD s) := by
  cases part <;> exact ⟨rfl, rfl⟩

theorem walkFrom (part : Option Nat) (va : Nat) (wr : Bool) (level : Nat) (s : State) (node key : Nat) :
    SameCaches s (walkFrom part va wr level s node key).2 := by
  have read := sealRead s key 4 (node + 16 * walkIndex level va) 16
  induction level generalizing s node key with
  | zero =>
    rw [walkFrom_eq]
    dsimp only
    split
    · exact denied s part
    · split
      · exact read
      · exact read.trans (entryMet (refl _))
  | succ k ih =>
    rw [walkFrom_eq]
    dsimp only
    split
    · exact denied s part
    · split
      · exact read
      · exact read.trans (entryMet (ih _ _ _ (sealRead ..)))

theorem walk (s : State) (part : Option Nat) (va : Nat) (wr : Bool) : SameCaches s (walk s part va wr).2 := by
  have found := walkFrom part va wr 4 s (walkRoot s part).1 (walkRoot s part).2
  rw [walk_eq]
  split <;> rename_i e <;> rw [e] at found <;> exact found

end SameCaches

/-! ### What a walk fills (R154) -/

theorem mem_cacheAdd (n : Nat) (l : List Tlb) (x : Tlb) : x ∈ cacheAdd (n + 1) l x := by
  simp [cacheAdd]

theorem cacheAdd_length (n : Nat) (l : List Tlb) (x : Tlb) : (cacheAdd n l x).length ≤ n := List.length_take_le ..

section fill
variable (s : State) (core : Nat) (x : Tlb)

theorem cacheFill_tlb1 (k : Nat) : fget noTlbs (cacheFill true s (some core) x).tlb1 k =
    if k = core then cacheAdd 64 (fget noTlbs s.tlb1 core) x else fget noTlbs s.tlb1 k :=
  fget_fset noTlbs s.tlb1 core k (cacheAdd 64 (fget noTlbs s.tlb1 core) x)

theorem cacheFill_tlb2 (k : Nat) : fget noTlbs (cacheFill true s (some core) x).tlb2 k =
    if k = core / 4 then cacheAdd 2048 (fget noTlbs s.tlb2 (core / 4)) x else fget noTlbs s.tlb2 k :=
  fget_fset noTlbs s.tlb2 (core / 4) k (cacheAdd 2048 (fget noTlbs s.tlb2 (core / 4)) x)

end fill

section completion
variable {s : State} {core part : Nat} {va : DWord} {wr : Bool}

theorem walkCompletion_far (far : ¬ (core < 512 ∧ va.toNat < 2 ^ 57)) : exec (.walkCompletion core part va wr) s = .next s := by
  rw [exec_walkCompletion, execWalkCompletion, if_neg far]

variable (near : core < 512 ∧ va.toNat < 2 ^ 57)
include near

theorem walkCompletion_fails {e : Nat} (fails : (walk s (if part < 64 then some part else none) va.toNat wr).1 = .error e) :
    exec (.walkCompletion core part va wr) s = .next (walk s (if part < 64 then some part else none) va.toNat wr).2 := by
  rw [exec_walkCompletion, execWalkCompletion, if_pos near]
  generalize walk s _ va.toNat wr = w at fails ⊢
  obtain ⟨c | x, s1⟩ := w <;> cases fails
  rfl

theorem walkCompletion_fills {x : Tlb} (found : (walk s (if part < 64 then some part else none) va.toNat wr).1 = .ok x) :
    exec (.walkCompletion core part va wr) s =
      .next (cacheFill true (walk s (if part < 64 then some part else none) va.toNat wr).2 (some core) x) := by
  rw [exec_walkCompletion, execWalkCompletion, if_pos near]
  generalize walk s _ va.toNat wr = w at found ⊢
  obtain ⟨c | x, s1⟩ := w <;> cases found
  rfl

end completion

/-- WALK_COMPLETION: a walk fills its core's caches and its cluster's, within their sizes. -/
theorem walkCompletion_spec (s : State) (core part : Nat) (va : DWord) (wr : Bool) :
    (¬ (core < 512 ∧ va.toNat < 2 ^ 57) → exec (.walkCompletion core part va wr) s = .next s) ∧
    (core < 512 → va.toNat < 2 ^ 57 →
      let w := walk s (if part < 64 then some part else none) va.toNat wr
      MemSide s w.2 ∧ (∀ e, w.1 = .error e → exec (.walkCompletion core part va wr) s = .next w.2) ∧
      ∀ x, w.1 = .ok x → ∃ s', exec (.walkCompletion core part va wr) s = .next s' ∧ MemSide w.2 s' ∧
        x ∈ fget noTlbs s'.tlb1 core ∧ x ∈ fget noTlbs s'.tlb2 (core / 4) ∧
        (fget noTlbs s'.tlb1 core).length ≤ 64 ∧ (fget noTlbs s'.tlb2 (core / 4)).length ≤ 2048 ∧
        (∀ k, k ≠ core → fget noTlbs s'.tlb1 k = fget noTlbs s.tlb1 k) ∧
        (∀ k, k ≠ core / 4 → fget noTlbs s'.tlb2 k = fget noTlbs s.tlb2 k)) := by
  refine ⟨walkCompletion_far, fun coreLt vaLt => ⟨MemSide.walk .., fun e => walkCompletion_fails ⟨coreLt, vaLt⟩, fun x found => ?_⟩⟩
  obtain ⟨first, second⟩ := SameCaches.walk s (if part < 64 then some part else none) va.toNat wr
  refine ⟨_, walkCompletion_fills ⟨coreLt, vaLt⟩ found, MemSide.cacheFill .., ?_, ?_, ?_, ?_, fun k other => ?_, fun k other => ?_⟩
  · rw [cacheFill_tlb1, if_pos rfl]; exact mem_cacheAdd ..
  · rw [cacheFill_tlb2, if_pos rfl]; exact mem_cacheAdd ..
  · rw [cacheFill_tlb1, if_pos rfl]; exact cacheAdd_length ..
  · rw [cacheFill_tlb2, if_pos rfl]; exact cacheAdd_length ..
  · rw [cacheFill_tlb1, if_neg other, first]
  · rw [cacheFill_tlb2, if_neg other, second]

end Sys2Proof.Machine
end

section
/-! PROOFS. The parts of a translated tile, the performing of a tile, and the bytes of an engine access (R149, R152, R168 to
R176, R183, R193, R202, R213). -/

namespace Sys2Proof.Machine

set_option Elab.async false

open Sys2Proof.Claims

/-! ### The parts that a tile's side is accessed in (R172, R183) -/

theorem sideParts_hbm {p : Pte} (hbm : p.typ = 0) (a n : Nat) : sideParts p a n = [(0, n)] := if_pos hbm

/-- A part of another side: the bytes of one aligned 16 that the access has. -/
theorem mem_sideParts {p : Pte} (chip : p.typ ≠ 0) (a n : Nat) (q : Nat × Nat) : q ∈ sideParts p a n ↔
    ∃ b, a / 16 ≤ b ∧ b ≤ (a + n - 1) / 16 ∧ q = (max a (16 * b) - a, min (a + n) (16 * b + 16) - max a (16 * b)) := by
  rw [sideParts, if_neg chip, List.mem_map]
  constructor
  · rintro ⟨i, mem, rfl⟩
    rw [List.mem_range] at mem
    exact ⟨a / 16 + i, by omega, by omega, rfl⟩
  · rintro ⟨b, lo, hi, rfl⟩
    exact ⟨b - a / 16, List.mem_range.2 (by omega), by rw [Nat.add_sub_cancel' lo]⟩

theorem sideParts_within {p : Pte} (chip : p.typ ≠ 0) {a n : Nat} (pos : 0 < n) {q : Nat × Nat} (mem : q ∈ sideParts p a n) :
    0 < q.2 ∧ q.1 + q.2 ≤ n ∧ (a + q.1) / 16 = (a + q.1 + q.2 - 1) / 16 := by
  obtain ⟨b, lo, hi, rfl⟩ := (mem_sideParts chip a n q).1 mem
  dsimp only
  omega

/-- Each byte of a side is in one part. -/
theorem sideParts_cover (p : Pte) {a n i : Nat} (lt : i < n) : ∃! q, q ∈ sideParts p a n ∧ q.1 ≤ i ∧ i < q.1 + q.2 := by
  by_cases hbm : p.typ = 0
  · rw [sideParts_hbm hbm]
    exact ⟨(0, n), ⟨List.mem_singleton_self _, Nat.zero_le i, by omega⟩, fun q h => List.mem_singleton.1 h.1⟩
  · refine ⟨(max a (16 * ((a + i) / 16)) - a, min (a + n) (16 * ((a + i) / 16) + 16) - max a (16 * ((a + i) / 16))),
      ⟨(mem_sideParts hbm a n _).2 ⟨(a + i) / 16, by omega, by omega, rfl⟩, by dsimp only; omega, by dsimp only; omega⟩, ?_⟩
    rintro q ⟨mem, lo, hi⟩
    obtain ⟨b, first, last, rfl⟩ := (mem_sideParts hbm a n q).1 mem
    dsimp only at lo hi
    obtain rfl : b = (a + i) / 16 := by omega
    rfl

/-! ### A part that is read -/

theorem MemSide.logGranules (s : State) (r : Requester) (l : List Nat) : MemSide s (logGranules s r l) := by
  induction l generalizing s with
  | nil => exact MemSide.refl s
  | cons g l ih => exact (MemSide.checkLog s r.part g).trans (ih _)

theorem MemSide.pageReadBut (logged : List Nat) (s : State) (r : Requester) (p : Pte) (pa n : Nat) :
    MemSide s (pageReadBut logged s r p pa n).2.2 := by
  unfold Machine.pageReadBut
  split
  · exact MemSide.sealRead ..
  · exact MemSide.refl s
  · split
    · exact MemSide.logGranules ..
    · exact MemSide.refl s

section part
variable (s : State) (c : Copy) (x : LateTile) (p : Nat × Nat)

theorem part_read (mem : p ∈ x.reads) : x.part s c (false, p) =
    (let got := pageReadBut x.logged s c.requester x.srcPage.pte (x.srcAt + p.1) p.2
     ({ x.meet got.1 with reads := x.reads.filter fun q => q != p, begun := true, buf := Memory.write x.buf p.1 got.2.1
                          logged := x.logged ++ failingGranules s c.requester x.srcPage.pte (x.srcAt + p.1) p.2 }, got.2.2)) :=
  if_pos (List.contains_iff_mem.2 mem)

theorem part_unread (gone : p ∉ x.reads) : x.part s c (false, p) = (x, s) :=
  if_neg (mt List.contains_iff_mem.1 gone)

/-- A part that may be written: it is still to come, and its bytes have been read. -/
def writeReady (x : LateTile) (p : Nat × Nat) : Prop := p ∈ x.writes ∧ ∀ y ∈ x.reads, y.1 + y.2 ≤ p.1 ∨ p.1 + p.2 ≤ y.1

theorem writeReady_iff : (x.writes.contains p && !x.reads.any (overlaps p)) = true ↔ writeReady x p := by
  simp [writeReady, overlaps, or_iff_not_imp_left]

theorem part_unready (held : ¬ writeReady x p) : x.part s c (true, p) = (x, s) :=
  if_neg (mt (writeReady_iff x p).1 held)

theorem part_write (ready : writeReady x p) : x.part s c (true, p) = x.writePart s c p :=
  if_pos ((writeReady_iff x p).2 ready)

/-- A tile that meets, with its first write, failing granules that it covers in part. -/
def torn (s : State) (c : Copy) (x : LateTile) : Prop :=
  x.writes = sideParts x.dstPage.pte x.dstAt x.n ∧ partGranules s c.requester x.dstPage.pte x.dstAt x.n ≠ []

theorem writePart_torn (h : torn s c x) : x.writePart s c p = ({ x.meet 6 with reads := [], writes := [], begun := true },
    logGranules s c.requester (partGranules s c.requester x.dstPage.pte x.dstAt x.n)) := by
  obtain ⟨first, some_⟩ := h
  obtain ⟨g, gs, eq⟩ := List.exists_cons_of_ne_nil some_
  have whole : x.unwritten = true := beq_iff_eq.2 first
  simp only [LateTile.writePart, whole, if_true, eq]

theorem writePart_whole (h : ¬ torn s c x) : x.writePart s c p =
    (let q := x.dstPage.pte
     let l := Memory.read x.buf p.1 p.2
     let w := if q.typ ≤ 1 then pageWrite s c.requester q ((overrideKey c x.desc).getD q.key) (x.dstAt + p.1) l
       else (0, placeWrite s (pagePlace c.requester q) (x.dstAt + p.1) l false)
     ({ x.meet w.1 with writes := x.writes.filter fun y => y != p, begun := true, wrote := x.wrote || w.1 == 0 }, w.2)) := by
  have none_ : (if x.unwritten then partGranules s c.requester x.dstPage.pte x.dstAt x.n else []) = [] := by
    split
    · next first => exact not_not.1 fun some_ => h ⟨beq_iff_eq.1 first, some_⟩
    · rfl
  simp only [LateTile.writePart, none_]

end part

theorem MemSide.withHost {s s' : State} (side : MemSide s s') : MemSide { s with host := s'.host } s' := by
  unfold MemSide at side ⊢
  rw [side]

theorem MemSide.pageWrite_memory {s : State} {r : Requester} {p : Pte} {k pa : Nat} {l : List Byte} (memory : p.typ ≤ 1) :
    MemSide { s with host := (pageWrite s r p k pa l).2.host } (pageWrite s r p k pa l).2 := by
  unfold Machine.pageWrite
  rcases Nat.le_one_iff_eq_zero_or_eq_one.1 memory with typ | typ <;> rw [typ]
  · exact (MemSide.sealWrite s k 1 pa l).withHost
  · rfl

theorem Memory.get_write_inside (m : Memory) (a : Nat) {l : List Byte} {i : Nat} (lt : i < l.length) :
    Memory.get (Memory.write m a l) (a + i) = l[i] := by
  rw [get_write, if_pos ⟨Nat.le_add_right a i, Nat.add_lt_add_left lt a⟩, Nat.add_sub_cancel_left,
    List.getElem?_eq_getElem lt, Option.getD_some]

theorem tileParts : Claims.TileParts := by
  refine ⟨fun p a n pos => ⟨fun hbm => sideParts_hbm hbm a n, fun chip q mem => sideParts_within chip pos mem,
    fun i lt => sideParts_cover p lt⟩, fun s c x p => ⟨⟨part_unread s c x p, fun mem => ?_⟩, part_unready s c x p,
    fun ready torn_ => ?_, fun ready whole => ⟨fun memory => ?_, fun chip => ?_⟩⟩⟩
  · rw [part_read s c x p mem]
    refine ⟨MemSide.pageReadBut .., rfl, rfl, fun i lt => ?_, fun b out => Memory.get_write_outside _ _ _ _ out⟩
    exact Memory.get_write_inside _ _ lt
  · rw [part_write s c x p ready, writePart_torn s c x p torn_]
    exact ⟨MemSide.logGranules .., rfl⟩
  · rw [part_write s c x p ready, writePart_whole s c x p whole]
    dsimp only
    rw [if_pos memory]
    exact ⟨MemSide.pageWrite_memory memory, rfl, rfl⟩
  · rw [part_write s c x p ready, writePart_whole s c x p whole]
    dsimp only
    rw [if_neg (Nat.not_le.2 chip)]
    exact ⟨rfl, rfl⟩

/-! ### A tile that is performed (R174, R175, R183) -/

theorem performs_eq (c : Copy) (l : List (Bool × Nat × Nat)) (x : LateTile) (s : State) :
    LateTile.performs c l x s = l.foldl (fun (z : LateTile × State) q => z.1.part z.2 c q) (x, s) := by
  induction l generalizing x s with
  | nil => rfl
  | cons q l ih => exact ih _ _

theorem placeByte_freshenGranule (s : State) (p q : Place) (g b : Nat) :
    placeByte (freshenGranule s p g) q b = placeByte s q b := by
  cases p with
  | scratch c => cases q <;> rfl
  | frame u => rfl
  | shared w =>
    unfold freshenGranule
    dsimp only
    split
    · next x has =>
      cases q with
      | scratch c => rfl
      | frame u => rfl
      | shared g' =>
        by_cases same : g' = w
        · subst same; simp only [placeByte, State.wg_putWg_same, has]
        · simp only [placeByte, State.wg_putWg_other _ _ same]
    · rfl

theorem placeByte_freshen (x : LateTile) (s : State) (c : Copy) (q : Place) (b : Nat) :
    placeByte (x.freshen s c) q b = placeByte s q b := by
  have granules (l : List Nat) (p : Place) (s : State) :
      placeByte (l.foldl (fun s g => freshenGranule s p g) s) q b = placeByte s q b := by
    induction l generalizing s with
    | nil => rfl
    | cons g l ih => rw [List.foldl_cons, ih, placeByte_freshenGranule]
  unfold LateTile.freshen
  split
  · exact granules ..
  · rfl

theorem over_iff (x : LateTile) : x.over = true ↔ x.reads = [] ∧ x.writes = [] := by simp [LateTile.over]

section reseal
variable (s : State) (c : Copy) (x : LateTile)

theorem resealTile_same (same : x.srcPage.pte.key = (overrideKey c x.desc).getD x.dstPage.pte.key) :
    resealTile s c x = (8, s) := if_pos same

/-- The caddy of a tile that has been resealed under a key. -/
def resealedCaddy (s : State) (key : Nat) : Caddy :=
  { version := 1, key := key, state := 1, pad := 0, tag := none, sealedWith := keyValue s key, sealedVersion := 1 }

theorem State.caddy_putCaddy_same (s : State) (t : Nat) (c : Caddy) : (s.putCaddy t c).caddy t = c := fget_fset_same ..

theorem keyValue_of_memSide {s s' : State} (side : MemSide s s') (k : Nat) : keyValue s' k = keyValue s k := by
  rw [side]; rfl

/-- A tile's plaintext l, once it has been read, is written whole under another key. -/
def resealWrite (s : State) (t key : Nat) (l : List Byte) : Nat × State :=
  match pathFail s t, s.flight with
  | some a, _ => (1, nodeLog s a)
  | none, some g => (6, refuseLog { s with flight := none } t 1 (.check g))
  | none, none =>
    (0, { pathWritten s t with hbm := Memory.write (fclear s.hbm (t * 2048) 2048) (t * 2048) l }.putCaddy t (resealedCaddy s key))

theorem MemSide.resealWrite (s : State) (t key : Nat) (l : List Byte) : MemSide s (resealWrite s t key l).2 := by
  unfold Machine.resealWrite
  split
  · exact MemSide.nodeLog ..
  · dsimp only
    exact (MemSide.putFlight s none).trans (MemSide.refuseLog ..)
  · exact ((MemSide.pathWritten s t).trans (MemSide.putHbm ..)).trans (MemSide.putCaddy ..)

theorem resealWrite_caddy {s : State} {t key : Nat} {l : List Byte} (ok : (resealWrite s t key l).1 = 0) :
    (resealWrite s t key l).2.caddy t = resealedCaddy s key := by
  unfold resealWrite at ok ⊢
  split at ok
  · cases ok
  · cases ok
  · exact State.caddy_putCaddy_same ..

theorem resealTile_other (other : x.srcPage.pte.key ≠ (overrideKey c x.desc).getD x.dstPage.pte.key) : resealTile s c x =
    (let got := sealRead (closeTile s (tileOf x.srcAt)) x.srcPage.pte.key 0 (tileOf x.srcAt * 2048) 2048
     if got.1 = 0 then resealWrite got.2.2 (tileOf x.srcAt) ((overrideKey c x.desc).getD x.dstPage.pte.key) got.2.1
     else (got.1, got.2.2)) := by
  unfold resealTile
  dsimp only
  rw [if_neg other]
  generalize sealRead _ _ _ _ _ = got
  obtain ⟨_ | st, l, s1⟩ := got <;> rfl

theorem resealTile_spec : MemSide s (resealTile s c x).2 ∧
    (x.srcPage.pte.key ≠ (overrideKey c x.desc).getD x.dstPage.pte.key → (resealTile s c x).1 = 0 →
      (resealTile s c x).2.caddy (x.srcAt / 2048) = resealedCaddy s ((overrideKey c x.desc).getD x.dstPage.pte.key)) := by
  by_cases same : x.srcPage.pte.key = (overrideKey c x.desc).getD x.dstPage.pte.key
  · rw [resealTile_same s c x same]
    exact ⟨MemSide.refl s, fun other => absurd same other⟩
  · have read := (MemSide.closeTile s (tileOf x.srcAt)).trans (MemSide.sealRead (closeTile s (tileOf x.srcAt))
      x.srcPage.pte.key 0 (tileOf x.srcAt * 2048) 2048)
    rw [resealTile_other s c x same]
    dsimp only
    split
    · refine ⟨read.trans (MemSide.resealWrite ..), fun _ ok => (resealWrite_caddy ok).trans ?_⟩
      rw [resealedCaddy, keyValue_of_memSide read, resealedCaddy]
    · next bad => exact ⟨read, fun _ ok => absurd ok bad⟩

end reseal

theorem performTile_reseal (p : Bool × Nat × Nat → Bool) {s : State} {c : Copy} {x : LateTile} (reseal : c.reseal = true) :
    performTile p s c x = ({ x.meet (resealTile s c x).1 with
      reads := [], writes := [], begun := true, wrote := (resealTile s c x).1 == 0 }, (resealTile s c x).2) := if_pos reseal

/-- The parts of a tile that p names, one after another. -/
def partsRun (p : Bool × Nat × Nat → Bool) (s : State) (c : Copy) (x : LateTile) : LateTile × State :=
  (x.parts.filter p).foldl (fun (z : LateTile × State) q => z.1.part z.2 c q) (x, s)

theorem performTile_plain (p : Bool × Nat × Nat → Bool) {s : State} {c : Copy} {x : LateTile} (plain : c.reseal = false) :
    performTile p s c x = ((partsRun p s c x).1,
      if (partsRun p s c x).1.over then (partsRun p s c x).1.freshen (partsRun p s c x).2 c else (partsRun p s c x).2) := by
  rw [performTile, if_neg (by simp [plain]), performs_eq]
  rfl

theorem freshen_unwritten {x : LateTile} {s : State} {c : Copy} (none_ : x.wrote = false) : x.freshen s c = s :=
  if_neg (by simp [none_])

theorem tileRuns : Claims.TileRuns := by
  intro p s c x
  refine ⟨fun reseal => ?_, fun plain => ?_⟩
  · obtain ⟨side, caddy⟩ := resealTile_spec s c x
    exact ⟨side, performTile_reseal p reseal, fun same => resealTile_same s c x same.symm, fun other => caddy (Ne.symm other)⟩
  · rw [performTile_plain p plain]
    refine ⟨rfl, fun goes => ?_, fun q b => ?_⟩
    · dsimp only
      split
      · next ended =>
        obtain ⟨reads, writes⟩ := (over_iff _).1 ended
        rcases goes with some_ | some_ | none_
        · exact absurd reads some_
        · exact absurd writes some_
        · exact freshen_unwritten none_
      · rfl
    · dsimp only
      split
      · exact placeByte_freshen ..
      · rfl

/-! ### The bytes of an engine access (R149, R152, R213) -/

theorem semValue_maxU (old v : DWord) : (semValue .maxU old v).toNat = max old.toNat v.toNat := by
  simp only [semValue, BitVec.ult, decide_eq_true_eq]
  split <;> omega

theorem engineBytes : Claims.EngineBytes := by
  refine ⟨fun s s1 r key va pa x l met host => ?_, fun s s1 r va pa n x met host => ?_,
    fun s r a v op odd => if_pos odd, fun old v => ⟨rfl, rfl, rfl, semValue_maxU old v⟩⟩
  · have eq : engineWrite s r key va l = (0, { s1 with host := Memory.write s1.host pa l }) := by
      simp [engineWrite, met, host, pageWrite]
    dsimp only
    rw [eq]
    exact ⟨rfl, rfl, fun i lt => Memory.get_write_inside _ _ lt, fun a out => Memory.get_write_outside _ _ _ _ out⟩
  · refine ⟨Memory.read s1.host pa n, by simp [engineRead, met, host, pageRead, pageReadBut], Memory.length_read ..,
      fun i lt => Memory.getElem?_read lt⟩

end Sys2Proof.Machine
end

section
/-! PROOFS. EngineEvents: COPY_TILE, SEMSIG_PERFORM, FAULT_RETRY and FAULT_UNRESOLVED (R154, R159 to R162, R193, R201, R202, R213,
R216, R310, R318). -/

namespace Sys2Proof.Machine

set_option Elab.async false

open Sys2Proof.Claims

/-! ### Which of the engine's steps keep the table of the copies -/

theorem MemSide.copies {s s' : State} (side : MemSide s s') : s'.copies = s.copies := by rw [side]

theorem MemSide.copy {s s' : State} (side : MemSide s s') (k : Nat) : s'.copy k = s.copy k := by
  rw [State.copy, side.copies, State.copy]

theorem fillResult_copies (s : State) (u word : Nat) (v : Word) : (fillResult s u word v).copies = s.copies := by
  unfold fillResult; split <;> rfl

theorem wake_copies (s : State) (ws : List Waiter) (v : Waiter → Word) : (wake s ws v).copies = s.copies := by
  unfold wake
  induction ws generalizing s with
  | nil => rfl
  | cons w ws ih => rw [List.foldl_cons, ih, fillResult_copies]

theorem arrive_copies (s : State) (g k : Nat) (team : Option Nat) (err : Option (Nat × Nat)) :
    (arrive s g k team err).copies = s.copies := by
  unfold arrive
  split
  · rfl
  · dsimp only
    split
    · rfl
    · split
      · exact wake_copies ..
      · rfl

theorem detach_copies (s : State) (g k c : Nat) : (detach s g k c).copies = s.copies := by
  unfold detach; split <;> rfl

theorem nodeDone_copies (s : State) (g i : Nat) (word : DWord) : (nodeDone s g i word).copies = s.copies := by
  unfold nodeDone; split <;> rfl

/-- A copy that completes leaves the engine. -/
theorem completeCopy_gone (s : State) (k st tile : Nat) : (completeCopy s k st tile).copy k = none := by
  have dropped : (s.dropCopy k).copy k = none := State.copy_dropCopy_same s k
  unfold completeCopy
  split
  · assumption
  · dsimp only
    split
    · rw [State.copy, nodeDone_copies]
      split
      · split <;> exact dropped
      · exact dropped
    · split
      · split
        · rw [State.copy, arrive_copies, detach_copies]; exact dropped
        · exact dropped
      · exact dropped

theorem finishCopy_gone (s : State) (k : Nat) : (finishCopy s k).copy k = none := by
  unfold finishCopy
  split
  · assumption
  · exact completeCopy_gone ..

/-- Reading HBM for an agent that is no team changes the memory side of the machine. -/
theorem MemSide.vread (host : Bool) (part core : Option Nat) (fuel : Nat) (s : State) (va n : Nat) :
    MemSide s (vread host part core fuel s va n).2 := by
  induction fuel generalizing s va n with
  | zero => exact MemSide.refl s
  | succ fuel ih =>
    unfold Machine.vread
    split
    · exact MemSide.refl s
    · have side := MemSide.xlate s part core va false
      split <;> rename_i eq <;> rw [eq] at side <;> dsimp only at side ⊢
      · exact side
      · next x s1 =>
        split
        · exact side
        · split
          · have rest := side.trans (ih s1 (va + min n (min (2048 - va % 2048) (x.base + x.size - va)))
              (n - min n (min (2048 - va % 2048) (x.base + x.size - va))))
            split <;> rename_i e <;> rw [e] at rest <;> exact rest
          · split
            · exact side
            · split
              · cases part with
                | none => exact side
                | some p => exact side.trans (MemSide.addDeny _ p)
              · have read := side.trans (MemSide.sealRead s1 x.pte.key 0 (x.pte.addr + (va - x.base))
                  (min n (min (2048 - va % 2048) (x.base + x.size - va))))
                split <;> rename_i e <;> rw [e] at read
                · next s2 =>
                  have rest := read.trans (ih s2 (va + min n (min (2048 - va % 2048) (x.base + x.size - va)))
                    (n - min n (min (2048 - va % 2048) (x.base + x.size - va))))
                  split <;> rename_i e <;> rw [e] at rest <;> exact rest
                · exact read

theorem raiseEvent_copies (s : State) (n bit : Nat) : (raiseEvent s n bit).copies = s.copies := by
  unfold raiseEvent; split <;> rfl

theorem MemSide.ringRecord (s : State) (n a : Nat) (r : List Byte) : MemSide s (ringRecord s n a r).2 := by
  unfold Machine.ringRecord
  dsimp only
  have side := MemSide.vread false (some n) none 3 s (dfld (s.dreg a) 0 57) 64
  split <;> rename_i e <;> rw [e] at side
  · exact side
  · next hdr s1 =>
    generalize (if dfld (s.dreg a) 57 6 = 0 ∨ 20 < dfld (s.dreg a) 57 6 then 0 else 2 ^ dfld (s.dreg a) 57 6) = cap
    dsimp only at side ⊢
    exact side.trans (MemSide.ringAppend hdr cap
      (fun s2 o l => MemSide.vwrite (some n) none 3 s2 (dfld (s.dreg a) 0 57 + o) l) s1 r)

theorem faultRecord_copies (s : State) (c : Copy) (va : Nat) (wr : Bool) : (faultRecord s c va wr).copies = s.copies := by
  unfold faultRecord
  extract_lets n p s1 launchId source rec_
  have side := MemSide.ringRecord s1 n (aFaultq n) rec_
  split <;> rename_i e <;> rw [e] at side
  · rw [raiseEvent_copies]; exact side.copies
  · exact side.copies

/-- A suspended copy stands at the tile at which it stood. -/
theorem suspend_copy (s : State) (k : Nat) (c : Copy) (va : Nat) (wr : Bool) :
    (suspend s k c va wr).copy k = some { c with suspended := some (opNs s c) } := by
  rw [suspend, State.copy, faultRecord_copies]
  exact State.copy_putCopy_same ..

theorem MemSide.aimTile (s : State) (c : Copy) (i : Nat) (p : CopyPos) : MemSide s (aimTile s c i p).2 := by
  unfold Machine.aimTile
  have side := MemSide.enginePage s c.requester p.src p.n false
  split <;> rename_i e <;> rw [e] at side
  · exact side
  · next s1 =>
    have side2 := side.trans (MemSide.enginePage s1 c.requester p.dst p.n true)
    split <;> rename_i e2 <;> rw [e2] at side2
    · exact side2
    · split <;> exact side2

theorem MemSide.resealTiles (c : Copy) (fuel : Nat) (s : State) (i : Nat) : MemSide s (resealTiles c fuel s i).2 := by
  induction fuel generalizing s i with
  | zero => exact MemSide.refl s
  | succ fuel ih =>
    unfold Machine.resealTiles
    split
    · exact MemSide.refl s
    · next p _ =>
      have side := MemSide.aimTile s c i p
      split <;> rename_i e <;> rw [e] at side
      all_goals
        split
        · exact side.trans (ih _ _)
        · exact side

theorem MemSide.resealOk (s : State) (c : Copy) : MemSide s (resealOk s c).2 := by
  unfold Machine.resealOk
  split
  · exact MemSide.resealTiles ..
  · exact MemSide.refl s

/-! ### A copy after one of its tiles -/

theorem settleCopy_ends {s : State} {k : Nat} {c : Copy} (late : c.late = [])
    (last : c.ended = true ∨ copyTileAt c.descs c.next = none) : settleCopy s k c = finishCopy (s.putCopy k c) k :=
  if_pos (by simpa [late] using last)

theorem settleCopy_goes {s : State} {k : Nat} {c : Copy}
    (more : c.late ≠ [] ∨ (c.ended = false ∧ copyTileAt c.descs c.next ≠ none)) : settleCopy s k c = s.putCopy k c := by
  refine if_neg ?_
  rcases more with late | ⟨on, left⟩
  · simp [late]
  · obtain ⟨p, has⟩ := Option.ne_none_iff_exists'.1 left
    simp [on, has]

theorem copyGoes_of {pay : State → State} {s : State} {k : Nat} {c : Copy} {out : Out}
    (goes : out = .next (settle (pay (settleCopy s k c)))) : CopyGoes pay s k c out :=
  ⟨fun late last => by rw [goes, settleCopy_ends late last], fun more => by rw [goes, settleCopy_goes more]⟩

theorem tileIs_eq (c : Copy) (y : LateTile) : c.tileIs y =
    if y.reads = [] ∧ y.writes = [] then
      { c with late := c.late.filter fun z => z.idx != y.idx, fail := firstFail c.fail y.st y.idx, wrote := c.wrote || y.wrote }
    else { c with late := c.late.map fun z => if z.idx = y.idx then y else z } := by
  simp only [Copy.tileIs, over_iff]

theorem copyRan_of {pay : State → State} {s : State} {k : Nat} {c : Copy} {x : LateTile} {out : Out}
    (ran : out = .next (settle (pay (runTile s k c x)))) : CopyRan pay s.bump k c x out := by
  refine ⟨fun p => Config.pick s.fresh (2 * p.2.1 + p.1.toNat) % 2 == 0, ?_⟩
  dsimp only
  rw [← tileIs_eq]
  exact copyGoes_of ran

/-! ### Whether a copy has come past its tile -/

theorem tileTaken_gone {s : State} {k : Nat} {c : Copy} (gone : s.copy k = none) : tileTaken s k c = true := by
  rw [tileTaken, gone]; rfl

theorem tileTaken_some {s : State} {k : Nat} {c x : Copy} (has : s.copy k = some x) :
    tileTaken s k c = (x.next != c.next) := by
  rw [tileTaken, has]; rfl

theorem tileTaken_settleCopy {s : State} {k : Nat} {c c' : Copy} (past : c'.next ≠ c.next) :
    tileTaken (settleCopy s k c') k c = true := by
  unfold settleCopy
  split
  · exact tileTaken_gone (finishCopy_gone ..)
  · rw [tileTaken_some (State.copy_putCopy_same ..)]
    exact bne_iff_ne.2 past

theorem tileIs_stands (c : Copy) (x : LateTile) :
    (c.tileIs x).next = c.next ∧ (c.tileIs x).ended = c.ended ∧ (c.tileIs x).descs = c.descs := by
  unfold Copy.tileIs; split <;> exact ⟨rfl, rfl, rfl⟩

theorem tileTaken_runTile {s : State} {k : Nat} {c c' : Copy} {x : LateTile} (past : c'.next ≠ c.next) :
    tileTaken (runTile s k c' x) k c = true :=
  tileTaken_settleCopy (by rw [(tileIs_stands _ _).1]; exact past)

/-- A copy that performs an earlier tile while it has another to translate stays at that one. -/
theorem tileTaken_runLate {s : State} {k : Nat} {c : Copy} {x : LateTile} {p : CopyPos} (position : c.position = some p) :
    tileTaken (runTile s k c x) k c = false := by
  unfold Copy.position at position
  split at position
  · cases position
  · next on =>
    unfold runTile
    generalize performTile _ s.bump c x = r
    obtain ⟨y, s1⟩ := r
    obtain ⟨next, ended, descs⟩ := tileIs_stands c y
    have more : (c.tileIs y).late ≠ [] ∨ ((c.tileIs y).ended = false ∧
        copyTileAt (c.tileIs y).descs (c.tileIs y).next ≠ none) :=
      .inr ⟨by rw [ended]; exact Bool.eq_false_iff.2 on, by rw [descs, next, position]; exact Option.some_ne_none p⟩
    dsimp only
    rw [settleCopy_goes more, tileTaken_some (State.copy_putCopy_same ..), next]
    exact bne_self_eq_false c.next

/-! ### COPY_TILE (R174, R193, R201, R202, R216, R310, R318) -/

/-- The copy's conditions at its first tile, and what judging them leaves. -/
def firstTile (s : State) (c : Copy) : Bool × State := if c.reseal ∧ c.next = 0 then resealOk s c else (true, s)

theorem MemSide.firstTile (s : State) (c : Copy) : MemSide s (firstTile s c).2 := by
  unfold Machine.firstTile
  split
  · exact MemSide.resealOk s c
  · exact MemSide.refl s

/-- A translation fails for a page that is not present. -/
def absent {α : Type} (got : Except (Nat × Nat × Bool) α) : Prop := ∃ va wr, got = .error (3, va, wr)

/-- What a copy's allowance pays for tile p. -/
def payTile (s : State) (c : Copy) (p : CopyPos) (s1 : State) : State :=
  match copyCluster s c with
  | some cl => debit s1 cl (ceilDiv p.n 8) c.requester.part.isNone
  | none => s1

section next
variable {s : State} {k : Nat} {c : Copy} {p : CopyPos}

/-- A run within a tile that a RESEAL copy has already resealed. -/
theorem nextTile_part (reseal : c.reseal = true) (within : p.src % 2048 ≠ 0) :
    nextTile s k c p = settleCopy s k { c with next := c.next + 1 } :=
  if_pos (by simp [reseal, resealsAt, within])

variable (whole : ¬ (c.reseal = true ∧ p.src % 2048 ≠ 0))
include whole

theorem nextTile_whole : nextTile s k c p = (match aimTile s c c.next p with
    | (.error (3, va, wr), s) =>
      match c.late with
      | [] => suspend s k c va wr
      | x :: _ => runTile s k c x
    | (.error (st, _), s) =>
      settleCopy s k { c with next := c.next + 1, ended := !tileOnly st, suspended := none, fail := firstFail c.fail st c.next }
    | (.ok x, s) =>
      let c' := { c with next := c.next + 1, late := c.late ++ [x], suspended := none }
      if c.reseal ∧ !x.oneTile then
        settleCopy s k { c with next := c.next + 1, ended := true, fail := firstFail c.fail 8 c.next }
      else if Config.pick s.fresh k % 2 = 0 then runTile s.bump k c' x else s.bump.putCopy k c') :=
  if_neg (by simpa [resealsAt] using whole)

theorem nextTile_absent {va : Nat} {wr : Bool} (gone : (aimTile s c c.next p).1 = .error (3, va, wr)) :
    nextTile s k c p = match c.late with
      | [] => suspend (aimTile s c c.next p).2 k c va wr
      | x :: _ => runTile (aimTile s c c.next p).2 k c x := by
  rw [nextTile_whole whole]
  generalize aimTile s c c.next p = got at gone ⊢
  obtain ⟨aim, s1⟩ := got
  cases gone
  rfl

theorem nextTile_fails {st va : Nat} {wr : Bool} (fails : (aimTile s c c.next p).1 = .error (st, va, wr)) (other : st ≠ 3) :
    nextTile s k c p = settleCopy (aimTile s c c.next p).2 k { c with
      next := c.next + 1, ended := decide (st ≠ 1 ∧ st ≠ 6), suspended := none, fail := firstFail c.fail st c.next } := by
  have ends : (!tileOnly st) = decide (st ≠ 1 ∧ st ≠ 6) := by simp [tileOnly, beq_eq_decide]
  rw [nextTile_whole whole, ← ends]
  generalize aimTile s c c.next p = got at fails ⊢
  obtain ⟨aim, s1⟩ := got
  cases fails
  dsimp only
  split
  · next same => injection same with same; injection same with same; injection same with same; exact absurd same other
  · next same => cases same; rfl
  · next same => cases same

theorem nextTile_translated {x : LateTile} (found : (aimTile s c c.next p).1 = .ok x) : nextTile s k c p =
    (let s1 := (aimTile s c c.next p).2
     let c' := { c with next := c.next + 1, late := c.late ++ [x], suspended := none }
     if c.reseal = true ∧ x.oneTile = false then
       settleCopy s1 k { c with next := c.next + 1, ended := true, fail := firstFail c.fail 8 c.next }
     else if Config.pick s1.fresh k % 2 = 0 then runTile s1.bump k c' x else s1.bump.putCopy k c') := by
  rw [nextTile_whole whole]
  generalize aimTile s c c.next p = got at found ⊢
  obtain ⟨aim, s1⟩ := got
  cases found
  simp only [Bool.not_eq_true']

theorem nextTile_apart {x : LateTile} (found : (aimTile s c c.next p).1 = .ok x) (reseal : c.reseal = true)
    (apart : x.oneTile = false) : nextTile s k c p = settleCopy (aimTile s c c.next p).2 k
      { c with next := c.next + 1, ended := true, fail := firstFail c.fail 8 c.next } :=
  (nextTile_translated whole found).trans (if_pos ⟨reseal, apart⟩)

theorem nextTile_fine {x : LateTile} (found : (aimTile s c c.next p).1 = .ok x) (fine : c.reseal = false ∨ x.oneTile = true) :
    nextTile s k c p =
      (let s1 := (aimTile s c c.next p).2
       let c' := { c with next := c.next + 1, late := c.late ++ [x], suspended := none }
       if Config.pick s1.fresh k % 2 = 0 then runTile s1.bump k c' x else s1.bump.putCopy k c') := by
  refine (nextTile_translated whole found).trans (if_neg ?_)
  rintro ⟨reseal, apart⟩
  rcases fine with plain | one
  · rw [plain] at reseal; cases reseal
  · rw [one] at apart; cases apart

end next

section translateNext
variable {s : State} {k : Nat} {c : Copy} {p : CopyPos} (position : c.position = some p)
include position

theorem translateNext_eq : translateNext s k c = (match firstTile s c with
    | (false, s) => finishCopy (s.putCopy k { c with fail := some (8, 0) }) k
    | (true, s) =>
      match drawTokens s c.part (ceilDiv p.n 64) with
      | none => s
      | some s1 =>
        match aimTile s c c.next p with
        | (.error (3, _), _) => nextTile s k c p
        | _ => nextTile s1 k c p) := by
  rw [translateNext, position]
  rfl

theorem translateNext_unfit (unfit : (firstTile s c).1 = false) :
    translateNext s k c = finishCopy ((firstTile s c).2.putCopy k { c with fail := some (8, 0) }) k := by
  rw [translateNext_eq position]
  generalize firstTile s c = first at unfit ⊢
  obtain ⟨ok, s0⟩ := first
  cases unfit
  rfl

variable (fit : (firstTile s c).1 = true)
include fit

theorem translateNext_poor (poor : drawTokens (firstTile s c).2 c.part (ceilDiv p.n 64) = none) :
    translateNext s k c = (firstTile s c).2 := by
  rw [translateNext_eq position]
  generalize firstTile s c = first at fit poor ⊢
  obtain ⟨ok, s0⟩ := first
  cases fit
  dsimp only at poor ⊢
  rw [poor]

variable {s1 : State} (paid : drawTokens (firstTile s c).2 c.part (ceilDiv p.n 64) = some s1)
include paid

theorem translateNext_absent (gone : absent (aimTile (firstTile s c).2 c c.next p).1) :
    translateNext s k c = nextTile (firstTile s c).2 k c p := by
  rw [translateNext_eq position]
  generalize firstTile s c = first at fit paid gone ⊢
  obtain ⟨ok, s0⟩ := first
  cases fit
  dsimp only at paid gone ⊢
  rw [paid]
  dsimp only
  generalize aimTile s0 c c.next p = got at gone ⊢
  obtain ⟨aim, s2⟩ := got
  obtain ⟨va, wr, same⟩ := gone
  cases same
  rfl

theorem translateNext_present (there : ¬ absent (aimTile (firstTile s c).2 c c.next p).1) :
    translateNext s k c = nextTile s1 k c p := by
  rw [translateNext_eq position]
  generalize firstTile s c = first at fit paid there ⊢
  obtain ⟨ok, s0⟩ := first
  cases fit
  dsimp only at paid there ⊢
  rw [paid]
  dsimp only
  split
  · next e => exact absurd ⟨_, _, by rw [e]⟩ there
  · rfl

end translateNext

section exec
variable {s : State} {k : Nat} {c : Copy} (copy : s.copy k = some c) (kind : ∀ a v op, c.kind ≠ .semsig a v op)
include copy kind

theorem copyTile_exec : exec (.copyTile k) s = if copyRuns s c then .next (copyTile s k c) else .next s := by
  rw [exec_copyTile, execCopyTile, copy]
  dsimp only
  split
  · next a v op same => exact absurd same (kind a v op)
  · rfl

end exec

section copyTile
variable {s : State} {k : Nat} {c : Copy}

theorem copyTile_late {x : LateTile} (turn : lateTurn s k c = some x) : copyTile s k c = settle (runTile s.bump k c x) := by
  rw [copyTile, turn, stepCopy, turn]
  cases copyCluster s c <;> cases c.position <;> rfl

theorem lateTurn_mem {x : LateTile} (turn : lateTurn s k c = some x) : x ∈ c.late := by
  unfold lateTurn at turn
  split at turn
  · exact List.mem_of_getElem? turn
  · cases turn

variable (turn : lateTurn s k c = none)
include turn

theorem stepCopy_next : stepCopy s k c = translateNext s k c := by
  rw [stepCopy, turn]

theorem copyTile_last (position : c.position = none) : copyTile s k c = settle (finishCopy s k) := by
  rw [copyTile, turn, position, stepCopy_next turn, translateNext, position]
  cases copyCluster s c <;> rfl

variable {p : CopyPos} (position : c.position = some p)
include position

theorem copyTile_withheld {cl : Nat} (cluster : copyCluster s c = some cl) (user : c.requester.part.isNone = false)
    (over_ : allowed s cl (ceilDiv p.n 8) (copyRank s c) = false) : copyTile s k c = markWithheld s cl := by
  rw [copyTile, turn, position, cluster]
  exact if_pos ⟨by rw [← Option.not_isNone, user]; rfl, by rw [over_]; rfl⟩

/-- A copy that its allowance lets go on pays where it has come past its tile. -/
theorem copyTile_metered (lets : copyCluster s c = none ∨ c.requester.part.isNone = true ∨
      ∃ cl, copyCluster s c = some cl ∧ allowed s cl (ceilDiv p.n 8) (copyRank s c) = true) :
    copyTile s k c = settle (if tileTaken (translateNext s k c) k c then payTile s c p (translateNext s k c)
      else translateNext s k c) := by
  rw [copyTile, turn, position, stepCopy_next turn, payTile]
  cases cluster : copyCluster s c with
  | none => simp only [ite_self]
  | some cl =>
    dsimp only
    rw [if_neg]
    rintro ⟨user, over_⟩
    rcases lets with none_ | agent | ⟨cl', same, within⟩
    · rw [cluster] at none_; cases none_
    · rw [Option.isNone_iff_eq_none.1 agent] at user; cases user
    · rw [cluster] at same
      cases same
      rw [within] at over_
      cases over_

end copyTile

theorem copyTileStep : Claims.CopyTileStep := by
  intro s k c copy kind
  have exec_ := copyTile_exec copy kind
  refine ⟨fun held => by rw [exec_, held]; rfl, fun runs => ?_⟩
  rw [if_pos runs] at exec_
  dsimp only
  rw [exec_]
  refine ⟨fun x turn => ⟨lateTurn_mem turn, copyRan_of ?_⟩, fun turn position => ?_, fun p turn position =>
    ⟨fun cl cluster user over_ => ?_, fun lets => ?_⟩⟩
  · rw [copyTile_late turn]; rfl
  · rw [copyTile_last turn position]
  · rw [copyTile_withheld turn position cluster user over_]
  · have metered := copyTile_metered turn position lets
    have stands : tileTaken (firstTile s c).2 k c = false := by
      rw [tileTaken_some (((MemSide.firstTile s c).copy k).trans copy)]
      exact bne_self_eq_false c.next
    refine ⟨fun unfit => ?_, fun fit poor => ?_, fun s1 fit paid => ⟨fun part gone => ?_, fun part there => ?_,
      fun va wr whole gone => ⟨fun none_ => ?_, fun x rest late => ?_⟩, fun whole there => ⟨fun st va wr fails other => ?_,
      fun x found => ⟨fun reseal apart => ?_, fun fine => ?_⟩⟩⟩⟩
    · rw [metered, translateNext_unfit position unfit, tileTaken_gone (finishCopy_gone ..)]
      rfl
    · rw [metered, translateNext_poor position fit poor, stands]
      rfl
    · refine copyGoes_of ?_
      rw [metered, translateNext_absent position fit paid gone, nextTile_part part.1 part.2,
        tileTaken_settleCopy (Nat.succ_ne_self _)]
      rfl
    · refine copyGoes_of ?_
      rw [metered, translateNext_present position fit paid there, nextTile_part part.1 part.2,
        tileTaken_settleCopy (Nat.succ_ne_self _)]
      rfl
    · have gone : (aimTile (firstTile s c).2 c c.next p).1 = .error (3, va, wr) := gone
      rw [metered, translateNext_absent position fit paid ⟨va, wr, gone⟩, nextTile_absent whole gone, none_]
      dsimp only
      rw [tileTaken_some (suspend_copy ..)]
      exact congrArg _ (congrArg settle (if_neg (by simp)))
    · have gone : (aimTile (firstTile s c).2 c c.next p).1 = .error (3, va, wr) := gone
      refine copyRan_of ?_
      rw [metered, translateNext_absent position fit paid ⟨va, wr, gone⟩, nextTile_absent whole gone, late]
      dsimp only
      rw [tileTaken_runLate position]
      rfl
    · refine copyGoes_of ?_
      rw [metered, translateNext_present position fit paid there, nextTile_fails whole fails other,
        tileTaken_settleCopy (Nat.succ_ne_self _)]
      rfl
    · refine copyGoes_of ?_
      rw [metered, translateNext_present position fit paid there, nextTile_apart whole found reseal apart,
        tileTaken_settleCopy (Nat.succ_ne_self _)]
      rfl
    · rw [metered, translateNext_present position fit paid there, nextTile_fine whole found fine]
      dsimp only
      by_cases now : Config.pick (aimTile s1 c c.next p).2.fresh k % 2 = 0
      · refine .inl (copyRan_of ?_)
        rw [if_pos now, tileTaken_runTile (Nat.succ_ne_self _)]
        rfl
      · refine .inr ?_
        rw [if_neg now, tileTaken_some (State.copy_putCopy_same ..)]
        exact congrArg _ (congrArg settle (if_pos (bne_iff_ne.2 (Nat.succ_ne_self _))))

/-! ### SEMSIG_PERFORM (R213, R216) -/

section semsig
variable {s : State} {k : Nat} {c : Copy} {a v : DWord} {op : SemOp} (copy : s.copy k = some c) (kind : c.kind = .semsig a v op)
include copy kind

theorem semsigPerform_exec : exec (.semsigPerform k) s =
    if copyRuns s c then .next (charge (rereadAll (stepSemsig s k) c.part) c.requester.part) else .next s := by
  rw [exec_semsigPerform, execSemsigPerform, copy]
  dsimp only
  rw [kind]

theorem stepSemsig_eq : stepSemsig s k = (match drawTokens s c.part 1 with
    | none => s
    | some s1 =>
      match semUpdate s1 c.requester a v op with
      | (3, _) => suspend (semUpdate s c.requester a v op).2 k c a.toNat true
      | (st, s2) => completeCopy s2 k st 0) := by
  rw [stepSemsig, copy]
  dsimp only
  rw [kind] <;> rfl

theorem stepSemsig_poor (poor : drawTokens s c.part 1 = none) : stepSemsig s k = s := by
  rw [stepSemsig_eq copy kind, poor]

variable {s1 : State} (paid : drawTokens s c.part 1 = some s1)
include paid

theorem stepSemsig_absent (gone : (semUpdate s1 c.requester a v op).1 = 3) :
    stepSemsig s k = suspend (semUpdate s c.requester a v op).2 k c a.toNat true := by
  rw [stepSemsig_eq copy kind, paid]
  dsimp only
  generalize semUpdate s1 c.requester a v op = got at gone ⊢
  obtain ⟨st, s2⟩ := got
  cases gone
  rfl

theorem stepSemsig_done (there : (semUpdate s1 c.requester a v op).1 ≠ 3) : stepSemsig s k =
    completeCopy (semUpdate s1 c.requester a v op).2 k (semUpdate s1 c.requester a v op).1 0 := by
  rw [stepSemsig_eq copy kind, paid]
  dsimp only
  generalize semUpdate s1 c.requester a v op = got at there ⊢
  obtain ⟨st, s2⟩ := got
  split
  · next same => cases same; exact absurd rfl there
  · next same => cases same; rfl

end semsig

theorem semsigStep : Claims.SemsigStep := by
  intro s k c a v op copy kind
  have exec_ := semsigPerform_exec copy kind
  refine ⟨fun held => by rw [exec_, held]; rfl, fun runs poor => ?_, fun s1 runs paid => ⟨fun gone => ?_, fun there => ?_⟩⟩
  all_goals rw [exec_, if_pos runs]
  · rw [stepSemsig_poor copy kind poor]
  · rw [stepSemsig_absent copy kind paid gone]
  · rw [stepSemsig_done copy kind paid there]

/-! ### FAULT_RETRY and FAULT_UNRESOLVED (R161, R162) -/

/-- A suspended operation may be tried again: it is not saved, and its partition holds its clusters. -/
def mayRetry (s : State) (c : Copy) : Prop := c.saved = false ∧ (c.requester.part = none ∨ partActive s c.part = true)

theorem opNs_eq (s : State) (c : Copy) : opNs s c = if c.requester.part = none then s.ns else residentNs s c.part := by
  simp only [opNs, Option.isNone_iff_eq_none]

theorem mayRetry_iff (s : State) (c : Copy) :
    ((!c.saved) = true ∧ (c.requester.part.isNone = true ∨ partActive s c.part = true)) ↔ mayRetry s c := by
  simp [mayRetry, Option.isNone_iff_eq_none]

section fault
variable {s : State} {k : Nat} {c : Copy} (copy : s.copy k = some c)
include copy

theorem faultRetry_stays (held : c.suspended = none ∨ ¬ mayRetry s c) : exec (.faultRetry k) s = .next s := by
  rw [exec_faultRetry, execFaultRetry, copy]
  refine if_neg ?_
  rintro ⟨suspended, on⟩
  rcases held with none_ | off
  · rw [none_] at suspended; cases suspended
  · exact off ((mayRetry_iff s c).1 on)

theorem faultUnresolved_stays (held : c.suspended = none ∨ ¬ mayRetry s c) : exec (.faultUnresolved k) s = .next s := by
  rw [exec_faultUnresolved, execFaultUnresolved, copy]
  dsimp only
  split
  · next t0 has =>
    refine if_neg ?_
    rintro ⟨-, on⟩
    rcases held with none_ | off
    · rw [none_] at has; cases has
    · exact off ((mayRetry_iff s c).1 on)
  · rfl

variable {t0 : Nat} (since : c.suspended = some t0)
include since

theorem faultUnresolved_early (early : opNs s c < t0 + 100000000) : exec (.faultUnresolved k) s = .next s := by
  rw [exec_faultUnresolved, execFaultUnresolved, copy]
  dsimp only
  rw [since]
  exact if_neg fun both => absurd both.1 (Nat.not_le.2 early)

variable (on : mayRetry s c)
include on

theorem faultRetry_retries : exec (.faultRetry k) s = .next (retryCopy s k) := by
  rw [exec_faultRetry, execFaultRetry, copy]
  exact if_pos ⟨by rw [since]; rfl, (mayRetry_iff s c).2 on⟩

variable (due : t0 + 100000000 ≤ opNs s c) {c1 : Copy} (retried : (retryCopy s k).copy k = some c1)
include due retried

/-- At its end a suspended operation is tried once more, and fails at its tile where that does not help. -/
theorem faultUnresolved_due : exec (.faultUnresolved k) s = if c1.suspended.isSome then
      .next (settle (finishCopy ((retryCopy s k).putCopy k { c1 with fail := c1.fail.or (some (3, c1.next)) }) k))
    else .next (retryCopy s k) := by
  rw [exec_faultUnresolved, execFaultUnresolved, copy]
  dsimp only
  rw [since]
  refine (if_pos ⟨due, (mayRetry_iff s c).2 on⟩).trans ?_
  rw [retried]

end fault

/-- FAULT_RETRY and FAULT_UNRESOLVED of an operation. -/
theorem faultEvents (s : State) (k : Nat) (c : Copy) (copy : s.copy k = some c) :
    (c.suspended = none ∨ ¬ mayRetry s c → exec (.faultRetry k) s = .next s ∧ exec (.faultUnresolved k) s = .next s) ∧
    ∀ t0, c.suspended = some t0 → mayRetry s c →
      exec (.faultRetry k) s = .next (retryCopy s k) ∧
      (opNs s c < t0 + 100000000 → exec (.faultUnresolved k) s = .next s) ∧
      (∃ s1, MemSide s s1 ∧ (retryCopy s k = s1 ∨ retryCopy s k = s1.putCopy k { c with suspended := none })) ∧
      ∀ c1, t0 + 100000000 ≤ opNs s c → (retryCopy s k).copy k = some c1 →
        (c1.suspended = none → exec (.faultUnresolved k) s = .next (retryCopy s k)) ∧
        (c1.suspended ≠ none → exec (.faultUnresolved k) s = .next (settle (finishCopy
          ((retryCopy s k).putCopy k { c1 with fail := c1.fail.or (some (3, c1.next)) }) k))) := by
  refine ⟨fun held => ⟨faultRetry_stays copy held, faultUnresolved_stays copy held⟩, fun t0 since on =>
    ⟨faultRetry_retries copy since on, faultUnresolved_early copy since, retryCopy_eq copy, fun c1 due retried =>
      ⟨fun helped => ?_, fun stays => ?_⟩⟩⟩
  all_goals rw [faultUnresolved_due copy since on due retried]
  · rw [helped]; rfl
  · exact if_pos (Option.isSome_iff_ne_none.2 stays)

/-- Settles O46: each term by its own lemma, and each event by the equations of its branches. -/
theorem engineEvents : Obligations.EngineEvents := by
  refine ⟨translation, tileParts, tileRuns, copyTileStep, semsigStep, engineBytes, walkCompletion_spec, fun s k c copy => ?_⟩
  have events := faultEvents s k c copy
  rw [opNs_eq] at events
  exact events

end Sys2Proof.Machine
end

section
/-! PROOFS. ResetState: the machine right after reset, by its register blocks (R177, R250, R282, R285, R295 to R298, R315,
R321). -/

namespace Sys2Proof.Machine

set_option Elab.async false

/-- Right after reset no register has been written: each reads its layout's value. -/
theorem dreg_reset (a : Nat) : State.reset.dreg a = devReset a := rfl

/-! ### The blocks of registers -/

/-- Among the ingress filters' registers only ING_RCTL resets to more than 0 (R285). -/
theorem devReset_ingress {a : Nat} (ge : 0x30000 ≤ a) (lt : a < 0x32000) :
    devReset a = if a % 32 = 0x10 then 0x10010 else 0 := by
  rw [devReset, if_neg (by omega), if_neg (by omega), if_neg (by omega), if_pos lt]

/-- Partition n's block, below its NQMAP registers (R294 to R298). -/
theorem devReset_block {n o : Nat} (part : n < 64) (below : o < 0xC0) :
    devReset (aBlock n o) = if o = 0x80 then 0x80000 else if o = 0x88 then 0x480000 else 0 := by
  have offset : (aBlock n o - 0x40400) % 0x100 = o := by unfold aBlock; omega
  have ge : 0x40400 ≤ aBlock n o := by unfold aBlock; omega
  have lt : aBlock n o < 0x44400 := by unfold aBlock; omega
  rw [devReset, if_neg (by omega), if_neg (by omega), if_neg (by omega), if_neg (by omega), if_pos ⟨ge, lt⟩]
  simp only [offset]
  split_ifs
  iterate 2 rfl
  · omega
  · rfl

/-- The power registers of the clusters (R321). -/
theorem devReset_power {a : Nat} (ge : 0x50000 ≤ a) (lt : a < 0x58000) : devReset a =
    if a % 0x100 = 0x08 then 1 else if a % 0x100 = 0x10 then 0x800 else if a % 0x100 = 0x28 then 1 else 0 := by
  rw [devReset, if_neg (by omega), if_neg (by omega), if_neg (by omega), if_neg (by omega), if_neg (by omega),
    if_pos ⟨ge, lt⟩]

/-- The registers of the queues: QCTL resets to 0x60, the others to 0 (R250). -/
theorem devReset_queue {a : Nat} (ge : 0x100000 ≤ a) (lt : a < 0x140000) : devReset a = if a % 64 = 8 then 0x60 else 0 := by
  rw [devReset, if_neg (by omega), if_neg (by omega), if_neg (by omega), if_neg (by omega), if_neg (by omega),
    if_neg (by omega), if_neg (by unfold aBallast; omega), if_pos ⟨ge, lt⟩]

/-! ### The registers of each unit -/

theorem reset_filter {f : Nat} (h : f < 256) :
    State.reset.dreg (aIngFilt f) = 0 ∧ State.reset.dreg (aIngRctl f) = 0x10010 := by
  simp only [dreg_reset, aIngFilt, aIngRctl]
  rw [devReset_ingress (by omega) (by omega), devReset_ingress (by omega) (by omega), if_neg (by omega), if_pos (by omega)]
  exact ⟨rfl, rfl⟩

theorem reset_partition {n : Nat} (h : n < 64) :
    partState State.reset n = 0 ∧ State.reset.dfield (aPcap n) 16 4 = 8 ∧ State.reset.dfield (aPace n) 16 4 = 8 ∧
      State.reset.dreg (aVfCores n) = 0 ∧ State.reset.dreg (aHevt n) = 0 := by
  simp only [partState, State.dfield, dreg_reset, aPartState, aPcap, aPace, aVfCores, aHevt]
  repeat rw [devReset_block h (by decide)]
  decide

theorem reset_cluster {c : Nat} (h : c < 128) :
    clState State.reset c = 0 ∧ pointAt State.reset c = 8 ∧ State.reset.dreg (aClAck c) = 1 ∧
      State.reset.dreg (aRetDone c) = 1 := by
  have ack : devReset (aClAck c) = 1 := by
    rw [devReset_power, if_pos] <;> unfold aClAck <;> omega
  have state : devReset (aClState c) = 0x800 := by
    rw [devReset_power, if_neg, if_pos] <;> unfold aClState <;> omega
  have done : devReset (aRetDone c) = 1 := by
    rw [devReset_power, if_neg, if_neg, if_pos] <;> unfold aRetDone <;> omega
  simp only [clState, pointAt, State.dfield, dreg_reset, ack, state, done]
  decide

theorem reset_queue {q : Nat} (h : q < 4096) : queueEn State.reset q = false ∧ queueHead State.reset q = 0 := by
  have ctl : devReset (aQctl q) = 0x60 := by
    rw [devReset_queue, if_pos] <;> unfold aQctl <;> omega
  have stat : devReset (aQstat q) = 0 := by
    rw [devReset_queue, if_neg] <;> unfold aQstat <;> omega
  simp only [queueEn, queueHead, State.dfield, dreg_reset, ctl, stat]
  decide

/-- Settles O60: the empty tables by evaluation, and the registers by what each block resets to. -/
theorem resetState : Obligations.ResetState := by
  have device : State.reset.dreg aBreezeCtl = 2 ∧ State.reset.dreg aBreezeRate = 4096 ∧ State.reset.dreg aPtpCfg = 0x100 ∧
      State.reset.dreg aPartConn = 0 ∧ State.reset.dreg aBallast = 0x41 := by decide
  obtain ⟨ctl, rate, ptp, conn, ballast⟩ := device
  exact ⟨rfl, rfl, rfl, rfl, rfl, rfl, ctl, rate, ptp, conn, ballast, fun _ => reset_filter, fun _ => reset_partition,
    fun _ => reset_cluster, fun _ => reset_queue⟩

end Sys2Proof.Machine
end

section
/-! PROOFS. The token meter (R216, R217, R295): what is drawn for a cost, and the refill of every VF's bucket. -/

namespace Sys2Proof.Machine

set_option Elab.async false

open Sys2Proof.Claims

/-- VF_TOK registers of different VFs are different registers (R294). -/
theorem aVfTok_inj {m n : Nat} : aVfTok m = aVfTok n ↔ m = n := by unfold aVfTok aBlock; omega

/-! ### A change of the pool, and of one VF's tokens and DEBT -/

theorem State.part_putDfield (s : State) (a lo n x m : Nat) : (s.putDfield a lo n x).part m = s.part m := rfl

/-- The pool, VF n's tokens and its DEBT set. -/
def setTokens (s : State) (n pool : Nat) (p : Part) (debt : Nat) : State :=
  ({ s with pool := pool }.putPart n p).putDfield (aVfTok n) 32 24 debt

section set_
variable (s : State) (n pool : Nat) (p : Part) (debt : Nat)

@[simp] theorem setTokens_pool : (setTokens s n pool p debt).pool = pool := rfl

@[simp] theorem setTokens_part_same : (setTokens s n pool p debt).part n = p := by
  rw [setTokens, State.part_putDfield, State.part_putPart_same]

theorem setTokens_part_other {m : Nat} (other : m ≠ n) : (setTokens s n pool p debt).part m = s.part m := by
  rw [setTokens, State.part_putDfield, State.part_putPart_other _ _ other]; rfl

@[simp] theorem setTokens_dreg_same : (setTokens s n pool p debt).dreg (aVfTok n) = dput (s.dreg (aVfTok n)) 32 24 debt :=
  State.dreg_putDfield_same ..

theorem setTokens_dreg_other {a : Nat} (other : a ≠ aVfTok n) : (setTokens s n pool p debt).dreg a = s.dreg a :=
  State.dreg_putDfield_other _ _ _ _ other

theorem setTokens_frame : setTokens s n pool p debt = { s with
    pool := (setTokens s n pool p debt).pool, parts := (setTokens s n pool p debt).parts, dev := (setTokens s n pool p debt).dev } := rfl

end set_

/-! ### What is drawn (R217) -/

section draw
variable {s : State} {n cost : Nat}

theorem drawTokens_unmetered (h : n = 0 ∨ (s.part n).rate = 0) : drawTokens s n cost = some s := if_pos h

theorem drawTokens_bucket (vf : n ≠ 0) (rate : (s.part n).rate ≠ 0) (enough : cost ≤ (s.part n).bucket) :
    drawTokens s n cost = some (s.putPart n { s.part n with bucket := (s.part n).bucket - cost }) := by
  rw [drawTokens, if_neg (by simp [vf, rate]), if_pos enough]

theorem drawTokens_beyond (vf : n ≠ 0) (rate : (s.part n).rate ≠ 0) (few : (s.part n).bucket < cost) :
    drawTokens s n cost =
      let need := cost - (s.part n).bucket
      if (s.part n).bucket = 0 ∧ need ≤ s.pool ∧ (s.part n).borrowed + need ≤ (s.part n).rate / 4 then
        some (setTokens s n (s.pool - need) { s.part n with borrowed := (s.part n).borrowed + need }
          (min (s.dfield (aVfTok n) 32 24 + need) (2 ^ 24 - 1)))
      else none := by
  rw [drawTokens, if_neg (by simp [vf, rate]), if_neg (by omega)]
  rfl

end draw

/-- What is drawn for a cost: nothing for an unmetered VF, the bucket's tokens, or the pool's, as DEBT. -/
theorem drawTokens_spec (s : State) (n cost : Nat) :
    let p := s.part n
    let rate := p.rate
    let need := cost - p.bucket
    (n = 0 ∨ rate = 0 → drawTokens s n cost = some s) ∧
    (n ≠ 0 → rate ≠ 0 → cost ≤ p.bucket →
      drawTokens s n cost = some (s.putPart n { p with bucket := p.bucket - cost })) ∧
    (n ≠ 0 → rate ≠ 0 → p.bucket < cost →
      (p.bucket ≠ 0 ∨ s.pool < need ∨ rate / 4 < p.borrowed + need → drawTokens s n cost = none) ∧
      (p.bucket = 0 → need ≤ s.pool → p.borrowed + need ≤ rate / 4 → ∃ s', drawTokens s n cost = some s' ∧
        s'.pool = s.pool - need ∧ s'.part n = { p with borrowed := p.borrowed + need } ∧
        s'.dfield (aVfTok n) 32 24 = min (s.dfield (aVfTok n) 32 24 + need) (2 ^ 24 - 1) ∧
        (∀ m, m ≠ n → s'.part m = s.part m) ∧ (∀ a, a ≠ aVfTok n → s'.dreg a = s.dreg a) ∧
        s' = { s with pool := s'.pool, parts := s'.parts, dev := s'.dev })) := by
  intro p rate need
  refine ⟨drawTokens_unmetered, drawTokens_bucket, fun vf metered few => ⟨fun held => ?_, fun empty pool quarter => ?_⟩⟩
  · rw [drawTokens_beyond vf metered few]
    refine if_neg fun ⟨empty, pool, quarter⟩ => ?_
    obtain some_ | low | high := held
    · exact some_ empty
    · exact absurd pool (Nat.not_le.2 low)
    · exact absurd quarter (Nat.not_le.2 high)
  · rw [drawTokens_beyond vf metered few]
    refine ⟨_, if_pos ⟨empty, pool, quarter⟩, setTokens_pool .., setTokens_part_same .., ?_,
      fun m other => setTokens_part_other _ _ _ _ _ other, fun a other => setTokens_dreg_other _ _ _ _ _ other,
      setTokens_frame ..⟩
    rw [State.dfield, setTokens_dreg_same, dfld_dput_same _ (by decide), Nat.mod_eq_of_lt]
    omega

/-! ### The refill of one VF (R216, R295) -/

/-- The refill of VF n's bucket: one turn of the loop of refillTokens. -/
def refillVf (s : State) (n : Nat) : State :=
  let rate := s.dfield (aVfTok n) 0 24
  let s := s.putPart n { s.part n with rate := rate }
  if n = 0 ∨ rate = 0 then s
  else
    let p := s.part n
    let debt := s.dfield (aVfTok n) 32 24
    let back := min debt (rate / 2)
    let full := p.bucket + (rate - back)
    let keep := min full (8 * rate)
    setTokens s n (min 1048576 (s.pool + back + (full - keep))) { p with bucket := keep, borrowed := 0 } (debt - back)

theorem refillTokens_eq (s : State) : refillTokens s = (List.range 64).foldl refillVf s := rfl

/-- VF n has a RATE, so that a refill gives it tokens. -/
def refills (s : State) (n : Nat) : Bool := n != 0 && s.dfield (aVfTok n) 0 24 != 0

/-- What a refill of VF n repays of its DEBT. -/
def repaid (s : State) (n : Nat) : Nat := min (s.dfield (aVfTok n) 32 24) (s.dfield (aVfTok n) 0 24 / 2)

/-- What a refill would bring VF n's bucket to, were there no bound on it. -/
def fullBucket (s : State) (n : Nat) : Nat := (s.part n).bucket + (s.dfield (aVfTok n) 0 24 - repaid s n)

/-- What VF n's bucket holds after a refill. -/
def keptBucket (s : State) (n : Nat) : Nat := min (fullBucket s n) (8 * s.dfield (aVfTok n) 0 24)

/-- What a refill of VF n brings the pool: the repaid DEBT, and what the bucket does not hold. -/
def toPool (s : State) (n : Nat) : Nat := repaid s n + (fullBucket s n - keptBucket s n)

section one
variable {s : State} {n : Nat}

theorem refills_iff : refills s n = true ↔ n ≠ 0 ∧ s.dfield (aVfTok n) 0 24 ≠ 0 := by simp [refills]

theorem refillVf_idle (idle : n = 0 ∨ s.dfield (aVfTok n) 0 24 = 0) :
    refillVf s n = s.putPart n { s.part n with rate := s.dfield (aVfTok n) 0 24 } := if_pos idle

theorem refillVf_fills (has : refills s n = true) : refillVf s n =
    setTokens (s.putPart n { s.part n with rate := s.dfield (aVfTok n) 0 24 }) n (min 1048576 (s.pool + toPool s n))
      { s.part n with rate := s.dfield (aVfTok n) 0 24, bucket := keptBucket s n, borrowed := 0 }
      (s.dfield (aVfTok n) 32 24 - repaid s n) := by
  obtain ⟨vf, metered⟩ := refills_iff.1 has
  have regs (x : Part) : (s.putPart n x).dfield (aVfTok n) 32 24 = s.dfield (aVfTok n) 32 24 := rfl
  rw [refillVf, if_neg (by simp [vf, metered])]
  simp only [State.part_putPart_same, regs, toPool, keptBucket, fullBucket, repaid, State.putPart_pool, Nat.add_assoc]

theorem refillVf_frame (s : State) (n : Nat) :
    refillVf s n = { s with pool := (refillVf s n).pool, parts := (refillVf s n).parts, dev := (refillVf s n).dev } := by
  by_cases has : refills s n = true
  · rw [refillVf_fills has]; exact setTokens_frame ..
  · rw [refillVf_idle (by rw [refills_iff] at has; omega)]; rfl

theorem refillVf_part_other {m : Nat} (other : m ≠ n) : (refillVf s n).part m = s.part m := by
  by_cases has : refills s n = true
  · rw [refillVf_fills has]
    exact (setTokens_part_other _ _ _ _ _ other).trans (State.part_putPart_other _ _ other)
  · rw [refillVf_idle (by rw [refills_iff] at has; omega), State.part_putPart_other _ _ other]

theorem refillVf_dreg_other {a : Nat} (other : a ≠ aVfTok n) : (refillVf s n).dreg a = s.dreg a := by
  by_cases has : refills s n = true
  · rw [refillVf_fills has, setTokens_dreg_other _ _ _ _ _ other]; rfl
  · rw [refillVf_idle (by rw [refills_iff] at has; omega)]; rfl

end one

/-! ### The refill of every VF -/

/-- What the refills of the VFs below k make of a state. -/
structure TokensRefilled (s : State) (k : Nat) (s' : State) : Prop where
  frame : s' = { s with pool := s'.pool, parts := s'.parts, dev := s'.dev }
  later : ∀ n, k ≤ n → s'.part n = s.part n ∧ s'.dreg (aVfTok n) = s.dreg (aVfTok n)
  others : ∀ a, (∀ n < k, a ≠ aVfTok n) → s'.dreg a = s.dreg a
  idle : ∀ n < k, n = 0 ∨ s.dfield (aVfTok n) 0 24 = 0 →
    s'.part n = { s.part n with rate := s.dfield (aVfTok n) 0 24 } ∧ s'.dreg (aVfTok n) = s.dreg (aVfTok n)
  paid : ∀ n < k, refills s n = true →
    s'.part n = { s.part n with rate := s.dfield (aVfTok n) 0 24, bucket := keptBucket s n, borrowed := 0 } ∧
    s'.dreg (aVfTok n) = dput (s.dreg (aVfTok n)) 32 24 (s.dfield (aVfTok n) 32 24 - repaid s n)
  pool : s.pool ≤ 1048576 → s'.pool = min 1048576 (s.pool + (((List.range k).filter (refills s)).map (toPool s)).sum)

theorem TokensRefilled.none (s : State) : TokensRefilled s 0 s where
  frame := rfl
  later _ _ := ⟨rfl, rfl⟩
  others _ _ := rfl
  idle _ lt := absurd lt (by omega)
  paid _ lt := absurd lt (by omega)
  pool bound := by simp; omega

/-- One VF more. -/
theorem TokensRefilled.succ {s t : State} {k : Nat} (h : TokensRefilled s k t) : TokensRefilled s (k + 1) (refillVf t k) := by
  obtain ⟨part, tok⟩ := h.later k (Nat.le_refl k)
  have field (lo n : Nat) : t.dfield (aVfTok k) lo n = s.dfield (aVfTok k) lo n := by rw [State.dfield, tok]; rfl
  have same : refills t k = refills s k ∧ repaid t k = repaid s k ∧ keptBucket t k = keptBucket s k ∧ toPool t k = toPool s k := by
    simp only [refills, toPool, keptBucket, fullBucket, repaid, field, part, and_self]
  obtain ⟨refills_, repaid_, kept_, toPool_⟩ := same
  refine ⟨?_, fun n le => ?_, fun a other => ?_, fun n lt idle => ?_, fun n lt has => ?_, fun bound => ?_⟩
  · rw [refillVf_frame, h.frame]
  · rw [refillVf_part_other (by omega), refillVf_dreg_other (by rw [Ne, aVfTok_inj]; omega)]
    exact h.later n (by omega)
  · rw [refillVf_dreg_other (other k (by omega))]
    exact h.others a fun n lt => other n (by omega)
  · obtain lt | rfl := Nat.lt_succ_iff_lt_or_eq.1 lt
    · rw [refillVf_part_other (by omega), refillVf_dreg_other (by rw [Ne, aVfTok_inj]; omega)]
      exact h.idle n lt idle
    · rw [refillVf_idle (by rwa [field]), State.part_putPart_same, part, field]
      exact ⟨rfl, tok⟩
  · obtain lt | rfl := Nat.lt_succ_iff_lt_or_eq.1 lt
    · rw [refillVf_part_other (by omega), refillVf_dreg_other (by rw [Ne, aVfTok_inj]; omega)]
      exact h.paid n lt has
    · rw [refillVf_fills (refills_.trans has), repaid_, kept_, field, field, part, setTokens_part_same, setTokens_dreg_same]
      exact ⟨rfl, by rw [← tok]; rfl⟩
  · have before := h.pool bound
    rw [List.range_succ, List.filter_append]
    by_cases has : refills s k = true
    · rw [refillVf_fills (refills_.trans has), toPool_]
      simp only [List.filter_cons, has, if_true, List.filter_nil, List.map_append, List.sum_append, List.map_cons,
        List.map_nil, List.sum_cons, List.sum_nil]
      rw [setTokens_pool, before]
      omega
    · rw [refillVf_idle (by rw [← refills_, refills_iff] at has; omega)]
      simp only [List.filter_cons, has, Bool.false_eq_true, if_false, List.filter_nil, List.append_nil]
      exact before

theorem refilled_range (s : State) (k : Nat) : TokensRefilled s k ((List.range k).foldl refillVf s) := by
  induction k with
  | zero => exact .none s
  | succ k ih => rw [List.range_succ, List.foldl_append]; exact ih.succ

theorem tokenRefill_early {s : State} (early : s.ns < s.tokenAt + 1000) : exec .tokenRefill s = .next s := if_pos early

theorem tokenRefill_due {s : State} (due : s.tokenAt + 1000 ≤ s.ns) :
    exec .tokenRefill s = .next (refillTokens { s with tokenAt := s.tokenAt + 1000 }) := if_neg (Nat.not_lt.2 due)

theorem tokenMeter : TokenMeter := by
  refine ⟨drawTokens_spec, fun s => tokenRefill_early, fun s due => ⟨_, tokenRefill_due due, ?_⟩⟩
  have all := refilled_range { s with tokenAt := s.tokenAt + 1000 } 64
  rw [← refillTokens_eq] at all
  exact ⟨all.frame, all.later, all.idle, all.others, fun n vf lt metered => all.paid n lt (refills_iff.2 ⟨vf, metered⟩),
    all.pool⟩

end Sys2Proof.Machine
end

section
/-! PROOFS. ServiceEvents: the timeout of an open tile, the breeze, and the clear of its counts (R170, R173, R177, R310). -/

namespace Sys2Proof.Machine

set_option Elab.async false

/-! ### An open tile is resealed (R173) -/

theorem fget_fclear {α : Type} (d : Nat → α) (m : FMap α) (lo n k : Nat) :
    fget d (fclear m lo n) k = if k < lo ∨ lo + n ≤ k then fget d m k else d k := by
  rw [fclear, fget_filter_keys d (fun k => decide (k < lo) || decide (lo + n ≤ k))]
  simp

/-- The tile's bytes are the written ones, and those of every other tile stay. -/
theorem fget_write_tile (m : Memory) (t : Nat) {l : List Byte} (len : l.length = 2048) (a : Nat) :
    fget unwritten (Memory.write (fclear m (t * 2048) 2048) (t * 2048) l) a =
      if a / 2048 = t then (l[a % 2048]?).getD 0 else fget unwritten m a := by
  split
  next inside =>
    have split : a = t * 2048 + a % 2048 := by omega
    have lt : a % 2048 < l.length := by omega
    conv_lhs => rw [split]
    rw [List.getElem?_eq_getElem lt]
    exact Memory.get_write_inside _ _ lt
  next outside =>
    refine (Memory.get_write_outside _ _ _ _ (by omega)).trans ?_
    exact (fget_fclear ..).trans (if_pos (by omega))

theorem openOf_dropped (s : State) (t j : Nat) :
    openOf { s with openTiles := s.openTiles.filter fun x => x.tile != t } j = if j = t then none else openOf s j := by
  unfold openOf
  rw [List.find?_filter]
  split
  next same => subst same; exact List.find?_eq_none.2 fun x _ => by simp
  next other =>
    refine List.find?_congr ?_
    intro x _
    by_cases h : x.tile = j <;> simp [h, other]

section close
variable {s : State} {t : Nat} {o : OpenTile} (opened : openOf s t = some o)
include opened

theorem closeTile_eq : closeTile s t =
    match o.badGranule true 0 2048, pathFail s t with
    | some g, _ => sealLog { s with
        openTiles := s.openTiles.filter fun x => x.tile != t
        caddies := fset (fun _ => Caddy.blank) s.caddies t { s.caddy t with state := 2 } } (t * 2048) 1 6 g
    | none, some a => nodeLog { s with openTiles := s.openTiles.filter fun x => x.tile != t } a
    | none, none =>
      { pathWritten { s with openTiles := s.openTiles.filter fun x => x.tile != t } t with
        hbm := Memory.write (fclear s.hbm (t * 2048) 2048) (t * 2048) (Memory.read o.bytes 0 2048) }.putCaddy t
          (resealed s (s.caddy t) o.key) := by
  rw [closeTile, opened]
  rfl

theorem closeTile_bad {g : Nat} (bad : o.badGranule true 0 2048 = some g) : closeTile s t = sealLog { s with
    openTiles := s.openTiles.filter fun x => x.tile != t
    caddies := fset (fun _ => Caddy.blank) s.caddies t { s.caddy t with state := 2 } } (t * 2048) 1 6 g := by
  rw [closeTile_eq opened, bad]

theorem closeTile_node {a : Nat} (good : o.badGranule true 0 2048 = none) (node : pathFail s t = some a) :
    closeTile s t = nodeLog { s with openTiles := s.openTiles.filter fun x => x.tile != t } a := by
  rw [closeTile_eq opened, good, node]

theorem closeTile_reseals (good : o.badGranule true 0 2048 = none) (path : pathFail s t = none) : closeTile s t =
    { pathWritten { s with openTiles := s.openTiles.filter fun x => x.tile != t } t with
      hbm := Memory.write (fclear s.hbm (t * 2048) 2048) (t * 2048) (Memory.read o.bytes 0 2048) }.putCaddy t
        (resealed s (s.caddy t) o.key) := by
  rw [closeTile_eq opened, good, path]

theorem openTileTimeout_early (early : s.ns < o.since + 1000000) : exec (.openTileTimeout t) s = .next s := by
  rw [exec_openTileTimeout, execOpenTileTimeout, opened]
  exact if_neg (Nat.not_le.2 early)

theorem openTileTimeout_due (due : o.since + 1000000 ≤ s.ns) : exec (.openTileTimeout t) s = .next (closeTile s t) := by
  rw [exec_openTileTimeout, execOpenTileTimeout, opened]
  exact if_pos due

end close

/-- A tile that is resealed: its caddy and bytes are the sealed ones, its entry is closed, and every other tile stays. -/
theorem resealed_tile {s r : State} {t : Nat} {o : OpenTile} (is : r =
    { pathWritten { s with openTiles := s.openTiles.filter fun x => x.tile != t } t with
      hbm := Memory.write (fclear s.hbm (t * 2048) 2048) (t * 2048) (Memory.read o.bytes 0 2048) }.putCaddy t
        (resealed s (s.caddy t) o.key)) :
    openOf r t = none ∧ (∀ j, j ≠ t → openOf r j = openOf s j) ∧ r.caddy t = resealed s (s.caddy t) o.key ∧
      (∀ i < 2048, fget unwritten r.hbm (2048 * t + i) = fget unwritten o.bytes i) ∧
      (∀ a, a / 2048 ≠ t → fget unwritten r.hbm a = fget unwritten s.hbm a) ∧ ∀ j, j ≠ t → r.caddy j = s.caddy j := by
  have opens (j : Nat) : openOf r j = if j = t then none else openOf s j := by
    rw [← openOf_dropped, is]
    unfold pathWritten openOf
    split <;> rfl
  have caddies : r.caddies = fset (fun _ => Caddy.blank) s.caddies t (resealed s (s.caddy t) o.key) := by
    rw [is]
    unfold pathWritten
    split <;> rfl
  have bytes : r.hbm = Memory.write (fclear s.hbm (t * 2048) 2048) (t * 2048) (Memory.read o.bytes 0 2048) := by
    rw [is, State.putCaddy_hbm]
  refine ⟨by rw [opens, if_pos rfl], fun j other => by rw [opens, if_neg other], ?_, fun i lt => ?_, fun a outside => ?_,
    fun j other => ?_⟩
  · rw [State.caddy, caddies, fget_fset_same]
  · rw [bytes, fget_write_tile _ _ (Memory.length_read ..), if_pos (by omega), show (2048 * t + i) % 2048 = i by omega,
      Memory.getElem?_read lt, Nat.zero_add]
    rfl
  · rw [bytes, fget_write_tile _ _ (Memory.length_read ..), if_neg outside]
  · rw [State.caddy, caddies, fget_fset_other _ _ _ other]; rfl

/-! ### The breeze (R177) -/

/-- Whether a tile's path fails does not depend on what the breeze has counted. -/
theorem pathFail_putDfield_stat (s : State) (lo n x t : Nat) : pathFail (s.putDfield aBreezeStat lo n x) t = pathFail s t := by
  have groups (k g : Nat) : ownsGroup (s.putDfield aBreezeStat lo n x) k g = ownsGroup s k g := by
    rw [ownsGroup, State.dreg_putDfield_other _ _ _ _ (by unfold aCgMask aBlock aBreezeStat; omega)]; rfl
  have keys (g : Nat) : treeKeyOf (s.putDfield aBreezeStat lo n x) g = treeKeyOf s g := by
    simp only [treeKeyOf, groups]; rfl
  have digests (g a : Nat) : digestFails (s.putDfield aBreezeStat lo n x) g a = digestFails s g a := by
    simp only [digestFails, keys]; rfl
  simp only [pathFail, digests]; rfl

theorem ferase_ferase {α : Type} (m : FMap α) (k : Nat) : ferase (ferase m k) k = ferase m k := by
  induction m with
  | nil => rfl
  | cons e m ih =>
    obtain ⟨j, w⟩ := e
    by_cases h : j = k <;> simp [ferase, h, ih]

theorem fset_fset_same {α : Type} [DecidableEq α] (d : Nat → α) (m : FMap α) (k : Nat) (v : α) :
    fset d (fset d m k v) k v = fset d m k v := by
  unfold fset
  split
  · exact ferase_ferase ..
  · exact finsert_finsert_same ..

section breeze
variable {s : State} {t : Nat} (shut : openOf s t = none)
include shut

theorem sealCheck_shut (key : Nat) : sealCheck s key t =
    if (s.caddy t).state = 0 then (none, s)
    else if (s.caddy t).failed then (some .tag, s)
    else match pathFail s t with
      | some a => (some (.path a), s)
      | none =>
        if (s.caddy t).key ≠ key then (some .tag, s)
        else if !tagMatches s t then (some .tag, s.putCaddy t { s.caddy t with state := 2 })
        else (none, s) := by
  rw [sealCheck, shut] <;> rfl

/-- A BLANK tile, or a sealed one whose path and tag pass. -/
theorem breezeCheck_passes (h : (s.caddy t).state = 0 ∨ ((s.caddy t).state = 1 ∨ (s.caddy t).state = 3) ∧
    pathFail s t = none ∧ tagMatches s t = true) : breezeCheck s t = s := by
  suffices sealCheck s (s.caddy t).key t = (none, s) by rw [breezeCheck, this]
  rw [sealCheck_shut shut]
  obtain blank | ⟨live, path, tag⟩ := h
  · rw [if_pos blank]
  · have sound : (s.caddy t).failed = false := by obtain h | h := live <;> simp [Caddy.failed, h]
    rw [if_neg (by omega), sound, path, tag]; simp

theorem breezeCheck_node {a : Nat} (live : (s.caddy t).state = 1 ∨ (s.caddy t).state = 3) (path : pathFail s t = some a) :
    breezeCheck s t = nodeLog s a := by
  have sound : (s.caddy t).failed = false := by obtain h | h := live <;> simp [Caddy.failed, h]
  have check : sealCheck s (s.caddy t).key t = (some (.path a), s) := by
    rw [sealCheck_shut shut, if_neg (by omega), sound, path]; simp
  rw [breezeCheck, check]
  rfl

/-- What the breeze leaves of a tile whose tag fails. -/
theorem breezeCheck_tag (h : (s.caddy t).failed = true ∨
      ((s.caddy t).state = 1 ∨ (s.caddy t).state = 3) ∧ pathFail s t = none ∧ tagMatches s t = false) :
    breezeCheck s t =
      let bad := sealLog (s.putCaddy t { s.caddy t with state := 2 }) (t * 2048) 3 1 0
      if (s.caddy t).state = 2 then bad else breezeCount bad 16 1 := by
  obtain failed | ⟨live, path, tag⟩ := h
  · have filled : (s.caddy t).state ≠ 0 := by
      simp only [Caddy.failed, Bool.or_eq_true, decide_eq_true_eq] at failed; omega
    have check : sealCheck s (s.caddy t).key t = (some .tag, s) := by
      rw [sealCheck_shut shut, if_neg filled, if_pos failed]
    rw [breezeCheck, check]
    rfl
  · have sound : (s.caddy t).failed = false := by obtain h | h := live <;> simp [Caddy.failed, h]
    have check : sealCheck s (s.caddy t).key t = (some .tag, s.putCaddy t { s.caddy t with state := 2 }) := by
      rw [sealCheck_shut shut, if_neg (by omega), sound, path, tag]; simp
    have twice : (s.putCaddy t { s.caddy t with state := 2 }).putCaddy t
        { (s.putCaddy t { s.caddy t with state := 2 }).caddy t with state := 2 } = s.putCaddy t { s.caddy t with state := 2 } := by
      rw [State.caddy_putCaddy_same]
      simp only [State.putCaddy, fset_fset_same]
    rw [breezeCheck, check]
    simp only [twice]
    rfl

end breeze

/-- The state once the breeze has counted what it corrected (R177). -/
def breezeFixed (s : State) (n : Nat) : State :=
  if (s.dreg aBreezeCtl).getLsbD 1 then breezeCount s 0 n else s

/-- The breeze goes on to the next tile, at the overhead account's charge. -/
def breezeNext (s0 s1 : State) : State :=
  (charge s1 none).putDfield aBreezePos 0 28 ((s0.dfield aBreezePos 0 28 + 1) % dataTiles)

section event
variable {s : State} {n : Nat}

theorem breezeTile_rests (h : (s.dreg aBreezeCtl).getLsbD 0 = false ∨ openOf s (breezeTileOf (s.dfield aBreezePos 0 28)) ≠ none) :
    exec (.breezeTile n) s = .next s := by
  rw [exec_breezeTile, execBreezeTile]
  refine if_pos ?_
  rw [Option.isSome_iff_ne_none]
  exact h.imp (fun off => by rw [off]; rfl) id

theorem breezeTile_runs (on : (s.dreg aBreezeCtl).getLsbD 0 = true) (shut : openOf s (breezeTileOf (s.dfield aBreezePos 0 28)) = none) :
    exec (.breezeTile n) s =
      .next (breezeNext s (breezeCheck (breezeFixed s n) (breezeTileOf (s.dfield aBreezePos 0 28)))) := by
  rw [exec_breezeTile, execBreezeTile]
  exact if_neg (by simp [on, shut])

theorem openOf_breezeFixed (t : Nat) : openOf (breezeFixed s n) t = openOf s t := by unfold breezeFixed; split <;> rfl
theorem caddy_breezeFixed (t : Nat) : (breezeFixed s n).caddy t = s.caddy t := by unfold breezeFixed; split <;> rfl
theorem tagMatches_breezeFixed (t : Nat) : tagMatches (breezeFixed s n) t = tagMatches s t := by
  unfold breezeFixed; split <;> rfl
theorem pathFail_breezeFixed (t : Nat) : pathFail (breezeFixed s n) t = pathFail s t := by
  unfold breezeFixed; split
  · exact pathFail_putDfield_stat ..
  · rfl

end event

/-- BREEZE_TILE at a tile that is not open: what it makes of the tile, by its STATE, its path and its tag. -/
theorem breezeTile_tile {s : State} {n : Nat} (on : (s.dreg aBreezeCtl).getLsbD 0 = true)
    (shut : openOf s (breezeTileOf (s.dfield aBreezePos 0 28)) = none) :
    let t := breezeTileOf (s.dfield aBreezePos 0 28)
    let s1 := breezeFixed s n
    let c := s.caddy t
    let live := c.state = 1 ∨ c.state = 3
    let bad := sealLog (s1.putCaddy t { c with state := 2 }) (t * 2048) 3 1 0
    (c.state = 0 ∨ (live ∧ pathFail s t = none ∧ tagMatches s t = true) → exec (.breezeTile n) s = .next (breezeNext s s1)) ∧
    (∀ a, live → pathFail s t = some a → exec (.breezeTile n) s = .next (breezeNext s (nodeLog s1 a))) ∧
    (c.state = 2 → exec (.breezeTile n) s = .next (breezeNext s bad)) ∧
    (4 ≤ c.state ∨ (live ∧ pathFail s t = none ∧ tagMatches s t = false) →
      exec (.breezeTile n) s = .next (breezeNext s (breezeCount bad 16 1))) := by
  rw [breezeTile_runs on shut]
  generalize breezeTileOf (s.dfield aBreezePos 0 28) = t at shut ⊢
  intro t s1 c live bad
  have shut1 : openOf s1 t = none := (openOf_breezeFixed t).trans shut
  have caddy1 : s1.caddy t = c := caddy_breezeFixed t
  have path1 : pathFail s1 t = pathFail s t := pathFail_breezeFixed t
  have tag1 : tagMatches s1 t = tagMatches s t := tagMatches_breezeFixed t
  have tagFails : (c.failed = true ∨ live ∧ pathFail s t = none ∧ tagMatches s t = false) →
      breezeCheck s1 t = if c.state = 2 then bad else breezeCount bad 16 1 := by
    intro h
    rw [breezeCheck_tag shut1 (by rw [caddy1, path1, tag1]; exact h), caddy1]
  refine ⟨fun ok => ?_, fun a alive path => ?_, fun failed => ?_, fun fails => ?_⟩
  · rw [breezeCheck_passes shut1 (by rw [caddy1, path1, tag1]; exact ok)]
  · rw [breezeCheck_node shut1 (by rw [caddy1]; exact alive) (path1.trans path)]
  · rw [tagFails (.inl (by simp [Caddy.failed, failed])), if_pos failed]
  · rw [tagFails (fails.imp (fun high => by simp [Caddy.failed, high]) id), if_neg]
    obtain high | ⟨alive, -⟩ := fails <;> omega

/-! ### The clear of BREEZE_STAT (R177) -/

/-- The write that CLR makes leaves BREEZE_CTL's own bits. -/
theorem merge_clr (v : DWord) : merge 3 v (v ||| 4) = v := by
  refine BitVec.eq_of_getLsbD_eq fun i _ => ?_
  rw [getLsbD_merge, BitVec.getLsbD_or]
  have low : (3 : DWord).getLsbD i = true → (4 : DWord).getLsbD i = false := by
    have bits : ∀ j < 64, (3 : DWord).getLsbD j = true → (4 : DWord).getLsbD j = false := by decide
    exact bits i ‹_›
  split
  next mask => rw [low mask, Bool.or_false]
  next => rfl

theorem breezeClr_exec (s : State) : exec .breezeClr s =
    .next ((store s aBreezeCtl 3 (s.dreg aBreezeCtl ||| 4)).putDreg aBreezeStat 0) := by
  rw [exec_breezeClr, execBreezeClr, writeSeal, if_pos rfl]
  have clear : (s.dreg aBreezeCtl ||| 4).getLsbD 2 = true := by simp
  simp only [clear, if_true]

/-- Settles O47: the token meter, and each event by the equations of its branches. -/
theorem serviceEvents : Obligations.ServiceEvents := by
  refine ⟨tokenMeter, fun s t o opened => ⟨openTileTimeout_early opened, fun due =>
    ⟨_, openTileTimeout_due opened due, MemSide.closeTile s t, fun good path => resealed_tile (closeTile_reseals opened good path),
      fun g bad => closeTile_bad opened bad, fun a good node => closeTile_node opened good node⟩⟩,
    fun s n => ⟨breezeTile_rests, fun on shut s1 plain fix => ?_⟩, fun s => ⟨_, breezeClr_exec s, rfl, ?_, fun a other => ?_⟩⟩
  · obtain rfl : s1 = breezeFixed s n := by
      unfold breezeFixed
      split
      next fixes => exact fix fixes
      next off => exact plain (Bool.not_eq_true _ ▸ off)
    exact breezeTile_tile on shut
  · exact State.dreg_putDreg_same ..
  · rw [State.dreg_putDreg_other _ _ other]
    by_cases same : a = aBreezeCtl
    · rw [same, dreg_store_same, merge_clr]
    · exact dreg_store_other _ _ _ same

end Sys2Proof.Machine
end

section
/-! PROOFS. StreamTransfers, the issue: what a stream's word makes of its stream, and MLOAD's and MSTORE's checks in their order
(R183, R193, R235, R238, R241, R409, R410). -/

namespace Sys2Proof.Machine

set_option Elab.async false

open Sys2Proof.Claims

/-! ### A stream's word -/

theorem withStream_streams {s : State} {x : Stream} {c : Clause} {w : Workgroup} (streams : Streams s x c w)
    (k : Stream → Clause → Workgroup → Out) : withStream s k = k x c w := by
  obtain ⟨stream, clause, wg, admitted⟩ := streams
  rw [withStream, stream]
  simp only [clause, wg, admitted]

theorem Stream.advance_stays {x : Stream} {c : Clause} {len : Nat} (h : x.slot + len < c.count) :
    x.advance c len = { x with slot := x.slot + len } := if_pos h

theorem Stream.advance_leaves {x : Stream} {c : Clause} {len : Nat} (h : ¬ x.slot + len < c.count) :
    x.advance c len = { x with clause := none, pc := c.follow, slot := 0 } := if_neg h

/-- goStream takes the stream past its word. -/
theorem streamGoes_goStream (s : State) (k : Nat) (x : Stream) (c : Clause) (len : Nat) :
    StreamGoes s k x c len (.next (goStream s k x c len)) := by
  refine ⟨_, rfl, ?_⟩
  by_cases stays : x.slot + len < c.count
  · rw [Stream.advance_stays stays, if_pos stays]
    exact ⟨rfl, ⟨rfl, rfl, rfl⟩, fun ⟨n, has⟩ => by split <;> simp_all⟩
  · rw [Stream.advance_leaves stays, if_neg stays]
    exact ⟨rfl, ⟨rfl, rfl, rfl⟩, fun ⟨n, has⟩ => by split <;> simp_all⟩

/-! ### The rows of a transfer (R235, R238, R410) -/

/-- The bytes of a space. -/
abbrev spaceSize (w : Workgroup) (sc : Bool) : Nat := if sc then 262144 else w.sharedSz

/-- The place of a space. -/
abbrev spaceAt (x : Stream) (w : Workgroup) (sc : Bool) : Place := if sc then .scratch w.core else .shared x.wg

/-- Every row of a transfer lies in its space, and no row of a user's stream in the firmware's part of it. -/
def RowsInside (w : Workgroup) (sc : Bool) (row : Nat → Nat) (rows n : Nat) : Prop :=
  ∀ q < rows, row q + n ≤ spaceSize w sc ∧ (sc = true → w.core = 0 → w.agent = false → 65536 ≤ row q)

theorem spacePlace_eq (x : Stream) (w : Workgroup) (sc : Bool) : spacePlace x w sc = (spaceAt x w sc, spaceSize w sc) := by
  cases sc <;> rfl

theorem spaceOk_iff (x : Stream) (w : Workgroup) (sc : Bool) (o n : Nat) :
    spaceOk x w sc o n = true ↔ o + n ≤ spaceSize w sc ∧ (sc = true → w.core = 0 → w.agent = false → 65536 ≤ o) := by
  rw [spaceOk, spacePlace_eq]
  cases sc <;> cases w.agent <;> by_cases core : w.core = 0 <;> simp [core]

theorem rows_outside_iff (x : Stream) (w : Workgroup) (sc : Bool) (row : Nat → Nat) (rows n : Nat) :
    (((List.range rows).map row).any fun o => !spaceOk x w sc o n) = true ↔ ¬ RowsInside w sc row rows n := by
  simp only [List.any_eq_true, List.mem_map, List.mem_range, RowsInside, ← spaceOk_iff x]
  constructor
  · rintro ⟨_, ⟨q, lt, rfl⟩, fails⟩ inside
    rw [inside q lt] at fails; cases fails
  · intro outside
    obtain ⟨q, fails⟩ := not_forall.1 outside
    obtain ⟨lt, bad⟩ := Classical.not_imp.1 fails
    exact ⟨row q, ⟨q, lt, rfl⟩, by simpa using bad⟩

/-- A transfer as it issues: every part of its rows is left. -/
theorem StreamMem.start_rows (move : StreamMove) (p : Place) (row : Nat → Nat) (rows n : Nat) :
    StreamMem.start move p ((List.range rows).map row) n =
      { move := move, place := p, rows := (List.range rows).map row, rowBytes := n, got := []
        left := (List.range rows).flatMap fun q => (List.range (n / 16)).map fun i => (q, 16 * i) } := by
  rw [start, List.length_map, List.length_range]

/-! ### The checks in their order, and the issue -/

section issue
variable {s : State} {x : Stream} {c : Clause} {w : Workgroup} (streams : Streams s x c w)
include streams

theorem mload_exec (a : BitVec 6) (sc tr : Bool) (size : MSize) (stride : BitVec 12) (off : BitVec 20) :
    exec (.mload a sc tr size stride off) s =
      let shape := loadShape size tr
      let row := rowAt off stride shape.2
      if (!(x.slotAt a.toNat).inUse) = true then .next (failStream s s.curStream 0x11)
      else if off.toNat % 16 ≠ 0 then .next (failStream s s.curStream 5)
      else if (((List.range shape.1).map row).any fun o => !spaceOk x w sc o shape.2) = true then
        .next (failStream s s.curStream 7)
      else .next (goStream s s.curStream (x.launchOp [a.toNat] [] false (some
        (StreamMem.start (.load a.toNat size tr) (spaceAt x w sc) ((List.range shape.1).map row) shape.2))) c 2) := by
  rw [exec_mload, execMload, withStream_streams streams, spacePlace_eq]

theorem mstore_exec (t : Code) (sc : Bool) (f : MStFmt) (stride : BitVec 12) (off : BitVec 20) :
    exec (.mstore t sc f stride off) s =
      let n := if f = .f32 then 128 else 64
      let row := rowAt off stride n
      if w.window = none then .next (failStream s s.curStream 0x12)
      else if off.toNat % 16 ≠ 0 then .next (failStream s s.curStream 5)
      else if (((List.range 32).map row).any fun o => !spaceOk x w sc o n) = true then .next (failStream s s.curStream 7)
      else .next (goStream s s.curStream (x.launchOp [] [t.toNat] false (some
        (StreamMem.start (.store t.toNat f) (spaceAt x w sc) ((List.range 32).map row) n))) c 2) := by
  rw [exec_mstore, execMstore, withStream_streams streams, spacePlace_eq]
  simp only [Option.isNone_iff_eq_none]

end issue

theorem streamTransfers_issue : Claims.StreamTransfers := by
  intro s x c w a sc tr size stride off t f streams place room row inside mem v shape ld st n
  have ld_eq : ld = _ := mload_exec streams a sc tr size stride off
  have st_eq : st = _ := mstore_exec streams t sc f stride off
  have launched (slots tiles : List Nat) (move : StreamMove) (rows n : Nat) :
      StreamGoes s s.curStream { x with inflight := x.inflight ++
        [{ slots := slots, tiles := tiles, engine := false, mem := some (mem move rows n) }] } c 2
        (.next (goStream s s.curStream (x.launchOp slots tiles false (some
          (StreamMem.start move (spaceAt x w sc) ((List.range rows).map (rowAt off stride n)) n))) c 2)) := by
    rw [StreamMem.start_rows]
    exact streamGoes_goStream ..
  have claimed (used : v.inUse = true) : ¬ (!(x.slotAt a.toNat).inUse) = true := by
    rw [show (x.slotAt a.toNat).inUse = true from used]; decide
  have within {rows n : Nat} (fits : inside rows n) :
      ¬ (((List.range rows).map (rowAt off stride n)).any fun o => !spaceOk x w sc o n) = true :=
    mt (rows_outside_iff ..).1 (not_not.2 fits)
  refine ⟨?_, ?_, ?_, fun free => ?_, fun used odd => ?_, fun used even out => ?_, fun used even fits => ?_,
    fun none_ => ?_, fun some_ odd => ?_, fun some_ even out => ?_, fun some_ even fits => ?_⟩
  · rintro rfl; cases tr <;> rfl
  · rintro side rfl; cases size
    case s => exact absurd rfl side
    all_goals rfl
  · rintro rfl
    exact ⟨fun h => by subst h; rfl, fun h => by subst h; rfl, fun h => by subst h; rfl⟩
  · exact ld_eq.trans (if_pos (Bool.not_eq_true' _ |>.mpr free))
  · exact ld_eq.trans ((if_neg (claimed used)).trans (if_pos odd))
  · exact ld_eq.trans ((if_neg (claimed used)).trans ((if_neg (not_not.2 even)).trans
      (if_pos ((rows_outside_iff ..).2 out))))
  · rw [ld_eq]
    dsimp only
    rw [if_neg (claimed used), if_neg (not_not.2 even), if_neg (within fits)]
    exact launched ..
  · exact st_eq.trans (if_pos none_)
  · exact st_eq.trans ((if_neg some_).trans (if_pos odd))
  · exact st_eq.trans ((if_neg some_).trans ((if_neg (not_not.2 even)).trans (if_pos ((rows_outside_iff ..).2 out))))
  · rw [st_eq]
    dsimp only
    rw [if_neg some_, if_neg (not_not.2 even), if_neg (within fits)]
    exact launched ..

end Sys2Proof.Machine
end

section
/-! PROOFS. StreamTransfers, the parts of an MLOAD or an MSTORE and its retirement (R175, R181 to R183, R193, R194, R238, R240,
R241). -/

namespace Sys2Proof.Machine

set_option Elab.async false

open Sys2Proof.Claims

/-! ### Which part may come (R194, R240) -/

/-- Two runs of 16 bytes have one in common. -/
def Near (u v : Nat) : Prop := u < v + 16 ∧ v < u + 16

/-- One spelling for the parts that are not p. -/
theorem bne_part (p : Nat × Nat) : (fun q => q != p) = fun q => decide (q ≠ p) := by
  funext q; by_cases h : q = p <;> simp [h]

theorem StreamMem.meets_iff (y : StreamMem) (place : Place) (o : Nat) :
    y.meets place o = true ↔ y.place = place ∧ ∃ q ∈ y.left, Near (y.partAt q) o := by
  simp only [meets, Bool.and_eq_true, decide_eq_true_eq, List.any_eq_true, Near]

theorem StreamOp.shares_iff (o e : StreamOp) :
    o.shares e = true ↔ (∃ t ∈ e.tiles, t ∈ o.tiles) ∨ ∃ n ∈ e.slots, n ∈ o.slots := by
  simp only [shares, Bool.or_eq_true, List.any_eq_true, List.contains_iff_mem]

theorem Stream.mayPart_iff (x : Stream) (k : Nat) (o : StreamOp) (m : StreamMem) (p : Nat × Nat) :
    x.mayPart k o m p = true ↔
      (∀ e ∈ x.inflight.take k, ((∀ t ∈ e.tiles, t ∉ o.tiles) ∧ ∀ n ∈ e.slots, n ∉ o.slots) ∧
        ∀ y, e.mem = some y → y.place = m.place → ∀ q ∈ y.left, ¬ Near (y.partAt q) (m.partAt p)) ∧
      ∀ q ∈ m.left.takeWhile fun q => q ≠ p, ¬ Near (m.partAt q) (m.partAt p) := by
  have apart (e : StreamOp) : (!o.shares e) = true ↔ (∀ t ∈ e.tiles, t ∉ o.tiles) ∧ ∀ n ∈ e.slots, n ∉ o.slots := by
    rw [Bool.not_eq_true', ← Bool.not_eq_true, StreamOp.shares_iff]; push Not; rfl
  have clear (y : StreamMem) : (!y.meets m.place (m.partAt p)) = true ↔
      (y.place = m.place → ∀ q ∈ y.left, ¬ Near (y.partAt q) (m.partAt p)) := by
    rw [Bool.not_eq_true', ← Bool.not_eq_true, StreamMem.meets_iff]; push Not; rfl
  have own : (!({ m with left := m.left.takeWhile fun q => q != p } : StreamMem).meets m.place (m.partAt p)) = true ↔
      ∀ q ∈ m.left.takeWhile fun q => q ≠ p, ¬ Near (m.partAt q) (m.partAt p) := by
    refine (clear { m with left := m.left.takeWhile fun q => q != p }).trans ?_
    rw [bne_part]
    exact ⟨fun h => h rfl, fun h _ => h⟩
  rw [mayPart, Bool.and_eq_true, own, List.all_eq_true]
  refine and_congr_left fun _ => forall₂_congr fun e _ => ?_
  rw [Bool.and_eq_true, apart, Option.all_eq_true]
  exact and_congr_right fun _ => forall₂_congr fun y _ => clear y

/-! ### What a part does (R175, R238, R241) -/

/-- The stores that the stream sees at a part of an MSTORE come to memory. -/
def storesBehind (s : State) (x : Stream) (m : StreamMem) (p : Nat × Nat) : State :=
  (groupStores s x.wg m.place (m.partAt p) 16).foldl (fun s e => raiseOne s e.1 e.2 6) s

theorem StoreSide.storesBehind (s : State) (x : Stream) (m : StreamMem) (p : Nat × Nat) : StoreSide s (storesBehind s x m p) :=
  StoreSide.foldl (fun s (e : Nat × PendStore) => StoreSide.raiseOne s e.1 e.2 6) _ s

/-- The granule that refuses a part of an MSTORE: of the tile, or of the memory that it does not cover whole. -/
def partRefused (s : State) (m : StreamMem) (y : AccWindow) (t : Nat) (p : Nat × Nat) : Option Nat :=
  (y.badGranule t).or
    (if placeBad s m.place (m.partAt p / 64) && !rowsCover m.rows m.rowBytes (m.partAt p / 64) then some (m.partAt p / 64) else none)

/-- The bytes of a part of an MSTORE. -/
def partBytes (f : MStFmt) (y : AccWindow) (t : Nat) (p : Nat × Nat) : List Byte := ((storeRow f y t p.1).drop p.2).take 16

/-- The bytes that a part of an MLOAD reads. -/
def partRead (s : State) (x : Stream) (m : StreamMem) (p : Nat × Nat) : List Byte :=
  (List.range 16).map fun i => streamByte s x.wg m.place (m.partAt p + i)

/-- What an MLOAD has read, with the bytes of one more part. -/
def StreamMem.gotWith (m : StreamMem) (p : Nat × Nat) (l : List Byte) : Memory := Memory.write m.got (4096 * p.1 + p.2) l

/-- What is left of an operation after a part of it. -/
def StreamMem.after (m : StreamMem) (p : Nat × Nat) : StreamMem := { m with left := m.left.filter fun q => q != p }

theorem inflight_putMem {x : Stream} {k : Nat} {o : StreamOp} (op : x.inflight[k]? = some o) (m : StreamMem) :
    (x.putMem k m).inflight[k]? = some { o with mem := some m } := by
  simp [Stream.putMem, List.getElem?_mapIdx, op]

section part
variable {s : State} {st k : Nat} {x : Stream} {o : StreamOp} {m : StreamMem} (p : Nat × Nat)
  (stream : s.stream st = some x) (op : x.inflight[k]? = some o) (mem : o.mem = some m)
include stream op mem

theorem performPart_load {a : Nat} {size : MSize} {tr : Bool} (move : m.move = .load a size tr) : performPart s st k p =
    if placeBad s m.place (m.partAt p / 64) then (some (m.partAt p / 64), s)
    else (none, s.putStream st (x.putMem k { m.after p with got := m.gotWith p (partRead s x m p) })) := by
  rw [performPart, stream]
  simp only [op, Option.bind_some, mem, move]
  rw [StreamMem.after, move]
  rfl

theorem performPart_noWindow {t : Nat} {f : MStFmt} (move : m.move = .store t f)
    (window : ((s.wg x.wg).bind fun w => w.window) = none) : performPart s st k p = (none, s) := by
  rw [performPart, stream]
  simp only [op, Option.bind_some, mem, move, window]

theorem performPart_refused {t g : Nat} {f : MStFmt} {y : AccWindow} (move : m.move = .store t f)
    (window : ((s.wg x.wg).bind fun w => w.window) = some y) (refused : partRefused s m y t p = some g) :
    performPart s st k p = (some g, s) := by
  rw [partRefused] at refused
  rw [performPart, stream]
  simp only [op, Option.bind_some, mem, move, window, refused]

theorem performPart_writes {t : Nat} {f : MStFmt} {y : AccWindow} (move : m.move = .store t f)
    (window : ((s.wg x.wg).bind fun w => w.window) = some y) (taken : partRefused s m y t p = none) : performPart s st k p =
      (none, (placeWrite (storesBehind s x m p) m.place (m.partAt p) (partBytes f y t p) false).putStream st
        (x.putMem k (m.after p))) := by
  rw [partRefused] at taken
  rw [performPart, stream]
  simp only [op, Option.bind_some, mem, move, window, taken]
  rw [StreamMem.after, move]
  rfl

end part

/-- Every way in which a part is performed with no failure: nothing has changed, or the part is no longer left. -/
theorem performPart_performed {s : State} {st k : Nat} {x : Stream} {o : StreamOp} {m : StreamMem} (p : Nat × Nat)
    (stream : s.stream st = some x) (op : x.inflight[k]? = some o) (mem : o.mem = some m)
    (performed : (performPart s st k p).1 = none) : (performPart s st k p).2 = s ∨ ∃ (s1 : State) (m' : StreamMem),
      (performPart s st k p).2 = s1.putStream st (x.putMem k m') ∧ m'.left = m.left.filter fun q => q != p := by
  cases move : m.move with
  | load a size tr =>
    rw [performPart_load p stream op mem move] at performed ⊢
    by_cases bad : placeBad s m.place (m.partAt p / 64) = true
    · rw [if_pos bad] at performed; cases performed
    · rw [if_neg bad]; exact .inr ⟨_, _, rfl, rfl⟩
  | store t f =>
    cases window : (s.wg x.wg).bind fun w => w.window with
    | none => exact .inl (by rw [performPart_noWindow p stream op mem move window])
    | some y =>
      cases taken : partRefused s m y t p with
      | some g => rw [performPart_refused p stream op mem move window taken] at performed; cases performed
      | none => rw [performPart_writes p stream op mem move window taken]; exact .inr ⟨_, _, rfl, rfl⟩

/-! ### The check words of a part -/

theorem findFrom_lt {p : Nat → Bool} {lo n i : Nat} (h : findFrom p lo n = some i) : i < lo + n := by
  induction n generalizing lo with
  | zero => cases h
  | succ n ih =>
    rw [findFrom] at h
    split at h
    · cases h; omega
    · have := ih h; omega

theorem badGranule_some {y : AccWindow} {t i : Nat} (lt : i < 64) (fails : y.fails t i = true) :
    ∃ j < 64, y.fails t j = true ∧ y.badGranule t = some j := by
  obtain ⟨j, found⟩ := findFrom_isSome (p := y.fails t) (Nat.zero_le i) (by omega : i < 0 + 64) fails
  exact ⟨j, by simpa using findFrom_lt found, findFrom_holds found, found⟩

theorem badGranule_none {y : AccWindow} {t : Nat} (sound : ¬ ∃ i < 64, y.fails t i = true) : y.badGranule t = none :=
  findFrom_none fun g _ lt => Bool.eq_false_iff.2 fun bad => sound ⟨g, by omega, bad⟩

theorem rowsCover_iff (ats : List Nat) (n g : Nat) :
    rowsCover ats n g = true ↔ ∀ i < 64, ∃ b ∈ ats, b ≤ 64 * g + i ∧ 64 * g + i < b + n := by
  simp only [rowsCover, List.all_eq_true, List.mem_range, List.any_eq_true, Bool.and_eq_true, decide_eq_true_eq]

theorem storeRow_length (f : MStFmt) (y : AccWindow) (t i : Nat) :
    (storeRow f y t i).length = if f = .f32 then 128 else 64 := by
  cases f <;> simp [storeRow, List.length_flatMap, toBytes_length]

/-- A part of an MLOAD: refused, or read. -/
theorem streamParts_load {s : State} {st k : Nat} {x : Stream} {o : StreamOp} {m : StreamMem} (p : Nat × Nat)
    (stream : s.stream st = some x) (op : x.inflight[k]? = some o) (mem : o.mem = some m) {a : Nat} {size : MSize} {tr : Bool}
    (move : m.move = .load a size tr) :
    (placeBad s m.place (m.partAt p / 64) = true → performPart s st k p = (some (m.partAt p / 64), s)) ∧
    (placeBad s m.place (m.partAt p / 64) = false → ∃ got : Memory,
      performPart s st k p = (none, s.putStream st (x.putMem k { m.after p with got := got })) ∧
      (∀ i < 16, Memory.get got (4096 * p.1 + p.2 + i) = streamByte s x.wg m.place (m.partAt p + i)) ∧
      ∀ b, b < 4096 * p.1 + p.2 ∨ 4096 * p.1 + p.2 + 16 ≤ b → Memory.get got b = Memory.get m.got b) := by
  have part := performPart_load p stream op mem move
  have len : (partRead s x m p).length = 16 := by rw [partRead, List.length_map, List.length_range]
  refine ⟨fun bad => part.trans (if_pos bad), fun good => ⟨_, part.trans (if_neg (by rw [good]; decide)), fun i lt => ?_,
    fun b out => ?_⟩⟩
  · rw [StreamMem.gotWith, Memory.get_write_inside _ _ (by omega)]
    simp [partRead]
  · exact Memory.get_write_outside _ _ _ _ (by omega)

/-- A part of an MSTORE: refused by the tile or by the memory, or written. -/
theorem streamParts_store {s : State} {st k : Nat} {x : Stream} {w : Workgroup} {o : StreamOp} {m : StreamMem} (p : Nat × Nat)
    (stream : s.stream st = some x) (wg : s.wg x.wg = some w) (op : x.inflight[k]? = some o) (mem : o.mem = some m)
    (place : m.place = .scratch w.core ∨ m.place = .shared x.wg) {t : Nat} {f : MStFmt} {y : AccWindow}
    (move : m.move = .store t f) (window : w.window = some y) (within : p.2 + 16 ≤ if f = .f32 then 128 else 64)
    (bound : ∀ c, m.place = .scratch c → m.partAt p + 16 ≤ 262144) :
    let g := m.partAt p / 64
    let r := performPart s st k p
    let whole := ∀ i < 64, ∃ b ∈ m.rows, b ≤ 64 * g + i ∧ 64 * g + i < b + m.rowBytes
    let spoilt := ∃ i < 64, y.fails t i = true
    (spoilt → ∃ i < 64, y.fails t i = true ∧ r = (some i, s)) ∧
    (¬ spoilt → placeBad s m.place g = true → ¬ whole → r = (some g, s)) ∧
    (¬ spoilt → placeBad s m.place g = false ∨ whole → ∃ s1 s2, StoreSide s s1 ∧ StoreSide s1 s2 ∧
      r = (none, s2.putStream st (x.putMem k (m.after p))) ∧
      (∀ i < 16, some (placeByte s2 m.place (m.partAt p + i)) = (storeRow f y t p.1)[p.2 + i]?) ∧
      ∀ q b, (∀ c, q = .scratch c → b < 262144) → (q ≠ m.place ∨ b < m.partAt p ∨ m.partAt p + 16 ≤ b) →
        placeByte s2 q b = placeByte s1 q b) := by
  intro g r whole spoilt
  have open_ : ((s.wg x.wg).bind fun w => w.window) = some y := by rw [wg]; exact window
  refine ⟨fun ⟨i, lt, fails⟩ => ?_, fun sound bad part => ?_, fun sound fits => ?_⟩
  · obtain ⟨j, below, fails, first⟩ := badGranule_some lt fails
    exact ⟨j, below, fails, performPart_refused p stream op mem move open_ (by rw [partRefused, first, Option.some_or])⟩
  · refine performPart_refused p stream op mem move open_ ?_
    have uncovered : rowsCover m.rows m.rowBytes g = false := Bool.eq_false_iff.2 (mt (rowsCover_iff ..).1 part)
    rw [partRefused, badGranule_none sound, Option.none_or, if_pos]
    rw [Bool.and_eq_true, Bool.not_eq_true']
    exact ⟨bad, uncovered⟩
  · have taken : partRefused s m y t p = none := by
      rw [partRefused, badGranule_none sound, Option.none_or, if_neg]
      rw [Bool.and_eq_true, Bool.not_eq_true']
      rintro ⟨bad, uncovered⟩
      obtain good | covered := fits
      · exact absurd (good.symm.trans bad) (by decide)
      · exact absurd (uncovered.symm.trans ((rowsCover_iff ..).2 covered)) (by decide)
    have len : (partBytes f y t p).length = 16 := by
      rw [partBytes, List.length_take, List.length_drop, storeRow_length]; omega
    have behind := StoreSide.storesBehind s x m p
    refine ⟨storesBehind s x m p, placeWrite (storesBehind s x m p) m.place (m.partAt p) (partBytes f y t p) false, behind,
      StoreSide.placeWrite .., performPart_writes p stream op mem move open_ taken, fun i lt => ?_, fun q b inside other => ?_⟩
    · rw [placeByte_placeWrite_same (by omega), partBytes, List.getElem?_take_of_lt lt, List.getElem?_drop]
      · rw [List.getElem?_eq_getElem (by rw [storeRow_length]; omega), Option.getD_some]
      · rintro g' at_ absent
        obtain scratch | shared := place
        · rw [scratch] at at_; cases at_
        · rw [shared] at at_; cases at_
          have side := behind.2.2 x.wg
          rw [SharedSide, wg] at side
          obtain ⟨w', has, -⟩ := side
          rw [absent] at has; cases has
      · rintro u at_
        obtain h | h := place <;> rw [h] at at_ <;> cases at_
    · refine placeByte_placeWrite_other ?_ ?_ ?_
      · rintro ⟨same, low, high⟩
        obtain apart | before | beyond := other
        · exact apart same
        · omega
        · omega
      · exact inside
      · intro c at_
        rw [len]
        exact bound c at_

theorem streamParts : Claims.StreamParts := by
  intro s st k x w o m p stream wg op mem place at_ near g r goes
  have part (got : Memory) : Stream.putMem x k { m.after p with got := got } = { x with
      inflight := x.inflight.mapIdx fun j y =>
        if j = k then { y with mem := some { m with left := m.left.filter fun q => q ≠ p, got := got } } else y } := by
    simp only [Stream.putMem, StreamMem.after, bne_part]
  refine ⟨?_, fun a size tr move => ?_, fun t f y move window within bound => ?_⟩
  · rw [Stream.mayPart_iff]
    exact and_congr_left fun _ => forall₂_congr fun e _ => and_assoc
  · obtain ⟨refused, read⟩ := streamParts_load p stream op mem move
    refine ⟨refused, fun good => ?_⟩
    obtain ⟨got, done, bytes, others⟩ := read good
    exact ⟨got, by change r = _; rw [← part]; exact done, bytes, others⟩
  · obtain ⟨tile, memory, written⟩ := streamParts_store p stream wg op mem place move window within bound
    refine ⟨tile, memory, fun sound fits => ?_⟩
    obtain ⟨s1, s2, behind, side, done, bytes, others⟩ := written sound fits
    exact ⟨s1, s2, behind, side, by change r = _; rw [← part]; exact done, bytes, others⟩

end Sys2Proof.Machine
end

section
/-! PROOFS. StreamTransfers, the retirement of a stream's operation (R175, R238, R240, R241). -/

namespace Sys2Proof.Machine

set_option Elab.async false

open Sys2Proof.Claims

/-! ### A slot that an MLOAD fills (R238) -/

theorem fget_append_left {α : Type} (d : Nat → α) {a : FMap α} (b : FMap α) {k : Nat} (listed : k ∈ a.map Prod.fst) :
    fget d (a ++ b) k = fget d a k := by
  induction a with
  | nil => cases listed
  | cons e a ih =>
    obtain ⟨j, v⟩ := e
    by_cases same : j = k
    · simp [fget, same]
    · have rest : k ∈ a.map Prod.fst := by simpa [Ne.symm same] using listed
      simp [fget, same, ih rest]

theorem fget_append_right {α : Type} (d : Nat → α) {a : FMap α} (b : FMap α) {k : Nat} (absent : k ∉ a.map Prod.fst) :
    fget d (a ++ b) k = fget d b k := by
  induction a with
  | nil => rfl
  | cons e a ih =>
    obtain ⟨j, v⟩ := e
    obtain ⟨other, rest⟩ : k ≠ j ∧ k ∉ a.map Prod.fst := by simpa using absent
    simp [fget, Ne.symm other, ih rest]

/-- A table that lists n keys from lo in order. -/
theorem fget_run {α : Type} (d : Nat → α) (lo : Nat) (v : Nat → α) {n i : Nat} (lt : i < n) :
    fget d ((List.range n).map fun i => (lo + i, v i)) (lo + i) = v i := by
  induction n with
  | zero => omega
  | succ n ih =>
    rw [List.range_succ, List.map_append]
    obtain below | rfl := Nat.lt_succ_iff_lt_or_eq.1 lt
    · rw [fget_append_left _ _ (by simpa using below)]
      exact ih below
    · rw [fget_append_right _ _ (by simp)]
      simp [fget]

section loaded
variable (v : OpSlot) {size : MSize} (tr : Bool) (got : Nat → Nat → Byte)

/-- A row of the slot after an MLOAD of its elements. -/
theorem byte_loaded_element (elements : size ≠ .s) (a : Nat) {j i : Nat} (row : j < 32) (col : i < 128) :
    (v.loaded size tr got).byte a (128 * j + i) = loadByte size tr got j i := by
  have key : 0 + (128 * j + i) = 128 * j + i := Nat.zero_add _
  have lt : 128 * j + i < 32 * 128 := by omega
  simp only [OpSlot.byte, OpSlot.loaded, elements, decide_false, Bool.false_eq_true, if_false]
  rw [fget_append_left _ _ (by simpa using lt)]
  conv_lhs => rw [← key]
  rw [fget_run _ 0 (fun i => loadByte size tr got (i / 128) (i % 128)) lt]
  congr 1 <;> omega

/-- A row of the sidecar after an MLOAD of it. -/
theorem byte_loaded_side (a : Nat) {j i : Nat} (row : j < 32) (col : i < 16) :
    (v.loaded .s tr got).byte a (4096 + 16 * j + i) = got j i := by
  have lt : 16 * j + i < 32 * 16 := by omega
  simp only [OpSlot.byte, OpSlot.loaded, decide_true, if_true]
  rw [Nat.add_assoc, fget_append_right]
  · rw [fget_run _ 4096 (fun i => loadByte .s tr got (i / 16) (i % 16)) lt]
    have entry : loadByte .s tr got ((16 * j + i) / 16) ((16 * j + i) % 16) = got ((16 * j + i) / 16) ((16 * j + i) % 16) := by
      cases tr <;> rfl
    rw [entry]
    congr 1 <;> omega
  · simp only [beq_true, List.mem_map, List.mem_filter, decide_eq_true_eq, Prod.exists, exists_and_right, exists_eq_right,
      not_and, Nat.not_lt]
    omega

/-- The check words of a slot after an MLOAD. -/
theorem bad_loaded (g : Nat) : fget falseAt (v.loaded size tr got).bad g =
    if (if size = .s then 64 ≤ g ∧ g < 72 else g < 64) then false else fget falseAt v.bad g := by
  have fresh (lo n : Nat) : fget falseAt (fclear v.bad lo n) g = if lo ≤ g ∧ g < lo + n then false else fget falseAt v.bad g := by
    rw [fget_fclear]
    by_cases inside : lo ≤ g ∧ g < lo + n
    · rw [if_pos inside, if_neg (by omega)]; rfl
    · rw [if_neg inside, if_pos (by omega)]
  by_cases side : size = .s
  · simpa only [OpSlot.loaded, side, decide_true, if_true] using fresh 64 8
  · simpa [OpSlot.loaded, side] using fresh 0 64

/-- Where an element's row comes from, plain or transposed. -/
theorem loadByte_eq (elements : size ≠ .s) (j b : Nat) : loadByte size tr got j b =
    if tr = false then got j b
    else match size with
      | .h => got (b / 2) (2 * j + b % 2)
      | .b => got b j
      | _ => BitVec.ofNat 8 ((got (2 * b) (j / 2)).toNat / 2 ^ (4 * (j % 2)) % 2 ^ 4 +
          2 ^ 4 * ((got (2 * b + 1) (j / 2)).toNat / 2 ^ (4 * (j % 2)) % 2 ^ 4)) := by
  cases tr with
  | false => cases size <;> rfl
  | true =>
    cases size with
    | s => exact absurd rfl elements
    | _ => rfl

end loaded

/-! ### Fresh check words of an MSTORE's rows (R175) -/

theorem StoreSide.freshenGranule (s : State) (p : Place) (g : Nat) : StoreSide s (freshenGranule s p g) := by
  cases p with
  | scratch c => exact ⟨rfl, fun _ => WindowSide.of_eq rfl, fun _ => SharedSide.of_eq rfl⟩
  | frame u => exact StoreSide.refl s
  | shared w =>
    unfold Machine.freshenGranule
    dsimp only
    split
    next x has =>
      refine ⟨rfl, fun _ => WindowSide.of_eq rfl, fun v => ?_⟩
      by_cases same : v = w
      · subst same; unfold SharedSide; simp [has]
      · exact SharedSide.of_eq (State.wg_putWg_other _ _ same)
    next => exact StoreSide.refl s

theorem placeBad_freshenGranule (s : State) {p : Place} (chip : ∀ u, p ≠ .frame u) (g j : Nat) :
    placeBad (freshenGranule s p g) p j = true ↔ placeBad s p j = true ∧ j ≠ g := by
  cases p with
  | scratch c =>
    simp only [freshenGranule, placeBad, fget_fset]
    by_cases same : j = g <;> simp [same]
  | frame u => exact absurd rfl (chip u)
  | shared w =>
    cases has : s.wg w with
    | none => simp [freshenGranule, placeBad, has]
    | some x =>
      simp only [freshenGranule, placeBad, has, State.wg_putWg_same, fget_fset]
      by_cases same : j = g <;> simp [same]

theorem placeBad_freshen_all {p : Place} (chip : ∀ u, p ≠ .frame u) (l : List Nat) (s : State) (j : Nat) :
    placeBad (l.foldl (fun s g => freshenGranule s p g) s) p j = true ↔ placeBad s p j = true ∧ j ∉ l := by
  induction l generalizing s with
  | nil => simp
  | cons g l ih =>
    rw [List.foldl_cons, ih, placeBad_freshenGranule s chip, List.mem_cons, not_or, and_assoc]

theorem placeByte_freshen_all (p : Place) (l : List Nat) (s : State) (q : Place) (b : Nat) :
    placeByte (l.foldl (fun s g => freshenGranule s p g) s) q b = placeByte s q b := by
  induction l generalizing s with
  | nil => rfl
  | cons g l ih => rw [List.foldl_cons, ih, placeByte_freshenGranule]

theorem mem_rowsReach {ats : List Nat} {n : Nat} (pos : 0 < n) (g : Nat) :
    g ∈ rowsReach ats n ↔ ∃ b ∈ ats, ∃ i < n, (b + i) / 64 = g := by
  simp only [rowsReach, List.mem_dedup, List.mem_flatMap, List.mem_map, List.mem_range]
  refine exists_congr fun b => and_congr_right fun _ => ⟨?_, ?_⟩
  · rintro ⟨i, lt, rfl⟩
    exact ⟨64 * (b / 64 + i) - b, by omega, by omega⟩
  · rintro ⟨i, lt, rfl⟩
    exact ⟨(b + i) / 64 - b / 64, by omega, by omega⟩

/-- The failing granules that the rows of an MSTORE reach have fresh check words. -/
def freshenRows (s : State) (m : StreamMem) : State :=
  ((rowsReach m.rows m.rowBytes).filter (placeBad s m.place)).foldl (fun s g => freshenGranule s m.place g) s

theorem StoreSide.freshenRows (s : State) (m : StreamMem) : StoreSide s (freshenRows s m) :=
  StoreSide.foldl (fun s g => StoreSide.freshenGranule s m.place g) _ s

theorem placeByte_freshenRows (s : State) (m : StreamMem) (q : Place) (b : Nat) :
    placeByte (freshenRows s m) q b = placeByte s q b := placeByte_freshen_all ..

theorem placeBad_freshenRows (s : State) {m : StreamMem} (chip : ∀ u, m.place ≠ .frame u) (pos : 0 < m.rowBytes) (g : Nat) :
    placeBad (freshenRows s m) m.place g = true ↔ placeBad s m.place g = true ∧
      ¬ ∃ b ∈ m.rows, ∃ i < m.rowBytes, (b + i) / 64 = g := by
  rw [freshenRows, placeBad_freshen_all chip, List.mem_filter, mem_rowsReach pos]
  exact and_congr_right fun bad => not_congr (and_iff_left bad)

theorem finishMem_store {s : State} {st : Nat} {x : Stream} {m : StreamMem} {t : Nat} {f : MStFmt} (move : m.move = .store t f) :
    finishMem s st x m = freshenRows s m := by rw [finishMem, move]; rfl

theorem placeByte_putStream (s : State) (k : Nat) (x : Stream) (q : Place) (b : Nat) :
    placeByte (s.putStream k x) q b = placeByte s q b := by cases q <;> rfl

theorem placeBad_putStream (s : State) (k : Nat) (x : Stream) (q : Place) (g : Nat) :
    placeBad (s.putStream k x) q g = placeBad s q g := by cases q <;> rfl

/-! ### Retirement (R240) -/

/-- What follows in a retirement once the parts that were left have been performed. -/
def retireRest (st k : Nat) : Option Nat × State → Option Nat × State
  | (some g, s) => (some g, s)
  | (none, s) =>
    match s.stream st with
    | none => (none, s)
    | some x =>
      let y := { x with inflight := x.inflight.eraseIdx k }
      match (x.inflight[k]?).bind fun o => o.mem with
      | some m => (none, finishMem (s.putStream st y) st y m)
      | none => (none, s.putStream st y)

/-- A stream's table entry written twice is that of the second write. -/
theorem State.putStream_putStream (s : State) (k : Nat) (x y : Stream) : (s.putStream k x).putStream k y = s.putStream k y := by
  have written (z : Stream) (m : FMap (Option Stream)) : fset noEntry m k (some z) = finsert m k (some z) :=
    if_neg (Option.some_ne_none z)
  simp only [State.putStream, written, finsert_finsert_same]

section retire
variable {s : State} {st k : Nat} {x : Stream} {o : StreamOp} (stream : s.stream st = some x) (op : x.inflight[k]? = some o)
include stream op

theorem retireOp_eq : retireOp s st k = retireRest st k (performParts st k (o.mem.elim [] fun m => m.left) s) := by
  rw [retireOp, stream]
  simp only [Option.bind_some, op] <;> rfl

/-- Nothing is left of the operation: it leaves the stream. -/
theorem retireRest_none : retireRest st k (none, s) =
    let y : Stream := { x with inflight := x.inflight.eraseIdx k }
    match o.mem with
    | some m => (none, finishMem (s.putStream st y) st y m)
    | none => (none, s.putStream st y) := by
  rw [retireRest, stream]
  simp only [op, Option.bind_some] <;> rfl

theorem retireOp_noMemory (mem : o.mem = none) :
    retireOp s st k = (none, s.putStream st { x with inflight := x.inflight.eraseIdx k }) := by
  rw [retireOp_eq stream op, mem, Option.elim_none, performParts, retireRest_none stream op, mem]

variable {m : StreamMem} (mem : o.mem = some m)
include mem

theorem retireOp_done (done : m.left = []) : retireOp s st k =
    (none, finishMem (s.putStream st { x with inflight := x.inflight.eraseIdx k }) st { x with inflight := x.inflight.eraseIdx k } m) := by
  rw [retireOp_eq stream op, mem, Option.elim_some, done, performParts, retireRest_none stream op, mem]

/-- The first part that is left comes first. -/
theorem retireOp_left {p : Nat × Nat} {l : List (Nat × Nat)} (left : m.left = p :: l) (may : x.mayPart k o m p = true) :
    retireOp s st k = match performPart s st k p with
      | (some g, s) => (some g, s)
      | (none, s) => retireRest st k (performParts st k l s) := by
  rw [retireOp_eq stream op, mem, Option.elim_some, left, performParts, stream]
  simp only [op, mem, Option.any_some, may, if_true]
  split <;> simp_all [retireRest]

theorem retireOp_part {p : Nat × Nat} {l : List (Nat × Nat)} (left : m.left = p :: l) (once : p ∉ l)
    (may : x.mayPart k o m p = true) :
    (∀ g, (performPart s st k p).1 = some g → retireOp s st k = performPart s st k p) ∧
    ((performPart s st k p).1 = none → retireOp s st k = retireOp (performPart s st k p).2 st k) := by
  have first := retireOp_left stream op mem left may
  have cases_ := performPart_performed p stream op mem
  refine ⟨fun g refused => ?_, fun performed => ?_⟩
  · rw [first, ← Prod.eta (performPart s st k p), refused]
  · obtain same | ⟨s1, m', is, rest⟩ := cases_ performed
    · rw [same]
    · have now := State.stream_putStream_same s1 st (x.putMem k m')
      rw [← is] at now
      rw [first, retireOp_eq now (inflight_putMem op m')]
      rw [Option.elim_some, rest, left, List.filter_cons_of_neg (by simp), List.filter_eq_self.2]
      · rw [← Prod.eta (performPart s st k p), performed]
      · rintro q mem_
        rw [bne_iff_ne]; rintro rfl; exact once mem_

end retire

theorem streamRetires : Claims.StreamRetires := by
  intro s st k x o stream op r rest
  refine ⟨retireOp_noMemory stream op, fun m mem => ⟨fun p l left once may => retireOp_part stream op mem left once may,
    fun a size tr done move => ?_, fun t f done move chip pos => ?_⟩⟩
  · refine ⟨(x.slotAt a).loaded size tr fun q b => Memory.get m.got (4096 * q + b), ?_, rfl, bad_loaded _ tr _,
      fun j row i col elements => ?_, fun j row i col side => ?_⟩
    · refine (retireOp_done stream op mem done).trans ?_
      rw [finishMem, move]
      exact congrArg (Prod.mk none) (State.putStream_putStream ..)
    · rw [byte_loaded_element _ _ _ elements a row col, loadByte_eq _ _ elements]
      cases size with
      | s => exact absurd rfl elements
      | _ => rfl
    · subst side
      exact byte_loaded_side _ _ _ a row col
  · refine ⟨_, (retireOp_done stream op mem done).trans (congrArg (Prod.mk none) (finishMem_store move)),
      StoreSide.freshenRows .., fun q b => ?_, fun g => ?_⟩
    · rw [placeByte_freshenRows, placeByte_putStream]
    · rw [placeBad_freshenRows _ chip pos, placeBad_putStream]

/-- Settles O31: the issue by the checks in their order, a part by its equations, and the retirement by the parts that are
left. -/
theorem streamTransfers : Obligations.StreamTransfers := ⟨streamTransfers_issue, streamParts, streamRetires⟩

end Sys2Proof.Machine
end

section
/-! PROOFS. PreemptionEvents, the room that requests take: room that frees goes to the unmet requests of its core in their order,
and what ended requests took goes to the others (R259, R263, R264). -/

namespace Sys2Proof.Machine

set_option Elab.async false

open Sys2Proof.Claims

/-! ### Rooms -/

theorem Room.le_iff (a b : Room) : a.le b = true ↔ a.ctx ≤ b.ctx ∧ a.regs ≤ b.regs ∧ a.lmem ≤ b.lmem := by
  simp only [le, Bool.and_eq_true, decide_eq_true_eq, and_assoc]

theorem Room.le_add (a b : Room) : a.le (a.add b) = true :=
  (le_iff ..).2 ⟨Nat.le_add_right .., Nat.le_add_right .., Nat.le_add_right ..⟩

theorem Room.le_refl (a : Room) : a.le a = true := (le_iff ..).2 ⟨Nat.le_refl _, Nat.le_refl _, Nat.le_refl _⟩

/-- A request that is met wants no more. -/
theorem Room.add_meet_met {want took : Room} (met : want.le took = true) (free : Room) :
    took.add (free.meet (want.sub took)) = took := by
  obtain ⟨ctx, regs, lmem⟩ := (le_iff ..).1 met
  cases took
  simp_all [add, meet, sub]

/-! ### What each request is given -/

/-- A request with its share of the room that frees. -/
def givenTo (given : List (Request × Room)) (q : Request) : Request :=
  match given.find? fun x => decide (x.1 = q) with
  | some x => { q with took := q.took.add x.2 }
  | none => q

/-- The unmet requests of a core that room goes to, in their order, each with its share. -/
def coreShares (s : State) (core : Nat) (free : Room) : List (Request × Room) :=
  shares free (sortBy requestOrder (s.reqs.filter fun r => r.core == core && r.source != 1))

theorem giveRoom_eq (s : State) (core : Nat) (free : Room) :
    giveRoom s core free = showRequest { s with reqs := s.reqs.map (givenTo (coreShares s core free)) } core := rfl

theorem showRequest_frame (s : State) (core : Nat) : showRequest s core = { s with dev := (showRequest s core).dev } := by
  unfold showRequest; split <;> rfl

@[simp] theorem showRequest_reqs (s : State) (core : Nat) : (showRequest s core).reqs = s.reqs := by rw [showRequest_frame]

theorem giveRoom_reqs (s : State) (core : Nat) (free : Room) :
    (giveRoom s core free).reqs = s.reqs.map (givenTo (coreShares s core free)) := by rw [giveRoom_eq, showRequest_reqs]

section given
variable (given : List (Request × Room)) (q : Request)

/-- A share changes what the request has taken alone, and takes nothing from it. -/
theorem givenTo_frame : givenTo given q = { q with took := (givenTo given q).took } := by
  unfold givenTo; split <;> rfl

theorem le_givenTo : q.took.le (givenTo given q).took = true := by
  unfold givenTo
  split
  · exact Room.le_add ..
  · exact Room.le_refl _

variable {given q}

theorem givenTo_absent (absent : ∀ x ∈ given, x.1 ≠ q) : givenTo given q = q := by
  rw [givenTo, List.find?_eq_none.2 fun x mem => by simpa using absent x mem]

theorem givenTo_first {more : Room} {rest : List (Request × Room)} :
    (givenTo ((q, more) :: rest) q).took = q.took.add more := by simp [givenTo]

end given

theorem mem_shares {free : Room} {l : List Request} {x : Request × Room} (mem : x ∈ shares free l) :
    x.1 ∈ l ∧ ∃ f : Room, x.2 = f.meet (x.1.want.sub x.1.took) := by
  induction l generalizing free with
  | nil => cases mem
  | cons r l ih =>
    rw [shares] at mem
    obtain rfl | later := List.mem_cons.1 mem
    · exact ⟨List.mem_cons_self .., free, rfl⟩
    · exact ⟨List.mem_cons_of_mem _ (ih later).1, (ih later).2⟩

theorem mem_coreShares {s : State} {core : Nat} {free : Room} {x : Request × Room} (mem : x ∈ coreShares s core free) :
    x.1.core = core ∧ x.1.source ≠ 1 ∧ ∃ f : Room, x.2 = f.meet (x.1.want.sub x.1.took) := by
  obtain ⟨listed, share⟩ := mem_shares mem
  have kind := (List.mem_filter.1 ((mem_sortBy ..).1 listed)).2
  rw [Bool.and_eq_true, beq_iff_eq, bne_iff_ne] at kind
  exact ⟨kind.1, kind.2, share⟩

/-- Requests of other cores, and the slice end's, are given nothing. -/
theorem givenTo_elsewhere {s : State} {core : Nat} {free : Room} {q : Request} (h : q.core ≠ core ∨ q.source = 1) :
    givenTo (coreShares s core free) q = q := by
  refine givenTo_absent fun x mem is => ?_
  obtain ⟨here, kind, -⟩ := mem_coreShares mem
  rw [is] at here kind
  exact h.elim (fun far => far here) fun slice => kind slice

theorem givenTo_met {s : State} {core : Nat} {free : Room} {q : Request} (met : q.want.le q.took = true) :
    (givenTo (coreShares s core free) q).took = q.took := by
  unfold givenTo
  split
  next x found =>
    obtain ⟨-, -, f, share⟩ := mem_coreShares (List.mem_of_find?_eq_some found)
    have is : x.1 = q := by simpa using List.find?_some found
    rw [share, is]
    exact Room.add_meet_met met f
  next => rfl

theorem coreShares_first {s : State} {core : Nat} {free : Room} {q : Request}
    (first : (sortBy requestOrder (s.reqs.filter fun q => q.core == core && q.source != 1)).head? = some q) :
    (givenTo (coreShares s core free) q).took = q.took.add (free.meet (q.want.sub q.took)) := by
  obtain ⟨rest, sorted⟩ := List.head?_eq_some_iff.1 first
  rw [coreShares, sorted, shares]
  exact givenTo_first

/-! ### Requests that end (R259, R263) -/

/-- What is left of a request that its taking room does not change. -/
def Request.bare (q : Request) : Request := { q with took := Room.zero }

/-- What one ended request took goes to the others of its core, and room has returned there. -/
def handBack (s : State) (r : Request) : State := roomReturns (giveRoom s r.core (r.idle s)) r.core

theorem endRequests_eq (s : State) (p : Request → Bool) :
    endRequests s p = (s.reqs.filter p).foldl handBack { s with reqs := s.reqs.filter fun r => !p r } := rfl

theorem bare_givenTo (given : List (Request × Room)) (q : Request) : (givenTo given q).bare = q.bare := by
  rw [givenTo_frame]; rfl

/-- What handing back the room of some requests leaves. -/
theorem handBack_all (l : List Request) (s : State) :
    let r := l.foldl handBack s
    r = { s with reqs := r.reqs, roomBack := r.roomBack, dev := r.dev } ∧
    r.reqs.map Request.bare = s.reqs.map Request.bare ∧
    ∀ core, fget falseAt r.roomBack core = true ↔ fget falseAt s.roomBack core = true ∨ ∃ q ∈ l, q.core = core := by
  induction l generalizing s with
  | nil => exact ⟨rfl, rfl, fun core => by simp⟩
  | cons a l ih =>
    obtain ⟨frame, bare, back⟩ := ih (handBack s a)
    have one := (giveRoom_spec s a.core (a.idle s)).1
    refine ⟨?_, ?_, fun core => ?_⟩
    · rw [List.foldl_cons, frame, handBack, roomReturns, one]
    · rw [List.foldl_cons, bare, handBack, roomReturns]
      simp only [giveRoom_reqs, List.map_map]
      exact List.map_congr_left fun q _ => bare_givenTo _ q
    · have here : (handBack s a).roomBack = fset falseAt s.roomBack a.core true := by
        rw [handBack, roomReturns, one]
      rw [List.foldl_cons, back, here, fget_fset]
      by_cases same : core = a.core
      · simp [same]
      · simp [same, Ne.symm same]

theorem endRequests_none {s : State} {p : Request → Bool} (none_ : ∀ q ∈ s.reqs, p q = false) : endRequests s p = s := by
  have ended : s.reqs.filter p = [] := List.filter_eq_nil_iff.2 fun q mem => by simp [none_ q mem]
  have rest : s.reqs.filter (fun r => !p r) = s.reqs := List.filter_eq_self.2 fun q mem => by simp [none_ q mem]
  rw [endRequests_eq, ended, rest]
  rfl

theorem roomGiven : RoomGiven := by
  refine ⟨fun s core free => ⟨⟨_, giveRoom_eq ..⟩, (giveRoom_spec s core free).2.1, fun i q at_ => ?_, fun i q at_ first => ?_⟩,
    fun s p => ⟨endRequests_none, ?_⟩⟩
  · refine ⟨givenTo (coreShares s core free) q, ?_, givenTo_frame .., le_givenTo .., givenTo_elsewhere, givenTo_met⟩
    rw [giveRoom_reqs, List.getElem?_map, at_]; rfl
  · refine ⟨givenTo (coreShares s core free) q, ?_, coreShares_first first⟩
    rw [giveRoom_reqs, List.getElem?_map, at_]; rfl
  · obtain ⟨frame, bare, back⟩ := handBack_all (s.reqs.filter p) { s with reqs := s.reqs.filter fun r => !p r }
    rw [← endRequests_eq] at frame bare back
    refine ⟨frame, bare, fun core => (back core).trans (or_congr_right (exists_congr fun q => ?_))⟩
    rw [List.mem_filter, and_assoc]

end Sys2Proof.Machine
end

section
/-! PROOFS. PreemptionEvents, what stands of workgroups' saves through the work that a stop or a cancel brings about (R105, R169,
R202, R206 to R211, R234, R240, R308): no operation of it saves a workgroup, gives it units of the save area, or drops it. -/

namespace Sys2Proof.Machine

set_option Elab.async false

/-- Whether workgroup g is saved, and in which units of the save area. -/
def State.saveOf (s : State) (g : Nat) : Option (Bool × List Nat) := (s.wg g).map fun w => (w.saved, w.saveUnits)

/-- Every workgroup is there as before, saved or not, in the same units. -/
def KeepsSaves (s s' : State) : Prop := ∀ g, s'.saveOf g = s.saveOf g

namespace KeepsSaves

variable {s s' s'' : State}

theorem refl (s : State) : KeepsSaves s s := fun _ => rfl

theorem trans (h : KeepsSaves s s') (h' : KeepsSaves s' s'') : KeepsSaves s s'' := fun g => (h' g).trans (h g)

theorem foldl {α : Type} {f : State → α → State} (hf : ∀ s x, KeepsSaves s (f s x)) (l : List α) (s : State) :
    KeepsSaves s (l.foldl f s) :=
  foldl_keeps (fun r => KeepsSaves s r) f (fun _ _ h => h.trans (hf _ _)) l s (refl s)

theorem of_wgs (h : s'.wgs = s.wgs) : KeepsSaves s s' := fun g => by simp only [State.saveOf, State.wg, h]

theorem of_memSide (h : MemSide s s') : KeepsSaves s s' := of_wgs h.wgs

theorem of_storeSide (h : StoreSide s s') : KeepsSaves s s' := fun g => by
  have side := h.2.2 g
  unfold SharedSide at side
  cases has : s.wg g with
  | none => rw [has] at side; simp only [State.saveOf, has, side]
  | some w =>
    rw [has] at side
    obtain ⟨w', has', same⟩ := side
    simp only [State.saveOf, has, has']
    rw [same]; rfl

/-- A workgroup is set to what it was, but for other things. -/
theorem putWg {g : Nat} {w w' : Workgroup} (has : s.wg g = some w) (saved : w'.saved = w.saved)
    (units : w'.saveUnits = w.saveUnits) : KeepsSaves s (s.putWg g w') := fun j => by
  by_cases same : j = g
  · subst same; simp [State.saveOf, has, saved, units]
  · simp only [State.saveOf, State.wg_putWg_other _ _ same]

/-! ### Answers at barriers (R206 to R211) -/

theorem fillResult (s : State) (u word : Nat) (v : Word) : KeepsSaves s (fillResult s u word v) := by
  unfold Machine.fillResult
  split
  · exact refl s
  · exact of_wgs rfl

theorem wake (s : State) (ws : List Waiter) (v : Waiter → Word) : KeepsSaves s (wake s ws v) :=
  foldl (fun s (w : Waiter) => fillResult s w.team w.word (v w)) ws s

theorem arrive (s : State) (g k : Nat) (team : Option Nat) (err : Option (Nat × Nat)) :
    KeepsSaves s (arrive s g k team err) := by
  unfold Machine.arrive
  split
  · exact refl s
  · next w has =>
    dsimp only
    split
    · exact refl s
    · split
      · refine trans ?_ (wake _ _ _)
        exact putWg has rfl rfl
      · exact putWg has rfl rfl

theorem detach (s : State) (g k c : Nat) : KeepsSaves s (detach s g k c) := by
  unfold Machine.detach
  split
  · exact refl s
  · next w has => exact putWg has rfl rfl

theorem releaseMwait (s : State) (w : Workgroup) (k : Nat) : KeepsSaves s (releaseMwait s w k) := by
  unfold Machine.releaseMwait
  repeat' split
  all_goals exact of_wgs rfl

theorem detachCopy (s : State) (c : Nat) :
    KeepsSaves s (match s.copy c with | some x => s.putCopy c { x with attached := false } | none => s) := by
  split <;> exact of_wgs rfl

theorem invalidate (s : State) (g k : Nat) : KeepsSaves s (invalidate s g k) := by
  unfold Machine.invalidate
  split
  · exact refl s
  · next w has =>
    dsimp only
    refine ((trans ?_ (foldl detachCopy _ _)).trans (releaseMwait _ _ k)).trans (wake _ _ _)
    exact putWg has rfl rfl

theorem invalidateAll (s : State) (g : Nat) : KeepsSaves s (invalidateAll s g) := foldl (fun s k => invalidate s g k) _ s

theorem leaveColls (s : State) (g joined : Nat) : KeepsSaves s (leaveColls s g joined) := by
  unfold Machine.leaveColls
  split
  · exact refl s
  · next w has =>
    dsimp only
    refine trans ?_ (foldl (fun s c => ?_) _ _)
    · exact putWg has rfl rfl
    · split
      · have apart := foldl (fun s (y : Slice) => detach s g y.nb y.uid) c.slices s
        split
        · exact apart.trans (arrive _ _ _ _ _)
        · exact apart
      · exact refl _

/-! ### The tiles of a copy (R168 to R176, R201, R202) -/

theorem logGranules (s : State) (r : Requester) (l : List Nat) : KeepsSaves s (logGranules s r l) :=
  of_memSide (MemSide.logGranules s r l)

theorem pageWrite (s : State) (r : Requester) (p : Pte) (k pa : Nat) (l : List Byte) :
    KeepsSaves s (pageWrite s r p k pa l).2 := by
  unfold Machine.pageWrite
  split
  · exact of_memSide (MemSide.sealWrite s k 1 pa l)
  · exact of_wgs rfl
  · split
    · exact of_storeSide (StoreSide.placeWrite _ _ _ _ _)
    · exact logGranules _ _ _

theorem part (x : LateTile) (s : State) (c : Copy) (p : Bool × Nat × Nat) : KeepsSaves s (x.part s c p).2 := by
  unfold LateTile.part
  repeat' split
  · unfold LateTile.writePart
    dsimp only
    split
    · split
      · exact pageWrite _ _ _ _ _ _
      · exact of_storeSide (StoreSide.placeWrite _ _ _ _ _)
    · exact logGranules _ _ _
  · exact refl s
  · exact of_memSide (MemSide.pageReadBut x.logged s c.requester x.srcPage.pte (x.srcAt + p.2.1) p.2.2)
  · exact refl s

theorem performs (c : Copy) (l : List (Bool × Nat × Nat)) (x : LateTile) (s : State) :
    KeepsSaves s (LateTile.performs c l x s).2 := by
  induction l generalizing x s with
  | nil => exact refl s
  | cons p l ih => exact (part x s c p).trans (ih _ _)

theorem freshenGranule (s : State) (p : Place) (g : Nat) : KeepsSaves s (freshenGranule s p g) :=
  of_storeSide (StoreSide.freshenGranule s p g)

theorem freshen (x : LateTile) (s : State) (c : Copy) : KeepsSaves s (x.freshen s c) := by
  unfold LateTile.freshen
  split
  · exact foldl (fun s g => freshenGranule s _ g) _ s
  · exact refl s

theorem performTile (p : Bool × Nat × Nat → Bool) (s : State) (c : Copy) (x : LateTile) :
    KeepsSaves s (performTile p s c x).2 := by
  unfold Machine.performTile
  split
  · exact of_memSide (resealTile_spec s c x).1
  · dsimp only
    split
    · exact (performs c _ x s).trans (freshen _ _ c)
    · exact performs c _ x s

theorem finishTiles (p : LateTile → Bool) (s : State) (k : Nat) : KeepsSaves s (finishTiles p s k) := by
  unfold Machine.finishTiles
  split
  · exact refl s
  · refine foldl (fun s x => ?_) _ s
    split
    · exact refl s
    · next c _ => exact (performTile (fun _ => true) s c x).trans (of_wgs rfl)

/-! ### Copies and streams that end (R202, R215, R234, R240, R247) -/

theorem nodeDone (s : State) (g i : Nat) (word : DWord) : KeepsSaves s (nodeDone s g i word) := by
  unfold Machine.nodeDone
  split <;> exact of_wgs rfl

theorem completeCopy (s : State) (k st tile : Nat) : KeepsSaves s (completeCopy s k st tile) := by
  unfold Machine.completeCopy
  split
  · exact refl s
  · dsimp only
    have gone : KeepsSaves s (s.dropCopy k) := of_wgs rfl
    split
    · refine (gone.trans ?_).trans (nodeDone _ _ _ _)
      repeat' split
      all_goals exact of_wgs rfl
    · split
      · split
        · exact (gone.trans (detach _ _ _ _)).trans (arrive _ _ _ _ _)
        · exact gone
      · exact gone

theorem stopCopy (s : State) (k : Nat) : KeepsSaves s (stopCopy s k) := (finishTiles _ s k).trans (completeCopy _ k 5 _)

theorem performPart (s : State) (st k : Nat) (p : Nat × Nat) : KeepsSaves s (performPart s st k p).2 := by
  unfold Machine.performPart
  split
  · exact refl s
  · split
    · exact refl s
    · dsimp only
      split
      · split
        · exact refl s
        · exact of_wgs rfl
      · split
        · exact refl s
        · split
          · exact refl s
          · dsimp only
            refine trans ?_ (of_wgs (State.putStream_wgs _ _ _))
            refine trans (of_storeSide ?_) (of_storeSide (StoreSide.placeWrite _ _ _ _ _))
            exact StoreSide.foldl (fun s (e : Nat × PendStore) => StoreSide.raiseOne s e.1 e.2 6) _ s

theorem performParts (st k : Nat) (l : List (Nat × Nat)) (s : State) : KeepsSaves s (performParts st k l s).2 := by
  induction l generalizing s with
  | nil => exact refl s
  | cons p l ih =>
    unfold Machine.performParts
    split
    · exact refl s
    · split
      · exact refl s
      · split
        · have one := performPart s st k p
          split <;> rename_i e <;> rw [e] at one
          · exact one
          · exact one.trans (ih _)
        · exact ih s

theorem finishMem (s : State) (st : Nat) (x : Stream) (m : StreamMem) : KeepsSaves s (finishMem s st x m) := by
  unfold Machine.finishMem
  split
  · exact of_wgs rfl
  · exact foldl (fun s g => freshenGranule s m.place g) _ s

theorem retireRest (st k : Nat) (r : Option Nat × State) : KeepsSaves r.2 (retireRest st k r).2 := by
  unfold Machine.retireRest
  repeat' split
  · exact refl _
  · exact refl _
  · refine trans ?_ (finishMem _ _ _ _)
    exact of_wgs rfl
  · exact of_wgs rfl

theorem retireOp (s : State) (st k : Nat) : KeepsSaves s (retireOp s st k).2 :=
  (performParts st k ((((s.stream st).bind fun x => x.inflight[k]?).bind fun o => o.mem).elim [] fun m => m.left) s).trans
    (retireRest st k _)

theorem finishOps (s : State) (st : Nat) : KeepsSaves s (finishOps s st) := by
  unfold Machine.finishOps
  split
  · exact refl s
  · refine foldl (fun s _ => ?_) _ s
    have op := retireOp s st 0
    split <;> rename_i e <;> rw [e] at op
    · exact op
    · dsimp only
      split
      · exact (op.trans (of_memSide (MemSide.checkLog _ _ _))).trans (of_wgs rfl)
      · exact op.trans (of_memSide (MemSide.checkLog _ _ _))

theorem endStream (s : State) (k : Nat) : KeepsSaves s (endStream s k) := by
  unfold Machine.endStream
  dsimp only
  have ops := finishOps s k
  split
  · exact ops
  · split
    · next w has => exact ops.trans ((of_wgs rfl).trans (putWg (s := (Machine.finishOps s k).dropStream k) has rfl rfl))
    · exact ops.trans (of_wgs rfl)

/-! ### A cancel, a failure and a team that leaves (R97, R98, R105, R106) -/

theorem launchCheck (s : State) (l : Nat) : KeepsSaves s (launchCheck s l) := by
  unfold Machine.launchCheck
  split
  · exact refl s
  · split
    · have started (s : State) : KeepsSaves s (startHeld s) := by
        unfold startHeld
        repeat' split
        all_goals exact of_wgs rfl
      refine (trans ?_ (nodeDone _ _ _ _)).trans (started _)
      refine of_wgs ?_
      rw [endRequests_eq, (handBack_all _ _).1]
      rfl
    · exact refl s

theorem cancelLaunch (s : State) (l : Nat) : KeepsSaves s (cancelLaunch s l) := by
  unfold Machine.cancelLaunch
  split
  · exact refl s
  · split
    · exact refl s
    · dsimp only
      refine trans ?_ (launchCheck _ _)
      refine trans ?_ (foldl (fun s u => ?_) _ _)
      · refine trans ?_ (foldl (fun s g => ?_) _ _)
        · refine trans ?_ (foldl (fun s (e : Nat × Copy) => stopCopy s e.1) _ _)
          refine trans ?_ (foldl (fun s g => ?_) _ _)
          · exact trans (of_wgs rfl) (foldl invalidateAll _ _)
          · split
            · next w has => exact putWg has rfl rfl
            · exact refl s
        · repeat' split
          · exact endStream s _
          all_goals exact refl s
      · split <;> exact of_wgs rfl

theorem failLaunch (s : State) (l status : Nat) (nested : Bool) (cause : Nat) (wgid : Word) :
    KeepsSaves s (failLaunch s l status nested cause wgid) := by
  unfold Machine.failLaunch
  split
  · exact refl s
  · split
    · exact refl s
    · exact trans (of_wgs rfl) (cancelLaunch _ l)

theorem teamLeaves (s : State) (u : Nat) (st : TeamStatus) : KeepsSaves s (teamLeaves s u st) := by
  unfold Machine.teamLeaves
  dsimp only
  have drained := of_storeSide (StoreSide.drainAll s u)
  split
  · exact drained
  · exact drained.trans (trans (of_wgs rfl) (leaveColls _ _ _))

end KeepsSaves

end Sys2Proof.Machine
end

section
/-! PROOFS. PreemptionEvents, the save of a workgroup and what is left of one that is stopped (R105, R106, R169, R175, R264,
R308). -/

namespace Sys2Proof.Machine

set_option Elab.async false

open Sys2Proof.Claims

/-! ### A launch that fails, whatever it has left (R97, R105, R106) -/

/-- What a cancel does before it looks at its launch leaves every team and every other launch. -/
theorem cancelLaunch_eq {s : State} {l : Nat} {x : Launch} (has : s.launch l = some x) (live : x.cancelling = false) :
    ∃ s', KeepsUnits (s.putLaunch l { x with cancelling := true, pending := [], counter := x.counter - pendingCount x }) s' ∧
      cancelLaunch s l = launchCheck s' l := by
  unfold cancelLaunch
  rw [has]
  dsimp only
  rw [if_neg (by simp [live])]
  refine ⟨_, ?_, rfl⟩
  refine .trans ?_ (.foldl KeepsUnits.noteCancel _ _)
  refine .trans ?_ (.foldl KeepsUnits.endStreamOf _ _)
  refine .trans ?_ (.foldl (fun s (e : Nat × Copy) => KeepsUnits.stopCopy s e.1) _ _)
  exact .trans (.foldl (fun s g => .of_answers (.invalidateAll s g)) _ _) (.foldl KeepsUnits.dropColls _ _)

theorem firstHeld_mem {s : State} {e : Nat × Launch} (first : firstHeld s = some e) : e ∈ entries s.launches := by
  have picks (l : List (Nat × Launch)) (b : Option (Nat × Launch)) (found : l.foldl earlierLaunch b = some e) :
      b = some e ∨ e ∈ l := by
    induction l generalizing b with
    | nil => exact .inl found
    | cons a l ih =>
      obtain before | later := ih _ found
      · have choice : earlierLaunch b a = b ∨ earlierLaunch b a = some a := by
          unfold earlierLaunch
          split
          · split
            · exact .inr rfl
            · exact .inl rfl
          · exact .inr rfl
        obtain old | new := choice
        · exact .inl (old ▸ before)
        · rw [new] at before; cases before; exact .inr (List.mem_cons_self ..)
      · exact .inr (List.mem_cons_of_mem _ later)
  rw [firstHeld_eq] at first
  obtain none_ | mem := picks _ none first
  · cases none_
  · exact (List.mem_filter.1 mem).1

/-- A launch that no table entry names is not the one that starts. -/
theorem startHeld_absent {s : State} {l : Nat} (absent : l ∉ s.launches.map Prod.fst) : (startHeld s).launch l = none := by
  have none_ : s.launch l = none := fget_of_not_key noEntry absent
  unfold startHeld
  split
  next k x first =>
    split
    · have listed := firstHeld_mem first
      have other : l ≠ k := by
        rintro rfl
        obtain ⟨e, mem, is⟩ := List.mem_filterMap.1 listed
        refine absent (List.mem_map.2 ⟨e, mem, ?_⟩)
        obtain ⟨v, -, is⟩ := Option.map_eq_some_iff.1 is
        exact congrArg Prod.fst is
      exact (State.launch_putLaunch_other _ _ other).trans none_
    · exact none_
  next => exact none_

theorem not_key_ferase {α : Type} (m : FMap α) (k : Nat) : k ∉ (ferase m k).map Prod.fst := by
  induction m with
  | nil => exact List.not_mem_nil
  | cons e m ih =>
    obtain ⟨j, v⟩ := e
    by_cases same : j = k
    · simpa only [ferase, same, if_true] using ih
    · simpa [ferase, same, Ne.symm same] using ih

/-- A launch that is looked at is complete and gone, or nothing has changed; no team has. -/
theorem launchCheck_cases (s : State) (l : Nat) :
    (launchCheck s l).teams = s.teams ∧ ((launchCheck s l).launch l = none ∨ launchCheck s l = s) := by
  unfold launchCheck
  split
  next => exact ⟨rfl, .inr rfl⟩
  next x has =>
    split
    next =>
      have ended := (handBack_all ((s.dropLaunch l).reqs.filter fun r => r.source == 0 && r.launch == l)
        { s.dropLaunch l with reqs := (s.dropLaunch l).reqs.filter fun r => !(r.source == 0 && r.launch == l) }).1
      rw [← endRequests_eq] at ended
      have started (s : State) : (startHeld s).teams = s.teams := by
        unfold startHeld; repeat' split
        all_goals rfl
      have node (s : State) (g i : Nat) (word : DWord) :
          (nodeDone s g i word).teams = s.teams ∧ (nodeDone s g i word).launches = s.launches := by
        unfold nodeDone; split <;> exact ⟨rfl, rfl⟩
      refine ⟨?_, .inl (startHeld_absent ?_)⟩
      · rw [started, (node ..).1, ended]; rfl
      · rw [(node ..).2, ended]
        exact not_key_ferase s.launches l
    next => exact ⟨rfl, .inr rfl⟩

/-! ### Teams that no longer run -/

/-- Every team of s is there in s', and one that does not run still does not. -/
def StartsNone (s s' : State) : Prop :=
  ∀ u t, s.team u = some t → ∃ t', s'.team u = some t' ∧ (t.status ≠ .running → t'.status ≠ .running)

namespace StartsNone

variable {s s' s'' : State}

theorem refl (s : State) : StartsNone s s := fun _ t has => ⟨t, has, id⟩

theorem trans (h : StartsNone s s') (h' : StartsNone s' s'') : StartsNone s s'' := fun u t has => by
  obtain ⟨t1, has1, one⟩ := h u t has
  obtain ⟨t2, has2, two⟩ := h' u t1 has1
  exact ⟨t2, has2, fun still => two (one still)⟩

theorem of_teams (h : s'.teams = s.teams) : StartsNone s s' := fun u t has => ⟨t, by rw [State.team, h]; exact has, id⟩

theorem of_keepsUnits (h : KeepsUnits s s') : StartsNone s s' := fun u t has => by
  obtain ⟨t', has', beside⟩ := h.2 u t has
  exact ⟨t', has', fun still => by rw [beside]; exact still⟩

/-- A team that leaves does not run, and starts no other. -/
theorem teamLeaves {u : Nat} {t : Team} (has : s.team u = some t) {st : TeamStatus} (left : st ≠ .running) :
    StartsNone s (teamLeaves s u st) ∧ ∃ t', (teamLeaves s u st).team u = some t' ∧ t'.status ≠ .running := by
  obtain ⟨s1, t1, side, same, -, answers, gone⟩ := teamLeaves_team has st
  refine ⟨?_, _, gone, left⟩
  have stored := of_keepsUnits (KeepsUnits.of_storeSide side)
  have answered := of_keepsUnits (KeepsUnits.of_answers answers)
  refine stored.trans (.trans (fun v x here => ?_) answered)
  by_cases is : v = u
  · subst is; exact ⟨_, State.team_putTeam_same .., fun _ => left⟩
  · exact ⟨x, (State.team_putTeam_other _ _ is).trans here, id⟩

end StartsNone

/-- A running team is stopped. -/
def stopRunning (s : State) (u : Nat) : State :=
  match s.team u with
  | some t => if t.status = .running then teamLeaves s u .stopped else s
  | none => s

theorem stopRunning_startsNone (s : State) (u : Nat) : StartsNone s (stopRunning s u) := by
  unfold stopRunning
  split
  next t has =>
    split
    · exact (StartsNone.teamLeaves has (by decide)).1
    · exact .refl s
  next => exact .refl s

theorem stopRunning_stops {s : State} {u : Nat} {t : Team} (has : s.team u = some t) :
    ∃ t', (stopRunning s u).team u = some t' ∧ t'.status ≠ .running := by
  rw [stopRunning, has]
  dsimp only
  split
  next => exact (StartsNone.teamLeaves has (by decide)).2
  next still => exact ⟨t, has, still⟩

theorem stopRunning_launches (s : State) (u : Nat) : (stopRunning s u).launches = s.launches := by
  unfold stopRunning
  split
  next t has =>
    split
    · obtain ⟨s1, t1, side, -, -, answers, -⟩ := teamLeaves_team has .stopped
      rw [answers.1]
      exact (congrArg State.launches side.1 :)
    · rfl
  next => rfl

theorem KeepsSaves.stopRunning (s : State) (u : Nat) : KeepsSaves s (stopRunning s u) := by
  unfold Machine.stopRunning
  split
  · split
    · exact teamLeaves s u .stopped
    · exact refl s
  · exact refl s

/-- Teams that are stopped one after another: none of them runs, and none has started. -/
theorem stopRunning_all (l : List Nat) (s : State) : StartsNone s (l.foldl stopRunning s) ∧
    ∀ u ∈ l, ∀ t, s.team u = some t → ∃ t', (l.foldl stopRunning s).team u = some t' ∧ t'.status ≠ .running := by
  induction l generalizing s with
  | nil => exact ⟨.refl s, fun u mem => absurd mem List.not_mem_nil⟩
  | cons v l ih =>
    obtain ⟨later, stops⟩ := ih (stopRunning s v)
    have first := stopRunning_startsNone s v
    refine ⟨first.trans later, fun u mem t has => ?_⟩
    obtain rfl | mem := List.mem_cons.1 mem
    · obtain ⟨t1, has1, stopped⟩ := stopRunning_stops has
      obtain ⟨t2, has2, still⟩ := later u t1 has1
      exact ⟨t2, has2, still stopped⟩
    · obtain ⟨t1, has1, -⟩ := first u t has
      exact stops u mem t1 has1

/-! ### A workgroup that is stopped (R169, R303, R308) -/

section stop
variable {s : State} {g : Nat} {w : Workgroup} (cause : Nat) (has : s.wg g = some w)
include has

/-- The state in which the workgroup's teams have been stopped, and its launch has still to fail. -/
def stoppedTeams (s : State) (g : Nat) (w : Workgroup) : State :=
  w.teams.foldl stopRunning (s.putWg g { w with saved := false, saveUnits := [] })

theorem stopWorkgroup_eq : stopWorkgroup s g cause = failLaunch (stoppedTeams s g w) w.launch 1 false cause w.wgid := by
  rw [stopWorkgroup, has]
  rfl

omit has in
theorem stoppedTeams_launch (l : Nat) : (stoppedTeams s g w).launch l = s.launch l := by
  have same : (stoppedTeams s g w).launches = s.launches :=
    foldl_keeps (fun r => r.launches = s.launches) stopRunning (fun s1 u h => (stopRunning_launches s1 u).trans h) w.teams
      (s.putWg g { w with saved := false, saveUnits := [] }) rfl
  rw [State.launch, same]; rfl

/-- Nothing of the workgroup stays in the save area. -/
theorem stopWorkgroup_save : ∃ w', (stopWorkgroup s g cause).wg g = some w' ∧ w'.saved = false ∧ w'.saveUnits = [] := by
  have kept : KeepsSaves (s.putWg g { w with saved := false, saveUnits := [] }) (stopWorkgroup s g cause) := by
    rw [stopWorkgroup_eq cause has]
    exact (KeepsSaves.foldl KeepsSaves.stopRunning w.teams _).trans (KeepsSaves.failLaunch _ _ _ _ _ _)
  have now := kept g
  rw [State.saveOf, State.saveOf, State.wg_putWg_same] at now
  obtain ⟨w', has', is⟩ := Option.map_eq_some_iff.1 now
  obtain ⟨saved, units⟩ := Prod.mk.inj is
  exact ⟨w', has', saved, units⟩

omit has in
/-- The launch of a workgroup that is stopped: what it then is, and that no team starts by its failure. -/
theorem failLaunch_cases (s : State) (l status : Nat) (nested : Bool) (wgid : Word) :
    StartsNone s (failLaunch s l status nested cause wgid) ∧
    ∀ x, s.launch l = some x → x.cancelling = false → (failLaunch s l status nested cause wgid).launch l = none ∨
      ∃ x', (failLaunch s l status nested cause wgid).launch l = some x' ∧ x'.cancelling = true ∧
        x'.failure = some (status, nested, cause, wgid) := by
  unfold failLaunch
  split
  next none_ => exact ⟨.refl s, fun x is => by rw [none_] at is; cases is⟩
  next y is =>
    split
    next gone => exact ⟨.refl s, fun x is' live => by rw [is] at is'; cases is'; rw [gone] at live; cases live⟩
    next live =>
      obtain ⟨s', kept, cancel⟩ := cancelLaunch_eq (State.launch_putLaunch_same s l
        { y with failure := some (status, nested, cause, wgid) }) (Bool.eq_false_iff.2 live)
      obtain ⟨teams, launch⟩ := launchCheck_cases s' l
      rw [cancel]
      refine ⟨((StartsNone.of_teams rfl).trans (.of_keepsUnits kept)).trans (.of_teams teams), fun x _ _ => ?_⟩
      refine launch.imp id fun same => ?_
      rw [same, State.launch, kept.1]
      exact ⟨_, State.launch_putLaunch_same .., rfl, rfl⟩

end stop

theorem stopWorkgroup_spec (s : State) (g cause : Nat) (w : Workgroup) (has : s.wg g = some w) :
    let r := stopWorkgroup s g cause
    (∃ w', r.wg g = some w' ∧ w'.saved = false ∧ w'.saveUnits = []) ∧
    (∀ u ∈ w.teams, ∀ t, s.team u = some t → ∃ t', r.team u = some t' ∧ t'.status ≠ .running) ∧
    ∀ x, s.launch w.launch = some x → x.cancelling = false → r.launch w.launch = none ∨ ∃ x', r.launch w.launch = some x' ∧
      x'.cancelling = true ∧ x'.failure = some (1, false, cause, w.wgid) := by
  intro r
  obtain ⟨starts, launch⟩ := failLaunch_cases cause (stoppedTeams s g w) w.launch 1 false w.wgid
  rw [← stopWorkgroup_eq cause has] at starts launch
  refine ⟨stopWorkgroup_save cause has, fun u mem t is => ?_, fun x is live => launch x ?_ live⟩
  · obtain ⟨t1, has1, stopped⟩ := (stopRunning_all w.teams (s.putWg g { w with saved := false, saveUnits := [] })).2 u mem t is
    obtain ⟨t2, has2, still⟩ := starts u t1 has1
    exact ⟨t2, has2, still stopped⟩
  · rw [stoppedTeams_launch]; exact is

end Sys2Proof.Machine
end

section
/-! PROOFS. PreemptionEvents, the save of a workgroup (R175, R264, R308): its three endings, and what stands of it where it is
saved. -/

namespace Sys2Proof.Machine

set_option Elab.async false

open Sys2Proof.Claims

/-! ### A change to each of a list of teams -/

/-- Team u, where it is there, is changed by f. -/
def mapTeam (f : Team → Team) (s : State) (u : Nat) : State :=
  match s.team u with
  | some t => s.putTeam u (f t)
  | none => s

section mapTeam
variable (f : Team → Team)

theorem mapTeam_teams (s : State) (u : Nat) : mapTeam f s u = { s with teams := (mapTeam f s u).teams } := by
  unfold mapTeam; split <;> rfl

theorem mapTeam_team_same (s : State) (u : Nat) : (mapTeam f s u).team u = (s.team u).map f := by
  unfold mapTeam
  split
  next t has => rw [State.team_putTeam_same, has]; rfl
  next none_ => rw [none_]; rfl

theorem mapTeam_team_other (s : State) {u v : Nat} (other : v ≠ u) : (mapTeam f s u).team v = s.team v := by
  unfold mapTeam
  split
  · exact State.team_putTeam_other _ _ other
  · rfl

theorem mapTeams_teams (l : List Nat) (s : State) :
    l.foldl (mapTeam f) s = { s with teams := (l.foldl (mapTeam f) s).teams } := by
  refine foldl_keeps (fun r => r = { s with teams := r.teams }) (mapTeam f) (fun r u h => ?_) l s rfl
  rw [mapTeam_teams f r u, h]

/-- A team is changed as often as the list names it. -/
theorem mapTeams_team (l : List Nat) (s : State) (v : Nat) :
    (l.foldl (mapTeam f) s).team v = (s.team v).map f^[l.count v] := by
  induction l generalizing s with
  | nil => exact (congrFun Option.map_id (s.team v)).symm
  | cons u l ih =>
    rw [List.foldl_cons, ih]
    by_cases same : v = u
    · subst same
      rw [mapTeam_team_same, List.count_cons_self, Option.map_map]
      rfl
    · rw [mapTeam_team_other f s same, List.count_cons_of_ne (Ne.symm same)]

theorem mapTeams_team_not_mem {l : List Nat} {v : Nat} (s : State) (absent : v ∉ l) :
    (l.foldl (mapTeam f) s).team v = s.team v := by
  rw [mapTeams_team, List.count_eq_zero.2 absent]
  cases s.team v <;> rfl

theorem mapTeams_team_nodup {l : List Nat} {v : Nat} (s : State) (once : l.Nodup) (mem : v ∈ l) :
    (l.foldl (mapTeam f) s).team v = (s.team v).map f := by
  rw [mapTeams_team, List.count_eq_one_of_mem once mem]
  rfl

/-- A change that is the same done twice is done once, however often the list names the team. -/
theorem mapTeams_team_idempotent {l : List Nat} {v : Nat} (s : State) (twice : ∀ t, f (f t) = f t) (mem : v ∈ l) :
    (l.foldl (mapTeam f) s).team v = (s.team v).map f := by
  obtain ⟨n, count⟩ := Nat.exists_eq_succ_of_ne_zero (List.count_pos_iff.2 mem).ne'
  have once (n : Nat) (t : Team) : f^[n + 1] t = f t := by
    induction n with
    | zero => rfl
    | succ n ih => rw [Function.iterate_succ_apply', ih, twice]
  rw [mapTeams_team, count]
  exact congrArg (Option.map · (s.team v)) (funext (once n))

end mapTeam

/-! ### A workgroup whose save is written -/

/-- A team's frame with fresh check words. -/
def Team.freshFrame (t : Team) : Team := { t with frameBad := [] }

/-- A copy that waits with its saved workgroup. -/
def Copy.asSaved (c : Copy) : Copy := { c with saved := true }

/-- The copies of workgroup g, each changed by f. -/
def mapCopiesOf (f : Copy → Copy) (g : Nat) (m : FMap (Option Copy)) : FMap (Option Copy) :=
  m.map fun e => (e.1, e.2.map fun c => if c.wg = some g then f c else c)

/-- The stream of a workgroup, where it has one, is changed by f. -/
def mapStreamOf (f : State → Stream → Stream) (w : Workgroup) (s : State) : State :=
  match w.stream with
  | some k => match s.stream k with
    | some x => s.putStream k (f s x)
    | none => s
  | none => s

theorem mapStreamOf_streams (f : State → Stream → Stream) (w : Workgroup) (s : State) :
    mapStreamOf f w s = { s with streams := (mapStreamOf f w s).streams } := by
  unfold mapStreamOf; repeat' split
  all_goals rfl

theorem fget_mapCopiesOf (f : Copy → Copy) (g : Nat) (m : FMap (Option Copy)) (k : Nat) :
    fget noEntry (mapCopiesOf f g m) k = (fget noEntry m k).map fun c => if c.wg = some g then f c else c :=
  fget_mapEntries _ m k

/-- The workgroup as its save leaves it. -/
def Workgroup.asSaved (w : Workgroup) : Workgroup :=
  { w with saved := true, sharedBad := [], window := w.window.map fun x => { x with dirty := [], bad := [] } }

/-- Its teams leave the folding orders. -/
def leftFoldOrder (s : State) (w : Workgroup) : FMap (List Nat) :=
  s.foldOrder.filterMap fun e =>
    let l := e.2.filter fun u => !w.teams.contains u
    if l.isEmpty then none else some (e.1, l)

/-- The copies, the stream and the teams of a workgroup that is saved. -/
def savedBeside (s : State) (g : Nat) (w : Workgroup) : State :=
  w.teams.foldl (mapTeam Team.freshFrame) (mapStreamOf savedStream w
    { s with foldOrder := leftFoldOrder s w, copies := mapCopiesOf Copy.asSaved g s.copies })

/-- The state once the tiles of workgroup g's save are written. -/
def saveWritten (s : State) (g : Nat) (w : Workgroup) : State :=
  match (savedBeside s g w).wg g with
  | none => savedBeside s g w
  | some x => (savedBeside s g w).putWg g x.asSaved

section written
variable (s : State) (g : Nat) (w : Workgroup)

theorem savedBeside_frame : savedBeside s g w = { s with
    foldOrder := leftFoldOrder s w
    copies := mapCopiesOf Copy.asSaved g s.copies
    streams := (savedBeside s g w).streams
    teams := (savedBeside s g w).teams } := by
  unfold savedBeside
  rw [mapTeams_teams, mapStreamOf_streams]

theorem savedBeside_wg : (savedBeside s g w).wg g = s.wg g := by rw [State.wg, savedBeside_frame]; rfl

theorem savedBeside_team (u : Nat) : (savedBeside s g w).team u =
    (s.team u).map fun t => if u ∈ w.teams then t.freshFrame else t := by
  have same : (mapStreamOf savedStream w { s with
      foldOrder := leftFoldOrder s w, copies := mapCopiesOf Copy.asSaved g s.copies }).team u =
      s.team u := by
    rw [State.team, mapStreamOf_streams]; rfl
  unfold savedBeside
  by_cases mem : u ∈ w.teams
  · rw [mapTeams_team_idempotent Team.freshFrame _ (fun _ => rfl) mem, same]; simp only [mem, if_true]
  · rw [mapTeams_team_not_mem Team.freshFrame _ mem, same]; simp [mem]

/-- Marking the workgroup changes its own entry alone. -/
theorem saveWritten_wgs : saveWritten s g w = { savedBeside s g w with wgs := (saveWritten s g w).wgs } := by
  unfold saveWritten; split <;> rfl

theorem saveWritten_wg : (saveWritten s g w).wg g = (s.wg g).map Workgroup.asSaved := by
  unfold saveWritten
  rw [← savedBeside_wg s g w]
  split
  next none_ => rw [none_]; rfl
  next x has => rw [has, State.wg_putWg_same]; rfl

theorem saveWritten_copy (k : Nat) : (saveWritten s g w).copy k =
    (s.copy k).map fun c => if c.wg = some g then c.asSaved else c := by
  rw [State.copy, saveWritten_wgs, savedBeside_frame]
  exact fget_mapCopiesOf _ g s.copies k

theorem saveWritten_team (u : Nat) : (saveWritten s g w).team u =
    (s.team u).map fun t => if u ∈ w.teams then t.freshFrame else t := by
  rw [State.team, saveWritten_wgs]
  exact savedBeside_team s g w u

theorem saveWritten_frame : saveWritten s g w = { s with
    foldOrder := (saveWritten s g w).foldOrder, copies := (saveWritten s g w).copies
    streams := (saveWritten s g w).streams, teams := (saveWritten s g w).teams, wgs := (saveWritten s g w).wgs } := by
  rw [saveWritten_wgs, savedBeside_frame]

end written

/-! ### The three endings of a save -/

section endings
variable {s : State} {g : Nat} {w : Workgroup} (has : s.wg g = some w)

/-- A workgroup that is to be saved, its copies halted and its teams' stores performed. -/
def saveReady (s : State) (g : Nat) (w : Workgroup) : State :=
  w.teams.foldl saveTeam (w.teams.foldl drainAll (haltCopies s g))

/-- The granule whose check word fails that its save reads first. -/
def readyBad (s : State) (g : Nat) (w : Workgroup) : Option Nat :=
  saveBad (saveReady s g w) (((saveReady s g w).wg g).getD w)

include has

theorem saveWorkgroup_full (full : saveArea (saveReady s g w) w.part < saveUse (saveReady s g w) w.part + saveSize s w) :
    saveWorkgroup s g = stopWorkgroup (setSaveFull (saveReady s g w) w.part) g 0 := by
  unfold saveWorkgroup
  unfold saveReady at full ⊢
  generalize writeSave = W
  generalize saveSize = size at full ⊢
  generalize saveArea = area at full ⊢
  generalize saveUse = used at full ⊢
  generalize stopWorkgroup = stop
  as_aux_lemma =>
    simp only [has, full, if_true]

theorem saveWorkgroup_room (room : saveUse (saveReady s g w) w.part + saveSize s w ≤ saveArea (saveReady s g w) w.part)
    {ok : Bool} {s' : State} (wrote : writeSave g (readyBad s g w) (saveSize s w / 65536) (saveReady s g w) = (ok, s')) :
    saveWorkgroup s g = if ok then saveWritten s' g w
      else if (readyBad s g w).isSome then stopWorkgroup s' g 9 else stopWorkgroup (setSaveFull s' w.part) g 0 := by
  replace room := Nat.not_lt.2 room
  unfold saveWorkgroup
  unfold readyBad saveReady at *
  generalize writeSave = W at wrote ⊢
  generalize saveSize = size at room wrote ⊢
  generalize saveArea = area at room ⊢
  generalize saveUse = used at room ⊢
  generalize stopWorkgroup = stop
  as_aux_lemma =>
    simp only [has, room, if_false, wrote]
    cases ok <;> rfl

/-- A save with room for it, by how its tiles are written. -/
theorem saveWorkgroup_endings (room : saveUse (saveReady s g w) w.part + saveSize s w ≤ saveArea (saveReady s g w) w.part)
    {wr : Bool × State} (wrote : writeSave g (readyBad s g w) (saveSize s w / 65536) (saveReady s g w) = wr) :
    (wr.1 = false → readyBad s g w = none → saveWorkgroup s g = stopWorkgroup (setSaveFull wr.2 w.part) g 0) ∧
    (wr.1 = false → readyBad s g w ≠ none → saveWorkgroup s g = stopWorkgroup wr.2 g 9) ∧
    (wr.1 = true → saveWorkgroup s g = saveWritten wr.2 g w) := by
  obtain ⟨ok, s'⟩ := wr
  rw [saveWorkgroup_room has room wrote]
  generalize readyBad s g w = bad
  refine ⟨?_, ?_, ?_⟩
  · rintro rfl rfl; rfl
  · rintro rfl some_; exact if_pos (Option.isSome_iff_ne_none.2 some_)
  · rintro rfl; rfl

end endings

theorem workgroupSaves : WorkgroupSaves := by
  refine ⟨fun s g w has => ?_, stopWorkgroup_spec⟩
  have ready : w.teams.foldl saveTeam (w.teams.foldl drainAll (haltCopies s g)) = saveReady s g w := rfl
  have reads : saveBad (saveReady s g w) (((saveReady s g w).wg g).getD w) = readyBad s g w := rfl
  dsimp only
  rw [ready, reads]
  refine ⟨saveWorkgroup_full has, fun room => ?_⟩
  obtain ⟨lost, refused, written⟩ := saveWorkgroup_endings has room (Eq.refl _)
  refine ⟨lost, refused, fun wrote => ?_⟩
  rw [written wrote]
  exact ⟨fun x here => by rw [saveWritten_wg, here]; rfl, fun k c here => by rw [saveWritten_copy, here]; rfl,
    fun u t here => by rw [saveWritten_team, here]; rfl, saveWritten_frame ..⟩

end Sys2Proof.Machine
end

section
/-! PROOFS. PreemptionEvents, the four events: a write of a manual request, an expansion, and the save and the restore of a
workgroup (R259, R261, R263, R264, R308, R323). -/

namespace Sys2Proof.Machine

set_option Elab.async false

open Sys2Proof.Claims

/-! ### PREEMPT_WRITE (R259, R323) -/

section manual
variable (s : State) (n : Nat) (v : DWord)

/-- The room that a write of PREEMPT_n asks for. -/
def manualWant (v : DWord) : Room :=
  { ctx := v.toNat % 2 ^ 13, regs := v.toNat / 2 ^ 14 % 2 ^ 18, lmem := v.toNat / 2 ^ 32 % 2 ^ 21 }

/-- The state with the fields of the write kept. -/
def keptWrite (s : State) (n : Nat) (v : DWord) : State :=
  s.putDreg (aPreempt n) (merge 0x0FDFFFFFFFFFDFFF#64 (s.dreg (aPreempt n)) v)

theorem manualWant_eq : ({ ctx := dfld v 0 13, regs := dfld v 14 18, lmem := dfld v 32 21 } : Room) = manualWant v := by
  rw [dfld_low]; rfl

theorem writePreempt_fields (bare : v.getLsbD 63 = false) : writePreempt s n v = keptWrite s n v := by
  unfold writePreempt
  rw [bare]
  rfl

theorem writePreempt_withdraws (go : v.getLsbD 63 = true)
    (withdrawn : manualWant v = Room.zero ∨ clState (keptWrite s n v) (n / 4) ≠ 0) :
    writePreempt s n v = showRequest (endRequests (keptWrite s n v) fun q => q.core == n && q.source == 2) n := by
  unfold writePreempt
  rw [go, manualWant_eq]
  exact if_pos withdrawn

theorem writePreempt_requests (go : v.getLsbD 63 = true) (want : manualWant v ≠ Room.zero)
    (on : clState (keptWrite s n v) (n / 4) = 0) :
    writePreempt s n v = addRequest (keptWrite s n v)
      { core := n, source := 2, want := manualWant v, took := Room.zero, rank := dfld v 54 6, launch := 0
        item := 0, users := [], order := 0, saves := false } := by
  unfold writePreempt
  rw [go, manualWant_eq]
  exact if_neg (not_or.2 ⟨want, not_not.2 on⟩)

end manual

/-! ### FOLD_EXPANSION (R259, R263) -/

section expansion
variable (s : State) (core : Nat)

/-- The level that team u expands to, where it may. -/
def expandsTo (s : State) (core u : Nat) : Option (Nat × Nat) :=
  (s.team u).bind fun t => (expandLevel s core t).map fun k => (u, k)

theorem expandsTo_eq_some {u : Nat} {x : Nat × Nat} :
    expandsTo s core u = some x ↔ x.1 = u ∧ ∃ t, s.team u = some t ∧ expandLevel s core t = some x.2 := by
  obtain ⟨v, k⟩ := x
  simp only [expandsTo, Option.bind_eq_some_iff, Option.map_eq_some_iff, Prod.mk.injEq]
  constructor
  · rintro ⟨t, has, j, level, rfl, rfl⟩; exact ⟨rfl, t, has, level⟩
  · rintro ⟨rfl, t, has, level⟩; exact ⟨t, has, k, level, rfl, rfl⟩

theorem expandsTo_eq_none {u : Nat} (unable : ∀ k, ¬ ∃ t, s.team u = some t ∧ expandLevel s core t = some k) :
    expandsTo s core u = none :=
  Option.eq_none_iff_forall_ne_some.2 fun x is => unable x.2 ((expandsTo_eq_some s core).1 is).2

theorem expandCore_waits (waits : fget falseAt s.roomBack core = false ∨ ∃ r ∈ s.reqs, r.core = core ∧ r.want.le r.took = false) :
    expandCore s core = s := by
  unfold expandCore
  refine if_pos ?_
  obtain back | ⟨r, mem, here, unmet⟩ := waits
  · rw [back]; rfl
  · rw [Bool.or_eq_true]
    exact .inr (List.any_eq_true.2 ⟨r, mem, by rw [here, unmet]; simp⟩)

/-- Where room has returned and no request of the core is unmet, the first team of its folding order that may expand does. -/
theorem expandCore_offers (back : fget falseAt s.roomBack core = true)
    (met : ∀ r ∈ s.reqs, r.core = core → r.want.le r.took = true) :
    expandCore s core = match (fget (fun _ => ([] : List Nat)) s.foldOrder core).findSome? (expandsTo s core) with
      | some (u, k) => expandTeam s core u k
      | none => { s with roomBack := fset falseAt s.roomBack core false } := by
  have none_ : (s.reqs.any fun r => r.core == core && !r.want.le r.took) = false := by
    refine List.any_eq_false.2 fun r mem unmet => ?_
    rw [Bool.and_eq_true, beq_iff_eq, Bool.not_eq_true'] at unmet
    rw [met r mem unmet.1] at unmet
    cases unmet.2
  unfold expandCore
  rw [back, none_]
  rfl

end expansion

/-! ### WORKGROUP_SAVE (R264) -/

section saving
variable {s : State} {g : Nat} {w : Workgroup} (has : s.wg g = some w)
include has

theorem saveForRequest_not (not : w.saved = true ∨ w.agent = true ∨ streamDrained s w = false) : saveForRequest s g = s := by
  unfold saveForRequest
  rw [has]
  refine if_pos ?_
  simpa only [Bool.not_eq_true'] using not

variable (live : w.saved = false) (unit : w.agent = false) (drained : streamDrained s w = true)
include live unit drained

theorem saveForRequest_drained : saveForRequest s g = match (sortBy requestOrder s.reqs).find? (saveWanted s g w) with
    | none => s
    | some r =>
      if (((saveWorkgroup (charge s (some w.part)) g).wg g).map fun w => w.saved).getD false then
        showRequest { saveWorkgroup (charge s (some w.part)) g with
          reqs := (saveWorkgroup (charge s (some w.part)) g).reqs.map fun q =>
            if q = r then { r with took := r.took.add (wgRoom s w), saves := true } else q } w.core
      else saveWorkgroup (charge s (some w.part)) g := by
  unfold saveForRequest
  rw [has]
  generalize saveWorkgroup = save
  as_aux_lemma =>
    refine if_neg ?_
    rw [live, unit, drained]
    decide

end saving

/-! ### WORKGROUP_RESTORE (R162, R169, R264, R428) -/

theorem MemSide.eachTile {f : State → Nat → Bool × State} (side : ∀ s va, MemSide s (f s va).2) (s : State) (unit : Nat) :
    MemSide s (eachTile f s unit).2 := by
  unfold Machine.eachTile
  generalize List.range 32 = l
  refine foldl_keeps (fun x : Bool × State => MemSide s x.2) _ ?_ l (true, s) (.refl s)
  intro x i h
  exact h.trans (side x.2 _)

theorem MemSide.readSave (s : State) (w : Workgroup) (core : Nat) : MemSide s (readSave s w core).2 := by
  have read (s : State) (unit : Nat) :
      MemSide s (Machine.eachTile (fun s va => Machine.areaRead s (some w.part) core none va) s unit).2 :=
    MemSide.eachTile (fun s va => MemSide.areaRead s ..) s unit
  unfold Machine.readSave
  generalize Machine.eachTile = E at read ⊢
  as_aux_lemma =>
    refine foldl_keeps (fun x : Bool × State => MemSide s x.2) _ ?_ w.saveUnits (true, s) (.refl s)
    intro x unit h
    exact h.trans (read x.2 unit)

/-- A team whose pause goes on from a clock's reading. -/
def Team.resumedAt (now : Nat) (t : Team) : Team :=
  { t with pauseEnd := if t.pauseEnd = 0 then 0 else now + t.pauseEnd, issueAt := now }

/-- A copy that goes on from another core. -/
def Copy.movedTo (core : Nat) (c : Copy) : Copy := { c with saved := false, core := some core }

/-- A stream that goes on in the cluster of a core. -/
def Stream.movedTo (core : Nat) (s : State) (x : Stream) : Stream :=
  { x with cluster := core / 4, readyAt := x.readyAt.map fun _ => cyclesOf s (core / 4) }

/-- A workgroup that is on a core again. -/
def Workgroup.movedTo (core : Nat) (w : Workgroup) : Workgroup := { w with saved := false, saveUnits := [], core := core }

/-- A workgroup's copies and its stream return to a core. -/
def returnedBeside (s : State) (g : Nat) (w : Workgroup) (core : Nat) : State :=
  mapStreamOf (Stream.movedTo core) w { s with copies := mapCopiesOf (Copy.movedTo core) g s.copies }

/-- The folding order of a core that a workgroup returns to: its folded teams come first. -/
def returnedOrder (s : State) (w : Workgroup) (core : Nat) : List Nat :=
  (w.teams.filter fun u => ((s.team u).map fun t => decide (0 < t.rlvl)).getD false) ++
    fget (fun _ => ([] : List Nat)) s.foldOrder core

/-- A workgroup returns to a core, but its teams' clocks. -/
def returned (s : State) (g : Nat) (w : Workgroup) (core : Nat) : State :=
  (roomReturns { returnedBeside s g w core with
    foldOrder := fset (fun _ => []) (returnedBeside s g w core).foldOrder core (returnedOrder (returnedBeside s g w core) w core) }
    core).putWg g (w.movedTo core)

/-- A workgroup returns to a core with its teams. -/
def restored (s : State) (g : Nat) (w : Workgroup) (core : Nat) : State :=
  w.teams.foldl (fun s u => restoreTeam s core u) (returned s g w core)

section restoring
variable (s : State) (g : Nat) (w : Workgroup) (core : Nat)

theorem restoreTeam_eq (u : Nat) : restoreTeam s core u = mapTeam (Team.resumedAt (clockTenths s (core / 4))) s u := by
  unfold restoreTeam mapTeam; cases s.team u <;> rfl

theorem clockTenths_mapTeam (f : Team → Team) (u c : Nat) : clockTenths (mapTeam f s u) c = clockTenths s c := by
  rw [mapTeam_teams]; rfl

/-- Restoring teams changes no clock, so that all of them go on from one reading. -/
theorem restoreTeams_eq (l : List Nat) : l.foldl (fun s u => restoreTeam s core u) s =
    l.foldl (mapTeam (Team.resumedAt (clockTenths s (core / 4)))) s := by
  induction l generalizing s with
  | nil => rfl
  | cons u l ih => rw [List.foldl_cons, List.foldl_cons, ih, restoreTeam_eq, clockTenths_mapTeam]

theorem restored_eq : restored s g w core =
    w.teams.foldl (mapTeam (Team.resumedAt (clockTenths (returned s g w core) (core / 4)))) (returned s g w core) :=
  restoreTeams_eq ..

theorem restored_teams : restored s g w core = { returned s g w core with teams := (restored s g w core).teams } := by
  rw [restored_eq]; exact mapTeams_teams ..

theorem clockTenths_restored (c : Nat) : clockTenths (restored s g w core) c = clockTenths (returned s g w core) c := by
  rw [restored_teams]; rfl

theorem returnedBeside_streams : returnedBeside s g w core =
    { s with copies := mapCopiesOf (Copy.movedTo core) g s.copies, streams := (returnedBeside s g w core).streams } := by
  unfold returnedBeside; rw [mapStreamOf_streams]

theorem returned_team (u : Nat) : (returned s g w core).team u = s.team u :=
  (congrArg (fun s => s.team u) (returnedBeside_streams s g w core) :)

theorem restored_wg : (restored s g w core).wg g = some (w.movedTo core) := by
  rw [State.wg, restored_teams]; exact State.wg_putWg_same ..

theorem restored_copy (k : Nat) : (restored s g w core).copy k =
    (s.copy k).map fun c => if c.wg = some g then c.movedTo core else c := by
  have beside : (returnedBeside s g w core).copies = mapCopiesOf (Copy.movedTo core) g s.copies := by
    rw [returnedBeside_streams]
  rw [State.copy, restored_teams]
  exact (congrArg (fget noEntry · k) beside).trans (fget_mapCopiesOf ..)

theorem restored_team_other {u : Nat} (other : u ∉ w.teams) : (restored s g w core).team u = s.team u := by
  rw [restored_eq, mapTeams_team_not_mem _ _ other, returned_team]

theorem restored_team {u : Nat} (once : w.teams.Nodup) (mem : u ∈ w.teams) : (restored s g w core).team u =
    (s.team u).map (Team.resumedAt (clockTenths (restored s g w core) (core / 4))) := by
  rw [clockTenths_restored, restored_eq, mapTeams_team_nodup _ _ once mem, returned_team]

end restoring

theorem restoreOn_eq {s : State} {g : Nat} {w : Workgroup} (has : s.wg g = some w) (core : Nat) {got : Bool × State}
    (reads : readSave (charge s (some w.part)) w core = got) :
    restoreOn s g core = if got.1 then w.teams.foldl spillCheck (restored got.2 g w core)
      else stopWorkgroup (restored got.2 g w core) g 9 := by
  unfold restoreOn
  generalize readSave = R at reads
  generalize stopWorkgroup = stop
  as_aux_lemma =>
    rw [has]
    dsimp only
    rw [reads]
    rfl

section restoreWorkgroup
variable {s : State} {g : Nat} {w : Workgroup} (has : s.wg g = some w) (core : Nat)
include has

theorem restoreWorkgroup_not (not : w.saved = false ∨ coreOpen s w.part (launchRankOf s w.launch) core = false ∨
    restoreFits s g w core = false) : restoreWorkgroup s g core = s := by
  unfold restoreWorkgroup
  rw [has]
  refine if_neg fun all => ?_
  obtain ⟨⟨saved, opened⟩, fits⟩ := (Bool.and_eq_true_iff.1 all).imp_left Bool.and_eq_true_iff.1
  obtain live | shut | big := not
  · rw [saved] at live; cases live
  · rw [opened] at shut; cases shut
  · rw [fits] at big; cases big

theorem restoreWorkgroup_fits (saved : w.saved = true) (opened : coreOpen s w.part (launchRankOf s w.launch) core = true)
    (fits : restoreFits s g w core = true) : restoreWorkgroup s g core = restoreOn s g core := by
  unfold restoreWorkgroup
  rw [has]
  exact if_pos (by rw [saved, opened, fits]; rfl)

/-- A workgroup returns: to go on where the tiles of its save pass, to be stopped where one fails. -/
theorem restoreOn_spec : let got := readSave (charge s (some w.part)) w core
    ∃ s2 : State, (got.1 = true → restoreOn s g core = w.teams.foldl spillCheck s2) ∧
      (got.1 = false → restoreOn s g core = stopWorkgroup s2 g 9) ∧ s2.wg g = some (w.movedTo core) ∧
      (∀ u, u ∉ w.teams → s2.team u = s.team u) ∧
      (w.teams.Nodup → ∀ u ∈ w.teams, ∀ t, s.team u = some t →
        s2.team u = some (t.resumedAt (clockTenths s2 (core / 4)))) ∧
      ∀ k c, s.copy k = some c → ∃ c', s2.copy k = some c' ∧ c'.next = c.next ∧
        (c.wg = some g → c'.saved = false ∧ c'.core = some core) ∧ (c.wg ≠ some g → c' = c) := by
  intro got
  have is := restoreOn_eq has core (got := got) rfl
  have side : MemSide s got.2 := (MemSide.charge s _).trans (MemSide.readSave ..)
  clear_value got
  obtain ⟨ok, s1⟩ := got
  refine ⟨restored s1 g w core, ?_, ?_, restored_wg .., fun u other => ?_, fun once u mem t here => ?_, fun k c here => ?_⟩
  · rintro rfl; exact is
  · rintro rfl; exact is
  · rw [restored_team_other _ _ _ _ other, side.team]
  · rw [restored_team _ _ _ _ once mem, side.team, here]; rfl
  · refine ⟨_, by rw [restored_copy, side.copy, here]; rfl, ?_⟩
    dsimp only
    split
    next own => exact ⟨rfl, fun _ => ⟨rfl, rfl⟩, fun other => absurd own other⟩
    next other => exact ⟨rfl, fun own => absurd own other, fun _ => rfl⟩

end restoreWorkgroup

/-! ### The claim -/

theorem findSome_first {s : State} {core u k : Nat} {pre post order : List Nat} (is : order = pre ++ u :: post)
    (before : ∀ j ∈ pre, ∀ i, ¬ ∃ t, s.team j = some t ∧ expandLevel s core t = some i)
    (able : ∃ t, s.team u = some t ∧ expandLevel s core t = some k) : order.findSome? (expandsTo s core) = some (u, k) :=
  List.findSome?_eq_some_iff.2 ⟨pre, u, post, is, (expandsTo_eq_some s core).2 ⟨rfl, able⟩,
    fun j mem => expandsTo_eq_none s core (before j mem)⟩

theorem preemptionEvents_holds : Claims.PreemptionEvents := by
  intro s n core g v
  refine ⟨⟨fun bare => ?_, fun go withdrawn => ?_, fun go want on => ?_⟩, fun waits => ?_, fun back met => ⟨?_, ?_⟩,
    fun w has => ⟨fun not => ?_, fun live unit drained => ⟨fun none_ => ?_, fun r first => ⟨?_, ?_⟩⟩, fun saved opened fits => ?_,
      fun not => ?_⟩⟩
  · rw [exec_preemptWrite, execPreemptWrite, writePreempt_fields s n v bare]; rfl
  · rw [exec_preemptWrite, execPreemptWrite, writePreempt_withdraws s n v go withdrawn]; rfl
  · rw [exec_preemptWrite, execPreemptWrite, writePreempt_requests s n v go want on]; rfl
  · rw [exec_foldExpansion, execFoldExpansion, expandCore_waits s core waits]
  · intro pre u post k is before able
    rw [exec_foldExpansion, execFoldExpansion, expandCore_offers s core back met, findSome_first is before able]
  · intro unable
    rw [exec_foldExpansion, execFoldExpansion, expandCore_offers s core back met,
      List.findSome?_eq_none_iff.2 fun u mem => expandsTo_eq_none s core (unable u mem)]
  · rw [exec_workgroupSave, execWorkgroupSave, saveForRequest_not has not]
  · rw [exec_workgroupSave, execWorkgroupSave, saveForRequest_drained has live unit drained,
      List.find?_eq_none.2 fun r mem => by rw [none_ r ((mem_sortBy ..).1 mem)]; exact Bool.false_ne_true]
  · rintro ⟨w1, now, saved⟩
    rw [exec_workgroupSave, execWorkgroupSave, saveForRequest_drained has live unit drained, first]
    dsimp only
    rw [if_pos (by rw [now]; exact saved)]
  · intro lost
    rw [exec_workgroupSave, execWorkgroupSave, saveForRequest_drained has live unit drained, first]
    dsimp only
    rw [if_neg]
    cases now : (saveWorkgroup (charge s (some w.part)) g).wg g with
    | none => exact Bool.false_ne_true
    | some w1 => exact Bool.eq_false_iff.1 (lost w1 now)
  · obtain ⟨s2, passes, fails, beside⟩ := restoreOn_spec has core
    rw [exec_workgroupRestore, execWorkgroupRestore, restoreWorkgroup_fits has core saved opened fits]
    exact ⟨s2, fun ok => by rw [passes ok], fun bad => by rw [fails bad], beside⟩
  · rw [exec_workgroupRestore, execWorkgroupRestore, restoreWorkgroup_not has core not]

/-- Settles O43: by what requests take and give back, by the endings of a save, and by an equation for each case of the four
events. -/
theorem preemptionEvents : Obligations.PreemptionEvents := ⟨roomGiven, workgroupSaves, preemptionEvents_holds⟩

end Sys2Proof.Machine
end
